-- ==== Sys2Proof/Word.lean ====
section
/-! DEFINITION. The plain data every other file counts in: bytes, 32-bit register words, and sparse tables. -/

namespace Sys2Proof

/-- One byte of a frame, of a host structure or of a memory. -/
abbrev Byte := BitVec 8

/-- One register of the window: every register is 32 bits wide (15/R441). -/
abbrev Word := BitVec 32

/-- A sparse array: the listed keys, strictly rising, with their values.
A key that is not listed holds the default that each table's user names. -/
abbrev Table (α : Type) := List (Nat × α)

end Sys2Proof
end

