-- ==== Sys2Proof/Syntax.lean ====
section
/-! DEFINITION. The commands of the block: one constructor per row of spec/opcode_table.json, with what the sender of the
command supplies.  A row's operands are what its rule leaves to the world outside the step: which port, slice, bank or
register it concerns, the bytes that arrive, what a memory read returns, and whether an uncorrectable error struck. -/

namespace Sys2Proof

/-- The header of a Yelelle command as fetched (Table 12-3), with the ring it came from. -/
structure CmdHeader where
  /-- Function that issued it, 0–3 (Table 15-4); host port is fn div 2. -/
  fn : Nat
  ring : Nat
  replyRing : Nat
  opcode : Nat
  slices : Nat
  dev : Nat
  prio : Nat
  tag : Nat
  cls : Nat
  resume : Bool
  order : Nat
  /-- Every reserved bit of the header is zero. -/
  reservedZero : Bool
  /-- The command came in over a chain port: its reply goes back there. -/
  viaChain : Option Nat
  deriving DecidableEq, Repr

/-- How a request reaches a register (Table 15-3): with no byte enabled, by its bytes, unaligned, or as a request other than
a memory read or write. -/
inductive Width where
  | none | w8 | w16 | w32 | w64 | unaligned | unsupported
  deriving DecidableEq, Repr

/-- Who makes a register access (Table 15-4), and whether through REG_READ or REG_WRITE. -/
structure Requester where
  id : Nat
  viaCmd : Bool
  deriving DecidableEq, Repr

/-- A request of the partner during training (Table 11-3): a preset, or a tap c(k) to hold (0), increment (1) or
decrement (2). -/
inductive TrainRequest where
  | preset (n : Nat)
  | coefficient (tap : Int) (update : Nat)
  deriving DecidableEq, Repr

/-- What a link attempt leaves of one lane: its SNR in units of 2^-16 dB, whether its receiver detects signal and recovers
clock, whether the partner asks for precoding, what else it asks in training, and the lane's equaliser settings, by
target × 256 + index. -/
structure LaneResult where
  snr : Int
  signal : Bool
  cdr : Bool
  asksPre : Bool
  requests : List TrainRequest
  settings : Table Nat
  deriving DecidableEq, Repr

/-- What the check bits of the words a step reads find: nothing, a single-bit error, which is corrected, or one that is
uncorrectable. -/
inductive Ecc where
  | ok | ce | ue
  deriving DecidableEq, Repr

/-- A microword as an engine fetches it: whether the condition of a BRANCH holds, and what its check bits find: nothing, an
uncorrectable error of one die's copy, or of both. -/
structure MicroWord where
  holds : Bool
  ecc : Ecc
  deriving DecidableEq, Repr

/-- What a bank's check bits find as it serves a head: hot slots that read uncorrectable, places of its write-back buffer
and of its pending table that do, whether both copies of the group map entry do, and whether a single-bit error of a hot
slot, or of a group map entry, was corrected. -/
structure BankFaults where
  hot : List Nat
  writeBack : List Nat
  pending : List Nat
  groupMap : Bool
  hotCe : Bool
  mapCe : Bool
  deriving DecidableEq, Repr

/-- What soft errors and the check bits do while a head is classified: places of the ternary array whose compare reports a
match (`hits`), with whether the re-read of the place is uncorrectable, and places whose true match it misses; for each
direct-indexed entry found uncorrectable, its table (numbered as DT_WRITE does), its index, and whether both copies are;
whether the prefix search reads an uncorrectable word; places of the MAC table, bucket × 4 + way, that read uncorrectable. -/
structure ClassFaults where
  hits : List (Nat × Bool)
  missed : List Nat
  entries : List (Nat × Nat × Bool)
  prefixUe : Bool
  mac : List Nat
  deriving DecidableEq, Repr

/-- An IEEE 1149.1 instruction: the two that every lifecycle offers, those of boundary scan, and a code that names none. -/
inductive TapOp where
  | bypass | idcode | extest | samplePreload | other (code : Nat)
  deriving DecidableEq, Repr

/-- What a start finds: whether secure OTP fails its check (16/R469), whether TAMPER_IN is asserted, whether the time PLL
has its reference; and what training finds: stacks whose controller reports them as down, channels (two pseudo-channels each)
with no wide enough command and address window, and the read and write window widths of each pseudo-channel. -/
structure StartInfo where
  otpFault : Bool
  tamper : Bool
  timeRef : Bool
  down : List Nat
  ca : List Nat
  rwin : List Nat
  wwin : List Nat
  deriving DecidableEq, Repr

/-- How a read of host memory ends: with data, by completion timeout, as an unsupported request or completer abort, or
poisoned. -/
inductive ReadEnd where
  | ok | timeout | denied | poisoned
  deriving DecidableEq, Repr

/-- The commands of the block. -/
inductive Instr where
  /-- FRAME_RECEIVE (R347). A frame's first byte arrives at an UP port; the receive checks run and its bytes are stored in the macro's receive buffer. `bytes`: the frame, FCS included; `errored`: an uncorrectable codeword lies within it. -/
  | frameReceive (port : Nat) (bytes : List Byte) (errored : Bool)
  /-- FRAME_TAIL (R67). A frame's tail arrives and its FCS is checked; a bad FCS makes the tail verdict bad. -/
  | frameTail (frame : Nat)
  /-- HEAD_PARSE (R104). A head takes a parse engine and runs one pass of the parse program, producing the header vector and key. `ue`: an uncorrectable read, of the step executed as this number from 0 or of its transitions; past the last step, of the access map. -/
  | headParse (slice : Nat) (ue : Option Nat)
  /-- CLASSIFY (R179). Classification of a pass completes when its slowest lookup and any inline-scan wait complete. -/
  | classify (frame : Nat) (faults : ClassFaults)
  /-- FLOW_LOOKUP (R79). The owning flow core bank serves a head's lookup against the merge register, write-back buffer and hot bucket. -/
  | flowLookup (frame : Nat) (faults : BankFaults)
  /-- TAG_LINE_READ (R79). The cold bucket's tag line returns from HBM and its ways are compared with the key's tag. `bad`: ways whose record does not read when an uncorrectable line is rebuilt. -/
  | tagLineRead (frame : Nat) (ecc : Ecc) (bad : List Nat)
  /-- RECORD_BURSTS_READ (R79). A candidate record's two bursts return and its key is verified. -/
  | recordBurstsRead (frame : Nat) (ecc : Ecc)
  /-- WRITE_BACK_DONE (R78). An evicted record's burst writes complete and its write-back buffer entry frees. Entry of the bank's write-back buffer, by its place. -/
  | writeBackDone (bank entry : Nat)
  /-- LEARN_REQUEST (R61). A full miss reaches its slice; no-learn cases and port learning limits are checked and a learn is queued. -/
  | learnRequest (frame : Nat)
  /-- FITCH_LEARN (R80). Fitch takes a learn, resolves the action set, chooses a way and writes the new record hot and cold. `ue`: 64-byte lines of the shared space that read uncorrectable. -/
  | fitchLearn (ue : List Nat)
  /-- REWRITE (R191). Once classification and lookup are both done, the action result is merged and applied to the head. `ue`: lines of the target table that read uncorrectable. -/
  | rewrite (frame : Nat) (ue : List Nat)
  /-- POLICER_METER (R277). The policer bank meters a frame and returns its colour. `ue`: the policer's state reads uncorrectable. -/
  | policerMeter (frame : Nat) (ue : Bool)
  /-- CELL_ADMIT (R236). The allocation arbiter serves a frame's first-cell request and Creel admits or refuses it. One cc of a slice's arbiter; `flips`: free cells whose data has been corrupted, with the bits of their link word that have changed. -/
  | cellAdmit (slice : Nat) (flips : List (Nat × Nat))
  /-- WALE_MATCH (R244). The crossbar computes the matching of input to output feeds for one cell time. One cell time; `ue`: a frame whose descriptor reads uncorrectable, and how many of its cells can be reached. -/
  | waleMatch (ue : Option (Nat × Nat))
  /-- UNIT_ARRIVE (R247). A unit reaches its egress queue buffer. The oldest unit in flight from a slice to an egress queue. -/
  | unitArrive (slice port cls : Nat)
  /-- EGRESS_PICK (R266). When a port can start a frame, its scheduler picks one by strict priority and DWRR under shapers and gates. `ue`: a shaper of the port whose state reads uncorrectable, queue shaper 0–7 or the port shaper 8. -/
  | egressPick (port : Nat) (ue : Option Nat)
  /-- FRAME_SENT (R252). The last byte of a frame's FCS is sent and its good verdict issued. -/
  | frameSent (port : Nat)
  /-- CORRECTION (R68). A bad verdict's correction moves the frame from billable to void in hot, cold or zone totals. Which of the waiting corrections, oldest 0. -/
  | correction (index : Nat) (zoneUe : Bool)
  /-- TWIN_NOTICE (R220). A FIN or RST passed in one record of a translated flow is applied at its twin. Which of the notices under way, oldest 0. -/
  | twinNotice (index : Nat)
  /-- MULTICAST_REPLICATE (R250). The replication engine takes an admitted multicast frame and enqueues its copies. One cc of a slice's replication engine. -/
  | multicastReplicate (slice : Nat)
  /-- DEEP_SCAN (R127). The deep-scan engine scans a queued frame's payload as part of its flow stream. -/
  | deepScan (slice : Nat)
  /-- PUNT_DELIVER (R436). A receive channel delivers a punted frame with its metadata and completes its descriptor. Source: a slice 0–7, or 8 + a collector. -/
  | puntDeliver (channel source : Nat)
  /-- L2_LEARN (R175). A slice's learn engine applies one MAC learn. `ue`: places of the table, bucket × 4 + way, that read uncorrectable. -/
  | l2Learn (slice : Nat) (ue : List Nat)
  /-- L2_AGING_PASS (R177). Every AGE_TIME a pass deletes unhit dynamic entries and clears HIT. `ue`: places of the table, bucket × 4 + way, that read uncorrectable. -/
  | l2AgingPass (slice : Nat) (ue : List Nat)
  /-- TCAM_SCRUB (R152). The maintenance port scrubs one ternary entry. -/
  | tcamScrub (slice : Nat) (ecc : Ecc)
  /-- ACTIVITY_TICK (R83). At each activity period every hot record's score ages and recent clears. -/
  | activityTick
  /-- AGING_SWEEP_BATCH (R92). The aging sweep visits its next batch of cold buckets and sends end requests for expired records. How many buckets; `ue`: cold indices whose record reads uncorrectable; `tags`: buckets whose tag line does. -/
  | agingSweepBatch (count : Nat) (ue tags : List Nat)
  /-- END_REQUEST (R93). An end request reaches the owning bank, which retests the age and ends the flow if still expired. -/
  | endRequest
  /-- MIGRATION_DECISION (R89). At each migration window's end Fitch decides whether to move a group. -/
  | migrationDecision
  /-- GROUP_MOVE_BUCKET (R90). Fitch copies one bucket of a moving group to the new frame and advances the cursor. -/
  | groupMoveBucket
  /-- SKEIN_PC_RETIRE (R97). Task 0xF003 runs the Skein's steps for a pseudo-channel retired in service. -/
  | skeinPcRetire
  /-- EPOCH_BOUNDARY (R295). Served time reaches an epoch boundary and every slice and bank switches counter bank. -/
  | epochBoundary (burnFails : Bool)
  /-- EPOCH_SYNC_PULSE (R299). A rising edge on EPOCH_SYNC_IN within a window moves the boundary to it. -/
  | epochSyncPulse (burnFails : Bool)
  /-- SYNC_TIMEOUT (R299). No pulse by B + w sets the boundary there. -/
  | syncTimeout (burnFails : Bool)
  /-- DRAIN_COMPLETE (R302). Outstanding counts of the closed bank reach zero in all slices and the close sweep begins. -/
  | drainComplete
  /-- DRAIN_LIMIT (R307). The drain limit expires; frames holding counts of the closed bank are discarded and a gap added. -/
  | drainLimit
  /-- CLOSE_SWEEP_BUCKET (R303). The close sweep folds one bucket's closed bank into the zone image. `ue`: cold indices of the bucket whose bursts read uncorrectable; `tag`: its tag line does. -/
  | closeSweepBucket (ue : List Nat) (tag : Bool) (zones : List Nat)
  /-- HASH_COMPLETE (R309). The digest tree and configuration digest are computed and the seal body sent for signing. Entries of the port-and-class image that read uncorrectable. -/
  | hashComplete (ue : List Nat)
  /-- SEAL_SIGNED (R314). The Rim returns the seal signature and the seal is published. -/
  | sealSigned
  /-- IMAGE_ZEROED (R302). The released image copy is zeroed and the close completes. -/
  | imageZeroed (burnFails : Bool)
  /-- STANDBY_CLOSE_WAKE (R538). Before a boundary during standby the device leaves retention to close the epoch. `failed`: pseudo-channels that fail the check as the stacks leave self-refresh. -/
  | standbyCloseWake (failed : List Nat)
  /-- NOP (R399). Command that completes after every earlier command of its ORDER. Header and parameters as fetched. -/
  | nop (h : CmdHeader) (p : List Byte)
  /-- ABORT (R382). Command that stops commands of a tag. -/
  | abort (h : CmdHeader) (p : List Byte)
  /-- DEV_INFO (R386). Command that returns device identity and state. -/
  | devInfo (h : CmdHeader) (p : List Byte)
  /-- CHAIN_ENUM (R390). Command that assigns device addresses along the chain. -/
  | chainEnum (h : CmdHeader) (p : List Byte)
  /-- REG_READ (R387). Command that reads consecutive registers of the target device. -/
  | regRead (h : CmdHeader) (p : List Byte)
  /-- REG_WRITE (R387). Command that writes registers of the target device in order. -/
  | regWrite (h : CmdHeader) (p : List Byte)
  /-- COMMIT (R137). Command that commits the draft as the next rule version. Slices that read an uncorrectable error in step 3. -/
  | commit (h : CmdHeader) (p : List Byte) (ue : List Nat)
  /-- VERSION_SWITCH (R137). At the fixed switch cc the new version becomes current in all slices. -/
  | versionSwitch
  /-- ABANDON (R135). Command that abandons the draft. -/
  | abandon (h : CmdHeader) (p : List Byte)
  /-- VERSION_INFO (R134). Command that returns current and oldest versions. -/
  | versionInfo (h : CmdHeader) (p : List Byte)
  /-- STEP_WRITE (R135). Command that writes parse steps in the draft. -/
  | stepWrite (h : CmdHeader) (p : List Byte)
  /-- TRANS_WRITE (R135). Command that writes transition entries in the draft. -/
  | transWrite (h : CmdHeader) (p : List Byte)
  /-- ACCMAP_ADD (R120). Command that adds an access map entry in the draft. -/
  | accmapAdd (h : CmdHeader) (p : List Byte)
  /-- ACCMAP_DEL (R120). Command that deletes an access map entry in the draft. -/
  | accmapDel (h : CmdHeader) (p : List Byte)
  /-- PATTERN_ADD (R124). Command that adds a pattern entry in the draft. -/
  | patternAdd (h : CmdHeader) (p : List Byte)
  /-- PATTERN_DEL (R124). Command that deletes a pattern entry in the draft. -/
  | patternDel (h : CmdHeader) (p : List Byte)
  /-- TCAM_ADD (R156). Command that adds a ternary entry at the lowest free place. -/
  | tcamAdd (h : CmdHeader) (p : List Byte)
  /-- TCAM_INSERT (R157). Command that inserts a ternary entry at a target place, moving entries. Slice and place of each entry that reads uncorrectable as it moves. -/
  | tcamInsert (h : CmdHeader) (p : List Byte) (ue : List (Nat × Nat))
  /-- TCAM_DELETE (R135). Command that deletes a ternary entry in the draft. -/
  | tcamDelete (h : CmdHeader) (p : List Byte)
  /-- TCAM_READ (R145). Command that reads a ternary place. -/
  | tcamRead (h : CmdHeader) (p : List Byte)
  /-- DT_WRITE (R165). Command that edits a per-device direct-indexed table in the draft. -/
  | dtWrite (h : CmdHeader) (p : List Byte)
  /-- VLAN_WRITE (R165). Command that edits a VLAN entry in the draft. -/
  | vlanWrite (h : CmdHeader) (p : List Byte)
  /-- DT_READ (R164). Command that reads a direct-indexed entry in a version or the draft. -/
  | dtRead (h : CmdHeader) (p : List Byte)
  /-- PFX_ADD (R169). Command that adds a prefix in the draft. -/
  | pfxAdd (h : CmdHeader) (p : List Byte)
  /-- PFX_DEL (R169). Command that deletes a prefix in the draft. -/
  | pfxDel (h : CmdHeader) (p : List Byte)
  /-- PFX_LOOKUP (R170). Command that looks up a prefix. -/
  | pfxLookup (h : CmdHeader) (p : List Byte)
  /-- MAC_SEARCH (R178). Command that searches a slice's MAC table. `ue`: slice and place of entries that read uncorrectable; so of the next three. -/
  | macSearch (h : CmdHeader) (p : List Byte) (ue : List (Nat × Nat))
  /-- MAC_NEXT (R178). Command that iterates a slice's MAC table from a cursor. -/
  | macNext (h : CmdHeader) (p : List Byte) (ue : List (Nat × Nat))
  /-- MAC_STATIC_ADD (R178). Command that adds a static MAC entry. -/
  | macStaticAdd (h : CmdHeader) (p : List Byte) (ue : List (Nat × Nat))
  /-- MAC_STATIC_DEL (R178). Command that deletes a static MAC entry. -/
  | macStaticDel (h : CmdHeader) (p : List Byte) (ue : List (Nat × Nat))
  /-- MAC_FLUSH_PORT (R178). Fan-out command that flushes MAC entries of a port. Parts that stop early: part, cursor, and whether by an uncorrectable entry. -/
  | macFlushPort (h : CmdHeader) (p : List Byte) (stops : List (Nat × Nat × Bool))
  /-- FLOW_LOOKUP_KEY (R100). Command that returns a record by key. `ue`: the record reads uncorrectable; `tag`: the tag line does. -/
  | flowLookupKey (h : CmdHeader) (p : List Byte) (ue tag : Bool)
  /-- FLOW_LOOKUP_HANDLE (R100). Command that returns a record by handle. `ue`: the record reads uncorrectable; `tag`: the tag line does. -/
  | flowLookupHandle (h : CmdHeader) (p : List Byte) (ue tag : Bool)
  /-- FLOW_ITERATE (R101). Command that iterates records from a cursor. Cold indices whose record reads uncorrectable, and buckets whose tag line does. -/
  | flowIterate (h : CmdHeader) (p : List Byte) (ue tags : List Nat)
  /-- FLOW_DELETE_KEY (R102). Command that ends a record by key. `ue`: the record reads uncorrectable; `tag`: the tag line does. -/
  | flowDeleteKey (h : CmdHeader) (p : List Byte) (ue tag : Bool)
  /-- FLOW_FLUSH (R103). Fan-out command that ends records by port, zone or class. Parts that stop early, cold indices that read uncorrectable, and buckets whose tag line does. -/
  | flowFlush (h : CmdHeader) (p : List Byte) (stops : List (Nat × Nat × Bool)) (ue tags : List Nat)
  /-- NAT_ADDR_WRITE (R197). Command that writes a NAT address-table entry. -/
  | natAddrWrite (h : CmdHeader) (p : List Byte)
  /-- NAT_POOL_WRITE (R197). Command that writes a NAT pool entry. -/
  | natPoolWrite (h : CmdHeader) (p : List Byte)
  /-- NAT_SUB_LOOKUP (R198). Command that returns a subscriber entry. Lines of the shared space that read uncorrectable. -/
  | natSubLookup (h : CmdHeader) (p : List Byte) (ue : List Nat)
  /-- LB_TARGET_WRITE (R210). Command that writes a target entry. Whether the entry's line reads uncorrectable. -/
  | lbTargetWrite (h : CmdHeader) (p : List Byte) (ue : Bool)
  /-- LB_POOL_REPLACE (R213). Command that refills a pool's buckets by weight. Parts (0 West, 1 East) that fail; lines of target entries that read uncorrectable. -/
  | lbPoolReplace (h : CmdHeader) (p : List Byte) (bad ue : List Nat)
  /-- LB_TARGET_REMOVE (R214). Command that drains or reassigns a target. Whether the entry's line reads uncorrectable. -/
  | lbTargetRemove (h : CmdHeader) (p : List Byte) (ue : Bool)
  /-- LB_TARGET_READ (R210). Command that reads a target entry. Whether the entry's line reads uncorrectable. -/
  | lbTargetRead (h : CmdHeader) (p : List Byte) (ue : Bool)
  /-- CNT_SNAPSHOT (R389). Fan-out command that reads counters in one instant per part. -/
  | cntSnapshot (h : CmdHeader) (p : List Byte)
  /-- COMMAND_FETCH (R400). The fetch arbiter takes one whole command from a ring or the chain buffer into the scheduler. The bytes that the read of the ring slots returns; nothing for a chain source. -/
  | commandFetch (bytes : List Byte)
  /-- ITEM_DISPATCH (R402). An idle engine takes the head of the highest-priority ready list. -/
  | itemDispatch
  /-- COMMAND_STEP_END (R410). An engine reaches a step boundary and checks attention, standby, error, abort and yield. The item's cursor; the microwords fetched since the last boundary; an error delivered to the item in the step. -/
  | commandStepEnd (engine cursor : Nat) (words : List MicroWord) (error : Bool)
  /-- STEP_OVERRUN (R414). An engine passes 4,096 microcycles without STEP_END. -/
  | stepOverrun (engine uaddr : Nat)
  /-- ENG_HANG (R414). An engine passes 1,048,576 microcycles without STEP_END and ends its item. -/
  | engHang (engine uaddr cursor : Nat)
  /-- SCHEDULER_TICK (R404). At each scheduler tick due timers are released and TICK values applied. -/
  | schedulerTick
  /-- REPLY_WRITE (R373). A reply is written to its reply ring once room exists, index written back and vector signalled. -/
  | replyWrite (hp ring : Nat)
  /-- NAT_BLOCK_SWEEP (R209). Once a second the block sweep holds or frees empty NAT blocks. -/
  | natBlockSweep
  /-- WITHY_FOLD (R166). Task 0xF006 folds or frees withy overrides after a commit or retirement. -/
  | withyFold
  /-- IPFIX_TEMPLATE (R224). A collector's template set is sent at enable and every TPL_REFRESH. -/
  | ipfixTemplate (collector : Nat)
  /-- IPFIX_FLUSH (R224). A partly filled IPFIX message is sent FLUSH_MS after its first record. -/
  | ipfixFlush (collector : Nat)
  /-- CHAIN_TOKEN (R390). An address token arrives on CHAIN0 and the device takes its address and passes the next. -/
  | chainToken (port value : Nat)
  /-- CHAIN_COMMAND_RELAY (R391). A relayed command arrives on a chain port and is forwarded or executed. -/
  | chainCommandRelay (port : Nat) (h : CmdHeader) (p : List Byte)
  /-- CHAIN_REPLY (R391). A relayed reply reaches the root and is written to its reply ring. -/
  | chainReply (port dev fn tag opcode status partMask cursor : Nat) (data : List Byte)
  /-- CHAIN_ACK_TIMEOUT (R392). A relayed command unacknowledged within ACK_US is answered ST_TIMEOUT. -/
  | chainAckTimeout (dev tag : Nat)
  /-- CHAIN_LINK_CHANGE (R393). A chain link goes down or up and a chain event is posted. -/
  | chainLinkChange (port : Nat) (up : Bool) (peer : Nat) (lost : Bool)
  /-- HOST_LINK_UP (R390). A host port link comes up and the device becomes root. -/
  | hostLinkUp (hp gen width : Nat)
  /-- HOST_LINK_DOWN (R368). A host port link is lost; its functions' rings, channels and semaphores stop. -/
  | hostLinkDown (hp : Nat)
  /-- FUNCTION_LEVEL_RESET (R368). A function-level reset stops the function's rings and channels and releases its semaphores. -/
  | functionLevelReset (fn : Nat)
  /-- PERST (R527). A PCIe fundamental reset resets only its host port. -/
  | perst (hp : Nat)
  /-- SEMAPHORE_ACQUIRE (R369). A read of a semaphore acquires it if free or returns the owner. `wide`: an aligned 64-bit read of two semaphores. -/
  | semaphoreAcquire (req : Requester) (offset : Nat) (wide : Bool)
  /-- SEMAPHORE_RELEASE (R369). A write of the owner's ID releases the semaphore. -/
  | semaphoreRelease (req : Requester) (offset value : Nat)
  /-- SEMAPHORE_FORCE_RELEASE (R369). A PF0 write with FORCE releases a semaphore whatever its owner. -/
  | semaphoreForceRelease (req : Requester) (offset value : Nat)
  /-- CR_PI_WRITE (R372). Host software rings a command ring's doorbell with a new producer index. -/
  | crPiWrite (req : Requester) (offset value : Nat)
  /-- RING_CI_WRITE (R373). Host software frees reply or event ring slots by writing the consumer index. -/
  | ringCiWrite (req : Requester) (offset value : Nat)
  /-- RING_ENABLE (R371). EN written 1 enables a ring and zeroes its indices. -/
  | ringEnable (req : Requester) (offset value : Nat)
  /-- RING_DISABLE (R368). EN written 0 stops a ring. -/
  | ringDisable (req : Requester) (offset value : Nat)
  /-- RING_RESTART (R372). RESTART resumes a halted command ring at CR_CI. -/
  | ringRestart (req : Requester) (offset value : Nat)
  /-- DMA_ENABLE (R428). EN written 1 enables a channel in IDLE. -/
  | dmaEnable (req : Requester) (offset value : Nat)
  /-- DMA_DISABLE (R433). EN written 0 drops a channel's work at once. -/
  | dmaDisable (req : Requester) (offset value : Nat)
  /-- DMA_START (R429). START takes DMA_HEAD as CUR and runs the channel. -/
  | dmaStart (req : Requester) (offset value : Nat)
  /-- DMA_RESUME (R429). RESUME reprocesses the descriptor at CUR after a halt. -/
  | dmaResume (req : Requester) (offset value : Nat)
  /-- DMA_KICK (R429). KICK refetches the descriptor at CUR in WAIT. -/
  | dmaKick (req : Requester) (offset value : Nat)
  /-- DMA_DESCRIPTOR (R429). A channel fetches and processes one descriptor. The descriptor as the fetch returns it, the data its source read returns, and the status another device answers for a remote port. -/
  | dmaDescriptor (channel : Nat) (bytes : List Byte) (fetch : ReadEnd) (data : List Byte) (read : ReadEnd) (remote : Option Nat)
  /-- CQ_CI_WRITE (R430). Host software advances a completion queue's consumer index, releasing a held channel. -/
  | cqCiWrite (req : Requester) (offset value : Nat)
  /-- CQ_ENABLE (R431). CQ_EN written 1 takes the queue base and size and zeroes its indices. -/
  | cqEnable (req : Requester) (offset value : Nat)
  /-- DMA_GRACE_EXPIRE (R434). A power-down's DMA grace ends and channels still touching the domain halt. -/
  | dmaGraceExpire (channel : Nat)
  /-- TD_SET (R326). Domain operation SET sets a domain's base and anchor. A 32-bit write of TD_CTL with GO 1 and OP 1. -/
  | tdSet (req : Requester) (offset value : Nat)
  /-- TD_ADJUST (R326). Domain operation ADJUST steps a domain. -/
  | tdAdjust (req : Requester) (offset value : Nat)
  /-- TD_RATE (R326). Domain operation RATE changes a domain's rate continuously. -/
  | tdRate (req : Requester) (offset value : Nat)
  /-- SERVED_SET (R330). A SERVED_SET write makes served time equal the selected domain. -/
  | servedSet (req : Requester) (offset value : Nat)
  /-- SEL_WRITE (R332). A write of SEL changes the domain served time tracks. -/
  | selWrite (req : Requester) (offset value : Nat)
  /-- SERVE_TICK (R331). Each tick served time advances toward the selected domain within the slew limit. -/
  | serveTick
  /-- TIME_REF_LOSS (R323). The time PLL loses its reference and holds over. -/
  | timeRefLoss
  /-- TIME_REF_RESTORE (R323). The time PLL's reference returns. -/
  | timeRefRestore
  /-- TOUT_ARM (R341). A TOUT_CTL write with ARM 1 arms a new pulse schedule. -/
  | toutArm (req : Requester) (offset value : Nat)
  /-- TOUT_WITHDRAW (R341). A TOUT_CTL write with ARM 0 withdraws a pending schedule. -/
  | toutWithdraw (req : Requester) (offset value : Nat)
  /-- TIME_OUT_EDGE (R340). A TIME_OUT pin edge falls due and is driven. -/
  | timeOutEdge (pin : Nat)
  /-- TIME_IN_EDGE (R342). A selected edge on a TIME_IN pin is captured. -/
  | timeInEdge (pin : Nat) (rising : Bool)
  /-- TIN_POP (R342). A TIN_POP write moves the oldest capture into TIN_CAP. -/
  | tinPop (req : Requester) (offset value : Nat)
  /-- SNAPSHOT (R343). A SNAP_CTL GO latches tick and times at one tick. -/
  | snapshot (req : Requester) (offset value : Nat)
  /-- AT_TIME_APPLY (R16). A shadowed value takes effect at its companion served time. The control register whose value waits: TOUT_CTL or GCL_ADMIN. -/
  | atTimeApply (offset : Nat)
  /-- PORT_ENABLE (R356). EN taking effect as 1 starts a run of link attempts. A 32-bit write of PORT_CTL with EN 1. -/
  | portEnable (req : Requester) (offset value : Nat)
  /-- PORT_DISABLE (R356). EN taking effect as 0 puts the port in LINK_FAILED. A 32-bit write of PORT_CTL with EN 0. -/
  | portDisable (req : Requester) (offset value : Nat)
  /-- RETRY (R358). RETRY starts a new run of attempts from RETRAIN_EXHAUSTED. -/
  | retry (req : Requester) (offset value : Nat)
  /-- RETRAIN (R357). RETRAIN drops an UP port with cause HOST_RETRAIN. -/
  | retrain (req : Requester) (offset value : Nat)
  /-- ATTEMPT_START (R356). After 10 ms the next link attempt starts. -/
  | attemptStart (port : Nat)
  /-- PORT_ATTEMPT_END (R356). A link attempt ends and the port comes UP, tries again or fails. The abilities the partner advertised, as mode and MEDIUM; whether training ended with receiver ready on both sides, and alignment and FEC locked within 10 ms; what each lane saw. -/
  | portAttemptEnd (port : Nat) (an : List (Nat × Nat)) (lt locked : Bool) (lanes : List LaneResult)
  /-- ATTEMPT_TIMEOUT (R356). ATTEMPT_MS expires and the attempt fails. The abilities the partner had advertised, as mode and MEDIUM; what each lane saw. -/
  | attemptTimeout (port : Nat) (an : List (Nat × Nat)) (lanes : List LaneResult)
  /-- LINK_DROP (R357). Loss of signal, alignment or a remote fault drops an UP port into TRAINING. Cause 4 LOS, 5 ALIGN or 7 REMOTE_FAULT. -/
  | linkDrop (port cause : Nat)
  /-- FEC_INTERVAL_END (R357). At each 1 ms FEC interval end, too many uncorrectable codewords drop the port. Codewords corrected and uncorrectable outside frames; symbol errors by lane. -/
  | fecIntervalEnd (port corr uncorr : Nat) (sym : List Nat)
  /-- FOM_MEASURE (R352). Every 1 ms the figure of merit of each UP lane is measured. SNR in units of 2^-16 dB; the FFE and DFE taps that adaptation has reached, by target × 256 + index. -/
  | fomMeasure (lane : Nat) (snr : Int) (taps : Table Nat)
  /-- LPI_ENTER (R360). After LPI_IDLE with nothing to send the transmitter enters LPI. -/
  | lpiEnter (port : Nat)
  /-- LPI_WAKE (R360). LPI_WAKE after a frame became ready the scheduler may pick again. -/
  | lpiWake (port : Nat)
  /-- LPI_RX (R360). The partner signals LPI and the receiver powers down or freezes. -/
  | lpiRx (port : Nat)
  /-- MACRO_MODE_WRITE (R345). A MACRO_MODE write changes the macro's port mode if every port is LINK_FAILED. -/
  | macroModeWrite (req : Requester) (offset value : Nat)
  /-- LOOP_WRITE (R361). A LANE_CFG LOOP write sets a lane loopback and is logged. -/
  | loopWrite (req : Requester) (offset value : Nat)
  /-- TEST_EN_WRITE (R363). A TEST_EN write puts a lane in PRBS test if its port is LINK_FAILED. -/
  | testEnWrite (req : Requester) (offset value : Nat)
  /-- PRBS_CLR (R364). CLR zeroes the PRBS counts and LOST_LOCK. -/
  | prbsClr (req : Requester) (offset value : Nat)
  /-- INJ_ONE (R365). INJ_ONE injects one bit error in the generator. -/
  | injOne (req : Requester) (offset value : Nat)
  /-- PRS_IND_GO (R135). GO on the parser indirect window reads or writes a step or entry. `ecc`: what the entry read by it finds. -/
  | prsIndGo (req : Requester) (offset value : Nat) (ecc : Ecc)
  /-- TCAM_IND_GO (R154). GO on the ternary indirect window reads or writes an entry. `ecc`: what the entry read by it finds. -/
  | tcamIndGo (req : Requester) (offset value : Nat) (ecc : Ecc)
  /-- GCL_IND_GO (R282). GO on the gate list window reads or writes a list entry. -/
  | gclIndGo (req : Requester) (offset value : Nat) (ecc : Ecc)
  /-- POL_IND_GO (R279). GO on the policer window reads or writes a policer image. -/
  | polIndGo (req : Requester) (offset value : Nat) (ecc : Ecc)
  /-- LANE_IND_GO (R461). GO on the lane window reads or writes equaliser settings. -/
  | laneIndGo (req : Requester) (offset value : Nat)
  /-- TOT_IND_GO (R293). GO on the totals window reads an image entry or digest. `ecc`: what the image lines read by it find. -/
  | totIndGo (req : Requester) (offset value : Nat) (ecc : Ecc)
  /-- HBM_IND_GO (R524). GO on the HBM read window reads one data line. -/
  | hbmIndGo (req : Requester) (offset value : Nat) (ecc : Ecc)
  /-- GMAP_DATA_READ (R463). A read of GMAP_DATA returns a group map entry and advances GROUP. `wide`: as the upper half of a 64-bit read. -/
  | gmapDataRead (req : Requester) (wide : Bool)
  /-- SEAL_IND_DATA_READ (R320). A read of SEAL_IND_DATA returns a seal word and advances WORD. `wide`: as the upper half of a 64-bit read. -/
  | sealIndDataRead (req : Requester) (wide : Bool)
  /-- MC_IND_DATA_READ (R463). A read of MC_IND_DATA returns a microword and may advance UADDR. `wide`: as the upper half of a 64-bit read. -/
  | mcIndDataRead (req : Requester) (wide : Bool)
  /-- IFR_ADDR_WRITE (R454). A write of IFR_ADDR samples a register's value in force and pending state. -/
  | ifrAddrWrite (req : Requester) (offset value : Nat)
  /-- CNT_ADDR_WRITE (R493). A write of CNT_ADDR samples a counter. -/
  | cntAddrWrite (req : Requester) (offset value : Nat)
  /-- CNT_DATA_HI_READ (R493). A read of CNT_DATA_HI with AUTO_INC samples the next counter. `wide`: as the upper half of a 64-bit read. -/
  | cntDataHiRead (req : Requester) (wide : Bool)
  /-- CNT_CHAIN_WRITE (R490). A chain bit change zeroes the odd counter of the pair. -/
  | cntChainWrite (req : Requester) (offset value : Nat)
  /-- EVENT_ACK (R458). A write of an event register's SEQ clears flags raised up to it. -/
  | eventAck (req : Requester) (offset value : Nat)
  /-- TCAM_BLK_WRITE (R142). A TCAM_BLK write assigns a block if all its entries are free. -/
  | tcamBlkWrite (req : Requester) (offset value : Nat)
  /-- OWN_CFG_WRITE (R238). An OWN_CFG write is taken only if reserves stay within bound. -/
  | ownCfgWrite (req : Requester) (offset value : Nat)
  /-- EQ_CREDIT_WRITE (R245). A credit write is taken only if the slice sum stays within 8,192. -/
  | eqCreditWrite (req : Requester) (offset value : Nat)
  /-- SHAPER_ENABLE (R273). A shaper taking effect as enabled fills its bucket. A 32-bit write of SHQ_CFG or EGR_PORT_CFG. -/
  | shaperEnable (req : Requester) (offset value : Nat)
  /-- SHAPER_RATE_WRITE (R274). A rate change updates the bucket at the old rate and runs on at the new. A 32-bit write of a shaper's rate or burst. -/
  | shaperRateWrite (req : Requester) (offset value : Nat)
  /-- GCL_ARM (R286). A GCL_ADMIN write with ARM 1 arms a gate list change. -/
  | gclArm (req : Requester) (offset value : Nat)
  /-- GCL_WITHDRAW (R287). A GCL_ADMIN write with ARM 0 withdraws a pending change. -/
  | gclWithdraw (req : Requester) (offset value : Nat)
  /-- GCL_TAKEOVER (R286). At the cycle boundary after the base time the admin list becomes operating. -/
  | gclTakeover (port : Nat)
  /-- GATE_ENTRY_CHANGE (R283). A gate list entry starts and the class gates change. `ue`: the entry reads uncorrectable. -/
  | gateEntryChange (port : Nat) (ue : Bool)
  /-- GLB_LOCK_WRITE (R456). LOCK_ACC written 1 makes ACC_CFG read-only until reset. -/
  | glbLockWrite (req : Requester) (offset value : Nat)
  /-- BOARD_ID_WRITE (R455). The first write of a board identity register takes effect and is logged. -/
  | boardIdWrite (req : Requester) (offset value : Nat)
  /-- TAG_SEED_WRITE (R496). A TAG_SEED write loads the tagging LFSR. -/
  | tagSeedWrite (req : Requester) (offset value : Nat)
  /-- RESET_WP (R501). RESET_WP sets the trace write offset to 0 and clears FULL. -/
  | resetWp (req : Requester) (offset value : Nat)
  /-- TRC_CFG_WRITE (R502). A trace setting change takes effect at the next block boundary. -/
  | trcCfgWrite (req : Requester) (offset value : Nat)
  /-- TRACE_BLOCK_CLOSE (R499). A trace block closes when full or 1 ms after its first record and is sent. -/
  | traceBlockClose
  /-- REGISTER_WRITE (R16). A write to a register with no row of its own lands in its shadow or is refused. An access of any width and form to any register of the window: a write, or a read. -/
  | registerWrite (req : Requester) (write : Bool) (width : Width) (offset value : Nat)
  /-- GLB_RESET_REQ (R465). A write of the reset key requests an orderly device reset. -/
  | glbResetReq (req : Requester) (offset value : Nat)
  /-- HBM_RETIRE_WRITE (R521). A keyed HBM_RETIRE write retires a pseudo-channel in service. -/
  | hbmRetireWrite (req : Requester) (offset value : Nat)
  /-- STANDBY_REQUEST (R536). A keyed PWR_CTL OP 1 requests standby and stops fetch. -/
  | standbyRequest (req : Requester) (offset value : Nat)
  /-- STANDBY_IDLE (R536). The store, ready lists and Lid are idle and the device enters retention and self-refresh. -/
  | standbyIdle
  /-- STANDBY_ABANDONED (R536). Standby entry not complete within 1 s returns to RUN. -/
  | standbyAbandoned
  /-- WAKE (R539). A keyed PWR_CTL OP 2 wakes the device. `failed`: pseudo-channels that fail the check as the stacks leave self-refresh. -/
  | wake (req : Requester) (offset value : Nat) (failed : List Nat)
  /-- MACRO_POWER_DOWN (R531). A PWR_MACRO bit written 0 powers its macro down. -/
  | macroPowerDown (req : Requester) (offset value : Nat)
  /-- MACRO_POWER_UP (R532). A PWR_MACRO bit written 1 powers its macro up. -/
  | macroPowerUp (req : Requester) (offset value : Nat)
  /-- CHIPLET_POWER_DOWN (R533). A PWR_CHIPLET bit written 0 powers the chiplet and its macros down. -/
  | chipletPowerDown (req : Requester) (offset value : Nat)
  /-- CHIPLET_POWER_UP (R533). A PWR_CHIPLET bit written 1 powers the chiplet. -/
  | chipletPowerUp (req : Requester) (offset value : Nat)
  /-- STACK_POWER_DOWN (R535). A keyed PWR_STACK clear retires a stack's pseudo-channels and powers it down. -/
  | stackPowerDown (req : Requester) (offset value : Nat)
  /-- DEVICE_START (R528). Supplies good starts the Rim boot and the start-up sequence. In two turns: the Rim's part, up to the host ports; then, unless the start is minimal, the rest. -/
  | deviceStart (info : StartInfo)
  /-- START_FAIL_TIMEOUT (R473). A start not complete within 60 s counts as failed. -/
  | startFailTimeout
  /-- POWER_ON_RESET (R526). RESET_N asserted resets the whole package with no close. -/
  | powerOnReset
  /-- WATCHDOG_EXPIRE (R475). The Rim watchdog expires and the device resets with no close. -/
  | watchdogExpire
  /-- SUPPLY_FAULT (R481). A rail or PLL out of range resets every domain but the Rim. The rail (Table 20-1) or PLL that left its limits, and the reading. -/
  | supplyFault (rail value : Nat)
  /-- SENSOR_POLL (R480). Every 1 ms the Rim reads its thermal sensors and acts on thresholds. 32 temperatures in units of 0.25 °C, none where a sensor does not read, and the rail voltages. -/
  | sensorPoll (temps : List (Option Nat)) (volts : List Nat)
  /-- PMBUS_POLL (R481). Every 100 ms the Rim polls the board regulators. STATUS_WORD of each listed regulator. -/
  | pmbusPoll (status : List Nat)
  /-- TAMPER_ASSERT (R482). TAMPER_IN high for 1 ms is counted into the epoch's tamper gap and logged. -/
  | tamperAssert
  /-- TAMPER_RELEASE (R482). TAMPER_IN goes low and the assertion ends. -/
  | tamperRelease
  /-- INFO (R487). Mailbox operation returning Rim state. The Rim serves this mailbox, when its turn has come and it asks for this operation; so for every mailbox operation. -/
  | info (mbx : Nat)
  /-- LOG_READ (R485). Mailbox operation returning log entries. -/
  | logRead (mbx : Nat)
  /-- CERT_READ (R478). Mailbox operation returning the certificate chain. -/
  | certRead (mbx : Nat)
  /-- ATTEST (R478). Mailbox operation returning a signed attestation statement. -/
  | attest (mbx : Nat)
  /-- SENSOR_READ (R480). Mailbox operation returning temperatures and voltages. -/
  | sensorRead (mbx : Nat)
  /-- IMG_BEGIN (R479). Mailbox operation that begins writing an image slot. -/
  | imgBegin (mbx : Nat)
  /-- IMG_DATA (R479). Mailbox operation that writes image bytes. -/
  | imgData (mbx : Nat)
  /-- IMG_END (R479). Mailbox operation that checks the image and marks it TRIAL. -/
  | imgEnd (mbx : Nat)
  /-- IMG_CONFIRM (R479). Mailbox operation that burns anti-rollback and makes the trial slot ACTIVE. Whether the fuse burns that this makes fail to verify; so for every command that may burn a fuse. -/
  | imgConfirm (mbx : Nat) (burnFails : Bool)
  /-- LIFECYCLE (R476). Mailbox operation that requests a lifecycle transition. -/
  | lifecycle (mbx : Nat) (burnFails : Bool)
  /-- RESET (R475). Mailbox operation that requests a normal or minimal reset. -/
  | reset (mbx : Nat)
  /-- BOARD_WRITE (R468). Mailbox operation that writes the board configuration record. -/
  | boardWrite (mbx : Nat)
  /-- LOG_FLUSH (R484). Log entries held in the Rim's ring are written to flash. -/
  | logFlush
  /-- HBM_RECAL (R513). Every RECAL_MS each controller re-centres its byte lanes. Pseudo-channel, its read and write window widths, and those a full sweep finds where one is narrow. -/
  | hbmRecal (pc r w : Nat) (sweep : Nat × Nat)
  /-- HBM_CA_PARITY (R514). A command or address parity error is replayed, resweeping after three. Channel 0–63; `inRow`: no command passed since its last parity error; `window`: the sweep of a third one finds a window. -/
  | hbmCaParity (channel : Nat) (inRow window : Bool)
  /-- HBM_REFRESH (R515). A per-bank refresh of a pseudo-channel falls due. -/
  | hbmRefresh (pc : Nat)
  /-- PATROL_SCRUB (R518). Patrol scrub reads and corrects a data line in idle cycles. -/
  | patrolScrub (pc : Nat) (ecc : Ecc)
  /-- MERGE_REGISTER_RELEASE (R25). A record leaves a bank's merge register when 16 cc pass with no further access to it, and its folded updates are written back. -/
  | mergeRegisterRelease (slot : Nat)
  /-- COLD_HOME_WRITTEN (R81). The tag-line and record writes of a learn complete in HBM, and Fitch drops the in-flight image of that tag line. -/
  | coldHomeWritten (bucket : Nat)
  /-- SECOND_BURST_READ (R68). The read of a record's second burst for a fold or cold-bank correction returns, and the updated burst is written. -/
  | secondBurstRead (coldIndex : Nat) (ecc : Ecc)
  /-- LIST_REBUILD_DONE (R234). Creel's 768 cc scan of the state bits ends and allocation from the rebuilt free list resumes. -/
  | listRebuildDone (slice : Nat)
  /-- STATISTICS_WINDOW_END (R422). At the end of each STAT_MS window the scheduler latches per-priority waits and per-engine busy and execute fractions. -/
  | statisticsWindowEnd
  /-- CHAIN_ACK (R392). A target's acknowledgement of a relayed command reaches the root and stops its ACK_US limit. -/
  | chainAck (dev tag : Nat)
  /-- CHAIN_CREDIT (R401). A credit for the neighbour's chain receive buffer returns and a command waiting in the relay buffer may be sent. -/
  | chainCredit (port : Nat)
  /-- ENUMERATION_COMPLETE (R390). The root has seen no new address for 1 ms and CHAIN_ENUM completes with DEVICES, RING and OVERFLOW. -/
  | enumerationComplete (devices : Nat) (overflow : Bool)
  /-- PRBS_LOCK (R364). A lane's PRBS checker receives 64 consecutive error-free bits and locks, and from then on counts errors and bits. The latest symbols received at the lane's input, oldest first: levels 0 to 3, or bits in mode 9. -/
  | prbsLock (lane : Nat) (symbols : List Nat)
  /-- PRBS_LOST_LOCK (R364). A locked checker sees 64 errors in 1,024 bits, sets LOST_LOCK and searches again. Bit errors that the locked checker sees within 1,024 bits. -/
  | prbsLostLock (lane errors : Nat)
  /-- PERIODIC_INJECTION (R365). With INJ 2, the generator inverts one bit each time 2^INJ_LOG2 bits have been generated, and INJ_COUNT increases. -/
  | periodicInjection (lane : Nat)
  /-- RX_LPI_EXIT (R360). The partner stops signalling LPI and the receive direction powers up its equaliser and resumes adaptation and FOM. -/
  | rxLpiExit (port : Nat)
  /-- CRYSTAL_LOSS (R547). The Rim's crystal stops, the Rim stops, and hardware holds every other domain in reset. -/
  | crystalLoss
  /-- CRYSTAL_RETURN (R547). The crystal returns and the reset that hardware held ends. -/
  | crystalReturn
  /-- ATTENTION_WAIT_LIMIT (R475). The Rim's 100 ms wait for idle engines under attention expires and the transition proceeds to the orderly close. -/
  | attentionWaitLimit
  /-- CLOSE_WAIT_LIMIT (R308). The 5 s wait for the seal of an orderly interrupted close expires, and the reset or transition proceeds with the epoch unsealed. -/
  | closeWaitLimit
  /-- TAP_INSTRUCTION (R486). An IEEE 1149.1 instruction is shifted into the TAP, which acts on it in BLANK or selects IDCODE or BYPASS otherwise. -/
  | tapInstruction (op : TapOp)
  /-- SUPPLIES_REMOVED (R526). Supplies are removed without RESET_N: the open epoch, pending transitions and unflushed log entries are lost. -/
  | suppliesRemoved
  deriving DecidableEq, Repr

end Sys2Proof
end

