-- ==== Sys2Proof/Config.lean ====
section
/-! DEFINITION. What an implementation fixes and the spec leaves open: the free values. Each is a constant with no body,
so that no proof can see what it is (notes/assumptions say which value of the spec each stands for). -/

namespace Sys2Proof.Config

/-- A value the spec leaves undefined or unstated, drawn fresh: the argument is the state's counter of values drawn. -/
opaque freeValue : Nat → Nat

/-- The 128-bit image of step `i` of the built-in parse program (04/R115): the spec states what the program does
(R116, R117) and not its encoding. -/
opaque builtinStep : Nat → Nat

/-- The 64-bit image of transition entry `i` of the built-in parse program (04/R115). -/
opaque builtinTrans : Nat → Nat

/-- The step of the built-in program that a pass over these header types ends at: LAST_STEP of its vector. -/
opaque builtinLastStep : List Nat → Nat

/-- The microwords of the ROM (13/R417): not published. -/
opaque microRom : Nat → Nat

/-- The ROM address at which the routine of an opcode or task begins (13/R417): not published. -/
opaque routineEntry : Nat → Nat

/-- The wake time, in µs, that IEEE 802.3 gives the PCS of a port mode (11/R360): not stated in the spec. -/
opaque pcsWakeUs : Nat → Nat

/-- Whether an ECDSA P-384 signature (r, then s) over a digest verifies under a public key (x, then y): the spec names
the algorithm and does not give it (16/R470). -/
opaque ecdsaVerifies : (key digest signature : List Byte) → Bool

end Sys2Proof.Config
end

