-- ==== Sys2Proof/Machine/Ops.lean ====
section
/-! DEFINITION. The named operations over sparse tables, bit fields and byte strings that every meaning is written in. -/

namespace Sys2Proof.Machine

/-! ### Sparse tables -/

/-- The value at a key; `d` is what an unlisted key holds. -/
def tget {α : Type} (d : α) : Table α → Nat → α
  | [], _ => d
  | (k, v) :: r, i => if i = k then v else tget d r i

/-- The listed value at a key, if there is one. -/
def tfind {α : Type} : Table α → Nat → Option α
  | [], _ => none
  | (k, v) :: r, i => if i = k then some v else tfind r i

/-- Remove a key. -/
def tdel {α : Type} : Table α → Nat → Table α
  | [], _ => []
  | (k, v) :: r, i => if i = k then r else if i < k then (k, v) :: r else (k, v) :: tdel r i

/-- Insert or replace a key, keeping the keys rising. -/
def tins {α : Type} : Table α → Nat → α → Table α
  | [], i, x => [(i, x)]
  | (k, v) :: r, i, x =>
    if i < k then (i, x) :: (k, v) :: r else if i = k then (i, x) :: r else (k, v) :: tins r i x

/-- Write a key of a table in canonical form: writing the default removes the entry. -/
def tput {α : Type} [DecidableEq α] (d : α) (t : Table α) (i : Nat) (x : α) : Table α :=
  if x = d then tdel t i else tins t i x

/-- The keys rise strictly, all above the bound when there is one. -/
def tsortedFrom {α : Type} : Option Nat → Table α → Bool
  | _, [] => true
  | none, (k, _) :: r => tsortedFrom (some k) r
  | some b, (k, _) :: r => decide (b < k) && tsortedFrom (some k) r

/-- The keys rise strictly. -/
def tsorted {α : Type} (t : Table α) : Bool := tsortedFrom none t

/-- Canonical form of a table whose unlisted keys hold `d`: keys strictly rising, no entry equal to `d`. -/
def twf {α : Type} [DecidableEq α] (d : α) (t : Table α) : Bool :=
  tsorted t && t.all (fun e => decide (e.2 ≠ d))

/-- Apply a function to the value at a key, keeping canonical form. -/
def tmod {α : Type} [DecidableEq α] (d : α) (t : Table α) (i : Nat) (f : α → α) : Table α :=
  tput d t i (f (tget d t i))

/-- Change the record at a key; the key stays listed. -/
def tupd {α : Type} (d : α) (t : Table α) (i : Nat) (f : α → α) : Table α := tins t i (f (tget d t i))

/-- The entries whose key lies in [lo, hi). -/
def trange {α : Type} (t : Table α) (lo hi : Nat) : Table α :=
  t.filter (fun e => decide (lo ≤ e.1) && decide (e.1 < hi))

/-- The lowest key in [i, i + n) that the predicate accepts. -/
def firstFrom (p : Nat → Bool) : Nat → Nat → Option Nat
  | _, 0 => none
  | i, n + 1 => if p i then some i else firstFrom p (i + 1) n

/-- The lowest key at or above `i` that a sorted table does not list. -/
def firstFree {α : Type} : Table α → Nat → Nat
  | [], i => i
  | (k, _) :: r, i => if k < i then firstFree r i else if k = i then firstFree r (i + 1) else i

/-! ### Association lists over keys of any type -/

/-- The value bound to a key. -/
def alook {κ α : Type} [DecidableEq κ] (d : α) : List (κ × α) → κ → α
  | [], _ => d
  | (k, v) :: r, i => if i = k then v else alook d r i

/-- Bind a key, at the place it has or at the end. -/
def aset {κ α : Type} [DecidableEq κ] : List (κ × α) → κ → α → List (κ × α)
  | [], i, x => [(i, x)]
  | (k, v) :: r, i, x => if i = k then (i, x) :: r else (k, v) :: aset r i x

/-! ### Bits -/

/-- Bits [hi:lo] of a number. -/
def bits (x hi lo : Nat) : Nat := x / 2 ^ lo % 2 ^ (hi + 1 - lo)

/-- Bit `i` of a number. -/
def bit (x i : Nat) : Bool := x / 2 ^ i % 2 == 1

/-- A truth value as a bit. -/
def b2n (b : Bool) : Nat := if b then 1 else 0

/-- A value placed at bits [hi:lo], cut to the field's width. -/
def at_ (v hi lo : Nat) : Nat := v % 2 ^ (hi + 1 - lo) * 2 ^ lo

/-- A number with bits [hi:lo] replaced. -/
def withBits (x hi lo v : Nat) : Nat := x - bits x hi lo * 2 ^ lo + at_ v hi lo

/-- A number with bit `i` set or cleared. -/
def withBit (x i : Nat) (b : Bool) : Nat := withBits x i i (b2n b)

/-- Modulo 2^w. -/
def wrap (w x : Nat) : Nat := x % 2 ^ w

/-- The largest value of a width, or the number when it fits. -/
def sat (w x : Nat) : Nat := min x (2 ^ w - 1)

/-- Two's complement of a width read as an integer. -/
def sint (w x : Nat) : Int :=
  if x % 2 ^ w < 2 ^ (w - 1) then (x % 2 ^ w : Nat) else ((x % 2 ^ w : Nat) : Int) - (2 ^ w : Nat)

/-- An integer as two's complement of a width. -/
def ofInt (w : Nat) (x : Int) : Nat := (x % ((2 ^ w : Nat) : Int)).toNat

/-- How many set bits lie among the `n` lowest. -/
def popCount (x : Nat) : Nat → Nat
  | 0 => 0
  | n + 1 => popCount x n + b2n (bit x n)

/-- The numbers of the set bits among the `n` lowest, ascending. -/
def setBits (x n : Nat) : List Nat := (List.range n).filter (bit x)

/-- The number with exactly the listed bits set. -/
def ofBits (l : List Nat) : Nat := l.eraseDups.foldl (fun a i => a + 2 ^ i) 0

/-- Bitwise XOR of two numbers. -/
def xor2 (a b : Nat) : Nat := Nat.xor a b

/-- Ceiling of a quotient. -/
def cdiv (a b : Nat) : Nat := (a + b - 1) / b

/-! ### Bytes -/

/-- A byte of a number. -/
def byte (x : Nat) : Byte := BitVec.ofNat 8 x

/-- `n` bytes of a number, least significant first. -/
def le : Nat → Nat → List Byte
  | 0, _ => []
  | n + 1, x => byte x :: le n (x / 256)

/-- `n` bytes of a number, most significant first (network order). -/
def be (n x : Nat) : List Byte := (le n x).reverse

/-- The number little-endian bytes spell. -/
def unle : List Byte → Nat
  | [] => 0
  | b :: r => b.toNat + 256 * unle r

/-- The number network-order bytes spell. -/
def unbe (l : List Byte) : Nat := unle l.reverse

/-- `n` bytes from offset `o`; zeros past the end. -/
def slice (l : List Byte) (o n : Nat) : List Byte :=
  let t := (l.drop o).take n
  t ++ List.replicate (n - t.length) 0

/-- The network-order number of `n` bytes at offset `o`. -/
def beAt (l : List Byte) (o n : Nat) : Nat := unbe (slice l o n)

/-- The little-endian number of `n` bytes at offset `o`. -/
def leAt (l : List Byte) (o n : Nat) : Nat := unle (slice l o n)

/-- The byte at an offset; zero past the end. -/
def byteAt (l : List Byte) (o : Nat) : Nat := (l.getD o 0).toNat

/-- Bytes with those from offset `o` replaced, within the length. -/
def patch (l : List Byte) (o : Nat) (x : List Byte) : List Byte :=
  l.take o ++ (x.take (l.length - o)) ++ l.drop (o + x.length)

/-- Zero bytes. -/
def zeros (n : Nat) : List Byte := List.replicate n 0

/-- Bytes cut or padded with zeros to a length. -/
def padTo (n : Nat) (l : List Byte) : List Byte := slice l 0 n

/-! ### Lists -/

/-- Replace the element at a place. -/
def setAt {α : Type} : List α → Nat → α → List α
  | [], _, _ => []
  | _ :: r, 0, x => x :: r
  | a :: r, n + 1, x => a :: setAt r n x

/-- The least element under a measure; the first one on a tie. -/
def leastBy {α : Type} (f : α → Nat) : List α → Option α
  | [] => none
  | a :: r => match leastBy f r with
    | none => some a
    | some b => if f a ≤ f b then some a else some b

/-- The greatest element under a measure; the first one on a tie. -/
def mostBy {α : Type} (f : α → Nat) : List α → Option α
  | [] => none
  | a :: r => match mostBy f r with
    | none => some a
    | some b => if f b ≤ f a then some a else some b

/-- The first number after `p` (of `n`, cyclically) that the predicate accepts. -/
def nextRR (n p : Nat) (ok : Nat → Bool) : Option Nat :=
  ((List.range n).map (fun k => (p + 1 + k) % n)).find? ok

end Sys2Proof.Machine
end

