-- ==== Sys2Proof/Machine/Codes.lean ====
section
/-! DEFINITION. The codes the spec computes over bytes: CRC-32C (03/R71), the Ethernet FCS, the Internet checksum, the
Toeplitz hash, the tagging LFSR and SHA-384. -/

namespace Sys2Proof.Machine

/-- One bit of a reflected CRC: shift right, and apply the polynomial when a one falls out. -/
def crcBit (poly x : Nat) : Nat := if x % 2 = 1 then Nat.xor (x / 2) poly else x / 2

/-- Eight bits of a reflected CRC. -/
def crcByte (poly x : Nat) (b : Byte) : Nat :=
  let y := Nat.xor x b.toNat
  crcBit poly (crcBit poly (crcBit poly (crcBit poly (crcBit poly (crcBit poly (crcBit poly (crcBit poly y)))))))

/-- A reflected CRC over bytes, from a register value. -/
def crcRun (poly : Nat) : Nat → List Byte → Nat
  | x, [] => x
  | x, b :: r => crcRun poly (crcByte poly x b) r

/-- CRC-32C of 03/R71: polynomial 0x1EDC6F41 reflected, preset and final XOR of all ones. -/
def crc32c (l : List Byte) : Nat := Nat.xor (crcRun 0x82F63B78 0xFFFFFFFF l) 0xFFFFFFFF

/-- CRC-32 of IEEE 802.3, polynomial 0x04C11DB7 reflected: the frame check sequence. -/
def crc32 (l : List Byte) : Nat := Nat.xor (crcRun 0xEDB88320 0xFFFFFFFF l) 0xFFFFFFFF

/-- The four bytes of a frame's FCS as they follow the frame on the wire. -/
def fcsBytes (l : List Byte) : List Byte := le 4 (crc32 l)

/-- One's complement sum of 16-bit words, folded. -/
def onesFold (x : Nat) : Nat :=
  let y := x % 65536 + x / 65536
  let z := y % 65536 + y / 65536
  z % 65536 + z / 65536

/-- The sum of the 16-bit network-order words of bytes, a last odd byte padded with zero. -/
def sum16 : List Byte → Nat
  | [] => 0
  | [a] => a.toNat * 256
  | a :: b :: r => a.toNat * 256 + b.toNat + sum16 r

/-- The Internet checksum of bytes. -/
def inetSum (l : List Byte) : Nat := 65535 - onesFold (sum16 l)

/-- An Internet checksum changed incrementally when a word it covers changes from `m` to `m'` (RFC 1624). -/
def cksAdjust (hc m m' : Nat) : Nat := 65535 - onesFold ((65535 - hc % 65536) + (65535 - m % 65536) + m' % 65536)

/-- r(m) of 06/R195: the CRC-32 register after bytes, preset to ones, without the final XOR. -/
def crcReg (l : List Byte) : Nat := crcRun 0xEDB88320 0xFFFFFFFF l

/-- advance(x, n) of 06/R195: the register run through n zero bytes. -/
def crcAdvance (x n : Nat) : Nat := crcRun 0xEDB88320 x (zeros n)

/-- fcs_adjust of 06/R195: the FCS of a frame whose first bytes changed from `old` to `new`, `n` bytes before the FCS. -/
def fcsAdjust (fcs : Nat) (old new : List Byte) (n : Nat) : Nat :=
  Nat.xor fcs (crcAdvance (Nat.xor (crcReg old) (crcReg new)) n)

/-- The bits of bytes, most significant first. -/
def bitsOfBytes (l : List Byte) : List Bool :=
  l.flatMap (fun b => (List.range 8).map (fun i => bit b.toNat (7 - i)))

/-- Toeplitz hash: for each one bit of the input, XOR the 32 key bits from that place. -/
def toeplitzBits (key : Nat) (kw : Nat) : List Bool → Nat → Nat → Nat
  | [], _, h => h
  | b :: r, i, h => toeplitzBits key kw r (i + 1) (if b then Nat.xor h (key / 2 ^ (kw - 32 - i) % 2 ^ 32) else h)

/-- Toeplitz hash of bytes under a key of `kw` bits. -/
def toeplitz (key kw : Nat) (l : List Byte) : Nat := toeplitzBits key kw (bitsOfBytes l) 0 0

/-- One step of the tagging LFSR, x^32 + x^22 + x^2 + x + 1 (17/R496). -/
def lfsrStep (x : Nat) : Nat :=
  let f := (bit x 31) ^^ (bit x 21) ^^ (bit x 1) ^^ (bit x 0)
  x * 2 % 2 ^ 32 + b2n f

/-! ### SHA-384 (FIPS 180-4) -/

/-- A 64-bit word. -/
abbrev W64 := BitVec 64

/-- The greatest number whose `k`-th power is at most `v`, its lowest `n` bits sought from `x` on. -/
def rootFrom (k v : Nat) : Nat → Nat → Nat
  | 0, x => x
  | n + 1, x => rootFrom k v n (if (x + 2 ^ n) ^ k ≤ v then x + 2 ^ n else x)

/-- The first 64 bits of the fractional part of the `k`-th root of a number below 512. -/
def rootFraction (k p : Nat) : Nat := rootFrom k (p * 2 ^ (64 * k)) 69 0 % 2 ^ 64

/-- The first eighty primes. -/
def primes80 : List Nat :=
  (List.range 410).filter (fun p => decide (2 ≤ p) && (List.range 19).all (fun d => p % (d + 2) != 0 || p == d + 2))

/-- The round constants: fractional parts of the cube roots of the first eighty primes. -/
def shaKs : List W64 := primes80.map (fun p => BitVec.ofNat 64 (rootFraction 3 p))

/-- The eight working variables. -/
structure ShaState where
  a : W64
  b : W64
  c : W64
  d : W64
  e : W64
  f : W64
  g : W64
  h : W64
  deriving DecidableEq, Repr

/-- The initial hash value of SHA-384: fractional parts of the square roots of the ninth to sixteenth primes. -/
def sha384Init : ShaState :=
  let h (i : Nat) : W64 := BitVec.ofNat 64 (rootFraction 2 (primes80.getD (8 + i) 0))
  ⟨h 0, h 1, h 2, h 3, h 4, h 5, h 6, h 7⟩

/-- Rotate right. -/
def rotr (x : W64) (n : Nat) : W64 := x.rotateRight n

/-- One round. -/
def shaRound (s : ShaState) (k w : W64) : ShaState :=
  let s1 := rotr s.e 14 ^^^ rotr s.e 18 ^^^ rotr s.e 41
  let ch := (s.e &&& s.f) ^^^ (~~~s.e &&& s.g)
  let t1 := s.h + s1 + ch + k + w
  let s0 := rotr s.a 28 ^^^ rotr s.a 34 ^^^ rotr s.a 39
  let maj := (s.a &&& s.b) ^^^ (s.a &&& s.c) ^^^ (s.b &&& s.c)
  ⟨t1 + (s0 + maj), s.a, s.b, s.c, s.d + t1, s.e, s.f, s.g⟩

/-- The next word of the message schedule from the sixteen before it, the window oldest first. -/
def shaNext (w : List W64) : W64 :=
  let w2 := w.getD 14 0
  let w15 := w.getD 1 0
  (rotr w2 19 ^^^ rotr w2 61 ^^^ (w2 >>> 6)) + w.getD 9 0 +
    (rotr w15 1 ^^^ rotr w15 8 ^^^ (w15 >>> 7)) + w.getD 0 0

/-- The eighty rounds of a block: the window of sixteen schedule words slides by one each round. -/
def shaRounds : List W64 → List W64 → ShaState → ShaState
  | [], _, s => s
  | k :: ks, w, s => shaRounds ks (w.drop 1 ++ [shaNext w]) (shaRound s k (w.getD 0 0))

/-- A block's sixteen words. -/
def shaWords : Nat → List Byte → List W64
  | 0, _ => []
  | n + 1, l => BitVec.ofNat 64 (unbe (l.take 8)) :: shaWords n (l.drop 8)

/-- One 128-byte block. -/
def shaBlock (s : ShaState) (l : List Byte) : ShaState :=
  let t := shaRounds shaKs (shaWords 16 l) s
  ⟨s.a + t.a, s.b + t.b, s.c + t.c, s.d + t.d, s.e + t.e, s.f + t.f, s.g + t.g, s.h + t.h⟩

/-- All blocks of a padded message. -/
def shaBlocks : Nat → ShaState → List Byte → ShaState
  | 0, s, _ => s
  | n + 1, s, l => shaBlocks n (shaBlock s (l.take 128)) (l.drop 128)

/-- Padding to a multiple of 128 bytes: 0x80, zeros, and the bit length in 16 bytes. -/
def shaPad (l : List Byte) : List Byte :=
  let z := (239 - l.length % 128) % 128
  l ++ [0x80] ++ zeros z ++ be 16 (8 * l.length)

/-- SHA-384 of bytes: 48 bytes. -/
def sha384 (l : List Byte) : List Byte :=
  let p := shaPad l
  let s := shaBlocks (p.length / 128) sha384Init p
  [s.a, s.b, s.c, s.d, s.e, s.f].flatMap (fun (w : W64) => be 8 w.toNat)

end Sys2Proof.Machine
end

