-- ==== Sys2Proof/Machine/RegMap.lean ====
section
/-! DEFINITION. The register map of 15/R441: one name per register of the block chapters' register tables, and one
descriptor per name: where it lies, how it repeats, and for each field its bits, Access, Who, Reset and Applies
(00/R14, R15, R16).  Fields a map marks as zero are not listed: they read as zero and are never written (15/R447). -/

namespace Sys2Proof.Machine

/-- Access codes, Table 00-5 (R14). -/
inductive Access where
  | rw | ro | wo | rwl | w1o | seq
  deriving DecidableEq, Repr

/-- The Who column (R15); no register map uses SEC. -/
inductive Who where
  | any | priv
  deriving DecidableEq, Repr

/-- Applies boundaries, Table 00-6 (R16). -/
inductive Applies where
  | now | packet | commit | tick | cycle | atTime | epoch | retrain | reset
  deriving DecidableEq, Repr

/-- One field of a register map. -/
structure RField where
  hi : Nat
  lo : Nat
  access : Access
  who : Who
  reset : Nat
  applies : Applies
  deriving DecidableEq, Repr

/-- One register map: the offset of its first instance, its repetitions as (stride, count) with the largest stride
first, and its fields. -/
structure RegDesc where
  base : Nat
  dims : List (Nat × Nat)
  fields : List RField
  deriving DecidableEq, Repr

/-- The registers, one name per register of the register maps, named as the maps name them. -/
inductive RegName where
  | lrnCfg | lrnRate | lrnBurst | lrnLive | sknStatus | sknAgeCfg | sknMigCfg | sknEvent
  | gmapIndex | gmapData | clsIdle | clsClose | clsPin | clsPinUsed | prsCfg | verStatus
  | malActLo | malActHi | verCarry | malLast0 | malLast1 | prsIndAddr | prsIndCtl | prsIndData
  | prsPortEntry | prsPortAcc | matCfg | deepAct | deepStatus | tcamBlk | tcamKey | tcamPort
  | tcamHole | tcamStatus | tcamEvent | tcamLast | tcamIndAddr | tcamIndCtl | tcamIndData | l2Cfg
  | l2Status | l2Event | l2Port | l2PortCnt | vlanWithy | dtWithy | dtPfx4 | dtPfx6
  | dtEvent | actCfg | actEvent | actStatus | natStatus | lbToeplitz | expColCtl | expColUdp
  | expColDomain | expColMtu | expColSeq | expColAddr | crlStatus | crlRes | crlEvent | crlLast
  | crlPtr | crlLost | ownCfg0 | ownCfg1 | ownUse | ownDrop | egrCt | waleEvent
  | eqCredit | waleHeld | waleSel | shqCfg | shqRate | shqBurst | shqTokens | egrPortCfg
  | shpRate | shpBurst | shpTokens | egrEvent | egrLast | gclAdmin | gclCycle | gclBaseNs
  | gclBaseSlo | gclBaseShi | gclOper | gclOperCycle | gclIndCtl | gclIndData0 | gclIndData1 | polIndAddr
  | polIndCtl | polEvent | polLast | polIndData | lidStatus | lidSeqLo | lidSeqHi | lidCfg
  | lidInforce | lidEvent | lidSyncLast | sealIndAddr | sealIndData | totIndAddr | totIndCtl | totIndData
  | timeStatus | timeCtl | timeTickLo | timeTickHi | timeResidual | timeEvent | snapCtl | snapTickLo
  | snapTickHi | snapTime | tdCtl | tdSecLo | tdSecHi | tdNs | tdFrac | tdTickLo
  | tdTickHi | tdAdjNs | tdAdjFrac | tdRateFrac | tdRateInt | toutCtl | toutStartNs | toutStartSlo
  | toutStartShi | toutPeriod | toutWidth | tinCtl | tinStatus | tinPop | tinCapTickLo | tinCapTickHi
  | tinCapSecLo | tinCapSecHi | tinCapNs | tinCapInfo | tsCfg | tsRxAdj | tsTxAdj | laneCfg
  | laneLoss | laneStatus | laneTest | prbsErr | prbsBitsLo | prbsBitsHi | injCount | laneIndAddr
  | laneIndCtl | laneIndData | portCtl | portTrain | portStatus | portFec | portLpi | macroMode
  | lineEvent | lineLast | hpStatus | hpRingOwn | hpEvent | hpLast | sem | crBaseLo
  | crBaseHi | crWbLo | crWbHi | crCfg | crPi | crCi | crStatus | rrBaseLo
  | rrBaseHi | rrWbLo | rrWbHi | rrCfg | rrPi | rrCi | rrStatus | erBaseLo
  | erBaseHi | erWbLo | erWbHi | erCfg | erPi | erCi | erStatus | evtRoute
  | chainStatus | chainCfg | chainEvent | schTick | schCfg | schCfg2 | schStatus | schStatus2
  | schEvent | schDepth | schWaitMax | schWaitMean | engStatus | engTag | engCode | engLoad
  | mcStatus | mcLevel | mcIndAddr | mcIndData | mcMatch | dmaCtl | dmaHeadLo | dmaHeadHi
  | dmaLimit | dmaStatus | dmaCurLo | dmaCurHi | dmaCount | cqBaseLo | cqBaseHi | cqWbLo
  | cqWbHi | cqCfg | cqPi | cqCi | dmaBytesLo | dmaBytesHi | dmaOwn | dmaGrace
  | dmaEvent | dmaLast | puntMap | idPart | idVendor | idDevice | glbStatus | glbWhoami
  | glbFwLevel | scratch | accEvent | accLast0 | accLast1 | accCount | accCfg | glbLock
  | boardId | ifrAddr | ifrData | ifrInfo | glbResetReq | pwrCtl | pwrStatus | pwrMacro
  | pwrMacroSt | pwrChiplet | pwrStack | pwrEvent | rimStatus | rimOtp | rimEvent | logNextLo
  | logNextHi | logOldestLo | logOldestHi | therm | mbxCtl | mbxStatus | mbxReq | mbxResp
  | cntAddr | cntDataLo | cntDataHi | cntGen | cntChainDev | cntChainSl | tagCfg | tagSeed
  | trcCfg | trcEng | trcDmacLo | trcDmacHi | trcSmacLo | trcSmacHi | trcWpLo | trcWpHi
  | trcStatus | hbmStatus | hbmCfg | hbmEvent | hbmLast | hbmRetire | hbmIndAddr | hbmIndCtl
  | hbmIndData | stkStatus | pcStatus | pcRwin | pcWwin | pcUse
  deriving DecidableEq, Repr

/-- The map of each register. Each line follows the register table named at its end. -/
def RegName.desc : RegName → RegDesc
  | .lrnCfg => ⟨0x1010000, [(0x200000, 8), (0x10, 32)], [⟨31, 31, .rw, .priv, 0, .epoch⟩, ⟨30, 30, .rw, .priv, 0, .epoch⟩, ⟨26, 0, .rw, .priv, 0, .epoch⟩]⟩  -- Table 02-11
  | .lrnRate => ⟨0x1010004, [(0x200000, 8), (0x10, 32)], [⟨23, 0, .rw, .priv, 0, .epoch⟩]⟩  -- Table 02-12
  | .lrnBurst => ⟨0x1010008, [(0x200000, 8), (0x10, 32)], [⟨15, 0, .rw, .priv, 0x400, .epoch⟩]⟩  -- Table 02-13
  | .lrnLive => ⟨0x101000C, [(0x200000, 8), (0x10, 32)], [⟨26, 0, .ro, .any, 0, .now⟩]⟩  -- Table 02-14
  | .sknStatus => ⟨0x2000000, [], [⟨31, 24, .ro, .any, 0, .now⟩, ⟨23, 23, .ro, .any, 0, .now⟩, ⟨22, 22, .ro, .any, 0, .now⟩, ⟨21, 21, .ro, .any, 0, .now⟩, ⟨15, 0, .ro, .any, 0, .now⟩]⟩  -- Table 03-9
  | .sknAgeCfg => ⟨0x2000004, [], [⟨23, 16, .rw, .priv, 8, .tick⟩, ⟨15, 0, .rw, .priv, 8, .now⟩]⟩  -- Table 03-10
  | .sknMigCfg => ⟨0x2000008, [], [⟨31, 31, .rw, .priv, 1, .now⟩, ⟨23, 16, .rw, .priv, 0xA, .now⟩, ⟨7, 0, .rw, .priv, 4, .now⟩]⟩  -- Table 03-11
  | .sknEvent => ⟨0x200000C, [], [⟨31, 16, .seq, .any, 0, .now⟩, ⟨4, 4, .seq, .any, 0, .now⟩, ⟨3, 3, .seq, .any, 0, .now⟩, ⟨2, 2, .seq, .any, 0, .now⟩, ⟨1, 1, .seq, .any, 0, .now⟩, ⟨0, 0, .seq, .any, 0, .now⟩]⟩  -- Table 03-12
  | .gmapIndex => ⟨0x2000010, [], [⟨15, 0, .rw, .any, 0, .now⟩]⟩  -- Table 03-13
  | .gmapData => ⟨0x2000014, [], [⟨31, 31, .ro, .any, 0, .now⟩, ⟨30, 30, .ro, .any, 0, .now⟩, ⟨29, 23, .ro, .any, 0, .now⟩, ⟨22, 13, .ro, .any, 0, .now⟩, ⟨11, 0, .ro, .any, 0, .now⟩]⟩  -- Table 03-14
  | .clsIdle => ⟨0x2001000, [(0x10, 64)], [⟨15, 0, .rw, .priv, 0x12C, .now⟩]⟩  -- Table 03-15
  | .clsClose => ⟨0x2001004, [(0x10, 64)], [⟨31, 16, .rw, .priv, 0xFA, .now⟩, ⟨15, 0, .rw, .priv, 0x753, .now⟩]⟩  -- Table 03-16
  | .clsPin => ⟨0x2001008, [(0x10, 64)], [⟨20, 0, .rw, .priv, 0, .now⟩]⟩  -- Table 03-17
  | .clsPinUsed => ⟨0x200100C, [(0x10, 64)], [⟨20, 0, .ro, .any, 0, .now⟩]⟩  -- Table 03-18
  | .prsCfg => ⟨0x1000000, [(0x200000, 8)], [⟨23, 16, .rw, .priv, 0x40, .commit⟩, ⟨1, 0, .rw, .priv, 3, .commit⟩]⟩  -- Table 04-13
  | .verStatus => ⟨0x1000004, [(0x200000, 8)], [⟨31, 16, .ro, .any, 0, .now⟩, ⟨15, 0, .ro, .any, 0, .now⟩]⟩  -- Table 04-14
  | .malActLo => ⟨0x1000008, [(0x200000, 8)], [⟨31, 0, .rw, .priv, 0, .commit⟩]⟩  -- Table 04-15
  | .malActHi => ⟨0x100000C, [(0x200000, 8)], [⟨31, 0, .rw, .priv, 8, .commit⟩]⟩  -- Table 04-15
  | .verCarry => ⟨0x1000010, [(0x200000, 8), (4, 4)], [⟨31, 16, .ro, .any, 0, .now⟩, ⟨15, 0, .ro, .any, 0, .now⟩]⟩  -- Table 04-16
  | .malLast0 => ⟨0x1000020, [(0x200000, 8)], [⟨31, 16, .seq, .any, 0, .now⟩, ⟨15, 8, .ro, .any, 0, .now⟩, ⟨4, 0, .ro, .any, 0, .now⟩]⟩  -- Table 04-17
  | .malLast1 => ⟨0x1000024, [(0x200000, 8)], [⟨31, 24, .ro, .any, 0, .now⟩, ⟨23, 13, .ro, .any, 0, .now⟩, ⟨8, 0, .ro, .any, 0, .now⟩]⟩  -- Table 04-18
  | .prsIndAddr => ⟨0x1000030, [(0x200000, 8)], [⟨15, 0, .rw, .priv, 0, .now⟩]⟩  -- Table 04-19
  | .prsIndCtl => ⟨0x1000034, [(0x200000, 8)], [⟨31, 31, .wo, .priv, 0, .now⟩, ⟨30, 30, .rw, .priv, 0, .now⟩, ⟨29, 28, .rw, .priv, 0, .now⟩, ⟨27, 27, .rw, .priv, 0, .now⟩, ⟨23, 20, .ro, .priv, 0, .now⟩]⟩  -- Table 04-20
  | .prsIndData => ⟨0x1000040, [(0x200000, 8), (4, 12)], [⟨31, 0, .rw, .priv, 0, .now⟩]⟩  -- Table 04-21
  | .prsPortEntry => ⟨0x1000100, [(0x200000, 8), (8, 32)], [⟨31, 31, .rw, .priv, 0, .commit⟩, ⟨10, 0, .rw, .priv, 0, .commit⟩]⟩  -- Table 04-22
  | .prsPortAcc => ⟨0x1000104, [(0x200000, 8), (8, 32)], [⟨31, 30, .rw, .priv, 0, .commit⟩, ⟨29, 29, .rw, .priv, 0, .commit⟩, ⟨19, 0, .rw, .priv, 0, .commit⟩]⟩  -- Table 04-23
  | .matCfg => ⟨0x1000800, [(0x200000, 8)], [⟨31, 30, .rw, .priv, 0, .commit⟩, ⟨29, 15, .rw, .priv, 0, .commit⟩, ⟨14, 0, .rw, .priv, 0x3E8, .now⟩]⟩  -- Table 04-24
  | .deepAct => ⟨0x1000804, [(0x200000, 8)], [⟨31, 0, .rw, .priv, 0, .commit⟩]⟩  -- Table 04-25
  | .deepStatus => ⟨0x1000808, [(0x200000, 8)], [⟨28, 16, .ro, .any, 0, .now⟩, ⟨12, 0, .ro, .any, 0, .now⟩]⟩  -- Table 04-26
  | .tcamBlk => ⟨0x1020000, [(0x200000, 8), (4, 32)], [⟨7, 7, .rw, .priv, 0, .now⟩, ⟨6, 6, .rw, .priv, 0, .now⟩, ⟨3, 0, .rw, .priv, 0, .now⟩]⟩  -- Table 05-13
  | .tcamKey => ⟨0x1020080, [(0x200000, 8), (0x10, 16), (4, 4)], [⟨31, 24, .rw, .priv, 0xFF, .commit⟩, ⟨23, 16, .rw, .priv, 0xFF, .commit⟩, ⟨15, 8, .rw, .priv, 0xFF, .commit⟩, ⟨7, 0, .rw, .priv, 0xFF, .commit⟩]⟩  -- Table 05-14
  | .tcamPort => ⟨0x1020200, [(0x200000, 8), (4, 32)], [⟨15, 0, .rw, .priv, 0, .commit⟩]⟩  -- Table 05-15
  | .tcamHole => ⟨0x1020300, [(0x200000, 8), (4, 16)], [⟨31, 31, .rw, .priv, 0, .now⟩, ⟨3, 0, .rw, .priv, 4, .now⟩]⟩  -- Table 05-16
  | .tcamStatus => ⟨0x1020400, [(0x200000, 8)], [⟨31, 31, .ro, .any, 0, .now⟩, ⟨14, 0, .ro, .any, 0, .now⟩]⟩  -- Table 05-17
  | .tcamEvent => ⟨0x1020404, [(0x200000, 8)], [⟨31, 16, .seq, .any, 0, .now⟩, ⟨3, 3, .seq, .any, 0, .now⟩, ⟨2, 2, .seq, .any, 0, .now⟩, ⟨1, 1, .seq, .any, 0, .now⟩, ⟨0, 0, .seq, .any, 0, .now⟩]⟩  -- Table 05-18
  | .tcamLast => ⟨0x1020408, [(0x200000, 8)], [⟨31, 28, .ro, .any, 0, .now⟩, ⟨27, 27, .ro, .any, 0, .now⟩, ⟨14, 0, .ro, .any, 0, .now⟩]⟩  -- Table 05-19
  | .tcamIndAddr => ⟨0x1020410, [(0x200000, 8)], [⟨14, 0, .rw, .priv, 0, .now⟩]⟩  -- Table 05-20
  | .tcamIndCtl => ⟨0x1020414, [(0x200000, 8)], [⟨31, 31, .wo, .priv, 0, .now⟩, ⟨30, 30, .rw, .priv, 0, .now⟩, ⟨29, 29, .rw, .priv, 0, .now⟩, ⟨23, 20, .ro, .priv, 0, .now⟩]⟩  -- Table 05-21
  | .tcamIndData => ⟨0x1020480, [(0x200000, 8), (4, 20)], [⟨31, 0, .rw, .priv, 0, .now⟩]⟩  -- Table 05-22
  | .l2Cfg => ⟨0x1030000, [(0x200000, 8)], [⟨31, 16, .rw, .priv, 0x12C, .now⟩, ⟨15, 0, .rw, .priv, 0x3E8, .now⟩]⟩  -- Table 05-23
  | .l2Status => ⟨0x1030004, [(0x200000, 8)], [⟨18, 0, .ro, .any, 0, .now⟩]⟩  -- Table 05-24
  | .l2Event => ⟨0x1030008, [(0x200000, 8)], [⟨31, 16, .seq, .any, 0, .now⟩, ⟨1, 1, .seq, .any, 0, .now⟩, ⟨0, 0, .seq, .any, 0, .now⟩]⟩  -- Table 05-25
  | .l2Port => ⟨0x1030100, [(0x200000, 8), (4, 32)], [⟨31, 31, .rw, .priv, 1, .epoch⟩, ⟨30, 30, .rw, .priv, 0, .epoch⟩, ⟨17, 0, .rw, .priv, 0, .epoch⟩]⟩  -- Table 05-26
  | .l2PortCnt => ⟨0x1030180, [(0x200000, 8), (4, 32)], [⟨18, 0, .ro, .any, 0, .now⟩]⟩  -- Table 05-27
  | .vlanWithy => ⟨0x1030200, [(0x200000, 8)], [⟨10, 0, .ro, .any, 0, .now⟩]⟩  -- Table 05-28
  | .dtWithy => ⟨0x4000, [], [⟨16, 0, .ro, .any, 0, .now⟩]⟩  -- Table 05-29
  | .dtPfx4 => ⟨0x4004, [], [⟨21, 0, .ro, .any, 0, .now⟩]⟩  -- Table 05-30
  | .dtPfx6 => ⟨0x4008, [], [⟨20, 0, .ro, .any, 0, .now⟩]⟩  -- Table 05-31
  | .dtEvent => ⟨0x400C, [], [⟨31, 16, .seq, .any, 0, .now⟩, ⟨2, 2, .seq, .any, 0, .now⟩, ⟨1, 1, .seq, .any, 0, .now⟩, ⟨0, 0, .seq, .any, 0, .now⟩]⟩  -- Table 05-32
  | .actCfg => ⟨0x5000, [], [⟨31, 24, .rw, .priv, 0x25, .now⟩, ⟨23, 16, .rw, .priv, 0x64, .now⟩, ⟨15, 0, .rw, .priv, 0x258, .now⟩]⟩  -- Table 06-22
  | .actEvent => ⟨0x5004, [], [⟨31, 16, .seq, .any, 0, .now⟩, ⟨4, 4, .seq, .any, 0, .now⟩, ⟨3, 3, .seq, .any, 0, .now⟩, ⟨2, 2, .seq, .any, 0, .now⟩, ⟨1, 1, .seq, .any, 0, .now⟩, ⟨0, 0, .seq, .any, 0, .now⟩]⟩  -- Table 06-23
  | .actStatus => ⟨0x5008, [], [⟨31, 25, .ro, .any, 0, .now⟩, ⟨24, 12, .ro, .any, 0, .now⟩]⟩  -- Table 06-24
  | .natStatus => ⟨0x500C, [], [⟨22, 0, .ro, .any, 0, .now⟩]⟩  -- Table 06-25
  | .lbToeplitz => ⟨0x5040, [(4, 12)], [⟨31, 0, .rw, .priv, 0, .now⟩]⟩  -- Table 06-26
  | .expColCtl => ⟨0x5100, [(0x40, 8)], [⟨31, 31, .rw, .priv, 0, .now⟩, ⟨30, 30, .rw, .priv, 0, .now⟩, ⟨29, 29, .rw, .priv, 0, .now⟩, ⟨26, 24, .rw, .priv, 0, .now⟩, ⟨19, 0, .rw, .priv, 0, .now⟩]⟩  -- Table 06-27
  | .expColUdp => ⟨0x5104, [(0x40, 8)], [⟨31, 16, .rw, .priv, 0x1283, .now⟩, ⟨15, 0, .rw, .priv, 0x1283, .now⟩]⟩  -- Table 06-28
  | .expColDomain => ⟨0x5108, [(0x40, 8)], [⟨31, 0, .rw, .priv, 0, .now⟩]⟩  -- Table 06-29
  | .expColMtu => ⟨0x510C, [(0x40, 8)], [⟨13, 0, .rw, .priv, 0x5DC, .now⟩]⟩  -- Table 06-30
  | .expColSeq => ⟨0x5130, [(0x40, 8)], [⟨31, 0, .ro, .any, 0, .now⟩]⟩  -- Table 06-32
  | .expColAddr => ⟨0x5110, [(0x40, 8), (4, 8)], [⟨31, 0, .rw, .priv, 0, .now⟩]⟩  -- Table 06-31
  | .crlStatus => ⟨0x1040000, [(0x200000, 8)], [⟨31, 16, .ro, .any, 0x99E0, .now⟩, ⟨15, 0, .ro, .any, 0xC000, .now⟩]⟩  -- Table 07-8
  | .crlRes => ⟨0x1040004, [(0x200000, 8)], [⟨31, 16, .ro, .any, 0x2020, .now⟩, ⟨15, 0, .ro, .any, 0x2020, .now⟩]⟩  -- Table 07-9
  | .crlEvent => ⟨0x1040008, [(0x200000, 8)], [⟨31, 16, .seq, .any, 0, .now⟩, ⟨3, 3, .seq, .any, 0, .now⟩, ⟨2, 2, .seq, .any, 0, .now⟩, ⟨1, 1, .seq, .any, 0, .now⟩, ⟨0, 0, .seq, .any, 0, .now⟩]⟩  -- Table 07-10
  | .crlLast => ⟨0x104000C, [(0x200000, 8)], [⟨31, 30, .ro, .any, 0, .now⟩, ⟨15, 0, .ro, .any, 0, .now⟩]⟩  -- Table 07-11
  | .crlPtr => ⟨0x1040010, [(0x200000, 8)], [⟨16, 0, .ro, .any, 0, .now⟩]⟩  -- Table 07-12
  | .crlLost => ⟨0x1040014, [(0x200000, 8)], [⟨15, 0, .ro, .any, 0, .now⟩]⟩  -- Table 07-13
  | .ownCfg0 => ⟨0x1041000, [(0x200000, 8), (8, 2056)], [⟨31, 31, .rw, .priv, 0, .now⟩, ⟨30, 30, .rw, .priv, 0, .now⟩, ⟨29, 26, .rw, .priv, 6, .now⟩, ⟨9, 0, .rw, .priv, 4, .now⟩]⟩  -- Table 07-14
  | .ownCfg1 => ⟨0x1041004, [(0x200000, 8), (8, 2056)], [⟨31, 16, .rw, .priv, 0, .now⟩, ⟨15, 0, .rw, .priv, 0x100, .now⟩]⟩  -- Table 07-15
  | .ownUse => ⟨0x1046000, [(0x200000, 8), (4, 2056)], [⟨15, 0, .ro, .any, 0, .now⟩]⟩  -- Table 07-16
  | .ownDrop => ⟨0x1049000, [(0x200000, 8), (4, 2056)], [⟨31, 0, .ro, .any, 0, .now⟩]⟩  -- Table 07-17
  | .egrCt => ⟨0x104C000, [(0x200000, 8), (4, 32)], [⟨31, 31, .rw, .priv, 1, .now⟩, ⟨4, 0, .rw, .priv, 0, .now⟩]⟩  -- Table 07-18
  | .waleEvent => ⟨0x6000, [], [⟨31, 16, .seq, .any, 0, .now⟩, ⟨0, 0, .seq, .any, 0, .now⟩]⟩  -- Table 07-19
  | .eqCredit => ⟨0x6100, [(0x20, 256), (4, 8)], [⟨7, 0, .rw, .priv, 0x20, .now⟩]⟩  -- Table 07-20
  | .waleHeld => ⟨0x6004, [], [⟨13, 0, .ro, .any, 0, .now⟩]⟩  -- Table 07-22
  | .waleSel => ⟨0x6008, [], [⟨10, 3, .rw, .any, 0, .now⟩, ⟨2, 0, .rw, .any, 0, .now⟩]⟩  -- Table 07-23
  | .shqCfg => ⟨0x1050000, [(0x200000, 8), (0x10, 256)], [⟨31, 31, .rw, .priv, 0, .now⟩, ⟨27, 20, .rw, .priv, 0, .now⟩, ⟨19, 0, .rw, .priv, 0x2818, .now⟩]⟩  -- Table 08-6
  | .shqRate => ⟨0x1050004, [(0x200000, 8), (0x10, 256)], [⟨31, 0, .rw, .priv, 0, .now⟩]⟩  -- Table 08-7
  | .shqBurst => ⟨0x1050008, [(0x200000, 8), (0x10, 256)], [⟨23, 0, .rw, .priv, 0x3000, .now⟩]⟩  -- Table 08-8
  | .shqTokens => ⟨0x105000C, [(0x200000, 8), (0x10, 256)], [⟨31, 0, .ro, .any, 0, .now⟩]⟩  -- Table 08-9
  | .egrPortCfg => ⟨0x1052000, [(0x200000, 8), (0x10, 32)], [⟨31, 31, .rw, .priv, 0, .now⟩, ⟨27, 20, .rw, .priv, 0, .now⟩, ⟨7, 0, .rw, .priv, 0, .now⟩]⟩  -- Table 08-10
  | .shpRate => ⟨0x1052004, [(0x200000, 8), (0x10, 32)], [⟨31, 0, .rw, .priv, 0, .now⟩]⟩  -- Table 08-11
  | .shpBurst => ⟨0x1052008, [(0x200000, 8), (0x10, 32)], [⟨23, 0, .rw, .priv, 0x3000, .now⟩]⟩  -- Table 08-11
  | .shpTokens => ⟨0x105200C, [(0x200000, 8), (0x10, 32)], [⟨31, 0, .ro, .any, 0, .now⟩]⟩  -- Table 08-11
  | .egrEvent => ⟨0x1053000, [(0x200000, 8)], [⟨31, 16, .seq, .any, 0, .now⟩, ⟨3, 3, .seq, .any, 0, .now⟩, ⟨2, 2, .seq, .any, 0, .now⟩, ⟨1, 1, .seq, .any, 0, .now⟩, ⟨0, 0, .seq, .any, 0, .now⟩]⟩  -- Table 08-12
  | .egrLast => ⟨0x1053004, [(0x200000, 8)], [⟨7, 0, .ro, .any, 0, .now⟩]⟩  -- Table 08-13
  | .gclAdmin => ⟨0x1060000, [(0x200000, 8), (0x40, 32)], [⟨31, 31, .rw, .priv, 0, .atTime⟩, ⟨30, 30, .rw, .priv, 0, .atTime⟩, ⟨25, 16, .rw, .priv, 0, .atTime⟩]⟩  -- Table 08-14
  | .gclCycle => ⟨0x1060004, [(0x200000, 8), (0x40, 32)], [⟨29, 0, .rw, .priv, 0xF424, .atTime⟩]⟩  -- Table 08-15
  | .gclBaseNs => ⟨0x1060008, [(0x200000, 8), (0x40, 32)], [⟨31, 0, .rw, .priv, 0, .now⟩]⟩  -- Table 08-16
  | .gclBaseSlo => ⟨0x106000C, [(0x200000, 8), (0x40, 32)], [⟨31, 0, .rw, .priv, 0, .now⟩]⟩  -- Table 08-16
  | .gclBaseShi => ⟨0x1060010, [(0x200000, 8), (0x40, 32)], [⟨31, 0, .rw, .priv, 0, .now⟩]⟩  -- Table 08-16
  | .gclOper => ⟨0x1060014, [(0x200000, 8), (0x40, 32)], [⟨31, 31, .ro, .any, 0, .now⟩, ⟨30, 30, .ro, .any, 0, .now⟩, ⟨29, 29, .ro, .any, 0, .now⟩, ⟨25, 16, .ro, .any, 0, .now⟩, ⟨9, 0, .ro, .any, 0, .now⟩]⟩  -- Table 08-17
  | .gclOperCycle => ⟨0x1060018, [(0x200000, 8), (0x40, 32)], [⟨29, 0, .ro, .any, 0, .now⟩]⟩  -- Table 08-18
  | .gclIndCtl => ⟨0x1060020, [(0x200000, 8), (0x40, 32)], [⟨31, 31, .wo, .priv, 0, .now⟩, ⟨30, 30, .rw, .priv, 0, .now⟩, ⟨29, 29, .rw, .priv, 0, .now⟩, ⟨28, 28, .rw, .priv, 0, .now⟩, ⟨23, 20, .ro, .priv, 0, .now⟩, ⟨9, 0, .rw, .priv, 0, .now⟩]⟩  -- Table 08-19
  | .gclIndData0 => ⟨0x1060024, [(0x200000, 8), (0x40, 32)], [⟨31, 0, .rw, .priv, 0, .now⟩]⟩  -- Table 08-20
  | .gclIndData1 => ⟨0x1060028, [(0x200000, 8), (0x40, 32)], [⟨31, 0, .rw, .priv, 0, .now⟩]⟩  -- Table 08-20
  | .polIndAddr => ⟨0x9000, [], [⟨17, 0, .rw, .priv, 0, .now⟩]⟩  -- Table 08-22
  | .polIndCtl => ⟨0x9004, [], [⟨31, 31, .wo, .priv, 0, .now⟩, ⟨30, 30, .rw, .priv, 0, .now⟩, ⟨29, 29, .rw, .priv, 0, .now⟩, ⟨23, 20, .ro, .priv, 0, .now⟩]⟩  -- Table 08-23
  | .polEvent => ⟨0x9008, [], [⟨31, 16, .seq, .any, 0, .now⟩]⟩  -- Table 08-24
  | .polLast => ⟨0x900C, [], [⟨31, 31, .seq, .any, 0, .now⟩, ⟨17, 0, .ro, .any, 0, .now⟩]⟩  -- Table 08-25
  | .polIndData => ⟨0x9010, [(4, 8)], [⟨31, 0, .rw, .priv, 0, .now⟩]⟩  -- Table 08-26
  | .lidStatus => ⟨0x600000, [], [⟨31, 30, .ro, .any, 0, .now⟩, ⟨29, 16, .ro, .any, 0, .now⟩, ⟨15, 13, .ro, .any, 0, .now⟩, ⟨12, 12, .ro, .any, 0, .now⟩, ⟨11, 11, .ro, .any, 0, .now⟩, ⟨10, 10, .ro, .any, 0, .now⟩, ⟨0, 0, .ro, .any, 0, .now⟩]⟩  -- Table 09-11
  | .lidSeqLo => ⟨0x600004, [], [⟨31, 0, .ro, .any, 0, .now⟩]⟩  -- Table 09-12
  | .lidSeqHi => ⟨0x600008, [], [⟨31, 0, .ro, .any, 0, .now⟩]⟩  -- Table 09-12
  | .lidCfg => ⟨0x60000C, [], [⟨31, 31, .rw, .priv, 0, .epoch⟩, ⟨23, 17, .rw, .priv, 0, .epoch⟩, ⟨16, 0, .rw, .priv, 0xE10, .epoch⟩]⟩  -- Table 09-13
  | .lidInforce => ⟨0x600010, [], [⟨16, 0, .ro, .any, 0xE10, .now⟩]⟩  -- Table 09-14
  | .lidEvent => ⟨0x600014, [], [⟨31, 16, .seq, .any, 0, .now⟩, ⟨3, 3, .seq, .any, 0, .now⟩, ⟨2, 2, .seq, .any, 0, .now⟩, ⟨1, 1, .seq, .any, 0, .now⟩, ⟨0, 0, .seq, .any, 0, .now⟩]⟩  -- Table 09-15
  | .lidSyncLast => ⟨0x600018, [], [⟨31, 0, .ro, .any, 0, .now⟩]⟩  -- Table 09-16
  | .sealIndAddr => ⟨0x600100, [], [⟨19, 16, .rw, .any, 0, .now⟩, ⟨8, 0, .rw, .any, 0, .now⟩]⟩  -- Table 09-17
  | .sealIndData => ⟨0x600104, [], [⟨31, 0, .ro, .any, 0, .now⟩]⟩  -- Table 09-18
  | .totIndAddr => ⟨0x600200, [], [⟨31, 28, .rw, .any, 0, .now⟩, ⟨27, 26, .rw, .any, 0, .now⟩, ⟨19, 0, .rw, .any, 0, .now⟩]⟩  -- Table 09-19
  | .totIndCtl => ⟨0x600204, [], [⟨31, 31, .wo, .any, 0, .now⟩, ⟨30, 30, .rw, .any, 0, .now⟩, ⟨23, 20, .ro, .any, 0, .now⟩]⟩  -- Table 09-20
  | .totIndData => ⟨0x600240, [(4, 16)], [⟨31, 0, .ro, .any, 0, .now⟩]⟩  -- Table 09-21
  | .timeStatus => ⟨0x400000, [], [⟨31, 31, .ro, .any, 0, .now⟩, ⟨30, 30, .ro, .any, 0, .now⟩, ⟨29, 29, .ro, .any, 0, .now⟩, ⟨28, 28, .ro, .any, 0, .now⟩]⟩  -- Table 10-6
  | .timeCtl => ⟨0x400004, [], [⟨31, 31, .rw, .priv, 0, .now⟩, ⟨30, 30, .wo, .priv, 0, .now⟩, ⟨7, 0, .rw, .priv, 0x64, .now⟩]⟩  -- Table 10-7
  | .timeTickLo => ⟨0x400008, [], [⟨31, 0, .ro, .any, 0, .now⟩]⟩  -- Table 10-8
  | .timeTickHi => ⟨0x40000C, [], [⟨31, 0, .ro, .any, 0, .now⟩]⟩  -- Table 10-8
  | .timeResidual => ⟨0x400010, [], [⟨31, 0, .ro, .any, 0, .now⟩]⟩  -- Table 10-8
  | .timeEvent => ⟨0x400014, [], [⟨31, 16, .seq, .any, 0, .now⟩, ⟨4, 4, .seq, .any, 0, .now⟩, ⟨3, 3, .seq, .any, 0, .now⟩, ⟨2, 2, .seq, .any, 0, .now⟩, ⟨1, 1, .seq, .any, 0, .now⟩, ⟨0, 0, .seq, .any, 0, .now⟩]⟩  -- Table 10-9
  | .snapCtl => ⟨0x400040, [], [⟨31, 31, .wo, .any, 0, .now⟩, ⟨30, 30, .ro, .any, 0, .now⟩]⟩  -- Table 10-10
  | .snapTickLo => ⟨0x400044, [], [⟨31, 0, .ro, .any, 0, .now⟩]⟩  -- Table 10-10
  | .snapTickHi => ⟨0x400048, [], [⟨31, 0, .ro, .any, 0, .now⟩]⟩  -- Table 10-10
  | .snapTime => ⟨0x400050, [(0x10, 3), (4, 4)], [⟨31, 0, .ro, .any, 0, .now⟩]⟩  -- Table 10-10
  | .tdCtl => ⟨0x400100, [(0x40, 2)], [⟨31, 31, .wo, .priv, 0, .now⟩, ⟨30, 28, .rw, .priv, 0, .now⟩, ⟨23, 20, .ro, .priv, 0, .now⟩]⟩  -- Table 10-11
  | .tdSecLo => ⟨0x400104, [(0x40, 2)], [⟨31, 0, .rw, .priv, 0, .now⟩]⟩  -- Table 10-12
  | .tdSecHi => ⟨0x400108, [(0x40, 2)], [⟨31, 0, .rw, .priv, 0, .now⟩]⟩  -- Table 10-12
  | .tdNs => ⟨0x40010C, [(0x40, 2)], [⟨31, 0, .rw, .priv, 0, .now⟩]⟩  -- Table 10-12
  | .tdFrac => ⟨0x400110, [(0x40, 2)], [⟨15, 0, .rw, .priv, 0, .now⟩]⟩  -- Table 10-12
  | .tdTickLo => ⟨0x400114, [(0x40, 2)], [⟨31, 0, .rw, .priv, 0, .now⟩]⟩  -- Table 10-12
  | .tdTickHi => ⟨0x400118, [(0x40, 2)], [⟨31, 0, .rw, .priv, 0, .now⟩]⟩  -- Table 10-12
  | .tdAdjNs => ⟨0x40011C, [(0x40, 2)], [⟨31, 0, .rw, .priv, 0, .now⟩]⟩  -- Table 10-12
  | .tdAdjFrac => ⟨0x400120, [(0x40, 2)], [⟨15, 0, .rw, .priv, 0, .now⟩]⟩  -- Table 10-12
  | .tdRateFrac => ⟨0x400124, [(0x40, 2)], [⟨31, 0, .rw, .priv, 0xCCCCCCCD, .now⟩]⟩  -- Table 10-12
  | .tdRateInt => ⟨0x400128, [(0x40, 2)], [⟨31, 0, .rw, .priv, 0, .now⟩]⟩  -- Table 10-12
  | .toutCtl => ⟨0x400200, [(0x20, 4)], [⟨31, 31, .rw, .priv, 0, .atTime⟩, ⟨30, 29, .rw, .priv, 0, .atTime⟩, ⟨28, 28, .rw, .priv, 0, .atTime⟩, ⟨27, 27, .ro, .any, 0, .now⟩, ⟨26, 26, .ro, .any, 0, .now⟩]⟩  -- Table 10-13
  | .toutStartNs => ⟨0x400204, [(0x20, 4)], [⟨31, 0, .rw, .priv, 0, .now⟩]⟩  -- Table 10-14
  | .toutStartSlo => ⟨0x400208, [(0x20, 4)], [⟨31, 0, .rw, .priv, 0, .now⟩]⟩  -- Table 10-14
  | .toutStartShi => ⟨0x40020C, [(0x20, 4)], [⟨31, 0, .rw, .priv, 0, .now⟩]⟩  -- Table 10-14
  | .toutPeriod => ⟨0x400210, [(0x20, 4)], [⟨31, 0, .rw, .priv, 0x3B9ACA00, .atTime⟩]⟩  -- Table 10-14
  | .toutWidth => ⟨0x400214, [(0x20, 4)], [⟨31, 0, .rw, .priv, 0x5F5E100, .atTime⟩]⟩  -- Table 10-14
  | .tinCtl => ⟨0x400300, [(0x40, 4)], [⟨31, 31, .rw, .priv, 0, .now⟩, ⟨30, 29, .rw, .priv, 1, .now⟩, ⟨28, 28, .rw, .priv, 0, .now⟩]⟩  -- Table 10-15
  | .tinStatus => ⟨0x400304, [(0x40, 4)], [⟨15, 8, .ro, .any, 0, .now⟩, ⟨4, 0, .ro, .any, 0, .now⟩]⟩  -- Table 10-15
  | .tinPop => ⟨0x400308, [(0x40, 4)], [⟨0, 0, .wo, .any, 0, .now⟩]⟩  -- Table 10-15
  | .tinCapTickLo => ⟨0x400310, [(0x40, 4)], [⟨31, 0, .ro, .any, 0, .now⟩]⟩  -- Table 10-16
  | .tinCapTickHi => ⟨0x400314, [(0x40, 4)], [⟨31, 0, .ro, .any, 0, .now⟩]⟩  -- Table 10-16
  | .tinCapSecLo => ⟨0x400318, [(0x40, 4)], [⟨31, 0, .ro, .any, 0, .now⟩]⟩  -- Table 10-16
  | .tinCapSecHi => ⟨0x40031C, [(0x40, 4)], [⟨31, 0, .ro, .any, 0, .now⟩]⟩  -- Table 10-16
  | .tinCapNs => ⟨0x400320, [(0x40, 4)], [⟨31, 0, .ro, .any, 0, .now⟩]⟩  -- Table 10-16
  | .tinCapInfo => ⟨0x400324, [(0x40, 4)], [⟨31, 31, .ro, .any, 0, .now⟩, ⟨17, 16, .ro, .any, 0, .now⟩, ⟨15, 0, .ro, .any, 0, .now⟩]⟩  -- Table 10-16
  | .tsCfg => ⟨0x401000, [(0x10, 256)], [⟨31, 31, .rw, .priv, 0, .now⟩]⟩  -- Table 10-17
  | .tsRxAdj => ⟨0x401004, [(0x10, 256)], [⟨31, 0, .rw, .priv, 0, .now⟩]⟩  -- Table 10-17
  | .tsTxAdj => ⟨0x401008, [(0x10, 256)], [⟨31, 0, .rw, .priv, 0, .now⟩]⟩  -- Table 10-17
  | .laneCfg => ⟨0x3000000, [(0x1000, 256)], [⟨28, 27, .rw, .priv, 0, .now⟩, ⟨7, 7, .rw, .priv, 0, .retrain⟩, ⟨6, 6, .rw, .priv, 0, .retrain⟩, ⟨5, 4, .rw, .priv, 2, .retrain⟩, ⟨3, 2, .rw, .priv, 2, .retrain⟩]⟩  -- Table 11-11
  | .laneLoss => ⟨0x3000004, [(0x1000, 256)], [⟨2, 0, .rw, .priv, 7, .retrain⟩]⟩  -- Table 11-12
  | .laneStatus => ⟨0x3000008, [(0x1000, 256)], [⟨31, 31, .ro, .any, 0, .now⟩, ⟨30, 30, .ro, .any, 0, .now⟩, ⟨29, 29, .ro, .any, 0, .now⟩, ⟨28, 28, .ro, .any, 0, .now⟩, ⟨27, 27, .ro, .any, 0, .now⟩, ⟨26, 26, .ro, .any, 0, .now⟩, ⟨25, 25, .ro, .any, 0, .now⟩, ⟨24, 24, .ro, .any, 0, .now⟩, ⟨15, 8, .ro, .any, 0, .now⟩, ⟨7, 0, .ro, .any, 0, .now⟩]⟩  -- Table 11-13
  | .laneTest => ⟨0x3000010, [(0x1000, 256)], [⟨31, 31, .rw, .priv, 0, .now⟩, ⟨30, 30, .rw, .priv, 0, .now⟩, ⟨29, 29, .rw, .priv, 0, .now⟩, ⟨28, 28, .wo, .priv, 0, .now⟩, ⟨27, 27, .wo, .priv, 0, .now⟩, ⟨26, 26, .ro, .any, 0, .now⟩, ⟨25, 25, .ro, .any, 0, .now⟩, ⟨24, 22, .rw, .priv, 5, .now⟩, ⟨21, 19, .rw, .priv, 5, .now⟩, ⟨18, 17, .rw, .priv, 0, .now⟩, ⟨16, 12, .rw, .priv, 0x14, .now⟩]⟩  -- Table 11-14
  | .prbsErr => ⟨0x3000014, [(0x1000, 256)], [⟨31, 0, .ro, .any, 0, .now⟩]⟩  -- Table 11-15
  | .prbsBitsLo => ⟨0x3000018, [(0x1000, 256)], [⟨31, 0, .ro, .any, 0, .now⟩]⟩  -- Table 11-15
  | .prbsBitsHi => ⟨0x300001C, [(0x1000, 256)], [⟨31, 0, .ro, .any, 0, .now⟩]⟩  -- Table 11-15
  | .injCount => ⟨0x3000020, [(0x1000, 256)], [⟨31, 0, .ro, .any, 0, .now⟩]⟩  -- Table 11-15
  | .laneIndAddr => ⟨0x3000040, [(0x1000, 256)], [⟨31, 28, .rw, .priv, 0, .now⟩, ⟨7, 0, .rw, .priv, 0, .now⟩]⟩  -- Table 11-16
  | .laneIndCtl => ⟨0x3000044, [(0x1000, 256)], [⟨31, 31, .wo, .priv, 0, .now⟩, ⟨30, 30, .rw, .priv, 0, .now⟩, ⟨29, 29, .rw, .priv, 0, .now⟩, ⟨23, 20, .ro, .priv, 0, .now⟩]⟩  -- Table 11-17
  | .laneIndData => ⟨0x3000048, [(0x1000, 256)], [⟨31, 0, .rw, .priv, 0, .retrain⟩]⟩  -- Table 11-17
  | .portCtl => ⟨0x3000400, [(0x1000, 256)], [⟨31, 31, .rw, .priv, 0, .now⟩, ⟨30, 30, .wo, .priv, 0, .now⟩, ⟨29, 29, .wo, .priv, 0, .now⟩, ⟨28, 28, .rw, .priv, 1, .retrain⟩, ⟨27, 27, .rw, .priv, 1, .retrain⟩, ⟨26, 26, .rw, .priv, 0, .retrain⟩, ⟨25, 25, .rw, .priv, 0, .now⟩, ⟨24, 24, .rw, .priv, 0, .now⟩, ⟨13, 0, .rw, .priv, 0x2800, .now⟩]⟩  -- Table 11-18
  | .portTrain => ⟨0x3000404, [(0x1000, 256)], [⟨31, 28, .rw, .priv, 3, .retrain⟩, ⟨23, 16, .rw, .priv, 0x90, .retrain⟩, ⟨15, 0, .rw, .priv, 0x1F4, .retrain⟩]⟩  -- Table 11-19
  | .portStatus => ⟨0x3000408, [(0x1000, 256)], [⟨23, 22, .ro, .any, 0, .now⟩, ⟨19, 16, .ro, .any, 0, .now⟩, ⟨15, 12, .ro, .any, 0, .now⟩, ⟨11, 0, .ro, .any, 0, .now⟩]⟩  -- Table 11-20
  | .portFec => ⟨0x300040C, [(0x1000, 256)], [⟨15, 0, .rw, .priv, 0x10, .now⟩]⟩  -- Table 11-21
  | .portLpi => ⟨0x3000410, [(0x1000, 256)], [⟨31, 16, .rw, .priv, 0x10, .now⟩, ⟨15, 0, .rw, .priv, 5, .now⟩]⟩  -- Table 11-21
  | .macroMode => ⟨0x3000800, [(0x8000, 32)], [⟨3, 0, .rw, .priv, 0, .now⟩]⟩  -- Table 11-22
  | .lineEvent => ⟨0x3000804, [(0x8000, 32)], [⟨31, 16, .seq, .any, 0, .now⟩, ⟨5, 5, .seq, .any, 0, .now⟩, ⟨4, 4, .seq, .any, 0, .now⟩, ⟨3, 3, .seq, .any, 0, .now⟩, ⟨2, 2, .seq, .any, 0, .now⟩, ⟨1, 1, .seq, .any, 0, .now⟩, ⟨0, 0, .seq, .any, 0, .now⟩]⟩  -- Table 11-23
  | .lineLast => ⟨0x3000808, [(0x8000, 32)], [⟨7, 0, .ro, .any, 0, .now⟩]⟩  -- Table 11-24
  | .hpStatus => ⟨0x100000, [(0x1000, 2)], [⟨31, 31, .ro, .any, 0, .now⟩, ⟨30, 28, .ro, .any, 0, .now⟩, ⟨27, 24, .ro, .any, 0, .now⟩]⟩  -- Table 12-12
  | .hpRingOwn => ⟨0x100004, [(0x1000, 2)], [⟨31, 16, .rw, .priv, 0, .now⟩, ⟨15, 0, .rw, .priv, 0, .now⟩]⟩  -- Table 12-13
  | .hpEvent => ⟨0x100008, [(0x1000, 2)], [⟨31, 16, .seq, .priv, 0, .now⟩, ⟨3, 3, .seq, .priv, 0, .now⟩, ⟨2, 2, .seq, .priv, 0, .now⟩, ⟨1, 1, .seq, .priv, 0, .now⟩, ⟨0, 0, .seq, .priv, 0, .now⟩]⟩  -- Table 12-14
  | .hpLast => ⟨0x10000C, [(0x1000, 2)], [⟨31, 28, .ro, .priv, 0, .now⟩, ⟨27, 24, .ro, .priv, 0, .now⟩, ⟨23, 0, .ro, .priv, 0, .now⟩]⟩  -- Table 12-15
  | .sem => ⟨0x102000, [(4, 64)], [⟨8, 8, .rw, .any, 0, .now⟩, ⟨7, 0, .rw, .any, 0, .now⟩]⟩  -- Table 12-16
  | .crBaseLo => ⟨0x200000, [(0x4000, 2), (0x40, 16)], [⟨31, 12, .rw, .any, 0, .now⟩]⟩  -- Table 12-17
  | .crBaseHi => ⟨0x200004, [(0x4000, 2), (0x40, 16)], [⟨31, 0, .rw, .any, 0, .now⟩]⟩  -- Table 12-17
  | .crWbLo => ⟨0x200008, [(0x4000, 2), (0x40, 16)], [⟨31, 2, .rw, .any, 0, .now⟩]⟩  -- Table 12-17
  | .crWbHi => ⟨0x20000C, [(0x4000, 2), (0x40, 16)], [⟨31, 0, .rw, .any, 0, .now⟩]⟩  -- Table 12-17
  | .crCfg => ⟨0x200010, [(0x4000, 2), (0x40, 16)], [⟨31, 31, .rw, .any, 0, .now⟩, ⟨30, 30, .wo, .any, 0, .now⟩, ⟨29, 29, .rw, .any, 0, .now⟩, ⟨24, 20, .rw, .any, 7, .now⟩, ⟨5, 0, .rw, .any, 0, .now⟩]⟩  -- Table 12-18
  | .crPi => ⟨0x200014, [(0x4000, 2), (0x40, 16)], [⟨31, 0, .rw, .any, 0, .now⟩]⟩  -- Table 12-19
  | .crCi => ⟨0x200018, [(0x4000, 2), (0x40, 16)], [⟨31, 0, .ro, .any, 0, .now⟩]⟩  -- Table 12-19
  | .crStatus => ⟨0x20001C, [(0x4000, 2), (0x40, 16)], [⟨31, 31, .ro, .any, 0, .now⟩, ⟨27, 24, .ro, .any, 0, .now⟩]⟩  -- Table 12-19
  | .rrBaseLo => ⟨0x201000, [(0x4000, 2), (0x40, 16)], [⟨31, 12, .rw, .any, 0, .now⟩]⟩  -- Table 12-17
  | .rrBaseHi => ⟨0x201004, [(0x4000, 2), (0x40, 16)], [⟨31, 0, .rw, .any, 0, .now⟩]⟩  -- Table 12-17
  | .rrWbLo => ⟨0x201008, [(0x4000, 2), (0x40, 16)], [⟨31, 2, .rw, .any, 0, .now⟩]⟩  -- Table 12-17
  | .rrWbHi => ⟨0x20100C, [(0x4000, 2), (0x40, 16)], [⟨31, 0, .rw, .any, 0, .now⟩]⟩  -- Table 12-17
  | .rrCfg => ⟨0x201010, [(0x4000, 2), (0x40, 16)], [⟨31, 31, .rw, .any, 0, .now⟩, ⟨30, 30, .wo, .any, 0, .now⟩, ⟨29, 29, .rw, .any, 0, .now⟩, ⟨24, 20, .rw, .any, 7, .now⟩, ⟨5, 0, .rw, .any, 0, .now⟩]⟩  -- Table 12-18
  | .rrPi => ⟨0x201014, [(0x4000, 2), (0x40, 16)], [⟨31, 0, .ro, .any, 0, .now⟩]⟩  -- Table 12-19
  | .rrCi => ⟨0x201018, [(0x4000, 2), (0x40, 16)], [⟨31, 0, .rw, .any, 0, .now⟩]⟩  -- Table 12-19
  | .rrStatus => ⟨0x20101C, [(0x4000, 2), (0x40, 16)], []⟩  -- Table 12-19
  | .erBaseLo => ⟨0x202000, [(0x4000, 2), (0x40, 4)], [⟨31, 12, .rw, .priv, 0, .now⟩]⟩  -- Table 12-17
  | .erBaseHi => ⟨0x202004, [(0x4000, 2), (0x40, 4)], [⟨31, 0, .rw, .priv, 0, .now⟩]⟩  -- Table 12-17
  | .erWbLo => ⟨0x202008, [(0x4000, 2), (0x40, 4)], [⟨31, 2, .rw, .priv, 0, .now⟩]⟩  -- Table 12-17
  | .erWbHi => ⟨0x20200C, [(0x4000, 2), (0x40, 4)], [⟨31, 0, .rw, .priv, 0, .now⟩]⟩  -- Table 12-17
  | .erCfg => ⟨0x202010, [(0x4000, 2), (0x40, 4)], [⟨31, 31, .rw, .priv, 0, .now⟩, ⟨30, 30, .wo, .priv, 0, .now⟩, ⟨29, 29, .rw, .priv, 0, .now⟩, ⟨24, 20, .rw, .priv, 7, .now⟩, ⟨5, 0, .rw, .priv, 0, .now⟩]⟩  -- Table 12-18
  | .erPi => ⟨0x202014, [(0x4000, 2), (0x40, 4)], [⟨31, 0, .ro, .priv, 0, .now⟩]⟩  -- Table 12-19
  | .erCi => ⟨0x202018, [(0x4000, 2), (0x40, 4)], [⟨31, 0, .rw, .priv, 0, .now⟩]⟩  -- Table 12-19
  | .erStatus => ⟨0x20201C, [(0x4000, 2), (0x40, 4)], [⟨31, 0, .ro, .priv, 0, .now⟩]⟩  -- Table 12-19
  | .evtRoute => ⟨0x20C000, [(4, 16)], [⟨31, 31, .rw, .priv, 0, .now⟩, ⟨30, 30, .rw, .priv, 0, .now⟩, ⟨29, 28, .rw, .priv, 0, .now⟩]⟩  -- Table 12-20
  | .chainStatus => ⟨0x20D000, [], [⟨31, 31, .ro, .any, 0, .now⟩, ⟨30, 30, .ro, .any, 0, .now⟩, ⟨29, 24, .ro, .any, 0, .now⟩, ⟨22, 16, .ro, .any, 0, .now⟩, ⟨1, 1, .ro, .any, 0, .now⟩, ⟨0, 0, .ro, .any, 0, .now⟩]⟩  -- Table 12-21
  | .chainCfg => ⟨0x20D004, [], [⟨31, 31, .rw, .priv, 1, .now⟩, ⟨15, 0, .rw, .priv, 0x32, .now⟩]⟩  -- Table 12-22
  | .chainEvent => ⟨0x20D008, [], [⟨31, 16, .seq, .any, 0, .now⟩, ⟨3, 3, .seq, .any, 0, .now⟩, ⟨2, 2, .seq, .any, 0, .now⟩, ⟨1, 1, .seq, .any, 0, .now⟩, ⟨0, 0, .seq, .any, 0, .now⟩]⟩  -- Table 12-23
  | .schTick => ⟨0x210000, [], [⟨16, 0, .rw, .priv, 0xA, .tick⟩]⟩  -- Table 13-9
  | .schCfg => ⟨0x210004, [], [⟨29, 16, .rw, .priv, 0x400, .now⟩, ⟨15, 0, .rw, .priv, 0x3E8, .tick⟩]⟩  -- Table 13-10
  | .schCfg2 => ⟨0x210008, [], [⟨31, 16, .rw, .priv, 0x64, .now⟩, ⟨15, 0, .rw, .priv, 0x64, .now⟩]⟩  -- Table 13-11
  | .schStatus => ⟨0x210010, [], [⟨31, 31, .ro, .any, 0, .now⟩, ⟨30, 16, .ro, .any, 0, .now⟩, ⟨12, 0, .ro, .any, 0, .now⟩]⟩  -- Table 13-12
  | .schStatus2 => ⟨0x210014, [], [⟨31, 17, .ro, .any, 0, .now⟩, ⟨16, 0, .ro, .any, 0, .now⟩]⟩  -- Table 13-13
  | .schEvent => ⟨0x210030, [], [⟨31, 16, .seq, .any, 0, .now⟩, ⟨3, 3, .seq, .any, 0, .now⟩, ⟨2, 2, .seq, .any, 0, .now⟩, ⟨1, 1, .seq, .any, 0, .now⟩, ⟨0, 0, .seq, .any, 0, .now⟩]⟩  -- Table 13-15
  | .schDepth => ⟨0x210020, [(4, 4)], [⟨12, 0, .ro, .any, 0, .now⟩]⟩  -- Table 13-14
  | .schWaitMax => ⟨0x210040, [(8, 4)], [⟨31, 0, .ro, .any, 0, .now⟩]⟩  -- Table 13-16
  | .schWaitMean => ⟨0x210044, [(8, 4)], [⟨31, 0, .ro, .any, 0, .now⟩]⟩  -- Table 13-16
  | .engStatus => ⟨0x211000, [(0x10, 12)], [⟨31, 31, .ro, .any, 0, .now⟩, ⟨30, 30, .ro, .any, 0, .now⟩, ⟨29, 28, .ro, .any, 0, .now⟩, ⟨16, 0, .ro, .any, 0, .now⟩]⟩  -- Table 13-17
  | .engTag => ⟨0x211004, [(0x10, 12)], [⟨31, 0, .ro, .any, 0, .now⟩]⟩  -- Table 13-18
  | .engCode => ⟨0x211008, [(0x10, 12)], [⟨15, 0, .ro, .any, 0, .now⟩]⟩  -- Table 13-18
  | .engLoad => ⟨0x21100C, [(0x10, 12)], [⟨31, 16, .ro, .any, 0, .now⟩, ⟨15, 0, .ro, .any, 0, .now⟩]⟩  -- Table 13-18
  | .mcStatus => ⟨0x212000, [], [⟨31, 31, .ro, .any, 0, .now⟩, ⟨30, 24, .ro, .any, 0, .now⟩, ⟨12, 0, .ro, .any, 0, .now⟩]⟩  -- Table 13-19
  | .mcLevel => ⟨0x212004, [], [⟨31, 0, .ro, .any, 0, .now⟩]⟩  -- Table 13-19
  | .mcIndAddr => ⟨0x212008, [], [⟨31, 31, .rw, .any, 0, .now⟩, ⟨16, 0, .rw, .any, 0, .now⟩]⟩  -- Table 13-20
  | .mcIndData => ⟨0x21200C, [], [⟨31, 0, .ro, .any, 0, .now⟩]⟩  -- Table 13-20
  | .mcMatch => ⟨0x212100, [(4, 64)], [⟨31, 31, .ro, .any, 0, .now⟩, ⟨27, 16, .ro, .any, 0, .now⟩, ⟨15, 0, .ro, .any, 0, .now⟩]⟩  -- Table 13-21
  | .dmaCtl => ⟨0x108000, [(0x100, 32)], [⟨31, 31, .rw, .any, 0, .now⟩, ⟨30, 30, .wo, .any, 0, .now⟩, ⟨29, 29, .wo, .any, 0, .now⟩, ⟨28, 28, .wo, .any, 0, .now⟩, ⟨27, 26, .rw, .any, 0, .now⟩, ⟨25, 25, .rw, .any, 0, .now⟩, ⟨24, 24, .rw, .any, 0, .now⟩, ⟨5, 0, .rw, .any, 0, .now⟩]⟩  -- Table 14-10
  | .dmaHeadLo => ⟨0x108004, [(0x100, 32)], [⟨31, 5, .rw, .any, 0, .now⟩]⟩  -- Table 14-11
  | .dmaHeadHi => ⟨0x108008, [(0x100, 32)], [⟨31, 0, .rw, .any, 0, .now⟩]⟩  -- Table 14-11
  | .dmaLimit => ⟨0x10800C, [(0x100, 32)], [⟨23, 0, .rw, .any, 0x10000, .now⟩]⟩  -- Table 14-11
  | .dmaStatus => ⟨0x108010, [(0x100, 32)], [⟨31, 29, .ro, .any, 0, .now⟩, ⟨15, 0, .ro, .any, 0, .now⟩]⟩  -- Table 14-12
  | .dmaCurLo => ⟨0x108014, [(0x100, 32)], [⟨31, 0, .ro, .any, 0, .now⟩]⟩  -- Table 14-12
  | .dmaCurHi => ⟨0x108018, [(0x100, 32)], [⟨31, 0, .ro, .any, 0, .now⟩]⟩  -- Table 14-12
  | .dmaCount => ⟨0x10801C, [(0x100, 32)], [⟨31, 0, .ro, .any, 0, .now⟩]⟩  -- Table 14-12
  | .cqBaseLo => ⟨0x108020, [(0x100, 32)], [⟨31, 12, .rw, .any, 0, .now⟩]⟩  -- Table 14-13
  | .cqBaseHi => ⟨0x108024, [(0x100, 32)], [⟨31, 0, .rw, .any, 0, .now⟩]⟩  -- Table 14-13
  | .cqWbLo => ⟨0x108028, [(0x100, 32)], [⟨31, 2, .rw, .any, 0, .now⟩]⟩  -- Table 14-13
  | .cqWbHi => ⟨0x10802C, [(0x100, 32)], [⟨31, 0, .rw, .any, 0, .now⟩]⟩  -- Table 14-13
  | .cqCfg => ⟨0x108030, [(0x100, 32)], [⟨4, 0, .rw, .any, 6, .now⟩]⟩  -- Table 14-14
  | .cqPi => ⟨0x108034, [(0x100, 32)], [⟨31, 0, .ro, .any, 0, .now⟩]⟩  -- Table 14-14
  | .cqCi => ⟨0x108038, [(0x100, 32)], [⟨31, 0, .rw, .any, 0, .now⟩]⟩  -- Table 14-14
  | .dmaBytesLo => ⟨0x108040, [(0x100, 32)], [⟨31, 0, .ro, .any, 0, .now⟩]⟩  -- Table 14-14
  | .dmaBytesHi => ⟨0x108044, [(0x100, 32)], [⟨31, 0, .ro, .any, 0, .now⟩]⟩  -- Table 14-14
  | .dmaOwn => ⟨0x10C000, [(4, 2)], [⟨15, 0, .rw, .priv, 0, .now⟩]⟩  -- Table 14-15
  | .dmaGrace => ⟨0x10C010, [], [⟨15, 0, .rw, .priv, 0x7D0, .now⟩]⟩  -- Table 14-16
  | .dmaEvent => ⟨0x10C014, [], [⟨31, 16, .seq, .priv, 0, .now⟩, ⟨1, 1, .seq, .priv, 0, .now⟩, ⟨0, 0, .seq, .priv, 0, .now⟩]⟩  -- Table 14-17
  | .dmaLast => ⟨0x10C018, [], [⟨20, 16, .ro, .priv, 0, .now⟩, ⟨15, 0, .ro, .priv, 0, .now⟩]⟩  -- Table 14-17
  | .puntMap => ⟨0x10C100, [(4, 72)], [⟨31, 31, .rw, .priv, 0, .now⟩, ⟨28, 24, .rw, .priv, 0, .now⟩]⟩  -- Table 14-18
  | .idPart => ⟨0, [], [⟨31, 16, .ro, .any, 0x9256, .now⟩, ⟨15, 8, .ro, .any, 0xB0, .now⟩]⟩  -- Table 15-9
  | .idVendor => ⟨4, [], [⟨31, 0, .ro, .any, 0x4D464C44, .now⟩]⟩  -- Table 15-10
  | .idDevice => ⟨0x10, [(4, 4)], [⟨31, 0, .ro, .any, 0, .now⟩]⟩  -- Table 15-11
  | .glbStatus => ⟨0x20, [], [⟨31, 31, .ro, .any, 0, .now⟩, ⟨30, 30, .ro, .any, 0, .now⟩, ⟨29, 28, .ro, .any, 0, .now⟩, ⟨27, 27, .ro, .any, 0, .now⟩, ⟨26, 26, .ro, .any, 0, .now⟩]⟩  -- Table 15-12
  | .glbWhoami => ⟨0x24, [], [⟨2, 0, .ro, .any, 0, .now⟩]⟩  -- Table 15-13
  | .glbFwLevel => ⟨0x28, [], [⟨31, 0, .ro, .any, 0, .now⟩]⟩  -- Table 15-13
  | .scratch => ⟨0x40, [(4, 4)], [⟨31, 0, .rw, .any, 0, .now⟩]⟩  -- Table 15-14
  | .accEvent => ⟨0x80, [], [⟨31, 16, .seq, .priv, 0, .now⟩, ⟨8, 0, .seq, .priv, 0, .now⟩]⟩  -- Table 15-15
  | .accLast0 => ⟨0x84, [], [⟨25, 0, .ro, .priv, 0, .now⟩]⟩  -- Table 15-16
  | .accLast1 => ⟨0x88, [], [⟨31, 28, .ro, .priv, 0, .now⟩, ⟨27, 25, .ro, .priv, 0, .now⟩, ⟨24, 24, .ro, .priv, 0, .now⟩, ⟨23, 22, .ro, .priv, 0, .now⟩, ⟨21, 21, .ro, .priv, 0, .now⟩]⟩  -- Table 15-16
  | .accCount => ⟨0x8C, [], [⟨31, 0, .ro, .priv, 0, .now⟩]⟩  -- Table 15-16
  | .accCfg => ⟨0x90, [], [⟨0, 0, .rwl, .priv, 0, .now⟩]⟩  -- Table 15-17
  | .glbLock => ⟨0xA0, [], [⟨0, 0, .w1o, .priv, 0, .now⟩]⟩  -- Table 15-18
  | .boardId => ⟨0xB0, [(4, 2)], [⟨31, 0, .w1o, .priv, 0, .now⟩]⟩  -- Table 15-19
  | .ifrAddr => ⟨0xC0, [], [⟨25, 2, .rw, .any, 0, .now⟩]⟩  -- Table 15-20
  | .ifrData => ⟨0xC4, [], [⟨31, 0, .ro, .any, 0, .now⟩]⟩  -- Table 15-20
  | .ifrInfo => ⟨0xC8, [], [⟨31, 31, .ro, .any, 0, .now⟩, ⟨30, 30, .ro, .any, 0, .now⟩, ⟨29, 26, .ro, .any, 0, .now⟩]⟩  -- Table 15-20
  | .glbResetReq => ⟨0x100, [], [⟨31, 0, .wo, .priv, 0, .now⟩]⟩  -- Table 15-21
  | .pwrCtl => ⟨0x200, [], [⟨31, 16, .wo, .priv, 0, .now⟩, ⟨1, 0, .wo, .priv, 0, .now⟩]⟩  -- Table 19-6
  | .pwrStatus => ⟨0x204, [], [⟨31, 29, .ro, .any, 0, .now⟩, ⟨15, 8, .ro, .any, 0, .now⟩, ⟨3, 0, .ro, .any, 0, .now⟩]⟩  -- Table 19-7
  | .pwrMacro => ⟨0x210, [], [⟨31, 0, .rw, .priv, 0xFFFFFFFF, .now⟩]⟩  -- Table 19-8
  | .pwrMacroSt => ⟨0x214, [], [⟨31, 0, .ro, .any, 0, .now⟩]⟩  -- Table 19-9
  | .pwrChiplet => ⟨0x218, [], [⟨7, 0, .rw, .priv, 0xFF, .now⟩]⟩  -- Table 19-10
  | .pwrStack => ⟨0x220, [], [⟨31, 16, .wo, .priv, 0, .now⟩, ⟨3, 0, .rw, .priv, 0xF, .now⟩]⟩  -- Table 19-11
  | .pwrEvent => ⟨0x230, [], [⟨31, 16, .seq, .any, 0, .now⟩, ⟨3, 3, .seq, .any, 0, .now⟩, ⟨2, 2, .seq, .any, 0, .now⟩, ⟨1, 1, .seq, .any, 0, .now⟩, ⟨0, 0, .seq, .any, 0, .now⟩]⟩  -- Table 19-12
  | .rimStatus => ⟨0x3E00000, [], [⟨31, 28, .ro, .any, 0, .now⟩, ⟨27, 26, .ro, .any, 0, .now⟩, ⟨25, 24, .ro, .any, 0, .now⟩, ⟨23, 23, .ro, .any, 0, .now⟩, ⟨22, 22, .ro, .any, 0, .now⟩, ⟨21, 21, .ro, .any, 0, .now⟩, ⟨20, 18, .ro, .any, 0, .now⟩, ⟨17, 17, .ro, .any, 0, .now⟩, ⟨13, 0, .ro, .any, 0, .now⟩]⟩  -- Table 16-14
  | .rimOtp => ⟨0x3E00004, [], [⟨31, 18, .ro, .any, 0, .now⟩, ⟨10, 0, .ro, .any, 0, .now⟩]⟩  -- Table 16-15
  | .rimEvent => ⟨0x3E00008, [], [⟨31, 16, .seq, .any, 0, .now⟩, ⟨4, 4, .seq, .any, 0, .now⟩, ⟨3, 3, .seq, .any, 0, .now⟩, ⟨2, 2, .seq, .any, 0, .now⟩, ⟨1, 1, .seq, .any, 0, .now⟩, ⟨0, 0, .seq, .any, 0, .now⟩]⟩  -- Table 16-16
  | .logNextLo => ⟨0x3E00010, [], [⟨31, 0, .ro, .any, 0, .now⟩]⟩  -- Table 16-17
  | .logNextHi => ⟨0x3E00014, [], [⟨31, 0, .ro, .any, 0, .now⟩]⟩  -- Table 16-17
  | .logOldestLo => ⟨0x3E00018, [], [⟨31, 0, .ro, .any, 0, .now⟩]⟩  -- Table 16-17
  | .logOldestHi => ⟨0x3E0001C, [], [⟨31, 0, .ro, .any, 0, .now⟩]⟩  -- Table 16-17
  | .therm => ⟨0x3E00100, [(4, 32)], [⟨31, 31, .ro, .any, 0, .now⟩, ⟨15, 0, .ro, .any, 0, .now⟩]⟩  -- Table 16-17
  | .mbxCtl => ⟨0x3E10000, [(0x4000, 4)], [⟨31, 31, .wo, .any, 0, .now⟩, ⟨30, 30, .rw, .any, 0, .now⟩, ⟨5, 0, .rw, .any, 0, .now⟩]⟩  -- Table 16-18
  | .mbxStatus => ⟨0x3E10004, [(0x4000, 4)], [⟨31, 31, .ro, .any, 0, .now⟩, ⟨30, 30, .ro, .any, 0, .now⟩, ⟨15, 0, .ro, .any, 0, .now⟩]⟩  -- Table 16-18
  | .mbxReq => ⟨0x3E11000, [(0x4000, 4), (4, 1024)], [⟨31, 0, .rw, .any, 0, .now⟩]⟩  -- 16, mailboxes
  | .mbxResp => ⟨0x3E12000, [(0x4000, 4), (4, 1024)], [⟨31, 0, .ro, .any, 0, .now⟩]⟩  -- 16, mailboxes
  | .cntAddr => ⟨0x3F00000, [], [⟨31, 31, .rw, .any, 0, .now⟩, ⟨27, 24, .rw, .any, 0, .now⟩, ⟨9, 0, .rw, .any, 0, .now⟩]⟩  -- Table 17-6
  | .cntDataLo => ⟨0x3F00004, [], [⟨31, 0, .ro, .any, 0, .now⟩]⟩  -- Table 17-7
  | .cntDataHi => ⟨0x3F00008, [], [⟨31, 31, .ro, .any, 0, .now⟩, ⟨30, 30, .ro, .any, 0, .now⟩, ⟨15, 0, .ro, .any, 0, .now⟩]⟩  -- Table 17-7
  | .cntGen => ⟨0x3F00010, [(4, 9)], [⟨15, 0, .ro, .any, 0, .now⟩]⟩  -- Table 17-8
  | .cntChainDev => ⟨0x3F00100, [(4, 8)], [⟨31, 0, .rw, .priv, 0, .now⟩]⟩  -- Table 17-9
  | .cntChainSl => ⟨0x3F00200, [(0x40, 8), (4, 11)], [⟨31, 0, .rw, .priv, 0, .now⟩]⟩  -- Table 17-9
  | .tagCfg => ⟨0x3F01000, [(0x10, 8)], [⟨31, 31, .rw, .priv, 0, .now⟩, ⟨4, 0, .rw, .priv, 0x10, .now⟩]⟩  -- Table 17-10
  | .tagSeed => ⟨0x3F01004, [(0x10, 8)], [⟨31, 0, .rw, .priv, 1, .now⟩]⟩  -- Table 17-10
  | .trcCfg => ⟨0x3F02000, [], [⟨31, 30, .rw, .priv, 0, .now⟩, ⟨29, 29, .rw, .priv, 1, .now⟩, ⟨28, 28, .rw, .priv, 0, .now⟩, ⟨27, 27, .rw, .priv, 0, .now⟩, ⟨26, 26, .wo, .priv, 0, .now⟩]⟩  -- Table 17-11
  | .trcEng => ⟨0x3F02004, [], [⟨21, 16, .rw, .priv, 0x3F, .now⟩, ⟨11, 0, .rw, .priv, 0xFFF, .now⟩]⟩  -- Table 17-12
  | .trcDmacLo => ⟨0x3F02008, [], [⟨31, 0, .rw, .priv, 0, .now⟩]⟩  -- Table 17-13
  | .trcDmacHi => ⟨0x3F0200C, [], [⟨15, 0, .rw, .priv, 0, .now⟩]⟩  -- Table 17-13
  | .trcSmacLo => ⟨0x3F02010, [], [⟨31, 0, .rw, .priv, 0, .now⟩]⟩  -- Table 17-13
  | .trcSmacHi => ⟨0x3F02014, [], [⟨15, 0, .rw, .priv, 0, .now⟩]⟩  -- Table 17-13
  | .trcWpLo => ⟨0x3F02018, [], [⟨29, 12, .ro, .any, 0, .now⟩]⟩  -- Table 17-14
  | .trcWpHi => ⟨0x3F0201C, [], [⟨31, 0, .ro, .any, 0, .now⟩]⟩  -- Table 17-14
  | .trcStatus => ⟨0x3F02020, [], [⟨31, 31, .ro, .any, 0, .now⟩, ⟨30, 30, .ro, .any, 0, .now⟩, ⟨29, 29, .ro, .any, 0, .now⟩]⟩  -- Table 17-14
  | .hbmStatus => ⟨0x2800000, [], [⟨31, 31, .ro, .any, 0, .now⟩, ⟨30, 30, .ro, .any, 0, .now⟩, ⟨29, 26, .ro, .any, 0, .now⟩, ⟨23, 16, .ro, .any, 0, .now⟩, ⟨15, 8, .ro, .any, 0, .now⟩, ⟨7, 0, .ro, .any, 0, .now⟩]⟩  -- Table 18-9
  | .hbmCfg => ⟨0x2800004, [], [⟨31, 24, .rw, .priv, 0x10, .now⟩, ⟨23, 16, .rw, .priv, 0x18, .now⟩, ⟨15, 0, .rw, .priv, 0x64, .now⟩]⟩  -- Table 18-10
  | .hbmEvent => ⟨0x2800008, [], [⟨31, 16, .seq, .any, 0, .now⟩, ⟨3, 3, .seq, .any, 0, .now⟩, ⟨2, 2, .seq, .any, 0, .now⟩, ⟨1, 1, .seq, .any, 0, .now⟩, ⟨0, 0, .seq, .any, 0, .now⟩]⟩  -- Table 18-11
  | .hbmLast => ⟨0x280000C, [], [⟨30, 24, .ro, .any, 0, .now⟩, ⟨23, 20, .ro, .any, 0, .now⟩]⟩  -- Table 18-12
  | .hbmRetire => ⟨0x2800010, [], [⟨31, 16, .wo, .priv, 0, .now⟩, ⟨6, 0, .wo, .priv, 0, .now⟩]⟩  -- Table 18-13
  | .hbmIndAddr => ⟨0x2800040, [], [⟨29, 23, .rw, .priv, 0, .now⟩, ⟨22, 0, .rw, .priv, 0, .now⟩]⟩  -- Table 18-14
  | .hbmIndCtl => ⟨0x2800044, [], [⟨31, 31, .wo, .priv, 0, .now⟩, ⟨30, 30, .rw, .priv, 0, .now⟩, ⟨23, 20, .ro, .priv, 0, .now⟩, ⟨19, 19, .ro, .priv, 0, .now⟩]⟩  -- Table 18-15
  | .hbmIndData => ⟨0x2800080, [(4, 16)], [⟨31, 0, .ro, .priv, 0, .now⟩]⟩  -- Table 18-16
  | .stkStatus => ⟨0x2810000, [(0x100, 4)], [⟨31, 31, .ro, .any, 0, .now⟩, ⟨30, 30, .ro, .any, 0, .now⟩, ⟨29, 29, .ro, .any, 0, .now⟩, ⟨23, 16, .ro, .any, 0, .now⟩, ⟨15, 0, .ro, .any, 0, .now⟩]⟩  -- Table 18-17
  | .pcStatus => ⟨0x2840000, [(0x10, 128)], [⟨31, 30, .ro, .any, 0, .now⟩, ⟨29, 26, .ro, .any, 0, .now⟩, ⟨15, 0, .ro, .any, 0, .now⟩]⟩  -- Table 18-18
  | .pcRwin => ⟨0x2840004, [(0x10, 128)], [⟨31, 0, .ro, .any, 0, .now⟩]⟩  -- Table 18-19
  | .pcWwin => ⟨0x2840008, [(0x10, 128)], [⟨31, 0, .ro, .any, 0, .now⟩]⟩  -- Table 18-19
  | .pcUse => ⟨0x284000C, [(0x10, 128)], [⟨26, 16, .ro, .any, 0, .now⟩, ⟨14, 0, .ro, .any, 0, .now⟩]⟩  -- Table 18-20

/-- Part 0 of the list of every register. -/
def regNames0 : List RegName := [
  .lrnCfg, .lrnRate, .lrnBurst, .lrnLive, .sknStatus, .sknAgeCfg, .sknMigCfg, .sknEvent,
  .gmapIndex, .gmapData, .clsIdle, .clsClose, .clsPin, .clsPinUsed, .prsCfg, .verStatus,
  .malActLo, .malActHi, .verCarry, .malLast0, .malLast1, .prsIndAddr, .prsIndCtl, .prsIndData,
  .prsPortEntry, .prsPortAcc, .matCfg, .deepAct, .deepStatus, .tcamBlk, .tcamKey, .tcamPort,
  .tcamHole, .tcamStatus, .tcamEvent, .tcamLast, .tcamIndAddr, .tcamIndCtl, .tcamIndData, .l2Cfg]

/-- Part 1 of the list of every register. -/
def regNames1 : List RegName := [
  .l2Status, .l2Event, .l2Port, .l2PortCnt, .vlanWithy, .dtWithy, .dtPfx4, .dtPfx6,
  .dtEvent, .actCfg, .actEvent, .actStatus, .natStatus, .lbToeplitz, .expColCtl, .expColUdp,
  .expColDomain, .expColMtu, .expColSeq, .expColAddr, .crlStatus, .crlRes, .crlEvent, .crlLast,
  .crlPtr, .crlLost, .ownCfg0, .ownCfg1, .ownUse, .ownDrop, .egrCt, .waleEvent,
  .eqCredit, .waleHeld, .waleSel, .shqCfg, .shqRate, .shqBurst, .shqTokens, .egrPortCfg]

/-- Part 2 of the list of every register. -/
def regNames2 : List RegName := [
  .shpRate, .shpBurst, .shpTokens, .egrEvent, .egrLast, .gclAdmin, .gclCycle, .gclBaseNs,
  .gclBaseSlo, .gclBaseShi, .gclOper, .gclOperCycle, .gclIndCtl, .gclIndData0, .gclIndData1, .polIndAddr,
  .polIndCtl, .polEvent, .polLast, .polIndData, .lidStatus, .lidSeqLo, .lidSeqHi, .lidCfg,
  .lidInforce, .lidEvent, .lidSyncLast, .sealIndAddr, .sealIndData, .totIndAddr, .totIndCtl, .totIndData,
  .timeStatus, .timeCtl, .timeTickLo, .timeTickHi, .timeResidual, .timeEvent, .snapCtl, .snapTickLo]

/-- Part 3 of the list of every register. -/
def regNames3 : List RegName := [
  .snapTickHi, .snapTime, .tdCtl, .tdSecLo, .tdSecHi, .tdNs, .tdFrac, .tdTickLo,
  .tdTickHi, .tdAdjNs, .tdAdjFrac, .tdRateFrac, .tdRateInt, .toutCtl, .toutStartNs, .toutStartSlo,
  .toutStartShi, .toutPeriod, .toutWidth, .tinCtl, .tinStatus, .tinPop, .tinCapTickLo, .tinCapTickHi,
  .tinCapSecLo, .tinCapSecHi, .tinCapNs, .tinCapInfo, .tsCfg, .tsRxAdj, .tsTxAdj, .laneCfg,
  .laneLoss, .laneStatus, .laneTest, .prbsErr, .prbsBitsLo, .prbsBitsHi, .injCount, .laneIndAddr]

/-- Part 4 of the list of every register. -/
def regNames4 : List RegName := [
  .laneIndCtl, .laneIndData, .portCtl, .portTrain, .portStatus, .portFec, .portLpi, .macroMode,
  .lineEvent, .lineLast, .hpStatus, .hpRingOwn, .hpEvent, .hpLast, .sem, .crBaseLo,
  .crBaseHi, .crWbLo, .crWbHi, .crCfg, .crPi, .crCi, .crStatus, .rrBaseLo,
  .rrBaseHi, .rrWbLo, .rrWbHi, .rrCfg, .rrPi, .rrCi, .rrStatus, .erBaseLo,
  .erBaseHi, .erWbLo, .erWbHi, .erCfg, .erPi, .erCi, .erStatus, .evtRoute]

/-- Part 5 of the list of every register. -/
def regNames5 : List RegName := [
  .chainStatus, .chainCfg, .chainEvent, .schTick, .schCfg, .schCfg2, .schStatus, .schStatus2,
  .schEvent, .schDepth, .schWaitMax, .schWaitMean, .engStatus, .engTag, .engCode, .engLoad,
  .mcStatus, .mcLevel, .mcIndAddr, .mcIndData, .mcMatch, .dmaCtl, .dmaHeadLo, .dmaHeadHi,
  .dmaLimit, .dmaStatus, .dmaCurLo, .dmaCurHi, .dmaCount, .cqBaseLo, .cqBaseHi, .cqWbLo,
  .cqWbHi, .cqCfg, .cqPi, .cqCi, .dmaBytesLo, .dmaBytesHi, .dmaOwn, .dmaGrace]

/-- Part 6 of the list of every register. -/
def regNames6 : List RegName := [
  .dmaEvent, .dmaLast, .puntMap, .idPart, .idVendor, .idDevice, .glbStatus, .glbWhoami,
  .glbFwLevel, .scratch, .accEvent, .accLast0, .accLast1, .accCount, .accCfg, .glbLock,
  .boardId, .ifrAddr, .ifrData, .ifrInfo, .glbResetReq, .pwrCtl, .pwrStatus, .pwrMacro,
  .pwrMacroSt, .pwrChiplet, .pwrStack, .pwrEvent, .rimStatus, .rimOtp, .rimEvent, .logNextLo,
  .logNextHi, .logOldestLo, .logOldestHi, .therm, .mbxCtl, .mbxStatus, .mbxReq, .mbxResp]

/-- Part 7 of the list of every register. -/
def regNames7 : List RegName := [
  .cntAddr, .cntDataLo, .cntDataHi, .cntGen, .cntChainDev, .cntChainSl, .tagCfg, .tagSeed,
  .trcCfg, .trcEng, .trcDmacLo, .trcDmacHi, .trcSmacLo, .trcSmacHi, .trcWpLo, .trcWpHi,
  .trcStatus, .hbmStatus, .hbmCfg, .hbmEvent, .hbmLast, .hbmRetire, .hbmIndAddr, .hbmIndCtl,
  .hbmIndData, .stkStatus, .pcStatus, .pcRwin, .pcWwin, .pcUse]

/-- Every register of the window. -/
def regNames : List RegName := regNames0 ++ regNames1 ++ regNames2 ++ regNames3 ++ regNames4 ++ regNames5 ++ regNames6 ++ regNames7

end Sys2Proof.Machine
end

