-- ==== Sys2Proof/Machine/State.lean ====
section
/-! DEFINITION. The state of the AQ-9256 as plain data: every register, table, queue, buffer, counter and mode the spec
gives the device, the model's own fields (the queue of waiting commands, the log of what leaves the device, the counter
of free values), the reasons a step can stop, and the state after reset. -/

namespace Sys2Proof.Machine

/-- Why the machine would stop. No meaning of this model raises it: every command of the table has an effect or leaves
the state as it is. Raised by nobody; safe. -/
inductive Fault where
  /-- A state outside the invariants of the model was reached. Raised by no meaning; safe. -/
  | outsideInvariant
  deriving DecidableEq, Repr

/-- Why a command is turned away. -/
inductive Refusal where
  /-- The command has no meaning in the model yet. Raised by no arm of `exec`: every command has its meaning; safe. -/
  | notModelled (mnemonic : String)
  deriving DecidableEq, Repr

/-! ### Registers, events, counters -/

/-- A register that has been written since reset: the last value written (R17), the value in force (R454), and whether
a write-once register has taken its write (R455). -/
structure RegCell where
  written : Word
  force : Word
  taken : Bool
  deriving DecidableEq, Repr

/-- An event register (R457): its 16-bit SEQ and, for each raised flag, its bit and the SEQ of its latest raise. -/
structure EventReg where
  seq : Nat
  raised : List (Nat × Nat)
  deriving DecidableEq, Repr

/-- The latest refused access, as ACC_LAST0 and ACC_LAST1 show it (15, Table 15-16). -/
structure AccLast where
  offset : Nat
  kind : Nat
  requester : Nat
  viaCmd : Bool
  width : Nat
  write : Bool
  deriving DecidableEq, Repr

/-- What the Rim holds back of one requester's refused accesses of one kind until 1 ms has passed (R452): the tick of
the last entry, and the accesses it does not yet stand for. -/
structure AccPending where
  requester : Nat
  kind : Nat
  lastTick : Nat
  count : Nat
  offset : Nat
  width : Nat
  deriving DecidableEq, Repr

/-- The registers of the window and what serves them (15_register_conventions_and_map.md). -/
structure RegState where
  /-- Registers written since reset, by offset. -/
  cells : Table RegCell
  /-- Values of COMMIT registers for each live version, by offset × 4 + column (R136). -/
  columns : Table Word
  /-- Event registers, by offset. -/
  events : Table EventReg
  accLast : AccLast
  accCount : Nat
  accPending : List AccPending
  /-- Sample of the in-force window: value, and IFR_INFO's fields (R454). -/
  ifrData : Word
  ifrInfo : Word
  deriving DecidableEq, Repr

/-- The counter banks (17/R488): 48-bit counts by part × 1024 + number, chain bits by part × 512 + pair, and each
bank's CNT_GEN. -/
structure CounterState where
  counts : Table Nat
  chained : Table Bool
  gens : Table Nat
  /-- The sample CNT_DATA shows: value, VALID, CHAINED. -/
  sample : Nat
  sampleValid : Bool
  sampleChained : Bool
  deriving DecidableEq, Repr

/-- The Clause 73 page of a port (Table 11-3): the one ability advertised, as mode and MEDIUM, its RS-FEC codeword length,
and the pause and Energy-Efficient Ethernet bits. -/
structure AnPage where
  mode : Nat
  medium : Nat
  fec : Nat
  pause : Nat
  eee : Bool
  deriving DecidableEq, Repr

/-- What leaves the device: the model's own record of it, newest first. -/
inductive Output where
  /-- A frame on a line port, FCS included. -/
  | frame (port : Nat) (bytes : List Byte)
  /-- A frame that ends with an error control code of the PCS (07/R261). -/
  | frameError (port : Nat) (bytes : List Byte)
  /-- The page a port advertises in an attempt. -/
  | anPage (port : Nat) (page : AnPage)
  /-- A lane asks the partner's transmitter for a preset, or for precoding or none. -/
  | presetAsk (lane : Nat) (preset : Nat)
  | precodeAsk (lane : Nat) (on : Bool)
  /-- A lane answers a training request: taken, or not supported. -/
  | trainAnswer (lane : Nat) (request : TrainRequest) (supported : Bool)
  /-- A write to host memory through a host port. -/
  | hostWrite (hp : Nat) (addr : Nat) (bytes : List Byte)
  /-- An MSI-X message of a function (0–3). -/
  | msix (fn : Nat) (vector : Nat)
  /-- A level on a TIME_OUT pin. -/
  | timeOut (pin : Nat) (high : Bool)
  /-- A trace block on the TRACE lane. -/
  | traceFrame (bytes : List Byte)
  /-- A message on a chain port: token, command, acknowledgement, reply, event or credit. -/
  | chain (port : Nat) (kind : Nat) (bytes : List Byte)
  /-- A completion record or other data handed to nobody else: a mailbox signal. -/
  | boardWrite (offset : Nat) (bytes : List Byte)
  /-- What the TAP's data register holds to be shifted out. -/
  | tapData (value : Nat)
  /-- What a read of a register answers its requester. -/
  | readData (requester : Nat) (offset : Nat) (value : Nat)
  deriving DecidableEq, Repr

/-! ### Time (10_network_time.md) -/

/-- A time domain: BASE in units of 2^-32 ns, ANCH, RATE as 32.32 (R325). -/
structure Domain where
  base : Int
  anch : Nat
  rate : Nat
  deriving DecidableEq, Repr

/-- A capture of a TIME_IN pin (R342). -/
structure Capture where
  tick : Nat
  sec : Nat
  ns : Nat
  frac : Nat
  edge : Nat
  deriving DecidableEq, Repr

/-- A TIME_OUT schedule: MODE and POL, start, period and width in ns. -/
structure Pulse where
  mode : Nat
  low : Bool
  start : Nat
  period : Nat
  width : Nat
  deriving DecidableEq, Repr

/-- One TIME_OUT pin: the schedule armed and waiting, the one running with the served ns of its next pulse, the served ns
at which the pulse in progress ends, and the level. -/
structure TimeOutPin where
  pending : Option Pulse
  running : Option Pulse
  next : Nat
  ends : Option Nat
  high : Bool
  deriving DecidableEq, Repr

/-- One TIME_IN pin: queue of at most 16 captures, drops, and the capture registers. -/
structure TimeInPin where
  queue : List Capture
  drops : Nat
  shown : Option Capture
  deriving DecidableEq, Repr

/-- A snapshot of tick and times (R343). -/
structure Snap where
  valid : Bool
  tick : Nat
  times : List Int
  deriving DecidableEq, Repr

/-- The time block. -/
structure TimeState where
  tick : Nat
  holdover : Bool
  domains : List Domain
  /-- Served time in units of 2^-32 ns. -/
  served : Int
  set : Bool
  /-- The high half that a 32-bit read of TIME_TICK_LO latched for the next read of TIME_TICK_HI (R322). -/
  tickHiLatch : Option Nat
  snap : Snap
  outs : List TimeOutPin
  ins : List TimeInPin
  /-- The tick of the latest write of TS_CFG, TS_RX_ADJ or TS_TX_ADJ, and for the ports written in that tick the TS_DOM and
  adjustments (receive, transmit) that timestamps of that tick still take (R336). -/
  stampTick : Nat
  stampOld : List (Nat × Nat × Nat × Nat)
  deriving DecidableEq, Repr

/-! ### The Rim's log (16_rim_management.md) -/

/-- A log entry (Tables 16-11 and 16-12); its CHAIN is a function of the entries before it, and so are the SEQ and CHAIN
in the body of a CHECKPOINT, of which only the signature is kept. -/
structure LogEntry where
  type : Nat
  sec : Bool
  session : Nat
  seq : Nat
  seconds : Nat
  nanoseconds : Nat
  body : List Byte
  deriving DecidableEq, Repr

/-- The log: entries kept, newest first; the CHAIN before the oldest kept; the next SEQ; the SEQ below which every
entry is in flash; how many bytes of the log region were written before the oldest kept. -/
structure LogState where
  entries : List LogEntry
  chain0 : List Byte
  next : Nat
  flushed : Nat
  base : Nat
  deriving DecidableEq, Repr

/-! ### Host ports, rings, commands (12, 13) -/

/-- One host port's link. -/
structure HostPort where
  up : Bool
  gen : Nat
  width : Nat
  haltRing : Nat
  haltCause : Nat
  haltSlot : Nat
  deriving DecidableEq, Repr

/-- One ring (R371): enabled, the base, write-back address and size taken when enabled, the indices, a command ring's
halt, and an event ring's entries written and lost. -/
structure Ring where
  en : Bool
  base : Nat
  wb : Nat
  sizeLog2 : Nat
  pi : Nat
  ci : Nat
  halted : Bool
  cause : Nat
  seq : Nat
  lost : Nat
  drops : Nat
  deriving DecidableEq, Repr

/-- A reply waiting in a host port's reply buffer (R374). -/
structure Reply where
  hp : Nat
  ring : Nat
  tag : Nat
  opcode : Nat
  status : Nat
  partMask : Nat
  dev : Nat
  sent : Bool
  cmdRing : Nat
  cursor : Nat
  data : List Byte
  deriving DecidableEq, Repr

/-- The four kinds of work item (R394). -/
inductive ItemKind where
  | command | part (k : Nat) | join | task
  deriving DecidableEq, Repr

/-- A work item of the task scheduler (R394, R396). -/
structure Item where
  kind : ItemKind
  code : Nat
  prio : Nat
  header : CmdHeader
  params : List Byte
  need : Nat
  have_ : Nat
  /-- Tick of entry into the matching store, and of entry onto its ready list. -/
  entered : Nat
  listed : Nat
  cursor : Nat
  aborted : Bool
  /-- Die on which it last ran, when it has run. -/
  lastDie : Option Nat
  /-- Its place in the order of receipt. -/
  seq : Nat
  deriving DecidableEq, Repr

/-- One Saltur engine. -/
structure Engine where
  item : Option Item
  uaddr : Nat
  mcyc : Nat
  stack : List Nat
  busyTicks : Nat
  execCycles : Nat
  overrun : Bool
  /-- Microaddress of the STEP_END at the last boundary. -/
  boundaryAddr : Nat
  deriving DecidableEq, Repr

/-- A timer of the delay lists (R404). -/
structure Timer where
  due : Nat
  task : Nat
  deriving DecidableEq, Repr

/-- The task scheduler (13). -/
structure SchedState where
  /-- Matching store, in order of entry. -/
  store : List Item
  /-- Ready lists 0–3, heads first. -/
  ready : List (List Item)
  engines : List Engine
  lastEngine : Nat
  fetchPtr : Nat
  /-- Items received so far. -/
  nextSeq : Nat
  /-- Internal postings that wait for an entry of the matching store, in order (R407). -/
  stalled : List Item
  /-- Sources of commands that fetch has passed over for want of room, until each is taken (R400). -/
  passedOver : List Nat
  timers : List Timer
  /-- Timed functions of Table 13-3 whose timer has been released and which have yet to act; the time of the latest scheduler
  tick. -/
  released : List Nat
  ticked : Nat
  /-- TICK_UNITS of the period now running (R405). -/
  tickUnits : Nat
  attention : Bool
  /-- Statistics of the running window by priority: longest wait, total, dispatches; and of the last one. -/
  waitMax : List Nat
  waitSum : List Nat
  waitCount : List Nat
  shownMax : List Nat
  shownMean : List Nat
  shownLoad : List (Nat × Nat)
  /-- Start and length in ms of the running window (R422). -/
  windowStart : Nat
  windowMs : Nat
  /-- Microcode: patch RAM words and match registers, loaded by the Rim (R419). -/
  patch : Table Nat
  matches_ : Table Nat
  patchLevel : Nat
  loaded : Bool
  deriving DecidableEq, Repr

/-- A command relayed to another device and not yet answered (R391, R392). -/
structure Relayed where
  header : CmdHeader
  opcode : Nat
  params : List Byte
  sent : Bool
  acked : Bool
  port : Nat
  deadline : Nat
  deriving DecidableEq, Repr

/-- The device chain (R390–R393). -/
structure ChainState where
  addr : Option Nat
  root : Bool
  ring : Bool
  devices : Nat
  overflow : Bool
  up : List Bool
  /-- Commands sent or waiting in the relay buffer, oldest first. -/
  relayed : List Relayed
  credits : List Nat
  /-- Tags of commands answered ST_TIMEOUT whose reply may still come. -/
  timedOut : List (Nat × Nat)
  /-- The chain receive buffer, oldest first. -/
  rxBuf : List Relayed
  enumerating : Option CmdHeader
  /-- Punted frames and export messages held for the chain, in order, with their metadata (14/R440). -/
  upward : List (List Byte)
  deriving DecidableEq, Repr

/-- Host ports, rings, semaphores, replies. -/
structure HostState where
  ports : List HostPort
  /-- Rings by host port × 64 + class × 16 + ring; class 0 command, 1 reply, 2 event. -/
  rings : Table Ring
  replies : List Reply
  /-- Semaphores by number: owner ID + 1; unlisted is free (R369). -/
  sems : Table Nat
  lastSemOwner : Nat
  deriving DecidableEq, Repr

/-! ### Flow records and the Skein (02, 03) -/

/-- The canonical flow key (Table 02-1). -/
structure Key where
  zone : Nat
  v6 : Bool
  proto : Nat
  addrL : Nat
  addrH : Nat
  portL : Nat
  portH : Nat
  ext : Nat
  deriving DecidableEq, Repr

/-- A counter bank or a hot slot's counters (Table 02-8). -/
structure Counts where
  billPkts : Nat
  billBytes : Nat
  voidPkts : Nat
  voidBytes : Nat
  deriving DecidableEq, Repr

/-- The action word (Table 02-7). -/
structure Action where
  nextHop : Nat
  policer : Nat
  profile : Nat
  cls : Nat
  verdict : Nat
  exportMode : Nat
  deep : Bool
  polEn : Bool
  tcpSt : Nat
  deriving DecidableEq, Repr

/-- The fields a record has in both tiers (Tables 02-4 and 02-5): the key, the rewrite extension of a NAT64 twin
(address and port), KIND, LIFE, PINNED, LAST_SEEN, the action word, REWRITE's address, port and target, and the two
TCP edges, each absent until it is set (06/R218). -/
structure FlowBody where
  key : Key
  extAddr : Nat
  extPort : Nat
  kind : Nat
  life : Nat
  pinned : Bool
  lastSeen : Nat
  action : Action
  rwAddr : Nat
  rwPort : Nat
  rwTarget : Nat
  edgeL : Option Nat
  edgeH : Option Nat
  /-- Of a translated flow: the port-map entry whose use it holds with that entry's block, and whether it is hairpinned
  (R200, R205). The model's own: the spec does not say how a record leads to its mapping. -/
  mapping : Option (Nat × Nat)
  hairpin : Bool
  deriving DecidableEq, Repr

/-- A cold record (Table 02-4). -/
structure ColdRec where
  valid : Bool
  body : FlowBody
  handle : Nat
  twin : Nat
  learnPort : Nat
  bank0 : Counts
  bank1 : Counts
  deriving DecidableEq, Repr

/-- A hot record (Table 02-5), held at its even slot when it takes two, with the score, the recent bit and the time of
placement that its bank keeps outside the slot layout (R83, R84). -/
structure HotRec where
  body : FlowBody
  gen : Nat
  way : Nat
  bank : Nat
  twoSlot : Bool
  counts : Counts
  score : Nat
  recent : Bool
  placed : Nat
  deriving DecidableEq, Repr

/-- A way entry of a tag line (Table 02-8a). -/
structure WayEntry where
  tag : Nat
  gen : Nat
  valid : Bool
  pinned : Bool
  hot : Bool
  hotSlot : Nat
  deriving DecidableEq, Repr

/-- A key with a learn or a promotion pending at its bank (R79, R81, R82). -/
structure PendKey where
  key : Key
  learn : Bool
  /-- The slot reserved for a promotion. -/
  victim : Option Nat
  /-- The head that waits for it. -/
  head : Nat
  /-- The way whose record is being read, when a tag matched. -/
  way : Option Nat
  /-- Tick at which its tag line came from the controller (R76). -/
  lineAt : Nat
  deriving DecidableEq, Repr

/-- A write-back buffer entry (R78). -/
structure WbEntry where
  bucket : Nat
  record : HotRec
  deriving DecidableEq, Repr

/-- One bank's state beside its slots: write-back buffer, pending keys, and the slice served last (R24). -/
structure BankState where
  writeBack : List WbEntry
  pending : List PendKey
  lastSlice : Nat
  deriving DecidableEq, Repr

/-- Where the group map places a group (R74, R89). -/
structure GroupEntry where
  placed : Bool
  pc : Nat
  frame : Nat
  deriving DecidableEq, Repr

/-- A group move in progress (R90). -/
structure Move where
  group : Nat
  dstPc : Nat
  dstFrame : Nat
  cursor : Nat
  /-- Its bank holds new accesses to the bucket at the cursor (step 1). -/
  holding : Bool
  deriving DecidableEq, Repr

/-- A second-burst read waiting for its update: a fold or a correction of a cold bank (R51, R52, R68). -/
structure BurstOp where
  coldIndex : Nat
  bank : Nat
  zone : Nat
  add : Counts
  sub : Counts
  /-- A frame whose outstanding count settles with it: slice and port class. -/
  settle : Option (Nat × Nat)
  deriving DecidableEq, Repr

/-- A notice to the other record of a translated flow: its handle, and whether a FIN or a RST passed (06/R220). -/
structure TwinNotice where
  handle : Nat
  dir : Bool
  fin : Bool
  rst : Bool
  deriving DecidableEq, Repr

/-- The flow store: both tiers, the group map, Fitch and the sweep. -/
structure SkeinState where
  /-- Hot records by (even) slot. -/
  hot : Table HotRec
  /-- Records held in their banks' merge registers, by slot (R25). -/
  merged : Table HotRec
  /-- Tick of the latest access to each of them. -/
  mergedAt : Table Nat
  /-- Activity ticks seen by each hot bucket since its first placement, 0 when none was placed (R84). -/
  season : Table Nat
  /-- Tag-line ways by cold index; an unlisted way is free with generation 0 (R99). -/
  ways : Table WayEntry
  /-- Cold records by cold index. -/
  cold : Table ColdRec
  banks : Table BankState
  /-- Group map; an unlisted group is where start-up placed it over `survivors` (R99). -/
  groups : Table GroupEntry
  survivors : List Nat
  move : Option Move
  /-- Random operations of the running migration window by pseudo-channel and by group (R89). -/
  opsPc : Table Nat
  opsGroup : Table Nat
  /-- Tag lines with a learn's write in flight, by cold bucket (R81). -/
  inFlight : List Nat
  /-- Second-burst reads in flight. -/
  bursts : List BurstOp
  /-- Aging sweep: next bucket, tick at which the pass began, recount state and tallies (R92, R94). -/
  sweepNext : Nat
  sweepStart : Nat
  /-- SWEEP_PERIOD of the running pass, in seconds (Table 03-10); 0 before the first pass. -/
  sweepPeriod : Nat
  recountDue : Bool
  recounting : Bool
  tally : Table Nat
  /-- Live flows by learn port (R61). -/
  live : Table Nat
  /-- Pinned slots in use by class (R85). -/
  pinUsed : Table Nat
  /-- Learn tokens by port, in units of 1/1,250,000,000 of a token, and the tick they were brought up to date (R65); the
  bucket of an unlisted port is full. -/
  tokens : Table Nat
  tokensTick : Table Nat
  /-- The eight learn queues: heads waiting for Fitch, oldest first (R27), and the slice served last. -/
  learnQ : List (List Nat)
  lastLearn : Nat
  placedCount : Nat
  /-- End requests on their way to their banks, by cold index, oldest first (R92, R93). -/
  endReqs : List Nat
  /-- Notices on their way to twins, oldest first. -/
  notices : List TwinNotice
  /-- Time of each bucket's latest sweep visit, in units of 16 ms (06/R221). -/
  visits : Table Nat
  initDone : Bool
  deriving DecidableEq, Repr

/-! ### Rule versions, parsing and search (04, 05) -/

/-- The visibility bits of a versioned entry (R134): VIS[3:0] as a number, and DRAFT. -/
structure Vis where
  vis : Nat
  draft : Bool
  deriving DecidableEq, Repr

/-- A versioned entry with its image. -/
structure Versioned where
  image : Nat
  vis : Nat
  draft : Bool
  deriving DecidableEq, Repr

/-- A pattern entry (Table 04-9): the 32 pattern bytes and the control word. -/
structure PatternEntry where
  bytes : List Byte
  ctl : Nat
  vis : Nat
  draft : Bool
  deriving DecidableEq, Repr

/-- A ternary entry (Table 05-1): KEY, CARE, and the control fields. -/
structure TcamEntry where
  key : Nat
  care : Nat
  prio : Nat
  width : Nat
  valid : Bool
  fault : Bool
  vis : Nat
  draft : Bool
  action : Nat
  deriving DecidableEq, Repr

/-- An override of a direct-indexed table (R164): table number of DT_WRITE, index, image. -/
structure Override where
  table : Nat
  index : Nat
  image : Nat
  vis : Nat
  draft : Bool
  deriving DecidableEq, Repr

/-- A prefix entry (R169). -/
structure PrefixEntry where
  zone : Nat
  v6 : Bool
  len : Nat
  addr : Nat
  nextHop : Nat
  vis : Nat
  draft : Bool
  deriving DecidableEq, Repr

/-- A MAC table entry (Table 05-10). -/
structure MacEntry where
  vlan : Nat
  mac : Nat
  port : Nat
  static_ : Bool
  hit : Bool
  deriving DecidableEq, Repr

/-- A learn waiting for a slice's learn engine (R175). -/
structure MacLearn where
  vlan : Nat
  mac : Nat
  port : Nat
  deriving DecidableEq, Repr

/-- A deep context (R128). -/
structure DeepCtx where
  handle : Nat
  dir : Bool
  offset : Nat
  nextSeq : Nat
  last : List Byte
  groups : Nat
  done : Bool
  used : Nat
  deriving DecidableEq, Repr

/-- One slice's parser, classifier and layer-2 state. -/
structure SliceState where
  steps : Table Versioned
  trans : Table Versioned
  access : Table Versioned
  patterns : Table PatternEntry
  tcam : Table TcamEntry
  scrub : Nat
  /-- Overrides of the VLAN table, and its base images by VLAN ID. -/
  vlanOver : List Override
  vlanBase : Table Nat
  /-- MAC table by bucket × 4 + way. -/
  mac : Table MacEntry
  macCount : Table Nat
  macQueue : List MacLearn
  /-- Learns applied in the running window: its number and (VLAN, MAC, port). -/
  macWindow : Nat
  macSeen : List MacLearn
  /-- Oldest live version, and heads carrying the version of each column (R138); snapshots by column (R188). -/
  oldest : Nat
  heads : Table Nat
  snaps : Table Nat
  malPort : Nat
  malReason : Nat
  malSteps : Nat
  malLastStep : Nat
  malCursor : Nat
  recirc : List Nat
  deep : List DeepCtx
  deepQueue : List Nat
  /-- Streams whose context was reclaimed: handle and direction (DEEP_REOPEN). -/
  reclaimed : List (Nat × Bool)
  tcamLastLookup : Nat
  tcamLastFault : Bool
  tcamLastPlace : Nat
  lfsr : Nat
  /-- Head passes that entered Parse since slots were last accounted (17/R494). -/
  entered : Nat
  /-- The cc at which each busy parse engine is free again (R104). -/
  engines : List Nat
  /-- The cc at which the block move under way ends, and the cc of each of its moves (05/R158). -/
  moveEnd : Nat
  movePer : Nat
  deriving DecidableEq, Repr

/-- A commit between its checks and its switch (R137). -/
structure Commit where
  version : Nat
  header : CmdHeader
  deriving DecidableEq, Repr

/-- Rule versions and per-device tables. -/
structure RuleState where
  /-- Current version, device-wide. -/
  current : Nat
  commit : Option Commit
  /-- Overrides of the per-device tables; base images by table × 2^20 + index, one copy per die (R163). -/
  overrides : List Override
  baseWest : Table Nat
  baseEast : Table Nat
  /-- Indexes lost in both copies, and those of a slice's VLAN table, at slice × 4,096 + VLAN, lost in its one copy (R167). -/
  dead : List (Nat × Nat)
  prefixes : List PrefixEntry
  /-- Quarantined next hops: ID, version whose commit deleted it, the sweep pass has begun (R189). -/
  quarantine : List (Nat × Nat × Bool)
  /-- The draft's running digest, and the digest of each live version by number (09/R311). -/
  draftDigest : List Byte
  versionDigests : List (Nat × List Byte)
  deriving DecidableEq, Repr

/-! ### Flow actions (06) -/

/-- A NAT pool (Table 06-6). -/
structure NatPool where
  valid : Bool
  zone : Nat
  addrFirst : Nat
  addrCountM1 : Nat
  blockLog2 : Nat
  maxBlocksM1 : Nat
  portMin : Nat
  blockHold : Nat
  collector : Nat
  logBlocks : Bool
  subPlen : Nat
  prefix64 : Nat
  deriving DecidableEq, Repr

/-- A subscriber (Table 06-7). -/
structure Subscriber where
  inside : Nat
  zone : Nat
  addrIdx : Nat
  pool : Nat
  blocks : List Nat
  deriving DecidableEq, Repr

/-- A block (Table 06-8). -/
structure NatBlock where
  hold : Bool
  holdSince : Nat
  sub : Nat
  deriving DecidableEq, Repr

/-- A port-map entry (Table 06-8). -/
structure PortMap where
  proto : Nat
  uses : Nat
  insidePort : Nat
  deriving DecidableEq, Repr

/-- A load-balancer target (R210). -/
structure LbTarget where
  state : Nat
  nextHop : Nat
  deriving DecidableEq, Repr

/-- An IPFIX record waiting to be put into a message: template and bytes. -/
structure ExportRec where
  collector : Nat
  template : Nat
  bytes : List Byte
  deriving DecidableEq, Repr

/-- One collector: sequence number, the records of the message being built, oldest first, the tick at which its first
record was queued, and the messages that wait for a receive channel, oldest first, each with its records and, before
its bytes, the timestamp record of its completion (14/R439). -/
structure Collector where
  seq : Nat
  records : List ExportRec
  firstTick : Nat
  waiting : List (Nat × List Byte)
  deriving DecidableEq, Repr

/-- A target that drains or is being reassigned: pool, target index, target entry, records pinned to it that the running
sweep pass has counted, and whether that pass has counted since its start. -/
structure Draining where
  pool : Nat
  k : Nat
  entry : Nat
  count : Nat
  counting : Bool
  deriving DecidableEq, Repr

/-- Translation, balancing and export. -/
structure ActionState where
  natAddr : Table Nat
  natPools : Table NatPool
  subs : Table Subscriber
  blocks : Table NatBlock
  ports : Table PortMap
  /-- Failures of each pool in the running second. -/
  natFails : Table Nat
  natFailSec : Nat
  /-- Lost lines of translation state: a page of the shared space (true) or a 64-byte line of it, by number; and those
  whose flows the running sweep pass ends (R209). -/
  natLost : List (Bool × Nat)
  natEnding : List (Bool × Nat)
  targets : Table LbTarget
  /-- Indirection buckets, West copy and East copy (R388). -/
  indWest : Table Nat
  indEast : Table Nat
  /-- Reassign map bits (R210). -/
  reassign : Table Bool
  /-- Draining and reassigning targets. -/
  draining : List Draining
  collectors : Table Collector
  /-- Cursors of restartable tasks. -/
  blockSweep : Nat
  deriving DecidableEq, Repr

/-! ### Frames in flight (01) -/

/-- Where a frame stands on its path (R22). -/
inductive Stage where
  /-- In the macro's receive buffer. -/
  | received
  /-- Parsed: classification and flow lookup run side by side. -/
  | parsed
  /-- Waiting in the recirculation queue. -/
  | recirculating
  /-- Rewritten, waiting for its policer. -/
  | policing
  /-- Waiting for its first cell. -/
  | admitting
  /-- On a virtual output queue, or in the replication engine. -/
  | queued
  /-- Punted: on a punt queue. -/
  | punted
  /-- Sent or discarded: only a deep scan still holds its cells. -/
  | left
  deriving DecidableEq, Repr

/-- How far a head's flow lookup has come. -/
inductive LookupStage where
  | none | toDo | held | tagRead | recordRead | fullMiss | learnQueued | done
  deriving DecidableEq, Repr

/-- What the tail of a frame has shown. -/
inductive Tail where
  | pending | good | bad
  deriving DecidableEq, Repr

/-- The action result of a pass (R185–R187). -/
structure Result where
  verdict : Nat
  denyOverride : Bool
  cls : Nat
  profile : Nat
  nextHop : Nat
  polEn : Bool
  policer : Nat
  deep : Bool
  recirc : Bool
  deriving DecidableEq, Repr

/-- Where the layer-2 tables send a head; a drop is counted in a slice counter, or in none when it is 0. -/
inductive Forward where
  | none | drop (counter : Nat) | port (p : Nat) | flood (members : Nat)
  deriving DecidableEq, Repr

/-- An IP header a pass parsed: IPv6 or not, where it starts, where its packet ends, and where the header that gives its
ports or its ICMP type starts. -/
structure IpAt where
  v6 : Bool
  off : Nat
  stop : Nat
  l4 : Option Nat
  deriving DecidableEq, Repr

/-- What parsing says of a head (Table 04-4, and what the engine keeps beside it). -/
structure HeadInfo where
  key : Key
  keyed : Bool
  d : Bool
  tunnel : Bool
  frag : Bool
  icmpErr : Bool
  malReason : Nat
  malAction : Nat
  steps : Nat
  lastStep : Nat
  cursor : Nat
  accKind : Nat
  accId : Nat
  layers : List (Nat × Nat)
  layerOvf : Bool
  area : List Byte
  /-- Beside the vector: protocol of the innermost IP header parsed, that header, the outermost one, the one that carries
  an ICMP error, and what a decapsulation keeps: where the inner frame or packet starts and, for IP in GRE, where the
  outer IP header starts. -/
  proto : Nat
  ip : Option IpAt
  outer : Option IpAt
  carrier : Option IpAt
  tun : Option (Nat × Option Nat)
  deriving DecidableEq, Repr

/-- What classification says of a head. -/
structure ClassInfo where
  done : Bool
  merged : Result
  hasVerdict : Bool
  hasCls : Bool
  hasProfile : Bool
  hasNh : Bool
  hasPol : Bool
  zoneImage : Nat
  routed : Option Nat
  bridged : Bool
  l2 : Forward
  /-- The source of a bridged head, whether the ingress slice must learn it, and whether it is marked learnable (R173). -/
  l2Src : Option MacLearn
  l2Need : Bool
  natDst : Option Nat
  matchGroups : Nat
  matchCount : Nat
  matchId : Nat
  learnable : Bool
  /-- Entries of direct-indexed tables that this pass's lookups read uncorrectable and so did not find (05/R167). -/
  lost : List (Nat × Nat)
  deriving DecidableEq, Repr

/-- How a frame was counted (R66, R70). -/
structure CountInfo where
  counted : Bool
  billable : Bool
  bank : Nat
  handle : Nat
  zone : Nat
  bytes : Nat
  /-- Posted to port and class entries. -/
  posted : Bool
  cls : Nat
  settled : Bool
  deriving DecidableEq, Repr

/-- The ticks a tag record needs (Table 17-4): head complete, T0, the ends of the last pass's stages, entry into the miss
buffer, ticks held there, and the engine cc of the last pass. -/
structure FrameTimes where
  ready : Nat
  /-- The tick at which the tail came. -/
  tail : Option Nat
  t0 : Nat
  parseEnd : Nat
  classifyEnd : Nat
  lookupEnd : Nat
  missSince : Option Nat
  missTicks : Nat
  rewriteEnd : Nat
  engine : Nat
  deriving DecidableEq, Repr

/-- What a deep scan takes of a frame: its first pass's payload, its direction, and its TCP sequence number. -/
structure DeepJob where
  payload : List Byte
  dir : Bool
  seq : Option Nat
  deriving DecidableEq, Repr

/-- One frame inside the device. -/
structure Frame where
  port : Nat
  /-- Ingress slice; where the frame came from: 0 a line port, 1 host inject, 2 the device itself (export). -/
  slice : Nat
  origin : Nat
  /-- Bytes as they stand now, FCS excluded; bytes as received, FCS excluded; the FCS received; RX_LEN. -/
  data : List Byte
  rx : List Byte
  fcs : Nat
  rxLen : Nat
  rxTick : Nat
  /-- Received from a lane loop (R362); the PCS marked it errored or its storing stopped (Table 11-2). -/
  looped : Bool
  errored : Bool
  stage : Stage
  tail : Tail
  pass : Nat
  version : Nat
  head : HeadInfo
  cls : ClassInfo
  lookup : LookupStage
  lookupHow : Nat
  /-- The record found: flow fields in force, its handle, and the twin's. -/
  found : Option FlowBody
  handle : Nat
  twin : Nat
  result : Result
  count : CountInfo
  /-- First pass snapshot asks for deep scan; it is queued for it, and its cells are held for it. -/
  deepScan : Bool
  job : Option DeepJob
  deepQueued : Bool
  flowless : Bool
  /-- Egress: ports still to be served, the class, and what Rewrite leaves for the tail (Table 07-2). -/
  egress : List Nat
  tc : Nat
  mc : Bool
  good : Bool
  fcsDiff : Nat
  chgEnd : Nat
  ipOff : Option Nat
  /-- Where the header that steps 3 and 4 of R191 act on stands in the frame as sent. -/
  innerOff : Option Nat
  ecnCap : Bool
  modified : Bool
  policed : Nat
  cellList : List Nat
  refs : Nat
  cut : Bool
  ecn : Bool
  tagged : Bool
  punt : Option Nat
  void : Bool
  admitNo : Nat
  times : FrameTimes
  /-- The routed or bridged decision is final: what the action result forwards to (R191 step 5). -/
  nextHop : Nat
  /-- Receive timestamp record (Table 10-1), and an inject descriptor's timestamp request (Table 14-2). -/
  rxStamp : List Byte
  tsKind : Nat
  tsId : Nat
  tsOff : Nat
  tsCks : Nat
  deriving DecidableEq, Repr
/-! ### The Lid (09) -/

/-- An integrity gap of an epoch: kind, argument and count (Table 09-7). -/
structure Gap where
  kind : Nat
  arg : Nat
  count : Nat
  sec : Nat
  ns : Nat
  deriving DecidableEq, Repr

/-- A port's entry of the port-and-class image: the four totals, and the four of flowless frames. -/
structure PortTotals where
  all : Counts
  flowless : Counts
  deriving DecidableEq, Repr

/-- An epoch's open: sequence, time, tick, how, and the gaps it has met. -/
structure Epoch where
  seq : Nat
  openSec : Nat
  openNs : Nat
  openTick : Nat
  openHow : Nat
  gaps : List Gap
  /-- The accounting settings in force during it (R298), by offset, and the rule versions current at some time of it,
  in order, with their digests (R312). -/
  settings : List (Nat × Nat)
  versions : List (Nat × List Byte)
  /-- Its boundary found the close before it still running (R306). -/
  deferred : Bool
  /-- First of its session (R297). -/
  partial_ : Bool
  deriving DecidableEq, Repr

/-- Phases of a close (Table 09-2). -/
inductive Phase where
  | drain | sweep | hash | sign | publish
  deriving DecidableEq, Repr

/-- An epoch being closed: how it closed, the phase, the sweep's next bucket, and the seal body once hashed. -/
structure Closing where
  epoch : Epoch
  phase : Phase
  closeSec : Nat
  closeNs : Nat
  closeTick : Nat
  closeHow : Nat
  closeOffset : Int
  sweepNext : Nat
  /-- The lifecycle its seal carries. -/
  lifecycle : Nat
  body : List Byte
  deriving DecidableEq, Repr

/-- A correction under way: how its frame was counted, its ingress port and slice, and whether it was flowless. -/
structure Correction where
  count : CountInfo
  port : Nat
  slice : Nat
  flowless : Bool
  /-- The bytes the frame is counted with as void: fewer than were posted when its storing stopped afterwards (00/R19). -/
  bytes : Nat
  deriving DecidableEq, Repr

/-- The Lid. -/
structure LidState where
  /-- The three copies of each image (R293): zone image by copy × 2^20 + zone, ports by copy × 256 + port, classes by
  copy × 64 + class; copy is epoch sequence mod 3. -/
  zones : Table Counts
  ports : Table PortTotals
  classes : Table Counts
  opened : Bool
  epoch : Epoch
  closing : Option Closing
  /-- Frames outstanding by slice × 2 + bank (R70, R291). -/
  outstanding : Table Nat
  /-- Served ns of the next nominal boundary; a boundary waits for a close; an interrupted close waits for one (R308). -/
  nextBoundary : Nat
  deferred : Bool
  interrupt : Bool
  /-- Seals kept, newest first, each with its epoch sequence: the 16 of the ring (R320), and those a reading keeps. -/
  seals : List (Nat × List Byte)
  prevRoot : List Byte
  chainRestart : Bool
  /-- The epoch sealed last, whose images stay readable (R293). -/
  lastSealed : Option Epoch
  /-- The seal window is being read; seals published meanwhile, which it does not show yet (Table 09-18). -/
  reading : Bool
  hidden : Nat
  /-- Bad verdicts whose correction is still to be applied, oldest first (02/R67, R68). -/
  corrections : List Correction
  /-- Lines of the zone cache (R304), newest first: copy × 2^19 + zone / 2. -/
  zoneCache : List Nat
  /-- The nominal boundary in whose window the latest EPOCH_SYNC_IN pulse arrived (R300). -/
  pulseWindow : Option Nat
  deriving DecidableEq, Repr

/-! ### Cell store and crossbar (07) -/

/-- One segment of a unit: the frame, how many of its bytes, whether they end it, and TAIL_BAD. -/
structure Seg where
  frame : Nat
  bytes : Nat
  ends : Bool
  tailBad : Bool
  deriving DecidableEq, Repr

/-- A unit of the crossbar (R243): ingress slice, egress queue (port × 8 + class) and its frame segments. -/
structure CrossUnit where
  slice : Nat
  eq : Nat
  segs : List Seg
  deriving DecidableEq, Repr

/-- A slice's cell store (R232, R235, R239, R240, R250). The free list is the cells from `freshCell` upward, which no
frame has held yet, and then the freed cells, oldest first; a cell's state bit is 0 exactly while it is on that list. -/
structure CellStore where
  freshCell : Nat
  freed : List Nat
  /-- Free cells by their state bit that a corrupted link word took out of the list. -/
  skipped : List Nat
  rebuilding : Bool
  lost : Nat
  lastKind : Nat
  lastCell : Nat
  /-- Cells charged to each owner, frames dropped on no-cell, and the tick of an owner's latest overflow notice. -/
  used : Table Nat
  drops : Table Nat
  noticed : Table Nat
  arb : Nat
  /-- Virtual output queues by owner: frame numbers in admission order; bytes of the head frame that have crossed. -/
  voq : Table (List Nat)
  crossed : Table Nat
  /-- Round-robin pointers of R246 by class × 8 + egress slice. -/
  rr : Table Nat
  /-- Replication queue: frame and the target ports still to be served. -/
  repl : List (Nat × List Nat)
  /-- Punt queue, in admission order (14/R436). -/
  punt : List Nat
  /-- Frames admitted so far. -/
  admits : Nat
  deriving DecidableEq, Repr

/-- The crossbar: units in flight in the order they were sent, and the grant and accept pointers (R244). -/
structure WaleState where
  flight : List CrossUnit
  gptr : Table Nat
  aptr : Table Nat
  deriving DecidableEq, Repr

/-! ### Egress (08) -/

/-- A frame, or the part of it that has arrived, in an egress queue buffer. -/
structure EqPart where
  frame : Nat
  slice : Nat
  got : Nat
  joined : Bool
  deriving DecidableEq, Repr

/-- An egress queue: its parts in the order they joined (those not joined yet after them), the units held, each by the
frame that its last byte belongs to and that byte's place in it, and the queue's deficit and granted bit. -/
structure EgressQueue where
  parts : List EqPart
  units : List (Nat × Nat)
  deficit : Nat
  granted : Bool
  deriving DecidableEq, Repr

/-- A token bucket in units of 2^-40 byte, and the tick at which it was brought up to date (R271). -/
structure Bucket where
  tokens : Int
  last : Nat
  deriving DecidableEq, Repr

/-- The frame a port is sending. -/
structure Sending where
  cls : Nat
  part : EqPart
  /-- Tick, time and TIMEBASE of its timestamp point. -/
  startTick : Nat
  startTime : Int
  base : Nat
  deriving DecidableEq, Repr

/-- A gate list change that is armed (R286): enable, length, cycle, base time in ns, and whether the base time came. -/
structure GatePending where
  enable : Bool
  len : Nat
  cycle : Nat
  base : Nat
  reached : Bool
  deriving DecidableEq, Repr

/-- A port's gate lists (R282–R288): the entries of both banks, the entries found uncorrectable, the running list. -/
structure GateState where
  bank0 : Table Nat
  bank1 : Table Nat
  bad : List (Nat × Nat)
  oper : Nat
  running : Bool
  len : Nat
  cycle : Nat
  /-- Served ns at which the running list's first cycle started. -/
  start : Nat
  pending : Option GatePending
  entry : Nat
  gates : Nat
  deriving DecidableEq, Repr

/-- A port's scheduler. -/
structure EgressPort where
  sending : Option Sending
  dptr : Nat
  shaper : Bucket
  gate : GateState
  deriving DecidableEq, Repr

/-- A policer (Table 08-21): the words written, its two buckets, the red frames and whether its state was lost. -/
structure Policer where
  word0 : Nat
  cir : Nat
  eir : Nat
  cbs : Nat
  ebs : Nat
  tc : Bucket
  te : Bucket
  red : Nat
  failed : Bool
  deriving DecidableEq, Repr

/-- Egress of the device: queues by port × 8 + class, queue shapers by the same number, ports, policers. -/
structure EgressState where
  queues : Table EgressQueue
  shapers : Table Bucket
  ports : Table EgressPort
  policers : Table Policer
  /-- Frames that wait for a policer, in the order they reached Rewrite; the slice each bank of a die served last, by
  die × 16 + bank (08/R276). -/
  polWait : List Nat
  polLast : Table Nat
  deriving DecidableEq, Repr
/-! ### Lanes, ports and macros (11) -/

/-- One lane: figures of merit, what its receiver sees, its test counters and its equaliser settings by
target × 256 + index (in force, written for the next attempt, converged). -/
structure LaneState where
  fom : Nat
  bestFom : Nat
  signal : Bool
  cdr : Bool
  txPre : Bool
  rxPre : Bool
  txLpi : Bool
  rxLpi : Bool
  inTest : Bool
  lock : Bool
  lostLock : Bool
  prbsErr : Nat
  prbsBits : Nat
  /-- Tick at which the checker locked: `prbsBits` counts what it compared before. -/
  lockTick : Nat
  injCount : Nat
  /-- The tick from which the generator's bits are counted, and the periodic injections made since (R365). -/
  genTick : Nat
  injDone : Nat
  /-- The preset its transmitter last took, 0 before any (Table 11-4). -/
  preset : Nat
  converged : Bool
  settings : Table Nat
  nextSettings : Table Nat
  storedSettings : Table Nat
  deriving DecidableEq, Repr

/-- What a lane's transmitter sends (Tables 11-5 and 11-9). -/
inductive LaneSignal where
  | idle | prbs | training | lpi | frames | returned
  deriving DecidableEq, Repr

/-- One port (Table 11-5): state, attempts, drops, the tick its attempt or its wait began, whether an attempt runs, since
when its transmitter has been idle or a frame has been ready for it. -/
structure PortState where
  state : Nat
  /-- Reason for LINK_FAILED. -/
  cause : Nat
  /-- Reason for the latest drop. -/
  dropCause : Nat
  /-- Reason for LINK_FAILED before a lane of it entered test, and whether EN 1 waits for the last lane to leave. -/
  testCause : Nat
  enWaits : Bool
  attempts : Nat
  drops : Nat
  attempting : Bool
  since : Nat
  idleSince : Nat
  readySince : Option Nat
  /-- Uncorrectable codewords so far in the running 1 ms interval (R357). -/
  uncorr : Nat
  deriving DecidableEq, Repr

/-- The line side: lanes, ports by first lane, and the modes written while a macro was powered down. -/
structure LineState where
  lanes : Table LaneState
  ports : Table PortState
  heldModes : Table Nat
  deriving DecidableEq, Repr
/-! ### DMA channels (14) -/

/-- A descriptor as fetched (Table 14-1), with the address it came from. -/
structure Descriptor where
  addr : Nat
  next : Nat
  src : Nat
  arg : Nat
  len : Nat
  trace : Bool
  int : Bool
  /-- Reserved bits and alignment are as Table 14-1 requires. -/
  clean : Bool
  /-- The HBM stacks that held the bytes of a copy from the trace buffer as it began (R434). -/
  onStacks : List Nat
  deriving DecidableEq, Repr

/-- A completion held before step 4 of R430 because its queue is full: the record up to its SEQ, the INT flag, whether the
channel halted, and the NEXT it goes on to. -/
structure HeldRecord where
  bytes : List Byte
  int : Bool
  halt : Bool
  next : Nat
  deriving DecidableEq, Repr

/-- One channel (R428): STATE, halt status, CUR, the counts, the descriptor in progress, its completion queue as taken
at CQ_EN, a record that waits for room, and the punt drops not yet reported. -/
structure DmaChannel where
  state : Nat
  status : Nat
  cur : Nat
  count : Nat
  bytes : Nat
  doing : Option Descriptor
  /-- Bytes of it moved so far, and the frame it has handed to its egress port. -/
  moved : Nat
  inject : Option Nat
  cqPi : Nat
  cqCi : Nat
  cqBase : Nat
  cqWb : Nat
  cqLog2 : Nat
  held : Option HeldRecord
  drops : Nat
  dropTick : Option Nat
  deriving DecidableEq, Repr
/-! ### The trace stream (17) -/

/-- The trace stream: records queued with the tick at which each entered, records dropped since the last block, blocks
formed, the settings in force (TRC_CFG's word, R502), and the HBM trace buffer by page: an
empty entry is a page that was lost, an unlisted one was never written. -/
structure TraceState where
  queue : List (Nat × List Byte)
  dropped : Nat
  seq : Nat
  cfg : Nat
  wp : Nat
  wraps : Nat
  full : Bool
  buffer : Table (List Byte)
  deriving DecidableEq, Repr

/-! ### HBM controllers (18) -/

/-- A pseudo-channel: STATE and CAUSE of PC_STATUS, UE_COUNT, the ticks of its uncorrectable reads of the last second, and
the window widths of its byte lanes. -/
structure PcState where
  state : Nat
  cause : Nat
  ueCount : Nat
  ueTicks : List Nat
  rwin : Nat
  wwin : Nat
  deriving DecidableEq, Repr

/-- A stack: in self-refresh, doubled refresh, and its CA replays. -/
structure StackState where
  selfRefresh : Bool
  refresh2x : Bool
  caRetries : Nat
  deriving DecidableEq, Repr

/-- A pseudo-channel retired in service whose Skein steps are still to run: number, cause, served time of step 1. -/
structure Retiring where
  pc : Nat
  cause : Nat
  sec : Nat
  ns : Nat
  deriving DecidableEq, Repr

/-- The controllers: pseudo-channels, stacks, the parity errors of each channel in a row and its replays in all, where shared pages have moved to
(page by page, pseudo-channel × 2^15 + shared page), zone-image pages of the last sealed copy that are lost, the next
line of the patrol scrub by pseudo-channel, and retirements in progress. -/
structure HbmState where
  trainDone : Bool
  pcs : Table PcState
  stks : Table StackState
  parity : Table Nat
  replays : Table Nat
  pages : Table Nat
  lostImages : List Nat
  scrub : Table Nat
  retiring : List Retiring
  /-- The line the read window shows, and how its read ended. -/
  window : List Byte
  result : Nat
  corrected : Bool
  deriving DecidableEq, Repr
/-! ### The Rim and power (16, 19) -/

/-- Secure OTP (Table 16-4): the fixed fields, the two private keys and, beside the attestation key, its public part,
the lifecycle whose fuses are burned, and the steps taken of the two counters. -/
structure Otp where
  deviceId : List Byte
  rootHash : List Byte
  dik : List Byte
  dak : Option (List Byte × List Byte)
  lifecycle : Nat
  rollback : Nat
  sessions : Nat
  /-- A fixed field has read uncorrectable, or a burn has not verified (R469). -/
  faulty : Bool
  deriving DecidableEq, Repr

/-- An image slot of the boot flash: its state in the boot record (0 EMPTY, 1 WRITING, 2 VALID, 3 TRIAL, 4 TRYING,
5 ACTIVE, 6 FAILED) and the bytes it holds. -/
structure ImageSlot where
  state : Nat
  bytes : List Byte
  deriving DecidableEq, Repr

/-- A mailbox: BUSY, DONE and STATUS of MBX_STATUS; REQ and RESP are registers. -/
structure Mailbox where
  busy : Bool
  done : Bool
  status : Nat
  deriving DecidableEq, Repr

/-- A firmware update in progress (R479): who began it, the slot, and the length announced. -/
structure Update where
  owner : Nat
  slot : Nat
  length : Nat
  deriving DecidableEq, Repr

/-- A transition under way (R475): the RESET kind to be logged, the minimal-mode cause of the start that follows (0: as
it decides), and whether its orderly close has begun (else it waits for idle engines under attention). -/
structure Transition where
  kind : Nat
  minimal : Nat
  closing : Bool
  /-- Tick at which the step it is in began (R475). -/
  since : Nat
  deriving DecidableEq, Repr

/-- The Rim. What the boot flash and OTP hold, the enclosure pin and the Rim's own uptime outlive a reset of the device. -/
structure RimState where
  /-- Lifecycle in force: 0 BLANK, 1 PROVISIONED, 2 SEALED, 3 RETIRED; a pending transition; session. -/
  lifecycle : Nat
  pendingLc : Nat
  session : Nat
  minimal : Bool
  minCause : Nat
  /-- The Rim's part of a start has run; START_DONE; failed attempts before it (R473). -/
  started : Bool
  startDone : Bool
  attempts : Nat
  /-- LEVEL, VERSION and DIGEST of the running image, and its slot when it is not the ROM that runs. -/
  fwLevel : Nat
  fwVersion : Nat
  digest : List Byte
  running : Option Nat
  otp : Otp
  slots : List ImageSlot
  /-- Writes of the boot record so far: the copy in use is the one of the latest. -/
  bootWrites : Nat
  /-- The board configuration record in flash, and the one in force (empty: the defaults). -/
  board : List Byte
  boardLive : List Byte
  cert : List Byte
  /-- Sensors that read, in units of 0.25 °C as 16 bits; sensors at or above their warning; rail voltages. -/
  temps : Table Nat
  warned : List Nat
  volts : List Nat
  /-- TAMPER_IN is asserted. -/
  tamper : Bool
  /-- Why hardware keeps every other domain down: 0 it does not, 1 the crystal has stopped (20/R547), 2 a sensor reached
  its shutdown limit (R480). -/
  hold : Nat
  /-- The instruction in force at the TAP (R486). -/
  tap : TapOp
  boxes : List Mailbox
  boxLast : Nat
  update : Option Update
  transition : Option Transition
  /-- Kind of the reset that the next start logs, and the minimal-mode cause it must take up (0: none). -/
  resetKind : Option Nat
  startMinimal : Nat
  /-- Ticks of uptime before the latest reset, and uptimes of the supply faults of the last 10 minutes (R481). -/
  uptime : Nat
  faults : List Nat
  /-- Epochs that ended sessions left unsealed, until the next start seals them (R317). -/
  orphans : List Epoch
  deriving DecidableEq, Repr

/-- Power domains (Table 19-1): device state 0 RUN, 1 ENTERING, 2 STANDBY, 3 WAKING, 4 CLOSE_WAKE, and the macros,
chiplets and stacks that are up, one bit each. -/
structure PowerState where
  state : Nat
  macros : Nat
  chiplets : Nat
  stackPwr : Nat
  /-- Tick at which an entry into standby was requested; a wake was written during CLOSE_WAKE (R539). -/
  since : Nat
  wakeAsked : Bool
  /-- Tick at which step 3 of an entry into standby began to wait for DMA channels (R536); stacks whose power-down waits
  for them, each with the tick at which that began (14/R434). -/
  graceFrom : Option Nat
  leaving : List (Nat × Nat)
  deriving DecidableEq, Repr

/-! ### The whole machine -/

/-- The state of the block. -/
structure State where
  /-- Commands waiting, first in first out. -/
  pending : List Instr
  /-- The model's own counter of free values drawn so far. -/
  fresh : Nat
  /-- What left the device, newest first (the model's own record). -/
  out : List Output
  regs : RegState
  counters : CounterState
  time : TimeState
  log : LogState
  host : HostState
  sched : SchedState
  chain : ChainState
  skein : SkeinState
  rules : RuleState
  slices : Table SliceState
  actions : ActionState
  /-- Frames in flight by the model's frame number, and the next number. -/
  frames : Table Frame
  nextFrame : Nat
  rim : RimState
  power : PowerState
  lid : LidState
  cells : Table CellStore
  wale : WaleState
  egress : EgressState
  line : LineState
  trace : TraceState
  dma : Table DmaChannel
  hbm : HbmState
  deriving DecidableEq, Repr

/-! ### Reset -/

/-- A domain after reset (R325). -/
def Domain.reset : Domain := ⟨0, 0, 0xCCCCCCCD⟩

/-- A TIME_OUT pin after reset. -/
def TimeOutPin.reset : TimeOutPin := ⟨none, none, 0, none, false⟩

/-- A TIME_IN pin after reset. -/
def TimeInPin.reset : TimeInPin := ⟨[], 0, none⟩

/-- An idle engine. -/
def Engine.reset : Engine := ⟨none, 0, 0, [], 0, 0, false, 0⟩

/-- A disabled ring (R371). -/
def Ring.reset : Ring := ⟨false, 0, 0, 7, 0, 0, false, 0, 0, 0, 0⟩

/-- A host port with its link down. -/
def HostPort.reset : HostPort := ⟨false, 3, 1, 0, 0, 0⟩

/-- A bank with nothing in it. -/
def BankState.reset : BankState := ⟨[], [], 7⟩

/-- A free way (R99). -/
def WayEntry.free : WayEntry := ⟨0, 0, false, false, false, 0⟩

/-- Counters of zero (R54). -/
def Counts.zero : Counts := ⟨0, 0, 0, 0⟩

/-- A slice after reset; its built-in program is the constant program of R115, not listed entries. -/
def SliceState.reset : SliceState where
  steps := []
  trans := []
  access := []
  patterns := []
  tcam := []
  scrub := 0
  vlanOver := []
  vlanBase := []
  mac := []
  macCount := []
  macQueue := []
  macWindow := 0
  macSeen := []
  oldest := 0
  heads := []
  snaps := []
  malPort := 0
  malReason := 0
  malSteps := 0
  malLastStep := 0
  malCursor := 0
  recirc := []
  deep := []
  deepQueue := []
  reclaimed := []
  tcamLastLookup := 0
  tcamLastFault := false
  tcamLastPlace := 0
  lfsr := 1
  entered := 0
  engines := []
  moveEnd := 0
  movePer := 5

/-- A collector with nothing queued. -/
def Collector.reset : Collector := ⟨0, [], 0, []⟩

/-- Registers after reset: none written, no event, no refused access. -/
def RegState.reset : RegState := ⟨[], [], [], ⟨0, 0, 0, false, 0, false⟩, 0, [], 0, 0⟩

/-- Counters after reset: all zero (R488). -/
def CounterState.reset : CounterState := ⟨[], [], [], 0, false, false⟩

/-- The time block after reset. -/
def TimeState.reset : TimeState where
  tick := 0
  holdover := false
  stampTick := 0
  stampOld := []
  domains := [Domain.reset, Domain.reset]
  served := 0
  set := false
  tickHiLatch := none
  snap := ⟨false, 0, []⟩
  outs := List.replicate 4 TimeOutPin.reset
  ins := List.replicate 4 TimeInPin.reset

/-- The scheduler after reset: nothing held, every engine idle. -/
def SchedState.reset : SchedState where
  store := []
  ready := [[], [], [], []]
  engines := List.replicate 12 Engine.reset
  lastEngine := 11
  fetchPtr := 32
  nextSeq := 0
  stalled := []
  passedOver := []
  timers := []
  released := []
  ticked := 0
  tickUnits := 10
  attention := false
  waitMax := [0, 0, 0, 0]
  waitSum := [0, 0, 0, 0]
  waitCount := [0, 0, 0, 0]
  shownMax := [0, 0, 0, 0]
  shownMean := [0, 0, 0, 0]
  shownLoad := []
  windowStart := 0
  windowMs := 100
  patch := []
  matches_ := []
  patchLevel := 0
  loaded := false

/-- The chain after reset: no address, links down. -/
def ChainState.reset : ChainState where
  addr := none
  root := false
  ring := false
  devices := 0
  overflow := false
  up := [false, false]
  relayed := []
  credits := [64, 64]
  timedOut := []
  rxBuf := []
  enumerating := none
  upward := []

/-- The Skein after reset: no record; every pseudo-channel a survivor until training says otherwise. -/
def SkeinState.reset : SkeinState where
  hot := []
  merged := []
  mergedAt := []
  season := []
  ways := []
  cold := []
  banks := []
  groups := []
  survivors := List.range 128
  move := none
  opsPc := []
  opsGroup := []
  inFlight := []
  bursts := []
  sweepNext := 0
  sweepStart := 0
  sweepPeriod := 0
  recountDue := false
  recounting := false
  tally := []
  live := []
  pinUsed := []
  tokens := []
  tokensTick := []
  learnQ := List.replicate 8 []
  lastLearn := 7
  placedCount := 0
  endReqs := []
  notices := []
  visits := []
  initDone := false

/-- Rule versions after reset: version 0 current (R134). -/
def RuleState.reset : RuleState where
  current := 0
  commit := none
  overrides := []
  baseWest := []
  baseEast := []
  dead := []
  prefixes := []
  quarantine := []
  draftDigest := List.replicate 48 0
  versionDigests := []

/-- Translation, balancing and export after reset. -/
def ActionState.reset : ActionState where
  natAddr := []
  natPools := []
  subs := []
  blocks := []
  ports := []
  natFails := []
  natFailSec := 0
  natLost := []
  natEnding := []
  targets := []
  indWest := []
  indEast := []
  reassign := []
  draining := []
  collectors := []
  blockSweep := 0

/-- Secure OTP of a part that has never been provisioned. -/
def Otp.reset : Otp where
  deviceId := List.replicate 16 0
  rootHash := List.replicate 48 0
  dik := List.replicate 48 0
  dak := none
  lifecycle := 0
  rollback := 0
  sessions := 0
  faulty := false

/-- An empty image slot. -/
def ImageSlot.reset : ImageSlot := ⟨0, []⟩

/-- The Rim after reset, before the start sequence has run. -/
def RimState.reset : RimState where
  lifecycle := 0
  pendingLc := 0
  session := 0
  minimal := false
  minCause := 0
  started := false
  startDone := false
  attempts := 0
  fwLevel := 0
  fwVersion := 0
  digest := List.replicate 48 0
  running := none
  otp := Otp.reset
  slots := [ImageSlot.reset, ImageSlot.reset]
  bootWrites := 0
  board := []
  boardLive := []
  cert := []
  temps := []
  warned := []
  volts := []
  tamper := false
  hold := 0
  tap := .idcode
  boxes := List.replicate 4 ⟨false, false, 0⟩
  boxLast := 3
  update := none
  transition := none
  resetKind := some 4
  startMinimal := 0
  uptime := 0
  faults := []
  orphans := []

/-- Power after reset, before the start sequence has powered anything but the Rim. -/
def PowerState.reset : PowerState where
  state := 0
  macros := 0
  chiplets := 0
  stackPwr := 0
  since := 0
  wakeAsked := false
  graceFrom := none
  leaving := []

/-- An epoch with nothing in it. -/
def Epoch.zero : Epoch := ⟨0, 0, 0, 0, 0, [], [], [], false, false⟩

/-- The Lid after reset: no epoch open yet (R297). -/
def LidState.reset : LidState where
  zones := []
  ports := []
  classes := []
  opened := false
  epoch := Epoch.zero
  closing := none
  outstanding := []
  nextBoundary := 0
  deferred := false
  interrupt := false
  seals := []
  prevRoot := List.replicate 48 0
  chainRestart := false
  lastSealed := none
  reading := false
  hidden := 0
  corrections := []
  zoneCache := []
  pulseWindow := none

/-- A slice's cell store after reset: every cell free, nothing queued. -/
def CellStore.reset : CellStore where
  freshCell := 0
  skipped := []
  freed := []
  rebuilding := false
  lost := 0
  lastKind := 0
  lastCell := 0
  used := []
  drops := []
  noticed := []
  arb := 0
  voq := []
  crossed := []
  rr := []
  repl := []
  punt := []
  admits := 0

/-- An egress queue after reset (R267). -/
def EgressQueue.reset : EgressQueue := ⟨[], [], 0, false⟩

/-- A bucket that holds no state. -/
def Bucket.reset : Bucket := ⟨0, 0⟩

/-- No gate list (R283). -/
def GateState.reset : GateState where
  bank0 := []
  bank1 := []
  bad := []
  oper := 0
  running := false
  len := 1
  cycle := 0
  start := 0
  pending := none
  entry := 0
  gates := 255

/-- An egress port after reset. -/
def EgressPort.reset : EgressPort := ⟨none, 0, Bucket.reset, GateState.reset⟩

/-- A disabled policer. -/
def Policer.reset : Policer := ⟨0, 0, 0, 0, 0, Bucket.reset, Bucket.reset, 0, false⟩

/-- A lane after reset (R354). -/
def LaneState.reset : LaneState where
  fom := 0
  bestFom := 0
  signal := false
  cdr := false
  txPre := false
  rxPre := false
  txLpi := false
  rxLpi := false
  inTest := false
  lock := false
  lostLock := false
  prbsErr := 0
  prbsBits := 0
  lockTick := 0
  injCount := 0
  genTick := 0
  injDone := 0
  preset := 0
  converged := false
  settings := []
  nextSettings := []
  storedSettings := []

/-- A port after reset: LINK_FAILED, cause DISABLED (R355). -/
def PortState.reset : PortState := ⟨0, 0, 0, 0, false, 0, 0, false, 0, 0, none, 0⟩

/-- A channel after reset (R428). -/
def DmaChannel.reset : DmaChannel where
  state := 0
  status := 0
  cur := 0
  count := 0
  bytes := 0
  doing := none
  moved := 0
  inject := none
  cqPi := 0
  cqCi := 0
  cqBase := 0
  cqWb := 0
  cqLog2 := 6
  held := none
  drops := 0
  dropTick := none

/-- A pseudo-channel after reset: live. -/
def PcState.reset : PcState := ⟨0, 0, 0, [], 0, 0⟩

/-- A stack after reset. -/
def StackState.reset : StackState := ⟨false, false, 0⟩

/-- The controllers after reset: nothing trained yet. -/
def HbmState.reset : HbmState where
  trainDone := false
  pcs := []
  stks := []
  parity := []
  replays := []
  pages := []
  lostImages := []
  scrub := []
  retiring := []
  window := List.replicate 64 0
  result := 0
  corrected := false

/-- The machine right after reset. -/
def State.reset : State where
  pending := []
  fresh := 0
  out := []
  regs := RegState.reset
  counters := CounterState.reset
  time := TimeState.reset
  log := ⟨[], List.replicate 48 0, 0, 0, 0⟩
  host := ⟨[HostPort.reset, HostPort.reset], [], [], [], 3⟩
  sched := SchedState.reset
  chain := ChainState.reset
  skein := SkeinState.reset
  rules := RuleState.reset
  slices := []
  actions := ActionState.reset
  frames := []
  nextFrame := 0
  rim := RimState.reset
  power := PowerState.reset
  lid := LidState.reset
  cells := []
  wale := ⟨[], [], []⟩
  egress := ⟨[], [], [], [], [], []⟩
  line := ⟨[], [], []⟩
  trace := ⟨[], 0, 0, 0x20000000, 0, 0, false, []⟩
  dma := []
  hbm := HbmState.reset

end Sys2Proof.Machine
end

