-- ==== Sys2Proof/Machine/Regs.lean ====
section
/-! DEFINITION. Registers, event registers, counters and the Rim's log: reading a value in force, landing a write in its
shadow, applying a boundary, raising and acknowledging flags, counting, and the access-error event (15, 17, 16). -/

namespace Sys2Proof.Machine

/-! ### Where registers lie -/

/-- The distance of an instance from its map's base: one index for each dimension. -/
def dimOffset : List (Nat × Nat) → List Nat → Nat
  | (st, _) :: ds, i :: is => st * i + dimOffset ds is
  | _, _ => 0

/-- The offset of an instance of a register. -/
def RegName.addr (r : RegName) (ix : List Nat) : Nat := r.desc.base + dimOffset r.desc.dims ix

/-- The indices that reach a distance from a map's base, if any instance lies there. -/
def dimIndex : List (Nat × Nat) → Nat → Option (List Nat)
  | [], 0 => some []
  | [], _ + 1 => none
  | (st, n) :: ds, off =>
    if off / st < n then (dimIndex ds (off % st)).map (fun l => off / st :: l) else none

/-- The register at an offset, by search of a list of names. -/
def locateIn : List RegName → Nat → Option (RegName × List Nat)
  | [], _ => none
  | r :: rs, off =>
    if r.desc.base ≤ off then
      match dimIndex r.desc.dims (off - r.desc.base) with
      | some ix => some (r, ix)
      | none => locateIn rs off
    else locateIn rs off

/-- The register at an offset of the window; none where the offset is unmapped (R441). -/
def locate (off : Nat) : Option (RegName × List Nat) := locateIn regNames off

/-! ### Fields of a map -/

/-- A word with ones at the fields a predicate picks. -/
def maskOf (fs : List RField) (p : RField → Bool) : Word :=
  BitVec.ofNat 32 (fs.foldl (fun a f => if p f then a + (2 ^ (f.hi + 1 - f.lo) - 1) * 2 ^ f.lo else a) 0)

/-- The value of a register whose map's Reset column holds. -/
def RegDesc.resetWord (d : RegDesc) : Word :=
  BitVec.ofNat 32 (d.fields.foldl (fun a f => a + f.reset * 2 ^ f.lo) 0)

/-- A field that a write may change and that is held. -/
def RField.writable (f : RField) : Bool := f.access == .rw || f.access == .rwl || f.access == .w1o

/-- A field that a write may name: a held one, a write-only one or a sequence-acknowledged one. -/
def RField.takesWrite (f : RField) : Bool := f.writable || f.access == .wo || f.access == .seq

/-- The cell of a register; unwritten, its Reset value. -/
def regCell (s : State) (r : RegName) (ix : List Nat) : RegCell :=
  tget ⟨r.desc.resetWord, r.desc.resetWord, false⟩ s.regs.cells (r.addr ix)

/-- The value in force of a register (R454). -/
def inForce (s : State) (r : RegName) (ix : List Nat) : Nat := (regCell s r ix).force.toNat

/-- The last value written to a register (R17). -/
def lastWritten (s : State) (r : RegName) (ix : List Nat) : Nat := (regCell s r ix).written.toNat

/-- Bits [hi:lo] of the value in force. -/
def fld (s : State) (r : RegName) (ix : List Nat) (hi lo : Nat) : Nat := bits (inForce s r ix) hi lo

/-- Bits [hi:lo] of a COMMIT register as the packets of a version see it (R136). -/
def fldV (s : State) (r : RegName) (ix : List Nat) (version hi lo : Nat) : Nat :=
  bits (tget r.desc.resetWord s.regs.columns (r.addr ix * 4 + version % 4)).toNat hi lo

/-! ### Landing a write in its shadow (R16, R17) -/

/-- Replace the cell of an offset. -/
def setCell (s : State) (off : Nat) (c : RegCell) : State :=
  { s with regs := { s.regs with cells := tins s.regs.cells off c } }

/-- The cell after a write: the writable bits of the written value are replaced, and those whose boundary is NOW or
PACKET take effect at once. -/
def shadowed (d : RegDesc) (c : RegCell) (v : Word) : RegCell :=
  let wm := maskOf d.fields RField.writable
  let nm := maskOf d.fields (fun f => f.writable && (f.applies == .now || f.applies == .packet))
  let w := (v &&& wm) ||| (c.written &&& ~~~wm)
  ⟨w, (w &&& nm) ||| (c.force &&& ~~~nm), true⟩

/-- A write lands in the shadow of a register. -/
def landWrite (s : State) (r : RegName) (ix : List Nat) (v : Nat) : State :=
  setCell s (r.addr ix) (shadowed r.desc (regCell s r ix) (BitVec.ofNat 32 v))

/-- The written value of the fields of one boundary takes effect. -/
def applied (d : RegDesc) (b : Applies) (c : RegCell) : RegCell :=
  let m := maskOf d.fields (fun f => f.writable && f.applies == b)
  { c with force := (c.written &&& m) ||| (c.force &&& ~~~m) }

/-- One register's fields of a boundary take effect. -/
def applyReg (s : State) (r : RegName) (ix : List Nat) (b : Applies) : State :=
  match tfind s.regs.cells (r.addr ix) with
  | none => s
  | some c => setCell s (r.addr ix) (applied r.desc b c)

/-- Every register's fields of a boundary take effect (EPOCH, TICK). -/
def applyAll (s : State) (b : Applies) : State :=
  { s with regs := { s.regs with cells := s.regs.cells.map (fun e =>
      match locate e.1 with
      | some (r, _) => (e.1, applied r.desc b e.2)
      | none => e) } }

/-- A commit latches the pending COMMIT values into the column of the new version (R137 step 3). -/
def latchColumns (s : State) (version : Nat) : State :=
  let cols := s.regs.cells.foldl (fun t e =>
    match locate e.1 with
    | some (r, _) =>
      if r.desc.fields.any (fun f => f.applies == .commit) then tins t (e.1 * 4 + version % 4) e.2.written else t
    | none => t) s.regs.columns
  { s with regs := { s.regs with columns := cols } }

/-- Set the written and in-force value of a register at once: what the device itself does to its own registers. -/
def forceReg (s : State) (r : RegName) (ix : List Nat) (v : Nat) : State :=
  setCell s (r.addr ix) { regCell s r ix with written := BitVec.ofNat 32 v, force := BitVec.ofNat 32 v }

/-- Set one field of a register, written and in force. -/
def forceFld (s : State) (r : RegName) (ix : List Nat) (hi lo v : Nat) : State :=
  forceReg s r ix (withBits (inForce s r ix) hi lo v)

/-! ### Sequence-acknowledged status (R457–R460) -/

/-- An event register with nothing raised. -/
def EventReg.zero : EventReg := ⟨0, []⟩

/-- The register raises flags: SEQ moves on by one, and each flag's latest raise is that SEQ. -/
def EventReg.raise (e : EventReg) (fs : List Nat) : EventReg :=
  let q := (e.seq + 1) % 65536
  ⟨q, fs.foldl (fun l f => aset l f q) e.raised⟩

/-- How far a SEQ value lies behind the register's SEQ, modulo 2^16. -/
def EventReg.behind (e : EventReg) (w : Nat) : Nat := (e.seq + 65536 - w % 65536) % 65536

/-- A SEQ value lies in the acknowledgeable range (R458). -/
def EventReg.inRange (e : EventReg) (w : Nat) : Bool := decide (e.behind w ≤ 32767)

/-- A write of `w` to SEQ: every flag whose latest raise lies in the range and comes no later than `w` is cleared. -/
def EventReg.ack (e : EventReg) (w : Nat) : EventReg :=
  if e.inRange w then
    { e with raised := e.raised.filter (fun f => !(e.inRange f.2 && decide (e.behind w ≤ e.behind f.2))) }
  else e

/-- The event register at an offset. -/
def eventAt (s : State) (off : Nat) : EventReg := tget EventReg.zero s.regs.events off

/-- Raise flags of an event register. -/
def raiseEv (s : State) (r : RegName) (ix : List Nat) (fs : List Nat) : State :=
  { s with regs := { s.regs with events := tins s.regs.events (r.addr ix) ((eventAt s (r.addr ix)).raise fs) } }

/-- What an event register reads: SEQ and the raised flags. -/
def eventWord (e : EventReg) : Nat := e.seq * 65536 + ofBits (e.raised.map (·.1))

/-! ### Served time -/

/-- 2^32: the units of a nanosecond that times are kept in. -/
def nsUnit : Int := 4294967296

/-- Whole nanoseconds of a time. -/
def timeNs (t : Int) : Nat := (t / nsUnit).toNat

/-- A time in nanoseconds rounded up: a whole nanosecond lies before the time exactly when it lies below this. -/
def timeNsUp (t : Int) : Nat := timeNs (t + (nsUnit - 1))

/-- Served seconds. -/
def servedSec (s : State) : Nat := timeNs s.time.served / 1000000000

/-- Served nanoseconds within the second. -/
def servedNs (s : State) : Nat := timeNs s.time.served % 1000000000

/-- Served time in units of 16 ms, modulo 2^24 (Table 02-4). -/
def seenNow (s : State) : Nat := timeNs s.time.served / 16000000 % 2 ^ 24

/-- Ticks of the nominal rate in a number of nanoseconds: 0.8 ns each. -/
def ticksOfNs (n : Nat) : Nat := n * 5 / 4

/-- Core clocks at a tick: 1.6 GHz against 1.25 GHz. -/
def ccOf (tick : Nat) : Nat := tick * 32 / 25

/-! ### Counters (R488–R490) -/

/-- The core dies run: outside standby. -/
def running (s : State) : Bool := s.power.state != 2

/-- Add to a counter of a part, with the pair's carry when it is chained. -/
def bumpRaw (c : CounterState) (part num n : Nat) : CounterState :=
  let pair := part * 512 + num / 2
  let k := part * 1024 + num
  if tget false c.chained pair then
    if num % 2 = 1 then c
    else
      let v := tget 0 c.counts k + n
      let c1 := { c with counts := tput 0 c.counts k (wrap 48 v) }
      { c1 with counts := tmod 0 c1.counts (k + 1) (fun o => wrap 48 (o + v / 2 ^ 48)) }
  else { c with counts := tmod 0 c.counts k (fun v => wrap 48 (v + n)) }

/-- Count in a bank; a retained bank counts nothing (R491). -/
def bump (s : State) (part num n : Nat) : State :=
  if running s then { s with counters := bumpRaw s.counters part num n } else s

/-- Count one event in the device bank (Table 17-1). -/
def cntDev (s : State) (num : Nat) : State := bump s 0 num 1

/-- Count one event in a slice's bank (Table 17-2). -/
def cntSl (s : State) (sl num : Nat) : State := bump s (sl + 1) num 1

/-- Count one event of per-port counter `k` (Table 17-3), in the bank of the port's own slice. -/
def cntPort (s : State) (port k : Nat) : State := bump s (port / 32 + 1) (port % 32 * 16 + k) 1

/-! ### The Rim's log (16/R483) -/

/-- Bytes of an entry's body: that of a CHECKPOINT also holds the SEQ and CHAIN of the entry before it. -/
def LogEntry.bodyLength (e : LogEntry) : Nat := e.body.length + (if e.type = 5 then 56 else 0)

/-- LEN of an entry (Table 16-11). -/
def LogEntry.length (e : LogEntry) : Nat := max 96 (cdiv (80 + e.bodyLength) 16 * 16)

/-- Header and body of an entry, the body padded with zeros to the entry's length; the CHAIN of the entry before it. -/
def LogEntry.image (e : LogEntry) (prev : List Byte) : List Byte :=
  let body := if e.type = 5 then le 8 (e.seq - 1) ++ prev ++ e.body else e.body
  le 2 e.length ++ le 1 e.type ++ le 1 (b2n e.sec) ++ le 4 (e.session % 2 ^ 14) ++ le 8 e.seq ++ le 8 e.seconds
    ++ le 4 e.nanoseconds ++ zeros 4 ++ padTo (e.length - 80) body

/-- CHAIN of an entry after the one before it (R483). -/
def LogEntry.chain (e : LogEntry) (prev : List Byte) : List Byte := sha384 (le 1 5 ++ prev ++ e.image prev)

/-- Entries that are in flash before the act they record proceeds (R484). -/
def logAtOnce (type : Nat) : Bool :=
  (decide (1 ≤ type) && decide (type ≤ 6)) || (decide (0x10 ≤ type) && decide (type ≤ 0x12)) ||
  (decide (0x30 ≤ type) && decide (type ≤ 0x32))

/-- The flash's log region and the block it erases. -/
def logRegion : Nat := 0x2000000 - 0x900000
def logBlockSize : Nat := 4096

/-- Bytes of the log region that the entries kept take. -/
def LogState.bytes (l : LogState) : Nat := (l.entries.map LogEntry.length).foldl (· + ·) 0

/-- The region is full: the oldest block is erased, and with it the entries that begin in it. -/
def LogState.trim : Nat → LogState → LogState
  | 0, l => l
  | n + 1, l =>
    if l.base + l.bytes ≤ l.base / logBlockSize * logBlockSize + logRegion then l
    else match l.entries.getLast? with
    | none => l
    | some e => LogState.trim n
        { l with entries := l.entries.dropLast, chain0 := e.chain l.chain0, base := l.base + e.length }

/-- Put one entry at the end of the log. -/
def pushLog (s : State) (type : Nat) (sec : Bool) (body : List Byte) : State :=
  let e : LogEntry := ⟨type, sec, s.rim.session, s.log.next, servedSec s, servedNs s, body⟩
  let l : LogState := { s.log with
    entries := e :: s.log.entries,
    next := s.log.next + 1,
    flushed := if logAtOnce type then s.log.next + 1 else s.log.flushed }
  { s with log := l.trim 64 }

/-- A signature under a lifecycle: zero in BLANK, where no key exists (09/R314); else bytes that only the key's holder can
make. -/
def signature (s : State) (life : Nat) : List Byte × State :=
  if life = 0 then (zeros 96, s)
  else (le 96 (Config.freeValue s.fresh), { s with fresh := s.fresh + 1 })

/-- A CHECKPOINT entry (R483). -/
def checkpoint (s : State) : State :=
  let (sig, s) := signature s s.rim.otp.lifecycle
  pushLog s 5 true sig

/-- Add an entry to the log; a CHECKPOINT follows every SEAL entry and every 1,024th entry. -/
def rimLog (s : State) (type : Nat) (sec : Bool) (body : List Byte) : State :=
  let s := pushLog s type sec body
  let s := if type = 0x11 || s.log.next % 1024 == 0 then checkpoint s else s
  if s.log.next % 1024 == 0 then checkpoint s else s

/-- An uncorrectable error or another fault that a chapter logs: block, address and cause (type 0x25). -/
def logUe (s : State) (block addr cause : Nat) : State :=
  rimLog s 0x25 false (le 4 block ++ le 4 addr ++ le 4 cause)

/-! ### What leaves the device -/

/-- Record an output. -/
def emit (s : State) (o : Output) : State := { s with out := o :: s.out }

/-- Draw a free value (a value the spec leaves open): the step reads and advances the counter. -/
def drawFree (s : State) : Nat × State := (Config.freeValue s.fresh, { s with fresh := s.fresh + 1 })

/-! ### The access-error event (R451, R452) -/

/-- A refused access raises the access-error event of its kind, is recorded and counted, and is logged when its kind is
always logged or LOG_ALL is in force, at most once per requester, kind and millisecond. -/
def accessError (s : State) (req : Requester) (kind off width : Nat) (write : Bool) : State :=
  let s := raiseEv s .accEvent [] [kind - 1]
  let s := { s with regs := { s.regs with
    accLast := ⟨off % 2 ^ 26, kind, req.id, req.viaCmd, width, write⟩,
    accCount := sat 32 (s.regs.accCount + 1) } }
  if kind == 2 || kind == 4 || kind == 5 || fld s .accCfg [] 0 0 == 1 then
    let old := s.regs.accPending.find? (fun p => p.requester == req.id && p.kind == kind)
    let rest := s.regs.accPending.filter (fun p => !(p.requester == req.id && p.kind == kind))
    let entry (off width n : Nat) (s : State) : State :=
      rimLog s 0x20 (kind == 5) (le 1 req.id ++ le 1 kind ++ le 1 width ++ le 1 0 ++ le 4 off ++ le 4 n)
    match old with
    | none =>
      let s := entry off width 1 s
      { s with regs := { s.regs with accPending := ⟨req.id, kind, s.time.tick, 0, 0, 0⟩ :: rest } }
    | some p =>
      let first := if p.count = 0 then (off, width) else (p.offset, p.width)
      if p.lastTick + ticksOfNs 1000000 ≤ s.time.tick then
        let s := entry first.1 first.2 (p.count + 1) s
        { s with regs := { s.regs with accPending := ⟨req.id, kind, s.time.tick, 0, 0, 0⟩ :: rest } }
      else
        { s with regs := { s.regs with
            accPending := ⟨req.id, kind, p.lastTick, p.count + 1, first.1, first.2⟩ :: rest } }
  else s

/-- Accesses held back for more than 1 ms are entered in the log (R452). -/
def flushAccess (s : State) : State :=
  let due := s.regs.accPending.filter (fun p =>
    decide (0 < p.count) && decide (p.lastTick + ticksOfNs 1000000 ≤ s.time.tick))
  let s := due.foldl (fun s p =>
    rimLog s 0x20 (p.kind == 5)
      (le 1 p.requester ++ le 1 p.kind ++ le 1 p.width ++ le 1 0 ++ le 4 p.offset ++ le 4 p.count)) s
  { s with regs := { s.regs with accPending := s.regs.accPending.map (fun p =>
      if decide (0 < p.count) && decide (p.lastTick + ticksOfNs 1000000 ≤ s.time.tick)
      then { p with count := 0, lastTick := s.time.tick } else p) } }

/-! ### Slices and ports -/

/-- A slice's state. -/
def sliceAt (s : State) (sl : Nat) : SliceState := tget SliceState.reset s.slices sl

/-- Replace a slice's state. -/
def setSlice (s : State) (sl : Nat) (x : SliceState) : State := { s with slices := tins s.slices sl x }

/-- Change a slice's state. -/
def modSlice (s : State) (sl : Nat) (f : SliceState → SliceState) : State := setSlice s sl (f (sliceAt s sl))

/-- The slice of a port. -/
def sliceOf (port : Nat) : Nat := port / 32

/-- The slice and port index of a port-indexed register. -/
def portIx (port : Nat) : List Nat := [port / 32, port % 32]

end Sys2Proof.Machine
end

