-- ==== Sys2Proof/Machine/HostOps.lean ====
section
/-! DEFINITION. Rings, events and replies: what the device writes into host memory and when it may (12/R371–R375, R379),
and register access rules shared by every access (15/R442–R460). -/

namespace Sys2Proof.Machine

/-! ### Rings -/

/-- The number of a ring: host port, class (0 command, 1 reply, 2 event), ring. -/
def ringId (hp cls r : Nat) : Nat := hp * 64 + cls * 16 + r

/-- A ring's state. -/
def ringAt (s : State) (hp cls r : Nat) : Ring := tget Ring.reset s.host.rings (ringId hp cls r)

/-- Replace a ring's state. -/
def setRing (s : State) (hp cls r : Nat) (x : Ring) : State :=
  { s with host := { s.host with rings := tins s.host.rings (ringId hp cls r) x } }

/-- The configuration register of a ring. -/
def ringCfg (cls : Nat) : RegName := match cls with | 0 => .crCfg | 1 => .rrCfg | _ => .erCfg

/-- The slots of a ring. -/
def Ring.size (r : Ring) : Nat := 2 ^ r.sizeLog2

/-- Slots between two indices, as a 32-bit difference. -/
def idxDiff (a b : Nat) : Nat := (a + 2 ^ 32 - b % 2 ^ 32) % 2 ^ 32

/-- Free slots of a ring the device produces into. -/
def Ring.free (r : Ring) : Nat := r.size - idxDiff r.pi r.ci

/-- The function that owns a ring: HP_RING_OWN for command and reply rings, PF0 for event rings (R367). -/
def ringOwner (s : State) (hp cls r : Nat) : Nat :=
  match cls with
  | 0 => hp * 2 + bits (inForce s .hpRingOwn [hp]) r r
  | 1 => hp * 2 + bits (inForce s .hpRingOwn [hp]) (16 + r) (16 + r)
  | _ => hp * 2

/-- Slot writes of an entry from slot `pi`, split where the ring wraps (R371). -/
def slotWrites (hp base size pi : Nat) (bytes : List Byte) : List Output :=
  let first := 64 * (size - pi % size)
  let o := base + 64 * (pi % size)
  if bytes.length ≤ first then [.hostWrite hp o bytes]
  else [.hostWrite hp base (bytes.drop first), .hostWrite hp o (bytes.take first)]

/-- Write an entry into a ring the device produces into: the slots, then the index, then the vector (R373). -/
def writeRing (s : State) (hp cls r : Nat) (bytes : List Byte) : State :=
  let g := ringAt s hp cls r
  let n := cdiv bytes.length 64
  let pi := (g.pi + n) % 2 ^ 32
  let cfg := inForce s (ringCfg cls) [hp, r]
  let s := { s with out := slotWrites hp g.base g.size g.pi bytes ++ s.out }
  let s := emit s (.hostWrite hp g.wb (le 4 pi))
  let s := if bit cfg 29 then emit s (.msix (ringOwner s hp cls r) (bits cfg 5 0)) else s
  setRing s hp cls r { g with pi := pi }

/-! ### The chain (R391) -/

/-- Change the chain. -/
def withChain (s : State) (f : ChainState → ChainState) : State := { s with chain := f s.chain }

/-- A chain port's link is up. -/
def chainUp (s : State) (p : Nat) : Bool := s.chain.up.getD p false

/-- The chain port by which the root reaches a device: none when no path is left (R391). -/
def chainPath (s : State) (dev : Nat) : Option Nat :=
  if s.chain.ring then
    let first := if dev ≤ s.chain.devices - dev then 1 else 0
    if chainUp s first then some first else if chainUp s (1 - first) then some (1 - first) else none
  else if chainUp s 1 then some 1 else none

/-- The chain port by which a device that is not the root reaches it: CHAIN0, or CHAIN1 while CHAIN0 is down (R393). -/
def upPort (s : State) : Nat := if chainUp s 0 then 0 else 1

/-- Punted frames and export messages that a device holds for the chain (14/R440). -/
def upCapacity : Nat := 256

/-- While a link towards the root is up, what the device holds for the chain leaves in order. -/
def pumpUp (s : State) : State :=
  if chainUp s (upPort s) then
    { s with chain := { s.chain with upward := [] }, out := (s.chain.upward.map (.chain (upPort s) 6)).reverse ++ s.out }
  else s

/-! ### Events (R375) -/

/-- The device's own address; 0x3F where it holds none. -/
def devAddr (s : State) : Nat := s.chain.addr.getD 0x3F

/-- Write an event entry to an event ring, or drop and count it when it finds too few free slots or a disabled ring. -/
def eventToRing (s : State) (hp r src dev : Nat) (body : List Byte) : State :=
  let g := ringAt s hp 2 r
  if g.en && decide (cdiv (16 + body.length) 64 ≤ g.free) then
    let h := le 1 src ++ le 1 (dev % 64) ++ le 2 body.length ++ le 4 g.seq ++ le 4 g.lost ++ zeros 4
    let s := writeRing s hp 2 r (h ++ body)
    setRing s hp 2 r { ringAt s hp 2 r with seq := (g.seq + 1) % 2 ^ 32, lost := 0 }
  else setRing s hp 2 r { g with lost := sat 32 (g.lost + 1), drops := sat 32 (g.drops + 1) }

/-- Post an event: to the ring EVT_ROUTE names; up the chain from a device that is not the root (R393); nowhere when
the source is not enabled. -/
def postEvent (s : State) (src : Nat) (body : List Byte) : State :=
  let w := inForce s .evtRoute [src]
  if bit w 31 then
    let hp := bits w 30 30
    let r := bits w 29 28
    if s.chain.addr.isNone || s.chain.root then eventToRing s hp r src (s.chain.addr.getD 0) body
    else emit s (.chain (upPort s) 4 (le 1 hp ++ le 1 r ++ le 1 src ++ le 1 (devAddr s) ++ body))
  else s

/-! ### Replies (R373, R374, R379) -/

/-- Bytes of a reply (Table 12-5). -/
def Reply.bytes (r : Reply) : List Byte :=
  let h := le 4 r.tag ++ le 2 r.opcode ++ le 2 r.status ++ le 1 r.partMask
    ++ le 1 (at_ r.dev 5 0 + at_ (b2n r.sent) 6 6) ++ le 2 (at_ r.cmdRing 3 0)
    ++ le 4 r.data.length ++ le 8 r.cursor ++ zeros 4
  h ++ le 4 (crc32c (h ++ r.data)) ++ r.data

/-- Bytes a host port's waiting replies take of its reply buffer. -/
def replyBufUsed (s : State) (hp : Nat) : Nat :=
  ((s.host.replies.filter (fun r => r.hp == hp)).map (fun r => 32 + r.data.length)).foldl (· + ·) 0

/-- The reply buffer of a port has room for one more reply of a length (256 KiB, R374). -/
def replyRoom (s : State) (hp n : Nat) : Bool := decide (replyBufUsed s hp + 32 + n ≤ 262144)

/-- Place a reply in its port's reply buffer. -/
def placeReply (s : State) (r : Reply) : State :=
  { s with host := { s.host with replies := s.host.replies ++ [r] } }

/-! ### Status codes (Table 12-8) -/

def stOk : Nat := 0x0000
def stPartial : Nat := 0x0001
def stBusy : Nat := 0x0002
def stNoent : Nat := 0x0003
def stExists : Nat := 0x0004
def stFull : Nat := 0x0005
def stDenied : Nat := 0x0006
def stBadparam : Nat := 0x0007
def stLocked : Nat := 0x0008
def stAborted : Nat := 0x0009
def stTimeout : Nat := 0x000A
def stDomainDown : Nat := 0x000B
def stUncorrectable : Nat := 0x000C
def stVersionLimit : Nat := 0x000D
def stChainLimit : Nat := 0x000E
def stMinimal : Nat := 0x000F

/-! ### Power domains of the window (Table 15-1, R450, R537) -/

/-- An offset lies in the host island, which runs in standby. -/
def islandBlock (off : Nat) : Bool :=
  decide (off < 0x4000) || (decide (0x100000 ≤ off) && decide (off < 0x103000)) ||
  (decide (0x20D000 ≤ off) && decide (off < 0x20E000)) || (decide (0x400000 ≤ off) && decide (off < 0x402000)) ||
  (decide (0x3E00000 ≤ off) && decide (off < 0x3F00000))

/-- The power domain of an offset is up: line chiplets by their power bit, every block outside the host island while
the device is not in standby. -/
def domainUp (s : State) (off : Nat) : Bool :=
  if decide (0x3000000 ≤ off) && decide (off < 0x3100000) then
    bit s.power.chiplets ((off - 0x3000000) / 0x1000 / 32) && running s
  else islandBlock off || (running s && s.rim.started)

/-! ### Access rules (R442–R456) -/

/-- The requester may use a field of this Who (R15): PRIV answers PF0 of either port, and the Rim. -/
def Who.permits (w : Who) (req : Nat) : Bool :=
  match w with
  | .any => true
  | .priv => req == 0 || req == 2 || req == 4

/-- The owner check of rings, DMA channels and mailboxes (R367, R423, R487): the function such a register answers. -/
def ownerCheck (s : State) (r : RegName) (ix : List Nat) (req : Nat) : Bool :=
  match r, ix with
  | .crBaseLo, [h, n] | .crBaseHi, [h, n] | .crWbLo, [h, n] | .crWbHi, [h, n]
  | .crCfg, [h, n] | .crPi, [h, n] | .crCi, [h, n] | .crStatus, [h, n] => req == ringOwner s h 0 n || req == 4
  | .rrBaseLo, [h, n] | .rrBaseHi, [h, n] | .rrWbLo, [h, n] | .rrWbHi, [h, n]
  | .rrCfg, [h, n] | .rrPi, [h, n] | .rrCi, [h, n] | .rrStatus, [h, n] => req == ringOwner s h 1 n || req == 4
  | .erBaseLo, [h, _] | .erBaseHi, [h, _] | .erWbLo, [h, _] | .erWbHi, [h, _]
  | .erCfg, [h, _] | .erPi, [h, _] | .erCi, [h, _] | .erStatus, [h, _] => req == h * 2 || req == 4
  | .dmaCtl, [c] | .dmaHeadLo, [c] | .dmaHeadHi, [c] | .dmaLimit, [c] | .dmaStatus, [c] | .dmaCurLo, [c]
  | .dmaCurHi, [c] | .dmaCount, [c] | .cqBaseLo, [c] | .cqBaseHi, [c] | .cqWbLo, [c] | .cqWbHi, [c] | .cqCfg, [c]
  | .cqPi, [c] | .cqCi, [c] | .dmaBytesLo, [c] | .dmaBytesHi, [c] =>
    req == c / 16 * 2 + bits (inForce s .dmaOwn [c / 16]) (c % 16) (c % 16) || req == 4
  | .mbxCtl, m :: _ | .mbxStatus, m :: _ | .mbxReq, m :: _ | .mbxResp, m :: _ => req == m || req == 4
  | _, _ => true

/-- The register is locked for writes (R455, R456): a write-once register that has taken its write, or ACC_CFG while
LOCK_ACC is in force. -/
def locked (s : State) (r : RegName) (ix : List Nat) : Bool :=
  (r.desc.fields.any (fun f => f.access == .w1o) && (regCell s r ix).taken) ||
  (r == .accCfg && fld s .glbLock [] 0 0 == 1)

/-- A write to this register is refused by the register's state (kind STATE of Table 15-5): the Applies COMMIT
registers during steps 3 to 5 of a commit (R137), ring setup while the ring is enabled, and any register but the Rim's
writes once an orderly reset has been requested (R465). -/
def stateRefuses (s : State) (req : Nat) (r : RegName) (ix : List Nat) : Bool :=
  (s.rules.commit.isSome && r.desc.fields.any (fun f => f.applies == .commit)) ||
  (s.rim.transition.isSome && req != 4) ||
  (match r, ix with
  | .crBaseLo, [h, n] | .crBaseHi, [h, n] | .crWbLo, [h, n] | .crWbHi, [h, n] => (ringAt s h 0 n).en
  | .rrBaseLo, [h, n] | .rrBaseHi, [h, n] | .rrWbLo, [h, n] | .rrWbHi, [h, n] => (ringAt s h 1 n).en
  | .erBaseLo, [h, n] | .erBaseHi, [h, n] | .erWbLo, [h, n] | .erWbHi, [h, n] => (ringAt s h 2 n).en
  | _, _ => false)

/-- The code of an access width in ACC_LAST1. -/
def Width.code : Sys2Proof.Width → Nat
  | .none | .w8 => 0
  | .w16 => 1
  | .w32 => 2
  | .w64 | .unaligned | .unsupported => 3

/-- How a write of 32 bits, or one half of 64, is judged: the kind of Table 15-5 that refuses it, or the register it
reaches. -/
def judgeWrite (s : State) (req : Requester) (off : Nat) : Except Nat (RegName × List Nat) :=
  if !domainUp s off then .error 7
  else match locate off with
  | none => .error 6
  | some (r, ix) =>
    let fs := r.desc.fields.filter RField.takesWrite
    if fs.isEmpty then
      .error (if r.desc.fields.isEmpty || r.desc.fields.any (fun f => f.who.permits req.id) then 3 else 4)
    else if !(fs.any (fun f => f.who.permits req.id) && ownerCheck s r ix req.id) then .error 4
    else if locked s r ix then .error 5
    else if stateRefuses s req.id r ix then .error 8
    else .ok (r, ix)

/-- A write that acknowledges an event register (R458): the SEQ field of the written word. -/
def ackWrite (s : State) (req : Requester) (off v : Nat) : State :=
  let e := eventAt s off
  if e.inRange (v / 65536) then
    { s with regs := { s.regs with events := tins s.regs.events off (e.ack (v / 65536)) } }
  else accessError s req 9 off 2 true

/-- A 32-bit write that one of the table's own rows describes: refused as the access rules say, else its effect on the
registers the row names; the offset of another register is not this row's. -/
def guarded (s : State) (req : Requester) (off : Nat) (names : List RegName)
    (effect : State → RegName → List Nat → State) : State :=
  match judgeWrite s req off with
  | .error k => accessError s req k off 2 true
  | .ok (r, ix) => if names.contains r then effect s r ix else s

/-- The register has a SEQ field of its own in bits [31:16]. -/
def hasSeq (r : RegName) : Bool := r.desc.fields.any (fun f => f.access == .seq && f.hi == 31 && f.lo == 16)

end Sys2Proof.Machine
end

