-- ==== Sys2Proof/Machine/Operands.lean ====
section
/-! DEFINITION. The layouts the spec gives flow keys, records, tag lines and table entries, as bytes and as numbers, and
the reading of a layout back into its fields (02, 05, 06). -/

namespace Sys2Proof.Machine

/-! ### Keys (Table 02-1, R37, R71) -/

/-- The key of nothing. -/
def Key.zero : Key := ⟨0, false, 0, 0, 0, 0, 0, 0⟩

/-- Word 0 of the key image. -/
def Key.word0 (k : Key) : Nat := at_ k.zone 31 12 + at_ (b2n k.v6) 11 11 + at_ k.proto 7 0

/-- The 48-byte key image. -/
def Key.image (k : Key) : List Byte :=
  be 4 k.word0 ++ be 16 k.addrL ++ be 16 k.addrH ++ be 2 k.portL ++ be 2 k.portH ++ be 8 k.ext

/-- The key a 48-byte image spells. -/
def Key.ofImage (l : List Byte) : Key :=
  let w := beAt l 0 4
  ⟨bits w 31 12, bit w 11, bits w 7 0, beAt l 4 16, beAt l 20 16, beAt l 36 2, beAt l 38 2, beAt l 40 8⟩

/-- A key image is one the spec allows: the bits marked zero are zero, and an IPv4 address occupies the low 32 bits of
its field. -/
def keyImageOk (l : List Byte) : Bool :=
  let w := beAt l 0 4
  bits w 10 8 == 0 && (bit w 11 || (beAt l 4 12 == 0 && beAt l 20 12 == 0))

/-- Build a key and the direction bit from a packet's endpoints (R37). -/
def mkKey (zone : Nat) (v6 : Bool) (proto sa sp da dp ext : Nat) : Key × Bool :=
  if sa * 65536 + sp ≤ da * 65536 + dp then (⟨zone, v6, proto, sa, da, sp, dp, ext⟩, false)
  else (⟨zone, v6, proto, da, sa, dp, sp, ext⟩, true)

/-- Hash h1 of R71. -/
def Key.h1 (k : Key) : Nat := crc32c k.image

/-- Hash h2 of R71: the tag. -/
def Key.tag (k : Key) : Nat := crc32c k.image.reverse

/-- Cold bucket of a key. -/
def Key.bucket (k : Key) : Nat := k.h1 % 2 ^ 24

/-- Flow core bank that owns a cold bucket. -/
def bankOf (bucket : Nat) : Nat := bucket % 128

/-- Hot bucket that serves a cold bucket. -/
def hotBucketOf (bucket : Nat) : Nat := bucket % 128 * 1024 + bucket / 128 % 1024

/-- Bucket group of a cold bucket. -/
def groupOf (bucket : Nat) : Nat := bucket / 256

/-- Source and destination of a packet of the key seen in direction `d`: address and port each. -/
def Key.ends (k : Key) (d : Bool) : (Nat × Nat) × (Nat × Nat) :=
  if d then ((k.addrH, k.portH), (k.addrL, k.portL)) else ((k.addrL, k.portL), (k.addrH, k.portH))

/-! ### Handles (R41) -/

/-- A flow handle from a generation and a cold index. -/
def mkHandle (gen idx : Nat) : Nat := at_ gen 31 27 + at_ idx 26 0

/-- The cold index of a handle. -/
def handleIdx (h : Nat) : Nat := bits h 26 0

/-- The generation of a handle. -/
def handleGen (h : Nat) : Nat := bits h 31 27

/-! ### Action word (Table 02-7) -/

/-- The action word of nothing. -/
def Action.zero : Action := ⟨0, 0, 0, 0, 0, 0, false, false, 0⟩

/-- The 64-bit action word. -/
def Action.word (a : Action) : Nat :=
  at_ a.nextHop 63 44 + at_ a.policer 43 26 + at_ a.profile 25 16 + at_ a.cls 15 10 + at_ a.verdict 9 8
    + at_ a.exportMode 7 6 + at_ (b2n a.deep) 5 5 + at_ (b2n a.polEn) 4 4 + at_ a.tcpSt 3 0

/-- The action word a number spells. -/
def Action.ofWord (w : Nat) : Action :=
  ⟨bits w 63 44, bits w 43 26, bits w 25 16, bits w 15 10, bits w 9 8, bits w 7 6, bit w 5, bit w 4, bits w 3 0⟩

/-! ### Counters (Table 02-8) -/

/-- The 20 bytes of a counter bank. -/
def Counts.image (c : Counts) : List Byte :=
  le 5 c.billPkts ++ le 6 c.billBytes ++ le 4 c.voidPkts ++ le 5 c.voidBytes

/-- Sum of two counters, field by field. -/
def Counts.add (a b : Counts) : Counts :=
  ⟨a.billPkts + b.billPkts, a.billBytes + b.billBytes, a.voidPkts + b.voidPkts, a.voidBytes + b.voidBytes⟩

/-! ### Records (Tables 02-4, 02-5, 02-6) -/

/-- A record body with nothing in it. -/
def FlowBody.zero : FlowBody := ⟨Key.zero, 0, 0, 0, 0, false, 0, Action.zero, 0, 0, 0, none, none, none, false⟩

/-- No record. -/
def ColdRec.none : ColdRec := ⟨false, FlowBody.zero, 0, 0, 0, Counts.zero, Counts.zero⟩

/-- The 48 bytes of KEY_AREA: the key image of an IPv6 key; else the compact key and the rewrite extension. -/
def FlowBody.keyArea (b : FlowBody) : List Byte :=
  if b.key.v6 then b.key.image
  else be 4 b.key.word0 ++ be 4 b.key.addrL ++ be 4 b.key.addrH ++ be 2 b.key.portL ++ be 2 b.key.portH
    ++ be 8 b.key.ext ++ be 16 b.extAddr ++ be 2 b.extPort ++ zeros 6

/-- The record's key area has content beyond its first 16 bytes: it takes two hot slots (Table 02-3). -/
def FlowBody.twoSlot (b : FlowBody) : Bool := b.key.v6 || b.key.ext != 0 || b.extAddr != 0 || b.extPort != 0

/-- Hot slots a record needs (Table 02-3). -/
def FlowBody.slots (b : FlowBody) : Nat := if b.twoSlot then 2 else 1

/-- REWRITE (Table 02-4). -/
def FlowBody.rewriteWord (b : FlowBody) : Nat := at_ b.rwAddr 63 32 + at_ b.rwPort 31 16 + at_ b.rwTarget 15 0

/-- The cold state word (Table 02-6). -/
def ColdRec.state (c : ColdRec) : Nat :=
  at_ (b2n c.valid) 31 31 + at_ (b2n c.body.pinned) 30 30 + at_ c.body.kind 29 28 + at_ c.body.life 27 25
    + at_ c.learnPort 7 0

/-- The 128 bytes of a cold record. -/
def ColdRec.image (c : ColdRec) : List Byte :=
  c.body.keyArea ++ le 4 c.handle ++ le 4 c.twin ++ le 4 c.state ++ le 3 c.body.lastSeen ++ zeros 1
    ++ le 8 c.body.action.word ++ le 8 c.body.rewriteWord ++ le 4 (c.body.edgeL.getD 0) ++ le 4 (c.body.edgeH.getD 0)
    ++ c.bank0.image ++ c.bank1.image

/-- The hot state word (Table 02-6). -/
def HotRec.state (h : HotRec) : Nat :=
  at_ 1 31 31 + at_ (b2n h.body.pinned) 30 30 + at_ h.body.kind 29 28 + at_ h.body.life 27 25
    + at_ h.bank 24 24 + at_ (b2n h.twoSlot) 23 23

/-- The 64 bytes of a hot record's (even) slot. -/
def HotRec.image (h : HotRec) : List Byte :=
  h.body.keyArea.take 16 ++ le 4 h.state ++ le 3 h.body.lastSeen ++ le 1 (at_ h.gen 7 3 + at_ h.way 2 0)
    ++ le 8 h.body.action.word ++ le 8 h.body.rewriteWord ++ le 4 (h.body.edgeL.getD 0) ++ le 4 (h.body.edgeH.getD 0)
    ++ le 4 h.counts.billPkts ++ le 5 h.counts.billBytes ++ le 3 h.counts.voidPkts ++ le 4 h.counts.voidBytes

/-- The 64 bytes of a two-slot record's odd slot (R48). -/
def HotRec.oddImage (h : HotRec) : List Byte :=
  h.body.keyArea.drop 16 ++ le 4 (at_ 1 31 31 + at_ 3 29 28) ++ zeros 28

/-- A way entry as 8 bytes (Table 02-8a). -/
def WayEntry.word (w : WayEntry) : Nat :=
  at_ w.tag 31 0 + at_ w.gen 36 32 + at_ (b2n w.valid) 37 37 + at_ (b2n w.pinned) 38 38 + at_ (b2n w.hot) 39 39
    + at_ w.hotSlot 59 40

/-! ### Zone, next-hop, pool, port, VLAN and profile entries (Tables 05-5 to 05-9, 06-2) -/

/-- Next-hop image fields. -/
def nhValid (x : Nat) : Bool := bit x 95
def nhKind (x : Nat) : Nat := bits x 94 93
def nhTag (x : Nat) : Bool := bit x 92
def nhVlan (x : Nat) : Nat := bits x 91 80
def nhPort (x : Nat) : Nat := bits x 79 72
def nhMac (x : Nat) : Nat := bits x 47 0

/-- Profile image fields (Table 06-2); an invalid profile acts as all zero. -/
def profEff (x : Nat) : Nat := if bit x 127 then x else 0
def profNat (x : Nat) : Nat := bits x 126 125
def profPool (x : Nat) : Nat := bits x 124 113
def profLb (x : Nat) : Bool := bit x 112
def profLbPool (x : Nat) : Nat := bits x 111 96
def profTrack (x : Nat) : Bool := bit x 95
def profNonsyn (x : Nat) : Bool := bit x 94
def profOow (x : Nat) : Bool := bit x 93
def profWinLog (x : Nat) : Nat := max 10 (min 30 (bits x 92 88))
def profExport (x : Nat) : Nat := bits x 87 86
def profColl (x : Nat) : Nat := bits x 85 83
def profDecap (x : Nat) : Bool := bit x 82
def profTtl (x : Nat) : Bool := bit x 81
def profMark (x : Nat) : Bool := bit x 80
def profDscp (x : Nat) : Nat := bits x 79 74
def profTc (x : Nat) : Nat := bits x 73 71
def profFragPunt (x : Nat) : Bool := bit x 70

/-- Action events of R227 (source 3). -/
def actionEvent (s : State) (kind a0 a1 : Nat) : State :=
  postEvent s 3 (le 1 kind ++ zeros 3 ++ le 4 a0 ++ le 4 a1 ++ le 4 (servedSec s))

end Sys2Proof.Machine
end

