-- ==== Sys2Proof/Machine/Tables.lean ====
section
/-! DEFINITION. Versioned lookups: direct-indexed tables through the withy (05/R162–R167), prefixes (R169, R170), MAC
buckets (R172), and the draft's visibility arithmetic (04/R134, R135). -/

namespace Sys2Proof.Machine

/-! ### Visibility (R134) -/

/-- The entry's VIS bit for a version is set. -/
def visTo (vis version : Nat) : Bool := bit vis (version % 4)

/-- Table numbers of DT_WRITE (Table 12-9): 0 zone, 1 next-hop, 2 target-pool, 3 port, 4 VLAN, 5 action profile. -/
def dtEntries (table : Nat) : Nat :=
  match table with
  | 0 | 1 => 1048576
  | 2 => 65536
  | 3 => 256
  | 4 => 4096
  | _ => 1024

/-- Bytes of a table's image. -/
def dtBytes (table : Nat) : Nat :=
  match table with
  | 1 => 12
  | 4 => 64
  | 5 => 16
  | _ => 8

/-- The bit that marks an image VALID. -/
def dtValidBit (table : Nat) : Nat := dtBytes table * 8 - 1

/-- Key of a base image. -/
def dtKey (table index : Nat) : Nat := table * 2 ^ 20 + index

/-- The base images on the core die of a slice: West holds slices 0–3, East 4–7 (R163). -/
def baseOf (s : State) (sl : Nat) : Table Nat := if sl < 4 then s.rules.baseWest else s.rules.baseEast

/-- The image of a per-device table's index that the version sees from a slice: an override's, else the base image of its
die (R163, R164). An index lost in both copies finds none (R167). -/
def dtImage (s : State) (sl table index version : Nat) : Nat :=
  if s.rules.dead.contains (table, index) then 0 else
  match s.rules.overrides.find? (fun o => o.table == table && o.index == index && visTo o.vis version) with
  | some o => o.image
  | none => tget 0 (baseOf s sl) (dtKey table index)

/-- The image the draft sees. -/
def dtDraft (s : State) (table index : Nat) : Nat :=
  match s.rules.overrides.find? (fun o => o.table == table && o.index == index && o.draft) with
  | some o => o.image
  | none => tget 0 s.rules.baseWest (dtKey table index)

/-- The number of a slice's VLAN entry among the lost indexes. -/
def vlanKey (sl vlan : Nat) : Nat × Nat := (4, sl * 4096 + vlan)

/-- The VLAN image of a slice that the version sees; none where the slice's copy is lost (R167). -/
def vlanImage (s : State) (sl vlan version : Nat) : Nat :=
  if s.rules.dead.contains (vlanKey sl vlan) then 0 else
  match (sliceAt s sl).vlanOver.find? (fun o => o.index == vlan && visTo o.vis version) with
  | some o => o.image
  | none => tget 0 (sliceAt s sl).vlanBase vlan

/-- The VLAN image the draft sees. -/
def vlanDraft (s : State) (sl vlan : Nat) : Nat :=
  match (sliceAt s sl).vlanOver.find? (fun o => o.index == vlan && o.draft) with
  | some o => o.image
  | none => tget 0 (sliceAt s sl).vlanBase vlan

/-- Lookups of an image whose VALID is 0 find no entry: the image, or 0. -/
def dtFind (s : State) (sl table index version : Nat) : Nat :=
  let x := dtImage s sl table index version
  if bit x (dtValidBit table) then x else 0

/-- The action profile a record's number names in a version. -/
def profileOf (s : State) (sl n version : Nat) : Nat := profEff (dtImage s sl 5 n version)

/-! ### Prefixes -/

/-- The high `len` bits of an address of `w` bits. -/
def prefixBits (w len a : Nat) : Nat := a / 2 ^ (w - len)

/-- An address width. -/
def addrWidth (v6 : Bool) : Nat := if v6 then 128 else 32

/-- A prefix covers an address of its zone. -/
def PrefixEntry.covers (p : PrefixEntry) (zone : Nat) (v6 : Bool) (a : Nat) : Bool :=
  p.zone == zone && p.v6 == v6 && prefixBits (addrWidth v6) p.len a == prefixBits (addrWidth v6) p.len p.addr

/-- The longest prefix of a zone that the picked entries hold for an address (R170). -/
def longest (ps : List PrefixEntry) (zone : Nat) (v6 : Bool) (a : Nat) : Option PrefixEntry :=
  mostBy PrefixEntry.len (ps.filter (fun p => p.covers zone v6 a))

/-- The prefix lookup of a version. -/
def prefixLookup (s : State) (zone : Nat) (v6 : Bool) (a version : Nat) : Option PrefixEntry :=
  longest (s.rules.prefixes.filter (fun p => visTo p.vis version)) zone v6 a

/-! ### MAC tables -/

/-- Bucket of a (VLAN, MAC) (R172). -/
def macBucket (vlan mac : Nat) : Nat := crc32c (be 2 (vlan % 4096) ++ be 6 mac) % 65536

/-- The position of a station in a slice's table. -/
def macFind (x : SliceState) (vlan mac : Nat) : Option (Nat × MacEntry) :=
  let b := macBucket vlan mac
  (trange x.mac (b * 4) (b * 4 + 4)).find? (fun e => e.2.vlan == vlan && e.2.mac == mac)

/-- Dynamic entries naming a port, after a change. -/
def macCountAdd (x : SliceState) (port : Nat) : SliceState :=
  { x with macCount := tmod 0 x.macCount port (· + 1) }

/-- One dynamic entry of a port fewer. -/
def macCountSub (x : SliceState) (port : Nat) : SliceState :=
  { x with macCount := tmod 0 x.macCount port (· - 1) }

/-- Delete an entry of the MAC table, with its port's count. -/
def macErase (x : SliceState) (pos : Nat) : SliceState :=
  match tfind x.mac pos with
  | none => x
  | some e =>
    let x := { x with mac := tdel x.mac pos }
    if e.static_ then x else macCountSub x e.port

/-- The lowest free way of a bucket. -/
def macFreeWay (x : SliceState) (bucket : Nat) : Option Nat :=
  firstFrom (fun p => (tfind x.mac p).isNone) (bucket * 4) 4

/-- The 96-bit image of a MAC entry (Table 05-10). -/
def MacEntry.image (e : MacEntry) : Nat :=
  at_ 1 95 95 + at_ (b2n e.static_) 94 94 + at_ (b2n e.hit) 93 93 + at_ e.vlan 91 80 + at_ e.port 79 72 + at_ e.mac 47 0

/-! ### Versions -/

/-- The live versions of a slice: oldest to current. -/
def liveVersions (s : State) (sl : Nat) : List Nat :=
  let o := (sliceAt s sl).oldest
  (List.range ((s.rules.current + 65536 - o) % 65536 + 1)).map (fun k => (o + k) % 65536)

/-- A version is live in a slice. -/
def isLive (s : State) (sl v : Nat) : Bool := (liveVersions s sl).contains v

end Sys2Proof.Machine
end

