-- ==== Sys2Proof/Machine/LidOps.lean ====
section
/-! DEFINITION. What other blocks do to the Lid: posting frames, corrections, wrap carries, outstanding counts and gaps
(09/R289–R292, R305, R315; 02/R52, R67–R70). -/

namespace Sys2Proof.Machine

/-- Counter-bank parity of the open epoch (R50). -/
def parity (s : State) : Nat := s.lid.epoch.seq % 2

/-- The epoch sequence that a bank's counts belong to: the open epoch, or the closing one of the other parity. -/
def seqOfBank (s : State) (bank : Nat) : Nat :=
  if s.lid.epoch.seq % 2 = bank % 2 then s.lid.epoch.seq else s.lid.epoch.seq - 1

/-- Add to a 64-bit total, subtracting what is to be taken away. -/
def tot (x add sub : Nat) : Nat := wrap 64 (x + add + (2 ^ 64 - sub % 2 ^ 64))

/-- Add to and subtract from four totals. -/
def Counts.move (c add sub : Counts) : Counts :=
  ⟨tot c.billPkts add.billPkts sub.billPkts, tot c.billBytes add.billBytes sub.billBytes,
   tot c.voidPkts add.voidPkts sub.voidPkts, tot c.voidBytes add.voidBytes sub.voidBytes⟩

/-- The line of a zone in the image of a bank's epoch: copy × 2^19 + zone / 2. -/
def zoneLine (s : State) (zone bank : Nat) : Nat := seqOfBank s bank % 3 * 2 ^ 19 + zone / 2

/-- A line comes into the zone cache, of 16,384 lines; the one that came first leaves a full cache (R304). -/
def cacheLine (l : List Nat) (k : Nat) : List Nat := if l.contains k then l else (k :: l).take 16384

/-- Change a zone's totals in the image of a bank's epoch, through the zone cache. -/
def zoneMove (s : State) (zone bank : Nat) (add sub : Counts) : State :=
  let k := seqOfBank s bank % 3 * 2 ^ 20 + zone
  { s with lid := { s.lid with
      zones := tmod Counts.zero s.lid.zones k (fun c => c.move add sub),
      zoneCache := cacheLine s.lid.zoneCache (zoneLine s zone bank) } }

/-- Change a port's and a class's totals in the image of a bank's epoch. -/
def portMove (s : State) (port cls bank : Nat) (flowless : Bool) (add sub : Counts) : State :=
  let c := seqOfBank s bank % 3
  { s with lid := { s.lid with
      ports := tmod ⟨Counts.zero, Counts.zero⟩ s.lid.ports (c * 256 + port) (fun p =>
        ⟨p.all.move add sub, if flowless then p.flowless.move add sub else p.flowless⟩),
      classes := tmod Counts.zero s.lid.classes (c * 64 + cls) (fun t => t.move add sub) } }

/-- One frame of a length as billable or void. -/
def oneFrame (bill : Bool) (bytes : Nat) : Counts :=
  if bill then ⟨1, bytes, 0, 0⟩ else ⟨0, 0, 1, bytes⟩

/-- What a correction adds: the frame as void. -/
def Correction.add (c : Correction) : Counts := oneFrame false c.bytes

/-- What a correction takes away: the frame as it was counted. -/
def Correction.sub (c : Correction) : Counts := oneFrame c.count.billable c.count.bytes

/-- Counts from which others can be taken. -/
def Counts.holds (a b : Counts) : Bool :=
  decide (b.billPkts ≤ a.billPkts) && decide (b.billBytes ≤ a.billBytes) && decide (b.voidPkts ≤ a.voidPkts) &&
    decide (b.voidBytes ≤ a.voidBytes)

/-- Counts less others, plus more. -/
def Counts.swap (a add sub : Counts) : Counts :=
  ⟨a.billPkts - sub.billPkts + add.billPkts, a.billBytes - sub.billBytes + add.billBytes,
   a.voidPkts - sub.voidPkts + add.voidPkts, a.voidBytes - sub.voidBytes + add.voidBytes⟩

/-- Change the outstanding count of a slice and bank. -/
def outstandingAdd (s : State) (sl bank : Nat) : State :=
  { s with lid := { s.lid with outstanding := tmod 0 s.lid.outstanding (sl * 2 + bank) (· + 1) } }

/-- One outstanding frame fewer. -/
def outstandingSub (s : State) (sl bank : Nat) : State :=
  { s with lid := { s.lid with outstanding := tmod 0 s.lid.outstanding (sl * 2 + bank) (· - 1) } }

/-- A kind 7 gap touches a run of zones: the two make one run of consecutive zones. -/
def Gap.touches (g : Gap) (arg n : Nat) : Bool :=
  g.kind == 7 && decide (g.arg ≤ arg + n) && decide (arg ≤ g.arg + g.count)

/-- Add a run of zones to a list: the first entry that it touches becomes the run of all that it touches (R315). -/
def gapRun (l : List Gap) (arg n sec ns : Nat) : List Gap :=
  match l.find? (fun g => g.touches arg n) with
  | none => l ++ [⟨7, arg, n, sec, ns⟩]
  | some first =>
    let ts := l.filter (fun g => g.touches arg n)
    let lo := ts.foldl (fun x g => min x g.arg) arg
    let hi := ts.foldl (fun x g => max x (g.arg + g.count)) (arg + n)
    let before := l.takeWhile (fun g => !g.touches arg n)
    before ++ ⟨7, lo, hi - lo, first.sec, first.ns⟩ :: (l.drop before.length).filter (fun g => !g.touches arg n)

/-- Add a gap to a list: one entry per kind and argument, and for kind 7 one per run of consecutive zones (R315). -/
def gapInto (l : List Gap) (kind arg n sec ns : Nat) : List Gap :=
  if kind = 7 then gapRun l arg n sec ns
  else if l.any (fun g => g.kind == kind && g.arg == arg) then
    l.map (fun g => if g.kind == kind && g.arg == arg then { g with count := g.count + n } else g)
  else l ++ [⟨kind, arg, n, sec, ns⟩]

/-- A Lid event (Table 09-10, source 6): kind, argument, epoch. -/
def lidEvent (s : State) (kind arg seq : Nat) : State :=
  postEvent s 6 (le 1 kind ++ zeros 3 ++ le 4 arg ++ le 8 seq)

/-- A gap's entry in the Rim's log. -/
def gapLog (s : State) (seq kind arg n : Nat) : State :=
  rimLog s 0x12 false (le 8 seq ++ le 1 kind ++ le 3 arg ++ le 4 n ++ le 8 (servedSec s))

/-- What adding a gap raises and posts (R315): GAP in LID_EVENT, a Lid event of KIND 4, and the Rim's log entry. -/
def gapNotice (s : State) (seq kind arg n : Nat) : State :=
  lidEvent (gapLog (raiseEv s .lidEvent [] [3]) seq kind arg n) 4 kind seq

/-- Report an integrity gap of the open epoch (R315). -/
def gapOpen (s : State) (kind arg n : Nat) : State :=
  if !s.lid.opened then s
  else
  let gs := gapInto s.lid.epoch.gaps kind arg n (servedSec s) (servedNs s)
  gapNotice { s with lid := { s.lid with epoch := { s.lid.epoch with gaps := gs } } } s.lid.epoch.seq kind arg n

/-- The seal body of a close is made: a gap found from now on is no longer in it. -/
def Closing.hashed (c : Closing) : Bool := c.phase == .sign || c.phase == .publish

/-- Report an integrity gap of the closing epoch, when there is one: in its seal while the body is not yet made, else in
that of the open epoch. -/
def gapClosing (s : State) (kind arg n : Nat) : State :=
  match s.lid.closing with
  | none => s
  | some c =>
    if c.hashed then gapOpen s kind arg n
    else
    let gs := gapInto c.epoch.gaps kind arg n (servedSec s) (servedNs s)
    gapNotice { s with lid := { s.lid with closing := some { c with epoch := { c.epoch with gaps := gs } } } }
      c.epoch.seq kind arg n

end Sys2Proof.Machine
end

