-- ==== Sys2Proof/Machine/Tasks.lean ====
section
/-! DEFINITION. Work items of the task scheduler: posting an internal task (13/R395), moving complete items to the ready
lists (R398), and taking an item off the engine that runs it. -/

namespace Sys2Proof.Machine

/-- A header that stands in an item which is no command. -/
def CmdHeader.zero : CmdHeader := ⟨0, 0, 0, 0, 0, 0, 0, 0, 0, false, 0, true, none⟩

/-- Change the scheduler. -/
def withSched (s : State) (f : SchedState → SchedState) : State := { s with sched := f s.sched }

/-- Items on the ready lists. -/
def SchedState.listed (x : SchedState) : Nat := (x.ready.map List.length).foldl (· + ·) 0

/-- The operands an item needs have all arrived (R396). -/
def Item.complete (i : Item) : Bool := i.need == i.have_

/-- The first complete item of the store joins the tail of its priority's ready list. -/
def readyOne (x : SchedState) (tick : Nat) : SchedState :=
  match x.store.find? Item.complete with
  | none => x
  | some i =>
    if x.listed < 4096 then
      let l := x.ready.getD i.prio []
      let j := { i with listed := tick }
      { x with store := x.store.erase i, ready := setAt x.ready i.prio (l ++ [j]) }
    else x

/-- Complete items join the ready lists while there is room (R398); `n` bounds how many. -/
def readyAll : Nat → SchedState → Nat → SchedState
  | 0, x, _ => x
  | n + 1, x, t => readyAll n (readyOne x t) t

/-- A producer's item finds an entry of the matching store: 64 are kept for tasks 0xF001 to 0xF003 (R407). -/
def SchedState.admits (x : SchedState) (i : Item) : Bool :=
  decide (x.store.length + (if 0xF001 ≤ i.code ∧ i.code ≤ 0xF003 then 0 else 64) < 16384)

/-- Postings that have waited take the entries that are free, in order. -/
def takeStalled : Nat → SchedState → SchedState
  | 0, x => x
  | n + 1, x =>
    match x.stalled.find? x.admits with
    | none => x
    | some i => takeStalled n { x with stalled := x.stalled.erase i, store := x.store ++ [i] }

/-- Move every complete item that finds room. -/
def settleReady (s : State) : State :=
  withSched s (fun x =>
    let x := takeStalled x.stalled.length x
    readyAll (x.store.filter Item.complete).length x s.time.tick)

/-- An internal task's item (Table 13-1). -/
def taskItem (s : State) (code prio : Nat) (params : List Byte) : Item :=
  { kind := .task, code := code, prio := prio, header := CmdHeader.zero, params := params, need := 1, have_ := 1,
    entered := s.time.tick, listed := s.time.tick, cursor := 0, aborted := false, lastDie := none, seq := s.sched.nextSeq }

/-- A block posts an internal task; it waits while no entry may be taken for it (R407). -/
def raiseTask (s : State) (code prio : Nat) (params : List Byte) : State :=
  settleReady (withSched s (fun x => { x with
    stalled := x.stalled ++ [taskItem s code prio params], nextSeq := x.nextSeq + 1 }))

/-! ### Trace records (R498) -/

/-- Destination of the stream in force: 0 off, 1 lane, 2 HBM buffer. -/
def traceDest (s : State) : Nat := if bits s.trace.cfg 31 30 = 3 then 0 else bits s.trace.cfg 31 30

/-- Bytes of the records queued. -/
def traceQueued (s : State) : Nat := (s.trace.queue.map (fun r => r.2.length)).foldl (· + ·) 0

/-- A record is offered to the stream: it enters the queue, or is dropped when the queue is full, the destination is off
or the HBM buffer is full with WRAP 0 (R498, R501). -/
def offerTrace (s : State) (r : List Byte) : State :=
  if traceDest s = 0 ∨ traceQueued s + r.length > 65536 ∨ (traceDest s = 2 ∧ s.trace.full) then
    let s := cntDev s 0xA2
    { s with trace := { s.trace with dropped := sat 32 (s.trace.dropped + 1) } }
  else { s with trace := { s.trace with queue := s.trace.queue ++ [(s.time.tick, r)] } }

/-! ### Trace records of the engines (13/R421, 17/R498) -/

/-- An engine offers a record: taken by the stream when SRC_ENG is 1 and both masks admit it. -/
def engineTrace (s : State) (kind engine uaddr mcyc arg : Nat) (i : Item) : State :=
  if bit s.trace.cfg 27 && bit (inForce s .trcEng []) (15 + kind) && bit (inForce s .trcEng []) engine then
    offerTrace s (le 1 kind ++ le 1 (at_ engine 3 0 + at_ i.prio 5 4) ++ le 2 i.code
      ++ le 4 (if i.kind == .task then 0 else i.header.tag) ++ le 4 (at_ uaddr 16 0 + at_ mcyc 29 17) ++ le 4 arg)
  else s

/-- The engine of a place. -/
def engineAt (s : State) (e : Nat) : Engine := s.sched.engines.getD e Engine.reset

/-- Change an engine. -/
def modEngine (s : State) (e : Nat) (f : Engine → Engine) : State :=
  withSched s (fun x => { x with engines := setAt x.engines e (f (x.engines.getD e Engine.reset)) })

/-- The engine goes idle; what it ran is gone. -/
def Engine.idle (e : Engine) : Engine := { e with item := none, uaddr := 0, mcyc := 0, stack := [], overrun := false }

/-- An engine's item ends with a status: traced, and the engine goes idle. -/
def engineEnd (s : State) (e status : Nat) : State :=
  match (engineAt s e).item with
  | none => s
  | some i => modEngine (engineTrace s 5 e (engineAt s e).uaddr 0 status i) e Engine.idle

/-- The engine that runs an item of a kind. -/
def engineOf (s : State) (p : Item → Bool) : Option Nat :=
  s.sched.engines.findIdx? (fun e => match e.item with | some i => p i | none => false)

/-- An item of a kind waits in the store or on a ready list. -/
def itemWaits (s : State) (p : Item → Bool) : Bool :=
  s.sched.stalled.any p || s.sched.store.any p || s.sched.ready.any (fun l => l.any p)

/-- Take an item of a kind off its engine: the state with that engine idle; the state as it is when no such item is in
the scheduler; nothing when it still waits for an engine. -/
def takeItem (s : State) (p : Item → Bool) : Option State :=
  match engineOf s p with
  | some e => some (engineEnd s e 0)
  | none => if itemWaits s p then none else some s

/-- The task of a code. -/
def isTask (code : Nat) (i : Item) : Bool := i.kind == .task && i.code == code

/-- Run a task's work: nothing while its item waits for an engine. -/
def runTask (s : State) (code : Nat) (work : State → State) : State :=
  match takeItem s (isTask code) with
  | none => s
  | some s => work s

/-! ### Timed functions (13/R404, R406) -/

/-- A timed function of Table 13-3 may act: its timer has been released, or none is held for it. -/
def due (s : State) (f : Nat) : Bool := s.sched.released.contains f || !s.sched.timers.any (fun t => t.task == f)

/-- The release of a timed function has had its effect. -/
def acted (s : State) (f : Nat) : State := withSched s (fun x => { x with released := x.released.filter (· != f) })

end Sys2Proof.Machine
end

