-- ==== Sys2Proof/Machine/Versions.lean ====
section
/-! DEFINITION. Rule versions (04/R134–R138): heads and snapshots that carry a version, retirement, the draft column and
its digest (09/R311), and the withy's folding (05/R166). -/

namespace Sys2Proof.Machine

/-! ### Clearing and copying columns -/

/-- A visibility with the bit of a version's column cleared. -/
def visClear (vis version : Nat) : Nat := withBit vis (version % 4) false

/-- A visibility with the bit of a version's column set to a value. -/
def visSet (vis version : Nat) (b : Bool) : Nat := withBit vis (version % 4) b

/-- The visibility arithmetic of one entry: what its VIS and DRAFT become. -/
abbrev VisMap := Nat → Bool → Nat × Bool

/-- Retiring a version clears its column. -/
def visRetire (version : Nat) : VisMap := fun v d => (visClear v version, d)

/-- Step 3 of a commit copies DRAFT into the column of the new version. -/
def visCommit (version : Nat) : VisMap := fun v d => (visSet v version d, d)

/-- Abandoning the draft copies the current version's bit into DRAFT. -/
def visAbandon (current : Nat) : VisMap := fun v _ => (v, visTo v current)

/-- A versioned entry under a map. -/
def Versioned.vmap (m : VisMap) (x : Versioned) : Versioned := { x with vis := (m x.vis x.draft).1, draft := (m x.vis x.draft).2 }
def PatternEntry.vmap (m : VisMap) (x : PatternEntry) : PatternEntry :=
  { x with vis := (m x.vis x.draft).1, draft := (m x.vis x.draft).2 }
def TcamEntry.vmap (m : VisMap) (x : TcamEntry) : TcamEntry :=
  { x with vis := (m x.vis x.draft).1, draft := (m x.vis x.draft).2 }
def Override.vmap (m : VisMap) (x : Override) : Override :=
  { x with vis := (m x.vis x.draft).1, draft := (m x.vis x.draft).2 }
def PrefixEntry.vmap (m : VisMap) (x : PrefixEntry) : PrefixEntry :=
  { x with vis := (m x.vis x.draft).1, draft := (m x.vis x.draft).2 }

/-- The image that stands for the image of a built-in step or transition, which the spec does not publish: its number
above every image a host can write. -/
def builtinMark (i : Nat) : Nat := 2 ^ 128 + i

/-- The image a step entry reads as. -/
def stepImage (x : Nat) : Nat := if 2 ^ 128 ≤ x then Config.builtinStep (x - 2 ^ 128) else x

/-- The image a transition entry reads as. -/
def transImage (x : Nat) : Nat := if 2 ^ 128 ≤ x then Config.builtinTrans (x - 2 ^ 128) else x

/-- The steps below 96 and transitions below 128 hold the built-in program (R115), visible to version 0 and the draft
until something changes them: its entries, listed, so that a column operation reaches them. -/
def builtinSteps : Table Versioned := (List.range 96).map (fun i => (i, ⟨builtinMark i, 1, true⟩))
def builtinTrans : Table Versioned := (List.range 128).map (fun i => (i, ⟨builtinMark i, 1, true⟩))

/-- A step entry; an unlisted one below 96 is the built-in program's, any other is free. -/
def stepEntry (x : SliceState) (i : Nat) : Versioned :=
  tget (if i < 96 then ⟨builtinMark i, 1, true⟩ else ⟨0, 0, false⟩) x.steps i

/-- A transition entry, likewise below 128. -/
def transEntry (x : SliceState) (i : Nat) : Versioned :=
  tget (if i < 128 then ⟨builtinMark i, 1, true⟩ else ⟨0, 0, false⟩) x.trans i

/-- A table with the built-in entries listed under those already there. -/
def withDefaults (d t : Table Versioned) : Table Versioned :=
  d.foldl (fun a e => match tfind a e.1 with | some _ => a | none => tins a e.1 e.2) t

/-- Every versioned entry of a slice under a map; an entry of a keyed store left with no bit set is free. -/
def SliceState.vmap (m : VisMap) (x : SliceState) : SliceState :=
  { x with
    steps := (withDefaults builtinSteps x.steps).map (fun e => (e.1, e.2.vmap m)),
    trans := (withDefaults builtinTrans x.trans).map (fun e => (e.1, e.2.vmap m)),
    access := (x.access.map (fun e => (e.1, e.2.vmap m))).filter (fun e => e.2.vis != 0 || e.2.draft),
    patterns := (x.patterns.map (fun e => (e.1, e.2.vmap m))).filter (fun e => e.2.vis != 0 || e.2.draft),
    tcam := (x.tcam.map (fun e => (e.1, e.2.vmap m))).filter (fun e => e.2.vis != 0 || e.2.draft),
    vlanOver := (x.vlanOver.map (Override.vmap m)).filter (fun o => o.vis != 0 || o.draft) }

/-- Every versioned entry of the per-device tables under a map. -/
def RuleState.vmap (m : VisMap) (r : RuleState) : RuleState :=
  { r with
    overrides := (r.overrides.map (Override.vmap m)).filter (fun o => o.vis != 0 || o.draft),
    prefixes := (r.prefixes.map (PrefixEntry.vmap m)).filter (fun p => p.vis != 0 || p.draft) }

/-- Apply a change to each of the eight slices. -/
def allSlices (s : State) (f : SliceState → SliceState) : State :=
  (List.range 8).foldl (fun s sl => modSlice s sl f) s

/-! ### Heads and snapshots (R138, R188) -/

/-- A head enters Parse on its first pass carrying a version. -/
def headEnter (s : State) (sl version : Nat) : State :=
  modSlice s sl (fun x => { x with heads := tmod 0 x.heads (version % 4) (· + 1) })

/-- No slice holds the version live. -/
def retiredEverywhere (s : State) (version : Nat) : Bool := (List.range 8).all (fun sl => !isLive s sl version)

/-- Retire the oldest version of a slice while it may (R138): not current and carried by no head. -/
def retireFrom : Nat → State → Nat → State
  | 0, s, _ => s
  | n + 1, s, sl =>
    let v := (sliceAt s sl).oldest
    if v != s.rules.current && tget 0 (sliceAt s sl).heads (v % 4) == 0 then
      let s := modSlice s sl (fun x => { x.vmap (visRetire v) with oldest := (v + 1) % 65536 })
      let s := postEvent s 7 (le 2 v ++ le 1 sl ++ zeros 1)
      let s := if retiredEverywhere s v then { s with rules := s.rules.vmap (visRetire v) } else s
      retireFrom n (raiseTask s 0xF006 1 []) sl
    else s

/-- Retire what a slice may retire: at most four versions live. -/
def retire (s : State) (sl : Nat) : State := retireFrom 4 s sl

/-- A head no longer carries its version. -/
def headLeave (s : State) (sl version : Nat) : State :=
  retire (modSlice s sl (fun x => { x with heads := tmod 0 x.heads (version % 4) (· - 1) })) sl

/-- A frame begins or ends to carry a snapshot resolved under a version (06/R188). -/
def snapAdd (s : State) (sl version : Nat) : State :=
  modSlice s sl (fun x => { x with snaps := tmod 0 x.snaps version (· + 1) })

/-- One snapshot of a version fewer. -/
def snapSub (s : State) (sl version : Nat) : State :=
  modSlice s sl (fun x => { x with snaps := tmod 0 x.snaps version (· - 1) })

/-- Quarantined IDs whose older versions have retired and lost their snapshots wait for the next sweep pass (06/R189
step 2): the deleting version is the oldest live one everywhere and no older snapshot is left. -/
def quarantineClear (s : State) (v : Nat) : Bool :=
  (List.range 8).all (fun sl =>
    let x := sliceAt s sl
    decide ((x.oldest + 65536 - v) % 65536 < 32768) &&
    x.snaps.all (fun e => decide ((e.1 + 65536 - v) % 65536 < 32768)))

/-! ### The draft digest (09/R311) -/

/-- An accepted edit enters the draft's running digest (Table 09-3). -/
def draftEdit (s : State) (source slices what : Nat) (data : List Byte) : State :=
  let rec_ := le 1 source ++ le 1 slices ++ zeros 2 ++ le 4 what ++ le 4 data.length ++ data
  { s with rules := { s.rules with draftDigest := sha384 ([0x04] ++ s.rules.draftDigest ++ rec_) } }

/-- The digest of a version; version 0x0000 after reset has 48 zero bytes. -/
def versionDigest (s : State) (v : Nat) : List Byte := alook (zeros 48) s.rules.versionDigests v

/-- Abandoning the draft (R135). -/
def abandonDraft (s : State) : State :=
  let m := visAbandon s.rules.current
  let s := allSlices s (fun x => x.vmap m)
  { s with rules := { s.rules.vmap m with draftDigest := versionDigest s s.rules.current } }

/-! ### Withy folding (R166) -/

/-- The draft and every live version of every slice can see an override. -/
def seenByAll (s : State) (o : Override) (slices : List Nat) : Bool :=
  o.draft && slices.all (fun sl => (liveVersions s sl).all (visTo o.vis))

/-- Fold one per-device override into both bases, or leave it. -/
def foldOverride (s : State) (o : Override) : State :=
  if seenByAll s o (List.range 8) then
    let k := dtKey o.table o.index
    { s with rules := { s.rules with
        baseWest := tput 0 s.rules.baseWest k o.image,
        baseEast := tput 0 s.rules.baseEast k o.image,
        overrides := s.rules.overrides.erase o } }
  else s

/-- Fold one VLAN override of a slice. -/
def foldVlan (s : State) (sl : Nat) (o : Override) : State :=
  if seenByAll s o [sl] then
    modSlice s sl (fun x => { x with vlanBase := tput 0 x.vlanBase o.index o.image, vlanOver := x.vlanOver.erase o })
  else s

/-- The withy folds what it can. -/
def withyFold (s : State) : State :=
  let s := s.rules.overrides.foldl foldOverride s
  (List.range 8).foldl (fun s sl => (sliceAt s sl).vlanOver.foldl (fun s o => foldVlan s sl o) s) s

end Sys2Proof.Machine
end

