-- ==== Sys2Proof/Machine/Frames.lean ====
section
/-! DEFINITION. Frames in flight: making, finding and dropping them, what a frame offers to the trace stream (17/R497,
R498), and its tail verdict (07/R252; 02/R67, R70). -/

namespace Sys2Proof.Machine

/-! ### Blank parts of a frame -/

/-- A head that nothing has parsed. -/
def HeadInfo.zero : HeadInfo := ⟨Key.zero, false, false, false, false, false, 0, 0, 0, 0, 0, 0, 0, [], false, zeros 80, 0, none, none, none, none⟩

/-- No action result: verdict forward, class 0, profile 0, next hop unresolved. -/
def Result.zero : Result := ⟨0, false, 0, 0, 0xFFFFF, false, 0, false, false⟩

/-- A head that classification has not reached. -/
def ClassInfo.zero : ClassInfo :=
  ⟨false, Result.zero, false, false, false, false, false, 0, none, false, .none, none, false, none, 0, 0, 0, false, []⟩

/-- A frame that no lookup has counted. -/
def CountInfo.zero : CountInfo := ⟨false, false, 0, 0, 0, 0, false, 0, false⟩

/-- The times of a frame that is complete in the receive buffer at a tick. -/
def FrameTimes.at (t : Nat) : FrameTimes := ⟨t, none, t, t, t, t, none, 0, t, 0⟩

/-- A frame as it enters the device. -/
def Frame.fresh (port slice origin : Nat) (bytes : List Byte) (fcs tick : Nat) : Frame where
  port := port
  slice := slice
  origin := origin
  data := bytes
  rx := bytes
  fcs := fcs
  rxLen := bytes.length + 4
  rxTick := tick
  looped := false
  errored := false
  stage := .received
  tail := .pending
  pass := 0
  version := 0
  head := HeadInfo.zero
  cls := ClassInfo.zero
  lookup := .none
  lookupHow := 0
  found := none
  handle := 0
  twin := 0
  result := Result.zero
  count := CountInfo.zero
  deepScan := false
  job := none
  deepQueued := false
  flowless := false
  egress := []
  tc := 0
  mc := false
  good := false
  fcsDiff := 0
  chgEnd := 0
  ipOff := none
  innerOff := none
  ecnCap := false
  modified := false
  policed := 0
  cellList := []
  refs := 0
  cut := false
  ecn := false
  tagged := false
  punt := none
  void := false
  admitNo := 0
  times := FrameTimes.at tick
  nextHop := 0xFFFFF
  rxStamp := []
  tsKind := 0
  tsId := 0
  tsOff := 0
  tsCks := 0

/-- TX_LEN: bytes as sent, FCS included. -/
def Frame.txLen (f : Frame) : Nat := f.data.length + 4

/-! ### The table of frames -/

/-- A frame by its number. -/
def frameAt (s : State) (id : Nat) : Option Frame := tfind s.frames id

/-- Change a frame. -/
def modFrame (s : State) (id : Nat) (g : Frame → Frame) : State :=
  match frameAt s id with
  | none => s
  | some f => { s with frames := tins s.frames id (g f) }

/-- Take a frame out of the device. -/
def dropFrame (s : State) (id : Nat) : State := { s with frames := tdel s.frames id }

/-- Put a new frame into the device: its number is the next one. -/
def addFrame (s : State) (f : Frame) : State :=
  { s with frames := tins s.frames s.nextFrame f, nextFrame := s.nextFrame + 1 }

/-- Do something with a frame that is there; nothing without it. -/
def onFrame (s : State) (id : Nat) (g : Frame → State) : State :=
  match frameAt s id with
  | none => s
  | some f => g f

/-! ### Order (01/R28) -/

/-- Two frames are of one flow and entered on one port. -/
def sameFlow (a b : Frame) : Bool := a.head.keyed && b.head.keyed && a.port == b.port && a.head.key == b.head.key

/-- A frame would overtake an earlier one of its flow and port that is still `at_` some earlier point. -/
def overtakes (s : State) (id : Nat) (f : Frame) (at_ : Frame → Bool) : Bool :=
  s.frames.any (fun e => decide (e.1 < id) && e.2.origin == 0 && sameFlow e.2 f && at_ e.2)

/-- A frame's passes are not over: its head is parsed, or on its way to another pass. -/
def Frame.inPasses (f : Frame) : Bool := f.stage == .parsed || f.stage == .recirculating

/-! ### Tag records (R498) -/

/-- A number of ticks in cc, cut to 16 bits by saturation. -/
def ccSpan (a b : Nat) : Nat := sat 16 (ccOf (b - a))

/-- The tag record of a frame (Table 17-4). -/
def Frame.tagBytes (f : Frame) (now outcome owner : Nat) : List Byte :=
  let t := f.times
  let k := f.head.key
  le 1 0x80 ++ le 1 (at_ f.slice 2 0 + at_ f.pass 4 3) ++ le 1 f.port ++ le 1 outcome ++ le 4 f.handle ++ le 2 f.version
    ++ le 1 (at_ (if f.head.keyed then bankOf k.bucket else 0) 6 0 + at_ (b2n f.mc) 7 7) ++ le 1 f.lookupHow
    ++ le 1 f.head.malReason ++ le 1 (if f.mc then 0 else f.egress.headD 0)
    ++ le 1 (at_ f.tc 2 0 + at_ (b2n f.cut) 3 3 + at_ (b2n f.ecn) 4 4 + at_ f.result.verdict 6 5) ++ le 1 t.engine
    ++ le 8 t.t0 ++ le 2 (ccSpan t.ready t.t0) ++ le 2 (ccSpan t.t0 t.parseEnd) ++ le 2 (ccSpan t.t0 t.classifyEnd)
    ++ le 2 (ccSpan t.t0 t.lookupEnd) ++ le 2 (sat 16 (ccOf t.missTicks)) ++ le 2 (ccSpan t.t0 t.rewriteEnd)
    ++ le 2 (ccSpan t.t0 now) ++ le 2 (at_ f.rxLen 13 0) ++ le 4 k.zone ++ le 4 owner
    ++ le 4 (if f.head.keyed then k.h1 else 0) ++ le 4 f.nextHop ++ zeros 8

/-- A tagged frame produces its record once, at admission or discard (R497). -/
def tagRecord (s : State) (id outcome owner : Nat) : State :=
  onFrame s id (fun f =>
    if f.tagged then
      let s := cntDev s 0xA0
      let s := if bit s.trace.cfg 28 then offerTrace s (f.tagBytes s.time.tick outcome owner) else s
      modFrame s id (fun f => { f with tagged := false })
    else s)

/-! ### Verdicts -/

/-- A learn joins a slice's learn engine queue of 1,024, or is discarded (05/R175). -/
def queueMacLearn (s : State) (sl : Nat) (l : MacLearn) : State :=
  if (sliceAt s sl).macQueue.length < 1024 then modSlice s sl (fun x => { x with macQueue := x.macQueue ++ [l] })
  else cntSl s sl 0x27D

/-- A VLAN's entry of a slice has LEARN_EN 1. -/
def vlanLearns (s : State) (sl vlan version : Nat) : Bool :=
  let x := vlanImage s sl vlan version
  bit x 511 && bit x 510

/-- The ingress slice learns the source of a frame whose verdict is good (05/R173, R174). -/
def learnAtIngress (s : State) (f : Frame) : State :=
  match f.cls.l2Src with
  | none => s
  | some l =>
    if f.cls.l2Need && vlanLearns s f.slice l.vlan f.version && fld s .l2Port (portIx f.port) 31 31 == 1
    then queueMacLearn s f.slice l else s

/-- A slice that transmits a frame from another slice learns its source when it is marked learnable (05/R173). -/
def learnAtEgress (s : State) (f : Frame) (port : Nat) : State :=
  match f.cls.l2Src with
  | none => s
  | some l =>
    if f.cls.learnable && sliceOf port != f.slice && vlanLearns s (sliceOf port) l.vlan f.version
    then queueMacLearn s (sliceOf port) l else s

/-- The frame's verdict is good: its source may be learned, its outstanding count falls (02/R70). -/
def verdictGood (s : State) (id : Nat) : State :=
  onFrame s id (fun f =>
    let s := learnAtIngress s f
    if f.count.posted && !f.count.settled then
      let s := outstandingSub s f.slice f.count.bank
      modFrame s id (fun f => { f with count := { f.count with settled := true } })
    else s)

/-- The frame becomes void: a billable count takes a correction, which settles it when applied; a void one settles at
once, unless fewer bytes were stored than it was counted with (02/R67, R70; 00/R19). -/
def verdictBad (s : State) (id : Nat) : State :=
  onFrame s id (fun f =>
    let s := modFrame s id (fun f => { f with void := true, count := { f.count with settled := true } })
    if f.count.posted && !f.count.settled then
      if f.count.billable || f.rxLen != f.count.bytes then
        { s with lid := { s.lid with
            corrections := s.lid.corrections ++ [⟨f.count, f.port, f.slice, f.flowless, f.rxLen⟩] } }
      else outstandingSub s f.slice f.count.bank
    else if f.flowless && !f.count.posted && !f.count.settled then outstandingSub s f.slice f.count.bank
    else s)

/-- A head that has not completed its final Rewrite still carries its version (04/R138). -/
def Frame.carries (f : Frame) : Bool :=
  f.origin == 0 && (match f.stage with
    | .parsed | .recirculating => true
    | _ => false)

/-- A frame that Rewrite has completed carries a snapshot (06/R188). -/
def Frame.snapped (f : Frame) : Bool :=
  f.origin == 0 && (match f.stage with
    | .policing | .admitting | .queued | .punted => !f.looped && f.head.malAction != 1
    | _ => false)

/-- What leaves with a frame besides its cells: the version its head or its deep scan carries, its snapshot, its places
in the slice's queues. -/
def releaseFrame (s : State) (id : Nat) : State :=
  onFrame s id (fun f =>
    let s := modSlice s f.slice (fun x => { x with recirc := x.recirc.erase id, deepQueue := x.deepQueue.erase id })
    let s := { s with egress := { s.egress with polWait := s.egress.polWait.erase id } }
    let s := dropFrame s id
    let s := if f.snapped then snapSub s f.slice f.version else s
    if f.carries || f.deepQueued then headLeave s f.slice f.version else s)

/-- A frame is discarded before it holds cells: tag record, bad verdict, and it is gone. -/
def discardHead (s : State) (id outcome : Nat) : State :=
  releaseFrame (verdictBad (tagRecord s id outcome 0) id) id

end Sys2Proof.Machine
end

