-- ==== Sys2Proof/Machine/Stamps.lean ====
section
/-! DEFINITION. Timestamps (10/R325, R335–R339) and the geometry of ports (11/R344). -/

namespace Sys2Proof.Machine

/-! ### Domains and records -/

/-- The difference of two ticks as a signed 64-bit value. -/
def tickDiff (n m : Nat) : Int := sint 64 (wrap 64 (n + 2 ^ 64 - wrap 64 m))

/-- The time of a domain at a tick: BASE + (n - ANCH) × RATE, in units of 2^-32 ns (R325). -/
def Domain.timeAt (d : Domain) (n : Nat) : Int := d.base + tickDiff n d.anch * (d.rate : Int)

/-- Domain A (0) or B (1). -/
def domainAt (s : State) (d : Nat) : Domain := s.time.domains.getD d Domain.reset

/-- A timestamp record (Table 10-1). -/
def stampRecord (tick : Nat) (t : Int) (base : Nat) : List Byte :=
  let ns := timeNs t
  let frac := (t % nsUnit).toNat / 65536
  le 8 tick ++ le 8 (ns / 1000000000) ++ le 4 (ns % 1000000000) ++ le 2 frac ++ le 2 base

/-- The record of a timestamp that was not sent: TIMEBASE 3, every other field zero. -/
def stampNone : List Byte := zeros 22 ++ le 2 3

/-- The served-time record of now. -/
def servedRecord (s : State) : List Byte := stampRecord s.time.tick s.time.served 2

/-- TS_DOM, TS_RX_ADJ and TS_TX_ADJ of a port as last written. -/
def stampWritten (s : State) (port : Nat) : Nat × Nat × Nat :=
  (fld s .tsCfg [port] 31 31, inForce s .tsRxAdj [port], inForce s .tsTxAdj [port])

/-- TS_DOM and the adjustments that timestamps of this tick take: a change applies from the next tick (R336). -/
def stampSet (s : State) (port : Nat) : Nat × Nat × Nat :=
  if s.time.stampTick = s.time.tick then (tfind s.time.stampOld port).getD (stampWritten s port) else stampWritten s port

/-- The domain that a port's timestamps take now. -/
def stampDomain (s : State) (port : Nat) : Nat := (stampSet s port).1

/-- A write of TS_CFG, TS_RX_ADJ or TS_TX_ADJ keeps what this tick's timestamps still take. -/
def writeStampSet (s : State) (r : RegName) (ix : List Nat) (v : Nat) : State :=
  let port := ix.getD 0 0
  let old := if s.time.stampTick = s.time.tick then s.time.stampOld else []
  landWrite { s with time := { s.time with
    stampTick := s.time.tick,
    stampOld := if (tfind old port).isSome then old else tins old port (stampWritten s port) } } r ix v

/-- The time of a port's domain now, plus its receive or transmit adjustment in units of 2^-8 ns (R336). -/
def portTime (s : State) (port : Nat) (transmit : Bool) : Int :=
  let x := stampSet s port
  (domainAt s x.1).timeAt s.time.tick + sint 32 (if transmit then x.2.2 else x.2.1) * 16777216

/-- The timestamp record of a frame that a port receives now. -/
def portStamp (s : State) (port : Nat) : List Byte := stampRecord s.time.tick (portTime s port false) (stampDomain s port)

/-- A time event (Table 10-5). -/
def timeEventPost (s : State) (kind src id : Nat) (rec_ : List Byte) : State :=
  postEvent s 5 (le 1 kind ++ le 1 src ++ le 2 id ++ zeros 4 ++ rec_)

/-! ### Port modes (Table 11-1) -/

/-- Lanes per port of a mode. -/
def modeLanes (mode : Nat) : Nat :=
  match mode with
  | 1 | 5 => 2
  | 2 | 6 => 4
  | 3 | 7 => 8
  | _ => 1

/-- Port rate of a mode in Gb/s. -/
def modeRate (mode : Nat) : Nat :=
  match mode with
  | 0 | 5 => 200
  | 1 | 6 => 400
  | 2 | 7 => 800
  | 3 => 1600
  | 4 => 100
  | 8 => 50
  | _ => 25

/-- The mode in force of a port's macro. -/
def modeOf (s : State) (port : Nat) : Nat := fld s .macroMode [port / 8] 3 0

/-- The rate of a port in Gb/s. -/
def portRate (s : State) (port : Nat) : Nat := modeRate (modeOf s port)

/-- Lanes of a port. -/
def portLanes (s : State) (port : Nat) : Nat := modeLanes (modeOf s port)

/-- A number is that of a port: the first lane of one in its macro's mode (R9). -/
def isPort (s : State) (p : Nat) : Bool := decide (p < 256) && p % portLanes s p == 0

/-- The ports of a macro. -/
def macroPorts (s : State) (m : Nat) : List Nat := ((List.range 8).map (fun i => m * 8 + i)).filter (isPort s)

/-- A port's state. -/
def portAt (s : State) (p : Nat) : PortState := tget PortState.reset s.line.ports p

/-- CAUSE of a port (R355): the reason for LINK_FAILED, or that of the latest drop while it trains or is UP. -/
def PortState.causeShown (x : PortState) : Nat := if x.state = 0 then x.cause else x.dropCause

/-- Change a port's state. -/
def modPort (s : State) (p : Nat) (f : PortState → PortState) : State :=
  { s with line := { s.line with ports := tupd PortState.reset s.line.ports p f } }

/-- A lane's state. -/
def laneAt (s : State) (l : Nat) : LaneState := tget LaneState.reset s.line.lanes l

/-- Change a lane's state. -/
def modLane (s : State) (l : Nat) (f : LaneState → LaneState) : State :=
  { s with line := { s.line with lanes := tupd LaneState.reset s.line.lanes l f } }

/-- The lanes of a port. -/
def lanesOf (s : State) (p : Nat) : List Nat := (List.range (portLanes s p)).map (fun i => p + i)

/-- A macro is powered and its chiplet too. -/
def macroUp (s : State) (m : Nat) : Bool := bit s.power.macros m && bit s.power.chiplets (m / 4)

/-- A port is UP. -/
def portUp (s : State) (p : Nat) : Bool := isPort s p && (portAt s p).state == 2

/-- An egress port is closed (07/R260): LINK_FAILED, or its macro powered down. -/
def portClosed (s : State) (p : Nat) : Bool := !isPort s p || (portAt s p).state == 0 || !macroUp s (p / 8)

/-- The least lead of a cut-through frame in units (Table 07-6). -/
def minLead (rate : Nat) : Nat :=
  if rate ≥ 1600 then 17 else if rate ≥ 800 then 9 else if rate ≥ 400 then 5 else if rate ≥ 200 then 3 else 2

/-- The credit in force of an egress queue (07/R245). -/
def creditOf (s : State) (port cls : Nat) : Nat := max (fld s .eqCredit [port, cls] 7 0) (minLead (portRate s port))

/-- LEAD of a port's queue (07/R254). -/
def leadOf (s : State) (port cls : Nat) : Nat :=
  min (max (fld s .egrCt (portIx port) 4 0) (minLead (portRate s port))) (creditOf s port cls)

end Sys2Proof.Machine
end

