-- ==== Sys2Proof/Machine/Cells.lean ====
section
/-! DEFINITION. Creel, the pool manager (07/R228–R240): cells, owners, the admission of a frame's first cell, no-cell
drops, virtual output queues and references. -/

namespace Sys2Proof.Machine

/-! ### Bytes that have come -/

/-- Bytes of a frame, FCS included, that have been received by a tick: its head when FRAME_RECEIVE came, then at the port's
rate, and all of it from its tail on. -/
def arrivedBy (s : State) (f : Frame) (t : Nat) : Nat :=
  if f.origin ≠ 0 ∨ (f.times.tail.map (fun x => decide (x ≤ t))).getD false then f.rxLen
  else min (f.rxLen - 1) (256 + portRate s f.port * (t - f.rxTick) / 10)

/-- Bytes of a frame that have been received. -/
def arrived (s : State) (f : Frame) : Nat := if f.tail != .pending then f.rxLen else arrivedBy s f s.time.tick

/-- Bytes of an admitted frame, as sent, that are stored: the head that Rewrite made, and what has come of the rest (R229). -/
def storedBytes (s : State) (f : Frame) : Nat := f.txLen - (f.rxLen - arrived s f)

/-- A slice's cell store. -/
def storeAt (s : State) (sl : Nat) : CellStore := tget CellStore.reset s.cells sl

/-- Replace a slice's cell store. -/
def setStore (s : State) (sl : Nat) (c : CellStore) : State := { s with cells := tins s.cells sl c }

/-- Change a slice's cell store. -/
def modStore (s : State) (sl : Nat) (f : CellStore → CellStore) : State := setStore s sl (f (storeAt s sl))

/-- Unicast owner of an egress port and class; multicast and punt owner of a class (R235, 14/R436). -/
def ownerQ (port cls : Nat) : Nat := port * 8 + cls
def ownerMc (cls : Nat) : Nat := 2048 + cls

/-! ### The free list (R232–R234) -/

/-- FREE. -/
def CellStore.free (c : CellStore) : Nat := 49152 - c.freshCell + c.freed.length + c.skipped.length

/-- A cell's state bit is 0. -/
def CellStore.isFree (c : CellStore) (n : Nat) : Bool :=
  (decide (c.freshCell ≤ n) && decide (n < 49152)) || c.freed.contains n || c.skipped.contains n

/-- The link word that names a next free cell (R232). -/
def linkWord (next : Nat) : Nat := (0xFFFF - next % 65536) * 65536 + next % 65536

/-- A link word passes its check: its halves are complements, and the cell it names has its state bit 0 (R233). -/
def CellStore.linkHolds (c : CellStore) (w : Nat) : Bool :=
  w / 65536 == 0xFFFF - w % 65536 && c.isFree (w % 65536)

/-- Take the head of the free list. -/
def CellStore.take (c : CellStore) : Option (Nat × CellStore) :=
  if c.freshCell < 49152 then some (c.freshCell, { c with freshCell := c.freshCell + 1 })
  else match c.freed with
    | [] => none
    | n :: r => some (n, { c with freed := r })

/-- The next cell of the free list. -/
def CellStore.head (c : CellStore) : Option Nat := c.take.map (·.1)

/-- The list goes on from a cell that a corrupted word named: the cells before it are skipped. -/
def CellStore.skipTo (c : CellStore) (n : Nat) : CellStore :=
  let l := (List.range (49152 - c.freshCell)).map (fun i => c.freshCell + i) ++ c.freed
  let past := l.takeWhile (· != n)
  if past.isEmpty || !l.contains n then c
  else { c with freshCell := 49152, freed := l.dropWhile (· != n), skipped := c.skipped ++ past }

/-- The list rebuilt from the state bits, in ascending cell order (R234). -/
def CellStore.rebuilt (c : CellStore) : CellStore :=
  { c with
    skipped := [],
    freed := (c.freed ++ c.skipped).mergeSort ++ (List.range (49152 - c.freshCell)).map (fun i => c.freshCell + i),
    freshCell := 49152, rebuilding := true }

/-- Record the cell of the latest event (Table 07-11). -/
def crlLast (s : State) (sl kind cell : Nat) : State :=
  modStore s sl (fun c => { c with lastKind := kind, lastCell := cell })

/-- allocate() of R233: a cell, or none while the list is rebuilt or when the link word of the head fails its check.
`flips`: free cells whose data has been corrupted, with the bits of their link word that have changed. -/
def allocate (s : State) (sl : Nat) (flips : List (Nat × Nat)) : Option Nat × State :=
  let c := storeAt s sl
  if c.rebuilding then (none, s) else
  match c.take with
  | none => (none, s)
  | some (n, c1) =>
    let w := Nat.xor (linkWord (c1.head.getD 0)) (alook 0 flips n)
    if c.free ≤ 1 then (some n, setStore s sl c1)
    else if c1.linkHolds w then (some n, setStore s sl (c1.skipTo (w % 65536)))
    else
      let s := setStore s sl c.rebuilt
      let s := logUe (crlLast (raiseEv s .crlEvent [sl] [1]) sl 1 n) 0x07 n 1
      (none, s)

/-- Cells allocated one after another, at most `n`, up to the first that is refused. -/
def allocateMany (sl : Nat) (flips : List (Nat × Nat)) : Nat → State → List Nat × State
  | 0, s => ([], s)
  | n + 1, s => match allocate s sl flips with
    | (none, s) => ([], s)
    | (some k, s) => let r := allocateMany sl flips n s; (k :: r.1, r.2)

/-- free(c) of R233. -/
def freeCell (s : State) (sl cell : Nat) : State :=
  let c := storeAt s sl
  if c.isFree cell then
    logUe (crlLast (raiseEv (cntSl s sl 0x281) .crlEvent [sl] [0]) sl 0 cell) 0x07 cell 0
  else setStore s sl { c with freed := c.freed ++ [cell] }

/-! ### Owners (R235) -/

/-- MIN, Q_MAX, ALPHA and the other settings of an owner. -/
def ownMin (s : State) (sl q : Nat) : Nat := fld s .ownCfg0 [sl, q] 9 0
def ownMax (s : State) (sl q : Nat) : Nat := fld s .ownCfg1 [sl, q] 31 16
def ownAlpha (s : State) (sl q : Nat) : Nat := min 9 (fld s .ownCfg0 [sl, q] 29 26)

/-- Cells charged to an owner: U[q]. -/
def ownUse (s : State) (sl q : Nat) : Nat := tget 0 (storeAt s sl).used q

/-- Sum of MIN over all owners (RES_SUM). -/
def resSum (s : State) (sl : Nat) : Nat := ((List.range 2056).map (ownMin s sl)).foldl (· + ·) 0

/-- Reserved cells not in use (RES_UNUSED). -/
def resUnused (s : State) (sl : Nat) : Nat :=
  ((List.range 2056).map (fun q => ownMin s sl q - ownUse s sl q)).foldl (· + ·) 0

/-- F: cells free for admission. -/
def admitFree (s : State) (sl : Nat) : Nat := (storeAt s sl).free - 1536 - resUnused s sl

/-- Charge cells to an owner. -/
def charge (s : State) (sl q n : Nat) : State := modStore s sl (fun c => { c with used := tmod 0 c.used q (· + n) })

/-- Take cells off an owner's charge. -/
def uncharge (s : State) (sl q n : Nat) : State := modStore s sl (fun c => { c with used := tmod 0 c.used q (· - n) })

/-- admit_first(q) of R236, without the closed-port test: the cell, or none. -/
def admitFirst (s : State) (sl q : Nat) (flips : List (Nat × Nat)) : Option Nat × State :=
  let u := ownUse s sl q
  let m := ownMin s sl q
  if ownMax s sl q ≠ 0 ∧ ownMax s sl q ≤ u then (none, s)
  else if u < m then allocate s sl flips
  else
    let f := admitFree s sl
    if 1 ≤ f ∧ (u - m) * 64 < f * 2 ^ ownAlpha s sl q then allocate s sl flips else (none, s)

/-- Free a frame's cells and take them off its owner's charge. -/
def freeCells (s : State) (sl q : Nat) (cells : List Nat) : State :=
  uncharge (cells.foldl (fun s c => freeCell s sl c) s) sl q cells.length

/-- The owner a frame's cells are charged to. -/
def Frame.owner (f : Frame) : Nat := if f.mc || f.punt.isSome then ownerMc f.tc else ownerQ (f.egress.headD 0) f.tc

/-! ### Descriptors (Tables 07-1, 07-2) -/

/-- The descriptors of a frame's cells, from the cell at a place on; `next`: NEXT of the last one, which is undefined. -/
def cellDescs (next : Nat) (cells : List Nat) (left : Nat) : List Nat :=
  match cells with
  | [] => []
  | [_] => [at_ (left - 1) 24 17 + at_ 1 16 16 + at_ next 15 0]
  | _ :: n :: r => (at_ 255 24 17 + at_ n 15 0) :: cellDescs next (n :: r) (left - 256)

/-- The frame descriptor as 24 bytes. -/
def Frame.descriptor (f : Frame) : List Byte :=
  le 4 (if f.flowless then 0 else f.count.handle)
    ++ le 4 (at_ f.count.zone 19 0 + at_ f.count.bank 20 20 + at_ (b2n f.flowless) 21 21 + at_ (b2n f.mc) 22 22
      + at_ (b2n f.cut) 23 23 + at_ f.port 31 24)
    ++ le 4 (at_ f.rxLen 13 0 + at_ f.txLen 29 16)
    ++ le 4 (at_ (f.ipOff.getD 0) 7 0 + at_ (b2n f.ecnCap) 8 8 + at_ (b2n f.ecn) 9 9
      + at_ (b2n ((f.ipOff.map (fun o => byteAt f.data o / 16 == 6)).getD false)) 10 10 + at_ f.tc 13 11 + at_ (if f.mc then 0 else f.egress.headD 0) 23 16)
    ++ le 4 f.fcsDiff
    ++ le 4 (at_ f.refs 8 0 + at_ f.cellList.length 14 9 + at_ (b2n f.good) 15 15 + at_ f.chgEnd 23 16)

/-! ### Cells as the bytes come (R229, R236) -/

/-- Cells that a stored frame needs by now. -/
def cellsNeeded (s : State) (f : Frame) : Nat := max 1 (cdiv (storedBytes s f) 256)

/-- A stored frame whose bytes are still coming takes the cells it needs by now, charged to its owner, without a threshold
test; none while the list is rebuilt. -/
def growFrame (flips : List (Nat × Nat)) (s : State) (id : Nat) : State :=
  onFrame s id (fun f =>
    if !f.cellList.isEmpty && (f.stage == .queued || f.stage == .punted) && decide (f.cellList.length < cellsNeeded s f) then
      let r := allocateMany f.slice flips (cellsNeeded s f - f.cellList.length) s
      modFrame (charge r.2 f.slice f.owner r.1.length) id (fun f => { f with cellList := f.cellList ++ r.1 })
    else s)

/-- Every stored frame of the slices that `p` picks takes what it needs by now. -/
def growFrames (s : State) (flips : List (Nat × Nat)) (p : Nat → Bool) : State :=
  (s.frames.filter (fun e => p e.2.slice && !e.2.cellList.isEmpty)).foldl (fun s e => growFrame flips s e.1) s

/-! ### References, verdicts and release (R249, R251, R252) -/

/-- Free the cells a frame holds. -/
def freeFrame (s : State) (id : Nat) : State :=
  onFrame s id (fun f => modFrame (freeCells s f.slice f.owner f.cellList) id (fun f => { f with cellList := [] }))

/-- A frame holds no reference any more: its cells are freed. A multicast frame's verdict is issued and it leaves; a
unicast frame leaves if it has been sent or discarded (R249, R251, R252). -/
def refsGone (s : State) (id : Nat) : State :=
  onFrame s id (fun f =>
    let s := freeFrame s id
    if f.mc then releaseFrame (if f.good then verdictGood s id else verdictBad s id) id
    else if f.stage == .left then releaseFrame s id
    else s)

/-- One reference fewer; at zero the cells are freed. -/
def dropRef (s : State) (id : Nat) : State :=
  let s := modFrame s id (fun f => { f with refs := f.refs - 1 })
  onFrame s id (fun f => if f.refs = 0 then refsGone s id else s)

/-- A unicast frame has been sent or discarded: it leaves, unless a deep scan still holds its cells. -/
def frameLeft (s : State) (id : Nat) : State :=
  onFrame s id (fun f =>
    if f.refs = 0 then releaseFrame s id
    else
      let s := if f.snapped then snapSub s f.slice f.version else s
      modFrame s id (fun f => { f with stage := .left }))

/-- An injected frame that is lost before its timestamp point leaves posts TIMEBASE 3 (10/R339). -/
def stampLost (s : State) (id : Nat) : State :=
  onFrame s id (fun f => if f.tsKind = 1 then timeEventPost s 1 (f.egress.headD 0) f.tsId stampNone else s)

/-- A stored frame that has not crossed, or one copy of a multicast frame, is discarded. -/
def discardStored (s : State) (id : Nat) : State :=
  onFrame s id (fun f =>
    if f.mc then dropRef s id
    else frameLeft (dropRef (verdictBad (stampLost s id) id) id) id)

/-- A unicast frame that has crossed, or one copy of a multicast frame, is discarded at egress. -/
def discardCrossed (s : State) (id : Nat) : State :=
  onFrame s id (fun f =>
    if f.mc then dropRef s id else frameLeft (verdictBad (stampLost s id) id) id)

/-! ### No-cell (R237, R240, R250) -/

/-- The overflow notice of an owner, at most once per owner per ms (Table 07-3). -/
def overflowNotice (s : State) (sl q handle : Nat) : State :=
  if fld s .ownCfg0 [sl, q] 31 31 = 1 then
    let c := storeAt s sl
    match tfind c.noticed q with
    | some t =>
      if t + ticksOfNs 1000000 ≤ s.time.tick then
        let s := modStore s sl (fun c => { c with noticed := tins c.noticed q s.time.tick })
        postEvent s 4 (le 1 1 ++ le 1 sl ++ le 2 q ++ le 4 handle ++ le 4 (tget 0 c.drops q) ++ le 4 (servedSec s))
      else s
    | none =>
      let s := modStore s sl (fun c => { c with noticed := tins c.noticed q s.time.tick })
      postEvent s 4 (le 1 1 ++ le 1 sl ++ le 2 q ++ le 4 handle ++ le 4 (tget 0 c.drops q) ++ le 4 (servedSec s))
  else s

/-- What no-cell costs the owner: OWN_DROP and the notice. -/
def ownDrop (s : State) (sl q handle : Nat) : State :=
  let s := modStore s sl (fun c => { c with drops := tmod 0 c.drops q (fun n => sat 32 (n + 1)) })
  overflowNotice s sl q handle

/-! ### Virtual output queues -/

/-- Entries of the pointer store in use (R240): one per queued frame or copy. -/
def ptrUsed (c : CellStore) : Nat := (c.voq.map (fun e => e.2.length)).foldl (· + ·) 0

/-- Queue a frame or a copy at the tail of a virtual output queue. -/
def voqPush (s : State) (sl q id : Nat) : State :=
  modStore s sl (fun c => { c with voq := tmod [] c.voq q (fun l => l ++ [id]) })

/-- Take a frame out of a queue; when it was the head, nothing of the new head has crossed. -/
def voqRemove (s : State) (sl q id : Nat) : State :=
  modStore s sl (fun c =>
    let l := tget [] c.voq q
    { c with voq := tput [] c.voq q (l.erase id),
             crossed := if l.head? = some id then tput 0 c.crossed q 0 else c.crossed })

/-! ### Punt drops (14/R437) -/

/-- A channel's state. -/
def chanAt (s : State) (ch : Nat) : DmaChannel := tget DmaChannel.reset s.dma ch

/-- Change a channel. -/
def modChan (s : State) (ch : Nat) (f : DmaChannel → DmaChannel) : State :=
  { s with dma := tupd DmaChannel.reset s.dma ch f }

/-- A DMA event (Table 14-6). -/
def dmaEventPost (s : State) (kind ch status count desc : Nat) : State :=
  postEvent s 11 (le 1 kind ++ le 1 (ch % 32) ++ le 2 status ++ le 4 count ++ le 8 desc)

/-- A punted frame is dropped: counted, flagged, and reported at most once per ms and channel. -/
def puntDropped (s : State) (sl reason : Nat) : State :=
  let s := raiseEv (cntSl s sl 0x285) .dmaEvent [] [1]
  let ch := fld s .puntMap [reason] 28 24
  let s := forceReg s .dmaLast [] (at_ ch 20 16)
  let c := chanAt s ch
  let n := c.drops + 1
  let due := match c.dropTick with | none => true | some t => decide (t + ticksOfNs 1000000 ≤ s.time.tick)
  if due then
    dmaEventPost (modChan s ch (fun c => { c with drops := 0, dropTick := some s.time.tick })) 2 ch 0 n 0
  else modChan s ch (fun c => { c with drops := n })

end Sys2Proof.Machine
end

