-- ==== Sys2Proof/Machine/HbmOps.lean ====
section
/-! DEFINITION. The HBM controllers as their requesters see them (18): live pseudo-channels, the shared space and its page
map (R508), what a corrected and an uncorrectable read cost (R517, R519), and retirement in service (R520, R522). -/

namespace Sys2Proof.Machine

/-- A pseudo-channel. -/
def pcAt (s : State) (n : Nat) : PcState := tget PcState.reset s.hbm.pcs n

/-- Change a pseudo-channel. -/
def modPc (s : State) (n : Nat) (f : PcState → PcState) : State :=
  { s with hbm := { s.hbm with pcs := tupd PcState.reset s.hbm.pcs n f } }

/-- A stack. -/
def stkAt (s : State) (k : Nat) : StackState := tget StackState.reset s.hbm.stks k

/-- Change a stack. -/
def modStk (s : State) (k : Nat) (f : StackState → StackState) : State :=
  { s with hbm := { s.hbm with stks := tupd StackState.reset s.hbm.stks k f } }

/-- A pseudo-channel is live. -/
def pcLive (s : State) (n : Nat) : Bool := (pcAt s n).state == 0

/-- A stack is powered down, or only waits for DMA channels to be (19/R535). -/
def stackGone (s : State) (k : Nat) : Bool := !bit s.power.stackPwr k || s.power.leaving.any (fun e => e.1 == k)

/-- The live pseudo-channels, ascending. -/
def livePcs (s : State) : List Nat := (List.range 128).filter (pcLive s)

/-- An HBM event (Table 18-8, source 12), and HBM_LAST. -/
def hbmEventPost (s : State) (kind pc arg value : Nat) : State :=
  postEvent (forceReg s .hbmLast [] (at_ pc 30 24 + at_ kind 23 20)) 12
    (le 1 kind ++ le 1 (pc % 128) ++ le 1 arg ++ zeros 1 ++ le 4 value ++ le 8 (servedSec s))

/-! ### The shared space (R507, R508) -/

/-- First page of each structure of Table 18-3. -/
def pgSub : Nat := 0
def pgBlock : Nat := 131072
def pgPort : Nat := 139264
def pgTarget : Nat := 401408
def pgZone : Nat := 409600
def pgTrace : Nat := 434176
def pgEnd : Nat := 696320

/-- The 64-byte line of the shared space that an entry lies in. -/
def subLine (i : Nat) : Nat := pgSub * 64 + i
def blockLine (i : Nat) : Nat := pgBlock * 64 + i / 8
def portLine (i : Nat) : Nat := pgPort * 64 + i / 16
def targetLine (i : Nat) : Nat := pgTarget * 64 + i / 8

/-- Where a page lies: pseudo-channel and shared page. -/
def pageHome (s : State) (p : Nat) : Nat × Nat :=
  match tfind s.hbm.pages p with
  | some x => (x / 32768, x % 32768)
  | none => (s.skein.survivors.getD (p % s.skein.survivors.length) 0, p / s.skein.survivors.length)

/-- Pseudo-channel of a line of the shared space. -/
def linePc (s : State) (line : Nat) : Nat := (pageHome s (line / 64)).1

/-- Data line of a line of the shared space on its pseudo-channel (Table 18-2). -/
def sharedLineNo (s : State) (line : Nat) : Nat := 1024 * 4352 + (pageHome s (line / 64)).2 * 64 + line % 64

/-- Shared pages that start-up gave a pseudo-channel. -/
def startPages (s : State) (pc : Nat) : Nat :=
  match s.skein.survivors.findIdx? (· == pc) with
  | none => 0
  | some i => (pgEnd + s.skein.survivors.length - 1 - i) / s.skein.survivors.length

/-- Shared pages taken on a pseudo-channel: the lowest free one has this number, since a page is freed only with its
pseudo-channel. -/
def pagesUsed (s : State) (pc : Nat) : Nat :=
  startPages s pc + (s.hbm.pages.filter (fun e => e.2 / 32768 == pc)).length

/-- The pages that lie on a pseudo-channel. -/
def pagesOn (s : State) (pc : Nat) : List Nat := (List.range pgEnd).filter (fun p => (pageHome s p).1 == pc)

/-! ### Losing shared pages (R522, Table 18-7) -/

/-- Forget the entries of a table whose keys lie in [lo, hi). -/
def tclear {α : Type} (t : Table α) (lo hi : Nat) : Table α := t.filter (fun e => decide (e.1 < lo) || decide (hi ≤ e.1))

/-- A page of a zone image copy is lost: the zones of the open or the closing copy are a gap of that copy's epoch and start
again at zero; a page of the last sealed copy can no longer be read. -/
def loseZonePage (s : State) (p : Nat) : State :=
  let c := (p - pgZone) / 8192
  let z := (p - pgZone) % 8192 * 128
  let wipe (s : State) : State :=
    { s with lid := { s.lid with zones := tclear s.lid.zones (c * 2 ^ 20 + z) (c * 2 ^ 20 + z + 128) } }
  if s.lid.opened && s.lid.epoch.seq % 3 == c then gapOpen (wipe s) 7 z 128
  else match s.lid.closing with
    | some k => if k.epoch.seq % 3 = c ∧ ¬ k.hashed then gapClosing (wipe s) 7 z 128
      else { s with hbm := { s.hbm with lostImages := p :: s.hbm.lostImages } }
    | none => { s with hbm := { s.hbm with lostImages := p :: s.hbm.lostImages } }

/-- Target entries are lost: they read as VALID 0, so none of them drains or is reassigned any more (Tables 18-5, 18-7;
06/R210). -/
def loseTargets (s : State) (lo n : Nat) : State :=
  { s with actions := { s.actions with
      targets := tclear s.actions.targets lo (lo + n), reassign := tclear s.actions.reassign lo (lo + n),
      draining := s.actions.draining.filter (fun d => decide (d.entry < lo) || decide (lo + n ≤ d.entry)) } }

/-- What losing a page costs the structure that lies in it. -/
def losePage (s : State) (p : Nat) : State :=
  if p < pgTarget then { s with actions := { s.actions with natLost := s.actions.natLost ++ [(true, p)] } }
  else if p < pgZone then loseTargets s ((p - pgTarget) * 512) 512
  else if p < pgTrace then loseZonePage s p
  else { s with trace := { s.trace with buffer := tins s.trace.buffer (p - pgTrace) [] } }

/-- A lost page is given the lowest free page of the live pseudo-channel with the most free ones. -/
def movePage (s : State) (p : Nat) : State :=
  match leastBy (pagesUsed s) (livePcs s) with
  | none => s
  | some d => { s with hbm := { s.hbm with pages := tins s.hbm.pages p (d * 32768 + pagesUsed s d) } }

/-- NAT_STATE_LOST is raised and reported (06/R209, Table 06-21). -/
def natLostNotice (s : State) (pc : Nat) : State := actionEvent (raiseEv s .actEvent [] [4]) 4 pc 0

/-! ### Retirement in service (R519, R520) -/

/-- A live pseudo-channel is retired in service: it answers nothing from now on, its pages move and lose their contents, a
move to or from it is abandoned, and the Skein's task is posted. -/
def retirePc (s : State) (pc cause : Nat) : State :=
  if !pcLive s pc then s
  else
    let lostPages := pagesOn s pc
    let s := modPc s pc (fun p => { p with state := 2, cause := cause })
    let s := { s with
      hbm := { s.hbm with retiring := s.hbm.retiring ++ [⟨pc, cause, servedSec s, servedNs s⟩] },
      skein := { s.skein with move := match s.skein.move with
        | some m =>
          if m.dstPc = pc || (match tfind s.skein.groups m.group with
            | some e => e.pc == pc
            | none => s.skein.survivors.getD (m.group % s.skein.survivors.length) 0 == pc) then none else some m
        | none => none } }
    let s := lostPages.foldl movePage s
    let s := lostPages.foldl losePage s
    let s := if lostPages.any (fun p => decide (p < pgTarget)) then natLostNotice s pc else s
    let s := hbmEventPost (raiseEv s .hbmEvent [] [3]) 2 pc cause lostPages.length
    raiseTask s 0xF003 3 [byte pc]

/-! ### Reads (R517) -/

/-- A corrected single-bit error of a line: HBM_CE of its pseudo-channel. -/
def hbmCe (s : State) (pc : Nat) : State := cntDev s (0x100 + pc)

/-- An uncorrectable line: UE_COUNT, UE, the event of KIND 3 and a log entry; more than UE_MAX in a second retire the
pseudo-channel (R519). -/
def hbmUe (s : State) (pc line port : Nat) : State :=
  let now := s.time.tick
  let s := modPc s pc (fun p => { p with
    ueCount := sat 16 (p.ueCount + 1),
    ueTicks := now :: p.ueTicks.filter (fun t => decide (now < t + 1250000000)) })
  let s := hbmEventPost (raiseEv s .hbmEvent [] [2]) 3 pc port line
  let s := logUe s 0x18 (pc * 2 ^ 23 + line) port
  let m := fld s .hbmCfg [] 31 24
  if m ≠ 0 ∧ m < (pcAt s pc).ueTicks.length then retirePc s pc 3 else s

/-- What the check bits of a line that was read say. -/
def hbmRead (s : State) (pc line port : Nat) (ecc : Ecc) : State :=
  match ecc with
  | .ok => s
  | .ce => hbmCe s pc
  | .ue => hbmUe s pc line port

/-- The zone cache misses a zone's line, and what it reads may be uncorrectable: the line is rewritten as zero, with a gap
for its two zones in that image's epoch (Table 18-5). -/
def zoneRead (ue : Bool) (s : State) (zone bank : Nat) : State :=
  let k := zoneLine s zone bank
  if !ue || s.lid.zoneCache.contains k then s
  else
    let line := pgZone * 64 + k
    let s := hbmUe s (linePc s line) (sharedLineNo s line) 1
    let s := { s with lid := { s.lid with zones := tclear s.lid.zones (2 * k) (2 * k + 2) } }
    let z := zone / 2 * 2
    if s.lid.opened && s.lid.epoch.seq % 2 == bank % 2 then gapOpen s 7 z 2 else gapClosing s 7 z 2

/-- A line of translation state is lost: in a lost page, or by itself (06/R209). -/
def natLineLost (s : State) (line : Nat) : Bool :=
  s.actions.natLost.contains (true, line / 64) || s.actions.natLost.contains (false, line)

end Sys2Proof.Machine
end

