-- ==== Sys2Proof/Machine/DmaOps.lean ====
section
/-! DEFINITION. How a DMA channel ends a descriptor: completion, its queue, halts, and what disabling it drops (14/R430–R433). -/

namespace Sys2Proof.Machine

/-- Host port of a channel. -/
def chanPort (ch : Nat) : Nat := ch / 16

/-- The function that owns a channel (R423). -/
def chanOwner (s : State) (ch : Nat) : Nat := ch / 16 * 2 + fld s .dmaOwn [ch / 16] (ch % 16) (ch % 16)

/-- Mode of a channel: 0 copy, 1 inject, 2 receive; 3 acts as 0. -/
def chanMode (s : State) (ch : Nat) : Nat := fld s .dmaCtl [ch] 27 26 % 3

/-- A channel is enabled. -/
def chanOn (s : State) (ch : Nat) : Bool := fld s .dmaCtl [ch] 31 31 == 1

/-- A punted frame or message of a reason can be taken: its map entry is enabled and names a channel in receive mode; on a
chained device the channel is the root's (R435, R440). -/
def puntTarget (s : State) (reason : Nat) : Bool :=
  let w := inForce s .puntMap [reason]
  bit w 31 && (decide (s.chain.addr.getD 0 ≠ 0) || (chanMode s (bits w 28 24) == 2 && chanOn s (bits w 28 24)))

/-- Records of a completion queue that hold no completion read by host software yet. -/
def DmaChannel.cqUsed (c : DmaChannel) : Nat := idxDiff c.cqPi c.cqCi

/-- The channel goes on: to NEXT, or to IDLE when the list ends. -/
def chanNext (s : State) (ch next : Nat) : State :=
  modChan s ch (fun c => { c with
    state := if next = 0 then 1 else 2, cur := if next = 0 then c.cur else next, doing := none, moved := 0, inject := none })

/-- Steps 4 to 6 of R430, with room in the queue; then the channel goes on, unless it has halted. -/
def chanRecord (s : State) (ch : Nat) (h : HeldRecord) : State :=
  let c := chanAt s ch
  let s := if fld s .dmaCtl [ch] 25 25 = 1 then
      let pi := (c.cqPi + 1) % 2 ^ 32
      let s := emit s (.hostWrite (chanPort ch) (c.cqBase + 16 * (c.cqPi % 2 ^ c.cqLog2)) (h.bytes ++ le 2 c.cqPi))
      let s := emit s (.hostWrite (chanPort ch) c.cqWb (le 4 pi))
      modChan s ch (fun c => { c with cqPi := pi })
    else s
  let s := if h.int && fld s .dmaCtl [ch] 24 24 == 1 then emit s (.msix (chanOwner s ch) (fld s .dmaCtl [ch] 5 0)) else s
  let s := modChan s ch (fun c => { c with held := none })
  if h.halt then s else chanNext s ch h.next

/-- A completion record is written, or held while the queue has no free slot. -/
def chanAnswer (s : State) (ch : Nat) (h : HeldRecord) : State :=
  let c := chanAt s ch
  if fld s .dmaCtl [ch] 25 25 = 1 ∧ 2 ^ c.cqLog2 ≤ c.cqUsed then modChan s ch (fun c => { c with held := some h })
  else chanRecord s ch h

/-- A held record goes out once there is room for it, or no queue to hold it. -/
def chanRelease (s : State) (ch : Nat) : State :=
  match (chanAt s ch).held with
  | none => s
  | some h => chanAnswer s ch h

/-- Steps 2 and 3 of R430: the descriptor is written back. -/
def writeBack (s : State) (ch : Nat) (d : Descriptor) (done status : Nat) : State :=
  let s := emit s (.hostWrite (chanPort ch) (d.addr + 24) (le 4 (at_ done 23 0 + at_ (b2n d.trace) 24 24)))
  emit s (.hostWrite (chanPort ch) (d.addr + 28) (le 4 (at_ status 15 0 + at_ (b2n d.int) 30 30)))

/-- The completion record of a descriptor up to its SEQ (Table 14-4). -/
def recordBytes (addr done status : Nat) (int halt noWb : Bool) : List Byte :=
  le 8 addr ++ le 3 done ++ le 1 (b2n int + 2 * b2n halt + 4 * b2n noWb) ++ le 2 status

/-- The descriptor in progress completes (R430). -/
def descDone (s : State) (ch : Nat) (d : Descriptor) (done status : Nat) : State :=
  let s := writeBack s ch d done status
  chanAnswer (modChan s ch (fun c => { c with doing := none, moved := 0, inject := none })) ch
    ⟨recordBytes d.addr done status d.int false false, d.int, false, d.next⟩

/-- The channel halts (R432): state, flags, DMA_LAST, the event, and its record. `wb`: the descriptor to write back, with
the bytes moved so far; none for NO_WB. -/
def chanHalt (s : State) (ch status : Nat) (int : Bool) (wb : Option (Descriptor × Nat)) : State :=
  let s := match wb with
    | some (d, n) => writeBack s ch d n status
    | none => s
  let s := modChan s ch (fun c => { c with state := 4, status := status, doing := none, moved := 0, inject := none })
  let s := forceReg (raiseEv s .dmaEvent [] [0]) .dmaLast [] (at_ ch 20 16 + at_ status 15 0)
  let c := chanAt s ch
  let s := dmaEventPost s 1 ch status c.count c.cur
  if fld s .dmaCtl [ch] 25 25 = 1 then
    chanAnswer s ch ⟨recordBytes c.cur ((wb.map (·.2)).getD 0) status int true wb.isNone, int && wb.isSome, true, 0⟩
  else if int && wb.isSome && fld s .dmaCtl [ch] 24 24 == 1 then
    emit s (.msix (chanOwner s ch) (fld s .dmaCtl [ch] 5 0))
  else s

/-- The frame that a channel handed to its egress port was admitted or refused: its descriptor completes (R438). -/
def injectDone (s : State) (id status : Nat) : State :=
  match s.dma.find? (fun e => e.2.inject == some id) with
  | none => s
  | some (ch, c) =>
    match c.doing with
    | none => s
    | some d => descDone s ch d d.len status

/-- EN 0 takes effect (R433): what is in progress is dropped, an injected frame not yet admitted with it; the counts hold
values that are undefined. -/
def stopChannel (s : State) (ch : Nat) : State :=
  let c := chanAt s ch
  let s := match c.inject with
    | some id => releaseFrame (stampLost s id) id
    | none => s
  let (a, s) := drawFree s
  let (b, s) := drawFree s
  let (p, s) := drawFree s
  modChan s ch (fun c => { c with
    state := 0, doing := none, moved := 0, inject := none, held := none, count := wrap 32 a, bytes := wrap 64 b,
    cqPi := wrap 32 p })

/-- Punted frames of a slice that wait for a channel which can take none of them any more are dropped (R437). -/
def dropUntaken (s : State) (sl : Nat) : State :=
  (storeAt s sl).punt.foldl (fun s id =>
    onFrame s id (fun f =>
      let r := f.punt.getD 0
      if puntTarget s r then s
      else
        let s := modStore s sl (fun c => { c with punt := c.punt.filter (· != id) })
        discardStored (puntDropped s sl r) id)) s

/-- A channel still works on a descriptor that touches a stack. -/
def stackTouched (s : State) (k : Nat) : Bool :=
  s.dma.any (fun e => e.2.state == 2 && (match e.2.doing with
    | some d => d.onStacks.contains k
    | none => false))

/-- A stack is unpowered (19/R535 step 3). -/
def stackOff (s : State) (k : Nat) : State :=
  let s := { s with power := { s.power with
    stackPwr := withBit s.power.stackPwr k false, leaving := s.power.leaving.filter (fun e => e.1 != k) } }
  ((List.range 32).map (fun i => k * 32 + i)).foldl (fun s pc => modPc s pc (fun p => { p with state := 3 })) s

/-- Every stack whose power-down waits for no channel any more is unpowered (R434). -/
def stacksLeave (s : State) : State :=
  ((s.power.leaving.map (·.1)).filter (fun k => !stackTouched s k)).foldl stackOff s

/-- A channel is disabled: its work is dropped, and so are the frames that wait for it. -/
def disableChannel (s : State) (ch : Nat) : State :=
  let s := stopChannel (forceFld s .dmaCtl [ch] 31 31 0) ch
  stacksLeave ((List.range 8).foldl dropUntaken s)

end Sys2Proof.Machine
end

