-- ==== Sys2Proof/Machine/Creel.lean ====
section
/-! DEFINITION. The meanings of CELL_ADMIT, MULTICAST_REPLICATE and LIST_REBUILD_DONE (07). -/

namespace Sys2Proof.Machine

/-- A frame receives no-cell: its owner's drop and notice, its tag record, and it is gone (R237). -/
def noCell (s : State) (id q : Nat) : State :=
  onFrame s id (fun f =>
    let s := ownDrop s f.slice q (if f.flowless then 0 else f.handle)
    let s := verdictBad (tagRecord (stampLost s id) id 6 q) id
    let s := match f.punt with | some r => puntDropped s f.slice r | none => s
    injectDone (releaseFrame s id) id stFull)

/-- A deep scan asked for is queued at admission; a full queue leaves the frame unscanned (04/R131). -/
def queueDeep (s : State) (id : Nat) : State :=
  onFrame s id (fun f =>
    if f.deepQueued then
      if (sliceAt s f.slice).deepQueue.length < 1024 then
        let s := modSlice s f.slice (fun x => { x with deepQueue := x.deepQueue ++ [id] })
        modFrame s id (fun f => { f with refs := f.refs + 1 })
      else
        let s := cntSl s f.slice 0x274
        let s := modSlice s f.slice (fun x => { x with deep := x.deep.map (fun c =>
          if c.handle == f.count.handle && (f.job.map DeepJob.dir) == some c.dir then { c with done := true } else c) })
        headLeave (modFrame s id (fun f => { f with deepQueued := false })) f.slice f.version
    else s)

/-- Creel marks a frame for Congestion Experienced at admission (R258). -/
def ecnMarks (s : State) (f : Frame) (q used : Nat) : Bool :=
  fld s .ownCfg0 [f.slice, q] 30 30 == 1 && decide (fld s .ownCfg1 [f.slice, q] 15 0 ≤ used) && f.ecnCap && f.ipOff.isSome

/-- A frame is cut-through (Table 07-5). -/
def cutThrough (s : State) (f : Frame) (q : Nat) : Bool :=
  let p := f.egress.headD 0
  fld s .egrCt (portIx p) 31 31 == 1 && decide (portRate s p ≤ portRate s f.port) && f.origin == 0
    && (tget [] (storeAt s f.slice).voq q).isEmpty
    && !(tget EgressPort.reset s.egress.ports p).gate.running && !f.mc && f.punt.isNone

/-- The frame holds its first cell: it takes those its bytes need by now, is charged, marked, and joins its queue (R228, R229,
R236, R258). -/
def admitted (s : State) (id q cell : Nat) (flips : List (Nat × Nat)) : State :=
  onFrame s id (fun f =>
    let sl := f.slice
    let u := ownUse s sl q
    let s := charge s sl q 1
    let mark := f.punt.isNone && ecnMarks s f q u
    let s := if mark then cntPort s (f.egress.headD 0) 13 else s
    let cut := cutThrough s f q
    let s := modFrame s id (fun f => { f with
      stage := if f.punt.isSome then .punted else .queued, cellList := [cell], refs := 1, cut := cut, ecn := mark,
      admitNo := (storeAt s sl).admits })
    let s := growFrame flips s id
    let s := modStore s sl (fun c => { c with admits := c.admits + 1 })
    let s := injectDone (queueDeep (tagRecord s id (if f.punt.isSome then 1 else 0) q) id) id stOk
    if f.tail == .bad then
      discardStored (match f.punt with | some r => puntDropped s sl r | none => s) id
    else if f.punt.isSome then modStore s sl (fun c => { c with punt := c.punt ++ [id] })
    else if f.mc then modStore s sl (fun c => { c with repl := c.repl ++ [(id, f.egress)] })
    else voqPush s sl q id)

/-- A frame's port is closed: it is discarded and takes no cell (R236, R261). -/
def refuseClosed (s : State) (id : Nat) : State :=
  onFrame s id (fun f =>
    let s := cntPort s (f.egress.headD 0) 11
    injectDone (releaseFrame (verdictBad (tagRecord (stampLost s id) id 7 f.owner) id) id) id stDomainDown)

/-- A punted frame that is not delivered is dropped before it takes a cell (14/R437). -/
def puntRefused (s : State) (id : Nat) : State :=
  onFrame s id (fun f =>
    let s := puntDropped s f.slice (f.punt.getD 0)
    releaseFrame (verdictBad (tagRecord s id 6 f.owner) id) id)

/-- Serve one first-cell request: whether a cell was given, and the state after. -/
def admitOne (s : State) (id : Nat) (flips : List (Nat × Nat)) : Bool × State :=
  match frameAt s id with
  | none => (false, s)
  | some f =>
    let q := f.owner
    let c := storeAt s f.slice
    if f.punt.isSome && !puntTarget s (f.punt.getD 0) then (false, puntRefused s id)
    else if f.punt.isSome && decide (1024 ≤ c.punt.length) then (false, puntRefused s id)
    else if f.punt.isNone && !f.mc && portClosed s (f.egress.headD 0) then (false, refuseClosed s id)
    else if f.punt.isNone && f.mc && decide (256 ≤ c.repl.length) then (false, noCell (cntSl s f.slice 0x283) id q)
    else if f.punt.isNone && decide (65536 ≤ ptrUsed c) then (false, noCell (cntSl s f.slice 0x282) id q)
    else match admitFirst s f.slice q flips with
      | (some cell, s) => (true, admitted s id q cell flips)
      | (none, s) => (false, noCell s id q)

/-- The requester of a frame's first cell (R239): its port's macro, host inject, or export. -/
def Frame.requester (f : Frame) : Nat := if f.origin = 0 then f.port % 32 / 8 else 3 + f.origin

/-- The frame whose request a requester of a slice puts forward: the oldest one waiting that overtakes no earlier frame of its
flow to the same port and class, held by its policer (01/R28). -/
def requestOf (s : State) (sl r : Nat) : Option Nat :=
  (s.frames.find? (fun e => e.2.stage == .admitting && e.2.slice == sl && e.2.requester == r &&
    !overtakes s e.1 e.2 (fun g => g.stage == .policing && g.egress == e.2.egress && g.tc == e.2.tc))).map (·.1)

/-- The arbiter examines requesters in order until four have been served (R239). -/
def arbitrate (sl : Nat) (flips : List (Nat × Nat)) : List Nat → Nat → State → State
  | [], _, s => s
  | r :: rs, n, s =>
    if 4 ≤ n then s
    else match requestOf s sl r with
    | none => arbitrate sl flips rs n s
    | some id =>
      let (given, s) := admitOne s id flips
      if given then arbitrate sl flips rs (n + 1) (modStore s sl (fun c => { c with arb := (r + 1) % 6 }))
      else arbitrate sl flips rs n s

/-- One cc of the allocation arbiter of a slice: continuation cells come before first ones. -/
def cellAdmit (sl : Nat) (flips : List (Nat × Nat)) (s : State) : State :=
  let s := growFrames s flips (· == sl)
  arbitrate sl flips ((List.range 6).map (fun k => ((storeAt s sl).arb + k) % 6)) 0 s

/-- CELL_ADMIT (R236, R239). -/
def execCellAdmit (sl : Nat) (flips : List (Nat × Nat)) (s : State) : Host.Outcome State Fault Refusal :=
  .next (cellAdmit sl flips s)

/-- One copy entry goes on the queue of its target port; a closed port takes none (R250). -/
def copyTo (s : State) (sl id port : Nat) : State :=
  onFrame s id (fun f =>
    if portClosed s port then cntPort s port 11
    else voqPush (modFrame s id (fun f => { f with refs := f.refs + 1 })) sl (ownerQ port f.tc) id)

/-- The replication engine takes one frame and enqueues its copies, at most eight in the cc (R250). -/
def multicastReplicate (sl : Nat) (s : State) : State :=
  match (storeAt s sl).repl with
  | [] => s
  | (id, ports) :: rest =>
    let n := min 8 (65536 - ptrUsed (storeAt s sl))
    let s := (ports.take n).foldl (fun s p => copyTo s sl id p) s
    let left := ports.drop n
    if left.isEmpty then dropRef (modStore s sl (fun c => { c with repl := rest })) id
    else modStore s sl (fun c => { c with repl := (id, left) :: rest })

/-- MULTICAST_REPLICATE (R250). -/
def execMulticastReplicate (sl : Nat) (s : State) : Host.Outcome State Fault Refusal := .next (multicastReplicate sl s)

/-- Allocation from the rebuilt list resumes (R234). -/
def listRebuildDone (sl : Nat) (s : State) : State := modStore s sl (fun c => { c with rebuilding := false })

/-- LIST_REBUILD_DONE (R234). -/
def execListRebuildDone (sl : Nat) (s : State) : Host.Outcome State Fault Refusal := .next (listRebuildDone sl s)

end Sys2Proof.Machine
end

