-- ==== Sys2Proof/Machine/EgressOps.lean ====
section
/-! DEFINITION. Egress queues, shapers, gates and credits (07/R245, R254–R261; 08). -/

namespace Sys2Proof.Machine

/-! ### Queues and ports -/

/-- Number of an egress queue. -/
def eqNum (port cls : Nat) : Nat := port * 8 + cls

/-- An egress queue. -/
def eqAt (s : State) (q : Nat) : EgressQueue := tget EgressQueue.reset s.egress.queues q

/-- Change an egress queue. -/
def modEq (s : State) (q : Nat) (f : EgressQueue → EgressQueue) : State :=
  { s with egress := { s.egress with queues := tupd EgressQueue.reset s.egress.queues q f } }

/-- An egress port. -/
def egAt (s : State) (p : Nat) : EgressPort := tget EgressPort.reset s.egress.ports p

/-- Change an egress port. -/
def modEg (s : State) (p : Nat) (f : EgressPort → EgressPort) : State :=
  { s with egress := { s.egress with ports := tupd EgressPort.reset s.egress.ports p f } }

/-- Bytes that a port has sent by now of the frame it sends. -/
def sentBytes (s : State) (p : Nat) (x : Sending) : Nat := min x.part.got (portRate s p * (s.time.tick - x.startTick) / 10)

/-- A unit that a queue holds, by the frame and place of its last byte, still takes room: that byte has not been sent. -/
def unitStands (s : State) (q : Nat) (u : Nat × Nat) : Bool :=
  match (egAt s (q / 8)).sending with
  | some x => !(x.cls == q % 8 && x.part.frame == u.1 && decide (u.2 ≤ sentBytes s (q / 8) x))
  | none => true

/-- Units that an egress queue holds. -/
def queueUnits (s : State) (q : Nat) : Nat := ((eqAt s q).units.filter (unitStands s q)).length

/-- Units held in or in flight to an egress queue (R245). -/
def heldUnits (s : State) (q : Nat) : Nat := queueUnits s q + (s.wale.flight.filter (fun u => u.eq == q)).length

/-- Units held in or in flight to an egress slice. -/
def heldSlice (s : State) (sl : Nat) : Nat :=
  ((s.egress.queues.filter (fun e => e.1 / 256 == sl)).map (fun e => queueUnits s e.1)).foldl (· + ·) 0
    + (s.wale.flight.filter (fun u => u.eq / 256 == sl)).length

/-- Units a queue may still form. -/
def creditLeft (s : State) (q : Nat) : Nat :=
  min (creditOf s (q / 8) (q % 8) - heldUnits s q) (8192 - heldSlice s (q / 256))

/-- A frame is longer in units than its queue's credit in force. -/
def longFrame (s : State) (f : Frame) (q : Nat) : Bool := decide (creditOf s (q / 8) (q % 8) < cdiv f.txLen 256)

/-! ### Arrival and joining (R264, R559) -/

/-- A frame joins its queue: it stands behind those that joined before it. -/
def joinPart (l : List EqPart) (frame slice : Nat) : List EqPart :=
  match l.find? (fun p => p.frame == frame && p.slice == slice) with
  | none => l
  | some p =>
    if p.joined then l
    else
      let r := l.erase p
      r.filter (fun p => p.joined) ++ [{ p with joined := true }] ++ r.filter (fun p => !p.joined)

/-- Bytes of a frame arrive in a queue's buffer, or at the frame being sent. -/
def segArrives (s : State) (slice q : Nat) (g : Seg) : State :=
  match frameAt s g.frame with
  | none => s
  | some f =>
    let sending := match (egAt s (q / 8)).sending with
      | some x => x.part.frame == g.frame && x.part.slice == slice && x.cls == q % 8
      | none => false
    if sending then
      modEg s (q / 8) (fun e => { e with sending := e.sending.map (fun x =>
        { x with part := { x.part with got := x.part.got + g.bytes } }) })
    else
      modEq s q (fun e =>
        let has := e.parts.any (fun p => p.frame == g.frame && p.slice == slice)
        let parts := if has then e.parts.map (fun p =>
            if p.frame == g.frame && p.slice == slice then { p with got := p.got + g.bytes } else p)
          else e.parts ++ [⟨g.frame, slice, g.bytes, false⟩]
        let parts := if g.ends || f.cut || longFrame s f q then joinPart parts g.frame slice else parts
        { e with parts := parts })

/-- The frame that a unit's last byte belongs to. -/
def CrossUnit.lastFrame (u : CrossUnit) : Nat := (u.segs.getLast?.map Seg.frame).getD 0

/-- Bytes of a frame that have arrived in an egress queue, or at the frame its port sends from it. -/
def gotOf (s : State) (q slice frame : Nat) : Nat :=
  match (egAt s (q / 8)).sending with
  | some x => if x.part.frame == frame && x.part.slice == slice && x.cls == q % 8 then x.part.got else partGot
  | none => partGot
where
  /-- Of a frame that has not started. -/
  partGot : Nat := match (eqAt s q).parts.find? (fun p => p.frame == frame && p.slice == slice) with
    | some p => p.got
    | none => 0

/-- A unit's room is taken until its last byte is sent or discarded. -/
def unitHeld (s : State) (u : CrossUnit) : State :=
  if (frameAt s u.lastFrame).isNone then s
  else modEq s u.eq (fun e => { e with units := e.units ++ [(u.lastFrame, gotOf s u.eq u.slice u.lastFrame)] })

/-- Units whose last byte belongs to a frame give their room back. -/
def creditBack (s : State) (q frame : Nat) : State :=
  modEq s q (fun e => { e with units := e.units.filter (fun u => u.1 != frame) })

/-! ### Shapers (R270–R274) -/

/-- 2^40: the units of a byte that tokens are kept in. -/
def byteUnit : Nat := 1099511627776

/-- Tokens a rate in kb/s adds per tick, rounded down (R271). -/
def perTick (rate : Nat) : Nat := rate * byteUnit / 10000000

/-- A bucket brought up to date. -/
def Bucket.update (b : Bucket) (rate burst now : Nat) : Bucket :=
  ⟨min ((burst * byteUnit : Nat) : Int) (b.tokens + ((now - b.last) * perTick rate : Nat)), now⟩

/-- A bucket filled to its depth at an instant (R273). -/
def Bucket.full (burst now : Nat) : Bucket := ⟨(burst * byteUnit : Nat), now⟩

/-- Tokens in whole bytes, rounded down. -/
def Bucket.bytes (b : Bucket) : Int := b.tokens / (byteUnit : Int)

/-- Index of a queue's shaper registers: slice and queue of the slice. -/
def shqIx (q : Nat) : List Nat := [q / 256, q % 256]

/-- A queue's shaper is enabled. -/
def shqOn (s : State) (q : Nat) : Bool := fld s .shqCfg (shqIx q) 31 31 == 1

/-- A port's shaper is enabled. -/
def shpOn (s : State) (p : Nat) : Bool := fld s .egrPortCfg (portIx p) 31 31 == 1

/-- A queue's bucket, up to date. -/
def shqBucket (s : State) (q : Nat) : Bucket :=
  (tget Bucket.reset s.egress.shapers q).update (inForce s .shqRate (shqIx q)) (fld s .shqBurst (shqIx q) 23 0) s.time.tick

/-- A port's bucket, up to date. -/
def shpBucket (s : State) (p : Nat) : Bucket :=
  (egAt s p).shaper.update (inForce s .shpRate (portIx p)) (fld s .shpBurst (portIx p) 23 0) s.time.tick

/-- Replace a queue's bucket. -/
def setShq (s : State) (q : Nat) (b : Bucket) : State :=
  { s with egress := { s.egress with shapers := tins s.egress.shapers q b } }

/-- Replace a port's bucket. -/
def setShp (s : State) (p : Nat) (b : Bucket) : State := modEg s p (fun e => { e with shaper := b })

/-- The length charged: TX_LEN or RX_LEN plus a signed overhead of eight bits, never below zero (R272). -/
def chargedLen (len ovh : Nat) : Nat := ((len : Int) + sint 8 ovh).toNat

/-- Take a length out of a bucket. -/
def Bucket.spend (b : Bucket) (len : Nat) : Bucket := { b with tokens := b.tokens - ((len * byteUnit : Nat) : Int) }

/-- Set a port's buckets full, as at enable (R268). -/
def fillShapers (s : State) (p : Nat) : State :=
  let s := (List.range 8).foldl (fun s c => setShq s (eqNum p c)
    (if shqOn s (eqNum p c) then Bucket.full (fld s .shqBurst (shqIx (eqNum p c)) 23 0) s.time.tick else Bucket.reset)) s
  setShp s p (if shpOn s p then Bucket.full (fld s .shpBurst (portIx p) 23 0) s.time.tick else Bucket.reset)

/-! ### Gates (R281–R288) -/

/-- The entry of a list: interval and gates, all closed when the entry has been found uncorrectable (R288). -/
def gateEntry (g : GateState) (bank k : Nat) : Nat × Nat :=
  let w := tget 0 (if bank = 0 then g.bank0 else g.bank1) k
  (bits w 31 0, if g.bad.contains (bank, k) then 0 else bits w 39 32)

/-- The stretches of a cycle, from an entry on: where each starts, where it ends, its gates and its entry. Entries of
interval 0 are skipped, entries are cut at the cycle (R283, Table 08-4). -/
def gateParts (g : GateState) (bank cycle : Nat) : Nat → Nat → Nat → List (Nat × Nat × Nat × Nat)
  | 0, _, _ => []
  | n + 1, k, start =>
    let e := gateEntry g bank k
    if cycle ≤ start then []
    else if e.1 = 0 then gateParts g bank cycle n (k + 1) start
    else (start, min cycle (start + e.1), e.2, k) :: gateParts g bank cycle n (k + 1) (start + e.1)

/-- The last stretch's gates hold to the cycle's end. A list whose entries are all 0 opens nothing (DESIGN CHOICE: the spec
does not say, log entry 42). -/
def gateSpans (g : GateState) (bank cycle len : Nat) : List (Nat × Nat × Nat × Nat) :=
  let l := gateParts g bank cycle len 0 0
  match l.getLast? with
  | some (a, _, gates, k) => l.dropLast ++ [(a, cycle, gates, k)]
  | none => [(0, cycle, 0, 0)]

/-- How long a class stays open from a place in a cycle: the spans are walked at most twice round; none when it never
closes. -/
def openFor (c : Nat) : List (Nat × Nat × Nat × Nat) → Nat → Nat → Option Nat
  | [], _, _ => none
  | (_, stop, gates, _) :: r, pos, acc =>
    if pos < stop then
      if bit gates c then openFor c r stop (acc + (stop - pos)) else some acc
    else openFor c r pos acc

/-- Time from a place in the cycle until a class closes, counting round the cycle boundary once; none: never. -/
def openFrom (sp : List (Nat × Nat × Nat × Nat)) (cycle c pos : Nat) : Option Nat :=
  let next := sp.map (fun x => (x.1 + cycle, x.2.1 + cycle, x.2.2.1, x.2.2.2))
  if sp.all (fun x => bit x.2.2.1 c) then none else openFor c (sp ++ next) pos 0

/-- The running list's spans. -/
def runSpans (g : GateState) : List (Nat × Nat × Nat × Nat) := if g.running then gateSpans g g.oper g.cycle g.len else []

/-- Served ns now. -/
def servedNow (s : State) : Nat := timeNs s.time.served

/-- Place of now in the running list's cycle. -/
def gatePos (g : GateState) (now : Nat) : Nat := if g.cycle = 0 then 0 else (now - g.start) % g.cycle

/-- When a pending change takes over: at the base time without a running list, else at the first cycle boundary at or
after it (R286). -/
def takeoverAt (g : GateState) (p : GatePending) : Nat :=
  if g.running then g.start + cdiv (p.base - g.start) g.cycle * g.cycle else p.base

/-- What is left of the window of a class at a time, in ns; none: it never closes (R284). -/
def windowLeft (g : GateState) (c now : Nat) : Option Nat :=
  let cur := if g.running then openFrom (runSpans g) g.cycle c (gatePos g now) else none
  match g.pending with
  | none => cur
  | some p =>
    let t := takeoverAt g p
    let reaches := match cur with | none => true | some w => decide (t ≤ now + w)
    if reaches then
      if p.enable then
        (openFrom (gateSpans g (1 - g.oper) p.cycle p.len) p.cycle c 0).map (fun w => (t - now) + w)
      else none
    else cur

/-- MAXWIN of a class in the running list, in ns; none: unlimited (R285). -/
def maxWindow (g : GateState) (c : Nat) : Option Nat :=
  if g.running then
    let sp := runSpans g
    if sp.all (fun x => bit x.2.2.1 c) then none
    else some ((sp.map (fun x => (openFrom sp g.cycle c x.1).getD 0)).foldl max 0)
  else none

/-- The frame time in ticks (R284). -/
def frameTicks (len rate : Nat) : Nat := cdiv ((len + 20) * 8 * 5) (4 * rate)

/-- A frame time of ticks fits in a number of ns, from the fraction of served time on. -/
def fitsIn (s : State) (ticks : Nat) (left : Option Nat) : Bool :=
  match left with
  | none => true
  | some ns =>
    let frac := s.time.served % nsUnit
    decide ((ticks * 8 : Nat) * nsUnit ≤ ((ns : Int) * nsUnit - frac) * 10)

/-! ### Discards at egress (R231, R261) -/

/-- A frame leaves every queue it stands in: output queues of its slice, replication, punt, egress. -/
def purgeFrame (s : State) (id : Nat) : State :=
  onFrame s id (fun f =>
    let s := modStore s f.slice (fun c =>
      { c with
        voq := (c.voq.map (fun e => (e.1, e.2.filter (· != id)))).filter (fun e => !e.2.isEmpty),
        crossed := c.crossed.filter (fun e => (tget [] c.voq e.1).head? != some id),
        repl := c.repl.filter (fun r => r.1 != id), punt := c.punt.filter (· != id) })
    { s with egress := { s.egress with
        queues := (s.egress.queues.map (fun e =>
          (e.1, { e.2 with parts := e.2.parts.filter (fun p => p.frame != id), units := e.2.units.filter (fun u => u.1 != id) }))
            ).filter (fun e => decide (e.2 ≠ EgressQueue.reset)),
        ports := (s.egress.ports.map (fun e => (e.1, { e.2 with sending :=
          match e.2.sending with | some x => if x.part.frame == id then none else some x | none => none }))
            ).filter (fun e => decide (e.2 ≠ EgressPort.reset)) } })

/-- A cell or frame descriptor reads uncorrectable: the frame is discarded, the cells that can be reached are freed and
the others are lost until reset (R231). -/
def descUe (s : State) (id reach : Nat) : State :=
  onFrame s id (fun f =>
    let s := logUe (crlLast (raiseEv (cntSl s f.slice 0x280) .crlEvent [f.slice] [2]) f.slice 2 (f.cellList.headD 0))
      0x07 (f.cellList.headD 0) 2
    let lost := f.cellList.drop reach
    let s := purgeFrame s id
    let s := freeCells s f.slice f.owner (f.cellList.take reach)
    let s := uncharge s f.slice f.owner lost.length
    let s := modStore s f.slice (fun c => { c with lost := c.lost + lost.length })
    releaseFrame (verdictBad (stampLost (modFrame s id (fun f => { f with cellList := [] })) id) id) id)

/-- Bytes with the ECN field of the outermost IP header set to CE (R258); the IPv4 header checksum follows. -/
def markCe (l : List Byte) (off : Nat) : List Byte :=
  if byteAt l off / 16 = 4 then
    let w := beAt l off 2
    let w' := w - w % 4 + 3
    let c := beAt l (off + 10) 2
    patch (patch l off (be 2 w')) (off + 10) (be 2 (cksAdjust c w w'))
  else
    let b := byteAt l (off + 1)
    patch l (off + 1) [byte (withBits b 5 4 3)]

/-- The sum of bytes as 16-bit words aligned to the parity of an offset. -/
def alignedSum (off base : Nat) (l : List Byte) : Nat :=
  onesFold (sum16 (if off % 2 = base % 2 then l else (0 : Byte) :: l))

/-- Bytes with a one-step originTimestamp written, and the checksum complement when there is one (R339). -/
def oneStep (l : List Byte) (off cks : Nat) (t : Int) : List Byte :=
  let ns := timeNs t
  let stamp := be 6 (ns / 1000000000) ++ be 4 (ns % 1000000000)
  let l' := patch l off stamp
  if cks = 0 then l'
  else
    let w := onesFold (beAt l cks 2 + alignedSum off cks (slice l off 10) + (65535 - alignedSum off cks stamp))
    patch l' cks (be 2 w)

/-- The frame's bytes as sent, FCS excluded. -/
def Frame.wire (f : Frame) (t : Int) : List Byte :=
  let l := match f.ipOff with
    | some o => if f.ecn then markCe f.data o else f.data
    | none => f.data
  if f.tsKind = 2 then oneStep l f.tsOff f.tsCks t else l

/-- What is in flight of a frame to a queue is discarded as it comes; a unit with nothing else gives its room back. -/
def dropSegs (s : State) (q id : Nat) : State :=
  let keep (u : CrossUnit) : CrossUnit := if u.eq == q then { u with segs := u.segs.filter (fun g => g.frame != id) } else u
  { s with wale := { s.wale with flight := (s.wale.flight.map keep).filter (fun u => !u.segs.isEmpty) } }

/-- The port stops sending at once (R260, R261 step 2): the frame it sends is void and counted, once; while the PCS still
transmits (`pcs`), it ends the frame with an error control code. -/
def cutSending (s : State) (p : Nat) (pcs : Bool) : State :=
  match (egAt s p).sending with
  | none => s
  | some x =>
    let id := x.part.frame
    let n := sentBytes s p x
    let s := modEg s p (fun e => { e with sending := none })
    let s := dropSegs (creditBack (cntPort s p 11) (eqNum p x.cls) id) (eqNum p x.cls) id
    onFrame s id (fun f =>
      let s := if pcs then emit s (.frameError p ((f.wire x.startTime).take n)) else s
      if (tget [] (storeAt s f.slice).voq (ownerQ p x.cls)).contains id then
        discardStored (voqRemove s f.slice (ownerQ p x.cls) id) id
      else discardCrossed s id)

/-- Discard every frame of one egress queue of a port: in its egress buffer, in flight and in all eight slices. -/
def flushQueue (s : State) (p c : Nat) : State :=
  let q := eqNum p c
  let over_ := ((eqAt s q).parts.map EqPart.frame
    ++ (s.wale.flight.filter (fun u => u.eq == q)).flatMap (fun u => u.segs.map Seg.frame)).eraseDups
  let s := modEq s q (fun e => { e with parts := [], units := [] })
  let s := { s with wale := { s.wale with flight := s.wale.flight.filter (fun u => u.eq != q) } }
  let waiting := (List.range 8).flatMap (fun sl => (tget [] (storeAt s sl).voq q).map (fun id => (sl, id)))
  let s := (List.range 8).foldl (fun s sl => modStore s sl (fun c =>
    { c with voq := tdel c.voq q, crossed := tdel c.crossed q })) s
  let s := waiting.foldl (fun s w => discardStored (cntPort s p 11) w.2) s
  over_.foldl (fun s id =>
    if waiting.any (fun x => x.2 == id) || (frameAt s id).isNone then s else discardCrossed (cntPort s p 11) id) s

/-- A port becomes closed: every frame queued to it is discarded, in the order of R261; its deficits and granted bits
are 0 from then (R268). `pcs`: its PCS still transmits. -/
def closeDiscard (s : State) (p : Nat) (pcs : Bool) : State :=
  let s := cutSending s p pcs
  let s := (List.range 8).foldl (fun s c => flushQueue s p c) s
  (List.range 8).foldl (fun s c => modEq s (eqNum p c) (fun e => { e with deficit := 0, granted := false })) s

/-! ### Frames that no window takes (R285) -/

/-- The head of a queue: the first frame that joined it. -/
def EgressQueue.head (e : EgressQueue) : Option EqPart :=
  match e.parts with
  | p :: _ => if p.joined then some p else none
  | [] => none

/-- A head whose frame time is above MAXWIN is discarded as gate-oversize (R285). -/
def oversizeHead (s : State) (port c : Nat) : Option Nat :=
  match (eqAt s (eqNum port c)).head with
  | none => none
  | some p =>
    match frameAt s p.frame, maxWindow (egAt s port).gate c with
    | some f, some w =>
      if w * 10 < frameTicks f.txLen (portRate s port) * 8 then some p.frame else none
    | _, _ => none

/-- Discard the gate-oversize heads of a class, at most `n`. -/
def dropOversize (port c : Nat) : Nat → State → State
  | 0, s => s
  | n + 1, s =>
    match oversizeHead s port c with
    | none => s
    | some id =>
      let q := eqNum port c
      let s := cntPort s port 14
      let s := modEq s q (fun e => { e with parts := e.parts.drop 1 })
      dropOversize port c n (discardCrossed (creditBack s q id) id)

/-- The frames at the head of a class that no window takes are discarded as they become heads. -/
def judgeHeads (s : State) (port c : Nat) : State := dropOversize port c (eqAt s (eqNum port c)).parts.length s

end Sys2Proof.Machine
end

