-- ==== Sys2Proof/Machine/Receive.lean ====
section
/-! DEFINITION. The meanings of FRAME_RECEIVE and FRAME_TAIL: the receive checks (11/R347, R348, R362; 10/R335), the tail's
FCS and what a bad tail does to a frame (07/R242, R252, R256; 14/R437), and what slot accounting counts of a pass
(17/R494). -/

namespace Sys2Proof.Machine

/-! ### Slots (17/R494, R495) -/

/-- A pass retired its slot. -/
def slotRetired (s : State) (sl : Nat) : State := cntSl s sl 0x260

/-- A pass wasted its slot: its frame was discarded before its final Rewrite completed. -/
def slotDropped (s : State) (sl : Nat) : State := cntSl (cntSl s sl 0x261) sl 0x265

/-- A pass wasted its slot: it ended in recirculation. -/
def slotRecirc (s : State) (sl : Nat) : State := cntSl (cntSl s sl 0x261) sl 0x264

/-! ### The receive buffer (R348) -/

/-- A frame's bytes are still in its macro's receive buffer (07/R229). -/
def Frame.buffered (f : Frame) : Bool :=
  f.origin == 0 && (match f.stage with
    | .received | .parsed | .recirculating | .policing => true
    | _ => false)

/-- Bytes free in a macro's receive buffer of 128 KiB. -/
def rxFree (s : State) (m : Nat) : Nat :=
  131072 - ((s.frames.filter (fun e => e.2.buffered && e.2.port / 8 == m)).map (fun e => e.2.rxLen)).foldl (· + ·) 0

/-- MAX_FRAME of a port: below 64 acts as 64, above 10,240 as 10,240. -/
def maxFrame (s : State) (port : Nat) : Nat := min 10240 (max 64 (fld s .portCtl [port] 13 0))

/-- The loop in force on a port: that of its first lane (R361). -/
def loopOf (s : State) (port : Nat) : Nat := fld s .laneCfg [port] 28 27

/-- The port runs against itself in the loop of its first lane (R362). -/
def nearLoop (s : State) (port : Nat) : Bool := loopOf s port == 1 || loopOf s port == 2

/-- A frame of which `n` bytes were stored, its last four taken as its FCS. -/
def storedFrame (s : State) (port : Nat) (bytes : List Byte) (n : Nat) (bad : Bool) : Frame :=
  let b := bytes.take n
  let f := Frame.fresh port (sliceOf port) 0 (b.take (n - 4)) (unle (b.drop (n - 4))) s.time.tick
  { f with rxLen := n, looped := nearLoop s port, errored := bad,
           rxStamp := portStamp s port }

/-- The receive checks of Table 11-2 on a frame that comes from the PCS: storing stops where the buffer fills, or at
MAX_FRAME. -/
def receiveChecks (port : Nat) (bytes : List Byte) (errored : Bool) (s : State) : State :=
  let n := bytes.length
  if n < 64 then cntPort s port 0
  else if rxFree s (port / 8) < 512 then cntPort s port 1
  else
    let s := if errored then modPort (cntPort s port 7) port (fun p => { p with uncorr := p.uncorr + 1 }) else s
    let free := rxFree s (port / 8)
    if free < n ∧ free < maxFrame s port then addFrame (cntPort s port 1) (storedFrame s port bytes free true)
    else if maxFrame s port < n then
      addFrame (cntPort s port 2) (storedFrame s port bytes (maxFrame s port) true)
    else addFrame s (storedFrame s port bytes n errored)

/-- A frame from the partner: none is delivered unless the port is UP, and in a loop the partner is not heard (R362). -/
def frameReceive (port : Nat) (bytes : List Byte) (errored : Bool) (s : State) : State :=
  if portUp s port && loopOf s port == 0 then receiveChecks port bytes errored s else s

/-- FRAME_RECEIVE (R347). -/
def execFrameReceive (port : Nat) (bytes : List Byte) (errored : Bool) (s : State) : Host.Outcome State Fault Refusal :=
  .next (frameReceive port bytes errored s)

/-! ### The tail -/

/-- The FCS check of a frame as received: the difference between the FCS computed and the one received. -/
def Frame.rxFcsDiff (f : Frame) : Nat := Nat.xor (crc32 f.rx) f.fcs

/-- A frame is on the wire at some port. -/
def isSending (s : State) (id : Nat) : Bool :=
  s.egress.ports.any (fun e => match e.2.sending with | some x => x.part.frame == id | none => false)

/-- A frame that holds cells leaves every queue, void, its cells freed. -/
def voidStored (s : State) (id : Nat) : State := releaseFrame (verdictBad (freeFrame (purgeFrame s id) id) id) id

/-- What a bad tail does where the frame stands (R242, R256, 14/R436). -/
def tailBad (s : State) (id : Nat) : State :=
  let s := growFrame [] (modFrame s id (fun f => { f with tail := .bad, times := { f.times with tail := some s.time.tick } })) id
  onFrame s id (fun f =>
    match f.stage with
    | .queued => if f.cut && isSending s id then verdictBad s id else voidStored s id
    | .punted => voidStored (puntDropped s f.slice (f.punt.getD 0)) id
    | _ => s)

/-- A good tail: its cells are all taken now. -/
def tailGood (s : State) (id : Nat) : State :=
  growFrame [] (modFrame s id (fun f => { f with tail := .good, times := { f.times with tail := some s.time.tick } })) id

/-- The tail of a frame received on a line port arrives. -/
def frameTail (id : Nat) (s : State) : State :=
  onFrame s id (fun f =>
    if f.tail != .pending then s
    else
      let d := f.rxFcsDiff
      let s := if d = 0xFFFFFFFF ∧ ¬ f.errored then cntPort s f.port 5 else s
      if d = 0 ∧ ¬ f.errored then tailGood s id else tailBad s id)

/-- What a port in loop 1 or 2 has sent is received again, with the timestamp of its own sending and the receive
adjustment (R362, 10/R335). -/
def loopedBack (port : Nat) (x : Sending) (bytes : List Byte) (s : State) : State :=
  if portUp s port && nearLoop s port then
    let id := s.nextFrame
    let adj := stampSet s port
    let t := x.startTime + (sint 32 adj.2.1 - sint 32 adj.2.2) * 16777216
    let s := modFrame (receiveChecks port bytes false s) id (fun f => { f with rxStamp := stampRecord x.startTick t x.base })
    frameTail id s
  else s

/-- FRAME_TAIL (R67). -/
def execFrameTail (id : Nat) (s : State) : Host.Outcome State Fault Refusal := .next (frameTail id s)

/-- A frame keeps only the bytes that had come when its port stopped delivering; what egress sends after them is a stomp
FCS (Table 11-2, 07/R257). -/
def cutShort (s : State) (id : Nat) : State :=
  onFrame s id (fun f =>
    let n := arrived s f
    modFrame s id (fun f => { f with
      rxLen := n, rx := f.rx.take (n - 4), data := f.data.take (f.data.length + 4 - (f.rxLen - n)),
      }))

/-- A link drop or a macro's power-down ends a frame whose tail has not come: discarded when its head has not passed to
Parse, else ended with a bad tail (R347, 07/R257). -/
def abortReceive (s : State) (id : Nat) : State :=
  onFrame s id (fun f =>
    let s := cntPort s f.port 3
    match f.stage with
    | .received => dropFrame s id
    | _ => tailBad (cutShort s id) id)

end Sys2Proof.Machine
end

