-- ==== Sys2Proof/Machine/Parse.lean ====
section
/-! DEFINITION. HEAD_PARSE: the parse engine over host-written programs (04/R104–R113), the built-in program (R115–R117),
the access map (R118, R119), malformed heads (R121–R123) and head tagging (17/R496). -/

namespace Sys2Proof.Machine

/-! ### A pass under way -/

/-- What a pass has gathered so far. -/
structure Walk where
  data : List Byte
  fail : Nat
  ended : Bool
  cursor : Nat
  steps : Nat
  last : Nat
  /-- Header types of the steps executed, oldest first, and the layer list. -/
  path : List Nat
  layers : List (Nat × Nat)
  ovf : Bool
  area : List Byte
  ip : Option IpAt
  src : Nat
  dst : Nat
  proto : Nat
  sp : Nat
  dp : Nat
  extLo : Nat
  extHi : Nat
  /-- An ICMP error type was found and its embedded packet comes next; the key is an embedded packet's. -/
  icmpPend : Bool
  icmpErr : Bool
  frag : Bool
  extN : Nat
  vlanN : Nat
  mplsN : Nat
  tunN : Nat
  /-- VLAN IDs of the outermost Ethernet layer, and whether the pass is still in it. -/
  tags : List Nat
  outermost : Bool
  vni : Option Nat
  mpls : Option Nat
  outer : Option IpAt
  carrier : Option IpAt
  tun : Option (Nat × Option Nat)

/-- The start of a pass over a frame. -/
def Walk.start (data : List Byte) : Walk where
  data := data
  fail := 0
  ended := false
  cursor := 0
  steps := 0
  last := 0
  path := []
  layers := []
  ovf := false
  area := zeros 80
  ip := none
  src := 0
  dst := 0
  proto := 0
  sp := 0
  dp := 0
  extLo := 0
  extHi := 0
  icmpPend := false
  icmpErr := false
  frag := false
  extN := 0
  vlanN := 0
  mplsN := 0
  tunN := 0
  tags := []
  outermost := true
  vni := none
  mpls := none
  outer := none
  carrier := none
  tun := none

/-- The pass fails with a reason. -/
def Walk.failWith (w : Walk) (r : Nat) : Walk := { w with fail := r, ended := true }

/-- The pass ends. -/
def Walk.finish (w : Walk) : Walk := { w with ended := true }

/-- One more step is executed: step number, header type, and the layer it records. -/
def Walk.count (w : Walk) (step hdr : Nat) : Walk :=
  let w := { w with steps := w.steps + 1, last := step, path := w.path ++ [hdr] }
  if hdr = 0 then w
  else if w.layers.length < 8 then { w with layers := w.layers ++ [(hdr, w.cursor)] }
  else { w with ovf := true }

/-- Why bytes up to a place in the frame cannot be read (R108); 0 when they can. -/
def Walk.limit (w : Walk) (stop : Nat) : Nat :=
  if w.data.length < stop then 1
  else if 256 < w.data.length + 4 ∧ 256 < stop then 2
  else 0

/-- A byte and a network-order number of the header at the cursor. -/
def Walk.b (w : Walk) (o : Nat) : Nat := byteAt w.data (w.cursor + o)
def Walk.n (w : Walk) (o k : Nat) : Nat := beAt w.data (w.cursor + o) k

/-- Bytes of the header at the cursor. -/
def Walk.bytes (w : Walk) (o k : Nat) : List Byte := slice w.data (w.cursor + o) k

/-- Write bytes at an offset of the header vector's area, given as a vector offset (Table 04-6). -/
def Walk.put (w : Walk) (voff : Nat) (l : List Byte) : Walk := { w with area := patch w.area (voff - 64) l }

/-- The packet being parsed is one that an ICMP error quotes (R112). -/
def Walk.embedded (w : Walk) : Bool := w.icmpPend || w.icmpErr

/-! ### Key roles (R112, Table 04-3) -/

/-- Bytes of the header that a role reads. -/
def roleNeeds (w : Walk) (role exb : Nat) : Nat :=
  match role with
  | 1 => max 20 (w.b 0 % 16 * 4)
  | 2 => 40
  | 3 => 1
  | 4 => 4
  | 5 => if w.embedded then 4 else if w.proto = 6 then 13 else if w.proto = 17 then 6 else 4
  | 6 => if w.b 0 = 8 ∨ w.b 0 = 0 then 6 else 1
  | 7 => if w.b 0 = 128 ∨ w.b 0 = 129 then 6 else 1
  | 8 => 2
  | 9 => 7
  | 10 => 3
  | 12 | 13 => exb + 4
  | _ => 0

/-- The reason a role's check fails with; 0 when it holds. -/
def roleCheck (w : Walk) (role : Nat) : Nat :=
  let present := w.data.length - w.cursor
  match role with
  | 1 =>
    let ihl := w.b 0 % 16
    let total := w.n 2 2
    if w.b 0 / 16 ≠ 4 ∨ ihl < 5 ∨ total < ihl * 4 ∨ (!w.embedded && decide (present < total)) then 5
    else if inetSum (w.bytes 0 (ihl * 4)) ≠ 0 then 6
    else 0
  | 2 => if w.b 0 / 16 ≠ 6 ∨ (!w.embedded && decide (present - 40 < w.n 4 2)) then 7 else 0
  | 3 | 4 => if 4 ≤ w.extN then 8 else 0
  | 5 =>
    if w.embedded then 0
    else if w.proto = 6 then
      let stop := (w.ip.map IpAt.stop).getD w.data.length
      if w.b 12 / 16 < 5 ∨ stop < w.cursor + w.b 12 / 16 * 4 then 10 else 0
    else if w.proto = 17 then if w.n 4 2 < 8 then 10 else 0
    else 0
  | 8 => if 2 ≤ w.vlanN then 16 else 0
  | 10 => if 8 ≤ w.mplsN then 9 else 0
  | 11 => if 2 ≤ w.tunN then 12 else 0
  | 14 | 15 => 4
  | _ => 0

/-- An IP role contributes its addresses and PROTO; earlier contributions are discarded. -/
def Walk.ipRole (w : Walk) (v6 : Bool) (stop src dst proto : Nat) (frag : Bool) : Walk :=
  let here : IpAt := ⟨v6, w.cursor, stop, none⟩
  { w with
    ip := some here, src := src, dst := dst, proto := proto, sp := 0, dp := 0, frag := frag, extN := 0, vlanN := 0,
    outermost := false, outer := w.outer.orElse (fun _ => some here),
    carrier := if w.icmpPend then w.ip else none, icmpErr := w.icmpPend, icmpPend := false }

/-- The transport header of the innermost IP packet starts at the cursor. -/
def Walk.markL4 (w : Walk) : Walk := { w with ip := w.ip.map (fun i => { i with l4 := some w.cursor }) }

/-- An ICMP role: the identifier of an echo as both ports; an error type makes the embedded packet the one keyed. -/
def Walk.icmpRole (w : Walk) (echo error : Bool) : Walk :=
  let w := w.markL4
  if echo then { w with sp := w.n 4 2, dp := w.n 4 2 }
  else if error && !w.icmpErr then { w with icmpPend := true }
  else w

/-- What a decapsulation keeps, from the header of a TUNNEL step: a GRE header (outer protocol 47) carries what follows
it; any other tunnel step is the inner Ethernet header itself. -/
def Walk.tunnelAt (w : Walk) (len : Nat) : Nat × Option Nat :=
  if w.proto = 47 then
    (w.cursor + len, if w.n 2 2 = 0x6558 then none else w.ip.map IpAt.off)
  else (w.cursor, none)

/-- The effect of a role whose check holds; `len` is the header's length. -/
def roleEffect (w : Walk) (role exb len : Nat) : Walk :=
  match role with
  | 1 => w.ipRole false (w.cursor + w.n 2 2) (w.n 12 4) (w.n 16 4) (w.b 9) (w.n 6 2 % 16384 != 0)
  | 2 => w.ipRole true (w.cursor + 40 + w.n 4 2) (w.n 8 16) (w.n 24 16) (w.b 6) false
  | 3 => { w with proto := w.b 0, extN := w.extN + 1 }
  | 4 => { w with proto := w.b 0, extN := w.extN + 1, frag := w.n 2 2 / 8 != 0 || w.n 2 2 % 2 == 1 }
  | 5 => { w.markL4 with sp := w.n 0 2, dp := w.n 2 2 }
  | 6 => w.icmpRole (w.b 0 == 8 || w.b 0 == 0) (w.b 0 == 3 || w.b 0 == 11 || w.b 0 == 12)
  | 7 => w.icmpRole (w.b 0 == 128 || w.b 0 == 129) (decide (1 ≤ w.b 0) && decide (w.b 0 ≤ 4))
  | 8 => { w with vlanN := w.vlanN + 1, tags := if w.outermost then w.tags ++ [w.n 0 2 % 4096] else w.tags }
  | 9 => { w with vni := some (w.n 4 3), vlanN := 0, outermost := false }
  | 10 => { w with mpls := some (w.n 0 3 / 16), mplsN := w.mplsN + 1 }
  | 11 =>
    { w with
      ip := none, src := 0, dst := 0, proto := 0, sp := 0, dp := 0, icmpErr := false, icmpPend := false, carrier := none,
      tunN := w.tunN + 1, vlanN := 0, outermost := false, tun := some (w.tunnelAt len) }
  | 12 => { w with extLo := w.n exb 4 }
  | 13 => { w with extHi := w.n exb 4 }
  | _ => w

/-! ### Host-written programs (R107–R111) -/

/-- Reasons of several places that a step reads, TRUNCATED first. -/
def worstLimit (l : List Nat) : Nat := if l.contains 1 then 1 else if l.contains 2 then 2 else 0

/-- A field of `bits` bits (0 is 16) of a word, after a shift. -/
def wordField (word shift bits : Nat) : Nat := word / 2 ^ shift % 2 ^ (if bits = 0 then 16 else bits)

/-- The first transition entry of a range that decides (R109): its END and NEXT; `bad` when the range runs past the
last entry. -/
def searchTrans (x : SliceState) (version sel : Nat) : Nat → Nat → Option (Bool × Nat)
  | _, 0 => none
  | i, n + 1 =>
    let e := transEntry x i
    let w := transImage e.image
    let mask := bits w 47 32
    if visTo e.vis version && bit w 31 && Nat.land sel mask == Nat.land (bits w 63 48) mask
    then some (bit w 30, bits w 29 19)
    else searchTrans x version sel (i + 1) n

/-- Where a step leads when no entry decides: FAIL_REASON, END_DEFAULT, NEXT_DEFAULT in that order. -/
def afterDefault (w : Walk) (img : Nat) : Walk × Nat :=
  let fr := bits img 11 7
  if fr ≠ 0 then (w.failWith (if fr < 16 then 4 else fr), 0)
  else if bit img 12 then (w.finish, 0)
  else (w, bits img 23 13)

/-- One step of a host-written program: the pass after it, and the next step. Its selector word must lie inside the frame
only when it searches entries (DESIGN CHOICE: R108 does not say so of TRANS_COUNT 0, log entry 41). -/
def progStep (x : SliceState) (version : Nat) (w : Walk) (step : Nat) : Walk × Nat :=
  let e := stepEntry x step
  let img := stepImage e.image
  if !visTo e.vis version || !bit img 127 then ((w.count step 0).failWith 4, 0)
  else
    let w := w.count step (bits img 126 120)
    let mode := bits img 119 118
    let role := bits img 93 90
    let o := w.cursor
    if mode = 3 ∨ role = 14 ∨ role = 15 then (w.failWith 4, 0)
    else
      let lenWord := w.n (bits img 117 112) 2
      let len := match mode with
        | 0 => bits img 101 94
        | 1 => wordField lenWord (bits img 111 108) (bits img 107 104) * 2 ^ bits img 103 102 + bits img 101 94
        | _ => 0
      let tcount := bits img 27 24
      let selects := mode != 2 && tcount != 0
      let reads := [o + len, o + roleNeeds w role (bits img 71 66)]
        ++ (if mode = 1 then [o + bits img 117 112 + 2] else [])
        ++ (if bits img 83 79 ≠ 0 then [o + bits img 89 84 + bits img 83 79] else [])
        ++ (if bits img 65 61 ≠ 0 then [o + bits img 71 66 + bits img 65 61] else [])
        ++ (if selects then [o + bits img 53 48 + 2] else [])
      let r := worstLimit (reads.map w.limit)
      if r ≠ 0 then (w.failWith r, 0)
      else
        let c := roleCheck w role
        if c ≠ 0 then (w.failWith c, 0)
        else
          let sel := wordField (w.n (bits img 53 48) 2) (bits img 47 44) (bits img 43 40)
          let w1 := { w with area := patch w.area (bits img 78 72) (w.bytes (bits img 89 84) (bits img 83 79)) }
          let w2 := { w1 with area := patch w1.area (bits img 60 54) (w.bytes (bits img 71 66) (bits img 65 61)) }
          let w3 := roleEffect w2 role (bits img 71 66) len
          let w4 := { w3 with cursor := o + len }
          if w4.frag ∨ mode = 2 then (w4.finish, 0)
          else if 4096 < bits img 39 28 + tcount then (w4.failWith 4, 0)
          else match searchTrans x version sel (bits img 39 28) tcount with
            | some (true, _) => (w4.finish, 0)
            | some (false, next) => (w4, next)
            | none => afterDefault w4 img

/-! ### The built-in program (R116, R117, Tables 04-5 and 04-6) -/

/-- The header the built-in program reads next. -/
inductive Node where
  | eth (inner : Bool) | tag | mpls | ip4 | ip6 | ext (ah : Bool) | frag6 | tcp | udp | icmp | icmp6 | vxlan | gre
  deriving DecidableEq, Repr

/-- Header type, role of a node. -/
def Node.hdr : Node → Nat
  | .eth _ => 1 | .tag => 2 | .mpls => 3 | .ip4 => 4 | .ip6 => 5 | .ext _ => 6 | .frag6 => 7 | .tcp => 8 | .udp => 9
  | .icmp => 10 | .icmp6 => 11 | .vxlan => 12 | .gre => 13
def Node.role : Node → Nat
  | .eth inner => if inner then 11 else 0
  | .tag => 8 | .mpls => 10 | .ip4 => 1 | .ip6 => 2 | .ext _ => 3 | .frag6 => 4 | .tcp | .udp => 5
  | .icmp => 6 | .icmp6 => 7 | .vxlan => 9 | .gre => 0

/-- The header's length in the built-in program; a tunnel's GRE header is 4 bytes, or 8 with C set. -/
def Node.len (w : Walk) : Node → Nat
  | .eth _ => 14
  | .tag | .mpls => 4
  | .ip4 => w.b 0 % 16 * 4
  | .ip6 => 40
  | .ext ah => if ah then (w.b 1 + 2) * 4 else (w.b 1 + 1) * 8
  | .frag6 | .udp | .icmp | .icmp6 | .vxlan => 8
  | .tcp => if w.embedded then 8 else w.b 12 / 16 * 4
  | .gre => if w.n 0 2 / 32768 = 1 then 8 else 4

/-- Bytes a node reads before its length is known, and beyond its header for the choice of the next one. -/
def Node.least (w : Walk) : Node → Nat
  | .ip4 => 1
  | .ext _ => 2
  | .tcp => if w.embedded then 8 else 13
  | .mpls => if w.n 0 4 / 256 % 2 = 1 then 6 else 4
  | .gre => 4
  | _ => 0

/-- A GRE header that the program takes for a tunnel: version 0, reserved bits zero, a type it knows. -/
def greTunnel (w : Walk) : Bool :=
  w.n 0 2 % 32768 == 0 && (w.n 2 2 == 0x6558 || w.n 2 2 == 0x0800 || w.n 2 2 == 0x86DD)

/-- What follows an EtherType. -/
def afterType (w : Walk) (t : Nat) : Walk × Option Node :=
  if t = 0x8100 ∨ t = 0x88A8 then (w, some .tag)
  else if t = 0x8847 ∨ t = 0x8848 then (w, some .mpls)
  else if t = 0x0800 then (w, some .ip4)
  else if t = 0x86DD then (w, some .ip6)
  else (w.failWith 17, none)

/-- What follows a protocol or next-header value. -/
def afterProto (w : Walk) (v6 : Bool) (p : Nat) : Walk × Option Node :=
  if v6 && (p == 0 || p == 43 || p == 60) then (w, some (.ext false))
  else if v6 && p == 51 then (w, some (.ext true))
  else if v6 && p == 44 then (w, some .frag6)
  else if p = 6 then (w, some .tcp)
  else if p = 17 then (w, some .udp)
  else if p = 1 then (w, some .icmp)
  else if p = 58 then (w, some .icmp6)
  else if p == 47 && w.tunN == 0 && !w.embedded then (w, some .gre)
  else (w.finish, none)

/-- The innermost IP packet is the outermost one. -/
def Walk.inOuter (w : Walk) : Bool := (w.ip.map IpAt.off) == (w.outer.map IpAt.off)

/-- The outer protocol follows the PROTO of the outermost packet. -/
def Walk.putProto (w : Walk) : Walk := if w.inOuter then w.put 136 [byte w.proto] else w

/-- The area after a header, by its bytes before the cursor moves (`h`) and the pass with its role done (`w`). -/
def fillArea (h w : Walk) (n : Node) : Walk :=
  match n with
  | .eth inner =>
    let w := if inner then w else w.put 64 (h.bytes 0 12)
    (w.put 76 (h.bytes 12 2)).put 78 (zeros 4)
  | .tag => (w.put 76 (h.bytes 2 2)).put (if h.vlanN = 0 then 78 else 80) (h.bytes 0 2)
  | .mpls => (if h.path.dropLast.getLast? = some 3 then w else w.put 82 (h.bytes 0 4)).put 86 (h.bytes 0 4)
  | .ip4 =>
    let w := (((w.put 90 (h.bytes 1 1)).put 91 (h.bytes 8 1)).put 92 (h.bytes 4 4)).put 96 (zeros 4)
    (if w.inOuter then w.put 120 (be 16 w.dst) else w).putProto
  | .ip6 =>
    let w := (((w.put 90 [byte (h.n 0 4 / 1048576)]).put 91 (h.bytes 7 1)).put 92 (zeros 4)).put 96
      (be 4 (h.n 0 4 % 1048576))
    (if w.inOuter then w.put 120 (be 16 w.dst) else w).putProto
  | .ext _ => w.putProto
  | .frag6 => (w.put 92 (h.bytes 4 4)).putProto
  | .tcp =>
    if h.embedded then w.put 104 (h.bytes 4 4)
    else (((w.put 100 (h.bytes 13 1)).put 103 (h.bytes 12 1)).put 104 (h.bytes 4 8)).put 112 (h.bytes 14 2)
  | .udp => if w.inOuter then w.put 138 (h.bytes 2 2) else w
  | .icmp | .icmp6 => w.put 101 (h.bytes 0 2)
  | .vxlan => w.put 116 ((0 : Byte) :: h.bytes 4 3)
  | .gre => w.put 140 (h.bytes 2 2)

/-- The header that follows (`h` is the pass before the cursor moved, `w` after). -/
def nextNode (h w : Walk) (n : Node) : Walk × Option Node :=
  if w.frag then (w.finish, none)
  else match n with
  | .eth _ => afterType w (h.n 12 2)
  | .tag => afterType w (h.n 2 2)
  | .mpls =>
    if h.n 0 4 / 256 % 2 = 0 then (w, some .mpls)
    else if w.b 0 / 16 = 4 then (w, some .ip4)
    else if w.b 0 / 16 = 6 then (w, some .ip6)
    else (w.failWith 18, none)
  | .ip4 => afterProto w false w.proto
  | .ip6 | .ext _ | .frag6 => afterProto w true w.proto
  | .tcp => (w.finish, none)
  | .udp => if h.n 2 2 = 4789 ∧ w.tunN = 0 ∧ ¬ w.embedded then (w, some .vxlan) else (w.finish, none)
  | .icmp => if w.icmpPend then (w, some .ip4) else (w.finish, none)
  | .icmp6 => if w.icmpPend then (w, some .ip6) else (w.finish, none)
  | .vxlan => (w, some (.eth true))
  | .gre => if h.n 2 2 = 0x6558 then (w, some (.eth true)) else afterType w (h.n 2 2)

/-- One step of the built-in program. -/
def nodeStep (w : Walk) (n : Node) : Walk × Option Node :=
  let w := w.count 0 n.hdr
  let r := w.limit (w.cursor + n.least w)
  if r ≠ 0 then (w.failWith r, none)
  else if n = .gre ∧ ¬ greTunnel w then ((fillArea w w n).finish, none)
  else
    let role := if n = .gre then 11 else n.role
    let len := n.len w
    let r := worstLimit [w.limit (w.cursor + len), w.limit (w.cursor + roleNeeds w role 0)]
    if n = .ip4 ∧ (w.b 0 / 16 ≠ 4 ∨ w.b 0 % 16 < 5) then (w.failWith 5, none)
    else if r ≠ 0 then (w.failWith r, none)
    else
      let c := roleCheck w role
      if c ≠ 0 then (w.failWith c, none)
      else
        let w' := fillArea w (roleEffect w role 0 len) n
        nextNode w { w' with cursor := w.cursor + len } n

/-- A pass of the built-in program. -/
def nodeRun (ue : Option Nat) : Nat → Walk → Node → Walk
  | 0, w, _ => w.failWith 3
  | k + 1, w, n =>
    if ue = some w.steps then (w.count 0 0).failWith 13
    else match nodeStep w n with
    | (w, some n) => if w.ended then w else nodeRun ue k w n
    | (w, none) => w

/-- The built-in program from its step 0 on: the number of its last step is its own. -/
def builtinFrom (ue : Option Nat) (k : Nat) (w : Walk) : Walk :=
  let r := nodeRun ue k w (.eth false)
  { r with last := Config.builtinLastStep r.path }

/-- The built-in program stands in a slice as the head's version sees it (R115). -/
def builtinStands (x : SliceState) (version : Nat) : Bool :=
  (List.range 96).all (fun i => (stepEntry x i).image == builtinMark i && visTo (stepEntry x i).vis version) &&
  (List.range 128).all (fun i => (transEntry x i).image == builtinMark i && visTo (transEntry x i).vis version)

/-- STEP_MAX in a version: values below 16 act as 16. -/
def stepMax (s : State) (sl version : Nat) : Nat := max 16 (fldV s .prsCfg [sl] version 23 16)

/-- A pass from a step on: at most STEP_MAX steps (R106). Where the built-in program stands it runs from its step 0. -/
def progRun (x : SliceState) (version : Nat) (ue : Option Nat) : Nat → Walk → Nat → Walk
  | 0, w, _ => w.failWith 3
  | n + 1, w, step =>
    if ue = some w.steps then (w.count step 0).failWith 13
    else if step = 0 ∧ builtinStands x version then builtinFrom ue (n + 1) w
    else
      let r := progStep x version w step
      if r.1.ended then r.1 else progRun x version ue n r.1 r.2

/-- One pass over a frame's bytes, from the step that the port's passes start at. `ue`: the executed step, from 0, whose read
or whose transitions' read is uncorrectable. -/
def runPass (s : State) (sl port version : Nat) (data : List Byte) (ue : Option Nat) : Walk :=
  progRun (sliceAt s sl) version ue (stepMax s sl version) (Walk.start data)
    (fldV s .prsPortEntry [sl, port % 32] version 10 0)

/-! ### Access identifiers and zones (R118–R120) -/

/-- The identifier of the port's access kind, when the frame has it. -/
def Walk.accessId (w : Walk) (kind : Nat) : Option Nat :=
  match kind with
  | 1 => match w.tags with
    | [] => none
    | [v] => some v
    | a :: b :: _ => some (a * 4096 + b)
  | 2 => w.vni
  | 3 => w.mpls
  | _ => none

/-- An access map entry maps a kind and identifier for a port, or for every port. -/
def accMatches (img kind id port : Nat) (all : Bool) : Bool :=
  bit img 63 && bits img 53 52 == kind && bits img 51 28 == id && bit img 62 == all && (all || bits img 61 54 == port)

/-- The zone the access map gives (R119). -/
def accessZone (x : SliceState) (version kind id port : Nat) : Option Nat :=
  let seen := x.access.filter (fun e => visTo e.2.vis version)
  match seen.find? (fun e => accMatches e.2.image kind id port false) with
  | some e => some (bits e.2.image 19 0)
  | none => (seen.find? (fun e => accMatches e.2.image kind id port true)).map (fun e => bits e.2.image 19 0)

/-- The zone of a head at the end of a pass: the access map, DEF_ZONE, or none for a pass that fails with ACCESS_MISS. -/
def headZone (s : State) (sl port version : Nat) (w : Walk) : Option Nat :=
  let acc := [sl, port % 32]
  let kind := fldV s .prsPortAcc acc version 31 30
  let dflt := fldV s .prsPortAcc acc version 19 0
  if kind = 0 then some dflt
  else match (w.accessId kind).bind (fun id => accessZone (sliceAt s sl) version kind id port) with
    | some z => some z
    | none => if fldV s .prsPortAcc acc version 29 29 = 1 then none else some dflt

/-! ### The end of a pass (R113, R114, R121) -/

/-- What the pass gives the rest of the slice; `ue`: an uncorrectable read that met no step meets the access map. -/
def Walk.head (w : Walk) (s : State) (sl port version : Nat) (ue : Bool) : HeadInfo :=
  let kind := fldV s .prsPortAcc [sl, port % 32] version 31 30
  let dflt := fldV s .prsPortAcc [sl, port % 32] version 19 0
  let id := w.accessId kind
  let fail := if w.fail ≠ 0 then w.fail else if w.ip.isNone then 17
    else if ue ∧ kind ≠ 0 ∧ id.isSome then 13
    else if (headZone s sl port version w).isNone then 11 else 0
  let zone := (headZone s sl port version w).getD dflt
  let kd := if fail ≠ 0 then ({ Key.zero with zone := dflt }, false)
    else
      let p := if w.frag then (0, 0) else (w.sp, w.dp)
      mkKey zone ((w.ip.map IpAt.v6).getD false) w.proto w.src p.1 w.dst p.2 (w.extHi * 2 ^ 32 + w.extLo)
  { key := kd.1, keyed := fail == 0, d := kd.2 != (w.icmpErr && fail == 0), tunnel := decide (0 < w.tunN), frag := w.frag,
    icmpErr := w.icmpErr, malReason := fail, malAction := 0, steps := w.steps, lastStep := w.last, cursor := w.cursor,
    accKind := if id.isSome then kind else 0, accId := id.getD 0, layers := w.layers, layerOvf := w.ovf, area := w.area,
    proto := w.proto, ip := if fail = 0 then w.ip else none, outer := w.outer, carrier := w.carrier, tun := w.tun }

/-- A failed pass is counted and recorded (R121). -/
def recordFailure (s : State) (sl port : Nat) (h : HeadInfo) : State :=
  let s := raiseEv (cntSl s sl (0x220 + h.malReason)) .malLast0 [sl] []
  modSlice s sl (fun x => { x with
    malPort := port, malReason := h.malReason, malSteps := h.steps, malLastStep := h.lastStep, malCursor := h.cursor })

/-- The action MAL_ACT gives a reason in a version: 0 drop, 1 punt, 2 forward flowless. -/
def malActionOf (s : State) (sl version r : Nat) : Nat :=
  let w := if r < 16 then fldV s .malActLo [sl] version 31 0 else fldV s .malActHi [sl] version 31 0
  let a := bits w (2 * (r % 16) + 1) (2 * (r % 16))
  if a = 3 then 0 else a

/-! ### The inline scan's wait (R125, R126) -/

/-- Payload bytes of a head: from the cursor to the end of its innermost IP packet, or of the frame without one. -/
def Frame.payloadLen (f : Frame) : Nat :=
  let stop := match f.head.ip with
    | some i => if f.head.icmpErr then f.data.length else min i.stop f.data.length
    | none => f.data.length
  stop - f.head.cursor

/-- The inline matcher scans a head: its port is matched, and its window is not empty. -/
def scanned (s : State) (f : Frame) : Bool :=
  fldV s .prsPortEntry [f.slice, f.port % 32] f.version 31 31 == 1 && decide (0 < f.payloadLen)

/-- A parsed head waits in its slice's classification wait stage. -/
def inWaitStage (s : State) (sl : Nat) (f : Frame) : Bool :=
  f.stage == .parsed && !f.cls.done && f.slice == sl && scanned s f

/-- The wait stage of a slice is full: it admits no head. -/
def waitStageFull (s : State) (sl : Nat) : Bool := decide (1024 ≤ (s.frames.filter (fun e => inWaitStage s sl e.2)).length)

/-- The last byte of a head's window was received 24 cc ago: 19 ticks. Bytes that Rewrite left behind the head keep their
distance from the end of the frame. -/
def windowCame (s : State) (f : Frame) : Bool :=
  let past := f.data.length - (f.head.cursor + min f.payloadLen 384)
  decide (f.rxTick + 19 ≤ s.time.tick) && decide (f.rx.length - past ≤ arrivedBy s f (s.time.tick - 19))

/-! ### Entering Parse -/

/-- The head that takes the next engine of a slice: the recirculation queue first, then the oldest head received. -/
def nextHead (s : State) (sl : Nat) : Option Nat :=
  match (sliceAt s sl).recirc with
  | id :: _ => some id
  | [] => (s.frames.find? (fun e => e.2.origin == 0 && e.2.slice == sl && e.2.stage == .received)).map (·.1)

/-- The slice's LFSR steps and may tag the head (17/R496). -/
def tagHead (s : State) (sl id : Nat) : State :=
  if fld s .tagCfg [sl] 31 31 = 1 then
    let x := lfsrStep (sliceAt s sl).lfsr
    let n := min 24 (max 8 (fld s .tagCfg [sl] 4 0))
    let s := modSlice s sl (fun y => { y with lfsr := x })
    if x % 2 ^ n = 0 then modFrame (cntSl s sl 0x26F) id (fun f => { f with tagged := true }) else s
  else s

/-- A frame from a lane loop is punted with reason LOOPBACK and not parsed (11/R362). -/
def puntLooped (s : State) (id : Nat) : State :=
  onFrame s id (fun f =>
    let dflt := fldV s .prsPortAcc [f.slice, f.port % 32] s.rules.current 19 0
    modFrame (cntPort s f.port 4) id (fun f => { f with
      stage := .admitting, punt := some 0x23,
      head := { f.head with key := { f.head.key with zone := dflt } } }))

/-- A first pass failed: drop, punt, or go on flowless (R122). A flowless head is outstanding from here in the bank of
the epoch that is open. -/
def malformed (s : State) (id : Nat) : State :=
  onFrame s id (fun f =>
    let sl := f.slice
    match malActionOf s sl f.version f.head.malReason with
    | 1 =>
      let s := modFrame s id (fun f => { f with
        stage := .admitting, punt := some f.head.malReason, head := { f.head with malAction := 1 } })
      headLeave (slotRetired s sl) sl f.version
    | 2 =>
      let b := parity s
      modFrame (outstandingAdd s sl b) id (fun f => { f with
        flowless := true, lookup := .done, head := { f.head with malAction := 2 },
        count := { f.count with bank := b, bytes := f.rxLen } })
    | _ => discardHead (slotDropped s sl) id 2)

/-- A later pass failed: the frame takes the verdict deny (R123). -/
def deniedPass (s : State) (id : Nat) : State :=
  onFrame s id (fun f => discardHead (slotRetired s f.slice) id 4)

/-- All 64 engines of a slice are held (R104). -/
def enginesBusy (s : State) (sl : Nat) : Bool :=
  decide (64 ≤ ((sliceAt s sl).engines.filter (fun t => decide (ccOf s.time.tick < t))).length)

/-- An engine is held from now for a number of cc. -/
def holdEngine (s : State) (sl cc : Nat) : State :=
  let now := ccOf s.time.tick
  modSlice s sl (fun x => { x with engines := x.engines.filter (fun t => decide (now < t)) ++ [now + cc] })

/-- A head takes an engine, for L cc, and runs one pass. -/
def parseHead (s : State) (id : Nat) (ue : Option Nat) : State :=
  onFrame s id (fun f =>
    if f.looped then puntLooped s id
    else
      let sl := f.slice
      let first := f.stage == .received
      let version := if first then s.rules.current else f.version
      let s := if first then headEnter s sl version else s
      let s := modSlice s sl (fun x => { x with recirc := x.recirc.erase id, entered := x.entered + 1 })
      let w := runPass s sl f.port version f.data ue
      let h := w.head s sl f.port version ue.isSome
      let s := holdEngine s sl (2 + h.steps)
      let t := s.time.tick
      let s := modFrame s id (fun f => { f with
        stage := .parsed, version := version, head := h, cls := ClassInfo.zero,
        lookup := if h.keyed then .toDo else .none, lookupHow := 0, found := none,
        times := { f.times with
          t0 := if first then t else f.times.t0, parseEnd := t, missSince := none, missTicks := 0,
          engine := min 255 (2 + h.steps) } })
      let s := if first then tagHead s sl id else s
      if h.malReason = 0 then s
      else
        let s := recordFailure s sl f.port h
        let s := if h.malReason = 13 then logUe s 0x04 sl 1 else s
        if first then malformed s id else deniedPass s id)

/-- HEAD_PARSE of a slice: its next head takes an engine, when one is free and the wait stage is not full. -/
def headParse (sl : Nat) (ue : Option Nat) (s : State) : State :=
  if waitStageFull s sl || enginesBusy s sl then s
  else match nextHead s sl with
  | none => s
  | some id => parseHead s id ue

/-- HEAD_PARSE (R104). -/
def execHeadParse (sl : Nat) (ue : Option Nat) (s : State) : Host.Outcome State Fault Refusal := .next (headParse sl ue s)

end Sys2Proof.Machine
end

