-- ==== Sys2Proof/Machine/Classify.lean ====
section
/-! DEFINITION. CLASSIFY: the header vector (04/R114), payload matching (R125), the ternary search (05/R143–R151), the
direct-indexed, prefix and layer-2 lookups (R167–R174), the merge of the ternary results (06/R181), and the posting of a
frame without a record (09/R290). -/

namespace Sys2Proof.Machine

/-! ### Payload and the header vector -/

/-- The payload. -/
def Frame.payload (f : Frame) : List Byte := Sys2Proof.Machine.slice f.data f.head.cursor f.payloadLen

/-- The header vector (Table 04-4), 168 bytes. -/
def Frame.vector (f : Frame) : List Byte :=
  let h := f.head
  let c := f.cls
  (if h.keyed then h.key.image else zeros 48)
    ++ be 2 f.version ++ be 1 f.port
    ++ be 1 (at_ (min f.pass 3) 7 6 + at_ (b2n h.d) 5 5 + at_ (b2n h.tunnel) 4 4 + at_ (b2n h.frag) 3 3
      + at_ (b2n h.keyed) 2 2 + at_ (b2n (h.malReason != 0)) 1 1 + at_ (b2n h.layerOvf) 0 0)
    ++ be 4 (at_ h.accKind 31 30 + at_ h.accId 23 0)
    ++ be 2 h.cursor ++ be 2 (f.data.length + 4) ++ be 1 h.steps ++ be 1 h.malReason ++ be 2 (at_ h.lastStep 10 0)
    ++ padTo 80 h.area
    ++ padTo 16 (h.layers.flatMap (fun l => be 2 (at_ l.1 15 9 + at_ l.2 8 0)))
    ++ be 2 c.matchGroups ++ be 1 (sat 8 c.matchCount) ++ be 1 (at_ (b2n (c.matchCount != 0)) 7 7)
    ++ be 2 (at_ c.matchId 13 0) ++ zeros 2

/-! ### Patterns (R124, R125) -/

/-- Fields of a pattern entry's control word. -/
def PatternEntry.len (e : PatternEntry) : Nat := bits e.ctl 45 41 + 1
def PatternEntry.id (e : PatternEntry) : Nat := bits e.ctl 63 50
def PatternEntry.group (e : PatternEntry) : Nat := bits e.ctl 49 46
def PatternEntry.nocase (e : PatternEntry) : Bool := bit e.ctl 40
def PatternEntry.inline_ (e : PatternEntry) : Bool := bit e.ctl 39
def PatternEntry.deep (e : PatternEntry) : Bool := bit e.ctl 38
def PatternEntry.minOff (e : PatternEntry) : Nat := bits e.ctl 37 24
def PatternEntry.maxOff (e : PatternEntry) : Nat := bits e.ctl 23 10
def PatternEntry.valid (e : PatternEntry) : Bool := bit e.ctl 0

/-- ASCII letters in one case. -/
def lower (b : Byte) : Nat := if 0x41 ≤ b.toNat ∧ b.toNat ≤ 0x5A then b.toNat + 32 else b.toNat

/-- The bytes begin with a pattern. -/
def startsWith (nocase : Bool) : List Byte → List Byte → Bool
  | [], _ => true
  | _ :: _, [] => false
  | p :: ps, b :: bs => (if nocase then lower p == lower b else p == b) && startsWith nocase ps bs

/-- The pattern starts at an offset of the window between two bounds; `o` is the offset of the first byte given. -/
def matchesFrom (e : PatternEntry) : Nat → List Byte → Bool
  | _, [] => false
  | o, b :: r =>
    (decide (e.minOff ≤ o) && decide (o ≤ e.maxOff) && startsWith e.nocase (e.bytes.take e.len) (b :: r))
      || matchesFrom e (o + 1) r

/-- The visible inline patterns that match a window: how many, their groups, the lowest PATTERN_ID. -/
def inlineScan (x : SliceState) (version : Nat) (window : List Byte) : Nat × Nat × Nat :=
  let hits := (x.patterns.filter (fun e =>
    e.2.valid && e.2.inline_ && visTo e.2.vis version && matchesFrom e.2 0 window)).map (·.2)
  ((hits.map PatternEntry.id).eraseDups.length, ofBits (hits.map PatternEntry.group),
    (leastBy id (hits.map PatternEntry.id)).getD 0)

/-! ### The ternary array (R140–R151) -/

/-- Blocks of a slice assigned to a lookup, ascending. -/
def blocksOf (s : State) (sl j : Nat) : List Nat :=
  (List.range 32).filter (fun b =>
    fld s .tcamBlk [sl, b] 7 7 == 1 && fld s .tcamBlk [sl, b] 3 0 == j)

/-- The places of a lookup are double. -/
def lookupDouble (s : State) (sl j : Nat) : Bool := (blocksOf s sl j).any (fun b => fld s .tcamBlk [sl, b] 6 6 == 1)

/-- A four-byte chunk of the header vector (R144). -/
def chunk (v : List Byte) (o : Nat) : List Byte := if 164 < o then zeros 4 else slice v o 4

/-- The search key of a lookup: 8 chunks, or 16 for a double one. -/
def searchKey (s : State) (sl j version : Nat) (v : List Byte) : Nat :=
  let n := if lookupDouble s sl j then 16 else 8
  unbe ((List.range n).flatMap (fun k =>
    chunk v (fldV s .tcamKey [sl, j, k / 4] version (8 * (k % 4) + 7) (8 * (k % 4)))))

/-- An entry of the array. -/
def TcamEntry.free : TcamEntry := ⟨0, 0, 0, 0, false, false, 0, false, 0⟩
def tcamAt (x : SliceState) (i : Nat) : TcamEntry := tget TcamEntry.free x.tcam i

/-- 256 key bits agree with an entry where it cares. -/
def ternaryEq (e : TcamEntry) (k : Nat) : Bool := Nat.land (Nat.xor k e.key) e.care == 0

/-- The stored KEY and CARE of a place agree with a key. -/
def placeAgrees (x : SliceState) (double : Bool) (key place : Nat) : Bool :=
  let e := tcamAt x place
  if double then ternaryEq e (key / 2 ^ 256) && ternaryEq (tcamAt x (place + 1)) (key % 2 ^ 256) else ternaryEq e key

/-- A place takes part in the compares of a version. -/
def placeLive (x : SliceState) (version place : Nat) : Bool :=
  let e := tcamAt x place
  e.valid && !e.fault && visTo e.vis version

/-- A place matches a key for a version (R147). -/
def placeMatches (x : SliceState) (double : Bool) (version key place : Nat) : Bool :=
  placeLive x version place && placeAgrees x double key place

/-- The listed entries that can be places of a lookup: in its blocks, even ones only when double. -/
def placesOf (s : State) (sl j : Nat) : List Nat :=
  let bl := blocksOf s sl j
  let double := lookupDouble s sl j
  ((sliceAt s sl).tcam.map (·.1)).filter (fun i => bl.contains (i / 1024) && (!double || i % 2 == 0))

/-- The winner among places: highest priority, then lowest index (R148). -/
def winnerOf (x : SliceState) (ps : List Nat) : Option Nat := mostBy (fun p => (tcamAt x p).prio) ps

/-- Record the place of a fault or a false hit in TCAM_LAST. -/
def tcamNote (s : State) (sl j place : Nat) (fault : Bool) : State :=
  modSlice s sl (fun x => { x with tcamLastLookup := j, tcamLastFault := fault, tcamLastPlace := place })

/-- An entry is one half of a double place: its block is assigned, and double. -/
def placeDouble (s : State) (sl i : Nat) : Bool :=
  fld s .tcamBlk [sl, i / 1024] 7 7 == 1 && fld s .tcamBlk [sl, i / 1024] 6 6 == 1

/-- The first entry of the place that an entry belongs to: the even half of a double place. -/
def placeHome (s : State) (sl i : Nat) : Nat := if placeDouble s sl i then i / 2 * 2 else i

/-- FAULT is set on an entry. -/
def setFault (x : SliceState) (i : Nat) : SliceState :=
  { x with tcam := tput TcamEntry.free x.tcam i { tcamAt x i with fault := true } }

/-- An uncorrectable re-read or scrub read of an entry sets FAULT on its place: on both halves of a double one (R151). -/
def tcamFault (s : State) (sl j i : Nat) : State :=
  let place := placeHome s sl i
  let double := placeDouble s sl i
  let s := logUe (tcamNote (raiseEv s .tcamEvent [sl] [2]) sl j place true) 0x05 (sl * 32768 + place) 1
  modSlice s sl (fun x => if double then setFault (setFault x place) (place + 1) else setFault x place)

/-- A false hit (R150). -/
def tcamFalseHit (s : State) (sl j place : Nat) : State :=
  tcamNote (cntSl (raiseEv s .tcamEvent [sl] [1]) sl (0x250 + j)) sl j place false

/-- Resolve and verify over the places that the compare reported (R148–R151): the winner is re-read and its stored KEY and
CARE compared with the key; at most `n` re-resolutions more. -/
def resolveTcam (sl j key : Nat) (hits : List (Nat × Bool)) : Nat → List Nat → State → Option Nat × State
  | n, ps, s =>
    match winnerOf (sliceAt s sl) ps with
    | none => (none, s)
    | some p =>
      let x := sliceAt s sl
      let bad := hits.contains (p, true)
      if !bad && placeAgrees x (lookupDouble s sl j) key p then
        let tie := ps.any (fun q => q != p && (tcamAt x q).prio == (tcamAt x p).prio)
        (some p, if tie then cntSl s sl (0x240 + j) else s)
      else
        let s := if bad then tcamFault s sl j p else tcamFalseHit s sl j p
        match n with
        | 0 => (none, cntSl (raiseEv s .tcamEvent [sl] [0]) sl 0x275)
        | n + 1 => resolveTcam sl j key hits n (ps.filter (· != p)) s

/-- The places of a lookup whose compare reports a match: those that match, but for those that a soft error makes it miss,
and those that one makes it report. -/
def reported (s : State) (sl j version key : Nat) (faults : ClassFaults) : List Nat :=
  let x := sliceAt s sl
  (placesOf s sl j).filter (fun p => placeLive x version p &&
    ((faults.hits.any (fun h => h.1 == p)) || (placeAgrees x (lookupDouble s sl j) key p && !faults.missed.contains p)))

/-- One lookup: its ACTION, or a miss. -/
def searchLookup (s : State) (sl j version : Nat) (v : List Byte) (faults : ClassFaults) : Option Nat × State :=
  let key := searchKey s sl j version v
  let r := resolveTcam sl j key faults.hits 3 (reported s sl j version key faults) s
  (r.1.map (fun p => (tcamAt (sliceAt r.2 sl) p).action), r.2)

/-! ### Merging (06/R180, R181) -/

/-- Strength of a verdict as Table 06-1 codes it: forward, punt, deny, deny-override. -/
def rankOfVerdict (v : Nat) : Nat := match v with | 0 => 0 | 2 => 1 | 1 => 2 | _ => 3

/-- Merge the ACTION of one more lookup, of a higher number than those before it. -/
def mergeAction (c : ClassInfo) (a : Nat) : ClassInfo :=
  let m := c.merged
  let v := bits a 62 61
  let deny := v == 3
  let stronger := bit a 63 && (!c.hasVerdict ||
    decide (rankOfVerdict (if m.denyOverride then 3 else m.verdict) < rankOfVerdict v))
  { c with
    hasVerdict := c.hasVerdict || bit a 63, hasCls := c.hasCls || bit a 60, hasProfile := c.hasProfile || bit a 53,
    hasNh := c.hasNh || bit a 42, hasPol := c.hasPol || bit a 21,
    merged := { m with
      verdict := if stronger then (if deny then 1 else v) else m.verdict,
      denyOverride := if stronger then deny else m.denyOverride,
      cls := if bit a 60 then bits a 59 54 else m.cls,
      profile := if bit a 53 then bits a 52 43 else m.profile,
      nextHop := if bit a 42 then bits a 41 22 else m.nextHop,
      polEn := m.polEn || bit a 21,
      policer := if bit a 21 then bits a 20 3 else m.policer,
      deep := m.deep || bit a 2, recirc := m.recirc || bit a 1 } }

/-- Search the lookups of a port in ascending order and merge what they find. -/
def searchAll (sl version : Nat) (v : List Byte) (faults : ClassFaults) : List Nat → ClassInfo → State → ClassInfo × State
  | [], c, s => (c, s)
  | j :: js, c, s =>
    let r := searchLookup s sl j version v faults
    searchAll sl version v faults js (match r.1 with | some a => mergeAction c a | none => c) r.2

/-! ### Direct-indexed tables that read uncorrectable (R167) -/

/-- An index finds nothing until a draft change writes it. -/
def killEntry (s : State) (k : Nat × Nat) : State :=
  { s with rules := { s.rules with dead := if s.rules.dead.contains k then s.rules.dead else k :: s.rules.dead } }

/-- An entry that a slice reads reads uncorrectable: its copy is rewritten from the other die's; an index lost in both, or a
VLAN's in the slice's one, finds nothing until a draft change writes it. -/
def entryUe (sl : Nat) (s : State) (e : Nat × Nat × Bool) : State :=
  if e.1 = 4 then killEntry s (vlanKey sl e.2.1)
  else if e.2.2 then killEntry (logUe (raiseEv s .dtEvent [] [1]) 0x04 (dtKey e.1 e.2.1) 1) (e.1, e.2.1)
  else raiseEv s .dtEvent [] [0]

/-- A direct-indexed lookup of a head: none for an entry that this pass reads uncorrectable. -/
def headDt (s : State) (f : Frame) (table index : Nat) : Nat :=
  if f.cls.lost.contains (table, index) then 0 else dtFind s f.slice table index f.version

/-! ### MAC entries that read uncorrectable (R177) -/

/-- A place of a slice's MAC table that reads uncorrectable is deleted; its port is recounted at the next aging pass. -/
def loseMac (sl : Nat) (s : State) (pos : Nat) : State :=
  if (tfind (sliceAt s sl).mac pos).isSome then
    modSlice (raiseEv s .l2Event [sl] [0]) sl (fun x => { x with mac := tdel x.mac pos })
  else s

/-! ### Routing and bridging (R168, R170–R174) -/

/-- Destination of a head by its key and direction (R170). -/
def HeadInfo.dest (h : HeadInfo) : Nat := if h.d then h.key.addrL else h.key.addrH

/-- Source of a head. -/
def HeadInfo.source (h : HeadInfo) : Nat := if h.d then h.key.addrH else h.key.addrL

/-- The MACs and the outermost tag of a frame's bytes. -/
def dstMac (l : List Byte) : Nat := beAt l 0 6
def srcMac (l : List Byte) : Nat := beAt l 6 6
def isTagged (l : List Byte) : Bool := beAt l 12 2 == 0x8100 || beAt l 12 2 == 0x88A8
def tagTci (l : List Byte) : Nat := beAt l 14 2

/-- A head of a zone is bridged (R171): L2_EN, and not addressed to its ingress port. -/
def isBridged (s : State) (f : Frame) (zone : Nat) : Bool :=
  let p := headDt s f 3 f.port
  bit zone 60 && !(bit p 63 && dstMac f.data == bits p 47 0)

/-- The routed lookup of a head (R170). -/
def routedLookup (s : State) (f : Frame) (zone : Nat) (ue : Bool) : Option Nat :=
  let k := f.head.key
  if !f.head.keyed || !(if k.v6 then bit zone 61 else bit zone 62) then none
  else
    let hit := if ue then none else prefixLookup s k.zone k.v6 f.head.dest f.version
    match hit with
    | some p => some p.nextHop
    | none => if bit zone 59 then some (bits zone 42 23) else none

/-- The VLAN of a bridged head: its outermost tag's VID, or its port's PVID; none without a valid port entry. -/
def headVlan (s : State) (f : Frame) : Option Nat :=
  if isTagged f.data then some (tagTci f.data % 4096)
  else
    let p := headDt s f 3 f.port
    if bit p 63 then some (bits p 59 48) else none

/-- The members a flood reaches. -/
def floodTo (vlan port : Nat) : Forward := .flood (withBit (vlan % 2 ^ 256) port false)

/-- The destination lookup of a bridged head (R171). -/
def bridgeDest (x : SliceState) (f : Frame) (vid vlan : Nat) : Forward :=
  if dstMac f.data / 2 ^ 40 % 2 = 1 then floodTo vlan f.port
  else match macFind x vid (dstMac f.data) with
    | some e => if e.2.port = f.port then .drop 0x279 else .port e.2.port
    | none => if bit vlan 509 then floodTo vlan f.port else .drop 0x27A

/-- The source lookup of a bridged head (R174): what is learned later, and the change it makes at once. -/
def bridgeSource (s : State) (id : Nat) (f : Frame) (vid vlan : Nat) : State :=
  let x := sliceAt s f.slice
  let me : MacLearn := ⟨vid, srcMac f.data, f.port⟩
  match macFind x vid (srcMac f.data) with
  | some (pos, e) =>
    if e.port = f.port then
      let s := modSlice s f.slice (fun x => { x with mac := tins x.mac pos { e with hit := true } })
      modFrame s id (fun f => { f with cls := { f.cls with l2Src := some me, learnable := true } })
    else if e.static_ then cntSl s f.slice 0x27B
    else learnNeeded s me
  | none => learnNeeded s me
where
  /-- A learn is needed: within the port's limit it waits for a good verdict; else the EXCESS action. -/
  learnNeeded (s : State) (me : MacLearn) : State :=
    let limit := fld s .l2Port (portIx f.port) 17 0
    if limit ≠ 0 ∧ limit ≤ tget 0 (sliceAt s f.slice).macCount f.port then
      let fwd : Forward := if fld s .l2Port (portIx f.port) 30 30 = 1 then .drop 0 else floodTo vlan f.port
      modFrame (cntSl s f.slice 0x27C) id (fun f => { f with cls := { f.cls with l2 := fwd } })
    else modFrame s id (fun f => { f with cls := { f.cls with l2Src := some me, l2Need := true, learnable := true } })

/-- The layer-2 lookups of a bridged head. -/
def bridge (s : State) (id : Nat) : State :=
  onFrame s id (fun f =>
    let drop := modFrame s id (fun f => { f with cls := { f.cls with l2 := .drop 0x278 } })
    match headVlan s f with
    | none => drop
    | some vid =>
      let vlan := vlanImage s f.slice vid f.version
      if !bit vlan 511 then drop
      else
        let s := modFrame s id (fun g => { g with cls := { g.cls with l2 := bridgeDest (sliceAt s f.slice) f vid vlan } })
        bridgeSource s id f vid vlan)

/-- Index in the NAT address table that a head's destination matches (06/R205). -/
def natAddrOf (s : State) (f : Frame) : Option Nat :=
  if f.head.keyed && !f.head.key.v6 then
    (s.actions.natAddr.find? (fun e => bit e.2 63 && bits e.2 31 0 == f.head.dest)).map (·.1)
  else none

/-! ### What a frame without a record goes by (06/R183, R184; 09/R290) -/

/-- A frame's own forwarding result, in the order of R183: a next-hop ID, or the layer-2 result. -/
inductive Own where
  | hop (nh : Nat) | l2 (f : Forward) | nothing
  deriving DecidableEq, Repr

/-- The first result that a pass produced for a frame. -/
def ownResult (c : ClassInfo) : Own :=
  if c.hasNh then .hop c.merged.nextHop
  else match c.routed with
    | some nh => .hop nh
    | none => if c.bridged then .l2 c.l2 else .nothing

/-- The class, profile and verdict that classification alone gives (Table 06-3). -/
def ownClass (c : ClassInfo) : Nat := if c.hasCls then c.merged.cls else bits c.zoneImage 58 53
def ownProfile (c : ClassInfo) : Nat := if c.hasProfile then c.merged.profile else bits c.zoneImage 52 43
def ownVerdict (c : ClassInfo) : Nat := if c.hasVerdict then c.merged.verdict else 0

/-- A flowless frame that has not been posted leaves without entering any total. -/
def unposted (s : State) (id : Nat) : State :=
  onFrame s id (fun f =>
    if f.flowless ∧ ¬ f.count.posted then
      modFrame (outstandingSub s f.slice f.count.bank) id (fun f => { f with flowless := false })
    else s)

/-- A flowless frame is posted to its port and class entries, in the bank `b`, or dropped when nothing gives it a next
hop (R168, R184). The outstanding count is not touched here. -/
def judgeFlowless (s : State) (id b : Nat) : State :=
  onFrame s id (fun f =>
    let c := f.cls
    let gone := fun (s : State) => discardHead (slotDropped (unposted s id) f.slice) id 3
    if !bit c.zoneImage 63 then gone (cntSl s f.slice 0x277)
    else
      let noHop := match ownResult c with
        | .hop nh => nh == 0 || nh == 0xFFFFF
        | .l2 (.drop _) => true
        | .l2 .none => true
        | .l2 _ => false
        | .nothing => true
      if noHop then
        let s := match ownResult c with
          | .l2 (.drop k) => if k = 0 then s else cntSl s f.slice k
          | _ => s
        gone (cntDev s 0x40)
      else
        let cls := ownClass c
        let bill := ownVerdict c != 1
        let s := portMove s f.port cls b true (oneFrame bill f.rxLen) Counts.zero
        modFrame s id (fun f => { f with
          flowless := true,
          count := { f.count with
            counted := false, billable := bill, bank := b, handle := 0, zone := f.head.key.zone, bytes := f.rxLen,
            posted := true, cls := cls } }))

/-! ### CLASSIFY -/

/-- Classification of a pass completes. -/
def classify (id : Nat) (faults : ClassFaults) (s : State) : State :=
  onFrame s id (fun f =>
    if f.stage != .parsed || f.cls.done || (if scanned s f then !windowCame s f else waitStageFull s f.slice) then s
    else
      let sl := f.slice
      let s := faults.mac.foldl (loseMac sl) (faults.entries.foldl (entryUe sl) s)
      let s := if faults.prefixUe then raiseEv s .dtEvent [] [2] else s
      let scan := if scanned s f then inlineScan (sliceAt s sl) f.version (f.payload.take 384) else (0, 0, 0)
      let c0 := { ClassInfo.zero with
        done := true, matchCount := scan.1, matchGroups := scan.2.1, matchId := scan.2.2, natDst := natAddrOf s f,
        lost := (faults.entries.filter (fun e => e.1 != 4)).map (fun e => (e.1, e.2.1)) }
      let f := { f with cls := c0 }
      let zone := headDt s f 0 f.head.key.zone
      let c0 := { c0 with zoneImage := zone }
      let r := searchAll sl f.version f.vector faults (setBits (fldV s .tcamPort [sl, f.port % 32] f.version 15 0) 16)
        c0 s
      let s := r.2
      let bridged := isBridged s f zone
      let c := { r.1 with bridged := bridged, routed := if bridged then none else routedLookup s f zone faults.prefixUe }
      let s := modFrame s id (fun f => { f with cls := c, times := { f.times with classifyEnd := s.time.tick } })
      let s := if bridged then bridge s id else s
      if f.flowless ∧ f.pass = 0 ∧ ¬ f.count.posted then judgeFlowless s id f.count.bank else s)

/-- CLASSIFY (R179). -/
def execClassify (id : Nat) (faults : ClassFaults) (s : State) : Host.Outcome State Fault Refusal :=
  .next (classify id faults s)

end Sys2Proof.Machine
end

