-- ==== Sys2Proof/Machine/Ipfix.lean ====
section
/-! DEFINITION. IPFIX export (06/R221–R226, 14/R439): templates, records, messages, the export queue, and the meanings of
IPFIX_TEMPLATE and IPFIX_FLUSH. -/

namespace Sys2Proof.Machine

/-! ### Templates (Tables 06-17, 06-18) -/

/-- The elements common to every flow template, after the addresses: ports, protocol, reason, interface, times, counts. -/
def tplCommon : List (Nat × Nat) :=
  [(7, 2), (11, 2), (4, 1), (136, 1), (10, 4), (152, 8), (153, 8), (86, 8), (85, 8), (135, 8), (134, 8)]

/-- The elements that a translated flow adds. -/
def tplNat : List (Nat × Nat) := [(225, 4), (226, 4), (227, 2), (228, 2)]

/-- The elements of a block event after the subscriber's address. -/
def tplBlock : List (Nat × Nat) := [(225, 4), (361, 2), (362, 2), (363, 2), (364, 2)]

/-- Each template and its elements: number and length. -/
def templates : List (Nat × List (Nat × Nat)) :=
  [(256, [(234, 4), (8, 4), (12, 4)] ++ tplCommon), (257, [(234, 4), (27, 16), (28, 16)] ++ tplCommon),
   (258, [(234, 4), (8, 4), (12, 4)] ++ tplCommon ++ tplNat), (259, [(234, 4), (27, 16), (28, 16)] ++ tplCommon ++ tplNat),
   (260, [(323, 8), (230, 1), (234, 4), (8, 4)] ++ tplBlock), (261, [(323, 8), (230, 1), (234, 4), (27, 16)] ++ tplBlock)]

/-- The template set of all six templates (RFC 7011). -/
def templateSet : List Byte :=
  let b := (templates.map (fun t => be 2 t.1 ++ be 2 t.2.length ++ (t.2.map (fun f => be 2 f.1 ++ be 2 f.2)).flatten)).flatten
  be 2 2 ++ be 2 (b.length + 4) ++ b

/-! ### Messages (R224, R225) -/

/-- A collector. -/
def collectorAt (s : State) (c : Nat) : Collector := tget Collector.reset s.actions.collectors c

/-- Change a collector. -/
def modCollector (s : State) (c : Nat) (f : Collector → Collector) : State :=
  { s with actions := { s.actions with collectors := tupd Collector.reset s.actions.collectors c f } }

/-- Records in the export queue, per device. -/
def exportQueued (s : State) : Nat :=
  (s.actions.collectors.map (fun e => e.2.records.length + (e.2.waiting.map (·.1)).foldl (· + ·) 0)).foldl (· + ·) 0

/-- Data sets of records in order: a set for each run of one template. -/
def dataSets : List ExportRec → List (Nat × List Byte)
  | [] => []
  | r :: rs => match dataSets rs with
    | (t, b) :: ss => if t = r.template then (t, r.bytes ++ b) :: ss else (r.template, r.bytes) :: (t, b) :: ss
    | [] => [(r.template, r.bytes)]

/-- The bytes of data sets. -/
def setBytes (l : List (Nat × List Byte)) : List Byte :=
  (l.map (fun e => be 2 e.1 ++ be 2 (e.2.length + 4) ++ e.2)).flatten

/-- The longest message of a collector: MTU less the IP and UDP headers. -/
def messageMax (s : State) (c : Nat) : Nat :=
  min 9216 (max 576 (fld s .expColMtu [c] 13 0)) - (if fld s .expColCtl [c] 29 29 = 1 then 48 else 28)

/-- Served seconds less TAI_UTC. -/
def exportSec (s : State) (sec : Nat) : Nat := sec - fld s .actCfg [] 31 24

/-- A message: header and sets. -/
def ipfixMessage (s : State) (c : Nat) (sets : List Byte) : List Byte :=
  be 2 10 ++ be 2 (sets.length + 16) ++ be 4 (exportSec s (servedSec s)) ++ be 4 (collectorAt s c).seq
    ++ be 4 (fld s .expColDomain [c] 31 0) ++ sets

/-- The UDP datagram of a message in its IP header. `x` is the value left open: TOS or traffic class, identification and
flags or flow label, and TTL or hop limit. -/
def ipfixPacket (s : State) (c x : Nat) (msg : List Byte) : List Byte :=
  let w := fun i => fld s .expColAddr [c, i] 31 0
  let v6 := fld s .expColCtl [c] 29 29 = 1
  let src := if v6 then be 4 (w 0) ++ be 4 (w 1) ++ be 4 (w 2) ++ be 4 (w 3) else be 4 (w 3)
  let dst := if v6 then be 4 (w 4) ++ be 4 (w 5) ++ be 4 (w 6) ++ be 4 (w 7) else be 4 (w 7)
  let n := msg.length + 8
  let head := be 2 (fld s .expColUdp [c] 31 16) ++ be 2 (fld s .expColUdp [c] 15 0) ++ be 2 n
  let sum := inetSum (src ++ dst ++ be 4 n ++ be 4 17 ++ head ++ msg)
  let udp := head ++ be 2 (if sum = 0 then 65535 else sum) ++ msg
  if v6 then be 4 (at_ 6 31 28 + at_ x 27 0) ++ be 2 n ++ be 1 17 ++ be 1 (x / 2 ^ 28) ++ src ++ dst ++ udp
  else
    let h1 := be 1 0x45 ++ be 1 x ++ be 2 (n + 20) ++ be 2 (x / 2 ^ 8) ++ be 2 (x / 2 ^ 24 % 8 * 2 ^ 13) ++ be 1 (x / 2 ^ 28) ++ be 1 17
    h1 ++ be 2 (inetSum (h1 ++ src ++ dst)) ++ src ++ dst ++ udp

/-- Records of a collector are lost: counted, flagged, and its sequence number advances (R226). -/
def exportLost (s : State) (c n : Nat) : State :=
  if n = 0 then s
  else
    let s := raiseEv (bump s 0 0x52 n) .actEvent [] [2]
    modCollector s c (fun x => { x with seq := wrap 32 (x.seq + n) })

/-- The egress frame of a message, or its loss when its next hop forwards nowhere. -/
def sendToPort (s : State) (c n : Nat) (msg : List Byte) : State :=
  let nh := dtFind s 0 1 (fld s .expColCtl [c] 19 0) s.rules.current
  let port := dtFind s 0 3 (nhPort nh) s.rules.current
  if !nhValid nh || nhKind nh != 0 then exportLost s c n
  else
    let d := drawFree s
    let s := d.2
    let cls := fld s .expColCtl [c] 26 24
    let tag := if nhTag nh then be 2 0x8100 ++ be 2 (at_ cls 15 13 + at_ (nhVlan nh) 11 0) else []
    let ty := if fld s .expColCtl [c] 29 29 = 1 then 0x86DD else 0x0800
    let bytes := be 6 (nhMac nh) ++ be 6 (bits port 47 0) ++ tag ++ be 2 ty ++ ipfixPacket s c d.1 msg
    let bytes := bytes ++ zeros (60 - bytes.length)
    let f := Frame.fresh (nhPort nh) (sliceOf (nhPort nh)) 2 bytes (crc32 bytes) s.time.tick
    let s := modCollector s c (fun x => { x with seq := wrap 32 (x.seq + n) })
    addFrame (cntDev s 0x51) { f with
      stage := .admitting, tail := .good, good := true, modified := true, egress := [nhPort nh], tc := cls }

/-- A message to the host waits for its receive channel, or is dropped with its records when none can take it (R439). -/
def sendToHost (s : State) (c n : Nat) (msg : List Byte) : State :=
  if puntTarget s (0x40 + c) then
    modCollector s c (fun x => { x with seq := wrap 32 (x.seq + n), waiting := x.waiting ++ [(n, servedRecord s ++ msg)] })
  else exportLost s c n

/-- A collector sends a message of sets that hold `n` data records. -/
def sendMessage (s : State) (c n : Nat) (sets : List Byte) : State :=
  if fld s .expColCtl [c] 31 31 = 0 then exportLost s c n
  else if fld s .expColCtl [c] 30 30 = 1 then sendToHost s c n (ipfixMessage s c sets)
  else sendToPort s c n (ipfixMessage s c sets)

/-- The message being built is sent. -/
def flushCollector (s : State) (c : Nat) : State :=
  let rs := (collectorAt s c).records
  if rs.isEmpty then s
  else sendMessage (modCollector s c (fun x => { x with records := [] })) c rs.length (setBytes (dataSets rs))

/-- A record joins the export queue (R224, R226). -/
def queueExport (s : State) (r : ExportRec) : State :=
  let c := r.collector
  if fld s .expColCtl [c] 31 31 = 0 ∨ 65536 ≤ exportQueued s then exportLost s c 1
  else
    let rs := (collectorAt s c).records ++ [r]
    let s := if messageMax s c < 16 + (setBytes (dataSets rs)).length then flushCollector s c else s
    modCollector s c (fun x => { x with
      records := x.records ++ [r], firstTick := if x.records.isEmpty then s.time.tick else x.firstTick })

/-! ### Flow records (R221–R223) -/

/-- Index of an address of a valid pool of a zone in the NAT address table (R205). -/
def poolAddr (s : State) (zone addr : Nat) : Option Nat :=
  (s.actions.natAddr.find? (fun e => bit e.2 63 && bits e.2 31 0 == addr &&
    s.actions.natPools.any (fun p => p.2.valid && p.2.zone == zone && decide (p.2.addrFirst ≤ e.1) &&
      decide (e.1 ≤ p.2.addrFirst + p.2.addrCountM1)))).map (·.1)

/-- Ports of a block of a pool. -/
def NatPool.ports (p : NatPool) : Nat := 2 ^ min 12 (max 6 p.blockLog2)

/-- The address of an index of the NAT address table. -/
def natAddrAt (s : State) (i : Nat) : Nat := bits (tget 0 s.actions.natAddr i) 31 0

/-- The inside address that names a subscriber: an IPv6 source is masked to the pool's subscriber prefix. -/
def insideOf (p : NatPool) (v6 : Bool) (a : Nat) : Nat :=
  if v6 then
    let n := 128 - min 128 (32 + p.subPlen)
    a / 2 ^ n * 2 ^ n
  else a

/-- The inside endpoint of a translated flow without its twin is H: the mapping's subscriber and inside port name it, or, of
a hairpinned flow, L is the public one. -/
def insideH (s : State) (b : FlowBody) : Bool :=
  match b.mapping with
  | none => false
  | some (m, k) =>
    if b.hairpin then b.key.addrL == natAddrAt s (m / 65536) && b.key.portL == m % 65536
    else
      let sub := (tfind s.actions.blocks k).bind (fun x => tfind s.actions.subs x.sub)
      let inside (a p : Nat) : Bool := match tfind s.actions.ports m, sub with
        | some x, some u => x.insidePort == p && (match tfind s.actions.natPools u.pool with
          | some q => insideOf q b.key.v6 a == u.inside
          | none => false)
        | _, _ => false
      inside b.key.addrH b.key.portH && !inside b.key.addrL b.key.portL

/-- Which endpoint an export names as source: true for H (R222). A translated flow's is the inside endpoint: the one the
twin's key lacks, or, hairpinned, the one that is not public. -/
def exportFromH (s : State) (b : FlowBody) (twin : Option FlowBody) : Bool :=
  if b.kind = 1 then
    if b.key.v6 then match twin with
      | some t => t.extAddr == b.key.addrH && t.extPort == b.key.portH
      | none => insideH s b
    else if b.hairpin then insideH s b
    else match twin with
      | some t => (t.key.addrL == b.key.addrL && t.key.portL == b.key.portL) ||
          (t.key.addrH == b.key.addrL && t.key.portH == b.key.portL)
      | none => insideH s b
  else if b.action.tcpSt % 8 ≠ 0 then bit b.action.tcpSt 3
  else false

/-- flowEndMilliseconds: the latest served time, not in the future, whose 16 ms unit is LAST_SEEN's (R222). -/
def lastSeenMs (s : State) (seen : Nat) : Nat :=
  let now := servedSec s * 1000 + servedNs s / 1000000
  let u := now / 16 - (now / 16 + 2 ^ 24 - seen % 2 ^ 24) % 2 ^ 24
  min now (u * 16 + 15)

/-- A record's data record: counts, reason. -/
def flowRecord (s : State) (b : FlowBody) (twin : Option FlowBody) (learnPort reason : Nat) (c : Counts) : ExportRec :=
  let k := b.key
  let fromH := exportFromH s b twin
  let e := k.ends fromH
  let aw := if k.v6 then 16 else 4
  let utc := fld s .actCfg [] 31 24 * 1000
  let start := s.lid.epoch.openSec * 1000 + s.lid.epoch.openNs / 1000000
  let nat := if b.kind ≠ 1 then []
    else if b.hairpin then be 4 e.1.1 ++ be 4 b.rwAddr ++ be 2 e.1.2 ++ be 2 b.rwPort
    else be 4 b.rwAddr ++ be 4 e.2.1 ++ be 2 b.rwPort ++ be 2 e.2.2
  let prof := profileOf s 0 b.action.profile s.rules.current
  { collector := profColl prof,
    template := (if k.v6 then 257 else 256) + (if b.kind = 1 then 2 else 0),
    bytes := be 4 k.zone ++ be aw e.1.1 ++ be aw e.2.1 ++ be 2 e.1.2 ++ be 2 e.2.2 ++ be 1 k.proto ++ be 1 reason
      ++ be 4 learnPort ++ be 8 (start - utc) ++ be 8 (lastSeenMs s b.lastSeen - utc) ++ be 8 c.billPkts ++ be 8 c.billBytes
      ++ be 8 c.voidPkts ++ be 8 c.voidBytes ++ nat }

/-- A block event's data record (Table 06-18): 14 allocated, 15 freed. -/
def blockRecord (s : State) (pool : NatPool) (sub : Subscriber) (addr block event : Nat) : ExportRec :=
  let n := 2 ^ min 12 (max 6 pool.blockLog2)
  let v6 := decide (2 ^ 32 ≤ sub.inside)
  let now := servedSec s * 1000 + servedNs s / 1000000
  { collector := pool.collector, template := if v6 then 261 else 260,
    bytes := be 8 (now - fld s .actCfg [] 31 24 * 1000) ++ be 1 event ++ be 4 sub.zone
      ++ be (if v6 then 16 else 4) sub.inside ++ be 4 addr ++ be 2 (block * n) ++ be 2 (block * n + n - 1) ++ be 2 1 ++ be 2 n }

/-! ### IPFIX_TEMPLATE, IPFIX_FLUSH -/

/-- Task 0xF007 of a collector sends the template set. -/
def ipfixTemplate (c : Nat) (s : State) : State :=
  match takeItem s (fun i => isTask 0xF007 i && i.params == [byte c]) with
  | none => s
  | some s => sendMessage s c 0 templateSet

/-- IPFIX_TEMPLATE (R224). -/
def execIpfixTemplate (c : Nat) (s : State) : Host.Outcome State Fault Refusal := .next (ipfixTemplate c s)

/-- At the first scheduler tick FLUSH_MS after its first record was queued, a partly filled message is sent (13/R406). -/
def ipfixFlush (c : Nat) (s : State) : State :=
  if (collectorAt s c).firstTick + ticksOfNs (max 1 (fld s .actCfg [] 23 16) * 1000000) ≤ s.sched.ticked
  then flushCollector s c else s

/-- IPFIX_FLUSH (R224). -/
def execIpfixFlush (c : Nat) (s : State) : Host.Outcome State Fault Refusal := .next (ipfixFlush c s)

end Sys2Proof.Machine
end

