-- ==== Sys2Proof/Machine/Skein.lean ====
section
/-! DEFINITION. The flow store (02, 03): the group map, both tiers, merge registers and write-back buffers, folds and
corrections of cold banks, the choice of hot slots, losing records, and the end sequence of a flow. -/

namespace Sys2Proof.Machine

/-- Change the flow store. -/
def withSkein (s : State) (f : SkeinState → SkeinState) : State := { s with skein := f s.skein }

/-! ### The group map (R74, R90, R99) -/

/-- Where the group map places a group. -/
def groupAt (s : State) (g : Nat) : GroupEntry :=
  match tfind s.skein.groups g with
  | some e => e
  | none =>
    if s.skein.survivors.isEmpty then ⟨false, 0, 0⟩
    else ⟨true, s.skein.survivors.getD (g % s.skein.survivors.length) 0, g / s.skein.survivors.length⟩

/-- Pseudo-channel and frame of a bucket: the new one below the cursor of a move. -/
def bucketHome (s : State) (b : Nat) : Nat × Nat :=
  let e := groupAt s (groupOf b)
  match s.skein.move with
  | some m => if m.group = groupOf b ∧ b % 256 < m.cursor then (m.dstPc, m.dstFrame) else (e.pc, e.frame)
  | none => (e.pc, e.frame)

/-- A bucket's home answers: its group is placed on a live pseudo-channel. -/
def homeAnswers (s : State) (b : Nat) : Bool := (groupAt s (groupOf b)).placed && pcLive s (bucketHome s b).1

/-- The bank of a bucket that a move is copying holds new accesses to it (R90 step 1). -/
def moveHolds (s : State) (b : Nat) : Bool :=
  match s.skein.move with
  | some m => m.holding && m.group == groupOf b && m.cursor == b % 256
  | none => false

/-- A bucket's home takes new accesses. -/
def homeTakes (s : State) (b : Nat) : Bool := homeAnswers s b && !moveHolds s b

/-- Data line of a bucket's tag line, and of a record's first burst. -/
def tagLineNo (s : State) (b : Nat) : Nat := (bucketHome s b).2 * 4352 + b % 256
def recLineNo (s : State) (idx : Nat) : Nat := (bucketHome s (idx / 8)).2 * 4352 + 256 + (idx / 8 % 256 * 8 + idx % 8) * 2

/-- Random operations the flow core makes on a bucket's home (R75, R89). -/
def coldOps (s : State) (b n : Nat) : State :=
  withSkein s (fun k => { k with
    opsPc := tmod 0 k.opsPc (bucketHome s b).1 (· + n), opsGroup := tmod 0 k.opsGroup (groupOf b) (· + n) })

/-! ### Both tiers -/

/-- A way of a tag line. -/
def wayAt (s : State) (idx : Nat) : WayEntry := tget WayEntry.free s.skein.ways idx

/-- Change a way. -/
def modWay (s : State) (idx : Nat) (f : WayEntry → WayEntry) : State :=
  withSkein s (fun k => { k with ways := tupd WayEntry.free k.ways idx f })

/-- A cold record. -/
def coldAt (s : State) (idx : Nat) : ColdRec := tget ColdRec.none s.skein.cold idx

/-- Change a cold record. -/
def modCold (s : State) (idx : Nat) (f : ColdRec → ColdRec) : State :=
  withSkein s (fun k => { k with cold := tupd ColdRec.none k.cold idx f })

/-- The record of a hot slot (its even slot), from the merge register while it is there (R25). -/
def hotAt (s : State) (slot : Nat) : Option HotRec :=
  match tfind s.skein.merged slot with
  | some r => some r
  | none => tfind s.skein.hot slot

/-- Replace a hot record where it is. -/
def putHot (s : State) (slot : Nat) (r : HotRec) : State :=
  withSkein s (fun k => match tfind k.merged slot with
    | some _ => { k with merged := tins k.merged slot r }
    | none => { k with hot := tins k.hot slot r })

/-- An access of the flow core takes the record into the merge register, changed (R25); a hit sets its recent bit (R83). Any
number of a bank's records may be there at once (DESIGN CHOICE: the spec gives no number, log entry 40). -/
def accessHot (s : State) (slot : Nat) (r : HotRec) : State :=
  withSkein s (fun k => { k with
    merged := tins k.merged slot { r with recent := true }, mergedAt := tins k.mergedAt slot s.time.tick })

/-- A merge register holds the record of a slot: its latest access was no more than 16 cc ago (R25). -/
def inMerge (s : State) (slot : Nat) : Bool :=
  (tfind s.skein.merged slot).isSome && decide (ccOf (s.time.tick - tget 0 s.skein.mergedAt slot) ≤ 16)

/-- A hot slot is freed, with its pinned allowance. -/
def delHot (s : State) (slot : Nat) : State :=
  match hotAt s slot with
  | none => s
  | some r => withSkein s (fun k => { k with
      hot := tdel k.hot slot, merged := tdel k.merged slot, mergedAt := tdel k.mergedAt slot,
      pinUsed := if r.body.pinned then tmod 0 k.pinUsed r.body.action.cls (· - r.body.slots) else k.pinUsed })

/-- Cold index of a hot record: its key's bucket and its way. -/
def HotRec.idx (r : HotRec) : Nat := r.body.key.bucket * 8 + r.way

/-- The hot records of a bucket, with their slots. -/
def hotIn (s : State) (hb : Nat) : List (Nat × HotRec) :=
  (List.range 8).filterMap (fun i => (hotAt s (hb * 8 + i)).map (fun r => (hb * 8 + i, r)))

/-- A way's hot copy, when HOT is in force (R77). -/
def hotOf (s : State) (idx : Nat) : Option (Nat × HotRec) :=
  let w := wayAt s idx
  if w.valid && w.hot then
    match hotAt s w.hotSlot with
    | some r => if r.gen = w.gen ∧ r.idx = idx then some (w.hotSlot, r) else none
    | none => none
  else none

/-- One flow core bank. -/
def bankAt (s : State) (b : Nat) : BankState := tget BankState.reset s.skein.banks b

/-- Change a bank. -/
def modBank (s : State) (b : Nat) (f : BankState → BankState) : State :=
  withSkein s (fun k => { k with banks := tupd BankState.reset k.banks b f })

/-- A record's entry in its bank's write-back buffer. -/
def writeBackOf (s : State) (idx : Nat) : Option HotRec :=
  ((bankAt s (bankOf (idx / 8))).writeBack.find? (fun e => e.record.idx == idx)).map (·.record)

/-- Replace or remove a record's entry in the write-back buffer. -/
def putWriteBack (s : State) (idx : Nat) (r : Option HotRec) : State :=
  modBank s (bankOf (idx / 8)) (fun b => { b with
    writeBack := match r with
      | none => b.writeBack.filter (fun e => e.record.idx != idx)
      | some r => b.writeBack.map (fun e => if e.record.idx == idx then { e with record := r } else e) })

/-- Handle of a record position, as its way stands. -/
def handleOf (s : State) (idx : Nat) : Nat := mkHandle (wayAt s idx).gen idx

/-- A handle is current (R42). -/
def current (s : State) (h : Nat) : Bool :=
  (wayAt s (handleIdx h)).valid && (wayAt s (handleIdx h)).gen == handleGen h

/-- The body in force of a record (R45): the hot copy's, the write-back buffer's, else the cold home's. -/
def bodyOf (s : State) (idx : Nat) : FlowBody :=
  match hotOf s idx with
  | some (_, r) => r.body
  | none => match writeBackOf s idx with
    | some r => r.body
    | none => (coldAt s idx).body

/-- The hot counters of a record and their bank. -/
def hotCounts (s : State) (idx : Nat) : Nat × Counts :=
  match hotOf s idx with
  | some (_, r) => (r.bank, r.counts)
  | none => match writeBackOf s idx with
    | some r => (r.bank, r.counts)
    | none => (0, Counts.zero)

/-- Change the body in force of a record: an access of the bank that is no hit. -/
def modBody (s : State) (idx : Nat) (f : FlowBody → FlowBody) : State :=
  match hotOf s idx with
  | some (slot, r) => putHot s slot { r with body := f r.body }
  | none => match writeBackOf s idx with
    | some r => putWriteBack s idx (some { r with body := f r.body })
    | none => modCold s idx (fun c => { c with body := f c.body })

/-! ### Cold counter banks (R52) -/

/-- A cold field of `w` bits after an addition and a subtraction, what its wraps add to a total, and what they take. -/
def wrapField (w old add sub : Nat) : Nat × Nat × Nat :=
  let v : Int := (old : Int) + add - sub
  let q : Int := v / ((2 ^ w : Nat) : Int)
  (ofInt w v, q.toNat * 2 ^ w, (-q).toNat * 2 ^ w)

/-- Add to and subtract from a record's cold bank; each wrap goes to the zone's totals of the bank's epoch. -/
def bankMove (s : State) (idx bank : Nat) (add sub : Counts) : State :=
  let c := coldAt s idx
  let o := if bank % 2 = 0 then c.bank0 else c.bank1
  let a := wrapField 40 o.billPkts add.billPkts sub.billPkts
  let b := wrapField 48 o.billBytes add.billBytes sub.billBytes
  let v := wrapField 32 o.voidPkts add.voidPkts sub.voidPkts
  let y := wrapField 40 o.voidBytes add.voidBytes sub.voidBytes
  let n : Counts := ⟨a.1, b.1, v.1, y.1⟩
  let s := modCold s idx (fun c => if bank % 2 = 0 then { c with bank0 := n } else { c with bank1 := n })
  let plus : Counts := ⟨a.2.1, b.2.1, v.2.1, y.2.1⟩
  let minus : Counts := ⟨a.2.2, b.2.2, v.2.2, y.2.2⟩
  if plus = Counts.zero ∧ minus = Counts.zero then s else zoneMove s c.body.key.zone bank plus minus

/-- A second burst has been read: its update is written, and the frame it corrects is settled (R51, R68). -/
def applyBurst (s : State) (o : BurstOp) : State :=
  let s := if (wayAt s o.coldIndex).valid then bankMove s o.coldIndex o.bank o.add o.sub
    else zoneMove s o.zone o.bank o.add o.sub
  match o.settle with
  | none => s
  | some (sl, bank) => outstandingSub s sl bank

/-- Issue an update of a record's second burst: a read and a write (R51, R68). -/
def issueBurst (s : State) (o : BurstOp) : State :=
  coldOps (withSkein s (fun k => { k with bursts := k.bursts ++ [o] })) (o.coldIndex / 8) 2

/-- Every update of a record's second burst that was issued before completes: accesses to one line complete in the order
issued (R72). -/
def settleBursts (s : State) (idx : Nat) : State :=
  let mine := s.skein.bursts.filter (fun o => o.coldIndex == idx)
  let s := withSkein s (fun k => { k with bursts := k.bursts.filter (fun o => o.coldIndex != idx) })
  mine.foldl applyBurst s

/-! ### Hot counters (R51, R53) -/

/-- An addition keeps every hot field within its width. -/
def hotFits (c a : Counts) : Bool :=
  decide (c.billPkts + a.billPkts < 2 ^ 32) && decide (c.billBytes + a.billBytes < 2 ^ 40) &&
  decide (c.voidPkts + a.voidPkts < 2 ^ 24) && decide (c.voidBytes + a.voidBytes < 2 ^ 32)

/-- Fold a hot record's counters into the cold bank of its BANK: the record with its counters zero. -/
def foldHot (s : State) (r : HotRec) : HotRec × State :=
  if r.counts = Counts.zero then (r, s)
  else ({ r with counts := Counts.zero },
    issueBurst s ⟨r.idx, r.bank, r.body.key.zone, r.counts, Counts.zero, none⟩)

/-- A hot record of the other parity is folded before use, and its BANK set (R53). -/
def freshBank (s : State) (r : HotRec) : HotRec × State :=
  if r.bank = parity s then (r, s)
  else
    let p := foldHot s r
    ({ p.1 with bank := parity s }, p.2)

/-- Add to a hot record's counters, folding first when a field would overflow. -/
def addHot (s : State) (r : HotRec) (a : Counts) : HotRec × State :=
  let p := if hotFits r.counts a then (r, s) else foldHot s r
  ({ p.1 with counts := p.1.counts.add a }, p.2)

/-! ### Choosing hot slots (R83–R87) -/

/-- Hot slots that a lookup reserves for a key before it has its record. -/
def Key.slots (k : Key) : Nat := if k.v6 || k.ext != 0 then 2 else 1

/-- A hot bucket is seasoned. -/
def seasoned (s : State) (hb : Nat) : Bool := decide (3 ≤ tget 0 s.skein.season hb)

/-- Rank for eviction (R83). -/
def HotRec.rank (r : HotRec) : Nat := b2n r.recent * 256 + r.score

/-- The slots of a bucket that pending promotions have reserved, except one key's own. -/
def reservedSlots (s : State) (hb : Nat) (but : Option Key) : List Nat :=
  ((bankAt s (hb / 1024)).pending.filter (fun p => decide (but ≠ some p.key))).flatMap (fun p =>
    match p.victim with
    | none => []
    | some v => (List.range p.key.slots).map (fun i => v + i))

/-- The record that occupies a slot, with its own slot. -/
def occupant (s : State) (n : Nat) : Option (Nat × HotRec) :=
  match hotAt s n with
  | some r => some (n, r)
  | none => if n % 2 = 1 then
      match hotAt s (n - 1) with
      | some r => if r.twoSlot then some (n - 1, r) else none
      | none => none
    else none

/-- The records in a set of slots, each once. -/
def occupants (s : State) (set : List Nat) : List (Nat × HotRec) := (set.filterMap (occupant s)).eraseDups

/-- A record may be evicted: not pinned, not in the merge register, and nothing pends for its key. -/
def evictable (s : State) (e : Nat × HotRec) : Bool :=
  !e.2.body.pinned && e.2.body.life != 4 && !inMerge s e.1 &&
  !((bankAt s (bankOf e.2.body.key.bucket)).pending.any (fun p => p.key == e.2.body.key))

/-- What the choice of slots answers. -/
inductive Victim where
  /-- No set is usable. -/
  | none
  /-- The write-back buffer has no room. -/
  | wait
  /-- The set that starts at this slot. -/
  | slot (n : Nat)
  deriving DecidableEq, Repr

/-- The slot sets of a bucket that can take a record of `k` slots. -/
def slotSets (hb k : Nat) : List (List Nat) :=
  if k = 1 then (List.range 8).map (fun i => [hb * 8 + i])
  else (List.range 4).map (fun i => [hb * 8 + 2 * i, hb * 8 + 2 * i + 1])

/-- The cost of a set (R86). -/
def setCost (s : State) (hb : Nat) (set : List Nat) : Nat :=
  ((occupants s set).map (fun e => if seasoned s hb then e.2.rank else e.2.placed)).foldl max 0

/-- choose_victim of R86 for a key. The buffer counts as full for a set of two records when it has room for one of them only
(DESIGN CHOICE: the spec speaks of a full buffer, log entry 40). -/
def chooseVictim (s : State) (hb k : Nat) (key : Option Key) : Victim :=
  let taken := reservedSlots s hb key
  let usable := (slotSets hb k).filter (fun set =>
    set.all (fun n => !taken.contains n) && (occupants s set).all (evictable s))
  match usable.find? (fun set => (occupants s set).isEmpty) with
  | some set => .slot (set.headD 0)
  | none => match leastBy (setCost s hb) usable with
    | none => .none
    | some set =>
      if 64 < (bankAt s (hb / 1024)).writeBack.length + (occupants s set).length then .wait else .slot (set.headD 0)

/-- The cold home of a record once its hot copy is written back (R86). -/
def wroteBack (s : State) (r : HotRec) : ColdRec :=
  let c := { coldAt s r.idx with body := r.body }
  if r.bank % 2 = 0 then { c with bank0 := c.bank0.add r.counts } else { c with bank1 := c.bank1.add r.counts }

/-- Bursts of a hot record that differ from its cold home: what its write-back costs (Table 03-1). -/
def burstsToWrite (s : State) (r : HotRec) : Nat :=
  let old := (coldAt s r.idx).image
  let new := (wroteBack s r).image
  b2n (decide (old.take 64 ≠ new.take 64)) + b2n (decide (old.drop 64 ≠ new.drop 64))

/-- A record is evicted to its bank's write-back buffer: burst writes follow for what differs (R78, R86). -/
def evict (s : State) (e : Nat × HotRec) : State :=
  let b := e.2.body.key.bucket
  let n := burstsToWrite s e.2
  let s := withSkein s (fun k => { k with
    hot := tdel k.hot e.1, merged := tdel k.merged e.1, mergedAt := tdel k.mergedAt e.1 })
  coldOps (modBank s (bankOf b) (fun x => { x with writeBack := x.writeBack ++ [⟨b, e.2⟩] })) b n

/-- Every record in a set of slots is evicted. -/
def evictSet (s : State) (set : List Nat) : State := (occupants s set).foldl evict s

/-- Pinned slots of a bucket. -/
def pinnedIn (s : State) (hb : Nat) : Nat :=
  ((hotIn s hb).map (fun e => if e.2.body.pinned then e.2.body.slots else 0)).foldl (· + ·) 0

/-- A record placed hot is placed pinned when its class's allowance and its bucket allow it (R85). -/
def pins (s : State) (hb : Nat) (b : FlowBody) : Bool :=
  decide (tget 0 s.skein.pinUsed b.action.cls + b.slots ≤ min 786432 (fld s .clsPin [b.action.cls] 20 0)) &&
  decide (pinnedIn s hb + b.slots ≤ 6)

/-- Write a record into the set of slots that starts at `slot`, evicting what is there; its way says so. `placed` records
start with score 0 and recent 1 (R83). -/
def placeHot (s : State) (slot : Nat) (r : HotRec) : State :=
  let set := if r.body.twoSlot then [slot, slot + 1] else [slot]
  let s := evictSet s set
  let hb := slot / 8
  let p := pins s hb r.body
  let r := { r with
    body := { r.body with pinned := p }, twoSlot := r.body.twoSlot, score := 0, recent := true,
    placed := s.skein.placedCount }
  let s := withSkein s (fun k => { k with
    hot := tins k.hot slot r, placedCount := k.placedCount + 1,
    season := if tget 0 k.season hb = 0 then tins k.season hb 1 else k.season,
    pinUsed := if p then tmod 0 k.pinUsed r.body.action.cls (· + r.body.slots) else k.pinUsed })
  modWay s r.idx (fun w => { w with hot := true, hotSlot := slot, pinned := p })

/-! ### Matching (R73) -/

/-- A lookup's key matches a hot record: a one-slot record is compared over its compact key. -/
def HotRec.hits (r : HotRec) (k : Key) : Bool :=
  if r.twoSlot then r.body.key == k
  else r.body.key.word0 == k.word0 && r.body.key.addrL % 2 ^ 32 == k.addrL % 2 ^ 32 &&
    r.body.key.addrH % 2 ^ 32 == k.addrH % 2 ^ 32 && r.body.key.portL == k.portL && r.body.key.portH == k.portH

/-- The slot of a key's hot record. -/
def findHot (s : State) (k : Key) : Option Nat :=
  ((hotIn s (hotBucketOf k.bucket)).find? (fun e => e.2.hits k)).map (·.1)

/-- The write-back buffer entry of a key. -/
def findWriteBack (s : State) (k : Key) : Option HotRec :=
  ((bankAt s (bankOf k.bucket)).writeBack.find? (fun e => e.record.hits k)).map (·.record)

/-- The way of a bucket whose record has this key: hot, in the buffer or cold. -/
def findWay (s : State) (k : Key) : Option Nat :=
  ((List.range 8).map (fun w => k.bucket * 8 + w)).find? (fun i =>
    (wayAt s i).valid && (wayAt s i).tag == k.tag && (bodyOf s i).key == k)

/-! ### Pending keys (R59, R79, R82) -/

/-- What pends for a key at its bank. -/
def pendOf (s : State) (k : Key) : Option PendKey := (bankAt s (bankOf k.bucket)).pending.find? (fun p => p.key == k)

/-- Nothing pends for a key any more: what it reserved is free, and the heads held for it may be served. -/
def clearPend (s : State) (k : Key) : State :=
  modBank s (bankOf k.bucket) (fun b => { b with pending := b.pending.filter (fun p => p.key != k) })

/-- Change what pends for a key. -/
def modPend (s : State) (k : Key) (f : PendKey → PendKey) : State :=
  modBank s (bankOf k.bucket) (fun b => { b with pending := b.pending.map (fun p => if p.key == k then f p else p) })

/-! ### Live flows (R60, R61, R94) -/

/-- One live flow more or fewer of a port, whose record lies in a bucket: a recount in progress follows for the buckets it
has passed. -/
def liveMove (s : State) (port bucket : Nat) (f : Nat → Nat) : State :=
  withSkein s (fun k => { k with
    live := tmod 0 k.live port f,
    tally := if k.recounting && decide (bucket < k.sweepNext) then tmod 0 k.tally port f else k.tally })

/-! ### Freeing and losing records (R42, R95) -/

/-- The way is freed: VALID 0, GEN one more. -/
def freeWay (s : State) (idx : Nat) : State :=
  withSkein (modWay s idx (fun w => { WayEntry.free with gen := (w.gen + 1) % 32 })) (fun k =>
    { k with cold := tdel k.cold idx })

/-- Fold what is hot of a record into its cold bank and free its hot slot or buffer entry: the record is cold only
(Table 02-10 step 2). -/
def makeCold (s : State) (idx : Nat) : State :=
  let b := bodyOf s idx
  let h := hotCounts s idx
  let s := settleBursts s idx
  let s := match hotOf s idx with
    | some (slot, _) => delHot s slot
    | none => putWriteBack s idx none
  bankMove (modCold s idx (fun c => { c with body := { b with pinned := false } })) idx h.1 h.2 Counts.zero

/-- A record's banks go to the totals of its zone, and it is freed (Table 02-10 steps 3 and 6): what it counted. -/
def retireRecord (s : State) (idx : Nat) : ColdRec × State :=
  let s := makeCold s idx
  let c := coldAt s idx
  let s := zoneMove (zoneMove s c.body.key.zone 0 c.bank0 Counts.zero) c.body.key.zone 1 c.bank1 Counts.zero
  (c, freeWay s idx)

/-- The protocol code of a port-map entry (Table 06-8), where it has one. -/
def natProto (proto : Nat) : Option Nat :=
  match proto with
  | 6 => some 0
  | 17 => some 1
  | 1 | 58 => some 2
  | _ => none

/-- The end of a translated flow decreases USES of its mapping, which is freed at 0 (R200). -/
def natRelease (s : State) (b : FlowBody) : State :=
  match b.mapping with
  | none => s
  | some (m, _) =>
    match tfind s.actions.ports m with
    | none => s
    | some e => { s with actions := { s.actions with
        ports := if e.uses ≤ 1 then tdel s.actions.ports m else tins s.actions.ports m { e with uses := e.uses - 1 } } }

/-- Place of the other record of a translated flow, while its handle is current. -/
def twinOf (s : State) (idx : Nat) : Option Nat :=
  let c := coldAt s idx
  if c.body.kind ≠ 0 ∧ current s c.twin then some (handleIdx c.twin) else none

/-- The end sequence of a flow (Table 02-10): both records of a translated flow, in one pass. `reason` is the export's. Where
the primary of a translated flow was lost and only its twin is ended, no end export is queued (DESIGN CHOICE: R221 makes it
from the primary, log entry 40). -/
def endFlow (s : State) (idx reason : Nat) : State :=
  if !(wayAt s idx).valid then s
  else
    let other := twinOf s idx
    let a := retireRecord s idx
    let b := match other with
      | none => (ColdRec.none, a.2)
      | some t => retireRecord a.2 t
    let s := b.2
    let primary := if a.1.body.kind = 2 then b.1 else a.1
    let twin := if a.1.body.kind = 2 then a.1 else b.1
    let sum := ((primary.bank0.add primary.bank1).add twin.bank0).add twin.bank1
    let s := if primary.valid && primary.body.action.exportMode != 0 then
        queueExport s (flowRecord s primary.body (if twin.valid then some twin.body else none) primary.learnPort reason sum)
      else s
    let s := if a.1.body.kind ≠ 0 then natRelease s a.1.body else s
    liveMove s a.1.learnPort (if a.1.body.kind = 2 then handleIdx a.1.twin / 8 else idx / 8) (· - 1)

/-- A record is lost: its way is freed with no end sequence, what was hot of it goes with it, and its twin is ended
(Table 03-6). A correction under way for it goes to its zone's totals. The gap is the closing epoch's for its sweep. -/
def loseRecord (s : State) (idx : Nat) (closing : Bool) : State :=
  let twin := twinOf s idx
  let mine := s.skein.bursts.filter (fun o => o.coldIndex == idx && o.settle.isSome)
  let s := withSkein s (fun k => { k with bursts := k.bursts.filter (fun o => o.coldIndex != idx) })
  let s := match hotOf s idx with
    | some (slot, _) => delHot s slot
    | none => putWriteBack s idx none
  let s := mine.foldl applyBurst (freeWay s idx)
  let s := raiseEv s .sknEvent [] [1]
  let s := if closing then gapClosing s 3 0 1 else gapOpen s 3 0 1
  match twin with
  | none => s
  | some t => endFlow s t 5

/-- A hot copy is lost to an uncorrectable word: its hot counters go with it (Table 03-6). -/
def discardHot (s : State) (slot : Nat) : State :=
  match occupant s slot with
  | none => s
  | some e => gapOpen (logUe (raiseEv (delHot s e.1) .sknEvent [] [0]) 0x03 slot 0) 2 0 1

/-! ### Tag rebuild (R96) -/

/-- A way rebuilt from its record: TAG from the key, GEN from HANDLE, PINNED from STATE, HOT as in force. -/
def rebuiltWay (s : State) (idx : Nat) : WayEntry :=
  let c := coldAt s idx
  let h := hotOf s idx
  ⟨c.body.key.tag, handleGen c.handle, true, c.body.pinned, h.isSome, (h.map (·.1)).getD 0⟩

/-- The tag line of a bucket is rebuilt from its records: those whose first burst does not read are lost. -/
def rebuildTags (s : State) (b : Nat) (bad : List Nat) (closing : Bool) : State :=
  let s := raiseEv s .sknEvent [] [3]
  let lost := ((List.range 8).filter (fun w => bad.contains w && (wayAt s (b * 8 + w)).valid)).map (fun w => b * 8 + w)
  let s := lost.foldl (fun s i => loseRecord s i closing) s
  withSkein s (fun k => { k with
    ways := (List.range 8).foldl (fun t w =>
      let i := b * 8 + w
      let e := tget WayEntry.free t i
      tput WayEntry.free t i (if e.valid then rebuiltWay s i else WayEntry.free)) k.ways })

/-- A bucket's tag line reads uncorrectable to a user of the HBM (`port`, Table 18-1): it is rebuilt. `ue`: cold indices
whose record does not read. -/
def tagLineUe (s : State) (b port : Nat) (ue : List Nat) (closing : Bool) : State :=
  let s := hbmUe s (bucketHome s b).1 (tagLineNo s b) port
  if homeAnswers s b then rebuildTags s b ((ue.filter (fun i => i / 8 == b)).map (· % 8)) closing else s

/-- A bank has reads or a learn's writes of a bucket's home in flight. -/
def bucketBusy (s : State) (b : Nat) : Bool :=
  (bankAt s (bankOf b)).pending.any (fun p => !p.learn && p.key.bucket == b) || s.skein.inFlight.contains b

/-! ### Lost groups (R97) -/

/-- The cold indices of a group that hold a record. -/
def recordsOf (s : State) (g : Nat) : List Nat :=
  ((trange s.skein.ways (g * 2048) (g * 2048 + 2048)).filter (fun e => e.2.valid)).map (·.1)

/-- A lost group's records go, with everything hot of them; nothing pends for their keys. -/
def dropGroup (s : State) (g : Nat) : State :=
  let idxs := recordsOf s g
  let mine := s.skein.bursts.filter (fun o => groupOf (o.coldIndex / 8) == g && o.settle.isSome)
  let s := withSkein s (fun k => { k with bursts := k.bursts.filter (fun o => groupOf (o.coldIndex / 8) != g) })
  let s := idxs.foldl (fun s i => match hotOf s i with
    | some (slot, _) => delHot s slot
    | none => putWriteBack s i none) s
  let s := withSkein s (fun k => { k with
    ways := tclear k.ways (g * 2048) (g * 2048 + 2048), cold := tclear k.cold (g * 2048) (g * 2048 + 2048),
    inFlight := k.inFlight.filter (fun b => groupOf b != g),
    banks := k.banks.map (fun e => (e.1, { e.2 with pending := e.2.pending.filter (fun p => groupOf p.key.bucket != g) })),
    learnQ := k.learnQ.map (fun q => q.filter (fun id => match frameAt s id with
      | some f => groupOf f.head.key.bucket != g
      | none => true)) })
  let s := mine.foldl applyBurst s
  { s with frames := s.frames.map (fun e =>
      (e.1, if e.2.head.keyed && groupOf e.2.head.key.bucket == g && e.2.lookup != .none && e.2.lookup != .done &&
        e.2.lookup != .toDo then { e.2 with lookup := .held } else e.2)) }

/-- Groups placed on a pseudo-channel, and its frames in use. -/
def groupsOn (s : State) (pc : Nat) : List Nat :=
  (List.range 65536).filter (fun g => (groupAt s g).placed && (groupAt s g).pc == pc)
def framesOn (s : State) (pc : Nat) : List Nat :=
  (groupsOn s pc).map (fun g => (groupAt s g).frame) ++
    (match s.skein.move with | some m => if m.dstPc = pc then [m.dstFrame] else [] | none => [])

/-- The lowest free frame of a pseudo-channel. -/
def freeFrameOf (s : State) (pc : Nat) : Option Nat := firstFrom (fun f => !(framesOn s pc).contains f) 0 1024

/-- A lost group receives the lowest free frame of the live pseudo-channel with the most free ones, or none (R97 step 5). -/
def placeGroup (s : State) (g : Nat) : State :=
  let e : GroupEntry := match leastBy (fun pc => (framesOn s pc).length) (livePcs s) with
    | none => ⟨false, 0, 0⟩
    | some pc => match freeFrameOf s pc with
      | none => ⟨false, 0, 0⟩
      | some f => ⟨true, pc, f⟩
  withSkein s (fun k => { k with groups := tins k.groups g e })

/-- Twins outside the lost groups whose other record goes with them. -/
def orphans (s : State) (gs : List Nat) : List Nat :=
  (gs.flatMap (recordsOf s)).filterMap (fun i => match twinOf s i with
    | some t => if gs.contains (groupOf (t / 8)) then none else some t
    | none => none)

/-- Groups are lost: their records go, surviving twins are ended, the groups are placed again empty, and the loss is
reported (Table 03-7 steps 2 to 7). -/
def loseGroups (s : State) (gs : List Nat) (r : Retiring) : State :=
  let alone := orphans s gs
  let counts := gs.map (fun g => (g, (recordsOf s g).length))
  let total := (counts.map (·.2)).foldl (· + ·) 0 + alone.length
  let s := gs.foldl dropGroup s
  let s := alone.foldl (fun s t => endFlow s t 4) s
  let s := gs.foldl placeGroup (withSkein s (fun k => { k with
    groups := gs.foldl (fun t g => tins t g ⟨false, 0, 0⟩) k.groups, recountDue := true }))
  let s := raiseEv s .sknEvent [] [2]
  let s := postEvent s 1 (le 1 r.pc ++ le 1 r.cause ++ le 2 gs.length ++ le 4 total ++ le 8 r.sec ++ le 4 r.ns ++ zeros 4
    ++ (counts.map (fun c => le 2 c.1 ++ le 2 c.2)).flatten)
  let s := match s.lid.closing with
    | some k => if gs.all (fun g => decide (g * 256 + 256 ≤ k.sweepNext)) then s else gapClosing s 1 r.pc total
    | none => s
  gapOpen s 1 r.pc total

end Sys2Proof.Machine
end

