-- ==== Sys2Proof/Machine/Tcp.lean ====
section
/-! DEFINITION. What a frame is to its flow's record: the endpoints a translated record sends it on with (06/R201), and the
TCP tracker (06/R216–R220). -/

namespace Sys2Proof.Machine

/-! ### Translated endpoints (Table 06-9) -/

/-- How a record translates the frames it finds. -/
inductive Xlate where
  /-- Not at all. -/
  | none
  /-- The source becomes the record's rewrite. -/
  | source
  /-- The destination becomes the record's rewrite. -/
  | dest
  /-- IPv6 becomes IPv4. -/
  | to4
  /-- IPv4 becomes IPv6. -/
  | to6
  deriving DecidableEq, Repr

/-- The translation of the frames that a record finds (Table 06-9): a NAPT44 primary rewrites the source and its twin the
destination; of a hairpinned flow it is the other way round (R205). -/
def xlateOf (b : FlowBody) : Xlate :=
  if b.kind = 0 then .none
  else if b.key.v6 then .to4
  else if b.extAddr ≠ 0 ∨ b.extPort ≠ 0 then .to6
  else if (b.kind == 2) != b.hairpin then .dest else .source

/-- The NAT64 prefix of a record's pool, as the packets of a version see its profile. -/
def prefix64Of (s : State) (sl : Nat) (b : FlowBody) (version : Nat) : Nat :=
  match tfind s.actions.natPools (profPool (profileOf s sl b.action.profile version)) with
  | some p => p.prefix64
  | none => 0

/-- Source and destination of a frame after translation. -/
def endsAfter (s : State) (b : FlowBody) (d : Bool) (version : Nat) : (Nat × Nat) × (Nat × Nat) :=
  let e := b.key.ends d
  match xlateOf b with
  | .none => e
  | .source => ((b.rwAddr, b.rwPort), e.2)
  | .dest => (e.1, (b.rwAddr, b.rwPort))
  | .to4 => ((b.rwAddr, b.rwPort), (e.2.1 % 2 ^ 32, e.2.2))
  | .to6 => ((prefix64Of s 0 b version * 2 ^ 32 + e.1.1, e.1.2), (b.extAddr, b.extPort))

/-- The key of the other record of a translated flow, and the direction bit of the frame in it. -/
def twinKey (s : State) (b : FlowBody) (d : Bool) (version : Nat) : Key × Bool :=
  let e := endsAfter s b d version
  let v6 := xlateOf b == .to6
  let proto := match xlateOf b with
    | .to4 => if b.key.proto = 58 then 1 else b.key.proto
    | .to6 => if b.key.proto = 1 then 58 else b.key.proto
    | _ => b.key.proto
  mkKey b.key.zone v6 proto e.1.1 e.1.2 e.2.1 e.2.2 b.key.ext

/-! ### TCP segments -/

/-- A TCP segment as the tracker sees it. -/
structure Segment where
  seq : Nat
  ack : Nat
  len : Nat
  syn : Bool
  fin : Bool
  rst : Bool
  hasAck : Bool
  deriving DecidableEq, Repr

/-- The frame is a TCP segment that is no fragment: it and its header fields. -/
def Frame.segment (f : Frame) : Option Segment :=
  if f.head.keyed && f.head.key.proto == 6 && !f.head.frag && !f.head.icmpErr then
    match f.head.ip with
    | some ip => ip.l4.map (fun o =>
        let fl := byteAt f.data (o + 13)
        ⟨beAt f.data (o + 4) 4, beAt f.data (o + 8) 4, ip.stop - o - byteAt f.data (o + 12) / 16 * 4,
          bit fl 1, bit fl 0, bit fl 2, bit fl 4⟩)
    | none => none
  else none

/-- A signed 32-bit difference. -/
def diff32 (a b : Nat) : Int := sint 32 (a % 2 ^ 32 + 2 ^ 32 - b % 2 ^ 32)

/-- Edge of a segment's sender after it (R218). -/
def Segment.edge (g : Segment) : Nat := wrap 32 (g.seq + g.len + b2n g.syn + b2n g.fin)

/-- The edge of the endpoint that sends in direction `d`. -/
def FlowBody.edge (b : FlowBody) (d : Bool) : Option Nat := if d then b.edgeH else b.edgeL

/-- The sender's edge moves up to a segment's when that exceeds it, or is not set yet. -/
def FlowBody.raiseEdge (b : FlowBody) (d : Bool) (e : Nat) : FlowBody :=
  let up := match b.edge d with
    | none => true
    | some o => decide (0 < diff32 e o)
  if !up then b else if d then { b with edgeH := some e } else { b with edgeL := some e }

/-- A segment passes the checks of R218 with a window of 2^w bytes; a translated record checks the sequence only. -/
def segmentPasses (b : FlowBody) (d : Bool) (g : Segment) (w : Nat) : Bool :=
  let win : Int := ((2 ^ w : Nat) : Int)
  (match b.edge d with
    | none => true
    | some e => decide (-win ≤ diff32 g.seq e) && decide (diff32 g.seq e ≤ win)) &&
  (b.kind != 0 || !g.hasAck ||
    (match b.edge (!d) with
      | none => true
      | some e => decide (-win ≤ diff32 g.ack e) && decide (diff32 g.ack e ≤ 0)))

/-- LIFE that a TCP state decides (Table 06-14). -/
def lifeOfTcp (st life : Nat) : Nat := if st = 4 ∨ st = 5 then 2 else if st = 6 ∨ st = 7 then 3 else life

/-- A record in a TCP state. -/
def FlowBody.toTcp (b : FlowBody) (st : Nat) : FlowBody :=
  { b with action := { b.action with tcpSt := b.action.tcpSt / 8 * 8 + st }, life := lifeOfTcp st b.life }

/-- A FIN of the endpoint in direction `d` moves the state (Table 06-15). A translated record sees one sender and never
the answer that establishes the flow, yet reaches FIN_BOTH with its twin (R220): it takes a FIN from any state before. -/
def FlowBody.onFin (b : FlowBody) (d : Bool) : FlowBody :=
  match b.action.tcpSt % 8 with
  | 1 | 2 => if b.kind = 0 then b else b.toTcp (if d then 5 else 4)
  | 3 => b.toTcp (if d then 5 else 4)
  | 4 => if d then b.toTcp 6 else b
  | 5 => if d then b else b.toTcp 6
  | _ => b

/-- The transitions of Table 06-15 for a segment that passes. -/
def FlowBody.onSegment (b : FlowBody) (d : Bool) (g : Segment) : FlowBody :=
  let init := bit b.action.tcpSt 3
  if g.rst then b.toTcp 7
  else if b.kind != 0 && g.fin then b.onFin d
  else match b.action.tcpSt % 8 with
    | 1 => if g.syn && d != init then b.toTcp 2 else b
    | 2 => if g.hasAck && d == init then b.toTcp 3 else b
    | 3 | 4 | 5 => if g.fin then b.onFin d else b
    | _ => b

/-- What the tracker says of a segment: the record after it, whether it is denied, which counter counts a failure, and
whether it passed. -/
structure Tracked where
  body : FlowBody
  deny : Bool
  counter : Option Nat
  passed : Bool
  deriving DecidableEq, Repr

/-- The tracker (R218, R219) under a profile. -/
def track (b : FlowBody) (d : Bool) (g : Segment) (prof : Nat) : Tracked :=
  if segmentPasses b d g (profWinLog prof) then ⟨(b.onSegment d g).raiseEdge d g.edge, false, none, true⟩
  else if g.rst then ⟨b, true, some 0x4F, false⟩
  else ⟨b, profOow prof, some 0x4E, false⟩

/-- A SYN without ACK (R57, R219). -/
def Segment.opens (g : Segment) : Bool := g.syn && !g.hasAck

/-- TCP_ST that a learn gives a record whose first frame travels in direction `d` (Table 06-15, R216). -/
def initialTcp (prof : Nat) (f : Frame) (d : Bool) : Nat :=
  if !profTrack prof || f.head.key.proto != 6 || f.head.frag then 0
  else b2n d * 8 + (match f.segment with
    | some g => if g.opens then 1 else 3
    | none => 3)

/-- A notice of a FIN or RST that passed goes to the twin's bank (R220). -/
def noticeTwin (s : State) (b : FlowBody) (d : Bool) (g : Segment) (twin version : Nat) : State :=
  if b.kind ≠ 0 ∧ (g.fin ∨ g.rst) then
    withSkein s (fun k => { k with notices := k.notices ++ [⟨twin, (twinKey s b d version).2, g.fin, g.rst⟩] })
  else s

/-- A notice reaches its twin (R220): the oldest one, or the `n`-th; a twin that is not current discards it. -/
def twinNotice (n : Nat) (s : State) : State :=
  match s.skein.notices[n]? with
  | none => s
  | some x =>
    let s := withSkein s (fun k => { k with notices := k.notices.eraseIdx n })
    if current s x.handle then
      modBody s (handleIdx x.handle) (fun b => if x.rst then b.toTcp 7 else b.onFin x.dir)
    else s

/-- TWIN_NOTICE (R220). -/
def execTwinNotice (n : Nat) (s : State) : Host.Outcome State Fault Refusal := .next (twinNotice n s)

end Sys2Proof.Machine
end

