-- ==== Sys2Proof/Machine/Flow.lean ====
section
/-! DEFINITION. Flow lookup (03/R79): the meanings of FLOW_LOOKUP, TAG_LINE_READ, RECORD_BURSTS_READ, WRITE_BACK_DONE,
MERGE_REGISTER_RELEASE, COLD_HOME_WRITTEN, SECOND_BURST_READ and CORRECTION; what a hit does to a record and to the frame
(02/R57, R66; 09/R290). -/

namespace Sys2Proof.Machine

/-! ### The miss buffer (01/R26) -/

/-- A head waits in its slice's miss buffer. -/
def Frame.missing (f : Frame) : Bool :=
  match f.lookup with
  | .held | .tagRead | .recordRead | .fullMiss | .learnQueued => true
  | _ => false

/-- Heads in a slice's miss buffer. -/
def missUsed (s : State) (sl : Nat) : Nat := (s.frames.filter (fun e => e.2.slice == sl && e.2.missing)).length

/-- A head enters the miss buffer, or stays there, at a stage of its lookup. -/
def missAt (s : State) (id : Nat) (st : LookupStage) : State :=
  modFrame s id (fun f => { f with
    lookup := st, times := { f.times with missSince := some (f.times.missSince.getD s.time.tick) } })

/-- A head's lookup is done: how it ended. -/
def lookupDone (s : State) (id how : Nat) : State :=
  modFrame s id (fun f => { f with
    lookup := .done, lookupHow := how,
    times := { f.times with
      lookupEnd := s.time.tick, missSince := none,
      missTicks := f.times.missTicks + (match f.times.missSince with | some t => s.time.tick - t | none => 0) } })

/-! ### What a hit does -/

/-- An access of the bank to a record for a frame: the body changes, and the counts of its bank, wherever it is in force
(R45, R51, R53, R88). -/
def accessRecord (s : State) (idx : Nat) (g : FlowBody → FlowBody) (add : Counts) : State :=
  match hotOf s idx with
  | some (slot, r) =>
    let p := freshBank s r
    let q := addHot p.2 p.1 add
    accessHot q.2 slot { q.1 with body := g q.1.body }
  | none => match writeBackOf s idx with
    | some r =>
      let p := freshBank s r
      let q := addHot p.2 p.1 add
      putWriteBack q.2 idx (some { q.1 with body := g q.1.body })
    | none =>
      let s := modCold (settleBursts s idx) idx (fun c => { c with body := g c.body })
      coldOps (bankMove s idx (parity s) add Counts.zero) (idx / 8) 2

/-- A frame found by a record is counted once, at its first pass: in the record by `accessRecord`, in its port and class
entries, and as outstanding (02/R66, R70; 09/R290). -/
def countFrame (s : State) (id handle cls zone : Nat) (bill : Bool) : State :=
  onFrame s id (fun f =>
    let b := parity s
    let s := portMove s f.port cls b false (oneFrame bill f.rxLen) Counts.zero
    modFrame (outstandingAdd s f.slice b) id (fun f => { f with
      count := { f.count with
        counted := true, billable := bill, bank := b, handle := handle, zone := zone, bytes := f.rxLen, posted := true,
        cls := cls } }))

/-- A head is found by a record. `how` is the lookup's outcome; `learned`: this frame's own learn wrote the record. -/
def recordHit (s : State) (id idx how : Nat) (learned : Bool) : State :=
  onFrame s id (fun f =>
    let b := bodyOf s idx
    let first := f.pass == 0 && !f.count.posted
    let d := f.head.d
    let seg := f.segment
    if b.life == 3 && (match seg with | some g => g.opens | none => false) then missAt (endFlow s idx 3) id .held
    else
      let prof := profileOf s f.slice b.action.profile f.version
      let t : Tracked := match seg with
        | none => ⟨b, false, none, false⟩
        | some g =>
          if !profTrack prof || !first then ⟨b, false, none, false⟩
          else if learned then ⟨b.raiseEdge d g.edge, false, none, false⟩
          else track b d g prof
      let deny := b.action.verdict == 1 || b.action.verdict == 3 || t.deny
      let handle := handleOf s idx
      let twin := (coldAt s idx).twin
      let s := match t.counter with | some n => cntDev s n | none => s
      let body := { t.body with lastSeen := seenNow s }
      let s := accessRecord s idx (fun x => { body with pinned := x.pinned })
        (if first then oneFrame (!deny) f.rxLen else Counts.zero)
      let s := match seg with
        | some g => if t.passed then noticeTwin s body d g twin f.version else s
        | none => s
      let s := if first then countFrame s id handle b.action.cls b.key.zone (!deny) else s
      lookupDone (modFrame s id (fun f => { f with
        found := some { body with action := { body.action with verdict := if deny then 1 else body.action.verdict } },
        handle := handle, twin := twin, flowless := if first then false else f.flowless,
        deepScan := if first then body.action.deep else f.deepScan })) id how)

/-- A hit in the hot tier. -/
def hotHit (s : State) (id idx : Nat) : State := onFrame s id (fun f => recordHit (cntSl s f.slice 0x26B) id idx 1 false)

/-- A hit in the write-back buffer: the record returns to a hot slot, and the head waits while that needs an eviction for
which the buffer has no room (R78). With no usable set the record stays in the buffer, is served there and counted in
PROMO_REFUSED; a record placed again may be pinned again (DESIGN CHOICE: the spec says neither, log entry 40). -/
def writeBackHit (s : State) (id : Nat) (r : HotRec) : State :=
  let s1 := putWriteBack s r.idx none
  match chooseVictim s1 (hotBucketOf r.body.key.bucket) r.body.slots (some r.body.key) with
  | .slot n => hotHit (coldOps (placeHot s1 n r) (r.idx / 8) 1) id r.idx
  | .wait => missAt s id .held
  | .none => hotHit (cntDev s 1) id r.idx

/-! ### Misses -/

/-- A full miss: the victim is released, a learn pends for the key, and the miss goes to the slice (R79, R81). -/
def fullMiss (s : State) (id : Nat) : State :=
  onFrame s id (fun f =>
    let k := f.head.key
    let p : PendKey := ⟨k, true, none, id, none, s.time.tick⟩
    let s := match pendOf s k with
      | some _ => modPend s k (fun _ => p)
      | none => modBank s (bankOf k.bucket) (fun b => { b with pending := b.pending ++ [p] })
    missAt (cntSl s f.slice 0x26D) id .fullMiss)

/-- The next way at or above `w` whose tag is the key's. -/
def candidate (s : State) (k : Key) (w : Nat) : Option Nat :=
  ((List.range 8).filter (fun i => decide (w ≤ i))).find? (fun i =>
    (wayAt s (k.bucket * 8 + i)).valid && (wayAt s (k.bucket * 8 + i)).tag == k.tag)

/-- The record of a candidate way is read; a reserved victim is written into the way's HOT_SLOT beforehand, at no cost while
the controller holds the tag line's row open, for 32 cc (R76). -/
def tryWay (s : State) (id : Nat) (k : Key) (w : Nat) : State :=
  let s := match pendOf s k with
    | none => s
    | some p => match p.victim with
      | none => s
      | some v => coldOps (modWay s (k.bucket * 8 + w) (fun e => { e with hot := true, hotSlot := v })) k.bucket
          (if ccOf (s.time.tick - p.lineAt) ≤ 32 then 0 else 1)
  missAt (coldOps (modPend s k (fun p => { p with way := some w })) k.bucket 2) id .recordRead

/-- Go on with the candidates from a way upward. -/
def nextWay (s : State) (id : Nat) (k : Key) (w : Nat) : State :=
  match candidate s k w with
  | some i => tryWay s id k i
  | none => fullMiss s id

/-- A head that finds nothing hot reads its tag line, with its victim reserved; or it waits (R78, R79, R82, R97). -/
def missHot (s : State) (id : Nat) (k : Key) : State :=
  let bank := bankOf k.bucket
  if 256 ≤ (bankAt s bank).pending.length then missAt s id .held
  else if !(groupAt s (groupOf k.bucket)).placed then fullMiss s id
  else if !homeTakes s k.bucket then missAt s id .held
  else
    let go (v : Option Nat) : State :=
      let s := modBank s bank (fun b => { b with pending := b.pending ++ [⟨k, false, v, id, none, s.time.tick⟩] })
      missAt (coldOps s k.bucket 1) id .tagRead
    match chooseVictim s (hotBucketOf k.bucket) k.slots (some k) with
    | .wait => missAt s id .held
    | .none => go none
    | .slot n => go (some n)

/-- A held head waits for its bank: for a place in the table of pending keys, or for room in the write-back buffer
(R78, R82). -/
def bankHolds (s : State) (f : Frame) : Bool :=
  let k := f.head.key
  let noRoom (s : State) (slots : Nat) (mine : Key) : Bool :=
    match chooseVictim s (hotBucketOf mine.bucket) slots (some mine) with
    | .wait => true
    | _ => false
  f.lookup == .held && (pendOf s k).isNone &&
  (match findWriteBack s k with
  | some r => noRoom (putWriteBack s r.idx none) r.body.slots r.body.key
  | none => (findHot s k).isNone &&
      (decide (256 ≤ (bankAt s (bankOf k.bucket)).pending.length) || noRoom s k.slots k))

/-! ### FLOW_LOOKUP -/

/-- A pending-learn or pending-promotion entry reads uncorrectable: its head is released as a full miss (Table 03-6). -/
def losePend (s : State) (bank n : Nat) : State :=
  match (bankAt s bank).pending[n]? with
  | none => s
  | some p =>
    let s := gapOpen (raiseEv s .sknEvent [] [1]) 3 0 1
    onFrame s p.head (fun f =>
      if f.lookup == .tagRead || f.lookup == .recordRead then fullMiss s p.head else s)

/-- What a bank's check bits find. Corrected words are counted by where they are. A group lost with both copies of its map
entry is reported with cause 0 and its pseudo-channel's number (DESIGN CHOICE: the spec gives no cause, log entry 40). -/
def bankFaults (s : State) (k : Key) (x : BankFaults) : State :=
  let bank := bankOf k.bucket
  let s := if x.hotCe then cntDev s 2 else s
  let s := if x.mapCe then cntDev s 5 else s
  let s := x.hot.foldl discardHot s
  let wb := x.writeBack.filterMap (fun n => (bankAt s bank).writeBack[n]?)
  let s := wb.foldl (fun s e => loseRecord s e.record.idx false) s
  let s := x.pending.foldl (fun s n => losePend s bank n) s
  if x.groupMap then loseGroups s [groupOf k.bucket] ⟨(groupAt s (groupOf k.bucket)).pc, 0, servedSec s, servedNs s⟩ else s

/-- An earlier head of the same key and port is still held: heads of one flow keep their order (01/R28). -/
def behindHeld (s : State) (id : Nat) (f : Frame) : Bool :=
  s.frames.any (fun e => decide (e.1 < id) && e.2.lookup == .held && sameFlow e.2 f)

/-- Heads of a slice that stand at flow lookup and that nothing of their own flow comes before, to the same bank. -/
def lookupFronts (s : State) (k : Key) (sl : Nat) : List (Nat × Frame) :=
  s.frames.filter (fun e => e.2.slice == sl && e.2.stage == .parsed && e.2.lookup == .toDo && e.2.head.key == k)

/-- Accesses to one record from several slices that come in one cc are served in round-robin order over the slices (01/R24):
a slice whose turn it is has a head of the key that reached its bank when this one did. A cc is told apart as far as ticks
do. -/
def outOfTurn (s : State) (f : Frame) : Bool :=
  match nextRR 8 (bankAt s (bankOf f.head.key.bucket)).lastSlice (fun sl =>
      (lookupFronts s f.head.key sl).any (fun e => e.2.times.parseEnd == f.times.parseEnd)) with
  | some sl => sl != f.slice
  | none => false

/-- The bank serves a head's lookup. -/
def serveLookup (s : State) (id : Nat) : State :=
  onFrame s id (fun f =>
    let k := f.head.key
    let slot := findHot s k
    if behindHeld s id f then missAt s id .held
    else match slot.filter (inMerge s), findWriteBack s k with
      | some n, _ => match hotAt s n with
        | some r => hotHit s id r.idx
        | none => s
      | none, some r => writeBackHit s id r
      | none, none =>
        if (pendOf s k).isSome then missAt s id .held
        else match slot with
          | some n => match hotAt s n with
            | some r => hotHit s id r.idx
            | none => s
          | none => missHot s id k)

/-- A head is presented to its bank, or presented again after it was held. A full miss buffer admits no new head (R26); heads
of one flow come in the order they entered in (01/R28). -/
def flowLookup (id : Nat) (x : BankFaults) (s : State) : State :=
  onFrame s id (fun f =>
    if f.stage != .parsed then s
    else if f.lookup == .held then serveLookup (bankFaults s f.head.key x) id
    else if f.lookup == .toDo && decide (missUsed s f.slice < 4096) && !overtakes s id f (fun g => g.lookup == .toDo)
        && !outOfTurn s f then
      let s := modBank s (bankOf f.head.key.bucket) (fun b => { b with lastSlice := f.slice })
      serveLookup (bankFaults s f.head.key x) id
    else s)

/-- FLOW_LOOKUP (R79). -/
def execFlowLookup (id : Nat) (x : BankFaults) (s : State) : Host.Outcome State Fault Refusal := .next (flowLookup id x s)

/-! ### TAG_LINE_READ, RECORD_BURSTS_READ -/

/-- What the check bits of a line of a bucket's home say, counted by its kind (Table 03-6). -/
def homeRead (s : State) (b line ce : Nat) (ecc : Ecc) : State :=
  match ecc with
  | .ok => s
  | .ce => hbmCe (cntDev s ce) (bucketHome s b).1
  | .ue => hbmUe s (bucketHome s b).1 line 0

/-- The tag line of a head's bucket returns. -/
def tagLineRead (id : Nat) (ecc : Ecc) (bad : List Nat) (s : State) : State :=
  onFrame s id (fun f =>
    let k := f.head.key
    if f.lookup != .tagRead || !homeAnswers s k.bucket then s
    else
      let s := homeRead s k.bucket (tagLineNo s k.bucket) 3 ecc
      if !homeAnswers s k.bucket then s
      else
        let s := modPend s k (fun p => { p with lineAt := s.time.tick })
        nextWay (if ecc = .ue then rebuildTags s k.bucket bad false else s) id k 0)

/-- TAG_LINE_READ (R79, R96). -/
def execTagLineRead (id : Nat) (ecc : Ecc) (bad : List Nat) (s : State) : Host.Outcome State Fault Refusal :=
  .next (tagLineRead id ecc bad s)

/-- The hot record that a cold one becomes. -/
def ColdRec.toHot (c : ColdRec) (idx gen bank : Nat) : HotRec :=
  ⟨c.body, gen, idx % 8, bank, c.body.twoSlot, Counts.zero, 0, true, 0⟩

/-- The slots a record found cold goes to: those reserved for its key, or others when the record, with its rewrite extension,
needs more (Table 02-3). That more are chosen only then is a DESIGN CHOICE (log entry 40). -/
def promotionSlots (s : State) (k : Key) (victim : Option Nat) (need : Nat) : Victim :=
  if need = k.slots then match victim with
    | some v =>
      let set := if need = 2 then [v, v + 1] else [v]
      if 64 < (bankAt s (bankOf k.bucket)).writeBack.length + (occupants s set).length then .wait else .slot v
    | none => .none
  else chooseVictim s (hotBucketOf k.bucket) need (some k)

/-- A candidate's record is verified: it is promoted or served cold when its key is the head's (R79, R86, R88). -/
def verified (s : State) (id : Nat) (k : Key) (idx : Nat) (victim : Option Nat) : State :=
  onFrame s id (fun f =>
    let c := coldAt s idx
    match promotionSlots s k victim c.body.slots with
    | .wait => s
    | .slot n =>
      let s := placeHot (clearPend s k) n (c.toHot idx (wayAt s idx).gen (parity s))
      recordHit (cntSl s f.slice 0x26C) id idx 2 false
    | .none => recordHit (cntSl (cntDev (clearPend s k) 1) f.slice 0x26C) id idx 3 false)

/-- A candidate's two bursts return. -/
def recordBurstsRead (id : Nat) (ecc : Ecc) (s : State) : State :=
  onFrame s id (fun f =>
    let k := f.head.key
    match f.lookup, pendOf s k with
    | .recordRead, some p => match p.way with
      | none => s
      | some w =>
        let idx := k.bucket * 8 + w
        if !homeAnswers s k.bucket then s
        else
          let s := homeRead (settleBursts s idx) k.bucket (recLineNo s idx) 4 ecc
          if !homeAnswers s k.bucket then s
          else if ecc = .ue || decide (5 ≤ (bodyOf s idx).life) then fullMiss (loseRecord s idx false) id
          else if (coldAt s idx).body.key = k then verified s id k idx p.victim
          else
            let s := if p.victim.isSome then coldOps (modWay s idx (fun e => { e with hot := false })) k.bucket 1 else s
            nextWay s id k (w + 1)
    | _, _ => s)

/-- RECORD_BURSTS_READ (R79, R95). -/
def execRecordBurstsRead (id : Nat) (ecc : Ecc) (s : State) : Host.Outcome State Fault Refusal :=
  .next (recordBurstsRead id ecc s)

/-! ### Write-backs and updates of cold records -/

/-- The burst writes of a write-back buffer entry complete: the cold home holds the record, its hot counters added to the
bank they belong to, and the entry frees (R78, R86). -/
def writeBackDone (bank n : Nat) (s : State) : State :=
  match (bankAt s bank).writeBack[n]? with
  | none => s
  | some e =>
    let r := e.record
    if !homeAnswers s e.bucket then s
    else
      let s := modBank (settleBursts s r.idx) bank (fun b => { b with writeBack := b.writeBack.eraseIdx n })
      bankMove (modCold s r.idx (fun c => { c with body := r.body })) r.idx r.bank r.counts Counts.zero

/-- WRITE_BACK_DONE (R78). -/
def execWriteBackDone (bank n : Nat) (s : State) : Host.Outcome State Fault Refusal := .next (writeBackDone bank n s)

/-- A record leaves its bank's merge register once no access came within 16 cc of the latest: its updates are in the hot slot
(01/R25). -/
def mergeRelease (slot : Nat) (s : State) : State :=
  match tfind s.skein.merged slot with
  | none => s
  | some r => if inMerge s slot then s
    else withSkein s (fun k => { k with
      hot := tins k.hot slot r, merged := tdel k.merged slot, mergedAt := tdel k.mergedAt slot })

/-- MERGE_REGISTER_RELEASE (R25). -/
def execMergeRegisterRelease (slot : Nat) (s : State) : Host.Outcome State Fault Refusal := .next (mergeRelease slot s)

/-- A learn's writes to a bucket complete: Fitch drops the image it kept of the tag line (R81). -/
def coldHomeWritten (bucket : Nat) (s : State) : State :=
  withSkein s (fun k => { k with inFlight := k.inFlight.erase bucket })

/-- COLD_HOME_WRITTEN (R81). -/
def execColdHomeWritten (bucket : Nat) (s : State) : Host.Outcome State Fault Refusal := .next (coldHomeWritten bucket s)

/-- The read of a record's second burst for its oldest update returns. -/
def secondBurstRead (idx : Nat) (ecc : Ecc) (s : State) : State :=
  match s.skein.bursts.findIdx? (fun o => o.coldIndex == idx) with
  | none => s
  | some i =>
    if !homeAnswers s (idx / 8) then s
    else
      let s := homeRead s (idx / 8) (recLineNo s idx + 1) 4 ecc
      if !homeAnswers s (idx / 8) then s
      else if ecc = .ue then loseRecord s idx false
      else match s.skein.bursts[i]? with
        | none => s
        | some o => applyBurst (withSkein s (fun k => { k with bursts := k.bursts.eraseIdx i })) o

/-- SECOND_BURST_READ (02/R51, R68). -/
def execSecondBurstRead (idx : Nat) (ecc : Ecc) (s : State) : Host.Outcome State Fault Refusal :=
  .next (secondBurstRead idx ecc s)

/-! ### CORRECTION (02/R67, R68) -/

/-- A frame's record takes the correction: hot when it can absorb it, else the cold bank. -/
def correctRecord (s : State) (c : Correction) : State :=
  let idx := handleIdx c.count.handle
  let cold (s : State) : State :=
    issueBurst s ⟨idx, c.count.bank, c.count.zone, c.add, c.sub, some (c.slice, c.count.bank)⟩
  match hotOf s idx with
  | none => cold s
  | some (slot, r) =>
    if r.bank = c.count.bank ∧ r.counts.holds c.sub then
      if hotFits r.counts c.add then
        outstandingSub (putHot s slot { r with counts := r.counts.swap c.add c.sub }) c.slice c.count.bank
      else
        let p := foldHot s r
        cold (putHot p.2 slot p.1)
    else cold s

/-- A correction is applied. `zoneUe`: a zone line that it reads is uncorrectable. -/
def correction (n : Nat) (zoneUe : Bool) (s : State) : State :=
  match s.lid.corrections[n]? with
  | none => s
  | some c =>
    let s := { s with lid := { s.lid with corrections := s.lid.corrections.eraseIdx n } }
    let s := portMove s c.port c.count.cls c.count.bank c.flowless c.add c.sub
    if c.flowless then outstandingSub s c.slice c.count.bank
    else if current s c.count.handle then correctRecord s c
    else outstandingSub (zoneMove (zoneRead zoneUe s c.count.zone c.count.bank) c.count.zone c.count.bank c.add c.sub) c.slice c.count.bank

/-- CORRECTION (R68). -/
def execCorrection (n : Nat) (zoneUe : Bool) (s : State) : Host.Outcome State Fault Refusal :=
  .next (correction n zoneUe s)

end Sys2Proof.Machine
end

