-- ==== Sys2Proof/Machine/Nat.lean ====
section
/-! DEFINITION. What a learn needs from translation and balancing (06/R197–R205, R210, R211): subscribers, blocks, port
mappings, targets, and what an uncorrectable or lost line of their state costs. -/

namespace Sys2Proof.Machine

/-- A step of a learn that may fail: the device counter of the cause, with the state it leaves. -/
abbrev Try (α : Type) := Except (Nat × State) α

/-- Reading lines of translation state: a lost line fails the learn; so does one that reads uncorrectable, and the next
sweep pass treats it as lost (Table 18-5, R209). -/
def natRead (ue lines : List Nat) (s : State) : Try State :=
  match lines.find? (fun l => natLineLost s l || ue.contains l) with
  | none => .ok s
  | some l =>
    if natLineLost s l then .error (0x48, s)
    else
      let s := hbmUe s (linePc s l) (sharedLineNo s l) 0
      let s := { s with actions := { s.actions with natLost := s.actions.natLost ++ [(false, l)] } }
      .error (0x48, natLostNotice s (linePc s l))

/-- Change the translation state. -/
def withActions (s : State) (f : ActionState → ActionState) : State := { s with actions := f s.actions }

/-! ### Subscribers and blocks (R198, R199) -/

/-- Address indices of a pool, ascending, that hold a valid address. -/
def NatPool.addrs (p : NatPool) (s : State) : List Nat :=
  ((List.range (p.addrCountM1 + 1)).map (fun i => p.addrFirst + i)).filter (fun i => bit (tget 0 s.actions.natAddr i) 63)

/-- Where a subscriber's search of the table begins. -/
def subHash (zone inside : Nat) : Nat := crc32c (be 4 zone ++ be 16 inside) % 2 ^ 23

/-- The eight entries a subscriber may hold. -/
def subRange (zone inside : Nat) : List Nat := (List.range 8).map (fun i => (subHash zone inside + i) % 2 ^ 23)

/-- The entry of a subscriber. -/
def findSub (s : State) (zone inside : Nat) : Option Nat :=
  (subRange zone inside).find? (fun i => match tfind s.actions.subs i with
    | some x => x.zone == zone && x.inside == inside
    | none => false)

/-- The free block numbers of an address whose ports all lie at or above PORT_MIN, ascending. -/
def freeBlocks (s : State) (p : NatPool) (addr : Nat) : List Nat :=
  (List.range (65536 / p.ports)).filter (fun j =>
    decide (p.portMin ≤ j * p.ports) && (tfind s.actions.blocks (addr * 1024 + j)).isNone)

/-- The address of a new subscriber's first block: the most free blocks, the lowest index on a tie. -/
def firstAddr (s : State) (p : NatPool) : Option Nat :=
  (mostBy (fun i => (freeBlocks s p i).length) (p.addrs s)).filter (fun i => !(freeBlocks s p i).isEmpty)

/-- A block event is exported when the pool logs blocks (R221, Table 06-18). -/
def logBlock (s : State) (pool : NatPool) (sub : Subscriber) (addr block event : Nat) : State :=
  if pool.logBlocks then queueExport s (blockRecord s pool sub (natAddrAt s addr) block event) else s

/-- Task 0xF004 for a newly allocated block (13/R395): its parameters are the event's collector, template and record, and none
where the pool logs no blocks. -/
def blockTask (s : State) (pool : NatPool) (sub : Subscriber) (addr block : Nat) : State :=
  let r := blockRecord s pool sub (natAddrAt s addr) block 14
  raiseTask s 0xF004 2 (if pool.logBlocks then le 1 r.collector ++ le 2 r.template ++ r.bytes else [])

/-- The task posts its event. -/
def blockEvent (s : State) (p : List Byte) : State :=
  if p.isEmpty then s else queueExport s ⟨leAt p 0 1, leAt p 1 2, p.drop 3⟩

/-- A block is allocated to a subscriber on its address. -/
def allocBlock (ue : List Nat) (s : State) (pool : NatPool) (i : Nat) (sub : Subscriber) : Try (Nat × State) :=
  match (freeBlocks s pool sub.addrIdx).head? with
  | none => .error (0x45, s)
  | some j => do
    let s ← natRead ue [blockLine (sub.addrIdx * 1024 + j)] s
    let sub' := { sub with blocks := sub.blocks ++ [j] }
    let s := withActions s (fun a => { a with
      subs := tins a.subs i sub', blocks := tins a.blocks (sub.addrIdx * 1024 + j) ⟨false, 0, i⟩ })
    .ok (j, blockTask s pool sub' sub.addrIdx j)

/-! ### Mappings (R200) -/

/-- The port-map entries of a line, by key. -/
def lineEntries (m : Nat) : List Nat := (List.range 16).map (fun i => m / 16 * 16 + i)

/-- What a line offers an inside endpoint: the entry that maps it already, or the first free one from its own place on. -/
def lineOffer (s : State) (m proto port : Nat) : Option Nat :=
  match (lineEntries m).find? (fun e => match tfind s.actions.ports e with
    | some x => x.proto == proto && x.insidePort == port
    | none => false) with
  | some e => if (match tfind s.actions.ports e with | some x => decide (x.uses < 8191) | none => false) then some e else none
  | none => ((List.range 16).map (fun i => m / 16 * 16 + (m % 16 + i) % 16)).find? (fun e => (tfind s.actions.ports e).isNone)

/-- One more translated flow on a mapping, which is made if it is not there; its block waits no longer. -/
def useMapping (s : State) (m proto port block : Nat) : State :=
  withActions s (fun a => { a with
    ports := tins a.ports m (match tfind a.ports m with
      | some x => { x with uses := x.uses + 1 }
      | none => ⟨proto, 1, port⟩),
    blocks := match tfind a.blocks block with
      | some b => tins a.blocks block { b with hold := false }
      | none => a.blocks })

/-- map_port over the blocks a subscriber holds: the port, when a line offers one, and the lines read beyond the first. -/
def mapHeld (ue : List Nat) (pool : NatPool) (addr proto port : Nat) :
    Bool → List Nat → State → Try (Option (Nat × Nat) × State)
  | _, [], s => .ok (none, s)
  | first, j :: js, s => do
    let m := addr * 65536 + j * pool.ports + port % pool.ports
    let s ← natRead ue [portLine m] s
    let s := if first then s else cntDev s 0x54
    match lineOffer s m proto port with
    | some e => .ok (some (e, addr * 1024 + j), useMapping s e proto port (addr * 1024 + j))
    | none => mapHeld ue pool addr proto port false js s

/-- map_port(sub, q, p): the port-map entry of the public port, and its block. -/
def mapPort (ue : List Nat) (s : State) (pool : NatPool) (i : Nat) (sub : Subscriber) (proto port : Nat) :
    Try ((Nat × Nat) × State) := do
  let r ← mapHeld ue pool sub.addrIdx proto port true sub.blocks s
  match r with
  | (some p, s) => .ok (p, s)
  | (none, s) =>
    if sub.blocks.length < pool.maxBlocksM1 + 1 then do
      let (j, s) ← allocBlock ue s pool i sub
      let p := j * pool.ports + port % pool.ports
      let m := sub.addrIdx * 65536 + p
      let s ← natRead ue [portLine m] s
      .ok ((m, sub.addrIdx * 1024 + j), useMapping s m proto port (sub.addrIdx * 1024 + j))
    else .error (0x46, s)

/-- An endpoint that a flow's rewrite names, with the mapping that it holds a use of and its block. -/
structure MappedEnd where
  addr : Nat
  port : Nat
  mapping : Nat × Nat
  deriving DecidableEq, Repr

/-- The public endpoint of an inside endpoint: its subscriber, or a new one. -/
def publicEnd (ue : List Nat) (s : State) (pool : NatPool) (poolNo : Nat) (v6 : Bool) (addr proto port : Nat) :
    Try (MappedEnd × State) := do
  let inside := insideOf pool v6 addr
  let range := subRange pool.zone inside
  match findSub s pool.zone inside with
  | some i => do
    let s ← natRead ue ((range.takeWhile (· != i) ++ [i]).map subLine) s
    match tfind s.actions.subs i with
    | none => .error (0x44, s)
    | some sub => do
      let (p, s) ← mapPort ue s pool i sub proto port
      .ok (⟨natAddrAt s sub.addrIdx, p.1 % 65536, p⟩, s)
  | none => do
    let s ← natRead ue (range.map subLine) s
    match range.find? (fun i => (tfind s.actions.subs i).isNone) with
    | none => .error (0x44, s)
    | some i => match firstAddr s pool with
      | none => .error (0x45, s)
      | some a => do
        let (p, s) ← mapPort ue s pool i ⟨inside, pool.zone, a, poolNo, []⟩ proto port
        .ok (⟨natAddrAt s a, p.1 % 65536, p⟩, s)

/-- The inside endpoint behind a public one, with one more use of its mapping (R205). -/
def hairpinEnd (ue : List Nat) (s : State) (addr proto port : Nat) : Try (MappedEnd × State) := do
  let m := addr * 65536 + port
  let s ← natRead ue [portLine m] s
  match tfind s.actions.ports m with
  | none => .error (0x47, s)
  | some x =>
    let owner := (s.actions.blocks.find? (fun b => b.1 / 1024 == addr &&
      (match tfind s.actions.subs b.2.sub with
        | some u => match tfind s.actions.natPools u.pool with
          | some p => b.1 % 1024 == port / p.ports
          | none => false
        | none => false)))
    if x.proto ≠ proto ∨ 8191 ≤ x.uses then .error (0x47, s)
    else match owner with
      | none => .error (0x47, s)
      | some (b, e) => do
        let s ← natRead ue [blockLine b, subLine e.sub] s
        match tfind s.actions.subs e.sub with
        | none => .error (0x47, s)
        | some u => .ok (⟨u.inside % 2 ^ 32, x.insidePort, (m, b)⟩, useMapping s m proto port b)

/-- The first failure of a pool in a second is flagged and reported (R204). -/
def poolFailed (s : State) (pool : Nat) : State :=
  let s := if s.actions.natFailSec = servedSec s then s
    else withActions s (fun a => { a with natFails := [], natFailSec := servedSec s })
  let n := tget 0 s.actions.natFails pool
  let s := withActions s (fun a => { a with natFails := tput 0 a.natFails pool (n + 1) })
  if n = 0 then actionEvent (raiseEv s .actEvent [] [3]) 3 pool 1 else s

/-! ### Load balancing (R210, R211) -/

/-- The hash input of R211. -/
def lbInput (fields zone proto : Nat) (src dst : Nat × Nat) : List Byte :=
  (if bit fields 0 then be 4 zone else []) ++ (if bit fields 1 then be 16 src.1 else [])
    ++ (if bit fields 2 then be 16 dst.1 else []) ++ (if bit fields 3 then be 1 proto else [])
    ++ (if bit fields 4 then be 2 src.2 else []) ++ (if bit fields 5 then be 2 dst.2 else [])

/-- The Toeplitz key in force. -/
def lbKey (s : State) : Nat := (List.range 12).foldl (fun a k => a * 2 ^ 32 + inForce s .lbToeplitz [k]) 0

/-- The indirection buckets of the die a slice lies on. -/
def indirection (s : State) (sl : Nat) : Table Nat := if sl < 4 then s.actions.indWest else s.actions.indEast

/-- The bucket of a pool image that a head selects. -/
def lbBucket (s : State) (img : Nat) (k : Key) (d : Bool) : Nat :=
  let e := k.ends d
  let input := lbInput (bits img 60 55) k.zone k.proto e.1 e.2
  let h := if bit img 62 then toeplitz (lbKey s) 384 input else crc32c input
  bits img 54 33 + h * (bits img 32 11 + 1) / 2 ^ 32

/-- select(pool, frame): the target a head's flow is pinned to, its index and next hop. `ue`: its line reads
uncorrectable, and its entries read VALID 0 from then on (Table 18-5). -/
def lbSelect (ue : List Nat) (s : State) (pool version sl : Nat) (k : Key) (d : Bool) : Try ((Nat × Nat) × State) :=
  let img := dtFind s sl 2 pool version
  if !bit img 63 then .error (0x4C, s)
  else
    let t := tget 0 (indirection s sl) (lbBucket s img k d)
    let e := bits img 54 33 + t
    let line := targetLine e
    if ue.contains line then
      let s := hbmUe s (linePc s line) (sharedLineNo s line) 0
      .error (0x4C, loseTargets s (e / 8 * 8) 8)
    else match tfind s.actions.targets e with
      | some x => if x.state = 0 then .ok ((t, x.nextHop), s) else .error (0x4C, s)
      | none => .error (0x4C, s)

end Sys2Proof.Machine
end

