-- ==== Sys2Proof/Machine/Learn.lean ====
section
/-! DEFINITION. LEARN_REQUEST and FITCH_LEARN: what a full miss comes to (02/R61–R65; 06/R184, R205, R206, R219), and the
writing of a new flow (03/R80, R81; 06/R197–R212). -/

namespace Sys2Proof.Machine

/-! ### What becomes of a head that gets no record -/

/-- A head is dropped with no epoch total: its slot is wasted. -/
def learnDrop (s : State) (id : Nat) : State := onFrame s id (fun f => discardHead (slotDropped s f.slice) id 3)

/-- A head goes on without a record (R62): it is outstanding and posted from here, unless its first pass already was. -/
def goFlowless (s : State) (id how : Nat) : State :=
  onFrame s id (fun f =>
    if f.count.posted then lookupDone (modFrame s id (fun f => { f with found := none })) id how
    else
      let b := parity s
      let s := modFrame (outstandingAdd s f.slice b) id (fun f => { f with
        flowless := true, found := none, count := { f.count with bank := b, bytes := f.rxLen } })
      let s := lookupDone s id how
      if f.cls.done then judgeFlowless s id b else s)

/-- The EXCESS action of a learn port for a head, counted on the head's own port (R62, R63). -/
def excess (s : State) (learnPort id how : Nat) : State :=
  onFrame s id (fun f =>
    if fld s .lrnCfg (portIx learnPort) 30 30 = 1 then learnDrop (cntPort s f.port 9) id
    else goFlowless (cntPort s f.port 8) id how)

/-! ### Learn tokens (R65) -/

/-- A learn token in the units of `SkeinState.tokens`. -/
def tokenUnit : Nat := 1250000000

/-- A port's bucket now: RATE × 32 tokens each second, at most BURST. It is full until a learn takes from it. -/
def tokensNow (s : State) (port : Nat) : Nat :=
  let full := max 1 (fld s .lrnBurst (portIx port) 15 0) * tokenUnit
  match tfind s.skein.tokens port with
  | none => full
  | some t => min full (t + fld s .lrnRate (portIx port) 23 0 * 32 * (s.time.tick - tget 0 s.skein.tokensTick port))

/-- A port's bucket is brought up to date and set. -/
def setTokens (s : State) (port v : Nat) : State :=
  withSkein s (fun k => { k with tokens := tins k.tokens port v, tokensTick := tins k.tokensTick port s.time.tick })

/-- A port's limits refuse a learn. -/
def learnRefused (s : State) (port : Nat) : Bool :=
  fld s .lrnCfg (portIx port) 31 31 == 1 &&
  ((fld s .lrnCfg (portIx port) 26 0 != 0 && decide (fld s .lrnCfg (portIx port) 26 0 ≤ tget 0 s.skein.live port)) ||
   (fld s .lrnRate (portIx port) 23 0 != 0 && decide (tokensNow s port < tokenUnit)))

/-- A learn within the limits takes its token, also while RATE is 0; an empty bucket stays empty then. -/
def takeToken (s : State) (port : Nat) : State :=
  if fld s .lrnCfg (portIx port) 31 31 = 1 then
    setTokens s port (tokensNow s port - tokenUnit)
  else s

/-! ### Translation of a new flow -/

/-- The profile that a learn resolves, in the head's version. -/
def learnProfile (s : State) (f : Frame) : Nat := profileOf s f.slice (ownProfile f.cls) f.version

/-- The head is sent to an address of a valid pool of its zone (R205). -/
def toPoolAddr (s : State) (f : Frame) : Option Nat :=
  if f.cls.natDst.isSome && !f.head.key.v6 then poolAddr s f.head.key.zone f.head.dest else none

/-- The profile translates this head: NAPT44 an IPv4 one; NAT64 an IPv6 one sent to the pool's prefix, or any IPv6 one while
the pool gives no prefix to compare. -/
def translates (s : State) (f : Frame) (prof : Nat) : Bool :=
  match profNat prof with
  | 1 => !f.head.key.v6
  | 2 => f.head.key.v6 && (match tfind s.actions.natPools (profPool prof) with
    | some p => !p.valid || p.zone != f.head.key.zone || f.head.dest / 2 ^ 32 == p.prefix64
    | none => true)
  | _ => false

/-- Next hop of a new flow, before a target is selected (Table 06-3). -/
def learnHop (c : ClassInfo) : Option Nat :=
  if c.hasNh then some c.merged.nextHop
  else match c.routed with
    | some nh => some nh
    | none => if c.bridged then some 0 else none

/-! ### LEARN_REQUEST -/

/-- The full misses that no learn may be queued for (R61, R206): what happens instead. -/
def noLearn (s : State) (id : Nat) (f : Frame) : Option State :=
  let prof := learnProfile s f
  let tcp := f.head.key.proto == 6 && !f.head.frag && !f.head.icmpErr
  let opens := match f.segment with | some g => g.opens | none => false
  if !bit f.cls.zoneImage 63 then some (learnDrop (cntSl s f.slice 0x277) id)
  else if !profLb prof && (learnHop f.cls).isNone then some (learnDrop (cntDev s 0x40) id)
  else if tcp && profTrack prof && profNonsyn prof && !opens then some (learnDrop (cntDev s 0x50) id)
  else if f.head.frag && translates s f prof then
    let s := cntDev s 0x4A
    if profFragPunt prof then
      let s := lookupDone s id 5
      let s := modFrame s id (fun f => { f with stage := .admitting, punt := some 0x22 })
      some (headLeave (snapAdd (slotRetired s f.slice) f.slice f.version) f.slice f.version)
    else some (learnDrop s id)
  else if (toPoolAddr s f).isSome && profNat prof != 1 then some (learnDrop (cntDev s 0x49) id)
  else none

/-- A full miss reaches its slice. -/
def learnRequest (id : Nat) (s : State) : State :=
  onFrame s id (fun f =>
    if f.lookup != .fullMiss || !f.cls.done || f.stage != .parsed then s
    else
      match noLearn (clearPend s f.head.key) id f with
      | some s => s
      | none =>
        if learnRefused s f.port then excess (clearPend s f.head.key) f.port id 5
        else
          let q := s.skein.learnQ.getD f.slice []
          if 65536 ≤ q.length then s
          else
            let s := liveMove (takeToken s f.port) f.port f.head.key.bucket (· + 1)
            let s := withSkein s (fun k => { k with learnQ := setAt k.learnQ f.slice (q ++ [id]) })
            let s := bump s (f.slice + 1) 0x26E (if translates s f (learnProfile s f) then 2 else 1)
            modFrame s id (fun f => { f with lookup := .learnQueued }))

/-- LEARN_REQUEST (R61). -/
def execLearnRequest (id : Nat) (s : State) : Host.Outcome State Fault Refusal := .next (learnRequest id s)

/-! ### FITCH_LEARN: the new records -/

/-- The action word of a new flow (Table 06-3), for a record that the first frame travels in direction `d`. -/
def learnAction (s : State) (f : Frame) (d : Bool) (nextHop : Nat) : Action :=
  let c := f.cls
  let prof := learnProfile s f
  { nextHop := nextHop, policer := if c.hasPol then c.merged.policer else 0, profile := ownProfile c, cls := ownClass c,
    verdict := ownVerdict c, exportMode := profExport prof, deep := c.merged.deep, polEn := c.hasPol && c.merged.polEn,
    tcpSt := initialTcp prof f d }

/-- A new record (LIFE 1, nothing rewritten). -/
def newBody (s : State) (k : Key) (a : Action) : FlowBody :=
  { FlowBody.zero with key := k, life := 1, lastSeen := seenNow s, action := a }

/-- The records of an untranslated flow, pinned to a target when its profile balances. -/
def plainPlan (ue : List Nat) (s : State) (f : Frame) : Try (List FlowBody × State) :=
  let k := f.head.key
  let d := f.head.d
  let prof := learnProfile s f
  if profLb prof then do
    let (t, s) ← lbSelect ue s (profLbPool prof) f.version f.slice k d
    .ok ([{ newBody s k (learnAction s f d t.2) with rwTarget := t.1 }], s)
  else .ok ([newBody s k (learnAction s f d ((learnHop f.cls).getD 0))], s)

/-- The two records of a translated flow (Table 06-9), from the rewrite of the primary and of the twin. -/
def pairPlan (s : State) (f : Frame) (pub : MappedEnd) (hairpin : Bool) (twinRw : Nat × Nat) : List FlowBody × State :=
  let k := f.head.key
  let d := f.head.d
  let nh := (learnHop f.cls).getD 0
  let p := { newBody s k (learnAction s f d nh) with
    kind := 1, rwAddr := pub.addr, rwPort := pub.port, mapping := some pub.mapping, hairpin := hairpin }
  let tk := twinKey s p d f.version
  let t := { newBody s tk.1 (learnAction s f tk.2 nh) with kind := 2, mapping := some pub.mapping, hairpin := hairpin }
  let t := if k.v6 then { t with extAddr := twinRw.1, extPort := twinRw.2 }
    else { t with rwAddr := twinRw.1, rwPort := twinRw.2 }
  ([p, t], s)

/-- PROTO of a mapping; a protocol that Table 06-8 does not name has a value left open. -/
def mapProto (s : State) (proto : Nat) : Nat × State :=
  match natProto proto with
  | some q => (q, s)
  | none => let d := drawFree s; (d.1 % 4, d.2)

/-- The records of a translated flow. -/
def natPlan (ue : List Nat) (s : State) (f : Frame) : Try (List FlowBody × State) :=
  let k := f.head.key
  let n := profPool (learnProfile s f)
  let src := (k.ends f.head.d).1
  let dst := (k.ends f.head.d).2
  match tfind s.actions.natPools n with
  | none => .error (0x43, s)
  | some pool =>
    if !pool.valid || pool.zone != k.zone then .error (0x43, s)
    else
      let q := mapProto s k.proto
      match toPoolAddr s f with
      | some a => do
        let (inside, s) ← hairpinEnd ue q.2 a q.1 dst.2
        .ok (pairPlan s f inside true dst)
      | none => do
        let (pub, s) ← publicEnd ue q.2 pool n k.v6 src.1 q.1 src.2
        .ok (pairPlan s f pub false src)

/-- The records a learn writes. -/
def learnPlan (ue : List Nat) (s : State) (f : Frame) : Try (List FlowBody × State) :=
  if translates s f (learnProfile s f) then natPlan ue s f else plainPlan ue s f

/-! ### FITCH_LEARN: writing them -/

/-- The lowest free way of a bucket, when its group is placed. -/
def freeWayOf (s : State) (b : Nat) : Option Nat :=
  if (groupAt s (groupOf b)).placed then
    ((List.range 8).map (fun w => b * 8 + w)).find? (fun i => !(wayAt s i).valid)
  else none

/-- What a write of a record comes to: written at this place, no way free, or no room in the write-back buffer yet. -/
inductive Written where
  | at_ (idx : Nat) (s : State)
  | full
  | wait
  deriving DecidableEq, Repr

/-- A record is written to the lowest free way of its bucket, and hot when a set of slots is usable (R80, R88). One written
cold only is counted in PROMO_REFUSED as a refused promotion is (DESIGN CHOICE: R88 does not say whether a learn is, log
entry 40). -/
def writeRecord (s : State) (b : FlowBody) (port : Nat) : Written :=
  match freeWayOf s b.key.bucket with
  | none => .full
  | some idx =>
    let gen := (wayAt s idx).gen
    let put (s : State) : State :=
      let s := modWay s idx (fun w => { w with tag := b.key.tag, valid := true, hot := false, pinned := false, hotSlot := 0 })
      let s := modCold s idx (fun _ => ⟨true, b, mkHandle gen idx, 0, port, Counts.zero, Counts.zero⟩)
      withSkein (coldOps s b.key.bucket 3) (fun k => { k with inFlight := k.inFlight ++ [b.key.bucket] })
    match chooseVictim s (hotBucketOf b.key.bucket) b.slots none with
    | .wait => .wait
    | .none => .at_ idx (cntDev (put s) 1)
    | .slot n => .at_ idx (placeHot (put s) n ⟨b, gen, idx % 8, parity s, b.twoSlot, Counts.zero, 0, true, 0⟩)

/-- The records of a flow are written together, or none of them: the place of the first. -/
def writeFlow (s : State) (bs : List FlowBody) (port : Nat) : Written :=
  match bs with
  | [] => .full
  | b :: rest => match writeRecord s b port with
    | .at_ i s => match rest with
      | [] => .at_ i s
      | t :: _ => match writeRecord s t port with
        | .at_ j s =>
          let s := modCold s i (fun c => { c with twin := handleOf s j })
          .at_ i (modCold s j (fun c => { c with twin := handleOf s i }))
        | w => w
    | w => w

/-- Heads held for a key. -/
def heldFor (s : State) (k : Key) : List Nat :=
  (s.frames.filter (fun e => e.2.lookup == .held && e.2.head.keyed && e.2.head.key == k)).map (·.1)

/-- A queued learn fails (R63). -/
def learnFailed (s : State) (id code : Nat) : State :=
  onFrame s id (fun f =>
    let nat := decide (0x43 ≤ code) && decide (code ≤ 0x48)
    let s := cntDev s code
    let s := if code = 0x45 ∨ code = 0x46 then poolFailed s (profPool (learnProfile s f)) else s
    let s := liveMove (clearPend (cntPort s f.port 10) f.head.key) f.port f.head.key.bucket (· - 1)
    (id :: heldFor s f.head.key).foldl (fun s i =>
      if nat then onFrame s i (fun g => learnDrop (cntPort s g.port 9) i) else excess s f.port i 6) s)

/-- A learn whose key has a record already writes nothing and joins it (R81). -/
def learnJoins (s : State) (id : Nat) (f : Frame) : State :=
  missAt (liveMove (clearPend s f.head.key) f.port f.head.key.bucket (· - 1)) id .held

/-- Fitch serves a learn that it has taken from its queue; `old` is the state in which it still waits. A learn that waits for
room in a write-back buffer (R78), or for an entry of the matching store for its block's notice (13/R407), keeps its place at the head of its queue and its turn among the slices, so that Fitch
serves no other queue meanwhile (DESIGN CHOICE: the spec does not say, log entry 40). -/
def serveLearn (ue : List Nat) (old s : State) (id : Nat) (f : Frame) : State :=
  if (findWay s f.head.key).isSome then learnJoins s id f
  else match learnPlan ue s f with
    | .error (code, s1) => if s1.sched.stalled.any (isTask 0xF004) then old else learnFailed s1 id code
    | .ok (bs, s1) =>
      if s1.sched.stalled.any (isTask 0xF004) then old
      else match writeFlow s1 bs f.port with
      | .wait => old
      | .full => learnFailed s id 0
      | .at_ idx s2 =>
        let s := if bs.length = 2 then cntDev s2 0x53 else s2
        recordHit (clearPend s f.head.key) id idx 4 true

/-- The head at the front of a slice's learn queue. -/
def learnFront (s : State) (sl : Nat) : Option (Nat × Frame) :=
  match (s.skein.learnQ.getD sl []).head? with
  | none => none
  | some id => (frameAt s id).map (fun f => (id, f))

/-- Fitch takes the next learn in round-robin order whose bucket's home answers. -/
def fitchLearn (ue : List Nat) (s : State) : State :=
  let ok (sl : Nat) : Bool := match learnFront s sl with
    | some (_, f) => !(groupAt s (groupOf f.head.key.bucket)).placed || homeTakes s f.head.key.bucket
    | none => false
  match nextRR 8 s.skein.lastLearn ok with
  | none => s
  | some sl => match learnFront s sl with
    | none => s
    | some (id, f) =>
      let s1 := withSkein s (fun k => { k with
        learnQ := setAt k.learnQ sl ((k.learnQ.getD sl []).drop 1), lastLearn := sl })
      serveLearn ue s s1 id f

/-- FITCH_LEARN (R80). -/
def execFitchLearn (ue : List Nat) (s : State) : Host.Outcome State Fault Refusal := .next (fitchLearn ue s)

end Sys2Proof.Machine
end

