-- ==== Sys2Proof/Machine/Lid.lean ====
section
/-! DEFINITION. The Lid's epochs, closes and seals (09/R289–R320), and what a reset of the device leaves (16/R475,
19/R540). -/

namespace Sys2Proof.Machine

/-! ### Settings of an epoch (R294, R298, R312) -/

/-- Every list of indices of a register. -/
def RegDesc.indices (d : RegDesc) : List (List Nat) :=
  d.dims.foldr (fun x l => (List.range x.2).flatMap (fun i => l.map (fun r => i :: r))) [[]]

/-- The accounting settings with their values in force, by offset (R298). -/
def epochSettings (s : State) : List (Nat × Nat) :=
  (regNames.filter (fun r => r.desc.fields.any (fun f => f.applies == .epoch))).foldl (fun t r =>
    r.desc.indices.foldl (fun t ix => tins t (r.addr ix) (inForce s r ix)) t) []

/-- LID_CFG in force during an epoch. -/
def Epoch.cfg (e : Epoch) : Nat := alook 0xE10 e.settings (RegName.addr .lidCfg [])

/-- EPOCH_LEN of a word of LID_CFG, in seconds: 0 acts as 1, above 86,400 as 86,400. -/
def lenOf (cfg : Nat) : Nat := max 1 (min 86400 (bits cfg 16 0))

/-- Nanoseconds of a number of seconds. -/
def secNs (n : Nat) : Nat := n * 1000000000

/-- SYNC_EN in force. -/
def syncEn (s : State) : Bool := bit s.lid.epoch.cfg 31

/-- The window of a boundary (R299), in ns. -/
def syncWindow (s : State) : Nat := min 500000000 (secNs (lenOf s.lid.epoch.cfg) / 8)

/-- The first nominal boundary after a time, in served ns. -/
def nominalAfter (len now : Nat) : Nat := (now / secNs len + 1) * secNs len

/-- The drain limit of an epoch in ticks (R307). -/
def drainTicks (e : Epoch) : Nat :=
  ticksOfNs ((if bits e.cfg 23 17 = 0 then 5 else bits e.cfg 23 17) * 100000000)

/-! ### Opening an epoch (R295–R298) -/

/-- EPOCH settings take effect: learn buckets are brought up to date under the old ones, and a bucket whose LIMIT_EN takes
effect as 1 after being 0 is full (02/R65). -/
def settingsApply (s : State) : State :=
  let on (s : State) (p : Nat) : Bool := fld s .lrnCfg (portIx p) 31 31 == 1
  let ports := (List.range 256).filter (fun p => (tfind s.regs.cells (RegName.addr .lrnCfg (portIx p))).isSome)
  let was := ports.filter (on s)
  let s := was.foldl (fun s p => setTokens s p (tokensNow s p)) s
  let s := applyAll s .epoch
  ports.foldl (fun s p =>
    if on s p then
      let full := max 1 (fld s .lrnBurst (portIx p) 15 0) * tokenUnit
      setTokens s p (if was.contains p then min full (tget 0 s.skein.tokens p) else full)
    else s) s

/-- A Rim event (16, source 10). -/
def rimEventPost (s : State) (kind arg value : Nat) : State :=
  postEvent s 10 (le 1 kind ++ le 3 arg ++ le 4 value ++ le 8 (servedSec s))

/-- Log entry LIFECYCLE: transition (from and to) and step 0 requested, 1 burned, 2 in force. -/
def logLifecycle (s : State) (src dst step : Nat) : State := rimLog s 0x31 true (le 1 src ++ le 1 dst ++ le 2 step)

/-- The TAP's instruction under a lifecycle: outside BLANK only IDCODE and BYPASS act (16/R486, 00/R4). -/
def tapUnder (life : Nat) (op : TapOp) : TapOp := if life = 0 ∨ op = .idcode then op else .bypass

/-- A pending PROVISION or SEAL takes effect at the switch (16/R476). -/
def lifecycleApply (s : State) : State :=
  if s.rim.pendingLc = 0 then s
  else
    let n := s.rim.pendingLc
    let s := logLifecycle (logLifecycle s s.rim.lifecycle n 1) s.rim.lifecycle n 2
    let s := { s with rim := { s.rim with
      lifecycle := n, pendingLc := 0, otp := { s.rim.otp with lifecycle := max s.rim.otp.lifecycle n },
      tap := tapUnder n s.rim.tap } }
    rimEventPost (raiseEv s .rimEvent [] [4]) 7 n s.rim.fwLevel

/-- An epoch opens now under a sequence (R295, R317): the settings and the current version are in force in it. -/
def openEpoch (s : State) (seq how : Nat) (first : Bool) : State :=
  let v := s.rules.current
  let e : Epoch := ⟨seq, servedSec s, servedNs s, s.time.tick, how, [], epochSettings s, [(v, versionDigest s v)],
    false, first⟩
  let s := { s with lid := { s.lid with opened := true, epoch := e } }
  rimLog s 0x10 false (le 8 seq ++ le 8 e.openSec ++ le 4 e.openNs ++ le 4 how)

/-- The version that a commit makes current during the open epoch enters its configuration (R312). -/
def epochVersion (s : State) (v : Nat) : State :=
  if s.lid.opened then
    { s with lid := { s.lid with epoch :=
      { s.lid.epoch with versions := s.lid.epoch.versions ++ [(v, versionDigest s v)] } } }
  else s

/-- The open epoch begins to close (Table 09-2 step 1): its tamper gap says whether an assertion is in progress, and the
banks of the other parity count from now on. -/
def closeOpen (s : State) (how : Nat) (offset : Int) (life : Nat) : State :=
  let e := s.lid.epoch
  let gs := e.gaps.map (fun g => if g.kind = 4 then { g with arg := b2n s.rim.tamper } else g)
  let c : Closing := ⟨{ e with gaps := gs }, .drain, servedSec s, servedNs s, s.time.tick, how, offset, 0, life, []⟩
  raiseTask { s with lid := { s.lid with
    opened := false, deferred := false, closing := some c,
    epoch := { Epoch.zero with seq := e.seq + 1 } } } 0xF001 3 []

/-- The banks switch at a boundary: the open epoch begins to close and the next one opens (R295, R298). The next nominal
boundary follows the one just passed, unless the period changed or boundaries were skipped (R298, R301, R306). -/
def switchBanks (s : State) (how : Nat) (offset : Int) : State :=
  let now := timeNs s.time.served
  let old := lenOf s.lid.epoch.cfg
  let s := closeOpen s how offset s.rim.lifecycle
  let s := lifecycleApply (settingsApply s)
  let s := openEpoch s s.lid.epoch.seq how false
  let len := lenOf s.lid.epoch.cfg
  let next := if len == old && how != 4 then s.lid.nextBoundary + secNs len else nominalAfter len now
  { s with lid := { s.lid with nextBoundary := next } }

/-- A boundary comes: the banks switch, or it is deferred while a close runs (R306). -/
def boundary (s : State) (how : Nat) (offset : Int) : State :=
  if s.lid.closing.isSome then
    let s := raiseEv s .lidEvent [] [2]
    let s := { s with lid := { s.lid with deferred := true, epoch := { s.lid.epoch with deferred := true } } }
    lidEvent s 3 0 s.lid.epoch.seq
  else switchBanks s how offset

/-! ### The digest tree (R309) -/

/-- Hash of a leaf and of a pair of nodes. -/
def leafHash (image i : Nat) (chunk : List Byte) : List Byte := sha384 (le 1 0 ++ le 1 image ++ be 4 i ++ chunk)
def nodeHash (a b : List Byte) : List Byte := sha384 (le 1 1 ++ a ++ b)

/-- One level up; an odd node is carried. -/
def levelUp : List (List Byte) → List (List Byte)
  | a :: b :: r => nodeHash a b :: levelUp r
  | l => l

/-- The root over a level, climbing at most a number of levels. -/
def rootOf : Nat → List (List Byte) → List Byte
  | _, [] => []
  | _, [a] => a
  | 0, a :: _ => a
  | n + 1, l => rootOf n (levelUp l)

/-- The 32 bytes of four totals. -/
def Counts.totals (c : Counts) : List Byte := le 8 c.billPkts ++ le 8 c.billBytes ++ le 8 c.voidPkts ++ le 8 c.voidBytes

/-- The copy of the images that an epoch uses (R293). -/
def copyOf (seq : Nat) : Nat := seq % 3

/-- A zone's totals, a port's and a class's, in a copy. -/
def zoneTotals (s : State) (copy z : Nat) : Counts := tget Counts.zero s.lid.zones (copy * 2 ^ 20 + z)
def portTotals (s : State) (copy p : Nat) : PortTotals := tget ⟨Counts.zero, Counts.zero⟩ s.lid.ports (copy * 256 + p)
def classTotals (s : State) (copy k : Nat) : Counts := tget Counts.zero s.lid.classes (copy * 64 + k)

/-- Entry of the port-and-class image: ports 0–255, then classes. -/
def portEntry (s : State) (copy i : Nat) : List Byte :=
  if i < 256 then (portTotals s copy i).all.totals ++ (portTotals s copy i).flowless.totals
  else (classTotals s copy (i - 256)).totals

/-- ZONE_ROOT of a copy. -/
def zoneRoot (s : State) (copy : Nat) : List Byte :=
  rootOf 13 ((List.range 8192).map (fun i =>
    leafHash 0 i ((List.range 128).flatMap (fun j => (zoneTotals s copy (i * 128 + j)).totals))))

/-- PORT_ROOT of a copy. -/
def portRoot (s : State) (copy : Nat) : List Byte :=
  let image := (List.range 320).flatMap (portEntry s copy)
  rootOf 3 ((List.range 5).map (fun i => leafHash 1 i ((image.drop (4096 * i)).take 4096)))

/-- The configuration image (Table 09-4). -/
def Epoch.configImage (e : Epoch) : List Byte :=
  le 2 e.versions.length ++ zeros 2 ++ le 4 e.settings.length
    ++ e.versions.flatMap (fun v => le 2 v.1 ++ zeros 6 ++ padTo 48 v.2)
    ++ e.settings.flatMap (fun r => le 4 r.1 ++ le 4 r.2)

/-- DEV_TOTALS of a copy: summed over the port entries. -/
def devTotals (s : State) (copy : Nat) : Counts :=
  (List.range 256).foldl (fun t p => t.move (portTotals s copy p).all Counts.zero) Counts.zero

/-- ZONES_ACTIVE of a copy. -/
def zonesActive (s : State) (copy : Nat) : Nat :=
  ((trange s.lid.zones (copy * 2 ^ 20) ((copy + 1) * 2 ^ 20)).filter (fun e => decide (e.2 ≠ Counts.zero))).length

/-! ### Seals (R313–R317, R320) -/

/-- The gaps a seal carries: at most 63, and one of kind 10 for those omitted (R315). -/
def sealGaps (gs : List Gap) : List Gap :=
  if 63 < gs.length then gs.take 63 ++ [⟨10, 0, gs.length - 63, 0, 0⟩] else gs

/-- A gap entry (Table 09-7). -/
def Gap.bytes (g : Gap) : List Byte := le 1 g.kind ++ le 3 g.arg ++ le 4 g.count ++ le 8 g.sec

/-- What a seal body is made of. -/
structure SealParts where
  lifecycle : Nat
  restart : Bool
  sync : Bool
  deferred : Bool
  interrupted : Bool
  lost : Bool
  partial_ : Bool
  session : Nat
  len : Nat
  seq : Nat
  openSec : Nat
  openNs : Nat
  openHow : Nat
  closeHow : Nat
  closeSec : Nat
  closeNs : Nat
  offset : Int
  openTick : Nat
  closeTick : Nat
  totals : Counts
  zones : Nat
  config : List Byte
  zoneRoot : List Byte
  portRoot : List Byte
  gaps : List Gap

/-- The body of a seal (Table 09-5). -/
def SealParts.body (p : SealParts) (s : State) : List Byte :=
  let gs := sealGaps p.gaps
  let flags := at_ p.lifecycle 15 14 + at_ (b2n p.restart) 6 6 + at_ (b2n (!gs.isEmpty)) 5 5 + at_ (b2n p.sync) 4 4
    + at_ (b2n p.deferred) 3 3 + at_ (b2n p.interrupted) 2 2 + at_ (b2n p.lost) 1 1 + b2n p.partial_
  le 4 0x53454C41 ++ le 2 1 ++ le 2 flags ++ padTo 16 s.rim.otp.deviceId ++ le 2 p.session ++ le 2 gs.length
    ++ le 4 p.len ++ le 8 p.seq ++ le 8 p.openSec ++ le 4 p.openNs ++ le 1 p.openHow ++ le 1 p.closeHow ++ zeros 2
    ++ le 8 p.closeSec ++ le 4 p.closeNs ++ le 4 (ofInt 32 p.offset) ++ le 8 p.openTick ++ le 8 p.closeTick
    ++ p.totals.totals ++ le 4 s.rim.fwLevel ++ le 4 p.zones ++ padTo 48 p.config ++ padTo 48 p.zoneRoot
    ++ padTo 48 p.portRoot ++ padTo 48 s.lid.prevRoot ++ gs.flatMap Gap.bytes

/-- The body of a closing epoch's seal, once its images are final. -/
def closingBody (s : State) (c : Closing) : List Byte :=
  let k := copyOf c.epoch.seq
  SealParts.body ⟨c.lifecycle, s.lid.chainRestart, bit c.epoch.cfg 31, c.epoch.deferred, c.closeHow == 5, false,
    c.epoch.partial_, s.rim.session, lenOf c.epoch.cfg, c.epoch.seq, c.epoch.openSec, c.epoch.openNs, c.epoch.openHow,
    c.closeHow, c.closeSec, c.closeNs, c.closeOffset, c.epoch.openTick, c.closeTick, devTotals s k, zonesActive s k,
    sha384 (le 1 3 ++ c.epoch.configImage), zoneRoot s k, portRoot s k, c.epoch.gaps⟩ s

/-- ROOT of a body (R314). -/
def sealRoot (body : List Byte) : List Byte := sha384 (le 1 2 ++ body)

/-- A seal is published (Table 09-2 step 7): signed under the lifecycle it carries, into the ring and the log, SEAL_READY and the event. -/
def publishSeal (s : State) (life seq : Nat) (body : List Byte) : State :=
  let (sig, s) := signature s life
  let s := { s with lid := { s.lid with
    seals := ((seq, body ++ sig) :: s.lid.seals).take (17 + s.lid.hidden),
    hidden := if s.lid.reading then s.lid.hidden + 1 else s.lid.hidden,
    prevRoot := sealRoot body, chainRestart := false } }
  let s := rimLog s 0x11 false (body ++ sig)
  lidEvent (raiseEv s .lidEvent [] [0]) 1 0 seq

/-- A reading of the seal window is over: the slot numbers move, and the ring keeps 16 seals. -/
def sealReadEnd (s : State) : State :=
  { s with lid := { s.lid with reading := false, hidden := 0, seals := s.lid.seals.take 16 } }

/-- The ROOT of the newest seal in the log. -/
def loggedRoot (l : LogState) : Option (List Byte) :=
  (l.entries.find? (fun e => e.type == 0x11)).map (fun e => sealRoot (e.body.take (e.body.length - 96)))

/-- The sequence of the newest epoch that the log records as opened. -/
def loggedEpoch (l : LogState) : Option Nat := (l.entries.find? (fun e => e.type == 0x10)).map (fun e => leAt e.body 0 8)

/-- The log holds a seal of an epoch. -/
def loggedSeal (l : LogState) (seq : Nat) : Bool := l.entries.any (fun e => e.type == 0x11 && leAt e.body 32 8 == seq)

/-- The seal of an epoch that its session left unsealed, as the log records its opening (R317). What the log does not
record, the period, the tick of its open and its configuration, is the epoch's own (R3, R313). -/
def sealLostEpoch (s : State) (entry : LogEntry) : State :=
  let seq := leAt entry.body 0 8
  let gs : List Gap := if s.lid.chainRestart then [⟨9, 0, 0, servedSec s, servedNs s⟩] else []
  let gaps := gs ++ [⟨6, entry.session, 0, 0, 0⟩]
  let e := (s.rim.orphans.find? (fun e => e.seq == seq)).getD Epoch.zero
  let s := gaps.foldl (fun s g => gapLog s seq g.kind g.arg g.count) s
  publishSeal s s.rim.lifecycle seq (SealParts.body ⟨s.rim.lifecycle, s.lid.chainRestart, false, false, true, true, false,
    entry.session, lenOf e.cfg, seq, leAt entry.body 8 8, leAt entry.body 16 4, leAt entry.body 20 4, 6, 0, 0, 0, e.openTick,
    0, Counts.zero, 0, sha384 (le 1 3 ++ e.configImage), zeros 48, zeros 48, gaps⟩ s)

/-- The seals of every epoch that the log records as opened and holds no seal of, oldest first. -/
def sealLost (s : State) : State :=
  let lost := s.log.entries.reverse.filter (fun e => e.type == 0x10 && !loggedSeal s.log (leAt e.body 0 8))
  let s := lost.foldl sealLostEpoch s
  { s with rim := { s.rim with orphans := [] } }

/-- The epochs that a session leaves unsealed when it ends now: one closing whose seal is not published, and the open
one. -/
def unsealed (s : State) : List Epoch :=
  (match s.lid.closing with
    | some c => if c.phase = .publish then [] else [c.epoch]
    | none => []) ++ (if s.lid.opened then [s.lid.epoch] else [])

/-- Minimal starts since the latest START_DONE in the log, with the cause of the latest (kind 5, R317). -/
def loggedMinimals (l : LogState) : Nat × Nat :=
  let since := l.entries.takeWhile (fun e => e.type != 2)
  let ms := since.filter (fun e => e.type == 3)
  (ms.length, (ms.head?.map (fun e => leAt e.body 0 4)).getD 0)

/-- The first epoch of a session opens, under the EPOCH settings written before it (R296–R298). -/
def openFirst (s : State) : State :=
  let seq := match loggedEpoch s.log with
    | some e => e + 1
    | none => s.rim.session * 2 ^ 48
  let s := openEpoch (settingsApply s) seq 3 true
  let s := { s with lid := { s.lid with
    nextBoundary := nominalAfter (lenOf s.lid.epoch.cfg) (timeNs s.time.served) } }
  let s := if s.lid.chainRestart then gapOpen s 9 0 0 else s
  let m := loggedMinimals s.log
  if m.1 = 0 then s else gapOpen s 5 m.2 m.1

/-! ### Draining (R307) -/

/-- A frame holds a count of a bank. -/
def Frame.holds (f : Frame) (bank : Nat) : Bool :=
  (f.count.posted || f.flowless) && !f.count.settled && f.count.bank % 2 == bank % 2

/-- Ports that are sending a frame now. -/
def sendingPorts (s : State) (id : Nat) : List Nat :=
  (s.egress.ports.filter (fun e => match e.2.sending with | some x => x.part.frame == id | none => false)).map (·.1)

/-- A frame's segments leave the units in flight to queues that a predicate picks. -/
def dropFlight (s : State) (id : Nat) (p : Nat → Bool) : State :=
  { s with wale := { s.wale with flight := (s.wale.flight.map (fun u =>
      if p u.eq then { u with segs := u.segs.filter (fun g => g.frame != id) } else u)).filter (fun u => !u.segs.isEmpty) } }

/-- Take one reference after another. -/
def dropRefs (id : Nat) : Nat → State → State
  | 0, s => s
  | n + 1, s => dropRefs id n (dropRef s id)

/-- The waiting copies of a multicast frame are discarded; those being sent finish. -/
def discardCopies (s : State) (id : Nat) (f : Frame) : State :=
  let busy := sendingPorts s id
  let waits (q : Nat) : Bool := !busy.contains (q / 8)
  let s := dropFlight s id waits
  let s := modStore s f.slice (fun c => { c with
    voq := (c.voq.map (fun e => (e.1, if waits e.1 then e.2.filter (· != id) else e.2))).filter (fun e => !e.2.isEmpty),
    crossed := c.crossed.filter (fun e => !(waits e.1 && (tget [] c.voq e.1).head? == some id)),
    repl := c.repl.filter (fun r => r.1 != id) })
  let queues := s.egress.queues.map (fun (e : Nat × EgressQueue) =>
    if waits e.1 then
      (e.1, { e.2 with parts := e.2.parts.filter (fun p => p.frame != id), units := e.2.units.filter (fun u => u.1 != id) })
    else e)
  let s := { s with egress := { s.egress with queues := queues.filter (fun e => decide (e.2 ≠ EgressQueue.reset)) } }
  dropRefs id (f.refs - busy.length - b2n f.deepQueued) s

/-- A frame that still holds a count of the closed bank is discarded where it waits (R307). -/
def drainDiscard (s : State) (id : Nat) : State :=
  onFrame s id (fun f =>
    match f.stage with
    | .queued | .punted =>
      if f.mc then discardCopies s id f
      else
        let s := match f.punt with | some r => puntDropped s f.slice r | none => s
        let s := purgeFrame (dropFlight s id (fun _ => true)) id
        if f.refs = b2n f.deepQueued then discardCrossed s id else discardStored s id
    | .left => s
    | _ => discardHead s id 3)

/-- Frames of the closed bank that wait, or of which a copy waits, not being sent. -/
def drainWaits (s : State) (bank : Nat) : List Nat :=
  (s.frames.filter (fun e => e.2.holds bank &&
    (if e.2.mc && e.2.stage == .queued then decide ((sendingPorts s e.1).length + b2n e.2.deepQueued < e.2.refs)
     else (sendingPorts s e.1).isEmpty))).map (·.1)

/-! ### A reset of the device (16/R475, 19/R540) -/

/-- The log reaches the flash (16/R484). -/
def flushLog (s : State) : State := { s with log := { s.log with flushed := s.log.next } }

/-- Entries that never reached the flash are lost; the next one chains from the last that did. -/
def LogState.cut (l : LogState) : LogState :=
  { l with entries := l.entries.filter (fun e => decide (e.seq < l.flushed)), next := l.flushed }

/-- Every domain but the Rim's is reset, and the Rim has yet to start the device again. What the flash, OTP, the
enclosure and the board hold stays. -/
def deviceReset (s : State) (kind minimal : Nat) : State :=
  { State.reset with
    pending := s.pending, fresh := s.fresh, out := s.out, log := s.log,
    rim := { RimState.reset with
      otp := s.rim.otp, slots := s.rim.slots, bootWrites := s.rim.bootWrites, board := s.rim.board, cert := s.rim.cert,
      temps := s.rim.temps, warned := s.rim.warned, volts := s.rim.volts, tamper := s.rim.tamper, tap := s.rim.tap, hold := s.rim.hold,
      orphans := s.rim.orphans ++ unsealed s, resetKind := some kind, startMinimal := minimal, uptime := s.rim.uptime + s.time.tick, faults := s.rim.faults } }

/-- The transition under way reaches step 3 and 4 of R475: the log is flushed and the device resets. -/
def finishTransition (s : State) (t : Transition) : State := deviceReset (flushLog s) t.kind t.minimal

/-! ### Retention (19/R536, R538) -/

/-- The powered stacks enter or leave self-refresh. -/
def selfRefresh (s : State) (b : Bool) : State :=
  (setBits s.power.stackPwr 4).foldl (fun s k => modStk s k (fun x => { x with selfRefresh := b })) s

/-- Steps 4 to 6 of R536: self-refresh, retention, and the flag raised in PWR_EVENT. -/
def retain (s : State) (flag : Nat) : State :=
  let s := selfRefresh s true
  raiseEv { s with power := { s.power with state := 2 } } .pwrEvent [] [flag]

/-- The device wakes (R539): the stacks leave self-refresh, every counter bank has one wake more (17/R491), and timers
that fell due meanwhile are late; they leave at the next scheduler tick. -/
def wakeUp (s : State) : State :=
  let s := selfRefresh s false
  let gens := (List.range 9).foldl (fun t p => tput 0 t p (wrap 16 (tget 0 t p + 1))) s.counters.gens
  let late := (s.sched.timers.filter (fun t => decide (t.due ≤ s.time.tick))).length
  let s := { s with
    power := { s.power with state := 0, wakeAsked := false }, counters := { s.counters with gens := gens } }
  if late = 0 then s else bump (raiseEv s .schEvent [] [3]) 0 0x92 late

/-- A close that ran in standby is complete: the device returns there, or wakes when a wake was written meanwhile. -/
def standbyCloseDone (s : State) : State :=
  if s.power.state ≠ 4 ∨ s.lid.closing.isSome then s
  else if s.power.wakeAsked then wakeUp (raiseEv s .pwrEvent [] [3])
  else retain s 3

/-- Every engine is idle. -/
def enginesIdle (s : State) : Bool := s.sched.engines.all (fun e => e.item.isNone)

/-- The lifecycle that the closing seal of a transition carries: RETIRED once its fuses are burned. -/
def closingLife (s : State) : Nat := if s.rim.otp.lifecycle = 3 then 3 else s.rim.lifecycle

/-- Step 2 of R475 begins: the open epoch closes at once, or once the close that runs is complete (R308); with no epoch
open and none closing the device resets. -/
def beginClose (s : State) (t : Transition) : State :=
  let s := { s with rim := { s.rim with transition := some { t with closing := true, since := s.time.tick } } }
  if s.lid.closing.isSome then { s with lid := { s.lid with interrupt := true } }
  else if s.lid.opened then closeOpen s 5 0 (closingLife s)
  else finishTransition s t

/-- The attention of step 1 has had its effect once every engine is idle. -/
def attentionDone (s : State) : State :=
  match s.rim.transition with
  | some t => if !t.closing && enginesIdle s then beginClose s t else s
  | none => s

end Sys2Proof.Machine
end

