-- ==== Sys2Proof/Machine/Command.lean ====
section
/-! DEFINITION. What every Yelelle command shares: the catalogue (12/R385), the checks of Table 12-4, the parts of a
fan-out command (R381, R383), its reply (R379), ordering groups (13/R399), and the way to another device (R391). -/

namespace Sys2Proof.Machine

/-! ### The catalogue (Table 12-6) -/

/-- The SLICES rule of an opcode; `dtRead` is that of DT_READ, `zeroOrAny` that of CNT_SNAPSHOT. -/
inductive SliceRule where
  | zero | one | any | all | dtRead | zeroOrAny
  deriving DecidableEq, Repr

/-- A row of Table 12-6. -/
structure OpRow where
  cls : Nat
  priv : Bool
  slices : SliceRule
  minimal : Bool
  deriving DecidableEq, Repr

/-- The row of an opcode; none where the device accepts no such opcode. -/
def opRow (op : Nat) : Option OpRow :=
  match op with
  | 0x0000 | 0x0001 | 0x0002 | 0x0004 | 0x0005 => some ⟨0, false, .zero, true⟩
  | 0x0003 => some ⟨0, true, .zero, true⟩
  | 0x0101 => some ⟨1, true, .all, false⟩
  | 0x0102 => some ⟨0, true, .zero, false⟩
  | 0x0103 => some ⟨0, false, .zero, false⟩
  | 0x0201 | 0x0202 | 0x0203 | 0x0204 | 0x0205 | 0x0206 | 0x0301 | 0x0302 | 0x0303 | 0x0402 | 0x0503 | 0x0504 =>
    some ⟨1, true, .any, false⟩
  | 0x0304 | 0x0501 | 0x0502 => some ⟨0, false, .one, false⟩
  | 0x0401 | 0x0404 | 0x0405 | 0x0604 | 0x0701 | 0x0702 | 0x0704 | 0x0706 => some ⟨0, true, .zero, false⟩
  | 0x0403 => some ⟨0, false, .dtRead, false⟩
  | 0x0406 | 0x0601 | 0x0602 | 0x0603 | 0x0703 | 0x0707 => some ⟨0, false, .zero, false⟩
  | 0x0505 => some ⟨2, true, .any, false⟩
  | 0x0605 => some ⟨2, true, .zero, false⟩
  | 0x0705 => some ⟨1, true, .zero, false⟩
  | 0x0801 => some ⟨2, false, .zeroOrAny, true⟩
  | _ => none

/-- A command fetched before START_DONE, and not marked M, waits for it (19/R529). -/
def startWaits (s : State) (op : Nat) : Bool :=
  !s.rim.startDone && !s.rim.minimal && !(match opRow op with | some r => r.minimal | none => false)

/-- The slices of a mask, ascending. -/
def maskSlices (m : Nat) : List Nat := setBits m 8

/-- SLICES keeps the rule. -/
def SliceRule.ok (r : SliceRule) (m : Nat) (p : List Byte) : Bool :=
  match r with
  | .zero => m == 0
  | .one => (maskSlices m).length == 1 && decide (m < 256)
  | .any => m != 0
  | .all => m == 255
  | .dtRead => if byteAt p 0 = 4 then (maskSlices m).length == 1 else m == 0
  | .zeroOrAny => true

/-- The first check of Table 12-4: opcode, class, reserved bits; then the right of an ordinary function. -/
def headerFails (h : CmdHeader) : Option Nat :=
  match opRow h.opcode with
  | none => some stBadparam
  | some r =>
    if h.cls ≠ r.cls ∨ !h.reservedZero then some stBadparam
    else if r.priv ∧ h.fn % 2 = 1 then some stDenied
    else none

/-! ### Parts of a fan-out command (R381, R383) -/

/-- Bytes of the part table (Table 12-7). -/
def partTable (ps : List (Nat × Nat)) : List Byte :=
  (List.range 8).flatMap (fun k => let e := ps.getD k (0xFFFF, 0); le 2 e.1 ++ zeros 2 ++ le 4 e.2)

/-- The parts that a fan-out command selects. -/
def fanParts (h : CmdHeader) : List Nat :=
  match h.opcode with
  | 0x0605 => List.range 8
  | 0x0801 => if h.slices = 0 then [0] else maskSlices h.slices
  | _ => maskSlices h.slices

/-- The range of a part: its first position, and the position just past it; no cursor in CNT_SNAPSHOT. -/
def fanRange (op k : Nat) : Nat × Nat :=
  match op with
  | 0x0605 => (k * 0x200000, (k + 1) * 0x200000)
  | 0x0505 => (0, 0x40000)
  | _ => (0, 0)

/-- The parameters without a resumed command's part table. -/
def fanParams (h : CmdHeader) (p : List Byte) : List Byte := if h.resume then p.take (p.length - 64) else p

/-- STATUS and CURSOR of a part in a resumed command's table. -/
def resumeEntry (p : List Byte) (k : Nat) : Nat × Nat :=
  let o := p.length - 64 + 8 * k
  (leAt p o 2, leAt p (o + 4) 4)

/-- The parts whose entry of a resumed command's table breaks R383. -/
def resumeBad (h : CmdHeader) (p : List Byte) : List Nat :=
  if !h.resume then []
  else (List.range 8).filter (fun k =>
    let e := resumeEntry p k
    let r := fanRange h.opcode k
    if (fanParts h).contains k then
      !(decide (e.1 ≤ 15) && (h.opcode == 0x0801 || (decide (r.1 ≤ e.2) && decide (e.2 ≤ r.2))))
    else !(e.1 == 0xFFFF && e.2 == 0))

/-- A part that the command runs: selected, and not one that an earlier reply reports as complete. -/
def fanRuns (h : CmdHeader) (p : List Byte) (k : Nat) : Bool :=
  (fanParts h).contains k && !(h.resume && (resumeEntry p k).1 == stOk)

/-- Where a part starts. -/
def fanStart (h : CmdHeader) (p : List Byte) (k : Nat) : Nat :=
  if h.resume then (resumeEntry p k).2 else (fanRange h.opcode k).1

/-! ### The answer -/

/-- How a command ends: what its reply carries besides what the header gives. -/
structure Answer where
  status : Nat
  partMask : Nat
  cursor : Nat
  data : List Byte
  deriving DecidableEq, Repr

/-- An answer of one status: no part, no cursor, no data. -/
def Answer.of (status : Nat) : Answer := ⟨status, 0, 0, []⟩

/-- A complete command with reply data. -/
def Answer.ok (data : List Byte) : Answer := ⟨stOk, 0, 0, data⟩

/-- The answer of an all-or-none command: ST_OK, or the status of the stage with the parts that failed (R380). -/
def Answer.parts (status : Nat) (failed : List Nat) : Answer := ⟨status, ofBits failed, 0, []⟩

/-- The answer of a fan-out command whose parts ended so (R381). -/
def Answer.fan (ends : List (Nat × Nat × Nat)) (own : List Byte) : Answer :=
  let row (k : Nat) : Nat × Nat := match ends.find? (fun e => e.1 == k) with
    | some e => e.2
    | none => (0xFFFF, 0)
  let ok := (ends.filter (fun e => e.2.1 == stOk)).map (·.1)
  ⟨if ok.length = ends.length then stOk else stPartial, ofBits ok, 0, partTable ((List.range 8).map row) ++ own⟩

/-- A fan-out command none of whose unfinished parts got anywhere: each ends with a status at its start. -/
def Answer.fanStopped (h : CmdHeader) (p : List Byte) (status : Nat) : Answer :=
  let ends := (fanParts h).map (fun k => (k, if fanRuns h p k then status else stOk, fanStart h p k))
  .fan ends (if h.opcode = 0x0801 then [] else zeros 32)

/-- A reply discarded because its ring was disabled since the command's fetch stands as this ring number. -/
def lostRing : Nat := 16

/-- The reply of an answer (Table 12-5); one that is neither ST_OK nor ST_PARTIAL carries no data. -/
def replyOf (h : CmdHeader) (sent : Bool) (a : Answer) : Reply where
  hp := h.fn / 2
  ring := h.replyRing
  tag := h.tag
  opcode := h.opcode
  status := a.status
  partMask := a.partMask
  dev := h.dev
  sent := sent
  cmdRing := h.ring
  cursor := a.cursor
  data := if a.status = stOk ∨ a.status = stPartial then a.data else []

/-- Count a discarded reply of a host port. -/
def replyLost (s : State) (hp : Nat) : State := cntDev s (0x96 + hp)

/-- Place a reply at the root: in its port's buffer, or discarded and counted when its ring is disabled (R373). -/
def hostReply (s : State) (r : Reply) : State :=
  if r.ring < lostRing ∧ (ringAt s r.hp 1 r.ring).en then placeReply s r else replyLost s r.hp

/-- Answer a command: over the chain port it came in by, or in its host port's reply buffer. -/
def answer (s : State) (h : CmdHeader) (sent : Bool) (a : Answer) : State :=
  let r := replyOf h sent a
  match h.viaChain with
  | some p => emit s (.chain p 3 (le 1 h.fn ++ le 1 h.replyRing ++ r.bytes))
  | none => hostReply s r

/-- An answer finds room: the reply buffer of its port holds it, or it takes no place there (R374). -/
def answerFits (s : State) (h : CmdHeader) (a : Answer) : Bool :=
  h.viaChain.isSome || !(decide (h.replyRing < lostRing) && (ringAt s (h.fn / 2) 1 h.replyRing).en) ||
    replyRoom s (h.fn / 2) (replyOf h false a).data.length

/-! ### Relaying (R391, R392, R401) -/

/-- The bytes by which the model names a command on the chain. -/
def chainCommand (h : CmdHeader) (p : List Byte) : List Byte :=
  le 2 h.opcode ++ le 1 h.slices ++ le 1 (at_ h.dev 5 0 + at_ h.prio 7 6) ++ le 4 h.tag ++ le 2 p.length
    ++ le 2 (at_ h.cls 1 0 + at_ h.replyRing 11 8 + at_ (b2n h.resume) 12 12) ++ le 8 0 ++ le 2 h.order ++ le 1 h.fn
    ++ le 1 h.ring ++ p

/-- A waiting relayed command may leave: it is the device's oldest unsent one, its port holds a credit, and none
to the device is outstanding on another port. -/
def mayLeave (s : State) (before : List Relayed) (r : Relayed) : Bool :=
  !r.sent && chainUp s r.port && decide (0 < s.chain.credits.getD r.port 0) &&
    !(before.any (fun q => !q.sent && q.header.dev == r.header.dev)) &&
    !(s.chain.relayed.any (fun q => q.sent && q.header.dev == r.header.dev && q.port != r.port))

/-- The place in the relay buffer of the first command that may leave. -/
def nextToLeave (s : State) : List Relayed → List Relayed → Nat → Option Nat
  | _, [], _ => none
  | before, r :: rest, n => if mayLeave s before r then some n else nextToLeave s (before ++ [r]) rest (n + 1)

/-- Send what may be sent; `n` bounds how many. -/
def pumpRelay : Nat → State → State
  | 0, s => s
  | n + 1, s =>
    match nextToLeave s [] s.chain.relayed 0 with
    | none => s
    | some k =>
      match s.chain.relayed[k]? with
      | none => s
      | some r =>
        let limit := s.time.tick + ticksOfNs (max 1 (fld s .chainCfg [] 15 0) * 1000)
        let s := emit s (.chain r.port 1 (chainCommand r.header r.params))
        pumpRelay n (withChain s (fun c => { c with
          relayed := setAt c.relayed k { r with sent := true, deadline := limit },
          credits := setAt c.credits r.port (c.credits.getD r.port 0 - 1) }))

/-- Every command of the relay buffer that may leave does. -/
def pump (s : State) : State := pumpRelay s.chain.relayed.length s

/-- Commands a relay buffer holds. -/
def relayCapacity : Nat := 256

/-- A command for another device leaves the scheduler: answered when a check of Table 12-4 before the relay fails, when
the device is unknown or when there is no path to it; else put in the relay buffer. -/
def relayCommand (s : State) (h : CmdHeader) (p : List Byte) : State :=
  match headerFails h with
  | some st => answer s h false (.of st)
  | none =>
    if h.opcode = 0x0003 then answer s h false (.of stBadparam)
    else if s.chain.devices ≤ h.dev then answer s h false (.of stNoent)
    else match chainPath s h.dev with
    | none => answer s h false (.of stTimeout)
    | some port =>
      pump (withChain s (fun c => { c with relayed := c.relayed ++ [⟨h, h.opcode, p, false, false, port, 0⟩] }))

/-! ### Ordering groups (13/R399) and the end of an item -/

/-- ABORT belongs to no group. -/
def Item.grouped (i : Item) : Bool := i.kind == .command && i.code != 0x0001

/-- Every item the scheduler holds. -/
def SchedState.items (x : SchedState) : List Item :=
  x.store ++ x.ready.flatten ++ x.engines.filterMap (·.item) ++ x.stalled

/-- A command of the group holds it: GROUP has reached it and it is not complete. -/
def groupHeld (s : State) (order : Nat) : Bool :=
  s.sched.items.any (fun i => i.grouped && i.header.order == order && bit i.have_ 1)

/-- The next command of a group, in order of receipt, gets GROUP: it completes after every item complete so far (R398). -/
def passGroup (s : State) (order : Nat) : State :=
  if groupHeld s order then s
  else
    match s.sched.store.find? (fun i => i.grouped && i.header.order == order) with
    | none => s
    | some i => withSched s (fun x => { x with store := x.store.erase i ++ [{ i with have_ := withBit i.have_ 1 true }] })

/-- The device that answers a command is this one. -/
def ownDevice (s : State) (h : CmdHeader) : Bool := s.chain.addr == some h.dev

/-- The first complete command of the store that names another device goes to the chain, and its group moves on; `n`
bounds how many. -/
def handOver : Nat → State → State
  | 0, s => s
  | n + 1, s =>
    match s.sched.store.find? (fun i => i.kind == .command && i.complete && !ownDevice s i.header) with
    | none => s
    | some i =>
      if s.chain.relayed.length < relayCapacity then
        let s := withSched s (fun x => { x with store := x.store.erase i })
        handOver n (passGroup (relayCommand s i.header i.params) i.header.order)
      else s

/-- Everything that can move moves: to the chain, and to the ready lists. -/
def settle (s : State) : State := settleReady (handOver s.sched.store.length s)

/-- A command is complete: its group moves on, and so does a transition that waits for idle engines. -/
def completed (s : State) (h : CmdHeader) (code : Nat) : State :=
  attentionDone (settle (if code = 0x0001 then s else passGroup s h.order))

/-! ### Running a command -/

/-- The item of a command as fetched; the mark of a lost reply aside. -/
def isCommand (h : CmdHeader) (p : List Byte) (i : Item) : Bool :=
  i.kind == .command && i.code == h.opcode && i.params == p && { i.header with replyRing := h.replyRing } == h

/-- Objects whose commands take effect in the order received (R378): the draft of each slice, the MAC table of each
slice, and each pool. -/
def objectsOf (h : CmdHeader) (p : List Byte) : List Nat :=
  let g := h.opcode / 256
  if g = 2 ∨ (g = 3 ∧ h.opcode ≠ 0x0304) ∨ h.opcode = 0x0402 then maskSlices h.slices
  else if g = 5 then (maskSlices h.slices).map (· + 8)
  else if 0x0704 ≤ h.opcode ∧ h.opcode ≤ 0x0707 then [16 + leAt p 0 2]
  else []

/-- A command received earlier is still to act on an object of this one. -/
def objectWaits (s : State) (i : Item) : Bool :=
  let mine := objectsOf i.header i.params
  !mine.isEmpty && s.sched.items.any (fun j => j.kind == .command && decide (j.seq < i.seq) && ownDevice s j.header &&
    (objectsOf j.header j.params).any mine.contains)

/-- The parameters have the length and the ranges of the opcode's layout: `len` is the length without a resumed
command's part table. -/
def layoutFails (h : CmdHeader) (p : List Byte) (len : Nat) (fine : Bool) : Option Answer :=
  if h.resume ∧ h.cls ≠ 2 then some (.of stBadparam)
  else if p.length ≠ len + (if h.resume then 64 else 0) ∨ !fine then some (.of stBadparam)
  else if (resumeBad h p).isEmpty then none
  else some (.parts stBadparam (resumeBad h p))

/-- The checks of Table 12-4 that come before the opcode's own, on the device the command names. -/
def commandFails (s : State) (h : CmdHeader) (p : List Byte) (len : Nat) (fine : Bool) : Option Answer :=
  match headerFails h with
  | some st => some (.of st)
  | none =>
    match opRow h.opcode with
    | none => some (.of stBadparam)
    | some r =>
      if s.rim.minimal ∧ !r.minimal then some (.of stMinimal)
      else if !r.slices.ok h.slices p then some (.of stBadparam)
      else layoutFails h p len fine

/-- A composite command waits for entries to post its parts and joins in: 64 are kept for the Lid, the Rim and the Skein
(13/R407). -/
def partsWait (s : State) (h : CmdHeader) : Bool := h.cls != 0 && decide (16384 ≤ s.sched.store.length + 64)

/-- A command as its row gives it: it runs on the engine that holds its item, or, not in the scheduler at all, at once;
it waits while its item waits, behind an earlier command on its object, and for room for its reply. `body` gives the
answer and the state after it; none where the command's reply comes later. -/
def runCommand (s : State) (op : Nat) (h : CmdHeader) (p : List Byte) (len : Nat) (fine : Bool)
    (body : Bool → State → Option Answer × State) : State :=
  if h.opcode ≠ op then s
  else
    let on := engineOf s (isCommand h p)
    let item := on.bind (fun e => (engineAt s e).item)
    if on.isNone && (itemWaits s (isCommand h p) || startWaits s op) then s
    else if s.chain.addr.isNone then s
    else if !ownDevice s h then if on.isNone then relayCommand s h p else s
    else if (item.map (objectWaits s)).getD false || partsWait s h then s
    else
      let aborted := (item.map (·.aborted)).getD false
      let hd := (item.map (·.header)).getD h
      let (a, t) :=
        if h.cls = 1 ∧ aborted then (some (.of stAborted), s)
        else match commandFails s h p len fine with
        | some a => (some a, s)
        | none => body aborted s
      match a with
      | none => t
      | some a =>
        if answerFits s hd a then
          let t := match on with
            | some e => engineEnd t e a.status
            | none => t
          completed (answer t hd false a) hd op
        else s

/-- A command whose answer is at hand. -/
def runAtOnce (s : State) (op : Nat) (h : CmdHeader) (p : List Byte) (len : Nat) (fine : Bool)
    (body : State → Answer × State) : State :=
  runCommand s op h p len fine (fun _ s => let (a, t) := body s; (some a, t))

end Sys2Proof.Machine
end

