-- ==== Sys2Proof/Machine/Sched.lean ====
section
/-! DEFINITION. The task scheduler (13): fetch, dispatch, step boundaries, the scheduler tick and its statistics, what stops
an item, Rim attention, and the commands that concern the scheduler itself: NOP, ABORT and DEV_INFO. -/

namespace Sys2Proof.Machine

/-! ### Ending and stopping items -/

/-- An item is gone from the store and the ready lists. -/
def removeWaiting (s : State) (i : Item) : State :=
  withSched s (fun x => { x with stalled := x.stalled.erase i, store := x.store.erase i, ready := x.ready.map (fun l => l.erase i) })

/-- A waiting command ends with ST_ABORTED and no effect (12/R382). -/
def abortWaiting (s : State) (i : Item) : State :=
  completed (answer (removeWaiting s i) i.header false (.of stAborted)) i.header i.code

/-- A command that runs on an engine ends with an answer. -/
def endRunning (s : State) (e : Nat) (a : Answer) : State :=
  match (engineAt s e).item with
  | none => s
  | some i =>
    let s := engineEnd s e a.status
    if i.kind == .command then completed (answer s i.header false a) i.header i.code else attentionDone (settle s)

/-- The running item is marked: it stops at its next boundary. -/
def markStopped (s : State) (e : Nat) : State :=
  modEngine s e (fun x => { x with item := x.item.map (fun i => { i with aborted := true }) })

/-- The class of a command. -/
def classOf (code : Nat) : Nat := match opRow code with | some r => r.cls | none => 0

/-- A running all-or-none command has begun to change state: a commit past its step 3. -/
def hasBegun (s : State) (i : Item) : Bool :=
  match s.rules.commit with
  | some c => i.code == 0x0101 && { i.header with replyRing := c.header.replyRing } == c.header
  | none => false

/-- An ABORT of its tag would stop this running item. -/
def stoppable (s : State) (i : Item) : Bool :=
  i.kind == .command && (classOf i.code == 2 || (classOf i.code == 1 && !hasBegun s i))

/-- An item whose engine can go on no further ends, a fan-out command with each unfinished part so (13/R413). -/
def failItem (s : State) (e cursor : Nat) : State :=
  match (engineAt s e).item with
  | none => s
  | some i =>
    endRunning s e (if classOf i.code = 2 then .fanStopped i.header i.params stUncorrectable
      else ⟨stUncorrectable, 0, cursor, []⟩)

/-! ### Rim attention (13/R416) -/

/-- Attention is raised: its task is posted, fetch stops, waiting commands end with ST_ABORTED, running ones are stopped as by an ABORT, and
tasks 0xF004 to 0xF007 are discarded, a lost block event being counted. -/
def raiseAttention (s : State) : State :=
  let waiting (x : SchedState) : List Item := x.stalled ++ x.store ++ x.ready.flatten
  let s := raiseTask (withSched s (fun x => { x with attention := true })) 0xF002 3 []
  let s := ((waiting s.sched).filter (fun i => i.kind == .command)).foldl abortWaiting s
  let s := ((waiting s.sched).filter (fun i => i.kind == .task && decide (0xF004 ≤ i.code))).foldl (fun s i =>
    let s := removeWaiting s i
    if i.code = 0xF004 ∧ i.params ≠ [] then cntDev s 0x52 else s) s
  let s := (List.range 12).foldl (fun s e => match (engineAt s e).item with
    | some i => if stoppable s i then markStopped s e else s
    | none => s) s
  attentionDone s

/-- A reset with a close begins: attention is raised. One that falls in standby first leaves retention. -/
def startTransition (s : State) (kind minimal : Nat) : State :=
  if s.rim.transition.isSome then s
  else
    let s := if s.power.state = 2 then selfRefresh { s with power := { s.power with state := 4 } } false else s
    raiseAttention { s with rim := { s.rim with transition := some ⟨kind, minimal, false, s.time.tick⟩ } }

/-- A fuse burn that does not verify starts minimal mode with cause OTP_FAULT (16/R469): `s` and `t` are the states before and
after what burned it. -/
def burnChecked (s t : State) (fails : Bool) : State :=
  if fails ∧ t.rim.otp ≠ s.rim.otp then
    startTransition { t with rim := { t.rim with otp := { t.rim.otp with faulty := true } } } 1 9
  else t

/-! ### COMMAND_FETCH (13/R400, 12/R372) -/

/-- Slots that a command takes in its ring and in the parameter store. -/
def commandSlots (plen : Nat) : Nat := cdiv (32 + plen) 64

/-- Parameter store slots in use: those of commands whose reply is not placed yet, relayed ones too (13/R397). -/
def paramUsed (s : State) : Nat :=
  ((s.sched.items.filter (fun i => i.kind == .command)).map (fun i => commandSlots i.params.length)).foldl (· + ·) 0 +
    (s.chain.relayed.map (fun r => commandSlots r.params.length)).foldl (· + ·) 0

/-- Matching store entries free. -/
def storeFree (s : State) : Nat := 16384 - s.sched.store.length

/-- Fetch goes on: no attention, no standby, the device started. -/
def fetchRuns (s : State) : Bool := s.rim.started && !s.sched.attention && s.power.state == 0

/-- A command can be placed in the scheduler. -/
def canPlace (s : State) (h : CmdHeader) (plen : Nat) : Bool :=
  decide (max 128 (fld s .schCfg [] 29 16) ≤ storeFree s) && decide (paramUsed s + commandSlots plen ≤ 16384) &&
  decide (s.sched.listed < 3072) && (ownDevice s h || decide (s.chain.relayed.length < relayCapacity))

/-- A source has a command waiting: a ring 0–31 whose indices differ, or the chain receive buffer, 32. -/
def sourceWaits (s : State) (src : Nat) : Bool :=
  if src = 32 then s.chain.rxBuf.any (fun r => ownDevice s r.header)
  else
    let g := ringAt s (src / 16) 0 (src % 16)
    g.en && !g.halted && g.pi != g.ci

/-- The header that 32 bytes of a ring of a function spell (Table 12-3). -/
def headerOf (fn ring : Nat) (b : List Byte) : CmdHeader where
  fn := fn
  ring := ring
  replyRing := byteAt b 11 % 16
  opcode := leAt b 0 2
  slices := byteAt b 2
  dev := byteAt b 3 % 64
  prio := byteAt b 3 / 64
  tag := leAt b 4 4
  cls := byteAt b 10 % 4
  resume := bit (byteAt b 11) 4
  order := leAt b 20 2 % 1024
  reservedZero := byteAt b 9 / 32 == 0 && byteAt b 10 / 4 == 0 && byteAt b 11 / 32 == 0 && leAt b 12 8 == 0 &&
    byteAt b 21 / 4 == 0 && leAt b 22 6 == 0
  viaChain := none

/-- A command enters the matching store; GROUP arrives at once when no command of its group is outstanding. -/
def receiveCommand (s : State) (h : CmdHeader) (p : List Byte) : State :=
  let free := h.opcode == 0x0001 || !(s.sched.items.any (fun i => i.grouped && i.header.order == h.order))
  let i : Item := { kind := .command, code := h.opcode, prio := h.prio, header := h, params := p,
                    need := if startWaits s h.opcode then 7 else 3, have_ := if free then 3 else 1,
                    entered := s.time.tick, listed := s.time.tick, cursor := 0, aborted := false, lastDie := none, seq := s.sched.nextSeq }
  settle (withSched s (fun x => { x with store := x.store ++ [i], nextSeq := x.nextSeq + 1 }))

/-- A command ring halts (R372): flagged, recorded, reported; no reply. -/
def haltRing (s : State) (hp ring cause : Nat) : State :=
  let g := ringAt s hp 0 ring
  let s := setRing s hp 0 ring { g with halted := true, cause := cause }
  let s := raiseEv s .hpEvent [hp] [3]
  let q := { s.host.ports.getD hp HostPort.reset with haltRing := ring, haltCause := cause, haltSlot := g.ci % 2 ^ 24 }
  let s := { s with host := { s.host with ports := setAt s.host.ports hp q } }
  postEvent s 9 (le 1 3 ++ le 1 (ringOwner s hp 0 ring) ++ le 1 ring ++ le 1 cause)

/-- The reply ring that a fetched command names is disabled or another function's. -/
def badReplyRing (s : State) (hp fn r : Nat) : Bool := !(ringAt s hp 1 r).en || ringOwner s hp 1 r != fn

/-- A source whose next command cannot be placed is passed over (R400). -/
def passOver (s : State) (src : Nat) : State := withSched s (fun x => { x with passedOver := src :: x.passedOver })

/-- A source that has a command waiting is being passed over. -/
def fetchStalled (s : State) : Bool := s.sched.passedOver.any (sourceWaits s)

/-- One whole command of a ring: `bytes` are what host memory holds from its CR_CI on. -/
def fetchRing (s : State) (src : Nat) (bytes : List Byte) : State :=
  let hp := src / 16
  let ring := src % 16
  let g := ringAt s hp 0 ring
  let plen := leAt bytes 8 2 % 8192
  let fn := ringOwner s hp 0 ring
  let h := headerOf fn ring bytes
  let p := slice bytes 32 plen
  let n := idxDiff g.pi g.ci
  if g.size < n then haltRing s hp ring 4
  else if 4096 < plen then haltRing s hp ring 2
  else if n < commandSlots plen then s
  else if crc32c (slice bytes 0 28 ++ p) ≠ leAt bytes 28 4 then haltRing s hp ring 1
  else if badReplyRing s hp fn h.replyRing then haltRing s hp ring 3
  else if canPlace s h plen then
    let ci := (g.ci + commandSlots plen) % 2 ^ 32
    let s := emit (setRing s hp 0 ring { g with ci := ci }) (.hostWrite hp g.wb (le 4 ci))
    receiveCommand s h p
  else passOver s src

/-- The oldest command of the chain receive buffer that names this device; its place there is a credit again (13/R401). -/
def fetchChain (s : State) : State :=
  match s.chain.rxBuf.find? (fun r => ownDevice s r.header) with
  | none => s
  | some r =>
    if canPlace s r.header r.params.length then
      let s := emit (withChain s (fun c => { c with rxBuf := c.rxBuf.erase r })) (.chain r.port 5 [])
      receiveCommand s r.header r.params
    else passOver s 32

/-- The fetch arbiter's turn: the next source in round-robin order that has a command waiting. -/
def commandFetch (bytes : List Byte) (s : State) : State :=
  if !fetchRuns s then s
  else match nextRR 33 s.sched.fetchPtr (sourceWaits s) with
  | none => s
  | some src =>
    let s := withSched s (fun x => { x with fetchPtr := src, passedOver := x.passedOver.filter (· != src) })
    if src = 32 then fetchChain s else fetchRing s src bytes

/-- COMMAND_FETCH (R400). -/
def execCommandFetch (bytes : List Byte) (s : State) : Host.Outcome State Fault Refusal := .next (commandFetch bytes s)

/-! ### ITEM_DISPATCH (13/R402) -/

/-- Die of an engine: 0 West, 1 East. -/
def engineDie (e : Nat) : Nat := e / 6

/-- The highest ready list that is not empty, and its head. -/
def topItem (s : State) : Option (Nat × Item) :=
  ([3, 2, 1, 0].filterMap (fun l => ((s.sched.ready.getD l []).head?).map (fun i => (l, i)))).head?

/-- The dispatch enters the window's statistics (R422): the wait from the item's entry into the store. -/
def noteWait (x : SchedState) (i : Item) (wait : Nat) : SchedState :=
  if i.lastDie.isSome then x
  else { x with
    waitMax := setAt x.waitMax i.prio (max (x.waitMax.getD i.prio 0) wait),
    waitSum := setAt x.waitSum i.prio (x.waitSum.getD i.prio 0 + wait),
    waitCount := setAt x.waitCount i.prio (x.waitCount.getD i.prio 0 + 1) }

/-- What an item does that ends as it is dispatched: a command of no known opcode (12/R377); the Rim's attention, which has
had its effect; the notice of a new block, whose event is posted (R395). -/
def endsAtOnce (s : State) (e : Nat) (i : Item) : State :=
  if i.kind == .command && (opRow i.code).isNone then endRunning s e (.of stBadparam)
  else if isTask 0xF002 i then attentionDone (engineEnd s e stOk)
  else if isTask 0xF004 i then attentionDone (engineEnd (blockEvent s i.params) e stOk)
  else s

/-- An idle engine takes the head of the highest list; the move of an item to the other die is counted and traced (R415). -/
def itemDispatch (s : State) : State :=
  if s.power.state = 2 then s
  else match topItem s, nextRR 12 s.sched.lastEngine (fun e => (engineAt s e).item.isNone) with
  | some (l, i), some e =>
    let moved := match i.lastDie with | some d => d != engineDie e | none => false
    let s := withSched s (fun x => noteWait
      { x with ready := setAt x.ready l ((x.ready.getD l []).drop 1), lastEngine := e } i (s.time.tick - i.entered))
    let s := modEngine s e (fun g => { g with
      item := some { i with lastDie := some (engineDie e) }, uaddr := Config.routineEntry i.code % 65536, mcyc := 0,
      stack := [], overrun := false })
    let s := if moved then cntDev (engineTrace s 6 e (engineAt s e).uaddr 0 (i.cursor % 2 ^ 32) i) 0x94 else s
    endsAtOnce (settle (engineTrace s 1 e (engineAt s e).uaddr 0 0 i)) e i
  | _, _ => s

/-- ITEM_DISPATCH (R402). -/
def execItemDispatch (s : State) : Host.Outcome State Fault Refusal := .next (itemDispatch s)

/-! ### COMMAND_STEP_END (13/R408–R413) -/

/-- The restartable routines of Table 13-5 that may yield. -/
def yields (code : Nat) : Bool :=
  code == 0x0605 || code == 0x0603 || code == 0x0505 || code == 0x0502 || code == 0xF005 || code == 0xF006

/-- An item of higher priority has waited on its list for longer than YIELD_US, and no engine is idle (R412). -/
def yieldDue (s : State) (prio : Nat) : Bool :=
  let lim := fld s .schCfg2 [] 31 16
  lim != 0 && s.sched.engines.all (fun g => g.item.isSome) &&
  ([1, 2, 3].any (fun l => decide (prio < l) &&
    (s.sched.ready.getD l []).any (fun i => decide (i.listed + ticksOfNs (lim * 1000) < s.time.tick))))

/-- The item goes to the head of its own ready list with its cursor. -/
def yieldItem (s : State) (e cursor : Nat) (i : Item) : State :=
  let s := cntDev (engineTrace s 6 e (engineAt s e).uaddr 0 (cursor % 2 ^ 32) i) 0x93
  let j := { i with cursor := cursor, listed := s.time.tick }
  modEngine (withSched s (fun x => { x with ready := setAt x.ready i.prio (j :: x.ready.getD i.prio []) })) e Engine.idle

/-- ENG_UE: no microword can be had or taken; it is raised and logged with the microaddress, and the item ends (R413). -/
def microFails (s : State) (e cursor uaddr : Nat) : State :=
  failItem (logUe (raiseEv s .schEvent [] [0]) 0x0D uaddr 1) e cursor

/-- The patch RAM address to which a match register redirects a ROM address (R418). -/
def redirect (s : State) (a : Nat) : Option Nat :=
  (s.sched.matches_.find? (fun m => bit m.2 31 && m.2 % 65536 == a)).map (fun m => 0x10000 + bits m.2 27 16)

/-- The microword at an address, and where it stands: ROM, unless redirected, or patch RAM; none elsewhere (R417, R418). -/
def microAt (s : State) (a : Nat) : Option (Nat × Nat) :=
  if a < 0x10000 then
    match redirect s a with
    | some b => some (b, tget 0 s.sched.patch (b - 0x10000))
    | none => some (a, Config.microRom a)
  else if a < 0x11000 then some (a, tget 0 s.sched.patch (a - 0x10000))
  else none

/-- How a microword leaves the item: it goes on, it ends a step at its address with its STEP_KIND, or the item ends. -/
inductive MicroEnd where
  | goes
  | boundary (addr kind : Nat)
  | fails
  deriving DecidableEq, Repr

/-- The engine goes to an address, having spent microcycles. -/
def microGo (s : State) (e uaddr cycles : Nat) : State :=
  modEngine s e (fun g => { g with uaddr := uaddr % 2 ^ 17, mcyc := g.mcyc + cycles, execCycles := g.execCycles + cycles })

/-- A transfer of control is traced with its target (KIND 3). -/
def microJump (s : State) (e a target : Nat) (i : Item) : State := microGo (engineTrace s 3 e a 0 target i) e target 1

/-- The effect of a microword at an address (Table 13-6). A RETURN with nothing on the stack goes to an address the spec
does not state: a free value. -/
def microDo (s : State) (e a w : Nat) (holds : Bool) (i : Item) : State × MicroEnd :=
  let stack := (engineAt s e).stack
  match bits w 31 27 with
  | 0x18 => if bits w 26 22 = 0 ∨ holds then (microJump s e a (bits w 16 0) i, .goes) else (microGo s e (a + 1) 1, .goes)
  | 0x19 =>
    if 8 ≤ stack.length then (s, .fails)
    else (microJump (modEngine s e (fun g => { g with stack := (a + 1) :: g.stack })) e a (bits w 16 0) i, .goes)
  | 0x1A =>
    match stack with
    | r :: rest => (microJump (modEngine s e (fun g => { g with stack := rest })) e a r i, .goes)
    | [] => let x := drawFree s; (microJump x.2 e a (x.1 % 2 ^ 17) i, .goes)
  | 0x1B => (microGo s e (a + 1) 1, .boundary a (bits w 7 0))
  | 0x1C => (microGo s e (a + 1) 0, .goes)
  | 0x1D | 0x1E | 0x1F => (s, .fails)
  | _ => (microGo s e (a + 1) 1, .goes)

/-- One microword is fetched and executed: a redirect is traced (KIND 4); a copy that reads uncorrectable is logged, and the
other die's serves (R413). -/
def microStep (s : State) (e : Nat) (x : MicroWord) (i : Item) : State × MicroEnd :=
  let a := (engineAt s e).uaddr
  match microAt s a with
  | none => (s, .fails)
  | some (b, w) =>
    let s := if a = b then s else engineTrace s 4 e a 0 0 i
    let s := if x.ecc = .ok then s else logUe s 0x0D b 0
    if x.ecc = .ue then (s, .fails) else microDo s e b w x.holds i

/-- The microwords of a step, up to the first that ends it. -/
def microRun (s : State) (e : Nat) (i : Item) : List MicroWord → State × MicroEnd
  | [] => (s, .goes)
  | x :: r => match microStep s e x i with
    | (t, .goes) => microRun t e i r
    | o => o

/-- What an engine does at a boundary: the first of attention, standby, error, abort and yield that holds (R410). -/
def boundaryChecks (s : State) (e cursor : Nat) (error : Bool) (i : Item) : State :=
  let cls := classOf i.code
  let cmd := i.kind == .command
  if s.sched.attention && cmd && cls != 0 && stoppable s i then
    if cls = 2 then markStopped s e else endRunning s e (.of stAborted)
  else if s.sched.attention && !cmd && decide (0xF004 ≤ i.code) then
    attentionDone (engineEnd s e stAborted)
  else if s.power.state == 1 && cmd && cls == 2 then markStopped s e
  else if s.power.state == 1 && cmd && (i.code == 0x0603 || i.code == 0x0502) then
    endRunning s e ⟨stAborted, 0, cursor, []⟩
  else if error then failItem s e cursor
  else if i.aborted && cls == 1 then endRunning s e (.of stAborted)
  else if yields i.code && yieldDue s i.prio then yieldItem s e cursor i
  else s

/-- An engine executes microwords from where it stands. At a STEP_END it reaches a boundary: the item's cursor is kept,
the step traced, and the checks made. A word that fails ends the item. -/
def commandStepEnd (e cursor : Nat) (words : List MicroWord) (error : Bool) (s : State) : State :=
  match (engineAt s e).item with
  | none => s
  | some i =>
    match microRun s e i words with
    | (s, .goes) => s
    | (s, .fails) => microFails s e cursor (engineAt s e).uaddr
    | (s, .boundary a kind) =>
      let g := engineAt s e
      let s := modEngine s e (fun g => { g with
        mcyc := 0, overrun := false, boundaryAddr := a, item := g.item.map (fun i => { i with cursor := cursor }) })
      boundaryChecks (engineTrace s 2 e a (min 4096 g.mcyc) kind i) e cursor error i

/-- COMMAND_STEP_END (R410). -/
def execCommandStepEnd (e cursor : Nat) (words : List MicroWord) (error : Bool) (s : State) :
    Host.Outcome State Fault Refusal := .next (commandStepEnd e cursor words error s)

/-! ### STEP_OVERRUN, ENG_HANG (13/R414) -/

/-- 4,096 microcycles without STEP_END: flagged, counted and logged; the engine goes on. -/
def stepOverrun (e uaddr : Nat) (s : State) : State :=
  if (engineAt s e).item.isNone || (engineAt s e).overrun then s
  else
    let s := modEngine s e (fun g => { g with overrun := true, uaddr := uaddr % 2 ^ 17 })
    logUe (cntDev (raiseEv s .schEvent [] [1]) 0x95) 0x0D uaddr 2

/-- STEP_OVERRUN (R414). -/
def execStepOverrun (e uaddr : Nat) (s : State) : Host.Outcome State Fault Refusal := .next (stepOverrun e uaddr s)

/-- 1,048,576 microcycles without STEP_END: the item ends, and the engine is empty. -/
def engHang (e uaddr cursor : Nat) (s : State) : State :=
  if (engineAt s e).item.isNone then s
  else
    let s := modEngine s e (fun g => { g with uaddr := uaddr % 2 ^ 17, execCycles := g.execCycles + 1048576 })
    failItem (logUe (raiseEv s .schEvent [] [2]) 0x0D uaddr 3) e cursor

/-- ENG_HANG (R414). -/
def execEngHang (e uaddr cursor : Nat) (s : State) : Host.Outcome State Fault Refusal := .next (engHang e uaddr cursor s)

/-! ### SCHEDULER_TICK (13/R403–R406) -/

/-- The head of a list that has waited longer than AGE_US joins the tail of the next higher list. -/
def ageList (s : State) (l : Nat) : State :=
  let age := fld s .schCfg [] 15 0
  match (s.sched.ready.getD l []).head? with
  | some i =>
    if age ≠ 0 ∧ i.listed + ticksOfNs (age * 1000) < s.time.tick then
      let up (r : List (List Item)) : List (List Item) :=
        setAt (setAt r l ((r.getD l []).drop 1)) (l + 1) (r.getD (l + 1) [] ++ [{ i with listed := s.time.tick }])
      withSched s (fun x => { x with ready := up x.ready })
    else s
  | none => s

/-- The timed functions of Table 13-3 that hold a timer all the time: by number, the interval in force in ticks; none where
the function is off. 0 activity, 1 sweep batch, 2 migration, 3–10 layer-2 aging of a slice, 11 NAT block sweep, 12–19
template refresh of a collector. -/
def timerInterval (s : State) (f : Nat) : Option Nat :=
  match f with
  | 0 => some (ticksOfNs (max 1 (fld s .sknAgeCfg [] 23 16) * 125000))
  | 1 => some (ticksOfNs ((if s.skein.sweepNext = 0 then max 1 (fld s .sknAgeCfg [] 15 0) else s.skein.sweepPeriod)
      * 1000000000 / 262144))
  | 2 => if fld s .sknMigCfg [] 31 31 = 1 then some (ticksOfNs (max 1 (fld s .sknMigCfg [] 23 16) * 10000000)) else none
  | 11 => some (ticksOfNs 1000000000)
  | _ =>
    if f < 11 then
      let a := fld s .l2Cfg [f - 3] 31 16
      if a = 0 then none else some (ticksOfNs (a * 1000000000))
    else if fld s .expColCtl [f - 12] 31 31 = 1 then some (ticksOfNs (max 1 (fld s .actCfg [] 15 0) * 1000000000))
    else none

/-- A timer put in its place: by due time, then in order of insertion. -/
def putTimer : List Timer → Timer → List Timer
  | [], t => [t]
  | u :: r, t => if t.due < u.due then t :: u :: r else u :: putTimer r t

/-- Each timed function that is on holds a timer. -/
def armTimers (s : State) : State :=
  (List.range 20).foldl (fun s f =>
    match timerInterval s f with
    | none => s
    | some n =>
      if s.sched.timers.any (fun t => t.task == f) then s
      else withSched s (fun x => { x with timers := putTimer x.timers ⟨s.time.tick + n, f⟩ })) s

/-- A timer is released: a task is posted where Table 13-3 names one; another function may act from now on. -/
def releaseTimer (s : State) (t : Timer) : State :=
  if t.task = 11 then raiseTask s 0xF005 1 []
  else if 12 ≤ t.task then raiseTask s 0xF007 1 [byte (t.task - 12)]
  else withSched s (fun x => { x with released := if x.released.contains t.task then x.released else x.released ++ [t.task] })

/-- Timers held (Table 13-13): those of the delay lists, of partly filled messages, and of relayed commands that no
acknowledgement has reached. -/
def timersHeld (s : State) : Nat :=
  s.sched.timers.length + (s.actions.collectors.filter (fun e => !e.2.records.isEmpty)).length +
    (s.chain.relayed.filter (fun r => r.sent && !r.acked)).length

/-- The due timers, in order, at most 256; those left over are late. -/
def releaseTimers (s : State) : State :=
  let due := s.sched.timers.filter (fun t => decide (t.due ≤ s.time.tick))
  let now := due.take 256
  let late := due.drop 256
  let s := withSched s (fun x => { x with timers := late ++ x.timers.filter (fun t => decide (s.time.tick < t.due)) })
  let s := now.foldl releaseTimer s
  if late.isEmpty then s else bump (raiseEv s .schEvent [] [3]) 0 0x92 late.length

/-- Time falls on the scheduler tick: a multiple of TICK_UNITS × 125 of the period that runs. -/
def onTick (s : State) : Bool := s.time.tick % (s.sched.tickUnits * 125) == 0

/-- TICK_UNITS as it acts: 0 as 1, above 100,000 as 100,000. -/
def tickUnitsOf (s : State) : Nat := min 100000 (max 1 (fld s .schTick [] 16 0))

/-- A scheduler tick: TICK values take effect, heads grow old, timers are released. -/
def schedulerTick (s : State) : State :=
  if s.power.state = 2 ∨ !s.rim.started ∨ !onTick s then s
  else
    let s := applyAll s .tick
    let s := withSched s (fun x => { x with tickUnits := tickUnitsOf s, ticked := s.time.tick })
    let s := [2, 1, 0].foldl ageList s
    let s := if s.power.state = 1 then s else releaseTimers s
    attentionDone (settle (if s.skein.initDone then armTimers s else s))

/-- SCHEDULER_TICK (R404). -/
def execSchedulerTick (s : State) : Host.Outcome State Fault Refusal := .next (schedulerTick s)

/-! ### STATISTICS_WINDOW_END (13/R422) -/

/-- Ticks as units of 10 ns, saturating at 32 bits. -/
def tens (ticks : Nat) : Nat := sat 32 (ticks * 2 / 25)

/-- A share in units of 2^−16. -/
def share16 (part_ whole : Nat) : Nat := if whole = 0 then 0 else min 65535 (part_ * 65536 / whole)

/-- STAT_MS ms after it began a window ends: its waits and loads are shown, and the next window begins. -/
def statisticsWindowEnd (s : State) : State :=
  let n := s.time.tick - s.sched.windowStart
  if n < ticksOfNs (s.sched.windowMs * 1000000) then s
  else withSched s (fun x => { x with
    shownMax := x.waitMax.map tens,
    shownMean := (x.waitSum.zip x.waitCount).map (fun e => if e.2 = 0 then 0 else sat 32 (e.1 * 2 / (25 * e.2))),
    shownLoad := x.engines.map (fun g => (share16 g.busyTicks n, share16 g.execCycles (ccOf n))),
    waitMax := [0, 0, 0, 0], waitSum := [0, 0, 0, 0], waitCount := [0, 0, 0, 0],
    engines := x.engines.map (fun g => { g with busyTicks := 0, execCycles := 0 }),
    windowStart := s.time.tick, windowMs := max 1 (fld s .schCfg2 [] 15 0) })

/-- STATISTICS_WINDOW_END (R422). -/
def execStatisticsWindowEnd (s : State) : Host.Outcome State Fault Refusal := .next (statisticsWindowEnd s)

/-! ### NOP, ABORT, DEV_INFO -/

/-- A command that completes after every earlier command of its ORDER: it runs only with GROUP (13/R399). -/
def nop (h : CmdHeader) (p : List Byte) (s : State) : State := runAtOnce s 0x0000 h p 0 true (fun s => (.ok [], s))

/-- NOP (R399). -/
def execNop (h : CmdHeader) (p : List Byte) (s : State) : Host.Outcome State Fault Refusal := .next (nop h p s)

/-- The commands that an ABORT acts on: its tag, its function, its device, in progress; not itself. -/
def abortTargets (h : CmdHeader) (p : List Byte) (l : List Item) : List Item :=
  l.filter (fun i => i.kind == .command && i.header.tag == leAt p 0 4 && i.header.fn == h.fn && i.header.dev == h.dev &&
    !isCommand h p i)

/-- Stop the commands of a tag (R382): how many, and the state. -/
def abortAll (h : CmdHeader) (p : List Byte) (s : State) : Nat × State :=
  let waiting := abortTargets h p (s.sched.store ++ s.sched.ready.flatten)
  let running := (List.range 12).filter (fun e => match (engineAt s e).item with
    | some i => !(abortTargets h p [i]).isEmpty && stoppable s i
    | none => false)
  (waiting.length + running.length, running.foldl markStopped (waiting.foldl abortWaiting s))

/-- ABORT's effect and answer. -/
def abort (h : CmdHeader) (p : List Byte) (s : State) : State :=
  runAtOnce s 0x0001 h p 4 true (fun s =>
    let (n, t) := abortAll h p s
    if n = 0 then (.of stNoent, t) else (.ok (le 4 n), t))

/-- ABORT (R382). -/
def execAbort (h : CmdHeader) (p : List Byte) (s : State) : Host.Outcome State Fault Refusal := .next (abort h p s)

/-- Device identity and state (Table 12-9). -/
def devInfoData (s : State) : List Byte :=
  padTo 16 s.rim.otp.deviceId ++ le 2 0x9256 ++ le 1 0xB0 ++ le 1 (devAddr s) ++ le 4 s.rim.fwLevel
    ++ le 2 (at_ s.rim.session 13 0 + at_ s.rim.lifecycle 15 14) ++ le 1 (b2n s.rim.minimal) ++ zeros 1 ++ le 4 (servedSec s)

/-- DEV_INFO's answer. -/
def devInfo (h : CmdHeader) (p : List Byte) (s : State) : State := runAtOnce s 0x0002 h p 0 true (fun s => (.ok (devInfoData s), s))

/-- DEV_INFO (R386). -/
def execDevInfo (h : CmdHeader) (p : List Byte) (s : State) : Host.Outcome State Fault Refusal := .next (devInfo h p s)

end Sys2Proof.Machine
end

