-- ==== Sys2Proof/Machine/Chain.lean ====
section
/-! DEFINITION. The device chain (12/R390–R393; 13/R401): CHAIN_ENUM, CHAIN_TOKEN, ENUMERATION_COMPLETE,
CHAIN_COMMAND_RELAY, CHAIN_REPLY, CHAIN_ACK, CHAIN_ACK_TIMEOUT, CHAIN_CREDIT, CHAIN_LINK_CHANGE. -/

namespace Sys2Proof.Machine

/-- A chain event (Table 12-10). -/
def chainEvent (s : State) (kind port peer tag : Nat) : State :=
  postEvent s 8 (le 1 kind ++ le 1 (port % 2) ++ le 2 (peer % 64) ++ le 4 tag)

/-! ### Enumeration (R390) -/

/-- Reply data of CHAIN_ENUM (Table 12-9). -/
def enumData (devices : Nat) (ring overflow : Bool) : List Byte :=
  le 1 (at_ devices 6 0 + at_ (b2n ring) 7 7) ++ le 1 (b2n overflow) ++ zeros 6

/-- CHAIN_ENUM's checks; with nothing on the chain ports it completes at once, else the root sends the first token. -/
def chainEnum (h : CmdHeader) (p : List Byte) (s : State) : State :=
  runCommand s 0x0003 h p 0 true (fun _ s =>
    if h.dev ≠ 0 then (some (.of stBadparam), s)
    else if s.chain.enumerating.isSome then
      (if (s.chain.enumerating.map (·.tag)) = some h.tag then none else some (.of stBusy), s)
    else if !s.chain.relayed.isEmpty then (some (.of stBusy), s)
    else if !chainUp s 0 && !chainUp s 1 then
      (some (.ok (enumData 1 false false)), withChain s (fun c => { c with ring := false, devices := 1, overflow := false }))
    else
      let s := withChain s (fun c => { c with ring := false, enumerating := some h })
      (none, if chainUp s 1 then emit s (.chain 1 0 (le 1 1)) else s))

/-- CHAIN_ENUM (R390). -/
def execChainEnum (h : CmdHeader) (p : List Byte) (s : State) : Host.Outcome State Fault Refusal := .next (chainEnum h p s)

/-- The next address goes on by CHAIN1, unless this device's is 63 or CHAIN1 is down. -/
def passToken (s : State) (addr : Nat) : State :=
  if addr < 63 ∧ chainUp s 1 then emit s (.chain 1 0 (le 1 (addr + 1))) else s

/-- An address token arrives: on the root's CHAIN0 it marks a ring; a device without an address takes it. -/
def chainToken (port value : Nat) (s : State) : State :=
  if port ≠ 0 ∨ !chainUp s 0 ∨ value = 0 ∨ 64 ≤ value then s
  else if s.chain.root then withChain s (fun c => { c with ring := true })
  else match s.chain.addr with
  | some a => passToken s a
  | none => passToken (withChain s (fun c => { c with addr := some value })) value

/-- CHAIN_TOKEN (R390). -/
def execChainToken (port value : Nat) (s : State) : Host.Outcome State Fault Refusal := .next (chainToken port value s)

/-- No new address for 1 ms: CHAIN_ENUM completes with what was found. -/
def enumerationComplete (devices : Nat) (overflow : Bool) (s : State) : State :=
  match s.chain.enumerating with
  | none => s
  | some h =>
    let n := min 64 (max 1 devices)
    let a := Answer.ok (enumData n s.chain.ring overflow)
    if answerFits s h a then
      let s := withChain s (fun c => { c with enumerating := none, devices := n, overflow := overflow })
      match engineOf s (fun i => i.kind == .command && i.code == 0x0003) with
      | some e => endRunning s e a
      | none => completed (answer s h false a) h 0x0003
    else s

/-- ENUMERATION_COMPLETE (R390). -/
def execEnumerationComplete (devices : Nat) (overflow : Bool) (s : State) : Host.Outcome State Fault Refusal :=
  .next (enumerationComplete devices overflow s)

/-! ### A device on the way (R391, R401) -/

/-- A command is forwarded out of a port: one credit there fewer, and one back to the neighbour it came from. -/
def forwardTo (s : State) (r : Relayed) : State :=
  let out := 1 - r.port
  let s := emit s (.chain out 1 (chainCommand r.header r.params))
  let s := withChain s (fun c => { c with credits := setAt c.credits out (c.credits.getD out 0 - 1) })
  emit s (.chain r.port 5 [])

/-- A command that leaves by a port may go. -/
def mayForward (s : State) (out : Nat) : Bool := chainUp s out && decide (0 < s.chain.credits.getD out 0)

/-- A relayed command arrives. -/
def chainCommandRelay (port : Nat) (h : CmdHeader) (p : List Byte) (s : State) : State :=
  if 2 ≤ port ∨ !chainUp s port ∨ s.chain.root ∨ s.chain.addr.isNone then s
  else
    let r : Relayed := ⟨{ h with viaChain := some port }, h.opcode, p, false, false, port, 0⟩
    if ownDevice s h then
      if s.chain.rxBuf.length < 64 then
        emit (withChain s (fun c => { c with rxBuf := c.rxBuf ++ [r] })) (.chain port 2 (le 1 h.dev ++ le 4 h.tag))
      else s
    else if mayForward s (1 - port) && !(s.chain.rxBuf.any (fun q => q.port == port && !ownDevice s q.header)) then forwardTo s r
    else if s.chain.rxBuf.length < 64 then withChain s (fun c => { c with rxBuf := c.rxBuf ++ [r] })
    else s

/-- CHAIN_COMMAND_RELAY (R391). -/
def execChainCommandRelay (port : Nat) (h : CmdHeader) (p : List Byte) (s : State) : Host.Outcome State Fault Refusal :=
  .next (chainCommandRelay port h p s)

/-- The neighbour at a port has room for one more: what waits for it may go. -/
def chainCredit (port : Nat) (s : State) : State :=
  if 2 ≤ port ∨ !chainUp s port then s
  else
    let s := withChain s (fun c => { c with credits := setAt c.credits port (min 64 (c.credits.getD port 0 + 1)) })
    if s.chain.root then settle (pump s)
    else match s.chain.rxBuf.find? (fun r => r.port == 1 - port && !ownDevice s r.header) with
    | none => s
    | some r => forwardTo (withChain s (fun c => { c with rxBuf := c.rxBuf.erase r })) r

/-- CHAIN_CREDIT (R401). -/
def execChainCredit (port : Nat) (s : State) : Host.Outcome State Fault Refusal := .next (chainCredit port s)

/-! ### At the root (R391, R392) -/

/-- The place of the oldest command sent to a device with a tag that `p` accepts. -/
def sentTo (s : State) (dev tag : Nat) (p : Relayed → Bool) : Option Nat :=
  s.chain.relayed.findIdx? (fun r => r.sent && r.header.dev == dev && r.header.tag == tag && p r)

/-- A relayed command is answered and leaves the relay buffer, once its reply finds room. -/
def answerRelayed (s : State) (k : Nat) (a : Answer) (late : Bool) : State :=
  match s.chain.relayed[k]? with
  | none => s
  | some r =>
    if answerFits s r.header a then
      let s := withChain s (fun c => { c with
        relayed := c.relayed.eraseIdx k,
        timedOut := if late then c.timedOut ++ [(r.header.dev, r.header.tag)] else c.timedOut })
      settle (pump (answer s r.header r.sent a))
    else s

/-- A reply arrives: its command is answered; one that comes too late is discarded and reported. -/
def replyAtRoot (s : State) (port dev fn tag opcode : Nat) (a : Answer) : State :=
  match sentTo s dev tag (fun r => r.header.fn == fn && r.opcode == opcode) with
  | some k => answerRelayed s k a false
  | none =>
    if s.chain.timedOut.contains (dev, tag) then
      let s := withChain s (fun c => { c with timedOut := c.timedOut.erase (dev, tag) })
      chainEvent (raiseEv s .chainEvent [] [3]) 4 port dev tag
    else s

/-- A reply arrives on a chain port: the root takes it, another device passes it on. -/
def chainReply (port dev fn tag opcode status partMask cursor : Nat) (data : List Byte) (s : State) : State :=
  if 2 ≤ port ∨ !chainUp s port then s
  else if s.chain.root then replyAtRoot s port dev fn tag opcode ⟨status % 65536, partMask % 256, cursor, data⟩
  else if s.chain.addr.isNone ∨ !chainUp s (1 - port) then s
  else emit s (.chain (1 - port) 3 (le 1 dev ++ le 1 fn ++ le 4 tag ++ le 2 opcode ++ le 2 status ++ le 1 partMask
    ++ le 8 cursor ++ data))

/-- CHAIN_REPLY (R391). -/
def execChainReply (port dev fn tag opcode status partMask cursor : Nat) (data : List Byte) (s : State) :
    Host.Outcome State Fault Refusal := .next (chainReply port dev fn tag opcode status partMask cursor data s)

/-- A target's acknowledgement stops the ACK_US limit of its command. -/
def chainAck (dev tag : Nat) (s : State) : State :=
  match sentTo s dev tag (fun r => !r.acked) with
  | none => s
  | some k =>
    match s.chain.relayed[k]? with
    | none => s
    | some r => withChain s (fun c => { c with relayed := setAt c.relayed k { r with acked := true } })

/-- CHAIN_ACK (R392). -/
def execChainAck (dev tag : Nat) (s : State) : Host.Outcome State Fault Refusal := .next (chainAck dev tag s)

/-- At the first scheduler tick ACK_US after it left, an unacknowledged command is answered ST_TIMEOUT (13/R406). -/
def chainAckTimeout (dev tag : Nat) (s : State) : State :=
  match sentTo s dev tag (fun r => !r.acked && decide (r.deadline ≤ s.sched.ticked)) with
  | none => s
  | some k => answerRelayed s k (.of stTimeout) true

/-- CHAIN_ACK_TIMEOUT (R392). -/
def execChainAckTimeout (dev tag : Nat) (s : State) : Host.Outcome State Fault Refusal := .next (chainAckTimeout dev tag s)

/-! ### Links (R391–R393) -/

/-- The root answers ST_TIMEOUT for the acknowledged commands whose path has failed, each with an event of KIND 2; `n`
bounds how many. -/
def failPath (port : Nat) : Nat → State → State
  | 0, s => s
  | n + 1, s =>
    match s.chain.relayed.findIdx? (fun r => r.sent && r.acked && r.port == port) with
    | none => s
    | some k =>
      let dev := ((s.chain.relayed[k]?).map (·.header.dev)).getD 0
      let len := s.chain.relayed.length
      let s := answerRelayed s k (.of stTimeout) true
      if s.chain.relayed.length < len then failPath port n (chainEvent s 2 port dev 0) else s

/-- Commands that have not left take the path there is now; those left with none are answered ST_TIMEOUT, SENT 0; `n`
bounds how many. -/
def repath : Nat → State → State
  | 0, s => s
  | n + 1, s =>
    match s.chain.relayed.findIdx? (fun r => !r.sent && chainPath s r.header.dev != some r.port) with
    | none => s
    | some k =>
      match s.chain.relayed[k]? with
      | none => s
      | some r =>
        match chainPath s r.header.dev with
        | some p => repath n (withChain s (fun c => { c with relayed := setAt c.relayed k { r with port := p } }))
        | none =>
          let len := s.chain.relayed.length
          let s := answerRelayed s k (.of stTimeout) false
          if s.chain.relayed.length < len then repath n s else s

/-- What a change of its links means to the root. -/
def rootLinks (s : State) (port : Nat) (up : Bool) (before : List (Option Nat)) : State :=
  let now := (List.range s.chain.devices).map (chainPath s)
  let s := if before.drop 1 = now.drop 1 then s else raiseEv s .chainEvent [] [2]
  let s := if up then s else failPath port s.chain.relayed.length s
  settle (pump (repath s.chain.relayed.length s))

/-- A chain port's link comes up or goes down. -/
def setChainLink (s : State) (port : Nat) (up : Bool) (peer : Nat) (lost : Bool) : State :=
  let before := (List.range s.chain.devices).map (chainPath s)
  let s := withChain s (fun c => { c with
    up := setAt c.up port up, credits := if up then setAt c.credits port 64 else c.credits })
  let s := if up then s else raiseEv s .chainEvent [] [port]
  let reach := s.chain.root || (s.chain.addr.isSome && (chainUp s 0 || chainUp s 1))
  let s := if reach then chainEvent s (if up then 1 else 2) port peer 0 else s
  let s := if reach && up && lost then chainEvent s 3 port peer 0 else s
  if s.chain.root then rootLinks s port up before else pumpUp s

/-- A chain link changes. `peer`: the address of the device beyond, 0x3F when unknown; `lost`: that device has lost its
address. -/
def chainLinkChange (port : Nat) (up : Bool) (peer : Nat) (lost : Bool) (s : State) : State :=
  if 2 ≤ port ∨ !s.rim.started ∨ chainUp s port = up ∨ (up ∧ fld s .chainCfg [] 31 31 = 0) then s
  else setChainLink s port up peer lost

/-- CHAIN_LINK_CHANGE (R393). -/
def execChainLinkChange (port : Nat) (up : Bool) (peer : Nat) (lost : Bool) (s : State) : Host.Outcome State Fault Refusal :=
  .next (chainLinkChange port up peer lost s)

/-- A write of CHAIN_CFG: CHAIN_EN 0 holds both chain ports down. -/
def writeChainCfg (s : State) (ix : List Nat) (v : Nat) : State :=
  let s := landWrite s .chainCfg ix v
  if bit v 31 then s
  else [0, 1].foldl (fun s p => if chainUp s p then setChainLink s p false 0x3F false else s) s

end Sys2Proof.Machine
end

