-- ==== Sys2Proof/Machine/Egress.lean ====
section
/-! DEFINITION. The meanings of EGRESS_PICK and FRAME_SENT: the scheduler, and what leaves a port (08/R266–R285;
07/R252–R258; 10/R339). -/

namespace Sys2Proof.Machine

/-! ### What may be picked (R264, R266, R284) -/

/-- A frame is ready: held whole, or a cut-through or long frame of which LEAD units are held (R264, R254). -/
def partReady (s : State) (port c : Nat) (p : EqPart) (f : Frame) : Bool :=
  p.got == f.txLen || ((f.cut || longFrame s f (eqNum port c)) && decide (leadOf s port c ≤ cdiv p.got 256))

/-- The gate of a class is open and the frame fits the window (R284). -/
def gateFits (s : State) (port c len : Nat) : Bool :=
  let g := (egAt s port).gate
  bit g.gates c && fitsIn s (frameTicks len (portRate s port)) (windowLeft g c (servedNow s))

/-- A queue's shaper is disabled or holds no debt. -/
def shaperClear (s : State) (q : Nat) : Bool := !shqOn s q || decide (0 ≤ (shqBucket s q).tokens)

/-- The head of a class that is eligible, if there is one (R266). -/
def eligibleHead (s : State) (port c : Nat) : Option (EqPart × Frame) :=
  match (eqAt s (eqNum port c)).head with
  | none => none
  | some p =>
    match frameAt s p.frame with
    | none => none
    | some f =>
      if partReady s port c p f && shaperClear s (eqNum port c) && gateFits s port c f.txLen then some (p, f) else none

/-! ### pick(port) of R266 -/

/-- Quantum of a queue: below 10,264 acts as 10,264 (R267). -/
def quantumOf (s : State) (q : Nat) : Nat := max 10264 (fld s .shqCfg (shqIx q) 19 0)

/-- A class is served in strict priority. -/
def strictClass (s : State) (port c : Nat) : Bool := bit (fld s .egrPortCfg (portIx port) 7 0) c

/-- The highest strict class with an eligible head. -/
def pickStrict (s : State) (port : Nat) : Option Nat :=
  ([7, 6, 5, 4, 3, 2, 1, 0] : List Nat).find? (fun c => strictClass s port c && (eligibleHead s port c).isSome)

/-- The deficit round robin over the other classes, at most `n` visits from dptr on: the class picked. -/
def pickDwrr (port : Nat) : Nat → State → Option Nat × State
  | 0, s => (none, s)
  | n + 1, s =>
    let c := (egAt s port).dptr
    let q := eqNum port c
    let skip := fun (s : State) =>
      pickDwrr port n (modEg (modEq s q (fun e => { e with granted := false })) port (fun e => { e with dptr := (c + 1) % 8 }))
    if strictClass s port c then skip s
    else if (eqAt s q).head.isNone then skip (modEq s q (fun e => { e with deficit := 0 }))
    else match eligibleHead s port c with
    | none => skip s
    | some (_, f) =>
      let s := if (eqAt s q).granted then s
        else modEq s q (fun e => { e with deficit := e.deficit + quantumOf s q, granted := true })
      if f.txLen ≤ (eqAt s q).deficit then (some c, modEq s q (fun e => { e with deficit := e.deficit - f.txLen }))
      else skip s

/-- The class the scheduler picks. -/
def pickClass (s : State) (port : Nat) : Option Nat × State :=
  match pickStrict s port with
  | some c => (some c, s)
  | none => pickDwrr port 9 s

/-- The picked frame is charged to its queue shaper and to the port shaper (R270, R272). -/
def chargeShapers (s : State) (port c len : Nat) : State :=
  let q := eqNum port c
  let s := if shqOn s q then setShq s q ((shqBucket s q).spend (chargedLen len (fld s .shqCfg (shqIx q) 27 20))) else s
  if shpOn s port then setShp s port ((shpBucket s port).spend (chargedLen len (fld s .egrPortCfg (portIx port) 27 20)))
  else s

/-- The head of a class starts on the wire: its timestamp point leaves, and the next frame becomes head (R285, 10/R339). -/
def startFrame (s : State) (port c : Nat) : State :=
  match eligibleHead s port c with
  | none => s
  | some (p, f) =>
    let q := eqNum port c
    let x : Sending := ⟨c, p, s.time.tick, portTime s port true, stampDomain s port⟩
    let s := modEq (chargeShapers s port c f.txLen) q (fun e => { e with parts := e.parts.drop 1 })
    let s := modEg s port (fun e => { e with sending := some x })
    let s := if f.tsKind = 1 then
        modFrame (timeEventPost s 1 port f.tsId (stampRecord x.startTick x.startTime x.base)) p.frame
          (fun f => { f with tsKind := 0 })
      else s
    judgeHeads s port c

/-- A bucket that reads uncorrectable is set full, and SHAPER_UE is raised: queue shaper `k` below 8, port shaper 8
(R280). -/
def shaperUe (s : State) (port k : Nat) : State :=
  let s := forceReg (raiseEv s .egrEvent [port / 32] [3]) .egrLast [port / 32] port
  if k < 8 then setShq s (eqNum port k) (Bucket.full (fld s .shqBurst (shqIx (eqNum port k)) 23 0) s.time.tick)
  else setShp s port (Bucket.full (fld s .shpBurst (portIx port) 23 0) s.time.tick)

/-- The port can start a frame: it is UP, not closed, not sending and not in transmit LPI (R266, R268, 11/R360). -/
def canStart (s : State) (port : Nat) : Bool :=
  portUp s port && !portClosed s port && (egAt s port).sending.isNone && !(laneAt s port).txLpi
    && (portAt s port).readySince.isNone

/-- The scheduler runs once. -/
def egressPick (port : Nat) (ue : Option Nat) (s : State) : State :=
  let s := match ue with | some k => shaperUe s port k | none => s
  if canStart s port then
    let s := (List.range 8).foldl (fun s c => judgeHeads s port c) s
    if shpOn s port && decide ((shpBucket s port).tokens < 0) then s
    else
      match pickClass s port with
      | (none, s) => s
      | (some c, s) => startFrame s port c
  else s

/-- EGRESS_PICK (R266). -/
def execEgressPick (port : Nat) (ue : Option Nat) (s : State) : Host.Outcome State Fault Refusal :=
  .next (egressPick port ue s)

/-! ### What leaves (R255, R256, R258, R339) -/

/-- The FCS a good frame is sent with: as received or computed, adjusted for what Rewrite changed (R255) and for what
egress changed. -/
def Frame.wireFcs (f : Frame) (wire : List Byte) : Nat :=
  let x := if f.modified then Nat.xor f.fcs (crcAdvance f.fcsDiff (f.data.length - f.chgEnd)) else f.fcs
  if wire = f.data then x else fcsAdjust x f.data wire 0

/-- The FCS sent: a stomped frame ends with the complement of the CRC over the bytes sent (R256). -/
def Frame.sentFcs (f : Frame) (wire : List Byte) (stomp : Bool) : Nat :=
  if stomp then 0xFFFFFFFF - crc32 wire else f.wireFcs wire

/-- The last byte of the FCS has left: verdict, learning, credit (R252, R245, 05/R173). -/
def frameSent (port : Nat) (s : State) : State :=
  match (egAt s port).sending with
  | none => s
  | some x =>
    let id := x.part.frame
    match frameAt s id with
    | none => modEg s port (fun e => { e with sending := none })
    | some f =>
      if x.part.got ≠ f.txLen then s
      else
        let stomp := f.tail == .bad
        let wire := f.wire x.startTime
        let sent := wire ++ le 4 (f.sentFcs wire stomp)
        let s := modEg (emit s (.frame port sent)) port (fun e => { e with sending := none })
        let s := loopedBack port x sent (creditBack s (eqNum port x.cls) id)
        if stomp then frameLeft (cntPort s port 12) id
        else
          let s := learnAtEgress s f port
          if f.mc then dropRef (modFrame s id (fun f => { f with good := true })) id
          else frameLeft (verdictGood s id) id

/-- FRAME_SENT (R252). -/
def execFrameSent (port : Nat) (s : State) : Host.Outcome State Fault Refusal := .next (frameSent port s)

end Sys2Proof.Machine
end

