-- ==== Sys2Proof/Machine/EgressCtl.lean ====
section
/-! DEFINITION. What writes of the egress, Creel and crossbar registers do, and the steps of gate lists: SHAPER_ENABLE,
SHAPER_RATE_WRITE, OWN_CFG_WRITE, EQ_CREDIT_WRITE, GCL_IND_GO, GCL_ARM, GCL_WITHDRAW, GCL_TAKEOVER, GATE_ENTRY_CHANGE
(07/R238, R245; 08/R273, R274, R282–R288). -/

namespace Sys2Proof.Machine

/-! ### Shapers (R273, R274) -/

/-- The queue that an index of the queue registers names: slice and queue of the slice. -/
def shqOf (ix : List Nat) : Nat := ix.getD 0 0 * 256 + ix.getD 1 0

/-- The port that an index of slice and port index names. -/
def portOf (ix : List Nat) : Nat := ix.getD 0 0 * 32 + ix.getD 1 0

/-- A write of SHQ_CFG or EGR_PORT_CFG: a shaper that becomes enabled starts full, a disabled one holds no state. -/
def writeShaperCfg (s : State) (r : RegName) (ix : List Nat) (v : Nat) : State :=
  let was := fld s r ix 31 31 == 1
  let s := landWrite s r ix v
  let on := fld s r ix 31 31 == 1
  if was == on then s
  else if r == .shqCfg then
    setShq s (shqOf ix) (if on then Bucket.full (fld s .shqBurst ix 23 0) s.time.tick else Bucket.reset)
  else setShp s (portOf ix) (if on then Bucket.full (fld s .shpBurst ix 23 0) s.time.tick else Bucket.reset)

/-- SHAPER_ENABLE (R273). -/
def execShaperEnable (req : Requester) (off v : Nat) (s : State) : Host.Outcome State Fault Refusal :=
  .next (guarded s req off [.shqCfg, .egrPortCfg] (fun s r ix => writeShaperCfg s r ix v))

/-- Tokens capped at a depth. -/
def Bucket.cap (b : Bucket) (burst : Nat) : Bucket := { b with tokens := min ((burst * byteUnit : Nat) : Int) b.tokens }

/-- A write of a shaper's rate or burst: the bucket is brought up to date at the old settings, then the new ones apply. -/
def writeShaperRate (s : State) (r : RegName) (ix : List Nat) (v : Nat) : State :=
  match r with
  | .shqRate | .shqBurst =>
    let q := shqOf ix
    let b := shqBucket s q
    let on := shqOn s q
    let s := landWrite s r ix v
    if on then setShq s q (b.cap (fld s .shqBurst ix 23 0)) else s
  | _ =>
    let p := portOf ix
    let b := shpBucket s p
    let on := shpOn s p
    let s := landWrite s r ix v
    if on then setShp s p (b.cap (fld s .shpBurst ix 23 0)) else s

/-- SHAPER_RATE_WRITE (R274). -/
def execShaperRateWrite (req : Requester) (off v : Nat) (s : State) : Host.Outcome State Fault Refusal :=
  .next (guarded s req off [.shqRate, .shqBurst, .shpRate, .shpBurst] (fun s r ix => writeShaperRate s r ix v))

/-! ### Reserves and credits (07/R238, R245) -/

/-- A write of an owner's settings: MIN is taken only while the slice's reserves stay within 47,616 cells. -/
def writeOwnCfg (s : State) (r : RegName) (ix : List Nat) (v : Nat) : State :=
  if r == .ownCfg0 then
    let sl := ix.getD 0 0
    if resSum s sl - fld s .ownCfg0 ix 9 0 + bits v 9 0 ≤ 47616 then landWrite s r ix v
    else raiseEv s .crlEvent [sl] [3]
  else landWrite s r ix v

/-- OWN_CFG_WRITE (R238). -/
def execOwnCfgWrite (req : Requester) (off v : Nat) (s : State) : Host.Outcome State Fault Refusal :=
  .next (guarded s req off [.ownCfg0, .ownCfg1] (fun s r ix => writeOwnCfg s r ix v))

/-- Sum of the credits in force of a slice's egress queues, for the ports of the modes in force. -/
def creditSum (s : State) (sl : Nat) : Nat :=
  ((List.range 256).map (fun k =>
    let p := sl * 32 + k / 8
    if isPort s p then creditOf s p (k % 8) else 0)).foldl (· + ·) 0

/-- A write of a credit is taken only while the slice's sum stays within 8,192 units. -/
def writeCredit (s : State) (r : RegName) (ix : List Nat) (v : Nat) : State :=
  let t := landWrite s r ix v
  if creditSum t (ix.getD 0 0 / 32) ≤ 8192 then t else raiseEv s .waleEvent [] [0]

/-- EQ_CREDIT_WRITE (R245). -/
def execEqCreditWrite (req : Requester) (off v : Nat) (s : State) : Host.Outcome State Fault Refusal :=
  .next (guarded s req off [.eqCredit] (fun s r ix => writeCredit s r ix v))

/-! ### Gate lists -/

/-- Change a port's gate lists. -/
def modGate (s : State) (p : Nat) (f : GateState → GateState) : State := modEg s p (fun e => { e with gate := f e.gate })

/-- The span in force now. -/
def gateSpanNow (g : GateState) (now : Nat) : Option (Nat × Nat × Nat × Nat) :=
  (runSpans g).find? (fun x => decide (x.1 ≤ gatePos g now) && decide (gatePos g now < x.2.1))

/-- The entry and gates in force are those of the span at a time; all open without a list (R283). -/
def GateState.follow (g : GateState) (now : Nat) : GateState :=
  match gateSpanNow g now with
  | some x => { g with entry := x.2.2.2, gates := x.2.2.1 }
  | none => { g with entry := 0, gates := if g.running then g.gates else 255 }

/-- Raise an EGR_EVENT flag of a port. -/
def egrRaise (s : State) (p flag : Nat) : State := forceReg (raiseEv s .egrEvent [p / 32] [flag]) .egrLast [p / 32] p

/-- An entry of the running list reads uncorrectable: it is faulty until its bank is written again, and closed while it is in
force (R288). -/
def gateLost (s : State) (p bank k : Nat) : State :=
  let s := modGate s p (fun g => { g with
    bad := if g.bad.contains (bank, k) then g.bad else (bank, k) :: g.bad, gates := if g.entry = k then 0 else g.gates })
  logUe (egrRaise s p 2) 0x08 (p * 1024 + k) 2

/-- GATE_ENTRY_CHANGE: an entry starts; one that reads uncorrectable is taken as closed (R283, R288). -/
def gateEntryChange (p : Nat) (ue : Bool) (s : State) : State :=
  let s := modGate s p (fun g => g.follow (servedNow s))
  let g := (egAt s p).gate
  if ue && g.running then gateLost s p g.oper g.entry else s

/-- GATE_ENTRY_CHANGE (R283). -/
def execGateEntryChange (p : Nat) (ue : Bool) (s : State) : Host.Outcome State Fault Refusal := .next (gateEntryChange p ue s)

/-- A write of GCL_IND_CTL; with GO it reads or writes an entry (R282, 15/R461). -/
def writeGclInd (s : State) (ix : List Nat) (v : Nat) (ecc : Ecc) : State :=
  let s := landWrite s .gclIndCtl ix v
  if bit v 31 then
    let p := portOf ix
    let g := (egAt s p).gate
    let k := bits v 9 0
    let s :=
      if bit v 30 then
        if g.pending.isSome then forceFld s .gclIndCtl ix 23 20 1
        else
          let w := inForce s .gclIndData0 ix + at_ (inForce s .gclIndData1 ix) 7 0 * 2 ^ 32
          let bank := 1 - g.oper
          let s := modGate s p (fun g =>
            let g := { g with bad := g.bad.filter (fun b => b.1 != bank) }
            if bank = 0 then { g with bank0 := tins g.bank0 k w } else { g with bank1 := tins g.bank1 k w })
          forceFld s .gclIndCtl ix 23 20 0
      else
        let bank := if bit v 29 then g.oper else 1 - g.oper
        let s := if ecc == .ue && bit v 29 && g.running && decide (k < g.len) then gateLost s p bank k else s
        let w := if ecc == .ue then 0 else tget 0 (if bank = 0 then g.bank0 else g.bank1) k
        let s := forceReg (forceReg s .gclIndData0 ix (w % 2 ^ 32)) .gclIndData1 ix (w / 2 ^ 32)
        forceFld s .gclIndCtl ix 23 20 (if ecc == .ue then 3 else 0)
    if bit v 28 then forceFld s .gclIndCtl ix 9 0 (k + 1) else s
  else s

/-- GCL_IND_GO (R282). -/
def execGclIndGo (req : Requester) (off v : Nat) (ecc : Ecc) (s : State) : Host.Outcome State Fault Refusal :=
  .next (guarded s req off [.gclIndCtl] (fun s _ ix => writeGclInd s ix v ecc))

/-- The base time written for a port's lists, in ns of served time. -/
def gclBase (s : State) (ix : List Nat) : Nat :=
  (inForce s .gclBaseSlo ix + inForce s .gclBaseShi ix * 2 ^ 32) * 1000000000 + inForce s .gclBaseNs ix

/-- A write of GCL_ADMIN: ARM 1 arms a change, at once when its base time has passed; ARM 0 withdraws one (R286, R287). -/
def writeGclAdmin (s : State) (ix : List Nat) (v : Nat) : State :=
  let p := portOf ix
  let s := landWrite s .gclAdmin ix v
  if bit v 31 then
    let cycle := max 1000 (min 1000000000 (bits (lastWritten s .gclCycle ix) 29 0))
    let late := decide (gclBase s ix < timeNsUp s.time.served)
    let base := if late then servedNow s else gclBase s ix
    let s := modGate s p (fun g => { g with
      pending := some ⟨bit v 30, bits v 25 16 + 1, cycle, base, late⟩ })
    if late then egrRaise (applyReg (applyReg s .gclAdmin ix .atTime) .gclCycle ix .atTime) p 1 else s
  else applyReg (modGate s p (fun g => { g with pending := none })) .gclAdmin ix .atTime

/-- GCL_ARM (R286). -/
def execGclArm (req : Requester) (off v : Nat) (s : State) : Host.Outcome State Fault Refusal :=
  .next (guarded s req off [.gclAdmin] (fun s _ ix => if bit v 31 then writeGclAdmin s ix v else s))

/-- GCL_WITHDRAW (R287). -/
def execGclWithdraw (req : Requester) (off v : Nat) (s : State) : Host.Outcome State Fault Refusal :=
  .next (guarded s req off [.gclAdmin] (fun s _ ix => if bit v 31 then s else writeGclAdmin s ix v))

/-- The base time of a pending change comes: the armed values take effect (R286 step 3, 00/R16). -/
def gclBaseReached (s : State) (ix : List Nat) : State :=
  let p := portOf ix
  match (egAt s p).gate.pending with
  | none => s
  | some c =>
    if c.base ≤ servedNow s then
      let s := modGate s p (fun g => { g with pending := some { c with reached := true } })
      applyReg (applyReg s .gclAdmin ix .atTime) .gclCycle ix .atTime
    else s

/-- A list takes over, once its base time and the running list's cycle boundary have come (R286 steps 4–6). A change
that stops a list that does not run has no effect. -/
def gclTakeover (p : Nat) (s : State) : State :=
  match (egAt s p).gate.pending with
  | none => s
  | some c =>
    let g := (egAt s p).gate
    let t := takeoverAt g c
    if c.reached && decide (t ≤ servedNow s) then
      if !c.enable && !g.running then modGate s p (fun g => { g with pending := none })
      else
        let s := modGate s p (fun g =>
          let g := if c.enable then
              { g with pending := none, running := true, oper := 1 - g.oper, len := c.len, cycle := c.cycle, start := t }
            else { g with pending := none, running := false, gates := 255 }
          g.follow (servedNow s))
        let s := egrRaise s p 0
        (List.range 8).foldl (fun s k => judgeHeads s p k) s
    else s

/-- GCL_TAKEOVER (R286). -/
def execGclTakeover (p : Nat) (s : State) : Host.Outcome State Fault Refusal := .next (gclTakeover p s)

end Sys2Proof.Machine
end

