-- ==== Sys2Proof/Machine/Time.lean ====
section
/-! DEFINITION. Network time: domain operations, served time, pulses out, captures in, snapshots, and values that take
effect at a served time (10/R322–R343, 00/R16). -/

namespace Sys2Proof.Machine

/-- Change the time block. -/
def withTime (s : State) (f : TimeState → TimeState) : State := { s with time := f s.time }

/-! ### Domain operations (R326–R328) -/

/-- Change a domain. -/
def modDomain (s : State) (d : Nat) (f : Domain → Domain) : State :=
  withTime s (fun t => { t with domains := setAt t.domains d (f (t.domains.getD d Domain.reset)) })

/-- A TIME_OP entry of the log (R328): operation (1 SET, 2 ADJUST, 3 RATE, 4 SEL, 5 SERVED_SET, 6 an ignored pulse),
domain, writer, tick, operands. -/
def logTimeOp (s : State) (op d : Nat) (req : Requester) (operands : List Byte) : State :=
  rimLog s 0x21 false (le 1 op ++ le 1 d ++ le 1 req.id ++ zeros 1 ++ le 8 s.time.tick ++ operands)

/-- The domain selected in force. -/
def selDomain (s : State) : Nat := fld s .timeCtl [] 31 31

/-- The selected domain's time now. -/
def selTime (s : State) : Int := (domainAt s (selDomain s)).timeAt s.time.tick

/-- Served time minus the selected domain, zero while served time is UNSET. -/
def residual (s : State) : Int := if s.time.set then s.time.served - selTime s else 0

/-- CONVERGED and the time event of KIND 3, when the residual has reached zero (R331). -/
def converged (before : Int) (s : State) : State :=
  if before ≠ 0 ∧ residual s = 0 then timeEventPost (raiseEv s .timeEvent [] [0]) 3 0 0 (servedRecord s) else s

/-- RESULT of TD_CTL. -/
def tdResult (s : State) (d r : Nat) : State := forceFld s .tdCtl [d] 23 20 r

/-- SET: the domain reads the operand time at tick N. -/
def tdSet (s : State) (req : Requester) (d : Nat) : State :=
  let sec := inForce s .tdSecLo [d] + inForce s .tdSecHi [d] * 2 ^ 32
  let ns := inForce s .tdNs [d]
  let frac := fld s .tdFrac [d] 15 0
  let n := inForce s .tdTickLo [d] + inForce s .tdTickHi [d] * 2 ^ 32
  if 999999999 < ns then tdResult s d 2
  else
    let t : Int := ((sec * 1000000000 + ns) * 2 ^ 32 + frac * 2 ^ 16 : Nat)
    let s := converged (residual s) (modDomain s d (fun x => { x with base := t, anch := n }))
    tdResult (logTimeOp s 1 d req (le 8 sec ++ le 4 ns ++ le 4 frac ++ le 8 n)) d 0

/-- ADJUST: the domain steps. -/
def tdAdjust (s : State) (req : Requester) (d : Nat) : State :=
  let ns := inForce s .tdAdjNs [d]
  let frac := fld s .tdAdjFrac [d] 15 0
  let s := converged (residual s)
    (modDomain s d (fun x => { x with base := x.base + sint 32 ns * nsUnit + ((frac * 2 ^ 16 : Nat) : Int) }))
  tdResult (logTimeOp s 2 d req (le 4 ns ++ le 4 frac)) d 0

/-- The rate limits of R327. -/
def rateLow : Nat := 0xCCC78EA0
def rateHigh : Nat := 0xCCD20AFA

/-- RATE: the domain goes on from now at the new rate, which is refused more than 100 ppm from nominal. -/
def tdRate (s : State) (req : Requester) (d : Nat) : State :=
  let r := inForce s .tdRateFrac [d] + inForce s .tdRateInt [d] * 2 ^ 32
  if r < rateLow ∨ rateHigh < r then tdResult (raiseEv s .timeEvent [] [2]) d 1
  else
    let n := s.time.tick
    let s := modDomain s d (fun x => ⟨x.timeAt n, n, r⟩)
    tdResult (logTimeOp s 3 d req (le 8 r)) d 0

/-- A write of TD_CTL: OP lands, and GO performs it. -/
def writeTdCtl (s : State) (req : Requester) (ix : List Nat) (v : Nat) : State :=
  let d := ix.getD 0 0
  let s := landWrite s .tdCtl ix v
  if bit v 31 then
    match bits v 30 28 with
    | 1 => tdSet s req d
    | 2 => tdAdjust s req d
    | 3 => tdRate s req d
    | _ => tdResult s d 2
  else s

/-- A write of TD_CTL that performs one operation. -/
def tdOp (op : Nat) (req : Requester) (off v : Nat) (s : State) : State :=
  guarded s req off [.tdCtl] (fun s _ ix => if bit v 31 && bits v 30 28 == op then writeTdCtl s req ix v else s)

/-- TD_SET (R326). -/
def execTdSet (req : Requester) (off v : Nat) (s : State) : Host.Outcome State Fault Refusal := .next (tdOp 1 req off v s)

/-- TD_ADJUST (R326). -/
def execTdAdjust (req : Requester) (off v : Nat) (s : State) : Host.Outcome State Fault Refusal :=
  .next (tdOp 2 req off v s)

/-- TD_RATE (R326). -/
def execTdRate (req : Requester) (off v : Nat) (s : State) : Host.Outcome State Fault Refusal := .next (tdOp 3 req off v s)

/-! ### Served time (R329–R333) -/

/-- The slew limit in force, in ppm. -/
def slewPpm (s : State) : Int := (max 1 (min 100 (fld s .timeCtl [] 7 0)) : Nat)

/-- Served time becomes SET (R329): the event of KIND 4. -/
def servedBecomesSet (s : State) : State :=
  let s := withTime s (fun t => { t with set := true })
  timeEventPost s 4 0 0 (servedRecord s)

/-- The first line port UP since reset makes served time SET. -/
def setByLink (s : State) : State := if s.time.set then s else servedBecomesSet s

/-- The first grid point of a schedule at or after a time. -/
def gridFrom (start period now : Nat) : Nat := if now ≤ start then start else start + cdiv (now - start) period * period

/-- A pin. -/
def pinAt (s : State) (p : Nat) : TimeOutPin := s.time.outs.getD p TimeOutPin.reset

/-- Change a pin. -/
def modPin (s : State) (p : Nat) (f : TimeOutPin → TimeOutPin) : State :=
  withTime s (fun t => { t with outs := setAt t.outs p (f (t.outs.getD p TimeOutPin.reset)) })

/-- Drive a pin. -/
def drivePin (s : State) (p : Nat) (high : Bool) : State :=
  if (pinAt s p).high == high then s else emit (modPin s p (fun x => { x with high := high })) (.timeOut p high)

/-- A pin's schedule takes effect (R341), at its START or, when that has passed, at once: a one-shot pulse now, a periodic
one from its first grid point at or after now. MODE 0 and 3 stop the pin and drive it inactive. -/
def pulseApply (s : State) (p : Nat) (c : Pulse) (late : Bool) : State :=
  let s := applyReg (applyReg (applyReg s .toutCtl [p] .atTime) .toutPeriod [p] .atTime) .toutWidth [p] .atTime
  if c.mode = 1 ∨ c.mode = 2 then
    let first := if !late then c.start else if c.mode = 1 then servedNow s
      else gridFrom c.start c.period (timeNsUp s.time.served)
    let s := modPin s p (fun x => { x with pending := none, running := some c, next := first })
    if (pinAt s p).ends.isNone then drivePin s p c.low else s
  else drivePin (modPin s p (fun x => { x with pending := none, running := none, ends := none })) p c.low

/-- What the step of the first SERVED_SET moves (R333): the pending nominal boundary, AT_TIME values whose time lies now
in the past, which take effect as of now, and periodic schedules. -/
def servedStepped (s : State) : State :=
  let now := servedNow s
  let up := timeNsUp s.time.served
  let s := if s.lid.opened then
      { s with lid := { s.lid with nextBoundary := nominalAfter (lenOf s.lid.epoch.cfg) now } } else s
  let s := (List.range 4).foldl (fun s p =>
    let s := match (pinAt s p).running with
      | some c => if c.mode = 2 then modPin s p (fun x => { x with next := gridFrom c.start c.period up }) else s
      | none => s
    match (pinAt s p).pending with
    | some c => if c.start < up then pulseApply s p c true else s
    | none => s) s
  (s.egress.ports.map (·.1)).foldl (fun s p =>
    match (egAt s p).gate.pending with
    | some c =>
      if !c.reached && decide (c.base < up) then
        gclBaseReached (modGate s p (fun g => { g with pending := some { c with base := now } })) (portIx p)
      else s
    | none => s) s

/-- The set of R330: served time becomes the selected domain's time, and SET. -/
def servedSet (s : State) (req : Requester) : State :=
  let s := withTime s (fun x => { x with served := selTime s })
  let s := logTimeOp s 5 (selDomain s) req (stampRecord s.time.tick s.time.served 2)
  servedStepped (servedBecomesSet s)

/-- A SERVED_SET with a given SEL is refused (R330): served time is SET, the domain is earlier, or the Skein holds a valid
record. -/
def setRefused (s : State) (sel : Nat) : Bool :=
  s.time.set || decide ((domainAt s sel).timeAt s.time.tick < s.time.served) || s.skein.ways.any (fun w => w.2.valid)

/-- A write of TIME_CTL: a change of SEL, the slew limit, and SERVED_SET; a refused set changes nothing. -/
def writeTimeCtl (s : State) (req : Requester) (v : Nat) : State :=
  if bit v 30 && setRefused s (bits v 31 31) then raiseEv s .timeEvent [] [1]
  else
    let t := landWrite s .timeCtl [] v
    let t := if selDomain t = selDomain s then t else converged (residual s) (logTimeOp t 4 (selDomain t) req (zeros 4))
    if bit v 30 then servedSet t req else t

/-- SERVED_SET (R330). -/
def execServedSet (req : Requester) (off v : Nat) (s : State) : Host.Outcome State Fault Refusal :=
  .next (guarded s req off [.timeCtl] (fun s _ _ => if bit v 30 then writeTimeCtl s req v else s))

/-- SEL_WRITE (R332). -/
def execSelWrite (req : Requester) (off v : Nat) (s : State) : Host.Outcome State Fault Refusal :=
  .next (guarded s req off [.timeCtl] (fun s _ _ => if bit v 30 then s else writeTimeCtl s req v))

/-- Clamp an integer to ±lim. -/
def clampTo (lim e : Int) : Int := max (-lim) (min lim e)

/-- The tick counter counts one tick and served time follows (R322, R329, R331). -/
def serveStep (s : State) : State :=
  let before := residual s
  let s := withTime s (fun t => { t with tick := t.tick + 1 })
  if s.time.set then
    let step : Int := (domainAt s (selDomain s)).rate
    let e := s.time.served + step - selTime s
    let s := withTime s (fun t => { t with served := t.served + step - clampTo (step * slewPpm s / 1000000) e })
    converged before s
  else withTime s (fun t => { t with served := t.served + (0xCCCCCCCD : Nat) })

/-! ### The reference (R323) -/

/-- TIME_REF_LOSS (R323). -/
def execTimeRefLoss (s : State) : Host.Outcome State Fault Refusal :=
  .next (if s.time.holdover then s else rimLog (withTime s (fun t => { t with holdover := true })) 0x24 false (le 4 0))

/-- TIME_REF_RESTORE (R323). -/
def execTimeRefRestore (s : State) : Host.Outcome State Fault Refusal :=
  .next (if s.time.holdover then rimLog (withTime s (fun t => { t with holdover := false })) 0x24 false (le 4 1) else s)

/-! ### Pulses out (R340, R341) -/

/-- The schedule that a write of TOUT_CTL takes with it. -/
def pulseOf (s : State) (p v : Nat) : Pulse :=
  let start := (inForce s .toutStartSlo [p] + inForce s .toutStartShi [p] * 2 ^ 32) * 1000000000
    + inForce s .toutStartNs [p]
  let period := max 100 (lastWritten s .toutPeriod [p])
  let width := max 8 (lastWritten s .toutWidth [p])
  let mode := if bits v 30 29 = 3 then 0 else bits v 30 29
  ⟨mode, bit v 28, start, period, if mode = 2 then min width (period - 8) else width⟩

/-- A write of TOUT_CTL: ARM 1 arms a schedule, at once when its START has passed; ARM 0 withdraws one. -/
def writeToutCtl (s : State) (ix : List Nat) (v : Nat) : State :=
  let p := ix.getD 0 0
  let s := landWrite s .toutCtl ix v
  if bit v 31 then
    let c := pulseOf s p v
    if c.start < timeNsUp s.time.served then pulseApply (raiseEv s .timeEvent [] [3]) p c true
    else modPin s p (fun x => { x with pending := some c })
  else modPin s p (fun x => { x with pending := none })

/-- TOUT_ARM (R341). -/
def execToutArm (req : Requester) (off v : Nat) (s : State) : Host.Outcome State Fault Refusal :=
  .next (guarded s req off [.toutCtl] (fun s _ ix => if bit v 31 then writeToutCtl s ix v else s))

/-- TOUT_WITHDRAW (R341). -/
def execToutWithdraw (req : Requester) (off v : Nat) (s : State) : Host.Outcome State Fault Refusal :=
  .next (guarded s req off [.toutCtl] (fun s _ ix => if bit v 31 then s else writeToutCtl s ix v))

/-- A pin's edge falls due: the pulse in progress ends, or the next one begins. -/
def timeOutEdge (p : Nat) (s : State) : State :=
  let x := pinAt s p
  let now := servedNow s
  let ended := match x.ends with | some t => decide (t ≤ now) | none => false
  if ended then
    let low := match x.running with | some c => c.low | none => !x.high
    drivePin (modPin s p (fun y => { y with ends := none })) p low
  else match x.running with
    | none => s
    | some c =>
      if x.next ≤ now then
        let stop := max (x.ends.getD 0) (x.next + c.width)
        let s := modPin s p (fun y => { y with
          ends := some stop,
          running := if c.mode = 2 then some c else none,
          next := y.next + c.period })
        drivePin s p (!c.low)
      else s

/-- TIME_OUT_EDGE (R340). -/
def execTimeOutEdge (p : Nat) (s : State) : Host.Outcome State Fault Refusal := .next (timeOutEdge p s)

/-- A value waiting for a served time takes effect (00/R16): a pin's schedule, or a port's gate list change, by the offset
of its control register. -/
def atTimeApply (off : Nat) (s : State) : State :=
  match locate off with
  | some (.toutCtl, [p]) =>
    match (pinAt s p).pending with
    | some c => if c.start ≤ servedNow s then pulseApply s p c false else s
    | none => s
  | some (.gclAdmin, ix) => gclBaseReached s ix
  | _ => s

/-- AT_TIME_APPLY (R16). -/
def execAtTimeApply (off : Nat) (s : State) : Host.Outcome State Fault Refusal := .next (atTimeApply off s)

/-! ### Captures in (R342) -/

/-- A TIME_IN pin. -/
def inAt (s : State) (p : Nat) : TimeInPin := s.time.ins.getD p TimeInPin.reset

/-- Change a TIME_IN pin. -/
def modIn (s : State) (p : Nat) (f : TimeInPin → TimeInPin) : State :=
  withTime s (fun t => { t with ins := setAt t.ins p (f (t.ins.getD p TimeInPin.reset)) })

/-- The pin captures edges of this kind. -/
def inSelects (s : State) (p : Nat) (rising : Bool) : Bool :=
  let e := fld s .tinCtl [p] 30 29
  fld s .tinCtl [p] 31 31 == 1 && (e == 3 || (if rising then e != 2 else e == 2))

/-- An edge on a TIME_IN pin. -/
def timeInEdge (p : Nat) (rising : Bool) (s : State) : State :=
  if !inSelects s p rising then s
  else
    let edge := if rising then 1 else 2
    if fld s .tinCtl [p] 28 28 = 1 then timeEventPost s 2 p edge (servedRecord s)
    else if (inAt s p).queue.length < 16 then
      let c : Capture := ⟨s.time.tick, servedSec s, servedNs s, (s.time.served % nsUnit).toNat / 65536, edge⟩
      modIn s p (fun x => { x with queue := x.queue ++ [c] })
    else raiseEv (modIn s p (fun x => { x with drops := sat 8 (x.drops + 1) })) .timeEvent [] [4]

/-- TIME_IN_EDGE (R342). -/
def execTimeInEdge (p : Nat) (rising : Bool) (s : State) : Host.Outcome State Fault Refusal := .next (timeInEdge p rising s)

/-- A write of TIN_POP: the oldest capture moves into the capture registers. -/
def writeTinPop (s : State) (ix : List Nat) (v : Nat) : State :=
  if bit v 0 then modIn s (ix.getD 0 0) (fun x => { x with shown := x.queue.head?, queue := x.queue.tail }) else s

/-- TIN_POP (R342). -/
def execTinPop (req : Requester) (off v : Nat) (s : State) : Host.Outcome State Fault Refusal :=
  .next (guarded s req off [.tinPop] (fun s _ ix => writeTinPop s ix v))

/-! ### Snapshot (R343) -/

/-- A write of SNAP_CTL: GO latches the tick and the three times at one tick. -/
def writeSnapCtl (s : State) (v : Nat) : State :=
  if bit v 31 then
    let n := s.time.tick
    withTime s (fun t => { t with snap := ⟨true, n, [(domainAt s 0).timeAt n, (domainAt s 1).timeAt n, t.served]⟩ })
  else s

/-- SNAPSHOT (R343). -/
def execSnapshot (req : Requester) (off v : Nat) (s : State) : Host.Outcome State Fault Refusal :=
  .next (guarded s req off [.snapCtl] (fun s _ _ => writeSnapCtl s v))

end Sys2Proof.Machine
end

