-- ==== Sys2Proof/Machine/Line.lean ====
section
/-! DEFINITION. Lanes, ports and macros: link attempts, drops, low-power idle, modes, loops, PRBS test and the lane window
(11/R344–R365, 15/R461). -/

namespace Sys2Proof.Machine

/-! ### Events of the line -/

/-- The first lane of the port that a lane belongs to. -/
def portOfLane (s : State) (l : Nat) : Nat := l - l % portLanes s l

/-- Raise a flag of the macro's LINE_EVENT; LINE_LAST names the port. -/
def lineRaise (s : State) (p flag : Nat) : State := forceReg (raiseEv s .lineEvent [p / 8] [flag]) .lineLast [p / 8] p

/-- A link event (Table 11-7): BEST_FOM at KIND 3, else FOM. -/
def linkEvent (s : State) (kind p cause : Nat) : State :=
  let ls := lanesOf s p
  let fom := ls.flatMap (fun l => le 1 (if kind = 3 then (laneAt s l).bestFom else (laneAt s l).fom))
  postEvent s 0 (le 1 kind ++ le 1 p ++ le 1 cause ++ le 1 (at_ (portAt s p).attempts 3 0 + at_ ls.length 7 4)
    ++ le 4 (servedSec s) ++ padTo 8 fom)

/-! ### Attempts (R350–R356) -/

/-- Rows of Table 11-4 for attempts 1 to 7 of a lane whose class is unknown. -/
def classRow (cls attempt : Nat) : Nat :=
  if cls = 7 then [3, 1, 5, 0, 2, 4, 6].getD ((attempt - 1) % 7) 3 else cls

/-- The preset of a row: what is requested of the partner, and what the lane's own transmitter takes when it is not
trained. -/
def rowPreset (row : Nat) : Nat := [1, 2, 2, 3, 4, 5, 5].getD row 5

/-- CTLE peaking start of a row, in 0.1 dB; RX_PRECODE AUTO requests precoding from row 3 on. -/
def rowPeaking (row : Nat) : Nat := [40, 70, 100, 130, 160, 190, 200].getD row 200

/-- Precoding settings in force: 0 off, 1 on, 2 as the partner asks or the row says; ignored in mode 9. -/
def txPrecode (s : State) (l : Nat) (asks : Bool) : Bool :=
  modeOf s l != 9 && (match fld s .laneCfg [l] 5 4 with | 0 => false | 1 => true | _ => asks)
def rxPrecode (s : State) (l attempt : Nat) : Bool :=
  modeOf s l != 9 && (match fld s .laneCfg [l] 3 2 with
    | 0 => false
    | 1 => true
    | _ => decide (3 ≤ classRow (fld s .laneLoss [l] 2 0) attempt))

/-- The starting settings of a row: CTLE peaking and DFE taps of zero. The transmitter taps of its preset and the FFE are
not in the spec: free values. -/
def presetSettings (row n : Nat) : Table Nat :=
  (List.range 5).map (fun i => (i, Config.freeValue (n + i) % 65536)) ++ [(256, rowPeaking row)]

/-- RETRAIN settings of a lane take effect; a LOSS_CLASS change discards its converged settings (R354). -/
def laneRetrain (s : State) (l : Nat) : State :=
  let old := fld s .laneLoss [l] 2 0
  let s := applyReg (applyReg (applyReg s .laneCfg [l] .retrain) .laneLoss [l] .retrain) .laneIndData [l] .retrain
  if fld s .laneLoss [l] 2 0 = old then s
  else modLane s l (fun x => { x with converged := false, storedSettings := [] })

/-- A lane starts from its converged settings, else from its row, with what the lane window has written. With training it
asks the partner for its row's preset, where it has no converged settings, and for precoding; without, its own transmitter
takes the preset of its row (R346, R350, R353). -/
def laneStart (s : State) (attempt : Nat) (train : Bool) (l : Nat) : State :=
  let s := laneRetrain s l
  let x := laneAt s l
  let row := classRow (fld s .laneLoss [l] 2 0) attempt
  let base := if x.converged then x.storedSettings else presetSettings row s.fresh
  let set := x.nextSettings.foldl (fun t e => tins t e.1 e.2) base
  let s := modLane s l (fun x => { x with
    settings := set, nextSettings := [], preset := if train then x.preset else rowPreset row })
  let s := { s with fresh := s.fresh + 5 }
  if !train then s
  else
    let s := if x.converged then s else emit s (.presetAsk l (rowPreset row))
    emit s (.precodeAsk l (rxPrecode s l attempt))

/-- The RS-FEC codeword length of a mode (Table 11-1). -/
def modeFec (mode : Nat) : Nat := if mode = 9 then 528 else 544

/-- The page a port advertises (Table 11-3). -/
def anPage (s : State) (p : Nat) : AnPage := ⟨modeOf s p, fld s .portCtl [p] 26 26, modeFec (modeOf s p), 0, false⟩

/-- Negotiation completes: the partner advertises the one ability of the port; a port in a near loop hears its own page. -/
def negotiated (s : State) (p : Nat) (abilities : List (Nat × Nat)) : Bool :=
  nearLoop s p || abilities.contains ((anPage s p).mode, (anPage s p).medium)

/-- An attempt of a port starts. -/
def attemptStart (s : State) (p : Nat) : State :=
  let s := applyReg (applyReg s .portCtl [p] .retrain) .portTrain [p] .retrain
  let s := modPort s p (fun x => { x with attempts := x.attempts + 1, attempting := true, since := s.time.tick })
  let s := if fld s .portCtl [p] 28 28 = 1 then emit s (.anPage p (anPage s p)) else s
  (lanesOf s p).foldl (fun s l => laneStart s (portAt s p).attempts (fld s .portCtl [p] 27 27 == 1) l) s

/-- A run of attempts starts; a port that leaves LINK_FAILED is no longer closed, and its shapers are set full (08/R268). -/
def runStart (s : State) (p : Nat) : State :=
  let s := if (portAt s p).state = 0 then fillShapers s p else s
  let s := modPort s p (fun x => { x with state := 1, attempts := 0 })
  let s := (lanesOf s p).foldl (fun s l => modLane s l (fun x => { x with bestFom := 0 })) s
  attemptStart s p

/-- A frame arriving at a port that stops delivering ends (R347). -/
def receiveStops (s : State) (p : Nat) : State :=
  ((s.frames.filter (fun e => e.2.origin == 0 && e.2.port == p && e.2.tail == .pending)).map (·.1)).foldl abortReceive s

/-- The port's lanes leave low-power idle. -/
def leaveLpi (s : State) (p : Nat) : State :=
  let s := (lanesOf s p).foldl (fun s l => modLane s l (fun x => { x with txLpi := false, rxLpi := false })) s
  modPort s p (fun x => { x with readySince := none })

/-- A port enters LINK_FAILED with a cause: receive stops, and what is queued to it is discarded (07/R261). The PCS of an
UP port still transmits when the host disables it, not when its macro powers down. -/
def failPort (s : State) (p cause : Nat) : State :=
  let pcs := (portAt s p).state == 2 && cause == 0 && macroUp s (p / 8)
  let s := if (portAt s p).state = 2 then receiveStops s p else s
  let s := leaveLpi (modPort s p (fun x => { x with state := 0, cause := cause, attempting := false })) p
  closeDiscard s p pcs

/-- A port in UP drops (R357): the frame it sends ends, receive stops, and a run of attempts starts. -/
def dropPort (s : State) (p cause : Nat) : State :=
  if (portAt s p).state ≠ 2 then s
  else
    let s := leaveLpi (cutSending (receiveStops s p) p false) p
    let s := modPort s p (fun x => { x with dropCause := cause, drops := min 4095 (x.drops + 1) })
    let s := linkEvent (lineRaise s p 1) 2 p cause
    runStart s p

/-- A lane of the port is in test. -/
def anyTest (s : State) (p : Nat) : Bool := (lanesOf s p).any (fun l => (laneAt s l).inTest)

/-- EN 1 takes effect: a port in LINK_FAILED with cause DISABLED runs. While a lane of it is in test, the write waits for
the last lane to leave (R363). -/
def enablePort (s : State) (p : Nat) : State :=
  if anyTest s p then modPort s p (fun x => { x with enWaits := true })
  else if (portAt s p).state == 0 && (portAt s p).cause == 0 && macroUp s (p / 8) then runStart s p
  else s

/-- A write of PORT_CTL (R356–R358). -/
def writePortCtl (s : State) (ix : List Nat) (v : Nat) : State :=
  let p := ix.getD 0 0
  let was := fld s .portCtl [p] 31 31
  let s := landWrite s .portCtl ix v
  if !isPort s p then s
  else
    let s := if was = 0 ∧ bit v 31 then enablePort s p
      else if was = 1 ∧ ¬ bit v 31 then
        let s := modPort s p (fun x => { x with enWaits := false })
        if (portAt s p).state = 0 then modPort s p (fun x => { x with cause := 0 }) else failPort s p 0
      else s
    let s := if bit v 30 && (portAt s p).state == 0 && (portAt s p).cause == 1 then runStart s p else s
    if bit v 29 then dropPort s p 8 else s

/-- PORT_ENABLE (R356): a write with EN 1 and neither RETRY nor RETRAIN. -/
def execPortEnable (req : Requester) (off v : Nat) (s : State) : Host.Outcome State Fault Refusal :=
  .next (guarded s req off [.portCtl] (fun s _ ix =>
    if bit v 31 && !bit v 30 && !bit v 29 then writePortCtl s ix v else s))

/-- PORT_DISABLE (R356): a write with EN 0 and neither RETRY nor RETRAIN. -/
def execPortDisable (req : Requester) (off v : Nat) (s : State) : Host.Outcome State Fault Refusal :=
  .next (guarded s req off [.portCtl] (fun s _ ix =>
    if !bit v 31 && !bit v 30 && !bit v 29 then writePortCtl s ix v else s))

/-- RETRY (R358). -/
def execRetry (req : Requester) (off v : Nat) (s : State) : Host.Outcome State Fault Refusal :=
  .next (guarded s req off [.portCtl] (fun s _ ix => if bit v 30 then writePortCtl s ix v else s))

/-- RETRAIN (R357). -/
def execRetrain (req : Requester) (off v : Nat) (s : State) : Host.Outcome State Fault Refusal :=
  .next (guarded s req off [.portCtl] (fun s _ ix => if bit v 29 && !bit v 30 then writePortCtl s ix v else s))

/-- 10 ms after a failed attempt the next one starts. -/
def nextAttempt (p : Nat) (s : State) : State :=
  let x := portAt s p
  if isPort s p && x.state == 1 && !x.attempting && decide (x.since + ticksOfNs 10000000 ≤ s.time.tick) then
    attemptStart s p else s

/-- ATTEMPT_START (R356). -/
def execAttemptStart (p : Nat) (s : State) : Host.Outcome State Fault Refusal := .next (nextAttempt p s)

/-- The figure of merit of an SNR in units of 2^-16 dB (R352). -/
def fomOf (snr : Int) : Nat := min 255 (8 * snr / 65536).toNat

/-- A figure of merit is measured. -/
def takeFom (x : LaneState) (snr : Int) : LaneState := { x with fom := fomOf snr, bestFom := max x.bestFom (fomOf snr) }

/-- A training request that the device supports (Table 11-3). -/
def trainSupported : TrainRequest → Bool
  | .preset n => decide (1 ≤ n ∧ n ≤ 5)
  | .coefficient tap update => decide (-3 ≤ tap ∧ tap ≤ 1 ∧ update ≤ 2)

/-- The partner's training requests are answered; a preset asked for is the one the transmitter takes. -/
def answerRequests (s : State) (l : Nat) (rs : List TrainRequest) : State :=
  rs.foldl (fun s r =>
    let s := emit s (.trainAnswer l r (trainSupported r))
    match r with
    | .preset n => if trainSupported r then modLane s l (fun x => { x with preset := n }) else s
    | _ => s) s

/-- What an attempt leaves of one lane. -/
def measureLane (s : State) (l attempt : Nat) (train : Bool) (r : LaneResult) : State :=
  let s := if train then answerRequests s l r.requests else s
  modLane s l (fun x => { takeFom x r.snr with
    signal := r.signal, cdr := r.cdr, txPre := txPrecode s l r.asksPre, rxPre := rxPrecode s l attempt,
    settings := r.settings })

/-- What an attempt leaves of its lanes. -/
def measure (s : State) (p : Nat) (rs : List LaneResult) : State :=
  ((lanesOf s p).zip rs).foldl (fun s e =>
    measureLane s e.1 (portAt s p).attempts (fld s .portCtl [p] 27 27 == 1) e.2) s

/-- An attempt fails: at RETRAIN_MAX the port has exhausted its run. -/
def attemptFails (s : State) (p : Nat) (anFail : Bool) : State :=
  let s := if anFail then modPort s p (fun x => { x with dropCause := 9 }) else s
  if max 1 (fld s .portTrain [p] 31 28) ≤ (portAt s p).attempts then
    linkEvent (lineRaise (failPort s p 1) p 2) 3 p 1
  else modPort s p (fun x => { x with attempting := false, since := s.time.tick })

/-- A port enters UP (R356, R358, 10/R329). -/
def portComesUp (s : State) (p : Nat) : State :=
  let s := modPort s p (fun x => { x with
    state := 2, attempting := false, since := s.time.tick, idleSince := s.time.tick, uncorr := 0, readySince := none })
  let s := (lanesOf s p).foldl (fun s l =>
    modLane s l (fun x => { x with converged := true, storedSettings := x.settings })) s
  setByLink (linkEvent (lineRaise s p 0) 1 p (portAt s p).dropCause)

/-- An attempt of a port runs; in loop 3 its port is held in TRAINING. -/
def attemptRuns (s : State) (p : Nat) : Bool :=
  isPort s p && (portAt s p).state == 1 && (portAt s p).attempting && loopOf s p != 3

/-- ATTEMPT_MS has expired since the attempt began: below 100 acts as 100. -/
def attemptOver (s : State) (p : Nat) : Bool :=
  decide ((portAt s p).since + ticksOfNs (max 100 (fld s .portTrain [p] 15 0) * 1000000) ≤ s.time.tick)

/-- Negotiation is not asked for, or completes. -/
def anDone (s : State) (p : Nat) (abilities : List (Nat × Nat)) : Bool :=
  fld s .portCtl [p] 28 28 == 0 || negotiated s p abilities

/-- An attempt ends within ATTEMPT_MS: the abilities the partner advertised, whether training ended with receiver ready on
both sides, whether alignment and FEC lock came within 10 ms, and what each lane saw. -/
def attemptEnd (p : Nat) (an : List (Nat × Nat)) (lt locked : Bool) (rs : List LaneResult) (s : State) : State :=
  if !attemptRuns s p || attemptOver s p then s
  else
    let s := measure s p rs
    let anOk := anDone s p an
    let ok := anOk && (fld s .portCtl [p] 27 27 == 0 || lt)
    let floor := fld s .portTrain [p] 23 16
    if ok && (lanesOf s p).all (fun l => decide (floor ≤ (laneAt s l).fom)) && locked then portComesUp s p
    else attemptFails s p (!anOk)

/-- PORT_ATTEMPT_END (R356). -/
def execPortAttemptEnd (p : Nat) (an : List (Nat × Nat)) (lt locked : Bool) (rs : List LaneResult) (s : State) :
    Host.Outcome State Fault Refusal := .next (attemptEnd p an lt locked rs s)

/-- ATTEMPT_MS expires: the attempt fails, its lanes measured, with cause AN_FAIL when negotiation had not completed. -/
def attemptTimeout (p : Nat) (an : List (Nat × Nat)) (rs : List LaneResult) (s : State) : State :=
  if attemptRuns s p && attemptOver s p then attemptFails (measure s p rs) p (!anDone s p an) else s

/-- ATTEMPT_TIMEOUT (R356). -/
def execAttemptTimeout (p : Nat) (an : List (Nat × Nat)) (rs : List LaneResult) (s : State) :
    Host.Outcome State Fault Refusal := .next (attemptTimeout p an rs s)

/-! ### Drops while UP (R357, R352) -/

/-- Loss of signal (4), of alignment (5) or a remote fault (7) on an UP port; in a near loop the partner is not heard. -/
def linkDrop (p cause : Nat) (s : State) : State :=
  if portUp s p && !nearLoop s p && (cause == 4 || cause == 5 || cause == 7) then
    let s := if cause = 4 then (lanesOf s p).foldl (fun s l => modLane s l (fun x => { x with signal := false })) s else s
    dropPort s p cause
  else s

/-- LINK_DROP (R357). -/
def execLinkDrop (p cause : Nat) (s : State) : Host.Outcome State Fault Refusal := .next (linkDrop p cause s)

/-- The end of a 1 ms FEC interval: codewords corrected and uncorrectable outside frames, and symbol errors of each lane,
are counted, and too many uncorrectable codewords drop the port. -/
def fecIntervalEnd (p corr uncorr : Nat) (sym : List Nat) (s : State) : State :=
  if !portUp s p || decide (s.time.tick < (portAt s p).since + ticksOfNs 1000000) then s
  else
    let s := bump (bump s (p / 32 + 1) (p % 32 * 16 + 6) corr) (p / 32 + 1) (p % 32 * 16 + 7) uncorr
    let s := ((lanesOf s p).zip sym).foldl (fun s e => bump s (e.1 / 32 + 1) (0x200 + e.1 % 32) e.2) s
    let n := (portAt s p).uncorr + uncorr
    let s := modPort s p (fun x => { x with uncorr := 0, since := x.since + ticksOfNs 1000000 })
    let limit := fld s .portFec [p] 15 0
    if limit ≠ 0 ∧ limit < n then dropPort s p 6 else s

/-- FEC_INTERVAL_END (R357). -/
def execFecIntervalEnd (p corr uncorr : Nat) (sym : List Nat) (s : State) : Host.Outcome State Fault Refusal :=
  .next (fecIntervalEnd p corr uncorr sym s)

/-- The receiver of a lane has frozen adaptation and FOM (R351, R360). -/
def frozen (s : State) (l : Nat) : Bool := (laneAt s l).rxLpi && fld s .portCtl [portOfLane s l] 24 24 == 1

/-- Adaptation moves the FFE and DFE taps of a lane, and nothing else of its settings (R351). -/
def adapt (set taps : Table Nat) : Table Nat :=
  (taps.filter (fun e => e.1 / 256 == 2 || e.1 / 256 == 3)).foldl (fun t e => tins t e.1 (e.2 % 65536)) set

/-- The figure of merit of an UP lane is measured, and its receiver has adapted; both are frozen in receive LPI. -/
def fomMeasure (l : Nat) (snr : Int) (taps : Table Nat) (s : State) : State :=
  if l < 256 ∧ portUp s (portOfLane s l) ∧ ¬ frozen s l then
    modLane s l (fun x => { takeFom x snr with settings := adapt x.settings taps })
  else s

/-- FOM_MEASURE (R352). -/
def execFomMeasure (l : Nat) (snr : Int) (taps : Table Nat) (s : State) : Host.Outcome State Fault Refusal :=
  .next (fomMeasure l snr taps s)

/-! ### Low-power idle (R360) -/

/-- The head of a class is a ready frame (08/R264). -/
def classReady (s : State) (p c : Nat) : Bool :=
  match (eqAt s (eqNum p c)).head with
  | none => false
  | some x => match frameAt s x.frame with
    | none => false
    | some f => partReady s p c x f

/-- A port has a frame ready or in transmission. -/
def portBusy (s : State) (p : Nat) : Bool := (egAt s p).sending.isSome || (List.range 8).any (classReady s p)

/-- The transmit direction of a port enters or leaves LPI; in a near loop the port hears its own signal. -/
def setTxLpi (s : State) (p : Nat) (b : Bool) : State :=
  (lanesOf s p).foldl (fun s l => modLane s l (fun x => { x with
    txLpi := b, rxLpi := if nearLoop s p then b else x.rxLpi })) s

/-- What a tick does to the transmit direction of an UP port: idle time is kept, and a port in LPI that has a frame ready
or may be in LPI no longer leaves it. -/
def lpiTick (s : State) (p : Nat) : State :=
  if !portUp s p then s
  else
    let busy := portBusy s p
    let s := if busy then modPort s p (fun x => { x with idleSince := s.time.tick }) else s
    if (laneAt s p).txLpi && (busy || fld s .portCtl [p] 25 25 == 0) then
      modPort (setTxLpi s p false) p (fun x => { x with readySince := some s.time.tick })
    else s

/-- LPI_IDLE has passed with nothing to send. -/
def lpiEnter (p : Nat) (s : State) : State :=
  let idle := max 1 (fld s .portLpi [p] 31 16)
  if portUp s p && fld s .portCtl [p] 25 25 == 1 && !portBusy s p && !(egAt s p).gate.running &&
      decide ((portAt s p).idleSince + ticksOfNs (idle * 1000) ≤ s.time.tick) then
    setTxLpi s p true
  else s

/-- LPI_ENTER (R360). -/
def execLpiEnter (p : Nat) (s : State) : Host.Outcome State Fault Refusal := .next (lpiEnter p s)

/-- LPI_WAKE has passed since a frame became ready: the scheduler may pick again. -/
def lpiWake (p : Nat) (s : State) : State :=
  let us := max (fld s .portLpi [p] 15 0) (Config.pcsWakeUs (modeOf s p))
  match (portAt s p).readySince with
  | some t => if t + ticksOfNs (us * 1000) ≤ s.time.tick then modPort s p (fun x => { x with readySince := none }) else s
  | none => s

/-- LPI_WAKE (R360). -/
def execLpiWake (p : Nat) (s : State) : Host.Outcome State Fault Refusal := .next (lpiWake p s)

/-- The partner signals LPI, or stops. -/
def rxLpi (p : Nat) (b : Bool) (s : State) : State :=
  if portUp s p && !nearLoop s p then (lanesOf s p).foldl (fun s l => modLane s l (fun x => { x with rxLpi := b })) s
  else s

/-- LPI_RX (R360). -/
def execLpiRx (p : Nat) (s : State) : Host.Outcome State Fault Refusal := .next (rxLpi p true s)

/-- RX_LPI_EXIT (R360). -/
def execRxLpiExit (p : Nat) (s : State) : Host.Outcome State Fault Refusal := .next (rxLpi p false s)

/-! ### Modes (R345) -/

/-- Every port of a macro is in LINK_FAILED. -/
def allFailed (s : State) (m : Nat) : Bool := (macroPorts s m).all (fun p => (portAt s p).state == 0)

/-- The lanes of a port carry different LOOP values (R361). -/
def loopsDiffer (s : State) (p : Nat) : Bool :=
  (lanesOf s p).any (fun l => fld s .laneCfg [l] 28 27 != fld s .laneCfg [p] 28 27)

/-- A mode takes effect: every port of it is in LINK_FAILED with cause DISABLED, and those whose EN is 1 run. -/
def takeMode (s : State) (m mode : Nat) : State :=
  let changed := fld s .macroMode [m] 3 0 != mode
  let s := landWrite s .macroMode [m] mode
  let s := (List.range 8).foldl (fun s i =>
    let s := modPort s (m * 8 + i) (fun x => { x with state := 0, cause := 0, attempting := false, enWaits := false })
    if changed then modLane s (m * 8 + i) (fun x => { x with converged := false, storedSettings := [] }) else s) s
  let s := (macroPorts s m).foldl (fun s p => if loopsDiffer s p then lineRaise s p 5 else s) s
  let s := linkEvent s 4 (m * 8) mode
  (macroPorts s m).foldl (fun s p => if fld s .portCtl [p] 31 31 = 1 then enablePort s p else s) s

/-- A write of MACRO_MODE: refused for modes 10–15 or while a port is not in LINK_FAILED; held while the macro is powered
down (19/R532). -/
def writeMacroMode (s : State) (ix : List Nat) (v : Nat) : State :=
  let m := ix.getD 0 0
  let mode := bits v 3 0
  if 9 < mode ∨ ¬ allFailed s m then lineRaise s (m * 8) 3
  else if macroUp s m then takeMode s m mode
  else
    let c := regCell s .macroMode [m]
    let s := setCell s (RegName.addr .macroMode [m]) { c with written := BitVec.ofNat 32 mode }
    { s with line := { s.line with heldModes := tins s.line.heldModes m mode } }

/-- MACRO_MODE_WRITE (R345). -/
def execMacroModeWrite (req : Requester) (off v : Nat) (s : State) : Host.Outcome State Fault Refusal :=
  .next (guarded s req off [.macroMode] (fun s _ ix => writeMacroMode s ix v))

/-! ### Loops (R361, R362) -/

/-- A write of LANE_CFG: a change of LOOP is logged; it drops an UP port whose loop it changes. -/
def writeLaneCfg (s : State) (req : Requester) (ix : List Nat) (v : Nat) : State :=
  let l := ix.getD 0 0
  let p := portOfLane s l
  let old := loopOf s p
  let was := fld s .laneCfg [l] 28 27
  let s := landWrite s .laneCfg ix v
  if bits v 28 27 = was then s
  else
    let s := rimLog s 0x22 false (le 2 l ++ le 1 (bits v 28 27) ++ le 1 req.id)
    let s := if loopsDiffer s p then lineRaise s p 5 else s
    if loopOf s p = old then s else dropPort s p 8

/-- LOOP_WRITE (R361). -/
def execLoopWrite (req : Requester) (off v : Nat) (s : State) : Host.Outcome State Fault Refusal :=
  .next (guarded s req off [.laneCfg] (fun s _ ix => writeLaneCfg s req ix v))

/-! ### PRBS test (R363–R365) -/

/-- Thousandths of a bit that a lane carries in a tick, in the mode in force. -/
def laneBits (s : State) (l : Nat) : Nat :=
  match modeOf s l with
  | 0 | 1 | 2 | 3 => 170000
  | 4 | 5 | 6 | 7 => 85000
  | 8 => 42500
  | _ => 20625

/-- Bits the checker has compared so far. -/
def prbsBitsNow (s : State) (l : Nat) : Nat :=
  let x := laneAt s l
  if x.lock then x.prbsBits + (s.time.tick - x.lockTick) * laneBits s l / 1000 else x.prbsBits

/-- The counts so far are kept, and counting goes on from now. -/
def settlePrbs (s : State) (l : Nat) : State :=
  let n := prbsBitsNow s l
  modLane s l (fun x => { x with prbsBits := wrap 64 n, lockTick := s.time.tick })

/-- A lane leaves test; when it was its port's last, an EN 1 that waited takes effect, and else the port's cause is what it
was. -/
def leaveTest (s : State) (l : Nat) : State :=
  let s := modLane (settlePrbs s l) l (fun x => { x with inTest := false, lock := false })
  let p := portOfLane s l
  if anyTest s p then s
  else
    let waits := (portAt s p).enWaits
    let s := modPort s p (fun x => { x with
      enWaits := false, cause := if waits then 0 else if x.cause = 2 then x.testCause else x.cause })
    if waits then enablePort s p else s

/-- One bit of a lane's generator is inverted; a checker that is locked to it through the lane's serial loop sees it. -/
def injectBit (s : State) (l : Nat) : State :=
  modLane s l (fun x => { x with
    injCount := sat 32 (x.injCount + 1),
    prbsErr := if x.lock && loopOf s (portOfLane s l) == 2 then sat 32 (x.prbsErr + 1) else x.prbsErr })

/-- The generator of a lane in test runs with an injection mode. -/
def injects (s : State) (l mode : Nat) : Bool :=
  (laneAt s l).inTest && fld s .laneTest [l] 30 30 == 1 && fld s .laneTest [l] 18 17 == mode

/-- What sets the generator's pace of injections: in test, GEN_EN, INJ and INJ_LOG2. -/
def genOf (s : State) (l : Nat) : Bool × Nat × Nat × Nat :=
  ((laneAt s l).inTest, fld s .laneTest [l] 30 30, fld s .laneTest [l] 18 17, fld s .laneTest [l] 16 12)

/-- The checker stops: it is no longer locked, and its counts stay. -/
def checkerStops (s : State) (l : Nat) : State :=
  if (laneAt s l).lock then modLane (settlePrbs s l) l (fun x => { x with lock := false }) else s

/-- A write of LANE_TEST: TEST_EN, taken only while the port is in LINK_FAILED; CLR; INJ_ONE. -/
def writeLaneTest (s : State) (ix : List Nat) (v : Nat) : State :=
  let l := ix.getD 0 0
  let p := portOfLane s l
  let was := (laneAt s l).inTest
  let old := genOf s l
  let refused := bit v 31 && !was && (portAt s p).state != 0
  let s := landWrite s .laneTest ix (if refused then withBit v 31 false else v)
  let s := if refused then lineRaise s p 4
    else if bit v 31 && !was then
      modPort (modLane s l (fun x => { x with inTest := true })) p (fun x => { x with
        cause := 2, testCause := if x.cause = 2 then x.testCause else x.cause })
    else if !bit v 31 && was then leaveTest s l else s
  let s := if bit v 28 then
      modLane s l (fun x => { x with prbsErr := 0, prbsBits := 0, lockTick := s.time.tick, lostLock := false })
    else s
  let s := if bit v 29 then s else checkerStops s l
  let s := if old = genOf s l then s
    else modLane s l (fun x => { x with genTick := s.time.tick, injDone := 0 })
  if bit v 27 && injects s l 1 then injectBit s l else s

/-- TEST_EN_WRITE (R363): a write of LANE_TEST with neither CLR nor INJ_ONE. -/
def execTestEnWrite (req : Requester) (off v : Nat) (s : State) : Host.Outcome State Fault Refusal :=
  .next (guarded s req off [.laneTest] (fun s _ ix => if bit v 28 || bit v 27 then s else writeLaneTest s ix v))

/-- PRBS_CLR (R364). -/
def execPrbsClr (req : Requester) (off v : Nat) (s : State) : Host.Outcome State Fault Refusal :=
  .next (guarded s req off [.laneTest] (fun s _ ix => if bit v 28 then writeLaneTest s ix v else s))

/-- INJ_ONE (R365). -/
def execInjOne (req : Requester) (off v : Nat) (s : State) : Host.Outcome State Fault Refusal :=
  .next (guarded s req off [.laneTest] (fun s _ ix => if bit v 27 && !bit v 28 then writeLaneTest s ix v else s))

/-- The pattern in force of a PAT field: 6 and 7 act as 5 in mode 9. -/
def patternOf (s : State) (l hi lo : Nat) : Nat :=
  let pat := fld s .laneTest [l] hi lo
  if modeOf s l = 9 ∧ 6 ≤ pat then 5 else pat

/-- The exponents of a pattern's polynomial (Table 11-10): each bit is the sum of the bits that many places before it.
PRBS13Q and PRBS31Q are the Gray-mapped PRBS13 and PRBS31 (IEEE 802.3). -/
def prbsTaps (pat : Nat) : List Nat :=
  match pat with
  | 0 => [7, 6]
  | 1 => [9, 5]
  | 2 | 6 => [13, 12, 2, 1]
  | 3 => [15, 14]
  | 4 => [23, 18]
  | _ => [31, 28]

/-- The bits are a stretch of the pattern. -/
def ofPattern (pat : Nat) (bits : List Bool) : Bool :=
  bits.any id && ((List.range bits.length).drop ((prbsTaps pat).getD 0 0)).all (fun i =>
    bits.getD i false == (prbsTaps pat).foldl (fun x k => x != bits.getD (i - k) false) false)

/-- Bits of a symbol: Gray mapping of two bits to a PAM4 level, one bit in mode 9 (R346). -/
def symbolBits (nrz : Bool) (y : Nat) : List Bool :=
  if nrz then [y % 2 == 1] else match y % 4 with
    | 0 => [false, false]
    | 1 => [false, true]
    | 2 => [true, true]
    | _ => [true, false]

/-- The data bits of symbols at a lane's input: its polarity undone, then its precoding 1/(1+D) mod 4, then Gray mapping
(R346). -/
def receivedBits (s : State) (l : Nat) (symbols : List Nat) : List Bool :=
  let nrz := modeOf s l == 9
  let top := if nrz then 1 else 3
  let ys := if fld s .laneCfg [l] 6 6 = 1 then symbols.map (fun y => top - y % (top + 1)) else symbols
  let zs := if (laneAt s l).rxPre && !nrz then ys.zipWith (fun a b => (a + b) % 4) (ys.drop 1) else ys
  zs.flatMap (symbolBits nrz)

/-- The checker sees 64 consecutive error-free bits of its pattern: in its serial loop those of its own generator, else
those at its input (R364). -/
def seesPattern (s : State) (l : Nat) (symbols : List Nat) : Bool :=
  let pat := patternOf s l 21 19
  if loopOf s (portOfLane s l) = 2 then
    fld s .laneTest [l] 30 30 == 1 && prbsTaps (patternOf s l 24 22) == prbsTaps pat
      && fld s .laneCfg [l] 7 7 == fld s .laneCfg [l] 6 6 && (laneAt s l).txPre == (laneAt s l).rxPre
  else
    let bits := receivedBits s l symbols
    decide (64 ≤ bits.length) && ofPattern pat (bits.drop (bits.length - 64))

/-- The checker of a lane in test locks. -/
def prbsLock (l : Nat) (symbols : List Nat) (s : State) : State :=
  let x := laneAt s l
  if x.inTest && fld s .laneTest [l] 29 29 == 1 && !x.lock && seesPattern s l symbols then
    modLane s l (fun x => { x with lock := true, lockTick := s.time.tick })
  else s

/-- PRBS_LOCK (R364). -/
def execPrbsLock (l : Nat) (symbols : List Nat) (s : State) : Host.Outcome State Fault Refusal :=
  .next (prbsLock l symbols s)

/-- A locked checker counts the bit errors it sees within 1,024 bits; after 64 it loses lock and searches again. -/
def prbsLostLock (l errors : Nat) (s : State) : State :=
  if (laneAt s l).lock then
    let s := modLane s l (fun x => { x with prbsErr := sat 32 (x.prbsErr + errors) })
    if errors < 64 then s
    else modLane (settlePrbs s l) l (fun x => { x with lock := false, lostLock := true })
  else s

/-- PRBS_LOST_LOCK (R364). -/
def execPrbsLostLock (l errors : Nat) (s : State) : Host.Outcome State Fault Refusal := .next (prbsLostLock l errors s)

/-- Injections due so far: one for each 2^INJ_LOG2 bits generated, with INJ_LOG2 below 10 acting as 10. -/
def injectionsDue (s : State) (l : Nat) : Nat :=
  (s.time.tick - (laneAt s l).genTick) * laneBits s l / 1000 / 2 ^ max 10 (fld s .laneTest [l] 16 12)

/-- The generator inverts one bit when 2^INJ_LOG2 more bits have been generated. -/
def periodicInjection (l : Nat) (s : State) : State :=
  if injects s l 2 && decide ((laneAt s l).injDone < injectionsDue s l) then
    modLane (injectBit s l) l (fun x => { x with injDone := x.injDone + 1 })
  else s

/-- What a lane's transmitter sends (Tables 11-5 and 11-9): in LINK_FAILED idle at its last preset, or the PRBS in test; in
an attempt negotiation and training frames, and idle between attempts; when UP frames and idle, or LPI. -/
def laneSends (s : State) (l : Nat) : LaneSignal :=
  let p := portOfLane s l
  let x := laneAt s l
  if loopOf s p = 3 then .returned
  else match (portAt s p).state with
    | 0 => if x.inTest && fld s .laneTest [l] 30 30 == 1 then .prbs else .idle
    | 1 => if (portAt s p).attempting then .training else .idle
    | _ => if x.txLpi then .lpi else .frames

/-- PERIODIC_INJECTION (R365). -/
def execPeriodicInjection (l : Nat) (s : State) : Host.Outcome State Fault Refusal := .next (periodicInjection l s)

/-! ### The lane window (15/R461) -/

/-- An index that a target of the lane window has. -/
def laneIndexOk (target i : Nat) : Bool :=
  match target with
  | 0 => decide (i < 5)
  | 1 => i == 0
  | 4 => decide (i < 8)
  | 2 | 3 => true
  | _ => false

/-- A write of LANE_IND_CTL: GO reads the setting in force or writes the one that the next attempt starts from. The word
that shows a row of Table 11-4 is not laid out in the spec: a free value. -/
def writeLaneInd (s : State) (ix : List Nat) (v : Nat) : State :=
  let l := ix.getD 0 0
  let s := landWrite s .laneIndCtl ix v
  if !bit v 31 then s
  else
    let a := inForce s .laneIndAddr ix
    let target := bits a 31 28
    let i := bits a 7 0
    let trains := (portAt s (portOfLane s l)).state == 1 && (portAt s (portOfLane s l)).attempting
    let s :=
      if !laneIndexOk target i then forceFld s .laneIndCtl ix 23 20 2
      else if bit v 30 then
        if target = 4 then forceFld s .laneIndCtl ix 23 20 4
        else if trains then forceFld s .laneIndCtl ix 23 20 15
        else
          let w := lastWritten s .laneIndData ix % 65536
          forceFld (modLane s l (fun x => { x with nextSettings := tins x.nextSettings (target * 256 + i) w }))
            .laneIndCtl ix 23 20 0
      else
        let (row, s) := if target = 4 then drawFree s else (0, s)
        let w := if target = 4 then row else tget 0 (laneAt s l).settings (target * 256 + i)
        forceFld (forceReg s .laneIndData ix (w % 65536)) .laneIndCtl ix 23 20 0
    if bit v 29 then forceFld s .laneIndAddr ix 7 0 (i + 1) else s

/-- LANE_IND_GO (R461). -/
def execLaneIndGo (req : Requester) (off v : Nat) (s : State) : Host.Outcome State Fault Refusal :=
  .next (guarded s req off [.laneIndCtl] (fun s _ ix => writeLaneInd s ix v))

end Sys2Proof.Machine
end

