-- ==== Sys2Proof/Machine/Policer.lean ====
section
/-! DEFINITION. The meanings of POLICER_METER and POL_IND_GO (08/R271–R280). -/

namespace Sys2Proof.Machine

/-- A policer. -/
def polAt (s : State) (p : Nat) : Policer := tget Policer.reset s.egress.policers p

/-- Replace a policer. -/
def setPol (s : State) (p : Nat) (x : Policer) : State :=
  { s with egress := { s.egress with policers := tins s.egress.policers p x } }

/-- A policer meters: EN is 1 and its state has not been lost (R275, R280). -/
def Policer.on (p : Policer) : Bool := bit p.word0 31 && !p.failed

/-- Both buckets brought up to date (R271). -/
def Policer.update (p : Policer) (now : Nat) : Policer :=
  { p with tc := p.tc.update p.cir p.cbs now, te := p.te.update p.eir p.ebs now }

/-- Colours. -/
inductive Colour where
  | green | yellow | red
  deriving DecidableEq, Repr

/-- meter(p, b, now) of R277 on buckets that are up to date. -/
def Policer.meter (p : Policer) (b : Nat) : Colour × Policer :=
  let n : Int := ((b * byteUnit : Nat) : Int)
  if bit p.word0 30 then
    if n ≤ p.tc.tokens then (.green, { p with tc := p.tc.spend b })
    else if n ≤ p.te.tokens then (.yellow, { p with te := p.te.spend b })
    else (.red, p)
  else
    if p.te.tokens < n then (.red, p)
    else if p.tc.tokens < n then (.yellow, { p with te := p.te.spend b })
    else (.green, { p with tc := p.tc.spend b, te := p.te.spend b })

/-- The DSCP of the IP header at an offset written; the IPv4 header checksum follows (06/R191 step 4, R193). -/
def setDscp (l : List Byte) (off dscp : Nat) : List Byte :=
  if byteAt l off / 16 = 4 then
    let w := beAt l off 2
    let w' := withBits w 7 2 dscp
    let c := beAt l (off + 10) 2
    patch (patch l off (be 2 w')) (off + 10) (be 2 (cksAdjust c w w'))
  else patch l off (be 2 (withBits (beAt l off 2) 11 6 dscp))

/-- How many last bytes two byte strings share. -/
def sharedTail (a b : List Byte) : Nat :=
  ((a.reverse.zip b.reverse).takeWhile (fun x => x.1 == x.2)).length

/-- Rewrite's result for the tail: FCS_DIFF, CHG_END and whether anything changed (06/R195). -/
def Frame.settleFcs (f : Frame) : Frame :=
  let n := sharedTail f.rx f.data
  if f.rx = f.data then { f with modified := false, fcsDiff := 0, chgEnd := 0 }
  else { f with
    modified := true, chgEnd := f.data.length - n,
    fcsDiff := Nat.xor (crcReg (f.rx.take (f.rx.length - n))) (crcReg (f.data.take (f.data.length - n))) }

/-- A frame passes its policer remarked or not: it waits for its first cell. -/
def policerPass (s : State) (id : Nat) (dscp : Option Nat) : State :=
  modFrame s id (fun f =>
    let f := { f with stage := .admitting }
    match dscp, f.innerOff with
    | some d, some o => { f with data := setDscp f.data o d }.settleFcs
    | _, _ => f)

/-- A frame is dropped by its policer (R278). -/
def policerDrop (s : State) (id : Nat) : State := discardHead (cntDev s 0x83) id 5

/-- What a colour does to the frame (R278). -/
def colourAct (s : State) (id p : Nat) (x : Policer) (c : Colour) : State :=
  match c with
  | .green => policerPass (cntDev (setPol s p x) 0x80) id none
  | .yellow =>
    let s := cntDev (setPol s p x) 0x81
    match bits x.word0 29 28 with
    | 0 => policerPass s id none
    | 1 => policerPass s id (some (bits x.word0 25 20))
    | _ => policerDrop s id
  | .red =>
    let s := cntDev (setPol s p { x with red := sat 32 (x.red + 1) }) 0x82
    match bits x.word0 27 26 with
    | 1 => policerPass s id (some (bits x.word0 19 14))
    | 2 => policerPass s id none
    | _ => policerDrop s id

/-- The policer's state reads uncorrectable: it is disabled in force until its image is written again (R280). -/
def policerLost (s : State) (p : Nat) : State :=
  let s := setPol s p { polAt s p with failed := true }
  let s := forceReg (raiseEv s .polEvent [] [16]) .polLast [] p
  logUe s 0x18 p 0

/-! ### Banks (R276) -/

/-- The bank of a policer: die × 16 + bank. -/
def polBank (p : Nat) : Nat := p / 131072 * 16 + p % 16

/-- The first frame of a slice that waits for a bank. -/
def polFirst (s : State) (bank sl : Nat) : Option Nat :=
  s.egress.polWait.find? (fun id => match frameAt s id with
    | some f => f.slice == sl && polBank f.result.policer == bank
    | none => false)

/-- The frame that a bank meters next: of the slices that wait, in round-robin order. -/
def polNext (s : State) (bank : Nat) : Option Nat :=
  (nextRR 8 (tget 7 s.egress.polLast bank) (fun sl => (polFirst s bank sl).isSome)).bind (polFirst s bank)

/-- A frame of a slice waits at Rewrite while its bank meters another first. -/
def policerHolds (s : State) (sl : Nat) : Bool :=
  s.egress.polWait.any (fun id => match frameAt s id with
    | some f => f.slice == sl && polNext s (polBank f.result.policer) != some id
    | none => false)

/-- A frame leaves its bank's order, and the bank's pointer advances past its slice. -/
def polTake (s : State) (id : Nat) (f : Frame) : State :=
  { s with egress := { s.egress with
      polWait := s.egress.polWait.erase id, polLast := tins s.egress.polLast (polBank f.result.policer) f.slice } }

/-- The bank meters the frame that is next in its order (R275–R277). -/
def policerMeter (id : Nat) (ue : Bool) (s : State) : State :=
  onFrame s id (fun f =>
    if f.stage == .policing && polNext s (polBank f.result.policer) == some id then
      let p := f.result.policer
      let s := polTake s id f
      let s := if ue then policerLost s p else s
      let x := polAt s p
      if x.on then
        let r := (x.update s.time.tick).meter (chargedLen f.rxLen (bits x.word0 7 0))
        colourAct s id p r.2 r.1
      else policerPass (cntDev s 0x80) id none
    else s)

/-- POLICER_METER (R277). -/
def execPolicerMeter (id : Nat) (ue : Bool) (s : State) : Host.Outcome State Fault Refusal := .next (policerMeter id ue s)

/-! ### The policer window (R279, Table 08-21) -/

/-- The words of a policer's image. -/
def Policer.words (x : Policer) : List Nat :=
  [x.word0, x.cir, x.eir, x.cbs, x.ebs, x.tc.bytes.toNat, x.te.bytes.toNat, x.red]

/-- A policer with words 0–4 written: a newly enabled one starts full, a running one is brought up to date at its old
rates and capped at its new depths; its state counts as good again (R273, R274, R279, R280). -/
def Policer.write (x : Policer) (now : Nat) (w : List Nat) : Policer :=
  let was := x.on
  let u := x.update now
  let y := { u with
    word0 := w.getD 0 0 - at_ (bits (w.getD 0 0) 13 8) 13 8, cir := w.getD 1 0, eir := w.getD 2 0,
    cbs := bits (w.getD 3 0) 23 0, ebs := bits (w.getD 4 0) 23 0, failed := false }
  let cap := fun (b : Bucket) (depth : Nat) => { b with tokens := min ((depth * byteUnit : Nat) : Int) b.tokens }
  if !y.on then { y with tc := Bucket.reset, te := Bucket.reset }
  else if was then { y with tc := cap y.tc y.cbs, te := cap y.te y.ebs }
  else { y with tc := Bucket.full y.cbs now, te := Bucket.full y.ebs now }

/-- A write of POL_IND_CTL; with GO it reads or writes an image. -/
def writePolInd (s : State) (v : Nat) (ecc : Ecc) : State :=
  let s := landWrite s .polIndCtl [] v
  if bit v 31 then
    let p := fld s .polIndAddr [] 17 0
    let s :=
      if bit v 30 then
        let w := (List.range 5).map (fun k => inForce s .polIndData [k])
        if !bit (w.getD 0 0) 30 && decide (w.getD 2 0 < w.getD 1 0) then forceFld s .polIndCtl [] 23 20 2
        else forceFld (setPol s p ((polAt s p).write s.time.tick w)) .polIndCtl [] 23 20 0
      else
        let s := if ecc = .ue then policerLost s p else s
        let x := polAt s p
        let x := if x.on then x.update s.time.tick else x
        let ws := if ecc == .ue then List.replicate 8 0 else x.words
        let s := (List.range 8).foldl (fun s k => forceReg s .polIndData [k] (ws.getD k 0)) s
        forceFld s .polIndCtl [] 23 20 (if ecc == .ue then 3 else 0)
    if bit v 29 then forceFld s .polIndAddr [] 17 0 (p + 1) else s
  else s

/-- POL_IND_GO (R279). -/
def execPolIndGo (req : Requester) (off v : Nat) (ecc : Ecc) (s : State) : Host.Outcome State Fault Refusal :=
  .next (guarded s req off [.polIndCtl] (fun s _ _ => writePolInd s v ecc))

end Sys2Proof.Machine
end

