-- ==== Sys2Proof/Machine/Clock.lean ====
section
/-! DEFINITION. SERVE_TICK (10/R331), the one command that moves time, with what else happens in each tick: slot accounting
(17/R494, R495), low-power idle (11/R360), the Rim's held-back access entries (15/R452), engine load (13/R422). -/

namespace Sys2Proof.Machine

/-- The first stage of a slice after Parse that refuses its next head, by the counter of its back-stall (R495). -/
def refusingStage (s : State) (sl : Nat) : Option Nat :=
  if 4096 ≤ missUsed s sl ∨ 65536 ≤ (s.skein.learnQ.getD sl []).length
      ∨ s.frames.any (fun e => e.2.slice == sl && bankHolds s e.2) then some 0x267
  else if waitStageFull s sl then some 0x268
  else if 256 ≤ (sliceAt s sl).recirc.length ∨ policerHolds s sl then some 0x269
  else none

/-- The slots of a slice in the cc of one tick that no head pass entered: front-starved when no head was ready, back-stalled
when a later stage refused the next head, wasted when no engine was free. A slot that the sender of the commands left
unused though nothing stood in the way counts as front-starved (DESIGN CHOICE, log entry 39). A slot that a pass used is
counted when that pass ends. -/
def slotTick (s : State) (sl cc : Nat) : State :=
  let n := (sliceAt s sl).entered
  let rest := 4 * cc - n
  let s := bump (modSlice s sl (fun x => { x with entered := n - 4 * cc })) (sl + 1) 0x26A cc
  if (nextHead s sl).isNone then bump s (sl + 1) 0x262 rest
  else match refusingStage s sl with
  | some k => bump (bump s (sl + 1) 0x263 rest) (sl + 1) k rest
  | none => if enginesBusy s sl then bump (bump s (sl + 1) 0x261 rest) (sl + 1) 0x266 rest
    else bump s (sl + 1) 0x262 rest

/-- An internal producer waits for an entry: a posting, or a composite command's parts (13/R407). -/
def producerWaits (s : State) : Bool :=
  !s.sched.stalled.isEmpty || s.sched.engines.any (fun g => match g.item with
    | some i => i.kind == .command && partsWait s i.header
    | none => false)

/-- What a tick adds to the scheduler's measures: the busy time of engines that hold an item, and the cc in which a source
with a command waiting is passed over or an internal producer waits. -/
def schedTickLoad (s : State) (cc : Nat) : State :=
  let s := withSched s (fun x => { x with engines := x.engines.map (fun g =>
    if g.item.isSome then { g with busyTicks := g.busyTicks + 1 } else g) })
  let s := if fetchStalled s then bump s 0 0x90 cc else s
  if producerWaits s then bump s 0 0x91 cc else s

/-- One tick of the nominal rate; none while the crystal has stopped or a thermal shutdown holds every domain but the Rim (20/R547, 16/R480). -/
def serveTick (s : State) : State :=
  if s.rim.hold ≠ 0 then s
  else
    let cc := ccOf (s.time.tick + 1) - ccOf s.time.tick
    let s := serveStep s
    let s := if running s && s.rim.started then
        let s := growFrames s [] (fun _ => true)
        (List.range 256).foldl lpiTick (schedTickLoad ((List.range 8).foldl (fun s sl => slotTick s sl cc) s) cc)
      else s
    flushAccess s

/-- SERVE_TICK (R331). -/
def execServeTick (s : State) : Host.Outcome State Fault Refusal := .next (serveTick s)

end Sys2Proof.Machine
end

