-- ==== Sys2Proof/Machine/Close.lean ====
section
/-! DEFINITION. The commands that open and close epochs: boundaries and pulses, the drain, the close sweep, the hash, the
seal and the zeroing (09/R294–R307), and the wake of a close in standby (19/R538). -/

namespace Sys2Proof.Machine

/-! ### Boundaries -/

/-- The open epoch waits for its boundary. -/
def awaitsBoundary (s : State) : Bool := running s && s.lid.opened && !s.lid.deferred

/-- A nominal boundary is reached (R294, R295). -/
def epochBoundary (s : State) : State :=
  if awaitsBoundary s && !syncEn s && decide (s.lid.nextBoundary ≤ timeNs s.time.served) then boundary s 0 0 else s

/-- EPOCH_BOUNDARY (R295). -/
def execEpochBoundary (burnFails : Bool) (s : State) : Host.Outcome State Fault Refusal :=
  .next (burnChecked s (epochBoundary s) burnFails)

/-- Offset of now from the nearest nominal boundary, in ns, saturating at 32 bits. -/
def pulseOffset (s : State) : Int :=
  let len := secNs (lenOf s.lid.epoch.cfg)
  let m := timeNs s.time.served % len
  let d : Int := if 2 * m ≤ len then (m : Int) else (m : Int) - (len : Int)
  max (-2147483648) (min 2147483647 d)

/-- Time from the next nominal boundary, in ns. -/
def boundaryOffset (s : State) : Int := (timeNs s.time.served : Int) - (s.lid.nextBoundary : Int)

/-- The nominal boundary in whose window now lies. -/
def windowNow (s : State) : Option Nat :=
  let off := pulseOffset s
  let w : Int := (syncWindow s : Nat)
  if syncEn s ∧ -w ≤ off ∧ off ≤ w then some ((timeNs s.time.served : Int) - off).toNat else none

/-- A pulse on EPOCH_SYNC_IN: the first of a window moves its boundary to now (R299); any other is ignored, recorded and
logged (R300). -/
def epochSyncPulse (s : State) : State :=
  let off := pulseOffset s
  let w : Int := (syncWindow s : Nat)
  let at_ := windowNow s
  let later := at_.isSome && s.lid.pulseWindow == at_
  let s := forceReg s .lidSyncLast [] (ofInt 32 off)
  let s := if at_.isSome then { s with lid := { s.lid with pulseWindow := at_ } } else s
  if awaitsBoundary s && syncEn s && s.lid.closing.isNone && !later && decide (-w ≤ boundaryOffset s) &&
      decide (boundaryOffset s ≤ w)
  then switchBanks s 1 (boundaryOffset s)
  else
    let s := raiseEv s .lidEvent [] [1]
    let s := rimLog s 0x21 false (le 1 6 ++ zeros 3 ++ le 8 s.time.tick ++ le 4 (ofInt 32 off))
    lidEvent s 2 (ofInt 32 off) s.lid.epoch.seq

/-- EPOCH_SYNC_PULSE (R299). -/
def execEpochSyncPulse (burnFails : Bool) (s : State) : Host.Outcome State Fault Refusal :=
  .next (burnChecked s (epochSyncPulse s) burnFails)

/-- No pulse came in the window: the boundary falls at its end. -/
def syncTimeout (s : State) : State :=
  let w := syncWindow s
  if awaitsBoundary s && syncEn s && decide (s.lid.nextBoundary + w ≤ timeNs s.time.served) then boundary s 2 (w : Nat)
  else s

/-- SYNC_TIMEOUT (R299). -/
def execSyncTimeout (burnFails : Bool) (s : State) : Host.Outcome State Fault Refusal :=
  .next (burnChecked s (syncTimeout s) burnFails)

/-! ### The close -/

/-- The close of a phase, when it runs: not while its task waits for an engine (13/R395, R407). -/
def closingIn (s : State) (p : Phase) : Option Closing :=
  if itemWaits s (isTask 0xF001) then none else s.lid.closing.filter (fun c => c.phase == p)

/-- Change the close that runs. -/
def setClosing (s : State) (c : Closing) : State := { s with lid := { s.lid with closing := some c } }

/-- No frame of the closed bank is outstanding in any slice (02/R70). -/
def drained (s : State) (c : Closing) : Bool :=
  (List.range 8).all (fun sl => tget 0 s.lid.outstanding (sl * 2 + c.epoch.seq % 2) == 0)

/-- Step 2 of a close ends and the sweep begins. -/
def drainComplete (s : State) : State :=
  match closingIn s .drain with
  | none => s
  | some c => if drained s c then setClosing s { c with phase := .sweep, sweepNext := 0 } else s

/-- DRAIN_COMPLETE (R302). -/
def execDrainComplete (s : State) : Host.Outcome State Fault Refusal := .next (drainComplete s)

/-- The drain limit is reached: what still waits with a count of the closed bank is discarded, a gap of kind 11. -/
def drainLimit (s : State) : State :=
  match closingIn s .drain with
  | none => s
  | some c =>
    if s.time.tick < c.closeTick + drainTicks c.epoch then s
    else
      let ids := drainWaits s (c.epoch.seq % 2)
      if ids.isEmpty then s else gapClosing (ids.foldl drainDiscard s) 11 0 ids.length

/-- DRAIN_LIMIT (R307). -/
def execDrainLimit (s : State) : Host.Outcome State Fault Refusal := .next (drainLimit s)

/-- The closed bank of a record and the hot counts of its parity. -/
def closedTotal (s : State) (idx bank : Nat) : Counts :=
  let c := coldAt s idx
  let cold := if bank = 0 then c.bank0 else c.bank1
  let h := hotCounts s idx
  if h.1 = bank then cold.add h.2 else cold

/-- A hot copy's counters of the closed parity are zeroed, and its BANK is the open parity. -/
def HotRec.closed (r : HotRec) (bank : Nat) : HotRec :=
  if r.bank = bank then { r with counts := Counts.zero, bank := 1 - bank } else r

/-- One record's closed counts go to its zone (R303 steps 3 to 5); `zones`: those whose line reads uncorrectable. -/
def sweepClosed (zones : List Nat) (s : State) (idx bank : Nat) : State :=
  let s := settleBursts s idx
  let t := closedTotal s idx bank
  let z := (coldAt s idx).body.key.zone
  let s := if t = Counts.zero then s else zoneMove (zoneRead (zones.contains z) s z bank) z bank t Counts.zero
  let s := match hotOf s idx with
    | some (slot, r) => putHot s slot (r.closed bank)
    | none => match writeBackOf s idx with
      | some r => putWriteBack s idx (some (r.closed bank))
      | none => s
  if t = Counts.zero then s
  else modCold s idx (fun c => if bank = 0 then { c with bank0 := Counts.zero } else { c with bank1 := Counts.zero })

/-- The close sweep visits its next bucket. `ue`: cold indices whose bursts read uncorrectable; `tag`: its tag line does;
`zones`: zones whose line does when the zone cache misses it. After the last bucket the cache has written back every line
of the image. It waits for accesses to the bucket's home that are in flight, and for the home of a bucket whose pseudo-channel is lost. -/
def closeSweepBucket (ue : List Nat) (tag : Bool) (zones : List Nat) (s : State) : State :=
  match closingIn s .sweep with
  | none => s
  | some c =>
    let b := c.sweepNext
    if (groupAt s (groupOf b)).placed && (!homeTakes s b || bucketBusy s b) then s
    else
    let s := if tag && homeAnswers s b then tagLineUe s b 1 ue true else s
    let ways := if homeAnswers s b then
      ((List.range 8).map (fun w => b * 8 + w)).filter (fun i => (wayAt s i).valid) else []
    let s := ways.foldl (fun s i =>
      if ue.contains i then loseRecord s i true else sweepClosed zones s i (c.epoch.seq % 2)) s
    match s.lid.closing with
    | none => s
    | some c =>
      if b + 1 = 16777216 then
        let s := { s with lid := { s.lid with zoneCache := s.lid.zoneCache.filter (fun k => k / 2 ^ 19 != c.epoch.seq % 3) } }
        setClosing s { c with phase := .hash, sweepNext := b + 1 }
      else setClosing s { c with sweepNext := b + 1 }

/-- CLOSE_SWEEP_BUCKET (R303). -/
def execCloseSweepBucket (ue : List Nat) (tag : Bool) (zones : List Nat) (s : State) : Host.Outcome State Fault Refusal :=
  .next (closeSweepBucket ue tag zones s)

/-- An entry of the closing port-and-class image reads uncorrectable: it is hashed as zero, a gap of kind 8. -/
def totalsUe (s : State) (i : Nat) : State :=
  match s.lid.closing with
  | none => s
  | some c =>
    let k := c.epoch.seq % 3
    let s := { s with lid := if i < 256 then { s.lid with ports := tdel s.lid.ports (k * 256 + i) }
      else { s.lid with classes := tdel s.lid.classes (k * 64 + (i - 256)) } }
    gapClosing s 8 i 1

/-- The digests are computed and the seal body goes to the Rim (R309–R313). `ue`: entries of the port-and-class image that
read uncorrectable. -/
def hashComplete (ue : List Nat) (s : State) : State :=
  match closingIn s .hash with
  | none => s
  | some _ =>
    let s := (ue.eraseDups.filter (fun i => decide (i < 320))).foldl totalsUe s
    match s.lid.closing with
    | none => s
    | some c => setClosing s { c with phase := .sign, body := closingBody s c }

/-- HASH_COMPLETE (R309). -/
def execHashComplete (ue : List Nat) (s : State) : Host.Outcome State Fault Refusal := .next (hashComplete ue s)

/-- The signature is back and the seal is published; a transition that waits for it proceeds (R302, R308). -/
def sealSigned (s : State) : State :=
  match closingIn s .sign with
  | none => s
  | some c =>
    let s := publishSeal s c.lifecycle c.epoch.seq c.body
    let s := setClosing s { c with phase := .publish }
    let s := { s with lid := { s.lid with lastSealed := some c.epoch } }
    match s.rim.transition with
    | some t => if t.closing && c.closeHow == 5 then finishTransition s t else s
    | none => s

/-- SEAL_SIGNED (R314). -/
def execSealSigned (s : State) : Host.Outcome State Fault Refusal := .next (sealSigned s)

/-- The copy of the images that the epoch after next will use is zeroed. -/
def zeroCopy (s : State) (k : Nat) : State :=
  { s with
    lid := { s.lid with
      zones := tclear s.lid.zones (k * 2 ^ 20) ((k + 1) * 2 ^ 20),
      ports := tclear s.lid.ports (k * 256) ((k + 1) * 256),
      classes := tclear s.lid.classes (k * 64) ((k + 1) * 64) },
    hbm := { s.hbm with lostImages := s.hbm.lostImages.filter (fun p => (p - pgZone) / 8192 != k) } }

/-- The close is complete (Table 09-2 step 8): an interrupted close that waited begins, or else a deferred boundary
switches the banks now (R306, R308). -/
def imageZeroed (s : State) : State :=
  match closingIn s .publish with
  | none => s
  | some c =>
    let s := zeroCopy s ((c.epoch.seq + 2) % 3)
    let s := { s with lid := { s.lid with closing := none } }
    let s := (takeItem s (isTask 0xF001)).getD s
    let s := if s.lid.interrupt then
        let s := { s with lid := { s.lid with interrupt := false } }
        match s.rim.transition with
        | some t => beginClose s t
        | none => s
      else if s.lid.deferred then switchBanks s 4 0 else s
    attentionDone (standbyCloseDone s)

/-- IMAGE_ZEROED (R302). -/
def execImageZeroed (burnFails : Bool) (s : State) : Host.Outcome State Fault Refusal :=
  .next (burnChecked s (imageZeroed s) burnFails)

/-- The check of the stacks as they leave self-refresh: a pseudo-channel that fails it, and the sweep after it, is
retired (18/R516). -/
def refreshExit (s : State) (failed : List Nat) : State := failed.foldl (fun s pc => retirePc s pc 6) s

/-- Before a boundary in standby the device leaves retention to close the epoch (19/R538). -/
def standbyCloseWake (failed : List Nat) (s : State) : State :=
  let w := if syncEn s then syncWindow s else 0
  if s.power.state == 2 && s.lid.opened && decide (s.lid.nextBoundary ≤ timeNs s.time.served + w + 5000000) then
    refreshExit (selfRefresh { s with power := { s.power with state := 4 } } false) failed
  else s

/-- STANDBY_CLOSE_WAKE (R538). -/
def execStandbyCloseWake (failed : List Nat) (s : State) : Host.Outcome State Fault Refusal :=
  .next (standbyCloseWake failed s)

end Sys2Proof.Machine
end

