-- ==== Sys2Proof/Machine/CmdRules.lean ====
section
/-! DEFINITION. The commands on rule versions and the versioned stores of a slice (opcode groups 0x01–0x03): commit and
abandon (04/R134–R137), parse program (R107–R111), access map (R120), patterns (R124), ternary entries (05/R145–R161). -/

namespace Sys2Proof.Machine

/-! ### Draft edits (04/R135, 12/R380) -/

/-- The first stage of an all-or-none edit that some slice of the mask fails, with the slices that fail it. -/
def stageFails (slices : List Nat) (stages : List (Nat × (Nat → Bool))) : Option Answer :=
  (stages.find? (fun st => slices.any st.2)).map (fun st => .parts st.1 (slices.filter st.2))

/-- A draft edit of slices: refused while a commit runs (R137); each slice checks; then each edits, and the edit enters the
draft's digest. -/
def draftCommand (h : CmdHeader) (p : List Byte) (stages : List (Nat × (Nat → Bool)))
    (edit : Nat → SliceState → SliceState) (data : State → List Byte) (s : State) : Answer × State :=
  let slices := maskSlices h.slices
  if s.rules.commit.isSome then (.of stBusy, s)
  else match stageFails slices stages with
  | some a => (a, s)
  | none =>
    let t := slices.foldl (fun s sl => modSlice s sl (edit sl)) s
    (.ok (data t), draftEdit t 0 h.slices h.opcode p)

/-! ### Block moves (05/R158) -/

/-- cc of one move of a place (R158). -/
def moveCc (double : Bool) : Nat := if double then 6 else 5

/-- A block move of `m` places starts in a slice, after the one that runs. -/
def startMove (s : State) (sl m : Nat) (double : Bool) : State :=
  if m = 0 then s
  else
    let now := ccOf s.time.tick
    modSlice s sl (fun x => { x with moveEnd := max now x.moveEnd + m * moveCc double, movePer := moveCc double })

/-- A block move runs in a slice. -/
def moving (s : State) (sl : Nat) : Bool := decide (ccOf s.time.tick < (sliceAt s sl).moveEnd)

/-! ### COMMIT, VERSION_SWITCH, ABANDON, VERSION_INFO -/

/-- Step 3 of Table 04-11: every slice copies DRAFT into the new version's column and latches pending COMMIT values. -/
def copyDraft (s : State) (v : Nat) : State :=
  let s := allSlices s (fun x => x.vmap (visCommit v))
  latchColumns { s with rules := s.rules.vmap (visCommit v) } v

/-- The slices whose column of a version holds a live version. -/
def columnHeld (s : State) (v : Nat) : List Nat :=
  (List.range 8).filter (fun sl => (liveVersions s sl).any (fun w => w % 4 == v % 4))

/-- Steps 1 to 4 of a commit; before step 3 it waits for the block moves under way (05/R155). `ue`: slices that read an uncorrectable error in a versioned store during step 3. -/
def commit (h : CmdHeader) (p : List Byte) (ue : List Nat) (s : State) : State :=
  runCommand s 0x0101 h p 2 true (fun _ s =>
    let v := (s.rules.current + 1) % 65536
    let bad := (List.range 8).filter ue.contains
    match s.rules.commit with
    | some c => if isCommand h p ⟨.command, 0x0101, 0, c.header, p, 0, 0, 0, 0, 0, false, none, 0⟩ then (none, s)
        else if leAt p 0 2 ≠ v then (some (.of stExists), s) else (some (.of stBusy), s)
    | none =>
      if leAt p 0 2 ≠ v then (some (.of stExists), s)
      else if !(columnHeld s v).isEmpty then (some (.parts stVersionLimit (columnHeld s v)), s)
      else if (List.range 8).any (moving s) then (none, s)
      else if !bad.isEmpty then (some (.parts stUncorrectable bad), s)
      else
        let t := copyDraft s v
        (none, { t with rules := { t.rules with commit := some ⟨v, h⟩ } }))

/-- COMMIT (R137). -/
def execCommit (h : CmdHeader) (p : List Byte) (ue : List Nat) (s : State) : Host.Outcome State Fault Refusal :=
  .next (commit h p ue s)

/-- The next-hop IDs that the draft deletes: in use in the current version, without a VALID image in the draft. -/
def deletedHops (s : State) : List Nat :=
  ((s.rules.overrides.filter (fun o => o.table == 1 && o.draft && !nhValid o.image)).map (·.index)).filter
    (fun i => nhValid (dtImage s 0 1 i s.rules.current))

/-- Steps 5 and 6: the new version is current in all eight slices, its deleted next hops are quarantined (06/R189), its
digest stands, and the command is answered. -/
def versionSwitch (s : State) : State :=
  match s.rules.commit with
  | none => s
  | some c =>
    let gone := (deletedHops s).map (fun i => (i, c.version, false))
    let s := { s with rules := { s.rules with
      current := c.version, commit := none, quarantine := s.rules.quarantine ++ gone,
      versionDigests := (c.version, s.rules.draftDigest) :: s.rules.versionDigests.filter (fun e => e.1 != c.version) } }
    let s := epochVersion s c.version
    let s := (List.range 8).foldl retire (raiseTask s 0xF006 1 [])
    let data := le 2 c.version ++ zeros 2 ++ le 4 (servedNs s) ++ le 8 (servedSec s)
    let on := engineOf s (fun i => i.kind == .command && i.code == 0x0101 &&
      { i.header with replyRing := c.header.replyRing } == c.header)
    let hd := match on.bind (fun e => (engineAt s e).item) with | some i => i.header | none => c.header
    let s := match on with | some e => engineEnd s e stOk | none => s
    completed (answer s hd false (.ok data)) hd 0x0101

/-- VERSION_SWITCH (R137). -/
def execVersionSwitch (s : State) : Host.Outcome State Fault Refusal := .next (versionSwitch s)

/-- The draft is abandoned. -/
def abandon (h : CmdHeader) (p : List Byte) (s : State) : State :=
  runAtOnce s 0x0102 h p 0 true (fun s =>
    if s.rules.commit.isSome then (.of stBusy, s) else (.ok [], abandonDraft s))

/-- ABANDON (R135). -/
def execAbandon (h : CmdHeader) (p : List Byte) (s : State) : Host.Outcome State Fault Refusal := .next (abandon h p s)

/-- Current version, and the oldest live one of each slice. -/
def versionInfo (h : CmdHeader) (p : List Byte) (s : State) : State :=
  runAtOnce s 0x0103 h p 0 true (fun s =>
    (.ok (le 2 s.rules.current ++ (List.range 8).flatMap (fun sl => le 2 (sliceAt s sl).oldest)), s))

/-- VERSION_INFO (R134). -/
def execVersionInfo (h : CmdHeader) (p : List Byte) (s : State) : Host.Outcome State Fault Refusal :=
  .next (versionInfo h p s)

/-! ### Parse program (R107–R111, R135) -/

/-- A step image that may be written: its zero field is zero, and neither extraction leaves the extraction area (R111). -/
def stepFine (x : Nat) : Bool :=
  bits x 6 0 == 0 && (bits x 83 79 == 0 || decide (bits x 78 72 + bits x 83 79 ≤ 80)) &&
  (bits x 65 61 == 0 || decide (bits x 60 54 + bits x 65 61 ≤ 80))

/-- A transition image that may be written. -/
def transFine (x : Nat) : Bool := bits x 18 0 == 0

/-- FIRST and COUNT of STEP_WRITE and TRANS_WRITE, with what their fields allow. -/
def indexRange (p : List Byte) : List Nat := (List.range (leAt p 2 2)).map (fun k => leAt p 0 2 + k)

/-- The image of place `k` of a write. -/
def imageAt (p : List Byte) (size k : Nat) : Nat := leAt p (8 + size * k) size

/-- CLEAR of STEP_WRITE and TRANS_WRITE. -/
def clears (p : List Byte) : Bool := bit (byteAt p 4) 0

/-- Length of a write of indexed images. -/
def indexedLen (p : List Byte) (size : Nat) : Nat := 8 + (if clears p then 0 else size * leAt p 2 2)

/-- The parameters of a write of indexed images are in range and its images may be written. -/
def indexedFine (p : List Byte) (size entries most : Nat) (fine : Nat → Bool) : Bool :=
  decide (1 ≤ leAt p 2 2) && decide (leAt p 2 2 ≤ most) && decide (leAt p 0 2 + leAt p 2 2 ≤ entries) &&
  (clears p || (List.range (leAt p 2 2)).all (fun k => fine (imageAt p size k)))

/-- One slice's entries after a write of indexed images: DRAFT cleared, or a new draft image. -/
def indexedEdit (p : List Byte) (size : Nat) (get : Nat → Versioned) (t : Table Versioned) : Table Versioned :=
  (List.range (leAt p 2 2)).foldl (fun t k =>
    let i := leAt p 0 2 + k
    tins t i (if clears p then { get i with draft := false } else ⟨imageAt p size k, 0, true⟩)) t

/-- Some entry of the range is visible in a version: locked against a write (R135). -/
def indexedLocked (p : List Byte) (get : Nat → Versioned) : Bool :=
  !clears p && (indexRange p).any (fun i => (get i).vis != 0)

/-- Parse steps written in the draft. -/
def stepWrite (h : CmdHeader) (p : List Byte) (s : State) : State :=
  runAtOnce s 0x0201 h p (indexedLen p 16) (indexedFine p 16 2048 254 stepFine) (fun s =>
    draftCommand h p [(stLocked, fun sl => indexedLocked p (stepEntry (sliceAt s sl)))]
      (fun _ x => { x with steps := indexedEdit p 16 (stepEntry x) x.steps }) (fun _ => []) s)

/-- STEP_WRITE (R135). -/
def execStepWrite (h : CmdHeader) (p : List Byte) (s : State) : Host.Outcome State Fault Refusal := .next (stepWrite h p s)

/-- Transition entries written in the draft. -/
def transWrite (h : CmdHeader) (p : List Byte) (s : State) : State :=
  runAtOnce s 0x0202 h p (indexedLen p 8) (indexedFine p 8 4096 511 transFine) (fun s =>
    draftCommand h p [(stLocked, fun sl => indexedLocked p (transEntry (sliceAt s sl)))]
      (fun _ x => { x with trans := indexedEdit p 8 (transEntry x) x.trans }) (fun _ => []) s)

/-- TRANS_WRITE (R135). -/
def execTransWrite (h : CmdHeader) (p : List Byte) (s : State) : Host.Outcome State Fault Refusal := .next (transWrite h p s)

/-! ### Access map (R120) -/

/-- An access map image that may be written. -/
def accessFine (x : Nat) : Bool := bits x 53 52 != 0 && bits x 27 20 == 0

/-- The identity of an access map image: ALL_PORTS, KIND, ACC_ID, and PORT where it counts. -/
def accessIdentity (x : Nat) : Nat := bits x 62 62 * 2 ^ 40 + bits x 53 28 * 2 ^ 8 + (if bit x 62 then 0 else bits x 61 54)

/-- The place of the entry of an identity that the draft sees. -/
def accessFind (x : SliceState) (img : Nat) : Option Nat :=
  (x.access.find? (fun e => e.2.draft && accessIdentity e.2.image == accessIdentity img)).map (·.1)

/-- Clear DRAFT on an entry of a keyed store; left with no bit set, it is free. -/
def undraft (t : Table Versioned) (i : Nat) : Table Versioned :=
  match tfind t i with
  | none => t
  | some e => if e.vis = 0 then tdel t i else tins t i { e with draft := false }

/-- An access map entry added in the draft. -/
def accmapAdd (h : CmdHeader) (p : List Byte) (s : State) : State :=
  let img := leAt p 0 8
  runAtOnce s 0x0203 h p 8 (accessFine img) (fun s =>
    draftCommand h p
      [(stExists, fun sl => (accessFind (sliceAt s sl) img).isSome),
       (stFull, fun sl => decide (65536 ≤ firstFree (sliceAt s sl).access 0))]
      (fun _ x => { x with access := tins x.access (firstFree x.access 0) ⟨img, 0, true⟩ }) (fun _ => []) s)

/-- ACCMAP_ADD (R120). -/
def execAccmapAdd (h : CmdHeader) (p : List Byte) (s : State) : Host.Outcome State Fault Refusal := .next (accmapAdd h p s)

/-- An access map entry deleted in the draft. -/
def accmapDel (h : CmdHeader) (p : List Byte) (s : State) : State :=
  let img := leAt p 0 8
  runAtOnce s 0x0204 h p 8 (accessFine img) (fun s =>
    draftCommand h p [(stNoent, fun sl => (accessFind (sliceAt s sl) img).isNone)]
      (fun _ x => { x with access := match accessFind x img with | some i => undraft x.access i | none => x.access })
      (fun _ => []) s)

/-- ACCMAP_DEL (R120). -/
def execAccmapDel (h : CmdHeader) (p : List Byte) (s : State) : Host.Outcome State Fault Refusal := .next (accmapDel h p s)

/-! ### Patterns (R124) -/

/-- A pattern image that may be written: zero past its length and in the control word's zero field. -/
def patternFine (p : List Byte) : Bool :=
  let ctl := leAt p 32 8
  bits ctl 9 1 == 0 && (slice p 0 32).drop (bits ctl 45 41 + 1) == zeros (31 - bits ctl 45 41)

/-- The place of the entry of an identifier that the draft sees. -/
def patternFind (x : SliceState) (id : Nat) : Option Nat :=
  (x.patterns.find? (fun e => e.2.draft && e.2.id == id)).map (·.1)

/-- A pattern entry added in the draft. -/
def patternAdd (h : CmdHeader) (p : List Byte) (s : State) : State :=
  let e : PatternEntry := ⟨slice p 0 32, leAt p 32 8, 0, true⟩
  runAtOnce s 0x0205 h p 40 (patternFine p) (fun s =>
    draftCommand h p
      [(stExists, fun sl => (patternFind (sliceAt s sl) e.id).isSome),
       (stFull, fun sl => decide (16384 ≤ firstFree (sliceAt s sl).patterns 0))]
      (fun _ x => { x with patterns := tins x.patterns (firstFree x.patterns 0) e }) (fun _ => []) s)

/-- PATTERN_ADD (R124). -/
def execPatternAdd (h : CmdHeader) (p : List Byte) (s : State) : Host.Outcome State Fault Refusal := .next (patternAdd h p s)

/-- A pattern store with DRAFT cleared on an entry. -/
def unpattern (t : Table PatternEntry) (i : Nat) : Table PatternEntry :=
  match tfind t i with
  | none => t
  | some e => if e.vis = 0 then tdel t i else tins t i { e with draft := false }

/-- A pattern entry deleted in the draft. -/
def patternDel (h : CmdHeader) (p : List Byte) (s : State) : State :=
  let id := leAt p 0 2
  runAtOnce s 0x0206 h p 2 (decide (id < 16384)) (fun s =>
    draftCommand h p [(stNoent, fun sl => (patternFind (sliceAt s sl) id).isNone)]
      (fun _ x => { x with patterns := match patternFind x id with | some i => unpattern x.patterns i | none => x.patterns })
      (fun _ => []) s)

/-- PATTERN_DEL (R124). -/
def execPatternDel (h : CmdHeader) (p : List Byte) (s : State) : Host.Outcome State Fault Refusal := .next (patternDel h p s)

/-! ### Ternary entries (05/R145–R161) -/

/-- The 640-bit image of an entry (Table 05-1). -/
def TcamEntry.image (e : TcamEntry) : Nat :=
  at_ e.key 639 384 + at_ e.care 383 128 + at_ e.prio 127 112 + at_ e.width 111 110 + at_ (b2n e.valid) 109 109
    + at_ (b2n e.fault) 108 108 + at_ (b2n e.draft) 107 107 + at_ e.vis 106 103 + at_ e.action 63 0

/-- The entry that a written image makes: seen by the draft alone. -/
def TcamEntry.ofImage (x : Nat) : TcamEntry :=
  ⟨bits x 639 384, bits x 383 128, bits x 127 112, bits x 111 110, true, false, 0, true, bits x 63 0⟩

/-- An image that may be written in a role: 0 single, 1 even half, 2 odd half (R145, R146). -/
def tcamFine (x role : Nat) : Bool :=
  let e := TcamEntry.ofImage x
  e.width == role && bits x 102 64 == 0 && Nat.land e.key e.care == e.key &&
  (role != 2 || (e.prio == 0 && e.action == 0))

/-- The entry images of the parameters, from an offset: one, or two of a double place. -/
def tcamImages (p : List Byte) : List Nat :=
  if p.length = 168 then [leAt p 8 80, leAt p 88 80] else [leAt p 8 80]

/-- Images that may be written as one place. -/
def imagesFine (l : List Nat) : Bool :=
  match l with
  | [a] => tcamFine a 0
  | [a, b] => tcamFine a 1 && tcamFine b 2
  | _ => false

/-- A place is free: no bit of its VIS and DRAFT is set. -/
def placeFree (x : SliceState) (i : Nat) : Bool := (tcamAt x i).vis == 0 && !(tcamAt x i).draft

/-- Write the halves of a place. -/
def putPlace (x : SliceState) (i : Nat) (es : List TcamEntry) : SliceState :=
  { x with tcam := match es with
    | [a] => tins x.tcam i a
    | [a, b] => tins (tins x.tcam i a) (i + 1) b
    | _ => x.tcam }

/-- Free a place. -/
def freePlace (x : SliceState) (double : Bool) (i : Nat) : SliceState :=
  { x with tcam := if double then tdel (tdel x.tcam i) (i + 1) else tdel x.tcam i }

/-- Every place of a lookup, in its order (R141). -/
def lookupPlaces (s : State) (sl j : Nat) : List Nat :=
  let d := if lookupDouble s sl j then 2 else 1
  (blocksOf s sl j).flatMap (fun b => (List.range (1024 / d)).map (fun i => b * 1024 + i * d))

/-- A place belongs to a lookup. -/
def isPlaceOf (s : State) (sl j i : Nat) : Bool :=
  (blocksOf s sl j).contains (i / 1024) && (!lookupDouble s sl j || i % 2 == 0)

/-- The segments of a lookup's places: one in native mode, 2^HOLE_LOG2 places each in hole mode (R161). -/
def segments (s : State) (sl j : Nat) : List (List Nat) :=
  let ps := lookupPlaces s sl j
  let c := inForce s .tcamHole [sl, j]
  if bit c 31 then
    let n := 2 ^ min 10 (max 3 (bits c 3 0))
    (List.range (cdiv ps.length n)).map (fun i => (ps.drop (i * n)).take n)
  else [ps]

/-- A segment takes one more entry: in hole mode one place of it always stays free. -/
def segmentRoom (s : State) (sl j : Nat) (x : SliceState) (seg : List Nat) : Bool :=
  let free := (seg.filter (placeFree x)).length
  if bit (inForce s .tcamHole [sl, j]) 31 then decide (1 < free) else decide (0 < free)

/-- The place an add takes (R156, R161). -/
def addPlace (s : State) (sl j : Nat) : Option Nat :=
  let x := sliceAt s sl
  ((segments s sl j).find? (segmentRoom s sl j x)).bind (fun seg => seg.find? (placeFree x))

/-- The reply of TCAM_ADD and TCAM_INSERT: the place in each slice. -/
def placeData (slices : List Nat) (place : Nat → Option Nat) : List Byte :=
  (List.range 8).flatMap (fun sl => le 2 (if slices.contains sl then (place sl).getD 0xFFFF else 0xFFFF))

/-- The slices whose lookup has not the width of the images. -/
def widthDiffers (s : State) (j : Nat) (imgs : List Nat) (sl : Nat) : Bool :=
  !(blocksOf s sl j).isEmpty && lookupDouble s sl j != (imgs.length == 2)

/-- A ternary entry added at the lowest free place. -/
def tcamAdd (h : CmdHeader) (p : List Byte) (s : State) : State :=
  let j := byteAt p 0 % 16
  let imgs := tcamImages p
  let es := imgs.map TcamEntry.ofImage
  runAtOnce s 0x0301 h p (if p.length = 168 then 168 else 88) (imagesFine imgs) (fun s =>
    draftCommand h p
      [(stBadparam, widthDiffers s j imgs), (stFull, fun sl => (addPlace s sl j).isNone)]
      (fun sl x => match addPlace s sl j with | some i => putPlace x i es | none => x)
      (fun _ => placeData (maskSlices h.slices) (fun sl => addPlace s sl j)) s)

/-- TCAM_ADD (R156). -/
def execTcamAdd (h : CmdHeader) (p : List Byte) (s : State) : Host.Outcome State Fault Refusal := .next (tcamAdd h p s)

/-- The halves of a place, marked FAULT when its entry reads uncorrectable. -/
def placeEntries (x : SliceState) (double bad : Bool) (i : Nat) : List TcamEntry :=
  let f (e : TcamEntry) : TcamEntry := if bad then { e with fault := true } else e
  if double then [f (tcamAt x i), f (tcamAt x (i + 1))] else [f (tcamAt x i)]

/-- One move of a block move (Table 05-2): the copy carries everything, and its old place is free. -/
def movePlace (double : Bool) (ue : List Nat) (x : SliceState) (m : Nat × Nat) : SliceState :=
  freePlace (putPlace x m.2 (placeEntries x double (ue.contains m.1) m.1)) double m.1

/-- The moves of an insert and the place it takes, within the segment of its target (R157): from place to place, in the
order they are made. -/
def insertPlan (x : SliceState) (seg : List Nat) (t : Nat) : Option (List (Nat × Nat) × Nat) :=
  let before := seg.takeWhile (· != t)
  let from_ := seg.dropWhile (· != t)
  if placeFree x t then some ([], t)
  else
    let up := (from_.takeWhile (fun i => !placeFree x i)).length
    let down := (before.reverse.takeWhile (fun i => !placeFree x i)).length
    let canUp := decide (up < from_.length)
    let canDown := decide (down < before.length)
    if canUp && (!canDown || decide (up ≤ down)) then
      let run := from_.take (up + 1)
      some (((run.dropLast.zip (run.drop 1)).reverse), t)
    else if canDown then
      let run := before.drop (before.length - down - 1)
      some ((run.drop 1).zip run.dropLast, run.getLastD t)
    else none

/-- The segment that holds a place. -/
def segmentOf (s : State) (sl j t : Nat) : List Nat := ((segments s sl j).find? (fun g => g.contains t)).getD []

/-- The plan of a slice's insert: none where its segment has no room. -/
def planOf (s : State) (sl j t : Nat) : Option (List (Nat × Nat) × Nat) :=
  let x := sliceAt s sl
  let g := segmentOf s sl j t
  if segmentRoom s sl j x g then insertPlan x g t else none

/-- A ternary entry inserted at a target place, moving what stands there. `ue`: (slice, place) of entries that read
uncorrectable as they move; then the moves made stay, and the new entry is freed in every slice (R160). -/
def tcamInsert (h : CmdHeader) (p : List Byte) (ue : List (Nat × Nat)) (s : State) : State :=
  let j := byteAt p 0 % 16
  let t := leAt p 2 2 % 32768
  let imgs := tcamImages p
  let es := imgs.map TcamEntry.ofImage
  let double := imgs.length == 2
  let badIn (sl : Nat) : List Nat := (ue.filter (fun e => e.1 == sl)).map (·.2)
  let moved (sl : Nat) : List (Nat × Nat) := ((planOf s sl j t).map (·.1)).getD []
  runAtOnce s 0x0302 h p (if p.length = 168 then 168 else 88) (imagesFine imgs) (fun s =>
    let slices := maskSlices h.slices
    if s.rules.commit.isSome then (.of stBusy, s)
    else match stageFails slices
        [(stBadparam, fun sl => widthDiffers s j imgs sl || !isPlaceOf s sl j t),
         (stFull, fun sl => (planOf s sl j t).isNone)] with
    | some a => (a, s)
    | none =>
      let hit (sl : Nat) : Bool := (moved sl).any (fun m => (badIn sl).contains m.1)
      let s1 := slices.foldl (fun u sl => modSlice u sl (fun x =>
        ((planOf s sl j t).map (fun pl => pl.1.foldl (movePlace double (badIn sl)) x)).getD x)) s
      let s1 := slices.foldl (fun u sl => startMove u sl (moved sl).length double) s1
      if slices.any hit then
        let s2 := slices.foldl (fun u sl =>
          ((moved sl).filter (fun m => (badIn sl).contains m.1)).foldl (fun u m => tcamFault u sl j m.2) u) s1
        (.parts stUncorrectable (slices.filter hit), s2)
      else
        let s2 := slices.foldl (fun u sl => modSlice u sl (fun x =>
          ((planOf s sl j t).map (fun pl => putPlace x pl.2 es)).getD x)) s1
        (.ok (placeData slices (fun sl => (planOf s sl j t).map (·.2))), draftEdit s2 0 h.slices h.opcode p))

/-- TCAM_INSERT (R157). -/
def execTcamInsert (h : CmdHeader) (p : List Byte) (ue : List (Nat × Nat)) (s : State) : Host.Outcome State Fault Refusal :=
  .next (tcamInsert h p ue s)

/-- The halves of a place equal images in KEY, CARE and PRIORITY. -/
def placeEquals (x : SliceState) (i : Nat) (imgs : List Nat) : Bool :=
  (imgs.zip [i, i + 1]).all (fun e =>
    let w := TcamEntry.ofImage e.1
    let v := tcamAt x e.2
    v.key == w.key && v.care == w.care && v.prio == w.prio)

/-- The place that TCAM_DELETE names in a slice. -/
def deletePlace (s : State) (sl j : Nat) (p : List Byte) : Option Nat :=
  let x := sliceAt s sl
  let ps := placesOf s sl j
  if bit (byteAt p 0) 4 then ps.find? (fun i => (tcamAt x i).draft && placeEquals x i (tcamImages p))
  else
    let i := leAt p 2 2 % 32768
    if isPlaceOf s sl j i && (tcamAt x i).draft then some i else none

/-- DRAFT cleared on a place. -/
def undraftPlace (double : Bool) (x : SliceState) (i : Nat) : SliceState :=
  if (tcamAt x i).vis = 0 then freePlace x double i
  else putPlace x i ((placeEntries x double false i).map (fun e => { e with draft := false }))

/-- A ternary entry deleted in the draft. -/
def tcamDelete (h : CmdHeader) (p : List Byte) (s : State) : State :=
  let j := byteAt p 0 % 16
  let byKey := bit (byteAt p 0) 4
  let len := if byKey then (if p.length = 168 then 168 else 88) else 8
  runAtOnce s 0x0303 h p len true (fun s =>
    draftCommand h p
      [(stBadparam, fun sl => if byKey then widthDiffers s j (tcamImages p) sl
          else !isPlaceOf s sl j (leAt p 2 2 % 32768)),
       (stNoent, fun sl => (deletePlace s sl j p).isNone)]
      (fun sl x => match deletePlace s sl j p with | some i => undraftPlace (lookupDouble s sl j) x i | none => x)
      (fun _ => []) s)

/-- TCAM_DELETE (R135). -/
def execTcamDelete (h : CmdHeader) (p : List Byte) (s : State) : Host.Outcome State Fault Refusal := .next (tcamDelete h p s)

/-- Lookup and width of the block a place lies in: assigned, double. -/
def blockMode (s : State) (sl i : Nat) : Bool × Bool :=
  let w := inForce s .tcamBlk [sl, i / 1024]
  (bit w 7, bit w 7 && bit w 6)

/-- A ternary place read. -/
def tcamRead (h : CmdHeader) (p : List Byte) (s : State) : State :=
  let i := leAt p 0 2
  let sl := (maskSlices h.slices).headD 0
  runAtOnce s 0x0304 h p 2 (decide (i < 32768) && !((blockMode s sl i).2 && i % 2 == 1)) (fun s =>
    let x := sliceAt s sl
    let es := placeEntries x (blockMode s sl i).2 false i
    (.ok (es.flatMap (fun e => le 80 e.image)), s))

/-- TCAM_READ (R145). -/
def execTcamRead (h : CmdHeader) (p : List Byte) (s : State) : Host.Outcome State Fault Refusal := .next (tcamRead h p s)

end Sys2Proof.Machine
end

