-- ==== Sys2Proof/Machine/Stations.lean ====
section
/-! DEFINITION. The meanings of L2_LEARN, L2_AGING_PASS and TCAM_SCRUB (05/R152, R175–R177). -/

namespace Sys2Proof.Machine

/-! ### L2_LEARN -/

/-- Number of the running learning window: WINDOW µs each, on the core clock. -/
def macWindowNo (s : State) (sl : Nat) : Nat := ccOf s.time.tick / (1600 * max 1 (fld s .l2Cfg [sl] 15 0))

/-- A station-move event (Table 05-11). -/
def stationMove (s : State) (sl : Nat) (first : Nat) (l : MacLearn) : State :=
  postEvent (raiseEv s .l2Event [sl] [1]) 2 (le 1 sl ++ le 1 first ++ le 1 l.port ++ zeros 1 ++ le 2 l.vlan ++ be 6 l.mac
    ++ le 4 (macWindowNo s sl))

/-- A learn is applied: another one of its station in this window that named another port is a move (R176). -/
def noteLearn (s : State) (sl : Nat) (l : MacLearn) : State :=
  let w := macWindowNo s sl
  let seen := if (sliceAt s sl).macWindow = w then (sliceAt s sl).macSeen else []
  let same := seen.find? (fun x => x.vlan == l.vlan && x.mac == l.mac)
  let s := modSlice s sl (fun x => { x with
    macWindow := w, macSeen := seen.filter (fun x => !(x.vlan == l.vlan && x.mac == l.mac)) ++ [l] })
  match same with
  | some p => if p.port = l.port then s else stationMove s sl p.port l
  | none => s

/-- Apply one learn to a slice's table (R175). -/
def applyLearn (s : State) (sl : Nat) (l : MacLearn) : State :=
  let x := sliceAt s sl
  match macFind x l.vlan l.mac with
  | some (pos, e) =>
    if e.static_ then s
    else
      let x1 := { x with mac := tins x.mac pos { e with port := l.port, hit := true } }
      if e.port = l.port then noteLearn (setSlice s sl x1) sl l
      else noteLearn (cntSl (setSlice s sl (macCountAdd (macCountSub x1 e.port) l.port)) sl 0x27F) sl l
  | none => match macFreeWay x (macBucket l.vlan l.mac) with
    | none => cntSl s sl 0x27E
    | some pos =>
      noteLearn (setSlice s sl (macCountAdd { x with mac := tins x.mac pos ⟨l.vlan, l.mac, l.port, false, true⟩ } l.port)) sl l

/-- The learn engine of a slice takes its oldest learn. -/
def l2Learn (sl : Nat) (ue : List Nat) (s : State) : State :=
  let s := ue.foldl (loseMac sl) s
  match (sliceAt s sl).macQueue with
  | [] => s
  | l :: rest => applyLearn (modSlice s sl (fun x => { x with macQueue := rest })) sl l

/-- L2_LEARN (R175). -/
def execL2Learn (sl : Nat) (ue : List Nat) (s : State) : Host.Outcome State Fault Refusal := .next (l2Learn sl ue s)

/-! ### L2_AGING_PASS -/

/-- Dynamic entries by port, recounted. -/
def recountMacs (t : Table MacEntry) : Table Nat :=
  t.foldl (fun c e => if e.2.static_ then c else tmod 0 c e.2.port (· + 1)) []

/-- An aging pass: entries that read uncorrectable are deleted, dynamic entries without a hit age out, HIT is cleared on the
others, and every port is recounted (R177). -/
def l2AgingPass (sl : Nat) (ue : List Nat) (s : State) : State :=
  let s := ue.foldl (loseMac sl) s
  if fld s .l2Cfg [sl] 31 16 = 0 ∨ ¬ due s (3 + sl) then s
  else
    let s := acted s (3 + sl)
    modSlice s sl (fun x =>
      let kept := (x.mac.filter (fun e => e.2.static_ || e.2.hit)).map (fun e =>
        (e.1, if e.2.static_ then e.2 else { e.2 with hit := false }))
      { x with mac := kept, macCount := recountMacs kept })

/-- L2_AGING_PASS (R177). -/
def execL2AgingPass (sl : Nat) (ue : List Nat) (s : State) : Host.Outcome State Fault Refusal := .next (l2AgingPass sl ue s)

/-! ### TCAM_SCRUB -/

/-- The maintenance port reads the next entry of a slice's array (R152). -/
def tcamScrub (sl : Nat) (ecc : Ecc) (s : State) : State :=
  let p := (sliceAt s sl).scrub
  let s := modSlice s sl (fun x => { x with scrub := (p + 1) % 32768 })
  match ecc with
  | .ok => s
  | .ce => cntSl s sl 0x276
  | .ue => tcamFault s sl (fld s .tcamBlk [sl, p / 1024] 3 0) p

/-- TCAM_SCRUB (R152). -/
def execTcamScrub (sl : Nat) (ecc : Ecc) (s : State) : Host.Outcome State Fault Refusal := .next (tcamScrub sl ecc s)

end Sys2Proof.Machine
end

