-- ==== Sys2Proof/Machine/CmdTables.lean ====
section
/-! DEFINITION. The commands on direct-indexed tables, prefixes and MAC tables (opcode groups 0x04 and 0x05): draft edits
through the withy (05/R164, R165), next-hop checks (06/R183, R189, R190), prefixes (05/R169, R170), stations (R178). -/

namespace Sys2Proof.Machine

/-! ### Direct-indexed tables -/

/-- An image of a table that may be written: zero fields zero, and what the entry's own rule refuses. -/
def dtFine (table index x : Nat) : Bool :=
  match table with
  | 0 => bits x 22 0 == 0
  | 1 => bits x 71 48 == 0 && index != 0 && index != 0xFFFFF
  | 2 => bits x 10 0 == 0 && decide (bits x 54 33 + bits x 32 11 < 4194304)
  | 3 => bits x 62 60 == 0
  | 4 => bits x 508 256 == 0
  | 5 => bits x 69 0 == 0 && profNat x != 3 && !(profNat x != 0 && profLb x)
  | _ => false

/-- A draft edit of an index (R165): none when it needs a new override and the withy of `cap` overrides is full. -/
def overrideEdit (os : List Override) (cap table index image : Nat) : Option (List Override) :=
  let mine (o : Override) : Bool := o.table == table && o.index == index && o.draft
  match os.findIdx? (fun o => mine o && o.vis == 0) with
  | some i => some (setAt os i ⟨table, index, image, 0, true⟩)
  | none =>
    let os := os.map (fun o => if mine o then { o with draft := false } else o)
    if os.length < cap then some (os ++ [⟨table, index, image, 0, true⟩]) else none

/-- Next-hop IDs quarantined or deleted in the draft (06/R190). -/
def hopsGoing (s : State) : Nat := s.rules.quarantine.length + (deletedHops s).length

/-- A write deletes a next hop that the current version uses and the draft still holds. -/
def deletesHop (s : State) (table index image : Nat) : Bool :=
  table == 1 && !nhValid image && nhValid (dtImage s 0 1 index s.rules.current) && nhValid (dtDraft s 1 index)

/-- An index lost in both copies is written again: it finds what is written (R167). -/
def revive (s : State) (table index : Nat) : State :=
  if s.rules.dead.contains (table, index) then
    { s with rules := { s.rules with
        dead := s.rules.dead.erase (table, index),
        baseWest := tdel s.rules.baseWest (dtKey table index), baseEast := tdel s.rules.baseEast (dtKey table index) } }
  else s

/-- A per-device direct-indexed entry edited in the draft. -/
def dtWrite (h : CmdHeader) (p : List Byte) (s : State) : State :=
  let table := byteAt p 0
  let index := leAt p 4 4
  let img := leAt p 8 (dtBytes table)
  runAtOnce s 0x0401 h p (8 + dtBytes table)
    ((table ≤ 3 || table == 5) && decide (index < dtEntries table) && dtFine table index img) (fun s =>
    if s.rules.commit.isSome then (.of stBusy, s)
    else if table = 1 ∧ s.rules.quarantine.any (fun q => q.1 == index) then (.of stLocked, s)
    else if deletesHop s table index img ∧ 4096 ≤ hopsGoing s then (.of stFull, s)
    else match overrideEdit s.rules.overrides 65536 table index img with
    | none => (.of stFull, s)
    | some os =>
      let s := revive s table index
      (.ok [], draftEdit { s with rules := { s.rules with overrides := os } } 0 255 h.opcode p))

/-- DT_WRITE (R165). -/
def execDtWrite (h : CmdHeader) (p : List Byte) (s : State) : Host.Outcome State Fault Refusal := .next (dtWrite h p s)

/-- A lost VLAN entry is written again in slices. -/
def reviveVlan (s : State) (slices : List Nat) (vlan : Nat) : State :=
  slices.foldl (fun s sl =>
    if s.rules.dead.contains (vlanKey sl vlan) then
      modSlice { s with rules := { s.rules with dead := s.rules.dead.erase (vlanKey sl vlan) } } sl
        (fun x => { x with vlanBase := tdel x.vlanBase vlan })
    else s) s

/-- A VLAN entry of slices edited in the draft. -/
def vlanWrite (h : CmdHeader) (p : List Byte) (s : State) : State :=
  let vlan := leAt p 4 4
  let img := leAt p 8 64
  let edit (x : SliceState) : Option (List Override) := overrideEdit x.vlanOver 1024 4 vlan img
  runAtOnce s 0x0402 h p 72 (decide (vlan < 4096) && dtFine 4 vlan img) (fun s =>
    let r := draftCommand h p [(stFull, fun sl => (edit (sliceAt s sl)).isNone)]
      (fun _ x => { x with vlanOver := (edit x).getD x.vlanOver }) (fun _ => []) s
    (r.1, if r.1.status = stOk then reviveVlan r.2 (maskSlices h.slices) vlan else r.2))

/-- VLAN_WRITE (R165). -/
def execVlanWrite (h : CmdHeader) (p : List Byte) (s : State) : Host.Outcome State Fault Refusal := .next (vlanWrite h p s)

/-- A version is live in some slice. -/
def liveAnywhere (s : State) (v : Nat) : Bool := (List.range 8).any (fun sl => isLive s sl v)

/-- A direct-indexed entry read in the draft or in a live version. -/
def dtRead (h : CmdHeader) (p : List Byte) (s : State) : State :=
  let table := byteAt p 0
  let draft := bit (byteAt p 1) 0
  let v := leAt p 2 2
  let index := leAt p 4 4
  let sl := (maskSlices h.slices).headD 0
  let live := draft || (if table = 4 then isLive s sl v else liveAnywhere s v)
  runAtOnce s 0x0403 h p 8 (decide (table ≤ 5) && decide (index < dtEntries table) && live) (fun s =>
    let img :=
      if table = 4 then if draft then vlanDraft s sl index else vlanImage s sl index v
      else if draft then dtDraft s table index else dtImage s sl table index v
    (.ok (le (dtBytes table) img), s))

/-- DT_READ (R164). -/
def execDtRead (h : CmdHeader) (p : List Byte) (s : State) : Host.Outcome State Fault Refusal := .next (dtRead h p s)

/-! ### Prefixes -/

/-- Zone, length, family and address of the prefix commands. -/
def pfxZone (p : List Byte) : Nat := leAt p 0 3 % 2 ^ 20
def pfxLen (p : List Byte) : Nat := byteAt p 3
def pfxV6 (p : List Byte) : Bool := bit (byteAt p 4) 0
def pfxAddr (p : List Byte) : Nat := if pfxV6 p then beAt p 16 16 else beAt p 28 4

/-- The length lies within its family, and the bits past it are zero. -/
def pfxFine (p : List Byte) : Bool :=
  let w := addrWidth (pfxV6 p)
  decide (pfxLen p ≤ w) && pfxAddr p % 2 ^ (w - pfxLen p) == 0

/-- The place among the entries of the prefix that the draft sees. -/
def pfxFind (s : State) (p : List Byte) : Option Nat :=
  s.rules.prefixes.findIdx? (fun e => e.draft && e.zone == pfxZone p && e.v6 == pfxV6 p && e.len == pfxLen p && e.addr == pfxAddr p)

/-- Entries of a family in use, and how many there may be. -/
def pfxUsed (s : State) (v6 : Bool) : Nat := (s.rules.prefixes.filter (fun e => e.v6 == v6)).length
def pfxCap (v6 : Bool) : Nat := if v6 then 1048576 else 2097152

/-- A prefix added in the draft. -/
def pfxAdd (h : CmdHeader) (p : List Byte) (s : State) : State :=
  runAtOnce s 0x0404 h p 32 (pfxFine p) (fun s =>
    if s.rules.commit.isSome then (.of stBusy, s)
    else if (pfxFind s p).isSome then (.of stExists, s)
    else if pfxCap (pfxV6 p) ≤ pfxUsed s (pfxV6 p) then (.of stFull, s)
    else
      let e : PrefixEntry := ⟨pfxZone p, pfxV6 p, pfxLen p, pfxAddr p, leAt p 8 4 % 2 ^ 20, 0, true⟩
      (.ok [], draftEdit { s with rules := { s.rules with prefixes := s.rules.prefixes ++ [e] } } 0 255 h.opcode p))

/-- PFX_ADD (R169). -/
def execPfxAdd (h : CmdHeader) (p : List Byte) (s : State) : Host.Outcome State Fault Refusal := .next (pfxAdd h p s)

/-- A prefix deleted in the draft. -/
def pfxDel (h : CmdHeader) (p : List Byte) (s : State) : State :=
  runAtOnce s 0x0405 h p 32 (pfxFine p) (fun s =>
    if s.rules.commit.isSome then (.of stBusy, s)
    else match pfxFind s p with
    | none => (.of stNoent, s)
    | some i =>
      let ps := (s.rules.prefixes.mapIdx (fun k e => if k = i then { e with draft := false } else e)).filter
        (fun e => e.vis != 0 || e.draft)
      (.ok [], draftEdit { s with rules := { s.rules with prefixes := ps } } 0 255 h.opcode p))

/-- PFX_DEL (R169). -/
def execPfxDel (h : CmdHeader) (p : List Byte) (s : State) : Host.Outcome State Fault Refusal := .next (pfxDel h p s)

/-- The longest prefix for an address, in the draft or in a live version. -/
def pfxLookup (h : CmdHeader) (p : List Byte) (s : State) : State :=
  let draft := bit (byteAt p 14) 0
  let v := leAt p 12 2
  runAtOnce s 0x0406 h p 32 (draft || liveAnywhere s v) (fun s =>
    let ps := s.rules.prefixes.filter (fun e => if draft then e.draft else visTo e.vis v)
    match longest ps (pfxZone p) (pfxV6 p) (pfxAddr p) with
    | none => (.of stNoent, s)
    | some e => (.ok (le 1 e.len ++ zeros 3 ++ le 4 e.nextHop), s))

/-- PFX_LOOKUP (R170). -/
def execPfxLookup (h : CmdHeader) (p : List Byte) (s : State) : Host.Outcome State Fault Refusal := .next (pfxLookup h p s)

/-! ### MAC tables (R178) -/

/-- VLAN and station of the MAC commands. -/
def macVlan (p : List Byte) : Nat := leAt p 0 2
def macStation (p : List Byte) : Nat := beAt p 2 6

/-- Places of slices' tables, each a slice and a place, that a command's reads find uncorrectable (R177). -/
def loseMacs (s : State) (ue : List (Nat × Nat)) : State := ue.foldl (fun s e => loseMac e.1 s e.2) s

/-- The learns that stand before a command in a slice's learn engine are applied first. -/
def learnsFirst (s : State) (sl : Nat) : State :=
  let q := (sliceAt s sl).macQueue
  q.foldl (fun s l => applyLearn s sl l) (modSlice s sl (fun x => { x with macQueue := [] }))

/-- The entry of a station in one slice. -/
def macSearch (h : CmdHeader) (p : List Byte) (ue : List (Nat × Nat)) (s : State) : State :=
  let sl := (maskSlices h.slices).headD 0
  runAtOnce s 0x0501 h p 8 (decide (macVlan p < 4096)) (fun s =>
    let s := loseMacs (learnsFirst s sl) ue
    match macFind (sliceAt s sl) (macVlan p) (macStation p) with
    | none => (.of stNoent, s)
    | some (_, e) => (.ok (le 12 e.image), s))

/-- MAC_SEARCH (R178). -/
def execMacSearch (h : CmdHeader) (p : List Byte) (ue : List (Nat × Nat)) (s : State) : Host.Outcome State Fault Refusal :=
  .next (macSearch h p ue s)

/-- The next entries of one slice's table from a cursor. -/
def macNext (h : CmdHeader) (p : List Byte) (ue : List (Nat × Nat)) (s : State) : State :=
  let sl := (maskSlices h.slices).headD 0
  runAtOnce s 0x0502 h p 4 (decide (leAt p 0 4 < 0x40000)) (fun s =>
    let s := loseMacs (learnsFirst s sl) ue
    let l := trange (sliceAt s sl).mac (leAt p 0 4) 0x40000
    let t := l.take 1024
    let next := if 1024 < l.length then (t.getLast?.map (fun e => e.1 + 1)).getD 0x40000 else 0x40000
    (⟨stOk, 0, next, t.flatMap (fun e => le 12 e.2.image)⟩, s))

/-- MAC_NEXT (R178). -/
def execMacNext (h : CmdHeader) (p : List Byte) (ue : List (Nat × Nat)) (s : State) : Host.Outcome State Fault Refusal :=
  .next (macNext h p ue s)

/-- An all-or-none change of the MAC tables of slices. -/
def macCommand (h : CmdHeader) (ue : List (Nat × Nat)) (stages : State → List (Nat × (Nat → Bool)))
    (edit : SliceState → SliceState) (s : State) : Answer × State :=
  let slices := maskSlices h.slices
  let s := loseMacs (slices.foldl learnsFirst s) (ue.filter (fun e => slices.contains e.1))
  match stageFails slices (stages s) with
  | some a => (a, s)
  | none => (.ok [], slices.foldl (fun s sl => modSlice s sl edit) s)

/-- Where a static entry goes: over the station's own entry, or in the lowest free way of its bucket. -/
def staticPlace (x : SliceState) (vlan mac : Nat) : Option Nat :=
  match macFind x vlan mac with
  | some (i, _) => some i
  | none => macFreeWay x (macBucket vlan mac)

/-- A static station added in slices; one that is there already is no second entry. -/
def macStaticAdd (h : CmdHeader) (p : List Byte) (ue : List (Nat × Nat)) (s : State) : State :=
  let vlan := macVlan p
  let mac := macStation p
  runAtOnce s 0x0503 h p 9 (decide (vlan < 4096)) (fun s =>
    macCommand h ue (fun s =>
      [(stExists, fun sl => match macFind (sliceAt s sl) vlan mac with | some (_, e) => e.static_ | none => false),
       (stFull, fun sl => (staticPlace (sliceAt s sl) vlan mac).isNone)])
      (fun x => match staticPlace x vlan mac with
        | some i => let y := macErase x i
          { y with mac := tins y.mac i ⟨vlan, mac, byteAt p 8, true, false⟩ }
        | none => x) s)

/-- MAC_STATIC_ADD (R178). -/
def execMacStaticAdd (h : CmdHeader) (p : List Byte) (ue : List (Nat × Nat)) (s : State) :
    Host.Outcome State Fault Refusal := .next (macStaticAdd h p ue s)

/-- The place of a station's static entry. -/
def staticAt (x : SliceState) (vlan mac : Nat) : Option Nat :=
  match macFind x vlan mac with
  | some (i, e) => if e.static_ then some i else none
  | none => none

/-- A static station deleted in slices. -/
def macStaticDel (h : CmdHeader) (p : List Byte) (ue : List (Nat × Nat)) (s : State) : State :=
  let vlan := macVlan p
  let mac := macStation p
  runAtOnce s 0x0504 h p 8 (decide (vlan < 4096)) (fun s =>
    macCommand h ue (fun s => [(stNoent, fun sl => (staticAt (sliceAt s sl) vlan mac).isNone)])
      (fun x => match staticAt x vlan mac with | some i => macErase x i | none => x) s)

/-- MAC_STATIC_DEL (R178). -/
def execMacStaticDel (h : CmdHeader) (p : List Byte) (ue : List (Nat × Nat)) (s : State) :
    Host.Outcome State Fault Refusal := .next (macStaticDel h p ue s)

/-! ### Fan-out parts with a cursor -/

/-- Where a part that runs ends, and how: at a boundary where an uncorrectable error or, when the command was stopped,
the stop met it; else past its range. `stops`: part, cursor, uncorrectable; `step`: positions of one command step. -/
def partEnd (h : CmdHeader) (p : List Byte) (stops : List (Nat × Nat × Bool)) (stopped : Bool) (step k : Nat) : Nat × Nat :=
  let lo := fanStart h p k
  let hi := (fanRange h.opcode k).2
  match stops.find? (fun e => e.1 == k && (e.2.2 || stopped)) with
  | some (_, c, ue) =>
    if decide (lo ≤ c) && decide (c < hi) && (c - lo) % step == 0
    then (if ue then stUncorrectable else stAborted, c) else (stOk, hi)
  | none => (stOk, hi)

/-- How each selected part ends. -/
def fanEnds (h : CmdHeader) (p : List Byte) (stops : List (Nat × Nat × Bool)) (stopped : Bool) (step : Nat) :
    List (Nat × Nat × Nat) :=
  (fanParts h).map (fun k =>
    if fanRuns h p k then (k, partEnd h p stops stopped step k) else (k, (stOk, (resumeEntry p k).2)))

/-- The entries of a range that a flush deletes. -/
def flushPlaces (x : SliceState) (port : Nat) (static_ : Bool) (lo hi : Nat) : List Nat :=
  ((trange x.mac lo hi).filter (fun e => e.2.port == port && (!e.2.static_ || static_))).map (·.1)

/-- Entries naming a port deleted in each slice, part by part. -/
def macFlushPort (h : CmdHeader) (p : List Byte) (stops : List (Nat × Nat × Bool)) (s : State) : State :=
  let port := byteAt p 0
  runCommand s 0x0505 h p 2 true (fun stopped s =>
    let s := (fanParts h).foldl learnsFirst s
    let ends := fanEnds h p stops stopped 1024
    let gone (k : Nat) : List Nat := match ends.find? (fun e => e.1 == k) with
      | some e => if fanRuns h p k then flushPlaces (sliceAt s k) port (bit (byteAt p 1) 0) (fanStart h p k) e.2.2 else []
      | none => []
    let t := (fanParts h).foldl (fun t k => modSlice t k (fun x => (gone k).foldl macErase x)) s
    (some (.fan ends ((List.range 8).flatMap (fun k => le 4 (gone k).length))), t))

/-- MAC_FLUSH_PORT (R178). -/
def execMacFlushPort (h : CmdHeader) (p : List Byte) (stops : List (Nat × Nat × Bool)) (s : State) :
    Host.Outcome State Fault Refusal := .next (macFlushPort h p stops s)

end Sys2Proof.Machine
end

