-- ==== Sys2Proof/Machine/Xlat.lean ====
section
/-! DEFINITION. What Rewrite does to the bytes of a head (06/R191–R193, R201, R206–R208): decapsulation, NAPT44, NAT64,
ICMP errors, TTL and hop limit, and the layer-2 header. -/

namespace Sys2Proof.Machine

/-! ### Checksums (R193) -/

/-- A checksum that covers `old` and now covers `new` in its place (RFC 1624). -/
def cksMove (c : Nat) (old new : List Byte) : Nat :=
  65535 - onesFold ((65535 - c % 65536) + ((old.length + 1) / 2 * 65535 - sum16 old) + sum16 new)

/-- Move the checksum at an offset, when it lies before `stop`. -/
def fixCks (l : List Byte) (o stop : Nat) (old new : List Byte) : List Byte :=
  if o + 2 ≤ stop then patch l o (be 2 (cksMove (beAt l o 2) old new)) else l

/-- Move the UDP checksum: 0 on arrival stays 0 when it came in an IPv4 datagram, and a result of 0 is sent as all ones. -/
def fixUdp (l : List Byte) (o stop : Nat) (v4 : Bool) (old new : List Byte) : List Byte :=
  let c := beAt l (o + 6) 2
  if stop < o + 8 ∨ (v4 ∧ c = 0) then l
  else
    let n := cksMove c old new
    patch l (o + 6) (be 2 (if n = 0 then 65535 else n))

/-- Move a TCP or UDP checksum of a transport header that came in IPv4 (`v4`) or IPv6. -/
def fixL4 (l : List Byte) (o proto stop : Nat) (v4 : Bool) (old new : List Byte) : List Byte :=
  match proto with
  | 6 => fixCks l (o + 16) stop old new
  | 17 => fixUdp l o stop v4 old new
  | _ => l

/-! ### ICMP -/

/-- The protocol is an ICMP. -/
def isIcmp (proto : Nat) : Bool := proto == 1 || proto == 58

/-- The type is an echo of the ICMP of that protocol. -/
def isEcho (proto t : Nat) : Bool := (proto == 1 && (t == 8 || t == 0)) || (proto == 58 && (t == 128 || t == 129))

/-! ### NAPT44 (R201, R207) -/

/-- One endpoint of an IPv4 packet rewritten: its address, its port or echo identifier, and the checksums over them. -/
def natV4 (l : List Byte) (ip : IpAt) (proto : Nat) (dst : Bool) (addr : Nat) (port : Option Nat) : List Byte :=
  let ao := ip.off + (if dst then 16 else 12)
  let oldA := slice l ao 4
  let newA := be 4 addr
  let l := fixCks (patch l ao newA) (ip.off + 10) l.length oldA newA
  match ip.l4, port with
  | some o, some p =>
    if proto = 6 ∨ proto = 17 then
      let po := o + (if dst then 2 else 0)
      let oldP := slice l po 2
      fixL4 (patch l po (be 2 p)) o proto l.length true (oldA ++ oldP) (newA ++ be 2 p)
    else if isEcho proto (byteAt l o) then
      let oldI := slice l (o + 4) 2
      fixCks (patch l (o + 4) (be 2 p)) (o + 2) l.length oldI (be 2 p)
    else l
  | _, _ => l

/-- A NAPT44 frame: the packet itself; for an ICMP error, the header that carries it, and its embedded packet in reverse. -/
def napt44 (l : List Byte) (h : HeadInfo) (ip : IpAt) (dst : Bool) (addr port : Nat) : Option (List Byte) :=
  if h.icmpErr then
    match h.carrier with
    | some c => match c.l4 with
      | some o =>
        if 256 < min ip.stop c.stop then none
        else
          let l := natV4 l c 1 dst addr none
          let new := natV4 l ip h.proto (!dst) addr (some port)
          let n := l.length - ip.off
          some (fixCks new (o + 2) l.length (slice l ip.off n) (slice new ip.off n))
      | none => none
    | none => none
  else
    match ip.l4 with
    | some o =>
      if isIcmp h.proto && !isEcho h.proto (byteAt l o) then none else some (natV4 l ip h.proto dst addr (some port))
    | none => if isIcmp h.proto then none else some (natV4 l ip h.proto dst addr (some port))

/-! ### NAT64 (R207, R208) -/

/-- An IPv4 header made from IPv6. -/
def mkV4 (tos len ttl proto src dst : Nat) : List Byte :=
  let a := be 1 0x45 ++ be 1 tos ++ be 2 len ++ be 4 0x4000 ++ be 1 ttl ++ be 1 proto
  let b := be 4 src ++ be 4 dst
  a ++ be 2 (inetSum (a ++ b)) ++ b

/-- An IPv6 header made from IPv4. -/
def mkV6 (tc len proto hop src dst : Nat) : List Byte :=
  be 4 (at_ 6 31 28 + at_ tc 27 20) ++ be 2 len ++ be 1 proto ++ be 1 hop ++ be 16 src ++ be 16 dst

/-- The pseudo-header that an ICMPv6 checksum covers. -/
def pseudo6 (src dst : List Byte) (len : Nat) : List Byte := src ++ dst ++ be 4 len ++ be 4 58

/-- Type and code of an ICMPv6 error as ICMP (RFC 7915), and what the MTU of a packet-too-big becomes. -/
def errorTo4 (t c : Nat) (rest : List Byte) : Option (Nat × Nat × List Byte) :=
  match t, c with
  | 1, 0 | 1, 2 | 1, 3 => some (3, 1, rest)
  | 1, 1 => some (3, 10, rest)
  | 1, 4 => some (3, 3, rest)
  | 2, _ => some (3, 4, be 4 (unbe rest - 20))
  | 3, c => some (11, c, rest)
  | _, _ => none

/-- Type and code of an ICMP error as ICMPv6 (RFC 7915). A protocol unreachable becomes a parameter problem that points at
the next-header field. -/
def errorTo6 (t c : Nat) (rest : List Byte) : Option (Nat × Nat × List Byte) :=
  match t with
  | 11 => some (3, c, rest)
  | 3 =>
    if c = 4 then some (2, 0, be 4 (unbe rest % 65536 + 20))
    else if c = 3 then some (1, 4, rest)
    else if c = 2 then some (4, 1, be 4 6)
    else if c = 9 ∨ c = 10 ∨ c = 13 ∨ c = 15 then some (1, 1, rest)
    else if c = 14 ∨ 15 < c then none
    else some (1, 0, rest)
  | _ => none

/-- Type of an echo in the other version. -/
def echoOther (t : Nat) : Nat := match t with | 8 => 128 | 0 => 129 | 128 => 8 | _ => 0

/-- How a NAT64 translation makes a packet: the addresses and ports of the packet it makes, by side. -/
structure Sixfour where
  /-- Towards IPv4. -/
  to4 : Bool
  prefix_ : Nat
  addr : Nat
  port : Nat
  /-- TTL_DEC applies: the header made has one less. -/
  dec : Bool
  deriving DecidableEq, Repr

/-- Addresses of the packet made: `rev` for the embedded packet of an error, whose endpoints are the other way round. -/
def Sixfour.ends (x : Sixfour) (rev : Bool) (l : List Byte) (ip : IpAt) : Nat × Nat :=
  if x.to4 then
    if rev then (beAt l (ip.off + 20) 4, x.addr) else (x.addr, beAt l (ip.off + 36) 4)
  else
    let far (o : Nat) : Nat := x.prefix_ * 2 ^ 32 + beAt l (ip.off + o) 4
    if rev then (x.addr, far 16) else (far 12, x.addr)

/-- The addresses of the packet as it stands. -/
def ipAddrs (l : List Byte) (ip : IpAt) : List Byte := if ip.v6 then slice l (ip.off + 8) 32 else slice l (ip.off + 12) 8

/-- The header made for a packet whose upper layer has `len` bytes. -/
def Sixfour.header (x : Sixfour) (rev : Bool) (l : List Byte) (ip : IpAt) (proto len : Nat) : List Byte :=
  let e := x.ends rev l ip
  if x.to4 then
    mkV4 (beAt l ip.off 2 / 16 % 256) (len + 20) (byteAt l (ip.off + 7) - b2n x.dec)
      (if proto = 58 then 1 else proto) e.1 e.2
  else
    mkV6 (byteAt l (ip.off + 1)) len (if proto = 1 then 58 else proto) (byteAt l (ip.off + 8) - b2n x.dec) e.1 e.2

/-- The addresses of the header made. -/
def Sixfour.addrs (x : Sixfour) (rev : Bool) (l : List Byte) (ip : IpAt) : List Byte :=
  let e := x.ends rev l ip
  if x.to4 then be 4 e.1 ++ be 4 e.2 else be 16 e.1 ++ be 16 e.2

/-- The upper layer of a packet (its bytes from the transport header on, of `len` whether or not all are there) as the other
version has it: the translated port or identifier and the checksum. -/
def Sixfour.upper (x : Sixfour) (rev : Bool) (l : List Byte) (ip : IpAt) (proto len : Nat) (u : List Byte) : List Byte :=
  let oldA := ipAddrs l ip
  let newA := x.addrs rev l ip
  let po := if x.to4 != rev then 0 else 2
  if proto = 6 ∨ proto = 17 then
    fixL4 (patch u po (be 2 x.port)) 0 proto u.length (!x.to4) (oldA ++ slice u po 2) (newA ++ be 2 x.port)
  else if isEcho proto (byteAt u 0) then
    let t := echoOther (byteAt u 0)
    let old := slice u 0 2 ++ slice u 4 2 ++ (if x.to4 then pseudo6 (oldA.take 16) (oldA.drop 16) len else [])
    let new := be 1 t ++ slice u 1 1 ++ be 2 x.port ++
      (if x.to4 then [] else pseudo6 (newA.take 16) (newA.drop 16) len)
    fixCks (patch (patch u 0 (be 1 t)) 4 (be 2 x.port)) 2 u.length old new
  else u

/-- Where a packet's upper layer starts. -/
def upperAt (ip : IpAt) (cursor : Nat) : Nat := ip.l4.getD cursor

/-- The EtherType before an IP header that is replaced by the other version's. -/
def retype (l : List Byte) (off : Nat) (to4 : Bool) : List Byte :=
  if beAt l (off - 2) 2 = (if to4 then 0x86DD else 0x0800) then patch l (off - 2) (be 2 (if to4 then 0x0800 else 0x86DD)) else l

/-- A NAT64 packet that is no ICMP error, and where its header stands. -/
def Sixfour.packet (x : Sixfour) (l : List Byte) (ip : IpAt) (proto cursor : Nat) : Option (List Byte × IpAt) :=
  let o := upperAt ip cursor
  let stop := min ip.stop l.length
  let u := slice l o (stop - o)
  if isIcmp proto && !isEcho proto (byteAt u 0) then none
  else
    let h := x.header false l ip proto u.length
    let u := x.upper false l ip proto (ip.stop - o) u
    some (retype (l.take ip.off) ip.off x.to4 ++ h ++ u ++ l.drop stop,
      ⟨!x.to4, ip.off, ip.off + h.length + u.length, some (ip.off + h.length)⟩)

/-- A NAT64 ICMP error: carrier, type and code, MTU, and the embedded packet in reverse. -/
def Sixfour.error (x : Sixfour) (l : List Byte) (c ip : IpAt) (proto cursor : Nat) : Option (List Byte × IpAt) :=
  match c.l4 with
  | none => none
  | some o =>
    if 256 < min ip.stop c.stop then none
    else
      match (if x.to4 then errorTo4 else errorTo6) (byteAt l o) (byteAt l (o + 1)) (slice l (o + 4) 4) with
      | none => none
      | some (t, code, rest) =>
        let stop := min c.stop l.length
        let eo := upperAt ip cursor
        let eu := slice l eo (stop - eo)
        let eh := x.header true l ip proto (ip.stop - eo)
        let eu' := x.upper true l ip proto (ip.stop - eo) eu
        let oldMsg := slice l o (stop - o)
        let body := be 1 t ++ be 1 code ++ slice l (o + 2) 2 ++ rest ++ eh ++ eu'
        let oldA := ipAddrs l c
        let newA := x.addrs false l c
        let oldC := oldMsg.take 2 ++ oldMsg.drop 4 ++
          (if x.to4 then pseudo6 (oldA.take 16) (oldA.drop 16) oldMsg.length else [])
        let newC := body.take 2 ++ body.drop 4 ++
          (if x.to4 then [] else pseudo6 (newA.take 16) (newA.drop 16) body.length)
        let msg := fixCks body 2 body.length oldC newC
        let h := x.header false l c (if x.to4 then 58 else 1) msg.length
        some (retype (l.take c.off) c.off x.to4 ++ h ++ msg ++ l.drop stop,
          ⟨!x.to4, c.off + h.length + 8, c.off + h.length + msg.length, some (c.off + h.length + 8 + eh.length)⟩)

/-! ### Decapsulation (R191 step 1) -/

/-- A place in the frame after `cut` bytes before it became `kept`. -/
def IpAt.shift (ip : IpAt) (cut kept : Nat) : IpAt :=
  { ip with off := ip.off + kept - cut, stop := ip.stop + kept - cut, l4 := ip.l4.map (fun o => o + kept - cut) }

/-- Bytes before the inner frame or packet, and what stands in their place. -/
def HeadInfo.decap (h : HeadInfo) (l : List Byte) : Option (Nat × List Byte) :=
  match h.tun with
  | none => none
  | some (inner, none) => some (inner, [])
  | some (inner, some ipOff) =>
    some (inner, l.take (ipOff - 2) ++ be 2 (if byteAt l inner / 16 = 6 then 0x86DD else 0x0800))

/-! ### TTL, DSCP, layer 2 (R191 steps 3 to 5, R192) -/

/-- TTL or hop limit of a header. -/
def ttlOf (l : List Byte) (ip : IpAt) : Nat := byteAt l (ip.off + (if ip.v6 then 7 else 8))

/-- TTL or hop limit decreased by one. -/
def decTtl (l : List Byte) (ip : IpAt) : List Byte :=
  if ip.v6 then patch l (ip.off + 7) (be 1 (ttlOf l ip - 1))
  else
    let old := slice l (ip.off + 8) 2
    let l := patch l (ip.off + 8) (be 1 (ttlOf l ip - 1))
    fixCks l (ip.off + 10) l.length old (slice l (ip.off + 8) 2)

/-- ECN field of a header. -/
def ecnOf (l : List Byte) (ip : IpAt) : Nat :=
  if ip.v6 then beAt l ip.off 2 / 16 % 4 else byteAt l (ip.off + 1) % 4

/-- The layer-2 header of a routed frame: MAC addresses and the outermost tag. -/
def routeL2 (l : List Byte) (nh src tc : Nat) : List Byte :=
  let macs := be 6 (nhMac nh) ++ be 6 src
  if nhTag nh then
    if isTagged l then macs ++ be 2 0x8100 ++ be 2 (withBits (tagTci l) 11 0 (nhVlan nh)) ++ l.drop 16
    else macs ++ be 2 0x8100 ++ be 2 (at_ tc 15 13 + at_ (nhVlan nh) 11 0) ++ l.drop 12
  else if isTagged l then macs ++ l.drop 16
  else macs ++ l.drop 12

/-- Bytes that step 5 puts before an offset beyond the layer-2 header. -/
def routeShift (l : List Byte) (nh : Nat) : Int :=
  if nhTag nh then (if isTagged l then 0 else 4) else if isTagged l then -4 else 0

end Sys2Proof.Machine
end

