-- ==== Sys2Proof/Machine/Rewrite.lean ====
section
/-! DEFINITION. REWRITE: the action result of a pass (06/R183–R187), load-balancer reassignment (R214), the head rewritten
(R191–R196), the egress class (08/R263), recirculation (04/R139), and where the frame goes next. -/

namespace Sys2Proof.Machine

/-! ### The next hop of a pass (R183, R186, R214) -/

/-- Where a pass sends its head. -/
inductive Hop where
  /-- A valid next-hop entry: its ID and image. -/
  | nh (id img : Nat)
  /-- The layer-2 result. -/
  | l2 (f : Forward)
  /-- Nowhere: the frame is denied, and counted in a device counter. -/
  | invalid
  /-- Nowhere, by the layer-2 tables: counted in a slice counter, or in none when it is 0. -/
  | blocked (counter : Nat)
  deriving DecidableEq, Repr

/-- A next-hop ID has a valid image that a head's pass finds. -/
def nhUsable (s : State) (f : Frame) (nh : Nat) : Bool := nh != 0 && nh != 0xFFFFF && nhValid (headDt s f 1 nh)

/-- The frame's own result (R183). -/
def ownHop (s : State) (f : Frame) : Hop :=
  match ownResult f.cls with
  | .hop n => if nhUsable s f n then .nh n (headDt s f 1 n) else .invalid
  | .l2 (.drop k) => .blocked k
  | .l2 .none => .invalid
  | .l2 x => .l2 x
  | .nothing => .invalid

/-- A record is pinned to a target that is being reassigned (R214, R215): the pool. -/
def reassigning (s : State) (b : FlowBody) : Option Nat :=
  let prof := profileOf s 0 b.action.profile s.rules.current
  let pool := profLbPool prof
  if profLb prof && tget false s.actions.reassign (bits (dtFind s 0 2 pool s.rules.current) 54 33 + b.rwTarget) then some pool
  else none

/-- A record's next hop and target are written, in a bank slot that no head has claimed. -/
def writeHop (s : State) (f : Frame) (nh : Nat) (target : Option Nat) : State :=
  if current s f.handle then
    modBody s (handleIdx f.handle) (fun b => { b with
      action := { b.action with nextHop := nh }, rwTarget := target.getD b.rwTarget })
  else s

/-- A next hop resolved anew (R186): written to the record and used, when it forwards somewhere. -/
def renewHop (ue : List Nat) (s : State) (f : Frame) (b : FlowBody) : Hop × State :=
  let prof := profileOf s f.slice b.action.profile f.version
  if profLb prof then
    match lbSelect ue s (profLbPool prof) f.version f.slice f.head.key f.head.d with
    | .ok ((k, nh), s) =>
      if nhUsable s f nh then (.nh nh (headDt s f 1 nh), writeHop s f nh (some k)) else (.invalid, s)
    | .error (_, s) => (.invalid, s)
  else match learnHop f.cls with
    | none => (.invalid, s)
    | some 0 => (ownHop s f, writeHop s f 0 none)
    | some nh =>
      if nhUsable s f nh then (.nh nh (headDt s f 1 nh), writeHop s f nh none) else (.invalid, s)

/-- The next hop that a record gives a head. -/
def recordHop (ue : List Nat) (s : State) (f : Frame) (b : FlowBody) : Hop × State :=
  let use (nh : Nat) (s : State) : Hop × State :=
    if nh = 0 then (ownHop s f, s)
    else if nhUsable s f nh then (.nh nh (headDt s f 1 nh), s)
    else renewHop ue s f b
  match reassigning s b with
  | none => use b.action.nextHop s
  | some pool => match lbSelect ue s pool f.version f.slice f.head.key f.head.d with
    | .ok ((k, nh), s) => use nh (cntDev (writeHop s f nh (some k)) 0x4D)
    | .error (_, s) => use b.action.nextHop (cntDev s 0x4C)

/-- The next hop of a pass. -/
def passHop (ue : List Nat) (s : State) (f : Frame) : Hop × State :=
  match f.found with
  | some b => recordHop ue s f b
  | none => (ownHop s f, s)

/-! ### The action result (R185, R187; 08/R263) -/

/-- The action result of a pass, but for its next hop. -/
def actionResult (f : Frame) : Result :=
  let c := f.cls
  match f.found with
  | some b =>
    let deny := b.action.verdict == 1 || b.action.verdict == 3 || c.merged.denyOverride
    { verdict := if deny then 1 else b.action.verdict, denyOverride := c.merged.denyOverride, cls := b.action.cls,
      profile := b.action.profile, nextHop := 0xFFFFF, polEn := b.action.polEn, policer := b.action.policer,
      deep := b.action.deep, recirc := c.merged.recirc }
  | none =>
    { verdict := ownVerdict c, denyOverride := c.merged.denyOverride, cls := ownClass c, profile := ownProfile c,
      nextHop := 0xFFFFF, polEn := c.hasPol && c.merged.polEn, policer := if c.hasPol then c.merged.policer else 0,
      deep := false, recirc := c.merged.recirc }

/-- The egress class: the profile's, when it is valid; the PCP as received; 0 (08/R263). -/
def egressClass (s : State) (f : Frame) (profile : Nat) : Nat :=
  let x := dtImage s f.slice 5 profile f.version
  if bit x 127 then profTc x else if isTagged f.rx then tagTci f.rx / 8192 else 0

/-! ### The bytes (R191) -/

/-- A head being rewritten: its bytes, its innermost and its outermost IP header. -/
structure Edit where
  bytes : List Byte
  inner : Option IpAt
  outermost : Option IpAt
  deriving DecidableEq, Repr

/-- The head as Rewrite finds it. -/
def Frame.edit (f : Frame) : Edit := ⟨f.data, f.head.ip, f.head.outer⟩

/-- Step 1. -/
def Edit.decap (e : Edit) (s : State) (f : Frame) (prof : Nat) : Edit :=
  let own := dstMac f.data == bits (headDt s f 3 f.port) 47 0
  if profDecap prof && f.head.tunnel && (!f.cls.bridged || own) then
    match f.head.decap e.bytes with
    | none => e
    | some (cut, kept) =>
      let inner := e.inner.map (fun i => i.shift cut kept.length)
      ⟨kept ++ e.bytes.drop cut, inner, (f.head.carrier.map (fun i => i.shift cut kept.length)).orElse (fun _ => inner)⟩
  else e

/-- The head information as the bytes stand after step 1. -/
def Frame.headNow (f : Frame) (e : Edit) : HeadInfo :=
  let moved (i : IpAt) : IpAt := match f.head.ip, e.inner with
    | some a, some b => i.shift a.off b.off
    | _, _ => i
  { f.head with
    ip := e.inner, carrier := f.head.carrier.map moved,
    cursor := match f.head.ip, e.inner with
      | some a, some b => f.head.cursor + b.off - a.off
      | _, _ => f.head.cursor }

/-- Step 2, and the hop limit of a NAT64 header (R208): none when an ICMP message cannot be translated (R207). -/
def Edit.xlate (e : Edit) (s : State) (f : Frame) (dec : Bool) : Option Edit :=
  match f.found, e.inner with
  | some b, some ip =>
    let h := f.headNow e
    let six (to4 : Bool) (addr port : Nat) : Option Edit :=
      let x : Sixfour := ⟨to4, prefix64Of s f.slice b f.version, addr, port, dec⟩
      let r := match h.icmpErr, h.carrier with
        | true, some c => x.error e.bytes c ip h.proto h.cursor
        | _, _ => x.packet e.bytes ip h.proto h.cursor
      r.map (fun r =>
        let front (o : IpAt) : IpAt := { o with v6 := !to4 }
        ⟨r.1, some r.2, (h.carrier.orElse (fun _ => e.inner)).map front⟩)
    match xlateOf b with
    | .none => some e
    | .source => (napt44 e.bytes h ip false b.rwAddr b.rwPort).map (fun l => { e with bytes := l })
    | .dest => (napt44 e.bytes h ip true b.rwAddr b.rwPort).map (fun l => { e with bytes := l })
    | .to4 => six true b.rwAddr b.rwPort
    | .to6 => six false b.extAddr b.extPort
  | _, _ => some e

/-- Step 3 for a header that step 2 has not made. -/
def Edit.ttl (e : Edit) (dec made : Bool) : Edit :=
  match e.inner with
  | some ip => if dec && !made then { e with bytes := decTtl e.bytes ip } else e
  | none => e

/-- Step 4. -/
def Edit.dscp (e : Edit) (prof : Nat) : Edit :=
  match e.inner with
  | some ip => if profMark prof then { e with bytes := setDscp e.bytes ip.off (profDscp prof) } else e
  | none => e

/-- An offset moved by step 5. -/
def IpAt.slide (ip : IpAt) (d : Int) : IpAt :=
  { ip with
    off := ((ip.off : Int) + d).toNat, stop := ((ip.stop : Int) + d).toNat,
    l4 := ip.l4.map (fun (o : Nat) => ((o : Int) + d).toNat) }

/-- Step 5 of a routed frame. -/
def Edit.route (e : Edit) (nh src tc : Nat) : Edit :=
  let d := routeShift e.bytes nh
  ⟨routeL2 e.bytes nh src tc, e.inner.map (fun i => i.slide d), e.outermost.map (fun i => i.slide d)⟩

/-- The record translates the frames it finds. -/
def Frame.remade (f : Frame) : Bool :=
  match f.found with
  | some b => (match xlateOf b with | .to4 | .to6 => true | _ => false)
  | none => false

/-- Steps 1 to 5: the head rewritten, or the device counter that a denied one is counted in. -/
def rewriteHead (s : State) (f : Frame) (prof tc : Nat) (hop : Hop) : Except Nat Edit :=
  let e := f.edit.decap s f prof
  let nh := match hop with | .nh _ img => if nhKind img = 0 then some img else none | _ => none
  let dec := nh.isSome && profTtl prof
  let src := match nh with | some img => headDt s f 3 (nhPort img) | none => 0
  let expired := dec && f.head.keyed && (match e.inner with | some ip => decide (ttlOf e.bytes ip ≤ 1) | none => false)
  if nh.isSome && !bit src 63 then .error 0x41
  else if expired then .error 0x42
  else
    let done := if f.head.keyed then
        (e.xlate s f dec).map (fun e => (e.ttl dec (f.remade)).dscp prof)
      else some e
    match done with
    | none => .error 0x4B
    | some e => match nh with
      | some img => .ok (e.route img (bits src 47 0) tc)
      | none => .ok e

/-! ### Where the frame goes -/

/-- A frame is denied at Rewrite: its slot is retired, its count void. -/
def denyFrame (s : State) (id : Nat) : State := onFrame s id (fun f => discardHead (slotRetired s f.slice) id 4)

/-- The rewritten bytes stand in the frame, with what the tail and egress need (Table 07-2). -/
def Frame.rewritten (f : Frame) (e : Edit) (tc : Nat) (r : Result) (nh : Nat) : Frame :=
  { f with
    data := e.bytes, tc := tc, result := { r with nextHop := nh }, nextHop := nh,
    ipOff := (e.outermost.filter (fun (i : IpAt) =>
      decide (i.off + (if i.v6 then 40 else byteAt e.bytes i.off % 16 * 4) ≤ 256))).map IpAt.off,
    innerOff := if f.head.keyed then e.inner.map IpAt.off else none,
    ecnCap := match e.outermost with | some i => ecnOf e.bytes i != 0 | none => false }.settleFcs

/-- The ports a hop leads to, and whether the frame is copied to them. -/
def Hop.ports : Hop → List Nat × Bool
  | .nh _ img => ([nhPort img], false)
  | .l2 (.port p) => ([p], false)
  | .l2 (.flood m) => (setBits m 256, true)
  | _ => ([], false)

/-- The ID of a hop's next-hop entry. -/
def Hop.id : Hop → Nat
  | .nh i _ => i
  | _ => 0

/-- What a deep scan takes of a frame's first pass (04/R127): nothing of a fragment or of an empty payload. -/
def Frame.scanJob (f : Frame) : Option DeepJob :=
  if f.deepScan && !f.head.frag && decide (0 < f.payloadLen) then
    some ⟨f.payload, f.head.d, (f.segment).map Segment.seq⟩
  else none

/-- The final Rewrite of a frame is complete: it carries its snapshot, and its version only while it awaits a deep scan. -/
def rewriteDone (s : State) (id : Nat) (hop : Hop) (punt : Option Nat) : State :=
  onFrame s id (fun f =>
    let deep := f.job.isSome
    let s := modFrame s id (fun f => { f with
      stage := if f.result.polEn then .policing else .admitting, punt := punt, deepQueued := deep,
      egress := if punt.isSome then [] else hop.ports.1, mc := punt.isNone && hop.ports.2,
      times := { f.times with rewriteEnd := s.time.tick } })
    let s := if f.result.polEn then { s with egress := { s.egress with polWait := s.egress.polWait ++ [id] } } else s
    let s := snapAdd (slotRetired s f.slice) f.slice f.version
    if deep then s else headLeave s f.slice f.version)

/-- A pass ends in recirculation: the head joins the queue and passes again as Rewrite left it (04/R139). -/
def recirculate (s : State) (id : Nat) : State :=
  onFrame s id (fun f =>
    let s := modFrame s id (fun f => { f with stage := .recirculating, pass := f.pass + 1 })
    modSlice (slotRecirc s f.slice) f.slice (fun x => { x with recirc := x.recirc ++ [id] }))

/-- A pass's action result is known: apply it. -/
def applyResult (s : State) (id : Nat) (f : Frame) (r : Result) (hop : Hop) : State :=
  let prof := profileOf s f.slice r.profile f.version
  let tc := egressClass s f r.profile
  match rewriteHead s f prof tc hop with
  | .error k => denyFrame (cntDev s k) id
  | .ok e =>
    let s := modFrame s id (fun f => f.rewritten e tc r hop.id)
    if r.recirc then recirculate s id
    else match hop with
      | .nh _ img =>
        if nhKind img = 2 then rewriteDone s id hop (some (if r.verdict = 2 then 0x20 else 0x21))
        else rewriteDone s id hop (if r.verdict = 2 then some 0x20 else none)
      | _ => rewriteDone s id hop (if r.verdict = 2 then some 0x20 else none)

/-- The record that found a fragment translates its flow: the fragment is not translated, but punted or dropped (R206). -/
def translatedFrag (f : Frame) : Bool :=
  f.head.frag && (match f.found with | some b => b.kind != 0 | none => false)

/-- A fragment of a translated flow at Rewrite. -/
def fragOut (s : State) (id : Nat) (f : Frame) : State :=
  let s := cntDev s 0x4A
  match f.found with
  | some b => if profFragPunt (profileOf s f.slice b.action.profile f.version) then rewriteDone s id (.l2 .none) (some 0x22)
    else denyFrame s id
  | none => s

/-- Rewrite of a head whose classification and lookup are both done. It waits for earlier heads of its flow and port, which
keep their order (01/R28), and, when its pass asks for recirculation, for room in the queue. -/
def rewrite (id : Nat) (ue : List Nat) (s0 : State) : State :=
  onFrame s0 id (fun f =>
    let r := actionResult f
    if f.stage != .parsed || !f.cls.done || f.lookup != .done || overtakes s0 id f Frame.inPasses then s0
    else if r.recirc && r.verdict != 1 && decide (256 ≤ (sliceAt s0 f.slice).recirc.length) &&
        decide (f.pass < fldV s0 .prsCfg [f.slice] f.version 1 0) then s0
    else
      let s := if f.pass = 0 then modFrame s0 id (fun f => { f with job := f.scanJob }) else s0
      if r.verdict = 1 ∨ r.verdict = 3 then denyFrame s id
      else if translatedFrag f then fragOut s id f
      else if r.recirc && decide (fldV s .prsCfg [f.slice] f.version 1 0 ≤ f.pass) then denyFrame (cntSl s f.slice 0x270) id
      else
        let h := passHop ue s f
        match h.1 with
        | .invalid => denyFrame (cntDev h.2 0x41) id
        | .blocked k => denyFrame (if k = 0 then h.2 else cntSl h.2 f.slice k) id
        | .nh _ img =>
          if nhKind img = 1 ∨ nhKind img = 3 then denyFrame (cntDev h.2 0x55) id
          else applyResult h.2 id f r h.1
        | .l2 _ => applyResult h.2 id f r h.1)

/-- REWRITE (R191). -/
def execRewrite (id : Nat) (ue : List Nat) (s : State) : Host.Outcome State Fault Refusal := .next (rewrite id ue s)

end Sys2Proof.Machine
end

