-- ==== Sys2Proof/Machine/Sweep.lean ====
section
/-! DEFINITION. The flow store's own clockwork: activity (03/R83, R84), the aging sweep with its recount, next-hop and target
drains and exports (R92–R94; 06/R189, R209, R215, R221), end requests, migration (R89, R90), the retirement of a
pseudo-channel (R97), and the block sweep (06/R209) and withy fold (05/R166) tasks. -/

namespace Sys2Proof.Machine

/-! ### ACTIVITY_TICK -/

/-- A record's score at an activity tick. -/
def HotRec.age (r : HotRec) : HotRec := { r with score := r.score / 2 + b2n r.recent * 128, recent := false }

/-- One activity tick of every bank, at the release of its timer (R406). -/
def activityTick (s : State) : State :=
  if !due s 0 then s
  else withSkein (acted s 0) (fun k => { k with
    hot := k.hot.map (fun e => (e.1, e.2.age)),
    merged := k.merged.map (fun e => (e.1, e.2.age)),
    season := k.season.map (fun e => (e.1, min 3 (e.2 + 1))) })

/-- ACTIVITY_TICK (R83). -/
def execActivityTick (s : State) : Host.Outcome State Fault Refusal := .next (activityTick s)

/-! ### Ages (02/R56) -/

/-- The timeout of a record's state in units of 16 ms; 0 is never. -/
def lifeTimeout (s : State) (b : FlowBody) : Nat :=
  match b.life with
  | 1 => fld s .clsIdle [b.action.cls] 15 0 * 125 / 2
  | 2 => fld s .clsClose [b.action.cls] 15 0
  | 3 => fld s .clsClose [b.action.cls] 31 16
  | _ => 0

/-- A record has reached the timeout of its state. -/
def expired (s : State) (b : FlowBody) : Bool :=
  lifeTimeout s b != 0 && decide (lifeTimeout s b ≤ (seenNow s + 2 ^ 24 - b.lastSeen) % 2 ^ 24)

/-! ### Exports while a flow lives (06/R221, R222) -/

/-- What a record has counted in the bank of the open epoch. -/
def currentCounts (s : State) (idx : Nat) : Counts :=
  let c := coldAt s idx
  let h := hotCounts s idx
  let cold := if parity s = 0 then c.bank0 else c.bank1
  if h.1 = parity s then cold.add h.2 else cold

/-- The other record of a translated flow, as a record in force. -/
def twinBody (s : State) (idx : Nat) : Option Nat :=
  if (bodyOf s idx).kind ≠ 0 ∧ current s (coldAt s idx).twin then some (handleIdx (coldAt s idx).twin) else none

/-- One export of a flow with the values in force, from its primary; the folds of both records that are in flight come
first. -/
def exportFlow (s : State) (idx reason : Nat) : State :=
  let p := if (bodyOf s idx).kind = 2 then (twinBody s idx).getD idx else idx
  let t := twinBody s p
  let s := settleBursts s p
  let s := match t with
    | some t => settleBursts s t
    | none => s
  let sum := match t with
    | some t => (currentCounts s p).add (currentCounts s t)
    | none => currentCounts s p
  queueExport s (flowRecord s (bodyOf s p) (t.map (bodyOf s)) (coldAt s p).learnPort reason sum)

/-- Served time in units of 16 ms. -/
def visitNow (s : State) : Nat := timeNs s.time.served / 16000000

/-- LAST_SEEN, as the latest served time not in the future that it may stand for (R222), lies after an earlier visit; all in
units of 16 ms. -/
def seenAfter (s : State) (seen visit : Nat) : Bool :=
  let now := visitNow s
  decide (visit < now - (now % 2 ^ 24 + 2 ^ 24 - seen % 2 ^ 24) % 2 ^ 24)

/-- A sweep visit's export of a record (Table 06-16). -/
def exportVisit (s : State) (idx : Nat) : State :=
  let b := bodyOf s idx
  let later := match tfind s.skein.visits (idx / 8) with | some t => seenAfter s b.lastSeen t | none => true
  if b.kind != 2 && (b.action.exportMode == 3 || (b.action.exportMode == 2 && later)) then exportFlow s idx 2 else s

/-! ### AGING_SWEEP_BATCH -/

/-- Entries of a table whose line is lost are gone. -/
def dropLost {α : Type} (lost : List (Bool × Nat)) (line : Nat → Nat) (t : Table α) : Table α :=
  t.filter (fun e => !(lost.contains (true, line e.1 / 64) || lost.contains (false, line e.1)))

/-- A pass begins: a due recount starts, quarantined IDs whose snapshots are gone will be cleared, drains count anew, and
lost lines of translation state are empty again while this pass ends their flows (R94, R189, R209, R215). -/
def sweepBegin (s : State) : State :=
  let lost := s.actions.natLost
  { s with
    skein := { s.skein with
      sweepStart := s.time.tick, sweepPeriod := max 1 (fld s .sknAgeCfg [] 15 0), recounting := s.skein.recountDue, recountDue := false,
      tally := if s.skein.recountDue then [] else s.skein.tally },
    rules := { s.rules with
      quarantine := s.rules.quarantine.map (fun q => (q.1, q.2.1, q.2.2 || quarantineClear s q.2.1)) },
    actions := { s.actions with
      draining := s.actions.draining.map (fun d => { d with count := 0, counting := true }),
      natEnding := lost, natLost := [],
      subs := dropLost lost subLine s.actions.subs, blocks := dropLost lost blockLine s.actions.blocks,
      ports := dropLost lost portLine s.actions.ports } }

/-- Lines of translation state that a translated record rests on. -/
def natLines (s : State) (b : FlowBody) : List Nat :=
  match b.mapping with
  | none => []
  | some (m, blk) =>
    [portLine m, blockLine blk] ++
      (match tfind s.actions.blocks blk with | some x => [subLine x.sub] | none => [])

/-- The running pass ends a translated record, whose state was lost. -/
def natEnds (s : State) (b : FlowBody) : Bool :=
  b.kind != 0 && !s.actions.natEnding.isEmpty &&
  (natLines s b).any (fun l => s.actions.natEnding.contains (true, l / 64) || s.actions.natEnding.contains (false, l))

/-- A record is pinned to a target (R215). -/
def pinnedTo (s : State) (b : FlowBody) (d : Draining) : Bool :=
  let prof := profileOf s 0 b.action.profile s.rules.current
  profLb prof && profLbPool prof == d.pool && b.rwTarget == d.k

/-- Learns queued for a bucket, each by the port that it counts as live. -/
def learnsQueued (s : State) (b : Nat) : List Nat :=
  (s.frames.filter (fun e => e.2.lookup == .learnQueued && e.2.head.key.bucket == b)).map (fun e => e.2.port)

/-- The sweep visits one valid record. The tally of a recount counts flows as LIVE does, a translated one by its primary
alone (DESIGN CHOICE: R94 speaks of valid records, log entry 40), and none that this visit ends. -/
def sweepRecord (s : State) (idx : Nat) : State :=
  let b := bodyOf s idx
  let s := if s.rules.quarantine.any (fun q => q.2.2 && q.1 == b.action.nextHop) then
      modBody s idx (fun b => { b with action := { b.action with nextHop := 0xFFFFF } }) else s
  let s := withActions s (fun a => { a with
    draining := a.draining.map (fun d => if pinnedTo s b d then { d with count := d.count + 1 } else d) })
  let s := if s.skein.recounting && b.kind != 2 && !natEnds s b then
      withSkein s (fun k => { k with tally := tmod 0 k.tally (coldAt s idx).learnPort (· + 1) }) else s
  let s := exportVisit s idx
  if natEnds s b then endFlow s idx 4
  else if expired s b && !s.skein.endReqs.contains idx then
    withSkein s (fun k => { k with endReqs := k.endReqs ++ [idx] })
  else s

/-- The sweep visits one bucket: records of `bad` places do not read, and its tag line does not when it is one of `tags`. A
learn that is queued for it counts as live already. -/
def sweepBucket (s : State) (b : Nat) (bad tags : List Nat) : State :=
  let s := if tags.contains b && homeAnswers s b then tagLineUe s b 2 bad false else s
  let idxs := ((List.range 8).map (fun w => b * 8 + w)).filter (fun i => (wayAt s i).valid)
  let s := idxs.foldl (fun s i =>
    if !(wayAt s i).valid then s
    else if bad.contains i || decide (5 ≤ (bodyOf s i).life) then
      loseRecord (if bad.contains i then hbmUe s (bucketHome s b).1 (recLineNo s i) 2 else s) i false
    else sweepRecord s i) s
  withSkein s (fun k => { k with
    visits := tins k.visits b (visitNow s),
    tally := if k.recounting then (learnsQueued s b).foldl (fun t p => tmod 0 t p (· + 1)) k.tally else k.tally })

/-- A next hop's quarantine ends (Table 06-4 step 4). -/
def freeHop (s : State) (id : Nat) : State := actionEvent (raiseEv s .actEvent [] [0]) 1 id 0

/-- A drained target's entry is free (R215). -/
def freeTarget (s : State) (d : Draining) : State :=
  let s := withActions s (fun a => { a with
    targets := tdel a.targets d.entry, reassign := tdel a.reassign d.entry, draining := a.draining.erase d })
  actionEvent (raiseEv s .actEvent [] [1]) 2 d.pool d.k

/-- A pass ends; it was late when it took longer than the SWEEP_PERIOD it began with (Table 03-10). -/
def sweepEnd (s : State) : State :=
  let s := if ticksOfNs (s.skein.sweepPeriod * 1000000000) < s.time.tick - s.skein.sweepStart then raiseEv s .sknEvent [] [4] else s
  let s := if s.skein.recounting then
      withSkein s (fun k => { k with live := k.tally, recounting := false, tally := [] }) else s
  let freed := (s.rules.quarantine.filter (fun q => q.2.2)).map (·.1)
  let s := freed.foldl freeHop { s with rules := { s.rules with quarantine := s.rules.quarantine.filter (fun q => !q.2.2) } }
  let s := (s.actions.draining.filter (fun d => d.counting && d.count == 0)).foldl freeTarget s
  withActions (withSkein s (fun k => { k with sweepNext := 0 })) (fun a => { a with natEnding := [] })

/-- Cold buckets of the device. -/
def coldBuckets : Nat := 16777216

/-- The next `n` buckets of the pass. A bucket whose home does not answer yet holds the sweep. -/
def sweepSome (bad tags : List Nat) : Nat → State → State
  | 0, s => s
  | n + 1, s =>
    let b := s.skein.sweepNext
    if (groupAt s (groupOf b)).placed && !homeTakes s b then s
    else
      let s := if b = 0 then sweepBegin s else s
      let s := withSkein (sweepBucket s b bad tags) (fun k => { k with sweepNext := b + 1 })
      sweepSome bad tags n (if b + 1 = coldBuckets then sweepEnd s else s)

/-- The next `n` buckets of the batch of 64 that the timer released (R92, R406); a bucket that holds the sweep holds the
batch. -/
def agingSweepBatch (n : Nat) (bad tags : List Nat) (s : State) : State :=
  if !due s 1 then s
  else
    let t := sweepSome bad tags (min n (64 - s.skein.sweepNext % 64)) s
    if t.skein.sweepNext % 64 = 0 ∧ t.skein.sweepNext ≠ s.skein.sweepNext then acted t 1 else t

/-- AGING_SWEEP_BATCH (R92). -/
def execAgingSweepBatch (n : Nat) (bad tags : List Nat) (s : State) : Host.Outcome State Fault Refusal :=
  .next (agingSweepBatch n bad tags s)

/-! ### END_REQUEST -/

/-- flowEndReason of a record that its timeout ends. -/
def timeoutReason (b : FlowBody) : Nat := if b.life = 3 then 3 else 1

/-- The oldest end request reaches its bank, which tests the age again (R93). -/
def endRequest (s : State) : State :=
  match s.skein.endReqs with
  | [] => s
  | idx :: rest =>
    let s := withSkein s (fun k => { k with endReqs := rest })
    let b := bodyOf s idx
    if (wayAt s idx).valid && expired s b then endFlow s idx (timeoutReason b) else s

/-- END_REQUEST (R93). -/
def execEndRequest (s : State) : Host.Outcome State Fault Refusal := .next (endRequest s)

/-! ### Migration (R89, R90) -/

/-- The group to move, and where to: the decision of R89 over one window's operations, of the pseudo-channels that are live at
its end (DESIGN CHOICE: whether those of one retired within the window count in the total is left open, log entry 40). -/
def migrationChoice (s : State) : Option Move :=
  let live := livePcs s
  let ops (pc : Nat) : Nat := tget 0 s.skein.opsPc pc
  let total := (live.map ops).foldl (· + ·) 0
  match mostBy ops live, leastBy ops (live.filter (fun pc => (freeFrameOf s pc).isSome)) with
  | some src, some dst =>
    let gops (g : Nat) : Nat := tget 0 s.skein.opsGroup g
    if ops src * 16 * live.length ≤ total * (16 + fld s .sknMigCfg [] 7 0) then none
    else match mostBy gops ((groupsOn s src).filter (fun g => decide (gops g * 2 ≤ ops src - ops dst))),
        freeFrameOf s dst with
      | some g, some f => some ⟨g, dst, f, 0, false⟩
      | _, _ => none
  | _, _ => none

/-- A migration window ends. -/
def migrationDecision (s : State) : State :=
  if !due s 2 then s
  else
  let s := acted s 2
  let m := if fld s .sknMigCfg [] 31 31 = 1 ∧ s.skein.move = none then migrationChoice s else s.skein.move
  withSkein s (fun k => { k with move := m, opsPc := [], opsGroup := [] })

/-- MIGRATION_DECISION (R89). -/
def execMigrationDecision (s : State) : Host.Outcome State Fault Refusal := .next (migrationDecision s)

/-- One bucket of the group that moves is copied, after the last one the group map names the new frame; while accesses to the
bucket are in flight its bank only holds new ones. -/
def groupMoveBucket (s : State) : State :=
  match s.skein.move with
  | none => s
  | some m =>
    let b := m.group * 256 + m.cursor
    if bucketBusy s b || s.skein.bursts.any (fun o => o.coldIndex / 8 == b) then
      withSkein s (fun k => { k with move := some { m with holding := true } })
    else if m.cursor + 1 < 256 then
      withSkein s (fun k => { k with move := some { m with cursor := m.cursor + 1, holding := false } })
    else withSkein s (fun k => { k with move := none, groups := tins k.groups m.group ⟨true, m.dstPc, m.dstFrame⟩ })

/-- GROUP_MOVE_BUCKET (R90). -/
def execGroupMoveBucket (s : State) : Host.Outcome State Fault Refusal := .next (groupMoveBucket s)

/-! ### SKEIN_PC_RETIRE -/

/-- Task 0xF003 of the oldest retirement runs steps 2 to 7 of Table 03-7. -/
def skeinPcRetire (s : State) : State :=
  match s.hbm.retiring with
  | [] => s
  | r :: rest => match takeItem s (fun i => isTask 0xF003 i && i.params == [byte r.pc]) with
    | none => s
    | some s => loseGroups { s with hbm := { s.hbm with retiring := rest } } (groupsOn s r.pc) r

/-- SKEIN_PC_RETIRE (R97). -/
def execSkeinPcRetire (s : State) : Host.Outcome State Fault Refusal := .next (skeinPcRetire s)

/-! ### NAT_BLOCK_SWEEP -/

/-- The pool that an allocated block belongs to: its subscriber's, or, when that was lost, the valid pool of its address. -/
def poolOfBlock (s : State) (e : Nat × NatBlock) : Option Nat :=
  match tfind s.actions.subs e.2.sub with
  | some u => some u.pool
  | none => (s.actions.natPools.find? (fun p => p.2.valid && decide (p.2.addrFirst ≤ e.1 / 1024) &&
      decide (e.1 / 1024 ≤ p.2.addrFirst + p.2.addrCountM1))).map (·.1)

/-- A block is freed and removed from its subscriber, which is freed when it holds none. -/
def freeBlock (s : State) (pool : NatPool) (k : Nat) (b : NatBlock) : State :=
  let s := withActions s (fun a => { a with blocks := tdel a.blocks k })
  match tfind s.actions.subs b.sub with
  | none => s
  | some u =>
    let u' := { u with blocks := u.blocks.erase (k % 1024) }
    let s := withActions s (fun a => { a with
      subs := if u'.blocks.isEmpty then tdel a.subs b.sub else tins a.subs b.sub u' })
    logBlock s pool u (k / 1024) (k % 1024) 15

/-- The sweep reads one allocated block. -/
def sweepBlock (s : State) (e : Nat × NatBlock) : State :=
  match (poolOfBlock s e).bind (tfind s.actions.natPools) with
  | none => s
  | some pool =>
    let lo := e.1 / 1024 * 65536 + e.1 % 1024 * pool.ports
    if !(trange s.actions.ports lo (lo + pool.ports)).isEmpty then s
    else if !e.2.hold then
      withActions s (fun a => { a with blocks := tins a.blocks e.1 { e.2 with hold := true, holdSince := wrap 32 (servedSec s) } })
    else if pool.blockHold ≤ (wrap 32 (servedSec s) + 2 ^ 32 - e.2.holdSince) % 2 ^ 32 then freeBlock s pool e.1 e.2
    else s

/-- One step of task 0xF005: at most 64 allocated blocks from the cursor on; the task ends with the last one. -/
def natBlockSweep (s : State) : State :=
  if itemWaits s (isTask 0xF005) then s
  else
    let todo := s.actions.blocks.filter (fun e => decide (s.actions.blockSweep ≤ e.1))
    let s := (todo.take 64).foldl sweepBlock s
    match (todo.drop 64).head? with
    | some e => withActions s (fun a => { a with blockSweep := e.1 })
    | none => runTask (withActions s (fun a => { a with blockSweep := 0 })) 0xF005 id

/-- NAT_BLOCK_SWEEP (06/R209). -/
def execNatBlockSweep (s : State) : Host.Outcome State Fault Refusal := .next (natBlockSweep s)

/-! ### WITHY_FOLD -/

/-- WITHY_FOLD (05/R166): task 0xF006. -/
def execWithyFold (s : State) : Host.Outcome State Fault Refusal := .next (runTask s 0xF006 withyFold)

end Sys2Proof.Machine
end

