-- ==== Sys2Proof/Machine/CmdFlow.lean ====
section
/-! DEFINITION. The commands on flow records (opcode group 0x06): lookups, iteration, deletion and flush
(03/R100–R103, 02/R42, R45). -/

namespace Sys2Proof.Machine

/-- A record with the values in force (R45): its fields from the hot copy if one exists, its counters summed. -/
def recordInForce (s : State) (idx : Nat) : ColdRec :=
  let c := coldAt s idx
  let h := hotCounts s idx
  { c with
    body := bodyOf s idx,
    bank0 := if h.1 = 0 then c.bank0.add h.2 else c.bank0,
    bank1 := if h.1 = 1 then c.bank1.add h.2 else c.bank1 }

/-- The reply data of a flow lookup: the record, and its hot slot. -/
def flowData (s : State) (idx : Nat) : List Byte :=
  (recordInForce s idx).image ++ le 4 (((hotOf s idx).map (·.1)).getD 0xFFFFFFFF)

/-- The bucket of a record answers: its home does, or it has none. -/
def recordAnswers (s : State) (bucket : Nat) : Bool := homeTakes s bucket || !(groupAt s (groupOf bucket)).placed

/-- A bucket's home lies on a stack that is powered down, and the bucket has not been replaced yet: a command that needs it
ends with ST_DOMAIN_DOWN (12/R377, 13/R415). -/
def homeDown (s : State) (bucket : Nat) : Bool :=
  (groupAt s (groupOf bucket)).placed && !homeAnswers s bucket && stackGone s ((bucketHome s bucket).1 / 32)

/-- A record read from its home does not read, or reads with a LIFE that no record has (Table 03-6). -/
def recordBad (s : State) (ue : Bool) (idx : Nat) : Bool := (hotOf s idx).isNone && (ue || decide (5 ≤ (bodyOf s idx).life))

/-- The place of the record of a key. -/
def findRecord (s : State) (k : Key) : Option Nat :=
  ((List.range 8).map (fun w => k.bucket * 8 + w)).find? (fun i => (wayAt s i).valid && (bodyOf s i).key == k)

/-- A record that reads uncorrectable is lost; one that reads well with a bad LIFE costs no HBM error. -/
def loseRead (s : State) (ue : Bool) (idx : Nat) : State :=
  loseRecord (if ue then hbmUe s (bucketHome s (idx / 8)).1 (recLineNo s idx) 2 else s) idx false

/-- A record answered by a single command: what `use` makes of it, or the loss of one that reads uncorrectable. -/
def oneRecord (ue : Bool) (idx : Option Nat) (use : Nat → State → Answer × State) (s : State) : Answer × State :=
  match idx with
  | none => (.of stNoent, s)
  | some i => if recordBad s ue i then (.of stUncorrectable, loseRead s ue i) else use i s

/-- A command that reads the home of a bucket; it ends where the home's stack is down, and waits while the home's
pseudo-channel is lost and not yet replaced, or a move holds the bucket. `tag`: the tag line reads uncorrectable, and is rebuilt; `bad`: with which records not reading. -/
def onBucket (bucket : Nat) (tag : Bool) (bad : List Nat) (f : State → Answer × State) (s : State) : Option Answer × State :=
  if recordAnswers s bucket then
    let s := settleBucket s bucket
    let (a, t) := f (if tag && homeAnswers s bucket then tagLineUe s bucket 2 bad false else s)
    (some a, t)
  else if homeDown s bucket then (some (.of stDomainDown), s)
  else (none, s)
where
  /-- The bursts issued to a bucket's records come first (R72). -/
  settleBucket (s : State) (b : Nat) : State := (List.range 8).foldl (fun s w => settleBursts s (b * 8 + w)) s

/-- The record of a key. `ue`: the record reads uncorrectable. -/
def flowLookupKey (h : CmdHeader) (p : List Byte) (ue tag : Bool) (s : State) : State :=
  let k := Key.ofImage p
  runCommand s 0x0601 h p 48 (keyImageOk p) (fun _ s =>
    onBucket k.bucket tag [] (fun s => oneRecord ue (findRecord s k) (fun i s => (.ok (flowData s i), s)) s) s)

/-- FLOW_LOOKUP_KEY (R100). -/
def execFlowLookupKey (h : CmdHeader) (p : List Byte) (ue tag : Bool) (s : State) : Host.Outcome State Fault Refusal :=
  .next (flowLookupKey h p ue tag s)

/-- The record of a current handle. -/
def flowLookupHandle (h : CmdHeader) (p : List Byte) (ue tag : Bool) (s : State) : State :=
  let hd := leAt p 0 4
  runCommand s 0x0602 h p 4 true (fun _ s =>
    onBucket (handleIdx hd / 8) tag [] (fun s =>
      oneRecord ue (if current s hd then some (handleIdx hd) else none) (fun i s => (.ok (flowData s i), s)) s) s)

/-- FLOW_LOOKUP_HANDLE (R42, R100). -/
def execFlowLookupHandle (h : CmdHeader) (p : List Byte) (ue tag : Bool) (s : State) : Host.Outcome State Fault Refusal :=
  .next (flowLookupHandle h p ue tag s)

/-- A record meets a filter: by 0 none, 1 zone, 2 class, 3 LEARN_PORT. -/
def flowMatches (s : State) (by_ value idx : Nat) : Bool :=
  match by_ with
  | 0 => true
  | 1 => (bodyOf s idx).key.zone == value
  | 2 => (bodyOf s idx).action.cls == value
  | _ => (coldAt s idx).learnPort == value

/-- Tag lines among `tags` that read uncorrectable as records from one bucket on are read, rebuilt. -/
def tagsRebuilt (s : State) (lo hi : Nat) (ue tags : List Nat) : State :=
  (tags.filter (fun b => decide (lo ≤ b) && decide (b < hi) && homeAnswers s b)).foldl (fun s b => tagLineUe s b 2 ue false) s

/-- Up to 480 records from a cursor. `ue`: cold indices whose record reads uncorrectable; `tags`: buckets whose tag line
does. -/
def flowIterate (h : CmdHeader) (p : List Byte) (ue tags : List Nat) (s : State) : State :=
  let cursor := leAt p 0 4
  runCommand s 0x0603 h p 12 (decide (cursor < 2 ^ 27) && decide (leAt p 4 4 < 4)) (fun _ s =>
    let all (s : State) : List Nat := ((trange s.skein.ways cursor (2 ^ 27)).filter (fun e => e.2.valid)).map (·.1)
    if (all s).any (fun i => homeDown s (i / 8)) then (some ⟨stDomainDown, 0, cursor, []⟩, s)
    else if !(all s).all (fun i => recordAnswers s (i / 8)) then (none, s)
    else
      let s := tagsRebuilt ((all s).foldl settleBursts s) (cursor / 8) (2 ^ 24) ue tags
      let s := ((all s).filter (fun i => recordBad s (ue.contains i) i)).foldl (fun s i => loseRead s (ue.contains i) i) s
      let l := (all s).filter (flowMatches s (byteAt p 4 % 4) (leAt p 8 4))
      let t := l.take 480
      let next := if 480 < l.length then (t.getLast?.map (· + 1)).getD (2 ^ 27) else 2 ^ 27
      (some ⟨stOk, 0, next, t.flatMap (fun i => (recordInForce s i).image)⟩, s))

/-- FLOW_ITERATE (R101). -/
def execFlowIterate (h : CmdHeader) (p : List Byte) (ue tags : List Nat) (s : State) : Host.Outcome State Fault Refusal :=
  .next (flowIterate h p ue tags s)

/-- The record of a key ended, and with it the twin of a translated flow; the reply holds the values just before. -/
def flowDeleteKey (h : CmdHeader) (p : List Byte) (ue tag : Bool) (s : State) : State :=
  let k := Key.ofImage p
  runCommand s 0x0604 h p 48 (keyImageOk p) (fun _ s =>
    onBucket k.bucket tag [] (fun s =>
      oneRecord ue (findRecord s k) (fun i s => (.ok (flowData s i), endFlow s i 4)) s) s)

/-- FLOW_DELETE_KEY (R102). -/
def execFlowDeleteKey (h : CmdHeader) (p : List Byte) (ue tag : Bool) (s : State) : Host.Outcome State Fault Refusal :=
  .next (flowDeleteKey h p ue tag s)

/-- A flush visits one record: lost when it reads uncorrectable, ended when it matches. The flows ended so far count. -/
def flushRecord (by_ value : Nat) (ue : List Nat) (a : Nat × State) (idx : Nat) : Nat × State :=
  let s := settleBursts a.2 idx
  if !(wayAt s idx).valid then (a.1, s)
  else if recordBad s (ue.contains idx) idx then (a.1, loseRead s (ue.contains idx) idx)
  else if flowMatches s by_ value idx then (a.1 + 1, endFlow s idx 4)
  else (a.1, s)

/-- A flush of the buckets from one cursor to another: flows ended, and the state. -/
def flushRange (by_ value : Nat) (ue tags : List Nat) (lo hi : Nat) (s : State) : Nat × State :=
  let s := tagsRebuilt s lo hi ue tags
  (((trange s.skein.ways (lo * 8) (hi * 8)).filter (fun e => e.2.valid)).map (·.1)).foldl (flushRecord by_ value ue) (0, s)

/-- The parts of a flush one after the other: flows ended by each. -/
def flushParts (h : CmdHeader) (p : List Byte) (by_ value : Nat) (ue tags : List Nat) :
    List (Nat × Nat × Nat) → State → List (Nat × Nat) × State
  | [], s => ([], s)
  | e :: r, s =>
    let (n, t) := if fanRuns h p e.1 then flushRange by_ value ue tags (fanStart h p e.1) e.2.2 s else (0, s)
    let (l, u) := flushParts h p by_ value ue tags r t
    ((e.1, n) :: l, u)

/-- The first bucket of a range of a flush whose home's stack is down. -/
def firstDown (s : State) (lo hi : Nat) : Option Nat :=
  ((((trange s.skein.ways (lo * 8) (hi * 8)).filter (fun e => e.2.valid)).map (fun e => e.1 / 8)).find? (homeDown s))

/-- How a part of a flush ends, cut short where it meets a bucket whose home's stack is down. -/
def downEnd (s : State) (h : CmdHeader) (p : List Byte) (e : Nat × Nat × Nat) : Nat × Nat × Nat :=
  if fanRuns h p e.1 then
    match firstDown s (fanStart h p e.1) e.2.2 with
    | some b => (e.1, stDomainDown, b)
    | none => e
  else e

/-- Every record that matches ended, part by part. BY: 0 LEARN_PORT, 1 zone, 2 class. -/
def flowFlush (h : CmdHeader) (p : List Byte) (stops : List (Nat × Nat × Bool)) (ue tags : List Nat) (s : State) : State :=
  let by_ := byteAt p 0 % 4
  runCommand s 0x0605 h p 8 (decide (by_ ≠ 3)) (fun stopped s =>
    if !((trange s.skein.ways 0 (2 ^ 27)).filter (fun e => e.2.valid)).all
      (fun e => recordAnswers s (e.1 / 8) || homeDown s (e.1 / 8)) then (none, s)
    else
      let ends := (fanEnds h p stops stopped 256).map (downEnd s h p)
      let (ns, t) := flushParts h p (if by_ = 0 then 3 else by_) (leAt p 4 4) ue tags ends s
      let count (k : Nat) : Nat := ((ns.find? (fun e => e.1 == k)).map (·.2)).getD 0
      (some (.fan ends ((List.range 8).flatMap (fun k => le 4 (count k)))), t))

/-- FLOW_FLUSH (R103). -/
def execFlowFlush (h : CmdHeader) (p : List Byte) (stops : List (Nat × Nat × Bool)) (ue tags : List Nat) (s : State) :
    Host.Outcome State Fault Refusal := .next (flowFlush h p stops ue tags s)

end Sys2Proof.Machine
end

