-- ==== Sys2Proof/Machine/CmdNat.lean ====
section
/-! DEFINITION. The commands on translation and balancing (opcode group 0x07): address table and pools (06/R197),
subscribers (R198), targets (R210, R214), and the replacement of a pool's buckets (R213, 12/R388). -/

namespace Sys2Proof.Machine

/-! ### Images of the shared space (Tables 06-7, 06-8; R210) -/

/-- A subscriber entry. -/
def Subscriber.image (x : Subscriber) : List Byte :=
  be 16 x.inside ++ le 4 (at_ 1 31 31 + at_ x.blocks.length 27 24 + at_ x.zone 19 0)
    ++ le 4 (at_ x.addrIdx 23 12 + at_ x.pool 11 0) ++ (List.range 4).flatMap (fun i => le 2 (x.blocks.getD i 0 % 1024))
    ++ zeros 32

/-- A block entry. -/
def NatBlock.image (x : NatBlock) : List Byte :=
  le 4 x.holdSince ++ le 4 (at_ 1 31 31 + at_ (b2n x.hold) 30 30 + at_ x.sub 22 0)

/-- A port-map entry. -/
def PortMap.image (x : PortMap) : List Byte := le 4 (at_ 1 31 31 + at_ x.proto 30 29 + at_ x.uses 28 16 + at_ x.insidePort 15 0)

/-- A target entry. -/
def LbTarget.image (x : LbTarget) : List Byte := le 8 (at_ 1 63 63 + at_ x.state 62 61 + at_ x.nextHop 19 0)

/-! ### Address table and pools (R197) -/

/-- The address index is one of a pool's. -/
def NatPool.owns (x : NatPool) (i : Nat) : Bool := decide (x.addrFirst ≤ i) && decide (i ≤ x.addrFirst + x.addrCountM1)

/-- A pool holds a block, whatever its VALID. -/
def poolHoldsBlock (s : State) (n : Nat) : Bool := s.actions.blocks.any (fun b => poolOfBlock s b == some n)

/-- An address index written. -/
def natAddrWrite (h : CmdHeader) (p : List Byte) (s : State) : State :=
  let w := leAt p 0 4
  let i := w % 4096
  let addr := beAt p 4 4
  let new := if bit w 31 then 2 ^ 63 + addr else 0
  runAtOnce s 0x0701 h p 8 (bits w 30 12 == 0) (fun s =>
    let old := tget 0 s.actions.natAddr i
    if bit w 31 && s.actions.natAddr.any (fun e => e.1 != i && e.2 == new) then (.of stExists, s)
    else if bit old 63 && old != new && s.actions.natPools.any (fun e => e.2.owns i && poolHoldsBlock s e.1) then (.of stBusy, s)
    else (.ok [], withActions s (fun a => { a with natAddr := tput 0 a.natAddr i new })))

/-- NAT_ADDR_WRITE (R197). -/
def execNatAddrWrite (h : CmdHeader) (p : List Byte) (s : State) : Host.Outcome State Fault Refusal := .next (natAddrWrite h p s)

/-- The pool an image spells (Table 06-6). -/
def NatPool.ofImage (x : Nat) : NatPool where
  valid := bit x 127
  zone := bits x 126 107
  addrFirst := bits x 106 95
  addrCountM1 := bits x 94 83
  blockLog2 := bits x 82 79
  maxBlocksM1 := bits x 78 77
  portMin := bits x 76 61
  blockHold := bits x 60 45
  collector := bits x 44 42
  logBlocks := bit x 41
  subPlen := bits x 40 34
  prefix64 := unbe (le 12 (bits x 255 160))

/-- Two pools share an address index. -/
def NatPool.overlaps (x y : NatPool) : Bool :=
  decide (x.addrFirst ≤ y.addrFirst + y.addrCountM1) && decide (y.addrFirst ≤ x.addrFirst + x.addrCountM1)

/-- A pool written. -/
def natPoolWrite (h : CmdHeader) (p : List Byte) (s : State) : State :=
  let n := leAt p 0 2
  let img := leAt p 8 32
  let new := NatPool.ofImage img
  runAtOnce s 0x0702 h p 40
    (decide (n < 4096) && bits img 159 128 == 0 && bits img 33 0 == 0 && decide (new.addrFirst + new.addrCountM1 < 4096)) (fun s =>
    let moved := match tfind s.actions.natPools n with
      | none => false
      | some o => poolHoldsBlock s n && !(o.addrFirst == new.addrFirst && o.addrCountM1 == new.addrCountM1 &&
          o.blockLog2 == new.blockLog2 && o.portMin == new.portMin)
    if s.actions.natPools.any (fun e => e.1 != n && (e.2.valid || poolHoldsBlock s e.1) && new.valid && e.2.overlaps new) then (.of stExists, s)
    else if moved then (.of stBusy, s)
    else (.ok [], withActions s (fun a => { a with natPools := tins a.natPools n new })))

/-- NAT_POOL_WRITE (R197). -/
def execNatPoolWrite (h : CmdHeader) (p : List Byte) (s : State) : Host.Outcome State Fault Refusal := .next (natPoolWrite h p s)

/-- A command meets an uncorrectable line of the shared space (18/R517, Table 18-5). -/
def commandUe (s : State) (line : Nat) : Answer × State :=
  (.of stUncorrectable, hbmUe s (linePc s line) (sharedLineNo s line) 3)

/-- A subscriber's entries read in order: the entry found, or the line that does not read. A line of a lost page reads zero;
one that was lost by itself still does not read (06/R209). -/
def subScan (s : State) (ue : List Nat) (zone inside : Nat) : List Nat → Except Nat (Option (Nat × Subscriber))
  | [] => .ok none
  | i :: l =>
    if s.actions.natLost.contains (true, subLine i / 64) then subScan s ue zone inside l
    else if ue.contains (subLine i) || s.actions.natLost.contains (false, subLine i) then .error (subLine i)
    else match tfind s.actions.subs i with
      | some x => if x.zone = zone ∧ x.inside = inside then .ok (some (i, x)) else subScan s ue zone inside l
      | none => subScan s ue zone inside l

/-- A subscriber's entry and its index. -/
def natSubLookup (h : CmdHeader) (p : List Byte) (ue : List Nat) (s : State) : State :=
  runAtOnce s 0x0703 h p 32 (decide (leAt p 0 4 < 2 ^ 20)) (fun s =>
    match subScan s ue (leAt p 0 4) (beAt p 16 16) (subRange (leAt p 0 4) (beAt p 16 16)) with
    | .error line => commandUe s line
    | .ok none => (.of stNoent, s)
    | .ok (some (i, x)) => (.ok (x.image ++ le 4 i), s))

/-- NAT_SUB_LOOKUP (R198). -/
def execNatSubLookup (h : CmdHeader) (p : List Byte) (ue : List Nat) (s : State) : Host.Outcome State Fault Refusal :=
  .next (natSubLookup h p ue s)

/-! ### Targets (R210, R214) -/

/-- The image of a pool in the current version; 0 when it has no VALID entry. -/
def poolImage (s : State) (pool : Nat) : Nat := dtFind s 0 2 pool s.rules.current

/-- Buckets of a pool that name a target. -/
def bucketsNaming (s : State) (img k : Nat) : Nat :=
  let lo := bits img 54 33
  let n := bits img 32 11 + 1
  let l := trange s.actions.indWest lo (lo + n)
  (l.filter (fun e => e.2 == k)).length + (if k = 0 then n - l.length else 0)

/-- A command on a target of a pool, after the checks that come first in all of them. -/
def onTarget (p : List Byte) (f : Nat → Nat → State → Answer × State) (s : State) : Answer × State :=
  let img := poolImage s (leAt p 0 2)
  let k := leAt p 2 2
  if !bit img 63 then (.of stNoent, s)
  else if bits img 32 11 < k then (.of stBadparam, s)
  else f img k s

/-- A target entry written; where its line reads uncorrectable, its entries read VALID 0 first (Table 18-5). -/
def lbTargetWrite (h : CmdHeader) (p : List Byte) (ue : Bool) (s : State) : State :=
  let w := leAt p 4 4
  runAtOnce s 0x0704 h p 8 (bits w 30 20 == 0) (onTarget p (fun img k s =>
    let e := bits img 54 33 + k
    let s := if ue then loseTargets (commandUe s (targetLine e)).2 (e / 8 * 8) 8 else s
    let busy := match tfind s.actions.targets e with
      | some t => t.state != 0
      | none => false
    if busy || (!bit w 31 && decide (0 < bucketsNaming s img k)) then (.of stBusy, s)
    else if bit w 31 then (.ok [], withActions s (fun a => { a with targets := tins a.targets e ⟨0, w % 2 ^ 20⟩ }))
    else (.ok [], withActions s (fun a => { a with targets := tdel a.targets e }))))

/-- LB_TARGET_WRITE (R210). -/
def execLbTargetWrite (h : CmdHeader) (p : List Byte) (ue : Bool) (s : State) : Host.Outcome State Fault Refusal :=
  .next (lbTargetWrite h p ue s)

/-- A target entry read, with the buckets that name it. -/
def lbTargetRead (h : CmdHeader) (p : List Byte) (ue : Bool) (s : State) : State :=
  runAtOnce s 0x0707 h p 4 true (onTarget p (fun img k s =>
    if ue then commandUe s (targetLine (bits img 54 33 + k)) else
    let t := match tfind s.actions.targets (bits img 54 33 + k) with
      | some t => t.image
      | none => zeros 8
    (.ok (t ++ le 4 (bucketsNaming s img k)), s)))

/-- LB_TARGET_READ (R210). -/
def execLbTargetRead (h : CmdHeader) (p : List Byte) (ue : Bool) (s : State) : Host.Outcome State Fault Refusal :=
  .next (lbTargetRead h p ue s)

/-- A target drains or is reassigned. -/
def lbTargetRemove (h : CmdHeader) (p : List Byte) (ue : Bool) (s : State) : State :=
  runAtOnce s 0x0706 h p 4 true (onTarget p (fun img k s =>
    let e := bits img 54 33 + k
    if ue then commandUe s (targetLine e) else
    match tfind s.actions.targets e with
    | none => (.of stNoent, s)
    | some t =>
      if t.state ≠ 0 ∨ 0 < bucketsNaming s img k then (.of stBusy, s)
      else if 64 ≤ s.actions.draining.length then (.of stFull, s)
      else
        let again := bit img 61
        (.ok [], withActions s (fun a => { a with
          targets := tins a.targets e { t with state := if again then 2 else 1 },
          reassign := if again then tput false a.reassign e true else a.reassign,
          draining := a.draining ++ [⟨leAt p 0 2, k, e, 0, false⟩] }))))

/-- LB_TARGET_REMOVE (R214). -/
def execLbTargetRemove (h : CmdHeader) (p : List Byte) (ue : Bool) (s : State) : Host.Outcome State Fault Refusal :=
  .next (lbTargetRemove h p ue s)

/-! ### Replacing a pool (R213, R388) -/

/-- The ranges of the parameters: first target, last target, weight. -/
def poolRanges (p : List Byte) : List (Nat × Nat × Nat) :=
  (List.range (leAt p 2 2)).map (fun r => (leAt p (8 + 8 * r) 2, leAt p (10 + 8 * r) 2, leAt p (12 + 8 * r) 4))

/-- A range is well formed: it names some target, within the pool's, and has a weight. -/
def rangeFine (top : Nat) (r : Nat × Nat × Nat) : Bool := decide (r.1 ≤ r.2.1) && decide (r.2.1 ≤ top) && r.2.2 != 0

/-- No two ranges overlap. -/
def rangesApart : List (Nat × Nat × Nat) → Bool
  | [] => true
  | r :: l => l.all (fun q => decide (r.2.1 < q.1) || decide (q.2.1 < r.1)) && rangesApart l

/-- The targets of non-zero weight, ascending, each with its weight. -/
def weighted (rs : List (Nat × Nat × Nat)) : List (Nat × Nat) :=
  (rs.foldl (fun t r => (List.range (r.2.1 + 1 - r.1)).foldl (fun t i => tins t (r.1 + i) r.2.2) t) ([] : Table Nat))

/-- Buckets of each target by largest remainder over `b` buckets: the floors, and one more for each of the largest
fractional parts, the lowest target on a tie. -/
def shares (b : Nat) (ws : List (Nat × Nat)) : List (Nat × Nat) :=
  let w := (ws.map (·.2)).foldl (· + ·) 0
  let left := b - (ws.map (fun e => e.2 * b / w)).foldl (· + ·) 0
  ws.map (fun e =>
    let f := e.2 * b % w
    let ahead := (ws.filter (fun g => decide (f < g.2 * b % w) || (g.2 * b % w == f && decide (g.1 < e.1)))).length
    (e.1, e.2 * b / w + b2n (decide (ahead < left))))

/-- The buckets filled in ascending target, each target's contiguous. -/
def fillBuckets (base : Nat) (sh : List (Nat × Nat)) (t : Table Nat) : Table Nat :=
  (((sh.flatMap (fun e => List.replicate e.2 e.1)).foldl (fun a k => (a.1 + 1, tput 0 a.2 (base + a.1) k)) (0, t)) : Nat × Table Nat).2

/-- A pool's buckets replaced in both copies. `bad`: dies whose part fails on an uncorrectable error; then both copies
keep the pool as it was. `ue`: lines of target entries that read uncorrectable. -/
def lbPoolReplace (h : CmdHeader) (p : List Byte) (bad ue : List Nat) (s : State) : State :=
  let rs := poolRanges p
  runAtOnce s 0x0705 h p (8 + 8 * leAt p 2 2) (decide (1 ≤ leAt p 2 2) && decide (leAt p 2 2 ≤ 511)) (fun s =>
    let img := poolImage s (leAt p 0 2)
    let base := bits img 54 33
    let dies := [0, 1].filter bad.contains
    if !bit img 63 then (.of stNoent, s)
    else if !(rs.all (rangeFine (bits img 32 11)) && rangesApart rs) then (.of stBadparam, s)
    else match ((weighted rs).map (fun e => targetLine (base + e.1))).find? ue.contains with
    | some line => commandUe s line
    | none =>
    if !(weighted rs).all (fun e => (tfind s.actions.targets (base + e.1)).isSome) then (.of stBadparam, s)
    else if !dies.isEmpty then (.parts stUncorrectable dies, s)
    else
      let sh := shares (bits img 32 11 + 1) (weighted rs)
      (.ok [], withActions s (fun a => { a with
        indWest := fillBuckets base sh a.indWest, indEast := fillBuckets base sh a.indEast })))

/-- LB_POOL_REPLACE (R213, R388). -/
def execLbPoolReplace (h : CmdHeader) (p : List Byte) (bad ue : List Nat) (s : State) : Host.Outcome State Fault Refusal :=
  .next (lbPoolReplace h p bad ue s)

end Sys2Proof.Machine
end

