-- ==== Sys2Proof/Machine/Deep.lean ====
section
/-! DEFINITION. DEEP_SCAN (04/R127–R132). -/

namespace Sys2Proof.Machine

/-! ### Contexts (R128) -/

/-- A context belongs to a stream. -/
def DeepCtx.serves (c : DeepCtx) (handle : Nat) (dir : Bool) : Bool := c.handle == handle && c.dir == dir

/-- The place of a context that a new stream may take: a DONE one least recently used, else a SCANNING one idle for longer
than DEEP_IDLE. -/
def reclaimable (s : State) (sl : Nat) (l : List DeepCtx) : Option DeepCtx :=
  let idle := fld s .matCfg [sl] 14 0
  match leastBy DeepCtx.used (l.filter DeepCtx.done) with
  | some c => some c
  | none => leastBy DeepCtx.used (l.filter (fun c =>
      !c.done && idle != 0 && decide (c.used + ticksOfNs (idle * 1000000) < s.time.tick)))

/-- A stream's context, allocated when it has none; none when none can be had. -/
def deepContext (s : State) (sl handle : Nat) (dir : Bool) : Option DeepCtx × State :=
  match (sliceAt s sl).deep.find? (fun c => c.serves handle dir) with
  | some c => (some c, s)
  | none =>
    let fresh : DeepCtx := ⟨handle, dir, 0, 0, [], 0, false, s.time.tick⟩
    let live := (sliceAt s sl).deep.filter (fun c => current s c.handle)
    let add (l : List DeepCtx) (gone : List (Nat × Bool)) : State :=
      let s := if (sliceAt s sl).reclaimed.contains (handle, dir) then cntSl s sl 0x272 else s
      modSlice s sl (fun x => { x with
        deep := l ++ [fresh],
        reclaimed := ((x.reclaimed ++ gone).filter (fun r => r != (handle, dir) && current s r.1)).eraseDups })
    if live.length < 4096 then (some fresh, add live [])
    else match reclaimable s sl live with
      | some c => (some fresh, add (live.erase c) [(c.handle, c.dir)])
      | none => (none, s)

/-! ### What is scanned (R129) -/

/-- The bytes of a job that a context scans, whether a gap ends the stream, and the next sequence number. -/
def deepBytes (c : DeepCtx) (j : DeepJob) : List Byte × Bool × Nat :=
  match j.seq with
  | none => (j.payload, false, 0)
  | some q =>
    let n := j.payload.length
    let stop := wrap 32 (q + n)
    if c.offset = 0 ∧ c.last = [] then (j.payload, false, stop)
    else if 0 < diff32 q c.nextSeq then ([], true, c.nextSeq)
    else if diff32 stop c.nextSeq ≤ 0 then ([], false, c.nextSeq)
    else (j.payload.drop (-(diff32 q c.nextSeq)).toNat, false, stop)

/-- The limit of a context's stream. -/
def deepLimit (s : State) (sl version : Nat) : Nat :=
  let l := fldV s .matCfg [sl] version 29 15
  if l = 0 ∨ 16384 < l then 16384 else l

/-- Groups of the DEEP entries visible in a version that match a run ending in new bytes of a stream. -/
def deepGroups (x : SliceState) (version : Nat) (c : DeepCtx) (new : List Byte) : Nat :=
  let k (e : PatternEntry) : Nat := c.last.length + 1 - e.len
  ofBits ((x.patterns.filter (fun e => e.2.valid && e.2.deep && visTo e.2.vis version &&
    matchesFrom e.2 (c.offset - c.last.length + k e.2) ((c.last ++ new).drop (k e.2)))).map (fun e => e.2.group))

/-! ### What a match does (R132) -/

/-- The strongest action of matched groups: 0 none, 1 export, 2 punt, 3 deny. -/
def deepAction (s : State) (sl version groups : Nat) : Nat :=
  ((setBits groups 16).map (fun g => fldV s .deepAct [sl] version (2 * g + 1) (2 * g))).foldl max 0

/-- A verdict set in a record, never weakened. -/
def strengthen (b : FlowBody) (deny : Bool) : FlowBody :=
  let v := b.action.verdict
  { b with action := { b.action with verdict := if deny then (if v = 3 then 3 else 1) else if v = 0 then 2 else v } }

/-- A deep action on the flow of a handle. -/
def deepAct (s : State) (handle action : Nat) : State :=
  if !current s handle then s
  else
    let idx := handleIdx handle
    match action with
    | 1 => exportFlow s idx 2
    | 2 | 3 =>
      let deny := action == 3
      let twin := twinBody s idx
      let s := modBody s idx (fun b => strengthen b deny)
      match twin with
      | some t => modBody s t (fun b => strengthen b deny)
      | none => s
    | _ => s

/-! ### DEEP_SCAN -/

/-- A frame's job is scanned in its stream's context. -/
def scanJob (s : State) (f : Frame) (j : DeepJob) : State :=
  let sl := f.slice
  let h := f.count.handle
  match deepContext s sl h j.dir with
  | (none, s) => deepAct (cntSl s sl 0x271) h (fldV s .matCfg [sl] f.version 31 30)
  | (some c, s) =>
    let put (c : DeepCtx) (s : State) : State :=
      modSlice s sl (fun x => { x with deep := x.deep.map (fun d => if d.serves h j.dir then c else d) })
    if c.done then put { c with used := s.time.tick } s
    else
      let (bytes, gap, next) := deepBytes c j
      if gap then cntSl (put { c with done := true, used := s.time.tick } s) sl 0x273
      else
        let limit := deepLimit s sl f.version
        let new := bytes.take (limit - c.offset)
        let groups := deepGroups (sliceAt s sl) f.version c new
        let all := c.last ++ new
        let c' := { c with
          offset := c.offset + new.length, nextSeq := next, last := all.drop (all.length - 31),
          groups := ofBits (setBits c.groups 16 ++ setBits groups 16),
          done := decide (limit ≤ c.offset + new.length), used := s.time.tick }
        deepAct (put c' s) h (deepAction s sl f.version groups)

/-- The scan of a frame completes: it gives back its reference and its version. -/
def scanOver (s : State) (id : Nat) : State :=
  onFrame s id (fun f =>
    let s := modSlice s f.slice (fun x => { x with deepQueue := x.deepQueue.erase id })
    let s := modFrame s id (fun f => { f with deepQueued := false })
    headLeave (dropRef s id) f.slice f.version)

/-- The engine of a slice takes the oldest frame of its queue, once its tail is there. -/
def deepScan (sl : Nat) (s : State) : State :=
  match (sliceAt s sl).deepQueue with
  | [] => s
  | id :: _ => match frameAt s id with
    | none => modSlice s sl (fun x => { x with deepQueue := x.deepQueue.drop 1 })
    | some f =>
      if f.tail == .pending then s
      else match f.job with
        | some j => scanOver (if f.tail == .good && !f.void then scanJob s f j else s) id
        | none => scanOver s id

/-- DEEP_SCAN (R127). -/
def execDeepScan (sl : Nat) (s : State) : Host.Outcome State Fault Refusal := .next (deepScan sl s)

end Sys2Proof.Machine
end

