-- ==== Sys2Proof/Machine/Dma.lean ====
section
/-! DEFINITION. DMA channels (14): DMA_ENABLE, DMA_DISABLE, DMA_START, DMA_RESUME, DMA_KICK, CQ_ENABLE, CQ_CI_WRITE,
DMA_DESCRIPTOR, PUNT_DELIVER, DMA_GRACE_EXPIRE. -/

namespace Sys2Proof.Machine

/-! ### DMA_CTL, CQ_CI, DMA_OWN -/

/-- The completion queue's base, write-back address and size are taken, and its indices zeroed (R431). -/
def takeQueue (s : State) (ch : Nat) : State :=
  modChan s ch (fun c => { c with
    cqBase := inForce s .cqBaseHi [ch] * 2 ^ 32 + inForce s .cqBaseLo [ch],
    cqWb := inForce s .cqWbHi [ch] * 2 ^ 32 + inForce s .cqWbLo [ch],
    cqLog2 := min 16 (max 6 (fld s .cqCfg [ch] 4 0)), cqPi := 0, cqCi := 0 })

/-- START: in IDLE, WAIT or HALTED the channel begins at DMA_HEAD (R429). -/
def chanStart (s : State) (ch : Nat) : State :=
  let c := chanAt s ch
  if c.state = 1 ∨ c.state = 3 ∨ c.state = 4 then
    modChan s ch (fun c => { c with
      state := 2, count := 0, cur := inForce s .dmaHeadHi [ch] * 2 ^ 32 + inForce s .dmaHeadLo [ch] })
  else s

/-- RESUME: in HALTED the descriptor at CUR is fetched again. -/
def chanResume (s : State) (ch : Nat) : State :=
  if (chanAt s ch).state = 4 then modChan s ch (fun c => { c with state := 2, count := 0 }) else s

/-- KICK: in WAIT the descriptor at CUR is fetched again. -/
def chanKick (s : State) (ch : Nat) : State :=
  if (chanAt s ch).state = 3 then modChan s ch (fun c => { c with state := 2 }) else s

/-- A write of DMA_CTL (R424, R429, R431, R433): a MODE that differs while EN is 1 is ignored and raises kind STATE. -/
def writeDmaCtl (s : State) (req : Requester) (off : Nat) (ix : List Nat) (v : Nat) : State :=
  let ch := ix.getD 0 0
  let was := chanOn s ch
  let cq := fld s .dmaCtl [ch] 25 25
  let keep := was && bits v 27 26 != fld s .dmaCtl [ch] 27 26
  let s := landWrite s .dmaCtl ix (if keep then withBits v 27 26 (fld s .dmaCtl [ch] 27 26) else v)
  let s := if keep then accessError s req 8 off 2 true else s
  let s := if !was && bit v 31 then modChan s ch (fun c => { c with state := 1 })
    else if was && !bit v 31 then disableChannel s ch else s
  let s := if cq = 0 ∧ bit v 25 then takeQueue s ch else s
  let s := chanRelease s ch
  let s := if bit v 31 && bit v 30 then chanStart s ch else s
  let s := if bit v 31 && bit v 29 then chanResume s ch else s
  if bit v 31 && bit v 28 then chanKick s ch else s

/-- DMA_ENABLE (R428): a write with EN 1 and no START, RESUME or KICK. -/
def execDmaEnable (req : Requester) (off v : Nat) (s : State) : Host.Outcome State Fault Refusal :=
  .next (guarded s req off [.dmaCtl] (fun s _ ix =>
    if bit v 31 && bits v 30 28 == 0 then writeDmaCtl s req off ix v else s))

/-- DMA_DISABLE (R433): a write with EN 0. -/
def execDmaDisable (req : Requester) (off v : Nat) (s : State) : Host.Outcome State Fault Refusal :=
  .next (guarded s req off [.dmaCtl] (fun s _ ix => if bit v 31 then s else writeDmaCtl s req off ix v))

/-- DMA_START (R429). -/
def execDmaStart (req : Requester) (off v : Nat) (s : State) : Host.Outcome State Fault Refusal :=
  .next (guarded s req off [.dmaCtl] (fun s _ ix => if bit v 30 then writeDmaCtl s req off ix v else s))

/-- DMA_RESUME (R429). -/
def execDmaResume (req : Requester) (off v : Nat) (s : State) : Host.Outcome State Fault Refusal :=
  .next (guarded s req off [.dmaCtl] (fun s _ ix => if bit v 29 then writeDmaCtl s req off ix v else s))

/-- DMA_KICK (R429). -/
def execDmaKick (req : Requester) (off v : Nat) (s : State) : Host.Outcome State Fault Refusal :=
  .next (guarded s req off [.dmaCtl] (fun s _ ix => if bit v 28 then writeDmaCtl s req off ix v else s))

/-- CQ_ENABLE (R431): a write by which CQ_EN takes effect as 1. -/
def execCqEnable (req : Requester) (off v : Nat) (s : State) : Host.Outcome State Fault Refusal :=
  .next (guarded s req off [.dmaCtl] (fun s _ ix => if bit v 25 then writeDmaCtl s req off ix v else s))

/-- A write of CQ_CI: a completion held for want of a slot goes out (R430). -/
def writeCqCi (s : State) (ix : List Nat) (v : Nat) : State :=
  let ch := ix.getD 0 0
  chanRelease (modChan s ch (fun c => { c with cqCi := wrap 32 v })) ch

/-- CQ_CI_WRITE (R430). -/
def execCqCiWrite (req : Requester) (off v : Nat) (s : State) : Host.Outcome State Fault Refusal :=
  .next (guarded s req off [.cqCi] (fun s _ ix => writeCqCi s ix v))

/-- A write of DMA_OWN: the bit of an enabled channel keeps its value (R423). -/
def writeDmaOwn (s : State) (ix : List Nat) (v : Nat) : State :=
  let hp := ix.getD 0 0
  let old := inForce s .dmaOwn [hp]
  landWrite s .dmaOwn ix (ofBits ((List.range 16).filter (fun n => if chanOn s (hp * 16 + n) then bit old n else bit v n)))

/-! ### Descriptors (R426, R427) -/

/-- A descriptor from its 32 bytes; `clean`: its reserved bits are zero. -/
def Descriptor.ofBytes (addr : Nat) (b : List Byte) : Descriptor where
  addr := addr
  next := leAt b 0 8
  src := leAt b 8 8
  arg := leAt b 16 8
  len := leAt b 24 3
  trace := byteAt b 27 % 2 == 1
  int := bit (leAt b 28 4) 30
  clean := decide (byteAt b 27 < 2) && bits (leAt b 28 4) 29 16 == 0
  onStacks := []

/-- Fields of inject control (Table 14-2). -/
def Descriptor.port (d : Descriptor) : Nat := bits d.arg 7 0
def Descriptor.cls (d : Descriptor) : Nat := bits d.arg 10 8
def Descriptor.ts (d : Descriptor) : Nat := bits d.arg 13 12
def Descriptor.dev (d : Descriptor) : Nat := bits d.arg 21 16
def Descriptor.tsOff (d : Descriptor) : Nat := bits d.arg 55 48
def Descriptor.cksOff (d : Descriptor) : Nat := bits d.arg 63 56

/-- A macro is powered, its chiplet too, and neither has been asked to power down. -/
def macroStays (s : State) (m : Nat) : Bool :=
  macroUp s m && fld s .pwrMacro [] m m == 1 && fld s .pwrChiplet [] (m / 4) (m / 4) == 1

/-- The device itself, as inject descriptors name it. -/
def ownDev (s : State) : Nat := s.chain.addr.getD 0

/-- An inject descriptor is for a port of this device. -/
def Descriptor.here (d : Descriptor) (s : State) : Bool := d.dev == ownDev s

/-- A descriptor keeps R427 in a channel's mode. -/
def Descriptor.valid (d : Descriptor) (s : State) (mode : Nat) : Bool :=
  d.clean && (match mode with
  | 1 =>
    decide (60 ≤ d.len) && decide (d.len ≤ 10236) && !bit d.arg 11 && bits d.arg 15 14 == 0 && bits d.arg 31 22 == 0 &&
      d.ts != 3 && (d.ts == 0 || (decide (d.tsOff + 10 ≤ 256) && decide (d.cksOff + 2 ≤ 256))) &&
      (!d.here s || (isPort s d.port && macroStays s (d.port / 8)))
  | 2 => d.arg == 0 && decide (128 ≤ d.len)
  | _ => decide (1 ≤ d.len) && (!d.trace || decide (d.src + d.len ≤ 2 ^ 30)))

/-- The core dies are going into retention, or the device is in standby (19/R536). -/
def diesLeave (s : State) : Bool := s.power.graceFrom.isSome || s.power.state == 2 || s.power.state == 4

/-- A stack is up and has not been asked to power down. -/
def stackStays (s : State) (k : Nat) : Bool := bit s.power.stackPwr k && fld s .pwrStack [] k k == 1

/-- Pages of the trace buffer that hold bytes of a range. -/
def tracePages (off n : Nat) : List Nat := (List.range ((off + n - 1) / 4096 + 1 - off / 4096)).map (fun i => off / 4096 + i)

/-- The stacks that hold the bytes of a copy from the trace buffer. -/
def Descriptor.touched (d : Descriptor) (s : State) : List Nat :=
  if d.trace then (List.range 4).filter (fun k => (tracePages d.src d.len).any (fun p => (pageHome s (pgTrace + p)).1 / 32 == k))
  else []

/-- A descriptor touches a domain that is down or going down (R434); a receive touches one only as it delivers. -/
def Descriptor.domainLeaves (d : Descriptor) (s : State) (mode : Nat) : Bool :=
  match mode with
  | 1 => diesLeave s
  | 2 => false
  | _ => d.trace && (diesLeave s || d.onStacks.any (fun k => !stackStays s k))

/-! ### DMA_DESCRIPTOR (R429) -/

/-- Status of a read of host memory that failed (Table 14-5). -/
def readStatus : ReadEnd → Nat
  | .ok => stOk
  | .timeout => stTimeout
  | .denied => stDenied
  | .poisoned => stUncorrectable

/-- The content of a page of the trace buffer, and whether it can be read: a lost page cannot; one never written holds what
nothing fixes. -/
def tracePage (s : State) (p : Nat) : Option (List Byte) × State :=
  match tfind s.trace.buffer p with
  | some [] => (none, s)
  | some b => (some (padTo 4096 b), s)
  | none => let (x, s) := drawFree s; (some (le 4096 x), s)

/-- The pages of a segment, in order; none when one of them cannot be read. -/
def traceBytes (s : State) : List Nat → Option (List Byte) × State
  | [] => (some [], s)
  | p :: ps =>
    match tracePage s p with
    | (none, s) => (none, s)
    | (some b, s) =>
      match traceBytes s ps with
      | (none, s) => (none, s)
      | (some r, s) => (some (b ++ r), s)

/-- One segment of a copy: at most 4 KiB (R425). `read`: how the source's read ended. -/
def copyTurn (s : State) (ch : Nat) (d : Descriptor) (data : List Byte) (read : ReadEnd) : State :=
  let moved := (chanAt s ch).moved
  let n := min 4096 (d.len - moved)
  let off := d.src + moved
  let (got, s) : Option (List Byte) × State :=
    if d.trace then
      if read = .poisoned then
        let line := (pgTrace + off / 4096) * 64 + off % 4096 / 64
        (none, hbmUe s (linePc s line) (sharedLineNo s line) 3)
      else
        let (b, s) := traceBytes s (tracePages off n)
        (b.map (fun b => slice b (off % 4096) n), s)
    else (if read = .ok then some (padTo n data) else none, s)
  match got with
  | none => chanHalt s ch (if d.trace then stUncorrectable else (readStatus read)) d.int (some (d, moved))
  | some b =>
    let s := emit s (.hostWrite (chanPort ch) (d.arg + moved) b)
    let s := modChan s ch (fun c => { c with moved := moved + n, bytes := wrap 64 (c.bytes + n) })
    if moved + n = d.len then descDone s ch d d.len stOk else s

/-- An injected frame stands before the arbiter of its egress slice (R438). -/
def injectFrame (s : State) (ch : Nat) (d : Descriptor) (data : List Byte) : State :=
  let b := padTo d.len data
  let f := Frame.fresh d.port (sliceOf d.port) 1 b (crc32 b) s.time.tick
  let s := modChan (cntPort s d.port 15) ch (fun c => { c with inject := some s.nextFrame, bytes := wrap 64 (c.bytes + d.len) })
  addFrame s { f with
    stage := .admitting, tail := .good, good := true, egress := [d.port], tc := d.cls, tsKind := d.ts,
    tsId := bits d.arg 47 32, tsOff := d.tsOff, tsCks := d.cksOff }

/-- An inject descriptor. `remote`: the status that another device returns for its frame; none when the path is lost before
it does (R440). -/
def injectTurn (s : State) (ch : Nat) (d : Descriptor) (data : List Byte) (read : ReadEnd) (remote : Option Nat) : State :=
  if read ≠ .ok then chanHalt s ch (readStatus read) d.int (some (d, 0))
  else if d.here s then injectFrame s ch d data
  else
    let s := modChan s ch (fun c => { c with bytes := wrap 64 (c.bytes + d.len) })
    match chainPath s d.dev with
    | some port =>
      let s := emit s (.chain port 6 (le 8 d.arg ++ padTo d.len data))
      descDone s ch d d.len ((remote.getD stTimeout) % 65536)
    | none => descDone s ch d d.len stTimeout

/-- The descriptor in progress is processed. -/
def descTurn (s : State) (ch : Nat) (d : Descriptor) (data : List Byte) (read : ReadEnd) (remote : Option Nat) : State :=
  match chanMode s ch with
  | 1 => if (chanAt s ch).inject.isSome then s else injectTurn s ch d data read remote
  | 2 => s
  | _ => copyTurn s ch d data read

/-- A descriptor that has been fetched with OWN 1: counted, judged, begun. -/
def descBegin (s : State) (ch : Nat) (d : Descriptor) (data : List Byte) (read : ReadEnd) (remote : Option Nat) : State :=
  let s := modChan s ch (fun c => { c with count := wrap 32 (c.count + 1) })
  let limit := fld s .dmaLimit [ch] 23 0
  if limit ≠ 0 ∧ limit < (chanAt s ch).count then chanHalt s ch stChainLimit d.int none
  else if !d.valid s (chanMode s ch) then chanHalt s ch stBadparam d.int (some (d, 0))
  else
    let d := { d with onStacks := if chanMode s ch = 0 then d.touched s else [] }
    if d.domainLeaves s (chanMode s ch) then chanHalt s ch stDomainDown d.int (some (d, 0))
    else descTurn (modChan s ch (fun c => { c with doing := some d })) ch d data read remote

/-- One turn of a channel: the descriptor at CUR is fetched and begun, or the one in progress goes on. `bytes` and `fetch`:
what its fetch returns; `data` and `read`: what the read of its source returns. -/
def dmaDescriptor (ch : Nat) (bytes : List Byte) (fetch : ReadEnd) (data : List Byte) (read : ReadEnd) (remote : Option Nat)
    (s : State) : State :=
  let c := chanAt s ch
  if !chanOn s ch || c.state != 2 || c.held.isSome || s.power.state == 2 then s
  else match c.doing with
  | some d => descTurn s ch d data read remote
  | none =>
    if c.cur % 32 ≠ 0 then chanHalt s ch stBadparam false none
    else if fetch ≠ .ok then chanHalt s ch (readStatus fetch) false none
    else if !bit (leAt bytes 28 4) 31 then modChan s ch (fun c => { c with state := 3 })
    else descBegin s ch (Descriptor.ofBytes c.cur bytes) data read remote

/-- DMA_DESCRIPTOR (R429): a stack that waited for the descriptor's end loses its power (R434). -/
def execDmaDescriptor (ch : Nat) (bytes : List Byte) (fetch : ReadEnd) (data : List Byte) (read : ReadEnd)
    (remote : Option Nat) (s : State) : Host.Outcome State Fault Refusal :=
  .next (stacksLeave (dmaDescriptor ch bytes fetch data read remote s))

/-! ### PUNT_DELIVER (R436, R437, R439) -/

/-- Reasons whose frame is delivered as Rewrite left it. -/
def puntRewritten (reason : Nat) : Bool := reason == 0x20 || reason == 0x21

/-- Punt metadata (Table 14-8). -/
def puntMeta (s : State) (f : Frame) (reason len : Nat) (trunc : Bool) : List Byte :=
  le 1 reason ++ le 1 f.port ++ le 1 (devAddr s)
    ++ le 1 (at_ f.tc 2 0 + at_ (b2n f.flowless) 3 3 + at_ (b2n f.count.posted) 4 4 + at_ (b2n trunc) 5 5
      + at_ (b2n (puntRewritten reason)) 6 6)
    ++ le 4 f.handle ++ le 4 (at_ f.head.key.zone 19 0) ++ le 2 f.version ++ le 2 (at_ f.rxLen 13 0) ++ le 2 (at_ len 13 0)
    ++ le 2 (if reason < 0x20 then at_ f.head.lastStep 10 0 else 0) ++ zeros 4 ++ padTo 24 f.rxStamp ++ zeros 16

/-- Metadata of an export message of a collector. -/
def exportMeta (s : State) (c len : Nat) (trunc : Bool) (stamp : List Byte) : List Byte :=
  le 1 (0x40 + c) ++ zeros 1 ++ le 1 (devAddr s) ++ le 1 (at_ (b2n trunc) 5 5) ++ zeros 12 ++ le 2 (at_ len 13 0)
    ++ zeros 6 ++ padTo 24 stamp ++ zeros 16

/-- A punted frame's bytes as delivered, FCS included. -/
def puntBytes (f : Frame) (reason : Nat) : List Byte :=
  if puntRewritten reason then f.data ++ le 4 (f.wireFcs f.data) else f.rx ++ le 4 f.fcs

/-- Metadata and payload go to the descriptor's buffer, as much of the payload as fits, and the descriptor completes. -/
def deliver (s : State) (ch : Nat) (d : Descriptor) (header payload : List Byte) : State :=
  let n := min payload.length (d.len - 64)
  let s := emit s (.hostWrite (chanPort ch) d.src (header ++ payload.take n))
  let s := modChan s ch (fun c => { c with bytes := wrap 64 (c.bytes + 64 + n) })
  descDone s ch d (64 + n) stOk

/-- The oldest frame of a slice's punt queue that waits for a channel. -/
def puntHead (s : State) (sl ch : Nat) : Option Nat :=
  (storeAt s sl).punt.find? (fun id => match frameAt s id with
    | some f => fld s .puntMap [f.punt.getD 0] 28 24 == ch
    | none => false)

/-- A slice's oldest frame for a channel is delivered once its tail has come good; its verdict is bad where the buffer cuts
it short (R437). -/
def deliverFrame (s : State) (ch sl : Nat) (d : Descriptor) : State :=
  match puntHead s sl ch with
  | none => s
  | some id =>
    onFrame s id (fun f =>
      if f.tail ≠ .good then s
      else if diesLeave s then chanHalt s ch stDomainDown d.int (some (d, 0))
      else
        let r := f.punt.getD 0
        let b := puntBytes f r
        let trunc := decide (d.len - 64 < b.length)
        let s := deliver s ch d (puntMeta s f r b.length trunc) b
        let s := modStore s sl (fun c => { c with punt := c.punt.filter (· != id) })
        frameLeft (dropRef (if trunc then verdictBad s id else verdictGood s id) id) id)

/-- A message that no channel can ever take is dropped with its records (R439). -/
def dropMessages (s : State) (c : Nat) : State :=
  let n := ((collectorAt s c).waiting.map (·.1)).foldl (· + ·) 0
  if puntTarget s (0x40 + c) || n == 0 then s
  else modCollector (raiseEv (bump s 0 0x52 n) .actEvent [] [2]) c (fun x => { x with waiting := [] })

/-- A collector's oldest message is delivered. -/
def deliverMessage (s : State) (ch c : Nat) (d : Descriptor) : State :=
  match (collectorAt s c).waiting with
  | [] => s
  | (_, m) :: rest =>
    if fld s .puntMap [0x40 + c] 28 24 ≠ ch then s
    else
      let msg := m.drop 24
      let s := deliver s ch d (exportMeta s c msg.length (decide (d.len - 64 < msg.length)) (m.take 24)) msg
      modCollector s c (fun x => { x with waiting := rest })

/-- A frame or message joins what the device holds for the chain. -/
def holdUp (s : State) (b : List Byte) : State := withChain s (fun c => { c with upward := c.upward ++ [b] })

/-- On a chained device a slice's oldest punted frame joins those that travel to the root, or is dropped where 256 of them
wait (R440). Its verdict is good as it joins them (DESIGN CHOICE, log entry 28). -/
def puntUp (s : State) (sl : Nat) : State :=
  match (storeAt s sl).punt with
  | [] => s
  | id :: _ =>
    onFrame s id (fun f =>
      if f.tail ≠ .good then s
      else
        let r := f.punt.getD 0
        let b := puntBytes f r
        let meta_ := puntMeta s f r b.length false
        let s := modStore s sl (fun c => { c with punt := c.punt.filter (· != id) })
        if s.chain.upward.length < upCapacity then
          pumpUp (frameLeft (dropRef (verdictGood (holdUp s (meta_ ++ b)) id) id) id)
        else discardStored (puntDropped s sl r) id)

/-- On a chained device a collector's oldest message joins what travels to the root once there is room (R440). -/
def exportUp (s : State) (c : Nat) : State :=
  match (collectorAt s c).waiting with
  | [] => s
  | (_, m) :: rest =>
    if s.chain.upward.length < upCapacity then
      let msg := m.drop 24
      pumpUp (modCollector (holdUp s (exportMeta s c msg.length false (m.take 24) ++ msg)) c (fun x => { x with
        waiting := rest }))
    else s

/-- A receive channel takes what a source has for it: the punt queue of slice 0–7, or the messages of collector 8–15. -/
def puntDeliver (ch source : Nat) (s : State) : State :=
  if s.power.state = 2 ∨ 16 ≤ source then s
  else
    let s := if source < 8 then dropUntaken s source else dropMessages s (source - 8)
    if s.chain.addr.getD 0 ≠ 0 then (if source < 8 then puntUp s source else exportUp s (source - 8))
    else
      let c := chanAt s ch
      match c.doing with
      | none => s
      | some d =>
        if chanMode s ch ≠ 2 ∨ c.state ≠ 2 then s
        else if source < 8 then deliverFrame s ch source d else deliverMessage s ch (source - 8) d

/-- PUNT_DELIVER (R436). -/
def execPuntDeliver (ch source : Nat) (s : State) : Host.Outcome State Fault Refusal := .next (puntDeliver ch source s)

/-! ### DMA_GRACE_EXPIRE (R434) -/

/-- The earliest tick at which a domain that a descriptor touches began to wait for it. -/
def Descriptor.graceStart (d : Descriptor) (s : State) : Nat :=
  ((s.power.leaving.filter (fun e => d.onStacks.contains e.1)).map (·.2)).foldl min
    (s.power.graceFrom.getD s.time.tick)

/-- DMA_GRACE has passed since a tick; 0 acts as 1. -/
def graceOver (s : State) (since : Nat) : Bool :=
  decide (since + ticksOfNs (max 1 (fld s .dmaGrace [] 15 0) * 1000) ≤ s.time.tick)

/-- The grace of a power-down ends: a channel still in a descriptor that touches the domain halts, its data lost. -/
def dmaGraceExpire (ch : Nat) (s : State) : State :=
  let c := chanAt s ch
  match c.doing with
  | none => s
  | some d =>
    if c.state = 2 && d.domainLeaves s (chanMode s ch) && graceOver s (d.graceStart s) then
      let s := match c.inject with
        | some id => releaseFrame (stampLost s id) id
        | none => s
      chanHalt s ch stDomainDown d.int (some (d, c.moved))
    else s

/-- DMA_GRACE_EXPIRE (R434). -/
def execDmaGraceExpire (ch : Nat) (s : State) : Host.Outcome State Fault Refusal := .next (stacksLeave (dmaGraceExpire ch s))

end Sys2Proof.Machine
end

