-- ==== Sys2Proof/Machine/Hbm.lean ====
section
/-! DEFINITION. The HBM controllers at work (18): recalibration, parity replay, refresh, patrol scrub, retirement by the
host, and the read window. -/

namespace Sys2Proof.Machine

/-- The controllers serve a pseudo-channel: trained, live, and not in standby. -/
def pcServes (s : State) (pc : Nat) : Bool := running s && s.hbm.trainDone && decide (pc < 128) && pcLive s pc

/-! ### The interface (R513, R514, R515) -/

/-- Some byte lane's window of a width register is below 12 taps. -/
def narrow (w : Nat) : Bool := (List.range 4).any (fun k => decide (bits w (8 * k + 7) (8 * k) < 12))

/-- Record both window widths of a pseudo-channel. -/
def setWindows (s : State) (pc r w : Nat) : State :=
  modPc s pc (fun p => { p with rwin := wrap 32 r, wwin := wrap 32 w })

/-- One recalibration of a pseudo-channel: the widths measured, and what the full sweep that a narrow window starts finds;
a pseudo-channel that fails it is retired. -/
def hbmRecal (pc r w : Nat) (sweep : Nat × Nat) (s : State) : State :=
  if !pcServes s pc then s
  else if !narrow r && !narrow w then setWindows s pc r w
  else
    let s := setWindows s pc sweep.1 sweep.2
    if narrow sweep.1 || narrow sweep.2 then retirePc s pc 4 else s

/-- HBM_RECAL (R513). -/
def execHbmRecal (pc r w : Nat) (sweep : Nat × Nat) (s : State) : Host.Outcome State Fault Refusal :=
  .next (hbmRecal pc r w sweep s)

/-- A parity error of a channel (0–63) is replayed; the third in a row sweeps the channel again, and a sweep without a
window retires both its pseudo-channels. -/
def hbmCaParity (channel : Nat) (inRow window : Bool) (s : State) : State :=
  let a := channel * 2
  if !(pcServes s a || pcServes s (a + 1)) then s
  else
    let n := if inRow then tget 0 s.hbm.parity channel + 1 else 1
    let total := sat 32 (tget 0 s.hbm.replays channel + 1)
    let s := { s with hbm := { s.hbm with
      parity := tput 0 s.hbm.parity channel (if n = 3 then 0 else n), replays := tput 0 s.hbm.replays channel total } }
    let s := modStk s (channel / 16) (fun x => { x with caRetries := sat 16 (x.caRetries + 1) })
    let s := hbmEventPost (raiseEv s .hbmEvent [] [1]) 5 a 0 total
    if n = 3 ∧ ¬ window then retirePc (retirePc s a 5) (a + 1) 5 else s

/-- HBM_CA_PARITY (R514). -/
def execHbmCaParity (channel : Nat) (inRow window : Bool) (s : State) : Host.Outcome State Fault Refusal :=
  .next (hbmCaParity channel inRow window s)

/-- The refresh rate of a stack follows its own temperature sensor (Table 16-8: 24 + stack), in quarters of a degree:
doubled from 85 °C, normal again below 80 °C. -/
def refreshRate (s : State) (k : Nat) : State :=
  match tfind s.rim.temps (24 + k) with
  | none => s
  | some t =>
    let c := sint 16 t
    let was := (stkAt s k).refresh2x
    let now := if 340 ≤ c then true else if c < 320 then false else was
    if was = now ∨ ¬ (s.hbm.trainDone ∧ bit s.power.stackPwr k) then s
    else
      let s := modStk s k (fun x => { x with refresh2x := now })
      hbmEventPost (raiseEv s .hbmEvent [] [0]) 4 (32 * k) (b2n now) 0

/-- A per-bank refresh of a pseudo-channel falls due, at the rate of its stack. -/
def hbmRefresh (pc : Nat) (s : State) : State := if pcServes s pc then refreshRate s (pc / 32) else s

/-- HBM_REFRESH (R515). -/
def execHbmRefresh (pc : Nat) (s : State) : Host.Outcome State Fault Refusal := .next (hbmRefresh pc s)

/-! ### Patrol scrub (R518) -/

/-- Data lines of a pseudo-channel. -/
def pcLines : Nat := 6291456

/-- The patrol scrub reads the next line of a pseudo-channel. It is no port of Table 18-4: the ARG of the event that an
uncorrectable line posts is a free value. -/
def patrolScrub (pc : Nat) (ecc : Ecc) (s : State) : State :=
  if !pcServes s pc || fld s .hbmCfg [] 23 16 == 0 then s
  else
    let line := tget 0 s.hbm.scrub pc
    let s := { s with hbm := { s.hbm with scrub := tput 0 s.hbm.scrub pc ((line + 1) % pcLines) } }
    match ecc with
    | .ok => s
    | .ce => hbmCe s pc
    | .ue =>
      let (arg, s) := drawFree s
      hbmUe s pc line (arg % 256)

/-- PATROL_SCRUB (R518). -/
def execPatrolScrub (pc : Nat) (ecc : Ecc) (s : State) : Host.Outcome State Fault Refusal := .next (patrolScrub pc ecc s)

/-! ### Retirement by the host (R521) -/

/-- A write of HBM_RETIRE. -/
def writeHbmRetire (s : State) (req : Requester) (off v : Nat) : State :=
  let pc := bits v 6 0
  if bits v 31 16 ≠ 0x5245 then accessError s req 4 off 2 true
  else if !(s.hbm.trainDone && pcLive s pc) then accessError s req 8 off 2 true
  else
    let s := rimLog s 0x20 true (le 1 req.id ++ le 1 0 ++ le 1 2 ++ le 1 0 ++ le 4 off ++ le 4 1)
    retirePc s pc 7

/-- HBM_RETIRE_WRITE (R521). -/
def execHbmRetireWrite (req : Requester) (off v : Nat) (s : State) : Host.Outcome State Fault Refusal :=
  .next (guarded s req off [.hbmRetire] (fun s _ _ => writeHbmRetire s req off v))

/-! ### What a data line holds (R507, R508) -/

/-- The group whose home is a frame of a pseudo-channel. -/
def groupHome (s : State) (pc frame : Nat) : Option Nat :=
  match (s.skein.groups.find? (fun e => e.2.placed && e.2.pc == pc && e.2.frame == frame)).map (·.1) with
  | some g => some g
  | none =>
    match s.skein.survivors.findIdx? (· == pc) with
    | none => none
    | some i =>
      let g := frame * s.skein.survivors.length + i
      if decide (g < 65536) && (tfind s.skein.groups g).isNone then some g else none

/-- The bucket that a place of a frame holds: a group's own, or one that a move has copied there. -/
def bucketAt (s : State) (pc frame j : Nat) : Option Nat :=
  match groupHome s pc frame with
  | some g => if bucketHome s (g * 256 + j) = (pc, frame) then some (g * 256 + j) else none
  | none => match s.skein.move with
    | some m => if m.dstPc = pc ∧ m.dstFrame = frame ∧ j < m.cursor then some (m.group * 256 + j) else none
    | none => none

/-- The page of the shared space that lies on a shared page of a pseudo-channel. -/
def pageAt (s : State) (pc sp : Nat) : Option Nat :=
  match (s.hbm.pages.find? (fun e => e.2 == pc * 32768 + sp)).map (·.1) with
  | some p => some p
  | none =>
    match s.skein.survivors.findIdx? (· == pc) with
    | none => none
    | some i =>
      let p := sp * s.skein.survivors.length + i
      if decide (p < pgEnd) && (tfind s.hbm.pages p).isNone then some p else none

/-- The images of `n` entries of a table from index `i`; an unlisted one is zero. -/
def entriesFrom {α : Type} (t : Table α) (image : α → List Byte) (size i n : Nat) : List Byte :=
  (List.range n).flatMap (fun k => match tfind t (i + k) with | some x => padTo size (image x) | none => zeros size)

/-- Line `l` of page `p` of the shared space; none where its contents are undefined. -/
def sharedLine (s : State) (p l : Nat) : Option (List Byte) :=
  let line := p * 64 + l
  if p < pgBlock then some (entriesFrom s.actions.subs Subscriber.image 64 line 1)
  else if p < pgPort then some (entriesFrom s.actions.blocks NatBlock.image 8 ((line - pgBlock * 64) * 8) 8)
  else if p < pgTarget then some (entriesFrom s.actions.ports PortMap.image 4 ((line - pgPort * 64) * 16) 16)
  else if p < pgZone then some (entriesFrom s.actions.targets LbTarget.image 8 ((line - pgTarget * 64) * 8) 8)
  else if p < pgTrace then
    let copy := (p - pgZone) / 8192
    some (entriesFrom s.lid.zones Counts.totals 32 (copy * 2 ^ 20 + (p - pgZone) % 8192 * 128 + l * 2) 2)
  else match tfind s.trace.buffer (p - pgTrace) with
    | some [] => some (zeros 64)
    | some b => some (slice b (l * 64) 64)
    | none => none

/-- A data line of a pseudo-channel; none where nothing has given it contents. -/
def hbmLine (s : State) (pc line : Nat) : Option (List Byte) :=
  if line < 4456448 then
    let frame := line / 4352
    let off := line % 4352
    if off < 256 then
      (bucketAt s pc frame off).map (fun b => (List.range 8).flatMap (fun w => le 8 { wayAt s (b * 8 + w) with hot := (hotOf s (b * 8 + w)).isSome }.word))
    else
      let n := (off - 256) / 2
      match bucketAt s pc frame (n / 8) with
      | none => none
      | some b => (tfind s.skein.cold (b * 8 + n % 8)).map (fun c => slice c.image ((off - 256) % 2 * 64) 64)
  else
    let k := line - 4456448
    match pageAt s pc (k / 64) with
    | some p => sharedLine s p (k % 64)
    | none => none

/-! ### The read window (R524, 15/R461) -/

/-- How the window's latest read ended. -/
def hbmWindow (s : State) (data : List Byte) (result : Nat) (corrected : Bool) : State :=
  { s with hbm := { s.hbm with window := data, result := result, corrected := corrected } }

/-- A write of HBM_IND_CTL: GO reads the line, and LINE advances when AUTO_INC is 1. -/
def writeHbmInd (s : State) (ix : List Nat) (v : Nat) (ecc : Ecc) : State :=
  let s := landWrite s .hbmIndCtl ix v
  if !bit v 31 then s
  else
    let a := inForce s .hbmIndAddr []
    let pc := bits a 29 23
    let line := bits a 22 0
    let s :=
      if decide (pcLines ≤ line) || !pcServes s pc then hbmWindow s s.hbm.window 2 false
      else match ecc with
      | .ue => hbmWindow (hbmUe s pc line 3) (zeros 64) 3 false
      | _ =>
        let (data, s) := match hbmLine s pc line with
          | some d => (d, s)
          | none => (le 64 (drawFree s).1, (drawFree s).2)
        if ecc = .ce then hbmWindow (hbmCe s pc) data 0 true else hbmWindow s data 0 false
    if bit v 30 then forceFld s .hbmIndAddr [] 22 0 (line + 1) else s

/-- HBM_IND_GO (R524). -/
def execHbmIndGo (req : Requester) (off v : Nat) (ecc : Ecc) (s : State) : Host.Outcome State Fault Refusal :=
  .next (guarded s req off [.hbmIndCtl] (fun s _ ix => writeHbmInd s ix v ecc))

end Sys2Proof.Machine
end

