-- ==== Sys2Proof/Machine/Host.lean ====
section
/-! DEFINITION. Host ports, semaphores, rings and replies (12/R366–R375; 19/R527): HOST_LINK_UP, HOST_LINK_DOWN,
FUNCTION_LEVEL_RESET, PERST, SEMAPHORE_ACQUIRE, SEMAPHORE_RELEASE, SEMAPHORE_FORCE_RELEASE, CR_PI_WRITE, RING_CI_WRITE,
RING_ENABLE, RING_DISABLE, RING_RESTART, REPLY_WRITE. -/

namespace Sys2Proof.Machine

/-! ### Replies whose ring is gone (R368, R373) -/

/-- The reply of a command is to be discarded: its ring is marked lost. -/
def loseReply (p : CmdHeader → Bool) (h : CmdHeader) : CmdHeader := if p h then { h with replyRing := lostRing } else h

/-- Every command in progress that `p` picks loses its reply. -/
def loseReplies (s : State) (p : CmdHeader → Bool) : State :=
  let item (i : Item) : Item := { i with header := loseReply p i.header }
  let far (r : Relayed) : Relayed := { r with header := loseReply p r.header }
  let s := withSched s (fun x => { x with
    store := x.store.map item, ready := x.ready.map (fun l => l.map item),
    engines := x.engines.map (fun e => { e with item := e.item.map item }) })
  let s := withChain s (fun c => { c with relayed := c.relayed.map far, enumerating := c.enumerating.map (loseReply p) })
  { s with rules := { s.rules with commit := s.rules.commit.map (fun c => { c with header := loseReply p c.header }) } }

/-- Replies that wait for a disabled ring are discarded and counted. -/
def dropWaiting (s : State) (hp : Nat) : State :=
  let gone (r : Reply) : Bool := r.hp == hp && !(ringAt s hp 1 r.ring).en
  let n := (s.host.replies.filter gone).length
  let s := { s with host := { s.host with replies := s.host.replies.filter (fun r => !gone r) } }
  bump s 0 (0x96 + hp) n

/-! ### Rings (R371–R373, Table 12-18) -/

/-- Log2 of the least size of a ring of a class. -/
def ringLow (cls : Nat) : Nat := if cls = 1 then 11 else 7

/-- A ring register's setup: base and write-back address of a class. -/
def ringSetup (s : State) (cls : Nat) (ix : List Nat) : Nat × Nat :=
  let w (lo hi : RegName) : Nat := inForce s hi ix * 2 ^ 32 + inForce s lo ix
  match cls with
  | 0 => (w .crBaseLo .crBaseHi, w .crWbLo .crWbHi)
  | 1 => (w .rrBaseLo .rrBaseHi, w .rrWbLo .rrWbHi)
  | _ => (w .erBaseLo .erBaseHi, w .erWbLo .erWbHi)

/-- EN takes effect as 1: setup taken, indices zero. The device's own index is written back where that changes it (R371;
DEDUCED, log entry 29). -/
def enableRing (s : State) (cls : Nat) (ix : List Nat) : State :=
  let hp := ix.getD 0 0
  let r := ix.getD 1 0
  let (base, wb) := ringSetup s cls ix
  let log2 := min 16 (max (ringLow cls) (fld s (ringCfg cls) ix 24 20))
  let g := ringAt s hp cls r
  let s := if (if cls = 0 then g.ci else g.pi) = 0 then s else emit s (.hostWrite hp wb (le 4 0))
  setRing s hp cls r ⟨true, base, wb, log2, 0, 0, false, 0, 0, 0, g.drops⟩

/-- EN takes effect as 0: the ring stops; the replies for a reply ring are lost. -/
def disableRing (s : State) (cls : Nat) (ix : List Nat) : State :=
  let hp := ix.getD 0 0
  let r := ix.getD 1 0
  let s := setRing s hp cls r { ringAt s hp cls r with en := false }
  if cls = 1 then dropWaiting (loseReplies s (fun h => h.fn / 2 == hp && h.replyRing == r)) hp else s

/-- The class of a ring register. -/
def ringClass (r : RegName) : Nat :=
  match r with
  | .crCfg | .crPi => 0
  | .rrCfg | .rrCi => 1
  | _ => 2

/-- A write of RING_CFG: a size that differs while EN is 1 is ignored and raises kind STATE. -/
def writeRingCfg (s : State) (req : Requester) (off : Nat) (r : RegName) (ix : List Nat) (v : Nat) : State :=
  let cls := ringClass r
  let hp := ix.getD 0 0
  let n := ix.getD 1 0
  let was := (ringAt s hp cls n).en
  let keep := was && bit v 31 && bits v 24 20 != fld s r ix 24 20
  let s := landWrite s r ix (if keep then withBits v 24 20 (fld s r ix 24 20) else v)
  let s := if keep then accessError s req 8 off 2 true else s
  let s := if !was && bit v 31 then enableRing s cls ix else if was && !bit v 31 then disableRing s cls ix else s
  let g := ringAt s hp cls n
  if cls = 0 ∧ bit v 30 ∧ g.en ∧ g.halted then setRing s hp cls n { g with halted := false, cause := 0 } else s

/-- A write of CR_PI, the doorbell. -/
def writeCrPi (s : State) (ix : List Nat) (v : Nat) : State :=
  let hp := ix.getD 0 0
  let n := ix.getD 1 0
  setRing s hp 0 n { ringAt s hp 0 n with pi := wrap 32 v }

/-- A write of the consumer index of a reply or event ring. -/
def writeRingCi (s : State) (cls : Nat) (ix : List Nat) (v : Nat) : State :=
  let hp := ix.getD 0 0
  let n := ix.getD 1 0
  setRing s hp cls n { ringAt s hp cls n with ci := wrap 32 v }

/-- A write of HP_RING_OWN: the bit of an enabled ring keeps its value (R367). -/
def writeRingOwn (s : State) (ix : List Nat) (v : Nat) : State :=
  let hp := ix.getD 0 0
  let old := inForce s .hpRingOwn [hp]
  let on (n : Nat) : Bool := if n < 16 then (ringAt s hp 0 n).en else (ringAt s hp 1 (n - 16)).en
  landWrite s .hpRingOwn ix (ofBits ((List.range 32).filter (fun n => if on n then bit old n else bit v n)))

/-- CR_PI_WRITE (R372). -/
def execCrPiWrite (req : Requester) (off v : Nat) (s : State) : Host.Outcome State Fault Refusal :=
  .next (guarded s req off [.crPi] (fun s _ ix => writeCrPi s ix v))

/-- RING_CI_WRITE (R373): a reply or event ring's consumer index. -/
def execRingCiWrite (req : Requester) (off v : Nat) (s : State) : Host.Outcome State Fault Refusal :=
  .next (guarded s req off [.rrCi, .erCi] (fun s r ix => writeRingCi s (ringClass r) ix v))

/-- RING_ENABLE (R371): a write of RING_CFG with EN 1 and RESTART 0. -/
def execRingEnable (req : Requester) (off v : Nat) (s : State) : Host.Outcome State Fault Refusal :=
  .next (guarded s req off [.crCfg, .rrCfg, .erCfg] (fun s r ix =>
    if bit v 31 && !bit v 30 then writeRingCfg s req off r ix v else s))

/-- RING_DISABLE (R368): a write of RING_CFG with EN 0. -/
def execRingDisable (req : Requester) (off v : Nat) (s : State) : Host.Outcome State Fault Refusal :=
  .next (guarded s req off [.crCfg, .rrCfg, .erCfg] (fun s r ix => if bit v 31 then s else writeRingCfg s req off r ix v))

/-- RING_RESTART (R372). -/
def execRingRestart (req : Requester) (off v : Nat) (s : State) : Host.Outcome State Fault Refusal :=
  .next (guarded s req off [.crCfg, .rrCfg, .erCfg] (fun s r ix => if bit v 30 then writeRingCfg s req off r ix v else s))

/-! ### REPLY_WRITE (R373, R374) -/

/-- A reply without the reply at a place. -/
def dropReply (s : State) (k : Nat) : State :=
  { s with host := { s.host with replies := s.host.replies.eraseIdx k } }

/-- The oldest waiting reply of a ring is written once it fits in the free slots. -/
def replyWrite (hp ring : Nat) (s : State) : State :=
  match s.host.replies.findIdx? (fun r => r.hp == hp && r.ring == ring) with
  | none => s
  | some k =>
    match s.host.replies[k]? with
    | none => s
    | some r =>
      let g := ringAt s hp 1 ring
      if !g.en then replyLost (dropReply s k) hp
      else if cdiv r.bytes.length 64 ≤ g.free then writeRing (dropReply s k) hp 1 ring r.bytes else s

/-- REPLY_WRITE (R373). -/
def execReplyWrite (hp ring : Nat) (s : State) : Host.Outcome State Fault Refusal := .next (replyWrite hp ring s)

/-! ### Semaphores (R369, R370) -/

/-- A read of a semaphore acquires it when it is free: what the read returns, and the state after. -/
def readSem (s : State) (req : Requester) (n : Nat) : Nat × State :=
  let o := tget 0 s.host.sems n
  if o = 0 then (0, { s with host := { s.host with sems := tput 0 s.host.sems n (req.id + 1), lastSemOwner := req.id } })
  else (o, { s with host := { s.host with lastSemOwner := req.id } })

/-- A semaphore becomes free. -/
def freeSem (s : State) (n : Nat) : State := { s with host := { s.host with sems := tput 0 s.host.sems n 0 } }

/-- The log entry of a release (type SEM_FORCE): semaphore, former owner, requester. -/
def logSem (s : State) (n owner req : Nat) : State := rimLog s 0x23 true (le 1 n ++ le 1 owner ++ le 1 req)

/-- A write of a semaphore: released by its owner, or by force; anything else is refused. -/
def writeSem (s : State) (req : Requester) (off : Nat) (ix : List Nat) (v : Nat) : State :=
  let n := ix.getD 0 0
  let o := tget 0 s.host.sems n
  let s := { s with host := { s.host with lastSemOwner := req.id } }
  if o ≠ 0 ∧ o = req.id + 1 ∧ v = req.id then freeSem s n
  else if o ≠ 0 ∧ v = 256 + (o - 1) ∧ Who.priv.permits req.id then logSem (freeSem s n) n (o - 1) req.id
  else accessError s req 4 off 2 true

/-- A read of one semaphore answers its requester. -/
def semAnswer (s : State) (req : Requester) (n : Nat) : State :=
  let (x, s) := readSem s req n
  emit s (.readData req.id (0x102000 + 4 * n) x)

/-- A read of 8 to 32 bits of a semaphore, or a 64-bit read of two, the lower address first; one that is not aligned is
refused (15/R442). -/
def semaphoreAcquire (req : Requester) (off : Nat) (wide : Bool) (s : State) : State :=
  if !domainUp s off then emit s (.readData req.id off 0)
  else match locate off with
  | some (.sem, [n]) =>
    if !wide then semAnswer s req n
    else if n % 2 = 0 then semAnswer (semAnswer s req n) req (n + 1)
    else emit (accessError s req 2 off 3 false) (.readData req.id off 0)
  | _ => s

/-- SEMAPHORE_ACQUIRE (R369). -/
def execSemaphoreAcquire (req : Requester) (off : Nat) (wide : Bool) (s : State) : Host.Outcome State Fault Refusal :=
  .next (semaphoreAcquire req off wide s)

/-- SEMAPHORE_RELEASE (R369): a write without FORCE. -/
def execSemaphoreRelease (req : Requester) (off v : Nat) (s : State) : Host.Outcome State Fault Refusal :=
  .next (guarded s req off [.sem] (fun s _ ix => if bit v 8 then s else writeSem s req off ix v))

/-- SEMAPHORE_FORCE_RELEASE (R369): a write with FORCE. -/
def execSemaphoreForceRelease (req : Requester) (off v : Nat) (s : State) : Host.Outcome State Fault Refusal :=
  .next (guarded s req off [.sem] (fun s _ ix => if bit v 8 then writeSem s req off ix v else s))

/-! ### Links and function resets (R368, R527) -/

/-- Change a host port. -/
def modHost (s : State) (hp : Nat) (f : HostPort → HostPort) : State :=
  { s with host := { s.host with ports := setAt s.host.ports hp (f (s.host.ports.getD hp HostPort.reset)) } }

/-- The rings a function owns stop: their enable bits read 0. -/
def stopRings (s : State) (fn : Nat) : State :=
  let hp := fn / 2
  let own := ([(0, 16), (1, 16), (2, 4)].flatMap (fun c => (List.range c.2).map (fun r => (c.1, r)))).filter
    (fun k => ringOwner s hp k.1 k.2 == fn && (ringAt s hp k.1 k.2).en)
  own.foldl (fun s k => disableRing (forceFld s (ringCfg k.1) [hp, k.2] 31 31 0) k.1 [hp, k.2]) s

/-- The semaphores a function owns are released, each release logged. -/
def stopSems (s : State) (fn : Nat) : State :=
  ((s.host.sems.filter (fun e => e.2 == fn + 1)).map (·.1)).foldl (fun s n => logSem (freeSem s n) n fn fn) s

/-- The channels a function owns act as with EN 0. -/
def stopChannels (s : State) (fn : Nat) : State :=
  (((List.range 16).map (fun i => fn / 2 * 16 + i)).filter (fun ch => chanOwner s ch == fn && chanOn s ch)).foldl disableChannel s

/-- What a function loses with its reset or its link. -/
def functionStops (s : State) (fn : Nat) : State :=
  stopChannels (stopSems (loseReplies (stopRings s fn) (fun h => h.fn == fn)) fn) fn

/-- The host event of a function, to the other port's event rings when it is routed there. -/
def hostEvent (s : State) (kind hp fn : Nat) : State :=
  if fld s .evtRoute [9] 30 30 = hp then s else postEvent s 9 (le 1 kind ++ le 1 fn ++ zeros 2)

/-- A host port's link comes up: the device is the root (R390). -/
def hostLinkUp (hp gen width : Nat) (s : State) : State :=
  if !s.rim.started ∨ 2 ≤ hp then s
  else
    let s := modHost s hp (fun p => { p with up := true, gen := min 6 (max 3 gen), width := width % 16 })
    withChain s (fun c => { c with addr := some 0, root := true, devices := max 1 c.devices })

/-- HOST_LINK_UP (R390). -/
def execHostLinkUp (hp gen width : Nat) (s : State) : Host.Outcome State Fault Refusal := .next (hostLinkUp hp gen width s)

/-- A host port's link is lost. -/
def linkLost (hp : Nat) (s : State) : State :=
  if 2 ≤ hp then s
  else
    let s := modHost s hp (fun p => { p with up := false })
    let s := functionStops (functionStops s (hp * 2)) (hp * 2 + 1)
    hostEvent (raiseEv s .hpEvent [hp] [0]) 2 hp (hp * 2)

/-- The link of a port that is up goes down. -/
def hostLinkDown (hp : Nat) (s : State) : State := if (s.host.ports.getD hp HostPort.reset).up then linkLost hp s else s

/-- HOST_LINK_DOWN (R368). -/
def execHostLinkDown (hp : Nat) (s : State) : Host.Outcome State Fault Refusal := .next (hostLinkDown hp s)

/-- PERST (R527): as the link loss of its own port. -/
def execPerst (hp : Nat) (s : State) : Host.Outcome State Fault Refusal := .next (linkLost hp s)

/-- A requester's pending mailbox request is discarded, and an update it began is abandoned (16/R479, R487). -/
def mailboxReset (s : State) (fn : Nat) : State :=
  let s := { s with rim := { s.rim with
    boxes := setAt s.rim.boxes fn { s.rim.boxes.getD fn ⟨false, false, 0⟩ with busy := false } } }
  match s.rim.update with
  | some u =>
    if u.owner = fn then
      { s with rim := { s.rim with
        update := none, slots := setAt s.rim.slots u.slot ImageSlot.reset, bootWrites := s.rim.bootWrites + 1 } }
    else s
  | none => s

/-- A function-level reset. -/
def functionLevelReset (fn : Nat) (s : State) : State :=
  if 4 ≤ fn then s
  else
    let s := mailboxReset (functionStops s fn) fn
    hostEvent (raiseEv s .hpEvent [fn / 2] [1 + fn % 2]) 1 (fn / 2) fn

/-- FUNCTION_LEVEL_RESET (R368). -/
def execFunctionLevelReset (fn : Nat) (s : State) : Host.Outcome State Fault Refusal := .next (functionLevelReset fn s)

end Sys2Proof.Machine
end

