-- ==== Sys2Proof/Machine/Observe.lean ====
section
/-! DEFINITION. Observation (17): CNT_ADDR_WRITE, CNT_DATA_HI_READ, CNT_CHAIN_WRITE, CNT_SNAPSHOT, TAG_SEED_WRITE,
TRC_CFG_WRITE, RESET_WP, TRACE_BLOCK_CLOSE. -/

namespace Sys2Proof.Machine

/-! ### Counters (R490, R493, R389) -/

/-- Change the counter block. -/
def withCounters (s : State) (f : CounterState → CounterState) : State := { s with counters := f s.counters }

/-- The value of a counter of a part. -/
def counterAt (s : State) (part num : Nat) : Nat := tget 0 s.counters.counts (part * 1024 + num)

/-- The counter that CNT_ADDR names is sampled: a PART above 8 or a bank that is down samples 0 with VALID 0. -/
def sampleCounter (s : State) : State :=
  let part := fld s .cntAddr [] 27 24
  let num := fld s .cntAddr [] 9 0
  if part ≤ 8 ∧ running s then
    withCounters s (fun c => { c with
      sample := counterAt s part num, sampleValid := true,
      sampleChained := tget false c.chained (part * 512 + num / 2) })
  else withCounters s (fun c => { c with sample := 0, sampleValid := false, sampleChained := false })

/-- A write of CNT_ADDR samples. -/
def writeCntAddr (s : State) (ix : List Nat) (v : Nat) : State := sampleCounter (landWrite s .cntAddr ix v)

/-- CNT_ADDR_WRITE (R493). -/
def execCntAddrWrite (req : Requester) (off v : Nat) (s : State) : Host.Outcome State Fault Refusal :=
  .next (guarded s req off [.cntAddr] (fun s _ ix => writeCntAddr s ix v))

/-- CNT_DATA_LO and CNT_DATA_HI as they stand. -/
def cntDataLoWord (s : State) : Nat := s.counters.sample % 2 ^ 32
def cntDataHiWord (s : State) : Nat :=
  at_ (s.counters.sample / 2 ^ 32) 15 0 + at_ (b2n s.counters.sampleChained) 30 30 + at_ (b2n s.counters.sampleValid) 31 31

/-- What a read of CNT_DATA_HI does besides answering: with AUTO_INC the next counter is sampled. -/
def readCntHi (s : State) : State :=
  if fld s .cntAddr [] 31 31 = 1 then
    sampleCounter (forceFld s .cntAddr [] 9 0 ((fld s .cntAddr [] 9 0 + 1) % 1024))
  else s

/-- A read of CNT_DATA_HI, alone or as the upper half of a 64-bit read. -/
def cntDataHiRead (req : Requester) (wide : Bool) (s : State) : State :=
  let lo := 0x3F00004
  if !domainUp s lo then emit s (.readData req.id (lo + 4) 0)
  else
    let s := if wide then emit s (.readData req.id lo (cntDataLoWord s)) else s
    readCntHi (emit s (.readData req.id (lo + 4) (cntDataHiWord s)))

/-- CNT_DATA_HI_READ (R493). -/
def execCntDataHiRead (req : Requester) (wide : Bool) (s : State) : Host.Outcome State Fault Refusal :=
  .next (cntDataHiRead req wide s)

/-- A chain bit that changes zeroes the odd counter of its pair; a bit written as it stands changes nothing. -/
def setChained (s : State) (part pair : Nat) (on : Bool) : State :=
  withCounters s (fun c =>
    if tget false c.chained (part * 512 + pair) = on then c
    else { c with
      chained := tput false c.chained (part * 512 + pair) on, counts := tput 0 c.counts (part * 1024 + 2 * pair + 1) 0 })

/-- A write of CNT_CHAIN_DEV or CNT_CHAIN_SL (R490). -/
def writeCntChain (s : State) (r : RegName) (ix : List Nat) (v : Nat) : State :=
  let part := if r = .cntChainDev then 0 else ix.getD 0 0 + 1
  let w := if r = .cntChainDev then ix.getD 0 0 else ix.getD 1 0
  (List.range 32).foldl (fun s b => setChained s part (32 * w + b) (bit v b)) (landWrite s r ix v)

/-- CNT_CHAIN_WRITE (R490). -/
def execCntChainWrite (req : Requester) (off v : Nat) (s : State) : Host.Outcome State Fault Refusal :=
  .next (guarded s req off [.cntChainDev, .cntChainSl] (fun s r ix => writeCntChain s r ix v))

/-- The counters of a part from FIRST on, 8 bytes each. -/
def snapshotOf (s : State) (part first count : Nat) : List Byte :=
  (List.range count).flatMap (fun i => le 8 (counterAt s part (first + i)))

/-- CNT_SNAPSHOT's answer: the part table, then the values of each part that this command runs. -/
def cntSnapshot (h : CmdHeader) (p : List Byte) (s : State) : State :=
  let first := leAt p 0 2
  let count := leAt p 2 2
  let fine := decide (1 ≤ count) && decide (count ≤ 1016) && decide (first + count ≤ 1024)
  runCommand s 0x0801 h p 4 fine (fun stopped s =>
    let run (k : Nat) : Bool := fanRuns h p k
    let ends := (fanParts h).map (fun k =>
      if run k then (k, (if stopped then stAborted else stOk), 0) else (k, stOk, (resumeEntry p k).2))
    let part (k : Nat) : Nat := if h.slices = 0 then 0 else k + 1
    let data := if stopped then [] else (fanParts h).flatMap (fun k => if run k then snapshotOf s (part k) first count else [])
    (some (.fan ends data), s))

/-- CNT_SNAPSHOT (R389). -/
def execCntSnapshot (h : CmdHeader) (p : List Byte) (s : State) : Host.Outcome State Fault Refusal := .next (cntSnapshot h p s)

/-! ### Tagging (R496) -/

/-- A write of TAG_SEED loads the slice's LFSR; 0 acts as 1. -/
def writeTagSeed (s : State) (ix : List Nat) (v : Nat) : State :=
  modSlice (landWrite s .tagSeed ix v) (ix.getD 0 0) (fun x => { x with lfsr := max 1 (wrap 32 v) })

/-- TAG_SEED_WRITE (R496). -/
def execTagSeedWrite (req : Requester) (off v : Nat) (s : State) : Host.Outcome State Fault Refusal :=
  .next (guarded s req off [.tagSeed] (fun s _ ix => writeTagSeed s ix v))

/-! ### The trace stream (R499–R502) -/

/-- Change the trace stream. -/
def withTrace (s : State) (f : TraceState → TraceState) : State := { s with trace := f s.trace }

/-- The settings written take effect at a block boundary (R502). -/
def traceSettle (s : State) : State := withTrace s (fun t => { t with cfg := inForce s .trcCfg [] })

/-- RESET_WP: the write offset becomes 0, and FULL is cleared. -/
def resetWp (s : State) : State := withTrace s (fun t => { t with wp := 0, full := false })

/-- A write of TRC_CFG: with no block open its settings take effect at once. -/
def writeTrcCfg (s : State) (ix : List Nat) (v : Nat) : State :=
  let s := landWrite s .trcCfg ix v
  let s := if bit v 26 then resetWp s else s
  if s.trace.queue.isEmpty then traceSettle s else s

/-- TRC_CFG_WRITE (R502): a write without RESET_WP. -/
def execTrcCfgWrite (req : Requester) (off v : Nat) (s : State) : Host.Outcome State Fault Refusal :=
  .next (guarded s req off [.trcCfg] (fun s _ ix => if bit v 26 then s else writeTrcCfg s ix v))

/-- RESET_WP (R501). -/
def execResetWp (req : Requester) (off v : Nat) (s : State) : Host.Outcome State Fault Refusal :=
  .next (guarded s req off [.trcCfg] (fun s _ ix => if bit v 26 then writeTrcCfg s ix v else s))

/-- How many of the oldest records fit in the rest of a block. -/
def recordsThatFit : Nat → List (Nat × List Byte) → Nat
  | _, [] => 0
  | room, r :: rs => if r.2.length ≤ room then 1 + recordsThatFit (room - r.2.length) rs else 0

/-- The block of the oldest records (Table 17-5), unpadded. -/
def traceBlock (s : State) (rs : List (Nat × List Byte)) : List Byte :=
  let body := rs.flatMap (·.2)
  le 4 0x54524342 ++ le 2 (body.length + 32) ++ le 2 rs.length ++ le 4 (devAddr s) ++ le 4 s.trace.dropped
    ++ le 8 s.trace.seq ++ le 8 ((rs.head?.map (·.1)).getD 0) ++ body

/-- A block is due: the next record does not fit, its first record entered 1 ms ago, or new settings wait for it. -/
def blockDue (s : State) : Bool :=
  match s.trace.queue with
  | [] => false
  | r :: _ =>
    decide (recordsThatFit 4064 s.trace.queue < s.trace.queue.length) || decide (r.1 + ticksOfNs 1000000 ≤ s.time.tick) ||
      s.trace.cfg != inForce s .trcCfg []

/-- The frame of a block on the TRACE lane (R500). -/
def traceLaneFrame (s : State) (block : List Byte) : List Byte :=
  let mac (hi lo : RegName) : List Byte := be 6 (fld s hi [] 15 0 * 2 ^ 32 + inForce s lo [])
  let f := mac .trcDmacHi .trcDmacLo ++ mac .trcSmacHi .trcSmacLo ++ be 2 0x88B5 ++ block
  f ++ fcsBytes f

/-- Blocks that the HBM trace buffer holds. -/
def traceBlocks : Nat := 262144

/-- A block is written at the next offset of the buffer, or dropped where its stack is down or in minimal mode (R501). -/
def storeBlock (s : State) (block : List Byte) : State :=
  let pc := (pageHome s (pgTrace + s.trace.wp)).1
  if s.rim.minimal || !bit s.power.stackPwr (pc / 32) then s
  else
    withTrace s (fun t =>
      let last := t.wp + 1 = traceBlocks
      let wrapOn := bit t.cfg 29
      { t with
        buffer := tins t.buffer t.wp (padTo 4096 block), wp := if last then 0 else t.wp + 1,
        wraps := if last ∧ wrapOn then wrap 32 (t.wraps + 1) else t.wraps, full := t.full || (last && !wrapOn) })

/-- The open block closes and leaves for the destination in force; then new settings take effect. -/
def traceBlockClose (s : State) : State :=
  if !running s || !blockDue s then s
  else
    let n := recordsThatFit 4064 s.trace.queue
    let rs := s.trace.queue.take n
    let block := traceBlock s rs
    let s := withTrace s (fun t => { t with queue := t.queue.drop n, dropped := 0, seq := t.seq + 1 })
    let s := bump (bump s 0 0xA1 n) 0 0xA3 block.length
    let s := if traceDest s = 1 then emit s (.traceFrame (traceLaneFrame s block))
      else if traceDest s = 2 then storeBlock s block else s
    traceSettle s

/-- TRACE_BLOCK_CLOSE (R499). -/
def execTraceBlockClose (s : State) : Host.Outcome State Fault Refusal := .next (traceBlockClose s)

end Sys2Proof.Machine
end

