-- ==== Sys2Proof/Machine/Power.lean ====
section
/-! DEFINITION. Power domains in service (19): port macros, line chiplets, HBM stacks, standby and wake. -/

namespace Sys2Proof.Machine

/-! ### Port macros (R531, R532) -/

/-- Change the power domains. -/
def withPower (s : State) (f : PowerState → PowerState) : State := { s with power := f s.power }

/-- MACRO_CHANGE: a macro or a chiplet has finished powering up or down. -/
def powerChanged (s : State) : State := raiseEv s .pwrEvent [] [0]

/-- Step 1 for a port: LINK_FAILED with cause MACRO_DOWN, and a link event when it was TRAINING or UP. -/
def portLosesMacro (s : State) (p : Nat) : State :=
  let was := (portAt s p).state
  let s := failPort s p 3
  if was = 0 then s else linkEvent s 2 p 3

/-- PRBS test of a lane stops. -/
def stopTest (s : State) (l : Nat) : State :=
  if (laneAt s l).inTest then modLane (settlePrbs s l) l (fun x => { x with inTest := false, lock := false }) else s

/-- Frames of a macro that its receive buffer still holds. -/
def macroFrames (s : State) (m : Nat) : List Nat :=
  (s.frames.filter (fun e => e.2.origin == 0 && e.2.port / 8 == m && (e.2.tail == .pending || e.2.buffered))).map (·.1)

/-- A powered macro powers down (Table 19-3). -/
def powerDownMacro (s : State) (m : Nat) : State :=
  let s := (macroPorts s m).foldl portLosesMacro s
  let s := ((List.range 8).map (fun i => m * 8 + i)).foldl stopTest s
  let s := (macroFrames s m).foldl abortReceive s
  powerChanged (withPower s (fun p => { p with macros := withBit p.macros m false }))

/-- A macro of a powered chiplet powers up: the mode written meanwhile takes effect, its ports are DISABLED, and those
whose EN is 1 run. -/
def powerUpMacro (s : State) (m : Nat) : State :=
  let s := withPower s (fun p => { p with macros := withBit p.macros m true })
  let s := match tfind s.line.heldModes m with
    | some mode => takeMode { s with line := { s.line with heldModes := tdel s.line.heldModes m } } m mode
    | none =>
      let s := (List.range 8).foldl (fun s i =>
        modPort s (m * 8 + i) (fun x => { x with state := 0, cause := 0, attempting := false })) s
      (macroPorts s m).foldl (fun s p => if fld s .portCtl [p] 31 31 = 1 then enablePort s p else s) s
  powerChanged s

/-- Macros whose bit is 1 in one word and 0 in another. -/
def macrosIn (a b : Nat) : List Nat := (setBits a 32).filter (fun m => !bit b m)

/-- A write of PWR_MACRO. Before START_DONE it only says what the start powers. -/
def writePwrMacro (s : State) (req : Requester) (off v : Nat) : State :=
  let old := inForce s .pwrMacro []
  let up := macrosIn v old
  if up.any (fun m => !bit s.power.chiplets (m / 4)) then accessError s req 8 off 2 true
  else
    let s := landWrite s .pwrMacro [] v
    let s := ((macrosIn old v).filter (fun m => bit s.power.macros m)).foldl powerDownMacro s
    if s.rim.startDone then up.foldl powerUpMacro s else s

/-- MACRO_POWER_DOWN (R531): a write of PWR_MACRO that clears a bit. -/
def execMacroPowerDown (req : Requester) (off v : Nat) (s : State) : Host.Outcome State Fault Refusal :=
  .next (guarded s req off [.pwrMacro] (fun s _ _ =>
    if (macrosIn (inForce s .pwrMacro []) v).isEmpty then s else writePwrMacro s req off v))

/-- MACRO_POWER_UP (R532): a write of PWR_MACRO that sets bits and clears none. -/
def execMacroPowerUp (req : Requester) (off v : Nat) (s : State) : Host.Outcome State Fault Refusal :=
  .next (guarded s req off [.pwrMacro] (fun s _ _ =>
    if (macrosIn (inForce s .pwrMacro []) v).isEmpty then writePwrMacro s req off v else s))

/-! ### Line chiplets (R533) -/

/-- LOSS_CLASS of a lane in a board configuration record (Table 16-3); 7 where there is none. -/
def lossOf (board : List Byte) (l : Nat) : Nat := if board.isEmpty then 7 else byteAt board (8 + l / 2) / 16 ^ (l % 2) % 8

/-- The Rim loads LOSS_CLASS into the lanes of a chiplet (11/R353). -/
def loadLoss (s : State) (c : Nat) : State :=
  (List.range 32).foldl (fun s i => forceFld s .laneLoss [c * 32 + i] 2 0 (lossOf s.rim.boardLive (c * 32 + i))) s

/-- Every register of a chiplet's lanes, ports and macros, and what they show, is as after reset. -/
def chipletCleared (s : State) (c : Nat) : State :=
  let lo := 0x3000000 + c * 0x20000
  let hi := lo + 0x20000
  { s with
    regs := { s.regs with cells := tclear s.regs.cells lo hi, events := tclear s.regs.events lo hi },
    line := ⟨tclear s.line.lanes (c * 32) (c * 32 + 32), tclear s.line.ports (c * 32) (c * 32 + 32),
      tclear s.line.heldModes (c * 4) (c * 4 + 4)⟩ }

/-- A chiplet powers down: first its macros, whose PWR_MACRO bits are cleared. -/
def powerDownChiplet (s : State) (c : Nat) : State :=
  let ms := (List.range 4).map (fun i => c * 4 + i)
  let s := (ms.filter (fun m => bit s.power.macros m)).foldl powerDownMacro s
  let s := ms.foldl (fun s m => forceFld s .pwrMacro [] m m 0) s
  powerChanged (chipletCleared (withPower s (fun p => { p with chiplets := withBit p.chiplets c false })) c)

/-- A chiplet powers up: its registers are as after reset but for LOSS_CLASS, and its macros stay down. -/
def powerUpChiplet (s : State) (c : Nat) : State :=
  let s := withPower s (fun p => { p with chiplets := withBit p.chiplets c true })
  powerChanged (loadLoss (chipletCleared s c) c)

/-- Chiplets whose bit is 1 in one word and 0 in another. -/
def chipletsIn (a b : Nat) : List Nat := (setBits a 8).filter (fun c => !bit b c)

/-- A write of PWR_CHIPLET. Before START_DONE it only says what the start powers. -/
def writePwrChiplet (s : State) (v : Nat) : State :=
  let old := inForce s .pwrChiplet []
  let s := landWrite s .pwrChiplet [] v
  let s := ((chipletsIn old v).filter (fun c => bit s.power.chiplets c)).foldl powerDownChiplet s
  if s.rim.startDone then (chipletsIn v old).foldl powerUpChiplet s else s

/-- CHIPLET_POWER_DOWN (R533): a write of PWR_CHIPLET that clears a bit. -/
def execChipletPowerDown (req : Requester) (off v : Nat) (s : State) : Host.Outcome State Fault Refusal :=
  .next (guarded s req off [.pwrChiplet] (fun s _ _ =>
    if (chipletsIn (inForce s .pwrChiplet []) v).isEmpty then s else writePwrChiplet s v))

/-- CHIPLET_POWER_UP (R533): a write of PWR_CHIPLET that sets bits and clears none. -/
def execChipletPowerUp (req : Requester) (off v : Nat) (s : State) : Host.Outcome State Fault Refusal :=
  .next (guarded s req off [.pwrChiplet] (fun s _ _ =>
    if (chipletsIn (inForce s .pwrChiplet []) v).isEmpty then writePwrChiplet s v else s))

/-! ### HBM stacks (R535) -/

/-- A stack powers down: its live pseudo-channels are retired with cause HOST, in ascending order, and it is unpowered once
no DMA channel works on a descriptor that touches it. Untrained pseudo-channels hold nothing to lose. -/
def powerDownStack (s : State) (k : Nat) : State :=
  let pcs := (List.range 32).map (fun i => k * 32 + i)
  let s := if s.hbm.trainDone then pcs.foldl (fun s pc => retirePc s pc 7) s else s
  stacksLeave (withPower s (fun p => { p with leaving := (k, s.time.tick) :: p.leaving }))

/-- Stacks whose bit is 1 in one word and 0 in another. -/
def stacksIn (a b : Nat) : List Nat := (setBits a 4).filter (fun k => !bit b k)

/-- A write of PWR_STACK: a bit that is 0 cannot be set, and a bit is cleared only with the key. -/
def writePwrStack (s : State) (req : Requester) (off v : Nat) : State :=
  let old := inForce s .pwrStack []
  let down := stacksIn old v
  if !(stacksIn v old).isEmpty || (!down.isEmpty && bits v 31 16 != 0x5350) then accessError s req 8 off 2 true
  else down.foldl powerDownStack (landWrite s .pwrStack [] v)

/-- STACK_POWER_DOWN (R535). -/
def execStackPowerDown (req : Requester) (off v : Nat) (s : State) : Host.Outcome State Fault Refusal :=
  .next (guarded s req off [.pwrStack] (fun s _ _ => writePwrStack s req off v))

/-! ### Standby (R536–R539) -/

/-- Entry into standby is requested: fetch stops. -/
def standbyRequest (s : State) (req : Requester) (off : Nat) : State :=
  if inForce s .pwrMacro [] ≠ 0 ∨ s.rim.minimal ∨ s.power.state ≠ 0 then accessError s req 8 off 2 true
  else withPower s (fun p => { p with state := 1, since := s.time.tick })

/-- The device wakes from standby; a wake written while a close runs there takes effect when it has published. -/
def wake (s : State) (failed : List Nat) : State :=
  if s.power.state = 2 then refreshExit (wakeUp s) failed
  else if s.power.state = 4 then withPower s (fun p => { p with wakeAsked := true })
  else s

/-- A write of PWR_CTL. `failed`: pseudo-channels that fail their check as a wake restarts the stacks. -/
def writePwrCtl (s : State) (req : Requester) (off v : Nat) (failed : List Nat) : State :=
  if bits v 31 16 ≠ 0x5342 then accessError s req 4 off 2 true
  else match bits v 1 0 with
  | 1 => standbyRequest s req off
  | 2 => wake s failed
  | _ => s

/-- STANDBY_REQUEST (R536): a write of PWR_CTL with another OP than 2. -/
def execStandbyRequest (req : Requester) (off v : Nat) (s : State) : Host.Outcome State Fault Refusal :=
  .next (guarded s req off [.pwrCtl] (fun s _ _ => if bits v 1 0 = 2 then s else writePwrCtl s req off v []))

/-- WAKE (R539). -/
def execWake (req : Requester) (off v : Nat) (failed : List Nat) (s : State) : Host.Outcome State Fault Refusal :=
  .next (guarded s req off [.pwrCtl] (fun s _ _ => if bits v 1 0 = 2 then writePwrCtl s req off v failed else s))

/-- Step 2 of the entry has ended: no item is held, no engine runs one, and no close runs; or it ended before. -/
def standbyQuiet (s : State) : Bool :=
  s.power.graceFrom.isSome || (s.sched.stalled.isEmpty && s.sched.store.isEmpty && s.sched.ready.all List.isEmpty &&
    enginesIdle s && s.lid.closing.isNone)

/-- A channel still works on a descriptor that touches a core die or a stack (14/R434). -/
def dmaTouches (s : State) : Bool :=
  (List.range 32).any (fun ch => match (chanAt s ch).doing with
    | some d => (chanAt s ch).state == 2 && (chanMode s ch == 1 || (chanMode s ch == 0 && d.trace))
    | none => false)

/-- The device enters retention and self-refresh, once no DMA channel works on what goes down: from now on none begins a
descriptor that touches it. -/
def standbyIdle (s : State) : State :=
  if s.power.state == 1 && standbyQuiet s then
    if dmaTouches s then withPower s (fun p => { p with graceFrom := some (p.graceFrom.getD s.time.tick) })
    else retain (withPower s (fun p => { p with graceFrom := none })) 1
  else s

/-- STANDBY_IDLE (R536). -/
def execStandbyIdle (s : State) : Host.Outcome State Fault Refusal := .next (standbyIdle s)

/-- Entry has taken 1 s and the device is not quiet: it runs on. -/
def standbyAbandoned (s : State) : State :=
  if s.power.state == 1 && !standbyQuiet s && decide (s.power.since + ticksOfNs 1000000000 ≤ s.time.tick) then
    raiseEv (withPower s (fun p => { p with state := 0 })) .pwrEvent [] [2]
  else s

/-- STANDBY_ABANDONED (R536). -/
def execStandbyAbandoned (s : State) : Host.Outcome State Fault Refusal := .next (standbyAbandoned s)

end Sys2Proof.Machine
end

