-- ==== Sys2Proof/Machine/Start.lean ====
section
/-! DEFINITION. Starts and resets (16/R470–R475, 19/R526–R530, 20/R547): the image check and the Rim's selection, the
Rim's part of a start, training and the rest of a normal start, and what resets the device. -/

namespace Sys2Proof.Machine

/-- Change the Rim. -/
def withRim (s : State) (f : RimState → RimState) : State := { s with rim := f s.rim }

/-! ### Board configuration record (R468) -/

/-- A record is valid: MAGIC, LEN and CRC-32C. -/
def boardOk (b : List Byte) : Bool :=
  let n := leAt b 4 2
  leAt b 0 4 == 0x42445243 && decide (212 ≤ n) && decide (n ≤ 4096) && decide (n ≤ b.length) &&
    crc32c (b.take (n - 4)) == leAt b (n - 4) 4

/-- Thresholds in °C at offset 136 of the record in force: WARN_CORE, CRIT_CORE, WARN_HBM, CRIT_HBM. -/
def boardTemp (s : State) (i : Nat) : Nat :=
  if s.rim.boardLive.isEmpty then [100, 110, 85, 95].getD i 0 else byteAt s.rim.boardLive (136 + i)

/-- TAMPER_EN and PMB_COUNT of the record in force. -/
def tamperEn (s : State) : Bool := if s.rim.boardLive.isEmpty then true else bit (byteAt s.rim.boardLive 140) 0
def pmbCount (s : State) : Nat := if s.rim.boardLive.isEmpty then 0 else min 16 (byteAt s.rim.boardLive 144)

/-! ### Images (R470) -/

/-- Fields of an image's header (Table 16-5). -/
def imgLevel (b : List Byte) : Nat := leAt b 8 4
def imgVersion (b : List Byte) : Nat := leAt b 12 4
def imgRim (b : List Byte) : Nat := leAt b 16 4
def imgPatch (b : List Byte) : Nat := leAt b 20 2 % 8192
def imgMatch (b : List Byte) : Nat := leAt b 22 1 % 128
def imgDigest (b : List Byte) : List Byte := slice b 32 48

/-- Bytes of an image. -/
def imgBytes (b : List Byte) : Nat := 512 + imgRim b + 4 * imgPatch b + 4 * imgMatch b

/-- Patch words and match entries of an image. -/
def imgPatches (b : List Byte) : List Nat := (List.range (imgPatch b)).map (fun i => leAt b (512 + imgRim b + 4 * i) 4)
def imgMatches (b : List Byte) : List Nat :=
  (List.range (imgMatch b)).map (fun i => leAt b (512 + imgRim b + 4 * imgPatch b + 4 * i) 4)

/-- The match entries redirect into the patch, each a ROM address of its own. -/
def matchesOk (b : List Byte) : Bool :=
  (imgMatches b).all (fun m => bit m 31 && decide (bits m 27 16 < imgPatch b)) &&
    ((imgMatches b).map (fun m => m % 65536)).eraseDups.length == imgMatch b

/-- Format, digest and signature of an image pass. -/
def imageFormOk (s : State) (b : List Byte) : Bool :=
  leAt b 0 4 == 0x52494D46 && leAt b 4 2 == 1 &&
    decide (imgRim b ≤ 1572864) && decide (imgPatch b ≤ 4096) && decide (imgMatch b ≤ 64) && decide (imgBytes b ≤ b.length) &&
    sha384 (slice b 80 96) == s.rim.otp.rootHash &&
    Config.ecdsaVerifies (slice b 80 96) (sha384 (le 1 7 ++ slice b 0 416)) (slice b 416 96) &&
    imgDigest b == sha384 (slice b 512 (imgBytes b - 512)) && matchesOk b

/-- LEVEL and DEV of an image pass. -/
def imageLevelOk (s : State) (b : List Byte) : Bool :=
  decide (s.rim.otp.rollback ≤ imgLevel b) && decide (imgLevel b ≤ 1024) &&
    (decide (s.rim.otp.lifecycle < 2) || !bit (byteAt b 6) 0)

/-- The image check. -/
def imageOk (s : State) (b : List Byte) : Bool := imageFormOk s b && imageLevelOk s b

/-- A slot of the flash. -/
def slotAt (s : State) (k : Nat) : ImageSlot := s.rim.slots.getD k ImageSlot.reset

/-- Write a slot's state to the boot record. -/
def setSlot (s : State) (k st : Nat) : State :=
  withRim s (fun r => { r with
    slots := setAt r.slots k { r.slots.getD k ImageSlot.reset with state := st }, bootWrites := r.bootWrites + 1 })

/-- A slot's change of state as logged (type IMAGE). -/
def logImage (s : State) (k old new req : Nat) : State :=
  let b := (slotAt s k).bytes
  rimLog s 0x30 true (le 1 k ++ le 1 old ++ le 1 new ++ le 4 (imgLevel b) ++ le 4 (imgVersion b) ++ le 1 req)

/-- The Rim selects an image (R471): a trial that ended unconfirmed has failed, a new trial is tried, and the first slot
that passes boots: the trial, the ACTIVE one, a VALID one. -/
def selectImage (s : State) : State :=
  let s := [0, 1].foldl (fun s k =>
    if (slotAt s k).state = 4 then logImage (setSlot s k 6) k 4 6 4 else s) s
  let trial := [0, 1].filter (fun k => (slotAt s k).state == 3)
  let s := trial.foldl (fun s k => setSlot s k 4) s
  let order := trial ++ [0, 1].filter (fun k => (slotAt s k).state == 5) ++ [0, 1].filter (fun k => (slotAt s k).state == 2)
  match order.find? (fun k => imageOk s (slotAt s k).bytes) with
  | some k =>
    let b := (slotAt s k).bytes
    withRim s (fun r => { r with running := some k, fwLevel := imgLevel b, fwVersion := imgVersion b, digest := imgDigest b })
  | none => withRim s (fun r => { r with running := none, fwLevel := r.otp.rollback, fwVersion := 0, digest := zeros 48 })

/-- Patch RAM and match registers are loaded from the running image (13/R419). -/
def loadPatch (s : State) : State :=
  match s.rim.running with
  | none => s
  | some k =>
    let b := (slotAt s k).bytes
    let table (l : List Nat) : Table Nat := (List.range l.length).zip l
    { s with sched := { s.sched with
      patch := table (imgPatches b), matches_ := table (imgMatches b), patchLevel := leAt b 24 4, loaded := true } }

/-! ### The Rim's part of a start (R471–R474) -/

/-- Normal starts in the log since the latest START_DONE or ATTEMPTS_CLEAR, at most 3 (R473). -/
def loggedAttempts (l : LogState) : Nat :=
  min 3 ((l.entries.takeWhile (fun e => e.type != 2 && e.type != 6)).filter (fun e =>
    e.type == 1 && byteAt e.body 13 == 0)).length

/-- The session counter takes one step; none is taken once all are. -/
def sessionStep (s : State) : State :=
  let n := s.rim.otp.sessions
  if 16384 ≤ n then withRim s (fun r => { r with session := 16383 })
  else
    let s := withRim s (fun r => { r with session := n, otp := { r.otp with sessions := n + 1 } })
    rimLog s 0x32 true (le 1 1 ++ le 4 n ++ le 4 (n + 1))

/-- The minimal-mode cause of a start, in the order in which the start finds them; 0 for a normal one. -/
def minimalCause (s : State) (otpFault exhausted : Bool) (attempts : Nat) : Nat :=
  if otpFault then 9
  else if s.rim.otp.lifecycle = 3 then 5
  else if s.rim.startMinimal ≠ 0 then s.rim.startMinimal
  else if s.rim.running.isNone then 2
  else if exhausted then 4
  else if attempts = 3 then 1
  else 0

/-- The board record is applied; without a valid one the defaults are, and that is logged. -/
def applyBoard (s : State) : State :=
  if boardOk s.rim.board then withRim s (fun r => { r with boardLive := r.board })
  else rimLog (withRim s (fun r => { r with boardLive := [] })) 0x44 false (le 4 0 ++ le 4 0 ++ le 4 1)

/-- In SEALED every refused access is logged, and that is locked (Table 16-6). -/
def sealedLocks (s : State) : State :=
  if s.rim.lifecycle ≠ 2 then s
  else
    let s := forceReg s .accCfg [] 1
    setCell (forceReg s .glbLock [] 1) (RegName.addr .glbLock []) ⟨1, 1, true⟩

/-- An assertion of TAMPER_IN as logged (type TAMPER). -/
def logTamper (s : State) : State := rimLog s 0x42 true (le 4 0 ++ le 4 1 ++ le 4 0)

/-- RETIRED is in force once a start finds its fuses burned. -/
def logRetired (s : State) : State :=
  match s.log.entries.find? (fun e => e.type == 0x31) with
  | some e => if s.rim.otp.lifecycle = 3 ∧ leAt e.body 2 2 = 1 ∧ byteAt e.body 1 = 3 then
      logLifecycle s (byteAt e.body 0) 3 2 else s
  | none => s

/-- The log entries with which a session begins. -/
def logSession (s : State) (attempts cause : Nat) : State :=
  let s := rimLog s 1 true (le 1 (s.rim.running.getD 255) ++ le 4 s.rim.fwLevel ++ le 4 s.rim.otp.rollback ++ le 4 attempts
    ++ le 1 (b2n (cause != 0)) ++ le 1 cause)
  let s := match s.rim.resetKind with
    | some k => rimLog (withRim s (fun r => { r with resetKind := none })) 4 true (le 4 k)
    | none => s
  if cause = 0 then s else rimLog s 3 true (le 4 cause)

/-- Steps 1 to 3 of a start: the Rim's part, after which the host ports answer. -/
def rimStart (s : State) (i : StartInfo) : State :=
  let exhausted := decide (16384 ≤ s.rim.otp.sessions)
  let s := withRim s (fun r => { r with otp := { r.otp with faulty := r.otp.faulty || i.otpFault }, session := min 16383 r.otp.sessions, lifecycle := r.otp.lifecycle, tap := tapUnder r.otp.lifecycle r.tap })
  let s := sessionStep (selectImage s)
  let attempts := loggedAttempts s.log
  let cause := minimalCause s s.rim.otp.faulty exhausted attempts
  let s := logRetired (logSession s attempts cause)
  let s := withRim s (fun r => { r with
    startMinimal := 0, attempts := attempts, minimal := cause != 0, minCause := cause, started := true })
  let s := sealedLocks (applyBoard (loadPatch s))
  let root := loggedRoot s.log
  let s := sealLost { s with lid := { s.lid with prevRoot := root.getD (zeros 48), chainRestart := root.isNone } }
  let s := { s with time := { s.time with holdover := !i.timeRef }, power := { s.power with stackPwr := 15 } }
  if i.tamper && tamperEn s then logTamper (withRim s (fun r => { r with tamper := true }))
  else withRim s (fun r => { r with tamper := false })

/-! ### The rest of a normal start (19/R528, R529; 18/R511) -/

/-- The window widths of a pseudo-channel as measured, one byte for each byte lane; 64 taps where the operand gives none. -/
def widthsOf (l : List Nat) (pc : Nat) : Nat := wrap 32 (l.getD pc 0x40404040)

/-- A window is narrower than 12 taps in some byte lane. -/
def narrowWindow (w : Nat) : Bool := (List.range 4).any (fun k => decide (bits w (8 * k + 7) (8 * k) < 12))

/-- How training fails a pseudo-channel (R511), with the cause of Table 18-6: its stack is down (19/R535), no command and
address window of its channel is wide enough, or a read or write window is not. -/
def trainFails (i : StartInfo) (pc : Nat) : Option Nat :=
  if i.down.contains (pc / 32) then some 1
  else if i.ca.contains (pc / 2) then some 2
  else if narrowWindow (widthsOf i.rwin pc) || narrowWindow (widthsOf i.wwin pc) then some 1
  else none

/-- Pseudo-channels that this start retires, with their causes. -/
def trainFailures (i : StartInfo) : List (Nat × Nat) :=
  (List.range 128).filterMap (fun pc => (trainFails i pc).map (fun c => (pc, c)))

/-- A pseudo-channel is retired at start-up: it held nothing. -/
def retireAtStart (s : State) (f : Nat × Nat) : State :=
  let s := modPc s f.1 (fun p => { p with state := 1, cause := f.2 })
  let s := logUe s 0x18 f.1 f.2
  hbmEventPost (raiseEv s .hbmEvent [] [3]) 1 f.1 f.2 0

/-- Step 4: the stacks are trained. -/
def trained (s : State) (i : StartInfo) (fs : List (Nat × Nat)) : State :=
  let swept := (List.range 128).filter (fun pc => !i.down.contains (pc / 32) && !i.ca.contains (pc / 2))
  let s := swept.foldl (fun s pc => setWindows s pc (widthsOf i.rwin pc) (widthsOf i.wwin pc)) s
  let s := fs.foldl retireAtStart s
  { s with hbm := { s.hbm with trainDone := true } }

/-- Step 5: the group map and the page map are placed over the survivors, and both tiers are empty. -/
def flowCoreInit (s : State) : State :=
  { s with skein := { s.skein with survivors := livePcs s, initDone := true, sweepStart := s.time.tick } }

/-- Step 7: every chiplet and macro whose power bit is 1 is powered. -/
def powerLine (s : State) : State :=
  let chips := setBits (inForce s .pwrChiplet []) 8
  let s := withPower s (fun p => { p with chiplets := ofBits chips })
  let s := chips.foldl loadLoss s
  withPower s (fun p => { p with
    macros := ofBits ((setBits (inForce s .pwrMacro []) 32).filter (fun m => chips.contains (m / 4))) })

/-- Step 8: start-up is complete, and the commands that waited for it proceed (R529). -/
def startCompletes (s : State) : State :=
  let s := withRim s (fun r => { r with startDone := true, attempts := 0 })
  let s := rimLog s 2 false (le 8 s.time.tick)
  settle (withSched s (fun x => { x with store := x.store.map (fun i =>
    if i.need = 7 then { i with have_ := withBit i.have_ 2 true } else i) }))

/-- Steps 4 to 8 of a normal start; with more than 8 pseudo-channels failing, a reset into minimal mode (R474, R530). -/
def normalStart (s : State) (i : StartInfo) : State :=
  let fs := trainFailures i
  if 8 < fs.length then deviceReset (flushLog (trained s i fs)) 1 3
  else
    let s := openFirst (flowCoreInit (trained s i fs))
    let s := if s.rim.tamper then gapOpen s 4 0 1 else s
    startCompletes (armTimers (powerLine s))

/-- A start, in two turns: the Rim's part, up to the host ports; then, unless it is minimal, the rest. -/
def deviceStart (i : StartInfo) (s : State) : State :=
  if s.rim.hold ≠ 0 then s
  else if !s.rim.started then rimStart s i
  else if s.rim.startDone || s.rim.minimal || s.rim.transition.isSome || s.power.state != 0 then s
  else normalStart s i

/-- DEVICE_START (R528). -/
def execDeviceStart (i : StartInfo) (s : State) : Host.Outcome State Fault Refusal := .next (deviceStart i s)

/-- A normal start is not complete 60 s after supplies good: it has failed, and the Rim resets the device (R473). -/
def startFailTimeout (s : State) : State :=
  if s.rim.started && !s.rim.startDone && !s.rim.minimal && decide (ticksOfNs 60000000000 ≤ s.time.tick) then
    deviceReset (flushLog s) 1 0
  else s

/-- START_FAIL_TIMEOUT (R473). -/
def execStartFailTimeout (s : State) : Host.Outcome State Fault Refusal := .next (startFailTimeout s)

/-! ### Resets without a close -/

/-- The whole package is reset, the Rim too: what had not reached the flash is lost. -/
def powerLost (s : State) : State :=
  withRim (deviceReset { s with log := s.log.cut } 4 0) (fun r => { r with
    temps := [], warned := [], volts := [], tamper := false, tap := .idcode, uptime := 0, faults := [],
    hold := if r.hold = 1 then 1 else 0 })

/-- RESET_N is asserted: a power-on reset. -/
def powerOnReset (s : State) : State := powerLost s

/-- POWER_ON_RESET (R526). -/
def execPowerOnReset (s : State) : Host.Outcome State Fault Refusal := .next (powerOnReset s)

/-- The supplies are removed without RESET_N. -/
def suppliesRemoved (s : State) : State := powerLost s

/-- SUPPLIES_REMOVED (R526). -/
def execSuppliesRemoved (s : State) : Host.Outcome State Fault Refusal := .next (suppliesRemoved s)

/-- The Rim's watchdog expires; without its crystal it cannot run (20/R547). -/
def watchdogExpire (s : State) : State := if s.rim.hold = 1 then s else deviceReset { s with log := s.log.cut } 2 0

/-- WATCHDOG_EXPIRE (R475). -/
def execWatchdogExpire (s : State) : Host.Outcome State Fault Refusal := .next (watchdogExpire s)

/-- A rail or a monitored PLL leaves its limits: logged, and every domain but the Rim is reset; the third in 10 min makes
the next start minimal. -/
def supplyFault (rail value : Nat) (s : State) : State :=
  let now := s.rim.uptime + s.time.tick
  let s := rimLog s 0x41 false (le 4 rail ++ le 4 value ++ le 4 0)
  let recent := now :: s.rim.faults.filter (fun t => decide (now < t + ticksOfNs 600000000000))
  deviceReset (withRim s (fun r => { r with faults := recent })) 3 (if 3 ≤ recent.length then 7 else 0)

/-- SUPPLY_FAULT (R481). -/
def execSupplyFault (rail value : Nat) (s : State) : Host.Outcome State Fault Refusal := .next (supplyFault rail value s)

/-- The crystal stops: hardware holds every domain but the Rim in reset, and the Rim stands still. -/
def crystalLoss (s : State) : State :=
  if s.rim.hold = 0 then withRim (deviceReset s 3 0) (fun r => { r with hold := 1 }) else s

/-- CRYSTAL_LOSS (R547). -/
def execCrystalLoss (s : State) : Host.Outcome State Fault Refusal := .next (crystalLoss s)

/-- The crystal returns: the reset that hardware held ends. -/
def crystalReturn (s : State) : State := if s.rim.hold = 1 then withRim s (fun r => { r with hold := 0 }) else s

/-- CRYSTAL_RETURN (R547). -/
def execCrystalReturn (s : State) : Host.Outcome State Fault Refusal := .next (crystalReturn s)

/-! ### Transitions (R465, R474, R475) -/

/-- The minimal mode that only a mailbox RESET with MODE 0 leaves (Table 16-7). -/
def minimalStays (s : State) : Nat := if s.rim.minimal && decide (6 ≤ s.rim.minCause ∧ s.rim.minCause ≤ 8) then s.rim.minCause else 0

/-- A write of GLB_RESET_REQ. -/
def writeGlbReset (s : State) (req : Requester) (off v : Nat) : State :=
  if v ≠ 0x52535452 then accessError s req 4 off 2 true else startTransition s 0 (minimalStays s)

/-- GLB_RESET_REQ (R465). A second request before the reset is ignored and raises no event. -/
def execGlbResetReq (req : Requester) (off v : Nat) (s : State) : Host.Outcome State Fault Refusal :=
  .next (if s.rim.transition.isSome && v == 0x52535452 && off == RegName.addr .glbResetReq [] && Who.permits .priv req.id then s
    else guarded s req off [.glbResetReq] (fun s _ _ => writeGlbReset s req off v))

/-- The 100 ms wait for idle engines is over: the orderly close begins. -/
def attentionWaitLimit (s : State) : State :=
  match s.rim.transition with
  | some t => if !t.closing && decide (t.since + ticksOfNs 100000000 ≤ s.time.tick) then beginClose s t else s
  | none => s

/-- ATTENTION_WAIT_LIMIT (R475). -/
def execAttentionWaitLimit (s : State) : Host.Outcome State Fault Refusal := .next (attentionWaitLimit s)

/-- The 5 s wait for the seal is over: the reset proceeds with the epoch unsealed. -/
def closeWaitLimit (s : State) : State :=
  match s.rim.transition with
  | some t => if t.closing && decide (t.since + ticksOfNs 5000000000 ≤ s.time.tick) then finishTransition s t else s
  | none => s

/-- CLOSE_WAIT_LIMIT (R308). -/
def execCloseWaitLimit (s : State) : Host.Outcome State Fault Refusal := .next (closeWaitLimit s)

end Sys2Proof.Machine
end

