-- ==== Sys2Proof/Machine/Rim.lean ====
section
/-! DEFINITION. The Rim in service (16): sensors, regulators, tamper, the log's flush, the TAP, and the mailbox
operations. -/

namespace Sys2Proof.Machine

/-! ### Sensors (R480) -/

/-- Warning, critical and shutdown thresholds of a sensor in quarters of a degree, board thresholds capped (Table 16-10);
the package corners have no critical one. -/
def sensorWarn (s : State) (k : Nat) : Nat :=
  4 * (if 24 ≤ k ∧ k < 28 then min 100 (boardTemp s 2) else min 115 (boardTemp s 0))
def sensorCrit (s : State) (k : Nat) : Option Nat :=
  if 28 ≤ k then none else some (4 * (if 24 ≤ k then min 100 (boardTemp s 3) else min 115 (boardTemp s 1)))
def sensorShut (k : Nat) : Nat := if 24 ≤ k ∧ k < 28 then 420 else 500

/-- A sensor's reading against its warning threshold: the warning is posted and logged when it is reached, and cleared
5 °C below it. -/
def sensorWarning (s : State) (k t : Nat) : State :=
  let w : Int := (sensorWarn s k : Nat)
  if !s.rim.warned.contains k && decide (w ≤ sint 16 t) then
    let s := withRim s (fun r => { r with warned := k :: r.warned })
    let s := rimLog s 0x40 false (le 4 k ++ le 4 t ++ le 4 (sensorWarn s k))
    rimEventPost (raiseEv s .rimEvent [] [0]) 1 k t
  else if s.rim.warned.contains k && decide (sint 16 t ≤ w - 20) then
    let s := withRim s (fun r => { r with warned := r.warned.filter (· != k) })
    rimEventPost (raiseEv s .rimEvent [] [0]) 2 k t
  else s

/-- Hardware powers down every domain but the Rim; nothing but a power-on reset starts them again. -/
def shutDown (s : State) : State := withRim (deviceReset s 3 0) (fun r => { r with hold := 2 })

/-- A sensor at or above a limit, signed. -/
def atLimit (limit : Option Nat) (t : Nat) : Bool := match limit with | some c => decide ((c : Int) ≤ sint 16 t) | none => false

/-- The Rim reads its sensors: 32 temperatures in units of 0.25 °C (none: the sensor does not read), and the rail voltages
that its monitors see. -/
def sensorPoll (temps : List (Option Nat)) (volts : List Nat) (s : State) : State :=
  if s.rim.hold = 1 then s
  else
    let reads := (List.range 32).filterMap (fun k => ((temps.getD k none).map (fun t => (k, t % 65536))))
    let s := withRim s (fun r => { r with temps := reads, volts := volts.map (· % 65536) })
    if s.rim.hold = 2 then s
    else if reads.any (fun e => atLimit (some (sensorShut e.1)) e.2) then shutDown s
    else
      let s := reads.foldl (fun s e => sensorWarning s e.1 e.2) s
      let s := [0, 1, 2, 3].foldl refreshRate s
      if reads.any (fun e => atLimit (sensorCrit s e.1) e.2) && s.rim.started && !s.rim.minimal then startTransition s 1 6 else s

/-- SENSOR_POLL (R480). -/
def execSensorPoll (temps : List (Option Nat)) (volts : List Nat) (s : State) : Host.Outcome State Fault Refusal :=
  .next (sensorPoll temps volts s)

/-! ### Regulators (R481) -/

/-- The Rim polls the listed regulators: each that reports a non-zero STATUS_WORD is logged and posted. -/
def pmbusPoll (status : List Nat) (s : State) : State :=
  if s.rim.hold = 1 then s
  else
    ((List.range (pmbCount s)).filter (fun k => status.getD k 0 % 65536 != 0)).foldl (fun s k =>
      let w := status.getD k 0 % 65536
      let s := rimLog s 0x43 false (le 4 k ++ le 4 w ++ le 4 w)
      rimEventPost (raiseEv s .rimEvent [] [2]) 5 k w) s

/-- PMBUS_POLL (R481). -/
def execPmbusPoll (status : List Nat) (s : State) : Host.Outcome State Fault Refusal := .next (pmbusPoll status s)

/-! ### Tamper (R482) -/

/-- TAMPER_IN has been high for 1 ms: one assertion, logged, posted and counted into the open epoch's gap of kind 4. -/
def tamperAssert (s : State) : State :=
  if !tamperEn s || s.rim.tamper || s.rim.hold == 1 then s
  else
    let s := logTamper (withRim s (fun r => { r with tamper := true }))
    gapOpen (rimEventPost (raiseEv s .rimEvent [] [1]) 3 0 0) 4 0 1

/-- TAMPER_ASSERT (R482). -/
def execTamperAssert (s : State) : Host.Outcome State Fault Refusal := .next (tamperAssert s)

/-- TAMPER_IN goes low: the assertion ends. -/
def tamperRelease (s : State) : State :=
  if s.rim.tamper then
    rimEventPost (raiseEv (withRim s (fun r => { r with tamper := false })) .rimEvent [] [1]) 4 0 0
  else s

/-- TAMPER_RELEASE (R482). -/
def execTamperRelease (s : State) : Host.Outcome State Fault Refusal := .next (tamperRelease s)

/-! ### Log flush (R484), TAP (R486) -/

/-- LOG_FLUSH (R484). -/
def execLogFlush (s : State) : Host.Outcome State Fault Refusal := .next (flushLog s)

/-- IDCODE: version 0xB, part 0x9256, manufacturer 0x3A7. -/
def idCode : Nat := 0xB925674F

/-- An instruction is shifted into the TAP: every one acts in BLANK; else IDCODE, and any other selects BYPASS. A code that
names no instruction selects BYPASS. IDCODE puts the identity in the data register. -/
def tapInstruction (op : TapOp) (s : State) : State :=
  let act : TapOp := match op with
    | .idcode | .extest | .samplePreload => tapUnder s.rim.otp.lifecycle op
    | _ => .bypass
  let s := withRim s (fun r => { r with tap := act })
  if act = .idcode then emit s (.tapData idCode) else s

/-- TAP_INSTRUCTION (R486). -/
def execTapInstruction (op : TapOp) (s : State) : Host.Outcome State Fault Refusal := .next (tapInstruction op s)

/-! ### Mailboxes (R487) -/

/-- RIM_STATUS (Table 16-14). -/
def rimStatusWord (s : State) : Nat :=
  let trial := match s.rim.running with | some k => (slotAt s k).state == 4 | none => false
  at_ s.rim.minCause 31 28 + at_ s.rim.lifecycle 27 26 + at_ s.rim.pendingLc 25 24 + at_ (b2n s.rim.minimal) 23 23
    + at_ (s.rim.running.getD 0) 22 22 + at_ (b2n trial) 21 21 + at_ s.rim.attempts 20 18 + at_ (b2n s.rim.tamper) 17 17
    + at_ s.rim.session 13 0

/-- RIM_OTP (Table 16-15). -/
def rimOtpWord (s : State) : Nat := at_ (16384 - s.rim.otp.sessions) 31 18 + at_ s.rim.otp.rollback 10 0

/-- A mailbox. -/
def boxAt (s : State) (m : Nat) : Mailbox := s.rim.boxes.getD m ⟨false, false, 0⟩

/-- Change a mailbox. -/
def setBox (s : State) (m : Nat) (b : Mailbox) : State := withRim s (fun r => { r with boxes := setAt r.boxes m b })

/-- A 32-bit word of a mailbox's request area. -/
def reqWord (s : State) (m w : Nat) : Nat := inForce s .mbxReq [m, w]

/-- OP, TAG, LEN and bytes of the request in a mailbox. -/
def reqOp (s : State) (m : Nat) : Nat := reqWord s m 0 % 256
def reqTag (s : State) (m : Nat) : Nat := reqWord s m 1
def reqLen (s : State) (m : Nat) : Nat := reqWord s m 2 % 65536
def reqBytes (s : State) (m : Nat) : List Byte :=
  ((List.range (cdiv (min 4080 (reqLen s m)) 4)).flatMap (fun i => le 4 (reqWord s m (4 + i)))).take (reqLen s m)

/-- The Rim answers a mailbox: the response header and data in RESP, DONE, and the vector when INT_EN is 1. -/
def respond (s : State) (m status : Nat) (data : List Byte) : State :=
  let d := data.take 4080
  let words := [reqTag s m, status, d.length, 0] ++ (List.range (cdiv d.length 4)).map (fun i => leAt d (4 * i) 4)
  let s := ((List.range words.length).zip words).foldl (fun s e => forceReg s .mbxResp [m, e.1] e.2) s
  let s := setBox s m ⟨false, true, status⟩
  if fld s .mbxCtl [m] 30 30 = 1 then emit s (.msix m (fld s .mbxCtl [m] 5 0)) else s

/-- The mailbox that the Rim serves next. -/
def nextBox (s : State) : Option Nat := nextRR 4 s.rim.boxLast (fun m => (boxAt s m).busy)

/-- It is this mailbox's turn, and its request asks for this operation. -/
def asks (s : State) (op m : Nat) : Bool := s.rim.started && s.rim.hold != 1 && nextBox s == some m && reqOp s m == op

/-- Serve one request: this operation, of the mailbox whose turn it is. `priv`: the operation's Who is PRIV; `min`: it is
available in minimal mode; `need`: the least length of its request. -/
def serve (s : State) (op m : Nat) (priv min : Bool) (need : Nat)
    (work : State → List Byte → Nat × List Byte × State) : State :=
  if !asks s op m then s
  else
    let s := withRim s (fun r => { r with boxLast := m })
    if priv && m % 2 == 1 then respond s m stDenied []
    else if s.rim.minimal && !min then respond s m stMinimal []
    else if decide (4080 < reqLen s m) || decide (reqLen s m < need) then respond s m stBadparam []
    else
      let a := work s (reqBytes s m)
      respond a.2.2 m a.1 a.2.1

/-- INFO: RIM_STATUS, RIM_OTP, and state, LEVEL and VERSION of both slots. -/
def mbxInfo (m : Nat) (s : State) : State :=
  serve s 0x01 m false true 0 (fun s _ =>
    (stOk, le 4 (rimStatusWord s) ++ le 4 (rimOtpWord s) ++ [0, 1].flatMap (fun k =>
      let x := slotAt s k
      le 4 x.state ++ le 4 (imgLevel x.bytes) ++ le 4 (imgVersion x.bytes)), s))

/-- INFO (R487). -/
def execInfo (m : Nat) (s : State) : Host.Outcome State Fault Refusal := .next (mbxInfo m s)

/-- The log's entries with their CHAINs, oldest first: SEQ and bytes. -/
def logBytes : List LogEntry → List Byte → List (Nat × List Byte)
  | [], _ => []
  | e :: r, prev =>
    let c := e.chain prev
    (e.seq, e.image prev ++ c) :: logBytes r c

/-- As many whole entries as fit. -/
def entriesThatFit : Nat → List (List Byte) → List Byte
  | _, [] => []
  | room, b :: bs => if b.length ≤ room then b ++ entriesThatFit (room - b.length) bs else []

/-- LOG_OLDEST: the oldest SEQ still kept. -/
def logOldest (s : State) : Nat := match s.log.entries.getLast? with | some e => e.seq | none => s.log.next

/-- LOG_READ: whole entries from a SEQ on. -/
def mbxLogRead (m : Nat) (s : State) : State :=
  serve s 0x02 m false true 10 (fun s p =>
    let first := leAt p 0 8
    if first < logOldest s then (stNoent, [], s)
    else
      let es := (logBytes s.log.entries.reverse s.log.chain0).filter (fun e => decide (first ≤ e.1))
      (stOk, entriesThatFit (min 4080 (leAt p 8 2)) (es.map (·.2)), s))

/-- LOG_READ (R485). -/
def execLogRead (m : Nat) (s : State) : Host.Outcome State Fault Refusal := .next (mbxLogRead m s)

/-- CERT_READ: the certificate chain from an offset. -/
def mbxCertRead (m : Nat) (s : State) : State :=
  serve s 0x03 m false true 4 (fun s p => (stOk, (s.rim.cert.drop (leAt p 0 4)).take 4064, s))

/-- CERT_READ (R478). -/
def execCertRead (m : Nat) (s : State) : Host.Outcome State Fault Refusal := .next (mbxCertRead m s)

/-- The attestation statement up to its signature (Table 16-9). -/
def attestBody (s : State) (nonce : List Byte) : List Byte :=
  let pub := if s.rim.lifecycle = 0 then zeros 96 else match s.rim.otp.dak with | some k => padTo 96 k.2 | none => zeros 96
  le 4 0x41545354 ++ le 2 1 ++ le 2 (at_ s.rim.lifecycle 1 0) ++ padTo 16 s.rim.otp.deviceId ++ le 2 (s.rim.session % 2 ^ 14)
    ++ zeros 2 ++ le 4 s.rim.fwLevel ++ le 4 s.rim.otp.rollback ++ zeros 4 ++ padTo 48 s.rim.digest ++ pub ++ padTo 48 nonce

/-- ATTEST: the statement, signed with the device identity key: a signature that only its holder can make. -/
def mbxAttest (m : Nat) (s : State) : State :=
  serve s 0x04 m false true 48 (fun s p =>
    let (sig, s) := drawFree s
    (stOk, attestBody s (p.take 48) ++ le 96 sig, s))

/-- ATTEST (R478). -/
def execAttest (m : Nat) (s : State) : Host.Outcome State Fault Refusal := .next (mbxAttest m s)

/-- THERM*k* (Table 16-17). -/
def thermWord (s : State) (k : Nat) : Nat := match tfind s.rim.temps k with | some t => 2 ^ 31 + t % 65536 | none => 0

/-- SENSOR_READ: the 32 temperatures as THERM shows them, and the rail voltages. -/
def mbxSensorRead (m : Nat) (s : State) : State :=
  serve s 0x05 m false true 0 (fun s _ =>
    (stOk, (List.range 32).flatMap (fun k => le 4 (thermWord s k)) ++ s.rim.volts.flatMap (le 2), s))

/-- SENSOR_READ (R480). -/
def execSensorRead (m : Nat) (s : State) : Host.Outcome State Fault Refusal := .next (mbxSensorRead m s)

/-! ### Updating firmware (R479) -/

/-- The running slot is TRYING. -/
def onTrial (s : State) : Bool := match s.rim.running with | some k => (slotAt s k).state == 4 | none => false

/-- A slot's change of state is logged and posted as the Rim event of KIND 6. -/
def imageChanged (s : State) (k old new req : Nat) : State :=
  let s := logImage s k old new req
  rimEventPost (raiseEv s .rimEvent [] [3]) 6 k (imgLevel (slotAt s k).bytes)

/-- IMG_BEGIN: the slot that is neither ACTIVE nor TRYING is erased for an image of a length. -/
def mbxImgBegin (m : Nat) (s : State) : State :=
  serve s 0x10 m true true 4 (fun s p =>
    let n := leAt p 0 4
    if onTrial s || (match s.rim.update with | some u => u.owner != m | none => false) then (stBusy, [], s)
    else if n < 512 ∨ 4194304 < n then (stBadparam, [], s)
    else match [0, 1].find? (fun k => (slotAt s k).state != 5 && (slotAt s k).state != 4) with
    | none => (stBusy, [], s)
    | some k =>
      (stOk, le 4 k, withRim s (fun r => { r with
        slots := setAt r.slots k ⟨1, List.replicate n 0xFF⟩, bootWrites := r.bootWrites + 1, update := some ⟨m, k, n⟩ })))

/-- IMG_BEGIN (R479). -/
def execImgBegin (m : Nat) (s : State) : Host.Outcome State Fault Refusal := .next (mbxImgBegin m s)

/-- The update that a requester began. -/
def ownUpdate (s : State) (m : Nat) : Except Nat Update :=
  match s.rim.update with
  | none => .error stNoent
  | some u => if u.owner = m then .ok u else .error stBusy

/-- IMG_DATA: bytes of the image. -/
def mbxImgData (m : Nat) (s : State) : State :=
  serve s 0x11 m true true 5 (fun s p =>
    match ownUpdate s m with
    | .error e => (e, [], s)
    | .ok u =>
      let o := leAt p 0 4
      let d := p.drop 4
      if u.length < o + d.length ∨ 4064 < d.length then (stBadparam, [], s)
      else (stOk, [], withRim s (fun r => { r with
        slots := setAt r.slots u.slot ⟨1, patch (r.slots.getD u.slot ImageSlot.reset).bytes o d⟩ })))

/-- IMG_DATA (R479). -/
def execImgData (m : Nat) (s : State) : Host.Outcome State Fault Refusal := .next (mbxImgData m s)

/-- IMG_END: the image is checked, and marked TRIAL when it passes. -/
def mbxImgEnd (m : Nat) (s : State) : State :=
  serve s 0x12 m true true 0 (fun s _ =>
    match ownUpdate s m with
    | .error e => (e, [], s)
    | .ok u =>
      let b := (slotAt s u.slot).bytes
      if !imageFormOk s b then (stBadparam, [], s)
      else if !imageLevelOk s b then (stDenied, [], s)
      else (stOk, [], imageChanged (withRim (setSlot s u.slot 3) (fun r => { r with update := none })) u.slot 1 3 m))

/-- IMG_END (R479). -/
def execImgEnd (m : Nat) (s : State) : Host.Outcome State Fault Refusal := .next (mbxImgEnd m s)

/-- The running trial is confirmed: anti-rollback steps are burned up to its LEVEL, its slot is ACTIVE, the former ACTIVE
one VALID. -/
def confirmImage (s : State) (m k : Nat) : State :=
  let old := s.rim.otp.rollback
  let new := max old (min 1024 (imgLevel (slotAt s k).bytes))
  let s := if new = old then s else rimLog s 0x32 true (le 1 0 ++ le 4 old ++ le 4 new)
  let s := withRim s (fun r => { r with otp := { r.otp with rollback := new } })
  let former := [0, 1].filter (fun j => (slotAt s j).state == 5)
  let s := imageChanged (setSlot s k 5) k 4 5 m
  former.foldl (fun s j => imageChanged (setSlot s j 2) j 5 2 m) s

/-- IMG_CONFIRM: only after START_DONE, and only from a slot on trial. -/
def mbxImgConfirm (m : Nat) (s : State) : State :=
  serve s 0x13 m true false 0 (fun s _ =>
    if !s.rim.startDone then (stBusy, [], s)
    else match s.rim.running with
    | some k =>
      if onTrial s then
        let s := confirmImage s m k
        (stOk, le 4 s.rim.otp.rollback, s)
      else (stNoent, [], s)
    | none => (stNoent, [], s))

/-- IMG_CONFIRM (R479). -/
def execImgConfirm (m : Nat) (burnFails : Bool) (s : State) : Host.Outcome State Fault Refusal :=
  .next (burnChecked s (mbxImgConfirm m s) burnFails)

/-! ### Lifecycle, reset, board record (R475, R476, R468) -/

/-- If no attestation key is burned, one is generated and burned: what it is, nothing fixes. -/
def burnKey (s : State) : State :=
  if s.rim.otp.dak.isSome then s
  else
    let (k, s) := drawFree s
    let (q, s) := drawFree s
    withRim s (fun r => { r with otp := { r.otp with dak := some (le 48 k, le 96 q) } })

/-- A transition to PROVISIONED or SEALED pends until the next boundary; one to RETIRED burns its fuses. -/
def requestLifecycle (s : State) (target : Nat) : State :=
  let from_ := s.rim.lifecycle
  let s := logLifecycle s from_ target 0
  if target = 3 then
    let s := logLifecycle (withRim s (fun r => { r with otp := { r.otp with lifecycle := 3 } })) from_ 3 1
    rimEventPost (raiseEv s .rimEvent [] [4]) 7 3 s.rim.fwLevel
  else
    let s := if target = 1 then burnKey s else s
    withRim s (fun r => { r with pendingLc := target })

/-- LIFECYCLE: a request for a transition of Table 16-8. The answer to one to RETIRED precedes the reset that follows. -/
def mbxLifecycle (m : Nat) (burnFails : Bool) (s : State) : State :=
  let t := serve s 0x20 m true true 8 (fun s p =>
    let t := byteAt p 0 % 4
    let l := s.rim.lifecycle
    if leAt p 4 4 ≠ 0x4C435943 ∨ ¬ ((l = 0 ∧ t = 1) ∨ (l = 1 ∧ t = 2) ∨ (l < 3 ∧ t = 3)) then (stBadparam, [], s)
    else if s.rim.minimal ∧ t ≠ 3 then (stMinimal, [], s)
    else (stOk, [], requestLifecycle s t))
  let t := burnChecked s t burnFails
  if s.rim.otp.lifecycle ≠ 3 ∧ t.rim.otp.lifecycle = 3 ∧ burnFails = false then startTransition t 1 0 else t

/-- LIFECYCLE (R476). -/
def execLifecycle (m : Nat) (burnFails : Bool) (s : State) : Host.Outcome State Fault Refusal :=
  .next (mbxLifecycle m burnFails s)

/-- Thermal minimal mode is left only once every sensor is below its warning threshold (Table 16-7). -/
def stillHot (s : State) : Bool :=
  s.rim.minimal && s.rim.minCause == 6 && s.rim.temps.any (fun e => atLimit (some (sensorWarn s e.1)) e.2)

/-- RESET: MODE 0 normal, which also clears the attempts; MODE 1 minimal. The response precedes the reset. -/
def mbxReset (m : Nat) (s : State) : State :=
  let minimal := bit (byteAt (reqBytes s m) 0) 0
  let t := serve s 0x21 m true true 1 (fun s _ => (stOk, [], if minimal then s else rimLog s 6 true (le 1 m)))
  if asks s 0x21 m && (boxAt t m).status == stOk then startTransition t 0 (if minimal then 8 else if stillHot s then 6 else 0)
  else t

/-- RESET (R475). -/
def execReset (m : Nat) (s : State) : Host.Outcome State Fault Refusal := .next (mbxReset m s)

/-- BOARD_WRITE: a valid record is written, and takes effect at the next start. -/
def mbxBoardWrite (m : Nat) (s : State) : State :=
  serve s 0x22 m true true 0 (fun s p =>
    if boardOk p then (stOk, [], withRim s (fun r => { r with board := p.take (leAt p 4 2) })) else (stBadparam, [], s))

/-- BOARD_WRITE (R468). -/
def execBoardWrite (m : Nat) (s : State) : Host.Outcome State Fault Refusal := .next (mbxBoardWrite m s)

/-! ### GO (R487) -/

/-- Operations of Table 16-13. -/
def mbxOps : List Nat := [0x01, 0x02, 0x03, 0x04, 0x05, 0x10, 0x11, 0x12, 0x13, 0x20, 0x21, 0x22]

/-- A write of MBX_CTL: GO submits the request in REQ; while BUSY it is ignored. A request that names no operation is
answered at once. -/
def writeMbxCtl (s : State) (req : Requester) (off : Nat) (ix : List Nat) (v : Nat) : State :=
  let m := ix.getD 0 0
  let s := landWrite s .mbxCtl ix v
  if !bit v 31 then s
  else if (boxAt s m).busy then accessError s req 8 off 2 true
  else if mbxOps.contains (reqOp s m) then setBox s m ⟨true, false, 0⟩
  else respond s m stBadparam []

end Sys2Proof.Machine
end

