-- ==== Sys2Proof/Machine/Windows.lean ====
section
/-! DEFINITION. Indirect windows (15/R461–R464) of the parser, the ternary array and the totals, and the guarded and
write-once registers: PRS_IND_GO, TCAM_IND_GO, TOT_IND_GO, TCAM_BLK_WRITE, GLB_LOCK_WRITE, BOARD_ID_WRITE. -/

namespace Sys2Proof.Machine

/-! ### Words of a window -/

/-- The 32-bit words of a byte string, zero past its end. -/
def wordsOf (l : List Byte) (n : Nat) : List Nat := (List.range n).map (fun k => leAt l (4 * k) 4)

/-- The device fills data registers of a window. -/
def fillData (s : State) (r : RegName) (pre : List Nat) (ws : List Nat) : State :=
  (List.range ws.length).foldl (fun s k => forceReg s r (pre ++ [k]) (ws.getD k 0)) s

/-- The data registers of a window as they stand. -/
def dataWords (s : State) (r : RegName) (pre : List Nat) (n : Nat) : List Nat :=
  (List.range n).map (fun k => inForce s r (pre ++ [k]))

/-- Words as one number, least significant first. -/
def ofWords : List Nat → Nat
  | [] => 0
  | w :: ws => w % 2 ^ 32 + 2 ^ 32 * ofWords ws

/-- An edit through a window enters the draft's digest: the window's address register, the index, the data words. -/
def windowEdit (s : State) (r : RegName) (sl index : Nat) (ws : List Nat) : State :=
  draftEdit s 1 (2 ^ sl) (r.addr [sl]) (le 4 index ++ ws.flatMap (le 4))

/-! ### The parse window (04, Tables 04-19 to 04-21) -/

/-- Entries of a target of the parse window: steps, transitions, access map, patterns. -/
def prsEntries (target : Nat) : Nat :=
  match target with | 0 => 2048 | 1 => 4096 | 2 => 65536 | _ => 16384

/-- Words, VIS and DRAFT of an entry. -/
def prsEntry (x : SliceState) (target i : Nat) : List Nat × Nat × Bool :=
  match target with
  | 0 => let e := stepEntry x i; (wordsOf (le 16 (stepImage e.image)) 4, e.vis, e.draft)
  | 1 => let e := transEntry x i; (wordsOf (le 8 (transImage e.image)) 2, e.vis, e.draft)
  | 2 => let e := tget ⟨0, 0, false⟩ x.access i; (wordsOf (le 8 e.image) 2, e.vis, e.draft)
  | _ => let e := tget ⟨zeros 32, 0, 0, false⟩ x.patterns i; (wordsOf (e.bytes ++ le 8 e.ctl) 10, e.vis, e.draft)

/-- A write of a step or transition entry: its RESULT, and the slice's state after. -/
def prsWrite (s : State) (sl target i : Nat) : Nat × State :=
  let ws := dataWords s .prsIndData [sl] 12
  let img := ofWords (ws.take (if target = 0 then 4 else 2))
  let e : Versioned := ⟨img, 0, bit (ws.getD 11 0) 4⟩
  if 1 < target then (4, s)
  else if prsEntries target ≤ i ∨ ¬ (if target = 0 then stepFine img else transFine img) then (2, s)
  else if s.rules.commit.isSome then (5, s)
  else if (prsEntry (sliceAt s sl) target i).2.1 ≠ 0 then (1, s)
  else
    let t := modSlice s sl (fun x =>
      if target = 0 then { x with steps := tins x.steps i e } else { x with trans := tins x.trans i e })
    (0, windowEdit t .prsIndAddr sl i ws)

/-- A read of an entry; an uncorrectable one reads zero. -/
def prsRead (s : State) (sl target i : Nat) (ecc : Ecc) : Nat × State :=
  if prsEntries target ≤ i then (2, s)
  else if ecc = .ue then (3, fillData s .prsIndData [sl] (List.replicate 12 0))
  else
    let e := prsEntry (sliceAt s sl) target i
    (0, forceReg (fillData s .prsIndData [sl] e.1) .prsIndData [sl, 11] (at_ e.2.1 3 0 + at_ (b2n e.2.2) 4 4))

/-- A write of PRS_IND_CTL; with GO it reads or writes an entry. -/
def writePrsInd (s : State) (ix : List Nat) (v : Nat) (ecc : Ecc) : State :=
  let sl := ix.getD 0 0
  let s := landWrite s .prsIndCtl ix v
  if !bit v 31 then s
  else
    let i := fld s .prsIndAddr ix 15 0
    let (res, s) := if bit v 30 then prsWrite s sl (bits v 29 28) i else prsRead s sl (bits v 29 28) i ecc
    let s := forceFld s .prsIndCtl ix 23 20 res
    if bit v 27 then forceFld s .prsIndAddr ix 15 0 (i + 1) else s

/-- PRS_IND_GO (R135, R461). -/
def execPrsIndGo (req : Requester) (off v : Nat) (ecc : Ecc) (s : State) : Host.Outcome State Fault Refusal :=
  .next (guarded s req off [.prsIndCtl] (fun s _ ix => writePrsInd s ix v ecc))

/-! ### The ternary window (05, Tables 05-20 to 05-22) -/

/-- A write of a single place: free or seen by the draft alone; FAULT stays until the place is free. -/
def tcamWindowWrite (s : State) (sl i : Nat) : Nat × State :=
  let ws := dataWords s .tcamIndData [sl] 20
  let img := ofWords ws
  let old := tcamAt (sliceAt s sl) i
  let j := fld s .tcamBlk [sl, i / 1024] 3 0
  let e : TcamEntry := { TcamEntry.ofImage img with draft := bit img 107, fault := old.fault && old.draft }
  if !(blockMode s sl i).1 || (blockMode s sl i).2 || !tcamFine img 0 then (2, s)
  else if s.rules.commit.isSome then (5, s)
  else if moving s sl then (6, s)
  else if old.vis ≠ 0 then (1, s)
  else if placeFree (sliceAt s sl) i && e.draft && !segmentRoom s sl j (sliceAt s sl) (segmentOf s sl j i) then (2, s)
  else
    let t := modSlice s sl (fun x => { x with tcam := if e.draft then tins x.tcam i e else tdel x.tcam i })
    (0, windowEdit t .tcamIndAddr sl i ws)

/-- A read of an entry. -/
def tcamWindowRead (s : State) (sl i : Nat) (ecc : Ecc) : Nat × State :=
  if ecc = .ue then (3, fillData s .tcamIndData [sl] (List.replicate 20 0))
  else (0, fillData s .tcamIndData [sl] (wordsOf (le 80 (tcamAt (sliceAt s sl) i).image) 20))

/-- A write of TCAM_IND_CTL; with GO it reads or writes an entry. -/
def writeTcamInd (s : State) (ix : List Nat) (v : Nat) (ecc : Ecc) : State :=
  let sl := ix.getD 0 0
  let s := landWrite s .tcamIndCtl ix v
  if !bit v 31 then s
  else
    let i := fld s .tcamIndAddr ix 14 0
    let (res, s) := if bit v 30 then tcamWindowWrite s sl i else tcamWindowRead s sl i ecc
    let s := forceFld s .tcamIndCtl ix 23 20 res
    if bit v 29 then forceFld s .tcamIndAddr ix 14 0 (i + 1) else s

/-- TCAM_IND_GO (R154, R461). -/
def execTcamIndGo (req : Requester) (off v : Nat) (ecc : Ecc) (s : State) : Host.Outcome State Fault Refusal :=
  .next (guarded s req off [.tcamIndCtl] (fun s _ ix => writeTcamInd s ix v ecc))

/-! ### The totals window (09, Tables 09-19 to 09-21) -/

/-- The epoch that an IMAGE names: the open one, the closing one, the one sealed last. -/
def imageEpoch (s : State) (image : Nat) : Option Epoch :=
  match image with
  | 0 => if s.lid.opened then some s.lid.epoch else none
  | 1 => s.lid.closing.map (·.epoch)
  | 2 => s.lid.lastSealed
  | _ => none

/-- The page that holds a zone of a copy is lost. -/
def zonePageLost (s : State) (copy zone : Nat) : Bool := s.hbm.lostImages.contains (pgZone + copy * 8192 + zone / 128)

/-- The digest of a live version or of the draft. -/
def digestOf (s : State) (v : Nat) : Option (List Byte) :=
  if v = 0xFFFFF then some s.rules.draftDigest
  else if (List.range 8).any (fun sl => isLive s sl v) then some (versionDigest s v)
  else none

/-- What a read of the totals window finds: RESULT, and the bytes of the entry. -/
def totalsRead (s : State) (target image i : Nat) (ecc : Ecc) : Nat × List Byte :=
  if 3 < target then (2, [])
  else if target = 3 then (match digestOf s i with | some d => (0, d) | none => (4, []))
  else if image = 3 then (2, [])
  else match imageEpoch s image with
  | none => (4, [])
  | some e =>
    let c := copyOf e.seq
    match target with
    | 0 => if ecc = .ue ∨ zonePageLost s c i then (3, []) else (0, (zoneTotals s c i).totals)
    | 1 => if 320 ≤ i then (2, []) else if ecc = .ue then (3, []) else (0, portEntry s c i)
    | _ => if e.configImage.length ≤ 64 * i then (2, []) else (0, (e.configImage.drop (64 * i)).take 64)

/-- A write of TOT_IND_CTL; with GO it reads an entry. -/
def writeTotInd (s : State) (v : Nat) (ecc : Ecc) : State :=
  let s := landWrite s .totIndCtl [] v
  if !bit v 31 then s
  else
    let a := inForce s .totIndAddr []
    let r := totalsRead s (bits a 31 28) (bits a 27 26) (bits a 19 0) ecc
    let s := if r.1 = 0 ∨ r.1 = 3 then fillData s .totIndData [] (wordsOf r.2 16) else s
    let s := forceFld s .totIndCtl [] 23 20 r.1
    if bit v 30 then forceFld s .totIndAddr [] 19 0 (bits a 19 0 + 1) else s

/-- TOT_IND_GO (R293, R461). -/
def execTotIndGo (req : Requester) (off v : Nat) (ecc : Ecc) (s : State) : Host.Outcome State Fault Refusal :=
  .next (guarded s req off [.totIndCtl] (fun s _ _ => writeTotInd s v ecc))

/-! ### Guarded and write-once registers -/

/-- A TCAM_BLK write may be taken: every entry of the block is free, and the lookup gets no second width. -/
def blockTaken (s : State) (sl b v : Nat) : Bool :=
  (trange (sliceAt s sl).tcam (b * 1024) (b * 1024 + 1024)).all (fun e => e.2.vis == 0 && !e.2.draft) &&
  (!bit v 7 || (blocksOf s sl (bits v 3 0)).all (fun c => c == b || fld s .tcamBlk [sl, c] 6 6 == bits v 6 6))

/-- A write of TCAM_BLK. -/
def writeTcamBlk (s : State) (ix : List Nat) (v : Nat) : State :=
  if blockTaken s (ix.getD 0 0) (ix.getD 1 0) v then landWrite s .tcamBlk ix v
  else raiseEv s .tcamEvent [ix.getD 0 0] [3]

/-- TCAM_BLK_WRITE (R142). -/
def execTcamBlkWrite (req : Requester) (off v : Nat) (s : State) : Host.Outcome State Fault Refusal :=
  .next (guarded s req off [.tcamBlk] (fun s _ ix => writeTcamBlk s ix v))

/-- The first write of a write-once register. -/
def writeOnce (s : State) (r : RegName) (ix : List Nat) (v : Nat) : State :=
  let s := landWrite s r ix v
  setCell s (r.addr ix) { regCell s r ix with taken := true }

/-- GLB_LOCK_WRITE (R455, R456). -/
def execGlbLockWrite (req : Requester) (off v : Nat) (s : State) : Host.Outcome State Fault Refusal :=
  .next (guarded s req off [.glbLock] (fun s r ix => writeOnce s r ix v))

/-- The first write of a half of the board identity, which the Rim logs: record, value, requester. -/
def writeBoardId (s : State) (req : Requester) (ix : List Nat) (v : Nat) : State :=
  rimLog (writeOnce s .boardId ix v) 0x44 false (le 4 (1 + ix.getD 0 0) ++ le 4 v ++ le 4 req.id)

/-- BOARD_ID_WRITE (R455). -/
def execBoardIdWrite (req : Requester) (off v : Nat) (s : State) : Host.Outcome State Fault Refusal :=
  .next (guarded s req off [.boardId] (fun s _ ix => writeBoardId s req ix v))

end Sys2Proof.Machine
end

