-- ==== Sys2Proof/Machine/RegRead.lean ====
section
/-! DEFINITION. What a read of each register returns (15/R443, R454, and the register tables of the block chapters), and
the reads that have a side effect: GMAP_DATA_READ, SEAL_IND_DATA_READ, MC_IND_DATA_READ. -/

namespace Sys2Proof.Machine

/-! ### Fields the device shows (RO), block by block

Each function answers the device's own fields of its registers, at their places in the word; none where the fields are
those the device last put into the register itself. -/

/-- A flag at a bit. -/
def flagAt (b : Bool) (i : Nat) : Nat := if b then 2 ^ i else 0

/-- One half of a 64-bit count. -/
def half (x : Nat) (hi : Bool) : Nat := if hi then x / 2 ^ 32 % 2 ^ 32 else x % 2 ^ 32

/-- Skein and Fitch (03, Tables 03-9 to 03-18), learning (02, Table 02-14). -/
def skeinWord (s : State) : RegName → List Nat → Option Nat
  | .lrnLive, [sl, i] => some (at_ (tget 0 s.skein.live (sl * 32 + i)) 26 0)
  | .sknStatus, _ => some
      (at_ ((List.range 128).filter (fun pc => !(groupsOn s pc).isEmpty)).length 31 24 + flagAt s.skein.move.isSome 23
        + flagAt s.skein.recounting 22 + flagAt s.skein.initDone 21
        + at_ ((List.range 65536).filter (fun g => !(groupAt s g).placed)).length 15 0)
  | .gmapData, _ =>
    let g := fld s .gmapIndex [] 15 0
    let e := groupAt s g
    let moving := match s.skein.move with | some m => m.group == g | none => false
    some (flagAt e.placed 31 + flagAt moving 30 + at_ e.pc 29 23 + at_ e.frame 22 13 + at_ (recordsOf s g).length 11 0)
  | .clsPinUsed, [c] => some (at_ (tget 0 s.skein.pinUsed c) 20 0)
  | _, _ => none

/-- Parser and versions (04, Tables 04-14 to 04-26), search and tables (05, Tables 05-17 to 05-32). -/
def ruleWord (s : State) : RegName → List Nat → Option Nat
  | .verStatus, [sl] => some (at_ s.rules.current 31 16 + at_ (sliceAt s sl).oldest 15 0)
  | .verCarry, [sl, k] =>
    let v := ((liveVersions s sl).find? (fun v => v % 4 == k)).getD (Config.freeValue s.fresh)
    some (at_ v 31 16 + at_ (tget 0 (sliceAt s sl).heads k) 15 0)
  | .malLast0, [sl] => some (at_ (sliceAt s sl).malPort 15 8 + at_ (sliceAt s sl).malReason 4 0)
  | .malLast1, [sl] =>
    let x := sliceAt s sl
    some (at_ x.malSteps 31 24 + at_ x.malLastStep 23 13 + at_ x.malCursor 8 0)
  | .deepStatus, [sl] =>
    let l := (sliceAt s sl).deep.filter (fun c => current s c.handle)
    some (at_ (l.filter DeepCtx.done).length 28 16 + at_ l.length 12 0)
  | .tcamStatus, [sl] =>
    let x := sliceAt s sl
    let left := cdiv (x.moveEnd - ccOf s.time.tick) x.movePer
    some (flagAt (left != 0) 31 + at_ left 14 0)
  | .tcamLast, [sl] =>
    let x := sliceAt s sl
    some (at_ x.tcamLastLookup 31 28 + flagAt x.tcamLastFault 27 + at_ x.tcamLastPlace 14 0)
  | .l2Status, [sl] => some (at_ (sliceAt s sl).mac.length 18 0)
  | .l2PortCnt, [sl, i] => some (at_ (tget 0 (sliceAt s sl).macCount (sl * 32 + i)) 18 0)
  | .vlanWithy, [sl] => some (at_ (sliceAt s sl).vlanOver.length 10 0)
  | .dtWithy, _ => some (at_ s.rules.overrides.length 16 0)
  | .dtPfx4, _ => some (at_ (s.rules.prefixes.filter (fun p => !p.v6)).length 21 0)
  | .dtPfx6, _ => some (at_ (s.rules.prefixes.filter (fun p => p.v6)).length 20 0)
  | _, _ => none

/-- Flow actions and export (06, Tables 06-24 to 06-32). -/
def actionWord (s : State) : RegName → List Nat → Option Nat
  | .actStatus, _ => some
      (at_ (s.actions.targets.filter (fun e => e.2.state == 1 || e.2.state == 2)).length 31 25
        + at_ s.rules.quarantine.length 24 12)
  | .natStatus, _ => some (at_ s.actions.subs.length 22 0)
  | .expColSeq, [c] => some (at_ (tget Collector.reset s.actions.collectors c).seq 31 0)
  | _, _ => none

/-- Cell store and crossbar (07, Tables 07-8 to 07-22), egress (08, Tables 08-9 to 08-18). -/
def cellWord (s : State) : RegName → List Nat → Option Nat
  | .crlStatus, [sl] => some (at_ (admitFree s sl) 31 16 + at_ (storeAt s sl).free 15 0)
  | .crlRes, [sl] => some (at_ (resSum s sl) 31 16 + at_ (resUnused s sl) 15 0)
  | .crlLast, [sl] => some (at_ (storeAt s sl).lastKind 31 30 + at_ (storeAt s sl).lastCell 15 0)
  | .crlPtr, [sl] => some (at_ (ptrUsed (storeAt s sl)) 16 0)
  | .crlLost, [sl] => some (at_ (storeAt s sl).lost 15 0)
  | .ownUse, [sl, q] => some (at_ (ownUse s sl q) 15 0)
  | .ownDrop, [sl, q] => some (at_ (tget 0 (storeAt s sl).drops q) 31 0)
  | .waleHeld, _ => some (at_ (heldUnits s (fld s .waleSel [] 10 0)) 13 0)
  | .shqTokens, [sl, k] => some (if shqOn s (sl * 256 + k) then ofInt 32 (shqBucket s (sl * 256 + k)).bytes else 0)
  | .shpTokens, [sl, i] => some (if shpOn s (sl * 32 + i) then ofInt 32 (shpBucket s (sl * 32 + i)).bytes else 0)
  | .gclOper, [sl, i] =>
    let g := (egAt s (sl * 32 + i)).gate
    some (flagAt g.running 31 + at_ g.oper 30 30 + flagAt g.pending.isSome 29 + at_ (g.len - 1) 25 16 + at_ g.entry 9 0)
  | .gclOperCycle, [sl, i] => some (at_ (egAt s (sl * 32 + i)).gate.cycle 29 0)
  | _, _ => none

/-- The code of a phase in LID_STATUS. -/
def Phase.code : Phase → Nat
  | .drain => 1 | .sweep => 2 | .hash => 3 | .sign => 4 | .publish => 5

/-- The record that the seal window shows at a slot: while a reading goes on, as the slots stood when it began. -/
def sealSlot (s : State) (k : Nat) : List Byte := ((s.lid.seals.map (·.2)).getD (k + s.lid.hidden) [])

/-- The Lid (09, Tables 09-11 to 09-18). -/
def lidWord (s : State) : RegName → List Nat → Option Nat
  | .lidStatus, _ => some
      (at_ s.rim.lifecycle 31 30 + at_ s.rim.session 29 16
        + at_ (match s.lid.closing with | some c => c.phase.code | none => 0) 15 13 + flagAt s.lid.deferred 12
        + flagAt (syncEn s) 11 + flagAt s.lid.opened 10 + at_ (parity s) 0 0)
  | .lidSeqLo, _ => some (half s.lid.epoch.seq false)
  | .lidSeqHi, _ => some (half s.lid.epoch.seq true)
  | .lidInforce, _ => some (at_ (lenOf s.lid.epoch.cfg) 16 0)
  | .sealIndData, _ =>
    let a := inForce s .sealIndAddr []
    some (leAt (sealSlot s (bits a 19 16)) (4 * bits a 8 0) 4)
  | _, _ => none

/-- Word `w` of a time as a snapshot shows it: seconds, nanoseconds, fraction. -/
def timeWord (t : Int) (w : Nat) : Nat :=
  match w with
  | 0 => half (timeNs t / 1000000000) false
  | 1 => half (timeNs t / 1000000000) true
  | 2 => timeNs t % 1000000000
  | _ => bits (t % nsUnit).toNat 31 16

/-- The residual as TIME_RESIDUAL shows it. -/
def residualWord (s : State) : Nat :=
  ofInt 32 (max (-2147483648) (min 2147483647 (Int.tdiv (residual s) nsUnit)))

/-- A field of the capture registers of a TIME_IN pin. -/
def capField (s : State) (p : Nat) (f : Capture → Nat) : Nat := match (inAt s p).shown with | some c => f c | none => 0

/-- Time (10, Tables 10-6 to 10-16). -/
def clockWord (s : State) : RegName → List Nat → Option Nat
  | .timeStatus, _ => some
      (flagAt s.time.set 31 + flagAt (residual s != 0) 30 + at_ (selDomain s) 29 29 + flagAt s.time.holdover 28)
  | .timeTickLo, _ => some (half s.time.tick false)
  | .timeTickHi, _ => some (half s.time.tick true)
  | .timeResidual, _ => some (residualWord s)
  | .snapCtl, _ => some (flagAt s.time.snap.valid 30)
  | .snapTickLo, _ => some (half s.time.snap.tick false)
  | .snapTickHi, _ => some (half s.time.snap.tick true)
  | .snapTime, [t, w] => some (timeWord (s.time.snap.times.getD t 0) w)
  | .toutCtl, [p] => some (flagAt (pinAt s p).pending.isSome 27 + flagAt (pinAt s p).ends.isSome 26)
  | .tinStatus, [p] => some (at_ (inAt s p).drops 15 8 + at_ (inAt s p).queue.length 4 0)
  | .tinCapTickLo, [p] => some (capField s p (fun c => half c.tick false))
  | .tinCapTickHi, [p] => some (capField s p (fun c => half c.tick true))
  | .tinCapSecLo, [p] => some (capField s p (fun c => half c.sec false))
  | .tinCapSecHi, [p] => some (capField s p (fun c => half c.sec true))
  | .tinCapNs, [p] => some (capField s p (fun c => at_ c.ns 31 0))
  | .tinCapInfo, [p] => some (flagAt (inAt s p).shown.isSome 31 + capField s p (fun c => at_ c.edge 17 16 + at_ c.frac 15 0))
  | _, _ => none

/-- Lanes and ports (11, Tables 11-13 to 11-20). -/
def lineWord (s : State) : RegName → List Nat → Option Nat
  | .laneStatus, [l] =>
    let x := laneAt s l
    some (flagAt x.signal 31 + flagAt x.cdr 30 + flagAt x.converged 29 + flagAt x.txPre 28 + flagAt x.rxPre 27
      + flagAt x.txLpi 26 + flagAt x.rxLpi 25 + flagAt x.inTest 24 + at_ x.bestFom 15 8 + at_ x.fom 7 0)
  | .laneTest, [l] => some (flagAt (laneAt s l).lock 26 + flagAt (laneAt s l).lostLock 25)
  | .prbsErr, [l] => some (at_ (laneAt s l).prbsErr 31 0)
  | .prbsBitsLo, [l] => some (half (prbsBitsNow s l) false)
  | .prbsBitsHi, [l] => some (half (prbsBitsNow s l) true)
  | .injCount, [l] => some (at_ (laneAt s l).injCount 31 0)
  | .portStatus, [p] =>
    let x := portAt s p
    some (at_ x.state 23 22 + at_ x.causeShown 19 16 + at_ x.attempts 15 12 + at_ x.drops 11 0)
  | _, _ => none

/-- Host ports, rings and the chain (12, Tables 12-12 to 12-21). Indices and semaphores are the block's own, whatever their
Access. -/
def hostWord (s : State) : RegName → List Nat → Option Nat
  | .hpStatus, [h] =>
    let p := s.host.ports.getD h HostPort.reset
    some (flagAt p.up 31 + at_ p.gen 30 28 + at_ p.width 27 24)
  | .hpLast, [h] =>
    let p := s.host.ports.getD h HostPort.reset
    some (at_ p.haltRing 31 28 + at_ p.haltCause 27 24 + at_ p.haltSlot 23 0)
  | .sem, [n] => some (tget 0 s.host.sems n)
  | .crPi, [h, n] => some (ringAt s h 0 n).pi
  | .crCi, [h, n] => some (ringAt s h 0 n).ci
  | .rrPi, [h, n] => some (ringAt s h 1 n).pi
  | .rrCi, [h, n] => some (ringAt s h 1 n).ci
  | .erPi, [h, n] => some (ringAt s h 2 n).pi
  | .erCi, [h, n] => some (ringAt s h 2 n).ci
  | .crStatus, [h, n] => some (flagAt (ringAt s h 0 n).halted 31 + at_ (ringAt s h 0 n).cause 27 24)
  | .erStatus, [h, n] => some (at_ (ringAt s h 2 n).drops 31 0)
  | .chainStatus, _ => some
      (flagAt s.chain.addr.isSome 31 + flagAt s.chain.ring 30 + at_ (s.chain.addr.getD 0) 29 24
        + at_ (if s.chain.root then s.chain.devices else 0) 22 16 + flagAt (chainUp s 1) 1 + flagAt (chainUp s 0) 0)
  | _, _ => none

/-- The scheduler, the engines and the microcode (13, Tables 13-12 to 13-21). -/
def schedWord (s : State) : RegName → List Nat → Option Nat
  | .schStatus, _ => some
      (flagAt (fetchStalled s) 31 + at_ s.sched.store.length 30 16 + at_ s.sched.listed 12 0)
  | .schStatus2, _ => some (at_ (paramUsed s) 31 17 + at_ (timersHeld s) 16 0)
  | .schDepth, [p] => some (at_ (s.sched.ready.getD p []).length 12 0)
  | .schWaitMax, [p] => some (at_ (s.sched.shownMax.getD p 0) 31 0)
  | .schWaitMean, [p] => some (at_ (s.sched.shownMean.getD p 0) 31 0)
  | .engStatus, [e] =>
    let g := engineAt s e
    some (flagAt (running s && s.rim.started) 31 + flagAt g.item.isSome 30
      + at_ (match g.item with | some i => i.prio | none => 0) 29 28 + at_ g.boundaryAddr 16 0)
  | .engTag, [e] => some (match (engineAt s e).item with
      | some i => if i.kind == .task then 0 else at_ i.header.tag 31 0
      | none => 0)
  | .engCode, [e] => some (match (engineAt s e).item with | some i => at_ i.code 15 0 | none => 0)
  | .engLoad, [e] =>
    let x := s.sched.shownLoad.getD e (0, 0)
    some (at_ x.1 31 16 + at_ x.2 15 0)
  | .mcStatus, _ => some
      (flagAt s.sched.loaded 31 + at_ (s.sched.matches_.filter (fun m => bit m.2 31)).length 30 24
        + at_ s.sched.patch.length 12 0)
  | .mcLevel, _ => some (at_ s.sched.patchLevel 31 0)
  | .mcIndData, _ =>
    let a := fld s .mcIndAddr [] 16 0
    some (if a < 0x10000 then at_ (Config.microRom a) 31 0
      else if a < 0x11000 then at_ (tget 0 s.sched.patch (a - 0x10000)) 31 0 else 0)
  | .mcMatch, [i] => some (at_ (tget 0 s.sched.matches_ i) 31 0)
  | _, _ => none

/-- DMA channels (14, Tables 14-12 to 14-14). -/
def dmaWord (s : State) : RegName → List Nat → Option Nat
  | .dmaStatus, [c] => some (at_ (chanAt s c).state 31 29 + at_ (chanAt s c).status 15 0)
  | .dmaCurLo, [c] => some (half (chanAt s c).cur false)
  | .dmaCurHi, [c] => some (half (chanAt s c).cur true)
  | .dmaCount, [c] => some (at_ (chanAt s c).count 31 0)
  | .cqPi, [c] => some (at_ (chanAt s c).cqPi 31 0)
  | .cqCi, [c] => some (at_ (chanAt s c).cqCi 31 0)
  | .dmaBytesLo, [c] => some (half (chanAt s c).bytes false)
  | .dmaBytesHi, [c] => some (half (chanAt s c).bytes true)
  | _, _ => none

/-- Identity and global (15, Tables 15-9 to 15-20), power (19, Tables 19-7 and 19-9). -/
def globalWord (s : State) (req : Nat) : RegName → List Nat → Option Nat
  | .idPart, _ => some 0x9256B000
  | .idVendor, _ => some 0x4D464C44
  | .idDevice, [w] => some (leAt s.rim.otp.deviceId (4 * w) 4)
  | .glbStatus, _ => some
      (flagAt s.rim.minimal 31 + flagAt s.rim.startDone 30 + at_ s.rim.lifecycle 29 28
        + flagAt (running s && s.rim.started) 27 + flagAt (running s && s.rim.started) 26)
  | .glbWhoami, _ => some (at_ req 2 0)
  | .glbFwLevel, _ => some (at_ s.rim.fwLevel 31 0)
  | .accLast0, _ => some (at_ s.regs.accLast.offset 25 0)
  | .accLast1, _ =>
    let a := s.regs.accLast
    some (at_ a.kind 31 28 + at_ a.requester 27 25 + flagAt a.viaCmd 24 + at_ a.width 23 22 + flagAt a.write 21)
  | .accCount, _ => some (at_ s.regs.accCount 31 0)
  | .ifrData, _ => some s.regs.ifrData.toNat
  | .ifrInfo, _ => some s.regs.ifrInfo.toNat
  | .pwrStatus, _ => some (at_ s.power.state 31 29 + at_ s.power.chiplets 15 8 + at_ s.power.stackPwr 3 0)
  | .pwrMacroSt, _ => some (at_ s.power.macros 31 0)
  | _, _ => none

/-- The Rim (16, Tables 16-14 to 16-18). -/
def rimWord (s : State) : RegName → List Nat → Option Nat
  | .rimStatus, _ => some (rimStatusWord s)
  | .rimOtp, _ => some (rimOtpWord s)
  | .logNextLo, _ => some (half s.log.next false)
  | .logNextHi, _ => some (half s.log.next true)
  | .logOldestLo, _ => some (half (logOldest s) false)
  | .logOldestHi, _ => some (half (logOldest s) true)
  | .therm, [k] => some (thermWord s k)
  | .mbxStatus, [m] =>
    let b := boxAt s m
    some (flagAt b.busy 31 + flagAt b.done 30 + at_ b.status 15 0)
  | _, _ => none

/-- Observation (17, Tables 17-7 to 17-14). -/
def observeWord (s : State) : RegName → List Nat → Option Nat
  | .cntDataLo, _ => some (cntDataLoWord s)
  | .cntDataHi, _ => some (cntDataHiWord s)
  | .cntGen, [p] => some (at_ (tget 0 s.counters.gens p) 15 0)
  | .trcWpLo, _ => some (at_ s.trace.wp 29 12)
  | .trcWpHi, _ => some (at_ s.trace.wraps 31 0)
  | .trcStatus, _ => some
      (flagAt (running s && traceDest s == 1) 31 + flagAt s.trace.full 30 + flagAt (!s.trace.queue.isEmpty) 29)
  | _, _ => none

/-- STATE of a pseudo-channel as PC_STATUS shows it: 3 while its stack is down. -/
def pcShown (s : State) (n : Nat) : Nat := if bit s.power.stackPwr (n / 32) then (pcAt s n).state else 3

/-- A stack is powered and trained. -/
def stackUp (s : State) (k : Nat) : Bool := bit s.power.stackPwr k && s.hbm.trainDone

/-- Pseudo-channels retired for a cause of a range of Table 18-6. -/
def pcsFor (s : State) (lo hi : Nat) : Nat :=
  ((List.range 128).filter (fun n => decide (lo ≤ (pcAt s n).cause) && decide ((pcAt s n).cause ≤ hi))).length

/-- Pseudo-channels in a state. -/
def pcsIn (s : State) (st : Nat) (l : List Nat) : Nat := (l.filter (fun n => pcShown s n == st)).length

/-- HBM controllers (18, Tables 18-9 to 18-20). -/
def hbmWord (s : State) : RegName → List Nat → Option Nat
  | .hbmStatus, _ => some
      (flagAt s.hbm.trainDone 31
        + flagAt (s.power.stackPwr != 0 &&
            (List.range 4).all (fun k => !bit s.power.stackPwr k || (stkAt s k).selfRefresh)) 30
        + at_ (ofBits ((List.range 4).filter (stackUp s))) 29 26 + at_ (pcsIn s 0 (List.range 128)) 23 16
        + at_ (pcsFor s 1 2) 15 8 + at_ (pcsFor s 3 15) 7 0)
  | .hbmIndCtl, _ => some (at_ s.hbm.result 23 20 + flagAt s.hbm.corrected 19)
  | .hbmIndData, [w] => some (leAt s.hbm.window (4 * w) 4)
  | .stkStatus, [k] =>
    let x := stkAt s k
    some (flagAt (stackUp s k) 31 + flagAt x.selfRefresh 30 + flagAt x.refresh2x 29
      + at_ (pcsIn s 0 ((List.range 32).map (fun i => 32 * k + i))) 23 16 + at_ x.caRetries 15 0)
  | .pcStatus, [n] =>
    let x := pcAt s n
    some (at_ (pcShown s n) 31 30 + at_ x.cause 29 26 + at_ x.ueCount 15 0)
  | .pcRwin, [n] => some (at_ (pcAt s n).rwin 31 0)
  | .pcWwin, [n] => some (at_ (pcAt s n).wwin 31 0)
  | .pcUse, [n] => some (at_ (groupsOn s n).length 26 16 + at_ (pagesUsed s n) 14 0)
  | _, _ => none

/-- The device's own fields of a register, from the block that holds it. -/
def shownWord (s : State) (req : Nat) (r : RegName) (ix : List Nat) : Option Nat :=
  (skeinWord s r ix).or <| (ruleWord s r ix).or <| (actionWord s r ix).or <| (cellWord s r ix).or <| (lidWord s r ix).or <|
  (clockWord s r ix).or <| (lineWord s r ix).or <| (hostWord s r ix).or <| (schedWord s r ix).or <| (dmaWord s r ix).or <|
  (globalWord s req r ix).or <| (rimWord s r ix).or <| (observeWord s r ix).or (hbmWord s r ix)

/-! ### The word of a register -/

/-- The sequence-acknowledged part: SEQ and the flags of an event register; POL_UE, which lies in POL_LAST and belongs to
POL_EVENT (R459). -/
def seqWord (s : State) (r : RegName) (ix : List Nat) : Nat :=
  if r == .polLast then flagAt ((eventAt s (RegName.addr .polEvent [])).raised.any (fun f => f.1 == 16)) 31
  else if hasSeq r then
    let e := eventAt s (r.addr ix)
    at_ e.seq 31 16 + ofBits ((e.raised.map (·.1)).filter (· < 16))
  else 0

/-- What the held fields read: the last value written (R17), or the value in force (R454; a COMMIT field's is that of the
current version). -/
def heldCell (s : State) (r : RegName) (ix : List Nat) (force : Bool) : Word :=
  let c := regCell s r ix
  if force then
    let m := maskOf r.desc.fields (fun f => f.applies == .commit)
    let col := tget r.desc.resetWord s.regs.columns (r.addr ix * 4 + s.rules.current % 4)
    (col &&& m) ||| (c.force &&& ~~~m)
  else c.written

/-- The 32 bits of a register: held fields, the device's own, and those of an event. -/
def regWord (s : State) (req : Nat) (r : RegName) (ix : List Nat) (force : Bool) : Nat :=
  let fs := r.desc.fields
  let held := (heldCell s r ix force &&& maskOf fs RField.writable).toNat
  match shownWord s req r ix with
  | some w => Nat.lor held w + seqWord s r ix
  | none => held + (heldCell s r ix true &&& maskOf fs (fun f => f.access == .ro)).toNat + seqWord s r ix

/-! ### Who may read (R15) -/

/-- The requester may read some field of the register. -/
def mayRead (s : State) (r : RegName) (ix : List Nat) (req : Nat) : Bool :=
  (r.desc.fields.isEmpty || r.desc.fields.any (fun f => f.who.permits req)) && ownerCheck s r ix req

/-- The bits of the fields it may read. -/
def readMask (r : RegName) (req : Nat) : Nat := (maskOf r.desc.fields (fun f => f.who.permits req)).toNat

/-! ### Side effects of a read (R443, R463) -/

/-- A read of SEAL_IND_DATA: WORD moves on, and the read of word 359 ends the reading. -/
def sealAdvance (s : State) : State :=
  let w := fld s .sealIndAddr [] 8 0
  let s := forceFld { s with lid := { s.lid with reading := true } } .sealIndAddr [] 8 0 (w + 1)
  if w = 359 then sealReadEnd s else s

/-- What a read of a register does besides answering; `full`: it covers 32 bits. A 64-bit read of the tick pair takes both
halves from one tick and latches nothing. -/
def afterRead (s : State) (r : RegName) (full wide : Bool) : State :=
  match r with
  | .gmapData => forceFld s .gmapIndex [] 15 0 (fld s .gmapIndex [] 15 0 + 1)
  | .sealIndData => sealAdvance s
  | .mcIndData =>
    if fld s .mcIndAddr [] 31 31 = 1 then forceFld s .mcIndAddr [] 16 0 (fld s .mcIndAddr [] 16 0 + 1) else s
  | .cntDataHi => readCntHi s
  | .timeTickLo => if full && !wide then withTime s (fun t => { t with tickHiLatch := some (half t.tick true) }) else s
  | .timeTickHi => if wide then s else withTime s (fun t => { t with tickHiLatch := none })
  | .verCarry => { s with fresh := s.fresh + 1 }
  | _ => s

/-- One register read whole: its word and the state after. A register of a domain that is down and an unmapped offset read
zero; a read that Who does not permit reads zero and is refused. -/
def readReg (s : State) (req : Requester) (off : Nat) (w : Width) : Nat × State :=
  if !domainUp s off then (0, s)
  else match locate off with
  | none => (0, s)
  | some (r, ix) =>
    if !mayRead s r ix req.id then (0, accessError s req 4 off (Width.code w) false)
    else if r == .sem then readSem s req (ix.getD 0 0)
    else
      let x := match r, s.time.tickHiLatch with
        | .timeTickHi, some h => if w = .w64 then regWord s req.id r ix false else h
        | _, _ => regWord s req.id r ix false
      (Nat.land x (readMask r req.id), afterRead s r (w == .w32) (w == .w64))

/-- A read answers its requester. -/
def answerRead (s : State) (req : Requester) (off : Nat) (w : Width) : State :=
  let (x, s) := readReg s req off w
  emit s (.readData req.id off x)

/-- A read of a data register, alone or as the upper half of a 64-bit read. -/
def dataRead (s : State) (req : Requester) (r : RegName) (wide : Bool) : State :=
  let off := r.addr []
  if wide then answerRead (answerRead s req (off - 4) .w64) req off .w64 else answerRead s req off .w32

/-- GMAP_DATA_READ (R463). -/
def execGmapDataRead (req : Requester) (wide : Bool) (s : State) : Host.Outcome State Fault Refusal :=
  .next (dataRead s req .gmapData wide)

/-- SEAL_IND_DATA_READ (09/R320). -/
def execSealIndDataRead (req : Requester) (wide : Bool) (s : State) : Host.Outcome State Fault Refusal :=
  .next (dataRead s req .sealIndData wide)

/-- MC_IND_DATA_READ (R463). -/
def execMcIndDataRead (req : Requester) (wide : Bool) (s : State) : Host.Outcome State Fault Refusal :=
  .next (dataRead s req .mcIndData wide)

end Sys2Proof.Machine
end

