-- ==== Sys2Proof/Machine/Registers.lean ====
section
/-! DEFINITION. Writes of registers and the in-force window (15/R442–R460, 12/R387): REGISTER_WRITE, EVENT_ACK,
IFR_ADDR_WRITE, REG_READ, REG_WRITE. -/

namespace Sys2Proof.Machine

/-! ### The in-force window (R454) -/

/-- The code of a boundary in IFR_INFO. -/
def Applies.code : Applies → Nat
  | .now => 0 | .packet => 1 | .commit => 2 | .tick => 3 | .cycle => 4 | .atTime => 5 | .epoch => 6 | .retrain => 7 | .reset => 8

/-- APPLIES of a register: the one boundary of its writable fields, 14 when they differ, 15 when it has none. -/
def appliesCode (r : RegName) : Nat :=
  match ((r.desc.fields.filter RField.writable).map (fun f => f.applies.code)).eraseDups with
  | [] => 15
  | [c] => c
  | _ => 14

/-- A written value of some field has not yet taken effect. -/
def pendingOf (s : State) (r : RegName) (ix : List Nat) : Bool :=
  let m := maskOf r.desc.fields RField.writable
  (heldCell s r ix false &&& m) != (heldCell s r ix true &&& m)

/-- Put a sample into the window. -/
def setSample (s : State) (data info : Nat) : State :=
  { s with regs := { s.regs with ifrData := BitVec.ofNat 32 data, ifrInfo := BitVec.ofNat 32 info } }

/-- The field [hi:lo] of a word as `f` makes it. -/
def fieldAs (hi lo : Nat) (f : Nat → Nat) (x : Nat) : Nat := withBits x hi lo (f (bits x hi lo))

/-- A value held between two limits. -/
def within (lo hi v : Nat) : Nat := min hi (max lo v)

/-- A value that acts as another, every other as itself. -/
def actsAs (v w x : Nat) : Nat := if x = v then w else x

/-- A register's word with each field at the value it acts as (R453), from the Meaning of the field's table; registers of
the rules, the tables and the cell store. -/
def actingRules (s : State) (r : RegName) (ix : List Nat) (x : Nat) : Nat :=
  match r with
  | .matCfg => fieldAs 29 15 (fun v => if v = 0 then 16384 else min v 16384) x
  | .tcamHole => fieldAs 3 0 (within 3 10) x
  | .l2Cfg => fieldAs 15 0 (max 1) x
  | .actCfg => fieldAs 23 16 (max 1) (fieldAs 15 0 (max 1) x)
  | .expColMtu => fieldAs 13 0 (within 576 9216) x
  | .ownCfg0 => fieldAs 29 26 (min 9) x
  | .egrCt => fieldAs 4 0 (max (minLead (portRate s (32 * ix.getD 0 0 + ix.getD 1 0)))) x
  | .eqCredit => creditOf s (ix.getD 0 0) (ix.getD 1 0)
  | .shqCfg => fieldAs 19 0 (max 10264) x
  | .gclCycle => fieldAs 29 0 (within 1000 1000000000) x
  | .lidCfg => fieldAs 23 17 (actsAs 0 5) (fieldAs 16 0 (within 1 86400) x)
  | _ => x

/-- The same of the registers of time, lanes and ports. -/
def actingLine (s : State) (r : RegName) (ix : List Nat) (x : Nat) : Nat :=
  let pattern (v : Nat) : Nat := if decide (6 ≤ v) && modeOf s (ix.getD 0 0) == 9 then 5 else v
  match r with
  | .timeCtl => fieldAs 7 0 (within 1 100) x
  | .toutCtl => fieldAs 30 29 (actsAs 3 0) x
  | .toutPeriod => max 100 x
  | .toutWidth => max 8 x
  | .tinCtl => fieldAs 30 29 (max 1) x
  | .laneCfg => fieldAs 5 4 (actsAs 3 2) (fieldAs 3 2 (actsAs 3 2) x)
  | .laneTest =>
    fieldAs 24 22 pattern (fieldAs 21 19 pattern (fieldAs 18 17 (actsAs 3 0) (fieldAs 16 12 (max 10) x)))
  | .portCtl => fieldAs 13 0 (within 64 10240) x
  | .portTrain => fieldAs 31 28 (max 1) (fieldAs 15 0 (max 100) x)
  | .portLpi => fieldAs 31 16 (max 1) (fieldAs 15 0 (max (Config.pcsWakeUs (modeOf s (ix.getD 0 0)))) x)
  | _ => x

/-- The same of the registers of the host interface, the scheduler, DMA, observation and memory. -/
def actingHost (r : RegName) (x : Nat) : Nat :=
  match r with
  | .crCfg | .erCfg => fieldAs 24 20 (within 7 16) x
  | .rrCfg => fieldAs 24 20 (within 11 16) x
  | .chainCfg => fieldAs 15 0 (max 1) x
  | .schTick => fieldAs 16 0 (within 1 100000) x
  | .schCfg => fieldAs 29 16 (max 128) x
  | .schCfg2 => fieldAs 15 0 (max 1) x
  | .dmaCtl => fieldAs 27 26 (actsAs 3 0) x
  | .cqCfg => fieldAs 4 0 (within 6 16) x
  | .dmaGrace => fieldAs 15 0 (max 1) x
  | .tagCfg => fieldAs 4 0 (within 8 24) x
  | .tagSeed => max 1 x
  | .trcCfg => fieldAs 31 30 (actsAs 3 0) x
  | .hbmCfg => fieldAs 15 0 (max 1) x
  | _ => x

/-- A register's value in force (R453, R454). -/
def actingWord (s : State) (req : Nat) (r : RegName) (ix : List Nat) : Nat :=
  actingHost r (actingLine s r ix (actingRules s r ix (regWord s req r ix true)))

/-- Sample the register at an offset. -/
def sampleReg (s : State) (req : Requester) (off : Nat) : State :=
  match locate off with
  | none => setSample s 0 (at_ 15 29 26)
  | some (r, ix) =>
    let code := at_ (appliesCode r) 29 26
    if !domainUp s off then setSample s 0 code
    else if !mayRead s r ix req.id then accessError (setSample s 0 (code + 2 ^ 30)) req 4 off 2 false
    else setSample s (Nat.land (actingWord s req.id r ix) (readMask r req.id)) (code + flagAt (pendingOf s r ix) 31)

/-- A write of IFR_ADDR samples the target. -/
def writeIfrAddr (s : State) (req : Requester) (v : Nat) : State := sampleReg (landWrite s .ifrAddr [] v) req (bits v 25 2 * 4)

/-- IFR_ADDR_WRITE (R454). -/
def execIfrAddrWrite (req : Requester) (off v : Nat) (s : State) : Host.Outcome State Fault Refusal :=
  .next (guarded s req off [.ifrAddr] (fun s _ _ => writeIfrAddr s req v))

/-! ### Writes that do more than land in a shadow -/

/-- Registers of the time block (10) and of lanes and ports (11). -/
def writeTimed (s : State) (req : Requester) (off : Nat) (r : RegName) (ix : List Nat) (v : Nat) : Option State :=
  match r with
  | .tdCtl => some (writeTdCtl s req ix v)
  | .timeCtl => some (writeTimeCtl s req v)
  | .toutCtl => some (writeToutCtl s ix v)
  | .tinPop => some (writeTinPop s ix v)
  | .snapCtl => some (writeSnapCtl s v)
  | .tsCfg | .tsRxAdj | .tsTxAdj => some (writeStampSet s r ix v)
  | .portCtl => some (writePortCtl s ix v)
  | .macroMode => some (writeMacroMode s ix v)
  | .laneCfg => some (writeLaneCfg s req ix v)
  | .laneTest => some (writeLaneTest s ix v)
  | .laneIndCtl => some (writeLaneInd s ix v)
  | .pwrMacro => some (writePwrMacro s req off v)
  | .pwrChiplet => some (writePwrChiplet s v)
  | .pwrStack => some (writePwrStack s req off v)
  | .pwrCtl => some (writePwrCtl s req off v [])
  | .glbResetReq => some (writeGlbReset s req off v)
  | _ => none

/-- Registers of the cell store, the crossbar and the egress side (07, 08). -/
def writeQueued (s : State) (r : RegName) (ix : List Nat) (v : Nat) : Option State :=
  match r with
  | .shqCfg | .egrPortCfg => some (writeShaperCfg s r ix v)
  | .shqRate | .shqBurst | .shpRate | .shpBurst => some (writeShaperRate s r ix v)
  | .ownCfg0 | .ownCfg1 => some (writeOwnCfg s r ix v)
  | .eqCredit => some (writeCredit s r ix v)
  | .gclIndCtl => some (writeGclInd s ix v .ok)
  | .gclAdmin => some (writeGclAdmin s ix v)
  | .polIndCtl => some (writePolInd s v .ok)
  | _ => none

/-- Registers of host ports, rings, channels and the chain (12, 14). -/
def writeHosted (s : State) (req : Requester) (off : Nat) (r : RegName) (ix : List Nat) (v : Nat) : Option State :=
  match r with
  | .crCfg | .rrCfg | .erCfg => some (writeRingCfg s req off r ix v)
  | .crPi => some (writeCrPi s ix v)
  | .rrCi | .erCi => some (writeRingCi s (ringClass r) ix v)
  | .hpRingOwn => some (writeRingOwn s ix v)
  | .sem => some (writeSem s req off ix v)
  | .dmaCtl => some (writeDmaCtl s req off ix v)
  | .cqCi => some (writeCqCi s ix v)
  | .dmaOwn => some (writeDmaOwn s ix v)
  | .puntMap => some ((List.range 8).foldl dropUntaken (landWrite s .puntMap ix v))
  | .chainCfg => some (writeChainCfg s ix v)
  | .mbxCtl => some (writeMbxCtl s req off ix v)
  | _ => none

/-- Windows, write-once registers, and observation and HBM registers (04, 05, 09, 15, 17, 18). -/
def writeWindowed (s : State) (req : Requester) (off : Nat) (r : RegName) (ix : List Nat) (v : Nat) : Option State :=
  match r with
  | .prsIndCtl => some (writePrsInd s ix v .ok)
  | .tcamIndCtl => some (writeTcamInd s ix v .ok)
  | .totIndCtl => some (writeTotInd s v .ok)
  | .sealIndAddr => some (sealReadEnd (landWrite s .sealIndAddr ix v))
  | .tcamBlk => some (writeTcamBlk s ix v)
  | .glbLock => some (writeOnce s r ix v)
  | .boardId => some (writeBoardId s req ix v)
  | .ifrAddr => some (writeIfrAddr s req v)
  | .cntAddr => some (writeCntAddr s ix v)
  | .cntChainDev | .cntChainSl => some (writeCntChain s r ix v)
  | .tagSeed => some (writeTagSeed s ix v)
  | .trcCfg => some (writeTrcCfg s ix v)
  | .hbmRetire => some (writeHbmRetire s req off v)
  | .hbmIndCtl => some (writeHbmInd s ix v .ok)
  | _ => none

/-- A collector that is enabled sends its template set, and again TPL_REFRESH later: the task is posted, and its timer starts
(06/R224). One that is disabled has no timer. -/
def writeCollector (s : State) (ix : List Nat) (v : Nat) : State :=
  let was := fld s .expColCtl ix 31 31
  let s := landWrite s .expColCtl ix v
  let f := 12 + ix.getD 0 0
  let s := if was = 1 ∧ bit v 31 then s
    else withSched s (fun x => { x with timers := x.timers.filter (fun t => t.task != f) })
  if was = 0 ∧ bit v 31 then
    let s := raiseTask s 0xF007 1 [byte (ix.getD 0 0)]
    withSched s (fun x => { x with
      timers := putTimer x.timers ⟨s.time.tick + ((timerInterval s f).getD 0), f⟩ })
  else s

/-- A write of a COMMIT register, an edit of the draft (09/R311). -/
def writeCommitted (s : State) (off : Nat) (r : RegName) (ix : List Nat) (v : Nat) : State :=
  draftEdit (landWrite s r ix v) 2 (2 ^ ix.getD 0 0) off (le 4 v)

/-- An accepted 32-bit write of a register: what its block does with it; without more, it lands in the shadow. -/
def writeAccepted (s : State) (req : Requester) (off : Nat) (r : RegName) (ix : List Nat) (v : Nat) : State :=
  match (writeTimed s req off r ix v).or <| (writeQueued s r ix v).or <| (writeHosted s req off r ix v).or
      (writeWindowed s req off r ix v) with
  | some t => t
  | none =>
    if r == .expColCtl then writeCollector s ix v
    else if r == .polLast then s
    else if hasSeq r then ackWrite s req off v
    else if r.desc.fields.any (fun f => f.applies == .commit) then writeCommitted s off r ix v
    else landWrite s r ix v

/-- One 32-bit write of the window, judged and applied (R445, R451). A second GLB_RESET_REQ is ignored without an event
(R465). -/
def writeReg (s : State) (req : Requester) (off v : Nat) : State :=
  if s.rim.transition.isSome && v == 0x52535452 && off == RegName.addr .glbResetReq [] && Who.permits .priv req.id then s
  else match judgeWrite s req off with
  | .error k => accessError s req k off 2 true
  | .ok (r, ix) => writeAccepted s req off r ix v

/-! ### REGISTER_WRITE and EVENT_ACK -/

/-- Bytes of a narrow access. -/
def narrowBytes (w : Width) : Nat := if w = .w8 then 1 else 2

/-- The bytes a narrow read returns, at the bottom of the value. -/
def narrowPart (x off n : Nat) : Nat := x / 2 ^ (8 * (off % 4)) % 2 ^ (8 * n)

/-- A write of any form (R442, R444–R446). -/
def accessWrite (s : State) (req : Requester) (w : Width) (off v : Nat) : State :=
  match w with
  | .none => s
  | .w8 | .w16 => accessError s req 1 off (Width.code w) true
  | .w32 => if off % 4 = 0 then writeReg s req off (v % 2 ^ 32) else accessError s req 2 off 3 true
  | .w64 =>
    if off % 8 = 0 then writeReg (writeReg s req off (v % 2 ^ 32)) req (off + 4) (v / 2 ^ 32 % 2 ^ 32)
    else accessError s req 2 off 3 true
  | .unaligned | .unsupported => accessError s req 2 off 3 true

/-- A read of any form (R442, R443, R446); each register it covers answers. An AtomicOp or other request
ends with Unsupported Request: no data answers it. -/
def accessRead (s : State) (req : Requester) (w : Width) (off : Nat) : State :=
  let zero (s : State) : State := emit s (.readData req.id off 0)
  match w with
  | .none => zero s
  | .w8 | .w16 =>
    let (x, s) := readReg s req (off / 4 * 4) w
    emit s (.readData req.id off (narrowPart x off (narrowBytes w)))
  | .w32 => if off % 4 = 0 then answerRead s req off w else zero (accessError s req 2 off 3 false)
  | .w64 =>
    if off % 8 = 0 then answerRead (answerRead s req off w) req (off + 4) w else zero (accessError s req 2 off 3 false)
  | .unaligned => zero (accessError s req 2 off 3 false)
  | .unsupported => accessError s req 2 off 3 false

/-- REGISTER_WRITE (00/R14–R17, R442–R456): an access of any form to any offset of the window. -/
def execRegisterWrite (req : Requester) (write : Bool) (w : Width) (off v : Nat) (s : State) :
    Host.Outcome State Fault Refusal :=
  .next (if write then accessWrite s req w off v else accessRead s req w off)

/-- A write of an event register's SEQ: the row's share of register writes. -/
def eventAck (req : Requester) (off v : Nat) (s : State) : State :=
  match judgeWrite s req off with
  | .error k => accessError s req k off 2 true
  | .ok (r, _) => if hasSeq r then ackWrite s req off v else s

/-- EVENT_ACK (R458). -/
def execEventAck (req : Requester) (off v : Nat) (s : State) : Host.Outcome State Fault Refusal := .next (eventAck req off v s)

/-! ### REG_READ and REG_WRITE (12/R387) -/

/-- An offset that the commands may name. -/
def offsetFine (off : Nat) : Bool := off % 4 == 0 && decide (off ≤ 0x3FFFFFC)

/-- Read registers one after another, the words last first. -/
def readMany (req : Requester) : Nat → Nat → List Nat × State → List Nat × State
  | 0, _, a => a
  | n + 1, off, (l, s) =>
    let (x, s) := readReg s req off .w32
    readMany req n (off + 4) (x :: l, s)

/-- Consecutive registers read by a command. -/
def regRead (h : CmdHeader) (p : List Byte) (s : State) : State :=
  let off := leAt p 0 4
  let n := leAt p 4 2
  let fine := offsetFine off && decide (1 ≤ n) && decide (n ≤ 16384) && decide (off + 4 * (n - 1) ≤ 0x3FFFFFC)
  runAtOnce s 0x0004 h p 6 fine (fun s =>
    let r := readMany ⟨h.fn, true⟩ n off ([], s)
    (.ok (r.1.reverse.flatMap (le 4)), r.2))

/-- REG_READ (R387). -/
def execRegRead (h : CmdHeader) (p : List Byte) (s : State) : Host.Outcome State Fault Refusal := .next (regRead h p s)

/-- The event by which a block refuses a guarded write of one of its registers (15/R453). -/
def guardEvent (r : RegName) (ix : List Nat) : Option (RegName × List Nat × Nat) :=
  let i := ix.getD 0 0
  match r with
  | .tcamBlk => some (.tcamEvent, [i], 3)
  | .ownCfg0 => some (.crlEvent, [i], 3)
  | .eqCredit => some (.waleEvent, [], 0)
  | .macroMode => some (.lineEvent, [i], 3)
  | _ => none

/-- A flag of an event register was raised between two states. -/
def flagRaised (s t : State) (r : RegName) (ix : List Nat) (f : Nat) : Bool :=
  alook 65536 (eventAt s (r.addr ix)).raised f != alook 65536 (eventAt t (r.addr ix)).raised f

/-- The write that led from one state to the other was refused. -/
def writeRefused (s t : State) (off : Nat) : Bool :=
  (eventAt s (RegName.addr .accEvent [])).seq != (eventAt t (RegName.addr .accEvent [])).seq ||
  (match locate off with
  | some (r, ix) => match guardEvent r ix with
    | some (e, i, f) => flagRaised s t e i f
    | none => false
  | none => false)

/-- Writes in parameter order, and how many were refused. -/
def writeMany (req : Requester) : List (Nat × Nat) → Nat × State → Nat × State
  | [], a => a
  | (off, v) :: ws, (n, s) =>
    let t := writeReg s req off v
    writeMany req ws (n + b2n (writeRefused s t off), t)

/-- Registers written by a command. -/
def regWrite (h : CmdHeader) (p : List Byte) (s : State) : State :=
  let n := leAt p 0 2
  let ws := (List.range n).map (fun k => (leAt p (8 + 8 * k) 4, leAt p (12 + 8 * k) 4))
  let fine := decide (1 ≤ n) && decide (n ≤ 511) && ws.all (fun w => offsetFine w.1)
  runAtOnce s 0x0005 h p (8 + 8 * n) fine (fun s =>
    let r := writeMany ⟨h.fn, true⟩ ws (0, s)
    (.ok (le 2 r.1), r.2))

/-- REG_WRITE (R387). -/
def execRegWrite (h : CmdHeader) (p : List Byte) (s : State) : Host.Outcome State Fault Refusal := .next (regWrite h p s)

end Sys2Proof.Machine
end

