-- ==== Sys2Proof/Machine/Wale.lean ====
section
/-! DEFINITION. The meanings of WALE_MATCH and UNIT_ARRIVE: eligibility, units, the matching of 48 input to 48 output
feeds, and what each matched pair sends (07/R241–R247, R559). -/

namespace Sys2Proof.Machine

/-- A stretch of a queue's byte stream that may be sent: the frame, its bytes, and whether they reach its end. -/
structure Stretch where
  frame : Nat
  bytes : Nat
  whole : Bool
  tailBad : Bool
  deriving DecidableEq, Repr

/-- A frame is eligible: its tail is good or it is cut-through, and its port is neither closed nor in training (R241). -/
def eligible (s : State) (f : Frame) (port : Nat) : Bool :=
  (f.tail == .good || f.cut) && portUp s port && !portClosed s port

/-- The eligible byte stream of a queue, from what has crossed of its head. A cut-through frame whose tail has not come
gives whole units of the bytes that are stored (R243). -/
def streamOf (s : State) (port : Nat) : List Nat → Nat → List Stretch
  | [], _ => []
  | id :: r, off =>
    match frameAt s id with
    | none => streamOf s port r 0
    | some f =>
      if eligible s f port then
        if f.cut && f.tail == .pending then [⟨id, (storedBytes s f) / 256 * 256 - off, false, false⟩]
        else ⟨id, f.txLen - off, true, f.tail == .bad⟩ :: streamOf s port r 0
      else []

/-- The stream of a slice's queue. -/
def queueStream (s : State) (sl q : Nat) : List Stretch :=
  let c := storeAt s sl
  streamOf s (q / 8) (tget [] c.voq q) (tget 0 c.crossed q)

/-- Fill a unit from a stream: up to `sp` bytes in at most `n` segments; what is left of the stream. -/
def fillUnit : Nat → Nat → List Stretch → List Seg × List Stretch
  | 0, _, l => ([], l)
  | _, _, [] => ([], [])
  | n + 1, sp, t :: r =>
    if sp = 0 then ([], t :: r)
    else if t.whole then
      if t.bytes ≤ sp then
        let u := fillUnit n (sp - t.bytes) r
        (⟨t.frame, t.bytes, true, t.tailBad⟩ :: u.1, u.2)
      else ([⟨t.frame, sp, false, false⟩], { t with bytes := t.bytes - sp } :: r)
    else if sp = 256 ∧ 256 ≤ t.bytes then ([⟨t.frame, 256, false, false⟩], { t with bytes := t.bytes - 256 } :: r)
    else ([], t :: r)

/-- The first units of a stream, at most `n`. -/
def unitsOf : Nat → List Stretch → List (List Seg)
  | 0, _ => []
  | n + 1, l =>
    let u := fillUnit 5 256 l
    if u.1.isEmpty then [] else u.1 :: unitsOf n u.2

/-- A frame is in progress across a slice's queue (R246). -/
def inProgress (s : State) (sl q id : Nat) : Bool :=
  match frameAt s id with
  | none => false
  | some f => f.cut || (longFrame s f q && (tget [] (storeAt s sl).voq q).head? == some id
      && decide (0 < tget 0 (storeAt s sl).crossed q))

/-- The queues of a slice that hold frames for an egress slice. -/
def queuesTo (s : State) (i e : Nat) : List Nat :=
  ((storeAt s i).voq.filter (fun x => x.1 / 256 == e && !x.2.isEmpty)).map (·.1)

/-- Units a queue can form now, by its credit. -/
def formable (s : State) (i q : Nat) : List (List Seg) := unitsOf (min 6 (creditLeft s q)) (queueStream s i q)

/-- E[i][e]: units that slice `i` can form for slice `e`, at most 6 (R244). -/
def unitsE (s : State) (i e : Nat) : Nat :=
  min 6 (((queuesTo s i e).map (fun q => (formable s i q).length)).foldl (· + ·) 0)

/-- U[i][e]: those of frames in progress. -/
def unitsU (s : State) (i e : Nat) : Nat :=
  min (unitsE s i e) (((queuesTo s i e).map (fun q =>
    ((formable s i q).filter (fun u => (u.head?.map (fun g => inProgress s i q g.frame)).getD false)).length)).foldl
      (· + ·) 0)

/-! ### match() of R244 -/

/-- The matching being built: the output feed + 1 of each input feed, the input feed + 1 of each output feed, m[i][e], and
the pointers. -/
structure Matching where
  inm : Table Nat
  outm : Table Nat
  m : Table Nat
  gptr : Table Nat
  aptr : Table Nat
  deriving DecidableEq, Repr

/-- The sampled E and U, by slice pair. -/
structure Demand where
  e : Table Nat
  u : Table Nat
  deriving DecidableEq, Repr

/-- Key of a slice pair. -/
def pairKey (i e : Nat) : Nat := i * 8 + e

/-- Sample the demand of all 64 pairs. -/
def demand (s : State) : Demand :=
  let ks := (List.range 64)
  ⟨ks.foldl (fun t k => tput 0 t k (unitsE s (k / 8) (k % 8))) [],
   ks.foldl (fun t k => tput 0 t k (unitsU s (k / 8) (k % 8))) []⟩

/-- Input feed `f` requests output feed `g`. -/
def wants (d : Demand) (x : Matching) (f g : Nat) : Bool :=
  tget 0 x.inm f == 0 && tget 0 x.outm g == 0 &&
    decide (tget 0 x.m (pairKey (f / 6) (g / 6)) < tget 0 d.e (pairKey (f / 6) (g / 6)))

/-- The request is urgent. -/
def urgent (d : Demand) (x : Matching) (f g : Nat) : Bool :=
  decide (tget 0 x.m (pairKey (f / 6) (g / 6)) < tget 0 d.u (pairKey (f / 6) (g / 6)))

/-- The first of the 48 feeds at or after a pointer that a predicate accepts. -/
def firstAt (ptr : Nat) (p : Nat → Bool) : Option Nat := ((List.range 48).map (fun k => (ptr + k) % 48)).find? p

/-- The grant of an output feed: an urgent requester if there is one, else any. -/
def grantOf (d : Demand) (x : Matching) (g : Nat) : Option Nat :=
  let ptr := tget 0 x.gptr g
  match firstAt ptr (fun f => wants d x f g && urgent d x f g) with
  | some f => some f
  | none => firstAt ptr (fun f => wants d x f g)

/-- Input feed `f` accepts one of the grants it holds; `x0` is the matching the requests were made on. -/
def acceptOne (d : Demand) (x0 : Matching) (grants : Table Nat) (first : Bool) (x : Matching) (f : Nat) : Matching :=
  if tget 0 x.inm f ≠ 0 then x
  else
    let i := f / 6
    let holds := fun g => tfind grants g == some f &&
      decide (tget 0 x.m (pairKey i (g / 6)) < tget 0 d.e (pairKey i (g / 6)))
    let ptr := tget 0 x.aptr f
    let pick := match firstAt ptr (fun g => holds g && urgent d x0 f g) with
      | some g => some g
      | none => firstAt ptr holds
    match pick with
    | none => x
    | some g =>
      let x := { x with inm := tins x.inm f (g + 1), outm := tins x.outm g (f + 1),
                        m := tmod 0 x.m (pairKey i (g / 6)) (· + 1) }
      if first then { x with gptr := tput 0 x.gptr g ((f + 1) % 48), aptr := tput 0 x.aptr f ((g + 1) % 48) } else x

/-- One iteration: requests and grants on the matching as it stands, then accepts in ascending order. -/
def matchRound (d : Demand) (first : Bool) (x : Matching) : Matching :=
  let grants := (List.range 48).foldl (fun t g => match grantOf d x g with | some f => tins t g f | none => t) []
  (List.range 48).foldl (acceptOne d x grants first) x

/-- match(): three iterations. -/
def matchFeeds (d : Demand) (w : WaleState) : Matching :=
  matchRound d false (matchRound d false (matchRound d true ⟨[], [], [], w.gptr, w.aptr⟩))

/-! ### What a pair sends (R246) -/

/-- The queue a pair serves, and whether the round-robin pointer chose it: units of frames in progress first, oldest
admission first; then the highest class, and in it the ports in turn. -/
def serveQueue (s : State) (i e : Nat) : Option (Nat × Bool) :=
  let qs := (queuesTo s i e).filter (fun q => !(formable s i q).isEmpty)
  let head := fun q => ((formable s i q).head?.bind List.head?).map Seg.frame
  let urg := qs.filter (fun q => match head q with | some id => inProgress s i q id | none => false)
  let age := fun q => match (head q).bind (frameAt s) with | some f => f.admitNo | none => 0
  match leastBy age urg with
  | some q => some (q, false)
  | none =>
    match mostBy (fun q => q % 8) qs with
    | none => none
    | some top =>
      let c := top % 8
      let ptr := tget 0 (storeAt s i).rr (c * 8 + e)
      ((List.range 32).map (fun k => (e * 32 + (ptr + k) % 32) * 8 + c)).find? (fun q => qs.contains q)
        |>.map (fun q => (q, true))

/-- A frame's last unit has crossed: a unicast frame gives up its reference on the cells. -/
def crossedWhole (s : State) (id : Nat) : State := onFrame s id (fun f => if f.mc then s else dropRef s id)

/-- Slice `i` sends one unit to slice `e`. -/
def sendUnit (s : State) (i e : Nat) : State :=
  match serveQueue s i e with
  | none => s
  | some (q, turn) =>
    let u := fillUnit 5 256 (queueStream s i q)
    let ended := (u.1.filter Seg.ends).map Seg.frame
    let s := modStore s i (fun c =>
      let l := tget [] c.voq q
      let left := l.drop ended.length
      let tail := (u.1.getLast?.map (fun g => if g.ends then 0 else g.bytes)).getD 0
      let off := if ended.isEmpty then tget 0 c.crossed q + tail else tail
      { c with voq := tput [] c.voq q left, crossed := tput 0 c.crossed q off,
               rr := if turn then tput 0 c.rr (q % 8 * 8 + e) ((q / 8 % 32 + 1) % 32) else c.rr })
    let s := bump (cntSl s i 0x284) (i + 1) 0x286 ((u.1.map Seg.bytes).foldl (· + ·) 0)
    let s := { s with wale := { s.wale with flight := s.wale.flight ++ [⟨i, q, u.1⟩] } }
    ended.foldl crossedWhole s

/-- The pairs send in ascending input feed order. -/
def sendMatched (s : State) (x : Matching) : State :=
  (List.range 48).foldl (fun s f =>
    match tget 0 x.inm f with
    | 0 => s
    | g + 1 => sendUnit s (f / 6) (g / 6)) s

/-- One cell time of the crossbar, after an uncorrectable descriptor, if one is read. -/
def waleMatch (ue : Option (Nat × Nat)) (s : State) : State :=
  let s := match ue with | some (id, reach) => descUe s id reach | none => s
  let x := matchFeeds (demand s) s.wale
  sendMatched { s with wale := { s.wale with gptr := x.gptr, aptr := x.aptr } } x

/-- WALE_MATCH (R244, R246). -/
def execWaleMatch (ue : Option (Nat × Nat)) (s : State) : Host.Outcome State Fault Refusal := .next (waleMatch ue s)

/-- The oldest unit in flight from a slice to an egress queue reaches its buffer (R247, R559). -/
def unitArrive (sl port cls : Nat) (s : State) : State :=
  match s.wale.flight.find? (fun u => u.slice == sl && u.eq == eqNum port cls) with
  | none => s
  | some u =>
    let s := { s with wale := { s.wale with flight := s.wale.flight.erase u } }
    judgeHeads (unitHeld (u.segs.foldl (fun s g => segArrives s sl u.eq g) s) u) port cls

/-- UNIT_ARRIVE (R247, R559). -/
def execUnitArrive (sl port cls : Nat) (s : State) : Host.Outcome State Fault Refusal := .next (unitArrive sl port cls s)

end Sys2Proof.Machine
end

