-- ==== Sys2Proof/Machine/Dispatch.lean ====
section
/-! DEFINITION. One arm per command: its meaning. -/

namespace Sys2Proof.Machine

/-- The effect of a command on everything but the queue. -/
def exec (i : Instr) (s : State) : Host.Outcome State Fault Refusal :=
  match i with
  | .frameReceive port bytes errored => Sys2Proof.Machine.execFrameReceive port bytes errored s
  | .frameTail frame => Sys2Proof.Machine.execFrameTail frame s
  | .headParse slice ue => Sys2Proof.Machine.execHeadParse slice ue s
  | .classify frame faults => Sys2Proof.Machine.execClassify frame faults s
  | .flowLookup frame faults => Sys2Proof.Machine.execFlowLookup frame faults s
  | .tagLineRead frame ecc bad => Sys2Proof.Machine.execTagLineRead frame ecc bad s
  | .recordBurstsRead frame ecc => Sys2Proof.Machine.execRecordBurstsRead frame ecc s
  | .writeBackDone bank entry => Sys2Proof.Machine.execWriteBackDone bank entry s
  | .learnRequest frame => Sys2Proof.Machine.execLearnRequest frame s
  | .fitchLearn ue => Sys2Proof.Machine.execFitchLearn ue s
  | .rewrite frame ue => Sys2Proof.Machine.execRewrite frame ue s
  | .policerMeter frame ue => Sys2Proof.Machine.execPolicerMeter frame ue s
  | .cellAdmit slice flips => Sys2Proof.Machine.execCellAdmit slice flips s
  | .waleMatch ue => Sys2Proof.Machine.execWaleMatch ue s
  | .unitArrive slice port cls => Sys2Proof.Machine.execUnitArrive slice port cls s
  | .egressPick port ue => Sys2Proof.Machine.execEgressPick port ue s
  | .frameSent port => Sys2Proof.Machine.execFrameSent port s
  | .correction index zoneUe => Sys2Proof.Machine.execCorrection index zoneUe s
  | .twinNotice index => Sys2Proof.Machine.execTwinNotice index s
  | .multicastReplicate slice => Sys2Proof.Machine.execMulticastReplicate slice s
  | .deepScan slice => Sys2Proof.Machine.execDeepScan slice s
  | .puntDeliver channel source => Sys2Proof.Machine.execPuntDeliver channel source s
  | .l2Learn slice ue => Sys2Proof.Machine.execL2Learn slice ue s
  | .l2AgingPass slice ue => Sys2Proof.Machine.execL2AgingPass slice ue s
  | .tcamScrub slice ecc => Sys2Proof.Machine.execTcamScrub slice ecc s
  | .activityTick => Sys2Proof.Machine.execActivityTick s
  | .agingSweepBatch count ue tags => Sys2Proof.Machine.execAgingSweepBatch count ue tags s
  | .endRequest => Sys2Proof.Machine.execEndRequest s
  | .migrationDecision => Sys2Proof.Machine.execMigrationDecision s
  | .groupMoveBucket => Sys2Proof.Machine.execGroupMoveBucket s
  | .skeinPcRetire => Sys2Proof.Machine.execSkeinPcRetire s
  | .epochBoundary burnFails => Sys2Proof.Machine.execEpochBoundary burnFails s
  | .epochSyncPulse burnFails => Sys2Proof.Machine.execEpochSyncPulse burnFails s
  | .syncTimeout burnFails => Sys2Proof.Machine.execSyncTimeout burnFails s
  | .drainComplete => Sys2Proof.Machine.execDrainComplete s
  | .drainLimit => Sys2Proof.Machine.execDrainLimit s
  | .closeSweepBucket ue tag zones => Sys2Proof.Machine.execCloseSweepBucket ue tag zones s
  | .hashComplete ue => Sys2Proof.Machine.execHashComplete ue s
  | .sealSigned => Sys2Proof.Machine.execSealSigned s
  | .imageZeroed burnFails => Sys2Proof.Machine.execImageZeroed burnFails s
  | .standbyCloseWake failed => Sys2Proof.Machine.execStandbyCloseWake failed s
  | .nop h p => Sys2Proof.Machine.execNop h p s
  | .abort h p => Sys2Proof.Machine.execAbort h p s
  | .devInfo h p => Sys2Proof.Machine.execDevInfo h p s
  | .chainEnum h p => Sys2Proof.Machine.execChainEnum h p s
  | .regRead h p => Sys2Proof.Machine.execRegRead h p s
  | .regWrite h p => Sys2Proof.Machine.execRegWrite h p s
  | .commit h p ue => Sys2Proof.Machine.execCommit h p ue s
  | .versionSwitch => Sys2Proof.Machine.execVersionSwitch s
  | .abandon h p => Sys2Proof.Machine.execAbandon h p s
  | .versionInfo h p => Sys2Proof.Machine.execVersionInfo h p s
  | .stepWrite h p => Sys2Proof.Machine.execStepWrite h p s
  | .transWrite h p => Sys2Proof.Machine.execTransWrite h p s
  | .accmapAdd h p => Sys2Proof.Machine.execAccmapAdd h p s
  | .accmapDel h p => Sys2Proof.Machine.execAccmapDel h p s
  | .patternAdd h p => Sys2Proof.Machine.execPatternAdd h p s
  | .patternDel h p => Sys2Proof.Machine.execPatternDel h p s
  | .tcamAdd h p => Sys2Proof.Machine.execTcamAdd h p s
  | .tcamInsert h p ue => Sys2Proof.Machine.execTcamInsert h p ue s
  | .tcamDelete h p => Sys2Proof.Machine.execTcamDelete h p s
  | .tcamRead h p => Sys2Proof.Machine.execTcamRead h p s
  | .dtWrite h p => Sys2Proof.Machine.execDtWrite h p s
  | .vlanWrite h p => Sys2Proof.Machine.execVlanWrite h p s
  | .dtRead h p => Sys2Proof.Machine.execDtRead h p s
  | .pfxAdd h p => Sys2Proof.Machine.execPfxAdd h p s
  | .pfxDel h p => Sys2Proof.Machine.execPfxDel h p s
  | .pfxLookup h p => Sys2Proof.Machine.execPfxLookup h p s
  | .macSearch h p ue => Sys2Proof.Machine.execMacSearch h p ue s
  | .macNext h p ue => Sys2Proof.Machine.execMacNext h p ue s
  | .macStaticAdd h p ue => Sys2Proof.Machine.execMacStaticAdd h p ue s
  | .macStaticDel h p ue => Sys2Proof.Machine.execMacStaticDel h p ue s
  | .macFlushPort h p stops => Sys2Proof.Machine.execMacFlushPort h p stops s
  | .flowLookupKey h p ue tag => Sys2Proof.Machine.execFlowLookupKey h p ue tag s
  | .flowLookupHandle h p ue tag => Sys2Proof.Machine.execFlowLookupHandle h p ue tag s
  | .flowIterate h p ue tags => Sys2Proof.Machine.execFlowIterate h p ue tags s
  | .flowDeleteKey h p ue tag => Sys2Proof.Machine.execFlowDeleteKey h p ue tag s
  | .flowFlush h p stops ue tags => Sys2Proof.Machine.execFlowFlush h p stops ue tags s
  | .natAddrWrite h p => Sys2Proof.Machine.execNatAddrWrite h p s
  | .natPoolWrite h p => Sys2Proof.Machine.execNatPoolWrite h p s
  | .natSubLookup h p ue => Sys2Proof.Machine.execNatSubLookup h p ue s
  | .lbTargetWrite h p ue => Sys2Proof.Machine.execLbTargetWrite h p ue s
  | .lbPoolReplace h p bad ue => Sys2Proof.Machine.execLbPoolReplace h p bad ue s
  | .lbTargetRemove h p ue => Sys2Proof.Machine.execLbTargetRemove h p ue s
  | .lbTargetRead h p ue => Sys2Proof.Machine.execLbTargetRead h p ue s
  | .cntSnapshot h p => Sys2Proof.Machine.execCntSnapshot h p s
  | .commandFetch bytes => Sys2Proof.Machine.execCommandFetch bytes s
  | .itemDispatch => Sys2Proof.Machine.execItemDispatch s
  | .commandStepEnd engine cursor words error => Sys2Proof.Machine.execCommandStepEnd engine cursor words error s
  | .stepOverrun engine uaddr => Sys2Proof.Machine.execStepOverrun engine uaddr s
  | .engHang engine uaddr cursor => Sys2Proof.Machine.execEngHang engine uaddr cursor s
  | .schedulerTick => Sys2Proof.Machine.execSchedulerTick s
  | .replyWrite hp ring => Sys2Proof.Machine.execReplyWrite hp ring s
  | .natBlockSweep => Sys2Proof.Machine.execNatBlockSweep s
  | .withyFold => Sys2Proof.Machine.execWithyFold s
  | .ipfixTemplate collector => Sys2Proof.Machine.execIpfixTemplate collector s
  | .ipfixFlush collector => Sys2Proof.Machine.execIpfixFlush collector s
  | .chainToken port value => Sys2Proof.Machine.execChainToken port value s
  | .chainCommandRelay port h p => Sys2Proof.Machine.execChainCommandRelay port h p s
  | .chainReply port dev fn tag opcode status partMask cursor data => Sys2Proof.Machine.execChainReply port dev fn tag opcode status partMask cursor data s
  | .chainAckTimeout dev tag => Sys2Proof.Machine.execChainAckTimeout dev tag s
  | .chainLinkChange port up peer lost => Sys2Proof.Machine.execChainLinkChange port up peer lost s
  | .hostLinkUp hp gen width => Sys2Proof.Machine.execHostLinkUp hp gen width s
  | .hostLinkDown hp => Sys2Proof.Machine.execHostLinkDown hp s
  | .functionLevelReset fn => Sys2Proof.Machine.execFunctionLevelReset fn s
  | .perst hp => Sys2Proof.Machine.execPerst hp s
  | .semaphoreAcquire req offset wide => Sys2Proof.Machine.execSemaphoreAcquire req offset wide s
  | .semaphoreRelease req offset value => Sys2Proof.Machine.execSemaphoreRelease req offset value s
  | .semaphoreForceRelease req offset value => Sys2Proof.Machine.execSemaphoreForceRelease req offset value s
  | .crPiWrite req offset value => Sys2Proof.Machine.execCrPiWrite req offset value s
  | .ringCiWrite req offset value => Sys2Proof.Machine.execRingCiWrite req offset value s
  | .ringEnable req offset value => Sys2Proof.Machine.execRingEnable req offset value s
  | .ringDisable req offset value => Sys2Proof.Machine.execRingDisable req offset value s
  | .ringRestart req offset value => Sys2Proof.Machine.execRingRestart req offset value s
  | .dmaEnable req offset value => Sys2Proof.Machine.execDmaEnable req offset value s
  | .dmaDisable req offset value => Sys2Proof.Machine.execDmaDisable req offset value s
  | .dmaStart req offset value => Sys2Proof.Machine.execDmaStart req offset value s
  | .dmaResume req offset value => Sys2Proof.Machine.execDmaResume req offset value s
  | .dmaKick req offset value => Sys2Proof.Machine.execDmaKick req offset value s
  | .dmaDescriptor channel bytes fetch data read remote => Sys2Proof.Machine.execDmaDescriptor channel bytes fetch data read remote s
  | .cqCiWrite req offset value => Sys2Proof.Machine.execCqCiWrite req offset value s
  | .cqEnable req offset value => Sys2Proof.Machine.execCqEnable req offset value s
  | .dmaGraceExpire channel => Sys2Proof.Machine.execDmaGraceExpire channel s
  | .tdSet req offset value => Sys2Proof.Machine.execTdSet req offset value s
  | .tdAdjust req offset value => Sys2Proof.Machine.execTdAdjust req offset value s
  | .tdRate req offset value => Sys2Proof.Machine.execTdRate req offset value s
  | .servedSet req offset value => Sys2Proof.Machine.execServedSet req offset value s
  | .selWrite req offset value => Sys2Proof.Machine.execSelWrite req offset value s
  | .serveTick => Sys2Proof.Machine.execServeTick s
  | .timeRefLoss => Sys2Proof.Machine.execTimeRefLoss s
  | .timeRefRestore => Sys2Proof.Machine.execTimeRefRestore s
  | .toutArm req offset value => Sys2Proof.Machine.execToutArm req offset value s
  | .toutWithdraw req offset value => Sys2Proof.Machine.execToutWithdraw req offset value s
  | .timeOutEdge pin => Sys2Proof.Machine.execTimeOutEdge pin s
  | .timeInEdge pin rising => Sys2Proof.Machine.execTimeInEdge pin rising s
  | .tinPop req offset value => Sys2Proof.Machine.execTinPop req offset value s
  | .snapshot req offset value => Sys2Proof.Machine.execSnapshot req offset value s
  | .atTimeApply offset => Sys2Proof.Machine.execAtTimeApply offset s
  | .portEnable req offset value => Sys2Proof.Machine.execPortEnable req offset value s
  | .portDisable req offset value => Sys2Proof.Machine.execPortDisable req offset value s
  | .retry req offset value => Sys2Proof.Machine.execRetry req offset value s
  | .retrain req offset value => Sys2Proof.Machine.execRetrain req offset value s
  | .attemptStart port => Sys2Proof.Machine.execAttemptStart port s
  | .portAttemptEnd port an lt locked lanes => Sys2Proof.Machine.execPortAttemptEnd port an lt locked lanes s
  | .attemptTimeout port an lanes => Sys2Proof.Machine.execAttemptTimeout port an lanes s
  | .linkDrop port cause => Sys2Proof.Machine.execLinkDrop port cause s
  | .fecIntervalEnd port corr uncorr sym => Sys2Proof.Machine.execFecIntervalEnd port corr uncorr sym s
  | .fomMeasure lane snr taps => Sys2Proof.Machine.execFomMeasure lane snr taps s
  | .lpiEnter port => Sys2Proof.Machine.execLpiEnter port s
  | .lpiWake port => Sys2Proof.Machine.execLpiWake port s
  | .lpiRx port => Sys2Proof.Machine.execLpiRx port s
  | .macroModeWrite req offset value => Sys2Proof.Machine.execMacroModeWrite req offset value s
  | .loopWrite req offset value => Sys2Proof.Machine.execLoopWrite req offset value s
  | .testEnWrite req offset value => Sys2Proof.Machine.execTestEnWrite req offset value s
  | .prbsClr req offset value => Sys2Proof.Machine.execPrbsClr req offset value s
  | .injOne req offset value => Sys2Proof.Machine.execInjOne req offset value s
  | .prsIndGo req offset value ecc => Sys2Proof.Machine.execPrsIndGo req offset value ecc s
  | .tcamIndGo req offset value ecc => Sys2Proof.Machine.execTcamIndGo req offset value ecc s
  | .gclIndGo req offset value ecc => Sys2Proof.Machine.execGclIndGo req offset value ecc s
  | .polIndGo req offset value ecc => Sys2Proof.Machine.execPolIndGo req offset value ecc s
  | .laneIndGo req offset value => Sys2Proof.Machine.execLaneIndGo req offset value s
  | .totIndGo req offset value ecc => Sys2Proof.Machine.execTotIndGo req offset value ecc s
  | .hbmIndGo req offset value ecc => Sys2Proof.Machine.execHbmIndGo req offset value ecc s
  | .gmapDataRead req wide => Sys2Proof.Machine.execGmapDataRead req wide s
  | .sealIndDataRead req wide => Sys2Proof.Machine.execSealIndDataRead req wide s
  | .mcIndDataRead req wide => Sys2Proof.Machine.execMcIndDataRead req wide s
  | .ifrAddrWrite req offset value => Sys2Proof.Machine.execIfrAddrWrite req offset value s
  | .cntAddrWrite req offset value => Sys2Proof.Machine.execCntAddrWrite req offset value s
  | .cntDataHiRead req wide => Sys2Proof.Machine.execCntDataHiRead req wide s
  | .cntChainWrite req offset value => Sys2Proof.Machine.execCntChainWrite req offset value s
  | .eventAck req offset value => Sys2Proof.Machine.execEventAck req offset value s
  | .tcamBlkWrite req offset value => Sys2Proof.Machine.execTcamBlkWrite req offset value s
  | .ownCfgWrite req offset value => Sys2Proof.Machine.execOwnCfgWrite req offset value s
  | .eqCreditWrite req offset value => Sys2Proof.Machine.execEqCreditWrite req offset value s
  | .shaperEnable req offset value => Sys2Proof.Machine.execShaperEnable req offset value s
  | .shaperRateWrite req offset value => Sys2Proof.Machine.execShaperRateWrite req offset value s
  | .gclArm req offset value => Sys2Proof.Machine.execGclArm req offset value s
  | .gclWithdraw req offset value => Sys2Proof.Machine.execGclWithdraw req offset value s
  | .gclTakeover port => Sys2Proof.Machine.execGclTakeover port s
  | .gateEntryChange port ue => Sys2Proof.Machine.execGateEntryChange port ue s
  | .glbLockWrite req offset value => Sys2Proof.Machine.execGlbLockWrite req offset value s
  | .boardIdWrite req offset value => Sys2Proof.Machine.execBoardIdWrite req offset value s
  | .tagSeedWrite req offset value => Sys2Proof.Machine.execTagSeedWrite req offset value s
  | .resetWp req offset value => Sys2Proof.Machine.execResetWp req offset value s
  | .trcCfgWrite req offset value => Sys2Proof.Machine.execTrcCfgWrite req offset value s
  | .traceBlockClose => Sys2Proof.Machine.execTraceBlockClose s
  | .registerWrite req write width offset value => Sys2Proof.Machine.execRegisterWrite req write width offset value s
  | .glbResetReq req offset value => Sys2Proof.Machine.execGlbResetReq req offset value s
  | .hbmRetireWrite req offset value => Sys2Proof.Machine.execHbmRetireWrite req offset value s
  | .standbyRequest req offset value => Sys2Proof.Machine.execStandbyRequest req offset value s
  | .standbyIdle => Sys2Proof.Machine.execStandbyIdle s
  | .standbyAbandoned => Sys2Proof.Machine.execStandbyAbandoned s
  | .wake req offset value failed => Sys2Proof.Machine.execWake req offset value failed s
  | .macroPowerDown req offset value => Sys2Proof.Machine.execMacroPowerDown req offset value s
  | .macroPowerUp req offset value => Sys2Proof.Machine.execMacroPowerUp req offset value s
  | .chipletPowerDown req offset value => Sys2Proof.Machine.execChipletPowerDown req offset value s
  | .chipletPowerUp req offset value => Sys2Proof.Machine.execChipletPowerUp req offset value s
  | .stackPowerDown req offset value => Sys2Proof.Machine.execStackPowerDown req offset value s
  | .deviceStart info => Sys2Proof.Machine.execDeviceStart info s
  | .startFailTimeout => Sys2Proof.Machine.execStartFailTimeout s
  | .powerOnReset => Sys2Proof.Machine.execPowerOnReset s
  | .watchdogExpire => Sys2Proof.Machine.execWatchdogExpire s
  | .supplyFault rail value => Sys2Proof.Machine.execSupplyFault rail value s
  | .sensorPoll temps volts => Sys2Proof.Machine.execSensorPoll temps volts s
  | .pmbusPoll status => Sys2Proof.Machine.execPmbusPoll status s
  | .tamperAssert => Sys2Proof.Machine.execTamperAssert s
  | .tamperRelease => Sys2Proof.Machine.execTamperRelease s
  | .info mbx => Sys2Proof.Machine.execInfo mbx s
  | .logRead mbx => Sys2Proof.Machine.execLogRead mbx s
  | .certRead mbx => Sys2Proof.Machine.execCertRead mbx s
  | .attest mbx => Sys2Proof.Machine.execAttest mbx s
  | .sensorRead mbx => Sys2Proof.Machine.execSensorRead mbx s
  | .imgBegin mbx => Sys2Proof.Machine.execImgBegin mbx s
  | .imgData mbx => Sys2Proof.Machine.execImgData mbx s
  | .imgEnd mbx => Sys2Proof.Machine.execImgEnd mbx s
  | .imgConfirm mbx burnFails => Sys2Proof.Machine.execImgConfirm mbx burnFails s
  | .lifecycle mbx burnFails => Sys2Proof.Machine.execLifecycle mbx burnFails s
  | .reset mbx => Sys2Proof.Machine.execReset mbx s
  | .boardWrite mbx => Sys2Proof.Machine.execBoardWrite mbx s
  | .logFlush => Sys2Proof.Machine.execLogFlush s
  | .hbmRecal pc r w sweep => Sys2Proof.Machine.execHbmRecal pc r w sweep s
  | .hbmCaParity channel inRow window => Sys2Proof.Machine.execHbmCaParity channel inRow window s
  | .hbmRefresh pc => Sys2Proof.Machine.execHbmRefresh pc s
  | .patrolScrub pc ecc => Sys2Proof.Machine.execPatrolScrub pc ecc s
  | .mergeRegisterRelease slot => Sys2Proof.Machine.execMergeRegisterRelease slot s
  | .coldHomeWritten bucket => Sys2Proof.Machine.execColdHomeWritten bucket s
  | .secondBurstRead coldIndex ecc => Sys2Proof.Machine.execSecondBurstRead coldIndex ecc s
  | .listRebuildDone slice => Sys2Proof.Machine.execListRebuildDone slice s
  | .statisticsWindowEnd => Sys2Proof.Machine.execStatisticsWindowEnd s
  | .chainAck dev tag => Sys2Proof.Machine.execChainAck dev tag s
  | .chainCredit port => Sys2Proof.Machine.execChainCredit port s
  | .enumerationComplete devices overflow => Sys2Proof.Machine.execEnumerationComplete devices overflow s
  | .prbsLock lane symbols => Sys2Proof.Machine.execPrbsLock lane symbols s
  | .prbsLostLock lane errors => Sys2Proof.Machine.execPrbsLostLock lane errors s
  | .periodicInjection lane => Sys2Proof.Machine.execPeriodicInjection lane s
  | .rxLpiExit port => Sys2Proof.Machine.execRxLpiExit port s
  | .crystalLoss => Sys2Proof.Machine.execCrystalLoss s
  | .crystalReturn => Sys2Proof.Machine.execCrystalReturn s
  | .attentionWaitLimit => Sys2Proof.Machine.execAttentionWaitLimit s
  | .closeWaitLimit => Sys2Proof.Machine.execCloseWaitLimit s
  | .tapInstruction op => Sys2Proof.Machine.execTapInstruction op s
  | .suppliesRemoved => Sys2Proof.Machine.execSuppliesRemoved s

end Sys2Proof.Machine
end

