-- ==== Sys2Proof/Safety.lean ====
section
/-! DEFINITION. What counts as a safe run, in the terms the statements use: the invariant of the states (sizes of the fixed
arrays, bounds of one-time memory, the form of the counter banks), what one-time memory may do, which registers hold plain
fields, and when a command of the host runs alone. -/

namespace Sys2Proof

open Machine

/-- Two contents of the secure OTP, the second reached from the first by burning (16/R469, Table 16-4): the fixed fields
stand, the lifecycle and both counters never go back, and an attestation key, once burned, stays. -/
def OtpBurns (a b : Otp) : Prop :=
  b.deviceId = a.deviceId ∧ b.rootHash = a.rootHash ∧ b.dik = a.dik ∧
  a.lifecycle ≤ b.lifecycle ∧ a.rollback ≤ b.rollback ∧ a.sessions ≤ b.sessions ∧
  (a.dak.isSome → b.dak = a.dak)

/-- The counters of the secure OTP lie within the steps Table 16-4 gives them, its lifecycle is one of the four, and only
PROVISION and SEAL ever pend (16/R476). -/
def OtpBounds (s : State) : Prop :=
  s.rim.otp.lifecycle ≤ 3 ∧ s.rim.otp.rollback ≤ 1024 ∧ s.rim.otp.sessions ≤ 16384 ∧ s.rim.pendingLc ≤ 2

/-- The banks of counters are in canonical form and every count fits 48 bits (17/R488). -/
def CountersFit (c : CounterState) : Prop :=
  twf 0 c.counts = true ∧ twf false c.chained = true ∧ ∀ e ∈ c.counts, e.2 < 2 ^ 48

/-- The parts that the device has a fixed number of: two time domains, four pins each way (10/R322, R340, R342), two host
ports (12/R366), four ready lists and twelve engines (13/R395, R408), two chain ports (12/R390), eight learn queues
(02/R27), four mailboxes and two image slots (16/R467, R487). -/
def FixedParts (s : State) : Prop :=
  s.time.domains.length = 2 ∧ s.time.outs.length = 4 ∧ s.time.ins.length = 4 ∧ s.host.ports.length = 2 ∧
  s.sched.ready.length = 4 ∧ s.sched.engines.length = 12 ∧ s.chain.up.length = 2 ∧ s.chain.credits.length = 2 ∧
  s.skein.learnQ.length = 8 ∧ s.rim.boxes.length = 4 ∧ s.rim.slots.length = 2

/-- The frames in flight are listed by rising number, each number below the next one to be given (01/R22; the numbers are
the model's own names for frames). -/
def FramesListed (s : State) : Prop := tsorted s.frames = true ∧ ∀ e ∈ s.frames, e.1 < s.nextFrame

/-- The three images of an epoch's totals are in canonical form: an entry is listed exactly when a total is not zero
(09/R293). -/
def ImagesKept (l : LidState) : Prop :=
  twf Counts.zero l.zones = true ∧ twf ⟨Counts.zero, Counts.zero⟩ l.ports = true ∧ twf Counts.zero l.classes = true

/-- The invariant of the states. -/
structure Inv (s : State) : Prop where
  otp : OtpBounds s
  counters : CountersFit s.counters
  parts : FixedParts s
  frames : FramesListed s
  images : ImagesKept s.lid

/-- Registers whose write does more than land in a shadow, beside event registers and COMMIT registers. -/
def actingRegs : List RegName :=
  [.tsCfg, .tsRxAdj, .tsTxAdj, .tdCtl, .timeCtl, .toutCtl, .tinPop, .snapCtl, .portCtl, .macroMode, .laneCfg,
   .laneTest, .laneIndCtl, .pwrMacro,
   .pwrChiplet, .pwrStack, .pwrCtl, .glbResetReq] ++
  [.shqCfg, .egrPortCfg, .shqRate, .shqBurst, .shpRate, .shpBurst, .ownCfg0, .ownCfg1, .eqCredit, .gclIndCtl, .gclAdmin,
   .polIndCtl] ++
  [.crCfg, .rrCfg, .erCfg, .crPi, .rrCi, .erCi, .hpRingOwn, .sem, .dmaCtl, .cqCi, .dmaOwn, .puntMap, .chainCfg, .mbxCtl] ++
  [.prsIndCtl, .tcamIndCtl, .totIndCtl, .sealIndAddr, .tcamBlk, .glbLock, .boardId, .ifrAddr, .cntAddr, .cntChainDev,
   .cntChainSl, .tagSeed, .trcCfg, .hbmRetire, .hbmIndCtl, .expColCtl, .polLast]

/-- A register whose fields only hold what is written: no acting register, no event register, no COMMIT field. -/
def plainReg (r : RegName) : Bool :=
  !actingRegs.contains r && !hasSeq r && !r.desc.fields.any (fun f => f.applies == .commit)

/-- A 32-bit write by this requester at this offset reaches this register: no rule of chapter 15 refuses it. -/
def Reaches (s : State) (req : Requester) (off : Nat) (r : RegName) (ix : List Nat) : Prop :=
  judgeWrite s req off = .ok (r, ix)

/-- A Yelelle command sent to this device that its checks pass and that runs when it is sent (12/R376–R379, Table 12-4): its
opcode is the row's; neither START_DONE nor an item of its own nor entries for parts are waited for; the device answers it, on a host port whose
reply ring is enabled and whose reply buffer holds the longest reply; no orderly reset is under way. -/
structure CommandRuns (s : State) (op : Nat) (h : CmdHeader) (p : List Byte) (len : Nat) (fine : Bool) : Prop where
  opcode : h.opcode = op
  unheld : engineOf s (isCommand h p) = none
  unlisted : itemWaits s (isCommand h p) = false
  started : startWaits s op = false
  here : ownDevice s h = true
  host : h.viaChain = none
  ring : h.replyRing < lostRing
  enabled : (ringAt s (h.fn / 2) 1 h.replyRing).en = true
  room : replyRoom s (h.fn / 2) 65536 = true
  calm : s.rim.transition = none
  roomy : partsWait s h = false
  passes : commandFails s h p len fine = none

/-- Such a command with nothing else in the scheduler. -/
structure RunsAlone (s : State) (op : Nat) (h : CmdHeader) (p : List Byte) (len : Nat) (fine : Bool) : Prop where
  runs : CommandRuns s op h p len fine
  empty : s.sched.items = []

/-- A state with the reply of an answer placed in its command's host port's reply buffer (12/R373, R379). -/
def answered (t : State) (h : CmdHeader) (a : Answer) : State := placeReply t (replyOf h false a)

end Sys2Proof
end

