-- ==== Sys2Proof/Certificates/Slice0/Obligations.lean ====
section
/-! DEFINITION. The statements for the provers: what the numbered rules of the spec say that the device does, command by
command, and what every step keeps. -/

open Sys2Proof Sys2Proof.Machine

/-- For every command c and every state s, the step of s with c put in front of its queue is exec of c on s: the
command's effect on the state that holds the rest of the queue. With an empty queue the step answers the same state:
time moves only by the command SERVE_TICK (the model's choice, log entry 1). Every command completes in every state:
exec answers a next state, never a fault or a refusal (log entry 3). -/
def Obligations.StepRunsTheFrontCommand : Prop :=
  (∀ (s : State) (c : Instr), step { s with pending := c :: s.pending } = exec c s) ∧
  (∀ s : State, s.pending = [] → step s = .next s) ∧
  ∀ (c : Instr) (s : State), ∃ t, exec c s = .next t

/-- After reset every register of the window holds the Reset column of its map, written and in force; the tick counter
is 0; both time domains have base 0, anchor 0 and the nominal rate 0xCCCC_CCCD; served time is UNSET; no event flag
is raised; every counter is 0; every semaphore is free; no flow record, no frame and no rule version but 0 exists;
and no line port is past LINK_FAILED. -/
def Obligations.WhatResetLeaves : Prop :=
  (∀ (r : RegName) (ix : List Nat), regCell State.reset r ix = ⟨r.desc.resetWord, r.desc.resetWord, false⟩) ∧
  State.reset.time.tick = 0 ∧ State.reset.time.set = false ∧
  (∀ d, d < 2 → domainAt State.reset d = ⟨0, 0, 0xCCCCCCCD⟩) ∧
  (∀ off, eventAt State.reset off = EventReg.zero) ∧
  (∀ part num, counterAt State.reset part num = 0) ∧
  (∀ n, tfind State.reset.host.sems n = none) ∧
  State.reset.skein.hot = [] ∧ State.reset.skein.cold = [] ∧ State.reset.frames = [] ∧ State.reset.rules.current = 0 ∧
  (∀ p, (portAt State.reset p).state = 0)

/-- The state after reset satisfies the invariant of the states: the bounds of one-time memory, the form of the counter
banks, the sizes of the fixed arrays, the list of the frames in flight, the form of the epochs' images. -/
def Obligations.ResetSatisfiesTheInvariant : Prop := Inv State.reset

/-- For every state that satisfies the invariant and every command in front of its queue, the next state satisfies it:
the counters of secure OTP stay within their 1,024 and 16,384 steps and its lifecycle among the four, only PROVISION
and SEAL ever pend; every counter of every bank fits 48 bits and the banks keep their canonical form; the arrays
that the device has a fixed number of (time domains, pins, host and chain ports, ready lists, engines, learn queues,
mailboxes, image slots) keep their sizes; the frames in flight are listed by rising number; and the images of the
epochs' totals keep their canonical form. -/
def Obligations.EveryStepKeepsTheInvariant : Prop :=
  ∀ s t : State, Inv s → step s = .next t → Inv t

/-- Whatever command is in front of the queue, in whatever state, a step leaves the secure OTP as it was or burned
further: the device identity, the root hash and the identity key stand, the lifecycle, the anti-rollback level and
the session counter never go back, and an attestation key, once burned, stays. A reset, a power cycle or a supply
fault is no exception. -/
def Obligations.OneTimeMemoryOnlyBurns : Prop :=
  ∀ s t : State, step s = .next t → OtpBurns s.rim.otp t.rim.otp

/-- A 32-bit REGISTER_WRITE that no rule of chapter 15 refuses, of a register whose fields only hold what is written,
completes: the bits of its writable fields take the written value, those whose boundary is NOW or PACKET are also in
force at once and the others keep their value in force, every other register keeps its cell, and nothing else of the
state changes. -/
def Obligations.PlainWriteLandsInItsShadow : Prop :=
  ∀ (s : State) (req : Requester) (off v : Nat) (r : RegName) (ix : List Nat),
    off % 4 = 0 → v < 2 ^ 32 → Reaches s req off r ix → r.addr ix = off → plainReg r = true →
    ∃ t cells, exec (.registerWrite req true .w32 off v) s = .next t ∧
      t = { s with regs := { s.regs with cells := cells } } ∧
      regCell t r ix = shadowed r.desc (regCell s r ix) (BitVec.ofNat 32 v) ∧
      (∀ (q : RegName) (jx : List Nat), q.addr jx ≠ off → regCell t q jx = regCell s q jx)

/-- A narrow write raises kind 1; an unaligned access, and a request other than a memory read or write, raises kind 2;
and a 32-bit write that chapter 15 refuses raises the kind that refuses it: the command completes, ACC_EVENT's SEQ
moves on by one and shows the kind's flag as raised by it, ACC_LAST0 and ACC_LAST1 record offset, kind, requester,
width (3 for kind 2) and direction, ACC_COUNT counts it without wrapping, and no register's cell, no other event
register, no counter, no table and no frame changes: only the registers' access-error part, the Rim's log and the
counter of free values do. -/
def Obligations.RefusedAccessesRaiseTheirKind : Prop :=
  ∀ (s : State) (req : Requester) (w : Width) (write : Bool) (off v kind : Nat),
    ((write = true ∧ (w = .w8 ∨ w = .w16) ∧ kind = 1) ∨
      ((w = .unaligned ∨ w = .unsupported ∨ (w = .w32 ∧ off % 4 ≠ 0) ∨ (w = .w64 ∧ off % 8 ≠ 0)) ∧ kind = 2) ∨
      (write = true ∧ w = .w32 ∧ off % 4 = 0 ∧ off ≠ RegName.addr .glbResetReq [] ∧ judgeWrite s req off = .error kind)) →
    ∃ t regs log fresh, exec (.registerWrite req write w off v) s = .next t ∧
      { t with out := s.out } = { s with regs := regs, log := log, fresh := fresh } ∧
      (t.out = if write = true ∨ w = .unsupported then s.out else .readData req.id off 0 :: s.out) ∧
      t.regs.cells = s.regs.cells ∧ t.regs.columns = s.regs.columns ∧
      t.regs.accLast = ⟨off % 2 ^ 26, kind, req.id, req.viaCmd, if kind = 2 then 3 else Width.code w, write⟩ ∧
      t.regs.accCount = min (s.regs.accCount + 1) (2 ^ 32 - 1) ∧
      eventAt t (RegName.addr .accEvent []) = (eventAt s (RegName.addr .accEvent [])).raise [kind - 1] ∧
      ∀ o, o ≠ RegName.addr .accEvent [] → eventAt t o = eventAt s o

/-- A write of w to the SEQ field of an event register, that reaches it, completes. When w lies among the 32,768 most
recent raises, counted modulo 2^16, the register keeps its SEQ, every flag whose latest raise lies in that range and
comes no later than w is cleared, every other flag keeps its latest raise, and nothing else of the state changes. -/
def Obligations.AcknowledgingClearsWhatWasSeen : Prop :=
  ∀ (s : State) (req : Requester) (off v : Nat) (r : RegName) (ix : List Nat),
    Reaches s req off r ix → hasSeq r = true →
    let e := eventAt s off
    let behind (x : Nat) : Nat := (e.seq + 65536 - x % 65536) % 65536
    behind (v / 65536) ≤ 32767 →
    ∃ t events, exec (.eventAck req off v) s = .next t ∧ t = { s with regs := { s.regs with events := events } } ∧
      (eventAt t off).seq = e.seq ∧
      (∀ f l, (f, l) ∈ (eventAt t off).raised ↔
        (f, l) ∈ e.raised ∧ ¬ (behind l ≤ 32767 ∧ behind (v / 65536) ≤ behind l)) ∧
      ∀ o, o ≠ off → eventAt t o = eventAt s o

/-- A write to the SEQ field of an event register outside the range of its 32,768 most recent raises acknowledges
nothing and raises the access-error event of kind SEQ_RANGE: the command completes and the register that was written
keeps its SEQ and its flags. -/
def Obligations.AcknowledgementOutOfRange : Prop :=
  ∀ (s : State) (req : Requester) (off v : Nat) (r : RegName) (ix : List Nat),
    Reaches s req off r ix → hasSeq r = true → off ≠ RegName.addr .accEvent [] →
    32767 < ((eventAt s off).seq + 65536 - v / 65536 % 65536) % 65536 →
    ∃ t, exec (.eventAck req off v) s = .next t ∧ eventAt t off = eventAt s off ∧
      t.regs.cells = s.regs.cells ∧ t.regs.accLast = ⟨off % 2 ^ 26, 9, req.id, req.viaCmd, 2, true⟩

/-- A write of an offset to IFR_ADDR that reaches it completes, and samples the register at that offset when its domain
is up and the requester may read it: IFR_DATA holds the bits that the requester may read of the value in force, each
field at the value it acts as, IFR_INFO shows PENDING exactly when some written value of the register has not taken
effect, DENIED 0, and the register's boundary as APPLIES. Sampling changes nothing but IFR_ADDR's own cell and the
sample. -/
def Obligations.IfrAddrSamples : Prop :=
  ∀ (s : State) (req : Requester) (v : Nat) (r : RegName) (ix : List Nat),
    Reaches s req (RegName.addr .ifrAddr []) .ifrAddr [] →
    let target := bits v 25 2 * 4
    let u := landWrite s .ifrAddr [] v
    locate target = some (r, ix) → domainUp s target = true → mayRead u r ix req.id = true →
    ∃ t, exec (.ifrAddrWrite req (RegName.addr .ifrAddr []) v) s = .next t ∧
      t = { u with regs := { u.regs with ifrData := t.regs.ifrData, ifrInfo := t.regs.ifrInfo } } ∧
      t.regs.ifrData = BitVec.ofNat 32 (Nat.land (actingWord u req.id r ix) (readMask r req.id)) ∧
      t.regs.ifrInfo = BitVec.ofNat 32 (at_ (appliesCode r) 29 26 + at_ (b2n (pendingOf u r ix)) 31 31)

/-- A write of TD_CTL with GO 1 that reaches domain d completes when its operands are good. SET: the domain reads the
operand time at tick N and keeps its rate. ADJUST: its time at every tick moves by TD_ADJ_NS, signed, plus
TD_ADJ_FRAC times 2^-16 ns. RATE within 100 ppm of nominal: the domain runs at the operand's rate from now on and
its time now is what it was. RESULT is 0. The other domain, served time, the tick counter and everything but the
registers, the domain, the Rim's log and the counter of free values are unchanged. -/
def Obligations.DomainOperations : Prop :=
  ∀ (s : State) (req : Requester) (d v : Nat), s.time.domains.length = 2 → d < 2 → bit v 31 = true →
    let off := RegName.addr .tdCtl [d]
    let reg (r : RegName) : Nat := inForce s r [d]
    let rate := reg .tdRateFrac + reg .tdRateInt * 2 ^ 32
    let n := reg .tdTickLo + reg .tdTickHi * 2 ^ 32
    let alone (t : State) : Prop :=
      (∃ regs time log fresh, t = { s with regs := regs, time := time, log := log, fresh := fresh }) ∧
      domainAt t (1 - d) = domainAt s (1 - d) ∧ t.time.domains.length = 2 ∧
      { t.time with domains := s.time.domains } = s.time ∧ fld t .tdCtl [d] 23 20 = 0
    Reaches s req off .tdCtl [d] →
    (bits v 30 28 = 1 → reg .tdNs ≤ 999999999 →
      ∃ t, exec (.tdSet req off v) s = .next t ∧ alone t ∧ (domainAt t d).rate = (domainAt s d).rate ∧
        (domainAt t d).timeAt n = (((reg .tdSecLo + reg .tdSecHi * 2 ^ 32) * 1000000000 + reg .tdNs) * 2 ^ 32
          + fld s .tdFrac [d] 15 0 * 2 ^ 16 : Nat)) ∧
    (bits v 30 28 = 2 →
      ∃ t, exec (.tdAdjust req off v) s = .next t ∧ alone t ∧
        ∀ m, (domainAt t d).timeAt m = (domainAt s d).timeAt m + sint 32 (reg .tdAdjNs) * 2 ^ 32
          + (fld s .tdAdjFrac [d] 15 0 * 2 ^ 16 : Nat)) ∧
    (bits v 30 28 = 3 → 0xCCC78EA0 ≤ rate → rate ≤ 0xCCD20AFA →
      ∃ t, exec (.tdRate req off v) s = .next t ∧ alone t ∧ (domainAt t d).rate = rate ∧
        (domainAt t d).timeAt s.time.tick = (domainAt s d).timeAt s.time.tick)

/-- A RATE operand below 0x0000_0000_CCC7_8EA0 or above 0x0000_0000_CCD2_0AFA is refused: the command completes, RESULT
is 1, RATE_REFUSED is raised and no domain and no served time changes; nor does the log. -/
def Obligations.RateLimits : Prop :=
  ∀ (s : State) (req : Requester) (d v : Nat), d < 2 → bit v 31 = true → bits v 30 28 = 3 →
    let off := RegName.addr .tdCtl [d]
    let rate := inForce s .tdRateFrac [d] + inForce s .tdRateInt [d] * 2 ^ 32
    Reaches s req off .tdCtl [d] → (rate < 0xCCC78EA0 ∨ 0xCCD20AFA < rate) →
    ∃ t, exec (.tdRate req off v) s = .next t ∧ t.time = s.time ∧ t.log = s.log ∧ fld t .tdCtl [d] 23 20 = 1 ∧
      eventAt t (RegName.addr .timeEvent []) = (eventAt s (RegName.addr .timeEvent [])).raise [2]

/-- A write of TIME_CTL without SERVED_SET that reaches it completes: the selected domain in force is SEL as written,
and neither the tick counter nor a domain nor served time changes; with SEL as it was, nothing but the register's
cell changes. TIME_REF_LOSS outside holdover and TIME_REF_RESTORE in holdover complete: HOLDOVER becomes 1 or 0 and
the Rim's log takes entries; neither the tick counter nor a domain nor served time changes, and nothing else but the
counter of free values does. -/
def Obligations.SourcesMoveNoTime : Prop :=
  (∀ (s : State) (req : Requester) (v : Nat), bit v 30 = false → v < 2 ^ 32 →
    let off := RegName.addr .timeCtl []
    Reaches s req off .timeCtl [] →
    ∃ t, exec (.selWrite req off v) s = .next t ∧ selDomain t = bits v 31 31 ∧ t.time = s.time ∧
      (∃ regs log fresh, t = { s with regs := regs, log := log, fresh := fresh }) ∧
      (bits v 31 31 = selDomain s → t = landWrite s .timeCtl [] v)) ∧
  ∀ s : State,
    (s.time.holdover = false → ∃ t log fresh, exec .timeRefLoss s = .next t ∧
      t = { s with time := { s.time with holdover := true }, log := log, fresh := fresh }) ∧
    (s.time.holdover = true → ∃ t log fresh, exec .timeRefRestore s = .next t ∧
      t = { s with time := { s.time with holdover := false }, log := log, fresh := fresh })

/-- A SERVED_SET write that reaches TIME_CTL, while served time is UNSET, the time of the domain that the write selects
is not earlier than served time and the Skein holds no valid record, makes served time equal to that domain's time
now and served time SET, whatever the pins and gate lists then do. In each of the three other cases it raises
SET_REFUSED and leaves the whole time block as it is. -/
def Obligations.ServedSet : Prop :=
  ∀ (s : State) (req : Requester) (v : Nat), bit v 30 = true → v < 2 ^ 32 →
    let off := RegName.addr .timeCtl []
    let target := (domainAt s (bits v 31 31)).timeAt s.time.tick
    Reaches s req off .timeCtl [] →
    (s.time.set = false → s.time.served ≤ target → (∀ w ∈ s.skein.ways, w.2.valid = false) →
      ∃ t, exec (.servedSet req off v) s = .next t ∧ t.time.set = true ∧ t.time.served = target ∧
        t.time.tick = s.time.tick ∧ t.time.domains = s.time.domains) ∧
    ((s.time.set = true ∨ target < s.time.served ∨ ∃ w ∈ s.skein.ways, w.2.valid = true) →
      ∃ t, exec (.servedSet req off v) s = .next t ∧ t.time = s.time ∧
        eventAt t (RegName.addr .timeEvent []) = (eventAt s (RegName.addr .timeEvent [])).raise [1])

/-- SERVE_TICK, while no hold keeps the device down, completes and moves the tick counter on by one. While served time
is UNSET it moves on by the nominal 0.8 ns and tracks no domain. While it is SET it moves on by the selected
domain's rate, less the residual it would have, clamped to the slew limit in force: so it never runs backward and
never steps. No domain changes. -/
def Obligations.TickMovesTime : Prop :=
  ∀ s : State, s.rim.hold = 0 →
    ∃ t, exec .serveTick s = .next t ∧ t.time.tick = s.time.tick + 1 ∧ t.time.domains = s.time.domains ∧
      t.time.set = s.time.set ∧
      (s.time.set = false → t.time.served = s.time.served + 0xCCCCCCCD) ∧
      (s.time.set = true →
        let d := domainAt s (selDomain s)
        let step : Int := d.rate
        let lim : Int := step * (max 1 (min 100 (fld s .timeCtl [] 7 0)) : Nat) / 1000000
        let e := s.time.served + step - d.timeAt (s.time.tick + 1)
        t.time.served = s.time.served + step - max (-lim) (min lim e) ∧
        s.time.served + step - lim ≤ t.time.served ∧ t.time.served ≤ s.time.served + step + lim ∧
        (0 < d.rate → s.time.served < t.time.served))

/-- On one of the four TIME_OUT pins: a write of TOUT_CTL with ARM 1 whose START has not passed leaves the running
schedule and holds the new one until START; a write with ARM 0 withdraws a pending schedule and changes nothing else
of the time block; once served time has reached START, AT_TIME_APPLY makes a periodic or one-shot schedule the
running one, with no pending one left, and a schedule of MODE 0 stops the pin. A schedule armed after its START
raises TOUT_LATE and runs at once. -/
def Obligations.PulseSchedules : Prop :=
  ∀ (s : State) (req : Requester) (p v : Nat), s.time.outs.length = 4 → p < 4 →
    let off := RegName.addr .toutCtl [p]
    (∀ c, (pinAt s p).pending = some c → c.start ≤ servedNow s →
      ∃ t, exec (.atTimeApply off) s = .next t ∧ (pinAt t p).pending = none ∧
        (pinAt t p).running = if c.mode = 1 ∨ c.mode = 2 then some c else none) ∧
    (Reaches s req off .toutCtl [p] → bit v 31 = true →
      let c := pulseOf s p v
      (timeNsUp s.time.served ≤ c.start → ∃ t, exec (.toutArm req off v) s = .next t ∧ (pinAt t p).pending = some c ∧
        (pinAt t p).running = (pinAt s p).running ∧ t.out = s.out) ∧
      (c.start < timeNsUp s.time.served → ∃ t, exec (.toutArm req off v) s = .next t ∧ (pinAt t p).pending = none ∧
        ((pinAt t p).running = if c.mode = 1 ∨ c.mode = 2 then some c else none) ∧
        eventAt t (RegName.addr .timeEvent []) = (eventAt s (RegName.addr .timeEvent [])).raise [3])) ∧
    (Reaches s req off .toutCtl [p] → bit v 31 = false →
      ∃ t, exec (.toutWithdraw req off v) s = .next t ∧ (pinAt t p).pending = none ∧
        (pinAt t p).running = (pinAt s p).running ∧ t.out = s.out ∧
        (∀ q, q ≠ p → pinAt t q = pinAt s q))

/-- A TIME_OUT pin whose schedule is due begins its pulse at the active level and ends it no sooner than its width after
its scheduled time; a TIME_IN pin that selects the edge and posts no events takes a capture of the tick and served
time of now at the end of its queue while fewer than 16 wait; a write of TIN_POP moves the oldest capture into the
capture registers, none when the queue is empty; a write of SNAP_CTL with GO 1 latches the tick and the times of
both domains and served time of now. Only the time block and what leaves the device change. -/
def Obligations.PulsesCapturesAndSnapshot : Prop :=
  ∀ (s : State) (req : Requester) (p v : Nat), s.time.outs.length = 4 → s.time.ins.length = 4 → p < 4 →
    (∀ c, (pinAt s p).running = some c → (pinAt s p).next ≤ servedNow s → (pinAt s p).ends = none →
      ∃ t time out, exec (.timeOutEdge p) s = .next t ∧ t = { s with time := time, out := out } ∧
        (pinAt t p).high = !c.low ∧ (pinAt t p).ends = some ((pinAt s p).next + c.width) ∧
        ((pinAt t p).running = if c.mode = 2 then some c else none) ∧ (pinAt t p).next = (pinAt s p).next + c.period) ∧
    (∀ rising, inSelects s p rising = true → fld s .tinCtl [p] 28 28 = 0 → (inAt s p).queue.length < 16 →
      ∃ t time c, exec (.timeInEdge p rising) s = .next t ∧ t = { s with time := time } ∧
        (inAt t p).queue = (inAt s p).queue ++ [c] ∧ c.tick = s.time.tick ∧ c.sec = servedSec s ∧ c.ns = servedNs s ∧
        c.edge = (if rising then 1 else 2) ∧ ∀ q, q ≠ p → inAt t q = inAt s q) ∧
    (Reaches s req (RegName.addr .tinPop [p]) .tinPop [p] → bit v 0 = true →
      ∃ t time, exec (.tinPop req (RegName.addr .tinPop [p]) v) s = .next t ∧ t = { s with time := time } ∧
        (inAt t p).shown = (inAt s p).queue.head? ∧ (inAt t p).queue = (inAt s p).queue.tail) ∧
    (Reaches s req (RegName.addr .snapCtl []) .snapCtl [] → bit v 31 = true →
      exec (.snapshot req (RegName.addr .snapCtl []) v) s = .next { s with time := { s.time with
        snap := ⟨true, s.time.tick, [(domainAt s 0).timeAt s.time.tick, (domainAt s 1).timeAt s.time.tick,
          s.time.served]⟩ } })

/-- A write of a window's control register with GO 1 and WRITE 1 that reaches it, on an entry that may be written,
completes with RESULT 0. Parse window: a step or transition entry that no live version sees takes the image in the
data registers, visible to the draft when their DRAFT bit says so. Policer window: the policer takes words 0 to 4.
Gate-list window: the entry of the port's admin bank takes the interval and gates. Lane window: the setting is what
the next attempt starts from. Every other entry of the table keeps its value, and INDEX advances by one, modulo its
width, exactly when AUTO_INC is 1. -/
def Obligations.WindowWrites : Prop :=
  ∀ (s : State) (req : Requester) (v : Nat) (ecc : Ecc), bit v 31 = true → bit v 30 = true →
    (∀ sl, sl < 8 → Reaches s req (RegName.addr .prsIndCtl [sl]) .prsIndCtl [sl] →
      let i := fld s .prsIndAddr [sl] 15 0
      let ws := dataWords s .prsIndData [sl] 12
      let inc (t : State) : Prop := fld t .prsIndAddr [sl] 15 0 = if bit v 27 then (i + 1) % 65536 else i
      s.rules.commit = none →
      (bits v 29 28 = 0 → i < 2048 → stepFine (ofWords (ws.take 4)) = true → (stepEntry (sliceAt s sl) i).vis = 0 →
        ∃ t, exec (.prsIndGo req (RegName.addr .prsIndCtl [sl]) v ecc) s = .next t ∧ fld t .prsIndCtl [sl] 23 20 = 0 ∧
          stepEntry (sliceAt t sl) i = ⟨ofWords (ws.take 4), 0, bit (ws.getD 11 0) 4⟩ ∧ inc t ∧
          (∀ j, j ≠ i → stepEntry (sliceAt t sl) j = stepEntry (sliceAt s sl) j) ∧
          ∀ k, k ≠ sl → sliceAt t k = sliceAt s k) ∧
      (bits v 29 28 = 1 → i < 4096 → transFine (ofWords (ws.take 2)) = true → (transEntry (sliceAt s sl) i).vis = 0 →
        ∃ t, exec (.prsIndGo req (RegName.addr .prsIndCtl [sl]) v ecc) s = .next t ∧ fld t .prsIndCtl [sl] 23 20 = 0 ∧
          transEntry (sliceAt t sl) i = ⟨ofWords (ws.take 2), 0, bit (ws.getD 11 0) 4⟩ ∧ inc t ∧
          (∀ j, j ≠ i → transEntry (sliceAt t sl) j = transEntry (sliceAt s sl) j) ∧
          ∀ k, k ≠ sl → sliceAt t k = sliceAt s k)) ∧
    (Reaches s req (RegName.addr .polIndCtl []) .polIndCtl [] →
      let p := fld s .polIndAddr [] 17 0
      let w := (List.range 5).map (fun k => inForce s .polIndData [k])
      (bit (w.getD 0 0) 30 = true ∨ w.getD 1 0 ≤ w.getD 2 0) →
      ∃ t, exec (.polIndGo req (RegName.addr .polIndCtl []) v ecc) s = .next t ∧ fld t .polIndCtl [] 23 20 = 0 ∧
        polAt t p = (polAt s p).write s.time.tick w ∧ (∀ q, q ≠ p → polAt t q = polAt s q) ∧
        fld t .polIndAddr [] 17 0 = if bit v 29 then (p + 1) % 2 ^ 18 else p) ∧
    (∀ a b, a < 8 → b < 32 → Reaches s req (RegName.addr .gclIndCtl [a, b]) .gclIndCtl [a, b] →
      let p := a * 32 + b
      let g := (egAt s p).gate
      let k := bits v 9 0
      let w := inForce s .gclIndData0 [a, b] + inForce s .gclIndData1 [a, b] % 256 * 2 ^ 32
      let bank (g : GateState) (n : Nat) : Table Nat := if n = 0 then g.bank0 else g.bank1
      g.pending = none → g.oper < 2 →
      ∃ t, exec (.gclIndGo req (RegName.addr .gclIndCtl [a, b]) v ecc) s = .next t ∧
        fld t .gclIndCtl [a, b] 23 20 = 0 ∧ tget 0 (bank (egAt t p).gate (1 - g.oper)) k = w ∧
        (∀ j, j ≠ k → tget 0 (bank (egAt t p).gate (1 - g.oper)) j = tget 0 (bank g (1 - g.oper)) j) ∧
        bank (egAt t p).gate g.oper = bank g g.oper ∧ (∀ q, q ≠ p → egAt t q = egAt s q)) ∧
    (∀ l, l < 256 → Reaches s req (RegName.addr .laneIndCtl [l]) .laneIndCtl [l] →
      let target := fld s .laneIndAddr [l] 31 28
      let i := fld s .laneIndAddr [l] 7 0
      ((target = 0 ∧ i < 5) ∨ (target = 1 ∧ i = 0) ∨ target = 2 ∨ target = 3) →
      ((portAt s (portOfLane s l)).state = 1 → (portAt s (portOfLane s l)).attempting = false) →
      ∃ t, exec (.laneIndGo req (RegName.addr .laneIndCtl [l]) v) s = .next t ∧ fld t .laneIndCtl [l] 23 20 = 0 ∧
        tget 0 (laneAt t l).nextSettings (target * 256 + i) = lastWritten s .laneIndData [l] % 65536 ∧
        (laneAt t l).settings = (laneAt s l).settings ∧ (∀ j, j ≠ l → laneAt t j = laneAt s j))

/-- A write of a window's control register with GO 1 that reads and that reaches it completes with RESULT 0 and the
whole entry in the data registers: a parse step entry, a ternary entry, an entry of the totals (its 64 bytes as 16
words), a gate-list entry of either bank, a policer's eight words, a lane's setting, and the 64 bytes of an HBM
line. Only registers, and for HBM the read window with the counter of free values, change. The HBM window's bytes of
a line that nothing has given contents are a free value (the model's, log entry 33): the statement says nothing
about them. -/
def Obligations.WindowReads : Prop :=
  ∀ (s : State) (req : Requester) (v : Nat), bit v 31 = true →
    (∀ sl, sl < 8 → bit v 30 = false → Reaches s req (RegName.addr .prsIndCtl [sl]) .prsIndCtl [sl] →
      let i := fld s .prsIndAddr [sl] 15 0
      bits v 29 28 = 0 → i < 2048 →
      ∃ t regs, exec (.prsIndGo req (RegName.addr .prsIndCtl [sl]) v .ok) s = .next t ∧ t = { s with regs := regs } ∧
        fld t .prsIndCtl [sl] 23 20 = 0 ∧
        ∀ k, k < 4 → inForce t .prsIndData [sl, k] = leAt (le 16 (stepImage (stepEntry (sliceAt s sl) i).image)) (4 * k) 4) ∧
    (∀ sl, sl < 8 → bit v 30 = false → Reaches s req (RegName.addr .tcamIndCtl [sl]) .tcamIndCtl [sl] →
      let i := fld s .tcamIndAddr [sl] 14 0
      ∃ t regs, exec (.tcamIndGo req (RegName.addr .tcamIndCtl [sl]) v .ok) s = .next t ∧ t = { s with regs := regs } ∧
        fld t .tcamIndCtl [sl] 23 20 = 0 ∧
        ∀ k, k < 20 → inForce t .tcamIndData [sl, k] = leAt (le 80 (tcamAt (sliceAt s sl) i).image) (4 * k) 4) ∧
    (Reaches s req (RegName.addr .totIndCtl []) .totIndCtl [] →
      let a := inForce s .totIndAddr []
      let r := totalsRead s (bits a 31 28) (bits a 27 26) (bits a 19 0) .ok
      r.1 = 0 →
      ∃ t regs, exec (.totIndGo req (RegName.addr .totIndCtl []) v .ok) s = .next t ∧ t = { s with regs := regs } ∧
        fld t .totIndCtl [] 23 20 = 0 ∧ ∀ k, k < 16 → inForce t .totIndData [k] = leAt r.2 (4 * k) 4) ∧
    (∀ a b, a < 8 → b < 32 → bit v 30 = false → Reaches s req (RegName.addr .gclIndCtl [a, b]) .gclIndCtl [a, b] →
      let g := (egAt s (a * 32 + b)).gate
      let w := tget 0 (if (if bit v 29 then g.oper else 1 - g.oper) = 0 then g.bank0 else g.bank1) (bits v 9 0)
      ∃ t regs, exec (.gclIndGo req (RegName.addr .gclIndCtl [a, b]) v .ok) s = .next t ∧ t = { s with regs := regs } ∧
        fld t .gclIndCtl [a, b] 23 20 = 0 ∧ inForce t .gclIndData0 [a, b] = w % 2 ^ 32 ∧
        inForce t .gclIndData1 [a, b] = w / 2 ^ 32 % 2 ^ 32) ∧
    (bit v 30 = false → Reaches s req (RegName.addr .polIndCtl []) .polIndCtl [] →
      let x := polAt s (fld s .polIndAddr [] 17 0)
      let ws := (if x.on then x.update s.time.tick else x).words
      ∃ t regs, exec (.polIndGo req (RegName.addr .polIndCtl []) v .ok) s = .next t ∧ t = { s with regs := regs } ∧
        fld t .polIndCtl [] 23 20 = 0 ∧ ∀ k, k < 8 → inForce t .polIndData [k] = ws.getD k 0 % 2 ^ 32) ∧
    (∀ l, l < 256 → bit v 30 = false → Reaches s req (RegName.addr .laneIndCtl [l]) .laneIndCtl [l] →
      let target := fld s .laneIndAddr [l] 31 28
      let i := fld s .laneIndAddr [l] 7 0
      ((target = 0 ∧ i < 5) ∨ (target = 1 ∧ i = 0) ∨ target = 2 ∨ target = 3) →
      ∃ t regs, exec (.laneIndGo req (RegName.addr .laneIndCtl [l]) v) s = .next t ∧ t = { s with regs := regs } ∧
        fld t .laneIndCtl [l] 23 20 = 0 ∧
        inForce t .laneIndData [l] = tget 0 (laneAt s l).settings (target * 256 + i) % 65536) ∧
    (Reaches s req (RegName.addr .hbmIndCtl []) .hbmIndCtl [] →
      let a := inForce s .hbmIndAddr []
      bits a 22 0 < 6291456 → pcServes s (bits a 29 23) = true →
      ∃ t regs hbm fresh, exec (.hbmIndGo req (RegName.addr .hbmIndCtl []) v .ok) s = .next t ∧
        t = { s with regs := regs, hbm := hbm, fresh := fresh } ∧ t.hbm.result = 0 ∧ t.hbm.corrected = false ∧
        ∀ d, hbmLine s (bits a 29 23) (bits a 22 0) = some d → t.hbm.window = d)

/-- A 32-bit read of GMAP_DATA, SEAL_IND_DATA, MC_IND_DATA or CNT_DATA_HI, with its domain up, completes and answers the
requester the register's word. GMAP_INDEX and WORD of SEAL_IND advance by one, modulo their widths, on every read;
the address of MC_IND only when AUTO_INC is 1; and with AUTO_INC 1 a read of CNT_DATA_HI advances NUMBER and samples
the next counter, else the sample holds. -/
def Obligations.ReadDrivenWindows : Prop :=
  ∀ (s : State) (req : Requester), running s = true → s.rim.started = true →
    (∃ t x, exec (.gmapDataRead req false) s = .next t ∧ t.out = .readData req.id (RegName.addr .gmapData []) x :: s.out ∧
      fld t .gmapIndex [] 15 0 = (fld s .gmapIndex [] 15 0 + 1) % 65536) ∧
    (fld s .sealIndAddr [] 8 0 ≠ 359 →
      ∃ t x, exec (.sealIndDataRead req false) s = .next t ∧
        t.out = .readData req.id (RegName.addr .sealIndData []) x :: s.out ∧
        fld t .sealIndAddr [] 8 0 = (fld s .sealIndAddr [] 8 0 + 1) % 512 ∧ t.lid.reading = true) ∧
    (∃ t x, exec (.mcIndDataRead req false) s = .next t ∧ t.out = .readData req.id (RegName.addr .mcIndData []) x :: s.out ∧
      fld t .mcIndAddr [] 16 0 = if fld s .mcIndAddr [] 31 31 = 1 then (fld s .mcIndAddr [] 16 0 + 1) % 131072
        else fld s .mcIndAddr [] 16 0) ∧
    (∃ t, exec (.cntDataHiRead req false) s = .next t ∧ t.out = .readData req.id 0x3F00008 (cntDataHiWord s) :: s.out ∧
      t.counters.counts = s.counters.counts ∧
      (fld s .cntAddr [] 31 31 = 0 → t.counters = s.counters ∧ t.regs = s.regs) ∧
      (fld s .cntAddr [] 31 31 = 1 → fld s .cntAddr [] 27 24 ≤ 8 →
        t.counters.sample = counterAt s (fld s .cntAddr [] 27 24) ((fld s .cntAddr [] 9 0 + 1) % 1024) ∧
        t.counters.sampleValid = true ∧ fld t .cntAddr [] 9 0 = (fld s .cntAddr [] 9 0 + 1) % 1024))

/-- A write of CNT_ADDR that reaches it, outside standby, completes and samples the counter that PART and NUMBER select:
with PART up to 8 the sample is that counter's value with VALID 1 and CHAINED as its pair stands, else 0 with VALID
0. No counter and no chain bit changes, and nothing else but the register's cell does. -/
def Obligations.CounterSample : Prop :=
  ∀ (s : State) (req : Requester) (v : Nat), v < 2 ^ 32 → running s = true →
    Reaches s req (RegName.addr .cntAddr []) .cntAddr [] →
    let part := bits v 27 24
    let num := bits v 9 0
    ∃ t, exec (.cntAddrWrite req (RegName.addr .cntAddr []) v) s = .next t ∧
      t = { landWrite s .cntAddr [] v with counters := { s.counters with
        sample := if part ≤ 8 then counterAt s part num else 0,
        sampleValid := decide (part ≤ 8),
        sampleChained := decide (part ≤ 8) && tget false s.counters.chained (part * 512 + num / 2) } }

/-- A write of a word of CNT_CHAIN_DEV or CNT_CHAIN_SL that reaches it completes: for each of its 32 pairs the chain bit
becomes the bit written; where that changes the bit, the odd counter of the pair is set to 0; every even counter,
every odd counter whose bit stays, and every counter of another word or part keeps its value. -/
def Obligations.ChainChange : Prop :=
  ∀ (s : State) (req : Requester) (v : Nat) (r : RegName) (ix : List Nat),
    ((∃ w, w < 8 ∧ r = .cntChainDev ∧ ix = [w]) ∨ (∃ sl w, sl < 8 ∧ w < 11 ∧ r = .cntChainSl ∧ ix = [sl, w])) →
    Reaches s req (r.addr ix) r ix → CountersFit s.counters →
    let part := if r = .cntChainDev then 0 else ix.getD 0 0 + 1
    let word := if r = .cntChainDev then ix.getD 0 0 else ix.getD 1 0
    let chainBit (x : State) (pair : Nat) : Bool := tget false x.counters.chained (part * 512 + pair)
    ∃ t regs counters, exec (.cntChainWrite req (r.addr ix) v) s = .next t ∧
      t = { s with regs := regs, counters := counters } ∧
      (∀ b, b < 32 → chainBit t (32 * word + b) = bit v b) ∧
      (∀ pair, pair / 32 ≠ word → chainBit t pair = chainBit s pair) ∧
      (∀ q num, (q = part → num % 2 = 0 ∨ chainBit t (num / 2) = chainBit s (num / 2)) → q < 9 → num < 1024 → counterAt t q num = counterAt s q num) ∧
      (∀ b, b < 32 → chainBit s (32 * word + b) ≠ bit v b → counterAt t part (2 * (32 * word + b) + 1) = 0)

/-- GLB_LOCK and each half of BOARD_ID take the first write that reaches them and from then on refuse every write as
LOCKED. A write of TCAM_BLK takes effect when every entry of the block is free and the assignment gives the lookup
no second width; a write of an owner's reserve when the slice's reserves stay within 47,616 cells; a write of a
credit when the slice's credits stay within 8,192 units. Any other write of the three leaves the register unchanged
and raises BLK_REFUSED, RESERVE_REFUSED or the crossbar's refusal. -/
def Obligations.GuardedWrites : Prop :=
  ∀ (s : State) (req : Requester) (v : Nat),
    (Reaches s req (RegName.addr .glbLock []) .glbLock [] →
      ∃ t, exec (.glbLockWrite req (RegName.addr .glbLock []) v) s = .next t ∧
        (regCell t .glbLock []).written = (shadowed (RegName.desc .glbLock) (regCell s .glbLock []) (BitVec.ofNat 32 v)).written ∧
        ∀ q : Requester, (q.id = 0 ∨ q.id = 2 ∨ q.id = 4) → judgeWrite t q (RegName.addr .glbLock []) = .error 5) ∧
    (∀ w, w < 2 → Reaches s req (RegName.addr .boardId [w]) .boardId [w] →
      ∃ t regs log fresh, exec (.boardIdWrite req (RegName.addr .boardId [w]) v) s = .next t ∧
        t = { s with regs := regs, log := log, fresh := fresh } ∧ lastWritten t .boardId [w] = v % 2 ^ 32 ∧
        ∀ q : Requester, (q.id = 0 ∨ q.id = 2 ∨ q.id = 4) → judgeWrite t q (RegName.addr .boardId [w]) = .error 5) ∧
    (∀ sl b, sl < 8 → b < 32 → Reaches s req (RegName.addr .tcamBlk [sl, b]) .tcamBlk [sl, b] →
      exec (.tcamBlkWrite req (RegName.addr .tcamBlk [sl, b]) v) s =
        .next (if blockTaken s sl b v then landWrite s .tcamBlk [sl, b] v else raiseEv s .tcamEvent [sl] [3])) ∧
    (∀ ix : List Nat, Reaches s req (RegName.addr .ownCfg0 ix) .ownCfg0 ix →
      exec (.ownCfgWrite req (RegName.addr .ownCfg0 ix) v) s =
        .next (if resSum s (ix.getD 0 0) - fld s .ownCfg0 ix 9 0 + bits v 9 0 ≤ 47616 then landWrite s .ownCfg0 ix v
          else raiseEv s .crlEvent [ix.getD 0 0] [3])) ∧
    (∀ ix : List Nat, Reaches s req (RegName.addr .eqCredit ix) .eqCredit ix →
      exec (.eqCreditWrite req (RegName.addr .eqCredit ix) v) s =
        .next (if creditSum (landWrite s .eqCredit ix v) (ix.getD 0 0 / 32) ≤ 8192 then landWrite s .eqCredit ix v
          else raiseEv s .waleEvent [] [0]))

/-- A write of a queue's shaper configuration that reaches it: when it takes effect as enabled the bucket holds its
BURST and its last time is now; as disabled it holds no state; else the bucket stays. A write of the queue shaper's
RATE while it is enabled brings the bucket up to date at the old rate and depth first, and caps it at the depth in
force; no other queue's bucket changes. -/
def Obligations.ShaperWrites : Prop :=
  ∀ (s : State) (req : Requester) (v sl k : Nat), v < 2 ^ 32 → sl < 8 → k < 256 →
    let q := sl * 256 + k
    let ix := [sl, k]
    let bucket (x : State) (j : Nat) : Bucket := tget Bucket.reset x.egress.shapers j
    (Reaches s req (RegName.addr .shqCfg ix) .shqCfg ix →
      ∃ t, exec (.shaperEnable req (RegName.addr .shqCfg ix) v) s = .next t ∧
        (fld s .shqCfg ix 31 31 = 0 → bit v 31 = true →
          bucket t q = ⟨(fld s .shqBurst ix 23 0 * byteUnit : Nat), s.time.tick⟩) ∧
        (fld s .shqCfg ix 31 31 = 1 → bit v 31 = false → bucket t q = Bucket.reset) ∧
        ((fld s .shqCfg ix 31 31 = 1 ↔ bit v 31 = true) → t.egress = s.egress) ∧
        ∀ j, j ≠ q → bucket t j = bucket s j) ∧
    (Reaches s req (RegName.addr .shqRate ix) .shqRate ix →
      ∃ t, exec (.shaperRateWrite req (RegName.addr .shqRate ix) v) s = .next t ∧ inForce t .shqRate ix = v ∧
        (fld s .shqCfg ix 31 31 = 1 →
          let b := (bucket s q).update (inForce s .shqRate ix) (fld s .shqBurst ix 23 0) s.time.tick
          bucket t q = { b with tokens := min ((fld s .shqBurst ix 23 0 * byteUnit : Nat) : Int) b.tokens }) ∧
        (fld s .shqCfg ix 31 31 = 0 → t.egress = s.egress) ∧ ∀ j, j ≠ q → bucket t j = bucket s j)

/-- A write of GCL_ADMIN with ARM 1 whose base time lies ahead arms a change and leaves the running list; with ARM 0 it
withdraws a pending one; no other port's lists change. A change whose base time has come takes over once served time
reaches its takeover time: the admin bank becomes the operating bank and runs with the armed length and cycle from
then on. At an entry's start the port's gates are those of the span of the running list that served time lies in. -/
def Obligations.GateLists : Prop :=
  ∀ (s : State) (req : Requester) (v a b : Nat), a < 8 → b < 32 →
    let p := a * 32 + b
    let g := (egAt s p).gate
    (Reaches s req (RegName.addr .gclAdmin [a, b]) .gclAdmin [a, b] → bit v 31 = true →
      servedNow s < gclBase s [a, b] →
      ∃ t c, exec (.gclArm req (RegName.addr .gclAdmin [a, b]) v) s = .next t ∧
        (egAt t p).gate = { g with pending := some c } ∧ c.enable = bit v 30 ∧ c.len = bits v 25 16 + 1 ∧
        c.base = gclBase s [a, b] ∧ c.reached = false ∧ 1000 ≤ c.cycle ∧ c.cycle ≤ 1000000000 ∧
        ∀ q, q ≠ p → egAt t q = egAt s q) ∧
    (Reaches s req (RegName.addr .gclAdmin [a, b]) .gclAdmin [a, b] → bit v 31 = false →
      ∃ t, exec (.gclWithdraw req (RegName.addr .gclAdmin [a, b]) v) s = .next t ∧
        (egAt t p).gate = { g with pending := none } ∧ ∀ q, q ≠ p → egAt t q = egAt s q) ∧
    (∀ c, g.pending = some c → c.reached = true → c.enable = true → takeoverAt g c ≤ servedNow s →
      ∃ t, exec (.gclTakeover p) s = .next t ∧ (egAt t p).gate.pending = none ∧ (egAt t p).gate.running = true ∧
        (egAt t p).gate.oper = 1 - g.oper ∧ (egAt t p).gate.len = c.len ∧ (egAt t p).gate.cycle = c.cycle ∧
        (egAt t p).gate.start = takeoverAt g c) ∧
    (∃ t, exec (.gateEntryChange p false) s = .next t ∧ (egAt t p).gate = g.follow (servedNow s) ∧
      ∀ q, q ≠ p → egAt t q = egAt s q)

/-- A write of TAG_SEED that reaches it loads the slice's LFSR, 0 acting as 1, and nothing else of any slice. A write of
TRC_CFG without RESET_WP takes effect at once when no block is open and else leaves the settings in force; with
RESET_WP the write offset becomes 0 and FULL is cleared. A block that is due closes: the records that fit leave the
queue, oldest first, SEQ moves on by one, the dropped count starts again at 0, and the settings written take effect. -/
def Obligations.TaggingAndTrace : Prop :=
  ∀ (s : State) (req : Requester) (v : Nat),
    (∀ sl, sl < 8 → Reaches s req (RegName.addr .tagSeed [sl]) .tagSeed [sl] →
      ∃ t, exec (.tagSeedWrite req (RegName.addr .tagSeed [sl]) v) s = .next t ∧
        sliceAt t sl = { sliceAt s sl with lfsr := max 1 (v % 2 ^ 32) } ∧ ∀ k, k ≠ sl → sliceAt t k = sliceAt s k) ∧
    (Reaches s req (RegName.addr .trcCfg []) .trcCfg [] → bit v 26 = false →
      ∃ t, exec (.trcCfgWrite req (RegName.addr .trcCfg []) v) s = .next t ∧
        t.trace = { s.trace with cfg := if s.trace.queue = [] then inForce t .trcCfg [] else s.trace.cfg } ∧
        t.out = s.out) ∧
    (Reaches s req (RegName.addr .trcCfg []) .trcCfg [] → bit v 26 = true →
      ∃ t, exec (.resetWp req (RegName.addr .trcCfg []) v) s = .next t ∧ t.trace.wp = 0 ∧ t.trace.full = false ∧
        t.trace.queue = s.trace.queue ∧ t.trace.buffer = s.trace.buffer) ∧
    (running s = true → blockDue s = true →
      ∃ t, exec .traceBlockClose s = .next t ∧
        t.trace.queue = s.trace.queue.drop (recordsThatFit 4064 s.trace.queue) ∧ t.trace.seq = s.trace.seq + 1 ∧
        t.trace.dropped = 0 ∧ t.trace.cfg = inForce s .trcCfg [])

/-- A write of PORT_CTL of a port that reaches it completes. PORT_ENABLE: EN 1 taking effect over EN 0 on a port in
LINK_FAILED with cause DISABLED, its macro up and no lane in test, starts a run of attempts: TRAINING, attempt 1 in
progress, its shapers are set full, and only registers, line, egress, what leaves the device and the counter of free
values change; a port of which a lane is in test stays where it is until the last lane leaves test. PORT_DISABLE: EN
0 over EN 1 takes a port in any other state to LINK_FAILED with cause DISABLED, and one that is there gets cause
DISABLED. RETRY: a port in LINK_FAILED with cause RETRAIN_EXHAUSTED starts a fresh run. RETRAIN: an UP port drops
with HOST_RETRAIN as the reason of its latest drop, counts the drop and starts a run of its own. In every case every
other port's state is what it was. -/
def Obligations.PortControl : Prop :=
  ∀ (s : State) (req : Requester) (p v : Nat),
    let off := RegName.addr .portCtl [p]
    let was := fld s .portCtl [p] 31 31
    let x := portAt s p
    let alone (t : State) : Prop := ∀ q, q ≠ p → portAt t q = portAt s q
    let runs (t : State) : Prop := (portAt t p).state = 1 ∧ (portAt t p).attempts = 1 ∧ (portAt t p).attempting = true ∧
      (portAt t p).since = s.time.tick
    let lineOnly (t : State) : Prop := ∃ regs line egress out fresh,
      t = { s with regs := regs, line := line, egress := egress, out := out, fresh := fresh }
    Reaches s req off .portCtl [p] → isPort s p = true → v < 2 ^ 32 →
    (bit v 31 = true → bit v 30 = false → bit v 29 = false → was = 0 → x.state = 0 → x.cause = 0 →
      macroUp s (p / 8) = true →
      (anyTest s p = false → ∃ t, exec (.portEnable req off v) s = .next t ∧ runs t ∧ alone t ∧ lineOnly t) ∧
      (anyTest s p = true → ∃ t, exec (.portEnable req off v) s = .next t ∧ portAt t p = { x with enWaits := true } ∧
        alone t ∧ lineOnly t)) ∧
    (bit v 31 = false → bit v 30 = false → bit v 29 = false → was = 1 →
      (x.state ≠ 0 → ∃ t, exec (.portDisable req off v) s = .next t ∧ (portAt t p).state = 0 ∧ (portAt t p).cause = 0 ∧
        (portAt t p).attempting = false ∧ alone t) ∧
      (x.state = 0 → ∃ t, exec (.portDisable req off v) s = .next t ∧ (portAt t p).state = 0 ∧
        (portAt t p).cause = 0 ∧ alone t ∧ lineOnly t)) ∧
    (bit v 31 = true → bit v 30 = true → x.state = 0 → x.cause = 1 →
      ∃ t, exec (.retry req off v) s = .next t ∧ runs t ∧ alone t ∧ lineOnly t) ∧
    (bit v 31 = true → bit v 30 = false → bit v 29 = true → x.state = 2 →
      ∃ t, exec (.retrain req off v) s = .next t ∧ runs t ∧ alone t ∧ (portAt t p).dropCause = 8 ∧
        (portAt t p).drops = min 4095 (x.drops + 1))

/-- On a port in TRAINING: 10 ms after an attempt failed, ATTEMPT_START starts the next one and counts it. An attempt
that runs, is no remote loop and is within ATTEMPT_MS ends at PORT_ATTEMPT_END: with Clause 73 (the partner
advertises the port's own ability) and training complete where they are asked for, alignment and FEC lock in time
and every lane's FOM at the floor or above, the port is UP and every lane holds what was measured of it as its
converged settings; with any of them missing the attempt fails. It fails as well when ATTEMPT_MS has passed. Where
negotiation did not complete, AN_FAIL is the reason shown. After a failure the port waits for the next attempt, or,
at RETRAIN_MAX attempts, enters LINK_FAILED with cause RETRAIN_EXHAUSTED. The first entry into UP makes served time
SET. Every other port keeps its state. -/
def Obligations.Attempts : Prop :=
  ∀ (s : State) (p : Nat) (an : List (Nat × Nat)) (rs : List LaneResult),
    let x := portAt s p
    let floor := fld s .portTrain [p] 23 16
    let last := max 1 (fld s .portTrain [p] 31 28)
    let alone (t : State) : Prop := ∀ q, q ≠ p → portAt t q = portAt s q
    let deadline := x.since + max 100 (fld s .portTrain [p] 15 0) * 1250000
    let fails (t : State) : Prop := alone t ∧ (portAt t p).attempting = false ∧
      (anDone s p an = false → (portAt t p).dropCause = 9) ∧
      (last ≤ x.attempts → (portAt t p).state = 0 ∧ (portAt t p).cause = 1) ∧
      (x.attempts < last → (portAt t p).state = 1 ∧ (portAt t p).attempts = x.attempts ∧ (portAt t p).since = s.time.tick)
    isPort s p = true → x.state = 1 →
    (x.attempting = false → x.since + 12500000 ≤ s.time.tick →
      ∃ t regs line out fresh, exec (.attemptStart p) s = .next t ∧
        t = { s with regs := regs, line := line, out := out, fresh := fresh } ∧
        (portAt t p).attempts = x.attempts + 1 ∧ (portAt t p).attempting = true ∧ (portAt t p).state = 1 ∧
        (portAt t p).since = s.time.tick ∧ alone t) ∧
    (x.attempting = true → loopOf s p ≠ 3 → rs.length = portLanes s p →
      (∀ lt, s.time.tick < deadline → anDone s p an = true → (fld s .portCtl [p] 27 27 = 0 ∨ lt = true) →
        (∀ r ∈ rs, floor ≤ fomOf r.snr) → ∃ t, exec (.portAttemptEnd p an lt true rs) s = .next t ∧
        (∃ out regs time host line, t = { s with out := out, regs := regs, time := time, host := host, line := line }) ∧
        (portAt t p).state = 2 ∧ (portAt t p).attempting = false ∧ alone t ∧ t.time.set = true ∧
        (s.time.set = true → t.time = s.time) ∧
        ∀ i r, rs[i]? = some r → (laneAt t (p + i)).settings = r.settings ∧ (laneAt t (p + i)).storedSettings = r.settings ∧
          (laneAt t (p + i)).converged = true ∧ (laneAt t (p + i)).fom = fomOf r.snr) ∧
      (∀ lt locked, s.time.tick < deadline → (locked = false ∨ anDone s p an = false ∨
          (lt = false ∧ fld s .portCtl [p] 27 27 ≠ 0) ∨ ∃ r ∈ rs, fomOf r.snr < floor) →
        ∃ t, exec (.portAttemptEnd p an lt locked rs) s = .next t ∧ fails t) ∧
      (deadline ≤ s.time.tick → ∃ t, exec (.attemptTimeout p an rs) s = .next t ∧ fails t))

/-- Loss of signal (cause 4), of alignment (5) or a remote fault (7) drops an UP port that is in no near loop: TRAINING,
the cause shown, the drop counted without wrapping, attempt 1 of a fresh run in progress, no other port touched. At
the end of a 1 ms FEC interval of an UP port outside standby the corrected and uncorrectable codewords are counted
in the port's counters; while their number stays within the limit (or the limit is 0) the port stays UP, the next
interval begins and only counters and line change; above it the port drops with cause 6 (FEC). -/
def Obligations.LinkDrops : Prop :=
  ∀ (s : State) (p : Nat), CountersFit s.counters → portUp s p = true →
    let x := portAt s p
    let drops (t : State) (cause : Nat) : Prop := (portAt t p).state = 1 ∧ (portAt t p).dropCause = cause ∧
      (portAt t p).attempts = 1 ∧ (portAt t p).attempting = true ∧ (portAt t p).drops = min 4095 (x.drops + 1) ∧
      ∀ q, q ≠ p → portAt t q = portAt s q
    (∀ cause, nearLoop s p = false → (cause = 4 ∨ cause = 5 ∨ cause = 7) → ∃ t, exec (.linkDrop p cause) s = .next t ∧ drops t cause) ∧
    (∀ corr uncorr sym, x.since + 1250000 ≤ s.time.tick → running s = true →
      let limit := fld s .portFec [p] 15 0
      let c (t : State) (k : Nat) : Nat := counterAt t (p / 32 + 1) (p % 32 * 16 + k)
      let plain (k : Nat) : Prop := tget false s.counters.chained ((p / 32 + 1) * 512 + (p % 32 * 16 + k) / 2) = false
      (limit = 0 ∨ x.uncorr + uncorr ≤ limit →
        ∃ t counters line, exec (.fecIntervalEnd p corr uncorr sym) s = .next t ∧
          t = { s with counters := counters, line := line } ∧
          (portAt t p) = { x with uncorr := 0, since := x.since + 1250000 } ∧ (∀ q, q ≠ p → portAt t q = portAt s q) ∧
          (plain 6 → c t 6 = (c s 6 + corr) % 2 ^ 48 ∧ c t 7 = (c s 7 + uncorr) % 2 ^ 48)) ∧
      (limit ≠ 0 → limit < x.uncorr + uncorr →
        ∃ t, exec (.fecIntervalEnd p corr uncorr sym) s = .next t ∧ drops t 6))

/-- FOM_MEASURE on a lane of an UP port that is not frozen shows the latest FOM, eight times the SNR and at most 255,
and keeps the best. With TX_LPI_EN 1, nothing to send and LPI_IDLE passed, LPI_ENTER puts every lane of the port's
transmit direction into LPI; when LPI_WAKE has passed since a frame became ready, the scheduler may pick again;
outside a near loop LPI_RX and RX_LPI_EXIT show the partner's signalling on every lane. Nothing but the line
changes, no other lane than the port's does, and the port's state stands. -/
def Obligations.LowPowerIdle : Prop :=
  ∀ (s : State) (p : Nat),
    let alone (t : State) : Prop := (∃ line, t = { s with line := line }) ∧
      (∀ l, ¬ (p ≤ l ∧ l < p + portLanes s p) → laneAt t l = laneAt s l) ∧ (portAt t p).state = (portAt s p).state
    (∀ l snr taps, l < 256 → portUp s (portOfLane s l) = true → frozen s l = false →
      ∃ t, exec (.fomMeasure l snr taps) s = .next t ∧ (laneAt t l).fom = min 255 (8 * snr / 65536).toNat ∧
        (laneAt t l).bestFom = max (laneAt s l).bestFom (laneAt t l).fom ∧ (∀ k, k ≠ l → laneAt t k = laneAt s k) ∧
        ∃ lanes, t = { s with line := { s.line with lanes := lanes } }) ∧
    (portUp s p = true →
      (fld s .portCtl [p] 25 25 = 1 → portBusy s p = false → (egAt s p).gate.running = false →
        (portAt s p).idleSince + max 1 (fld s .portLpi [p] 31 16) * 1250 ≤ s.time.tick →
        ∃ t, exec (.lpiEnter p) s = .next t ∧ alone t ∧ ∀ i, i < portLanes s p → (laneAt t (p + i)).txLpi = true) ∧
      (nearLoop s p = false → ∃ t, exec (.lpiRx p) s = .next t ∧ alone t ∧ ∀ i, i < portLanes s p → (laneAt t (p + i)).rxLpi = true) ∧
      (nearLoop s p = false → ∃ t, exec (.rxLpiExit p) s = .next t ∧ alone t ∧ ∀ i, i < portLanes s p → (laneAt t (p + i)).rxLpi = false)) ∧
    (∀ since, (portAt s p).readySince = some since →
      since + max (fld s .portLpi [p] 15 0) (Config.pcsWakeUs (modeOf s p)) * 1250 ≤ s.time.tick →
      ∃ t, exec (.lpiWake p) s = .next t ∧ portAt t p = { portAt s p with readySince := none } ∧ alone t)

/-- MACRO_MODE_WRITE of MODE 0 to 9 on a powered macro whose every port is in LINK_FAILED takes effect: the mode is in
force, a port whose EN is 0 is in LINK_FAILED with cause DISABLED, and when the mode changed no lane of the macro
holds converged settings; a port outside the macro keeps its state. A write of MODE 10 to 15, or while a port of the
macro is in another state, changes only the macro's LINE_EVENT and LINE_LAST: MODE_REFUSED. LOOP_WRITE that changes
LOOP is entered in the Rim's log; an UP port whose loop it changes drops with cause HOST_RETRAIN, and a port that is
not UP keeps its state. -/
def Obligations.ModesAndLoops : Prop :=
  ∀ (s : State) (req : Requester) (v : Nat),
    (∀ m, m < 32 →
      let off := RegName.addr .macroMode [m]
      Reaches s req off .macroMode [m] →
      (bits v 3 0 ≤ 9 → allFailed s m = true → macroUp s m = true →
        ∃ t, exec (.macroModeWrite req off v) s = .next t ∧ fld t .macroMode [m] 3 0 = bits v 3 0 ∧
          (∃ fresh out regs host line egress,
            t = { s with fresh := fresh, out := out, regs := regs, host := host, line := line, egress := egress }) ∧
          (∀ i, i < 8 → fld s .portCtl [m * 8 + i] 31 31 = 0 →
            (portAt t (m * 8 + i)).state = 0 ∧ (portAt t (m * 8 + i)).cause = 0) ∧
          (∀ q, q / 8 ≠ m → portAt t q = portAt s q) ∧
          (bits v 3 0 ≠ fld s .macroMode [m] 3 0 → ∀ i, i < 8 → (laneAt t (m * 8 + i)).converged = false)) ∧
      (9 < bits v 3 0 ∨ allFailed s m = false →
        ∃ t regs, exec (.macroModeWrite req off v) s = .next t ∧ t = { s with regs := regs } ∧
          fld t .macroMode [m] 3 0 = fld s .macroMode [m] 3 0 ∧
          eventAt t (RegName.addr .lineEvent [m]) = (eventAt s (RegName.addr .lineEvent [m])).raise [3])) ∧
    (∀ l, l < 256 →
      let off := RegName.addr .laneCfg [l]
      let p := portOfLane s l
      Reaches s req off .laneCfg [l] → bits v 28 27 ≠ fld s .laneCfg [l] 28 27 →
      ((portAt s p).state ≠ 2 → ∃ t regs log fresh, exec (.loopWrite req off v) s = .next t ∧
        t = { s with regs := regs, log := log, fresh := fresh } ∧
        fld t .laneCfg [l] 28 27 = bits v 28 27 ∧ s.log.next < t.log.next) ∧
      ((portAt s p).state = 2 → l = p → ∃ t, exec (.loopWrite req off v) s = .next t ∧
        (portAt t p).state = 1 ∧ (portAt t p).dropCause = 8 ∧ (portAt t p).attempts = 1 ∧ ∀ q, q ≠ p → portAt t q = portAt s q))

/-- TEST_EN 1 on a lane whose port is in LINK_FAILED puts the lane in test, shows cause TEST and counts the generator's
bits from now; on a lane whose port is in another state it is ignored and raises TEST_REFUSED. TEST_EN 0 takes the
lane out. PRBS_CLR zeroes both counts and LOST_LOCK; INJ_ONE on a lane in test whose generator runs with INJ 1, and
PERIODIC_INJECTION with INJ 2 when the interval has passed, count one injected error, seen as a bit error only by a
checker locked through the lane's serial near-end loop. A checker that searches and sees its pattern locks and
counts from now; a locked one counts bit errors without wrapping, and after 64 within 1,024 bits it loses lock, sets
LOST_LOCK and searches again, its counts kept. No other lane changes. -/
def Obligations.PrbsTest : Prop :=
  ∀ (s : State) (req : Requester) (l v : Nat), l < 256 →
    let off := RegName.addr .laneTest [l]
    let p := portOfLane s l
    let x := laneAt s l
    let alone (t : State) : Prop := ∀ k, k ≠ l → laneAt t k = laneAt s k
    let injected (t : State) (lock : Bool) : Prop := alone t ∧ (laneAt t l).injCount = min (x.injCount + 1) (2 ^ 32 - 1) ∧
      (laneAt t l).prbsErr = if lock = true ∧ loopOf s p = 2 then min (x.prbsErr + 1) (2 ^ 32 - 1) else x.prbsErr
    (Reaches s req off .laneTest [l] →
      (bit v 28 = false → bit v 27 = false → bit v 31 = true → x.inTest = false → x.lock = false →
        ((portAt s p).state = 0 → ∃ t regs line, exec (.testEnWrite req off v) s = .next t ∧
          t = { s with regs := regs, line := line } ∧ laneAt t l = { x with inTest := true, genTick := s.time.tick, injDone := 0 } ∧
          (portAt t p).cause = 2 ∧ (portAt t p).state = 0 ∧ alone t) ∧
        ((portAt s p).state ≠ 0 → ∃ t regs line, exec (.testEnWrite req off v) s = .next t ∧
          t = { s with regs := regs, line := line } ∧ (laneAt t l).inTest = false ∧ portAt t p = portAt s p ∧ alone t ∧
          fld t .laneTest [l] 31 31 = 0 ∧
          eventAt t (RegName.addr .lineEvent [p / 8]) = (eventAt s (RegName.addr .lineEvent [p / 8])).raise [4])) ∧
      (bit v 28 = false → bit v 27 = false → bit v 31 = false → x.inTest = true →
        ∃ t, exec (.testEnWrite req off v) s = .next t ∧ (laneAt t l).inTest = false ∧ (laneAt t l).lock = false) ∧
      (bit v 28 = true → bit v 27 = false → bit v 31 = x.inTest →
        ∃ t regs line, exec (.prbsClr req off v) s = .next t ∧ t = { s with regs := regs, line := line } ∧ alone t ∧
          (laneAt t l).prbsErr = 0 ∧ (laneAt t l).prbsBits = 0 ∧ (laneAt t l).lostLock = false ∧ (laneAt t l).inTest = x.inTest ∧
          (laneAt t l).injCount = x.injCount) ∧
      (bit v 28 = false → bit v 27 = true → bit v 31 = true → bit v 30 = true → bits v 18 17 = 1 → x.inTest = true →
        ∃ t, exec (.injOne req off v) s = .next t ∧ injected t (x.lock && bit v 29))) ∧
    (x.inTest = true → fld s .laneTest [l] 30 30 = 1 → fld s .laneTest [l] 18 17 = 2 →
      x.injDone < injectionsDue s l →
      ∃ t line, exec (.periodicInjection l) s = .next t ∧ t = { s with line := line } ∧ injected t x.lock ∧
        (laneAt t l).injDone = x.injDone + 1) ∧
    (∀ symbols, x.inTest = true → fld s .laneTest [l] 29 29 = 1 → x.lock = false → seesPattern s l symbols = true →
      ∃ t line, exec (.prbsLock l symbols) s = .next t ∧ t = { s with line := line } ∧ alone t ∧
        laneAt t l = { x with lock := true, lockTick := s.time.tick }) ∧
    (∀ errors, x.lock = true →
      ∃ t line, exec (.prbsLostLock l errors) s = .next t ∧ t = { s with line := line } ∧ alone t ∧
        (laneAt t l).inTest = x.inTest ∧ (laneAt t l).prbsErr = min (x.prbsErr + errors) (2 ^ 32 - 1) ∧
        (errors < 64 → (laneAt t l).lock = true ∧ (laneAt t l).lostLock = x.lostLock) ∧
        (64 ≤ errors → (laneAt t l).lock = false ∧ (laneAt t l).lostLock = true))

/-- A frame at an UP port outside every loop: below 64 bytes it is only counted as a runt; with less than 512 bytes free
in its macro's receive buffer it is only counted as an overrun; else it enters the device under the next frame
number, waiting at its head, its tail pending. Whole: its bytes and its FCS as received, RX_LEN its length. Longer
than MAX_FRAME, where the buffer holds as much: counted as such, cut to MAX_FRAME and errored. More than the buffer
holds, which is less than MAX_FRAME: counted as an overrun, cut to what was free and errored. Of these nothing but
the counters and the frames changes; a frame with an uncorrectable codeword in it enters errored, and its port
counts the codeword. -/
def Obligations.ReceiveChecks : Prop :=
  ∀ (s : State) (port : Nat) (bytes : List Byte), portUp s port = true → loopOf s port = 0 →
    let n := bytes.length
    let free := rxFree s (port / 8)
    let enters (u t : State) (len : Nat) (bad : Bool) : Prop := ∃ f : Frame,
      t = { u with frames := tins s.frames s.nextFrame f, nextFrame := s.nextFrame + 1 } ∧
      f.port = port ∧ f.slice = port / 32 ∧ f.stage = .received ∧ f.tail = .pending ∧ f.errored = bad ∧ f.rxLen = len ∧
      f.rxTick = s.time.tick ∧ f.data = bytes.take (len - 4) ∧ f.rx = f.data ∧
      f.fcs = unle ((bytes.take len).drop (len - 4))
    (n < 64 → ∀ e, exec (.frameReceive port bytes e) s = .next (cntPort s port 0)) ∧
    (64 ≤ n → free < 512 → ∀ e, exec (.frameReceive port bytes e) s = .next (cntPort s port 1)) ∧
    (64 ≤ n → 512 ≤ free →
      (n ≤ free → n ≤ maxFrame s port → ∃ t, exec (.frameReceive port bytes false) s = .next t ∧ enters s t n false) ∧
      (n ≤ free → n ≤ maxFrame s port → ∃ t counters line, exec (.frameReceive port bytes true) s = .next t ∧
        enters { s with counters := counters, line := line } t n true ∧
        (portAt t port).uncorr = (portAt s port).uncorr + 1) ∧
      (maxFrame s port < n → maxFrame s port ≤ free →
        ∃ t, exec (.frameReceive port bytes false) s = .next t ∧ enters (cntPort s port 2) t (maxFrame s port) true) ∧
      (free < n → free < maxFrame s port →
        ∃ t, exec (.frameReceive port bytes false) s = .next t ∧ enters (cntPort s port 1) t free true))

/-- The tail of a frame in flight arrives: with a matching FCS and no error its tail is good from now, and of a frame
that holds no cells nothing else changes; a stored one keeps its bytes and holds every cell it needs. With a bad one
the frame's tail is bad, and counted when the FCS is the complement of the right one; a frame that holds no cells
yet, or has no verdict yet, goes on. A stored frame that waits on its queue leaves the device void, and when it was
posted as billable and is not settled, a correction joins the queue. No other frame changes. -/
def Obligations.FrameTails : Prop :=
  ∀ (s : State) (id : Nat) (f : Frame), FramesListed s → frameAt s id = some f → f.tail = .pending →
    let d := Nat.xor (crc32 f.rx) f.fcs
    let counted := if d = 0xFFFFFFFF ∧ f.errored = false then cntPort s f.port 5 else s
    let others (t : State) : Prop := ∀ j, j ≠ id → frameAt t j = frameAt s j
    let ends (tail : Tail) : Frame := { f with tail := tail, times := { f.times with tail := some s.time.tick } }
    (d = 0 → f.errored = false → f.stage ≠ .queued → f.stage ≠ .punted →
      ∃ t frames, exec (.frameTail id) s = .next t ∧ t = { s with frames := frames } ∧
        frameAt t id = some (ends .good) ∧ others t) ∧
    (d = 0 → f.errored = false → (f.stage = .queued ∨ f.stage = .punted) →
      ∃ t f', exec (.frameTail id) s = .next t ∧ others t ∧ frameAt t id = some f' ∧
        f' = { ends .good with cellList := f'.cellList } ∧ f.cellList <+: f'.cellList ∧
        (f.cellList ≠ [] → cellsNeeded t f' ≤ f.cellList.length → f'.cellList = f.cellList)) ∧
    ((d ≠ 0 ∨ f.errored = true) →
      (f.stage ≠ .queued → f.stage ≠ .punted →
        ∃ t frames, exec (.frameTail id) s = .next t ∧ t = { counted with frames := frames } ∧
          frameAt t id = some (ends .bad) ∧ others t) ∧
      (f.stage = .queued → f.cut = false →
        ∃ t, exec (.frameTail id) s = .next t ∧ frameAt t id = none ∧ others t ∧
          (f.count.posted = true → f.count.settled = false → f.count.billable = true →
            t.lid.corrections = s.lid.corrections ++ [⟨f.count, f.port, f.slice, f.flowless, f.rxLen⟩])))

/-- HEAD_PARSE, while one of the slice's 64 engines is free and its classification wait stage has room, serves the head
that the slice's order gives. A looped frame is not parsed but punted with reason LOOPBACK. Any other head runs one
pass, on its first pass under the version current now, and the frame holds what the pass says of it: without a
failure it is parsed, its lookup to do when it has a key; a first pass that fails is dropped, punted with its
reason, or goes on flowless as MAL_ACT says; a later one that fails is denied. A frame dropped or denied is no
longer in the device. No other frame changes. -/
def Obligations.HeadParsing : Prop :=
  ∀ (s : State) (sl id : Nat) (ue : Option Nat) (f : Frame), FramesListed s → nextHead s sl = some id → frameAt s id = some f →
    waitStageFull s sl = false → enginesBusy s sl = false →
    let first := f.stage == .received
    let version := if first then s.rules.current else f.version
    let u := modSlice (if first then headEnter s f.slice version else s) f.slice
      (fun x => { x with recirc := x.recirc.erase id, entered := x.entered + 1 })
    let h := (runPass u f.slice f.port version f.data ue).head u f.slice f.port version ue.isSome
    let act := malActionOf u f.slice version h.malReason
    let others (t : State) : Prop := ∀ j, j ≠ id → frameAt t j = frameAt s j
    (f.looped = true → ∃ t f', exec (.headParse sl ue) s = .next t ∧ frameAt t id = some f' ∧ f'.stage = .admitting ∧
      f'.punt = some 0x23 ∧ others t) ∧
    (f.looped = false → h.malReason = 0 → ∃ t counters slices frames f', exec (.headParse sl ue) s = .next t ∧
      t = { s with counters := counters, slices := slices, frames := frames } ∧ frameAt t id = some f' ∧
      f'.stage = .parsed ∧ f'.version = version ∧ f'.head = h ∧ f'.lookup = (if h.keyed then .toDo else .none) ∧
      f'.data = f.data ∧ f'.pass = f.pass ∧ f'.count = f.count ∧ others t) ∧
    (f.looped = false → h.malReason ≠ 0 →
      (first = true → act = 0 → ∃ t, exec (.headParse sl ue) s = .next t ∧ frameAt t id = none ∧ others t) ∧
      (first = true → act = 1 → ∃ t f', exec (.headParse sl ue) s = .next t ∧ frameAt t id = some f' ∧
        f'.stage = .admitting ∧ f'.punt = some h.malReason ∧ others t) ∧
      (first = true → act = 2 → ∃ t f', exec (.headParse sl ue) s = .next t ∧ frameAt t id = some f' ∧
        f'.stage = .parsed ∧ f'.flowless = true ∧ f'.lookup = .done ∧ others t) ∧
      (first = false → ∃ t, exec (.headParse sl ue) s = .next t ∧ frameAt t id = none ∧ others t))

/-- CLASSIFY of a parsed head, not flowless, while the wait stage of its slice has room, completes its classification,
on a port that neither scans patterns nor searches ternary lookups, with no soft error met: a routed head gets the
next hop of the prefix search or its zone's default; a bridged head in a valid VLAN whose source is known on its
port goes to the port of its destination, and its source entry is marked hit. On a port that searches one ternary
lookup and scans nothing, a routed head's action fields are those of the matching place with the highest priority,
lowest index first: its verdict with deny-override as a deny that overrides, its class, profile, next hop and
policer where the entry enables them. No other frame changes. -/
def Obligations.Classification : Prop :=
  ∀ (s : State) (id : Nat) (f : Frame), frameAt s id = some f → f.stage = .parsed → f.cls.done = false →
    f.flowless = false → fldV s .prsPortEntry [f.slice, f.port % 32] f.version 31 31 = 0 →
    waitStageFull s f.slice = false →
    let zone := dtFind s f.slice 0 f.head.key.zone f.version
    let none_ : ClassFaults := ⟨[], [], [], false, []⟩
    let g : Frame := { f with cls := ClassInfo.zero }
    let c0 : ClassInfo := { ClassInfo.zero with done := true, zoneImage := zone, natDst := natAddrOf s f }
    let lookups := fldV s .tcamPort [f.slice, f.port % 32] f.version 15 0
    let others (t : State) : Prop := ∀ j, j ≠ id → frameAt t j = frameAt s j
    (lookups = 0 → isBridged s g zone = false →
      ∃ t frames f', exec (.classify id none_) s = .next t ∧ t = { s with frames := frames } ∧ others t ∧
        frameAt t id = some f' ∧ f' = { f with cls := f'.cls, times := f'.times } ∧
        f'.cls = { c0 with routed := routedLookup s g zone false }) ∧
    (lookups = 0 → isBridged s g zone = true → ∀ vid pos e dst, headVlan s g = some vid →
      bit (vlanImage s f.slice vid f.version) 511 = true →
      macFind (sliceAt s f.slice) vid (srcMac f.data) = some (pos, e) → e.port = f.port →
      dstMac f.data / 2 ^ 40 % 2 = 0 → macFind (sliceAt s f.slice) vid (dstMac f.data) = some dst → dst.2.port ≠ f.port →
      ∃ t slices frames f', exec (.classify id none_) s = .next t ∧ t = { s with slices := slices, frames := frames } ∧
        others t ∧ frameAt t id = some f' ∧ f'.stage = .parsed ∧ f'.cls.done = true ∧ f'.cls.bridged = true ∧
        f'.cls.routed = none ∧ f'.cls.l2 = .port dst.2.port ∧ f'.cls.learnable = true ∧ f'.cls.l2Need = false ∧
        tget e (sliceAt t f.slice).mac pos = { e with hit := true }) ∧
    (∀ j p, j < 16 → lookups = 2 ^ j → isBridged s g zone = false →
      let x := sliceAt s f.slice
      let key := searchKey s f.slice j f.version { f with cls := c0 }.vector
      winnerOf x ((placesOf s f.slice j).filter (placeMatches x (lookupDouble s f.slice j) f.version key)) = some p →
      let a := (tcamAt x p).action
      ∃ t counters frames f', exec (.classify id none_) s = .next t ∧
        t = { s with counters := counters, frames := frames } ∧ others t ∧ frameAt t id = some f' ∧ f'.cls.done = true ∧
        f'.cls.hasVerdict = bit a 63 ∧ f'.cls.hasCls = bit a 60 ∧ f'.cls.hasProfile = bit a 53 ∧
        f'.cls.hasNh = bit a 42 ∧ f'.cls.hasPol = bit a 21 ∧
        (bit a 63 = true → f'.cls.merged.verdict = (if bits a 62 61 = 3 then 1 else bits a 62 61) ∧
          f'.cls.merged.denyOverride = (bits a 62 61 == 3)) ∧
        (bit a 60 = true → f'.cls.merged.cls = bits a 59 54) ∧ (bit a 53 = true → f'.cls.merged.profile = bits a 52 43) ∧
        (bit a 42 = true → f'.cls.merged.nextHop = bits a 41 22) ∧ (bit a 21 = true → f'.cls.merged.policer = bits a 20 3))

/-- REWRITE of a head whose classification and lookup are done, with no earlier head of its flow and port still in its
passes: a pass whose verdict is deny takes the frame out of the device. A pass without a record whose own result is
a usable next-hop entry for a port, with verdict forward or punt, puts the rewritten bytes into the frame and sends
it on: to its policer when the result names one, else to Creel, towards the port of the entry, or punted with reason
RULE; when the result asks for another pass that PASS_MAX allows, the frame recirculates instead, one pass further.
POLICER_METER of the waiting frame that is next in its bank's order: a policer that is off passes it; a green frame
passes and its length is spent; a frame out of profile under action drop leaves the device. No other frame changes. -/
def Obligations.RewriteAndMeter : Prop :=
  ∀ (s : State) (id : Nat) (f : Frame), FramesListed s → frameAt s id = some f →
    let others (t : State) : Prop := ∀ j, j ≠ id → frameAt t j = frameAt s j
    let r := actionResult f
    let u := if f.pass = 0 then modFrame s id (fun f => { f with job := f.scanJob }) else s
    let passMax := fldV s .prsCfg [f.slice] f.version 1 0
    (f.stage = .parsed → f.cls.done = true → f.lookup = .done → overtakes s id f Frame.inPasses = false →
      ((r.verdict = 1 ∨ r.verdict = 3) → ∃ t, exec (.rewrite id []) s = .next t ∧ frameAt t id = none ∧ others t) ∧
      (f.found = none → (r.verdict = 0 ∨ r.verdict = 2) → ∀ n e,
        ownResult f.cls = .hop n → nhUsable s f n = true →
        let img := headDt s f 1 n
        nhKind img = 0 →
        rewriteHead u f (profileOf u f.slice r.profile f.version) (egressClass u f r.profile) (.nh n img) = .ok e →
        (r.recirc = false → ∃ t f', exec (.rewrite id []) s = .next t ∧ others t ∧ frameAt t id = some f' ∧
          f'.data = e.bytes ∧ f'.result.verdict = r.verdict ∧ f'.tc = egressClass u f r.profile ∧ f'.pass = f.pass ∧
          f'.stage = (if r.polEn then .policing else .admitting) ∧ f'.punt = (if r.verdict = 2 then some 0x20 else none) ∧
          f'.egress = (if r.verdict = 2 then [] else [nhPort img])) ∧
        (r.recirc = true → f.pass < passMax → (sliceAt s f.slice).recirc.length < 256 →
          ∃ t counters slices frames f', exec (.rewrite id []) s = .next t ∧
            t = { s with counters := counters, slices := slices, frames := frames } ∧ others t ∧
            frameAt t id = some f' ∧ f'.data = e.bytes ∧ f'.stage = .recirculating ∧ f'.pass = f.pass + 1 ∧
            (sliceAt t f.slice).recirc = (sliceAt s f.slice).recirc ++ [id]))) ∧
    (f.stage = .policing → polNext s (polBank f.result.policer) = some id →
      let p := f.result.policer
      let x := polAt s p
      let y := x.update s.time.tick
      let len := chargedLen f.rxLen (bits x.word0 7 0)
      let passes (t : State) : Prop := others t ∧ frameAt t id = some { f with stage := .admitting }
      (x.on = false → ∃ t counters frames, exec (.policerMeter id false) s = .next t ∧
        t = { s with counters := counters, frames := frames, egress := t.egress } ∧ passes t ∧
        t.egress.policers = s.egress.policers) ∧
      (x.on = true → (y.meter len).1 = .green → ∃ t counters frames, exec (.policerMeter id false) s = .next t ∧
        t = { s with counters := counters, frames := frames, egress := t.egress } ∧ passes t ∧
        polAt t p = (y.meter len).2 ∧ ∀ q, q ≠ p → polAt t q = polAt s q) ∧
      (x.on = true → (y.meter len).1 = .red → bits x.word0 27 26 = 0 → ∃ t, exec (.policerMeter id false) s = .next t ∧
        frameAt t id = none ∧ others t ∧ (polAt t p).red = min (x.red + 1) (2 ^ 32 - 1) ∧
        (polAt t p).tc = y.tc ∧ (polAt t p).te = y.te))

/-- DEEP_SCAN on a slice whose oldest queued frame has its tail: the frame leaves the queue and, while another reference
holds it, loses one reference. The context of its stream, of a protocol without sequence numbers and not done, has
seen the new payload up to its limit, keeps its last 31 bytes, and is done at the limit. With no action configured
for any group nothing but frames, slices, rules, the scheduler, host rings and what leaves the device changes. -/
def Obligations.DeepScanning : Prop :=
  ∀ (s : State) (sl id : Nat) (f : Frame) (j : DeepJob) (c : DeepCtx) (rest : List Nat),
    (sliceAt s sl).deepQueue = id :: rest → frameAt s id = some f → f.slice = sl → f.tail = .good → f.void = false →
    f.job = some j → j.seq = none → 2 ≤ f.refs →
    (sliceAt s sl).deep.find? (fun c => c.serves f.count.handle j.dir) = some c → c.done = false →
    fldV s .deepAct [sl] f.version 31 0 = 0 →
    let limit := deepLimit s sl f.version
    let new := j.payload.take (limit - c.offset)
    ∃ t out host sched rules slices frames f' c', exec (.deepScan sl) s = .next t ∧
      t = { s with out := out, host := host, sched := sched, rules := rules, slices := slices, frames := frames } ∧
      frameAt t id = some f' ∧ f' = { f with refs := f.refs - 1, deepQueued := false } ∧
      (∀ k, k ≠ id → frameAt t k = frameAt s k) ∧ (sliceAt t sl).deepQueue = rest ∧
      (sliceAt t sl).deep.find? (fun c => c.serves f.count.handle j.dir) = some c' ∧
      c'.offset = c.offset + new.length ∧ c'.done = decide (limit ≤ c.offset + new.length) ∧
      c'.last = (c.last ++ new).drop ((c.last ++ new).length - 31) ∧ c'.used = s.time.tick

/-- L2_LEARN takes the oldest learn of a slice, no entry reading uncorrectable: a station that is new takes the lowest
free way of its bucket, dynamic and with HIT; a known dynamic one gets the learn's port and HIT; a static one is
left as it is. L2_AGING_PASS, when it is due, with aging on and no uncorrectable read, keeps exactly the static
entries and the dynamic ones with HIT, and clears HIT on the latter. TCAM_SCRUB moves on by one place, cyclically; a
place that reads uncorrectable is marked FAULT, a double one on both halves, and TCAM_EVENT is raised. -/
def Obligations.StationsAndScrub : Prop :=
  ∀ (s : State) (sl : Nat),
    let x := sliceAt s sl
    (∀ l rest, x.macQueue = l :: rest →
      let same (t : State) : Prop := (sliceAt t sl).macQueue = rest ∧
        (∃ out regs counters host slices, t = { s with out := out, regs := regs, counters := counters, host := host, slices := slices }) ∧
        ∀ k, k ≠ sl → sliceAt t k = sliceAt s k
      (∀ pos, macFind x l.vlan l.mac = none → macFreeWay x (macBucket l.vlan l.mac) = some pos →
        ∃ t, exec (.l2Learn sl []) s = .next t ∧ same t ∧ (sliceAt t sl).mac = tins x.mac pos ⟨l.vlan, l.mac, l.port, false, true⟩) ∧
      (∀ pos e, macFind x l.vlan l.mac = some (pos, e) →
        ∃ t, exec (.l2Learn sl []) s = .next t ∧ same t ∧
          (sliceAt t sl).mac = if e.static_ then x.mac else tins x.mac pos { e with port := l.port, hit := true })) ∧
    (fld s .l2Cfg [sl] 31 16 ≠ 0 → due s (3 + sl) = true →
      ∃ t slices sched, exec (.l2AgingPass sl []) s = .next t ∧ t = { s with slices := slices, sched := sched } ∧
        (∀ k, k ≠ sl → sliceAt t k = sliceAt s k) ∧
        ∀ pos e, (pos, e) ∈ (sliceAt t sl).mac ↔
          ∃ o, (pos, o) ∈ x.mac ∧ (o.static_ = true ∨ o.hit = true) ∧ e = if o.static_ then o else { o with hit := false }) ∧
    (exec (.tcamScrub sl .ok) s = .next (setSlice s sl { x with scrub := (x.scrub + 1) % 32768 })) ∧
    (∃ t, exec (.tcamScrub sl .ue) s = .next t ∧ (sliceAt t sl).scrub = (x.scrub + 1) % 32768 ∧
      (∀ p, tcamAt (sliceAt t sl) p =
        if p = x.scrub ∨ (placeDouble s sl x.scrub = true ∧ p / 2 = x.scrub / 2) then { tcamAt x p with fault := true }
        else tcamAt x p) ∧
      eventAt t (RegName.addr .tcamEvent [sl]) = (eventAt s (RegName.addr .tcamEvent [sl])).raise [2])

/-- FLOW_LOOKUP of a parsed head, with room in its slice's miss buffer, in its slice's turn, no earlier head of its flow
and port held or before its own lookup, no check-bit fault and nothing pending for its key. A record of its key in a
hot slot, of the parity of the open epoch and with room in its counters, serves a head that is no TCP segment: its
lookup is done, as a hot hit, it holds the record's handle, and on its first pass it is posted, billable unless the
verdict denies, and counted once in the record. Without a hot record: an unplaced group makes it a full miss with a
learn pending for its key; with a home that takes accesses and room, its tag line is read, with the slots reserved
that R86 chooses. No other frame changes. -/
def Obligations.FlowLookups : Prop :=
  ∀ (s : State) (id : Nat) (f : Frame), frameAt s id = some f → f.stage = .parsed → f.lookup = .toDo →
    missUsed s f.slice < 4096 → behindHeld s id f = false → overtakes s id f (fun g => g.lookup == .toDo) = false →
    outOfTurn s f = false →
    let k := f.head.key
    let none_ : BankFaults := ⟨[], [], [], false, false, false⟩
    let others (t : State) : Prop := ∀ j, j ≠ id → frameAt t j = frameAt s j
    pendOf s k = none → findWriteBack s k = none →
    (∀ n r, findHot s k = some n → hotAt s n = some r → hotOf s r.idx = some (n, r) →
      f.segment = none → f.pass = 0 → f.count.posted = false → r.bank = parity s →
      let deny := r.body.action.verdict == 1 || r.body.action.verdict == 3
      hotFits r.counts (oneFrame (!deny) f.rxLen) = true →
      ∃ t f' r', exec (.flowLookup id none_) s = .next t ∧ others t ∧ frameAt t id = some f' ∧
        f'.lookup = .done ∧ f'.lookupHow = 1 ∧ f'.handle = handleOf s r.idx ∧ f'.data = f.data ∧
        f'.count.posted = true ∧ f'.count.billable = !deny ∧ f'.count.handle = f'.handle ∧ f'.count.bank = parity s ∧
        f'.count.bytes = f.rxLen ∧ hotAt t n = some r' ∧ r'.counts = r.counts.add (oneFrame (!deny) f.rxLen) ∧
        r'.recent = true ∧ r'.body.lastSeen = seenNow s ∧ r'.body.action = r.body.action ∧
        ∃ counters skein lid frames, t = { s with counters := counters, skein := skein, lid := lid, frames := frames }) ∧
    (findHot s k = none → (bankAt s (bankOf k.bucket)).pending.length < 256 →
      ((groupAt s (groupOf k.bucket)).placed = false →
        ∃ t counters skein frames f', exec (.flowLookup id none_) s = .next t ∧
          t = { s with counters := counters, skein := skein, frames := frames } ∧ others t ∧ frameAt t id = some f' ∧
          f'.lookup = .fullMiss ∧ (pendOf t k).map PendKey.learn = some true) ∧
      (homeTakes s k.bucket = true → ∀ v, (chooseVictim s (hotBucketOf k.bucket) k.slots (some k) = .slot v ∨
          chooseVictim s (hotBucketOf k.bucket) k.slots (some k) = .none) →
        ∃ t skein frames f', exec (.flowLookup id none_) s = .next t ∧ t = { s with skein := skein, frames := frames } ∧
          others t ∧ frameAt t id = some f' ∧ f'.lookup = .tagRead ∧
          pendOf t k = some ⟨k, false, if chooseVictim s (hotBucketOf k.bucket) k.slots (some k) = .none then none else some v,
            id, none, s.time.tick⟩))

/-- TAG_LINE_READ, read clean, of a head whose tag line was asked for and whose home answers: the lowest way with the
key's tag has its record read next; with no such way the head is a full miss. RECORD_BURSTS_READ, read clean, of the
way that is being read, with no update of that record outstanding: another key's record, and no further way with the
tag, makes a full miss; the key's own record, when no set of slots is usable, serves the head from its cold home,
and when one is, becomes hot. The head that is no TCP segment is done, with how it was found. No other frame
changes. -/
def Obligations.LookupReads : Prop :=
  ∀ (s : State) (id : Nat) (f : Frame), frameAt s id = some f →
    let k := f.head.key
    let others (t : State) : Prop := ∀ j, j ≠ id → frameAt t j = frameAt s j
    let goes (t : State) (l : LookupStage) : Prop := others t ∧ ∃ f', frameAt t id = some f' ∧ f'.lookup = l ∧ f'.data = f.data
    homeAnswers s k.bucket = true →
    (f.lookup = .tagRead → ∀ p, pendOf s k = some p →
      (∀ w, candidate s k 0 = some w → ∃ t skein frames, exec (.tagLineRead id .ok []) s = .next t ∧
        t = { s with skein := skein, frames := frames } ∧ goes t .recordRead ∧ pendOf t k = some { p with way := some w, lineAt := s.time.tick }) ∧
      (candidate s k 0 = none → ∃ t counters skein frames, exec (.tagLineRead id .ok []) s = .next t ∧
        t = { s with counters := counters, skein := skein, frames := frames } ∧ goes t .fullMiss)) ∧
    (f.lookup = .recordRead → ∀ p w, pendOf s k = some p → p.way = some w → w < 8 →
      let idx := k.bucket * 8 + w
      (∀ o ∈ s.skein.bursts, o.coldIndex ≠ idx) → (bodyOf s idx).life < 5 →
      ((coldAt s idx).body.key ≠ k → candidate s k (w + 1) = none →
        ∃ t counters skein frames, exec (.recordBurstsRead id .ok) s = .next t ∧
          t = { s with counters := counters, skein := skein, frames := frames } ∧ goes t .fullMiss) ∧
      ((coldAt s idx).body.key = k → f.segment = none →
        (promotionSlots s k p.victim (coldAt s idx).body.slots = .none →
          ∃ t f', exec (.recordBurstsRead id .ok) s = .next t ∧ others t ∧ frameAt t id = some f' ∧ f'.lookup = .done ∧
            f'.lookupHow = 3 ∧ f'.handle = handleOf s idx ∧ pendOf t k = none) ∧
        (∀ n, promotionSlots s k p.victim (coldAt s idx).body.slots = .slot n →
          ∃ t f', exec (.recordBurstsRead id .ok) s = .next t ∧ others t ∧ frameAt t id = some f' ∧ f'.lookup = .done ∧
            f'.lookupHow = 2 ∧ f'.handle = handleOf s idx ∧ (wayAt t idx).hot = true ∧ (wayAt t idx).hotSlot = n)))

/-- WRITE_BACK_DONE of a buffer entry whose home answers, with no update of the record outstanding: the entry frees and
the cold home holds its body. MERGE_REGISTER_RELEASE, once no access came within 16 cc: the hot slot holds what the
merge register held. COLD_HOME_WRITTEN: one kept image of the bucket's tag line goes. SECOND_BURST_READ, read clean,
of a valid record: its oldest update leaves the list and is added to, less what it subtracts, the bank it names.
TWIN_NOTICE: the notice is gone, and a hot twin takes a RST as TCP state 7. CORRECTION of a billable frame counted
in a record whose hot copy holds its bank and its billable count: the correction is gone, and one frame of the bytes
counted leaves the billable counts and one of the bytes received joins the void ones there. Only the flow store and
the Lid change. -/
def Obligations.RecordUpkeep : Prop :=
  ∀ s : State,
    (∀ bank n e, (bankAt s bank).writeBack[n]? = some e → homeAnswers s e.bucket = true →
      (∀ o ∈ s.skein.bursts, o.coldIndex ≠ e.record.idx) →
      ∃ t skein lid, exec (.writeBackDone bank n) s = .next t ∧ t = { s with skein := skein, lid := lid } ∧
        (bankAt t bank).writeBack = (bankAt s bank).writeBack.eraseIdx n ∧
        (coldAt t e.record.idx).body = e.record.body) ∧
    (∀ slot r, tfind s.skein.merged slot = some r → inMerge s slot = false →
      ∃ t hot merged mergedAt, exec (.mergeRegisterRelease slot) s = .next t ∧
        t = { s with skein := { s.skein with hot := hot, merged := merged, mergedAt := mergedAt } } ∧ tfind hot slot = some r ∧
        ∀ n, n ≠ slot → tfind hot n = tfind s.skein.hot n ∧ tfind merged n = tfind s.skein.merged n) ∧
    (∀ b, exec (.coldHomeWritten b) s = .next { s with skein := { s.skein with inFlight := s.skein.inFlight.erase b } }) ∧
    (∀ idx i o, s.skein.bursts.findIdx? (fun o => o.coldIndex == idx) = some i → s.skein.bursts[i]? = some o →
      homeAnswers s (idx / 8) = true → (wayAt s idx).valid = true →
      let bank (u : State) : Counts := if o.bank % 2 = 0 then (coldAt u idx).bank0 else (coldAt u idx).bank1
      ∃ t skein lid, exec (.secondBurstRead idx .ok) s = .next t ∧ t = { s with skein := skein, lid := lid } ∧
        t.skein.bursts = s.skein.bursts.eraseIdx i ∧
        (bank t).billPkts = ofInt 40 ((bank s).billPkts + o.add.billPkts - o.sub.billPkts) ∧
        (bank t).billBytes = ofInt 48 ((bank s).billBytes + o.add.billBytes - o.sub.billBytes) ∧
        (bank t).voidPkts = ofInt 32 ((bank s).voidPkts + o.add.voidPkts - o.sub.voidPkts) ∧
        (bank t).voidBytes = ofInt 40 ((bank s).voidBytes + o.add.voidBytes - o.sub.voidBytes)) ∧
    (∀ n x, s.skein.notices[n]? = some x →
      ∃ t skein, exec (.twinNotice n) s = .next t ∧ t = { s with skein := skein } ∧
        t.skein.notices = s.skein.notices.eraseIdx n ∧
        (∀ slot r, current s x.handle = true → x.rst = true → hotOf s (handleIdx x.handle) = some (slot, r) →
          hotAt t slot = some { r with body := r.body.toTcp 7 })) ∧
    (∀ n c slot r ue, s.lid.corrections[n]? = some c → c.flowless = false → c.count.billable = true → current s c.count.handle = true →
      hotOf s (handleIdx c.count.handle) = some (slot, r) → r.bank = c.count.bank → 1 ≤ r.counts.billPkts →
      c.count.bytes ≤ r.counts.billBytes → hotFits r.counts (oneFrame false c.bytes) = true →
      ∃ t skein lid, exec (.correction n ue) s = .next t ∧ t = { s with skein := skein, lid := lid } ∧
        lid.corrections = s.lid.corrections.eraseIdx n ∧
        hotAt t slot = some { r with counts := ⟨r.counts.billPkts - 1, r.counts.billBytes - c.count.bytes,
          r.counts.voidPkts + 1, r.counts.voidBytes + c.bytes⟩ })

/-- LEARN_REQUEST of a full miss that is classified, in a valid zone, not to a public address, no TCP segment and no
fragment, with a next hop: within its port's limits and with room it joins its slice's learn queue and the port has
one live flow more; refused, on a port whose EXCESS is drop, it leaves the device. FITCH_LEARN, with no block event
waiting for the matching store, takes the first learn in round-robin order whose home takes it: for a key that has
no record, of a profile that neither translates nor balances, it writes a valid record with the key's tag into the
lowest free way of the bucket and the head is done, found by the new record. No other frame changes. -/
def Obligations.Learning : Prop :=
  ∀ (s : State) (id : Nat) (f : Frame), FramesListed s → FixedParts s → frameAt s id = some f →
    let k := f.head.key
    let others (t : State) : Prop := ∀ j, j ≠ id → frameAt t j = frameAt s j
    f.stage = .parsed → f.cls.done = true → bit f.cls.zoneImage 63 = true → f.cls.natDst = none → k.proto ≠ 6 →
    f.head.frag = false → (learnHop f.cls).isSome = true →
    (f.lookup = .fullMiss → f.slice < 8 →
      (learnRefused s f.port = false → (s.skein.learnQ.getD f.slice []).length < 65536 →
        ∃ t counters skein frames, exec (.learnRequest id) s = .next t ∧
          t = { s with counters := counters, skein := skein, frames := frames } ∧ others t ∧
          frameAt t id = some { f with lookup := .learnQueued } ∧
          t.skein.learnQ.getD f.slice [] = s.skein.learnQ.getD f.slice [] ++ [id] ∧
          tget 0 t.skein.live f.port = tget 0 s.skein.live f.port + 1) ∧
      (learnRefused s f.port = true → fld s .lrnCfg (portIx f.port) 30 30 = 1 →
        ∃ t, exec (.learnRequest id) s = .next t ∧ frameAt t id = none ∧ others t ∧ pendOf t k = none)) ∧
    (∀ sl idx rest,
      nextRR 8 s.skein.lastLearn (fun n => match learnFront s n with
        | some (_, g) => !(groupAt s (groupOf g.head.key.bucket)).placed || homeTakes s g.head.key.bucket
        | none => false) = some sl →
      s.skein.learnQ.getD sl [] = id :: rest → sl < 8 → f.segment = none → findWay s k = none → freeWayOf s k.bucket = some idx →
      profNat (learnProfile s f) = 0 → profLb (learnProfile s f) = false →
      s.sched.stalled.any (isTask 0xF004) = false →
      (∀ n, chooseVictim s (hotBucketOf k.bucket) n none ≠ .wait) →
      ∃ t f', exec (.fitchLearn []) s = .next t ∧ others t ∧ frameAt t id = some f' ∧ f'.lookup = .done ∧ f'.lookupHow = 4 ∧
        f'.handle = mkHandle (wayAt s idx).gen idx ∧ (wayAt t idx).valid = true ∧ (wayAt t idx).tag = k.tag ∧
        (wayAt t idx).gen = (wayAt s idx).gen ∧ (coldAt t idx).body.key = k ∧ (coldAt t idx).learnPort = f.port ∧
        t.skein.learnQ.getD sl [] = rest ∧ t.skein.lastLearn = sl)

/-- The timed tasks act when they are due. ACTIVITY_TICK halves every hot score, adds 128 to a record's hit since the
last one, clears its hit, and seasons every bucket by one up to three. AGING_SWEEP_BATCH of one bucket inside a
pass, with no drain, quarantine, recount or lost translation state in progress: the cursor moves on; an empty bucket
changes nothing else; one record that is not exported is asked to end exactly when it has expired and is not asked
for already. END_REQUEST of the oldest request: a valid record that still has expired is freed, its generation one
further; any other is left. A sweep visit notes its time. MIGRATION_DECISION empties the window's counts, starts no
second move, and starts one only when enabled, from the frame a placed group has to a free frame of a live
pseudo-channel. GROUP_MOVE_BUCKET holds new accesses while earlier ones to the bucket are in flight, then copies it;
after the last one the group map names the new frame. SKEIN_PC_RETIRE, once an engine runs it, leaves no record
valid in a group that stood on the pseudo-channel, puts such a group only on live ones, and moves no other group. -/
def Obligations.FlowClockwork : Prop :=
  ∀ s : State,
    (due s 0 = true → ∃ t skein sched, exec .activityTick s = .next t ∧ t = { s with skein := skein, sched := sched } ∧
      (∀ n, tfind t.skein.hot n = (tfind s.skein.hot n).map (fun r =>
        { r with score := r.score / 2 + (if r.recent then 128 else 0), recent := false })) ∧
      (∀ n, tfind t.skein.merged n = (tfind s.skein.merged n).map (fun r =>
        { r with score := r.score / 2 + (if r.recent then 128 else 0), recent := false })) ∧
      (∀ n, tfind t.skein.season n = (tfind s.skein.season n).map (fun x => min 3 (x + 1)))) ∧
    (∀ b, b = s.skein.sweepNext → due s 1 = true →
      b ≠ 0 → b + 1 < 16777216 → ((groupAt s (groupOf b)).placed = true → homeTakes s b = true) →
      s.rules.quarantine = [] → s.actions.draining = [] → s.actions.natEnding = [] → s.skein.recounting = false →
      ((∀ w, w < 8 → (wayAt s (b * 8 + w)).valid = false) →
        ∃ t visits sched, exec (.agingSweepBatch 1 [] []) s = .next t ∧
          t = { s with skein := { s.skein with sweepNext := b + 1, visits := visits }, sched := sched }) ∧
      (∀ v, v < 8 → (wayAt s (b * 8 + v)).valid = true → (∀ w, w < 8 → w ≠ v → (wayAt s (b * 8 + w)).valid = false) →
        (bodyOf s (b * 8 + v)).life < 5 → (bodyOf s (b * 8 + v)).action.exportMode < 2 →
        ∃ t visits endReqs sched, exec (.agingSweepBatch 1 [] []) s = .next t ∧
          t = { s with skein := { s.skein with sweepNext := b + 1, visits := visits, endReqs := endReqs }, sched := sched } ∧
          endReqs = if expired s (bodyOf s (b * 8 + v)) = true ∧ s.skein.endReqs.contains (b * 8 + v) = false
            then s.skein.endReqs ++ [b * 8 + v] else s.skein.endReqs)) ∧
    (∀ idx rest, s.skein.endReqs = idx :: rest →
      (((wayAt s idx).valid = false ∨ expired s (bodyOf s idx) = false) →
        exec .endRequest s = .next { s with skein := { s.skein with endReqs := rest } }) ∧
      ((wayAt s idx).valid = true → expired s (bodyOf s idx) = true → (coldAt s idx).body.kind = 0 → (bodyOf s idx).kind = 0 →
        ∃ t, exec .endRequest s = .next t ∧ (wayAt t idx).valid = false ∧ (wayAt t idx).gen = ((wayAt s idx).gen + 1) % 32 ∧
          t.skein.endReqs = rest ∧ (∀ j, j ≠ idx → wayAt t j = wayAt s j))) ∧
    (due s 2 = true → ∃ t skein sched, exec .migrationDecision s = .next t ∧ t = { s with skein := skein, sched := sched } ∧
      skein.opsPc = [] ∧ skein.opsGroup = [] ∧ skein = { s.skein with move := skein.move, opsPc := [], opsGroup := [] } ∧
      (s.skein.move ≠ none ∨ fld s .sknMigCfg [] 31 31 = 0 → skein.move = s.skein.move) ∧
      (s.skein.move = none → ∀ m, skein.move = some m → m.cursor = 0 ∧ (groupAt s m.group).placed = true ∧
        pcLive s (groupAt s m.group).pc = true ∧ pcLive s m.dstPc = true ∧ freeFrameOf s m.dstPc = some m.dstFrame)) ∧
    (∀ m, s.skein.move = some m →
      let b := m.group * 256 + m.cursor
      let busy := bucketBusy s b || s.skein.bursts.any (fun o => o.coldIndex / 8 == b)
      (busy = true → exec .groupMoveBucket s = .next { s with skein := { s.skein with move := some { m with holding := true } } }) ∧
      (busy = false → m.cursor + 1 < 256 → exec .groupMoveBucket s = .next { s with skein := { s.skein with
        move := some { m with cursor := m.cursor + 1, holding := false } } }) ∧
      (busy = false → 256 ≤ m.cursor + 1 → ∃ t groups, exec .groupMoveBucket s = .next t ∧
        t = { s with skein := { s.skein with move := none, groups := groups } } ∧
        groupAt t m.group = ⟨true, m.dstPc, m.dstFrame⟩ ∧ ∀ g, g ≠ m.group → groupAt t g = groupAt s g)) ∧
    (∀ r rest u, s.hbm.retiring = r :: rest → takeItem s (fun i => isTask 0xF003 i && i.params == [byte r.pc]) = some u →
      let onIt (g : Nat) : Prop := g < 65536 ∧ (groupAt s g).placed = true ∧ (groupAt s g).pc = r.pc
      ∃ t, exec .skeinPcRetire s = .next t ∧ t.hbm = { s.hbm with retiring := rest } ∧
        (∀ g, onIt g → ((groupAt t g).placed = true → pcLive s (groupAt t g).pc = true) ∧
          ∀ i, i < 2048 → (wayAt t (g * 2048 + i)).valid = false) ∧
        (∀ g, g < 65536 → ¬ onIt g → groupAt t g = groupAt s g))

/-- CELL_ADMIT of a slice completes. Where one frame waits for its first cell (unicast, multicast or punted, at most 256
bytes as sent, no deep scan asked for, its tail not bad), no stored frame of the slice needs a further cell, and the
frame is taken (a unicast one's port is not closed, a multicast one finds room in the replication queue, both in the
pointer store; a punted one has a channel and room among 1,024): with its owner below Q_MAX and either below MIN or
within its dynamic share, and the head of the free list passing its link check, it holds that cell and one
reference, its owner is charged one cell, and it joins the end of its owner's virtual output queue, of the
replication queue, or of the punt queue. At Q_MAX it leaves the device, its owner's drop is counted and no cell is
taken. At a closed port a unicast frame leaves the device and takes no cell. MULTICAST_REPLICATE of the oldest frame
with at most eight open ports to serve, and room in the pointer store, queues it for each of them, each copy a
reference, in exchange for the engine's own. LIST_REBUILD_DONE lets allocation resume. Other frames keep their
state. -/
def Obligations.CellAdmission : Prop :=
  ∀ (s : State) (sl id : Nat) (f : Frame), FramesListed s → frameAt s id = some f → f.slice = sl →
    let others (t : State) : Prop := ∀ j, j ≠ id → frameAt t j = frameAt s j
    let q := f.owner
    let u := ownUse s sl q
    let x := storeAt s sl
    let taken : Prop :=
      if f.punt.isSome = true then puntTarget s (f.punt.getD 0) = true ∧ x.punt.length < 1024
      else ptrUsed x < 65536 ∧ (if f.mc = true then x.repl.length < 256 else portClosed s (f.egress.headD 0) = false)
    (f.stage = .admitting → f.requester < 6 → requestOf s sl f.requester = some id →
      (∀ r, r ≠ f.requester → requestOf s sl r = none) → f.txLen ≤ 256 → f.deepQueued = false → f.tail ≠ .bad →
      (∀ e ∈ s.frames, e.2.slice = sl → e.2.cellList ≠ [] → cellsNeeded s e.2 ≤ e.2.cellList.length) →
      (f.punt = none → f.mc = false → portClosed s (f.egress.headD 0) = true →
        ∃ t, exec (.cellAdmit sl []) s = .next t ∧ frameAt t id = none ∧ others t ∧
          (storeAt t sl).freshCell = x.freshCell ∧ (storeAt t sl).freed = x.freed) ∧
      (taken → ownMax s sl q ≠ 0 → ownMax s sl q ≤ u →
        ∃ t, exec (.cellAdmit sl []) s = .next t ∧ frameAt t id = none ∧ others t ∧
          tget 0 (storeAt t sl).drops q = min (tget 0 x.drops q + 1) (2 ^ 32 - 1) ∧
          (storeAt t sl).freshCell = x.freshCell ∧ (storeAt t sl).freed = x.freed) ∧
      (taken → ∀ cell c1, x.rebuilding = false → x.take = some (cell, c1) →
        (x.free ≤ 1 ∨ c1.linkHolds (linkWord (c1.head.getD 0)) = true) → (∀ n, c1.head = some n → n < 65536) →
        (ownMax s sl q = 0 ∨ u < ownMax s sl q) →
        (u < ownMin s sl q ∨ (1 ≤ admitFree s sl ∧ (u - ownMin s sl q) * 64 < admitFree s sl * 2 ^ ownAlpha s sl q)) →
        ∃ t f', exec (.cellAdmit sl []) s = .next t ∧ others t ∧ frameAt t id = some f' ∧
          f'.stage = (if f.punt.isSome then .punted else .queued) ∧
          f'.cellList = [cell] ∧ f'.refs = 1 ∧ f'.cut = cutThrough s f q ∧ f'.data = f.data ∧
          (f.punt.isSome = true → (storeAt t sl).punt = x.punt ++ [id]) ∧
          (f.punt = none → f.mc = true → (storeAt t sl).repl = x.repl ++ [(id, f.egress)]) ∧
          (f.punt = none → f.mc = false → tget [] (storeAt t sl).voq q = tget [] x.voq q ++ [id]) ∧
          ownUse t sl q = u + 1 ∧ (storeAt t sl).freshCell = c1.freshCell ∧ (storeAt t sl).freed = c1.freed ∧
          ∀ k, k ≠ sl → storeAt t k = storeAt s k)) ∧
    (∀ ports rest, x.repl = (id, ports) :: rest → ports.length ≤ 8 → ports.Nodup → ports ≠ [] →
      (∀ p ∈ ports, portClosed s p = false) → ptrUsed x + 8 ≤ 65536 → 1 ≤ f.refs →
      ∃ t frames cells, exec (.multicastReplicate sl) s = .next t ∧ t = { s with frames := frames, cells := cells } ∧
        others t ∧ frameAt t id = some { f with refs := f.refs + ports.length - 1 } ∧ (storeAt t sl).repl = rest ∧
        ∀ p ∈ ports, tget [] (storeAt t sl).voq (ownerQ p f.tc) = tget [] x.voq (ownerQ p f.tc) ++ [id]) ∧
    exec (.listRebuildDone sl) s = .next (setStore s sl { x with rebuilding := false })

/-- WALE_MATCH, with no descriptor read uncorrectable, completes: the units it sends join those in flight, in order;
each holds one to five segments of at most 256 bytes in all, no slice sends more than six and no slice is sent more
than six, as each has six feeds; and neither egress nor line changes. Where one queue of one slice can form one unit
and no other queue can form any, exactly that unit is sent. UNIT_ARRIVE of a unit that brings a whole frame to an
egress queue, none of which is there or on the wire, at a port that runs no gate list: the unit is no longer in
flight, the frame stands behind those that joined before it, and the unit takes its room there until its last byte
is sent. Only the crossbar and egress change. -/
def Obligations.CrossbarTime : Prop :=
  ∀ s : State,
    (∃ t new, exec (.waleMatch none) s = .next t ∧ t.wale.flight = s.wale.flight ++ new ∧
      (∀ u ∈ new, 1 ≤ u.segs.length ∧ u.segs.length ≤ 5 ∧ (u.segs.map Seg.bytes).foldl (· + ·) 0 ≤ 256) ∧
      (∀ i, (new.filter (fun u => u.slice == i)).length ≤ 6) ∧
      (∀ e, (new.filter (fun u => u.eq / 256 == e)).length ≤ 6) ∧ t.egress = s.egress ∧ t.line = s.line) ∧
    (∀ i q segs, i < 8 → q < 2048 → formable s i q = [segs] →
      (∀ j k, j < 8 → (j ≠ i ∨ k ≠ q) → formable s j k = []) →
      ∃ t, exec (.waleMatch none) s = .next t ∧ t.wale.flight = s.wale.flight ++ [⟨i, q, segs⟩]) ∧
    (∀ sl port cls u id n b f, s.wale.flight.find? (fun u => u.slice == sl && u.eq == eqNum port cls) = some u →
      u.segs = [⟨id, n, true, b⟩] → frameAt s id = some f → cls < 8 → (egAt s port).gate.running = false →
      (∀ x, (egAt s port).sending = some x → x.part.frame ≠ id) →
      (∀ p ∈ (eqAt s (eqNum port cls)).parts, p.frame ≠ id) →
      let e := eqAt s (eqNum port cls)
      ∃ t wale egress, exec (.unitArrive sl port cls) s = .next t ∧ t = { s with wale := wale, egress := egress } ∧
        t.wale.flight = s.wale.flight.erase u ∧
        eqAt t (eqNum port cls) = { e with
          parts := e.parts.filter (fun p => p.joined) ++ [⟨id, sl, n, true⟩] ++ e.parts.filter (fun p => !p.joined),
          units := e.units ++ [(id, n)] } ∧
        (∀ k, k ≠ eqNum port cls → eqAt t k = eqAt s k))

/-- EGRESS_PICK of a port that can start, no bucket reading uncorrectable, without a running gate list and without a
port shaper, when a class in strict priority has an eligible head: the highest such class is picked, its head leaves
the queue and is on the wire from now, at the port's time; an enabled queue shaper is charged its length. Only
egress changes, but for the timestamp event of an injected frame that asked for one. FRAME_SENT, at a port in no
near loop, of a whole unicast frame whose tail is good and whose cells nothing holds any more: the frame leaves the
port with its FCS, the wire is free and the frame is no longer in the device; the scheduler's other ports are
untouched. -/
def Obligations.PickAndSend : Prop :=
  ∀ (s : State) (port : Nat),
    (∀ c p f, canStart s port = true → (egAt s port).gate.running = false → shpOn s port = false →
      c < 8 → strictClass s port c = true → eligibleHead s port c = some (p, f) →
      (∀ k, c < k → k < 8 → strictClass s port k = true → eligibleHead s port k = none) → p.got = f.txLen →
      let q := eqNum port c
      ∃ t egress, exec (.egressPick port none) s = .next t ∧ t.egress = egress ∧
        (f.tsKind ≠ 1 → t = { s with egress := egress }) ∧
        (egAt t port).sending = some ⟨c, p, s.time.tick, portTime s port true, stampDomain s port⟩ ∧
        (eqAt t q).parts = (eqAt s q).parts.drop 1 ∧ (∀ k, k ≠ q → eqAt t k = eqAt s k) ∧
        (∀ k, k ≠ port → egAt t k = egAt s k) ∧
        (shqOn s q = false → egress.shapers = s.egress.shapers) ∧
        (shqOn s q = true → tget Bucket.reset egress.shapers q =
          (shqBucket s q).spend (chargedLen f.txLen (fld s .shqCfg (shqIx q) 27 20)))) ∧
    (∀ x f, FramesListed s → (egAt s port).sending = some x → frameAt s x.part.frame = some f → x.part.got = f.txLen →
      f.tail = .good → f.mc = false → f.refs = 0 → nearLoop s port = false →
      ∃ t pre, exec (.frameSent port) s = .next t ∧ (egAt t port).sending = none ∧ frameAt t x.part.frame = none ∧
        (∀ j, j ≠ x.part.frame → frameAt t j = frameAt s j) ∧ (∀ k, k ≠ port → egAt t k = egAt s k) ∧
        t.out = pre ++ .frame port (f.wire x.startTime ++ le 4 (f.wireFcs (f.wire x.startTime))) :: s.out)

/-- While an epoch is open, not deferred, outside standby: EPOCH_BOUNDARY at the nominal boundary without SYNC_EN,
EPOCH_SYNC_PULSE in its window with SYNC_EN, and SYNC_TIMEOUT at the window's end without a pulse, each switch the
banks when no close runs: the open epoch begins to drain, closed with that cause and the lifecycle in force, the
next sequence opens with that cause, and a pending PROVISION or SEAL takes effect (when its burn verifies, if one is
made); counts, images, frames and outstanding frames stand. While a close runs, a boundary is deferred and only
noted, with BOUNDARY_DEFERRED raised. A pulse that is not taken, the second of a window among them, leaves the
epochs as they are, shows its offset and raises SYNC_IGNORED. STANDBY_CLOSE_WAKE in standby, 5 ms before the
boundary, leaves retention to close. -/
def Obligations.EpochBoundaries : Prop :=
  ∀ s : State,
    let now := timeNs s.time.served
    let w := syncWindow s
    let switched (t : State) (how : Nat) (offset : Int) : Prop :=
      (∃ fresh out regs log host skein rim lid sched, t =
        { s with fresh := fresh, out := out, regs := regs, log := log, host := host, skein := skein, rim := rim, lid := lid, sched := sched }) ∧
      t.lid.opened = true ∧ t.lid.deferred = false ∧ t.lid.epoch.seq = s.lid.epoch.seq + 1 ∧ t.lid.epoch.openHow = how ∧
      t.lid.epoch.openTick = s.time.tick ∧ t.lid.epoch.gaps = [] ∧
      (∃ c, t.lid.closing = some c ∧ c.epoch.seq = s.lid.epoch.seq ∧ c.phase = .drain ∧ c.closeHow = how ∧
        c.closeOffset = offset ∧ c.closeTick = s.time.tick ∧ c.lifecycle = s.rim.lifecycle) ∧
      t.rim.lifecycle = (if s.rim.pendingLc = 0 then s.rim.lifecycle else s.rim.pendingLc) ∧ t.rim.pendingLc = 0 ∧
      t.lid.zones = s.lid.zones ∧ t.lid.ports = s.lid.ports ∧ t.lid.classes = s.lid.classes ∧
      t.lid.outstanding = s.lid.outstanding ∧ t.skein.ways = s.skein.ways ∧ t.skein.hot = s.skein.hot ∧
      t.skein.cold = s.skein.cold
    (awaitsBoundary s = true → syncEn s = false → s.lid.nextBoundary ≤ now →
      (∀ b, s.lid.closing = none → (b = false ∨ s.rim.pendingLc = 0) → ∃ t, exec (.epochBoundary b) s = .next t ∧ switched t 0 0) ∧
      (∀ b, s.lid.closing.isSome = true → ∃ t, exec (.epochBoundary b) s = .next t ∧
        t.lid = { s.lid with deferred := true, epoch := { s.lid.epoch with deferred := true } } ∧
        eventAt t (RegName.addr .lidEvent []) = (eventAt s (RegName.addr .lidEvent [])).raise [2])) ∧
    (∀ b, awaitsBoundary s = true → syncEn s = true → s.lid.closing = none → (b = false ∨ s.rim.pendingLc = 0) →
      (-(w : Int) ≤ boundaryOffset s → boundaryOffset s ≤ (w : Int) → (windowNow s = none ∨ s.lid.pulseWindow ≠ windowNow s) →
        ∃ t, exec (.epochSyncPulse b) s = .next t ∧ switched t 1 (boundaryOffset s)) ∧
      (s.lid.nextBoundary + w ≤ now → ∃ t, exec (.syncTimeout b) s = .next t ∧ switched t 2 (w : Int))) ∧
    (∀ b, (awaitsBoundary s = false ∨ syncEn s = false ∨ s.lid.closing.isSome = true ∨ boundaryOffset s < -(w : Int) ∨
        (w : Int) < boundaryOffset s ∨ ((windowNow s).isSome = true ∧ s.lid.pulseWindow = windowNow s)) →
      ∃ t, exec (.epochSyncPulse b) s = .next t ∧ t.rim = s.rim ∧ t.skein = s.skein ∧
        t.lid = { s.lid with pulseWindow := if (windowNow s).isSome then windowNow s else s.lid.pulseWindow } ∧
        inForce t .lidSyncLast [] = ofInt 32 (pulseOffset s) ∧ s.log.next < t.log.next ∧
        eventAt t (RegName.addr .lidEvent []) = (eventAt s (RegName.addr .lidEvent [])).raise [1]) ∧
    (s.power.state = 2 → s.lid.opened = true → s.lid.nextBoundary ≤ now + (if syncEn s then w else 0) + 5000000 →
      ∃ t hbm, exec (.standbyCloseWake []) s = .next t ∧
        t = { s with power := { s.power with state := 4 }, hbm := hbm } ∧ hbm.pcs = s.hbm.pcs)

/-- While a close runs, its task on an engine or gone, and no reset waits for it: in the drain, DRAIN_COMPLETE begins
the sweep exactly when no slice has a frame of the closed bank outstanding, and DRAIN_LIMIT, at the limit, discards
a frame of that bank that still waits before its final Rewrite and adds a gap of kind 11. In the sweep,
CLOSE_SWEEP_BUCKET waits for what is in flight to the bucket's home and else moves on; where the bucket holds one
valid record, cold only, with counts in the closed bank, and nothing reads uncorrectable, those go to its zone's
totals of the closed epoch and the bank is left zero; after the last bucket the digests follow. HASH_COMPLETE makes
the seal body from the closed epoch's images; an entry of the port and class image that reads uncorrectable is
hashed as zero, with a gap of kind 8. SEAL_SIGNED publishes the seal, its body and 96 bytes of signature (zero for
the lifecycle BLANK), into the ring and the log, and the next one chains from it. IMAGE_ZEROED ends the close: the
copy that the epoch after next uses is zero, the two others stand, and a deferred boundary is made up for at once,
with cause 4. -/
def Obligations.EpochClose : Prop :=
  ∀ (s : State) (c : Closing), s.lid.closing = some c → ImagesKept s.lid → itemWaits s (isTask 0xF001) = false →
    s.rim.transition = none →
    let bank := c.epoch.seq % 2
    (c.phase = .drain →
      exec .drainComplete s = .next (if drained s c = true then
        { s with lid := { s.lid with closing := some { c with phase := .sweep, sweepNext := 0 } } } else s) ∧
      (∀ id f, FramesListed s → c.closeTick + drainTicks c.epoch ≤ s.time.tick → drainWaits s bank = [id] →
        frameAt s id = some f → f.stage ≠ .queued → f.stage ≠ .punted → f.stage ≠ .left →
        ∃ t, exec .drainLimit s = .next t ∧ frameAt t id = none ∧ (∀ j, j ≠ id → frameAt t j = frameAt s j) ∧
          t.lid.closing = some { c with epoch := { c.epoch with
            gaps := gapInto c.epoch.gaps 11 0 1 (servedSec s) (servedNs s) } })) ∧
    (c.phase = .sweep → ∀ ue zones,
      let b := c.sweepNext
      let placed := (groupAt s (groupOf b)).placed
      let c' : Closing := if b + 1 = 16777216 then { c with phase := .hash, sweepNext := b + 1 } else { c with sweepNext := b + 1 }
      let cache (l : List Nat) : List Nat := if b + 1 = 16777216 then l.filter (fun k => k / 2 ^ 19 != c.epoch.seq % 3) else l
      (∀ tag, placed = true → (homeTakes s b = false ∨ bucketBusy s b = true) → exec (.closeSweepBucket ue tag zones) s = .next s) ∧
      (∀ tag, (placed = false ∨ (tag = false ∧ homeTakes s b = true ∧ bucketBusy s b = false ∧
          ∀ v, v < 8 → (wayAt s (b * 8 + v)).valid = false)) →
        exec (.closeSweepBucket ue tag zones) s =
          .next { s with lid := { s.lid with closing := some c', zoneCache := cache s.lid.zoneCache } }) ∧
      (∀ v, v < 8 → homeTakes s b = true → bucketBusy s b = false → (wayAt s (b * 8 + v)).valid = true →
        (∀ u, u < 8 → u ≠ v → (wayAt s (b * 8 + u)).valid = false) → (∀ o ∈ s.skein.bursts, o.coldIndex ≠ b * 8 + v) →
        let idx := b * 8 + v
        let r := coldAt s idx
        let n := if bank = 0 then r.bank0 else r.bank1
        let k := seqOfBank s bank % 3
        ue.contains idx = false → zones.contains r.body.key.zone = false →
        hotOf s idx = none → writeBackOf s idx = none → n ≠ Counts.zero →
        ∃ t skein lid, exec (.closeSweepBucket ue false zones) s = .next t ∧ t = { s with skein := skein, lid := lid } ∧
          lid.closing = some c' ∧ lid.zoneCache = cache (cacheLine s.lid.zoneCache (zoneLine s r.body.key.zone bank)) ∧
          coldAt t idx = (if bank = 0 then { r with bank0 := Counts.zero } else { r with bank1 := Counts.zero }) ∧
          zoneTotals t k r.body.key.zone = (zoneTotals s k r.body.key.zone).move n Counts.zero ∧
          (∀ z, z ≠ k * 2 ^ 20 + r.body.key.zone → tget Counts.zero lid.zones z = tget Counts.zero s.lid.zones z))) ∧
    (c.phase = .hash →
      exec (.hashComplete []) s = .next { s with lid := { s.lid with closing := some { c with phase := .sign, body := closingBody s c } } } ∧
      (∀ i, i < 320 → ∃ t d, exec (.hashComplete [i]) s = .next t ∧ t.lid.closing = some d ∧ d.phase = .sign ∧
        d.epoch.gaps = gapInto c.epoch.gaps 8 i 1 (servedSec s) (servedNs s) ∧ d.body = closingBody t d ∧
        portEntry t (c.epoch.seq % 3) i = zeros (if i < 256 then 64 else 32) ∧
        (∀ j, j < 320 → j ≠ i → portEntry t (c.epoch.seq % 3) j = portEntry s (c.epoch.seq % 3) j) ∧ t.lid.zones = s.lid.zones)) ∧
    (c.phase = .sign →
      ∃ t sig, exec .sealSigned s = .next t ∧ sig.length = 96 ∧ (c.lifecycle = 0 → sig = zeros 96) ∧
        t.lid.seals.head? = some (c.epoch.seq, c.body ++ sig) ∧ t.lid.prevRoot = sealRoot c.body ∧
        t.lid.chainRestart = false ∧ t.lid.closing = some { c with phase := .publish } ∧ t.lid.lastSealed = some c.epoch ∧
        t.lid.zones = s.lid.zones ∧ s.log.next < t.log.next ∧
        eventAt t (RegName.addr .lidEvent []) = (eventAt s (RegName.addr .lidEvent [])).raise [0]) ∧
    (c.phase = .publish → s.lid.interrupt = false → s.power.state ≠ 4 →
      let k := (c.epoch.seq + 2) % 3
      (∀ b, s.lid.deferred = false → ∃ t lid hbm sched trace counters, exec (.imageZeroed b) s = .next t ∧
        t = { s with lid := lid, hbm := hbm, sched := sched, trace := trace, counters := counters } ∧
        lid.closing = none ∧ (∀ z, z < 2 ^ 20 → zoneTotals t k z = Counts.zero ∧
          ∀ j, j < 3 → j ≠ k → zoneTotals t j z = zoneTotals s j z) ∧
        (∀ p, p < 256 → portTotals t k p = ⟨Counts.zero, Counts.zero⟩) ∧ (∀ x, x < 64 → classTotals t k x = Counts.zero)) ∧
      (∀ b, s.lid.deferred = true → (b = false ∨ s.rim.pendingLc = 0) → ∃ t d, exec (.imageZeroed b) s = .next t ∧
        t.lid.closing = some d ∧ d.phase = .drain ∧
        d.closeHow = 4 ∧ d.epoch.seq = s.lid.epoch.seq ∧ t.lid.epoch.seq = s.lid.epoch.seq + 1 ∧ t.lid.opened = true))

/-- For a command that passes Table 12-4 and runs alone: NOP is answered and changes nothing; ABORT of one waiting
command of its tag ends that with ST_ABORTED and answers 1; DEV_INFO, VERSION_INFO and CNT_SNAPSHOT answer their
data and change nothing; REG_READ of one register answers what a read of it returns; REG_WRITE of one plain register
that the write reaches lands the value and answers 0 refused; CHAIN_ENUM with both chain ports down answers one
device, with CHAIN1 up sends address 1 there and waits; ABANDON makes the draft what the current version is, in
every store. COMMIT of the next version, no block of a search array moving, copies DRAFT into its column and waits;
VERSION_SWITCH then makes it current, gives it the draft's digest and answers with version and time. -/
def Obligations.ControlCommands : Prop :=
  ∀ (s : State) (h : CmdHeader) (p : List Byte),
    (RunsAlone s 0x0000 h p 0 true → exec (.nop h p) s = .next (answered s h (.ok []))) ∧
    (∀ i : Item, CommandRuns s 0x0001 h p 4 true → i.kind = .command → i.code ≠ 0x0001 → i.header.tag = leAt p 0 4 →
      i.header.fn = h.fn → i.header.dev = h.dev → i.header.viaChain = none → i.header.replyRing < lostRing →
      (ringAt s (i.header.fn / 2) 1 i.header.replyRing).en = true → s.sched.stalled = [] → s.sched.store = [i] → s.sched.ready.flatten = [] →
      (∀ e ∈ s.sched.engines, e.item = none) →
      exec (.abort h p) s = .next (answered (answered { s with sched := { s.sched with store := [] } } i.header (.of stAborted))
        h (.ok (le 4 1)))) ∧
    (RunsAlone s 0x0002 h p 0 true → exec (.devInfo h p) s = .next (answered s h (.ok (devInfoData s)))) ∧
    (RunsAlone s 0x0103 h p 0 true → exec (.versionInfo h p) s = .next (answered s h
      (.ok (le 2 s.rules.current ++ (List.range 8).flatMap (fun sl => le 2 (sliceAt s sl).oldest))))) ∧
    (RunsAlone s 0x0801 h p 4 (decide (1 ≤ leAt p 2 2) && decide (leAt p 2 2 ≤ 1016) && decide (leAt p 0 2 + leAt p 2 2 ≤ 1024)) →
      h.resume = false →
      exec (.cntSnapshot h p) s = .next (answered s h (.fan ((fanParts h).map (fun k => (k, stOk, 0)))
        ((fanParts h).flatMap (fun k => (List.range (leAt p 2 2)).flatMap (fun i =>
          le 8 (counterAt s (if h.slices = 0 then 0 else k + 1) (leAt p 0 2 + i)))))))) ∧
    (RunsAlone s 0x0004 h p 6 (offsetFine (leAt p 0 4)) → leAt p 4 2 = 1 →
      let r := readReg s ⟨h.fn, true⟩ (leAt p 0 4) .w32
      exec (.regRead h p) s = .next (answered r.2 h (.ok (le 4 r.1)))) ∧
    (∀ r ix, RunsAlone s 0x0005 h p 16 (offsetFine (leAt p 8 4)) → leAt p 0 2 = 1 → leAt p 8 4 = r.addr ix →
      plainReg r = true → Reaches s ⟨h.fn, true⟩ (r.addr ix) r ix →
      exec (.regWrite h p) s = .next (answered (landWrite s r ix (leAt p 12 4)) h (.ok (le 2 0)))) ∧
    (RunsAlone s 0x0003 h p 0 true → h.dev = 0 → s.chain.enumerating = none → s.chain.relayed = [] →
      (chainUp s 0 = false → chainUp s 1 = false → exec (.chainEnum h p) s =
        .next (answered { s with chain := { s.chain with ring := false, devices := 1, overflow := false } } h
          (.ok (enumData 1 false false)))) ∧
      (chainUp s 1 = true → exec (.chainEnum h p) s =
        .next { s with chain := { s.chain with ring := false, enumerating := some h }, out := .chain 1 0 (le 1 1) :: s.out })) ∧
    (RunsAlone s 0x0102 h p 0 true → s.rules.commit = none →
      ∃ t, exec (.abandon h p) s = .next (answered t h (.ok [])) ∧
        (∃ rules slices, t = { s with rules := rules, slices := slices }) ∧ t.rules.current = s.rules.current ∧
        t.rules.draftDigest = versionDigest s s.rules.current ∧
        (∀ sl i, sl < 8 → (stepEntry (sliceAt t sl) i) =
          { stepEntry (sliceAt s sl) i with draft := visTo (stepEntry (sliceAt s sl) i).vis s.rules.current }) ∧
        (∀ sl i e, sl < 8 → tfind (sliceAt s sl).tcam i = some e → e.vis ≠ 0 →
          tfind (sliceAt t sl).tcam i = some { e with draft := visTo e.vis s.rules.current }) ∧
        (∀ e ∈ t.rules.prefixes, e.draft = visTo e.vis s.rules.current) ∧
        (∀ o ∈ t.rules.overrides, o.draft = visTo o.vis s.rules.current)) ∧
    (RunsAlone s 0x0101 h p 2 true → s.rules.commit = none →
      let v := (s.rules.current + 1) % 65536
      leAt p 0 2 = v → columnHeld s v = [] → (∀ sl, sl < 8 → moving s sl = false) →
      ∃ t, exec (.commit h p []) s = .next t ∧ (∃ regs rules slices, t = { s with regs := regs, rules := rules, slices := slices }) ∧
        t.rules.commit = some ⟨v, h⟩ ∧ t.rules.current = s.rules.current ∧ t.rules.draftDigest = s.rules.draftDigest ∧
        (∀ sl i, sl < 8 → stepEntry (sliceAt t sl) i = { stepEntry (sliceAt s sl) i with
          vis := visSet (stepEntry (sliceAt s sl) i).vis v (stepEntry (sliceAt s sl) i).draft }) ∧
        (∀ sl i e, sl < 8 → tfind (sliceAt s sl).tcam i = some e → e.draft = true →
          tfind (sliceAt t sl).tcam i = some { e with vis := visSet e.vis v true }) ∧
        (∀ e ∈ s.rules.prefixes, e.draft = true → { e with vis := visSet e.vis v true } ∈ t.rules.prefixes) ∧
        (∀ o ∈ s.rules.overrides, o.draft = true → { o with vis := visSet o.vis v true } ∈ t.rules.overrides)) ∧
    (∀ c, s.rules.commit = some c → s.sched.items = [] → ownDevice s c.header = true → c.header.viaChain = none →
      c.header.replyRing < lostRing → (ringAt s (c.header.fn / 2) 1 c.header.replyRing).en = true → s.rim.transition = none →
      ∃ t, exec .versionSwitch s = .next t ∧ t.rules.current = c.version ∧ t.rules.commit = none ∧
        versionDigest t c.version = s.rules.draftDigest ∧ t.rules.draftDigest = s.rules.draftDigest ∧
        t.host.replies = s.host.replies ++ [replyOf c.header false
          (.ok (le 2 c.version ++ zeros 2 ++ le 4 (servedNs s) ++ le 8 (servedSec s)))] ∧
        t.skein = s.skein ∧ t.actions = s.actions ∧ t.frames = s.frames)

/-- For a command that passes Table 12-4 and runs alone, with no commit under way. A draft edit of slices whose stages
none of its slices fails (no entry of its range visible in a version; no draft entry of its identity, or one, as it
adds or deletes; a free place; an override to spare) is answered ST_OK, changes in each slice of its mask the named
entries and nothing else, and enters the draft's digest: steps and transitions, access map, patterns, ternary
entries (added at the lowest free place, inserted with the moves of its plan, which take their time, deleted), VLAN
images. Edits of per-device tables and prefixes likewise. TCAM_READ, DT_READ and PFX_LOOKUP answer the entry and
change nothing. Station commands first apply the learns that wait in their slices, and lose what their reads find
uncorrectable; MAC_SEARCH and MAC_NEXT answer entries; a static station is added, deleted; a flush deletes a port's
entries in every selected slice, answering how many. -/
def Obligations.TableCommands : Prop :=
  ∀ (s : State) (h : CmdHeader) (p : List Byte),
    let mask := maskSlices h.slices
    let edited (t : State) : Prop := (∃ slices, t = { s with slices := slices, rules := (draftEdit s 0 h.slices h.opcode p).rules }) ∧
      ∀ k, k ∉ mask → sliceAt t k = sliceAt s k
    (s.rules.commit = none →
      (RunsAlone s 0x0201 h p (indexedLen p 16) (indexedFine p 16 2048 254 stepFine) →
        (∀ sl ∈ mask, indexedLocked p (stepEntry (sliceAt s sl)) = false) →
        ∃ t, exec (.stepWrite h p) s = .next (answered t h (.ok [])) ∧ edited t ∧ ∀ sl ∈ mask,
          (∃ steps, sliceAt t sl = { sliceAt s sl with steps := steps }) ∧
          (∀ k, k < leAt p 2 2 → stepEntry (sliceAt t sl) (leAt p 0 2 + k) =
            if clears p then { stepEntry (sliceAt s sl) (leAt p 0 2 + k) with draft := false } else ⟨imageAt p 16 k, 0, true⟩) ∧
          ∀ i, (i < leAt p 0 2 ∨ leAt p 0 2 + leAt p 2 2 ≤ i) → stepEntry (sliceAt t sl) i = stepEntry (sliceAt s sl) i) ∧
      (RunsAlone s 0x0202 h p (indexedLen p 8) (indexedFine p 8 4096 511 transFine) →
        (∀ sl ∈ mask, indexedLocked p (transEntry (sliceAt s sl)) = false) →
        ∃ t, exec (.transWrite h p) s = .next (answered t h (.ok [])) ∧ edited t ∧ ∀ sl ∈ mask,
          (∃ trans, sliceAt t sl = { sliceAt s sl with trans := trans }) ∧
          (∀ k, k < leAt p 2 2 → transEntry (sliceAt t sl) (leAt p 0 2 + k) =
            if clears p then { transEntry (sliceAt s sl) (leAt p 0 2 + k) with draft := false } else ⟨imageAt p 8 k, 0, true⟩) ∧
          ∀ i, (i < leAt p 0 2 ∨ leAt p 0 2 + leAt p 2 2 ≤ i) → transEntry (sliceAt t sl) i = transEntry (sliceAt s sl) i) ∧
      (RunsAlone s 0x0203 h p 8 (accessFine (leAt p 0 8)) →
        (∀ sl ∈ mask, accessFind (sliceAt s sl) (leAt p 0 8) = none ∧ firstFree (sliceAt s sl).access 0 < 65536) →
        ∃ t, exec (.accmapAdd h p) s = .next (answered t h (.ok [])) ∧ edited t ∧ ∀ sl ∈ mask,
          sliceAt t sl = { sliceAt s sl with access := tins (sliceAt s sl).access (firstFree (sliceAt s sl).access 0) ⟨leAt p 0 8, 0, true⟩ }) ∧
      (RunsAlone s 0x0204 h p 8 (accessFine (leAt p 0 8)) →
        (∀ sl ∈ mask, (accessFind (sliceAt s sl) (leAt p 0 8)).isSome) →
        ∃ t, exec (.accmapDel h p) s = .next (answered t h (.ok [])) ∧ edited t ∧ ∀ sl ∈ mask, ∀ i,
          accessFind (sliceAt s sl) (leAt p 0 8) = some i →
          sliceAt t sl = { sliceAt s sl with access := undraft (sliceAt s sl).access i }) ∧
      (∀ e : PatternEntry, e = ⟨slice p 0 32, leAt p 32 8, 0, true⟩ →
        RunsAlone s 0x0205 h p 40 (patternFine p) →
        (∀ sl ∈ mask, patternFind (sliceAt s sl) e.id = none ∧ firstFree (sliceAt s sl).patterns 0 < 16384) →
        ∃ t, exec (.patternAdd h p) s = .next (answered t h (.ok [])) ∧ edited t ∧ ∀ sl ∈ mask,
          sliceAt t sl = { sliceAt s sl with patterns := tins (sliceAt s sl).patterns (firstFree (sliceAt s sl).patterns 0) e }) ∧
      (RunsAlone s 0x0206 h p 2 (decide (leAt p 0 2 < 16384)) →
        (∀ sl ∈ mask, (patternFind (sliceAt s sl) (leAt p 0 2)).isSome) →
        ∃ t, exec (.patternDel h p) s = .next (answered t h (.ok [])) ∧ edited t ∧ ∀ sl ∈ mask, ∀ i,
          patternFind (sliceAt s sl) (leAt p 0 2) = some i →
          sliceAt t sl = { sliceAt s sl with patterns := unpattern (sliceAt s sl).patterns i }) ∧
      (∀ j, j = byteAt p 0 % 16 →
        ∀ imgs, imgs = tcamImages p →
        RunsAlone s 0x0301 h p (if p.length = 168 then 168 else 88) (imagesFine imgs) →
        (∀ sl ∈ mask, widthDiffers s j imgs sl = false ∧ (addPlace s sl j).isSome) →
        ∃ t, exec (.tcamAdd h p) s = .next (answered t h (.ok (placeData mask (fun sl => addPlace s sl j)))) ∧ edited t ∧
          ∀ sl ∈ mask, ∀ i, addPlace s sl j = some i → sliceAt t sl = putPlace (sliceAt s sl) i (imgs.map TcamEntry.ofImage)) ∧
      (∀ j, j = byteAt p 0 % 16 →
        ∀ imgs, imgs = tcamImages p →
        ∀ target, target = leAt p 2 2 % 32768 →
        RunsAlone s 0x0302 h p (if p.length = 168 then 168 else 88) (imagesFine imgs) →
        (∀ sl ∈ mask, widthDiffers s j imgs sl = false ∧ isPlaceOf s sl j target = true ∧ (planOf s sl j target).isSome) →
        let double := imgs.length == 2
        ∃ t, exec (.tcamInsert h p []) s =
          .next (answered t h (.ok (placeData mask (fun sl => (planOf s sl j target).map (·.2))))) ∧ edited t ∧
          ∀ sl ∈ mask, ∀ moves place, planOf s sl j target = some (moves, place) →
            sliceAt t sl = { putPlace (moves.foldl (movePlace double []) (sliceAt s sl)) place (imgs.map TcamEntry.ofImage) with
              moveEnd := if moves = [] then (sliceAt s sl).moveEnd
                else max (ccOf s.time.tick) (sliceAt s sl).moveEnd + moves.length * moveCc double
              movePer := if moves = [] then (sliceAt s sl).movePer else moveCc double }) ∧
      (∀ j, j = byteAt p 0 % 16 →
        ∀ byKey, byKey = bit (byteAt p 0) 4 →
        RunsAlone s 0x0303 h p (if byKey then (if p.length = 168 then 168 else 88) else 8) true →
        (∀ sl ∈ mask, (if byKey then widthDiffers s j (tcamImages p) sl = false else isPlaceOf s sl j (leAt p 2 2 % 32768) = true) ∧
          (deletePlace s sl j p).isSome) →
        ∃ t, exec (.tcamDelete h p) s = .next (answered t h (.ok [])) ∧ edited t ∧ ∀ sl ∈ mask, ∀ i,
          deletePlace s sl j p = some i → sliceAt t sl = undraftPlace (lookupDouble s sl j) (sliceAt s sl) i) ∧
      (∀ vlan, vlan = leAt p 4 4 →
        RunsAlone s 0x0402 h p 72 (decide (vlan < 4096) && dtFine 4 vlan (leAt p 8 64)) →
        (∀ sl ∈ mask, (overrideEdit (sliceAt s sl).vlanOver 1024 4 vlan (leAt p 8 64)).isSome) →
        let u := reviveVlan s mask vlan
        ∃ t, exec (.vlanWrite h p) s = .next (answered t h (.ok [])) ∧
          (∃ slices, t = { s with slices := slices, rules := { (draftEdit s 0 h.slices h.opcode p).rules with dead := u.rules.dead } }) ∧
          (∀ k, k ∉ mask → sliceAt t k = sliceAt s k) ∧ ∀ sl ∈ mask, ∀ os,
          overrideEdit (sliceAt s sl).vlanOver 1024 4 vlan (leAt p 8 64) = some os →
          sliceAt t sl = { sliceAt u sl with vlanOver := os }) ∧
      (∀ table, table = byteAt p 0 →
        ∀ index, index = leAt p 4 4 →
        ∀ img, img = leAt p 8 (dtBytes table) →
        ∀ os, RunsAlone s 0x0401 h p (8 + dtBytes table)
            ((table ≤ 3 || table == 5) && decide (index < dtEntries table) && dtFine table index img) →
          (table = 1 → s.rules.quarantine.any (fun q => q.1 == index) = false) →
          (deletesHop s table index img = true → hopsGoing s < 4096) →
          overrideEdit s.rules.overrides 65536 table index img = some os →
          exec (.dtWrite h p) s = .next (answered
            { s with rules := { (draftEdit (revive s table index) 0 255 h.opcode p).rules with overrides := os } } h (.ok []))) ∧
      (∀ e : PrefixEntry, e = ⟨pfxZone p, pfxV6 p, pfxLen p, pfxAddr p, leAt p 8 4 % 2 ^ 20, 0, true⟩ →
        RunsAlone s 0x0404 h p 32 (pfxFine p) → pfxFind s p = none → pfxUsed s (pfxV6 p) < pfxCap (pfxV6 p) →
        exec (.pfxAdd h p) s = .next (answered
          { s with rules := { (draftEdit s 0 255 h.opcode p).rules with prefixes := s.rules.prefixes ++ [e] } } h (.ok []))) ∧
      (∀ i, RunsAlone s 0x0405 h p 32 (pfxFine p) → pfxFind s p = some i →
        ∃ ps, exec (.pfxDel h p) s = .next (answered
            { s with rules := { (draftEdit s 0 255 h.opcode p).rules with prefixes := ps } } h (.ok [])) ∧
          ps = (s.rules.prefixes.mapIdx (fun k e => if k = i then { e with draft := false } else e)).filter
            (fun e => e.vis != 0 || e.draft))) ∧
    (∀ sl, mask = [sl] →
      (∀ i, i = leAt p 0 2 →
        RunsAlone s 0x0304 h p 2 (decide (i < 32768) && !((blockMode s sl i).2 && i % 2 == 1)) →
        exec (.tcamRead h p) s = .next (answered s h (.ok
          (le 80 (tcamAt (sliceAt s sl) i).image ++ if (blockMode s sl i).2 then le 80 (tcamAt (sliceAt s sl) (i + 1)).image else [])))) ∧
      (∀ ue u, u = loseMacs (learnsFirst s sl) ue → RunsAlone s 0x0501 h p 8 (decide (macVlan p < 4096)) → ∀ i e,
        macFind (sliceAt u sl) (macVlan p) (macStation p) = some (i, e) →
        exec (.macSearch h p ue) s = .next (answered u h (.ok (le 12 e.image)))) ∧
      (∀ ue u, u = loseMacs (learnsFirst s sl) ue → RunsAlone s 0x0502 h p 4 (decide (leAt p 0 4 < 0x40000)) →
        let l := trange (sliceAt u sl).mac (leAt p 0 4) 0x40000
        let data := (l.take 1024).flatMap (fun e => le 12 e.2.image)
        (l.length ≤ 1024 → exec (.macNext h p ue) s = .next (answered u h ⟨stOk, 0, 0x40000, data⟩)) ∧
        (∀ e, 1024 < l.length → l[1023]? = some e →
          exec (.macNext h p ue) s = .next (answered u h ⟨stOk, 0, e.1 + 1, data⟩)))) ∧
    (∀ table, table = byteAt p 0 →
      ∀ draft, draft = bit (byteAt p 1) 0 →
      ∀ v, v = leAt p 2 2 →
      ∀ index, index = leAt p 4 4 →
      ∀ sl, sl = mask.headD 0 →
      RunsAlone s 0x0403 h p 8 (decide (table ≤ 5) && decide (index < dtEntries table) &&
        (draft || (if table = 4 then isLive s sl v else liveAnywhere s v))) →
      exec (.dtRead h p) s = .next (answered s h (.ok (le (dtBytes table)
        (if table = 4 then (if draft then vlanDraft s sl index else vlanImage s sl index v)
          else if draft then dtDraft s table index else dtImage s sl table index v))))) ∧
    (∀ v, v = leAt p 12 2 →
      ∀ draft, draft = bit (byteAt p 14) 0 →
      ∀ e, RunsAlone s 0x0406 h p 32 (draft || liveAnywhere s v) →
        longest (s.rules.prefixes.filter (fun e => if draft then e.draft else visTo e.vis v)) (pfxZone p) (pfxV6 p) (pfxAddr p) = some e →
        exec (.pfxLookup h p) s = .next (answered s h (.ok (le 1 e.len ++ zeros 3 ++ le 4 e.nextHop)))) ∧
    (∀ ue u, u = loseMacs (mask.foldl learnsFirst s) (ue.filter (fun e => mask.contains e.1)) →
      let within (t : State) : Prop := (∃ slices, t = { u with slices := slices }) ∧ ∀ k, k ∉ mask → sliceAt t k = sliceAt u k
      (RunsAlone s 0x0503 h p 9 (decide (macVlan p < 4096)) →
        (∀ sl ∈ mask, staticAt (sliceAt u sl) (macVlan p) (macStation p) = none ∧
          (staticPlace (sliceAt u sl) (macVlan p) (macStation p)).isSome) →
        ∃ t, exec (.macStaticAdd h p ue) s = .next (answered t h (.ok [])) ∧ within t ∧ ∀ sl ∈ mask, ∀ i,
          staticPlace (sliceAt u sl) (macVlan p) (macStation p) = some i →
          tfind (sliceAt t sl).mac i = some ⟨macVlan p, macStation p, byteAt p 8, true, false⟩ ∧
          ∀ j, j ≠ i → tfind (sliceAt t sl).mac j = tfind (sliceAt u sl).mac j) ∧
      (RunsAlone s 0x0504 h p 8 (decide (macVlan p < 4096)) →
        (∀ sl ∈ mask, (staticAt (sliceAt u sl) (macVlan p) (macStation p)).isSome) →
        ∃ t, exec (.macStaticDel h p ue) s = .next (answered t h (.ok [])) ∧ within t ∧ ∀ sl ∈ mask, ∀ i,
          staticAt (sliceAt u sl) (macVlan p) (macStation p) = some i → sliceAt t sl = macErase (sliceAt u sl) i) ∧
      (RunsAlone s 0x0505 h p 2 true → h.resume = false → ue = [] →
        let gone (k : Nat) : List Nat := flushPlaces (sliceAt u k) (byteAt p 0) (bit (byteAt p 1) 0) 0 0x40000
        ∃ t, exec (.macFlushPort h p []) s = .next (answered t h (.fan (mask.map (fun k => (k, stOk, 0x40000)))
            ((List.range 8).flatMap (fun k => le 4 (if k ∈ mask then (gone k).length else 0))))) ∧ within t ∧
          ∀ sl ∈ mask, sliceAt t sl = (gone sl).foldl macErase (sliceAt u sl)))

/-- For a command that passes Table 12-4 and runs alone, with no burst of a cold record under way, the homes it reads
answering and what it reads correctable. A lookup by key or by current handle answers the record with the values in
force and its hot slot, and changes nothing. An iteration answers the matching records from the cursor, at most 480,
with the cursor past the last one, and changes nothing. A deletion answers the values just before, frees the
record's way and its twin's, and no other way changes. A flush that nothing stops is complete in all eight parts:
every record that matched is freed, and a way that changes held a record before and holds none after. -/
def Obligations.FlowCommands : Prop :=
  ∀ (s : State) (h : CmdHeader) (p : List Byte), s.skein.bursts = [] →
    let answers (idx : Nat) : Prop := recordAnswers s (idx / 8) = true
    (∀ (ue : Bool) (k : Key) (i : Nat), k = Key.ofImage p → RunsAlone s 0x0601 h p 48 (keyImageOk p) →
      recordAnswers s k.bucket = true → findRecord s k = some i → recordBad s ue i = false →
      exec (.flowLookupKey h p ue false) s = .next (answered s h
        (.ok ((recordInForce s i).image ++ le 4 (((hotOf s i).map (·.1)).getD 0xFFFFFFFF))))) ∧
    (∀ (ue : Bool) (hd i : Nat), hd = leAt p 0 4 → RunsAlone s 0x0602 h p 4 true → current s hd = true → i = handleIdx hd →
      answers i → recordBad s ue i = false →
      exec (.flowLookupHandle h p ue false) s = .next (answered s h
        (.ok ((recordInForce s i).image ++ le 4 (((hotOf s i).map (·.1)).getD 0xFFFFFFFF))))) ∧
    (∀ (l : List Nat), RunsAlone s 0x0603 h p 12 (decide (leAt p 0 4 < 2 ^ 27) && decide (leAt p 4 4 < 4)) →
      (∀ e ∈ s.skein.ways, e.2.valid = true → answers e.1 ∧ recordBad s false e.1 = false) →
      l = (((trange s.skein.ways (leAt p 0 4) (2 ^ 27)).filter (fun e => e.2.valid)).map (·.1)).filter
        (flowMatches s (byteAt p 4 % 4) (leAt p 8 4)) →
      let data := (l.take 480).flatMap (fun i => (recordInForce s i).image)
      (l.length ≤ 480 → exec (.flowIterate h p [] []) s = .next (answered s h ⟨stOk, 0, 2 ^ 27, data⟩)) ∧
      (∀ i, 480 < l.length → l[479]? = some i →
        exec (.flowIterate h p [] []) s = .next (answered s h ⟨stOk, 0, i + 1, data⟩))) ∧
    (∀ (ue : Bool) (k : Key) (i : Nat), k = Key.ofImage p → RunsAlone s 0x0604 h p 48 (keyImageOk p) →
      recordAnswers s k.bucket = true → findRecord s k = some i → recordBad s ue i = false →
      ∃ t, exec (.flowDeleteKey h p ue false) s = .next t ∧
        t.host.replies = s.host.replies ++ [replyOf h false
          (.ok ((recordInForce s i).image ++ le 4 (((hotOf s i).map (·.1)).getD 0xFFFFFFFF)))] ∧
        (wayAt t i).valid = false ∧ (∀ j, twinOf s i = some j → (wayAt t j).valid = false) ∧
        (∀ j, j ≠ i → twinOf s i ≠ some j → wayAt t j = wayAt s j) ∧ t.rim = s.rim) ∧
    (RunsAlone s 0x0605 h p 8 (decide (byteAt p 0 % 4 ≠ 3)) → h.resume = false →
      (∀ e ∈ s.skein.ways, e.2.valid = true → answers e.1 ∧ recordBad s false e.1 = false) →
      tsorted s.skein.ways = true → tsorted s.skein.hot = true → tsorted s.skein.merged = true → tsorted s.skein.cold = true →
      let by_ := if byteAt p 0 % 4 = 0 then 3 else byteAt p 0 % 4
      ∃ t counts, exec (.flowFlush h p [] [] []) s = .next t ∧
        t.host.replies = s.host.replies ++ [replyOf h false (.fan ((List.range 8).map (fun k => (k, stOk, (k + 1) * 0x200000))) counts)] ∧
        (∀ i, i < 2 ^ 27 → (wayAt s i).valid = true → flowMatches s by_ (leAt p 4 4) i = true → (wayAt t i).valid = false) ∧
        (∀ i, wayAt t i = wayAt s i ∨ ((wayAt s i).valid = true ∧ (wayAt t i).valid = false)))

/-- For a command that passes Table 12-4 and runs alone. An address index that no pool with held blocks owns, written
with an address that no other index holds, takes it; a pool that overlaps no other in use is written when none of
its blocks is held or nothing that places them changes; a subscriber's entry and index are answered,
ST_UNCORRECTABLE when a line before it does not read. Of a target within a pool that has a VALID image in the
current version: a free or unused one is written, over a lost line too; its entry and the buckets that name it are
answered; one that no bucket names, with fewer than 64 draining, drains, or is reassigned where the pool's image
says so. Replacing a pool by ranges of present targets fills both copies of its buckets in ascending target with the
largest-remainder shares. -/
def Obligations.TranslationCommands : Prop :=
  ∀ (s : State) (h : CmdHeader) (p : List Byte),
    (∀ w i new, w = leAt p 0 4 → i = w % 4096 → new = (if bit w 31 then 2 ^ 63 + beAt p 4 4 else 0) →
      RunsAlone s 0x0701 h p 8 (bits w 30 12 == 0) →
      (bit w 31 = true → ∀ e ∈ s.actions.natAddr, e.1 ≠ i → e.2 ≠ new) →
      (∀ e ∈ s.actions.natPools, e.2.owns i = true → poolHoldsBlock s e.1 = false) →
      exec (.natAddrWrite h p) s =
        .next (answered { s with actions := { s.actions with natAddr := tput 0 s.actions.natAddr i new } } h (.ok []))) ∧
    (∀ n img new, n = leAt p 0 2 → img = leAt p 8 32 → new = NatPool.ofImage img →
      RunsAlone s 0x0702 h p 40 (decide (n < 4096) && bits img 159 128 == 0 && bits img 33 0 == 0 &&
        decide (new.addrFirst + new.addrCountM1 < 4096)) →
      (new.valid = true → ∀ e ∈ s.actions.natPools, e.1 ≠ n → (e.2.valid = true ∨ poolHoldsBlock s e.1 = true) → e.2.overlaps new = false) →
      (∀ o, tfind s.actions.natPools n = some o → poolHoldsBlock s n = true →
        o.addrFirst = new.addrFirst ∧ o.addrCountM1 = new.addrCountM1 ∧ o.blockLog2 = new.blockLog2 ∧ o.portMin = new.portMin) →
      exec (.natPoolWrite h p) s =
        .next (answered { s with actions := { s.actions with natPools := tins s.actions.natPools n new } } h (.ok []))) ∧
    (∀ ue scan, scan = subScan s ue (leAt p 0 4) (beAt p 16 16) (subRange (leAt p 0 4) (beAt p 16 16)) →
      RunsAlone s 0x0703 h p 32 (decide (leAt p 0 4 < 2 ^ 20)) →
      (∀ i x, scan = .ok (some (i, x)) → exec (.natSubLookup h p ue) s = .next (answered s h (.ok (x.image ++ le 4 i)))) ∧
      (∀ line, scan = .error line →
        exec (.natSubLookup h p ue) s = .next (answered (commandUe s line).2 h (.of stUncorrectable)))) ∧
    (∀ img k e, img = poolImage s (leAt p 0 2) → k = leAt p 2 2 → e = bits img 54 33 + k → bit img 63 = true →
      k ≤ bits img 32 11 →
      (∀ ue u w, u = (if ue = true then loseTargets (commandUe s (targetLine e)).2 (e / 8 * 8) 8 else s) → w = leAt p 4 4 →
        RunsAlone s 0x0704 h p 8 (bits w 30 20 == 0) →
        (∀ t, tfind u.actions.targets e = some t → t.state = 0) → (bit w 31 = false → bucketsNaming u img k = 0) →
        exec (.lbTargetWrite h p ue) s = .next (answered { u with actions := { u.actions with
          targets := if bit w 31 then tins u.actions.targets e ⟨0, w % 2 ^ 20⟩ else tdel u.actions.targets e } } h (.ok []))) ∧
      (RunsAlone s 0x0707 h p 4 true →
        exec (.lbTargetRead h p false) s = .next (answered s h (.ok
          ((match tfind s.actions.targets e with | some t => t.image | none => zeros 8) ++ le 4 (bucketsNaming s img k)))) ∧
        exec (.lbTargetRead h p true) s = .next (answered (commandUe s (targetLine e)).2 h (.of stUncorrectable))) ∧
      (∀ x, RunsAlone s 0x0706 h p 4 true → tfind s.actions.targets e = some x → x.state = 0 → bucketsNaming s img k = 0 →
        s.actions.draining.length < 64 →
        exec (.lbTargetRemove h p false) s = .next (answered { s with actions := { s.actions with
          targets := tins s.actions.targets e { x with state := if bit img 61 then 2 else 1 },
          reassign := if bit img 61 then tput false s.actions.reassign e true else s.actions.reassign,
          draining := s.actions.draining ++ [⟨leAt p 0 2, k, e, 0, false⟩] } } h (.ok [])))) ∧
    (∀ img base rs, img = poolImage s (leAt p 0 2) → base = bits img 54 33 → rs = poolRanges p →
      RunsAlone s 0x0705 h p (8 + 8 * leAt p 2 2) (decide (1 ≤ leAt p 2 2) && decide (leAt p 2 2 ≤ 511)) →
      bit img 63 = true → rs.all (rangeFine (bits img 32 11)) = true → rangesApart rs = true →
      (∀ e ∈ weighted rs, (tfind s.actions.targets (base + e.1)).isSome) →
      ∀ ue, ((weighted rs).map (fun e => targetLine (base + e.1))).find? ue.contains = none →
      let sh := shares (bits img 32 11 + 1) (weighted rs)
      exec (.lbPoolReplace h p [] ue) s = .next (answered { s with actions := { s.actions with
        indWest := fillBuckets base sh s.actions.indWest, indEast := fillBuckets base sh s.actions.indEast } } h (.ok [])))

/-- A turn of the fetch arbiter takes a sound command of the next ring that has one, with the scheduler otherwise empty:
CR_CI advances by its slots and is written back, and the command is on its priority's ready list. Dispatch gives the
head of the highest list to the next idle engine. Of microwords without error, a STEP_END notes the engine's place
and cursor, and one that is to yield returns its item to the head of its list; a BRANCH, CALL or RETURN goes where
the word or the stack says. A step overrun flags, logs and goes on; a hung engine is emptied and its command
answered ST_UNCORRECTABLE. With nothing waiting for a store entry, a scheduler tick takes new TICK settings, moves a
head grown old up one list, and releases a due timer's task. A statistics window of STAT_MS is shown and begins
again. A waiting reply that fits is written into its ring. A block with no mapping is put on hold, and freed when
its hold is over. The withy folds exactly the overrides that the draft and every live version see. IPFIX messages to
the host carry the templates, or the records queued. -/
def Obligations.SchedulerAndTasks : Prop :=
  ∀ s : State, FixedParts s → s.rim.transition = none →
    (∀ (src : Nat) (bytes : List Byte), src < 32 → fetchRuns s = true → nextRR 33 s.sched.fetchPtr (sourceWaits s) = some src →
      s.sched.items = [] →
      let hp := src / 16
      let g := ringAt s hp 0 (src % 16)
      let plen := leAt bytes 8 2 % 8192
      let h := headerOf (ringOwner s hp 0 (src % 16)) (src % 16) bytes
      let ci := (g.ci + commandSlots plen) % 2 ^ 32
      idxDiff g.pi g.ci ≤ g.size → plen ≤ 4096 → commandSlots plen ≤ idxDiff g.pi g.ci →
      crc32c (slice bytes 0 28 ++ slice bytes 32 plen) = leAt bytes 28 4 → badReplyRing s hp h.fn h.replyRing = false →
      canPlace s h plen = true → startWaits s h.opcode = false → ownDevice s h = true →
      ∃ t i, exec (.commandFetch bytes) s = .next t ∧ ringAt t hp 0 (src % 16) = { g with ci := ci } ∧
        t.out = .hostWrite hp g.wb (le 4 ci) :: s.out ∧ t.sched.fetchPtr = src ∧ t.sched.store = [] ∧
        t.sched.ready.getD h.prio [] = [i] ∧ i.kind = .command ∧ i.code = h.opcode ∧ i.header = h ∧
        i.params = slice bytes 32 plen ∧ t.host.replies = s.host.replies) ∧
    (∀ l i e, s.power.state ≠ 2 → s.sched.store = [] → s.sched.stalled = [] → isTask 0xF002 i = false → isTask 0xF004 i = false → topItem s = some (l, i) →
      nextRR 12 s.sched.lastEngine (fun e => (engineAt s e).item.isNone) = some e →
      (i.kind = .command → (opRow i.code).isSome) → i.lastDie = none →
      ∃ t, exec .itemDispatch s = .next t ∧ (engineAt t e).item = some { i with lastDie := some (engineDie e) } ∧
        t.sched.lastEngine = e ∧ t.sched.ready = setAt s.sched.ready l ((s.sched.ready.getD l []).drop 1) ∧
        (∀ k, k ≠ e → engineAt t k = engineAt s k) ∧ t.host = s.host) ∧
    (∀ e cursor holds b w i, e < 12 → (engineAt s e).item = some i → microAt s (engineAt s e).uaddr = some (b, w) →
      let g := engineAt s e
      let word : MicroWord := ⟨holds, .ok⟩
      let others (t : State) : Prop := (∀ k, k ≠ e → engineAt t k = engineAt s k) ∧ t.host = s.host
      (bits w 31 27 = 0x1B → s.sched.attention = false → s.power.state ≠ 1 → i.aborted = false → i.prio < 4 →
        ∃ t, exec (.commandStepEnd e cursor [word] false) s = .next t ∧ others t ∧
          (yields i.code = false → engineAt t e = { g with
              uaddr := (g.uaddr + 1) % 2 ^ 17, mcyc := 0, overrun := false, boundaryAddr := g.uaddr, item := some { i with cursor := cursor }, execCycles := g.execCycles + 1 } ∧
            t.sched.ready = s.sched.ready) ∧
          (yields i.code = true → yieldDue s i.prio = true → (engineAt t e).item = none ∧
            t.sched.ready.getD i.prio [] = { i with cursor := cursor, listed := s.time.tick } :: s.sched.ready.getD i.prio [])) ∧
      (bits w 31 27 = 0x18 → ∃ t, exec (.commandStepEnd e cursor [word] false) s = .next t ∧ others t ∧
        engineAt t e = { g with
          mcyc := g.mcyc + 1, execCycles := g.execCycles + 1,
          uaddr := (if bits w 26 22 = 0 ∨ holds = true then bits w 16 0 else g.uaddr + 1) % 2 ^ 17 }) ∧
      (bits w 31 27 = 0x19 → g.stack.length < 8 → ∃ t, exec (.commandStepEnd e cursor [word] false) s = .next t ∧ others t ∧
        engineAt t e = { g with
          mcyc := g.mcyc + 1, execCycles := g.execCycles + 1, uaddr := bits w 16 0 % 2 ^ 17,
          stack := (g.uaddr + 1) :: g.stack }) ∧
      (∀ r rest, bits w 31 27 = 0x1A → g.stack = r :: rest → ∃ t, exec (.commandStepEnd e cursor [word] false) s = .next t ∧
        others t ∧ engineAt t e = { g with mcyc := g.mcyc + 1, execCycles := g.execCycles + 1, uaddr := r % 2 ^ 17, stack := rest })) ∧
    (∀ e uaddr i, e < 12 → (engineAt s e).item = some i → (engineAt s e).overrun = false →
      ∃ t, exec (.stepOverrun e uaddr) s = .next t ∧ engineAt t e = { engineAt s e with overrun := true, uaddr := uaddr % 2 ^ 17 } ∧
        eventAt t (RegName.addr .schEvent []) = (eventAt s (RegName.addr .schEvent [])).raise [1] ∧ s.log.next < t.log.next ∧
        (∀ k, k ≠ e → engineAt t k = engineAt s k) ∧ t.host = s.host) ∧
    (∀ e uaddr cursor i, e < 12 → (engineAt s e).item = some i → i.kind = .command → classOf i.code ≠ 2 → s.sched.store = [] → s.sched.stalled = [] →
      i.header.viaChain = none → i.header.replyRing < lostRing → (ringAt s (i.header.fn / 2) 1 i.header.replyRing).en = true →
      ∃ t, exec (.engHang e uaddr cursor) s = .next t ∧ (engineAt t e).item = none ∧
        t.host.replies = s.host.replies ++ [replyOf i.header false ⟨stUncorrectable, 0, cursor, []⟩] ∧
        eventAt t (RegName.addr .schEvent []) = (eventAt s (RegName.addr .schEvent [])).raise [2] ∧
        (∀ k, k ≠ e → engineAt t k = engineAt s k)) ∧
    (s.power.state = 0 → s.rim.started = true → onTick s = true → s.sched.store = [] → s.sched.stalled = [] →
      ∃ t, exec .schedulerTick s = .next t ∧ t.sched.tickUnits = min 100000 (max 1 (fld t .schTick [] 16 0)) ∧
        (∀ r ix, (regCell t r ix).written = (regCell s r ix).written) ∧ t.sched.engines = s.sched.engines ∧ t.host = s.host ∧
        (∀ i, s.sched.ready = [[i], [], [], []] → s.sched.timers = [] → fld t .schCfg [] 15 0 ≠ 0 →
          i.listed + ticksOfNs (fld t .schCfg [] 15 0 * 1000) < s.time.tick →
          t.sched.ready = [[], [{ i with listed := s.time.tick }], [], []]) ∧
        (∀ due, s.sched.ready = [[], [], [], []] → s.sched.timers = [⟨due, 11⟩] → due ≤ s.time.tick →
          ∃ i, t.sched.ready = [[], [i], [], []] ∧ i.kind = .task ∧ i.code = 0xF005)) ∧
    (∀ n, n = s.time.tick - s.sched.windowStart → ticksOfNs (s.sched.windowMs * 1000000) ≤ n →
      exec .statisticsWindowEnd s = .next { s with sched := { s.sched with
        shownMax := s.sched.waitMax.map tens,
        shownMean := (s.sched.waitSum.zip s.sched.waitCount).map (fun e => if e.2 = 0 then 0 else sat 32 (e.1 * 2 / (25 * e.2))),
        shownLoad := s.sched.engines.map (fun g => (share16 g.busyTicks n, share16 g.execCycles (ccOf n))),
        waitMax := [0, 0, 0, 0], waitSum := [0, 0, 0, 0], waitCount := [0, 0, 0, 0],
        engines := s.sched.engines.map (fun g => { g with busyTicks := 0, execCycles := 0 }), windowStart := s.time.tick,
        windowMs := max 1 (fld s .schCfg2 [] 15 0) } }) ∧
    (∀ r rest, s.host.replies = r :: rest → (ringAt s r.hp 1 r.ring).en = true →
      cdiv r.bytes.length 64 ≤ (ringAt s r.hp 1 r.ring).free →
      ∃ t, exec (.replyWrite r.hp r.ring) s = .next t ∧ (∃ out host, t = { s with out := out, host := host }) ∧
        t.host.replies = rest ∧ ringAt t r.hp 1 r.ring = { ringAt s r.hp 1 r.ring with
          pi := ((ringAt s r.hp 1 r.ring).pi + cdiv r.bytes.length 64) % 2 ^ 32 } ∧
        Output.hostWrite r.hp (ringAt s r.hp 1 r.ring).wb (le 4 (((ringAt s r.hp 1 r.ring).pi + cdiv r.bytes.length 64) % 2 ^ 32)) ∈ t.out ∧
        ∀ o ∈ slotWrites r.hp (ringAt s r.hp 1 r.ring).base (ringAt s r.hp 1 r.ring).size (ringAt s r.hp 1 r.ring).pi r.bytes, o ∈ t.out) ∧
    (∀ k b pool, s.actions.blocks = [(k, b)] → s.actions.blockSweep ≤ k → (poolOfBlock s (k, b)).bind (tfind s.actions.natPools) = some pool →
      trange s.actions.ports (k / 1024 * 65536 + k % 1024 * pool.ports) (k / 1024 * 65536 + k % 1024 * pool.ports + pool.ports) = [] →
      engineOf s (isTask 0xF005) = none → itemWaits s (isTask 0xF005) = false →
      ∃ t, exec .natBlockSweep s = .next t ∧ t.actions.blockSweep = 0 ∧
        (b.hold = false → t = { s with actions := t.actions } ∧
          t.actions.blocks = [(k, { b with hold := true, holdSince := wrap 32 (servedSec s) })]) ∧
        (b.hold = true → pool.blockHold ≤ (wrap 32 (servedSec s) + 2 ^ 32 - b.holdSince) % 2 ^ 32 → t.actions.blocks = [])) ∧
    (engineOf s (isTask 0xF006) = none → itemWaits s (isTask 0xF006) = false →
      ∃ t rules slices, exec .withyFold s = .next t ∧ t = { s with rules := rules, slices := slices } ∧
        (∀ o, o ∈ t.rules.overrides ↔ o ∈ s.rules.overrides ∧ seenByAll s o (List.range 8) = false) ∧
        (∀ o ∈ s.rules.overrides, seenByAll s o (List.range 8) = true → o.image ≠ 0 →
          (∀ o' ∈ s.rules.overrides, o' ≠ o → dtKey o'.table o'.index ≠ dtKey o.table o.index) →
          tget 0 t.rules.baseWest (dtKey o.table o.index) = o.image ∧ tget 0 t.rules.baseEast (dtKey o.table o.index) = o.image) ∧
        (∀ sl, sl < 8 → ∀ o, o ∈ (sliceAt t sl).vlanOver ↔ o ∈ (sliceAt s sl).vlanOver ∧ seenByAll s o [sl] = false)) ∧
    (∀ c, fld s .expColCtl [c] 31 31 = 1 → fld s .expColCtl [c] 30 30 = 1 → puntTarget s (0x40 + c) = true →
      let x := collectorAt s c
      (engineOf s (fun i => isTask 0xF007 i && i.params == [byte c]) = none →
        itemWaits s (fun i => isTask 0xF007 i && i.params == [byte c]) = false →
        ∃ t, exec (.ipfixTemplate c) s = .next t ∧ t = { s with actions := t.actions } ∧
          collectorAt t c = { x with seq := wrap 32 x.seq, waiting := x.waiting ++ [(0, servedRecord s ++ ipfixMessage s c templateSet)] }) ∧
      (x.firstTick + ticksOfNs (max 1 (fld s .actCfg [] 23 16) * 1000000) ≤ s.sched.ticked → x.records ≠ [] →
        ∃ t, exec (.ipfixFlush c) s = .next t ∧ t = { s with actions := t.actions } ∧
          collectorAt t c = { x with
            records := [], seq := wrap 32 (x.seq + x.records.length),
            waiting := x.waiting ++ [(x.records.length, servedRecord s ++ ipfixMessage s c (setBytes (dataSets x.records)))] }))

/-- With its links as each case says. A token on the root's CHAIN0 marks a ring; a device without an address takes the
token's and passes the next one to CHAIN1, unless it is the 63rd or CHAIN1 is down. A relayed command for this
device enters the receive buffer and is acknowledged; another goes out at the other port for one credit there and
returns one. A reply is passed on, or at the root answers the command that was sent, which leaves the relay buffer;
an acknowledgement stops its limit; at a scheduler tick past the limit it is answered ST_TIMEOUT and its tag
remembered. A credit adds one, to at most 64. A link change sets that port alone, with 64 credits when it comes up
and its event flag when it goes down. A completed enumeration answers what was found. -/
def Obligations.ChainCommands : Prop :=
  ∀ s : State, FixedParts s → s.rim.transition = none → s.sched.items = [] →
    let toHost (h : CmdHeader) (a : Answer) : Prop := h.viaChain = none ∧ h.replyRing < lostRing ∧
      (ringAt s (h.fn / 2) 1 h.replyRing).en = true ∧ answerFits s h a = true
    (∀ v, 1 ≤ v → v < 64 → chainUp s 0 = true →
      (s.chain.root = true → exec (.chainToken 0 v) s = .next { s with chain := { s.chain with ring := true } }) ∧
      (s.chain.root = false → s.chain.addr = none →
        (v < 63 → chainUp s 1 = true → exec (.chainToken 0 v) s = .next
          { s with chain := { s.chain with addr := some v }, out := .chain 1 0 (le 1 (v + 1)) :: s.out }) ∧
        ((v = 63 ∨ chainUp s 1 = false) →
          exec (.chainToken 0 v) s = .next { s with chain := { s.chain with addr := some v } }))) ∧
    (∀ port a h p, port < 2 → chainUp s port = true → s.chain.root = false → s.chain.addr = some a →
      let g : CmdHeader := { h with viaChain := some port }
      (h.dev = a → s.chain.rxBuf.length < 64 → exec (.chainCommandRelay port h p) s = .next
        { s with
          chain := { s.chain with rxBuf := s.chain.rxBuf ++ [⟨g, h.opcode, p, false, false, port, 0⟩] },
          out := .chain port 2 (le 1 h.dev ++ le 4 h.tag) :: s.out }) ∧
      (h.dev ≠ a → s.chain.rxBuf = [] → mayForward s (1 - port) = true → exec (.chainCommandRelay port h p) s = .next
        { s with
          chain := { s.chain with credits := setAt s.chain.credits (1 - port) (s.chain.credits.getD (1 - port) 0 - 1) },
          out := .chain port 5 [] :: .chain (1 - port) 1 (chainCommand g p) :: s.out })) ∧
    (∀ port dev fn tag opcode status mask cursor data, port < 2 → chainUp s port = true →
      (s.chain.root = false → s.chain.addr.isSome = true → chainUp s (1 - port) = true →
        exec (.chainReply port dev fn tag opcode status mask cursor data) s = .next
          { s with out := .chain (1 - port) 3 (le 1 dev ++ le 1 fn ++ le 4 tag ++ le 2 opcode ++ le 2 status ++ le 1 mask
            ++ le 8 cursor ++ data) :: s.out }) ∧
      (∀ r : Relayed, s.chain.root = true → s.chain.relayed = [r] → r.sent = true → r.header.dev = dev → r.header.tag = tag →
        r.header.fn = fn → r.opcode = opcode → toHost r.header ⟨status % 65536, mask % 256, cursor, data⟩ →
        exec (.chainReply port dev fn tag opcode status mask cursor data) s = .next (placeReply
          { s with chain := { s.chain with relayed := [] } } (replyOf r.header true ⟨status % 65536, mask % 256, cursor, data⟩)))) ∧
    (∀ r : Relayed, s.chain.relayed = [r] → r.sent = true → r.acked = false →
      exec (.chainAck r.header.dev r.header.tag) s =
        .next { s with chain := { s.chain with relayed := [{ r with acked := true }] } } ∧
      (r.deadline ≤ s.sched.ticked → toHost r.header (.of stTimeout) →
        exec (.chainAckTimeout r.header.dev r.header.tag) s = .next (placeReply { s with chain := { s.chain with
          relayed := [], timedOut := s.chain.timedOut ++ [(r.header.dev, r.header.tag)] } } (replyOf r.header true (.of stTimeout))))) ∧
    (∀ port, port < 2 → chainUp s port = true → s.chain.relayed = [] → s.chain.rxBuf = [] →
      exec (.chainCredit port) s = .next { s with chain := { s.chain with
        credits := setAt s.chain.credits port (min 64 (s.chain.credits.getD port 0 + 1)) } }) ∧
    (∀ port up peer lost, port < 2 → s.rim.started = true → chainUp s port ≠ up →
      (up = true → fld s .chainCfg [] 31 31 = 1) → s.chain.relayed = [] →
      ∃ t, exec (.chainLinkChange port up peer lost) s = .next t ∧ chainUp t port = up ∧
        chainUp t (1 - port) = chainUp s (1 - port) ∧ t.chain.addr = s.chain.addr ∧ t.chain.relayed = [] ∧
        (up = true → t.chain.credits.getD port 0 = 64) ∧
        (up = false → s.chain.root = false →
          eventAt t (RegName.addr .chainEvent []) = (eventAt s (RegName.addr .chainEvent [])).raise [port])) ∧
    (∀ h devices overflow, s.chain.enumerating = some h →
      let a := Answer.ok (enumData (min 64 (max 1 devices)) s.chain.ring overflow)
      toHost h a → exec (.enumerationComplete devices overflow) s = .next (answered { s with chain := { s.chain with
        enumerating := none, devices := min 64 (max 1 devices), overflow := overflow } } h a))

/-- A host link that comes up makes the device the root at address 0. A function-level reset, a link loss and PERST#
stop what their functions own: their rings are disabled, their semaphores free and no other's, their DMA channels
off; the event flag names the cause; a function-level reset also discards the function's pending mailbox request. A
read of a free semaphore makes the reader its owner and answers 0, of a held one answers the owner; its owner's
write frees it, and so does a privileged FORCE that names the owner, which is logged. A write of CR_PI or of a
consumer index sets it. EN 1 takes the setup with indices zero, writing back the device's own index where that
changes it (log entry 29), EN 0 stops the ring and loses its waiting replies, RESTART lets a halted command ring go
on. No other ring changes. -/
def Obligations.HostCommands : Prop :=
  ∀ s : State, FixedParts s → tsorted s.host.sems = true →
    let owns (fn cls r : Nat) : Prop := cls < 3 ∧ r < (if cls = 2 then 4 else 16) ∧ ringOwner s (fn / 2) cls r = fn
    let stopped (t : State) (fn : Nat) : Prop := (∀ cls r, owns fn cls r → (ringAt t (fn / 2) cls r).en = false) ∧
      (∀ n, tget 0 s.host.sems n = fn + 1 → tget 0 t.host.sems n = 0) ∧
      (∀ ch, ch / 16 = fn / 2 → chanOwner s ch = fn → chanOn s ch = true → chanOn t ch = false ∧ (chanAt t ch).state = 0)
    (∀ hp gen width, hp < 2 → s.rim.started = true → exec (.hostLinkUp hp gen width) s = .next
      { s with
        host := { s.host with ports := setAt s.host.ports hp { s.host.ports.getD hp HostPort.reset with
          up := true, gen := min 6 (max 3 gen), width := width % 16 } },
        chain := { s.chain with addr := some 0, root := true, devices := max 1 s.chain.devices } }) ∧
    (∀ fn, fn < 4 → ∃ t, exec (.functionLevelReset fn) s = .next t ∧ stopped t fn ∧
      (∀ n, tget 0 s.host.sems n ≠ fn + 1 → tget 0 t.host.sems n = tget 0 s.host.sems n) ∧
      (t.rim.boxes.getD fn ⟨false, false, 0⟩).busy = false ∧
      (∀ u, s.rim.update = some u → u.owner = fn → t.rim.update = none) ∧ t.host.ports = s.host.ports ∧
      eventAt t (RegName.addr .hpEvent [fn / 2]) = (eventAt s (RegName.addr .hpEvent [fn / 2])).raise [1 + fn % 2]) ∧
    (∀ hp, hp < 2 →
      let down (t : State) : Prop := stopped t (2 * hp) ∧ stopped t (2 * hp + 1) ∧
        (∀ n, tget 0 s.host.sems n ≠ 2 * hp + 1 → tget 0 s.host.sems n ≠ 2 * hp + 2 →
          tget 0 t.host.sems n = tget 0 s.host.sems n) ∧ (t.host.ports.getD hp HostPort.reset).up = false ∧ t.rim = s.rim ∧
        eventAt t (RegName.addr .hpEvent [hp]) = (eventAt s (RegName.addr .hpEvent [hp])).raise [0]
      (∃ t, exec (.perst hp) s = .next t ∧ down t) ∧
      ((s.host.ports.getD hp HostPort.reset).up = true → ∃ t, exec (.hostLinkDown hp) s = .next t ∧ down t)) ∧
    (∀ (req : Requester) (off n : Nat), domainUp s off = true → locate off = some (.sem, [n]) →
      ∃ t, exec (.semaphoreAcquire req off false) s = .next t ∧ (∃ host, t = { s with host := host, out := t.out }) ∧
        t.out = .readData req.id (0x102000 + 4 * n) (tget 0 s.host.sems n) :: s.out ∧ t.host.lastSemOwner = req.id ∧
        (tget 0 s.host.sems n = 0 → tget 0 t.host.sems n = req.id + 1 ∧ ∀ m, m ≠ n → tget 0 t.host.sems m = tget 0 s.host.sems m) ∧
        (tget 0 s.host.sems n ≠ 0 → t.host.sems = s.host.sems)) ∧
    (∀ (req : Requester) (n o : Nat), Reaches s req (RegName.addr .sem [n]) .sem [n] → tget 0 s.host.sems n = o + 1 → o < 256 →
      (o = req.id → ∃ t, exec (.semaphoreRelease req (RegName.addr .sem [n]) o) s = .next t ∧
        (∃ sems, t = { s with host := { s.host with sems := sems, lastSemOwner := req.id } }) ∧
        tget 0 t.host.sems n = 0 ∧ ∀ m, m ≠ n → tget 0 t.host.sems m = tget 0 s.host.sems m) ∧
      (Who.permits .priv req.id = true →
        ∃ t sems fresh log, exec (.semaphoreForceRelease req (RegName.addr .sem [n]) (256 + o)) s = .next t ∧
          t = { s with host := { s.host with sems := sems, lastSemOwner := req.id }, fresh := fresh, log := log } ∧
          s.log.next < log.next ∧ tget 0 sems n = 0 ∧ ∀ m, m ≠ n → tget 0 sems m = tget 0 s.host.sems m)) ∧
    (∀ (req : Requester) (v hp n cls : Nat), v < 2 ^ 32 → cls < 3 → n < 16 →
      let ring (x : State) : Ring := ringAt x hp cls n
      let others (t : State) : Prop := ∀ h c m, c < 3 → m < 16 → (h, c, m) ≠ (hp, cls, n) → ringAt t h c m = ringAt s h c m
      let cfg := RegName.addr (ringCfg cls) [hp, n]
      let ix := [hp, n]
      (cls = 0 → Reaches s req (RegName.addr .crPi ix) .crPi ix →
        ∃ t, exec (.crPiWrite req (RegName.addr .crPi ix) v) s = .next t ∧ (∃ host, t = { s with host := host }) ∧
          ring t = { ring s with pi := v } ∧ others t) ∧
      (∀ r, (cls = 1 ∧ r = RegName.rrCi ∨ cls = 2 ∧ r = RegName.erCi) → Reaches s req (r.addr ix) r ix →
        ∃ t, exec (.ringCiWrite req (r.addr ix) v) s = .next t ∧ (∃ host, t = { s with host := host }) ∧
          ring t = { ring s with ci := v } ∧ others t) ∧
      (Reaches s req cfg (ringCfg cls) ix →
        ((ring s).en = false → bit v 31 = true → bit v 30 = false →
          ∃ t, exec (.ringEnable req cfg v) s = .next t ∧ (∃ regs host out, t = { s with regs := regs, host := host, out := out }) ∧
            t.out = (if (if cls = 0 then (ring s).ci else (ring s).pi) = 0 then s.out
              else .hostWrite hp (ringSetup s cls ix).2 (le 4 0) :: s.out) ∧
            ring t = ⟨true, (ringSetup s cls ix).1, (ringSetup s cls ix).2, min 16 (max (ringLow cls) (fld t (ringCfg cls) ix 24 20)),
              0, 0, false, 0, 0, 0, (ring s).drops⟩ ∧ others t) ∧
        ((ring s).en = true → bit v 31 = false →
          ∃ t, exec (.ringDisable req cfg v) s = .next t ∧ ring t = { ring s with en := false } ∧ others t ∧
            (cls ≠ 1 → t.host.replies = s.host.replies) ∧
            (cls = 1 → ∀ r ∈ t.host.replies, r.hp = hp → r.ring ≠ n)) ∧
        (cls = 0 → (ring s).en = true → (ring s).halted = true → bit v 31 = true → bit v 30 = true →
          bits v 24 20 = fld s .crCfg ix 24 20 →
          ∃ t, exec (.ringRestart req cfg v) s = .next t ∧ (∃ regs host, t = { s with regs := regs, host := host }) ∧
            ring t = { ring s with halted := false, cause := 0 } ∧ others t)))

/-- For a channel that holds no completion back, no stack waiting to lose its power, writes of DMA_CTL that reach it: EN
1 takes it from OFF to IDLE; START in IDLE, WAIT or HALTED begins at DMA_HEAD with the count zero; RESUME in HALTED
and KICK in WAIT fetch the descriptor at CUR again; CQ_EN 1 takes the queue's setup with indices zero; EN 0 drops
what is in progress. A write of CQ_CI sets it. A running channel whose next descriptor is not owned waits; an owned
copy is moved, written back and completed, and the channel goes on to NEXT or to IDLE. When grace ends a channel
still on a descriptor of the domain halts with ST_DOMAIN_DOWN and its event flag. A receive channel takes the oldest
punted frame of a slice, or the oldest message of a collector, and writes metadata and payload to its buffer; on a
chained device a message joins what travels to the root. But for what EN 0 and a delivery do to frames in progress,
no other channel changes. -/
def Obligations.DmaCommands : Prop :=
  ∀ (s : State) (req : Requester) (v ch : Nat), v < 2 ^ 32 → ch < 32 → (chanAt s ch).held = none → s.power.leaving = [] →
    let c := chanAt s ch
    let becomes (t : State) (x : DmaChannel) : Prop := chanAt t ch = x ∧ ∀ k, k ≠ ch → chanAt t k = chanAt s k
    let quiet (t : State) (x : DmaChannel) : Prop := becomes t x ∧ ∃ regs dma, t = { s with regs := regs, dma := dma }
    (Reaches s req (RegName.addr .dmaCtl [ch]) .dmaCtl [ch] →
      (bit v 25 = true → fld s .dmaCtl [ch] 25 25 = 1) → (chanOn s ch = true → bits v 27 26 = fld s .dmaCtl [ch] 27 26) →
      (bit v 31 = true → bits v 30 28 = 0 → chanOn s ch = false →
        ∃ t, exec (.dmaEnable req (RegName.addr .dmaCtl [ch]) v) s = .next t ∧ quiet t { c with state := 1 } ∧ chanOn t ch = true) ∧
      (bit v 31 = true → bits v 30 28 = 4 → chanOn s ch = true → (c.state = 1 ∨ c.state = 3 ∨ c.state = 4) →
        ∃ t, exec (.dmaStart req (RegName.addr .dmaCtl [ch]) v) s = .next t ∧
          quiet t { c with state := 2, count := 0, cur := inForce s .dmaHeadHi [ch] * 2 ^ 32 + inForce s .dmaHeadLo [ch] }) ∧
      (bit v 31 = true → bits v 30 28 = 2 → chanOn s ch = true → c.state = 4 →
        ∃ t, exec (.dmaResume req (RegName.addr .dmaCtl [ch]) v) s = .next t ∧ quiet t { c with state := 2, count := 0 }) ∧
      (bit v 31 = true → bits v 30 28 = 1 → chanOn s ch = true → c.state = 3 →
        ∃ t, exec (.dmaKick req (RegName.addr .dmaCtl [ch]) v) s = .next t ∧ quiet t { c with state := 2 }) ∧
      (bit v 31 = false → chanOn s ch = true →
        ∃ t, exec (.dmaDisable req (RegName.addr .dmaCtl [ch]) v) s = .next t ∧ chanOn t ch = false ∧
          (chanAt t ch).state = 0 ∧ (chanAt t ch).doing = none ∧ (chanAt t ch).inject = none ∧ (chanAt t ch).held = none ∧
          (c.inject = none → (∀ sl, sl < 8 → (storeAt s sl).punt = []) →
            (∀ k, k ≠ ch → chanAt t k = chanAt s k) ∧ ∃ regs dma fresh, t = { s with regs := regs, dma := dma, fresh := fresh }))) ∧
    (Reaches s req (RegName.addr .dmaCtl [ch]) .dmaCtl [ch] → bit v 31 = true → bits v 30 28 = 0 → bit v 25 = true →
      chanOn s ch = true → bits v 27 26 = fld s .dmaCtl [ch] 27 26 → fld s .dmaCtl [ch] 25 25 = 0 →
      ∃ t, exec (.cqEnable req (RegName.addr .dmaCtl [ch]) v) s = .next t ∧ quiet t { c with
        cqBase := inForce s .cqBaseHi [ch] * 2 ^ 32 + inForce s .cqBaseLo [ch],
        cqWb := inForce s .cqWbHi [ch] * 2 ^ 32 + inForce s .cqWbLo [ch],
        cqLog2 := min 16 (max 6 (fld s .cqCfg [ch] 4 0)), cqPi := 0, cqCi := 0 }) ∧
    (Reaches s req (RegName.addr .cqCi [ch]) .cqCi [ch] →
      ∃ t, exec (.cqCiWrite req (RegName.addr .cqCi [ch]) v) s = .next t ∧ quiet t { c with cqCi := v }) ∧
    (∀ (bytes data : List Byte) (d : Descriptor), chanOn s ch = true → c.state = 2 → s.power.state ≠ 2 → c.doing = none →
      c.cur % 32 = 0 → d = Descriptor.ofBytes c.cur bytes →
      (bit (leAt bytes 28 4) 31 = false →
        ∃ t, exec (.dmaDescriptor ch bytes .ok data .ok none) s = .next t ∧ quiet t { c with state := 3 }) ∧
      (bit (leAt bytes 28 4) 31 = true → fld s .dmaLimit [ch] 23 0 = 0 → chanMode s ch = 0 → c.moved = 0 →
        d.valid s 0 = true → d.trace = false → d.int = false → d.len ≤ 4096 → fld s .dmaCtl [ch] 25 25 = 0 →
        ∃ t out, exec (.dmaDescriptor ch bytes .ok data .ok none) s = .next t ∧ (∃ dma, t = { s with dma := dma, out := out }) ∧
          out = .hostWrite (ch / 16) (c.cur + 28) (le 4 0) :: .hostWrite (ch / 16) (c.cur + 24) (le 4 d.len) ::
            .hostWrite (ch / 16) d.arg (padTo d.len data) :: s.out ∧
          becomes t { c with
            state := if d.next = 0 then 1 else 2, cur := if d.next = 0 then c.cur else d.next, inject := none,
            count := wrap 32 (c.count + 1), bytes := wrap 64 (c.bytes + d.len) })) ∧
    (∀ d, c.doing = some d → c.state = 2 → d.domainLeaves s (chanMode s ch) = true → graceOver s (d.graceStart s) = true → c.inject = none →
      ∃ t, exec (.dmaGraceExpire ch) s = .next t ∧ (chanAt t ch).state = 4 ∧ (chanAt t ch).status = stDomainDown ∧
        (chanAt t ch).doing = none ∧ (∀ k, k ≠ ch → chanAt t k = chanAt s k) ∧
        eventAt t (RegName.addr .dmaEvent []) = (eventAt s (RegName.addr .dmaEvent [])).raise [0]) ∧
    (∀ d, s.power.state ≠ 2 → s.chain.addr.getD 0 = 0 → c.doing = some d → c.state = 2 → chanMode s ch = 2 →
      (∀ sl id f b, sl < 8 → puntHead s sl ch = some id → frameAt s id = some f → f.tail = .good → diesLeave s = false →
        (∀ i ∈ (storeAt s sl).punt, ∀ g, frameAt s i = some g → puntTarget s (g.punt.getD 0) = true) →
        b = puntBytes f (f.punt.getD 0) →
        ∃ t, exec (.puntDeliver ch sl) s = .next t ∧ id ∉ (storeAt t sl).punt ∧
          Output.hostWrite (ch / 16) d.src (puntMeta s f (f.punt.getD 0) b.length (decide (d.len - 64 < b.length)) ++
            b.take (min b.length (d.len - 64))) ∈ t.out) ∧
      (∀ k n m rest, k < 8 → (collectorAt s k).waiting = (n, m) :: rest → fld s .puntMap [0x40 + k] 28 24 = ch →
        puntTarget s (0x40 + k) = true →
        ∃ t, exec (.puntDeliver ch (8 + k)) s = .next t ∧ collectorAt t k = { collectorAt s k with waiting := rest } ∧
          Output.hostWrite (ch / 16) d.src (exportMeta s k (m.drop 24).length (decide (d.len - 64 < (m.drop 24).length)) (m.take 24) ++
            (m.drop 24).take (min (m.drop 24).length (d.len - 64))) ∈ t.out)) ∧
    (∀ k n m rest, k < 8 → s.power.state ≠ 2 → s.chain.addr.getD 0 ≠ 0 → (collectorAt s k).waiting = (n, m) :: rest →
      puntTarget s (0x40 + k) = true → s.chain.upward.length < 256 → chainUp s (upPort s) = false →
      ∃ t, exec (.puntDeliver ch (8 + k)) s = .next t ∧ collectorAt t k = { collectorAt s k with waiting := rest } ∧
        t.chain = { s.chain with upward := s.chain.upward ++ [exportMeta s k (m.drop 24).length false (m.take 24) ++ m.drop 24] })

/-- For a pseudo-channel that is served: wide windows are recorded, and a full sweep that finds a narrow one retires it
with cause 4; a parity error is counted and flagged, and the third in a row without a window retires both
pseudo-channels of the channel; the refresh rate of a stack doubles at 85 °C and is normal again below 80 °C; the
scrub moves to the next line. Writes that reach their register: HBM_RETIRE with its key retires a live
pseudo-channel with cause 7, and no page elsewhere moves; a bit cleared in PWR_MACRO puts the macro's ports in
LINK_FAILED with cause MACRO_DOWN, one set powers it; PWR_CHIPLET likewise powers a chiplet, whose registers are as
after reset while it is down; PWR_STACK with its key retires the stack, which loses its power at once or, while a
DMA channel works on a descriptor that touches it, later. PWR_CTL in RUN with every macro off begins to enter
standby: quiet, with no DMA channel on what goes down, it retains; with such a channel the grace runs; not quiet for
1 s it returns to RUN. A wake from retention leaves self-refresh and adds one to every generation; one during a
close in standby is kept for its end. -/
def Obligations.MemoryAndPower : Prop :=
  ∀ s : State,
    (∀ pc r w sweep, pcServes s pc = true →
      (narrow r = false → narrow w = false → ∃ t hbm, exec (.hbmRecal pc r w sweep) s = .next t ∧ t = { s with hbm := hbm } ∧
        pcAt t pc = { pcAt s pc with rwin := wrap 32 r, wwin := wrap 32 w } ∧ ∀ q, q ≠ pc → pcAt t q = pcAt s q) ∧
      (narrow r = true → (narrow sweep.1 = true ∨ narrow sweep.2 = true) → ∃ t, exec (.hbmRecal pc r w sweep) s = .next t ∧
        (pcAt t pc).state = 2 ∧ (pcAt t pc).cause = 4 ∧ ∀ q, q ≠ pc → pcAt t q = pcAt s q)) ∧
    (∀ c inRow window, c < 64 → pcServes s (c * 2) = true → pcServes s (c * 2 + 1) = true →
      ∃ t, exec (.hbmCaParity c inRow window) s = .next t ∧
        tget 0 t.hbm.replays c = min (tget 0 s.hbm.replays c + 1) (2 ^ 32 - 1) ∧
        ((inRow = false ∨ tget 0 s.hbm.parity c ≠ 2 ∨ window = true) → t.hbm.pcs = s.hbm.pcs ∧
          eventAt t (RegName.addr .hbmEvent []) = (eventAt s (RegName.addr .hbmEvent [])).raise [1]) ∧
        (inRow = true → tget 0 s.hbm.parity c = 2 → window = false →
          (pcAt t (c * 2)).state = 2 ∧ (pcAt t (c * 2 + 1)).state = 2)) ∧
    (∀ pc x, pcServes s pc = true → tfind s.rim.temps (24 + pc / 32) = some x → bit s.power.stackPwr (pc / 32) = true →
      ∃ t, exec (.hbmRefresh pc) s = .next t ∧
        (stkAt t (pc / 32)).refresh2x = (if 340 ≤ sint 16 x then true else if sint 16 x < 320 then false else (stkAt s (pc / 32)).refresh2x) ∧
        (∀ k, k ≠ pc / 32 → stkAt t k = stkAt s k) ∧ t.hbm.pcs = s.hbm.pcs) ∧
    (∀ pc, pcServes s pc = true → fld s .hbmCfg [] 23 16 ≠ 0 →
      exec (.patrolScrub pc .ok) s = .next { s with hbm := { s.hbm with
        scrub := tput 0 s.hbm.scrub pc ((tget 0 s.hbm.scrub pc + 1) % 6291456) } }) ∧
    (∀ (req : Requester) (v pc : Nat), pc = bits v 6 0 → Reaches s req (RegName.addr .hbmRetire []) .hbmRetire [] →
      bits v 31 16 = 0x5245 → s.hbm.trainDone = true → pcLive s pc = true →
      ∃ t, exec (.hbmRetireWrite req (RegName.addr .hbmRetire []) v) s = .next t ∧ (pcAt t pc).state = 2 ∧
        (pcAt t pc).cause = 7 ∧ (∀ q, q ≠ pc → pcAt t q = pcAt s q) ∧ s.log.next < t.log.next ∧
        (∀ p, p < pgEnd → (pageHome s p).1 ≠ pc → pageHome t p = pageHome s p) ∧
        eventAt t (RegName.addr .hbmEvent []) = (eventAt s (RegName.addr .hbmEvent [])).raise [3]) ∧
    (∀ (req : Requester) (v m : Nat), v < 2 ^ 32 → m < 32 → Reaches s req (RegName.addr .pwrMacro []) .pwrMacro [] →
      (macrosIn (inForce s .pwrMacro []) v = [m] → macrosIn v (inForce s .pwrMacro []) = [] → bit s.power.macros m = true →
        ∃ t, exec (.macroPowerDown req (RegName.addr .pwrMacro []) v) s = .next t ∧ inForce t .pwrMacro [] = v ∧
          t.power = { s.power with macros := withBit s.power.macros m false } ∧
          (∀ p ∈ macroPorts s m, (portAt t p).state = 0 ∧ (portAt t p).cause = 3) ∧
          eventAt t (RegName.addr .pwrEvent []) = (eventAt s (RegName.addr .pwrEvent [])).raise [0]) ∧
      (macrosIn (inForce s .pwrMacro []) v = [] → macrosIn v (inForce s .pwrMacro []) = [m] →
        bit s.power.chiplets (m / 4) = true → s.rim.startDone = true →
        ∃ t, exec (.macroPowerUp req (RegName.addr .pwrMacro []) v) s = .next t ∧ inForce t .pwrMacro [] = v ∧
          t.power = { s.power with macros := withBit s.power.macros m true } ∧
          (tfind s.line.heldModes m = none → ∀ p ∈ macroPorts s m, fld s .portCtl [p] 31 31 = 0 →
            (portAt t p).state = 0 ∧ (portAt t p).cause = 0) ∧
          eventAt t (RegName.addr .pwrEvent []) = (eventAt s (RegName.addr .pwrEvent [])).raise [0])) ∧
    (∀ (req : Requester) (v c : Nat), v < 256 → c < 8 → Reaches s req (RegName.addr .pwrChiplet []) .pwrChiplet [] →
      let cleared (t : State) : Prop := ∀ off, 0x3000000 + c * 0x20000 ≤ off → off < 0x3000000 + (c + 1) * 0x20000 →
        tfind t.regs.cells off = none ∧ tfind t.regs.events off = none
      (chipletsIn (inForce s .pwrChiplet []) v = [c] → chipletsIn v (inForce s .pwrChiplet []) = [] → bit s.power.chiplets c = true →
        ∃ t, exec (.chipletPowerDown req (RegName.addr .pwrChiplet []) v) s = .next t ∧ cleared t ∧
          t.power.chiplets = withBit s.power.chiplets c false ∧ (∀ i, i < 4 → fld t .pwrMacro [] (c * 4 + i) (c * 4 + i) = 0)) ∧
      (chipletsIn (inForce s .pwrChiplet []) v = [] → chipletsIn v (inForce s .pwrChiplet []) = [c] → s.rim.startDone = true →
        ∃ t, exec (.chipletPowerUp req (RegName.addr .pwrChiplet []) v) s = .next t ∧
          t.power = { s.power with chiplets := withBit s.power.chiplets c true } ∧ t.frames = s.frames ∧
          eventAt t (RegName.addr .pwrEvent []) = (eventAt s (RegName.addr .pwrEvent [])).raise [0])) ∧
    (∀ (req : Requester) (v k : Nat), k < 4 → Reaches s req (RegName.addr .pwrStack []) .pwrStack [] →
      stacksIn (inForce s .pwrStack []) v = [k] → stacksIn v (inForce s .pwrStack []) = [] → bits v 31 16 = 0x5350 → s.power.leaving = [] →
      ∃ t, exec (.stackPowerDown req (RegName.addr .pwrStack []) v) s = .next t ∧ (∀ pc, pc / 32 ≠ k → pcAt t pc = pcAt s pc) ∧
        (stackTouched s k = false → t.power = { s.power with stackPwr := withBit s.power.stackPwr k false } ∧
          ∀ pc, pc / 32 = k → (pcAt t pc).state = 3) ∧
        (stackTouched s k = true → t.power = { s.power with leaving := [(k, s.time.tick)] } ∧
          (s.hbm.trainDone = true → ∀ pc, pc / 32 = k → pcLive t pc = false))) ∧
    (∀ (req : Requester) (v : Nat), Reaches s req (RegName.addr .pwrCtl []) .pwrCtl [] → bits v 31 16 = 0x5342 →
      (bits v 1 0 = 1 → inForce s .pwrMacro [] = 0 → s.rim.minimal = false → s.power.state = 0 →
        exec (.standbyRequest req (RegName.addr .pwrCtl []) v) s =
          .next { s with power := { s.power with state := 1, since := s.time.tick } }) ∧
      (bits v 1 0 = 2 → s.power.state = 2 → tsorted s.counters.gens = true →
        ∃ t, exec (.wake req (RegName.addr .pwrCtl []) v []) s = .next t ∧
          t.power = { s.power with state := 0, wakeAsked := false } ∧ t.hbm.pcs = s.hbm.pcs ∧
          (∀ k, k < 4 → bit s.power.stackPwr k = true → (stkAt t k).selfRefresh = false) ∧
          ∀ p, p < 9 → tget 0 t.counters.gens p = (tget 0 s.counters.gens p + 1) % 65536) ∧
      (bits v 1 0 = 2 → s.power.state = 4 → exec (.wake req (RegName.addr .pwrCtl []) v []) s =
        .next { s with power := { s.power with wakeAsked := true } })) ∧
    (s.power.state = 1 → standbyQuiet s = true → dmaTouches s = true → exec .standbyIdle s =
      .next { s with power := { s.power with graceFrom := some (s.power.graceFrom.getD s.time.tick) } }) ∧
    (s.power.state = 1 → standbyQuiet s = true → dmaTouches s = false →
      ∃ t regs hbm, exec .standbyIdle s = .next t ∧
        t = { s with regs := regs, hbm := hbm, power := { s.power with state := 2, graceFrom := none } } ∧
        hbm.pcs = s.hbm.pcs ∧ (∀ k, k < 4 → bit s.power.stackPwr k = true → (stkAt t k).selfRefresh = true) ∧
        eventAt t (RegName.addr .pwrEvent []) = (eventAt s (RegName.addr .pwrEvent [])).raise [1]) ∧
    (s.power.state = 1 → standbyQuiet s = false → s.power.since + ticksOfNs 1000000000 ≤ s.time.tick →
      ∃ t regs, exec .standbyAbandoned s = .next t ∧ t = { s with regs := regs, power := { s.power with state := 0 } } ∧
        eventAt t (RegName.addr .pwrEvent []) = (eventAt s (RegName.addr .pwrEvent [])).raise [2])

/-- The first turn of a start takes one step of the session counter, takes up the lifecycle burned, powers the stacks
and, with OTP faulty or RETIRED, is minimal with its cause; the second trains the stacks, places both tiers over the
live pseudo-channels, opens the first epoch, powers what the power registers say and raises START_DONE; more than 8
failures, or no START_DONE in 60 s, reset the device. A reset leaves every domain but the Rim's as after reset,
keeps OTP, slots, board record, certificate and log, and notes its kind; a power-on reset or the watchdog loses what
had not reached the flash; a crystal that stops holds the device until it returns; a sensor past its limit shuts it
down. GLB_RESET_REQ with its key, and the end of the 100 ms wait for idle engines, close the open epoch with cause
5; the end of the 5 s wait for its seal resets. Readings are kept, a sensor warns from its threshold until 5 °C
below it, and short of the critical limits nothing else of the Rim changes. A regulator that reports a status is
logged and flagged. A tamper assertion is logged, flagged and put into the open epoch's gap of kind 4; its release
is flagged. LOG_FLUSH brings the log to the flash. A TAP instruction acts in BLANK; else IDCODE does and any other
is BYPASS. -/
def Obligations.StartsAndResets : Prop :=
  ∀ s : State,
    let resets (t u : State) (kind minimal : Nat) : Prop := ∃ rim : RimState,
      t = { State.reset with pending := u.pending, fresh := u.fresh, out := u.out, log := u.log, rim := rim } ∧
      rim.otp = u.rim.otp ∧ rim.slots = u.rim.slots ∧ rim.board = u.rim.board ∧ rim.cert = u.rim.cert ∧ rim.started = false ∧
      rim.transition = none ∧ rim.update = none ∧ rim.resetKind = some kind ∧ rim.startMinimal = minimal
    let flushed : State := { s with log := { s.log with flushed := s.log.next } }
    (∀ i : StartInfo, s.rim.hold = 0 → s.rim.started = false →
      ∃ t, exec (.deviceStart i) s = .next t ∧ t.rim.started = true ∧ t.power.stackPwr = 15 ∧ t.time.holdover = (!i.timeRef) ∧
        t.rim.lifecycle = s.rim.otp.lifecycle ∧ t.rim.boardLive = (if boardOk s.rim.board then s.rim.board else []) ∧
        t.rim.tamper = (i.tamper && tamperEn t) ∧ t.rim.startMinimal = 0 ∧
        (s.rim.otp.sessions < 16384 → t.rim.session = s.rim.otp.sessions ∧ t.rim.otp =
          { s.rim.otp with sessions := s.rim.otp.sessions + 1, faulty := s.rim.otp.faulty || i.otpFault }) ∧
        (16384 ≤ s.rim.otp.sessions → t.rim.session = 16383 ∧
          t.rim.otp = { s.rim.otp with faulty := s.rim.otp.faulty || i.otpFault }) ∧
        (s.rim.otp.faulty = true ∨ i.otpFault = true → t.rim.minimal = true ∧ t.rim.minCause = 9) ∧
        (s.rim.otp.faulty = false → i.otpFault = false → s.rim.otp.lifecycle = 3 → t.rim.minimal = true ∧ t.rim.minCause = 5)) ∧
    (∀ i : StartInfo, s.rim.hold = 0 → s.rim.started = true → s.rim.startDone = false → s.rim.minimal = false →
      s.rim.transition = none → s.power.state = 0 →
      (8 < (trainFailures i).length → ∃ t log fresh, exec (.deviceStart i) s = .next t ∧ s.log.next < log.next ∧
        log.flushed = log.next ∧ resets t { s with log := log, fresh := fresh } 1 3) ∧
      (trainFailures i = [] →
        ∃ t, exec (.deviceStart i) s = .next t ∧ t.rim.startDone = true ∧ t.rim.attempts = 0 ∧ t.hbm.trainDone = true ∧
          t.skein.initDone = true ∧ t.skein.survivors = livePcs s ∧ t.lid.opened = true ∧ t.rim.otp = s.rim.otp ∧
          (∀ pc, pc < 128 → pcLive t pc = pcLive s pc ∧ (pcAt t pc).rwin = widthsOf i.rwin pc ∧
            (pcAt t pc).wwin = widthsOf i.wwin pc) ∧
          (∀ c, c < 8 → bit t.power.chiplets c = bit (inForce s .pwrChiplet []) c) ∧
          (∀ m, m < 32 → bit t.power.macros m = (bit (inForce s .pwrMacro []) m && bit (inForce s .pwrChiplet []) (m / 4))))) ∧
    (s.rim.started = true → s.rim.startDone = false → s.rim.minimal = false → ticksOfNs 60000000000 ≤ s.time.tick →
      ∃ t, exec .startFailTimeout s = .next t ∧ resets t flushed 1 0) ∧
    (∃ t, exec .powerOnReset s = .next t ∧ resets t { s with log := s.log.cut } 4 0 ∧ t.rim.temps = [] ∧
      t.rim.hold = if s.rim.hold = 1 then 1 else 0) ∧
    (∃ t, exec .suppliesRemoved s = .next t ∧ resets t { s with log := s.log.cut } 4 0 ∧ t.rim.temps = [] ∧
      t.rim.hold = if s.rim.hold = 1 then 1 else 0) ∧
    (s.rim.hold ≠ 1 → ∃ t, exec .watchdogExpire s = .next t ∧ resets t { s with log := s.log.cut } 2 0) ∧
    (∀ rail value, ∃ t log fresh, exec (.supplyFault rail value) s = .next t ∧ s.log.next < log.next ∧
      resets t { s with log := log, fresh := fresh } 3
        (if 2 ≤ (s.rim.faults.filter (fun f => decide (s.rim.uptime + s.time.tick < f + ticksOfNs 600000000000))).length then 7 else 0)) ∧
    (s.rim.hold = 0 → ∃ t, exec .crystalLoss s = .next t ∧ resets t s 3 0 ∧ t.rim.hold = 1) ∧
    (s.rim.hold = 1 → exec .crystalReturn s = .next { s with rim := { s.rim with hold := 0 } }) ∧
    (∀ (req : Requester) (v : Nat), v = 0x52535452 → Reaches s req (RegName.addr .glbResetReq []) .glbResetReq [] →
      s.rim.transition = none → s.sched.items = [] → s.power.state ≠ 2 → s.lid.closing = none →
      (s.lid.opened = true → ∃ t c, exec (.glbResetReq req (RegName.addr .glbResetReq []) v) s = .next t ∧
        t.rim.transition = some ⟨0, minimalStays s, true, s.time.tick⟩ ∧ t.sched.attention = true ∧ t.lid.closing = some c ∧
        c.closeHow = 5 ∧ c.epoch.seq = s.lid.epoch.seq ∧ t.lid.opened = false) ∧
      (s.lid.opened = false → ∃ t, exec (.glbResetReq req (RegName.addr .glbResetReq []) v) s = .next t ∧
        resets t flushed 0 (minimalStays s))) ∧
    (∀ tr, s.rim.transition = some tr →
      (tr.closing = false → tr.since + ticksOfNs 100000000 ≤ s.time.tick → s.lid.closing = none → s.lid.opened = true → ∃ t c, exec .attentionWaitLimit s = .next t ∧
        t.rim.transition = some { tr with closing := true, since := s.time.tick } ∧ t.lid.closing = some c ∧ c.closeHow = 5 ∧
        c.epoch.seq = s.lid.epoch.seq ∧ t.lid.opened = false) ∧
      (tr.closing = true → tr.since + ticksOfNs 5000000000 ≤ s.time.tick → ∃ t, exec .closeWaitLimit s = .next t ∧ resets t flushed tr.kind tr.minimal)) ∧
    (∀ (temps : List (Option Nat)) (volts : List Nat) (reads : Table Nat), s.rim.hold = 0 →
      reads = (List.range 32).filterMap (fun k => ((temps.getD k none).map (fun t => (k, t % 65536)))) →
      ((∃ e ∈ reads, atLimit (some (sensorShut e.1)) e.2 = true) →
        ∃ t, exec (.sensorPoll temps volts) s = .next t ∧ resets t s 3 0 ∧ t.rim.hold = 2) ∧
      ((∀ e ∈ reads, atLimit (some (sensorShut e.1)) e.2 = false ∧ atLimit (sensorCrit s e.1) e.2 = false) →
        ∃ t warned, exec (.sensorPoll temps volts) s = .next t ∧
          t.rim = { s.rim with temps := reads, volts := volts.map (· % 65536), warned := warned } ∧
          (∀ e ∈ reads, ((sensorWarn s e.1 : Nat) : Int) ≤ sint 16 e.2 → e.1 ∈ warned) ∧
          (∀ e ∈ reads, sint 16 e.2 ≤ ((sensorWarn s e.1 : Nat) : Int) - 20 → e.1 ∉ warned) ∧
          ∀ k, (∀ e ∈ reads, e.1 ≠ k) → (k ∈ warned ↔ k ∈ s.rim.warned))) ∧
    (∀ status, s.rim.hold ≠ 1 →
      ((∀ k, k < pmbCount s → status.getD k 0 % 65536 = 0) → exec (.pmbusPoll status) s = .next s) ∧
      (∀ k, k < pmbCount s → status.getD k 0 % 65536 ≠ 0 → (∀ j, j < pmbCount s → j ≠ k → status.getD j 0 % 65536 = 0) →
        ∃ t, exec (.pmbusPoll status) s = .next t ∧ t.rim = s.rim ∧ s.log.next < t.log.next ∧
          eventAt t (RegName.addr .rimEvent []) = (eventAt s (RegName.addr .rimEvent [])).raise [2])) ∧
    (tamperEn s = true → s.rim.tamper = false → s.rim.hold ≠ 1 →
      ∃ t, exec .tamperAssert s = .next t ∧ t.rim = { s.rim with tamper := true } ∧ s.log.next < t.log.next ∧
        eventAt t (RegName.addr .rimEvent []) = (eventAt s (RegName.addr .rimEvent [])).raise [1] ∧
        (s.lid.opened = true → t.lid.epoch.gaps = gapInto s.lid.epoch.gaps 4 0 1 (servedSec s) (servedNs s))) ∧
    (s.rim.tamper = true → ∃ t, exec .tamperRelease s = .next t ∧ t.rim = { s.rim with tamper := false } ∧ t.lid = s.lid ∧
      eventAt t (RegName.addr .rimEvent []) = (eventAt s (RegName.addr .rimEvent [])).raise [1]) ∧
    exec .logFlush s = .next flushed ∧
    (∀ op, ∃ t, exec (.tapInstruction op) s = .next t ∧
      t.rim = { s.rim with tap := if op = .idcode then .idcode
        else if s.rim.otp.lifecycle = 0 ∧ (op = .extest ∨ op = .samplePreload) then op else .bypass } ∧
      t.out = if op = .idcode then .tapData 0xB925674F :: s.out else s.out)

/-- For a request whose mailbox is served next, of the length its operation needs and from PF0 where the operation is
privileged: the response carries tag, status ST_OK, length and data, and DONE replaces BUSY. INFO, LOG_READ (whole
entries from a sequence still kept), CERT_READ, ATTEST (the statement and 96 bytes of signature, a free value) and
SENSOR_READ change nothing else of the Rim. IMG_BEGIN erases the slot that is neither ACTIVE nor TRYING, IMG_DATA
writes bytes of it, IMG_END marks a sound image TRIAL, IMG_CONFIRM makes the running trial ACTIVE and burns the
anti-rollback level up to its own. PROVISION and SEAL pend, PROVISION with an attestation key burned; RETIRE burns
its fuses. A burn that does not verify leaves the OTP faulty. RESET begins an orderly reset. BOARD_WRITE writes a
valid record, which does not take effect yet. -/
def Obligations.MailboxCommands : Prop :=
  ∀ (s : State) (m : Nat), m < 4 → FixedParts s →
    let p := reqBytes s m
    let ready (op need : Nat) : Prop := asks s op m = true ∧ reqLen s m ≤ 4080 ∧ need ≤ reqLen s m
    let answers (t : State) (data : List Byte) : Prop := boxAt t m = ⟨false, true, stOk⟩ ∧ t.rim.boxLast = m ∧
      inForce t .mbxResp [m, 0] = reqTag s m ∧ inForce t .mbxResp [m, 1] = stOk ∧
      inForce t .mbxResp [m, 2] = (data.take 4080).length ∧
      ∀ i, i < cdiv (data.take 4080).length 4 → inForce t .mbxResp [m, 4 + i] = leAt (data.take 4080) (4 * i) 4
    let only (t : State) : Prop := t.rim = { s.rim with boxes := t.rim.boxes, boxLast := m } ∧
      t = { s with regs := t.regs, out := t.out, rim := t.rim, fresh := t.fresh }
    (ready 0x01 0 → ∃ t, exec (.info m) s = .next t ∧ only t ∧ answers t
      (le 4 (rimStatusWord s) ++ le 4 (rimOtpWord s) ++ [0, 1].flatMap (fun k =>
        le 4 (slotAt s k).state ++ le 4 (imgLevel (slotAt s k).bytes) ++ le 4 (imgVersion (slotAt s k).bytes)))) ∧
    (ready 0x02 10 → logOldest s ≤ leAt p 0 8 → ∃ t, exec (.logRead m) s = .next t ∧ only t ∧ answers t
      (entriesThatFit (min 4080 (leAt p 8 2))
        (((logBytes s.log.entries.reverse s.log.chain0).filter (fun e => decide (leAt p 0 8 ≤ e.1))).map (·.2)))) ∧
    (ready 0x03 4 → ∃ t, exec (.certRead m) s = .next t ∧ only t ∧ answers t ((s.rim.cert.drop (leAt p 0 4)).take 4064)) ∧
    (ready 0x04 48 → ∃ t sig, exec (.attest m) s = .next t ∧ only t ∧ sig.length = 96 ∧
      answers t (attestBody s (p.take 48) ++ sig)) ∧
    (ready 0x05 0 → ∃ t, exec (.sensorRead m) s = .next t ∧ only t ∧ answers t
      ((List.range 32).flatMap (fun k => le 4 (thermWord s k)) ++ s.rim.volts.flatMap (le 2))) ∧
    (m % 2 = 0 →
      (∀ n k, ready 0x10 4 → n = leAt p 0 4 → onTrial s = false → (∀ u, s.rim.update = some u → u.owner = m) → 512 ≤ n →
        n ≤ 4194304 → [0, 1].find? (fun k => (slotAt s k).state != 5 && (slotAt s k).state != 4) = some k →
        ∃ t, exec (.imgBegin m) s = .next t ∧ answers t (le 4 k) ∧ slotAt t k = ⟨1, List.replicate n 0xFF⟩ ∧
          slotAt t (1 - k) = slotAt s (1 - k) ∧ t.rim.update = some ⟨m, k, n⟩ ∧ t.rim.otp = s.rim.otp) ∧
      (∀ u, s.rim.update = some u → u.owner = m → u.slot < 2 →
        (ready 0x11 5 → leAt p 0 4 + (p.drop 4).length ≤ u.length → (p.drop 4).length ≤ 4064 →
          ∃ t, exec (.imgData m) s = .next t ∧ answers t [] ∧ slotAt t (1 - u.slot) = slotAt s (1 - u.slot) ∧
            slotAt t u.slot = ⟨1, patch (slotAt s u.slot).bytes (leAt p 0 4) (p.drop 4)⟩ ∧ t.rim.update = s.rim.update) ∧
        (ready 0x12 0 → imageOk s (slotAt s u.slot).bytes = true →
          ∃ t, exec (.imgEnd m) s = .next t ∧ answers t [] ∧ slotAt t u.slot = { slotAt s u.slot with state := 3 } ∧
            slotAt t (1 - u.slot) = slotAt s (1 - u.slot) ∧ t.rim.update = none ∧ s.log.next < t.log.next ∧
            eventAt t (RegName.addr .rimEvent []) = (eventAt s (RegName.addr .rimEvent [])).raise [3])) ∧
      (∀ k b, ready 0x13 0 → s.rim.minimal = false → s.rim.startDone = true → s.rim.running = some k → k < 2 →
        (slotAt s k).state = 4 →
        let level := max s.rim.otp.rollback (min 1024 (imgLevel (slotAt s k).bytes))
        ∃ t, exec (.imgConfirm m b) s = .next t ∧ t.rim.otp = { s.rim.otp with
            rollback := level, faulty := s.rim.otp.faulty || (b && level != s.rim.otp.rollback) } ∧
          (b = false ∨ level = s.rim.otp.rollback → answers t (le 4 level)) ∧
          slotAt t k = { slotAt s k with state := 5 } ∧
          slotAt t (1 - k) = (if (slotAt s (1 - k)).state = 5 then { slotAt s (1 - k) with state := 2 } else slotAt s (1 - k))) ∧
      (∀ dst b, ready 0x20 8 → dst = byteAt p 0 % 4 → leAt p 4 4 = 0x4C435943 → s.rim.otp.lifecycle ≠ 3 →
        (s.rim.lifecycle + 1 = dst → dst < 3 → s.rim.minimal = false → b = false ∨ dst = 2 ∨ s.rim.otp.dak.isSome = true →
          ∃ t, exec (.lifecycle m b) s = .next t ∧ answers t [] ∧ t.rim.pendingLc = dst ∧ t.rim.lifecycle = s.rim.lifecycle ∧
            t.rim.otp.lifecycle = s.rim.otp.lifecycle ∧ (dst = 1 → t.rim.otp.dak.isSome = true) ∧
            (s.rim.otp.dak.isSome = true → t.rim.otp = s.rim.otp) ∧ s.log.next < t.log.next) ∧
        (s.rim.lifecycle + 1 = dst → dst = 1 → s.rim.minimal = false → b = true → s.rim.otp.dak = none →
          ∃ t, exec (.lifecycle m b) s = .next t ∧ t.rim.otp.dak.isSome = true ∧ t.rim.otp.faulty = true) ∧
        (s.rim.lifecycle < 3 → dst = 3 →
          ∃ t, exec (.lifecycle m b) s = .next t ∧ t.rim.otp = { s.rim.otp with lifecycle := 3, faulty := s.rim.otp.faulty || b } ∧ t.rim.slots = s.rim.slots)) ∧
      (ready 0x21 1 → s.rim.transition = none → s.sched.items = [] → s.power.state ≠ 2 → s.lid.closing = none →
        s.lid.opened = true →
        ∃ t c, exec (.reset m) s = .next t ∧ boxAt t m = ⟨false, true, stOk⟩ ∧
          t.rim.transition = some ⟨0, if bit (byteAt p 0) 0 then 8 else if stillHot s then 6 else 0, true, s.time.tick⟩ ∧
          t.lid.closing = some c ∧ c.closeHow = 5 ∧ c.epoch.seq = s.lid.epoch.seq ∧ t.rim.otp = s.rim.otp) ∧
      (ready 0x22 0 → boardOk p = true →
        ∃ t, exec (.boardWrite m) s = .next t ∧ answers t [] ∧ t.rim = { s.rim with
          board := p.take (leAt p 4 2), boxes := t.rim.boxes, boxLast := m } ∧
          t = { s with regs := t.regs, out := t.out, rim := t.rim }))
end

