-- ==== Sys2Proof/Laws/State.lean ====
section
/-! SUPPORT. One lemma for each field of the state and each update of one part of it: the update leaves the field as it
is. Every one is true by definition, so that no proof unfolds a record update. -/

namespace Sys2Proof.Machine

/-! `setStore` changes `cells` alone. -/

@[simp] theorem setStore_pending (s : State) (sl : Nat) (c : CellStore) : (setStore s sl c).pending = s.pending := rfl
@[simp] theorem setStore_fresh (s : State) (sl : Nat) (c : CellStore) : (setStore s sl c).fresh = s.fresh := rfl
@[simp] theorem setStore_out (s : State) (sl : Nat) (c : CellStore) : (setStore s sl c).out = s.out := rfl
@[simp] theorem setStore_regs (s : State) (sl : Nat) (c : CellStore) : (setStore s sl c).regs = s.regs := rfl
@[simp] theorem setStore_counters (s : State) (sl : Nat) (c : CellStore) : (setStore s sl c).counters = s.counters := rfl
@[simp] theorem setStore_time (s : State) (sl : Nat) (c : CellStore) : (setStore s sl c).time = s.time := rfl
@[simp] theorem setStore_log (s : State) (sl : Nat) (c : CellStore) : (setStore s sl c).log = s.log := rfl
@[simp] theorem setStore_host (s : State) (sl : Nat) (c : CellStore) : (setStore s sl c).host = s.host := rfl
@[simp] theorem setStore_sched (s : State) (sl : Nat) (c : CellStore) : (setStore s sl c).sched = s.sched := rfl
@[simp] theorem setStore_chain (s : State) (sl : Nat) (c : CellStore) : (setStore s sl c).chain = s.chain := rfl
@[simp] theorem setStore_skein (s : State) (sl : Nat) (c : CellStore) : (setStore s sl c).skein = s.skein := rfl
@[simp] theorem setStore_rules (s : State) (sl : Nat) (c : CellStore) : (setStore s sl c).rules = s.rules := rfl
@[simp] theorem setStore_slices (s : State) (sl : Nat) (c : CellStore) : (setStore s sl c).slices = s.slices := rfl
@[simp] theorem setStore_actions (s : State) (sl : Nat) (c : CellStore) : (setStore s sl c).actions = s.actions := rfl
@[simp] theorem setStore_frames (s : State) (sl : Nat) (c : CellStore) : (setStore s sl c).frames = s.frames := rfl
@[simp] theorem setStore_nextFrame (s : State) (sl : Nat) (c : CellStore) : (setStore s sl c).nextFrame = s.nextFrame := rfl
@[simp] theorem setStore_rim (s : State) (sl : Nat) (c : CellStore) : (setStore s sl c).rim = s.rim := rfl
@[simp] theorem setStore_power (s : State) (sl : Nat) (c : CellStore) : (setStore s sl c).power = s.power := rfl
@[simp] theorem setStore_lid (s : State) (sl : Nat) (c : CellStore) : (setStore s sl c).lid = s.lid := rfl
@[simp] theorem setStore_wale (s : State) (sl : Nat) (c : CellStore) : (setStore s sl c).wale = s.wale := rfl
@[simp] theorem setStore_egress (s : State) (sl : Nat) (c : CellStore) : (setStore s sl c).egress = s.egress := rfl
@[simp] theorem setStore_line (s : State) (sl : Nat) (c : CellStore) : (setStore s sl c).line = s.line := rfl
@[simp] theorem setStore_trace (s : State) (sl : Nat) (c : CellStore) : (setStore s sl c).trace = s.trace := rfl
@[simp] theorem setStore_dma (s : State) (sl : Nat) (c : CellStore) : (setStore s sl c).dma = s.dma := rfl
@[simp] theorem setStore_hbm (s : State) (sl : Nat) (c : CellStore) : (setStore s sl c).hbm = s.hbm := rfl

/-! `modChan` changes `dma` alone. -/

@[simp] theorem modChan_pending (s : State) (ch : Nat) (f : DmaChannel → DmaChannel) :
    (modChan s ch f).pending = s.pending := rfl
@[simp] theorem modChan_fresh (s : State) (ch : Nat) (f : DmaChannel → DmaChannel) :
    (modChan s ch f).fresh = s.fresh := rfl
@[simp] theorem modChan_out (s : State) (ch : Nat) (f : DmaChannel → DmaChannel) :
    (modChan s ch f).out = s.out := rfl
@[simp] theorem modChan_regs (s : State) (ch : Nat) (f : DmaChannel → DmaChannel) :
    (modChan s ch f).regs = s.regs := rfl
@[simp] theorem modChan_counters (s : State) (ch : Nat) (f : DmaChannel → DmaChannel) :
    (modChan s ch f).counters = s.counters := rfl
@[simp] theorem modChan_time (s : State) (ch : Nat) (f : DmaChannel → DmaChannel) :
    (modChan s ch f).time = s.time := rfl
@[simp] theorem modChan_log (s : State) (ch : Nat) (f : DmaChannel → DmaChannel) :
    (modChan s ch f).log = s.log := rfl
@[simp] theorem modChan_host (s : State) (ch : Nat) (f : DmaChannel → DmaChannel) :
    (modChan s ch f).host = s.host := rfl
@[simp] theorem modChan_sched (s : State) (ch : Nat) (f : DmaChannel → DmaChannel) :
    (modChan s ch f).sched = s.sched := rfl
@[simp] theorem modChan_chain (s : State) (ch : Nat) (f : DmaChannel → DmaChannel) :
    (modChan s ch f).chain = s.chain := rfl
@[simp] theorem modChan_skein (s : State) (ch : Nat) (f : DmaChannel → DmaChannel) :
    (modChan s ch f).skein = s.skein := rfl
@[simp] theorem modChan_rules (s : State) (ch : Nat) (f : DmaChannel → DmaChannel) :
    (modChan s ch f).rules = s.rules := rfl
@[simp] theorem modChan_slices (s : State) (ch : Nat) (f : DmaChannel → DmaChannel) :
    (modChan s ch f).slices = s.slices := rfl
@[simp] theorem modChan_actions (s : State) (ch : Nat) (f : DmaChannel → DmaChannel) :
    (modChan s ch f).actions = s.actions := rfl
@[simp] theorem modChan_frames (s : State) (ch : Nat) (f : DmaChannel → DmaChannel) :
    (modChan s ch f).frames = s.frames := rfl
@[simp] theorem modChan_nextFrame (s : State) (ch : Nat) (f : DmaChannel → DmaChannel) :
    (modChan s ch f).nextFrame = s.nextFrame := rfl
@[simp] theorem modChan_rim (s : State) (ch : Nat) (f : DmaChannel → DmaChannel) :
    (modChan s ch f).rim = s.rim := rfl
@[simp] theorem modChan_power (s : State) (ch : Nat) (f : DmaChannel → DmaChannel) :
    (modChan s ch f).power = s.power := rfl
@[simp] theorem modChan_lid (s : State) (ch : Nat) (f : DmaChannel → DmaChannel) :
    (modChan s ch f).lid = s.lid := rfl
@[simp] theorem modChan_cells (s : State) (ch : Nat) (f : DmaChannel → DmaChannel) :
    (modChan s ch f).cells = s.cells := rfl
@[simp] theorem modChan_wale (s : State) (ch : Nat) (f : DmaChannel → DmaChannel) :
    (modChan s ch f).wale = s.wale := rfl
@[simp] theorem modChan_egress (s : State) (ch : Nat) (f : DmaChannel → DmaChannel) :
    (modChan s ch f).egress = s.egress := rfl
@[simp] theorem modChan_line (s : State) (ch : Nat) (f : DmaChannel → DmaChannel) :
    (modChan s ch f).line = s.line := rfl
@[simp] theorem modChan_trace (s : State) (ch : Nat) (f : DmaChannel → DmaChannel) :
    (modChan s ch f).trace = s.trace := rfl
@[simp] theorem modChan_hbm (s : State) (ch : Nat) (f : DmaChannel → DmaChannel) :
    (modChan s ch f).hbm = s.hbm := rfl

/-! `killEntry` changes `rules` alone. -/

@[simp] theorem killEntry_pending (s : State) (k : Nat × Nat) : (killEntry s k).pending = s.pending := rfl
@[simp] theorem killEntry_fresh (s : State) (k : Nat × Nat) : (killEntry s k).fresh = s.fresh := rfl
@[simp] theorem killEntry_out (s : State) (k : Nat × Nat) : (killEntry s k).out = s.out := rfl
@[simp] theorem killEntry_regs (s : State) (k : Nat × Nat) : (killEntry s k).regs = s.regs := rfl
@[simp] theorem killEntry_counters (s : State) (k : Nat × Nat) : (killEntry s k).counters = s.counters := rfl
@[simp] theorem killEntry_time (s : State) (k : Nat × Nat) : (killEntry s k).time = s.time := rfl
@[simp] theorem killEntry_log (s : State) (k : Nat × Nat) : (killEntry s k).log = s.log := rfl
@[simp] theorem killEntry_host (s : State) (k : Nat × Nat) : (killEntry s k).host = s.host := rfl
@[simp] theorem killEntry_sched (s : State) (k : Nat × Nat) : (killEntry s k).sched = s.sched := rfl
@[simp] theorem killEntry_chain (s : State) (k : Nat × Nat) : (killEntry s k).chain = s.chain := rfl
@[simp] theorem killEntry_skein (s : State) (k : Nat × Nat) : (killEntry s k).skein = s.skein := rfl
@[simp] theorem killEntry_slices (s : State) (k : Nat × Nat) : (killEntry s k).slices = s.slices := rfl
@[simp] theorem killEntry_actions (s : State) (k : Nat × Nat) : (killEntry s k).actions = s.actions := rfl
@[simp] theorem killEntry_frames (s : State) (k : Nat × Nat) : (killEntry s k).frames = s.frames := rfl
@[simp] theorem killEntry_nextFrame (s : State) (k : Nat × Nat) : (killEntry s k).nextFrame = s.nextFrame := rfl
@[simp] theorem killEntry_rim (s : State) (k : Nat × Nat) : (killEntry s k).rim = s.rim := rfl
@[simp] theorem killEntry_power (s : State) (k : Nat × Nat) : (killEntry s k).power = s.power := rfl
@[simp] theorem killEntry_lid (s : State) (k : Nat × Nat) : (killEntry s k).lid = s.lid := rfl
@[simp] theorem killEntry_cells (s : State) (k : Nat × Nat) : (killEntry s k).cells = s.cells := rfl
@[simp] theorem killEntry_wale (s : State) (k : Nat × Nat) : (killEntry s k).wale = s.wale := rfl
@[simp] theorem killEntry_egress (s : State) (k : Nat × Nat) : (killEntry s k).egress = s.egress := rfl
@[simp] theorem killEntry_line (s : State) (k : Nat × Nat) : (killEntry s k).line = s.line := rfl
@[simp] theorem killEntry_trace (s : State) (k : Nat × Nat) : (killEntry s k).trace = s.trace := rfl
@[simp] theorem killEntry_dma (s : State) (k : Nat × Nat) : (killEntry s k).dma = s.dma := rfl
@[simp] theorem killEntry_hbm (s : State) (k : Nat × Nat) : (killEntry s k).hbm = s.hbm := rfl

/-! `modEq` changes `egress` alone. -/

@[simp] theorem modEq_pending (s : State) (q : Nat) (f : EgressQueue → EgressQueue) :
    (modEq s q f).pending = s.pending := rfl
@[simp] theorem modEq_fresh (s : State) (q : Nat) (f : EgressQueue → EgressQueue) :
    (modEq s q f).fresh = s.fresh := rfl
@[simp] theorem modEq_out (s : State) (q : Nat) (f : EgressQueue → EgressQueue) :
    (modEq s q f).out = s.out := rfl
@[simp] theorem modEq_regs (s : State) (q : Nat) (f : EgressQueue → EgressQueue) :
    (modEq s q f).regs = s.regs := rfl
@[simp] theorem modEq_counters (s : State) (q : Nat) (f : EgressQueue → EgressQueue) :
    (modEq s q f).counters = s.counters := rfl
@[simp] theorem modEq_time (s : State) (q : Nat) (f : EgressQueue → EgressQueue) :
    (modEq s q f).time = s.time := rfl
@[simp] theorem modEq_log (s : State) (q : Nat) (f : EgressQueue → EgressQueue) :
    (modEq s q f).log = s.log := rfl
@[simp] theorem modEq_host (s : State) (q : Nat) (f : EgressQueue → EgressQueue) :
    (modEq s q f).host = s.host := rfl
@[simp] theorem modEq_sched (s : State) (q : Nat) (f : EgressQueue → EgressQueue) :
    (modEq s q f).sched = s.sched := rfl
@[simp] theorem modEq_chain (s : State) (q : Nat) (f : EgressQueue → EgressQueue) :
    (modEq s q f).chain = s.chain := rfl
@[simp] theorem modEq_skein (s : State) (q : Nat) (f : EgressQueue → EgressQueue) :
    (modEq s q f).skein = s.skein := rfl
@[simp] theorem modEq_rules (s : State) (q : Nat) (f : EgressQueue → EgressQueue) :
    (modEq s q f).rules = s.rules := rfl
@[simp] theorem modEq_slices (s : State) (q : Nat) (f : EgressQueue → EgressQueue) :
    (modEq s q f).slices = s.slices := rfl
@[simp] theorem modEq_actions (s : State) (q : Nat) (f : EgressQueue → EgressQueue) :
    (modEq s q f).actions = s.actions := rfl
@[simp] theorem modEq_frames (s : State) (q : Nat) (f : EgressQueue → EgressQueue) :
    (modEq s q f).frames = s.frames := rfl
@[simp] theorem modEq_nextFrame (s : State) (q : Nat) (f : EgressQueue → EgressQueue) :
    (modEq s q f).nextFrame = s.nextFrame := rfl
@[simp] theorem modEq_rim (s : State) (q : Nat) (f : EgressQueue → EgressQueue) :
    (modEq s q f).rim = s.rim := rfl
@[simp] theorem modEq_power (s : State) (q : Nat) (f : EgressQueue → EgressQueue) :
    (modEq s q f).power = s.power := rfl
@[simp] theorem modEq_lid (s : State) (q : Nat) (f : EgressQueue → EgressQueue) :
    (modEq s q f).lid = s.lid := rfl
@[simp] theorem modEq_cells (s : State) (q : Nat) (f : EgressQueue → EgressQueue) :
    (modEq s q f).cells = s.cells := rfl
@[simp] theorem modEq_wale (s : State) (q : Nat) (f : EgressQueue → EgressQueue) :
    (modEq s q f).wale = s.wale := rfl
@[simp] theorem modEq_line (s : State) (q : Nat) (f : EgressQueue → EgressQueue) :
    (modEq s q f).line = s.line := rfl
@[simp] theorem modEq_trace (s : State) (q : Nat) (f : EgressQueue → EgressQueue) :
    (modEq s q f).trace = s.trace := rfl
@[simp] theorem modEq_dma (s : State) (q : Nat) (f : EgressQueue → EgressQueue) :
    (modEq s q f).dma = s.dma := rfl
@[simp] theorem modEq_hbm (s : State) (q : Nat) (f : EgressQueue → EgressQueue) :
    (modEq s q f).hbm = s.hbm := rfl

/-! `modEg` changes `egress` alone. -/

@[simp] theorem modEg_pending (s : State) (p : Nat) (f : EgressPort → EgressPort) :
    (modEg s p f).pending = s.pending := rfl
@[simp] theorem modEg_fresh (s : State) (p : Nat) (f : EgressPort → EgressPort) :
    (modEg s p f).fresh = s.fresh := rfl
@[simp] theorem modEg_out (s : State) (p : Nat) (f : EgressPort → EgressPort) :
    (modEg s p f).out = s.out := rfl
@[simp] theorem modEg_regs (s : State) (p : Nat) (f : EgressPort → EgressPort) :
    (modEg s p f).regs = s.regs := rfl
@[simp] theorem modEg_counters (s : State) (p : Nat) (f : EgressPort → EgressPort) :
    (modEg s p f).counters = s.counters := rfl
@[simp] theorem modEg_time (s : State) (p : Nat) (f : EgressPort → EgressPort) :
    (modEg s p f).time = s.time := rfl
@[simp] theorem modEg_log (s : State) (p : Nat) (f : EgressPort → EgressPort) :
    (modEg s p f).log = s.log := rfl
@[simp] theorem modEg_host (s : State) (p : Nat) (f : EgressPort → EgressPort) :
    (modEg s p f).host = s.host := rfl
@[simp] theorem modEg_sched (s : State) (p : Nat) (f : EgressPort → EgressPort) :
    (modEg s p f).sched = s.sched := rfl
@[simp] theorem modEg_chain (s : State) (p : Nat) (f : EgressPort → EgressPort) :
    (modEg s p f).chain = s.chain := rfl
@[simp] theorem modEg_skein (s : State) (p : Nat) (f : EgressPort → EgressPort) :
    (modEg s p f).skein = s.skein := rfl
@[simp] theorem modEg_rules (s : State) (p : Nat) (f : EgressPort → EgressPort) :
    (modEg s p f).rules = s.rules := rfl
@[simp] theorem modEg_slices (s : State) (p : Nat) (f : EgressPort → EgressPort) :
    (modEg s p f).slices = s.slices := rfl
@[simp] theorem modEg_actions (s : State) (p : Nat) (f : EgressPort → EgressPort) :
    (modEg s p f).actions = s.actions := rfl
@[simp] theorem modEg_frames (s : State) (p : Nat) (f : EgressPort → EgressPort) :
    (modEg s p f).frames = s.frames := rfl
@[simp] theorem modEg_nextFrame (s : State) (p : Nat) (f : EgressPort → EgressPort) :
    (modEg s p f).nextFrame = s.nextFrame := rfl
@[simp] theorem modEg_rim (s : State) (p : Nat) (f : EgressPort → EgressPort) :
    (modEg s p f).rim = s.rim := rfl
@[simp] theorem modEg_power (s : State) (p : Nat) (f : EgressPort → EgressPort) :
    (modEg s p f).power = s.power := rfl
@[simp] theorem modEg_lid (s : State) (p : Nat) (f : EgressPort → EgressPort) :
    (modEg s p f).lid = s.lid := rfl
@[simp] theorem modEg_cells (s : State) (p : Nat) (f : EgressPort → EgressPort) :
    (modEg s p f).cells = s.cells := rfl
@[simp] theorem modEg_wale (s : State) (p : Nat) (f : EgressPort → EgressPort) :
    (modEg s p f).wale = s.wale := rfl
@[simp] theorem modEg_line (s : State) (p : Nat) (f : EgressPort → EgressPort) :
    (modEg s p f).line = s.line := rfl
@[simp] theorem modEg_trace (s : State) (p : Nat) (f : EgressPort → EgressPort) :
    (modEg s p f).trace = s.trace := rfl
@[simp] theorem modEg_dma (s : State) (p : Nat) (f : EgressPort → EgressPort) :
    (modEg s p f).dma = s.dma := rfl
@[simp] theorem modEg_hbm (s : State) (p : Nat) (f : EgressPort → EgressPort) :
    (modEg s p f).hbm = s.hbm := rfl

/-! `setShq` changes `egress` alone. -/

@[simp] theorem setShq_pending (s : State) (q : Nat) (b : Bucket) : (setShq s q b).pending = s.pending := rfl
@[simp] theorem setShq_fresh (s : State) (q : Nat) (b : Bucket) : (setShq s q b).fresh = s.fresh := rfl
@[simp] theorem setShq_out (s : State) (q : Nat) (b : Bucket) : (setShq s q b).out = s.out := rfl
@[simp] theorem setShq_regs (s : State) (q : Nat) (b : Bucket) : (setShq s q b).regs = s.regs := rfl
@[simp] theorem setShq_counters (s : State) (q : Nat) (b : Bucket) : (setShq s q b).counters = s.counters := rfl
@[simp] theorem setShq_time (s : State) (q : Nat) (b : Bucket) : (setShq s q b).time = s.time := rfl
@[simp] theorem setShq_log (s : State) (q : Nat) (b : Bucket) : (setShq s q b).log = s.log := rfl
@[simp] theorem setShq_host (s : State) (q : Nat) (b : Bucket) : (setShq s q b).host = s.host := rfl
@[simp] theorem setShq_sched (s : State) (q : Nat) (b : Bucket) : (setShq s q b).sched = s.sched := rfl
@[simp] theorem setShq_chain (s : State) (q : Nat) (b : Bucket) : (setShq s q b).chain = s.chain := rfl
@[simp] theorem setShq_skein (s : State) (q : Nat) (b : Bucket) : (setShq s q b).skein = s.skein := rfl
@[simp] theorem setShq_rules (s : State) (q : Nat) (b : Bucket) : (setShq s q b).rules = s.rules := rfl
@[simp] theorem setShq_slices (s : State) (q : Nat) (b : Bucket) : (setShq s q b).slices = s.slices := rfl
@[simp] theorem setShq_actions (s : State) (q : Nat) (b : Bucket) : (setShq s q b).actions = s.actions := rfl
@[simp] theorem setShq_frames (s : State) (q : Nat) (b : Bucket) : (setShq s q b).frames = s.frames := rfl
@[simp] theorem setShq_nextFrame (s : State) (q : Nat) (b : Bucket) : (setShq s q b).nextFrame = s.nextFrame := rfl
@[simp] theorem setShq_rim (s : State) (q : Nat) (b : Bucket) : (setShq s q b).rim = s.rim := rfl
@[simp] theorem setShq_power (s : State) (q : Nat) (b : Bucket) : (setShq s q b).power = s.power := rfl
@[simp] theorem setShq_lid (s : State) (q : Nat) (b : Bucket) : (setShq s q b).lid = s.lid := rfl
@[simp] theorem setShq_cells (s : State) (q : Nat) (b : Bucket) : (setShq s q b).cells = s.cells := rfl
@[simp] theorem setShq_wale (s : State) (q : Nat) (b : Bucket) : (setShq s q b).wale = s.wale := rfl
@[simp] theorem setShq_line (s : State) (q : Nat) (b : Bucket) : (setShq s q b).line = s.line := rfl
@[simp] theorem setShq_trace (s : State) (q : Nat) (b : Bucket) : (setShq s q b).trace = s.trace := rfl
@[simp] theorem setShq_dma (s : State) (q : Nat) (b : Bucket) : (setShq s q b).dma = s.dma := rfl
@[simp] theorem setShq_hbm (s : State) (q : Nat) (b : Bucket) : (setShq s q b).hbm = s.hbm := rfl

/-! `dropFrame` changes `frames` alone. -/

@[simp] theorem dropFrame_pending (s : State) (id : Nat) : (dropFrame s id).pending = s.pending := rfl
@[simp] theorem dropFrame_fresh (s : State) (id : Nat) : (dropFrame s id).fresh = s.fresh := rfl
@[simp] theorem dropFrame_out (s : State) (id : Nat) : (dropFrame s id).out = s.out := rfl
@[simp] theorem dropFrame_regs (s : State) (id : Nat) : (dropFrame s id).regs = s.regs := rfl
@[simp] theorem dropFrame_counters (s : State) (id : Nat) : (dropFrame s id).counters = s.counters := rfl
@[simp] theorem dropFrame_time (s : State) (id : Nat) : (dropFrame s id).time = s.time := rfl
@[simp] theorem dropFrame_log (s : State) (id : Nat) : (dropFrame s id).log = s.log := rfl
@[simp] theorem dropFrame_host (s : State) (id : Nat) : (dropFrame s id).host = s.host := rfl
@[simp] theorem dropFrame_sched (s : State) (id : Nat) : (dropFrame s id).sched = s.sched := rfl
@[simp] theorem dropFrame_chain (s : State) (id : Nat) : (dropFrame s id).chain = s.chain := rfl
@[simp] theorem dropFrame_skein (s : State) (id : Nat) : (dropFrame s id).skein = s.skein := rfl
@[simp] theorem dropFrame_rules (s : State) (id : Nat) : (dropFrame s id).rules = s.rules := rfl
@[simp] theorem dropFrame_slices (s : State) (id : Nat) : (dropFrame s id).slices = s.slices := rfl
@[simp] theorem dropFrame_actions (s : State) (id : Nat) : (dropFrame s id).actions = s.actions := rfl
@[simp] theorem dropFrame_nextFrame (s : State) (id : Nat) : (dropFrame s id).nextFrame = s.nextFrame := rfl
@[simp] theorem dropFrame_rim (s : State) (id : Nat) : (dropFrame s id).rim = s.rim := rfl
@[simp] theorem dropFrame_power (s : State) (id : Nat) : (dropFrame s id).power = s.power := rfl
@[simp] theorem dropFrame_lid (s : State) (id : Nat) : (dropFrame s id).lid = s.lid := rfl
@[simp] theorem dropFrame_cells (s : State) (id : Nat) : (dropFrame s id).cells = s.cells := rfl
@[simp] theorem dropFrame_wale (s : State) (id : Nat) : (dropFrame s id).wale = s.wale := rfl
@[simp] theorem dropFrame_egress (s : State) (id : Nat) : (dropFrame s id).egress = s.egress := rfl
@[simp] theorem dropFrame_line (s : State) (id : Nat) : (dropFrame s id).line = s.line := rfl
@[simp] theorem dropFrame_trace (s : State) (id : Nat) : (dropFrame s id).trace = s.trace := rfl
@[simp] theorem dropFrame_dma (s : State) (id : Nat) : (dropFrame s id).dma = s.dma := rfl
@[simp] theorem dropFrame_hbm (s : State) (id : Nat) : (dropFrame s id).hbm = s.hbm := rfl

/-! `modPc` changes `hbm` alone. -/

@[simp] theorem modPc_pending (s : State) (n : Nat) (f : PcState → PcState) : (modPc s n f).pending = s.pending := rfl
@[simp] theorem modPc_fresh (s : State) (n : Nat) (f : PcState → PcState) : (modPc s n f).fresh = s.fresh := rfl
@[simp] theorem modPc_out (s : State) (n : Nat) (f : PcState → PcState) : (modPc s n f).out = s.out := rfl
@[simp] theorem modPc_regs (s : State) (n : Nat) (f : PcState → PcState) : (modPc s n f).regs = s.regs := rfl
@[simp] theorem modPc_counters (s : State) (n : Nat) (f : PcState → PcState) : (modPc s n f).counters = s.counters := rfl
@[simp] theorem modPc_time (s : State) (n : Nat) (f : PcState → PcState) : (modPc s n f).time = s.time := rfl
@[simp] theorem modPc_log (s : State) (n : Nat) (f : PcState → PcState) : (modPc s n f).log = s.log := rfl
@[simp] theorem modPc_host (s : State) (n : Nat) (f : PcState → PcState) : (modPc s n f).host = s.host := rfl
@[simp] theorem modPc_sched (s : State) (n : Nat) (f : PcState → PcState) : (modPc s n f).sched = s.sched := rfl
@[simp] theorem modPc_chain (s : State) (n : Nat) (f : PcState → PcState) : (modPc s n f).chain = s.chain := rfl
@[simp] theorem modPc_skein (s : State) (n : Nat) (f : PcState → PcState) : (modPc s n f).skein = s.skein := rfl
@[simp] theorem modPc_rules (s : State) (n : Nat) (f : PcState → PcState) : (modPc s n f).rules = s.rules := rfl
@[simp] theorem modPc_slices (s : State) (n : Nat) (f : PcState → PcState) : (modPc s n f).slices = s.slices := rfl
@[simp] theorem modPc_actions (s : State) (n : Nat) (f : PcState → PcState) : (modPc s n f).actions = s.actions := rfl
@[simp] theorem modPc_frames (s : State) (n : Nat) (f : PcState → PcState) : (modPc s n f).frames = s.frames := rfl
@[simp] theorem modPc_nextFrame (s : State) (n : Nat) (f : PcState → PcState) : (modPc s n f).nextFrame = s.nextFrame := rfl
@[simp] theorem modPc_rim (s : State) (n : Nat) (f : PcState → PcState) : (modPc s n f).rim = s.rim := rfl
@[simp] theorem modPc_power (s : State) (n : Nat) (f : PcState → PcState) : (modPc s n f).power = s.power := rfl
@[simp] theorem modPc_lid (s : State) (n : Nat) (f : PcState → PcState) : (modPc s n f).lid = s.lid := rfl
@[simp] theorem modPc_cells (s : State) (n : Nat) (f : PcState → PcState) : (modPc s n f).cells = s.cells := rfl
@[simp] theorem modPc_wale (s : State) (n : Nat) (f : PcState → PcState) : (modPc s n f).wale = s.wale := rfl
@[simp] theorem modPc_egress (s : State) (n : Nat) (f : PcState → PcState) : (modPc s n f).egress = s.egress := rfl
@[simp] theorem modPc_line (s : State) (n : Nat) (f : PcState → PcState) : (modPc s n f).line = s.line := rfl
@[simp] theorem modPc_trace (s : State) (n : Nat) (f : PcState → PcState) : (modPc s n f).trace = s.trace := rfl
@[simp] theorem modPc_dma (s : State) (n : Nat) (f : PcState → PcState) : (modPc s n f).dma = s.dma := rfl

/-! `modStk` changes `hbm` alone. -/

@[simp] theorem modStk_pending (s : State) (k : Nat) (f : StackState → StackState) :
    (modStk s k f).pending = s.pending := rfl
@[simp] theorem modStk_fresh (s : State) (k : Nat) (f : StackState → StackState) :
    (modStk s k f).fresh = s.fresh := rfl
@[simp] theorem modStk_out (s : State) (k : Nat) (f : StackState → StackState) :
    (modStk s k f).out = s.out := rfl
@[simp] theorem modStk_regs (s : State) (k : Nat) (f : StackState → StackState) :
    (modStk s k f).regs = s.regs := rfl
@[simp] theorem modStk_counters (s : State) (k : Nat) (f : StackState → StackState) :
    (modStk s k f).counters = s.counters := rfl
@[simp] theorem modStk_time (s : State) (k : Nat) (f : StackState → StackState) :
    (modStk s k f).time = s.time := rfl
@[simp] theorem modStk_log (s : State) (k : Nat) (f : StackState → StackState) :
    (modStk s k f).log = s.log := rfl
@[simp] theorem modStk_host (s : State) (k : Nat) (f : StackState → StackState) :
    (modStk s k f).host = s.host := rfl
@[simp] theorem modStk_sched (s : State) (k : Nat) (f : StackState → StackState) :
    (modStk s k f).sched = s.sched := rfl
@[simp] theorem modStk_chain (s : State) (k : Nat) (f : StackState → StackState) :
    (modStk s k f).chain = s.chain := rfl
@[simp] theorem modStk_skein (s : State) (k : Nat) (f : StackState → StackState) :
    (modStk s k f).skein = s.skein := rfl
@[simp] theorem modStk_rules (s : State) (k : Nat) (f : StackState → StackState) :
    (modStk s k f).rules = s.rules := rfl
@[simp] theorem modStk_slices (s : State) (k : Nat) (f : StackState → StackState) :
    (modStk s k f).slices = s.slices := rfl
@[simp] theorem modStk_actions (s : State) (k : Nat) (f : StackState → StackState) :
    (modStk s k f).actions = s.actions := rfl
@[simp] theorem modStk_frames (s : State) (k : Nat) (f : StackState → StackState) :
    (modStk s k f).frames = s.frames := rfl
@[simp] theorem modStk_nextFrame (s : State) (k : Nat) (f : StackState → StackState) :
    (modStk s k f).nextFrame = s.nextFrame := rfl
@[simp] theorem modStk_rim (s : State) (k : Nat) (f : StackState → StackState) :
    (modStk s k f).rim = s.rim := rfl
@[simp] theorem modStk_power (s : State) (k : Nat) (f : StackState → StackState) :
    (modStk s k f).power = s.power := rfl
@[simp] theorem modStk_lid (s : State) (k : Nat) (f : StackState → StackState) :
    (modStk s k f).lid = s.lid := rfl
@[simp] theorem modStk_cells (s : State) (k : Nat) (f : StackState → StackState) :
    (modStk s k f).cells = s.cells := rfl
@[simp] theorem modStk_wale (s : State) (k : Nat) (f : StackState → StackState) :
    (modStk s k f).wale = s.wale := rfl
@[simp] theorem modStk_egress (s : State) (k : Nat) (f : StackState → StackState) :
    (modStk s k f).egress = s.egress := rfl
@[simp] theorem modStk_line (s : State) (k : Nat) (f : StackState → StackState) :
    (modStk s k f).line = s.line := rfl
@[simp] theorem modStk_trace (s : State) (k : Nat) (f : StackState → StackState) :
    (modStk s k f).trace = s.trace := rfl
@[simp] theorem modStk_dma (s : State) (k : Nat) (f : StackState → StackState) :
    (modStk s k f).dma = s.dma := rfl

/-! `loseTargets` changes `actions` alone. -/

@[simp] theorem loseTargets_pending (s : State) (lo n : Nat) : (loseTargets s lo n).pending = s.pending := rfl
@[simp] theorem loseTargets_fresh (s : State) (lo n : Nat) : (loseTargets s lo n).fresh = s.fresh := rfl
@[simp] theorem loseTargets_out (s : State) (lo n : Nat) : (loseTargets s lo n).out = s.out := rfl
@[simp] theorem loseTargets_regs (s : State) (lo n : Nat) : (loseTargets s lo n).regs = s.regs := rfl
@[simp] theorem loseTargets_counters (s : State) (lo n : Nat) : (loseTargets s lo n).counters = s.counters := rfl
@[simp] theorem loseTargets_time (s : State) (lo n : Nat) : (loseTargets s lo n).time = s.time := rfl
@[simp] theorem loseTargets_log (s : State) (lo n : Nat) : (loseTargets s lo n).log = s.log := rfl
@[simp] theorem loseTargets_host (s : State) (lo n : Nat) : (loseTargets s lo n).host = s.host := rfl
@[simp] theorem loseTargets_sched (s : State) (lo n : Nat) : (loseTargets s lo n).sched = s.sched := rfl
@[simp] theorem loseTargets_chain (s : State) (lo n : Nat) : (loseTargets s lo n).chain = s.chain := rfl
@[simp] theorem loseTargets_skein (s : State) (lo n : Nat) : (loseTargets s lo n).skein = s.skein := rfl
@[simp] theorem loseTargets_rules (s : State) (lo n : Nat) : (loseTargets s lo n).rules = s.rules := rfl
@[simp] theorem loseTargets_slices (s : State) (lo n : Nat) : (loseTargets s lo n).slices = s.slices := rfl
@[simp] theorem loseTargets_frames (s : State) (lo n : Nat) : (loseTargets s lo n).frames = s.frames := rfl
@[simp] theorem loseTargets_nextFrame (s : State) (lo n : Nat) : (loseTargets s lo n).nextFrame = s.nextFrame := rfl
@[simp] theorem loseTargets_rim (s : State) (lo n : Nat) : (loseTargets s lo n).rim = s.rim := rfl
@[simp] theorem loseTargets_power (s : State) (lo n : Nat) : (loseTargets s lo n).power = s.power := rfl
@[simp] theorem loseTargets_lid (s : State) (lo n : Nat) : (loseTargets s lo n).lid = s.lid := rfl
@[simp] theorem loseTargets_cells (s : State) (lo n : Nat) : (loseTargets s lo n).cells = s.cells := rfl
@[simp] theorem loseTargets_wale (s : State) (lo n : Nat) : (loseTargets s lo n).wale = s.wale := rfl
@[simp] theorem loseTargets_egress (s : State) (lo n : Nat) : (loseTargets s lo n).egress = s.egress := rfl
@[simp] theorem loseTargets_line (s : State) (lo n : Nat) : (loseTargets s lo n).line = s.line := rfl
@[simp] theorem loseTargets_trace (s : State) (lo n : Nat) : (loseTargets s lo n).trace = s.trace := rfl
@[simp] theorem loseTargets_dma (s : State) (lo n : Nat) : (loseTargets s lo n).dma = s.dma := rfl
@[simp] theorem loseTargets_hbm (s : State) (lo n : Nat) : (loseTargets s lo n).hbm = s.hbm := rfl

/-! `modHost` changes `host` alone. -/

@[simp] theorem modHost_pending (s : State) (hp : Nat) (f : HostPort → HostPort) :
    (modHost s hp f).pending = s.pending := rfl
@[simp] theorem modHost_fresh (s : State) (hp : Nat) (f : HostPort → HostPort) :
    (modHost s hp f).fresh = s.fresh := rfl
@[simp] theorem modHost_out (s : State) (hp : Nat) (f : HostPort → HostPort) :
    (modHost s hp f).out = s.out := rfl
@[simp] theorem modHost_regs (s : State) (hp : Nat) (f : HostPort → HostPort) :
    (modHost s hp f).regs = s.regs := rfl
@[simp] theorem modHost_counters (s : State) (hp : Nat) (f : HostPort → HostPort) :
    (modHost s hp f).counters = s.counters := rfl
@[simp] theorem modHost_time (s : State) (hp : Nat) (f : HostPort → HostPort) :
    (modHost s hp f).time = s.time := rfl
@[simp] theorem modHost_log (s : State) (hp : Nat) (f : HostPort → HostPort) :
    (modHost s hp f).log = s.log := rfl
@[simp] theorem modHost_sched (s : State) (hp : Nat) (f : HostPort → HostPort) :
    (modHost s hp f).sched = s.sched := rfl
@[simp] theorem modHost_chain (s : State) (hp : Nat) (f : HostPort → HostPort) :
    (modHost s hp f).chain = s.chain := rfl
@[simp] theorem modHost_skein (s : State) (hp : Nat) (f : HostPort → HostPort) :
    (modHost s hp f).skein = s.skein := rfl
@[simp] theorem modHost_rules (s : State) (hp : Nat) (f : HostPort → HostPort) :
    (modHost s hp f).rules = s.rules := rfl
@[simp] theorem modHost_slices (s : State) (hp : Nat) (f : HostPort → HostPort) :
    (modHost s hp f).slices = s.slices := rfl
@[simp] theorem modHost_actions (s : State) (hp : Nat) (f : HostPort → HostPort) :
    (modHost s hp f).actions = s.actions := rfl
@[simp] theorem modHost_frames (s : State) (hp : Nat) (f : HostPort → HostPort) :
    (modHost s hp f).frames = s.frames := rfl
@[simp] theorem modHost_nextFrame (s : State) (hp : Nat) (f : HostPort → HostPort) :
    (modHost s hp f).nextFrame = s.nextFrame := rfl
@[simp] theorem modHost_rim (s : State) (hp : Nat) (f : HostPort → HostPort) :
    (modHost s hp f).rim = s.rim := rfl
@[simp] theorem modHost_power (s : State) (hp : Nat) (f : HostPort → HostPort) :
    (modHost s hp f).power = s.power := rfl
@[simp] theorem modHost_lid (s : State) (hp : Nat) (f : HostPort → HostPort) :
    (modHost s hp f).lid = s.lid := rfl
@[simp] theorem modHost_cells (s : State) (hp : Nat) (f : HostPort → HostPort) :
    (modHost s hp f).cells = s.cells := rfl
@[simp] theorem modHost_wale (s : State) (hp : Nat) (f : HostPort → HostPort) :
    (modHost s hp f).wale = s.wale := rfl
@[simp] theorem modHost_egress (s : State) (hp : Nat) (f : HostPort → HostPort) :
    (modHost s hp f).egress = s.egress := rfl
@[simp] theorem modHost_line (s : State) (hp : Nat) (f : HostPort → HostPort) :
    (modHost s hp f).line = s.line := rfl
@[simp] theorem modHost_trace (s : State) (hp : Nat) (f : HostPort → HostPort) :
    (modHost s hp f).trace = s.trace := rfl
@[simp] theorem modHost_dma (s : State) (hp : Nat) (f : HostPort → HostPort) :
    (modHost s hp f).dma = s.dma := rfl
@[simp] theorem modHost_hbm (s : State) (hp : Nat) (f : HostPort → HostPort) :
    (modHost s hp f).hbm = s.hbm := rfl

/-! `setRing` changes `host` alone. -/

@[simp] theorem setRing_pending (s : State) (hp cls r : Nat) (x : Ring) : (setRing s hp cls r x).pending = s.pending := rfl
@[simp] theorem setRing_fresh (s : State) (hp cls r : Nat) (x : Ring) : (setRing s hp cls r x).fresh = s.fresh := rfl
@[simp] theorem setRing_out (s : State) (hp cls r : Nat) (x : Ring) : (setRing s hp cls r x).out = s.out := rfl
@[simp] theorem setRing_regs (s : State) (hp cls r : Nat) (x : Ring) : (setRing s hp cls r x).regs = s.regs := rfl
@[simp] theorem setRing_counters (s : State) (hp cls r : Nat) (x : Ring) : (setRing s hp cls r x).counters = s.counters := rfl
@[simp] theorem setRing_time (s : State) (hp cls r : Nat) (x : Ring) : (setRing s hp cls r x).time = s.time := rfl
@[simp] theorem setRing_log (s : State) (hp cls r : Nat) (x : Ring) : (setRing s hp cls r x).log = s.log := rfl
@[simp] theorem setRing_sched (s : State) (hp cls r : Nat) (x : Ring) : (setRing s hp cls r x).sched = s.sched := rfl
@[simp] theorem setRing_chain (s : State) (hp cls r : Nat) (x : Ring) : (setRing s hp cls r x).chain = s.chain := rfl
@[simp] theorem setRing_skein (s : State) (hp cls r : Nat) (x : Ring) : (setRing s hp cls r x).skein = s.skein := rfl
@[simp] theorem setRing_rules (s : State) (hp cls r : Nat) (x : Ring) : (setRing s hp cls r x).rules = s.rules := rfl
@[simp] theorem setRing_slices (s : State) (hp cls r : Nat) (x : Ring) : (setRing s hp cls r x).slices = s.slices := rfl
@[simp] theorem setRing_actions (s : State) (hp cls r : Nat) (x : Ring) : (setRing s hp cls r x).actions = s.actions := rfl
@[simp] theorem setRing_frames (s : State) (hp cls r : Nat) (x : Ring) : (setRing s hp cls r x).frames = s.frames := rfl
@[simp] theorem setRing_nextFrame (s : State) (hp cls r : Nat) (x : Ring) : (setRing s hp cls r x).nextFrame = s.nextFrame := rfl
@[simp] theorem setRing_rim (s : State) (hp cls r : Nat) (x : Ring) : (setRing s hp cls r x).rim = s.rim := rfl
@[simp] theorem setRing_power (s : State) (hp cls r : Nat) (x : Ring) : (setRing s hp cls r x).power = s.power := rfl
@[simp] theorem setRing_lid (s : State) (hp cls r : Nat) (x : Ring) : (setRing s hp cls r x).lid = s.lid := rfl
@[simp] theorem setRing_cells (s : State) (hp cls r : Nat) (x : Ring) : (setRing s hp cls r x).cells = s.cells := rfl
@[simp] theorem setRing_wale (s : State) (hp cls r : Nat) (x : Ring) : (setRing s hp cls r x).wale = s.wale := rfl
@[simp] theorem setRing_egress (s : State) (hp cls r : Nat) (x : Ring) : (setRing s hp cls r x).egress = s.egress := rfl
@[simp] theorem setRing_line (s : State) (hp cls r : Nat) (x : Ring) : (setRing s hp cls r x).line = s.line := rfl
@[simp] theorem setRing_trace (s : State) (hp cls r : Nat) (x : Ring) : (setRing s hp cls r x).trace = s.trace := rfl
@[simp] theorem setRing_dma (s : State) (hp cls r : Nat) (x : Ring) : (setRing s hp cls r x).dma = s.dma := rfl
@[simp] theorem setRing_hbm (s : State) (hp cls r : Nat) (x : Ring) : (setRing s hp cls r x).hbm = s.hbm := rfl

/-! `withChain` changes `chain` alone. -/

@[simp] theorem withChain_pending (s : State) (f : ChainState → ChainState) : (withChain s f).pending = s.pending := rfl
@[simp] theorem withChain_fresh (s : State) (f : ChainState → ChainState) : (withChain s f).fresh = s.fresh := rfl
@[simp] theorem withChain_out (s : State) (f : ChainState → ChainState) : (withChain s f).out = s.out := rfl
@[simp] theorem withChain_regs (s : State) (f : ChainState → ChainState) : (withChain s f).regs = s.regs := rfl
@[simp] theorem withChain_counters (s : State) (f : ChainState → ChainState) : (withChain s f).counters = s.counters := rfl
@[simp] theorem withChain_time (s : State) (f : ChainState → ChainState) : (withChain s f).time = s.time := rfl
@[simp] theorem withChain_log (s : State) (f : ChainState → ChainState) : (withChain s f).log = s.log := rfl
@[simp] theorem withChain_host (s : State) (f : ChainState → ChainState) : (withChain s f).host = s.host := rfl
@[simp] theorem withChain_sched (s : State) (f : ChainState → ChainState) : (withChain s f).sched = s.sched := rfl
@[simp] theorem withChain_skein (s : State) (f : ChainState → ChainState) : (withChain s f).skein = s.skein := rfl
@[simp] theorem withChain_rules (s : State) (f : ChainState → ChainState) : (withChain s f).rules = s.rules := rfl
@[simp] theorem withChain_slices (s : State) (f : ChainState → ChainState) : (withChain s f).slices = s.slices := rfl
@[simp] theorem withChain_actions (s : State) (f : ChainState → ChainState) : (withChain s f).actions = s.actions := rfl
@[simp] theorem withChain_frames (s : State) (f : ChainState → ChainState) : (withChain s f).frames = s.frames := rfl
@[simp] theorem withChain_nextFrame (s : State) (f : ChainState → ChainState) : (withChain s f).nextFrame = s.nextFrame := rfl
@[simp] theorem withChain_rim (s : State) (f : ChainState → ChainState) : (withChain s f).rim = s.rim := rfl
@[simp] theorem withChain_power (s : State) (f : ChainState → ChainState) : (withChain s f).power = s.power := rfl
@[simp] theorem withChain_lid (s : State) (f : ChainState → ChainState) : (withChain s f).lid = s.lid := rfl
@[simp] theorem withChain_cells (s : State) (f : ChainState → ChainState) : (withChain s f).cells = s.cells := rfl
@[simp] theorem withChain_wale (s : State) (f : ChainState → ChainState) : (withChain s f).wale = s.wale := rfl
@[simp] theorem withChain_egress (s : State) (f : ChainState → ChainState) : (withChain s f).egress = s.egress := rfl
@[simp] theorem withChain_line (s : State) (f : ChainState → ChainState) : (withChain s f).line = s.line := rfl
@[simp] theorem withChain_trace (s : State) (f : ChainState → ChainState) : (withChain s f).trace = s.trace := rfl
@[simp] theorem withChain_dma (s : State) (f : ChainState → ChainState) : (withChain s f).dma = s.dma := rfl
@[simp] theorem withChain_hbm (s : State) (f : ChainState → ChainState) : (withChain s f).hbm = s.hbm := rfl

/-! `placeReply` changes `host` alone. -/

@[simp] theorem placeReply_pending (s : State) (r : Reply) : (placeReply s r).pending = s.pending := rfl
@[simp] theorem placeReply_fresh (s : State) (r : Reply) : (placeReply s r).fresh = s.fresh := rfl
@[simp] theorem placeReply_out (s : State) (r : Reply) : (placeReply s r).out = s.out := rfl
@[simp] theorem placeReply_regs (s : State) (r : Reply) : (placeReply s r).regs = s.regs := rfl
@[simp] theorem placeReply_counters (s : State) (r : Reply) : (placeReply s r).counters = s.counters := rfl
@[simp] theorem placeReply_time (s : State) (r : Reply) : (placeReply s r).time = s.time := rfl
@[simp] theorem placeReply_log (s : State) (r : Reply) : (placeReply s r).log = s.log := rfl
@[simp] theorem placeReply_sched (s : State) (r : Reply) : (placeReply s r).sched = s.sched := rfl
@[simp] theorem placeReply_chain (s : State) (r : Reply) : (placeReply s r).chain = s.chain := rfl
@[simp] theorem placeReply_skein (s : State) (r : Reply) : (placeReply s r).skein = s.skein := rfl
@[simp] theorem placeReply_rules (s : State) (r : Reply) : (placeReply s r).rules = s.rules := rfl
@[simp] theorem placeReply_slices (s : State) (r : Reply) : (placeReply s r).slices = s.slices := rfl
@[simp] theorem placeReply_actions (s : State) (r : Reply) : (placeReply s r).actions = s.actions := rfl
@[simp] theorem placeReply_frames (s : State) (r : Reply) : (placeReply s r).frames = s.frames := rfl
@[simp] theorem placeReply_nextFrame (s : State) (r : Reply) : (placeReply s r).nextFrame = s.nextFrame := rfl
@[simp] theorem placeReply_rim (s : State) (r : Reply) : (placeReply s r).rim = s.rim := rfl
@[simp] theorem placeReply_power (s : State) (r : Reply) : (placeReply s r).power = s.power := rfl
@[simp] theorem placeReply_lid (s : State) (r : Reply) : (placeReply s r).lid = s.lid := rfl
@[simp] theorem placeReply_cells (s : State) (r : Reply) : (placeReply s r).cells = s.cells := rfl
@[simp] theorem placeReply_wale (s : State) (r : Reply) : (placeReply s r).wale = s.wale := rfl
@[simp] theorem placeReply_egress (s : State) (r : Reply) : (placeReply s r).egress = s.egress := rfl
@[simp] theorem placeReply_line (s : State) (r : Reply) : (placeReply s r).line = s.line := rfl
@[simp] theorem placeReply_trace (s : State) (r : Reply) : (placeReply s r).trace = s.trace := rfl
@[simp] theorem placeReply_dma (s : State) (r : Reply) : (placeReply s r).dma = s.dma := rfl
@[simp] theorem placeReply_hbm (s : State) (r : Reply) : (placeReply s r).hbm = s.hbm := rfl

/-! `withActions` changes `actions` alone. -/

@[simp] theorem withActions_pending (s : State) (f : ActionState → ActionState) :
    (withActions s f).pending = s.pending := rfl
@[simp] theorem withActions_fresh (s : State) (f : ActionState → ActionState) :
    (withActions s f).fresh = s.fresh := rfl
@[simp] theorem withActions_out (s : State) (f : ActionState → ActionState) :
    (withActions s f).out = s.out := rfl
@[simp] theorem withActions_regs (s : State) (f : ActionState → ActionState) :
    (withActions s f).regs = s.regs := rfl
@[simp] theorem withActions_counters (s : State) (f : ActionState → ActionState) :
    (withActions s f).counters = s.counters := rfl
@[simp] theorem withActions_time (s : State) (f : ActionState → ActionState) :
    (withActions s f).time = s.time := rfl
@[simp] theorem withActions_log (s : State) (f : ActionState → ActionState) :
    (withActions s f).log = s.log := rfl
@[simp] theorem withActions_host (s : State) (f : ActionState → ActionState) :
    (withActions s f).host = s.host := rfl
@[simp] theorem withActions_sched (s : State) (f : ActionState → ActionState) :
    (withActions s f).sched = s.sched := rfl
@[simp] theorem withActions_chain (s : State) (f : ActionState → ActionState) :
    (withActions s f).chain = s.chain := rfl
@[simp] theorem withActions_skein (s : State) (f : ActionState → ActionState) :
    (withActions s f).skein = s.skein := rfl
@[simp] theorem withActions_rules (s : State) (f : ActionState → ActionState) :
    (withActions s f).rules = s.rules := rfl
@[simp] theorem withActions_slices (s : State) (f : ActionState → ActionState) :
    (withActions s f).slices = s.slices := rfl
@[simp] theorem withActions_frames (s : State) (f : ActionState → ActionState) :
    (withActions s f).frames = s.frames := rfl
@[simp] theorem withActions_nextFrame (s : State) (f : ActionState → ActionState) :
    (withActions s f).nextFrame = s.nextFrame := rfl
@[simp] theorem withActions_rim (s : State) (f : ActionState → ActionState) :
    (withActions s f).rim = s.rim := rfl
@[simp] theorem withActions_power (s : State) (f : ActionState → ActionState) :
    (withActions s f).power = s.power := rfl
@[simp] theorem withActions_lid (s : State) (f : ActionState → ActionState) :
    (withActions s f).lid = s.lid := rfl
@[simp] theorem withActions_cells (s : State) (f : ActionState → ActionState) :
    (withActions s f).cells = s.cells := rfl
@[simp] theorem withActions_wale (s : State) (f : ActionState → ActionState) :
    (withActions s f).wale = s.wale := rfl
@[simp] theorem withActions_egress (s : State) (f : ActionState → ActionState) :
    (withActions s f).egress = s.egress := rfl
@[simp] theorem withActions_line (s : State) (f : ActionState → ActionState) :
    (withActions s f).line = s.line := rfl
@[simp] theorem withActions_trace (s : State) (f : ActionState → ActionState) :
    (withActions s f).trace = s.trace := rfl
@[simp] theorem withActions_dma (s : State) (f : ActionState → ActionState) :
    (withActions s f).dma = s.dma := rfl
@[simp] theorem withActions_hbm (s : State) (f : ActionState → ActionState) :
    (withActions s f).hbm = s.hbm := rfl

/-! `withCounters` changes `counters` alone. -/

@[simp] theorem withCounters_pending (s : State) (f : CounterState → CounterState) :
    (withCounters s f).pending = s.pending := rfl
@[simp] theorem withCounters_fresh (s : State) (f : CounterState → CounterState) :
    (withCounters s f).fresh = s.fresh := rfl
@[simp] theorem withCounters_out (s : State) (f : CounterState → CounterState) :
    (withCounters s f).out = s.out := rfl
@[simp] theorem withCounters_regs (s : State) (f : CounterState → CounterState) :
    (withCounters s f).regs = s.regs := rfl
@[simp] theorem withCounters_time (s : State) (f : CounterState → CounterState) :
    (withCounters s f).time = s.time := rfl
@[simp] theorem withCounters_log (s : State) (f : CounterState → CounterState) :
    (withCounters s f).log = s.log := rfl
@[simp] theorem withCounters_host (s : State) (f : CounterState → CounterState) :
    (withCounters s f).host = s.host := rfl
@[simp] theorem withCounters_sched (s : State) (f : CounterState → CounterState) :
    (withCounters s f).sched = s.sched := rfl
@[simp] theorem withCounters_chain (s : State) (f : CounterState → CounterState) :
    (withCounters s f).chain = s.chain := rfl
@[simp] theorem withCounters_skein (s : State) (f : CounterState → CounterState) :
    (withCounters s f).skein = s.skein := rfl
@[simp] theorem withCounters_rules (s : State) (f : CounterState → CounterState) :
    (withCounters s f).rules = s.rules := rfl
@[simp] theorem withCounters_slices (s : State) (f : CounterState → CounterState) :
    (withCounters s f).slices = s.slices := rfl
@[simp] theorem withCounters_actions (s : State) (f : CounterState → CounterState) :
    (withCounters s f).actions = s.actions := rfl
@[simp] theorem withCounters_frames (s : State) (f : CounterState → CounterState) :
    (withCounters s f).frames = s.frames := rfl
@[simp] theorem withCounters_nextFrame (s : State) (f : CounterState → CounterState) :
    (withCounters s f).nextFrame = s.nextFrame := rfl
@[simp] theorem withCounters_rim (s : State) (f : CounterState → CounterState) :
    (withCounters s f).rim = s.rim := rfl
@[simp] theorem withCounters_power (s : State) (f : CounterState → CounterState) :
    (withCounters s f).power = s.power := rfl
@[simp] theorem withCounters_lid (s : State) (f : CounterState → CounterState) :
    (withCounters s f).lid = s.lid := rfl
@[simp] theorem withCounters_cells (s : State) (f : CounterState → CounterState) :
    (withCounters s f).cells = s.cells := rfl
@[simp] theorem withCounters_wale (s : State) (f : CounterState → CounterState) :
    (withCounters s f).wale = s.wale := rfl
@[simp] theorem withCounters_egress (s : State) (f : CounterState → CounterState) :
    (withCounters s f).egress = s.egress := rfl
@[simp] theorem withCounters_line (s : State) (f : CounterState → CounterState) :
    (withCounters s f).line = s.line := rfl
@[simp] theorem withCounters_trace (s : State) (f : CounterState → CounterState) :
    (withCounters s f).trace = s.trace := rfl
@[simp] theorem withCounters_dma (s : State) (f : CounterState → CounterState) :
    (withCounters s f).dma = s.dma := rfl
@[simp] theorem withCounters_hbm (s : State) (f : CounterState → CounterState) :
    (withCounters s f).hbm = s.hbm := rfl

/-! `withTrace` changes `trace` alone. -/

@[simp] theorem withTrace_pending (s : State) (f : TraceState → TraceState) : (withTrace s f).pending = s.pending := rfl
@[simp] theorem withTrace_fresh (s : State) (f : TraceState → TraceState) : (withTrace s f).fresh = s.fresh := rfl
@[simp] theorem withTrace_out (s : State) (f : TraceState → TraceState) : (withTrace s f).out = s.out := rfl
@[simp] theorem withTrace_regs (s : State) (f : TraceState → TraceState) : (withTrace s f).regs = s.regs := rfl
@[simp] theorem withTrace_counters (s : State) (f : TraceState → TraceState) : (withTrace s f).counters = s.counters := rfl
@[simp] theorem withTrace_time (s : State) (f : TraceState → TraceState) : (withTrace s f).time = s.time := rfl
@[simp] theorem withTrace_log (s : State) (f : TraceState → TraceState) : (withTrace s f).log = s.log := rfl
@[simp] theorem withTrace_host (s : State) (f : TraceState → TraceState) : (withTrace s f).host = s.host := rfl
@[simp] theorem withTrace_sched (s : State) (f : TraceState → TraceState) : (withTrace s f).sched = s.sched := rfl
@[simp] theorem withTrace_chain (s : State) (f : TraceState → TraceState) : (withTrace s f).chain = s.chain := rfl
@[simp] theorem withTrace_skein (s : State) (f : TraceState → TraceState) : (withTrace s f).skein = s.skein := rfl
@[simp] theorem withTrace_rules (s : State) (f : TraceState → TraceState) : (withTrace s f).rules = s.rules := rfl
@[simp] theorem withTrace_slices (s : State) (f : TraceState → TraceState) : (withTrace s f).slices = s.slices := rfl
@[simp] theorem withTrace_actions (s : State) (f : TraceState → TraceState) : (withTrace s f).actions = s.actions := rfl
@[simp] theorem withTrace_frames (s : State) (f : TraceState → TraceState) : (withTrace s f).frames = s.frames := rfl
@[simp] theorem withTrace_nextFrame (s : State) (f : TraceState → TraceState) : (withTrace s f).nextFrame = s.nextFrame := rfl
@[simp] theorem withTrace_rim (s : State) (f : TraceState → TraceState) : (withTrace s f).rim = s.rim := rfl
@[simp] theorem withTrace_power (s : State) (f : TraceState → TraceState) : (withTrace s f).power = s.power := rfl
@[simp] theorem withTrace_lid (s : State) (f : TraceState → TraceState) : (withTrace s f).lid = s.lid := rfl
@[simp] theorem withTrace_cells (s : State) (f : TraceState → TraceState) : (withTrace s f).cells = s.cells := rfl
@[simp] theorem withTrace_wale (s : State) (f : TraceState → TraceState) : (withTrace s f).wale = s.wale := rfl
@[simp] theorem withTrace_egress (s : State) (f : TraceState → TraceState) : (withTrace s f).egress = s.egress := rfl
@[simp] theorem withTrace_line (s : State) (f : TraceState → TraceState) : (withTrace s f).line = s.line := rfl
@[simp] theorem withTrace_dma (s : State) (f : TraceState → TraceState) : (withTrace s f).dma = s.dma := rfl
@[simp] theorem withTrace_hbm (s : State) (f : TraceState → TraceState) : (withTrace s f).hbm = s.hbm := rfl

/-! `setPol` changes `egress` alone. -/

@[simp] theorem setPol_pending (s : State) (p : Nat) (x : Policer) : (setPol s p x).pending = s.pending := rfl
@[simp] theorem setPol_fresh (s : State) (p : Nat) (x : Policer) : (setPol s p x).fresh = s.fresh := rfl
@[simp] theorem setPol_out (s : State) (p : Nat) (x : Policer) : (setPol s p x).out = s.out := rfl
@[simp] theorem setPol_regs (s : State) (p : Nat) (x : Policer) : (setPol s p x).regs = s.regs := rfl
@[simp] theorem setPol_counters (s : State) (p : Nat) (x : Policer) : (setPol s p x).counters = s.counters := rfl
@[simp] theorem setPol_time (s : State) (p : Nat) (x : Policer) : (setPol s p x).time = s.time := rfl
@[simp] theorem setPol_log (s : State) (p : Nat) (x : Policer) : (setPol s p x).log = s.log := rfl
@[simp] theorem setPol_host (s : State) (p : Nat) (x : Policer) : (setPol s p x).host = s.host := rfl
@[simp] theorem setPol_sched (s : State) (p : Nat) (x : Policer) : (setPol s p x).sched = s.sched := rfl
@[simp] theorem setPol_chain (s : State) (p : Nat) (x : Policer) : (setPol s p x).chain = s.chain := rfl
@[simp] theorem setPol_skein (s : State) (p : Nat) (x : Policer) : (setPol s p x).skein = s.skein := rfl
@[simp] theorem setPol_rules (s : State) (p : Nat) (x : Policer) : (setPol s p x).rules = s.rules := rfl
@[simp] theorem setPol_slices (s : State) (p : Nat) (x : Policer) : (setPol s p x).slices = s.slices := rfl
@[simp] theorem setPol_actions (s : State) (p : Nat) (x : Policer) : (setPol s p x).actions = s.actions := rfl
@[simp] theorem setPol_frames (s : State) (p : Nat) (x : Policer) : (setPol s p x).frames = s.frames := rfl
@[simp] theorem setPol_nextFrame (s : State) (p : Nat) (x : Policer) : (setPol s p x).nextFrame = s.nextFrame := rfl
@[simp] theorem setPol_rim (s : State) (p : Nat) (x : Policer) : (setPol s p x).rim = s.rim := rfl
@[simp] theorem setPol_power (s : State) (p : Nat) (x : Policer) : (setPol s p x).power = s.power := rfl
@[simp] theorem setPol_lid (s : State) (p : Nat) (x : Policer) : (setPol s p x).lid = s.lid := rfl
@[simp] theorem setPol_cells (s : State) (p : Nat) (x : Policer) : (setPol s p x).cells = s.cells := rfl
@[simp] theorem setPol_wale (s : State) (p : Nat) (x : Policer) : (setPol s p x).wale = s.wale := rfl
@[simp] theorem setPol_line (s : State) (p : Nat) (x : Policer) : (setPol s p x).line = s.line := rfl
@[simp] theorem setPol_trace (s : State) (p : Nat) (x : Policer) : (setPol s p x).trace = s.trace := rfl
@[simp] theorem setPol_dma (s : State) (p : Nat) (x : Policer) : (setPol s p x).dma = s.dma := rfl
@[simp] theorem setPol_hbm (s : State) (p : Nat) (x : Policer) : (setPol s p x).hbm = s.hbm := rfl

/-! `polTake` changes `egress` alone. -/

@[simp] theorem polTake_pending (s : State) (id : Nat) (f : Frame) : (polTake s id f).pending = s.pending := rfl
@[simp] theorem polTake_fresh (s : State) (id : Nat) (f : Frame) : (polTake s id f).fresh = s.fresh := rfl
@[simp] theorem polTake_out (s : State) (id : Nat) (f : Frame) : (polTake s id f).out = s.out := rfl
@[simp] theorem polTake_regs (s : State) (id : Nat) (f : Frame) : (polTake s id f).regs = s.regs := rfl
@[simp] theorem polTake_counters (s : State) (id : Nat) (f : Frame) : (polTake s id f).counters = s.counters := rfl
@[simp] theorem polTake_time (s : State) (id : Nat) (f : Frame) : (polTake s id f).time = s.time := rfl
@[simp] theorem polTake_log (s : State) (id : Nat) (f : Frame) : (polTake s id f).log = s.log := rfl
@[simp] theorem polTake_host (s : State) (id : Nat) (f : Frame) : (polTake s id f).host = s.host := rfl
@[simp] theorem polTake_sched (s : State) (id : Nat) (f : Frame) : (polTake s id f).sched = s.sched := rfl
@[simp] theorem polTake_chain (s : State) (id : Nat) (f : Frame) : (polTake s id f).chain = s.chain := rfl
@[simp] theorem polTake_skein (s : State) (id : Nat) (f : Frame) : (polTake s id f).skein = s.skein := rfl
@[simp] theorem polTake_rules (s : State) (id : Nat) (f : Frame) : (polTake s id f).rules = s.rules := rfl
@[simp] theorem polTake_slices (s : State) (id : Nat) (f : Frame) : (polTake s id f).slices = s.slices := rfl
@[simp] theorem polTake_actions (s : State) (id : Nat) (f : Frame) : (polTake s id f).actions = s.actions := rfl
@[simp] theorem polTake_frames (s : State) (id : Nat) (f : Frame) : (polTake s id f).frames = s.frames := rfl
@[simp] theorem polTake_nextFrame (s : State) (id : Nat) (f : Frame) : (polTake s id f).nextFrame = s.nextFrame := rfl
@[simp] theorem polTake_rim (s : State) (id : Nat) (f : Frame) : (polTake s id f).rim = s.rim := rfl
@[simp] theorem polTake_power (s : State) (id : Nat) (f : Frame) : (polTake s id f).power = s.power := rfl
@[simp] theorem polTake_lid (s : State) (id : Nat) (f : Frame) : (polTake s id f).lid = s.lid := rfl
@[simp] theorem polTake_cells (s : State) (id : Nat) (f : Frame) : (polTake s id f).cells = s.cells := rfl
@[simp] theorem polTake_wale (s : State) (id : Nat) (f : Frame) : (polTake s id f).wale = s.wale := rfl
@[simp] theorem polTake_line (s : State) (id : Nat) (f : Frame) : (polTake s id f).line = s.line := rfl
@[simp] theorem polTake_trace (s : State) (id : Nat) (f : Frame) : (polTake s id f).trace = s.trace := rfl
@[simp] theorem polTake_dma (s : State) (id : Nat) (f : Frame) : (polTake s id f).dma = s.dma := rfl
@[simp] theorem polTake_hbm (s : State) (id : Nat) (f : Frame) : (polTake s id f).hbm = s.hbm := rfl

/-! `withPower` changes `power` alone. -/

@[simp] theorem withPower_pending (s : State) (f : PowerState → PowerState) : (withPower s f).pending = s.pending := rfl
@[simp] theorem withPower_fresh (s : State) (f : PowerState → PowerState) : (withPower s f).fresh = s.fresh := rfl
@[simp] theorem withPower_out (s : State) (f : PowerState → PowerState) : (withPower s f).out = s.out := rfl
@[simp] theorem withPower_regs (s : State) (f : PowerState → PowerState) : (withPower s f).regs = s.regs := rfl
@[simp] theorem withPower_counters (s : State) (f : PowerState → PowerState) : (withPower s f).counters = s.counters := rfl
@[simp] theorem withPower_time (s : State) (f : PowerState → PowerState) : (withPower s f).time = s.time := rfl
@[simp] theorem withPower_log (s : State) (f : PowerState → PowerState) : (withPower s f).log = s.log := rfl
@[simp] theorem withPower_host (s : State) (f : PowerState → PowerState) : (withPower s f).host = s.host := rfl
@[simp] theorem withPower_sched (s : State) (f : PowerState → PowerState) : (withPower s f).sched = s.sched := rfl
@[simp] theorem withPower_chain (s : State) (f : PowerState → PowerState) : (withPower s f).chain = s.chain := rfl
@[simp] theorem withPower_skein (s : State) (f : PowerState → PowerState) : (withPower s f).skein = s.skein := rfl
@[simp] theorem withPower_rules (s : State) (f : PowerState → PowerState) : (withPower s f).rules = s.rules := rfl
@[simp] theorem withPower_slices (s : State) (f : PowerState → PowerState) : (withPower s f).slices = s.slices := rfl
@[simp] theorem withPower_actions (s : State) (f : PowerState → PowerState) : (withPower s f).actions = s.actions := rfl
@[simp] theorem withPower_frames (s : State) (f : PowerState → PowerState) : (withPower s f).frames = s.frames := rfl
@[simp] theorem withPower_nextFrame (s : State) (f : PowerState → PowerState) : (withPower s f).nextFrame = s.nextFrame := rfl
@[simp] theorem withPower_rim (s : State) (f : PowerState → PowerState) : (withPower s f).rim = s.rim := rfl
@[simp] theorem withPower_lid (s : State) (f : PowerState → PowerState) : (withPower s f).lid = s.lid := rfl
@[simp] theorem withPower_cells (s : State) (f : PowerState → PowerState) : (withPower s f).cells = s.cells := rfl
@[simp] theorem withPower_wale (s : State) (f : PowerState → PowerState) : (withPower s f).wale = s.wale := rfl
@[simp] theorem withPower_egress (s : State) (f : PowerState → PowerState) : (withPower s f).egress = s.egress := rfl
@[simp] theorem withPower_line (s : State) (f : PowerState → PowerState) : (withPower s f).line = s.line := rfl
@[simp] theorem withPower_trace (s : State) (f : PowerState → PowerState) : (withPower s f).trace = s.trace := rfl
@[simp] theorem withPower_dma (s : State) (f : PowerState → PowerState) : (withPower s f).dma = s.dma := rfl
@[simp] theorem withPower_hbm (s : State) (f : PowerState → PowerState) : (withPower s f).hbm = s.hbm := rfl

/-! `setCell` changes `regs` alone. -/

@[simp] theorem setCell_pending (s : State) (off : Nat) (c : RegCell) : (setCell s off c).pending = s.pending := rfl
@[simp] theorem setCell_fresh (s : State) (off : Nat) (c : RegCell) : (setCell s off c).fresh = s.fresh := rfl
@[simp] theorem setCell_out (s : State) (off : Nat) (c : RegCell) : (setCell s off c).out = s.out := rfl
@[simp] theorem setCell_counters (s : State) (off : Nat) (c : RegCell) : (setCell s off c).counters = s.counters := rfl
@[simp] theorem setCell_time (s : State) (off : Nat) (c : RegCell) : (setCell s off c).time = s.time := rfl
@[simp] theorem setCell_log (s : State) (off : Nat) (c : RegCell) : (setCell s off c).log = s.log := rfl
@[simp] theorem setCell_host (s : State) (off : Nat) (c : RegCell) : (setCell s off c).host = s.host := rfl
@[simp] theorem setCell_sched (s : State) (off : Nat) (c : RegCell) : (setCell s off c).sched = s.sched := rfl
@[simp] theorem setCell_chain (s : State) (off : Nat) (c : RegCell) : (setCell s off c).chain = s.chain := rfl
@[simp] theorem setCell_skein (s : State) (off : Nat) (c : RegCell) : (setCell s off c).skein = s.skein := rfl
@[simp] theorem setCell_rules (s : State) (off : Nat) (c : RegCell) : (setCell s off c).rules = s.rules := rfl
@[simp] theorem setCell_slices (s : State) (off : Nat) (c : RegCell) : (setCell s off c).slices = s.slices := rfl
@[simp] theorem setCell_actions (s : State) (off : Nat) (c : RegCell) : (setCell s off c).actions = s.actions := rfl
@[simp] theorem setCell_frames (s : State) (off : Nat) (c : RegCell) : (setCell s off c).frames = s.frames := rfl
@[simp] theorem setCell_nextFrame (s : State) (off : Nat) (c : RegCell) : (setCell s off c).nextFrame = s.nextFrame := rfl
@[simp] theorem setCell_rim (s : State) (off : Nat) (c : RegCell) : (setCell s off c).rim = s.rim := rfl
@[simp] theorem setCell_power (s : State) (off : Nat) (c : RegCell) : (setCell s off c).power = s.power := rfl
@[simp] theorem setCell_lid (s : State) (off : Nat) (c : RegCell) : (setCell s off c).lid = s.lid := rfl
@[simp] theorem setCell_cells (s : State) (off : Nat) (c : RegCell) : (setCell s off c).cells = s.cells := rfl
@[simp] theorem setCell_wale (s : State) (off : Nat) (c : RegCell) : (setCell s off c).wale = s.wale := rfl
@[simp] theorem setCell_egress (s : State) (off : Nat) (c : RegCell) : (setCell s off c).egress = s.egress := rfl
@[simp] theorem setCell_line (s : State) (off : Nat) (c : RegCell) : (setCell s off c).line = s.line := rfl
@[simp] theorem setCell_trace (s : State) (off : Nat) (c : RegCell) : (setCell s off c).trace = s.trace := rfl
@[simp] theorem setCell_dma (s : State) (off : Nat) (c : RegCell) : (setCell s off c).dma = s.dma := rfl
@[simp] theorem setCell_hbm (s : State) (off : Nat) (c : RegCell) : (setCell s off c).hbm = s.hbm := rfl

/-! `raiseEv` changes `regs` alone. -/

@[simp] theorem raiseEv_pending (s : State) (r : RegName) (ix : List Nat) (fs : List Nat) :
    (raiseEv s r ix fs).pending = s.pending := rfl
@[simp] theorem raiseEv_fresh (s : State) (r : RegName) (ix : List Nat) (fs : List Nat) :
    (raiseEv s r ix fs).fresh = s.fresh := rfl
@[simp] theorem raiseEv_out (s : State) (r : RegName) (ix : List Nat) (fs : List Nat) :
    (raiseEv s r ix fs).out = s.out := rfl
@[simp] theorem raiseEv_counters (s : State) (r : RegName) (ix : List Nat) (fs : List Nat) :
    (raiseEv s r ix fs).counters = s.counters := rfl
@[simp] theorem raiseEv_time (s : State) (r : RegName) (ix : List Nat) (fs : List Nat) :
    (raiseEv s r ix fs).time = s.time := rfl
@[simp] theorem raiseEv_log (s : State) (r : RegName) (ix : List Nat) (fs : List Nat) :
    (raiseEv s r ix fs).log = s.log := rfl
@[simp] theorem raiseEv_host (s : State) (r : RegName) (ix : List Nat) (fs : List Nat) :
    (raiseEv s r ix fs).host = s.host := rfl
@[simp] theorem raiseEv_sched (s : State) (r : RegName) (ix : List Nat) (fs : List Nat) :
    (raiseEv s r ix fs).sched = s.sched := rfl
@[simp] theorem raiseEv_chain (s : State) (r : RegName) (ix : List Nat) (fs : List Nat) :
    (raiseEv s r ix fs).chain = s.chain := rfl
@[simp] theorem raiseEv_skein (s : State) (r : RegName) (ix : List Nat) (fs : List Nat) :
    (raiseEv s r ix fs).skein = s.skein := rfl
@[simp] theorem raiseEv_rules (s : State) (r : RegName) (ix : List Nat) (fs : List Nat) :
    (raiseEv s r ix fs).rules = s.rules := rfl
@[simp] theorem raiseEv_slices (s : State) (r : RegName) (ix : List Nat) (fs : List Nat) :
    (raiseEv s r ix fs).slices = s.slices := rfl
@[simp] theorem raiseEv_actions (s : State) (r : RegName) (ix : List Nat) (fs : List Nat) :
    (raiseEv s r ix fs).actions = s.actions := rfl
@[simp] theorem raiseEv_frames (s : State) (r : RegName) (ix : List Nat) (fs : List Nat) :
    (raiseEv s r ix fs).frames = s.frames := rfl
@[simp] theorem raiseEv_nextFrame (s : State) (r : RegName) (ix : List Nat) (fs : List Nat) :
    (raiseEv s r ix fs).nextFrame = s.nextFrame := rfl
@[simp] theorem raiseEv_rim (s : State) (r : RegName) (ix : List Nat) (fs : List Nat) :
    (raiseEv s r ix fs).rim = s.rim := rfl
@[simp] theorem raiseEv_power (s : State) (r : RegName) (ix : List Nat) (fs : List Nat) :
    (raiseEv s r ix fs).power = s.power := rfl
@[simp] theorem raiseEv_lid (s : State) (r : RegName) (ix : List Nat) (fs : List Nat) :
    (raiseEv s r ix fs).lid = s.lid := rfl
@[simp] theorem raiseEv_cells (s : State) (r : RegName) (ix : List Nat) (fs : List Nat) :
    (raiseEv s r ix fs).cells = s.cells := rfl
@[simp] theorem raiseEv_wale (s : State) (r : RegName) (ix : List Nat) (fs : List Nat) :
    (raiseEv s r ix fs).wale = s.wale := rfl
@[simp] theorem raiseEv_egress (s : State) (r : RegName) (ix : List Nat) (fs : List Nat) :
    (raiseEv s r ix fs).egress = s.egress := rfl
@[simp] theorem raiseEv_line (s : State) (r : RegName) (ix : List Nat) (fs : List Nat) :
    (raiseEv s r ix fs).line = s.line := rfl
@[simp] theorem raiseEv_trace (s : State) (r : RegName) (ix : List Nat) (fs : List Nat) :
    (raiseEv s r ix fs).trace = s.trace := rfl
@[simp] theorem raiseEv_dma (s : State) (r : RegName) (ix : List Nat) (fs : List Nat) :
    (raiseEv s r ix fs).dma = s.dma := rfl
@[simp] theorem raiseEv_hbm (s : State) (r : RegName) (ix : List Nat) (fs : List Nat) :
    (raiseEv s r ix fs).hbm = s.hbm := rfl

/-! `emit` changes `out` alone. -/

@[simp] theorem emit_pending (s : State) (o : Output) : (emit s o).pending = s.pending := rfl
@[simp] theorem emit_fresh (s : State) (o : Output) : (emit s o).fresh = s.fresh := rfl
@[simp] theorem emit_regs (s : State) (o : Output) : (emit s o).regs = s.regs := rfl
@[simp] theorem emit_counters (s : State) (o : Output) : (emit s o).counters = s.counters := rfl
@[simp] theorem emit_time (s : State) (o : Output) : (emit s o).time = s.time := rfl
@[simp] theorem emit_log (s : State) (o : Output) : (emit s o).log = s.log := rfl
@[simp] theorem emit_host (s : State) (o : Output) : (emit s o).host = s.host := rfl
@[simp] theorem emit_sched (s : State) (o : Output) : (emit s o).sched = s.sched := rfl
@[simp] theorem emit_chain (s : State) (o : Output) : (emit s o).chain = s.chain := rfl
@[simp] theorem emit_skein (s : State) (o : Output) : (emit s o).skein = s.skein := rfl
@[simp] theorem emit_rules (s : State) (o : Output) : (emit s o).rules = s.rules := rfl
@[simp] theorem emit_slices (s : State) (o : Output) : (emit s o).slices = s.slices := rfl
@[simp] theorem emit_actions (s : State) (o : Output) : (emit s o).actions = s.actions := rfl
@[simp] theorem emit_frames (s : State) (o : Output) : (emit s o).frames = s.frames := rfl
@[simp] theorem emit_nextFrame (s : State) (o : Output) : (emit s o).nextFrame = s.nextFrame := rfl
@[simp] theorem emit_rim (s : State) (o : Output) : (emit s o).rim = s.rim := rfl
@[simp] theorem emit_power (s : State) (o : Output) : (emit s o).power = s.power := rfl
@[simp] theorem emit_lid (s : State) (o : Output) : (emit s o).lid = s.lid := rfl
@[simp] theorem emit_cells (s : State) (o : Output) : (emit s o).cells = s.cells := rfl
@[simp] theorem emit_wale (s : State) (o : Output) : (emit s o).wale = s.wale := rfl
@[simp] theorem emit_egress (s : State) (o : Output) : (emit s o).egress = s.egress := rfl
@[simp] theorem emit_line (s : State) (o : Output) : (emit s o).line = s.line := rfl
@[simp] theorem emit_trace (s : State) (o : Output) : (emit s o).trace = s.trace := rfl
@[simp] theorem emit_dma (s : State) (o : Output) : (emit s o).dma = s.dma := rfl
@[simp] theorem emit_hbm (s : State) (o : Output) : (emit s o).hbm = s.hbm := rfl

/-! `setSlice` changes `slices` alone. -/

@[simp] theorem setSlice_pending (s : State) (sl : Nat) (x : SliceState) : (setSlice s sl x).pending = s.pending := rfl
@[simp] theorem setSlice_fresh (s : State) (sl : Nat) (x : SliceState) : (setSlice s sl x).fresh = s.fresh := rfl
@[simp] theorem setSlice_out (s : State) (sl : Nat) (x : SliceState) : (setSlice s sl x).out = s.out := rfl
@[simp] theorem setSlice_regs (s : State) (sl : Nat) (x : SliceState) : (setSlice s sl x).regs = s.regs := rfl
@[simp] theorem setSlice_counters (s : State) (sl : Nat) (x : SliceState) : (setSlice s sl x).counters = s.counters := rfl
@[simp] theorem setSlice_time (s : State) (sl : Nat) (x : SliceState) : (setSlice s sl x).time = s.time := rfl
@[simp] theorem setSlice_log (s : State) (sl : Nat) (x : SliceState) : (setSlice s sl x).log = s.log := rfl
@[simp] theorem setSlice_host (s : State) (sl : Nat) (x : SliceState) : (setSlice s sl x).host = s.host := rfl
@[simp] theorem setSlice_sched (s : State) (sl : Nat) (x : SliceState) : (setSlice s sl x).sched = s.sched := rfl
@[simp] theorem setSlice_chain (s : State) (sl : Nat) (x : SliceState) : (setSlice s sl x).chain = s.chain := rfl
@[simp] theorem setSlice_skein (s : State) (sl : Nat) (x : SliceState) : (setSlice s sl x).skein = s.skein := rfl
@[simp] theorem setSlice_rules (s : State) (sl : Nat) (x : SliceState) : (setSlice s sl x).rules = s.rules := rfl
@[simp] theorem setSlice_actions (s : State) (sl : Nat) (x : SliceState) : (setSlice s sl x).actions = s.actions := rfl
@[simp] theorem setSlice_frames (s : State) (sl : Nat) (x : SliceState) : (setSlice s sl x).frames = s.frames := rfl
@[simp] theorem setSlice_nextFrame (s : State) (sl : Nat) (x : SliceState) : (setSlice s sl x).nextFrame = s.nextFrame := rfl
@[simp] theorem setSlice_rim (s : State) (sl : Nat) (x : SliceState) : (setSlice s sl x).rim = s.rim := rfl
@[simp] theorem setSlice_power (s : State) (sl : Nat) (x : SliceState) : (setSlice s sl x).power = s.power := rfl
@[simp] theorem setSlice_lid (s : State) (sl : Nat) (x : SliceState) : (setSlice s sl x).lid = s.lid := rfl
@[simp] theorem setSlice_cells (s : State) (sl : Nat) (x : SliceState) : (setSlice s sl x).cells = s.cells := rfl
@[simp] theorem setSlice_wale (s : State) (sl : Nat) (x : SliceState) : (setSlice s sl x).wale = s.wale := rfl
@[simp] theorem setSlice_egress (s : State) (sl : Nat) (x : SliceState) : (setSlice s sl x).egress = s.egress := rfl
@[simp] theorem setSlice_line (s : State) (sl : Nat) (x : SliceState) : (setSlice s sl x).line = s.line := rfl
@[simp] theorem setSlice_trace (s : State) (sl : Nat) (x : SliceState) : (setSlice s sl x).trace = s.trace := rfl
@[simp] theorem setSlice_dma (s : State) (sl : Nat) (x : SliceState) : (setSlice s sl x).dma = s.dma := rfl
@[simp] theorem setSlice_hbm (s : State) (sl : Nat) (x : SliceState) : (setSlice s sl x).hbm = s.hbm := rfl

/-! `landWrite` changes `regs` alone. -/

@[simp] theorem landWrite_pending (s : State) (r : RegName) (ix : List Nat) (v : Nat) :
    (landWrite s r ix v).pending = s.pending := rfl
@[simp] theorem landWrite_fresh (s : State) (r : RegName) (ix : List Nat) (v : Nat) :
    (landWrite s r ix v).fresh = s.fresh := rfl
@[simp] theorem landWrite_out (s : State) (r : RegName) (ix : List Nat) (v : Nat) :
    (landWrite s r ix v).out = s.out := rfl
@[simp] theorem landWrite_counters (s : State) (r : RegName) (ix : List Nat) (v : Nat) :
    (landWrite s r ix v).counters = s.counters := rfl
@[simp] theorem landWrite_time (s : State) (r : RegName) (ix : List Nat) (v : Nat) :
    (landWrite s r ix v).time = s.time := rfl
@[simp] theorem landWrite_log (s : State) (r : RegName) (ix : List Nat) (v : Nat) :
    (landWrite s r ix v).log = s.log := rfl
@[simp] theorem landWrite_host (s : State) (r : RegName) (ix : List Nat) (v : Nat) :
    (landWrite s r ix v).host = s.host := rfl
@[simp] theorem landWrite_sched (s : State) (r : RegName) (ix : List Nat) (v : Nat) :
    (landWrite s r ix v).sched = s.sched := rfl
@[simp] theorem landWrite_chain (s : State) (r : RegName) (ix : List Nat) (v : Nat) :
    (landWrite s r ix v).chain = s.chain := rfl
@[simp] theorem landWrite_skein (s : State) (r : RegName) (ix : List Nat) (v : Nat) :
    (landWrite s r ix v).skein = s.skein := rfl
@[simp] theorem landWrite_rules (s : State) (r : RegName) (ix : List Nat) (v : Nat) :
    (landWrite s r ix v).rules = s.rules := rfl
@[simp] theorem landWrite_slices (s : State) (r : RegName) (ix : List Nat) (v : Nat) :
    (landWrite s r ix v).slices = s.slices := rfl
@[simp] theorem landWrite_actions (s : State) (r : RegName) (ix : List Nat) (v : Nat) :
    (landWrite s r ix v).actions = s.actions := rfl
@[simp] theorem landWrite_frames (s : State) (r : RegName) (ix : List Nat) (v : Nat) :
    (landWrite s r ix v).frames = s.frames := rfl
@[simp] theorem landWrite_nextFrame (s : State) (r : RegName) (ix : List Nat) (v : Nat) :
    (landWrite s r ix v).nextFrame = s.nextFrame := rfl
@[simp] theorem landWrite_rim (s : State) (r : RegName) (ix : List Nat) (v : Nat) :
    (landWrite s r ix v).rim = s.rim := rfl
@[simp] theorem landWrite_power (s : State) (r : RegName) (ix : List Nat) (v : Nat) :
    (landWrite s r ix v).power = s.power := rfl
@[simp] theorem landWrite_lid (s : State) (r : RegName) (ix : List Nat) (v : Nat) :
    (landWrite s r ix v).lid = s.lid := rfl
@[simp] theorem landWrite_cells (s : State) (r : RegName) (ix : List Nat) (v : Nat) :
    (landWrite s r ix v).cells = s.cells := rfl
@[simp] theorem landWrite_wale (s : State) (r : RegName) (ix : List Nat) (v : Nat) :
    (landWrite s r ix v).wale = s.wale := rfl
@[simp] theorem landWrite_egress (s : State) (r : RegName) (ix : List Nat) (v : Nat) :
    (landWrite s r ix v).egress = s.egress := rfl
@[simp] theorem landWrite_line (s : State) (r : RegName) (ix : List Nat) (v : Nat) :
    (landWrite s r ix v).line = s.line := rfl
@[simp] theorem landWrite_trace (s : State) (r : RegName) (ix : List Nat) (v : Nat) :
    (landWrite s r ix v).trace = s.trace := rfl
@[simp] theorem landWrite_dma (s : State) (r : RegName) (ix : List Nat) (v : Nat) :
    (landWrite s r ix v).dma = s.dma := rfl
@[simp] theorem landWrite_hbm (s : State) (r : RegName) (ix : List Nat) (v : Nat) :
    (landWrite s r ix v).hbm = s.hbm := rfl

/-! `forceReg` changes `regs` alone. -/

@[simp] theorem forceReg_pending (s : State) (r : RegName) (ix : List Nat) (v : Nat) :
    (forceReg s r ix v).pending = s.pending := rfl
@[simp] theorem forceReg_fresh (s : State) (r : RegName) (ix : List Nat) (v : Nat) :
    (forceReg s r ix v).fresh = s.fresh := rfl
@[simp] theorem forceReg_out (s : State) (r : RegName) (ix : List Nat) (v : Nat) :
    (forceReg s r ix v).out = s.out := rfl
@[simp] theorem forceReg_counters (s : State) (r : RegName) (ix : List Nat) (v : Nat) :
    (forceReg s r ix v).counters = s.counters := rfl
@[simp] theorem forceReg_time (s : State) (r : RegName) (ix : List Nat) (v : Nat) :
    (forceReg s r ix v).time = s.time := rfl
@[simp] theorem forceReg_log (s : State) (r : RegName) (ix : List Nat) (v : Nat) :
    (forceReg s r ix v).log = s.log := rfl
@[simp] theorem forceReg_host (s : State) (r : RegName) (ix : List Nat) (v : Nat) :
    (forceReg s r ix v).host = s.host := rfl
@[simp] theorem forceReg_sched (s : State) (r : RegName) (ix : List Nat) (v : Nat) :
    (forceReg s r ix v).sched = s.sched := rfl
@[simp] theorem forceReg_chain (s : State) (r : RegName) (ix : List Nat) (v : Nat) :
    (forceReg s r ix v).chain = s.chain := rfl
@[simp] theorem forceReg_skein (s : State) (r : RegName) (ix : List Nat) (v : Nat) :
    (forceReg s r ix v).skein = s.skein := rfl
@[simp] theorem forceReg_rules (s : State) (r : RegName) (ix : List Nat) (v : Nat) :
    (forceReg s r ix v).rules = s.rules := rfl
@[simp] theorem forceReg_slices (s : State) (r : RegName) (ix : List Nat) (v : Nat) :
    (forceReg s r ix v).slices = s.slices := rfl
@[simp] theorem forceReg_actions (s : State) (r : RegName) (ix : List Nat) (v : Nat) :
    (forceReg s r ix v).actions = s.actions := rfl
@[simp] theorem forceReg_frames (s : State) (r : RegName) (ix : List Nat) (v : Nat) :
    (forceReg s r ix v).frames = s.frames := rfl
@[simp] theorem forceReg_nextFrame (s : State) (r : RegName) (ix : List Nat) (v : Nat) :
    (forceReg s r ix v).nextFrame = s.nextFrame := rfl
@[simp] theorem forceReg_rim (s : State) (r : RegName) (ix : List Nat) (v : Nat) :
    (forceReg s r ix v).rim = s.rim := rfl
@[simp] theorem forceReg_power (s : State) (r : RegName) (ix : List Nat) (v : Nat) :
    (forceReg s r ix v).power = s.power := rfl
@[simp] theorem forceReg_lid (s : State) (r : RegName) (ix : List Nat) (v : Nat) :
    (forceReg s r ix v).lid = s.lid := rfl
@[simp] theorem forceReg_cells (s : State) (r : RegName) (ix : List Nat) (v : Nat) :
    (forceReg s r ix v).cells = s.cells := rfl
@[simp] theorem forceReg_wale (s : State) (r : RegName) (ix : List Nat) (v : Nat) :
    (forceReg s r ix v).wale = s.wale := rfl
@[simp] theorem forceReg_egress (s : State) (r : RegName) (ix : List Nat) (v : Nat) :
    (forceReg s r ix v).egress = s.egress := rfl
@[simp] theorem forceReg_line (s : State) (r : RegName) (ix : List Nat) (v : Nat) :
    (forceReg s r ix v).line = s.line := rfl
@[simp] theorem forceReg_trace (s : State) (r : RegName) (ix : List Nat) (v : Nat) :
    (forceReg s r ix v).trace = s.trace := rfl
@[simp] theorem forceReg_dma (s : State) (r : RegName) (ix : List Nat) (v : Nat) :
    (forceReg s r ix v).dma = s.dma := rfl
@[simp] theorem forceReg_hbm (s : State) (r : RegName) (ix : List Nat) (v : Nat) :
    (forceReg s r ix v).hbm = s.hbm := rfl

/-! `forceFld` changes `regs` alone. -/

@[simp] theorem forceFld_pending (s : State) (r : RegName) (ix : List Nat) (hi lo v : Nat) :
    (forceFld s r ix hi lo v).pending = s.pending := rfl
@[simp] theorem forceFld_fresh (s : State) (r : RegName) (ix : List Nat) (hi lo v : Nat) :
    (forceFld s r ix hi lo v).fresh = s.fresh := rfl
@[simp] theorem forceFld_out (s : State) (r : RegName) (ix : List Nat) (hi lo v : Nat) :
    (forceFld s r ix hi lo v).out = s.out := rfl
@[simp] theorem forceFld_counters (s : State) (r : RegName) (ix : List Nat) (hi lo v : Nat) :
    (forceFld s r ix hi lo v).counters = s.counters := rfl
@[simp] theorem forceFld_time (s : State) (r : RegName) (ix : List Nat) (hi lo v : Nat) :
    (forceFld s r ix hi lo v).time = s.time := rfl
@[simp] theorem forceFld_log (s : State) (r : RegName) (ix : List Nat) (hi lo v : Nat) :
    (forceFld s r ix hi lo v).log = s.log := rfl
@[simp] theorem forceFld_host (s : State) (r : RegName) (ix : List Nat) (hi lo v : Nat) :
    (forceFld s r ix hi lo v).host = s.host := rfl
@[simp] theorem forceFld_sched (s : State) (r : RegName) (ix : List Nat) (hi lo v : Nat) :
    (forceFld s r ix hi lo v).sched = s.sched := rfl
@[simp] theorem forceFld_chain (s : State) (r : RegName) (ix : List Nat) (hi lo v : Nat) :
    (forceFld s r ix hi lo v).chain = s.chain := rfl
@[simp] theorem forceFld_skein (s : State) (r : RegName) (ix : List Nat) (hi lo v : Nat) :
    (forceFld s r ix hi lo v).skein = s.skein := rfl
@[simp] theorem forceFld_rules (s : State) (r : RegName) (ix : List Nat) (hi lo v : Nat) :
    (forceFld s r ix hi lo v).rules = s.rules := rfl
@[simp] theorem forceFld_slices (s : State) (r : RegName) (ix : List Nat) (hi lo v : Nat) :
    (forceFld s r ix hi lo v).slices = s.slices := rfl
@[simp] theorem forceFld_actions (s : State) (r : RegName) (ix : List Nat) (hi lo v : Nat) :
    (forceFld s r ix hi lo v).actions = s.actions := rfl
@[simp] theorem forceFld_frames (s : State) (r : RegName) (ix : List Nat) (hi lo v : Nat) :
    (forceFld s r ix hi lo v).frames = s.frames := rfl
@[simp] theorem forceFld_nextFrame (s : State) (r : RegName) (ix : List Nat) (hi lo v : Nat) :
    (forceFld s r ix hi lo v).nextFrame = s.nextFrame := rfl
@[simp] theorem forceFld_rim (s : State) (r : RegName) (ix : List Nat) (hi lo v : Nat) :
    (forceFld s r ix hi lo v).rim = s.rim := rfl
@[simp] theorem forceFld_power (s : State) (r : RegName) (ix : List Nat) (hi lo v : Nat) :
    (forceFld s r ix hi lo v).power = s.power := rfl
@[simp] theorem forceFld_lid (s : State) (r : RegName) (ix : List Nat) (hi lo v : Nat) :
    (forceFld s r ix hi lo v).lid = s.lid := rfl
@[simp] theorem forceFld_cells (s : State) (r : RegName) (ix : List Nat) (hi lo v : Nat) :
    (forceFld s r ix hi lo v).cells = s.cells := rfl
@[simp] theorem forceFld_wale (s : State) (r : RegName) (ix : List Nat) (hi lo v : Nat) :
    (forceFld s r ix hi lo v).wale = s.wale := rfl
@[simp] theorem forceFld_egress (s : State) (r : RegName) (ix : List Nat) (hi lo v : Nat) :
    (forceFld s r ix hi lo v).egress = s.egress := rfl
@[simp] theorem forceFld_line (s : State) (r : RegName) (ix : List Nat) (hi lo v : Nat) :
    (forceFld s r ix hi lo v).line = s.line := rfl
@[simp] theorem forceFld_trace (s : State) (r : RegName) (ix : List Nat) (hi lo v : Nat) :
    (forceFld s r ix hi lo v).trace = s.trace := rfl
@[simp] theorem forceFld_dma (s : State) (r : RegName) (ix : List Nat) (hi lo v : Nat) :
    (forceFld s r ix hi lo v).dma = s.dma := rfl
@[simp] theorem forceFld_hbm (s : State) (r : RegName) (ix : List Nat) (hi lo v : Nat) :
    (forceFld s r ix hi lo v).hbm = s.hbm := rfl

/-! `modSlice` changes `slices` alone. -/

@[simp] theorem modSlice_pending (s : State) (sl : Nat) (f : SliceState → SliceState) :
    (modSlice s sl f).pending = s.pending := rfl
@[simp] theorem modSlice_fresh (s : State) (sl : Nat) (f : SliceState → SliceState) :
    (modSlice s sl f).fresh = s.fresh := rfl
@[simp] theorem modSlice_out (s : State) (sl : Nat) (f : SliceState → SliceState) :
    (modSlice s sl f).out = s.out := rfl
@[simp] theorem modSlice_regs (s : State) (sl : Nat) (f : SliceState → SliceState) :
    (modSlice s sl f).regs = s.regs := rfl
@[simp] theorem modSlice_counters (s : State) (sl : Nat) (f : SliceState → SliceState) :
    (modSlice s sl f).counters = s.counters := rfl
@[simp] theorem modSlice_time (s : State) (sl : Nat) (f : SliceState → SliceState) :
    (modSlice s sl f).time = s.time := rfl
@[simp] theorem modSlice_log (s : State) (sl : Nat) (f : SliceState → SliceState) :
    (modSlice s sl f).log = s.log := rfl
@[simp] theorem modSlice_host (s : State) (sl : Nat) (f : SliceState → SliceState) :
    (modSlice s sl f).host = s.host := rfl
@[simp] theorem modSlice_sched (s : State) (sl : Nat) (f : SliceState → SliceState) :
    (modSlice s sl f).sched = s.sched := rfl
@[simp] theorem modSlice_chain (s : State) (sl : Nat) (f : SliceState → SliceState) :
    (modSlice s sl f).chain = s.chain := rfl
@[simp] theorem modSlice_skein (s : State) (sl : Nat) (f : SliceState → SliceState) :
    (modSlice s sl f).skein = s.skein := rfl
@[simp] theorem modSlice_rules (s : State) (sl : Nat) (f : SliceState → SliceState) :
    (modSlice s sl f).rules = s.rules := rfl
@[simp] theorem modSlice_actions (s : State) (sl : Nat) (f : SliceState → SliceState) :
    (modSlice s sl f).actions = s.actions := rfl
@[simp] theorem modSlice_frames (s : State) (sl : Nat) (f : SliceState → SliceState) :
    (modSlice s sl f).frames = s.frames := rfl
@[simp] theorem modSlice_nextFrame (s : State) (sl : Nat) (f : SliceState → SliceState) :
    (modSlice s sl f).nextFrame = s.nextFrame := rfl
@[simp] theorem modSlice_rim (s : State) (sl : Nat) (f : SliceState → SliceState) :
    (modSlice s sl f).rim = s.rim := rfl
@[simp] theorem modSlice_power (s : State) (sl : Nat) (f : SliceState → SliceState) :
    (modSlice s sl f).power = s.power := rfl
@[simp] theorem modSlice_lid (s : State) (sl : Nat) (f : SliceState → SliceState) :
    (modSlice s sl f).lid = s.lid := rfl
@[simp] theorem modSlice_cells (s : State) (sl : Nat) (f : SliceState → SliceState) :
    (modSlice s sl f).cells = s.cells := rfl
@[simp] theorem modSlice_wale (s : State) (sl : Nat) (f : SliceState → SliceState) :
    (modSlice s sl f).wale = s.wale := rfl
@[simp] theorem modSlice_egress (s : State) (sl : Nat) (f : SliceState → SliceState) :
    (modSlice s sl f).egress = s.egress := rfl
@[simp] theorem modSlice_line (s : State) (sl : Nat) (f : SliceState → SliceState) :
    (modSlice s sl f).line = s.line := rfl
@[simp] theorem modSlice_trace (s : State) (sl : Nat) (f : SliceState → SliceState) :
    (modSlice s sl f).trace = s.trace := rfl
@[simp] theorem modSlice_dma (s : State) (sl : Nat) (f : SliceState → SliceState) :
    (modSlice s sl f).dma = s.dma := rfl
@[simp] theorem modSlice_hbm (s : State) (sl : Nat) (f : SliceState → SliceState) :
    (modSlice s sl f).hbm = s.hbm := rfl

/-! `withSkein` changes `skein` alone. -/

@[simp] theorem withSkein_pending (s : State) (f : SkeinState → SkeinState) : (withSkein s f).pending = s.pending := rfl
@[simp] theorem withSkein_fresh (s : State) (f : SkeinState → SkeinState) : (withSkein s f).fresh = s.fresh := rfl
@[simp] theorem withSkein_out (s : State) (f : SkeinState → SkeinState) : (withSkein s f).out = s.out := rfl
@[simp] theorem withSkein_regs (s : State) (f : SkeinState → SkeinState) : (withSkein s f).regs = s.regs := rfl
@[simp] theorem withSkein_counters (s : State) (f : SkeinState → SkeinState) : (withSkein s f).counters = s.counters := rfl
@[simp] theorem withSkein_time (s : State) (f : SkeinState → SkeinState) : (withSkein s f).time = s.time := rfl
@[simp] theorem withSkein_log (s : State) (f : SkeinState → SkeinState) : (withSkein s f).log = s.log := rfl
@[simp] theorem withSkein_host (s : State) (f : SkeinState → SkeinState) : (withSkein s f).host = s.host := rfl
@[simp] theorem withSkein_sched (s : State) (f : SkeinState → SkeinState) : (withSkein s f).sched = s.sched := rfl
@[simp] theorem withSkein_chain (s : State) (f : SkeinState → SkeinState) : (withSkein s f).chain = s.chain := rfl
@[simp] theorem withSkein_rules (s : State) (f : SkeinState → SkeinState) : (withSkein s f).rules = s.rules := rfl
@[simp] theorem withSkein_slices (s : State) (f : SkeinState → SkeinState) : (withSkein s f).slices = s.slices := rfl
@[simp] theorem withSkein_actions (s : State) (f : SkeinState → SkeinState) : (withSkein s f).actions = s.actions := rfl
@[simp] theorem withSkein_frames (s : State) (f : SkeinState → SkeinState) : (withSkein s f).frames = s.frames := rfl
@[simp] theorem withSkein_nextFrame (s : State) (f : SkeinState → SkeinState) : (withSkein s f).nextFrame = s.nextFrame := rfl
@[simp] theorem withSkein_rim (s : State) (f : SkeinState → SkeinState) : (withSkein s f).rim = s.rim := rfl
@[simp] theorem withSkein_power (s : State) (f : SkeinState → SkeinState) : (withSkein s f).power = s.power := rfl
@[simp] theorem withSkein_lid (s : State) (f : SkeinState → SkeinState) : (withSkein s f).lid = s.lid := rfl
@[simp] theorem withSkein_cells (s : State) (f : SkeinState → SkeinState) : (withSkein s f).cells = s.cells := rfl
@[simp] theorem withSkein_wale (s : State) (f : SkeinState → SkeinState) : (withSkein s f).wale = s.wale := rfl
@[simp] theorem withSkein_egress (s : State) (f : SkeinState → SkeinState) : (withSkein s f).egress = s.egress := rfl
@[simp] theorem withSkein_line (s : State) (f : SkeinState → SkeinState) : (withSkein s f).line = s.line := rfl
@[simp] theorem withSkein_trace (s : State) (f : SkeinState → SkeinState) : (withSkein s f).trace = s.trace := rfl
@[simp] theorem withSkein_dma (s : State) (f : SkeinState → SkeinState) : (withSkein s f).dma = s.dma := rfl
@[simp] theorem withSkein_hbm (s : State) (f : SkeinState → SkeinState) : (withSkein s f).hbm = s.hbm := rfl

/-! `modPort` changes `line` alone. -/

@[simp] theorem modPort_pending (s : State) (p : Nat) (f : PortState → PortState) :
    (modPort s p f).pending = s.pending := rfl
@[simp] theorem modPort_fresh (s : State) (p : Nat) (f : PortState → PortState) :
    (modPort s p f).fresh = s.fresh := rfl
@[simp] theorem modPort_out (s : State) (p : Nat) (f : PortState → PortState) :
    (modPort s p f).out = s.out := rfl
@[simp] theorem modPort_regs (s : State) (p : Nat) (f : PortState → PortState) :
    (modPort s p f).regs = s.regs := rfl
@[simp] theorem modPort_counters (s : State) (p : Nat) (f : PortState → PortState) :
    (modPort s p f).counters = s.counters := rfl
@[simp] theorem modPort_time (s : State) (p : Nat) (f : PortState → PortState) :
    (modPort s p f).time = s.time := rfl
@[simp] theorem modPort_log (s : State) (p : Nat) (f : PortState → PortState) :
    (modPort s p f).log = s.log := rfl
@[simp] theorem modPort_host (s : State) (p : Nat) (f : PortState → PortState) :
    (modPort s p f).host = s.host := rfl
@[simp] theorem modPort_sched (s : State) (p : Nat) (f : PortState → PortState) :
    (modPort s p f).sched = s.sched := rfl
@[simp] theorem modPort_chain (s : State) (p : Nat) (f : PortState → PortState) :
    (modPort s p f).chain = s.chain := rfl
@[simp] theorem modPort_skein (s : State) (p : Nat) (f : PortState → PortState) :
    (modPort s p f).skein = s.skein := rfl
@[simp] theorem modPort_rules (s : State) (p : Nat) (f : PortState → PortState) :
    (modPort s p f).rules = s.rules := rfl
@[simp] theorem modPort_slices (s : State) (p : Nat) (f : PortState → PortState) :
    (modPort s p f).slices = s.slices := rfl
@[simp] theorem modPort_actions (s : State) (p : Nat) (f : PortState → PortState) :
    (modPort s p f).actions = s.actions := rfl
@[simp] theorem modPort_frames (s : State) (p : Nat) (f : PortState → PortState) :
    (modPort s p f).frames = s.frames := rfl
@[simp] theorem modPort_nextFrame (s : State) (p : Nat) (f : PortState → PortState) :
    (modPort s p f).nextFrame = s.nextFrame := rfl
@[simp] theorem modPort_rim (s : State) (p : Nat) (f : PortState → PortState) :
    (modPort s p f).rim = s.rim := rfl
@[simp] theorem modPort_power (s : State) (p : Nat) (f : PortState → PortState) :
    (modPort s p f).power = s.power := rfl
@[simp] theorem modPort_lid (s : State) (p : Nat) (f : PortState → PortState) :
    (modPort s p f).lid = s.lid := rfl
@[simp] theorem modPort_cells (s : State) (p : Nat) (f : PortState → PortState) :
    (modPort s p f).cells = s.cells := rfl
@[simp] theorem modPort_wale (s : State) (p : Nat) (f : PortState → PortState) :
    (modPort s p f).wale = s.wale := rfl
@[simp] theorem modPort_egress (s : State) (p : Nat) (f : PortState → PortState) :
    (modPort s p f).egress = s.egress := rfl
@[simp] theorem modPort_trace (s : State) (p : Nat) (f : PortState → PortState) :
    (modPort s p f).trace = s.trace := rfl
@[simp] theorem modPort_dma (s : State) (p : Nat) (f : PortState → PortState) :
    (modPort s p f).dma = s.dma := rfl
@[simp] theorem modPort_hbm (s : State) (p : Nat) (f : PortState → PortState) :
    (modPort s p f).hbm = s.hbm := rfl

/-! `modLane` changes `line` alone. -/

@[simp] theorem modLane_pending (s : State) (l : Nat) (f : LaneState → LaneState) :
    (modLane s l f).pending = s.pending := rfl
@[simp] theorem modLane_fresh (s : State) (l : Nat) (f : LaneState → LaneState) :
    (modLane s l f).fresh = s.fresh := rfl
@[simp] theorem modLane_out (s : State) (l : Nat) (f : LaneState → LaneState) :
    (modLane s l f).out = s.out := rfl
@[simp] theorem modLane_regs (s : State) (l : Nat) (f : LaneState → LaneState) :
    (modLane s l f).regs = s.regs := rfl
@[simp] theorem modLane_counters (s : State) (l : Nat) (f : LaneState → LaneState) :
    (modLane s l f).counters = s.counters := rfl
@[simp] theorem modLane_time (s : State) (l : Nat) (f : LaneState → LaneState) :
    (modLane s l f).time = s.time := rfl
@[simp] theorem modLane_log (s : State) (l : Nat) (f : LaneState → LaneState) :
    (modLane s l f).log = s.log := rfl
@[simp] theorem modLane_host (s : State) (l : Nat) (f : LaneState → LaneState) :
    (modLane s l f).host = s.host := rfl
@[simp] theorem modLane_sched (s : State) (l : Nat) (f : LaneState → LaneState) :
    (modLane s l f).sched = s.sched := rfl
@[simp] theorem modLane_chain (s : State) (l : Nat) (f : LaneState → LaneState) :
    (modLane s l f).chain = s.chain := rfl
@[simp] theorem modLane_skein (s : State) (l : Nat) (f : LaneState → LaneState) :
    (modLane s l f).skein = s.skein := rfl
@[simp] theorem modLane_rules (s : State) (l : Nat) (f : LaneState → LaneState) :
    (modLane s l f).rules = s.rules := rfl
@[simp] theorem modLane_slices (s : State) (l : Nat) (f : LaneState → LaneState) :
    (modLane s l f).slices = s.slices := rfl
@[simp] theorem modLane_actions (s : State) (l : Nat) (f : LaneState → LaneState) :
    (modLane s l f).actions = s.actions := rfl
@[simp] theorem modLane_frames (s : State) (l : Nat) (f : LaneState → LaneState) :
    (modLane s l f).frames = s.frames := rfl
@[simp] theorem modLane_nextFrame (s : State) (l : Nat) (f : LaneState → LaneState) :
    (modLane s l f).nextFrame = s.nextFrame := rfl
@[simp] theorem modLane_rim (s : State) (l : Nat) (f : LaneState → LaneState) :
    (modLane s l f).rim = s.rim := rfl
@[simp] theorem modLane_power (s : State) (l : Nat) (f : LaneState → LaneState) :
    (modLane s l f).power = s.power := rfl
@[simp] theorem modLane_lid (s : State) (l : Nat) (f : LaneState → LaneState) :
    (modLane s l f).lid = s.lid := rfl
@[simp] theorem modLane_cells (s : State) (l : Nat) (f : LaneState → LaneState) :
    (modLane s l f).cells = s.cells := rfl
@[simp] theorem modLane_wale (s : State) (l : Nat) (f : LaneState → LaneState) :
    (modLane s l f).wale = s.wale := rfl
@[simp] theorem modLane_egress (s : State) (l : Nat) (f : LaneState → LaneState) :
    (modLane s l f).egress = s.egress := rfl
@[simp] theorem modLane_trace (s : State) (l : Nat) (f : LaneState → LaneState) :
    (modLane s l f).trace = s.trace := rfl
@[simp] theorem modLane_dma (s : State) (l : Nat) (f : LaneState → LaneState) :
    (modLane s l f).dma = s.dma := rfl
@[simp] theorem modLane_hbm (s : State) (l : Nat) (f : LaneState → LaneState) :
    (modLane s l f).hbm = s.hbm := rfl

/-! `withRim` changes `rim` alone. -/

@[simp] theorem withRim_pending (s : State) (f : RimState → RimState) : (withRim s f).pending = s.pending := rfl
@[simp] theorem withRim_fresh (s : State) (f : RimState → RimState) : (withRim s f).fresh = s.fresh := rfl
@[simp] theorem withRim_out (s : State) (f : RimState → RimState) : (withRim s f).out = s.out := rfl
@[simp] theorem withRim_regs (s : State) (f : RimState → RimState) : (withRim s f).regs = s.regs := rfl
@[simp] theorem withRim_counters (s : State) (f : RimState → RimState) : (withRim s f).counters = s.counters := rfl
@[simp] theorem withRim_time (s : State) (f : RimState → RimState) : (withRim s f).time = s.time := rfl
@[simp] theorem withRim_log (s : State) (f : RimState → RimState) : (withRim s f).log = s.log := rfl
@[simp] theorem withRim_host (s : State) (f : RimState → RimState) : (withRim s f).host = s.host := rfl
@[simp] theorem withRim_sched (s : State) (f : RimState → RimState) : (withRim s f).sched = s.sched := rfl
@[simp] theorem withRim_chain (s : State) (f : RimState → RimState) : (withRim s f).chain = s.chain := rfl
@[simp] theorem withRim_skein (s : State) (f : RimState → RimState) : (withRim s f).skein = s.skein := rfl
@[simp] theorem withRim_rules (s : State) (f : RimState → RimState) : (withRim s f).rules = s.rules := rfl
@[simp] theorem withRim_slices (s : State) (f : RimState → RimState) : (withRim s f).slices = s.slices := rfl
@[simp] theorem withRim_actions (s : State) (f : RimState → RimState) : (withRim s f).actions = s.actions := rfl
@[simp] theorem withRim_frames (s : State) (f : RimState → RimState) : (withRim s f).frames = s.frames := rfl
@[simp] theorem withRim_nextFrame (s : State) (f : RimState → RimState) : (withRim s f).nextFrame = s.nextFrame := rfl
@[simp] theorem withRim_power (s : State) (f : RimState → RimState) : (withRim s f).power = s.power := rfl
@[simp] theorem withRim_lid (s : State) (f : RimState → RimState) : (withRim s f).lid = s.lid := rfl
@[simp] theorem withRim_cells (s : State) (f : RimState → RimState) : (withRim s f).cells = s.cells := rfl
@[simp] theorem withRim_wale (s : State) (f : RimState → RimState) : (withRim s f).wale = s.wale := rfl
@[simp] theorem withRim_egress (s : State) (f : RimState → RimState) : (withRim s f).egress = s.egress := rfl
@[simp] theorem withRim_line (s : State) (f : RimState → RimState) : (withRim s f).line = s.line := rfl
@[simp] theorem withRim_trace (s : State) (f : RimState → RimState) : (withRim s f).trace = s.trace := rfl
@[simp] theorem withRim_dma (s : State) (f : RimState → RimState) : (withRim s f).dma = s.dma := rfl
@[simp] theorem withRim_hbm (s : State) (f : RimState → RimState) : (withRim s f).hbm = s.hbm := rfl

/-! `withSched` changes `sched` alone. -/

@[simp] theorem withSched_pending (s : State) (f : SchedState → SchedState) : (withSched s f).pending = s.pending := rfl
@[simp] theorem withSched_fresh (s : State) (f : SchedState → SchedState) : (withSched s f).fresh = s.fresh := rfl
@[simp] theorem withSched_out (s : State) (f : SchedState → SchedState) : (withSched s f).out = s.out := rfl
@[simp] theorem withSched_regs (s : State) (f : SchedState → SchedState) : (withSched s f).regs = s.regs := rfl
@[simp] theorem withSched_counters (s : State) (f : SchedState → SchedState) : (withSched s f).counters = s.counters := rfl
@[simp] theorem withSched_time (s : State) (f : SchedState → SchedState) : (withSched s f).time = s.time := rfl
@[simp] theorem withSched_log (s : State) (f : SchedState → SchedState) : (withSched s f).log = s.log := rfl
@[simp] theorem withSched_host (s : State) (f : SchedState → SchedState) : (withSched s f).host = s.host := rfl
@[simp] theorem withSched_chain (s : State) (f : SchedState → SchedState) : (withSched s f).chain = s.chain := rfl
@[simp] theorem withSched_skein (s : State) (f : SchedState → SchedState) : (withSched s f).skein = s.skein := rfl
@[simp] theorem withSched_rules (s : State) (f : SchedState → SchedState) : (withSched s f).rules = s.rules := rfl
@[simp] theorem withSched_slices (s : State) (f : SchedState → SchedState) : (withSched s f).slices = s.slices := rfl
@[simp] theorem withSched_actions (s : State) (f : SchedState → SchedState) : (withSched s f).actions = s.actions := rfl
@[simp] theorem withSched_frames (s : State) (f : SchedState → SchedState) : (withSched s f).frames = s.frames := rfl
@[simp] theorem withSched_nextFrame (s : State) (f : SchedState → SchedState) : (withSched s f).nextFrame = s.nextFrame := rfl
@[simp] theorem withSched_rim (s : State) (f : SchedState → SchedState) : (withSched s f).rim = s.rim := rfl
@[simp] theorem withSched_power (s : State) (f : SchedState → SchedState) : (withSched s f).power = s.power := rfl
@[simp] theorem withSched_lid (s : State) (f : SchedState → SchedState) : (withSched s f).lid = s.lid := rfl
@[simp] theorem withSched_cells (s : State) (f : SchedState → SchedState) : (withSched s f).cells = s.cells := rfl
@[simp] theorem withSched_wale (s : State) (f : SchedState → SchedState) : (withSched s f).wale = s.wale := rfl
@[simp] theorem withSched_egress (s : State) (f : SchedState → SchedState) : (withSched s f).egress = s.egress := rfl
@[simp] theorem withSched_line (s : State) (f : SchedState → SchedState) : (withSched s f).line = s.line := rfl
@[simp] theorem withSched_trace (s : State) (f : SchedState → SchedState) : (withSched s f).trace = s.trace := rfl
@[simp] theorem withSched_dma (s : State) (f : SchedState → SchedState) : (withSched s f).dma = s.dma := rfl
@[simp] theorem withSched_hbm (s : State) (f : SchedState → SchedState) : (withSched s f).hbm = s.hbm := rfl

/-! `modEngine` changes `sched` alone. -/

@[simp] theorem modEngine_pending (s : State) (e : Nat) (f : Engine → Engine) :
    (modEngine s e f).pending = s.pending := rfl
@[simp] theorem modEngine_fresh (s : State) (e : Nat) (f : Engine → Engine) :
    (modEngine s e f).fresh = s.fresh := rfl
@[simp] theorem modEngine_out (s : State) (e : Nat) (f : Engine → Engine) :
    (modEngine s e f).out = s.out := rfl
@[simp] theorem modEngine_regs (s : State) (e : Nat) (f : Engine → Engine) :
    (modEngine s e f).regs = s.regs := rfl
@[simp] theorem modEngine_counters (s : State) (e : Nat) (f : Engine → Engine) :
    (modEngine s e f).counters = s.counters := rfl
@[simp] theorem modEngine_time (s : State) (e : Nat) (f : Engine → Engine) :
    (modEngine s e f).time = s.time := rfl
@[simp] theorem modEngine_log (s : State) (e : Nat) (f : Engine → Engine) :
    (modEngine s e f).log = s.log := rfl
@[simp] theorem modEngine_host (s : State) (e : Nat) (f : Engine → Engine) :
    (modEngine s e f).host = s.host := rfl
@[simp] theorem modEngine_chain (s : State) (e : Nat) (f : Engine → Engine) :
    (modEngine s e f).chain = s.chain := rfl
@[simp] theorem modEngine_skein (s : State) (e : Nat) (f : Engine → Engine) :
    (modEngine s e f).skein = s.skein := rfl
@[simp] theorem modEngine_rules (s : State) (e : Nat) (f : Engine → Engine) :
    (modEngine s e f).rules = s.rules := rfl
@[simp] theorem modEngine_slices (s : State) (e : Nat) (f : Engine → Engine) :
    (modEngine s e f).slices = s.slices := rfl
@[simp] theorem modEngine_actions (s : State) (e : Nat) (f : Engine → Engine) :
    (modEngine s e f).actions = s.actions := rfl
@[simp] theorem modEngine_frames (s : State) (e : Nat) (f : Engine → Engine) :
    (modEngine s e f).frames = s.frames := rfl
@[simp] theorem modEngine_nextFrame (s : State) (e : Nat) (f : Engine → Engine) :
    (modEngine s e f).nextFrame = s.nextFrame := rfl
@[simp] theorem modEngine_rim (s : State) (e : Nat) (f : Engine → Engine) :
    (modEngine s e f).rim = s.rim := rfl
@[simp] theorem modEngine_power (s : State) (e : Nat) (f : Engine → Engine) :
    (modEngine s e f).power = s.power := rfl
@[simp] theorem modEngine_lid (s : State) (e : Nat) (f : Engine → Engine) :
    (modEngine s e f).lid = s.lid := rfl
@[simp] theorem modEngine_cells (s : State) (e : Nat) (f : Engine → Engine) :
    (modEngine s e f).cells = s.cells := rfl
@[simp] theorem modEngine_wale (s : State) (e : Nat) (f : Engine → Engine) :
    (modEngine s e f).wale = s.wale := rfl
@[simp] theorem modEngine_egress (s : State) (e : Nat) (f : Engine → Engine) :
    (modEngine s e f).egress = s.egress := rfl
@[simp] theorem modEngine_line (s : State) (e : Nat) (f : Engine → Engine) :
    (modEngine s e f).line = s.line := rfl
@[simp] theorem modEngine_trace (s : State) (e : Nat) (f : Engine → Engine) :
    (modEngine s e f).trace = s.trace := rfl
@[simp] theorem modEngine_dma (s : State) (e : Nat) (f : Engine → Engine) :
    (modEngine s e f).dma = s.dma := rfl
@[simp] theorem modEngine_hbm (s : State) (e : Nat) (f : Engine → Engine) :
    (modEngine s e f).hbm = s.hbm := rfl

/-! `withTime` changes `time` alone. -/

@[simp] theorem withTime_pending (s : State) (f : TimeState → TimeState) : (withTime s f).pending = s.pending := rfl
@[simp] theorem withTime_fresh (s : State) (f : TimeState → TimeState) : (withTime s f).fresh = s.fresh := rfl
@[simp] theorem withTime_out (s : State) (f : TimeState → TimeState) : (withTime s f).out = s.out := rfl
@[simp] theorem withTime_regs (s : State) (f : TimeState → TimeState) : (withTime s f).regs = s.regs := rfl
@[simp] theorem withTime_counters (s : State) (f : TimeState → TimeState) : (withTime s f).counters = s.counters := rfl
@[simp] theorem withTime_log (s : State) (f : TimeState → TimeState) : (withTime s f).log = s.log := rfl
@[simp] theorem withTime_host (s : State) (f : TimeState → TimeState) : (withTime s f).host = s.host := rfl
@[simp] theorem withTime_sched (s : State) (f : TimeState → TimeState) : (withTime s f).sched = s.sched := rfl
@[simp] theorem withTime_chain (s : State) (f : TimeState → TimeState) : (withTime s f).chain = s.chain := rfl
@[simp] theorem withTime_skein (s : State) (f : TimeState → TimeState) : (withTime s f).skein = s.skein := rfl
@[simp] theorem withTime_rules (s : State) (f : TimeState → TimeState) : (withTime s f).rules = s.rules := rfl
@[simp] theorem withTime_slices (s : State) (f : TimeState → TimeState) : (withTime s f).slices = s.slices := rfl
@[simp] theorem withTime_actions (s : State) (f : TimeState → TimeState) : (withTime s f).actions = s.actions := rfl
@[simp] theorem withTime_frames (s : State) (f : TimeState → TimeState) : (withTime s f).frames = s.frames := rfl
@[simp] theorem withTime_nextFrame (s : State) (f : TimeState → TimeState) : (withTime s f).nextFrame = s.nextFrame := rfl
@[simp] theorem withTime_rim (s : State) (f : TimeState → TimeState) : (withTime s f).rim = s.rim := rfl
@[simp] theorem withTime_power (s : State) (f : TimeState → TimeState) : (withTime s f).power = s.power := rfl
@[simp] theorem withTime_lid (s : State) (f : TimeState → TimeState) : (withTime s f).lid = s.lid := rfl
@[simp] theorem withTime_cells (s : State) (f : TimeState → TimeState) : (withTime s f).cells = s.cells := rfl
@[simp] theorem withTime_wale (s : State) (f : TimeState → TimeState) : (withTime s f).wale = s.wale := rfl
@[simp] theorem withTime_egress (s : State) (f : TimeState → TimeState) : (withTime s f).egress = s.egress := rfl
@[simp] theorem withTime_line (s : State) (f : TimeState → TimeState) : (withTime s f).line = s.line := rfl
@[simp] theorem withTime_trace (s : State) (f : TimeState → TimeState) : (withTime s f).trace = s.trace := rfl
@[simp] theorem withTime_dma (s : State) (f : TimeState → TimeState) : (withTime s f).dma = s.dma := rfl
@[simp] theorem withTime_hbm (s : State) (f : TimeState → TimeState) : (withTime s f).hbm = s.hbm := rfl

/-! `modDomain` changes `time` alone. -/

@[simp] theorem modDomain_pending (s : State) (d : Nat) (f : Domain → Domain) :
    (modDomain s d f).pending = s.pending := rfl
@[simp] theorem modDomain_fresh (s : State) (d : Nat) (f : Domain → Domain) :
    (modDomain s d f).fresh = s.fresh := rfl
@[simp] theorem modDomain_out (s : State) (d : Nat) (f : Domain → Domain) :
    (modDomain s d f).out = s.out := rfl
@[simp] theorem modDomain_regs (s : State) (d : Nat) (f : Domain → Domain) :
    (modDomain s d f).regs = s.regs := rfl
@[simp] theorem modDomain_counters (s : State) (d : Nat) (f : Domain → Domain) :
    (modDomain s d f).counters = s.counters := rfl
@[simp] theorem modDomain_log (s : State) (d : Nat) (f : Domain → Domain) :
    (modDomain s d f).log = s.log := rfl
@[simp] theorem modDomain_host (s : State) (d : Nat) (f : Domain → Domain) :
    (modDomain s d f).host = s.host := rfl
@[simp] theorem modDomain_sched (s : State) (d : Nat) (f : Domain → Domain) :
    (modDomain s d f).sched = s.sched := rfl
@[simp] theorem modDomain_chain (s : State) (d : Nat) (f : Domain → Domain) :
    (modDomain s d f).chain = s.chain := rfl
@[simp] theorem modDomain_skein (s : State) (d : Nat) (f : Domain → Domain) :
    (modDomain s d f).skein = s.skein := rfl
@[simp] theorem modDomain_rules (s : State) (d : Nat) (f : Domain → Domain) :
    (modDomain s d f).rules = s.rules := rfl
@[simp] theorem modDomain_slices (s : State) (d : Nat) (f : Domain → Domain) :
    (modDomain s d f).slices = s.slices := rfl
@[simp] theorem modDomain_actions (s : State) (d : Nat) (f : Domain → Domain) :
    (modDomain s d f).actions = s.actions := rfl
@[simp] theorem modDomain_frames (s : State) (d : Nat) (f : Domain → Domain) :
    (modDomain s d f).frames = s.frames := rfl
@[simp] theorem modDomain_nextFrame (s : State) (d : Nat) (f : Domain → Domain) :
    (modDomain s d f).nextFrame = s.nextFrame := rfl
@[simp] theorem modDomain_rim (s : State) (d : Nat) (f : Domain → Domain) :
    (modDomain s d f).rim = s.rim := rfl
@[simp] theorem modDomain_power (s : State) (d : Nat) (f : Domain → Domain) :
    (modDomain s d f).power = s.power := rfl
@[simp] theorem modDomain_lid (s : State) (d : Nat) (f : Domain → Domain) :
    (modDomain s d f).lid = s.lid := rfl
@[simp] theorem modDomain_cells (s : State) (d : Nat) (f : Domain → Domain) :
    (modDomain s d f).cells = s.cells := rfl
@[simp] theorem modDomain_wale (s : State) (d : Nat) (f : Domain → Domain) :
    (modDomain s d f).wale = s.wale := rfl
@[simp] theorem modDomain_egress (s : State) (d : Nat) (f : Domain → Domain) :
    (modDomain s d f).egress = s.egress := rfl
@[simp] theorem modDomain_line (s : State) (d : Nat) (f : Domain → Domain) :
    (modDomain s d f).line = s.line := rfl
@[simp] theorem modDomain_trace (s : State) (d : Nat) (f : Domain → Domain) :
    (modDomain s d f).trace = s.trace := rfl
@[simp] theorem modDomain_dma (s : State) (d : Nat) (f : Domain → Domain) :
    (modDomain s d f).dma = s.dma := rfl
@[simp] theorem modDomain_hbm (s : State) (d : Nat) (f : Domain → Domain) :
    (modDomain s d f).hbm = s.hbm := rfl

/-! `modPin` changes `time` alone. -/

@[simp] theorem modPin_pending (s : State) (p : Nat) (f : TimeOutPin → TimeOutPin) :
    (modPin s p f).pending = s.pending := rfl
@[simp] theorem modPin_fresh (s : State) (p : Nat) (f : TimeOutPin → TimeOutPin) :
    (modPin s p f).fresh = s.fresh := rfl
@[simp] theorem modPin_out (s : State) (p : Nat) (f : TimeOutPin → TimeOutPin) :
    (modPin s p f).out = s.out := rfl
@[simp] theorem modPin_regs (s : State) (p : Nat) (f : TimeOutPin → TimeOutPin) :
    (modPin s p f).regs = s.regs := rfl
@[simp] theorem modPin_counters (s : State) (p : Nat) (f : TimeOutPin → TimeOutPin) :
    (modPin s p f).counters = s.counters := rfl
@[simp] theorem modPin_log (s : State) (p : Nat) (f : TimeOutPin → TimeOutPin) :
    (modPin s p f).log = s.log := rfl
@[simp] theorem modPin_host (s : State) (p : Nat) (f : TimeOutPin → TimeOutPin) :
    (modPin s p f).host = s.host := rfl
@[simp] theorem modPin_sched (s : State) (p : Nat) (f : TimeOutPin → TimeOutPin) :
    (modPin s p f).sched = s.sched := rfl
@[simp] theorem modPin_chain (s : State) (p : Nat) (f : TimeOutPin → TimeOutPin) :
    (modPin s p f).chain = s.chain := rfl
@[simp] theorem modPin_skein (s : State) (p : Nat) (f : TimeOutPin → TimeOutPin) :
    (modPin s p f).skein = s.skein := rfl
@[simp] theorem modPin_rules (s : State) (p : Nat) (f : TimeOutPin → TimeOutPin) :
    (modPin s p f).rules = s.rules := rfl
@[simp] theorem modPin_slices (s : State) (p : Nat) (f : TimeOutPin → TimeOutPin) :
    (modPin s p f).slices = s.slices := rfl
@[simp] theorem modPin_actions (s : State) (p : Nat) (f : TimeOutPin → TimeOutPin) :
    (modPin s p f).actions = s.actions := rfl
@[simp] theorem modPin_frames (s : State) (p : Nat) (f : TimeOutPin → TimeOutPin) :
    (modPin s p f).frames = s.frames := rfl
@[simp] theorem modPin_nextFrame (s : State) (p : Nat) (f : TimeOutPin → TimeOutPin) :
    (modPin s p f).nextFrame = s.nextFrame := rfl
@[simp] theorem modPin_rim (s : State) (p : Nat) (f : TimeOutPin → TimeOutPin) :
    (modPin s p f).rim = s.rim := rfl
@[simp] theorem modPin_power (s : State) (p : Nat) (f : TimeOutPin → TimeOutPin) :
    (modPin s p f).power = s.power := rfl
@[simp] theorem modPin_lid (s : State) (p : Nat) (f : TimeOutPin → TimeOutPin) :
    (modPin s p f).lid = s.lid := rfl
@[simp] theorem modPin_cells (s : State) (p : Nat) (f : TimeOutPin → TimeOutPin) :
    (modPin s p f).cells = s.cells := rfl
@[simp] theorem modPin_wale (s : State) (p : Nat) (f : TimeOutPin → TimeOutPin) :
    (modPin s p f).wale = s.wale := rfl
@[simp] theorem modPin_egress (s : State) (p : Nat) (f : TimeOutPin → TimeOutPin) :
    (modPin s p f).egress = s.egress := rfl
@[simp] theorem modPin_line (s : State) (p : Nat) (f : TimeOutPin → TimeOutPin) :
    (modPin s p f).line = s.line := rfl
@[simp] theorem modPin_trace (s : State) (p : Nat) (f : TimeOutPin → TimeOutPin) :
    (modPin s p f).trace = s.trace := rfl
@[simp] theorem modPin_dma (s : State) (p : Nat) (f : TimeOutPin → TimeOutPin) :
    (modPin s p f).dma = s.dma := rfl
@[simp] theorem modPin_hbm (s : State) (p : Nat) (f : TimeOutPin → TimeOutPin) :
    (modPin s p f).hbm = s.hbm := rfl

/-! `modIn` changes `time` alone. -/

@[simp] theorem modIn_pending (s : State) (p : Nat) (f : TimeInPin → TimeInPin) :
    (modIn s p f).pending = s.pending := rfl
@[simp] theorem modIn_fresh (s : State) (p : Nat) (f : TimeInPin → TimeInPin) :
    (modIn s p f).fresh = s.fresh := rfl
@[simp] theorem modIn_out (s : State) (p : Nat) (f : TimeInPin → TimeInPin) :
    (modIn s p f).out = s.out := rfl
@[simp] theorem modIn_regs (s : State) (p : Nat) (f : TimeInPin → TimeInPin) :
    (modIn s p f).regs = s.regs := rfl
@[simp] theorem modIn_counters (s : State) (p : Nat) (f : TimeInPin → TimeInPin) :
    (modIn s p f).counters = s.counters := rfl
@[simp] theorem modIn_log (s : State) (p : Nat) (f : TimeInPin → TimeInPin) :
    (modIn s p f).log = s.log := rfl
@[simp] theorem modIn_host (s : State) (p : Nat) (f : TimeInPin → TimeInPin) :
    (modIn s p f).host = s.host := rfl
@[simp] theorem modIn_sched (s : State) (p : Nat) (f : TimeInPin → TimeInPin) :
    (modIn s p f).sched = s.sched := rfl
@[simp] theorem modIn_chain (s : State) (p : Nat) (f : TimeInPin → TimeInPin) :
    (modIn s p f).chain = s.chain := rfl
@[simp] theorem modIn_skein (s : State) (p : Nat) (f : TimeInPin → TimeInPin) :
    (modIn s p f).skein = s.skein := rfl
@[simp] theorem modIn_rules (s : State) (p : Nat) (f : TimeInPin → TimeInPin) :
    (modIn s p f).rules = s.rules := rfl
@[simp] theorem modIn_slices (s : State) (p : Nat) (f : TimeInPin → TimeInPin) :
    (modIn s p f).slices = s.slices := rfl
@[simp] theorem modIn_actions (s : State) (p : Nat) (f : TimeInPin → TimeInPin) :
    (modIn s p f).actions = s.actions := rfl
@[simp] theorem modIn_frames (s : State) (p : Nat) (f : TimeInPin → TimeInPin) :
    (modIn s p f).frames = s.frames := rfl
@[simp] theorem modIn_nextFrame (s : State) (p : Nat) (f : TimeInPin → TimeInPin) :
    (modIn s p f).nextFrame = s.nextFrame := rfl
@[simp] theorem modIn_rim (s : State) (p : Nat) (f : TimeInPin → TimeInPin) :
    (modIn s p f).rim = s.rim := rfl
@[simp] theorem modIn_power (s : State) (p : Nat) (f : TimeInPin → TimeInPin) :
    (modIn s p f).power = s.power := rfl
@[simp] theorem modIn_lid (s : State) (p : Nat) (f : TimeInPin → TimeInPin) :
    (modIn s p f).lid = s.lid := rfl
@[simp] theorem modIn_cells (s : State) (p : Nat) (f : TimeInPin → TimeInPin) :
    (modIn s p f).cells = s.cells := rfl
@[simp] theorem modIn_wale (s : State) (p : Nat) (f : TimeInPin → TimeInPin) :
    (modIn s p f).wale = s.wale := rfl
@[simp] theorem modIn_egress (s : State) (p : Nat) (f : TimeInPin → TimeInPin) :
    (modIn s p f).egress = s.egress := rfl
@[simp] theorem modIn_line (s : State) (p : Nat) (f : TimeInPin → TimeInPin) :
    (modIn s p f).line = s.line := rfl
@[simp] theorem modIn_trace (s : State) (p : Nat) (f : TimeInPin → TimeInPin) :
    (modIn s p f).trace = s.trace := rfl
@[simp] theorem modIn_dma (s : State) (p : Nat) (f : TimeInPin → TimeInPin) :
    (modIn s p f).dma = s.dma := rfl
@[simp] theorem modIn_hbm (s : State) (p : Nat) (f : TimeInPin → TimeInPin) :
    (modIn s p f).hbm = s.hbm := rfl

/-! `writeOnce` changes `regs` alone. -/

@[simp] theorem writeOnce_pending (s : State) (r : RegName) (ix : List Nat) (v : Nat) :
    (writeOnce s r ix v).pending = s.pending := rfl
@[simp] theorem writeOnce_fresh (s : State) (r : RegName) (ix : List Nat) (v : Nat) :
    (writeOnce s r ix v).fresh = s.fresh := rfl
@[simp] theorem writeOnce_out (s : State) (r : RegName) (ix : List Nat) (v : Nat) :
    (writeOnce s r ix v).out = s.out := rfl
@[simp] theorem writeOnce_counters (s : State) (r : RegName) (ix : List Nat) (v : Nat) :
    (writeOnce s r ix v).counters = s.counters := rfl
@[simp] theorem writeOnce_time (s : State) (r : RegName) (ix : List Nat) (v : Nat) :
    (writeOnce s r ix v).time = s.time := rfl
@[simp] theorem writeOnce_log (s : State) (r : RegName) (ix : List Nat) (v : Nat) :
    (writeOnce s r ix v).log = s.log := rfl
@[simp] theorem writeOnce_host (s : State) (r : RegName) (ix : List Nat) (v : Nat) :
    (writeOnce s r ix v).host = s.host := rfl
@[simp] theorem writeOnce_sched (s : State) (r : RegName) (ix : List Nat) (v : Nat) :
    (writeOnce s r ix v).sched = s.sched := rfl
@[simp] theorem writeOnce_chain (s : State) (r : RegName) (ix : List Nat) (v : Nat) :
    (writeOnce s r ix v).chain = s.chain := rfl
@[simp] theorem writeOnce_skein (s : State) (r : RegName) (ix : List Nat) (v : Nat) :
    (writeOnce s r ix v).skein = s.skein := rfl
@[simp] theorem writeOnce_rules (s : State) (r : RegName) (ix : List Nat) (v : Nat) :
    (writeOnce s r ix v).rules = s.rules := rfl
@[simp] theorem writeOnce_slices (s : State) (r : RegName) (ix : List Nat) (v : Nat) :
    (writeOnce s r ix v).slices = s.slices := rfl
@[simp] theorem writeOnce_actions (s : State) (r : RegName) (ix : List Nat) (v : Nat) :
    (writeOnce s r ix v).actions = s.actions := rfl
@[simp] theorem writeOnce_frames (s : State) (r : RegName) (ix : List Nat) (v : Nat) :
    (writeOnce s r ix v).frames = s.frames := rfl
@[simp] theorem writeOnce_nextFrame (s : State) (r : RegName) (ix : List Nat) (v : Nat) :
    (writeOnce s r ix v).nextFrame = s.nextFrame := rfl
@[simp] theorem writeOnce_rim (s : State) (r : RegName) (ix : List Nat) (v : Nat) :
    (writeOnce s r ix v).rim = s.rim := rfl
@[simp] theorem writeOnce_power (s : State) (r : RegName) (ix : List Nat) (v : Nat) :
    (writeOnce s r ix v).power = s.power := rfl
@[simp] theorem writeOnce_lid (s : State) (r : RegName) (ix : List Nat) (v : Nat) :
    (writeOnce s r ix v).lid = s.lid := rfl
@[simp] theorem writeOnce_cells (s : State) (r : RegName) (ix : List Nat) (v : Nat) :
    (writeOnce s r ix v).cells = s.cells := rfl
@[simp] theorem writeOnce_wale (s : State) (r : RegName) (ix : List Nat) (v : Nat) :
    (writeOnce s r ix v).wale = s.wale := rfl
@[simp] theorem writeOnce_egress (s : State) (r : RegName) (ix : List Nat) (v : Nat) :
    (writeOnce s r ix v).egress = s.egress := rfl
@[simp] theorem writeOnce_line (s : State) (r : RegName) (ix : List Nat) (v : Nat) :
    (writeOnce s r ix v).line = s.line := rfl
@[simp] theorem writeOnce_trace (s : State) (r : RegName) (ix : List Nat) (v : Nat) :
    (writeOnce s r ix v).trace = s.trace := rfl
@[simp] theorem writeOnce_dma (s : State) (r : RegName) (ix : List Nat) (v : Nat) :
    (writeOnce s r ix v).dma = s.dma := rfl
@[simp] theorem writeOnce_hbm (s : State) (r : RegName) (ix : List Nat) (v : Nat) :
    (writeOnce s r ix v).hbm = s.hbm := rfl

end Sys2Proof.Machine
end

