-- ==== Sys2Proof/Laws/Table.lean ====
section
/-! SUPPORT. Laws of the sparse tables: what is read after an insertion, a removal or a write, and that each keeps the
keys rising and the canonical form. -/

namespace Sys2Proof.Machine

variable {α : Type}

theorem tget_nil (d : α) (i : Nat) : tget d [] i = d := rfl

theorem tget_cons (d : α) (k : Nat) (v : α) (r : Table α) (i : Nat) :
    tget d ((k, v) :: r) i = if i = k then v else tget d r i := rfl

@[simp] theorem tget_tins_same (d : α) (t : Table α) (i : Nat) (x : α) : tget d (tins t i x) i = x := by
  induction t with
  | nil => simp [tins, tget]
  | cons e r ih =>
    obtain ⟨k, v⟩ := e
    simp only [tins]
    split
    · simp [tget]
    · split
      · simp [tget]
      · rename_i h; simp [tget, h, ih]

theorem tget_tins_ne (d : α) (t : Table α) {i j : Nat} (x : α) (h : j ≠ i) : tget d (tins t i x) j = tget d t j := by
  induction t with
  | nil => simp [tins, tget, h]
  | cons e r ih =>
    obtain ⟨k, v⟩ := e
    simp only [tins]
    split
    · simp [tget, h]
    · split
      · rename_i h2; subst h2; simp [tget, h]
      · by_cases hk : j = k <;> simp [tget, hk, ih]

theorem tget_tins (d : α) (t : Table α) (i j : Nat) (x : α) :
    tget d (tins t i x) j = if j = i then x else tget d t j := by
  split
  · next h => subst h; simp
  · next h => exact tget_tins_ne d t x h

theorem tget_tupd (d : α) (t : Table α) (i j : Nat) (f : α → α) :
    tget d (tupd d t i f) j = if j = i then f (tget d t i) else tget d t j := tget_tins d t i j _

@[simp] theorem tget_tupd_same (d : α) (t : Table α) (i : Nat) (f : α → α) :
    tget d (tupd d t i f) i = f (tget d t i) := tget_tins_same d t i _

theorem tget_tupd_ne (d : α) (t : Table α) {i j : Nat} (f : α → α) (h : j ≠ i) :
    tget d (tupd d t i f) j = tget d t j := tget_tins_ne d t _ h

theorem tget_tdel_ne (d : α) (t : Table α) {i j : Nat} (h : j ≠ i) : tget d (tdel t i) j = tget d t j := by
  induction t with
  | nil => rfl
  | cons e r ih =>
    obtain ⟨k, v⟩ := e
    simp only [tdel]
    split
    · next h2 => subst h2; simp [tget, h]
    · split
      · rfl
      · by_cases hk : j = k <;> simp [tget, hk, ih]

theorem tget_tput_ne [DecidableEq α] (d : α) (t : Table α) {i j : Nat} (x : α) (h : j ≠ i) :
    tget d (tput d t i x) j = tget d t j := by
  unfold tput; split
  · exact tget_tdel_ne d t h
  · exact tget_tins_ne d t x h

/-- The keys rise from a bound on, and so do the keys of the rest. -/
theorem tsortedFrom_cons (b : Option Nat) (k : Nat) (v : α) (r : Table α) :
    tsortedFrom b ((k, v) :: r) = true ↔ (∀ c, b = some c → c < k) ∧ tsortedFrom (some k) r = true := by
  cases b <;> simp [tsortedFrom]

theorem tget_below {d : α} {t : Table α} {b i : Nat} (h : tsortedFrom (some b) t = true) (hi : i ≤ b) : tget d t i = d := by
  induction t generalizing b with
  | nil => rfl
  | cons e r ih =>
    obtain ⟨k, v⟩ := e
    rw [tsortedFrom_cons] at h
    have hk : b < k := h.1 b rfl
    have : i ≠ k := by omega
    simp [tget, this, ih h.2 (by omega : i ≤ k)]

theorem tget_tdel_from {d : α} {t : Table α} {b : Option Nat} {i : Nat} (h : tsortedFrom b t = true) :
    tget d (tdel t i) i = d := by
  induction t generalizing b with
  | nil => rfl
  | cons e r ih =>
    obtain ⟨k, v⟩ := e
    rw [tsortedFrom_cons] at h
    simp only [tdel]
    split
    · next h2 => subst h2; exact tget_below h.2 (Nat.le_refl _)
    · split
      · next h2 h3 => rw [tget_cons, if_neg h2]; exact tget_below h.2 (by omega)
      · next h2 h3 => rw [tget_cons, if_neg h2]; exact ih h.2

theorem tget_tdel_same {d : α} {t : Table α} {i : Nat} (h : tsorted t = true) : tget d (tdel t i) i = d :=
  tget_tdel_from h

theorem tget_tput_same [DecidableEq α] {d : α} {t : Table α} {i : Nat} {x : α} (h : tsorted t = true) :
    tget d (tput d t i x) i = x := by
  unfold tput; split
  · next hx => rw [tget_tdel_same h, hx]
  · simp

theorem tget_tput [DecidableEq α] {d : α} {t : Table α} {x : α} (i j : Nat) (h : tsorted t = true) :
    tget d (tput d t i x) j = if j = i then x else tget d t j := by
  split
  · next hj => subst hj; exact tget_tput_same h
  · next hj => exact tget_tput_ne d t x hj

theorem tsortedFrom_tins {b : Option Nat} {t : Table α} {i : Nat} {x : α} (h : tsortedFrom b t = true)
    (hb : ∀ c, b = some c → c < i) : tsortedFrom b (tins t i x) = true := by
  induction t generalizing b with
  | nil => rw [tins, tsortedFrom_cons]; exact ⟨hb, rfl⟩
  | cons e r ih =>
    obtain ⟨k, v⟩ := e
    rw [tsortedFrom_cons] at h
    simp only [tins]
    split
    · next hk => rw [tsortedFrom_cons, tsortedFrom_cons]
                 exact ⟨hb, fun c hc => by cases hc; exact hk, h.2⟩
    · split
      · next h2 => subst h2; rw [tsortedFrom_cons]; exact ⟨hb, h.2⟩
      · rw [tsortedFrom_cons]; exact ⟨h.1, ih h.2 (fun c hc => by cases hc; omega)⟩

theorem tsortedFrom_weaken {t : Table α} {b : Nat} {c : Option Nat} (h : tsortedFrom (some b) t = true)
    (hc : ∀ k, c = some k → k ≤ b) : tsortedFrom c t = true := by
  cases t with
  | nil => cases c <;> rfl
  | cons e r =>
    obtain ⟨k, v⟩ := e
    rw [tsortedFrom_cons] at h ⊢
    exact ⟨fun j hj => Nat.lt_of_le_of_lt (hc j hj) (h.1 b rfl), h.2⟩

theorem tsortedFrom_tdel {b : Option Nat} {t : Table α} {i : Nat} (h : tsortedFrom b t = true) :
    tsortedFrom b (tdel t i) = true := by
  induction t generalizing b with
  | nil => exact h
  | cons e r ih =>
    obtain ⟨k, v⟩ := e
    simp only [tdel]
    split
    · rw [tsortedFrom_cons] at h
      exact tsortedFrom_weaken h.2 (fun j hj => Nat.le_of_lt (h.1 j hj))
    · split
      · exact h
      · rw [tsortedFrom_cons] at h ⊢; exact ⟨h.1, ih h.2⟩

theorem tsorted_tins {t : Table α} (i : Nat) (x : α) (h : tsorted t = true) : tsorted (tins t i x) = true :=
  tsortedFrom_tins h (fun _ hc => by cases hc)

theorem tsorted_tdel {t : Table α} (i : Nat) (h : tsorted t = true) : tsorted (tdel t i) = true := tsortedFrom_tdel h

theorem all_tins {t : Table α} {p : Nat × α → Bool} {i : Nat} {x : α} (h : t.all p = true) (hx : p (i, x) = true) :
    (tins t i x).all p = true := by
  induction t with
  | nil => simp [tins, hx]
  | cons e r ih =>
    obtain ⟨k, v⟩ := e
    simp only [List.all_cons, Bool.and_eq_true] at h
    simp only [tins]; split
    · simp only [List.all_cons, Bool.and_eq_true]; exact ⟨hx, h⟩
    · split
      · simp only [List.all_cons, Bool.and_eq_true]; exact ⟨hx, h.2⟩
      · simp only [List.all_cons, Bool.and_eq_true]; exact ⟨h.1, ih h.2⟩

theorem all_tdel {t : Table α} {p : Nat × α → Bool} (i : Nat) (h : t.all p = true) : (tdel t i).all p = true := by
  induction t with
  | nil => exact h
  | cons e r ih =>
    obtain ⟨k, v⟩ := e
    have h' := h
    simp only [List.all_cons, Bool.and_eq_true] at h'
    simp only [tdel]; split
    · exact h'.2
    · split
      · exact h
      · simp only [List.all_cons, Bool.and_eq_true]; exact ⟨h'.1, ih h'.2⟩

/-- A write keeps the canonical form. -/
theorem twf_tput [DecidableEq α] {d : α} {t : Table α} (i : Nat) (x : α) (h : twf d t = true) :
    twf d (tput d t i x) = true := by
  simp only [twf, Bool.and_eq_true] at h ⊢
  unfold tput; split
  · exact ⟨tsorted_tdel i h.1, all_tdel i h.2⟩
  · next hx => exact ⟨tsorted_tins i x h.1, all_tins h.2 (by simpa using hx)⟩

theorem twf_tmod [DecidableEq α] {d : α} {t : Table α} (i : Nat) (f : α → α) (h : twf d t = true) :
    twf d (tmod d t i f) = true := twf_tput i _ h

theorem tsorted_of_twf [DecidableEq α] {d : α} {t : Table α} (h : twf d t = true) : tsorted t = true := by
  simp only [twf, Bool.and_eq_true] at h; exact h.1

end Sys2Proof.Machine
end

