-- ==== Sys2Proof/Laws/Regs.lean ====
section
/-! SUPPORT. What each shared operation over registers, events, counters, the log and rings can do, said once: which parts
of the state it may change, and what is read from a register after a write of it or of another. -/

namespace Sys2Proof.Machine

/-! ### Register cells -/

theorem regCell_setCell (s : State) (off : Nat) (c : RegCell) (r : RegName) (ix : List Nat) :
    regCell (setCell s off c) r ix = if r.addr ix = off then c else regCell s r ix := by
  simp only [regCell, setCell, tget_tins]

@[simp] theorem regCell_setCell_same (s : State) (c : RegCell) (r : RegName) (ix : List Nat) :
    regCell (setCell s (r.addr ix) c) r ix = c := by simp [regCell_setCell]

theorem regCell_setCell_ne (s : State) {off : Nat} (c : RegCell) (r : RegName) (ix : List Nat) (h : r.addr ix ≠ off) :
    regCell (setCell s off c) r ix = regCell s r ix := by simp [regCell_setCell, h]

/-- A write that lands leaves the cell of the register shadowed. -/
@[simp] theorem regCell_landWrite_same (s : State) (r : RegName) (ix : List Nat) (v : Nat) :
    regCell (landWrite s r ix v) r ix = shadowed r.desc (regCell s r ix) (BitVec.ofNat 32 v) := by
  simp [landWrite]

theorem regCell_landWrite_ne (s : State) (r : RegName) (ix : List Nat) (v : Nat) (q : RegName) (jx : List Nat)
    (h : q.addr jx ≠ r.addr ix) : regCell (landWrite s r ix v) q jx = regCell s q jx := regCell_setCell_ne _ _ _ _ h

@[simp] theorem regCell_forceReg_same (s : State) (r : RegName) (ix : List Nat) (v : Nat) :
    regCell (forceReg s r ix v) r ix = ⟨BitVec.ofNat 32 v, BitVec.ofNat 32 v, (regCell s r ix).taken⟩ := by
  simp [forceReg]

theorem regCell_forceReg_ne (s : State) (r : RegName) (ix : List Nat) (v : Nat) (q : RegName) (jx : List Nat)
    (h : q.addr jx ≠ r.addr ix) : regCell (forceReg s r ix v) q jx = regCell s q jx := regCell_setCell_ne _ _ _ _ h

theorem regCell_of_cells {s t : State} (h : t.regs.cells = s.regs.cells) (r : RegName) (ix : List Nat) :
    regCell t r ix = regCell s r ix := by simp only [regCell, h]

theorem inForce_of_cells {s t : State} (h : t.regs.cells = s.regs.cells) (r : RegName) (ix : List Nat) :
    inForce t r ix = inForce s r ix := by simp only [inForce, regCell_of_cells h]

theorem inForce_landWrite_ne (s : State) (r : RegName) (ix : List Nat) (v : Nat) (q : RegName) (jx : List Nat)
    (h : q.addr jx ≠ r.addr ix) : inForce (landWrite s r ix v) q jx = inForce s q jx := by
  simp only [inForce, regCell_landWrite_ne s r ix v q jx h]

theorem inForce_forceReg_ne (s : State) (r : RegName) (ix : List Nat) (v : Nat) (q : RegName) (jx : List Nat)
    (h : q.addr jx ≠ r.addr ix) : inForce (forceReg s r ix v) q jx = inForce s q jx := by
  simp only [inForce, regCell_forceReg_ne s r ix v q jx h]

@[simp] theorem inForce_forceReg_same (s : State) (r : RegName) (ix : List Nat) (v : Nat) :
    inForce (forceReg s r ix v) r ix = v % 2 ^ 32 := by simp [inForce]

/-- An operation on the cells keeps the event registers. -/
@[simp] theorem eventAt_landWrite (s : State) (r : RegName) (ix : List Nat) (v off : Nat) :
    eventAt (landWrite s r ix v) off = eventAt s off := rfl

@[simp] theorem eventAt_forceReg (s : State) (r : RegName) (ix : List Nat) (v off : Nat) :
    eventAt (forceReg s r ix v) off = eventAt s off := rfl

@[simp] theorem cells_raiseEv (s : State) (r : RegName) (ix : List Nat) (fs : List Nat) :
    (raiseEv s r ix fs).regs.cells = s.regs.cells := rfl

@[simp] theorem columns_landWrite (s : State) (r : RegName) (ix : List Nat) (v : Nat) :
    (landWrite s r ix v).regs.columns = s.regs.columns := rfl

/-- A raise moves the register's SEQ on by one and marks its flags with it; the other event registers stay. -/
theorem eventAt_raiseEv (s : State) (r : RegName) (ix : List Nat) (fs : List Nat) (off : Nat) :
    eventAt (raiseEv s r ix fs) off =
      if off = r.addr ix then (eventAt s (r.addr ix)).raise fs else eventAt s off := by
  simp only [eventAt, raiseEv, tget_tins]

/-! ### Footprints -/

/-- Counting changes the counters alone. -/
theorem bump_eq (s : State) (part num n : Nat) : ∃ c, bump s part num n = { s with counters := c } := by
  unfold bump; split
  · exact ⟨_, rfl⟩
  · exact ⟨s.counters, rfl⟩

/-- Unless the pair is chained or the bank retained, exactly the counter named moves on. -/
theorem bump_plain (s : State) (part num n : Nat) (hr : running s = true)
    (hc : tget false s.counters.chained (part * 512 + num / 2) = false) :
    bump s part num n = { s with counters := { s.counters with
      counts := tmod 0 s.counters.counts (part * 1024 + num) (fun v => wrap 48 (v + n)) } } := by
  simp [bump, hr, bumpRaw, hc]

/-- A signature may draw a free value. -/
theorem signature_eq (s : State) (life : Nat) : ∃ b n, signature s life = (b, { s with fresh := n }) := by
  unfold signature; split
  · exact ⟨_, s.fresh, rfl⟩
  · exact ⟨_, _, rfl⟩

/-- A checkpoint changes the log, and may draw a free value. -/
theorem checkpoint_eq (s : State) : ∃ l n, checkpoint s = { s with log := l, fresh := n } := by
  obtain ⟨b, n, h⟩ := signature_eq s s.rim.otp.lifecycle
  simp only [checkpoint, h, pushLog]; exact ⟨_, n, rfl⟩

/-- A log entry changes the log, and a checkpoint after it may draw a free value. -/
theorem rimLog_eq (s : State) (type : Nat) (sec : Bool) (body : List Byte) :
    ∃ l n, rimLog s type sec body = { s with log := l, fresh := n } := by
  simp only [rimLog]
  have h0 : ∃ l n, pushLog s type sec body = { s with log := l, fresh := n } := ⟨_, s.fresh, rfl⟩
  obtain ⟨l0, n0, h0⟩ := h0
  rw [h0]
  have hc (l : LogState) (n : Nat) : ∃ l' n', checkpoint { s with log := l, fresh := n } = { s with log := l', fresh := n' } := by
    obtain ⟨l', n', h⟩ := checkpoint_eq { s with log := l, fresh := n }
    exact ⟨l', n', h⟩
  split
  · obtain ⟨l1, n1, h1⟩ := hc l0 n0
    rw [h1]; split
    · exact hc l1 n1
    · exact ⟨l1, n1, rfl⟩
  · split
    · exact hc l0 n0
    · exact ⟨l0, n0, rfl⟩

/-- A refused access changes the registers' event, record, count and pending list, and the log. -/
theorem accessError_eq (s : State) (req : Requester) (kind off width : Nat) (write : Bool) :
    ∃ r l n, accessError s req kind off width write = { s with regs := r, log := l, fresh := n } := by
  simp only [accessError]
  split
  · split
    · simp only [raiseEv]
      generalize hu : ({ s with regs := _ } : State) = u
      obtain ⟨l, n, h⟩ := rimLog_eq u 0x20 (kind == 5) (le 1 req.id ++ le 1 kind ++ le 1 width ++ le 1 0 ++ le 4 off ++ le 4 1)
      rw [h, ← hu]; exact ⟨_, l, n, rfl⟩
    · split
      · rename_i p hp hd
        simp only [raiseEv]
        generalize hu : ({ s with regs := _ } : State) = u
        generalize hb : (le 1 req.id ++ le 1 kind ++ le 1 _ ++ le 1 0 ++ le 4 _ ++ le 4 (p.count + 1)) = b
        obtain ⟨l, n, h⟩ := rimLog_eq u 0x20 (kind == 5) b
        rw [h, ← hu]; exact ⟨_, l, n, rfl⟩
      · exact ⟨_, s.log, s.fresh, rfl⟩
  · exact ⟨_, s.log, s.fresh, rfl⟩

/-- Drawing a free value moves the counter of free values alone. -/
theorem drawFree_eq (s : State) : drawFree s = (Config.freeValue s.fresh, { s with fresh := s.fresh + 1 }) := rfl

/-- An entry in a ring changes the rings and what leaves the device. -/
theorem writeRing_eq (s : State) (hp cls r : Nat) (bytes : List Byte) :
    ∃ h o, writeRing s hp cls r bytes = { s with host := h, out := o } := by
  simp only [writeRing]; split <;> exact ⟨_, _, rfl⟩

/-- An event changes the rings and what leaves the device. -/
theorem eventToRing_eq (s : State) (hp r src dev : Nat) (body : List Byte) :
    ∃ h o, eventToRing s hp r src dev body = { s with host := h, out := o } := by
  simp only [eventToRing]; split
  · generalize le 1 src ++ le 1 (dev % 64) ++ le 2 body.length ++ le 4 _ ++ le 4 _ ++ zeros 4 ++ body = b
    obtain ⟨h, o, he⟩ := writeRing_eq s hp 2 r b
    rw [he]; exact ⟨_, o, rfl⟩
  · exact ⟨_, s.out, rfl⟩

/-- Posting an event changes the rings and what leaves the device. -/
theorem postEvent_eq (s : State) (src : Nat) (body : List Byte) :
    ∃ h o, postEvent s src body = { s with host := h, out := o } := by
  simp only [postEvent]; split
  · split
    · exact eventToRing_eq ..
    · exact ⟨s.host, _, rfl⟩
  · exact ⟨s.host, s.out, rfl⟩

/-- An acknowledgement changes the registers, and the log when it is refused. -/
theorem ackWrite_eq (s : State) (req : Requester) (off v : Nat) :
    ∃ r l n, ackWrite s req off v = { s with regs := r, log := l, fresh := n } := by
  simp only [ackWrite]; split
  · exact ⟨_, s.log, s.fresh, rfl⟩
  · exact accessError_eq ..

/-! ### What judges a write -/

/-- A guarded write that is accepted has its effect when the register is one of the row's. -/
theorem guarded_ok {s : State} {req : Requester} {off : Nat} {names : List RegName}
    {effect : State → RegName → List Nat → State} {r : RegName} {ix : List Nat} (h : judgeWrite s req off = .ok (r, ix))
    (hr : names.contains r = true) : guarded s req off names effect = effect s r ix := by
  simp only [guarded, h, hr, if_true]

/-- A guarded write that is refused raises the access-error event of its kind. -/
theorem guarded_error {s : State} {req : Requester} {off k : Nat} {names : List RegName}
    {effect : State → RegName → List Nat → State} (h : judgeWrite s req off = .error k) :
    guarded s req off names effect = accessError s req k off 2 true := by
  simp [guarded, h]

end Sys2Proof.Machine
end

