-- ==== Sys2Proof/Laws/Access.lean ====
section
/-! SUPPORT. What an access of the register window does, said once: where a write lands, which registers no special rule
takes, and what a refused access leaves. -/

namespace Sys2Proof.Machine

/-- A write that is not refused reaches the register that stands at its offset. -/
theorem judge_locate {s req off r ix} (h : judgeWrite s req off = .ok (r, ix)) : locate off = some (r, ix) := by
  unfold judgeWrite at h
  split at h; · cases h
  split at h; · cases h
  rename_i r' ix' hl
  dsimp only at h
  split at h; · cases h
  split at h; · cases h
  split at h; · cases h
  split at h; · cases h
  cases h; exact hl

/-- No special write rule takes a plain register. -/
theorem plain_none {s req off r ix v} (h : plainReg r = true) :
    writeTimed s req off r ix v = none ∧ writeQueued s r ix v = none ∧ writeHosted s req off r ix v = none ∧
    writeWindowed s req off r ix v = none ∧ r ≠ .expColCtl ∧ r ≠ .polLast ∧ r ≠ .glbResetReq := by
  simp only [plainReg, Bool.and_eq_true, Bool.not_eq_true'] at h
  obtain ⟨⟨h1, h2⟩, h3⟩ := h
  simp only [actingRegs, List.contains_eq_mem, List.cons_append, List.nil_append, decide_eq_false_iff_not, List.mem_cons, not_or] at h1
  refine ⟨?_, ?_, ?_, ?_, ?_, ?_, ?_⟩
  · unfold writeTimed; split <;> simp_all
  · unfold writeQueued; split <;> simp_all
  · unfold writeHosted; split <;> simp_all
  · unfold writeWindowed; split <;> simp_all
  all_goals simp_all

/-- What a refused access changes: the access-error event of its kind, ACC_LAST and ACC_COUNT, and the log (15/R451, R452). -/
theorem acc_facts (s : State) (req : Requester) (kind off width : Nat) (write : Bool) :
    let t := accessError s req kind off width write
    t.regs.cells = s.regs.cells ∧ t.regs.columns = s.regs.columns ∧
    t.regs.accLast = ⟨off % 2 ^ 26, kind, req.id, req.viaCmd, width, write⟩ ∧
    t.regs.accCount = min (s.regs.accCount + 1) (2 ^ 32 - 1) ∧
    eventAt t (RegName.addr .accEvent []) = (eventAt s (RegName.addr .accEvent [])).raise [kind - 1] ∧
    ∀ o, o ≠ RegName.addr .accEvent [] → eventAt t o = eventAt s o := by
  intro t
  have key : t.regs.cells = s.regs.cells ∧ t.regs.columns = s.regs.columns ∧ t.regs.accLast = ⟨off % 2 ^ 26, kind, req.id, req.viaCmd, width, write⟩ ∧ t.regs.accCount = sat 32 (s.regs.accCount + 1) ∧ t.regs.events = (raiseEv s .accEvent [] [kind - 1]).regs.events := by
    simp only [t, accessError]
    split
    · split
      · generalize hu : ({ raiseEv s RegName.accEvent [] [kind - 1] with regs := _ } : State) = u
        obtain ⟨l, n, h⟩ := rimLog_eq u 0x20 (kind == 5) (le 1 req.id ++ le 1 kind ++ le 1 width ++ le 1 0 ++ le 4 off ++ le 4 1)
        rw [h, ← hu]; exact ⟨rfl, rfl, rfl, rfl, rfl⟩
      · split
        · rename_i p hp hd
          generalize hu : ({ raiseEv s RegName.accEvent [] [kind - 1] with regs := _ } : State) = u
          generalize hb : (le 1 req.id ++ le 1 kind ++ le 1 _ ++ le 1 0 ++ le 4 _ ++ le 4 (p.count + 1)) = b
          obtain ⟨l, n, h⟩ := rimLog_eq u 0x20 (kind == 5) b
          rw [h, ← hu]; exact ⟨rfl, rfl, rfl, rfl, rfl⟩
        · exact ⟨rfl, rfl, rfl, rfl, rfl⟩
    · exact ⟨rfl, rfl, rfl, rfl, rfl⟩
  obtain ⟨k1, k2, k3, k4, k5⟩ := key
  refine ⟨k1, k2, k3, k4, ?_, ?_⟩
  · simp only [eventAt, k5]; exact eventAt_raiseEv s .accEvent [] [kind - 1] _ |>.trans (by simp [eventAt])
  · intro o ho; simp only [eventAt, k5]; exact (eventAt_raiseEv s .accEvent [] [kind - 1] o).trans (by simp [eventAt, ho])

end Sys2Proof.Machine
end

