-- ==== Sys2Proof/Laws/Command.lean ====
section
/-! SUPPORT. What running a Yelelle command does, said once: a command that passes its checks and runs alone is answered at
once, and leaves the scheduler as its body does. -/

namespace Sys2Proof.Machine

/-- Nothing waits anywhere in a scheduler that holds no items. -/
theorem items_empty {x : SchedState} (h : x.items = []) :
    x.store = [] ∧ x.ready.flatten = [] ∧ x.engines.filterMap (·.item) = [] ∧ x.stalled = [] := by
  simp only [SchedState.items, List.append_eq_nil_iff] at h
  exact ⟨h.1.1.1, h.1.1.2, h.1.2, h.2⟩

theorem handOver_zero (s : State) : handOver 0 s = s := rfl

theorem takeStalled_zero (x : SchedState) : takeStalled 0 x = x := rfl

theorem readyAll_zero (x : SchedState) (t : Nat) : readyAll 0 x t = x := rfl

/-- With an empty matching store and nothing waiting for it nothing moves. -/
theorem settle_of_empty {s : State} (h : s.sched.store = []) (hw : s.sched.stalled = []) : settle s = s := by
  simp only [settle, h, List.length_nil, handOver_zero, settleReady, withSched, hw, takeStalled_zero]
  simp [readyAll_zero]

/-- With an empty matching store no group passes to another command. -/
theorem passGroup_of_empty {s : State} (h : s.sched.store = []) (order : Nat) : passGroup s order = s := by
  unfold passGroup
  split
  · rfl
  · simp [h]

/-- Without a transition under way nothing waits for idle engines. -/
theorem attentionDone_of_none {s : State} (h : s.rim.transition = none) : attentionDone s = s := by
  simp [attentionDone, h]

/-- The end of a command moves nothing where the store is empty and no transition is under way. -/
theorem completed_of_empty {s : State} (h : s.sched.store = []) (hw : s.sched.stalled = []) (ht : s.rim.transition = none) (hd : CmdHeader) (code : Nat) :
    completed s hd code = s := by
  unfold completed
  split
  · rw [settle_of_empty h hw, attentionDone_of_none ht]
  · rw [passGroup_of_empty h, settle_of_empty h hw, attentionDone_of_none ht]

/-- An answer to a host whose reply ring is enabled goes to its reply buffer. -/
theorem answer_host {t : State} {h : CmdHeader} (hv : h.viaChain = none) (hr : h.replyRing < lostRing)
    (he : (ringAt t (h.fn / 2) 1 h.replyRing).en = true) (a : Answer) : answer t h false a = answered t h a := by
  unfold answer answered hostReply
  simp only [hv]
  rw [if_pos]
  exact ⟨hr, he⟩

@[simp] theorem answered_sched (t : State) (h : CmdHeader) (a : Answer) : (answered t h a).sched = t.sched := rfl
@[simp] theorem answered_rim (t : State) (h : CmdHeader) (a : Answer) : (answered t h a).rim = t.rim := rfl
@[simp] theorem answered_regs (t : State) (h : CmdHeader) (a : Answer) : (answered t h a).regs = t.regs := rfl

/-- What an answer takes of a reply buffer is at most what CommandRuns keeps free. -/
theorem answerFits_of_room {s : State} {h : CmdHeader} {a : Answer} (hroom : replyRoom s (h.fn / 2) 65536 = true)
    (hd : (replyOf h false a).data.length ≤ 65536) : answerFits s h a = true := by
  unfold answerFits
  simp only [Bool.or_eq_true]
  right
  simp only [replyRoom, decide_eq_true_eq] at hroom ⊢
  omega

/-- A command that passes its checks and whose item no engine holds runs its body, answered when its answer fits. -/
theorem runCommand_of_runs {s : State} {op : Nat} {h : CmdHeader} {p : List Byte} {len : Nat} {fine : Bool}
    (H : CommandRuns s op h p len fine) (body : Bool → State → Option Answer × State) :
    runCommand s op h p len fine body =
      match body false s with
      | (none, t) => t
      | (some a, t) => if answerFits s h a then completed (answer t h false a) h op else s := by
  have haddr : s.chain.addr.isNone = false := by
    have := H.here
    simp only [ownDevice, beq_iff_eq] at this
    simp [this]
  unfold runCommand
  simp only [H.opcode, H.unheld, H.unlisted, H.started, H.here, H.passes, H.roomy, haddr, ne_eq, not_true_eq_false, if_false,
    Option.isNone_none, Bool.or_false, Bool.and_false, Bool.not_true, Option.bind_none, Option.map_none, Option.getD_none,
    Bool.false_eq_true, and_false]
  rcases body false s with ⟨_ | a, t⟩ <;> rfl

/-- A command that runs alone, whose body answers and leaves the scheduler, the transitions and the reply ring as they
were, is answered at once. -/
theorem runAtOnce_of_alone {s t : State} {op : Nat} {h : CmdHeader} {p : List Byte} {len : Nat} {fine : Bool} {a : Answer}
    {body : State → Answer × State} (H : RunsAlone s op h p len fine) (hb : body s = (a, t)) (hs : t.sched = s.sched)
    (ht : t.rim.transition = none) (hr : (ringAt t (h.fn / 2) 1 h.replyRing).en = true)
    (hd : (replyOf h false a).data.length ≤ 65536) :
    runAtOnce s op h p len fine body = answered t h a := by
  unfold runAtOnce
  rw [runCommand_of_runs H.runs]
  simp only [hb]
  rw [if_pos (answerFits_of_room H.runs.room hd), answer_host H.runs.host H.runs.ring hr,
    completed_of_empty (by rw [answered_sched, hs]; exact (items_empty H.empty).1)
      (by rw [answered_sched, hs]; exact (items_empty H.empty).2.2.2) (by rw [answered_rim]; exact ht)]

end Sys2Proof.Machine
end

