-- ==== Sys2Proof/Laws/Time.lean ====
section
/-! SUPPORT. What the operations of the network time do, said once: domains, pins, the result field of a domain operation. -/

namespace Sys2Proof.Machine

/-- Reading a list with one place replaced. -/
theorem getD_setAt {α} (l : List α) (n : Nat) (x d : α) (m : Nat) : (setAt l n x).getD m d = if m = n ∧ n < l.length then x else l.getD m d := by
  induction l generalizing n m with
  | nil => simp [setAt]
  | cons a r ih =>
    cases n with
    | zero => cases m <;> simp [setAt]
    | succ n => cases m with
      | zero => simp [setAt]
      | succ m => simpa [setAt] using ih n m

/-- Replacing a place keeps the length. -/
@[simp] theorem length_setAt {α} (l : List α) (n : Nat) (x : α) : (setAt l n x).length = l.length := by
  induction l generalizing n with
  | nil => rfl
  | cons a r ih => cases n <;> simp [setAt, ih]

/-- Bits 23:20 of a word just written with them. -/
theorem bits_withBits (x v : Nat) : bits (withBits x 23 20 v % 2^32) 23 20 = v % 16 := by
  simp only [bits, withBits, at_]; omega

/-- RESULT of a domain operation. -/
theorem fld_tdResult (s d r) : fld (tdResult s d r) .tdCtl [d] 23 20 = r % 16 := by
  simp only [fld, tdResult, forceFld, inForce_forceReg_same]; exact bits_withBits _ _

/-- Changing one domain leaves the other. -/
theorem domainAt_modDomain (s : State) (d e : Nat) (f) (h : d < s.time.domains.length) : domainAt (modDomain s d f) e = if e = d then f (domainAt s d) else domainAt s e := by
  simp only [domainAt, modDomain, withTime, getD_setAt]
  by_cases he : e = d <;> simp [he, h]

/-- SEL as just written. -/
theorem fld_timeCtl (s v) : fld (landWrite s .timeCtl [] v) .timeCtl [] 31 31 = bits v 31 31 := by
  simp only [fld, inForce, regCell_landWrite_same, shadowed, show maskOf (RegName.desc .timeCtl).fields RField.writable = 0x800000FF#32 from by decide +kernel, show maskOf (RegName.desc .timeCtl).fields (fun f => f.writable && (f.applies == .now || f.applies == .packet)) = 0x800000FF#32 from by decide +kernel]
  simp only [bits]
  generalize (regCell s .timeCtl []).written = a
  generalize (regCell s .timeCtl []).force = b
  have : ∀ x : BitVec 32, (x.toNat / 2^31 % 2^(31+1-31)) = (x >>> 31).toNat := by
    intro x; simp [Nat.shiftRight_eq_div_pow]; omega
  rw [this]
  have h2 : ((BitVec.ofNat 32 v &&& 0x800000FF#32 ||| a &&& ~~~0x800000FF#32) &&& 0x800000FF#32 ||| b &&& ~~~0x800000FF#32) >>> 31 = (BitVec.ofNat 32 v) >>> 31 := by
    apply BitVec.eq_of_getLsbD_eq
    intro i hi
    simp only [BitVec.getLsbD_ushiftRight, BitVec.getLsbD_or, BitVec.getLsbD_and, BitVec.getLsbD_not]
    rcases i with _ | i
    · simp
    · have e1 : ∀ x : BitVec 32, x.getLsbD (31 + (i+1)) = false := fun x => BitVec.getLsbD_of_ge _ _ (by omega)
      simp [e1]
  rw [h2, ← this]
  simp; omega

/-- Changing one output pin leaves the others. -/
theorem pinAt_modPin (s : State) (p q : Nat) (f) (h : p < s.time.outs.length) : pinAt (modPin s p f) q = if q = p then f (pinAt s p) else pinAt s q := by
  simp only [pinAt, modPin, withTime, getD_setAt]
  by_cases he : q = p <;> simp [he, h]

/-- Changing one input pin leaves the others. -/
theorem inAt_modIn (s : State) (p q : Nat) (f) (h : p < s.time.ins.length) : inAt (modIn s p f) q = if q = p then f (inAt s p) else inAt s q := by
  simp only [inAt, modIn, withTime, getD_setAt]
  by_cases he : q = p <;> simp [he, h]

/-- Driving a pin changes its level and nothing but the pins and the outputs. -/
theorem drivePin_facts (s p b) (h : p < s.time.outs.length) : (pinAt (drivePin s p b) p) = { pinAt s p with high := b } ∧ ∃ time out, drivePin s p b = {s with time := time, out := out} := by
  unfold drivePin
  split
  · next h' => simp only [beq_iff_eq] at h'; subst h'; exact ⟨rfl, _, _, rfl⟩
  · refine ⟨?_, _, _, rfl⟩
    show pinAt (modPin s p (fun x => { x with high := b })) p = _
    rw [pinAt_modPin _ _ _ _ h]; simp

/-- A pulse schedule that takes effect is no longer pending, and runs when its mode says so. -/
theorem pulseApply_facts (s p c now) (h : p < s.time.outs.length) : (pinAt (pulseApply s p c now) p).pending = none ∧
    (pinAt (pulseApply s p c now) p).running = if c.mode = 1 ∨ c.mode = 2 then some c else none := by
  unfold pulseApply
  simp only []
  generalize hu : applyReg _ _ _ _ = u
  have ht : u.time = s.time := by
    rw [← hu]; simp only [applyReg]; repeat' split
    all_goals rfl
  have hl : p < u.time.outs.length := by rw [ht]; exact h
  have hm (f) : p < (modPin u p f).time.outs.length := by simpa [modPin, withTime] using hl
  split
  all_goals
    repeat' split
    all_goals first
      | (rw [(drivePin_facts _ _ _ (hm _)).1, pinAt_modPin _ _ _ _ hl]; simp_all)
      | (rw [pinAt_modPin _ _ _ _ hl]; simp_all)

/-- The schedule that a write of TOUT_CTL arms does not depend on the write having landed. -/
theorem pulseOf_land (s p v) : pulseOf (landWrite s .toutCtl [p] v) p v = pulseOf s p v := by
  have hn (q : RegName) (h : q.addr [p] ≠ RegName.addr .toutCtl [p]) : regCell (landWrite s .toutCtl [p] v) q [p] = regCell s q [p] := regCell_landWrite_ne _ _ _ _ _ _ h
  simp only [pulseOf, inForce, lastWritten]
  rw [hn .toutStartSlo (by simp [RegName.addr, RegName.desc, dimOffset]), hn .toutStartShi (by simp [RegName.addr, RegName.desc, dimOffset]), hn .toutStartNs (by simp [RegName.addr, RegName.desc, dimOffset]), hn .toutPeriod (by simp [RegName.addr, RegName.desc, dimOffset]), hn .toutWidth (by simp [RegName.addr, RegName.desc, dimOffset])]

end Sys2Proof.Machine
end

