-- ==== Sys2Proof/WellFormed.lean ====
section
/-! DEFINITION. Commands a sender can form: every number of a place lies in the range that the spec gives it (ports, slices,
lanes, rings, offsets of the window, widths of fields). `exec` is total and needs none of this. -/

namespace Sys2Proof

/-- A number below a bound. -/
def below (n x : Nat) : Bool := decide (x < n)

/-- An offset of a register in the window (15/R441): 64 MiB, a multiple of 4. -/
def wordOffset (o : Nat) : Bool := below (2 ^ 26) o && o % 4 == 0

/-- One of the requesters of Table 15-4. -/
def Requester.ok (r : Requester) : Bool := below 5 r.id

/-- A header whose fields fit Table 12-3. -/
def CmdHeader.ok (h : CmdHeader) : Bool :=
  below 4 h.fn && below 16 h.ring && below 17 h.replyRing && below 65536 h.opcode && below 256 h.slices && below 64 h.dev &&
  below 4 h.prio && below (2 ^ 32) h.tag && below 4 h.cls && below 65536 h.order &&
  (match h.viaChain with | some p => below 2 p | none => true)

/-- The command is one that its sender can form. -/
def Instr.wellFormed (i : Instr) : Bool :=
  match i with
  | .frameReceive port bytes _ => below 256 port && decide (bytes.length ≤ 16384)
  | .frameTail _ => true
  | .headParse slice _ => below 8 slice
  | .classify _ _ => true
  | .flowLookup _ _ => true
  | .tagLineRead _ _ _ => true
  | .recordBurstsRead _ _ => true
  | .writeBackDone _ _ => true
  | .learnRequest _ => true
  | .fitchLearn _ => true
  | .rewrite _ _ => true
  | .policerMeter _ _ => true
  | .cellAdmit slice _ => below 8 slice
  | .waleMatch _ => true
  | .unitArrive slice port cls => below 8 slice && below 256 port && below 8 cls
  | .egressPick port _ => below 256 port
  | .frameSent port => below 256 port
  | .correction _ _ => true
  | .twinNotice _ => true
  | .multicastReplicate slice => below 8 slice
  | .deepScan slice => below 8 slice
  | .puntDeliver channel source => below 32 channel && below 16 source
  | .l2Learn slice _ => below 8 slice
  | .l2AgingPass slice _ => below 8 slice
  | .tcamScrub slice _ => below 8 slice
  | .activityTick => true
  | .agingSweepBatch _ _ _ => true
  | .endRequest => true
  | .migrationDecision => true
  | .groupMoveBucket => true
  | .skeinPcRetire => true
  | .epochBoundary _ => true
  | .epochSyncPulse _ => true
  | .syncTimeout _ => true
  | .drainComplete => true
  | .drainLimit => true
  | .closeSweepBucket _ _ _ => true
  | .hashComplete _ => true
  | .sealSigned => true
  | .imageZeroed _ => true
  | .standbyCloseWake _ => true
  | .nop h p => h.ok && decide (p.length ≤ 4096)
  | .abort h p => h.ok && decide (p.length ≤ 4096)
  | .devInfo h p => h.ok && decide (p.length ≤ 4096)
  | .chainEnum h p => h.ok && decide (p.length ≤ 4096)
  | .regRead h p => h.ok && decide (p.length ≤ 4096)
  | .regWrite h p => h.ok && decide (p.length ≤ 4096)
  | .commit h p _ => h.ok && decide (p.length ≤ 4096)
  | .versionSwitch => true
  | .abandon h p => h.ok && decide (p.length ≤ 4096)
  | .versionInfo h p => h.ok && decide (p.length ≤ 4096)
  | .stepWrite h p => h.ok && decide (p.length ≤ 4096)
  | .transWrite h p => h.ok && decide (p.length ≤ 4096)
  | .accmapAdd h p => h.ok && decide (p.length ≤ 4096)
  | .accmapDel h p => h.ok && decide (p.length ≤ 4096)
  | .patternAdd h p => h.ok && decide (p.length ≤ 4096)
  | .patternDel h p => h.ok && decide (p.length ≤ 4096)
  | .tcamAdd h p => h.ok && decide (p.length ≤ 4096)
  | .tcamInsert h p _ => h.ok && decide (p.length ≤ 4096)
  | .tcamDelete h p => h.ok && decide (p.length ≤ 4096)
  | .tcamRead h p => h.ok && decide (p.length ≤ 4096)
  | .dtWrite h p => h.ok && decide (p.length ≤ 4096)
  | .vlanWrite h p => h.ok && decide (p.length ≤ 4096)
  | .dtRead h p => h.ok && decide (p.length ≤ 4096)
  | .pfxAdd h p => h.ok && decide (p.length ≤ 4096)
  | .pfxDel h p => h.ok && decide (p.length ≤ 4096)
  | .pfxLookup h p => h.ok && decide (p.length ≤ 4096)
  | .macSearch h p _ => h.ok && decide (p.length ≤ 4096)
  | .macNext h p _ => h.ok && decide (p.length ≤ 4096)
  | .macStaticAdd h p _ => h.ok && decide (p.length ≤ 4096)
  | .macStaticDel h p _ => h.ok && decide (p.length ≤ 4096)
  | .macFlushPort h p _ => h.ok && decide (p.length ≤ 4096)
  | .flowLookupKey h p _ _ => h.ok && decide (p.length ≤ 4096)
  | .flowLookupHandle h p _ _ => h.ok && decide (p.length ≤ 4096)
  | .flowIterate h p _ _ => h.ok && decide (p.length ≤ 4096)
  | .flowDeleteKey h p _ _ => h.ok && decide (p.length ≤ 4096)
  | .flowFlush h p _ _ _ => h.ok && decide (p.length ≤ 4096)
  | .natAddrWrite h p => h.ok && decide (p.length ≤ 4096)
  | .natPoolWrite h p => h.ok && decide (p.length ≤ 4096)
  | .natSubLookup h p _ => h.ok && decide (p.length ≤ 4096)
  | .lbTargetWrite h p _ => h.ok && decide (p.length ≤ 4096)
  | .lbPoolReplace h p _ _ => h.ok && decide (p.length ≤ 4096)
  | .lbTargetRemove h p _ => h.ok && decide (p.length ≤ 4096)
  | .lbTargetRead h p _ => h.ok && decide (p.length ≤ 4096)
  | .cntSnapshot h p => h.ok && decide (p.length ≤ 4096)
  | .commandFetch _ => true
  | .itemDispatch => true
  | .commandStepEnd engine _ _ _ => below 12 engine
  | .stepOverrun engine uaddr => below 12 engine && below 131072 uaddr
  | .engHang engine uaddr _ => below 12 engine && below 131072 uaddr
  | .schedulerTick => true
  | .replyWrite hp ring => below 2 hp && below 16 ring
  | .natBlockSweep => true
  | .withyFold => true
  | .ipfixTemplate collector => below 8 collector
  | .ipfixFlush collector => below 8 collector
  | .chainToken port value => below 2 port && below 128 value
  | .chainCommandRelay port h p => below 2 port && h.ok && decide (p.length ≤ 4096)
  | .chainReply port dev fn _ _ _ _ _ _ => below 2 port && below 64 dev && below 4 fn
  | .chainAckTimeout dev _ => below 64 dev
  | .chainLinkChange port _ peer _ => below 2 port && below 64 peer
  | .hostLinkUp hp _ _ => below 2 hp
  | .hostLinkDown hp => below 2 hp
  | .functionLevelReset fn => below 4 fn
  | .perst hp => below 2 hp
  | .semaphoreAcquire req offset _ => req.ok && wordOffset offset
  | .semaphoreRelease req offset value => req.ok && wordOffset offset && below (2 ^ 32) value
  | .semaphoreForceRelease req offset value => req.ok && wordOffset offset && below (2 ^ 32) value
  | .crPiWrite req offset value => req.ok && wordOffset offset && below (2 ^ 32) value
  | .ringCiWrite req offset value => req.ok && wordOffset offset && below (2 ^ 32) value
  | .ringEnable req offset value => req.ok && wordOffset offset && below (2 ^ 32) value
  | .ringDisable req offset value => req.ok && wordOffset offset && below (2 ^ 32) value
  | .ringRestart req offset value => req.ok && wordOffset offset && below (2 ^ 32) value
  | .dmaEnable req offset value => req.ok && wordOffset offset && below (2 ^ 32) value
  | .dmaDisable req offset value => req.ok && wordOffset offset && below (2 ^ 32) value
  | .dmaStart req offset value => req.ok && wordOffset offset && below (2 ^ 32) value
  | .dmaResume req offset value => req.ok && wordOffset offset && below (2 ^ 32) value
  | .dmaKick req offset value => req.ok && wordOffset offset && below (2 ^ 32) value
  | .dmaDescriptor channel bytes _ _ _ _ => below 32 channel && decide (bytes.length ≤ 32)
  | .cqCiWrite req offset value => req.ok && wordOffset offset && below (2 ^ 32) value
  | .cqEnable req offset value => req.ok && wordOffset offset && below (2 ^ 32) value
  | .dmaGraceExpire channel => below 32 channel
  | .tdSet req offset value => req.ok && wordOffset offset && below (2 ^ 32) value
  | .tdAdjust req offset value => req.ok && wordOffset offset && below (2 ^ 32) value
  | .tdRate req offset value => req.ok && wordOffset offset && below (2 ^ 32) value
  | .servedSet req offset value => req.ok && wordOffset offset && below (2 ^ 32) value
  | .selWrite req offset value => req.ok && wordOffset offset && below (2 ^ 32) value
  | .serveTick => true
  | .timeRefLoss => true
  | .timeRefRestore => true
  | .toutArm req offset value => req.ok && wordOffset offset && below (2 ^ 32) value
  | .toutWithdraw req offset value => req.ok && wordOffset offset && below (2 ^ 32) value
  | .timeOutEdge pin => below 4 pin
  | .timeInEdge pin _ => below 4 pin
  | .tinPop req offset value => req.ok && wordOffset offset && below (2 ^ 32) value
  | .snapshot req offset value => req.ok && wordOffset offset && below (2 ^ 32) value
  | .atTimeApply offset => below (2 ^ 26) offset
  | .portEnable req offset value => req.ok && wordOffset offset && below (2 ^ 32) value
  | .portDisable req offset value => req.ok && wordOffset offset && below (2 ^ 32) value
  | .retry req offset value => req.ok && wordOffset offset && below (2 ^ 32) value
  | .retrain req offset value => req.ok && wordOffset offset && below (2 ^ 32) value
  | .attemptStart port => below 256 port
  | .portAttemptEnd port _ _ _ _ => below 256 port
  | .attemptTimeout port _ _ => below 256 port
  | .linkDrop port _ => below 256 port
  | .fecIntervalEnd port _ _ _ => below 256 port
  | .fomMeasure lane _ _ => below 256 lane
  | .lpiEnter port => below 256 port
  | .lpiWake port => below 256 port
  | .lpiRx port => below 256 port
  | .macroModeWrite req offset value => req.ok && wordOffset offset && below (2 ^ 32) value
  | .loopWrite req offset value => req.ok && wordOffset offset && below (2 ^ 32) value
  | .testEnWrite req offset value => req.ok && wordOffset offset && below (2 ^ 32) value
  | .prbsClr req offset value => req.ok && wordOffset offset && below (2 ^ 32) value
  | .injOne req offset value => req.ok && wordOffset offset && below (2 ^ 32) value
  | .prsIndGo req offset value _ => req.ok && wordOffset offset && below (2 ^ 32) value
  | .tcamIndGo req offset value _ => req.ok && wordOffset offset && below (2 ^ 32) value
  | .gclIndGo req offset value _ => req.ok && wordOffset offset && below (2 ^ 32) value
  | .polIndGo req offset value _ => req.ok && wordOffset offset && below (2 ^ 32) value
  | .laneIndGo req offset value => req.ok && wordOffset offset && below (2 ^ 32) value
  | .totIndGo req offset value _ => req.ok && wordOffset offset && below (2 ^ 32) value
  | .hbmIndGo req offset value _ => req.ok && wordOffset offset && below (2 ^ 32) value
  | .gmapDataRead req _ => req.ok
  | .sealIndDataRead req _ => req.ok
  | .mcIndDataRead req _ => req.ok
  | .ifrAddrWrite req offset value => req.ok && wordOffset offset && below (2 ^ 32) value
  | .cntAddrWrite req offset value => req.ok && wordOffset offset && below (2 ^ 32) value
  | .cntDataHiRead req _ => req.ok
  | .cntChainWrite req offset value => req.ok && wordOffset offset && below (2 ^ 32) value
  | .eventAck req offset value => req.ok && wordOffset offset && below (2 ^ 32) value
  | .tcamBlkWrite req offset value => req.ok && wordOffset offset && below (2 ^ 32) value
  | .ownCfgWrite req offset value => req.ok && wordOffset offset && below (2 ^ 32) value
  | .eqCreditWrite req offset value => req.ok && wordOffset offset && below (2 ^ 32) value
  | .shaperEnable req offset value => req.ok && wordOffset offset && below (2 ^ 32) value
  | .shaperRateWrite req offset value => req.ok && wordOffset offset && below (2 ^ 32) value
  | .gclArm req offset value => req.ok && wordOffset offset && below (2 ^ 32) value
  | .gclWithdraw req offset value => req.ok && wordOffset offset && below (2 ^ 32) value
  | .gclTakeover port => below 256 port
  | .gateEntryChange port _ => below 256 port
  | .glbLockWrite req offset value => req.ok && wordOffset offset && below (2 ^ 32) value
  | .boardIdWrite req offset value => req.ok && wordOffset offset && below (2 ^ 32) value
  | .tagSeedWrite req offset value => req.ok && wordOffset offset && below (2 ^ 32) value
  | .resetWp req offset value => req.ok && wordOffset offset && below (2 ^ 32) value
  | .trcCfgWrite req offset value => req.ok && wordOffset offset && below (2 ^ 32) value
  | .traceBlockClose => true
  | .registerWrite req _ _ offset value => req.ok && below (2 ^ 26) offset && below (2 ^ 64) value
  | .glbResetReq req offset value => req.ok && wordOffset offset && below (2 ^ 32) value
  | .hbmRetireWrite req offset value => req.ok && wordOffset offset && below (2 ^ 32) value
  | .standbyRequest req offset value => req.ok && wordOffset offset && below (2 ^ 32) value
  | .standbyIdle => true
  | .standbyAbandoned => true
  | .wake req offset value _ => req.ok && wordOffset offset && below (2 ^ 32) value
  | .macroPowerDown req offset value => req.ok && wordOffset offset && below (2 ^ 32) value
  | .macroPowerUp req offset value => req.ok && wordOffset offset && below (2 ^ 32) value
  | .chipletPowerDown req offset value => req.ok && wordOffset offset && below (2 ^ 32) value
  | .chipletPowerUp req offset value => req.ok && wordOffset offset && below (2 ^ 32) value
  | .stackPowerDown req offset value => req.ok && wordOffset offset && below (2 ^ 32) value
  | .deviceStart _ => true
  | .startFailTimeout => true
  | .powerOnReset => true
  | .watchdogExpire => true
  | .supplyFault _ value => below (2 ^ 32) value
  | .sensorPoll _ _ => true
  | .pmbusPoll _ => true
  | .tamperAssert => true
  | .tamperRelease => true
  | .info mbx => below 4 mbx
  | .logRead mbx => below 4 mbx
  | .certRead mbx => below 4 mbx
  | .attest mbx => below 4 mbx
  | .sensorRead mbx => below 4 mbx
  | .imgBegin mbx => below 4 mbx
  | .imgData mbx => below 4 mbx
  | .imgEnd mbx => below 4 mbx
  | .imgConfirm mbx _ => below 4 mbx
  | .lifecycle mbx _ => below 4 mbx
  | .reset mbx => below 4 mbx
  | .boardWrite mbx => below 4 mbx
  | .logFlush => true
  | .hbmRecal pc _ _ _ => below 128 pc
  | .hbmCaParity channel _ _ => below 64 channel
  | .hbmRefresh pc => below 128 pc
  | .patrolScrub pc _ => below 128 pc
  | .mergeRegisterRelease _ => true
  | .coldHomeWritten _ => true
  | .secondBurstRead _ _ => true
  | .listRebuildDone slice => below 8 slice
  | .statisticsWindowEnd => true
  | .chainAck dev _ => below 64 dev
  | .chainCredit port => below 2 port
  | .enumerationComplete devices _ => below 65 devices
  | .prbsLock lane _ => below 256 lane
  | .prbsLostLock lane _ => below 256 lane
  | .periodicInjection lane => below 256 lane
  | .rxLpiExit port => below 256 port
  | .crystalLoss => true
  | .crystalReturn => true
  | .attentionWaitLimit => true
  | .closeWaitLimit => true
  | .tapInstruction _ => true
  | .suppliesRemoved => true

end Sys2Proof
end

