-- ==== Sys2Proof/Tests/Slice0.lean ====
section
/-! SUPPORT. Tests: for every statement with hypotheses a witness that meets them, clause by clause and at the bounds of
ranges; a term that each check of well-formedness refuses; and small tests of single commands, their expected results
taken from the chapters of the spec that they name. -/

namespace Sys2Proof.Tests

set_option Elab.async false

open Machine

/-- A device that has come up: the state after reset with its start done and every power domain up. -/
def base : State := { State.reset with
  rim := { RimState.reset with started := true, startDone := true }
  skein := { State.reset.skein with initDone := true }
  power := { PowerState.reset with macros := 2 ^ 32 - 1, chiplets := 255, stackPwr := 15 } }

/-- The state a command answers (the same state where it answers none). -/
def run (c : Instr) (s : State) : State := match exec c s with | .next t => t | _ => s

/-- The program processor at host port 0. -/
def host0 : Requester := ⟨0, false⟩

/-- A 32-bit write of a register by it. -/
def put (r : RegName) (ix : List Nat) (v : Nat) (s : State) : State := run (.registerWrite host0 true .w32 (r.addr ix) v) s

/-- A state whose served time is one second. -/
def atOneSecond (s : State) : State := { s with time := { s.time with served := 1000000000 * 2 ^ 32 } }

/-- A state whose served time is two seconds. -/
def atTwoSeconds (s : State) : State := { s with time := { s.time with served := 2000000000 * 2 ^ 32 } }

theorem inv_base : Inv base :=
  ⟨by unfold OtpBounds; decide +kernel, by unfold CountersFit; decide +kernel, by unfold FixedParts; decide +kernel,
   by unfold FramesListed; decide +kernel, by unfold ImagesKept; decide +kernel⟩

theorem witness_StepRunsTheFrontCommand : base.pending = [] := by decide +kernel
/-- The base device with a command waiting. -/
def ticking : State := { base with pending := [.serveTick, .powerOnReset] }
theorem inv_ticking : Inv ticking := ⟨inv_base.otp, inv_base.counters, inv_base.parts, inv_base.frames, inv_base.images⟩
theorem witness_EveryStepKeepsTheInvariant : Inv ticking ∧ ∃ t, step ticking = .next t := ⟨inv_ticking, _, rfl⟩
theorem witness_OneTimeMemoryOnlyBurns : ∃ t, step { base with pending := [.powerOnReset] } = .next t := ⟨_, rfl⟩
theorem witness_PlainWriteLandsInItsShadow :
    (RegName.addr .scratch [0]) % 4 = 0 ∧ (2 ^ 32 - 1 : Nat) < 2 ^ 32 ∧ plainReg .scratch = true ∧
    Reaches base host0 (RegName.addr .scratch [0]) .scratch [0] := by unfold Reaches; decide +kernel
theorem witness_RefusedAccessesRaiseTheirKind :
    RegName.addr .idPart [] % 4 = 0 ∧ RegName.addr .idPart [] ≠ RegName.addr .glbResetReq [] ∧
    judgeWrite base host0 (RegName.addr .idPart []) = .error 3 := by decide +kernel
theorem witness_AcknowledgingClearsWhatWasSeen :
    Reaches base host0 (RegName.addr .lineEvent [0]) .lineEvent [0] ∧ hasSeq .lineEvent = true ∧
    (let e := eventAt base (RegName.addr .lineEvent [0])
     let behind (x : Nat) : Nat := (e.seq + 65536 - x % 65536) % 65536
     behind 0 = 0 ∧ behind (65536 - 32767) = 32767) := by unfold Reaches; decide +kernel
theorem witness_AcknowledgementOutOfRange :
    Reaches base host0 (RegName.addr .lineEvent [0]) .lineEvent [0] ∧ hasSeq .lineEvent = true ∧
    RegName.addr .lineEvent [0] ≠ RegName.addr .accEvent [] ∧
    32767 < ((eventAt base (RegName.addr .lineEvent [0])).seq + 65536 - 2 ^ 31 / 65536 % 65536) % 65536 := by
  unfold Reaches; decide +kernel
theorem witness_IfrAddrSamples :
    Reaches base host0 (RegName.addr .ifrAddr []) .ifrAddr [] ∧
    (let v := RegName.addr .scratch [0]
     let target := bits v 25 2 * 4
     let u := landWrite base .ifrAddr [] v
     locate target = some (.scratch, [0]) ∧ domainUp base target = true ∧ mayRead u .scratch [0] host0.id = true) := by
  unfold Reaches; decide +kernel

/-- SET operands at their bounds: 999,999,999 ns. -/
def setOperands : State := put .tdNs [1] 999999999 base
/-- RATE operands at the upper limit. -/
def rateHigh : State := put .tdRateFrac [1] 0xCCD20AFA base
/-- RATE operands at the lower limit. -/
def rateLow : State := put .tdRateFrac [0] 0xCCC78EA0 base
/-- RATE operands one below the lower limit. -/
def rateUnder : State := put .tdRateFrac [1] 0xCCC78E9F base
/-- RATE operands one above the upper limit. -/
def rateOver : State := put .tdRateFrac [0] 0xCCD20AFB base

theorem witness_DomainOperations :
    base.time.domains.length = 2 ∧ bit (9 * 2 ^ 28) 31 = true ∧ bit (10 * 2 ^ 28) 31 = true ∧ bit (11 * 2 ^ 28) 31 = true ∧
    bits (9 * 2 ^ 28) 30 28 = 1 ∧ bits (10 * 2 ^ 28) 30 28 = 2 ∧ bits (11 * 2 ^ 28) 30 28 = 3 ∧
    (Reaches setOperands host0 (RegName.addr .tdCtl [1]) .tdCtl [1] ∧ inForce setOperands .tdNs [1] = 999999999) ∧
    Reaches base host0 (RegName.addr .tdCtl [0]) .tdCtl [0] ∧
    (Reaches rateHigh host0 (RegName.addr .tdCtl [1]) .tdCtl [1] ∧
      inForce rateHigh .tdRateFrac [1] + inForce rateHigh .tdRateInt [1] * 2 ^ 32 = 0xCCD20AFA) ∧
    (Reaches rateLow host0 (RegName.addr .tdCtl [0]) .tdCtl [0] ∧
      inForce rateLow .tdRateFrac [0] + inForce rateLow .tdRateInt [0] * 2 ^ 32 = 0xCCC78EA0) := by
  unfold Reaches; decide +kernel
theorem witness_RateLimits :
    (Reaches rateOver host0 (RegName.addr .tdCtl [0]) .tdCtl [0] ∧
      0xCCD20AFA < inForce rateOver .tdRateFrac [0] + inForce rateOver .tdRateInt [0] * 2 ^ 32) ∧
    Reaches rateUnder host0 (RegName.addr .tdCtl [1]) .tdCtl [1] ∧
    inForce rateUnder .tdRateFrac [1] + inForce rateUnder .tdRateInt [1] * 2 ^ 32 < 0xCCC78EA0 := by
  unfold Reaches; decide +kernel
theorem witness_SourcesMoveNoTime :
    Reaches base host0 (RegName.addr .timeCtl []) .timeCtl [] ∧ bit (2 ^ 31) 30 = false ∧
    bits (2 ^ 31) 31 31 ≠ selDomain base ∧ bits 1 31 31 = selDomain base ∧ base.time.holdover = false ∧
    (run .timeRefLoss base).time.holdover = true := by unfold Reaches; decide +kernel

/-- Served time ahead of both domains. -/
def servedAhead : State := { base with time := { base.time with served := 1 } }
/-- A Skein that holds a valid record. -/
def recordHeld : State := { base with skein := { base.skein with ways := [(0, { WayEntry.free with valid := true })] } }

theorem witness_ServedSet :
    (Reaches base host0 (RegName.addr .timeCtl []) .timeCtl [] ∧ bit (2 ^ 30) 30 = true ∧ base.time.set = false ∧
      base.time.served ≤ (domainAt base 0).timeAt base.time.tick ∧ base.skein.ways = []) ∧
    (run (.servedSet host0 (RegName.addr .timeCtl []) (2 ^ 30)) base).time.set = true ∧
    (domainAt servedAhead 0).timeAt servedAhead.time.tick < servedAhead.time.served ∧
    (∃ w ∈ recordHeld.skein.ways, w.2.valid = true) := by unfold Reaches; decide +kernel
theorem witness_TickMovesTime :
    base.rim.hold = 0 ∧ base.time.set = false ∧
    (let s := run (.servedSet host0 (RegName.addr .timeCtl []) (2 ^ 30)) base
     s.rim.hold = 0 ∧ s.time.set = true ∧ 0 < (domainAt s (selDomain s)).rate) := by decide +kernel

/-- Pin 3 with START one second ahead, period 1 ms and width 1 µs written. -/
def pulseAhead : State := put .toutStartSlo [3] 1 (put .toutPeriod [3] 1000000 (put .toutWidth [3] 1000 base))
/-- The same with a periodic schedule armed. -/
def pulseArmed : State := run (.toutArm host0 (RegName.addr .toutCtl [3]) (2 ^ 31 + 2 ^ 30)) pulseAhead
/-- The periodic schedule running. -/
def pulseRuns : State := run (.atTimeApply (RegName.addr .toutCtl [3])) (atOneSecond pulseArmed)

theorem witness_PulseSchedules :
    base.time.outs.length = 4 ∧
    ((pinAt (atOneSecond pulseArmed) 3).pending.map (fun c => (c.start, c.mode)) = some (1000000000, 2) ∧
      servedNow (atOneSecond pulseArmed) = 1000000000) ∧
    (Reaches pulseAhead host0 (RegName.addr .toutCtl [3]) .toutCtl [3] ∧ bit (2 ^ 31 + 2 ^ 30) 31 = true ∧
      servedNow (atOneSecond pulseAhead) = (pulseOf (atOneSecond pulseAhead) 3 (2 ^ 31 + 2 ^ 30)).start ∧
      (pulseOf pulseAhead 3 (2 ^ 31 + 2 ^ 30)).start < servedNow (atTwoSeconds pulseAhead)) ∧
    Reaches base host0 (RegName.addr .toutCtl [0]) .toutCtl [0] ∧ bit 0 31 = false := by unfold Reaches; decide +kernel
/-- Edges of both kinds captured on pin 3. -/
def captures : State := put .tinCtl [3] (7 * 2 ^ 29) base
theorem witness_PulsesCapturesAndSnapshot :
    base.time.outs.length = 4 ∧ base.time.ins.length = 4 ∧
    ((pinAt pulseRuns 3).running.isSome = true ∧ (pinAt pulseRuns 3).next ≤ servedNow pulseRuns ∧
      (pinAt pulseRuns 3).ends = none) ∧
    (inSelects captures 3 true = true ∧ inSelects captures 3 false = true ∧ fld captures .tinCtl [3] 28 28 = 0 ∧
      (inAt captures 3).queue.length < 16) ∧
    (Reaches captures host0 (RegName.addr .tinPop [3]) .tinPop [3] ∧ bit 1 0 = true) ∧
    Reaches base host0 (RegName.addr .snapCtl []) .snapCtl [] ∧ bit (2 ^ 31) 31 = true := by unfold Reaches; decide +kernel
/-- R341: a schedule armed before its START waits, and runs once served time reaches it. -/
theorem test_pulse_runs : (pinAt pulseArmed 3).running = none ∧ (pinAt pulseRuns 3).running.isSome = true ∧
    (pinAt pulseRuns 3).pending = none := by decide +kernel
/-- R342: a capture of a falling edge joins the queue as edge kind 2. -/
theorem test_capture : (inAt (run (.timeInEdge 3 false) captures) 3).queue.map (fun c => (c.tick, c.edge)) = [(0, 2)] := by
  decide +kernel

/-- GO with WRITE. -/
def goWrite : Nat := 3 * 2 ^ 30
/-- The last parse step entry selected in slice 7. -/
def lastStep : State := put .prsIndAddr [7] 2047 base
/-- The last transition entry selected in slice 7. -/
def lastTrans : State := put .prsIndAddr [7] 4095 base
/-- Lane 255's setting of index 4 selected. -/
def lastSetting : State := put .laneIndAddr [255] 4 base
/-- A total of the epoch being accumulated selected. -/
def totalSelected : State := put .totIndAddr [] 0 { base with lid := { base.lid with opened := true, lastSealed := some Epoch.zero } }
/-- The last line of pseudo-channel 127 selected, which serves. -/
def lineSelected : State := put .hbmIndAddr [] (127 * 2 ^ 23 + 6291455) { base with hbm := { base.hbm with trainDone := true } }

theorem witness_WindowWrites :
    bit goWrite 31 = true ∧ bit goWrite 30 = true ∧ base.rules.commit = none ∧
    (Reaches lastStep host0 (RegName.addr .prsIndCtl [7]) .prsIndCtl [7] ∧ bits goWrite 29 28 = 0 ∧
      fld lastStep .prsIndAddr [7] 15 0 = 2047 ∧ stepFine (ofWords ((dataWords lastStep .prsIndData [7] 12).take 4)) = true ∧
      (stepEntry (sliceAt lastStep 7) 2047).vis = 0) ∧
    (Reaches lastTrans host0 (RegName.addr .prsIndCtl [7]) .prsIndCtl [7] ∧ bits (goWrite + 2 ^ 28) 29 28 = 1 ∧
      fld lastTrans .prsIndAddr [7] 15 0 = 4095 ∧ transFine (ofWords ((dataWords lastTrans .prsIndData [7] 12).take 2)) = true ∧
      (transEntry (sliceAt lastTrans 7) 4095).vis = 0) ∧
    (Reaches base host0 (RegName.addr .polIndCtl []) .polIndCtl [] ∧
      ((List.range 5).map (fun k => inForce base .polIndData [k])).getD 1 0 ≤
        ((List.range 5).map (fun k => inForce base .polIndData [k])).getD 2 0) ∧
    (Reaches base host0 (RegName.addr .gclIndCtl [7, 31]) .gclIndCtl [7, 31] ∧ (egAt base 255).gate.pending = none ∧
      (egAt base 255).gate.oper < 2) ∧
    (Reaches lastSetting host0 (RegName.addr .laneIndCtl [255]) .laneIndCtl [255] ∧
      fld lastSetting .laneIndAddr [255] 31 28 = 0 ∧ fld lastSetting .laneIndAddr [255] 7 0 = 4 ∧
      (portAt lastSetting (portOfLane lastSetting 255)).state ≠ 1) := by unfold Reaches; decide +kernel
theorem witness_WindowReads :
    bit (2 ^ 31) 31 = true ∧ bit (2 ^ 31) 30 = false ∧
    (Reaches lastStep host0 (RegName.addr .prsIndCtl [7]) .prsIndCtl [7] ∧ fld lastStep .prsIndAddr [7] 15 0 = 2047) ∧
    Reaches base host0 (RegName.addr .tcamIndCtl [7]) .tcamIndCtl [7] ∧
    (Reaches totalSelected host0 (RegName.addr .totIndCtl []) .totIndCtl [] ∧
      (let a := inForce totalSelected .totIndAddr []
       (totalsRead totalSelected (bits a 31 28) (bits a 27 26) (bits a 19 0) .ok).1 = 0)) ∧
    Reaches base host0 (RegName.addr .gclIndCtl [7, 31]) .gclIndCtl [7, 31] ∧
    Reaches base host0 (RegName.addr .polIndCtl []) .polIndCtl [] ∧
    Reaches lastSetting host0 (RegName.addr .laneIndCtl [255]) .laneIndCtl [255] ∧
    (Reaches lineSelected host0 (RegName.addr .hbmIndCtl []) .hbmIndCtl [] ∧
      (let a := inForce lineSelected .hbmIndAddr []
       bits a 22 0 = 6291455 ∧ bits a 29 23 = 127 ∧ pcServes lineSelected 127 = true)) := by unfold Reaches; decide +kernel
theorem witness_ReadDrivenWindows :
    running base = true ∧ base.rim.started = true ∧ fld base .sealIndAddr [] 8 0 ≠ 359 ∧ fld base .cntAddr [] 31 31 = 0 ∧
    (let s := put .cntAddr [] (2 ^ 31 + 8 * 2 ^ 24 + 1023) base
     running s = true ∧ fld s .cntAddr [] 31 31 = 1 ∧ fld s .cntAddr [] 27 24 = 8 ∧ fld s .cntAddr [] 9 0 = 1023) := by
  decide +kernel
theorem witness_CounterSample :
    running base = true ∧ Reaches base host0 (RegName.addr .cntAddr []) .cntAddr [] ∧ bits (2 ^ 32 - 1) 27 24 = 15 := by
  unfold Reaches; decide +kernel
theorem witness_ChainChange :
    Reaches base host0 (RegName.addr .cntChainDev [7]) .cntChainDev [7] ∧
    Reaches base host0 (RegName.addr .cntChainSl [7, 10]) .cntChainSl [7, 10] ∧ CountersFit base.counters := by
  unfold Reaches CountersFit; decide +kernel
theorem witness_GuardedWrites :
    Reaches base host0 (RegName.addr .glbLock []) .glbLock [] ∧ Reaches base host0 (RegName.addr .boardId [1]) .boardId [1] ∧
    Reaches base host0 (RegName.addr .tcamBlk [7, 31]) .tcamBlk [7, 31] ∧
    Reaches base host0 (RegName.addr .ownCfg0 [7, 2055]) .ownCfg0 [7, 2055] ∧
    Reaches base host0 (RegName.addr .eqCredit [255, 7]) .eqCredit [255, 7] := by unfold Reaches; decide +kernel
theorem witness_ShaperWrites :
    Reaches base host0 (RegName.addr .shqCfg [7, 255]) .shqCfg [7, 255] ∧ fld base .shqCfg [7, 255] 31 31 = 0 ∧
    bit (2 ^ 31) 31 = true ∧
    (let s := put .shqCfg [7, 255] (2 ^ 31) base
     Reaches s host0 (RegName.addr .shqCfg [7, 255]) .shqCfg [7, 255] ∧ fld s .shqCfg [7, 255] 31 31 = 1 ∧ bit 0 31 = false) ∧
    Reaches base host0 (RegName.addr .shqRate [7, 255]) .shqRate [7, 255] := by unfold Reaches; decide +kernel

/-- A gate list of port 255 armed for one second, enabled, of 1024 entries. -/
def gateArmed : State := run (.gclArm host0 (RegName.addr .gclAdmin [7, 31]) (3 * 2 ^ 30 + 1023 * 2 ^ 16)) (put .gclBaseSlo [7, 31] 1 base)
/-- The same with its base time come. -/
def gateReached : State :=
  modEg (atOneSecond gateArmed) 255 (fun e => { e with gate := { e.gate with pending := e.gate.pending.map (fun c => { c with reached := true }) } })

theorem witness_GateLists :
    Reaches base host0 (RegName.addr .gclAdmin [7, 31]) .gclAdmin [7, 31] ∧
    (let s := put .gclBaseSlo [7, 31] 1 base
     Reaches s host0 (RegName.addr .gclAdmin [7, 31]) .gclAdmin [7, 31] ∧ servedNow s < gclBase s [7, 31]) ∧
    ((egAt gateReached 255).gate.pending.map (fun c => (c.reached, c.enable, decide (takeoverAt (egAt gateReached 255).gate c ≤ servedNow gateReached)))) = some (true, true, true) := by
  unfold Reaches; decide +kernel
/-- A trace block is due: as many records wait as a block may take. -/
def traceDue : State := { base with trace := { base.trace with queue := List.replicate 100 (0, zeros 64) } }
theorem witness_TaggingAndTrace :
    Reaches base host0 (RegName.addr .tagSeed [7]) .tagSeed [7] ∧ Reaches base host0 (RegName.addr .trcCfg []) .trcCfg [] ∧
    bit (2 ^ 26) 26 = true ∧ running traceDue = true ∧ blockDue traceDue = true := by unfold Reaches; decide +kernel

/-- The last port, in mode 0 a port of one lane. -/
def lastPort : Nat := 255
/-- A port's state set. -/
def withPort (p : Nat) (x : PortState) (s : State) : State := { s with line := { s.line with ports := tins s.line.ports p x } }
/-- A lane's state set. -/
def withLane (l : Nat) (x : LaneState) (s : State) : State := { s with line := { s.line with lanes := tins s.line.lanes l x } }
/-- A tick counter set. -/
def atTick (n : Nat) (s : State) : State := { s with time := { s.time with tick := n } }
/-- An UP port. -/
def upPort : PortState := { PortState.reset with state := 2 }
/-- A port in its first attempt of TRAINING since tick 0. -/
def training : PortState := { PortState.reset with state := 1, attempts := 1, attempting := true }
/-- EN 1 in force at the last port. -/
def portOn : State := put .portCtl [lastPort] (2 ^ 31) base
/-- A lane at the FOM floor. -/
def goodLanes : List LaneResult := [⟨144 * 8192, true, true, false, [.preset 3], [(0, 7)]⟩]
/-- A lane below the floor. -/
def weakLanes : List LaneResult := [⟨144 * 8192 - 1, true, true, false, [], []⟩]

theorem witness_PortControl :
    isPort base lastPort = true ∧ Reaches base host0 (RegName.addr .portCtl [lastPort]) .portCtl [lastPort] ∧
    (bit (2 ^ 31) 31 = true ∧ bit (2 ^ 31) 30 = false ∧ bit (2 ^ 31) 29 = false ∧ fld base .portCtl [lastPort] 31 31 = 0 ∧
      (portAt base lastPort).state = 0 ∧ (portAt base lastPort).cause = 0 ∧ macroUp base (lastPort / 8) = true ∧
      anyTest base lastPort = false ∧ anyTest (withLane 255 { LaneState.reset with inTest := true } base) lastPort = true) ∧
    (let s := run (.linkDrop lastPort 4) portOn
     let up := withPort lastPort upPort portOn
     let spent := withPort lastPort { PortState.reset with cause := 1 } portOn
     (Reaches portOn host0 (RegName.addr .portCtl [lastPort]) .portCtl [lastPort] ∧ fld portOn .portCtl [lastPort] 31 31 = 1 ∧
       (portAt portOn lastPort).state = 1 ∧ (portAt s lastPort).state ≠ 0) ∧
     (fld spent .portCtl [lastPort] 31 31 = 1 ∧ (portAt spent lastPort).state = 0 ∧ (portAt spent lastPort).cause = 1) ∧
     ((portAt up lastPort).state = 2 ∧ Reaches up host0 (RegName.addr .portCtl [lastPort]) .portCtl [lastPort] ∧
       bit (2 ^ 31 + 2 ^ 29) 29 = true ∧ bit (2 ^ 31 + 2 ^ 30) 30 = true)) := by unfold Reaches; decide +kernel
theorem witness_Attempts :
    isPort base lastPort = true ∧
    (let waits := withPort lastPort { training with attempting := false } (atTick 12500000 base)
     (portAt waits lastPort).state = 1 ∧ (portAt waits lastPort).attempting = false ∧
       (portAt waits lastPort).since + 12500000 ≤ waits.time.tick) ∧
    (let s := withPort lastPort training (atTick (500 * 1250000) base)
     (portAt s lastPort).state = 1 ∧ (portAt s lastPort).attempting = true ∧ loopOf s lastPort ≠ 3 ∧
     goodLanes.length = portLanes s lastPort ∧ weakLanes.length = portLanes s lastPort ∧
     (∀ r ∈ goodLanes, fld s .portTrain [lastPort] 23 16 ≤ fomOf r.snr) ∧
     (∃ r ∈ weakLanes, fomOf r.snr < fld s .portTrain [lastPort] 23 16) ∧
     anDone s lastPort [(0, 1)] = false ∧ anDone s lastPort [(0, 0)] = true ∧ anDone portOn lastPort [] = true ∧
     max 1 (fld s .portTrain [lastPort] 31 28) ≤ (portAt (withPort lastPort { training with attempts := 3 } s) lastPort).attempts ∧
     (portAt s lastPort).attempts < max 1 (fld s .portTrain [lastPort] 31 28) ∧
     (portAt s lastPort).since + max 100 (fld s .portTrain [lastPort] 15 0) * 1250000 ≤ s.time.tick ∧
     (let u := atTick (500 * 1250000 - 1) s
      u.time.tick < (portAt u lastPort).since + max 100 (fld u .portTrain [lastPort] 15 0) * 1250000)) := by decide +kernel
theorem witness_LinkDrops :
    (let s := withPort lastPort upPort (atTick 1250000 base)
     CountersFit s.counters ∧ portUp s lastPort = true ∧ nearLoop s lastPort = false ∧ (portAt s lastPort).since + 1250000 ≤ s.time.tick ∧ running s = true ∧
     (fld s .portFec [lastPort] 15 0 = 0 ∨ (portAt s lastPort).uncorr + 0 ≤ fld s .portFec [lastPort] 15 0) ∧
     (let f := put .portFec [lastPort] 1 s
      CountersFit f.counters ∧ portUp f lastPort = true ∧ fld f .portFec [lastPort] 15 0 = 1 ∧ (portAt f lastPort).uncorr + 2 > 1)) := by
  unfold CountersFit; decide +kernel
/-- The last port leaving low-power idle since tick 0, at tick n. -/
def lpiWaits (n : Nat) : State := atTick n (withPort lastPort { upPort with readySince := some 0 } base)
theorem lpi_reads (n : Nat) : fld (lpiWaits n) .portLpi [lastPort] 15 0 = fld base .portLpi [lastPort] 15 0 ∧
    modeOf (lpiWaits n) lastPort = modeOf base lastPort := by
  constructor
  · unfold fld inForce regCell; rfl
  · unfold modeOf fld inForce regCell; rfl
theorem witness_LowPowerIdle :
    (let s := put .portCtl [lastPort] (2 ^ 31 + 2 ^ 25) (atTick (65536 * 1250) (withPort lastPort upPort base))
     portUp s (portOfLane s 255) = true ∧ frozen s 255 = false ∧ portUp s lastPort = true ∧ nearLoop s lastPort = false ∧
     fld s .portCtl [lastPort] 25 25 = 1 ∧ portBusy s lastPort = false ∧ (egAt s lastPort).gate.running = false ∧
     (portAt s lastPort).idleSince + max 1 (fld s .portLpi [lastPort] 31 16) * 1250 ≤ s.time.tick) ∧
    (∀ n, (portAt (lpiWaits n) lastPort).readySince = some 0) ∧
    ∃ n, 0 + max (fld (lpiWaits n) .portLpi [lastPort] 15 0) (Config.pcsWakeUs (modeOf (lpiWaits n) lastPort)) * 1250 ≤
      (lpiWaits n).time.tick := by
  refine ⟨by decide +kernel, fun n => rfl, max (fld base .portLpi [lastPort] 15 0) (Config.pcsWakeUs (modeOf base lastPort)) * 1250, ?_⟩
  rw [Nat.zero_add, (lpi_reads _).1, (lpi_reads _).2]
  exact Nat.le_of_eq (Eq.refl (lpiWaits _).time.tick)
theorem witness_ModesAndLoops :
    Reaches base host0 (RegName.addr .macroMode [31]) .macroMode [31] ∧
    (bits 9 3 0 ≤ 9 ∧ allFailed base 31 = true ∧ macroUp base 31 = true) ∧ 9 < bits 10 3 0 ∧
    (let s := withPort lastPort upPort base
     allFailed s 31 = false ∧ Reaches s host0 (RegName.addr .macroMode [31]) .macroMode [31] ∧
     Reaches s host0 (RegName.addr .laneCfg [lastPort]) .laneCfg [lastPort] ∧ portOfLane s lastPort = lastPort ∧
     (portAt s lastPort).state = 2 ∧ bits (3 * 2 ^ 27) 28 27 ≠ fld s .laneCfg [lastPort] 28 27) ∧
    Reaches base host0 (RegName.addr .laneCfg [255]) .laneCfg [255] ∧ (portAt base (portOfLane base 255)).state ≠ 2 := by
  unfold Reaches; decide +kernel
/-- A lane in test whose generator and checker run, with periodic injection. -/
def tested : State :=
  withLane 255 { LaneState.reset with inTest := true } (put .laneTest [255] (2 ^ 30 + 2 ^ 29 + 2 * 2 ^ 17) base)
/-- 64 bits of PRBS7 from all ones (x^7 + x^6 + 1, Table 11-10) as Gray-mapped symbols. -/
def prbs7 : List Nat := [2, 2, 2, 3, 0, 0, 1, 0, 0, 1, 3, 0, 1, 1, 0, 1, 2, 3, 1, 0, 1, 1, 3, 1, 2, 1, 1, 0, 2, 2, 3, 3]
theorem witness_PrbsTest :
    Reaches base host0 (RegName.addr .laneTest [255]) .laneTest [255] ∧
    (bit (2 ^ 31) 28 = false ∧ bit (2 ^ 31) 27 = false ∧ bit (2 ^ 31) 31 = true ∧ (laneAt base 255).inTest = false ∧ (laneAt base 255).lock = false ∧
      (portAt base (portOfLane base 255)).state = 0 ∧ (portAt portOn (portOfLane portOn 255)).state ≠ 0 ∧
      Reaches portOn host0 (RegName.addr .laneTest [255]) .laneTest [255]) ∧
    (Reaches tested host0 (RegName.addr .laneTest [255]) .laneTest [255] ∧ (laneAt tested 255).inTest = true) ∧
    (bit (9 * 2 ^ 28) 28 = true ∧ bit (9 * 2 ^ 28) 27 = false ∧ bit (9 * 2 ^ 28) 31 = true) ∧
    (let v := 2 ^ 31 + 2 ^ 30 + 2 ^ 27 + 2 ^ 17
     bit v 28 = false ∧ bit v 27 = true ∧ bit v 31 = true ∧ bit v 30 = true ∧ bits v 18 17 = 1) ∧
    (fld tested .laneTest [255] 30 30 = 1 ∧ fld tested .laneTest [255] 18 17 = 2 ∧ fld tested .laneTest [255] 29 29 = 1 ∧
      (laneAt tested 255).lock = false ∧ (laneAt (atTick 6170 tested) 255).injDone < injectionsDue (atTick 6170 tested) 255 ∧
      seesPattern tested 255 prbs7 = true) ∧ (laneAt (run (.prbsLock 255 prbs7) tested) 255).lock = true := by
  unfold Reaches; decide +kernel
/-- R358: a write of EN 1 over EN 0 starts the first attempt of a run. -/
theorem test_port_enable : (portAt portOn lastPort).state = 1 ∧ (portAt portOn lastPort).attempts = 1 := by decide +kernel
/-- R354: an attempt whose every part succeeds brings the port up. -/
theorem test_port_up : (portAt (run (.portAttemptEnd lastPort [(0, 0)] true true goodLanes) portOn) lastPort).state = 2 := by
  decide +kernel

/-- A UDP packet in an Ethernet frame of 64 bytes, its FCS left out. -/
def udpBytes : List Byte :=
  [2, 0, 0, 0, 0, 1, 2, 0, 0, 0, 0, 2, 8, 0,
   0x45, 0, 0, 46, 0, 1, 0, 0, 64, 17, 0x66, 0xbc, 10, 0, 0, 1, 10, 0, 0, 2,
   0x10, 0, 0x20, 0, 0, 26, 0, 0] ++ zeros 18
/-- The whole frame. -/
def udpFrame : List Byte := udpBytes ++ le 4 (crc32 udpBytes)
/-- The same with a header checksum that is one off. -/
def badBytes : List Byte := patch udpBytes 24 [0x66, 0xbd]
def badFrame : List Byte := badBytes ++ le 4 (crc32 badBytes)
/-- A device with the last port UP, whose zone 0 routes to next hop 1, the last port. -/
def tables : Table Nat := [(0, 2 ^ 63 + 2 ^ 62 + 2 ^ 59 + 2 ^ 23), (2 ^ 20 + 1, 2 ^ 95 + 255 * 2 ^ 72 + 7), (3 * 2 ^ 20 + 255, 2 ^ 63 + 2 ^ 48 + 9)]
def lineUp : State := withPort lastPort upPort { base with rules := { base.rules with baseWest := tables, baseEast := tables } }
/-- The frame received, its head parsed, classified and looked up. -/
def received : State := run (.frameReceive lastPort udpFrame false) lineUp
def parsed : State := run (.headParse 7 none) received
def classified : State := run (.classify 0 ⟨[], [], [], false, []⟩) parsed
def tagAsked : State := run (.flowLookup 0 ⟨[], [], [], false, false, false⟩) classified
def fullMissed : State := run (.tagLineRead 0 .ok []) tagAsked
def learnAsked : State := run (.learnRequest 0) fullMissed
def learned : State := run (.fitchLearn []) learnAsked
def rewritten : State := run (.rewrite 0 []) learned
/-- The first frame of a state. -/
def frame0 (s : State) : Frame := (frameAt s 0).getD (Frame.fresh 0 0 0 [] 0 0)
/-- The frame's state changed. -/
def withFrame (f : Frame → Frame) (s : State) : State := modFrame s 0 f
/-- The frame held in cells, its tail good; the unit that carries it in flight; the frame at its egress queue, picked, sent. -/
def admitted : State := run (.cellAdmit 7 []) (run (.frameTail 0) rewritten)
def matched : State := withFrame (fun f => { f with refs := 0, cellList := [] }) (modStore { admitted with wale := { admitted.wale with flight := [⟨7, 2040, [⟨0, 64, true, false⟩]⟩] } } 7 (fun c => { c with voq := [], used := [], freed := [0] }))
def arrived : State := run (.unitArrive 7 255 0) matched
def picked : State := run (.egressPick 255 none) arrived
def sent : State := run (.frameSent 255) (atTick 1000 picked)
/-- Zone 0 bridged, VLAN 1 valid, the frame's source known on its port and its destination on port 0. -/
def bridged : State :=
  let t : Table Nat := [(0, 2 ^ 63 + 2 ^ 60), (3 * 2 ^ 20 + 255, 2 ^ 63 + 2 ^ 48 + 9)]
  let m := tins (tins [] (macBucket 1 0x020000000002 * 4) ⟨1, 0x020000000002, 255, false, false⟩)
    (macBucket 1 0x020000000001 * 4 + 3) ⟨1, 0x020000000001, 0, false, false⟩
  modSlice { parsed with rules := { parsed.rules with baseWest := t, baseEast := t } } 7
    (fun x => { x with vlanBase := [(1, 2 ^ 511)], mac := m })
/-- A ternary entry of block 31 that every key matches, verdict deny-override. -/
def anyEntry : TcamEntry := ⟨0, 0, 1, 0, true, false, 15, true, 2 ^ 63 + 3 * 2 ^ 61⟩
/-- The frame parsed on a port that searches lookup 15, which block 31 of the slice serves. -/
def searched : State :=
  let s := modSlice parsed 7 (fun x => { x with tcam := [(32767, anyEntry)] })
  { s with regs := { s.regs with cells := tins s.regs.cells (RegName.addr .tcamBlk [7, 31]) ⟨0x8F#32, 0x8F#32, false⟩, columns := [(RegName.addr .tcamPort [7, 31] * 4, 0x8000#32)] } }

theorem witness_ReceiveChecks :
    portUp lineUp lastPort = true ∧ loopOf lineUp lastPort = 0 ∧ (List.replicate 63 (0 : Byte)).length < 64 ∧
    (64 ≤ udpFrame.length ∧ 512 ≤ rxFree lineUp (lastPort / 8) ∧ udpFrame.length ≤ rxFree lineUp (lastPort / 8) ∧
      udpFrame.length ≤ maxFrame lineUp lastPort) ∧
    (let full := withFrame (fun f => { f with rxLen := 131072 - 511 }) received
     portUp full lastPort = true ∧ loopOf full lastPort = 0 ∧ rxFree full (lastPort / 8) = 511) ∧
    (let tight := withFrame (fun f => { f with rxLen := 131072 - 512 }) received
     portUp tight lastPort = true ∧ loopOf tight lastPort = 0 ∧ rxFree tight (lastPort / 8) = 512 ∧
       rxFree tight (lastPort / 8) < maxFrame tight lastPort ∧ 512 < (List.replicate 600 (0 : Byte)).length) ∧
    (let short := { lineUp with regs := { lineUp.regs with cells := tins lineUp.regs.cells (RegName.addr .portCtl [lastPort]) ⟨2 ^ 31, 2 ^ 31, false⟩ } }
     portUp short lastPort = true ∧ loopOf short lastPort = 0 ∧ maxFrame short lastPort = 64 ∧
       maxFrame short lastPort ≤ rxFree short (lastPort / 8) ∧ maxFrame short lastPort < (List.replicate 65 (0 : Byte)).length ∧ 512 ≤ rxFree short (lastPort / 8)) := by decide +kernel
theorem witness_FrameTails :
    (FramesListed received ∧ (frameAt received 0).isSome = true ∧ (frame0 received).tail = .pending ∧
      Nat.xor (crc32 (frame0 received).rx) (frame0 received).fcs = 0 ∧ (frame0 received).errored = false ∧ (frame0 received).stage = .received ∧
      (frame0 (withFrame (fun f => { f with tail := .pending }) admitted)).stage = .queued) ∧
    (let bad := withFrame (fun f => { f with fcs := Nat.xor f.fcs 0xFFFFFFFF }) received
     FramesListed bad ∧ Nat.xor (crc32 (frame0 bad).rx) (frame0 bad).fcs = 0xFFFFFFFF ∧ (frame0 bad).stage = .received) ∧
    (let held := withFrame (fun f => { f with tail := .pending, errored := true, cut := false }) admitted
     FramesListed held ∧ (frame0 held).stage = .queued ∧ (frame0 held).cut = false ∧ (frame0 held).count.posted = true ∧
       (frame0 held).count.settled = false ∧ (frame0 held).count.billable = true) := by
  unfold FramesListed; decide +kernel
/-- The frame with the bad checksum received, its reason's action 0, 1 or 2 in force. -/
def malformed (act : Nat) : State :=
  let s := run (.frameReceive lastPort badFrame false) lineUp
  { s with regs := { s.regs with columns := [(RegName.addr .malActLo [7] * 4, BitVec.ofNat 32 (act * 2 ^ 12))] } }
theorem witness_HeadParsing :
    (FramesListed received ∧ nextHead received 7 = some 0 ∧ waitStageFull received 7 = false ∧ enginesBusy received 7 = false ∧ (frameAt received 0).isSome = true ∧
      (frame0 received).looped = false ∧ ((runPass received 7 255 0 udpBytes none).head received 7 255 0 false).malReason = 0) ∧
    (let s := withFrame (fun f => { f with looped := true }) received
     nextHead s 7 = some 0 ∧ (frame0 s).looped = true) ∧
    (let s := malformed 2
     nextHead s 7 = some 0 ∧ (frame0 s).stage = .received ∧
       ((runPass s 7 255 0 badBytes none).head s 7 255 0 false).malReason = 6 ∧ malActionOf s 7 0 6 = 2 ∧
       malActionOf (malformed 1) 7 0 6 = 1 ∧ malActionOf (malformed 0) 7 0 6 = 0) ∧
    (let s := modSlice (withFrame (fun f => { f with stage := .recirculating, pass := 1 }) (malformed 0)) 7 (fun x => { x with recirc := [0] })
     nextHead s 7 = some 0 ∧ (frame0 s).stage ≠ .received) := by unfold FramesListed; decide +kernel
theorem witness_Classification :
    ((frameAt parsed 0).isSome = true ∧ (frame0 parsed).stage = .parsed ∧ (frame0 parsed).cls.done = false ∧
      (frame0 parsed).flowless = false ∧ fldV parsed .prsPortEntry [7, 31] 0 31 31 = 0 ∧
      fldV parsed .tcamPort [7, 31] 0 15 0 = 0 ∧ waitStageFull parsed 7 = false ∧ isBridged parsed (frame0 parsed) (dtFind parsed 7 0 0 0) = false) ∧
    (let f := frame0 bridged
     isBridged bridged f (dtFind bridged 7 0 0 0) = true ∧ fldV bridged .tcamPort [7, 31] 0 15 0 = 0 ∧ headVlan bridged f = some 1 ∧
     bit (vlanImage bridged 7 1 0) 511 = true ∧
     (macFind (sliceAt bridged 7) 1 (srcMac f.data)).map (fun e => e.2.port) = some f.port ∧
     dstMac f.data / 2 ^ 40 % 2 = 0 ∧ (macFind (sliceAt bridged 7) 1 (dstMac f.data)).map (fun e => e.2.port) = some 0) ∧
    (let f := frame0 searched
     let c0 : ClassInfo := { ClassInfo.zero with done := true, zoneImage := dtFind searched 7 0 0 0, natDst := natAddrOf searched f }
     fldV searched .tcamPort [7, 31] 0 15 0 = 2 ^ 15 ∧ isBridged searched f (dtFind searched 7 0 0 0) = false ∧
     winnerOf (sliceAt searched 7) ((placesOf searched 7 15).filter (placeMatches (sliceAt searched 7) (lookupDouble searched 7 15) 0
       (searchKey searched 7 15 0 { f with cls := c0 }.vector))) = some 32767 ∧
     bit (tcamAt (sliceAt searched 7) 32767).action 63 = true) := by decide +kernel
/-- The frame classified as routed, found by no record, its lookup done. -/
def flowless : State := withFrame (fun f => { f with lookup := .done, flowless := true }) classified
/-- The frame waiting for policer 0, the policer set so that it is off, on with full buckets, or on and empty with action drop. -/
def metered (word0 depth : Nat) : State :=
  let s := withFrame (fun f => { f with stage := .policing }) rewritten
  { s with egress := { s.egress with polWait := [0], policers := [(0, ⟨word0, 0, 0, depth, 0, ⟨depth * byteUnit, 0⟩, ⟨0, 0⟩, 0, false⟩)] } }
theorem witness_RewriteAndMeter :
    (FramesListed learned ∧ (frameAt learned 0).isSome = true ∧ (frame0 learned).stage = .parsed ∧ (frame0 learned).cls.done = true ∧
      (frame0 learned).lookup = .done) ∧
    (let denied := withFrame (fun f => { f with found := f.found.map (fun b => { b with action := { b.action with verdict := 1 } }) }) learned
     (actionResult (frame0 denied)).verdict = 1) ∧
    (let f := frame0 flowless
     let u := modFrame flowless 0 (fun f => { f with job := f.scanJob })
     FramesListed flowless ∧ f.found = none ∧ (actionResult f).verdict = 0 ∧ ownResult f.cls = .hop 1 ∧
     overtakes flowless 0 f Frame.inPasses = false ∧ nhUsable flowless f 1 = true ∧ nhKind (headDt flowless f 1 1) = 0 ∧ (actionResult f).recirc = false ∧
     (rewriteHead u f (profileOf u 7 (actionResult f).profile 0) (egressClass u f (actionResult f).profile) (.nh 1 (headDt flowless f 1 1))).toOption.isSome = true) ∧
    (let s := withFrame (fun f => { f with cls := { f.cls with merged := { f.cls.merged with recirc := true } } }) flowless
     (actionResult (frame0 s)).recirc = true ∧ (frame0 s).pass < fldV s .prsCfg [7] 0 1 0 ∧ (sliceAt s 7).recirc.length < 256) ∧
    ((frame0 (metered 0 0)).stage = .policing ∧ polNext (metered 0 0) 0 = some 0 ∧ polNext (metered (3 * 2 ^ 30) 64) 0 = some 0 ∧ (polAt (metered 0 0) (frame0 (metered 0 0)).result.policer).on = false ∧
     (let y := (polAt (metered (3 * 2 ^ 30) 64) 0).update 0
      (polAt (metered (3 * 2 ^ 30) 64) 0).on = true ∧ (y.meter (chargedLen 64 0)).1 = .green) ∧
     (let y := (polAt (metered (3 * 2 ^ 30) 63) 0).update 0
      (polAt (metered (3 * 2 ^ 30) 63) 0).on = true ∧ (y.meter (chargedLen 64 0)).1 = .red ∧ bits (3 * 2 ^ 30) 27 26 = 0)) := by
  unfold FramesListed; decide +kernel
/-- The frame queued for the deep scan of slice 7, with a context of its stream at offset 0. -/
def scanWaits : State :=
  modSlice (withFrame (fun f => { f with tail := .good, job := some ⟨zeros 18, f.head.d, none⟩, refs := 2, deepQueued := true }) learned) 7
    (fun x => { x with deepQueue := [0], deep := [⟨(frame0 learned).count.handle, (frame0 learned).head.d, 0, 0, [], 0, false, 0⟩] })
theorem witness_DeepScanning :
    (let s := scanWaits
     let f := frame0 s
     (sliceAt s 7).deepQueue = [0] ∧ (frameAt s 0).isSome = true ∧ f.slice = 7 ∧ f.tail = .good ∧ f.void = false ∧
     f.job.map DeepJob.seq = some none ∧ 2 ≤ f.refs ∧
     ((sliceAt s 7).deep.find? (fun c => c.serves f.count.handle f.head.d)).map DeepCtx.done = some false ∧
     fldV s .deepAct [7] f.version 31 0 = 0) := by decide +kernel
/-- Slice 7 with a learn of a station on port 255. -/
def learning (mac : Table MacEntry) : State := modSlice base 7 (fun x => { x with macQueue := [⟨1, 2, 255⟩], mac := mac })
theorem witness_StationsAndScrub :
    (macFind (sliceAt (learning []) 7) 1 2 = none ∧ (macFreeWay (sliceAt (learning []) 7) (macBucket 1 2)).isSome = true) ∧
    (macFind (sliceAt (learning [(macBucket 1 2 * 4, ⟨1, 2, 3, true, false⟩)]) 7) 1 2).isSome = true ∧
    fld base .l2Cfg [7] 31 16 ≠ 0 ∧ due base 10 = true := by decide +kernel
/-- 06/R191: a routed frame leaves with the next hop's destination and the egress port's source. -/
theorem test_rewrite_macs : (frame0 rewritten).data.take 12 = [0, 0, 0, 0, 0, 7, 0, 0, 0, 0, 0, 9] := by decide +kernel
/-- 08/R266: the frame that crossed leaves at its port, 64 bytes long. -/
theorem test_frame_leaves : sent.out.map (fun o => match o with | .frame p b => (p, b.length) | _ => (0, 0)) = [(255, 64)] ∧ sent.frames = [] := by
  decide +kernel

/-- A second frame of the same flow, classified; number 1. -/
def again : State := run (.classify 1 ⟨[], [], [], false, []⟩) (run (.headParse 7 none) (run (.frameReceive lastPort udpFrame false) { learned with frames := [] }))
/-- The frame of a number. -/
def frameOf (s : State) (id : Nat) : Frame := (frameAt s id).getD (Frame.fresh 0 0 0 [] 0 0)
def udpKey : Key := (frame0 parsed).head.key
/-- The second frame once the flow's record has left its merge register. -/
def hotThere : State := run (.mergeRegisterRelease 248976) (atTick 14 again)
/-- The second frame once no record is hot, its tag line read, and the record of its way read next. -/
def coldOnly : State := { again with skein := { again.skein with hot := [], merged := [] } }
def tagAgain : State := run (.flowLookup 1 ⟨[], [], [], false, false, false⟩) coldOnly
def wayAgain : State := run (.tagLineRead 1 .ok []) tagAgain
/-- No slots reserved for a pending key. -/
def unreserved (s : State) : State :=
  { s with skein := { s.skein with banks := s.skein.banks.map (fun e => (e.1, { e.2 with pending := e.2.pending.map (fun p => { p with victim := none }) })) } }
/-- The record's cold home holds another key. -/
def otherKey : State :=
  { wayAgain with skein := { wayAgain.skein with cold := wayAgain.skein.cold.map (fun e => (e.1, { e.2 with body := { e.2.body with key := { e.2.body.key with portL := 1 } } })) } }
/-- The flow's record evicted to its bank's write-back buffer. -/
def evicted : State := evictSet hotThere [248976]
/-- A hot slot of the flow's bucket's eight all reserved for other keys. -/
def unusable : State :=
  modBank coldOnly 30 (fun b => { b with pending := (List.range 8).map (fun i => ⟨{ Key.zero with portL := i }, true, some (248976 + i), 9, none, 0⟩) })

theorem witness_FlowLookups :
    ((frameAt hotThere 1).isSome = true ∧ (frameOf hotThere 1).stage = .parsed ∧ (frameOf hotThere 1).lookup = .toDo ∧
      missUsed hotThere 7 < 4096 ∧ behindHeld hotThere 1 (frameOf hotThere 1) = false ∧ (frameOf hotThere 1).head.key = udpKey ∧
      pendOf hotThere udpKey = none ∧ findWriteBack hotThere udpKey = none ∧ findHot hotThere udpKey = some 248976 ∧
      overtakes hotThere 1 (frameOf hotThere 1) (fun g => g.lookup == .toDo) = false ∧
      outOfTurn hotThere (frameOf hotThere 1) = false ∧ (frameOf hotThere 1).segment = none ∧ (frameOf hotThere 1).pass = 0 ∧
      (frameOf hotThere 1).count.posted = false ∧
      (hotAt hotThere 248976).map (fun r => (decide (hotOf hotThere r.idx = some (248976, r)), decide (r.bank = parity hotThere),
        hotFits r.counts (oneFrame true 64))) = some (true, true, true)) ∧
    ((frameOf coldOnly 1).lookup = .toDo ∧ findHot coldOnly udpKey = none ∧ pendOf coldOnly udpKey = none ∧
      findWriteBack coldOnly udpKey = none ∧ (bankAt coldOnly (bankOf udpKey.bucket)).pending.length < 256) ∧
    (let s := { coldOnly with skein := { coldOnly.skein with groups := [(groupOf udpKey.bucket, ⟨false, 0, 0⟩)] } }
     findHot s udpKey = none ∧ (groupAt s (groupOf udpKey.bucket)).placed = false) ∧
    (overtakes coldOnly 1 (frameOf coldOnly 1) (fun g => g.lookup == .toDo) = false ∧
      outOfTurn coldOnly (frameOf coldOnly 1) = false ∧ homeTakes coldOnly udpKey.bucket = true ∧
      chooseVictim coldOnly (hotBucketOf udpKey.bucket) udpKey.slots (some udpKey) = .slot 248976) ∧
    (findHot unusable udpKey = none ∧ pendOf unusable udpKey = none ∧ homeTakes unusable udpKey.bucket = true ∧
      chooseVictim unusable (hotBucketOf udpKey.bucket) udpKey.slots (some udpKey) = .none) := by decide +kernel
theorem witness_LookupReads :
    ((frameAt tagAgain 1).isSome = true ∧ (frameOf tagAgain 1).lookup = .tagRead ∧ homeAnswers tagAgain udpKey.bucket = true ∧
      (pendOf tagAgain udpKey).isSome = true ∧ candidate tagAgain udpKey 0 = some 0) ∧
    ((frame0 tagAsked).lookup = .tagRead ∧ homeAnswers tagAsked udpKey.bucket = true ∧ (pendOf tagAsked udpKey).isSome = true ∧
      candidate tagAsked udpKey 0 = none) ∧
    ((frameOf wayAgain 1).lookup = .recordRead ∧ homeAnswers wayAgain udpKey.bucket = true ∧
      (pendOf wayAgain udpKey).map PendKey.way = some (some 0) ∧ wayAgain.skein.bursts = [] ∧
      (bodyOf wayAgain (udpKey.bucket * 8)).life < 5 ∧ (coldAt wayAgain (udpKey.bucket * 8)).body.key = udpKey ∧
      (frameOf wayAgain 1).segment = none ∧
      (pendOf wayAgain udpKey).map (fun p => promotionSlots wayAgain udpKey p.victim (coldAt wayAgain (udpKey.bucket * 8)).body.slots) = some (.slot 248976) ∧
      (pendOf (unreserved wayAgain) udpKey).map (fun p => promotionSlots (unreserved wayAgain) udpKey p.victim (coldAt wayAgain (udpKey.bucket * 8)).body.slots) = some .none) ∧
    ((coldAt otherKey (udpKey.bucket * 8)).body.key ≠ udpKey ∧ candidate otherKey udpKey 1 = none ∧
      (pendOf otherKey udpKey).map PendKey.way = some (some 0)) := by decide +kernel
theorem witness_RecordUpkeep :
    ((bankAt evicted 30).writeBack.length = 1 ∧ evicted.skein.bursts = [] ∧
      (bankAt evicted 30).writeBack.map (fun e => homeAnswers evicted e.bucket) = [true]) ∧
    ((tfind again.skein.merged 248976).isSome = true ∧ inMerge (atTick 14 again) 248976 = false) ∧
    (let s := issueBurst hotThere ⟨17189104, 1, 0, ⟨1, 64, 0, 0⟩, Counts.zero, none⟩
     s.skein.bursts.findIdx? (fun o => o.coldIndex == 17189104) = some 0 ∧ homeAnswers s (17189104 / 8) = true ∧
     (wayAt s 17189104).valid = true) ∧
    (let h := handleOf hotThere 17189104
     let s := { hotThere with skein := { hotThere.skein with notices := [⟨h, true, false, true⟩] }, lid := { hotThere.lid with corrections := [⟨{ CountInfo.zero with bank := 0, handle := h, bytes := 64, billable := true }, 255, 7, false, 64⟩] } }
     s.skein.notices.length = 1 ∧ current s h = true ∧ (hotOf s (handleIdx h)).isSome = true ∧ s.lid.corrections.length = 1 ∧
     (hotOf s (handleIdx h)).map (fun e => (e.2.bank, decide (1 ≤ e.2.counts.billPkts), decide (64 ≤ e.2.counts.billBytes),
       hotFits e.2.counts (oneFrame false 64))) = some (0, true, true, true)) := by decide +kernel
theorem witness_Learning :
    (let f := frame0 fullMissed
     FramesListed fullMissed ∧ FixedParts fullMissed ∧ (frameAt fullMissed 0).isSome = true ∧ f.stage = .parsed ∧ f.cls.done = true ∧
     bit f.cls.zoneImage 63 = true ∧ f.cls.natDst = none ∧ f.head.key.proto ≠ 6 ∧ f.head.frag = false ∧
     (learnHop f.cls).isSome = true ∧ f.lookup = .fullMiss ∧ f.slice < 8 ∧ learnRefused fullMissed f.port = false ∧
     (fullMissed.skein.learnQ.getD 7 []).length < 65536) ∧
    (let c : RegCell := ⟨0xC0000001#32, 0xC0000001#32, false⟩
     let s := { fullMissed with regs := { fullMissed.regs with cells := tins fullMissed.regs.cells (RegName.addr .lrnCfg [7, 31]) c }, skein := { fullMissed.skein with live := [(255, 1)] } }
     learnRefused s 255 = true ∧ fld s .lrnCfg (portIx 255) 30 30 = 1) ∧
    (let s := learnAsked
     let f := frame0 s
     FramesListed s ∧ FixedParts s ∧
     nextRR 8 s.skein.lastLearn (fun n => match learnFront s n with
        | some (_, g) => !(groupAt s (groupOf g.head.key.bucket)).placed || homeTakes s g.head.key.bucket
        | none => false) = some 7 ∧
     s.skein.learnQ.getD 7 [] = [0] ∧ f.segment = none ∧ findWay s udpKey = none ∧ freeWayOf s udpKey.bucket = some 17189104 ∧
     profNat (learnProfile s f) = 0 ∧ profLb (learnProfile s f) = false ∧
     s.sched.stalled.any (isTask 0xF004) = false) := by
  unfold FramesListed FixedParts; decide +kernel
theorem never_waits (n : Nat) : chooseVictim learnAsked (hotBucketOf udpKey.bucket) n none ≠ .wait := by
  have h1 : chooseVictim learnAsked (hotBucketOf udpKey.bucket) 1 none ≠ .wait := by decide +kernel
  have h2 : chooseVictim learnAsked (hotBucketOf udpKey.bucket) 2 none ≠ .wait := by decide +kernel
  by_cases h : n = 1
  · rw [h]; exact h1
  · have : chooseVictim learnAsked (hotBucketOf udpKey.bucket) n none = chooseVictim learnAsked (hotBucketOf udpKey.bucket) 2 none := by
      unfold chooseVictim slotSets; simp [h]
    rw [this]; exact h2

/-- A bucket of the sweep with one record that has been idle for as long as the field can say. -/
def sweeping : State := { hotThere with skein := { hotThere.skein with sweepNext := 2148638 }, time := { hotThere.time with served := 10000000000000 * 2 ^ 32 } }
/-- An end request for it. -/
def asked : State := { sweeping with skein := { sweeping.skein with endReqs := [17189104] } }
/-- A group on its way to pseudo-channel 127. -/
def moving (cursor : Nat) : State := { base with skein := { base.skein with move := some ⟨3, 127, 9, cursor, false⟩ } }
/-- Pseudo-channel 127 retired, its task on no engine. -/
def retiring : State := { base with hbm := { base.hbm with retiring := [⟨127, 1, 0, 0⟩] } }
theorem witness_FlowClockwork :
    (let s := { base with skein := { base.skein with sweepNext := 1 } }
     homeTakes s 1 = true ∧ due s 0 = true ∧ due s 1 = true ∧ due s 2 = true ∧ s.rules.quarantine = [] ∧ s.actions.draining = [] ∧ s.actions.natEnding = [] ∧
     s.skein.recounting = false ∧ (∀ w, w < 8 → (wayAt s (1 * 8 + w)).valid = false)) ∧
    (homeTakes sweeping 2148638 = true ∧ due sweeping 1 = true ∧ sweeping.rules.quarantine = [] ∧ (wayAt sweeping 17189104).valid = true ∧
      (∀ w, w < 8 → w ≠ 0 → (wayAt sweeping (2148638 * 8 + w)).valid = false) ∧ (bodyOf sweeping 17189104).life < 5 ∧
      (bodyOf sweeping 17189104).action.exportMode < 2 ∧ expired sweeping (bodyOf sweeping 17189104) = true ∧
      sweeping.skein.endReqs = []) ∧
    (asked.skein.endReqs = [17189104] ∧ (wayAt asked 17189104).valid = true ∧ expired asked (bodyOf asked 17189104) = true ∧
      (coldAt asked 17189104).body.kind = 0 ∧ (bodyOf asked 17189104).kind = 0 ∧ expired hotThere (bodyOf hotThere 17189104) = false) ∧
    (bucketBusy (moving 254) 1022 = false ∧ bucketBusy (moving 255) 1023 = false ∧ (moving 255).skein.bursts = [] ∧
      bucketBusy { moving 254 with skein := { (moving 254).skein with inFlight := [1022] } } 1022 = true ∧ (moving 254).skein.move.map (fun m => m.cursor + 1 < 256) = some True ∧ (moving 255).skein.move.map Move.cursor = some 255) ∧
    (takeItem retiring (fun i => isTask 0xF003 i && i.params == [byte 127])).isSome = true := by
  refine ⟨by decide +kernel, by decide +kernel, by decide +kernel, ⟨by decide +kernel, by decide +kernel, by decide +kernel, by decide +kernel, by simp [moving], by decide +kernel⟩, by decide +kernel⟩

/-- The frame waiting for its first cell. -/
def waiting : State := rewritten
/-- A DMA channel enabled in a mode. -/
def withChan (ch mode : Nat) (s : State) : State :=
  let c : RegCell := ⟨BitVec.ofNat 32 (2 ^ 31 + mode * 2 ^ 26), BitVec.ofNat 32 (2 ^ 31 + mode * 2 ^ 26), false⟩
  { s with regs := { s.regs with cells := tins s.regs.cells (RegName.addr .dmaCtl [ch]) c }, dma := tins s.dma ch DmaChannel.reset }
/-- Its owner at Q_MAX. -/
def atMax : State := charge (put .ownCfg1 [7, 2040] (2 ^ 16) waiting) 7 2040 1
/-- The frame in the replication engine of slice 7, with eight ports to serve. -/
def replicating : State :=
  modStore (List.foldl (fun s i => withPort (8 * i) upPort s) (withFrame (fun f => { f with stage := .queued, mc := true, refs := 1 }) rewritten) (List.range 8)) 7
    (fun c => { c with repl := [(0, (List.range 8).map (8 * ·))] })
/-- The frame at its egress port's queue, class 0 in strict priority. -/
def strictHead : State := put .egrPortCfg [7, 31] 1 arrived
theorem witness_CellAdmission :
    (let f := frame0 waiting
     FramesListed waiting ∧ (frameAt waiting 0).isSome = true ∧ f.slice = 7 ∧ f.stage = .admitting ∧ f.requester < 6 ∧
     requestOf waiting 7 f.requester = some 0 ∧ (∀ r, r < 6 → r ≠ f.requester → requestOf waiting 7 r = none) ∧ f.mc = false ∧
     f.punt = none ∧ f.txLen ≤ 256 ∧ f.deepQueued = false ∧ f.tail ≠ .bad ∧ f.owner = 2040 ∧
     (∀ e ∈ waiting.frames, e.2.slice = 7 → e.2.cellList ≠ [] → cellsNeeded waiting e.2 ≤ e.2.cellList.length) ∧ f.egress.headD 0 = 255 ∧ f.tc = 0) ∧
    (portClosed (withPort 255 PortState.reset waiting) 255 = true ∧ portClosed waiting 255 = false ∧
      ptrUsed (storeAt waiting 7) < 65536) ∧
    (portClosed atMax 255 = false ∧ ownMax atMax 7 2040 = 1 ∧ ownUse atMax 7 2040 = 1) ∧
    ((storeAt waiting 7).rebuilding = false ∧ (storeAt waiting 7).take.isSome = true ∧ ownMax waiting 7 2040 = 0 ∧
      ownUse waiting 7 2040 < ownMin waiting 7 2040 ∧
      ((storeAt waiting 7).take.map (fun e => (e.2.linkHolds (linkWord (e.2.head.getD 0)), decide (e.2.head.getD 0 < 65536)))) = some (true, true)) ∧
    (let p := withFrame (fun f => { f with punt := some 0x20 }) (put .puntMap [0x20] (2 ^ 31 + 31 * 2 ^ 24) (withChan 31 2 waiting))
     puntTarget p 0x20 = true ∧ (storeAt p 7).punt.length < 1024) ∧
    ((storeAt (withFrame (fun f => { f with mc := true }) waiting) 7).repl.length < 256) ∧
    ((storeAt replicating 7).repl = [(0, (List.range 8).map (8 * ·))] ∧ ((List.range 8).map (8 * ·)).length ≤ 8 ∧
      ((List.range 8).map (8 * ·)).Nodup ∧ (∀ p ∈ (List.range 8).map (8 * ·), portClosed replicating p = false) ∧
      ptrUsed (storeAt replicating 7) + 8 ≤ 65536 ∧ 1 ≤ (frame0 replicating).refs) := by
  unfold FramesListed; decide +kernel
/-- The frame in its virtual output queue, with one unit to send. -/
def oneUnit : State := admitted
theorem witness_CrossbarTime :
    (formable oneUnit 7 2040 = [[⟨0, 64, true, false⟩]] ∧ oneUnit.cells.map (fun e => (e.1, e.2.voq.map (·.1))) = [(7, [2040])]) ∧
    (egAt matched 255).gate.running = false ∧
    (matched.wale.flight.find? (fun u => u.slice == 7 && u.eq == eqNum 255 0)).map (fun u => (u.segs.map Seg.frame, u.segs.map Seg.ends)) = some ([0], [true]) ∧
    (frameAt matched 0).isSome = true ∧ (egAt matched 255).sending = none ∧ (eqAt matched (eqNum 255 0)).parts = [] := by
  decide +kernel
theorem witness_PickAndSend :
    (canStart strictHead 255 = true ∧ (egAt strictHead 255).gate.running = false ∧ shpOn strictHead 255 = false ∧
      strictClass strictHead 255 0 = true ∧ (∀ k, k < 8 → 0 < k → strictClass strictHead 255 k = true → eligibleHead strictHead 255 k = none) ∧
      (eligibleHead strictHead 255 0).map (fun e => decide (e.1.got = e.2.txLen)) = some true ∧ shqOn strictHead (eqNum 255 0) = false) ∧
    (let s := put .shqCfg [7, 248] (2 ^ 31) strictHead
     shqOn s (eqNum 255 0) = true ∧ (eligibleHead s 255 0).isSome = true) ∧
    (FramesListed picked ∧ (egAt picked 255).sending.map (fun x => (x.part.frame, x.part.got)) = some (0, (frame0 picked).txLen) ∧
      (frame0 picked).tail = .good ∧ (frame0 picked).mc = false ∧ (frame0 picked).refs = 0 ∧ nearLoop picked 255 = false) := by
  unfold FramesListed; decide +kernel
theorem only_requester (r : Nat) (h : r ≠ (frame0 waiting).requester) : requestOf waiting 7 r = none := by
  have all : ∀ e ∈ waiting.frames, e.2.requester = (frame0 waiting).requester := by decide +kernel
  unfold requestOf
  rw [List.find?_eq_none.mpr]
  · rfl
  · intro e he
    have := all e he
    simp only [Bool.and_eq_true, beq_iff_eq, not_and]
    intro hr
    exact absurd (hr.2.symm.trans this) h

/-- An epoch open since the start, its boundary at one second. -/
def epochOpen (cfg : Nat) : State :=
  { base with lid := { base.lid with opened := true, nextBoundary := 1000000000, epoch := { Epoch.zero with seq := 5, settings := [(RegName.addr .lidCfg [], cfg)] } } }
/-- Epoch 4 closing in a phase while epoch 5 is open. -/
def closingAt (p : Phase) (sweep : Nat) (s : State) : State :=
  { s with lid := { s.lid with opened := true, epoch := { Epoch.zero with seq := 5 }, closing := some ⟨{ Epoch.zero with seq := 4 }, p, 0, 0, 0, 0, 0, sweep, 1, []⟩ } }
/-- A millisecond either way of one second. -/
def atNs (n : Nat) (s : State) : State := { s with time := { s.time with served := n * 2 ^ 32 } }

theorem witness_EpochBoundaries :
    (let s := atOneSecond (epochOpen 0xE10)
     awaitsBoundary s = true ∧ syncEn s = false ∧ s.lid.nextBoundary = timeNs s.time.served ∧ s.lid.closing = none ∧
     (atOneSecond (closingAt .drain 0 (epochOpen 0xE10))).lid.closing.isSome = true ∧
     awaitsBoundary (atOneSecond (closingAt .drain 0 (epochOpen 0xE10))) = true ∧
     syncEn (atOneSecond (closingAt .drain 0 (epochOpen 0xE10))) = false) ∧
    (let s := atNs 1125000000 (epochOpen (2 ^ 31 + 1))
     let e := atNs 875000000 (epochOpen (2 ^ 31 + 1))
     awaitsBoundary s = true ∧ syncEn s = true ∧ s.lid.closing = none ∧ syncWindow s = 125000000 ∧
     boundaryOffset s = 125000000 ∧ boundaryOffset e = -125000000 ∧ s.lid.nextBoundary + 125000000 ≤ timeNs s.time.served ∧
     boundaryOffset (atNs 874999999 (epochOpen (2 ^ 31 + 1))) < -125000000) ∧
    awaitsBoundary base = false ∧ base.rim.pendingLc = 0 ∧
    (let s := atNs 1125000000 (epochOpen (2 ^ 31 + 1))
     s.lid.pulseWindow ≠ windowNow s ∧ (windowNow s).isSome = true ∧
     (let p := { s with lid := { s.lid with pulseWindow := windowNow s } }
      (windowNow p).isSome = true ∧ p.lid.pulseWindow = windowNow p)) ∧
    (let s := atNs 995000000 { (epochOpen 0xE10) with power := { base.power with state := 2 } }
     s.power.state = 2 ∧ s.lid.opened = true ∧ s.lid.nextBoundary = timeNs s.time.served + 0 + 5000000) := by decide +kernel
/-- The sweep at the flow's bucket, its cold home holding counts of the closed epoch and nothing hot. -/
def sweptRecord : State :=
  closingAt .sweep 2148638 { coldOnly with skein := { coldOnly.skein with inFlight := [], cold := coldOnly.skein.cold.map (fun e => (e.1, { e.2 with bank0 := ⟨1, 64, 0, 0⟩ })) } }
/-- The frame waits in parse with a count of the closed epoch. -/
def drainStuck : State := closingAt .drain 0 (atTick 625000000 learned)
theorem witness_EpochClose :
    (ImagesKept base.lid ∧ base.rim.transition = none ∧ itemWaits base (isTask 0xF001) = false) ∧
    (let s := closingAt .drain 0 base
     s.lid.closing.map (fun c => (c.phase, drained s c)) = some (.drain, true) ∧ ImagesKept s.lid) ∧
    (FramesListed drainStuck ∧ drainWaits drainStuck 0 = [0] ∧ (frameAt drainStuck 0).isSome = true ∧
      drainStuck.lid.closing.map (fun c => decide (c.closeTick + drainTicks c.epoch ≤ drainStuck.time.tick)) = some true ∧
      (frame0 drainStuck).stage = .parsed) ∧
    (let s := closingAt .sweep 16777215 base
     s.lid.closing.map (fun c => (c.phase, c.sweepNext)) = some (.sweep, 16777215) ∧
     (∀ v, v < 8 → (wayAt s (16777215 * 8 + v)).valid = false) ∧ homeTakes s 16777215 = true ∧ bucketBusy s 16777215 = false ∧
     bucketBusy { s with skein := { s.skein with inFlight := [16777215] } } 16777215 = true ∧ (groupAt s (groupOf 16777215)).placed = true ∧
     (groupAt { s with skein := { s.skein with groups := [(groupOf 16777215, ⟨false, 0, 0⟩)] } } (groupOf 16777215)).placed = false) ∧
    (let s := sweptRecord
     itemWaits s (isTask 0xF001) = false ∧ homeTakes s 2148638 = true ∧ bucketBusy s 2148638 = false ∧ (wayAt s 17189104).valid = true ∧ (∀ u, u < 8 → u ≠ 0 → (wayAt s (2148638 * 8 + u)).valid = false) ∧
     s.skein.bursts = [] ∧ hotOf s 17189104 = none ∧ writeBackOf s 17189104 = none ∧ (coldAt s 17189104).bank0 ≠ Counts.zero) ∧
    ((closingAt .hash 0 base).lid.closing.map Closing.phase = some .hash ∧ (closingAt .sign 0 base).lid.closing.map Closing.phase = some .sign ∧
      itemWaits drainStuck (isTask 0xF001) = false ∧ drainStuck.rim.transition = none) ∧
    (let s := closingAt .publish 0 base
     let d := { s with lid := { s.lid with deferred := true } }
     s.lid.closing.map Closing.phase = some .publish ∧ s.lid.interrupt = false ∧ s.power.state ≠ 4 ∧ s.lid.deferred = false ∧
     d.lid.deferred = true ∧ d.lid.closing.map Closing.phase = some .publish) := by
  unfold FramesListed ImagesKept; decide +kernel

/-- A device that takes commands: address 0, and reply ring 0 of host port 0 enabled. -/
def served (s : State) : State := { s with chain := { s.chain with addr := some 0 }, host := { s.host with rings := [(16, { Ring.reset with en := true })] } }
def serves : State := served base
/-- A command of host port 0's PF0 with an opcode and SLICES, tag 7. -/
def cmd (op slices : Nat) : CmdHeader :=
  { fn := 0, ring := 0, replyRing := 0, opcode := op, slices := slices, dev := 0, prio := 0, tag := 7
    cls := ((opRow op).map OpRow.cls).getD 0, resume := false, order := 0, reservedZero := true, viaChain := none }
/-- The conditions of CommandRuns, computed. -/
def runsNow (s : State) (op : Nat) (h : CmdHeader) (p : List Byte) (len : Nat) (fine : Bool) : Bool :=
  decide (h.opcode = op) && (engineOf s (isCommand h p)).isNone && !itemWaits s (isCommand h p) && !startWaits s op &&
  ownDevice s h && h.viaChain.isNone && decide (h.replyRing < lostRing) && (ringAt s (h.fn / 2) 1 h.replyRing).en &&
  replyRoom s (h.fn / 2) 65536 && s.rim.transition.isNone && !partsWait s h && (commandFails s h p len fine).isNone
theorem runs_of {s : State} {op : Nat} {h : CmdHeader} {p : List Byte} {len : Nat} {fine : Bool}
    (x : runsNow s op h p len fine = true) : CommandRuns s op h p len fine := by
  simp only [runsNow, Bool.and_eq_true, decide_eq_true_eq, Option.isNone_iff_eq_none, Bool.not_eq_true'] at x
  obtain ⟨⟨⟨⟨⟨⟨⟨⟨⟨⟨⟨a, b⟩, c⟩, d⟩, e⟩, f⟩, g⟩, i⟩, j⟩, k⟩, m⟩, l⟩ := x
  exact ⟨a, b, c, d, e, f, g, i, j, k, m, l⟩
/-- And of RunsAlone. -/
def alone (s : State) (op : Nat) (h : CmdHeader) (p : List Byte) (len : Nat) (fine : Bool) : Bool :=
  runsNow s op h p len fine && s.sched.items.isEmpty
theorem alone_of {s : State} {op : Nat} {h : CmdHeader} {p : List Byte} {len : Nat} {fine : Bool}
    (x : alone s op h p len fine = true) : RunsAlone s op h p len fine := by
  simp only [alone, Bool.and_eq_true, List.isEmpty_iff] at x
  exact ⟨runs_of x.1, x.2⟩

/-- A NOP of tag 9 in the matching store. -/
def nopWaits : State :=
  { serves with sched := { serves.sched with store := [{ kind := .command, code := 0, prio := 0, header := { cmd 0 0 with tag := 9 }, params := [], need := 1, have_ := 0, entered := 0, listed := 0, cursor := 0, aborted := false, lastDie := none, seq := 0 }] } }
/-- A commit of version 1 that waits for its switch. -/
def committing : State := { serves with rules := { serves.rules with commit := some ⟨1, cmd 0x0101 255⟩ } }
/-- CHAIN1 up. -/
def chainRight : State := { serves with chain := { serves.chain with up := [false, true] } }
theorem witness_ControlCommands :
    alone serves 0x0000 (cmd 0x0000 0) [] 0 true = true ∧
    (runsNow nopWaits 0x0001 (cmd 0x0001 0) (le 4 9) 4 true = true ∧ nopWaits.sched.stalled = [] ∧ nopWaits.sched.store.length = 1 ∧
      nopWaits.sched.store.all (fun i => i.kind == .command && i.code != 0x0001 && i.header.tag == leAt (le 4 9) 0 4 &&
        i.header.fn == 0 && i.header.dev == 0 && i.header.viaChain.isNone && decide (i.header.replyRing < lostRing) &&
        (ringAt nopWaits (i.header.fn / 2) 1 i.header.replyRing).en) = true ∧ nopWaits.sched.ready.flatten = [] ∧
      (∀ e ∈ nopWaits.sched.engines, e.item = none)) ∧
    alone serves 0x0002 (cmd 0x0002 0) [] 0 true = true ∧ alone serves 0x0103 (cmd 0x0103 0) [] 0 true = true ∧
    (let p := le 2 1023 ++ le 2 1
     alone serves 0x0801 (cmd 0x0801 255) p 4 (decide (1 ≤ leAt p 2 2) && decide (leAt p 2 2 ≤ 1016) && decide (leAt p 0 2 + leAt p 2 2 ≤ 1024)) = true) ∧
    (let p := le 4 (RegName.addr .scratch [0]) ++ le 2 1
     alone serves 0x0004 (cmd 0x0004 0) p 6 (offsetFine (leAt p 0 4)) = true ∧ leAt p 4 2 = 1) ∧
    (let p := le 2 1 ++ zeros 6 ++ le 4 (RegName.addr .scratch [0]) ++ le 4 5
     alone serves 0x0005 (cmd 0x0005 0) p 16 (offsetFine (leAt p 8 4)) = true ∧ leAt p 0 2 = 1 ∧
     leAt p 8 4 = RegName.addr .scratch [0] ∧ plainReg .scratch = true ∧
     Reaches serves ⟨0, true⟩ (RegName.addr .scratch [0]) .scratch [0]) ∧
    (alone serves 0x0003 (cmd 0x0003 0) [] 0 true = true ∧ serves.chain.enumerating = none ∧ serves.chain.relayed = [] ∧
      chainUp serves 0 = false ∧ chainUp serves 1 = false ∧
      alone chainRight 0x0003 (cmd 0x0003 0) [] 0 true = true ∧ chainUp chainRight 1 = true) ∧
    (alone serves 0x0102 (cmd 0x0102 0) [] 0 true = true ∧ serves.rules.commit = none) ∧
    (alone serves 0x0101 (cmd 0x0101 255) (le 2 1) 2 true = true ∧ leAt (le 2 1) 0 2 = (serves.rules.current + 1) % 65536 ∧
      columnHeld serves 1 = [] ∧ (∀ sl, sl < 8 → Machine.moving serves sl = false)) ∧
    (committing.rules.commit.isSome = true ∧ committing.sched.items = [] ∧ ownDevice committing (cmd 0x0101 255) = true ∧
      (ringAt committing 0 1 0).en = true ∧ committing.rim.transition = none) := by unfold Reaches; decide +kernel

/-- Ternary block 31 of every slice serves lookup 15; access entry, pattern, ternary entry and static station 0 exist. -/
def stocked : State :=
  let cells := (List.range 8).foldl (fun c sl => tins c (RegName.addr .tcamBlk [sl, 31]) ⟨0x8F#32, 0x8F#32, false⟩) serves.regs.cells
  let x : SliceState := { SliceState.reset with
    access := [(0, ⟨2 ^ 63 + 2 ^ 52, 15, true⟩)], patterns := [(0, ⟨zeros 32, 0, 15, true⟩)], tcam := [(31744, anyEntry)],
    mac := [(macBucket 1 2 * 4, ⟨1, 2, 3, true, false⟩)] }
  { serves with regs := { serves.regs with cells := cells }, slices := (List.range 8).map (fun sl => (sl, x)) }
/-- A next hop and a prefix exist in the draft. -/
def routed : State := { serves with rules := { serves.rules with prefixes := [⟨0, false, 24, 0x0A000000, 1, 15, true⟩] } }
def stepParams (i n size : Nat) : List Byte := le 2 i ++ le 2 n ++ zeros 4 ++ zeros (size * n)
def entryParams (place : Nat) (image : Nat) : List Byte := le 1 15 ++ le 1 0 ++ le 2 place ++ zeros 4 ++ le 80 image
def pfxParams (len addr nh : Nat) : List Byte := zeros 3 ++ le 1 len ++ zeros 4 ++ le 4 nh ++ zeros 16 ++ be 4 addr
theorem witness_TableCommands :
    serves.rules.commit = none ∧ stocked.rules.commit = none ∧
    (let p := stepParams 2047 1 16
     alone serves 0x0201 (cmd 0x0201 255) p (indexedLen p 16) (indexedFine p 16 2048 254 stepFine) = true ∧
     (∀ sl ∈ maskSlices 255, indexedLocked p (stepEntry (sliceAt serves sl)) = false)) ∧
    (let p := stepParams 4095 1 8
     alone serves 0x0202 (cmd 0x0202 255) p (indexedLen p 8) (indexedFine p 8 4096 511 transFine) = true ∧
     (∀ sl ∈ maskSlices 255, indexedLocked p (transEntry (sliceAt serves sl)) = false)) ∧
    (let p := le 8 (2 ^ 63 + 2 ^ 52)
     alone serves 0x0203 (cmd 0x0203 255) p 8 (accessFine (leAt p 0 8)) = true ∧
     (∀ sl ∈ maskSlices 255, accessFind (sliceAt serves sl) (leAt p 0 8) = none ∧ firstFree (sliceAt serves sl).access 0 < 65536) ∧
     alone stocked 0x0204 (cmd 0x0204 255) p 8 (accessFine (leAt p 0 8)) = true ∧
     (∀ sl ∈ maskSlices 255, (accessFind (sliceAt stocked sl) (leAt p 0 8)).isSome)) ∧
    (let p := zeros 40
     alone serves 0x0205 (cmd 0x0205 255) p 40 (patternFine p) = true ∧
     (∀ sl ∈ maskSlices 255, patternFind (sliceAt serves sl) (PatternEntry.id ⟨slice p 0 32, leAt p 32 8, 0, true⟩) = none ∧
       firstFree (sliceAt serves sl).patterns 0 < 16384)) ∧
    (alone stocked 0x0206 (cmd 0x0206 255) (le 2 0) 2 (decide (leAt (le 2 0) 0 2 < 16384)) = true ∧
     (∀ sl ∈ maskSlices 255, (patternFind (sliceAt stocked sl) 0).isSome)) := by decide +kernel
theorem witness_TableCommands_ternary :
    (let p := entryParams 31744 (2 ^ 640 - 2 ^ 384 + (2 ^ 384 - 2 ^ 128))
     alone stocked 0x0301 (cmd 0x0301 128) p (if p.length = 168 then 168 else 88) (imagesFine (tcamImages p)) = true ∧
     (∀ sl ∈ maskSlices 128, widthDiffers stocked 15 (tcamImages p) sl = false ∧ (addPlace stocked sl 15).isSome) ∧
     alone stocked 0x0302 (cmd 0x0302 128) p (if p.length = 168 then 168 else 88) (imagesFine (tcamImages p)) = true ∧
     (∀ sl ∈ maskSlices 128, isPlaceOf stocked sl 15 31744 = true ∧ (planOf stocked sl 15 31744).isSome)) ∧
    (let p := le 1 15 ++ le 1 0 ++ le 2 31744 ++ zeros 4
     alone stocked 0x0303 (cmd 0x0303 255) p 8 true = true ∧
     (∀ sl ∈ maskSlices 255, isPlaceOf stocked sl 15 31744 = true ∧ (deletePlace stocked sl 15 p).isSome)) ∧
    (let p := entryParams 0 (2 ^ 112)
     let q := le 1 31 ++ p.drop 1
     alone stocked 0x0303 (cmd 0x0303 255) q 88 true = true ∧ bit (byteAt q 0) 4 = true ∧
     (∀ sl ∈ maskSlices 255, widthDiffers stocked 15 (tcamImages q) sl = false ∧ (deletePlace stocked sl 15 q).isSome)) ∧
    (maskSlices 128 = [7] ∧ alone stocked 0x0304 (cmd 0x0304 128) (le 2 32767) 2
      (decide (leAt (le 2 32767) 0 2 < 32768) && !((blockMode stocked 7 32767).2 && 32767 % 2 == 1)) = true) := by decide +kernel
theorem witness_TableCommands_device :
    (let p := zeros 4 ++ le 4 4095 ++ zeros 64
     alone serves 0x0402 (cmd 0x0402 255) p 72 (decide (leAt p 4 4 < 4096) && dtFine 4 (leAt p 4 4) (leAt p 8 64)) = true ∧
     (∀ sl ∈ maskSlices 255, (overrideEdit (sliceAt serves sl).vlanOver 1024 4 4095 (leAt p 8 64)).isSome)) ∧
    (let p := le 1 1 ++ zeros 3 ++ le 4 0xFFFFE ++ le 12 (2 ^ 95)
     let img := leAt p 8 (dtBytes 1)
     alone serves 0x0401 (cmd 0x0401 0) p (8 + dtBytes 1) ((1 ≤ 3 || 1 == 5) && decide (0xFFFFE < dtEntries 1) && dtFine 1 0xFFFFE img) = true ∧
     serves.rules.quarantine.any (fun q => q.1 == 0xFFFFE) = false ∧ (deletesHop serves 1 0xFFFFE img = true → hopsGoing serves < 4096) ∧
     (overrideEdit serves.rules.overrides 65536 1 0xFFFFE img).isSome = true) ∧
    (let p := pfxParams 32 0x0A000001 1
     alone serves 0x0404 (cmd 0x0404 0) p 32 (pfxFine p) = true ∧ pfxFind serves p = none ∧ pfxUsed serves (pfxV6 p) < pfxCap (pfxV6 p)) ∧
    (let p := pfxParams 24 0x0A000000 0
     alone routed 0x0405 (cmd 0x0405 0) p 32 (pfxFine p) = true ∧ pfxFind routed p = some 0) ∧
    (let p := le 1 5 ++ le 1 0 ++ le 2 0 ++ le 4 1023
     alone serves 0x0403 (cmd 0x0403 0) p 8 (decide (5 ≤ 5) && decide (1023 < dtEntries 5) && (false || liveAnywhere serves 0)) = true) ∧
    (let p := zeros 12 ++ le 2 0 ++ zeros 14 ++ be 4 0x0A0000FF
     alone routed 0x0406 (cmd 0x0406 0) p 32 (false || liveAnywhere routed 0) = true ∧
     (longest (routed.rules.prefixes.filter (fun e => visTo e.vis 0)) (pfxZone p) (pfxV6 p) (pfxAddr p)).isSome = true) := by
  decide +kernel
theorem witness_TableCommands_stations :
    (let p := le 2 1 ++ be 6 2
     alone stocked 0x0501 (cmd 0x0501 128) p 8 (decide (macVlan p < 4096)) = true ∧
     (macFind (sliceAt (learnsFirst stocked 7) 7) (macVlan p) (macStation p)).isSome = true ∧
     alone stocked 0x0504 (cmd 0x0504 255) p 8 (decide (macVlan p < 4096)) = true ∧
     (let u := (maskSlices 255).foldl learnsFirst stocked
      ∀ sl ∈ maskSlices 255, (staticAt (sliceAt u sl) (macVlan p) (macStation p)).isSome)) ∧
    (alone stocked 0x0502 (cmd 0x0502 128) (le 4 0x3FFFF) 4 (decide (leAt (le 4 0x3FFFF) 0 4 < 0x40000)) = true ∧
     (trange (sliceAt (learnsFirst stocked 7) 7).mac 0x3FFFF 0x40000).length ≤ 1024 ∧
     (let many := modSlice serves 7 (fun x => { x with mac := (List.range 1025).map (fun i => (i, ⟨1, i, 0, false, false⟩)) })
      alone many 0x0502 (cmd 0x0502 128) (le 4 0) 4 (decide (leAt (le 4 0) 0 4 < 0x40000)) = true ∧
      1024 < (trange (sliceAt (learnsFirst many 7) 7).mac 0 0x40000).length ∧
      ((trange (sliceAt (learnsFirst many 7) 7).mac 0 0x40000)[1023]?).isSome = true)) ∧
    (let p := le 2 4095 ++ be 6 9 ++ le 1 255
     alone stocked 0x0503 (cmd 0x0503 255) p 9 (decide (macVlan p < 4096)) = true ∧
     (let u := (maskSlices 255).foldl learnsFirst stocked
      ∀ sl ∈ maskSlices 255, staticAt (sliceAt u sl) (macVlan p) (macStation p) = none ∧
        (staticPlace (sliceAt u sl) (macVlan p) (macStation p)).isSome)) ∧
    alone stocked 0x0505 (cmd 0x0505 255) (le 2 3) 2 true = true := by decide +kernel

/-- The device with one flow record, hot, that takes commands. -/
def flowServes : State := served { hotThere with frames := [] }
/-- Many records, in one bucket each. -/
def manyFlows : State :=
  { flowServes with skein := { flowServes.skein with hot := [], ways := (List.range 481).map (fun i => (i * 8, { WayEntry.free with valid := true })) } }
theorem witness_FlowCommands :
    flowServes.skein.bursts = [] ∧
    (let p := udpKey.image
     alone flowServes 0x0601 (cmd 0x0601 0) p 48 (keyImageOk p) = true ∧ alone flowServes 0x0604 (cmd 0x0604 0) p 48 (keyImageOk p) = true ∧
     Key.ofImage p = udpKey ∧ recordAnswers flowServes udpKey.bucket = true ∧ findRecord flowServes udpKey = some 17189104 ∧
     recordBad flowServes true 17189104 = false) ∧
    (let p := le 4 (handleOf flowServes 17189104)
     alone flowServes 0x0602 (cmd 0x0602 0) p 4 true = true ∧ current flowServes (leAt p 0 4) = true ∧
     handleIdx (leAt p 0 4) = 17189104 ∧ recordAnswers flowServes (17189104 / 8) = true) ∧
    (let p := le 4 0 ++ le 4 0 ++ le 4 0
     alone flowServes 0x0603 (cmd 0x0603 0) p 12 (decide (leAt p 0 4 < 2 ^ 27) && decide (leAt p 4 4 < 4)) = true ∧
     (∀ e ∈ flowServes.skein.ways, e.2.valid = true → recordAnswers flowServes (e.1 / 8) = true ∧ recordBad flowServes false e.1 = false) ∧
     alone manyFlows 0x0603 (cmd 0x0603 0) p 12 (decide (leAt p 0 4 < 2 ^ 27) && decide (leAt p 4 4 < 4)) = true ∧
     (∀ e ∈ manyFlows.skein.ways, e.2.valid = true → recordAnswers manyFlows (e.1 / 8) = true ∧ recordBad manyFlows false e.1 = false) ∧
     480 < ((((trange manyFlows.skein.ways 0 (2 ^ 27)).filter (fun e => e.2.valid)).map (·.1)).filter (flowMatches manyFlows 0 0)).length ∧
     ((((trange manyFlows.skein.ways 0 (2 ^ 27)).filter (fun e => e.2.valid)).map (·.1)).filter (flowMatches manyFlows 0 0))[479]?.isSome = true) ∧
    (let p := le 4 2 ++ le 4 0
     alone flowServes 0x0605 (cmd 0x0605 0) p 8 (decide (byteAt p 0 % 4 ≠ 3)) = true ∧
     tsorted flowServes.skein.ways = true ∧ tsorted flowServes.skein.hot = true ∧ tsorted flowServes.skein.merged = true ∧
     tsorted flowServes.skein.cold = true) := by decide +kernel

/-- A pool of addresses 0 to 7 in zone 0 with a held block, a subscriber, and balancer pool 0 of eight entries with two targets. -/
def translates0 : State :=
  let pool : NatPool := ⟨true, 0, 0, 7, 6, 0, 1024, 60, 0, false, 64, 0⟩
  let t : Table Nat := [(2 * 2 ^ 20, 2 ^ 63 + 7 * 2 ^ 11)]
  let sub := (subRange 0 0x0A000001).headD 0
  { serves with
    rules := { serves.rules with baseWest := t, baseEast := t }
    actions := { serves.actions with natAddr := [(0, 2 ^ 63 + 0x01010101)], natPools := [(0, pool)], blocks := [(0, ⟨false, 0, sub⟩)], subs := [(sub, ⟨0x0A000001, 0, 0, 0, [0]⟩)], targets := [(0, ⟨0, 1⟩), (3, ⟨0, 2⟩)] } }
theorem witness_TranslationCommands :
    (let p := le 4 (2 ^ 31 + 4095) ++ be 4 0x01010102
     alone translates0 0x0701 (cmd 0x0701 0) p 8 (bits (leAt p 0 4) 30 12 == 0) = true ∧ bit (leAt p 0 4) 31 = true ∧
     (∀ e ∈ translates0.actions.natAddr, e.1 ≠ leAt p 0 4 % 4096 → e.2 ≠ 2 ^ 63 + beAt p 4 4) ∧
     (∀ e ∈ translates0.actions.natPools, e.2.owns (leAt p 0 4 % 4096) = true → poolHoldsBlock translates0 e.1 = false)) ∧
    (let img := 2 ^ 127 + 4095 * 2 ^ 95
     let p := le 2 4095 ++ zeros 6 ++ le 32 img
     let new := NatPool.ofImage (leAt p 8 32)
     alone translates0 0x0702 (cmd 0x0702 0) p 40 (decide (leAt p 0 2 < 4096) && bits (leAt p 8 32) 159 128 == 0 && bits (leAt p 8 32) 33 0 == 0 && decide (new.addrFirst + new.addrCountM1 < 4096)) = true ∧
     (∀ e ∈ translates0.actions.natPools, e.1 ≠ 4095 → (e.2.valid = true ∨ poolHoldsBlock translates0 e.1 = true) → e.2.overlaps new = false) ∧ new.valid = true ∧ tfind translates0.actions.natPools 4095 = none) ∧
    (let p := zeros 16 ++ be 16 0x0A000001
     alone translates0 0x0703 (cmd 0x0703 0) p 32 (decide (leAt p 0 4 < 2 ^ 20)) = true ∧
     (subScan translates0 [] (leAt p 0 4) (beAt p 16 16) (subRange (leAt p 0 4) (beAt p 16 16))).toOption.map Option.isSome = some true ∧
     (let r := subRange (leAt p 0 4) (beAt p 16 16)
      (subScan translates0 [subLine (r.headD 0)] (leAt p 0 4) (beAt p 16 16) r).toOption = none)) ∧
    (bit (poolImage translates0 0) 63 = true ∧ bits (poolImage translates0 0) 32 11 = 7 ∧
      alone translates0 0x0704 (cmd 0x0704 0) (le 2 0 ++ le 2 7 ++ le 4 (2 ^ 31 + 5)) 8 (bits (2 ^ 31 + 5) 30 20 == 0) = true ∧
      tfind translates0.actions.targets 7 = none ∧ bucketsNaming translates0 (poolImage translates0 0) 7 = 0 ∧
      alone translates0 0x0707 (cmd 0x0707 0) (le 2 0 ++ le 2 7) 4 true = true ∧
      alone translates0 0x0706 (cmd 0x0706 0) (le 2 0 ++ le 2 3) 4 true = true ∧
      (tfind translates0.actions.targets 3).map LbTarget.state = some 0 ∧ bucketsNaming translates0 (poolImage translates0 0) 3 = 0 ∧
      translates0.actions.draining.length < 64) ∧
    (let p := le 2 0 ++ le 2 2 ++ zeros 4 ++ (le 2 0 ++ le 2 0 ++ le 2 1 ++ zeros 2) ++ (le 2 3 ++ le 2 3 ++ le 2 2 ++ zeros 2)
     alone translates0 0x0705 (cmd 0x0705 0) p (8 + 8 * leAt p 2 2) (decide (1 ≤ leAt p 2 2) && decide (leAt p 2 2 ≤ 511)) = true ∧
     (poolRanges p).all (rangeFine 7) = true ∧ rangesApart (poolRanges p) = true ∧ weighted (poolRanges p) ≠ [] ∧
     (∀ e ∈ weighted (poolRanges p), (tfind translates0.actions.targets (0 + e.1)).isSome)) := by decide +kernel

/-- An item of a command with an opcode. -/
def itemOf (op : Nat) : Item :=
  { kind := .command, code := op, prio := 0, header := cmd op 0, params := [], need := 0, have_ := 0, entered := 0, listed := 0
    cursor := 0, aborted := false, lastDie := none, seq := 0 }
/-- Command ring 0 with one slot of a NOP to fetch, its 64 bytes in host memory. -/
def ringWaits : State := { serves with host := { serves.host with rings := [(0, { Ring.reset with en := true, pi := 1 }), (16, { Ring.reset with en := true })] } }
def nopBytes : List Byte := zeros 28 ++ le 4 (crc32c (zeros 28)) ++ zeros 32
/-- An item on ready list 3; an item on engine 11. -/
def listed3 : State := { serves with sched := { serves.sched with ready := [[], [], [], [itemOf 0]] } }
def onEngine (op : Nat) : State := { serves with sched := { serves.sched with engines := setAt serves.sched.engines 11 { Engine.reset with item := some (itemOf op) } } }
/-- Engine 11 before a word of a format in patch RAM, with a return address on its stack. -/
def microEngine (fmt : Nat) : State :=
  let g : Engine := { Engine.reset with item := some (itemOf 0), uaddr := 0x10FFF, stack := [5] }
  { serves with sched := { serves.sched with patch := [(0xFFF, fmt * 2 ^ 27 + 7)], engines := setAt serves.sched.engines 11 g } }
/-- Every engine busy, an item of priority 3 waiting since tick 0, and YIELD_US 1 in force. -/
def crowded : State :=
  let s := { serves with sched := { serves.sched with engines := List.replicate 12 { Engine.reset with item := some (itemOf 0x0605), uaddr := 0x10FFF }, patch := [(0xFFF, 0x1B * 2 ^ 27)], ready := [[], [], [], [itemOf 0]] } }
  setCell (atTick 1251 s) (RegName.addr .schCfg2 []) ⟨0x10000#32, 0x10000#32, false⟩
/-- A reply of 32 bytes waits in reply ring 0 with one free slot left. -/
def replyWaits : State := { serves with host := { serves.host with replies := [replyOf (cmd 0 0) false (.ok [])] } }
/-- A NAT block of pool 0 that no mapping uses, in service or on hold. -/
def idleBlock (hold : Bool) : State :=
  { translates0 with actions := { translates0.actions with blocks := [(0, ⟨hold, 0, 5⟩)] }, time := { translates0.time with served := 60 * 1000000000 * 2 ^ 32 } }
/-- An override that the draft and every live version see, in the next-hop table and in slice 7's VLAN table. -/
def folds : State :=
  modSlice { serves with rules := { serves.rules with overrides := [⟨1, 9, 2 ^ 95, 15, true⟩] } } 7 (fun x => { x with vlanOver := [⟨4, 9, 2 ^ 511, 15, true⟩] })
/-- Collector 3 exports to the host over channel 0, with one record queued since tick 0. -/
def exports : State :=
  let s := put .expColCtl [3] (3 * 2 ^ 30) serves
  let s := { s with sched := { serves.sched with ticked := 318750000 }, dma := [(0, { DmaChannel.reset with state := 1 })], regs := { s.regs with cells := tins (tins s.regs.cells (RegName.addr .puntMap [0x43]) ⟨0x80000000#32, 0x80000000#32, false⟩) (RegName.addr .dmaCtl [0]) ⟨0x88000000#32, 0x88000000#32, false⟩ } }
  atTick 318750000 { s with actions := { s.actions with collectors := [(3, ⟨0, [⟨3, 256, zeros 4⟩], 0, []⟩)] } }
theorem parts_of_states (s : State) (h : s ∈ [serves, ringWaits, listed3, onEngine 0, microEngine 0x1B, crowded, replyWaits, idleBlock true, idleBlock false, folds, exports]) :
    FixedParts s ∧ s.rim.transition = none := by
  have all : ∀ s ∈ [serves, ringWaits, listed3, onEngine 0, microEngine 0x1B, crowded, replyWaits, idleBlock true, idleBlock false, folds, exports],
      (s.time.domains.length = 2 ∧ s.time.outs.length = 4 ∧ s.time.ins.length = 4 ∧ s.host.ports.length = 2 ∧
        s.sched.ready.length = 4 ∧ s.sched.engines.length = 12) ∧ s.chain.up.length = 2 ∧ s.chain.credits.length = 2 ∧
        s.skein.learnQ.length = 8 ∧ s.rim.boxes.length = 4 ∧ s.rim.slots.length = 2 ∧ s.rim.transition = none := by
    decide +kernel
  obtain ⟨⟨a, b, c, d, e, f⟩, g, i, j, k, l, m⟩ := all s h
  exact ⟨⟨a, b, c, d, e, f, g, i, j, k, l⟩, m⟩
theorem witness_SchedulerAndTasks :
    serves.rim.transition = none ∧
    (fetchRuns ringWaits = true ∧ nextRR 33 ringWaits.sched.fetchPtr (sourceWaits ringWaits) = some 0 ∧
      ringWaits.sched.items = [] ∧ ringWaits.sched.stalled = [] ∧ listed3.sched.stalled = [] ∧ (onEngine 0).sched.stalled = [] ∧ serves.sched.stalled = [] ∧
      ticksOfNs (serves.sched.windowMs * 1000000) ≤ (atTick 625000000000 serves).time.tick - (atTick 625000000000 serves).sched.windowStart ∧ idxDiff 1 0 ≤ (ringAt ringWaits 0 0 0).size ∧ leAt nopBytes 8 2 % 8192 = 0 ∧
      commandSlots 0 = idxDiff 1 0 ∧ crc32c (slice nopBytes 0 28 ++ slice nopBytes 32 0) = leAt nopBytes 28 4 ∧
      badReplyRing ringWaits 0 (ringOwner ringWaits 0 0 0) 0 = false ∧
      canPlace ringWaits (headerOf (ringOwner ringWaits 0 0 0) 0 nopBytes) 0 = true ∧
      ownDevice ringWaits (headerOf (ringOwner ringWaits 0 0 0) 0 nopBytes) = true) ∧
    (listed3.power.state ≠ 2 ∧ listed3.sched.store = [] ∧ (topItem listed3).map (·.1) = some 3 ∧
      (nextRR 12 listed3.sched.lastEngine (fun e => (engineAt listed3 e).item.isNone)).isSome = true ∧ (opRow (itemOf 0).code).isSome = true ∧ isTask 0xF002 (itemOf 0) = false ∧ isTask 0xF004 (itemOf 0) = false) ∧
    ((engineAt (onEngine 0) 11).item.isSome = true ∧ (onEngine 0).sched.attention = false ∧
      (onEngine 0).power.state ≠ 1 ∧ yields 0 = false ∧ (engineAt (onEngine 0) 11).overrun = false ∧ classOf 0 ≠ 2 ∧
      (onEngine 0).sched.store = [] ∧ (ringAt (onEngine 0) 0 1 0).en = true) ∧
    ((engineAt crowded 11).item.map Item.code = some 0x0605 ∧ yields 0x0605 = true ∧ yieldDue crowded 0 = true ∧
      crowded.sched.attention = false) ∧
    (serves.power.state = 0 ∧ serves.rim.started = true ∧ onTick serves = true ∧ serves.sched.store = [] ∧
      (let s := atTick (serves.sched.tickUnits * 125 * 65536) { serves with sched := { serves.sched with ready := [[itemOf 0], [], [], []] } }
       onTick s = true ∧ fld s .schCfg [] 15 0 ≠ 0 ∧ ticksOfNs (fld s .schCfg [] 15 0 * 1000) < s.time.tick) ∧
      (let s := { serves with sched := { serves.sched with timers := [⟨0, 11⟩] } }
       onTick s = true ∧ s.sched.ready = [[], [], [], []])) ∧
    (replyWaits.host.replies.map (fun r => (r.hp, r.ring, (ringAt replyWaits r.hp 1 r.ring).en, decide (cdiv r.bytes.length 64 ≤ (ringAt replyWaits r.hp 1 r.ring).free))) = [(0, 0, true, true)]) := by
  decide +kernel
theorem witness_SchedulerAndTasks_background :
    ((idleBlock true).actions.blockSweep ≤ 0 ∧ ((poolOfBlock (idleBlock true) (0, ⟨true, 0, 5⟩)).bind (tfind (idleBlock true).actions.natPools)).map NatPool.blockHold = some 60 ∧
      ((poolOfBlock (idleBlock true) (0, ⟨true, 0, 5⟩)).bind (tfind (idleBlock true).actions.natPools)).map (fun x => trange (idleBlock true).actions.ports 0 x.ports) = some [] ∧
      engineOf (idleBlock true) (isTask 0xF005) = none ∧ itemWaits (idleBlock true) (isTask 0xF005) = false ∧
      (wrap 32 (servedSec (idleBlock true)) + 2 ^ 32 - 0) % 2 ^ 32 = 60 ∧ ((poolOfBlock (idleBlock false) (0, ⟨false, 0, 5⟩)).bind (tfind (idleBlock false).actions.natPools)).isSome = true) ∧
    (engineOf folds (isTask 0xF006) = none ∧ itemWaits folds (isTask 0xF006) = false ∧
      (∀ o ∈ folds.rules.overrides, seenByAll folds o (List.range 8) = true ∧ o.image ≠ 0) ∧
      (∀ o ∈ (sliceAt folds 7).vlanOver, seenByAll folds o [7] = true)) ∧
    (fld exports .expColCtl [3] 31 31 = 1 ∧ fld exports .expColCtl [3] 30 30 = 1 ∧ puntTarget exports (0x40 + 3) = true ∧
      engineOf exports (fun i => isTask 0xF007 i && i.params == [byte 3]) = none ∧
      itemWaits exports (fun i => isTask 0xF007 i && i.params == [byte 3]) = false ∧ (collectorAt exports 3).records.length = 1 ∧
      (collectorAt exports 3).firstTick + ticksOfNs (max 1 (fld exports .actCfg [] 23 16) * 1000000) ≤ exports.sched.ticked) := by
  decide +kernel
theorem witness_SchedulerAndTasks_micro :
    ((engineAt (microEngine 0x1B) 11).item.isSome = true ∧ (engineAt (microEngine 0x1B) 11).stack = [5] ∧
      (∀ fmt ∈ [0x18, 0x19, 0x1A, 0x1B], (microAt (microEngine fmt) 0x10FFF).map (fun x => bits x.2 31 27) = some fmt) ∧
      (microAt crowded 0x10FFF).map (fun x => bits x.2 31 27) = some 0x1B ∧ (engineAt crowded 11).uaddr = 0x10FFF ∧
      (microEngine 0x1B).sched.attention = false ∧ (microEngine 0x1B).power.state ≠ 1) := by decide +kernel

/-- A device on the chain: its links, whether it is the root, and its address. -/
def linked (up0 up1 root : Bool) (addr : Option Nat) : State :=
  { serves with chain := { serves.chain with up := [up0, up1], root := root, addr := addr } }
/-- A NOP sent from the root to device 5, unacknowledged, its limit at tick 100. -/
def relayed5 : Relayed := ⟨{ cmd 0 0 with dev := 5 }, 0, [], true, false, 1, 100⟩
def sentOn : State := let s := linked false true true (some 0); atTick 100 { s with chain := { s.chain with relayed := [relayed5] }, sched := { s.sched with ticked := 100 } }
theorem witness_ChainCommands :
    (let s := linked true true true (some 0)
     FixedParts s ∧ s.rim.transition = none ∧ s.sched.items = [] ∧ chainUp s 0 = true ∧ s.chain.root = true) ∧
    (let s := linked true true false none
     s.chain.root = false ∧ s.chain.addr = none ∧ chainUp s 0 = true ∧ chainUp s 1 = true ∧ chainUp (linked true false false none) 1 = false) ∧
    (let s := linked true true false (some 5)
     chainUp s 1 = true ∧ s.chain.rxBuf = [] ∧ mayForward s 0 = true ∧ (cmd 0 0).dev ≠ 5 ∧ { cmd 0 0 with dev := 5 }.dev = 5) ∧
    (FixedParts sentOn ∧ chainUp sentOn 1 = true ∧ sentOn.chain.root = true ∧ sentOn.chain.relayed = [relayed5] ∧ relayed5.sent = true ∧
      relayed5.acked = false ∧ relayed5.header.viaChain = none ∧ relayed5.header.replyRing < lostRing ∧
      (ringAt sentOn (relayed5.header.fn / 2) 1 relayed5.header.replyRing).en = true ∧
      answerFits sentOn relayed5.header ⟨0, 0, 0, []⟩ = true ∧ answerFits sentOn relayed5.header (.of stTimeout) = true ∧
      relayed5.deadline ≤ sentOn.sched.ticked) ∧
    (let s := linked true false false (some 5)
     s.rim.started = true ∧ chainUp s 0 ≠ false ∧ chainUp s 1 ≠ true ∧ s.chain.relayed = [] ∧
     fld (put .chainCfg [] (2 ^ 31) s) .chainCfg [] 31 31 = 1) ∧
    (let s := { serves with chain := { serves.chain with enumerating := some (cmd 3 0) } }
     s.chain.enumerating = some (cmd 3 0) ∧ (cmd 3 0).viaChain = none ∧ (ringAt s 0 1 0).en = true ∧
     answerFits s (cmd 3 0) (.ok (enumData 64 false false)) = true) := by
  unfold FixedParts; decide +kernel
/-- The program processor at host port 1. -/
def host1 : Requester := ⟨2, false⟩
/-- Semaphore 3 held by host port 1's PF0. -/
def held3 : State := { serves with host := { serves.host with sems := [(3, 3)], ports := setAt serves.host.ports 1 { HostPort.reset with up := true } } }
/-- The rings of host port 1 enabled, its command ring 15 halted. -/
def ringsOn : State := { serves with host := { serves.host with rings := [(64 + 15, { Ring.reset with en := true, halted := true }), (64 + 16 + 15, { Ring.reset with en := true })] } }
theorem host_parts : FixedParts held3 ∧ tsorted held3.host.sems = true ∧ held3.rim.started = true := by
  unfold FixedParts; decide +kernel
theorem ring_writes_reach :
    Reaches ringsOn host1 (RegName.addr .crPi [1, 15]) .crPi [1, 15] ∧ Reaches ringsOn host1 (RegName.addr .rrCi [1, 15]) .rrCi [1, 15] ∧
    Reaches ringsOn host1 (RegName.addr .erCi [1, 3]) .erCi [1, 3] := by
  unfold Reaches; decide +kernel
theorem ring_setups_reach :
    Reaches ringsOn host1 (RegName.addr .erCfg [1, 3]) .erCfg [1, 3] ∧
    Reaches ringsOn host1 (RegName.addr .crCfg [1, 15]) .crCfg [1, 15] ∧ Reaches ringsOn host1 (RegName.addr .rrCfg [1, 15]) .rrCfg [1, 15] := by
  unfold Reaches; decide +kernel
theorem sem_writes_reach :
    Reaches held3 host1 (RegName.addr .sem [3]) .sem [3] ∧ Reaches held3 host0 (RegName.addr .sem [3]) .sem [3] := by
  unfold Reaches; decide +kernel
theorem witness_HostCommands :
    (tget 0 held3.host.sems 3 = 2 + 1 ∧ (held3.host.ports.getD 1 HostPort.reset).up = true ∧
      domainUp held3 (RegName.addr .sem [3]) = true ∧ locate (RegName.addr .sem [3]) = some (.sem, [3]) ∧
      host1.id = 2 ∧ Who.permits .priv host0.id = true ∧ tget 0 held3.host.sems 4 = 0) ∧
    ((ringAt ringsOn 1 2 3).en = false ∧ bit (2 ^ 31) 31 = true ∧ bit (2 ^ 31) 30 = false ∧ (ringAt ringsOn 1 1 15).en = true ∧
      (ringAt ringsOn 1 0 15).en = true ∧ (ringAt ringsOn 1 0 15).halted = true ∧
      (let v := 3 * 2 ^ 30 + fld ringsOn .crCfg [1, 15] 24 20 * 2 ^ 20
       bit v 31 = true ∧ bit v 30 = true ∧ bits v 24 20 = fld ringsOn .crCfg [1, 15] 24 20)) := by
  decide +kernel

/-- Channel 31 with DMA_CTL in force and a state. -/
def channel (ctl : Nat) (c : DmaChannel) (s : State) : State :=
  { setCell s (RegName.addr .dmaCtl [31]) ⟨BitVec.ofNat 32 ctl, BitVec.ofNat 32 ctl, false⟩ with dma := [(31, c)] }
def copyOn : Nat := 2 ^ 31
/-- A copy descriptor: owned, 4096 bytes, the last of its list. -/
def copyBytes : List Byte := le 8 0 ++ le 8 0x1000 ++ le 8 0x2000 ++ le 3 4096 ++ zeros 1 ++ le 4 (2 ^ 31)
/-- The channel about to run it, its rate unlimited. -/
def copies : State := setCell (channel copyOn { DmaChannel.reset with state := 2, cur := 0x40 } serves) (RegName.addr .dmaLimit [31]) ⟨0, 0, false⟩
/-- A descriptor in progress. -/
def descriptor (d : Nat) : Descriptor := ⟨0x40, 0, 0x1000, 0, d, true, false, true, []⟩
/-- A copy out of the trace buffer while the core dies leave. -/
def leaving : State :=
  let s := channel copyOn { DmaChannel.reset with state := 2, doing := some (descriptor 4096) } serves
  atTick 625000000 { s with power := { s.power with state := 1, graceFrom := some 0 } }
/-- The frame punted with reason RULE to channel 31 of host port 1, which receives; a message of collector 7 waits for it. -/
def receives : State :=
  let s := channel (2 ^ 31 + 2 * 2 ^ 26) { DmaChannel.reset with state := 2, doing := some { descriptor 128 with trace := false } } (withFrame (fun f => { f with stage := .punted, punt := some 0x20 }) admitted)
  let s := setCell (setCell s (RegName.addr .puntMap [0x20]) ⟨0x9F000000#32, 0x9F000000#32, false⟩) (RegName.addr .puntMap [0x47]) ⟨0x9F000000#32, 0x9F000000#32, false⟩
  { modStore s 7 (fun c => { c with punt := [0] }) with actions := { s.actions with collectors := [(7, ⟨0, [], 0, [(0, zeros 40)]⟩)] } }
theorem channel_writes_reach :
    Reaches serves host1 (RegName.addr .dmaCtl [31]) .dmaCtl [31] ∧ Reaches serves host1 (RegName.addr .cqCi [31]) .cqCi [31] ∧
    (let idle := channel copyOn { DmaChannel.reset with state := 1 } serves
     Reaches idle host1 (RegName.addr .dmaCtl [31]) .dmaCtl [31]) := by
  unfold Reaches; decide +kernel
theorem witness_DmaCommands :
    ((chanAt serves 31).held = none ∧ chanOn serves 31 = false ∧
      bits copyOn 30 28 = 0 ∧ bit copyOn 25 = false ∧ bit copyOn 31 = true) ∧
    (let idle := channel copyOn { DmaChannel.reset with state := 1 } serves
     chanOn idle 31 = true ∧ (chanAt idle 31).state = 1 ∧
     bits (copyOn + 4 * 2 ^ 28) 30 28 = 4 ∧ bits (copyOn + 2 ^ 30) 27 26 = fld idle .dmaCtl [31] 27 26 ∧
     fld idle .dmaCtl [31] 25 25 = 0 ∧ bit (copyOn + 2 ^ 25) 25 = true ∧ bits (copyOn + 2 ^ 25) 30 28 = 0 ∧
     (chanAt idle 31).inject = none ∧ (∀ sl, sl < 8 → (storeAt idle sl).punt = [])) ∧
    ((chanAt (channel copyOn { DmaChannel.reset with state := 4 } serves) 31).state = 4 ∧ bits (copyOn + 2 * 2 ^ 28) 30 28 = 2 ∧
      (chanAt (channel copyOn { DmaChannel.reset with state := 3 } serves) 31).state = 3 ∧ bits (copyOn + 2 ^ 28) 30 28 = 1) ∧
    (let d := Descriptor.ofBytes 0x40 copyBytes
     chanOn copies 31 = true ∧ (chanAt copies 31).state = 2 ∧ copies.power.state ≠ 2 ∧ (chanAt copies 31).doing = none ∧
     (chanAt copies 31).cur = 0x40 ∧ bit (leAt copyBytes 28 4) 31 = true ∧ bit (leAt (zeros 32) 28 4) 31 = false ∧
     fld copies .dmaLimit [31] 23 0 = 0 ∧ chanMode copies 31 = 0 ∧ (chanAt copies 31).moved = 0 ∧ d.valid copies 0 = true ∧
     d.trace = false ∧ d.int = false ∧ d.len = 4096 ∧ fld copies .dmaCtl [31] 25 25 = 0) ∧
    ((chanAt leaving 31).doing = some (descriptor 4096) ∧ (descriptor 4096).domainLeaves leaving (chanMode leaving 31) = true ∧
      graceOver leaving ((descriptor 4096).graceStart leaving) = true ∧ leaving.power.leaving = [] ∧ serves.power.leaving = [] ∧
      (chanAt leaving 31).inject = none ∧ (chanAt leaving 31).held = none) ∧
    (receives.power.state ≠ 2 ∧ receives.chain.addr.getD 0 = 0 ∧ (chanAt receives 31).doing.isSome = true ∧ chanMode receives 31 = 2 ∧
      puntHead receives 7 31 = some 0 ∧ (frame0 receives).tail = .good ∧ diesLeave receives = false ∧
      (∀ i ∈ (storeAt receives 7).punt, ((frameAt receives i).map (fun g => puntTarget receives (g.punt.getD 0))) = some true) ∧
      (collectorAt receives 7).waiting.length = 1 ∧ fld receives .puntMap [0x47] 28 24 = 31 ∧ puntTarget receives 0x47 = true ∧
      (let far := { receives with chain := { receives.chain with addr := some 5 } }
       far.chain.addr.getD 0 ≠ 0 ∧ puntTarget far 0x47 = true ∧ far.chain.upward = [] ∧ chainUp far (Machine.upPort far) = false)) := by
  decide +kernel

/-- Stacks trained, every pseudo-channel live. -/
def trained : State := { base with hbm := { base.hbm with trainDone := true } }
/-- Stack 3 at a temperature, in quarters of a degree. -/
def hot (t : Nat) : State := { trained with rim := { trained.rim with temps := [(27, t)] } }
/-- Two parity errors in a row on channel 63. -/
def thirdInRow : State := { trained with hbm := { trained.hbm with parity := [(63, 2)] } }
/-- A register with a value in force. -/
def forced (r : RegName) (v : Nat) (s : State) : State := setCell s (r.addr []) ⟨BitVec.ofNat 32 v, BitVec.ofNat 32 v, false⟩
/-- A power state, entered at tick 0. -/
def inPower (k : Nat) (s : State) : State := { s with power := { s.power with state := k } }
theorem witness_controllers :
    (pcServes trained 127 = true ∧ narrow 0x0C0C0C0C = false ∧ narrow 0x0B0C0C0C = true ∧ narrow 0x0C0C0C0B = true) ∧
    (pcServes trained (63 * 2) = true ∧ pcServes trained (63 * 2 + 1) = true ∧ tget 0 trained.hbm.parity 63 ≠ 2) ∧
    (pcServes thirdInRow (63 * 2) = true ∧ pcServes thirdInRow (63 * 2 + 1) = true ∧ tget 0 thirdInRow.hbm.parity 63 = 2) ∧
    (pcServes (hot 340) 127 = true ∧ tfind (hot 340).rim.temps (24 + 127 / 32) = some 340 ∧
      bit (hot 340).power.stackPwr (127 / 32) = true ∧ sint 16 340 = 340 ∧ sint 16 319 < 320 ∧ sint 16 320 = 320 ∧
      tfind (hot 319).rim.temps (24 + 127 / 32) = some 319) ∧
    (pcServes trained 0 = true ∧ fld trained .hbmCfg [] 23 16 ≠ 0) := by decide +kernel
theorem witness_power_writes_reach :
    Reaches trained host0 (RegName.addr .hbmRetire []) .hbmRetire [] ∧ Reaches base host0 (RegName.addr .pwrMacro []) .pwrMacro [] ∧
    Reaches base host0 (RegName.addr .pwrChiplet []) .pwrChiplet [] ∧ Reaches base host0 (RegName.addr .pwrStack []) .pwrStack [] := by
  unfold Reaches; decide +kernel
theorem witness_MemoryAndPower :
    (bits 0x5245007F 6 0 = 127 ∧ bits 0x5245007F 31 16 = 0x5245 ∧ trained.hbm.trainDone = true ∧ pcLive trained 127 = true) ∧
    (let s := forced .pwrMacro (2 ^ 32 - 1) base
     macrosIn (inForce s .pwrMacro []) (2 ^ 31 - 1) = [31] ∧ macrosIn (2 ^ 31 - 1) (inForce s .pwrMacro []) = [] ∧
     bit s.power.macros 31 = true) ∧
    (let s := { forced .pwrMacro (2 ^ 31 - 1) base with power := { base.power with macros := 2 ^ 31 - 1 } }
     macrosIn (inForce s .pwrMacro []) (2 ^ 32 - 1) = [] ∧ macrosIn (2 ^ 32 - 1) (inForce s .pwrMacro []) = [31] ∧
     bit s.power.chiplets (31 / 4) = true ∧ s.rim.startDone = true ∧ tfind s.line.heldModes 31 = none ∧
     fld s .portCtl [250] 31 31 = 0 ∧ 250 ∈ macroPorts s 31) ∧
    (chipletsIn (inForce base .pwrChiplet []) 127 = [7] ∧ chipletsIn 127 (inForce base .pwrChiplet []) = [] ∧
      bit base.power.chiplets 7 = true) ∧
    (let s := forced .pwrChiplet 127 base
     chipletsIn (inForce s .pwrChiplet []) 255 = [] ∧ chipletsIn 255 (inForce s .pwrChiplet []) = [7] ∧ s.rim.startDone = true) ∧
    (stacksIn (inForce base .pwrStack []) (0x53500000 + 7) = [3] ∧ stacksIn (0x53500000 + 7) (inForce base .pwrStack []) = [] ∧
      bits (0x53500000 + 7) 31 16 = 0x5350 ∧ base.power.leaving = [] ∧ stackTouched base 3 = false ∧
      stackTouched { base with dma := [(0, { DmaChannel.reset with state := 2, doing := some { descriptor 64 with onStacks := [3] } })] } 3 = true) := by decide +kernel
theorem witness_standby_reach :
    (let s := forced .pwrMacro 0 base
     Reaches s host0 (RegName.addr .pwrCtl []) .pwrCtl [] ∧ Reaches (inPower 2 s) host0 (RegName.addr .pwrCtl []) .pwrCtl [] ∧
     Reaches (inPower 4 base) host0 (RegName.addr .pwrCtl []) .pwrCtl []) := by
  unfold Reaches; decide +kernel
theorem witness_standby :
    (let s := forced .pwrMacro 0 base
     bits 0x53420001 31 16 = 0x5342 ∧ bits 0x53420001 1 0 = 1 ∧ inForce s .pwrMacro [] = 0 ∧ s.rim.minimal = false ∧ s.power.state = 0) ∧
    (bits 0x53420002 31 16 = 0x5342 ∧ bits 0x53420002 1 0 = 2 ∧ (inPower 2 base).power.state = 2 ∧
      tsorted (inPower 2 base).counters.gens = true ∧ (inPower 4 base).power.state = 4 ∧ bit (inPower 2 base).power.stackPwr 3 = true) ∧
    ((inPower 1 base).power.state = 1 ∧ standbyQuiet (inPower 1 base) = true ∧ dmaTouches (inPower 1 base) = false ∧ standbyQuiet leaving = true ∧ dmaTouches leaving = true) ∧
    (let s := inPower 1 (atTick (ticksOfNs 1000000000) nopWaits)
     s.power.state = 1 ∧ standbyQuiet s = false ∧ s.power.since + ticksOfNs 1000000000 ≤ s.time.tick) := by decide +kernel

/-- What a start finds where all is well. -/
def sound : StartInfo := ⟨false, false, true, [], [], [], []⟩
/-- A device about to start: as after reset, its fuses a lifecycle and a number of sessions. -/
def starting (lc sessions : Nat) : State :=
  { State.reset with rim := { RimState.reset with otp := { State.reset.rim.otp with lifecycle := lc, sessions := sessions } } }
/-- Its first turn done. -/
def halfStarted : State := { base with rim := { base.rim with startDone := false } }
/-- The crystal stopped (1), or a sensor past its limit (2). -/
def held (k : Nat) : State := { base with rim := { base.rim with hold := k } }
/-- An epoch is open. -/
def opened : State := { base with lid := { base.lid with opened := true } }
/-- A reset of kind 0 whose wait for idle engines, or whose close, goes on. -/
def resetting (closing : Bool) : State := { opened with
  rim := { opened.rim with transition := some ⟨0, 0, closing, 5⟩ }
  time := { opened.time with tick := 5 + ticksOfNs (if closing then 5000000000 else 100000000) } }
/-- A minute past supplies good. -/
def stuckStart : State := { halfStarted with time := { base.time with tick := ticksOfNs 60000000000 } }
/-- A board record in force: 16 regulators, tamper enabled. -/
def onBoard : State := { opened with rim := { opened.rim with boardLive := zeros 140 ++ [1, 0, 0, 0, 16] } }
/-- The readings of the sensors: SENSORS 0 to 3 at T, a stack at 84.75 °C, the rest silent. -/
def readings (t : Nat) : List (Option Nat) := [some t, none, some 399, some 0xFFFF] ++ List.replicate 20 none ++ [some 339]
def readOf (temps : List (Option Nat)) : Table Nat := (List.range 32).filterMap (fun k => ((temps.getD k none).map (fun t => (k, t % 65536))))
theorem witness_starts :
    ((starting 1 16383).rim.hold = 0 ∧ (starting 1 16383).rim.started = false ∧ (starting 1 16383).rim.otp.sessions < 16384 ∧
      16384 ≤ (starting 2 16384).rim.otp.sessions ∧ (starting 2 16384).rim.started = false ∧ (starting 2 16384).rim.hold = 0 ∧
      { sound with otpFault := true }.otpFault = true ∧ sound.otpFault = false ∧ (starting 3 0).rim.otp.faulty = false ∧ (starting 3 0).rim.otp.lifecycle = 3 ∧
      (starting 3 0).rim.started = false ∧ (starting 3 0).rim.hold = 0) ∧
    (halfStarted.rim.hold = 0 ∧ halfStarted.rim.started = true ∧ halfStarted.rim.startDone = false ∧ halfStarted.rim.minimal = false ∧
      halfStarted.rim.transition = none ∧ halfStarted.power.state = 0 ∧
      8 < (trainFailures { sound with ca := [0, 1, 2, 62, 63] }).length ∧ trainFailures sound = []) ∧
    (stuckStart.rim.started = true ∧ stuckStart.rim.startDone = false ∧ stuckStart.rim.minimal = false ∧
      ticksOfNs 60000000000 ≤ stuckStart.time.tick) ∧
    base.rim.hold ≠ 1 ∧ base.rim.hold = 0 ∧ (held 1).rim.hold = 1 ∧ (held 2).rim.hold ≠ 1 := by decide +kernel
theorem witness_reset_request : Reaches opened host0 (RegName.addr .glbResetReq []) .glbResetReq [] ∧
    Reaches base host0 (RegName.addr .glbResetReq []) .glbResetReq [] := by unfold Reaches; decide +kernel
theorem witness_StartsAndResets :
    (opened.rim.transition = none ∧ opened.sched.items = [] ∧ opened.power.state ≠ 2 ∧ opened.lid.closing = none ∧
      opened.lid.opened = true ∧ base.lid.opened = false ∧ base.rim.transition = none ∧ base.sched.items = [] ∧
      base.power.state ≠ 2 ∧ base.lid.closing = none) ∧
    ((resetting false).rim.transition = some ⟨0, 0, false, 5⟩ ∧ 5 + ticksOfNs 100000000 ≤ (resetting false).time.tick ∧ (resetting false).lid.closing = none ∧ (resetting false).lid.opened = true ∧
      (resetting true).rim.transition = some ⟨0, 0, true, 5⟩ ∧ 5 + ticksOfNs 5000000000 ≤ (resetting true).time.tick) ∧
    ((∃ e ∈ readOf (readings 500), atLimit (some (sensorShut e.1)) e.2 = true) ∧
      (∀ e ∈ readOf (readings 400), atLimit (some (sensorShut e.1)) e.2 = false ∧ atLimit (sensorCrit base e.1) e.2 = false) ∧
      ((0, 400) ∈ readOf (readings 400) ∧ ((sensorWarn base 0 : Nat) : Int) ≤ sint 16 400) ∧
      ((3, 0xFFFF) ∈ readOf (readings 400) ∧ sint 16 0xFFFF ≤ ((sensorWarn base 3 : Nat) : Int) - 20) ∧
      (∀ e ∈ readOf (readings 400), e.1 ≠ 1)) ∧
    (onBoard.rim.hold ≠ 1 ∧ pmbCount onBoard = 16 ∧ (∀ k, k < 16 → (List.replicate 16 65536).getD k 0 % 65536 = 0) ∧
      (List.replicate 15 0 ++ [1]).getD 15 0 % 65536 ≠ 0 ∧ (∀ j, j < 16 → j ≠ 15 → (List.replicate 15 0 ++ [1]).getD j 0 % 65536 = 0)) ∧
    (tamperEn onBoard = true ∧ onBoard.rim.tamper = false ∧ onBoard.lid.opened = true ∧ tamperEn base = true ∧
      { base.rim with tamper := true }.tamper = true) := by decide +kernel

/-- A request in mailbox M: an operation, tag 9, LEN and the bytes of its words. -/
def asking (m op len : Nat) (p : List Byte) (s : State) : State :=
  let words := [op, 9, len, 0] ++ (List.range (cdiv p.length 4)).map (fun i => leAt p (4 * i) 4)
  let s := ((List.range words.length).zip words).foldl (fun s e =>
    setCell s (RegName.addr .mbxReq [m, e.1]) ⟨BitVec.ofNat 32 e.2, BitVec.ofNat 32 e.2, false⟩) s
  { s with rim := { s.rim with boxes := setAt s.rim.boxes m ⟨true, false, 0⟩ } }
/-- The mailbox is served next, and its request has the length the operation needs. -/
def readyFor (s : State) (m op need : Nat) : Bool := asks s op m && decide (reqLen s m ≤ 4080) && decide (need ≤ reqLen s m)
/-- Changed slots, update and image that runs. -/
def withSlots (a b : ImageSlot) (u : Option Update) (k : Option Nat) (s : State) : State :=
  { s with rim := { s.rim with slots := [a, b], update := u, running := k } }
/-- Lifecycle in force and burned. -/
def withLife (lc : Nat) (s : State) : State :=
  { s with rim := { s.rim with lifecycle := lc, pendingLc := lc, otp := { s.rim.otp with lifecycle := lc } } }
theorem witness_MailboxReads :
    readyFor (asking 3 0x01 0 [] base) 3 0x01 0 = true ∧ FixedParts (asking 3 0x01 0 [] base) ∧
    (let s := asking 2 0x02 10 (zeros 10) base
     readyFor s 2 0x02 10 = true ∧ logOldest s ≤ leAt (reqBytes s 2) 0 8) ∧
    readyFor (asking 0 0x03 4 (le 4 64) base) 0 0x03 4 = true ∧ readyFor (asking 1 0x04 48 (zeros 48) base) 1 0x04 48 = true ∧
    readyFor (asking 1 0x05 0 [] base) 1 0x05 0 = true := by unfold FixedParts; decide +kernel
theorem witness_Images :
    (let s := asking 2 0x10 4 (le 4 4194304) (withSlots ⟨5, []⟩ ⟨2, []⟩ none (some 0) base)
     readyFor s 2 0x10 4 = true ∧ leAt (reqBytes s 2) 0 4 = 4194304 ∧ onTrial s = false ∧ s.rim.update = none ∧
     [0, 1].find? (fun k => (slotAt s k).state != 5 && (slotAt s k).state != 4) = some 1) ∧
    (let s := asking 2 0x11 5 (le 4 511 ++ [7]) (withSlots ⟨1, zeros 512⟩ ⟨5, []⟩ (some ⟨2, 0, 512⟩) (some 1) base)
     readyFor s 2 0x11 5 = true ∧ s.rim.update = some ⟨2, 0, 512⟩ ∧
     leAt (reqBytes s 2) 0 4 + ((reqBytes s 2).drop 4).length ≤ 512 ∧ ((reqBytes s 2).drop 4).length ≤ 4064) ∧
    (let s := asking 0 0x13 0 [] (withSlots ⟨5, []⟩ ⟨4, []⟩ none (some 1) base)
     readyFor s 0 0x13 0 = true ∧ s.rim.minimal = false ∧ s.rim.startDone = true ∧ s.rim.running = some 1 ∧ (slotAt s 1).state = 4 ∧
     (slotAt s 0).state = 5) := by decide +kernel
/-- A signed image of no bytes, level 1, whose signing key and signature are zeros. -/
def image : List Byte :=
  le 4 0x52494D46 ++ le 2 1 ++ zeros 2 ++ le 4 1 ++ le 4 1 ++ zeros 16 ++ sha384 [] ++ zeros 96 ++ zeros 240 ++ zeros 96
/-- It stands in slot 1, the fuses hold the hash of its key, and IMG_END is asked for. -/
def imageWritten : State :=
  asking 0 0x12 0 [] (withSlots ⟨5, []⟩ ⟨1, image⟩ (some ⟨0, 1, 512⟩) (some 0)
    { base with rim := { base.rim with otp := { base.rim.otp with rootHash := sha384 (slice image 80 96) } } })
theorem image_form : (leAt image 0 4 == 0x52494D46 && leAt image 4 2 == 1 && decide (imgRim image ≤ 1572864) &&
    decide (imgPatch image ≤ 4096) && decide (imgMatch image ≤ 64) && decide (imgBytes image ≤ image.length)) = true := by decide +kernel
theorem image_digest : (imgDigest image == sha384 (slice image 512 (imgBytes image - 512)) && matchesOk image) = true := by decide +kernel
theorem image_level : imageLevelOk imageWritten image = true := by decide +kernel
theorem image_ok {s : State} {b : List Byte} (form : (leAt b 0 4 == 0x52494D46 && leAt b 4 2 == 1 && decide (imgRim b ≤ 1572864) &&
      decide (imgPatch b ≤ 4096) && decide (imgMatch b ≤ 64) && decide (imgBytes b ≤ b.length)) = true)
    (root : (sha384 (slice b 80 96) == s.rim.otp.rootHash) = true)
    (signed : Config.ecdsaVerifies (slice b 80 96) (sha384 (le 1 7 ++ slice b 0 416)) (slice b 416 96) = true)
    (digest : (imgDigest b == sha384 (slice b 512 (imgBytes b - 512)) && matchesOk b) = true)
    (level : imageLevelOk s b = true) : imageOk s b = true := by
  unfold imageOk imageFormOk
  simp only [Bool.and_eq_true] at *
  tauto
/-- The premises of IMG_END, where the verifier that the spec names without giving it (an opaque constant) accepts the
signature. -/
theorem witness_ImgEnd (h : Config.ecdsaVerifies (slice image 80 96) (sha384 (le 1 7 ++ slice image 0 416)) (slice image 416 96) = true) :
    readyFor imageWritten 0 0x12 0 = true ∧ imageWritten.rim.update = some ⟨0, 1, 512⟩ ∧
    imageOk imageWritten (slotAt imageWritten 1).bytes = true := by
  have bytes : (slotAt imageWritten 1).bytes = image := by rfl
  have root : (sha384 (slice image 80 96) == imageWritten.rim.otp.rootHash) = true := beq_self_eq_true _
  refine ⟨by decide +kernel, by rfl, ?_⟩
  rw [bytes]
  exact image_ok image_form root h image_digest image_level
/-- A board record of 212 bytes. -/
def record : List Byte := let b := le 4 0x42445243 ++ le 2 212 ++ zeros 202; b ++ le 4 (crc32c b)
theorem witness_MailboxWrites :
    (let s := withLife 1 (asking 0 0x20 8 ([2, 0, 0, 0] ++ le 4 0x4C435943) base)
     readyFor s 0 0x20 8 = true ∧ byteAt (reqBytes s 0) 0 % 4 = 2 ∧ leAt (reqBytes s 0) 4 4 = 0x4C435943 ∧ s.rim.otp.lifecycle ≠ 3 ∧
     s.rim.lifecycle + 1 = 2 ∧ s.rim.minimal = false) ∧
    (let s := asking 0 0x20 8 ([1, 0, 0, 0] ++ le 4 0x4C435943) base
     readyFor s 0 0x20 8 = true ∧ byteAt (reqBytes s 0) 0 % 4 = 1 ∧ leAt (reqBytes s 0) 4 4 = 0x4C435943 ∧ s.rim.otp.lifecycle ≠ 3 ∧
     s.rim.lifecycle + 1 = 1 ∧ s.rim.minimal = false ∧ s.rim.otp.dak = none) ∧
    (let s := withLife 2 (asking 2 0x20 8 ([3, 0, 0, 0] ++ le 4 0x4C435943) base)
     readyFor s 2 0x20 8 = true ∧ byteAt (reqBytes s 2) 0 % 4 = 3 ∧ leAt (reqBytes s 2) 4 4 = 0x4C435943 ∧ s.rim.otp.lifecycle ≠ 3 ∧
     s.rim.lifecycle < 3) ∧
    (let s := asking 0 0x21 1 [1] { base with lid := { base.lid with opened := true } }
     readyFor s 0 0x21 1 = true ∧ s.rim.transition = none ∧ s.sched.items = [] ∧ s.power.state ≠ 2 ∧ s.lid.closing = none ∧
     s.lid.opened = true) ∧
    (let s := asking 2 0x22 212 record base
     readyFor s 2 0x22 0 = true ∧ boardOk (reqBytes s 2) = true) := by decide +kernel

/-! ### Small tests, from the worked examples of the spec -/

/-- 02, worked example of R36 and R37: the segment from 198.51.100.20 port 443 to 192.0.2.77 port 51012 in zone 0x01A2B. -/
theorem test_key_image :
    (let k := mkKey 0x1A2B false 6 0xC6336414 443 0xC000024D 51012 0
     k.2 = true ∧ k.1.word0 = 0x01A2B006 ∧ slice k.1.image 16 4 = [0xC0, 0, 2, 0x4D] ∧ slice k.1.image 32 8 = [0xC6, 0x33, 0x64, 0x14, 0xC7, 0x44, 1, 0xBB] ∧
     k.1.image.length = 48 ∧ (mkKey 0x1A2B false 6 0xC000024D 51012 0xC6336414 443 0).1 = k.1) := by decide +kernel

/-- 03, worked example: the places of h1 0xB3380E15 and the handle of its way 5 in generation 3; 01, worked example: bank 97. -/
theorem test_skein_places :
    0xB3380E15 % 2 ^ 24 = 0x380E15 ∧ bankOf 0x380E15 = 21 ∧ hotBucketOf 0x380E15 = 21532 ∧ groupOf 0x380E15 = 14350 ∧
    mkHandle 3 (0x380E15 * 8 + 5) = 0x19C070AD := by decide +kernel

/-- 06, worked example of R195: a 9-byte message and two changes of its last bytes. -/
theorem test_fcs_adjust :
    crc32 [0x31, 0x32, 0x33, 0x34, 0x35, 0x36, 0x37, 0x38, 0x39] = 0xCBF43926 ∧
    fcsAdjust 0xCBF43926 [0x39] [0x38] 0 = 0xBCF309B0 ∧ fcsAdjust 0xCBF43926 [0x38, 0x39] [0x39, 0x38] 0 = 0xA5E838F1 := by decide +kernel

/-- 06, Table 06-12: header checksum after TTL and source address change. -/
theorem test_header_checksum :
    cksAdjust (cksAdjust (cksAdjust 0xBA44 0x4006 0x3F06) 0x0A14 0xC633) 0x1E28 0x6405 = 0xB947 := by decide +kernel

/-- 06, Table 06-12: TCP checksum after source address and port change. -/
theorem test_tcp_checksum :
    cksAdjust (cksAdjust (cksAdjust 0x3A5C 0x0A14 0xC633) 0x1E28 0x6405) 0x9C41 0x1441 = 0xC05F := by decide +kernel

/-- 06, worked example of LB_POOL_REPLACE: 1,024 buckets by weights 5, 3, 1. -/
theorem test_bucket_shares : shares 1024 [(0, 5), (1, 3), (2, 1)] = [(0, 569), (1, 341), (2, 114)] := by decide +kernel

/-- 06, the same pool: the bucket of h 0x9E3779B9. -/
theorem test_bucket_of_hash : 0x9E3779B9 * 1024 / 2 ^ 32 = 632 := by decide +kernel

/-- The step and the transition entry of the worked example of 04. -/
def exampleProgram : SliceState := { SliceState.reset with
  steps := tput ⟨0, 0, false⟩ SliceState.reset.steps 0x300 ⟨0x8440848004109A2026C9882003001000, 15, true⟩
  trans := tput ⟨0, 0, false⟩ SliceState.reset.trans 0x200 ⟨0x000600FF98A00000, 15, true⟩ }
/-- The IPv4 header of Table 06-12. -/
def exampleHeader : List Byte :=
  [0x45, 0, 0, 0x28, 0x1C, 0x46, 0x40, 0, 0x40, 6, 0xBA, 0x44, 0x0A, 0x14, 0x1E, 0x28, 0xCB, 0, 0x71, 9] ++ zeros 26
theorem test_parse_step :
    (let r := progStep exampleProgram 0 (Walk.start exampleHeader) 0x300
     r.1.fail = 0 ∧ r.1.ended = false ∧ r.2 = 0x314 ∧ r.1.cursor = 20 ∧ byteAt r.1.area 27 = 0x40 ∧ byteAt r.1.area 26 = 0) := by decide +kernel

/-- 08, Table 08-1: the tokens of a shaper across a change of rate; its 39,320 ns are tick 49,150, and R271's rounding down of the
rate repays the debt one tick later. -/
theorem test_shaper_debt :
    (let b1 := (Bucket.full 12000 0).spend 9020
     let b2 := (b1.update 10000000 12000 225).spend 9020
     let b3 := b2.update 10000000 12000 1250
     b1.bytes = 2980 ∧ ofInt 32 b2.bytes = 0xFFFFE949 ∧ ofInt 32 b3.bytes = 0xFFFFED4A ∧
     (b3.update 1000000 12000 49150).bytes = -1 ∧ (b3.update 1000000 12000 49151).bytes = 0) := by decide +kernel

/-- 08, Table 08-2: the colours of five frames 10 µs apart. -/
def meterRun : List Nat → Policer → List Colour
  | [], _ => []
  | t :: r, p => let a := (p.update t).meter 1538; a.1 :: meterRun r a.2
theorem test_policer_colours :
    meterRun [0, 12500, 25000, 37500, 50000]
      ⟨0x90A00014, 100000, 200000, 3000, 6000, Bucket.full 3000 0, Bucket.full 6000 0, 0, false⟩ = [.green, .green, .yellow, .yellow, .red] := by
  decide +kernel

/-- 08, worked example of Table 08-5: windows of the new list of port 16. -/
theorem test_max_window :
    (let g : GateState := ⟨[], [(0, 0x80 * 2 ^ 32 + 300), (1, 0x7F * 2 ^ 32 + 99200), (2, 500)], [], 1, true, 3, 100000, 0, none, 0, 0x80⟩
     maxWindow g 7 = some 300 ∧ maxWindow g 0 = some 99200 ∧ maxWindow g 6 = some 99200) := by decide +kernel

/-- 09, worked epoch: the nominal boundary of 900 s, CLOSE_OFFSET of a pulse 3.2 ms early, the leaf of zone 0x1A2B. -/
theorem test_epoch_numbers :
    nominalAfter 900 (1700000099 * 1000000000) = 1700000100 * 1000000000 ∧ ofInt 32 (-3200000) = 0xFFCF2C00 ∧
    0x1A2B * 32 / 4096 = 0x34 ∧ 0x1A2B * 32 % 4096 = 1376 := by decide +kernel

/-- 15, Table 15-6: SKN_EVENT at SEQ 6, PC_LOSS (bit 2) and REC_UE (bit 1) raised, then acknowledged. -/
def sknOff : Nat := RegName.addr .sknEvent []
def sknStep2 : State := raiseEv { base with regs := { base.regs with events := [(sknOff, ⟨6, []⟩)] } } .sknEvent [] [2]
def sknStep3 : State := raiseEv sknStep2 .sknEvent [] [1]
def sknStep4 : State := run (.registerWrite host0 true .w16 (sknOff + 2) 0x0007) sknStep3
def sknStep5 : State := run (.eventAck host0 sknOff 0x00070000) sknStep4
def sknStep6 : State := run (.eventAck ⟨3, false⟩ sknOff 0x00090000) sknStep5
def sknStep7 : State := run (.eventAck ⟨3, false⟩ sknOff 0x00080000) sknStep6
theorem test_acknowledgement_words :
    sknOff = 0x200000C ∧ [sknStep2, sknStep3, sknStep4, sknStep5, sknStep6, sknStep7].map (fun s => eventWord (eventAt s sknOff)) =
      [0x00070004, 0x00080006, 0x00080006, 0x00080002, 0x00080002, 0x00080000] := by decide +kernel
theorem test_acknowledgement_errors :
    sknStep4.regs.accLast = ⟨0x200000E, 1, 0, false, 1, true⟩ ∧ sknStep6.regs.accLast = ⟨0x200000C, 9, 3, false, 2, true⟩ := by decide +kernel

/-- 12, Table 12-11: how the parts of the aborted FLOW_FLUSH end, and of the resumed one. -/
theorem test_flush_parts :
    (let stops := [(3, 0x704000, false), (5, 0xB10000, false), (6, 0xC00000, false), (7, 0xF88000, false)]
     (fanEnds (cmd 0x0605 255) ([1, 0, 0, 0] ++ le 4 0x1A2B) stops true 1024).map (fun e => (e.1, e.2.1, e.2.2)) =
       [(0, 0, 0x200000), (1, 0, 0x400000), (2, 0, 0x600000), (3, 9, 0x704000), (4, 0, 0xA00000), (5, 9, 0xB10000), (6, 9, 0xC00000),
        (7, 9, 0xF88000)]) := by decide +kernel

/-- 14, Table 14-9: the first bytes of the punted frame's metadata. -/
theorem test_punt_metadata :
    (let f := { Frame.fresh 0 0 24 [] 0 0 with port := 24, rxLen := 64 }
     (puntMeta serves f 0x14 64 false).length = 64 ∧ slice (puntMeta serves f 0x14 64 false) 0 3 = [0x14, 0x18, 0] ∧
     slice (puntMeta serves f 0x14 64 false) 14 4 = [0x40, 0, 0x40, 0]) := by decide +kernel

/-- The check values of CRC-32C and SHA-384 of the standards that 03 and 09 name. -/
theorem test_crc32c : crc32c [0x31, 0x32, 0x33, 0x34, 0x35, 0x36, 0x37, 0x38, 0x39] = 0xE3069283 := by decide +kernel
theorem test_sha384 : (sha384 [0x61, 0x62, 0x63]).take 8 = [0xcb, 0x00, 0x75, 0x3f, 0x45, 0xa3, 0x5e, 0x8b] := by decide +kernel

/-- The table gives no row any bits. -/
theorem test_no_word_spells_a_command (n w : Nat) : decodeTableWord n w = none := rfl

/-! ### Terms that the checks of well-formedness refuse -/

theorem refused_requester : Instr.wellFormed (.tdSet ⟨5, false⟩ 0 0) = false := by decide +kernel
theorem refused_offset : Instr.wellFormed (.tdSet host0 2 0) = false ∧ Instr.wellFormed (.tdSet host0 (2 ^ 26) 0) = false := by decide +kernel
theorem refused_value : Instr.wellFormed (.tdSet host0 0 (2 ^ 32)) = false := by decide +kernel
theorem refused_header :
    Instr.wellFormed (.nop { cmd 0 0 with fn := 4 } []) = false ∧ Instr.wellFormed (.nop { cmd 0 0 with ring := 16 } []) = false ∧
    Instr.wellFormed (.nop { cmd 0 0 with replyRing := 17 } []) = false ∧ Instr.wellFormed (.nop { cmd 0 0 with dev := 64 } []) = false ∧
    Instr.wellFormed (.nop { cmd 0 0 with viaChain := some 2 } []) = false := by decide +kernel
theorem refused_fields :
    Instr.wellFormed (.nop { cmd 0 0 with opcode := 65536 } []) = false ∧ Instr.wellFormed (.nop { cmd 0 0 with slices := 256 } []) = false ∧
    Instr.wellFormed (.nop { cmd 0 0 with prio := 4 } []) = false ∧ Instr.wellFormed (.nop { cmd 0 0 with tag := 2 ^ 32 } []) = false ∧
    Instr.wellFormed (.nop { cmd 0 0 with cls := 4 } []) = false ∧ Instr.wellFormed (.nop { cmd 0 0 with order := 65536 } []) = false := by decide +kernel
theorem refused_parameters : Instr.wellFormed (.nop (cmd 0 0) (zeros 4097)) = false := by decide +kernel
theorem refused_places :
    Instr.wellFormed (.egressPick 256 none) = false ∧ Instr.wellFormed (.cellAdmit 8 []) = false ∧
    Instr.wellFormed (.frameReceive 256 [] false) = false ∧ Instr.wellFormed (.hbmRefresh 128) = false ∧
    Instr.wellFormed (.info 4) = false ∧ Instr.wellFormed (.timeOutEdge 4) = false := by decide +kernel
theorem accepted_terms :
    Instr.wellFormed (.nop (cmd 0 0) []) = true ∧ Instr.wellFormed (.tdSet host0 (RegName.addr .tdCtl [1]) (2 ^ 32 - 1)) = true ∧
    Instr.wellFormed (.hbmRefresh 127) = true := by decide +kernel

end Sys2Proof.Tests
end

