-- ==== Sys2Proof/Proofs/PlainWrite.lean ====
section
/-! PROOF. An accepted 32-bit write of a plain register lands in its shadow and changes nothing else (00/R14, R16, R17; 15/R451,
R453). -/

namespace Sys2Proof.Machine

/-- An aligned 32-bit write access is one write of the window. -/
theorem exec_registerWrite_w32 {off v : Nat} (req : Requester) (s : State) (hoff : off % 4 = 0) (hv : v < 2 ^ 32) :
    exec (.registerWrite req true .w32 off v) s = .next (writeReg s req off v) := by
  change Host.Outcome.next (accessWrite s req .w32 off v) = _
  simp only [accessWrite, hoff, if_true, Nat.mod_eq_of_lt hv]

/-- The offset of GLB_RESET_REQ holds no other register. -/
theorem locate_glbResetReq : locate (RegName.addr .glbResetReq []) = some (.glbResetReq, []) := by decide +kernel

/-- A write that is not refused and is not one of GLB_RESET_REQ is an accepted write: R465's silent repetition of a reset
request is a write of that register alone. -/
theorem writeReg_of_reaches {s : State} {req : Requester} {off : Nat} {r : RegName} {ix : List Nat} (v : Nat)
    (h : Reaches s req off r ix) (hr : r ≠ .glbResetReq) : writeReg s req off v = writeAccepted s req off r ix v := by
  have hoff : off ≠ RegName.addr .glbResetReq [] := by
    rintro rfl
    have hloc := judge_locate h
    rw [locate_glbResetReq] at hloc
    cases hloc
    exact hr rfl
  have hj : judgeWrite s req off = .ok (r, ix) := h
  simp [writeReg, hoff, hj]

/-- An accepted write of a plain register lands in its shadow, without more. -/
theorem writeAccepted_of_plain {r : RegName} (s : State) (req : Requester) (off : Nat) (ix : List Nat) (v : Nat)
    (h : plainReg r = true) : writeAccepted s req off r ix v = landWrite s r ix v := by
  obtain ⟨htimed, hqueued, hhosted, hwindowed, hcol, hpol, -⟩ := plain_none (s := s) (req := req) (off := off) (ix := ix) (v := v) h
  simp only [plainReg, Bool.and_eq_true, Bool.not_eq_true'] at h
  obtain ⟨⟨-, hseq⟩, hcommit⟩ := h
  simp [writeAccepted, htimed, hqueued, hhosted, hwindowed, hcol, hpol, hseq, hcommit]

/-- Settles O6: no special rule takes the write, so it is `landWrite`, which replaces the cell of one offset. -/
theorem plainWriteLandsInItsShadow : Obligations.PlainWriteLandsInItsShadow := by
  intro s req off v r ix halign hv hreach haddr hplain
  obtain ⟨-, -, -, -, -, -, hreset⟩ := plain_none (s := s) (req := req) (off := off) (ix := ix) (v := v) hplain
  have hexec : exec (.registerWrite req true .w32 off v) s = .next (landWrite s r ix v) := by
    rw [exec_registerWrite_w32 req s halign hv, writeReg_of_reaches v hreach hreset, writeAccepted_of_plain s req off ix v hplain]
  refine ⟨landWrite s r ix v, _, hexec, rfl, regCell_landWrite_same s r ix v, fun q jx hq => ?_⟩
  exact regCell_landWrite_ne s r ix v q jx (haddr ▸ hq)

end Sys2Proof.Machine
end

