-- ==== Sys2Proof/Proofs/FrameTable.lean ====
section
/-! SUPPORT. What is found in a sparse table after an insertion or a removal, and what a change of one frame does
to the table of frames (01/R22). -/

namespace Sys2Proof.Machine

@[simp] theorem tfind_tins_same {α : Type} (t : Table α) (i : Nat) (x : α) : tfind (tins t i x) i = some x := by
  induction t with
  | nil => simp [tins, tfind]
  | cons e r ih =>
    obtain ⟨k, v⟩ := e
    unfold tins
    split
    · simp [tfind]
    · next hlt =>
      split
      · simp [tfind]
      · next hne => simpa [tfind, hne] using ih

theorem tfind_tins_ne {α : Type} (t : Table α) {i j : Nat} (x : α) (h : j ≠ i) : tfind (tins t i x) j = tfind t j := by
  induction t with
  | nil => simp [tins, tfind, h]
  | cons e r ih =>
    obtain ⟨k, v⟩ := e
    unfold tins
    split
    · simp [tfind, h]
    · split
      · next heq => subst heq; simp [tfind, h]
      · simp only [tfind, ih]

theorem tins_tins_same {α : Type} (t : Table α) (i : Nat) (x y : α) : tins (tins t i x) i y = tins t i y := by
  induction t with
  | nil => simp [tins]
  | cons e r ih =>
    obtain ⟨k, v⟩ := e
    by_cases hlt : i < k
    · simp [tins, hlt]
    · by_cases heq : i = k
      · simp [tins, heq]
      · simp [tins, hlt, heq, ih]

theorem tfind_tdel_ne {α : Type} (t : Table α) {i j : Nat} (h : j ≠ i) : tfind (tdel t i) j = tfind t j := by
  induction t with
  | nil => rfl
  | cons e r ih =>
    obtain ⟨k, v⟩ := e
    unfold tdel
    split
    · next heq => subst heq; simp [tfind, h]
    · split
      · rfl
      · simp only [tfind, ih]

/-! ### The table of frames -/

theorem onFrame_of_some {s : State} {id : Nat} {f : Frame} (h : frameAt s id = some f) (g : Frame → State) :
    onFrame s id g = g f := by
  unfold onFrame; rw [h]

/-- A change of a frame that is there replaces its entry in the table of frames, and nothing else. -/
theorem modFrame_of_some {s : State} {id : Nat} {f : Frame} (h : frameAt s id = some f) (g : Frame → Frame) :
    modFrame s id g = { s with frames := tins s.frames id (g f) } := by
  unfold modFrame; rw [h]

theorem modFrame_modFrame (s : State) (id : Nat) (g h : Frame → Frame) :
    modFrame (modFrame s id g) id h = modFrame s id (fun f => h (g f)) := by
  cases hf : frameAt s id with
  | none => simp only [modFrame, hf]
  | some f =>
    have hg : frameAt { s with frames := tins s.frames id (g f) } id = some (g f) := tfind_tins_same ..
    rw [modFrame_of_some hf, modFrame_of_some hg, modFrame_of_some hf, tins_tins_same]

end Sys2Proof.Machine
end

