-- ==== Sys2Proof/Proofs/FlowStore.lean ====
section
/-! SUPPORT. The rules of the flow store's operations (02, 03): what is read from the banks, from the hot and the cold tier
and from the pending keys after an update of each. -/

namespace Sys2Proof.Machine

/-! ### Banks -/

@[simp] theorem bankAt_modBank_same (s : State) (b : Nat) (f : BankState → BankState) :
    bankAt (modBank s b f) b = f (bankAt s b) := tget_tupd_same ..

theorem bankAt_modBank (s : State) (b c : Nat) (f : BankState → BankState) :
    bankAt (modBank s b f) c = if c = b then f (bankAt s b) else bankAt s c := tget_tupd ..

/-- A key for which nothing pends has what its bank enters for it. -/
theorem pendOf_append {s : State} {p : PendKey} (h : pendOf s p.key = none) :
    pendOf (modBank s (bankOf p.key.bucket) (fun b => { b with pending := b.pending ++ [p] })) p.key = some p := by
  unfold pendOf at h ⊢
  simp [List.find?_append, h]

/-! ### The cold tier -/

@[simp] theorem coldAt_modCold_same (s : State) (idx : Nat) (f : ColdRec → ColdRec) :
    coldAt (modCold s idx f) idx = f (coldAt s idx) := tget_tupd_same ..

@[simp] theorem bankAt_modCold (s : State) (idx : Nat) (f : ColdRec → ColdRec) (b : Nat) :
    bankAt (modCold s idx f) b = bankAt s b := rfl

/-- A cold bank after an addition and a subtraction, each field cut to its width (02/R52). -/
def Counts.moved (o add sub : Counts) : Counts :=
  ⟨ofInt 40 ((o.billPkts : Int) + add.billPkts - sub.billPkts), ofInt 48 ((o.billBytes : Int) + add.billBytes - sub.billBytes),
   ofInt 32 ((o.voidPkts : Int) + add.voidPkts - sub.voidPkts), ofInt 40 ((o.voidBytes : Int) + add.voidBytes - sub.voidBytes)⟩

/-- The bank of a cold record that holds the counts of a parity. -/
def ColdRec.bankOf (c : ColdRec) (bank : Nat) : Counts := if bank % 2 = 0 then c.bank0 else c.bank1

/-- A cold record with the bank of a parity moved. -/
def ColdRec.move (bank : Nat) (add sub : Counts) (c : ColdRec) : ColdRec :=
  if bank % 2 = 0 then { c with bank0 := c.bank0.moved add sub } else { c with bank1 := c.bank1.moved add sub }

@[simp] theorem ColdRec.body_move (bank : Nat) (add sub : Counts) (c : ColdRec) : (c.move bank add sub).body = c.body := by
  unfold ColdRec.move; split <;> rfl

@[simp] theorem ColdRec.bankOf_move (bank : Nat) (add sub : Counts) (c : ColdRec) :
    (c.move bank add sub).bankOf bank = (c.bankOf bank).moved add sub := by
  unfold ColdRec.move ColdRec.bankOf; split <;> rfl

/-- Moving a cold bank replaces its fields in the cold record; what wraps goes to the Lid. -/
theorem bankMove_eq (s : State) (idx bank : Nat) (add sub : Counts) :
    ∃ lid, bankMove s idx bank add sub = { modCold s idx (ColdRec.move bank add sub) with lid := lid } := by
  have hcold : modCold s idx (ColdRec.move bank add sub) = modCold s idx (fun c =>
      if bank % 2 = 0 then { c with bank0 := ((coldAt s idx).bankOf bank).moved add sub }
      else { c with bank1 := ((coldAt s idx).bankOf bank).moved add sub }) := by
    unfold modCold tupd ColdRec.move ColdRec.bankOf coldAt
    split <;> rfl
  rw [hcold]
  unfold bankMove
  extract_lets
  split
  · exact ⟨s.lid, rfl⟩
  · exact ⟨_, rfl⟩

theorem skein_bankMove (s : State) (idx bank : Nat) (add sub : Counts) :
    (bankMove s idx bank add sub).skein = (modCold s idx (ColdRec.move bank add sub)).skein := by
  obtain ⟨lid, h⟩ := bankMove_eq s idx bank add sub
  rw [h]

/-- Moving a cold bank changes the flow store and the Lid alone. -/
theorem bankMove_frame (s : State) (idx bank : Nat) (add sub : Counts) :
    ∃ skein lid, bankMove s idx bank add sub = { s with skein := skein, lid := lid } := by
  obtain ⟨lid, h⟩ := bankMove_eq s idx bank add sub
  exact ⟨_, lid, h⟩

@[simp] theorem coldAt_bankMove_same (s : State) (idx bank : Nat) (add sub : Counts) :
    coldAt (bankMove s idx bank add sub) idx = (coldAt s idx).move bank add sub := by
  unfold coldAt; rw [skein_bankMove]; exact coldAt_modCold_same ..

@[simp] theorem bankAt_bankMove (s : State) (idx bank : Nat) (add sub : Counts) (b : Nat) :
    bankAt (bankMove s idx bank add sub) b = bankAt s b := by
  unfold bankAt; rw [skein_bankMove]; rfl

@[simp] theorem bursts_bankMove (s : State) (idx bank : Nat) (add sub : Counts) :
    (bankMove s idx bank add sub).skein.bursts = s.skein.bursts := by rw [skein_bankMove]; rfl

/-- With no update of a record outstanding there is nothing to complete. -/
theorem settleBursts_of_none {s : State} {idx : Nat} (h : ∀ o ∈ s.skein.bursts, o.coldIndex ≠ idx) :
    settleBursts s idx = s := by
  have hmine : s.skein.bursts.filter (fun o => o.coldIndex == idx) = [] := by simpa using h
  have hrest : s.skein.bursts.filter (fun o => o.coldIndex != idx) = s.skein.bursts := by simpa using h
  unfold settleBursts
  rw [hmine]
  simp only [withSkein, hrest, List.foldl_nil]

/-! ### The hot tier -/

/-- A hot record that is replaced is what its slot holds, in its merge register or outside. -/
@[simp] theorem hotAt_putHot_same (s : State) (slot : Nat) (r : HotRec) : hotAt (putHot s slot r) slot = some r := by
  cases h : tfind s.skein.merged slot <;> simp [hotAt, putHot, withSkein, h]

/-- Replacing a hot record changes the flow store alone. -/
theorem putHot_frame (s : State) (slot : Nat) (r : HotRec) : ∃ skein, putHot s slot r = { s with skein := skein } :=
  ⟨_, rfl⟩

@[simp] theorem notices_putHot (s : State) (slot : Nat) (r : HotRec) : (putHot s slot r).skein.notices = s.skein.notices := by
  cases h : tfind s.skein.merged slot <;> simp [putHot, withSkein, h]

@[simp] theorem hotAt_accessHot_same (s : State) (slot : Nat) (r : HotRec) :
    hotAt (accessHot s slot r) slot = some { r with recent := true } := by
  simp [hotAt, accessHot, withSkein]

/-- A change of a record's body with a hot copy is made in the hot copy. -/
theorem modBody_of_hot {s : State} {idx slot : Nat} {r : HotRec} (h : hotOf s idx = some (slot, r)) (f : FlowBody → FlowBody) :
    modBody s idx f = putHot s slot { r with body := f r.body } := by
  unfold modBody; rw [h]

/-- A change of a record's body changes the flow store alone. -/
theorem modBody_frame (s : State) (idx : Nat) (f : FlowBody → FlowBody) :
    ∃ skein, modBody s idx f = { s with skein := skein } := by
  unfold modBody
  split
  · exact putHot_frame ..
  · split <;> exact ⟨_, rfl⟩

@[simp] theorem notices_modBody (s : State) (idx : Nat) (f : FlowBody → FlowBody) :
    (modBody s idx f).skein.notices = s.skein.notices := by
  unfold modBody
  split
  · exact notices_putHot ..
  · split <;> rfl

end Sys2Proof.Machine
end

