-- ==== Sys2Proof/Proofs/RecordUpkeep.lean ====
section
/-! PROOF. What happens to records behind the lookups: write-backs, merge registers, updates of second bursts, notices and
corrections (01/R25; 02/R51, R52, R68; 03/R78, R81; 06/R220). -/

namespace Sys2Proof.Machine

/-! ### What each command does when its conditions hold -/

/-- A bank with one entry of its write-back buffer freed. -/
def writeBackFreed (s : State) (bank n : Nat) : State :=
  modBank s bank (fun b => { b with writeBack := b.writeBack.eraseIdx n })

/-- A write-back with no update outstanding: the buffer entry frees, the cold home takes the body and the hot counts. -/
theorem writeBackDone_of_answers {s : State} {bank n : Nat} {e : WbEntry} (he : (bankAt s bank).writeBack[n]? = some e)
    (hhome : homeAnswers s e.bucket = true) (hnone : ∀ o ∈ s.skein.bursts, o.coldIndex ≠ e.record.idx) :
    writeBackDone bank n s =
      bankMove (modCold (writeBackFreed s bank n) e.record.idx (fun c => { c with body := e.record.body })) e.record.idx
        e.record.bank e.record.counts Counts.zero := by
  simp [writeBackDone, writeBackFreed, he, hhome, settleBursts_of_none hnone]

/-- A merge register is released into its hot slot. -/
theorem mergeRelease_of_quiet {s : State} {slot : Nat} {r : HotRec} (hr : tfind s.skein.merged slot = some r)
    (hquiet : inMerge s slot = false) :
    mergeRelease slot s = withSkein s (fun k => { k with
      hot := tins k.hot slot r, merged := tdel k.merged slot, mergedAt := tdel k.mergedAt slot }) := by
  simp [mergeRelease, hr, hquiet]

/-- A clean read of a second burst applies the oldest update of its record. -/
theorem secondBurstRead_clean {s : State} {idx i : Nat} {o : BurstOp}
    (hi : s.skein.bursts.findIdx? (fun o => o.coldIndex == idx) = some i) (ho : s.skein.bursts[i]? = some o)
    (hhome : homeAnswers s (idx / 8) = true) :
    secondBurstRead idx .ok s = applyBurst (withSkein s (fun k => { k with bursts := k.bursts.eraseIdx i })) o := by
  simp [secondBurstRead, hi, ho, hhome, homeRead]

/-- An update of a valid record moves the bank it names. -/
theorem skein_applyBurst_of_valid {s : State} {o : BurstOp} (hvalid : (wayAt s o.coldIndex).valid = true) :
    (applyBurst s o).skein = (bankMove s o.coldIndex o.bank o.add o.sub).skein := by
  obtain ⟨skein, lid, h⟩ := bankMove_frame s o.coldIndex o.bank o.add o.sub
  unfold applyBurst
  rw [if_pos hvalid, h]
  cases o.settle <;> rfl

/-- An update of a valid record changes the flow store, and the Lid, where the frame it corrects is settled. -/
theorem applyBurst_frame {s : State} {o : BurstOp} (hvalid : (wayAt s o.coldIndex).valid = true) :
    ∃ skein lid, applyBurst s o = { s with skein := skein, lid := lid } := by
  obtain ⟨skein, lid, h⟩ := bankMove_frame s o.coldIndex o.bank o.add o.sub
  unfold applyBurst
  rw [if_pos hvalid, h]
  cases o.settle with
  | none => exact ⟨skein, lid, rfl⟩
  | some x => exact ⟨skein, _, rfl⟩

/-- The notice taken off the list. -/
def noticeGone (s : State) (n : Nat) : State := withSkein s (fun k => { k with notices := k.notices.eraseIdx n })

/-- A notice leaves the list, and reaches a twin that is current. -/
theorem twinNotice_of_listed {s : State} {n : Nat} {x : TwinNotice} (hx : s.skein.notices[n]? = some x) :
    twinNotice n s = if current s x.handle then
      modBody (noticeGone s n) (handleIdx x.handle) (fun b => if x.rst then b.toTcp 7 else b.onFin x.dir)
    else noticeGone s n := by
  unfold twinNotice; rw [hx]; rfl

/-- A correction of a frame counted in a hot record's own bank, which holds what is taken and has room for what is added. -/
theorem correctRecord_of_hot {s : State} {c : Correction} {slot : Nat} {r : HotRec}
    (hhot : hotOf s (handleIdx c.count.handle) = some (slot, r)) (hbank : r.bank = c.count.bank)
    (hholds : r.counts.holds c.sub = true) (hfits : hotFits r.counts c.add = true) :
    correctRecord s c = outstandingSub (putHot s slot { r with counts := r.counts.swap c.add c.sub }) c.slice c.count.bank := by
  simp [correctRecord, hhot, hbank, hholds, hfits]

/-- A correction taken off the list and made in its port and class entries. -/
def correctionBooked (s : State) (n : Nat) (c : Correction) : State :=
  portMove { s with lid := { s.lid with corrections := s.lid.corrections.eraseIdx n } } c.port c.count.cls c.count.bank false
    c.add c.sub

/-- A correction of a frame whose record is current is applied to the record, after its port and class entries. -/
theorem correction_of_current {s : State} {n : Nat} {c : Correction} (ue : Bool) (hc : s.lid.corrections[n]? = some c)
    (hflow : c.flowless = false) (hcur : current s c.count.handle = true) :
    correction n ue s = correctRecord (correctionBooked s n c) c := by
  have hcur' (l : LidState) : current { s with lid := l } c.count.handle = true := hcur
  simp only [correction, correctionBooked, hc, hflow, portMove, hcur', Bool.false_eq_true, if_false, if_true]

/-- One billable frame of a length taken from counts and one void frame added. -/
theorem Counts.swap_void (a : Counts) (bytes len : Nat) :
    a.swap (oneFrame false bytes) (oneFrame true len) =
      ⟨a.billPkts - 1, a.billBytes - len, a.voidPkts + 1, a.voidBytes + bytes⟩ := rfl

theorem Counts.holds_oneFrame {a : Counts} {len : Nat} (hp : 1 ≤ a.billPkts) (hb : len ≤ a.billBytes) :
    a.holds (oneFrame true len) = true := by
  simp [Counts.holds, oneFrame, hp, hb]

/-! ### The clauses -/

theorem exec_writeBackDone_frees {s : State} {bank n : Nat} {e : WbEntry} (he : (bankAt s bank).writeBack[n]? = some e)
    (hhome : homeAnswers s e.bucket = true) (hnone : ∀ o ∈ s.skein.bursts, o.coldIndex ≠ e.record.idx) :
    ∃ t skein lid, exec (.writeBackDone bank n) s = .next t ∧ t = { s with skein := skein, lid := lid } ∧
      (bankAt t bank).writeBack = (bankAt s bank).writeBack.eraseIdx n ∧ (coldAt t e.record.idx).body = e.record.body := by
  have hdone := writeBackDone_of_answers he hhome hnone
  obtain ⟨skein, lid, hframe⟩ := bankMove_frame (modCold (writeBackFreed s bank n) e.record.idx
    (fun c => { c with body := e.record.body })) e.record.idx e.record.bank e.record.counts Counts.zero
  refine ⟨writeBackDone bank n s, skein, lid, rfl, hdone.trans hframe, ?_, ?_⟩
  · rw [hdone, bankAt_bankMove, bankAt_modCold, writeBackFreed, bankAt_modBank_same]
  · rw [hdone, coldAt_bankMove_same, ColdRec.body_move, coldAt_modCold_same]

theorem exec_mergeRegisterRelease_slot {s : State} {slot : Nat} {r : HotRec} (hr : tfind s.skein.merged slot = some r)
    (hquiet : inMerge s slot = false) :
    ∃ t hot merged mergedAt, exec (.mergeRegisterRelease slot) s = .next t ∧
      t = { s with skein := { s.skein with hot := hot, merged := merged, mergedAt := mergedAt } } ∧ tfind hot slot = some r ∧
      ∀ n, n ≠ slot → tfind hot n = tfind s.skein.hot n ∧ tfind merged n = tfind s.skein.merged n := by
  have hexec : exec (.mergeRegisterRelease slot) s = .next (mergeRelease slot s) := rfl
  rw [hexec, mergeRelease_of_quiet hr hquiet]
  exact ⟨_, _, _, _, rfl, rfl, tfind_tins_same .., fun n hn => ⟨tfind_tins_ne _ _ hn, tfind_tdel_ne _ hn⟩⟩

theorem exec_secondBurstRead_moves {s : State} {idx i : Nat} {o : BurstOp}
    (hi : s.skein.bursts.findIdx? (fun o => o.coldIndex == idx) = some i) (ho : s.skein.bursts[i]? = some o)
    (hhome : homeAnswers s (idx / 8) = true) (hvalid : (wayAt s idx).valid = true) :
    ∃ t skein lid, exec (.secondBurstRead idx .ok) s = .next t ∧ t = { s with skein := skein, lid := lid } ∧
      t.skein.bursts = s.skein.bursts.eraseIdx i ∧
      (coldAt t idx).bankOf o.bank = ((coldAt s idx).bankOf o.bank).moved o.add o.sub := by
  have hidx : o.coldIndex = idx := by
    obtain ⟨hlt, hfound, -⟩ := List.findIdx?_eq_some_iff_getElem.mp hi
    rw [List.getElem?_eq_getElem hlt, Option.some.injEq] at ho
    simpa [ho] using hfound
  subst hidx
  have hread := secondBurstRead_clean hi ho hhome
  generalize hu : withSkein s (fun k => { k with bursts := k.bursts.eraseIdx i }) = u at hread
  have hvalid' : (wayAt u o.coldIndex).valid = true := by rw [← hu]; exact hvalid
  have hcold : coldAt u o.coldIndex = coldAt s o.coldIndex := by rw [← hu]; rfl
  have hskein := skein_applyBurst_of_valid hvalid'
  obtain ⟨skein, lid, hframe⟩ := applyBurst_frame hvalid'
  refine ⟨secondBurstRead o.coldIndex .ok s, skein, lid, rfl, ?_, ?_, ?_⟩
  · rw [hread, hframe, ← hu]; rfl
  · rw [hread, hskein, bursts_bankMove, ← hu]; rfl
  · rw [hread, coldAt, hskein, ← coldAt, coldAt_bankMove_same, ColdRec.bankOf_move, hcold]

theorem exec_twinNotice_reaches {s : State} {n : Nat} {x : TwinNotice} (hx : s.skein.notices[n]? = some x) :
    ∃ t skein, exec (.twinNotice n) s = .next t ∧ t = { s with skein := skein } ∧
      t.skein.notices = s.skein.notices.eraseIdx n ∧
      (∀ slot r, current s x.handle = true → x.rst = true → hotOf s (handleIdx x.handle) = some (slot, r) →
        hotAt t slot = some { r with body := r.body.toTcp 7 }) := by
  have hnotice := twinNotice_of_listed hx
  by_cases hcur : current s x.handle = true
  · rw [if_pos hcur] at hnotice
    obtain ⟨skein, hframe⟩ :=
      modBody_frame (noticeGone s n) (handleIdx x.handle) (fun b => if x.rst then b.toTcp 7 else b.onFin x.dir)
    refine ⟨twinNotice n s, skein, rfl, hnotice.trans hframe, ?_, fun slot r _ hrst hhot => ?_⟩
    · rw [hnotice, notices_modBody]; rfl
    · have hhot' : hotOf (noticeGone s n) (handleIdx x.handle) = some (slot, r) := hhot
      rw [hnotice, modBody_of_hot hhot', hotAt_putHot_same, if_pos hrst]
  · rw [if_neg hcur] at hnotice
    exact ⟨twinNotice n s, _, rfl, hnotice, by rw [hnotice]; rfl, fun _ _ h => absurd h hcur⟩

theorem exec_correction_hot {s : State} {n slot : Nat} {c : Correction} {r : HotRec} (ue : Bool)
    (hc : s.lid.corrections[n]? = some c) (hflow : c.flowless = false) (hbill : c.count.billable = true)
    (hcur : current s c.count.handle = true) (hhot : hotOf s (handleIdx c.count.handle) = some (slot, r))
    (hbank : r.bank = c.count.bank) (hpkts : 1 ≤ r.counts.billPkts) (hbytes : c.count.bytes ≤ r.counts.billBytes)
    (hfits : hotFits r.counts (oneFrame false c.bytes) = true) :
    ∃ t skein lid, exec (.correction n ue) s = .next t ∧ t = { s with skein := skein, lid := lid } ∧
      lid.corrections = s.lid.corrections.eraseIdx n ∧
      hotAt t slot = some { r with counts := ⟨r.counts.billPkts - 1, r.counts.billBytes - c.count.bytes,
        r.counts.voidPkts + 1, r.counts.voidBytes + c.bytes⟩ } := by
  have hsub : c.sub = oneFrame true c.count.bytes := by rw [Correction.sub, hbill]
  have hholds : r.counts.holds c.sub = true := hsub ▸ Counts.holds_oneFrame hpkts hbytes
  have hcorrect := (correction_of_current ue hc hflow hcur).trans (correctRecord_of_hot hhot hbank hholds hfits)
  have hadd : c.add = oneFrame false c.bytes := rfl
  have hslot := hotAt_putHot_same (correctionBooked s n c) slot { r with counts := r.counts.swap c.add c.sub }
  obtain ⟨skein, hput⟩ := putHot_frame (correctionBooked s n c) slot { r with counts := r.counts.swap c.add c.sub }
  rw [hput] at hcorrect hslot
  refine ⟨correction n ue s, skein, _, rfl, hcorrect, rfl, ?_⟩
  rw [hcorrect]
  exact hslot.trans (by rw [hadd, hsub, Counts.swap_void])

/-- Settles O42: each command, its conditions met, is one update of the flow store and of the Lid, read back by the rules of
the flow store. -/
theorem recordUpkeep : Obligations.RecordUpkeep := by
  intro s
  refine ⟨fun bank n e he hhome hnone => exec_writeBackDone_frees he hhome hnone,
    fun slot r hr hquiet => exec_mergeRegisterRelease_slot hr hquiet, fun b => rfl, ?_,
    fun n x hx => exec_twinNotice_reaches hx,
    fun n c slot r ue hc hflow hbill hcur hhot hbank hpkts hbytes hfits =>
      exec_correction_hot ue hc hflow hbill hcur hhot hbank hpkts hbytes hfits⟩
  intro idx i o hi ho hhome hvalid
  obtain ⟨t, skein, lid, hexec, hframe, hbursts, hmoved⟩ := exec_secondBurstRead_moves hi ho hhome hvalid
  exact ⟨t, skein, lid, hexec, hframe, hbursts, congrArg Counts.billPkts hmoved, congrArg Counts.billBytes hmoved,
    congrArg Counts.voidPkts hmoved, congrArg Counts.voidBytes hmoved⟩

end Sys2Proof.Machine
end

