-- ==== Sys2Proof/Proofs/FlowLookups.lean ====
section
/-! PROOF. A lookup that hits a hot record, and one that misses (01/R24, R26, R28; 02/R66, R70; 03/R73, R78, R79, R82, R86). -/

namespace Sys2Proof.Machine

/-! ### The turn of a slice at a bank -/

/-- The head's slice has had its turn at the bank of the head's key (01/R24). -/
def turnTaken (s : State) (f : Frame) : State :=
  modBank s (bankOf f.head.key.bucket) (fun b => { b with lastSlice := f.slice })

@[simp] theorem writeBack_turnTaken (s : State) (f : Frame) (b : Nat) :
    (bankAt (turnTaken s f) b).writeBack = (bankAt s b).writeBack := by
  rw [turnTaken, bankAt_modBank]
  split
  · next h => rw [h]
  · rfl

@[simp] theorem pending_turnTaken (s : State) (f : Frame) (b : Nat) :
    (bankAt (turnTaken s f) b).pending = (bankAt s b).pending := by
  rw [turnTaken, bankAt_modBank]
  split
  · next h => rw [h]
  · rfl

theorem pendOf_turnTaken (s : State) (f : Frame) (k : Key) : pendOf (turnTaken s f) k = pendOf s k := by
  simp [pendOf]

theorem findWriteBack_turnTaken (s : State) (f : Frame) (k : Key) : findWriteBack (turnTaken s f) k = findWriteBack s k := by
  simp [findWriteBack]

theorem evictable_turnTaken (s : State) (f : Frame) : evictable (turnTaken s f) = evictable s := by
  funext e
  have hmerge : inMerge (turnTaken s f) e.1 = inMerge s e.1 := rfl
  simp [evictable, hmerge]

/-- The choice of slots does not look at whose turn it was. -/
theorem chooseVictim_turnTaken (s : State) (f : Frame) (hb k : Nat) (key : Option Key) :
    chooseVictim (turnTaken s f) hb k key = chooseVictim s hb k key := by
  have hreserved : reservedSlots (turnTaken s f) hb key = reservedSlots s hb key := by simp [reservedSlots]
  have hocc : occupants (turnTaken s f) = occupants s := rfl
  have hcost : setCost (turnTaken s f) hb = setCost s hb := rfl
  simp [chooseVictim, hreserved, hocc, hcost, evictable_turnTaken]

/-! ### Where a lookup goes -/

/-- A head that is admitted to its bank, with no check-bit fault, is served there. -/
theorem flowLookup_of_admitted {s : State} {id : Nat} {f : Frame} (hf : frameAt s id = some f) (hstage : f.stage = .parsed)
    (hlookup : f.lookup = .toDo) (hroom : missUsed s f.slice < 4096)
    (horder : overtakes s id f (fun g => g.lookup == .toDo) = false) (hturn : outOfTurn s f = false) :
    flowLookup id ⟨[], [], [], false, false, false⟩ s = serveLookup (turnTaken s f) id := by
  rw [flowLookup, onFrame_of_some hf]
  simp [hstage, hlookup, hroom, horder, hturn]
  rfl

section
variable {s : State} {id : Nat} {f : Frame} (hf : frameAt s id = some f) (hbehind : behindHeld s id f = false)
  (hwb : findWriteBack s f.head.key = none) (hpend : pendOf s f.head.key = none)
include hf hbehind hwb hpend

/-- A key with a hot record, in its merge register or outside, is a hot hit. -/
theorem serveLookup_of_hot {n : Nat} {r : HotRec} (hslot : findHot s f.head.key = some n) (hr : hotAt s n = some r) :
    serveLookup s id = hotHit s id r.idx := by
  rw [serveLookup, onFrame_of_some hf]
  cases hm : inMerge s n <;> simp [hbehind, hwb, hpend, hslot, hm, hr, Option.filter]

/-- A key without a hot record is looked for in its cold bucket. -/
theorem serveLookup_of_cold (hslot : findHot s f.head.key = none) : serveLookup s id = missHot s id f.head.key := by
  rw [serveLookup, onFrame_of_some hf]
  simp [hbehind, hwb, hpend, hslot]

end

/-! ### Stages of a lookup in the table of frames -/

/-- A head set to a stage of its lookup: its entry changes, the other frames and the rest of the state do not. -/
theorem missAt_leaves {s : State} {id : Nat} {f : Frame} (hf : frameAt s id = some f) (st : LookupStage) :
    ∃ frames f', missAt s id st = { s with frames := frames } ∧ (∀ j, j ≠ id → tfind frames j = frameAt s j) ∧
      tfind frames id = some f' ∧ f'.lookup = st :=
  ⟨_, _, modFrame_of_some hf _, fun _ hj => tfind_tins_ne _ _ hj, tfind_tins_same .., rfl⟩

/-- A frame counted at its first pass (02/R66, R70). -/
def Frame.counted (f : Frame) (bank handle cls zone : Nat) (bill : Bool) : Frame :=
  { f with count := { f.count with
      counted := true, billable := bill, bank := bank, handle := handle, zone := zone, bytes := f.rxLen, posted := true,
      cls := cls } }

/-- A frame found at its first pass by a record with this body (02/R45). -/
def Frame.foundBy (f : Frame) (b : FlowBody) (handle twin : Nat) (deny : Bool) : Frame :=
  { f with
    found := some { b with action := { b.action with verdict := if deny then 1 else b.action.verdict } },
    handle := handle, twin := twin, flowless := false, deepScan := b.action.deep }

theorem portMove_frame (s : State) (port cls bank : Nat) (flowless : Bool) (add sub : Counts) :
    ∃ lid, portMove s port cls bank flowless add sub = { s with lid := lid } := ⟨_, rfl⟩

theorem outstandingAdd_frame (s : State) (sl bank : Nat) : ∃ lid, outstandingAdd s sl bank = { s with lid := lid } :=
  ⟨_, rfl⟩

/-- Counting a frame changes the Lid and the frame. -/
theorem countFrame_of_some {s : State} {id : Nat} {f : Frame} (hf : frameAt s id = some f) (handle cls zone : Nat) (bill : Bool) :
    ∃ lid, countFrame s id handle cls zone bill =
      modFrame { s with lid := lid } id (fun g => g.counted (parity s) handle cls zone bill) := by
  obtain ⟨lid, hport⟩ := portMove_frame s f.port cls (parity s) false (oneFrame bill f.rxLen) Counts.zero
  obtain ⟨lid', hout⟩ := outstandingAdd_frame { s with lid := lid } f.slice (parity s)
  refine ⟨lid', ?_⟩
  rw [countFrame, onFrame_of_some hf]
  simp only [hport, hout]
  rfl

/-! ### A hot hit -/

/-- The record's verdict denies (06/R185). -/
def HotRec.denies (r : HotRec) : Bool := r.body.action.verdict == 1 || r.body.action.verdict == 3

/-- A hot record after a hit at a time: seen then, and counted. -/
def HotRec.hit (r : HotRec) (now : Nat) (add : Counts) : HotRec :=
  { r with counts := r.counts.add add, body := { r.body with lastSeen := now } }

/-- An access to a hot record of the open epoch's parity, with room in its counters, is made in its slot. -/
theorem accessRecord_of_hot {s : State} {idx n : Nat} {r : HotRec} (hhot : hotOf s idx = some (n, r)) (hbank : r.bank = parity s)
    (g : FlowBody → FlowBody) {add : Counts} (hfits : hotFits r.counts add = true) :
    accessRecord s idx g add = accessHot s n { r with counts := r.counts.add add, body := g r.body } := by
  simp [accessRecord, hhot, freshBank, hbank, addHot, hfits]

/-- A hot record serves a head that is no TCP segment, at its first pass: the record is hit, the frame counted, marked and
done. -/
theorem recordHit_of_hot {s : State} {id idx n : Nat} {f : Frame} {r : HotRec} (how : Nat) (hf : frameAt s id = some f)
    (hhot : hotOf s idx = some (n, r)) (hseg : f.segment = none) (hpass : f.pass = 0) (hposted : f.count.posted = false)
    (hbank : r.bank = parity s) (hfits : hotFits r.counts (oneFrame (!r.denies) f.rxLen) = true) :
    recordHit s id idx how false =
      lookupDone (modFrame (countFrame (accessHot s n (r.hit (seenNow s) (oneFrame (!r.denies) f.rxLen))) id (handleOf s idx)
        r.body.action.cls r.body.key.zone (!r.denies)) id
        (fun g => g.foundBy { r.body with lastSeen := seenNow s } (handleOf s idx) (coldAt s idx).twin r.denies)) id how := by
  have hbody : bodyOf s idx = r.body := by rw [bodyOf, hhot]
  have haccess := accessRecord_of_hot hhot hbank
    (fun x => { { r.body with lastSeen := seenNow s } with pinned := x.pinned }) hfits
  have hdeny : (r.body.action.verdict == 1 || r.body.action.verdict == 3 || false) = r.denies := Bool.or_false _
  rw [recordHit, onFrame_of_some hf]
  simp only [hbody, hseg, hpass, hposted, Bool.and_false, Bool.false_eq_true, if_false, beq_self_eq_true, Bool.not_false,
    Bool.and_self, if_true, hdeny, haccess]
  rfl

/-- What such a hit leaves: the record in its merge register, the Lid and the frame changed, nothing else. -/
theorem recordHit_of_hot_leaves {s : State} {id idx n : Nat} {f : Frame} {r : HotRec} (how : Nat) (hf : frameAt s id = some f)
    (hhot : hotOf s idx = some (n, r)) (hseg : f.segment = none) (hpass : f.pass = 0) (hposted : f.count.posted = false)
    (hbank : r.bank = parity s) (hfits : hotFits r.counts (oneFrame (!r.denies) f.rxLen) = true) :
    ∃ lid frames times, recordHit s id idx how false =
        { accessHot s n (r.hit (seenNow s) (oneFrame (!r.denies) f.rxLen)) with lid := lid, frames := frames } ∧
      tfind frames id = some { (f.counted (parity s) (handleOf s idx) r.body.action.cls r.body.key.zone (!r.denies)).foundBy
        { r.body with lastSeen := seenNow s } (handleOf s idx) (coldAt s idx).twin r.denies with
        lookup := .done, lookupHow := how, times := times } ∧
      ∀ j, j ≠ id → tfind frames j = frameAt s j := by
  have hhit := recordHit_of_hot how hf hhot hseg hpass hposted hbank hfits
  generalize hu : accessHot s n (r.hit (seenNow s) (oneFrame (!r.denies) f.rxLen)) = u at hhit ⊢
  have hfu : frameAt u id = some f := by rw [← hu]; exact hf
  have hpar : parity u = parity s := by rw [← hu]; rfl
  obtain ⟨lid, hcount⟩ := countFrame_of_some hfu (handleOf s idx) r.body.action.cls r.body.key.zone (!r.denies)
  have hfl : frameAt { u with lid := lid } id = some f := hfu
  have hframes : ({ u with lid := lid } : State).frames = s.frames := by rw [← hu]; rfl
  rw [hcount, hpar, lookupDone, modFrame_modFrame, modFrame_modFrame, modFrame_of_some hfl, hframes] at hhit
  exact ⟨lid, _, _, hhit, tfind_tins_same .., fun j hj => tfind_tins_ne _ _ hj⟩

/-! ### Misses -/

/-- A bank enters what pends for a key. -/
def enterPend (s : State) (p : PendKey) : State :=
  modBank s (bankOf p.key.bucket) (fun b => { b with pending := b.pending ++ [p] })

/-- What pends for the key of a full miss: its learn (02/R59, 03/R79). -/
def learnEntry (k : Key) (id tick : Nat) : PendKey := ⟨k, true, none, id, none, tick⟩

/-- What pends for a key whose tag line is read, with the slot that is reserved for it (03/R79). -/
def tagEntry (k : Key) (victim : Option Nat) (id tick : Nat) : PendKey := ⟨k, false, victim, id, none, tick⟩

/-- The slot that a choice of slots reserves. -/
def Victim.reserves : Victim → Option Nat
  | .slot n => some n
  | _ => Option.none

section
variable {s : State} {id : Nat} {k : Key} (hroom : (bankAt s (bankOf k.bucket)).pending.length < 256)
include hroom

/-- A key of an unplaced group is nowhere (03/R97). -/
theorem missHot_of_unplaced (hplaced : (groupAt s (groupOf k.bucket)).placed = false) : missHot s id k = fullMiss s id := by
  simp [missHot, Nat.not_le.mpr hroom, hplaced]

/-- A key whose home takes accesses has its tag line read, with the slots reserved that the choice gives (03/R79, R86). -/
theorem missHot_of_taking (htakes : homeTakes s k.bucket = true)
    (hchoice : chooseVictim s (hotBucketOf k.bucket) k.slots (some k) ≠ .wait) :
    missHot s id k = missAt (coldOps (enterPend s (tagEntry k (chooseVictim s (hotBucketOf k.bucket) k.slots (some k)).reserves
      id s.time.tick)) k.bucket 1) id .tagRead := by
  have hplaced : (groupAt s (groupOf k.bucket)).placed = true := by
    simp only [homeTakes, homeAnswers, Bool.and_eq_true] at htakes
    exact htakes.1.1
  cases hv : chooseVictim s (hotBucketOf k.bucket) k.slots (some k) with
  | wait => exact absurd hv hchoice
  | none => simp [missHot, Nat.not_le.mpr hroom, hplaced, htakes, hv, enterPend, tagEntry, Victim.reserves]
  | slot n => simp [missHot, Nat.not_le.mpr hroom, hplaced, htakes, hv, enterPend, tagEntry, Victim.reserves]

end

/-- A full miss of a key for which nothing pends: a learn pends for it, the miss is counted, the head waits. -/
theorem fullMiss_of_none {s : State} {id : Nat} {f : Frame} (hf : frameAt s id = some f) (hpend : pendOf s f.head.key = none) :
    fullMiss s id = missAt (cntSl (enterPend s (learnEntry f.head.key id s.time.tick)) f.slice 0x26D) id .fullMiss := by
  rw [fullMiss, onFrame_of_some hf]
  simp only [hpend]
  rfl

/-! ### The clauses -/

section
variable {s : State} {id : Nat} {f : Frame} (hf : frameAt s id = some f)
  (hserved : flowLookup id ⟨[], [], [], false, false, false⟩ s = serveLookup (turnTaken s f) id)
  (hbehind : behindHeld s id f = false) (hpend : pendOf s f.head.key = none) (hwb : findWriteBack s f.head.key = none)
include hf hserved hbehind hpend hwb

theorem flowLookup_hits {n : Nat} {r : HotRec} (hslot : findHot s f.head.key = some n) (hr : hotAt s n = some r)
    (hhot : hotOf s r.idx = some (n, r)) (hseg : f.segment = none) (hpass : f.pass = 0) (hposted : f.count.posted = false)
    (hbank : r.bank = parity s) (hfits : hotFits r.counts (oneFrame (!r.denies) f.rxLen) = true) :
    ∃ t f' r', exec (.flowLookup id ⟨[], [], [], false, false, false⟩) s = .next t ∧ (∀ j, j ≠ id → frameAt t j = frameAt s j) ∧
      frameAt t id = some f' ∧ f'.lookup = .done ∧ f'.lookupHow = 1 ∧ f'.handle = handleOf s r.idx ∧ f'.data = f.data ∧
      f'.count.posted = true ∧ f'.count.billable = !r.denies ∧ f'.count.handle = f'.handle ∧ f'.count.bank = parity s ∧
      f'.count.bytes = f.rxLen ∧ hotAt t n = some r' ∧ r'.counts = r.counts.add (oneFrame (!r.denies) f.rxLen) ∧
      r'.recent = true ∧ r'.body.lastSeen = seenNow s ∧ r'.body.action = r.body.action ∧
      ∃ counters skein lid frames, t = { s with counters := counters, skein := skein, lid := lid, frames := frames } := by
  have hhit : flowLookup id ⟨[], [], [], false, false, false⟩ s = hotHit (turnTaken s f) id r.idx :=
    hserved.trans (serveLookup_of_hot (s := turnTaken s f) hf hbehind ((findWriteBack_turnTaken ..).trans hwb)
      ((pendOf_turnTaken ..).trans hpend) hslot hr)
  obtain ⟨counters, hcount⟩ := bump_eq (turnTaken s f) (f.slice + 1) 0x26B 1
  have hfound : frameAt { turnTaken s f with counters := counters } id = some f := hf
  obtain ⟨lid, frames, times, hleaves, hsame, hothers⟩ :=
    recordHit_of_hot_leaves 1 hfound hhot hseg hpass hposted hbank hfits
  rw [hotHit, onFrame_of_some (show frameAt (turnTaken s f) id = some f from hf), cntSl, hcount, hleaves] at hhit
  exact ⟨_, _, { r.hit (seenNow s) (oneFrame (!r.denies) f.rxLen) with recent := true },
    congrArg Host.Outcome.next hhit, hothers, hsame, rfl, rfl, rfl, rfl, rfl, rfl, rfl, rfl, rfl, hotAt_accessHot_same ..,
    rfl, rfl, rfl, rfl, _, _, lid, frames, rfl⟩

theorem flowLookup_misses (hslot : findHot s f.head.key = none) :
    flowLookup id ⟨[], [], [], false, false, false⟩ s = missHot (turnTaken s f) id f.head.key :=
  hserved.trans (serveLookup_of_cold (s := turnTaken s f) hf hbehind ((findWriteBack_turnTaken ..).trans hwb)
    ((pendOf_turnTaken ..).trans hpend) hslot)

theorem flowLookup_unplaced (hslot : findHot s f.head.key = none)
    (hroom : (bankAt s (bankOf f.head.key.bucket)).pending.length < 256)
    (hplaced : (groupAt s (groupOf f.head.key.bucket)).placed = false) :
    ∃ t counters skein frames f', exec (.flowLookup id ⟨[], [], [], false, false, false⟩) s = .next t ∧
      t = { s with counters := counters, skein := skein, frames := frames } ∧ (∀ j, j ≠ id → frameAt t j = frameAt s j) ∧
      frameAt t id = some f' ∧ f'.lookup = .fullMiss ∧ (pendOf t f.head.key).map PendKey.learn = some true := by
  have hroom' : (bankAt (turnTaken s f) (bankOf f.head.key.bucket)).pending.length < 256 := by rwa [pending_turnTaken]
  have hpend' : pendOf (turnTaken s f) f.head.key = none := (pendOf_turnTaken ..).trans hpend
  have hmiss := ((flowLookup_misses hf hserved hbehind hpend hwb hslot).trans (missHot_of_unplaced hroom' hplaced)).trans
    (fullMiss_of_none hf hpend')
  have hentered := pendOf_append (p := learnEntry f.head.key id s.time.tick) hpend'
  obtain ⟨counters, hcount⟩ := bump_eq (enterPend (turnTaken s f) (learnEntry f.head.key id (turnTaken s f).time.tick))
    (f.slice + 1) 0x26D 1
  rw [cntSl, hcount] at hmiss
  obtain ⟨frames, f', hframe, hothers, hf', hlookup⟩ := missAt_leaves (s := { enterPend (turnTaken s f)
    (learnEntry f.head.key id s.time.tick) with counters := counters }) hf .fullMiss
  exact ⟨_, counters, _, frames, f', congrArg Host.Outcome.next (hmiss.trans hframe), rfl, hothers, hf', hlookup,
    congrArg (Option.map PendKey.learn) hentered⟩

theorem flowLookup_tagLine (hslot : findHot s f.head.key = none)
    (hroom : (bankAt s (bankOf f.head.key.bucket)).pending.length < 256) (htakes : homeTakes s f.head.key.bucket = true)
    (hchoice : chooseVictim s (hotBucketOf f.head.key.bucket) f.head.key.slots (some f.head.key) ≠ .wait) :
    ∃ t skein frames f', exec (.flowLookup id ⟨[], [], [], false, false, false⟩) s = .next t ∧
      t = { s with skein := skein, frames := frames } ∧ (∀ j, j ≠ id → frameAt t j = frameAt s j) ∧
      frameAt t id = some f' ∧ f'.lookup = .tagRead ∧ pendOf t f.head.key = some ⟨f.head.key, false,
        (chooseVictim s (hotBucketOf f.head.key.bucket) f.head.key.slots (some f.head.key)).reserves, id, none, s.time.tick⟩ := by
  have hroom' : (bankAt (turnTaken s f) (bankOf f.head.key.bucket)).pending.length < 256 := by rwa [pending_turnTaken]
  have hpend' : pendOf (turnTaken s f) f.head.key = none := (pendOf_turnTaken ..).trans hpend
  have hmiss := (flowLookup_misses hf hserved hbehind hpend hwb hslot).trans (missHot_of_taking hroom' htakes
    (by rwa [chooseVictim_turnTaken]))
  rw [chooseVictim_turnTaken] at hmiss
  generalize (chooseVictim s (hotBucketOf f.head.key.bucket) f.head.key.slots (some f.head.key)).reserves = victim at hmiss ⊢
  have hentered := pendOf_append (p := tagEntry f.head.key victim id s.time.tick) hpend'
  obtain ⟨frames, f', hframe, hothers, hf', hlookup⟩ := missAt_leaves (s := coldOps (enterPend (turnTaken s f)
    (tagEntry f.head.key victim id s.time.tick)) f.head.key.bucket 1) hf .tagRead
  exact ⟨_, _, frames, f', congrArg Host.Outcome.next (hmiss.trans hframe), rfl, hothers, hf', hlookup, hentered⟩

end

/-- Settles O40: the lookup is admitted to its bank in its slice's turn, and there finds a hot record or goes to the cold
bucket. -/
theorem flowLookups : Obligations.FlowLookups := by
  intro s id f hf hstage hlookup hroom hbehind horder hturn k none_ others hpend hwb
  have hserved := flowLookup_of_admitted hf hstage hlookup hroom horder hturn
  refine ⟨fun n r hslot hr hhot hseg hpass hposted hbank hfits =>
    flowLookup_hits hf hserved hbehind hpend hwb hslot hr hhot hseg hpass hposted hbank hfits,
    fun hslot hpending => ⟨fun hplaced => flowLookup_unplaced hf hserved hbehind hpend hwb hslot hpending hplaced,
      fun htakes v hv => ?_⟩⟩
  have hchoice : chooseVictim s (hotBucketOf k.bucket) k.slots (some k) ≠ .wait := by
    rcases hv with hv | hv <;> simp [hv]
  obtain ⟨t, skein, frames, f', hexec, hframe, hothers, hf', htag, hp⟩ :=
    flowLookup_tagLine hf hserved hbehind hpend hwb hslot hpending htakes hchoice
  refine ⟨t, skein, frames, f', hexec, hframe, hothers, hf', htag, hp.trans ?_⟩
  rcases hv with hv | hv <;> rw [hv] <;> rfl

end Sys2Proof.Machine
end

