-- ==== Sys2Proof/Proofs/RewriteAndMeter.lean ====
section
/-! PROOF. A head whose pass asks for recirculation waits at Rewrite while the queue is full, unless its verdict is deny (04/R139).
Rewrite tells deny by the code 1 there and by the codes 1 and 3 when it denies, so a head of verdict 3 waits too. -/

namespace Sys2Proof.Machine

/-- A head whose result asks for another pass that PASS_MAX allows, with a verdict other than 1, waits while its slice's
recirculation queue is full. -/
theorem rewrite_of_full_queue {s : State} {id : Nat} {f : Frame} (ue : List Nat) (hf : frameAt s id = some f)
    (hrecirc : (actionResult f).recirc = true) (hverdict : (actionResult f).verdict ≠ 1)
    (hfull : 256 ≤ (sliceAt s f.slice).recirc.length) (hpass : f.pass < fldV s .prsCfg [f.slice] f.version 1 0) :
    rewrite id ue s = s := by
  have hwaits : ((actionResult f).recirc && (actionResult f).verdict != 1 &&
      decide (256 ≤ (sliceAt s f.slice).recirc.length) && decide (f.pass < fldV s .prsCfg [f.slice] f.version 1 0)) = true := by
    simp [hrecirc, hverdict, hfull, hpass]
  rw [rewrite, onFrame_of_some hf]
  simp only [hwaits, if_true, ite_self]

/-- A head at Rewrite whose merged results hold the verdict code 3, deny-override, and ask for another pass. -/
def overrideHead : Frame :=
  { Frame.fresh 0 0 0 [] 0 0 with
    stage := .parsed, lookup := .done,
    cls := { ClassInfo.zero with
      done := true, hasVerdict := true, merged := { Result.zero with verdict := 3, recirc := true } } }

/-- The device after reset with that head in slice 0, whose recirculation queue holds 256 heads. -/
def fullQueue : State :=
  { State.reset with
    frames := [(0, overrideHead)], nextFrame := 1, slices := [(0, { SliceState.reset with recirc := List.replicate 256 1 })] }

theorem framesListed_fullQueue : FramesListed fullQueue := by unfold FramesListed; decide

/-- The head of `fullQueue` waits. -/
theorem rewrite_fullQueue : rewrite 0 [] fullQueue = fullQueue :=
  rewrite_of_full_queue (f := overrideHead) [] rfl rfl (by decide) (Nat.le_of_eq List.length_replicate.symm) (by decide)

/-- Refutes O37: the first clause takes a head of verdict 1 or 3 out of the device with no premise on the recirculation queue,
but Rewrite lets only verdict 1 past a full one. The merge of CLASSIFY codes a deny-override as verdict 1, so it is the range
of the statement, not a run from reset, that meets verdict 3. -/
theorem not_rewriteAndMeter : ¬ Obligations.RewriteAndMeter := by
  intro h
  obtain ⟨hrewrite, -⟩ := h fullQueue 0 overrideHead framesListed_fullQueue rfl
  obtain ⟨hdeny, -⟩ := hrewrite rfl rfl rfl (by decide)
  obtain ⟨t, hexec, hgone, -⟩ := hdeny (Or.inr rfl)
  have hstays : exec (.rewrite 0 []) fullQueue = .next fullQueue := congrArg Host.Outcome.next rewrite_fullQueue
  rw [hstays] at hexec
  cases hexec
  cases hgone

end Sys2Proof.Machine
end

