-- ==== Sys2Proof/Proofs/RecordEnds.lean ====
section
/-! SUPPORT. What the end of a flow leaves alone (02, Table 02-10): it frees the ways it names, and every other record, in both
tiers, the scheduler, the host ports and the Rim stay as they are. -/

namespace Sys2Proof.Machine

/-! ### Exports -/

/-- Two states with the same host ports, scheduler and Rim. -/
structure HostsKept (s t : State) : Prop where
  host : t.host = s.host
  sched : t.sched = s.sched
  rim : t.rim = s.rim

theorem HostsKept.refl (s : State) : HostsKept s s := ⟨rfl, rfl, rfl⟩

theorem HostsKept.trans {s t u : State} (a : HostsKept s t) (b : HostsKept t u) : HostsKept s u :=
  ⟨b.host.trans a.host, b.sched.trans a.sched, b.rim.trans a.rim⟩

/-- Two states with the same flow store, host ports, scheduler and Rim. -/
structure StoreKept (s t : State) : Prop extends HostsKept s t where
  skein : t.skein = s.skein

theorem StoreKept.refl (s : State) : StoreKept s s := ⟨.refl s, rfl⟩

theorem StoreKept.trans {s t u : State} (a : StoreKept s t) (b : StoreKept t u) : StoreKept s u :=
  ⟨a.toHostsKept.trans b.toHostsKept, b.skein.trans a.skein⟩

theorem storeKept_bump (s : State) (part num n : Nat) : StoreKept s (bump s part num n) := by
  obtain ⟨c, h⟩ := bump_eq s part num n
  rw [h]
  exact ⟨⟨rfl, rfl, rfl⟩, rfl⟩

theorem storeKept_exportLost (s : State) (c n : Nat) : StoreKept s (exportLost s c n) := by
  unfold exportLost
  split
  · exact .refl s
  · exact (storeKept_bump s 0 0x52 n).trans ⟨⟨rfl, rfl, rfl⟩, rfl⟩

theorem storeKept_sendToHost (s : State) (c n : Nat) (msg : List Byte) : StoreKept s (sendToHost s c n msg) := by
  unfold sendToHost
  split
  · exact ⟨⟨rfl, rfl, rfl⟩, rfl⟩
  · exact storeKept_exportLost s c n

theorem storeKept_sendToPort (s : State) (c n : Nat) (msg : List Byte) : StoreKept s (sendToPort s c n msg) := by
  unfold sendToPort
  extract_lets nh port
  split
  · exact storeKept_exportLost s c n
  · next d s1 cls tag ty bytes bytes' f s2 _ =>
    have hcollector : StoreKept s s2 := ⟨⟨rfl, rfl, rfl⟩, rfl⟩
    exact (hcollector.trans (storeKept_bump s2 0 0x51 1)).trans ⟨⟨rfl, rfl, rfl⟩, rfl⟩

theorem storeKept_sendMessage (s : State) (c n : Nat) (sets : List Byte) : StoreKept s (sendMessage s c n sets) := by
  unfold sendMessage
  split
  · exact storeKept_exportLost s c n
  · split
    · exact storeKept_sendToHost ..
    · exact storeKept_sendToPort ..

theorem storeKept_modCollector (s : State) (c : Nat) (f : Collector → Collector) : StoreKept s (modCollector s c f) :=
  ⟨⟨rfl, rfl, rfl⟩, rfl⟩

theorem storeKept_flushCollector (s : State) (c : Nat) : StoreKept s (flushCollector s c) := by
  unfold flushCollector
  extract_lets rs
  split
  · exact .refl s
  · exact (storeKept_modCollector ..).trans (storeKept_sendMessage ..)

/-- What joins the queue of messages changes neither the flow store nor what answers commands. -/
theorem storeKept_queueExport (s : State) (r : ExportRec) : StoreKept s (queueExport s r) := by
  unfold queueExport
  extract_lets c rs s1
  split
  · exact storeKept_exportLost ..
  · have hflush : StoreKept s s1 := by
      unfold s1
      split
      · exact storeKept_flushCollector ..
      · exact .refl s
    exact hflush.trans (storeKept_modCollector ..)

/-- Giving back a mapping changes the action tables alone. -/
theorem storeKept_natRelease (s : State) (b : FlowBody) : StoreKept s (natRelease s b) := by
  unfold natRelease
  split
  · exact .refl s
  · split
    · exact .refl s
    · exact ⟨⟨rfl, rfl, rfl⟩, rfl⟩

/-! ### Records left alone -/

/-- The tables of the hot tier are listed by rising slot. -/
def HotSorted (s : State) : Prop := tsorted s.skein.hot = true ∧ tsorted s.skein.merged = true

/-- From one state to another nothing changes in any record but those that `P` picks, nor in what answers commands. -/
structure OthersKept (P : Nat → Prop) (s t : State) : Prop extends HostsKept s t where
  bursts : t.skein.bursts = s.skein.bursts
  way : ∀ j, ¬ P j → wayAt t j = wayAt s j
  cold : ∀ j, ¬ P j → coldAt t j = coldAt s j
  buffered : ∀ j, ¬ P j → writeBackOf t j = writeBackOf s j
  sorted : HotSorted s → HotSorted t
  hot : HotSorted s → ∀ j, ¬ P j → hotOf t j = hotOf s j

namespace OthersKept

variable {P Q : Nat → Prop} {s t u : State}

theorem trans (a : OthersKept P s t) (b : OthersKept P t u) : OthersKept P s u where
  toHostsKept := a.toHostsKept.trans b.toHostsKept
  bursts := b.bursts.trans a.bursts
  way j hj := (b.way j hj).trans (a.way j hj)
  cold j hj := (b.cold j hj).trans (a.cold j hj)
  buffered j hj := (b.buffered j hj).trans (a.buffered j hj)
  sorted h := b.sorted (a.sorted h)
  hot h j hj := (b.hot (a.sorted h) j hj).trans (a.hot h j hj)

theorem mono (a : OthersKept P s t) (h : ∀ j, P j → Q j) : OthersKept Q s t where
  toHostsKept := a.toHostsKept
  bursts := a.bursts
  way j hj := a.way j (fun hp => hj (h j hp))
  cold j hj := a.cold j (fun hp => hj (h j hp))
  buffered j hj := a.buffered j (fun hp => hj (h j hp))
  sorted := a.sorted
  hot hs j hj := a.hot hs j (fun hp => hj (h j hp))

/-- Nothing of the flow store changed, so no record did. -/
theorem of_storeKept (h : StoreKept s t) : OthersKept P s t := by
  have hways : t.skein.ways = s.skein.ways := by rw [h.skein]
  have hcold : t.skein.cold = s.skein.cold := by rw [h.skein]
  have hbanks : t.skein.banks = s.skein.banks := by rw [h.skein]
  have hhot (j : Nat) : hotOf t j = hotOf s j := by unfold hotOf wayAt hotAt; rw [h.skein]
  exact ⟨h.toHostsKept, by rw [h.skein], fun j _ => by rw [wayAt, wayAt, hways], fun j _ => by rw [coldAt, coldAt, hcold],
    fun j _ => by rw [writeBackOf, writeBackOf, bankAt, bankAt, hbanks], fun hs => by rwa [HotSorted, h.skein],
    fun _ j _ => hhot j⟩

theorem refl (s : State) : OthersKept P s s := of_storeKept (.refl s)

/-- What the body in force of a record is made of is kept, so the body is. -/
theorem bodyOf (a : OthersKept P s t) (h : HotSorted s) {j : Nat} (hj : ¬ P j) : bodyOf t j = bodyOf s j := by
  unfold Machine.bodyOf
  rw [a.hot h j hj, a.buffered j hj, a.cold j hj]

end OthersKept

/-- A record's hot copy is read from its way and the slot that the way names. -/
theorem hotOf_congr {s t : State} {j : Nat} (hway : wayAt t j = wayAt s j)
    (hslot : hotAt t (wayAt s j).hotSlot = hotAt s (wayAt s j).hotSlot) : hotOf t j = hotOf s j := by
  simp only [hotOf, hway, hslot]

/-! ### Updates of one record -/

/-- A change of a cold record leaves every other record. -/
theorem othersKept_modCold (s : State) (idx : Nat) (f : ColdRec → ColdRec) : OthersKept (· = idx) s (modCold s idx f) :=
  ⟨⟨rfl, rfl, rfl⟩, rfl, fun _ _ => rfl, fun _ hj => tget_tupd_ne _ _ _ hj, fun _ _ => rfl, id, fun _ _ _ => rfl⟩

theorem othersKept_zoneMove {P : Nat → Prop} (s : State) (zone bank : Nat) (add sub : Counts) :
    OthersKept P s (zoneMove s zone bank add sub) := .of_storeKept ⟨⟨rfl, rfl, rfl⟩, rfl⟩

theorem othersKept_bankMove (s : State) (idx bank : Nat) (add sub : Counts) :
    OthersKept (· = idx) s (bankMove s idx bank add sub) := by
  obtain ⟨lid, h⟩ := bankMove_eq s idx bank add sub
  rw [h]
  exact (othersKept_modCold ..).trans (.of_storeKept ⟨⟨rfl, rfl, rfl⟩, rfl⟩)

theorem wayAt_modWay (s : State) (idx j : Nat) (f : WayEntry → WayEntry) :
    wayAt (modWay s idx f) j = if j = idx then f (wayAt s idx) else wayAt s j := tget_tupd ..

/-- A freed way is free, one generation on; the other ways stand. -/
theorem wayAt_freeWay (s : State) (idx j : Nat) :
    wayAt (freeWay s idx) j =
      if j = idx then { WayEntry.free with gen := ((wayAt s idx).gen + 1) % 32 } else wayAt s j :=
  wayAt_modWay s idx j (fun w => { WayEntry.free with gen := (w.gen + 1) % 32 })

/-- A freed way leaves every other record. -/
theorem othersKept_freeWay (s : State) (idx : Nat) : OthersKept (· = idx) s (freeWay s idx) := by
  have hway : ∀ j, j ≠ idx → wayAt (freeWay s idx) j = wayAt s j := fun j hj => by rw [wayAt_freeWay, if_neg hj]
  exact ⟨⟨rfl, rfl, rfl⟩, rfl, hway, fun _ hj => tget_tdel_ne _ _ hj, fun _ _ => rfl, id,
    fun _ j hj => hotOf_congr (hway j hj) rfl⟩

/-- A bank's buffer without the entries of one record still holds those of the others. -/
theorem othersKept_putWriteBack_none (s : State) (idx : Nat) : OthersKept (· = idx) s (putWriteBack s idx none) := by
  refine ⟨⟨rfl, rfl, rfl⟩, rfl, fun _ _ => rfl, fun _ _ => rfl, fun j hj => ?_, id, fun _ _ _ => rfl⟩
  unfold writeBackOf putWriteBack
  rw [bankAt_modBank]
  split
  · next hbank =>
    rw [hbank, List.find?_filter]
    congr 2
    funext e
    by_cases he : e.record.idx = j
    · simp [he, hj]
    · simp [he]
  · rfl

/-! ### A freed hot slot -/

theorem tfind_below {α : Type} {t : Table α} {b i : Nat} (h : tsortedFrom (some b) t = true) (hi : i ≤ b) :
    tfind t i = none := by
  induction t generalizing b with
  | nil => rfl
  | cons e r ih =>
    obtain ⟨k, v⟩ := e
    rw [tsortedFrom_cons] at h
    have hk : b < k := h.1 b rfl
    rw [tfind, if_neg (by omega)]
    exact ih h.2 (by omega)

theorem tfind_tdel_from {α : Type} {t : Table α} {b : Option Nat} {i : Nat} (h : tsortedFrom b t = true) :
    tfind (tdel t i) i = none := by
  induction t generalizing b with
  | nil => rfl
  | cons e r ih =>
    obtain ⟨k, v⟩ := e
    rw [tsortedFrom_cons] at h
    rw [tdel]
    split
    · next heq => exact tfind_below h.2 (by omega)
    · next hne =>
      split
      · next hlt => rw [tfind, if_neg hne]; exact tfind_below h.2 (by omega)
      · rw [tfind, if_neg hne]; exact ih h.2

/-- A key deleted from a sorted table is not found in it. -/
theorem tfind_tdel_same {α : Type} {t : Table α} {i : Nat} (h : tsorted t = true) : tfind (tdel t i) i = none :=
  tfind_tdel_from h

/-- A deleted slot is empty, in its merge register too; the others hold what they held. -/
theorem hotAt_delHot {s : State} {slot n : Nat} {r : HotRec} (hs : HotSorted s) (hr : hotAt s slot = some r) :
    hotAt (delHot s slot) n = if n = slot then none else hotAt s n := by
  unfold delHot
  rw [hr]
  simp only [hotAt, withSkein]
  by_cases h : n = slot
  · rw [h, tfind_tdel_same hs.1, tfind_tdel_same hs.2, if_pos rfl]
  · rw [tfind_tdel_ne _ h, tfind_tdel_ne _ h, if_neg h]

/-- A record's hot copy lies in the slot that its way names, as the record of that place. -/
theorem hotAt_of_hotOf {s : State} {idx slot : Nat} {r : HotRec} (h : hotOf s idx = some (slot, r)) :
    (wayAt s idx).hotSlot = slot ∧ hotAt s slot = some r ∧ r.idx = idx := by
  unfold hotOf at h
  extract_lets w at h
  split at h
  · split at h
    · next x hx =>
      split at h
      · next hgen => cases h; exact ⟨rfl, hx, hgen.2⟩
      · cases h
    · cases h
  · cases h

/-- A way whose slot holds no record of its place has no hot copy. -/
theorem hotOf_of_slot {s : State} {j : Nat} (h : ∀ r, hotAt s (wayAt s j).hotSlot = some r → r.idx ≠ j) :
    hotOf s j = none := by
  rw [Option.eq_none_iff_forall_ne_some]
  rintro ⟨slot, r⟩ hj
  obtain ⟨hslot, hr, hidx⟩ := hotAt_of_hotOf hj
  exact h r (hslot ▸ hr) hidx

/-- The slot of a record's hot copy is freed: no other record has its hot copy there. -/
theorem othersKept_delHot {s : State} {idx slot : Nat} {r : HotRec} (hhot : hotOf s idx = some (slot, r)) :
    OthersKept (· = idx) s (delHot s slot) := by
  obtain ⟨-, hr, hidx⟩ := hotAt_of_hotOf hhot
  have hskein : ∃ hot merged mergedAt pinUsed, delHot s slot = { s with skein := { s.skein with
      hot := hot, merged := merged, mergedAt := mergedAt, pinUsed := pinUsed } } := by
    unfold delHot; rw [hr]; exact ⟨_, _, _, _, rfl⟩
  have hslots (n : Nat) (hs : HotSorted s) := hotAt_delHot (n := n) hs hr
  have hsorted : HotSorted s → HotSorted (delHot s slot) := fun hs => by
    unfold delHot; rw [hr]; exact ⟨tsorted_tdel _ hs.1, tsorted_tdel _ hs.2⟩
  obtain ⟨hot, merged, mergedAt, pinUsed, h⟩ := hskein
  rw [h] at hslots hsorted ⊢
  refine ⟨⟨rfl, rfl, rfl⟩, rfl, fun _ _ => rfl, fun _ _ => rfl, fun _ _ => rfl, hsorted, fun hs j hj => ?_⟩
  by_cases hsame : (wayAt s j).hotSlot = slot
  · have hbefore : hotOf s j = none := hotOf_of_slot (fun x hx hxj => hj (by
      rw [hsame, hr] at hx; cases hx; exact hxj.symm.trans hidx))
    rw [hbefore]
    refine hotOf_of_slot (fun x hx => ?_)
    have hgone := hslots (wayAt s j).hotSlot hs
    rw [if_pos hsame] at hgone
    cases hgone.symm.trans hx
  · exact hotOf_congr rfl (by rw [hslots _ hs, if_neg hsame])

/-! ### The end of a flow -/

/-- With no update outstanding, making a record cold and freeing it leaves every other record. -/
theorem othersKept_makeCold {s : State} (idx : Nat) (hb : s.skein.bursts = []) : OthersKept (· = idx) s (makeCold s idx) := by
  unfold makeCold
  rw [settleBursts_of_none (by simp [hb])]
  refine .trans (.trans ?_ (othersKept_modCold ..)) (othersKept_bankMove ..)
  split
  · next hhot => exact othersKept_delHot hhot
  · exact othersKept_putWriteBack_none ..

theorem othersKept_retireRecord {s : State} (idx : Nat) (hb : s.skein.bursts = []) :
    OthersKept (· = idx) s (retireRecord s idx).2 :=
  (((othersKept_makeCold idx hb).trans (othersKept_zoneMove ..)).trans (othersKept_zoneMove ..)).trans (othersKept_freeWay ..)

theorem valid_retireRecord (s : State) (idx : Nat) : (wayAt (retireRecord s idx).2 idx).valid = false := by
  unfold retireRecord
  rw [wayAt_freeWay, if_pos rfl]
  rfl

/-- A record and its twin, which end together (Table 02-10). -/
def EndsWith (s : State) (idx j : Nat) : Prop := j = idx ∨ twinOf s idx = some j

/-- One live flow fewer of a port changes no record. -/
theorem othersKept_liveMove {P : Nat → Prop} (s : State) (port bucket : Nat) (f : Nat → Nat) :
    OthersKept P s (liveMove s port bucket f) :=
  ⟨⟨rfl, rfl, rfl⟩, rfl, fun _ _ => rfl, fun _ _ => rfl, fun _ _ => rfl, id, fun _ _ _ => rfl⟩

theorem storeKept_ite {c : Prop} [Decidable c] {s t : State} (h : StoreKept s t) : StoreKept s (if c then t else s) := by
  split
  · exact h
  · exact .refl s

/-- Ways that are free stay free where no other way changes. -/
theorem OthersKept.invalid {P : Nat → Prop} {s t : State} (h : OthersKept P s t) (hP : ∀ j, P j → (wayAt t j).valid = false)
    {j : Nat} (hj : (wayAt s j).valid = false) : (wayAt t j).valid = false := by
  by_cases hp : P j
  · exact hP j hp
  · rw [h.way j hp, hj]

/-- A record retired, and after it its twin, while it has one. -/
def flowRetired (s : State) (idx : Nat) : State :=
  match twinOf s idx with
  | none => (retireRecord s idx).2
  | some j => (retireRecord (retireRecord s idx).2 j).2

theorem flowRetired_frees {s : State} {idx : Nat} (hb : s.skein.bursts = []) :
    OthersKept (EndsWith s idx) s (flowRetired s idx) ∧
      ∀ j, EndsWith s idx j → (wayAt (flowRetired s idx) j).valid = false := by
  have hfirst := othersKept_retireRecord idx hb
  have hfree := valid_retireRecord s idx
  unfold flowRetired
  cases htwin : twinOf s idx with
  | none =>
    refine ⟨hfirst.mono fun j hj => Or.inl hj, fun j hj => ?_⟩
    obtain rfl | hj := hj
    · exact hfree
    · rw [htwin] at hj; cases hj
  | some i =>
    have hsecond := othersKept_retireRecord i (hfirst.bursts.trans hb)
    have hfree' := valid_retireRecord (retireRecord s idx).2 i
    have htwins : OthersKept (EndsWith s idx) (retireRecord s idx).2 (retireRecord (retireRecord s idx).2 i).2 :=
      hsecond.mono fun j hj => Or.inr (by rw [hj]; exact htwin)
    refine ⟨(hfirst.mono fun j hj => Or.inl hj).trans htwins, fun j hj => ?_⟩
    obtain rfl | hj := hj
    · exact hsecond.invalid (fun k hk => by rw [hk]; exact hfree') hfree
    · rw [htwin] at hj; cases hj; exact hfree'

/-- After its records are retired, the end of a flow exports it, gives back its mapping and counts it out: no record changes. -/
theorem endFlow_closes {s : State} {idx : Nat} (reason : Nat) (hvalid : (wayAt s idx).valid = true) (P : Nat → Prop) :
    OthersKept P (flowRetired s idx) (endFlow s idx reason) := by
  unfold endFlow
  rw [if_neg (by simp [hvalid])]
  extract_lets other a b s1 primary twin sum s2 s3
  have hs1 : s1 = flowRetired s idx := by
    unfold s1 b other flowRetired
    cases twinOf s idx <;> rfl
  have hexport : StoreKept s1 s2 := storeKept_ite (storeKept_queueExport ..)
  have hrelease : StoreKept s2 s3 := storeKept_ite (storeKept_natRelease ..)
  rw [← hs1]
  exact (OthersKept.of_storeKept (hexport.trans hrelease)).trans (othersKept_liveMove ..)

/-- The end of a flow: its ways and its twin's are freed, and no other record changes. -/
theorem endFlow_frees {s : State} {idx : Nat} (reason : Nat) (hb : s.skein.bursts = []) (hvalid : (wayAt s idx).valid = true) :
    OthersKept (EndsWith s idx) s (endFlow s idx reason) ∧
      ∀ j, EndsWith s idx j → (wayAt (endFlow s idx reason) j).valid = false := by
  obtain ⟨hretired, hfree⟩ := flowRetired_frees (idx := idx) hb
  exact ⟨hretired.trans (endFlow_closes reason hvalid _),
    fun j hj => (endFlow_closes reason hvalid (fun _ => False)).invalid nofun (hfree j hj)⟩

end Sys2Proof.Machine
end

