-- ==== Sys2Proof/Proofs/FlowCommands.lean ====
section
/-! PROOF. The commands on flow records (03/R100–R103; 02/R42, R45; 12/R381): lookups and an iteration answer what the store
holds, a deletion ends one flow, a flush ends every flow that matches. -/

namespace Sys2Proof.Machine

/-! ### Lengths of replies -/

@[simp] theorem length_le (n x : Nat) : (le n x).length = n := by
  induction n generalizing x with
  | zero => rfl
  | succ n ih => rw [le, List.length_cons, ih]

@[simp] theorem length_be (n x : Nat) : (be n x).length = n := by rw [be, List.length_reverse, length_le]

theorem length_keyArea (b : FlowBody) : b.keyArea.length = 48 := by
  unfold FlowBody.keyArea
  split <;> simp [Key.image, zeros]

/-- A cold record takes the 128 bytes of Table 02-4. -/
theorem length_coldImage (c : ColdRec) : c.image.length = 128 := by
  simp [ColdRec.image, length_keyArea, Counts.image, zeros]

theorem flowData_fits (s : State) (idx : Nat) : (Answer.ok (flowData s idx)).data.length ≤ 65536 := by
  simp [Answer.ok, flowData, length_coldImage]

theorem length_partTable (ps : List (Nat × Nat)) : (partTable ps).length = 64 := by
  simp [partTable, List.length_flatMap, zeros]

/-- A reply carries its answer's data or none. -/
theorem length_replyOf_le {h : CmdHeader} {sent : Bool} {a : Answer} {n : Nat} (ha : a.data.length ≤ n) :
    (replyOf h sent a).data.length ≤ n := by
  unfold replyOf
  dsimp only
  split
  · exact ha
  · exact Nat.zero_le n

/-! ### Running a command -/

/-- A command that runs alone, whose body answers and leaves the host ports, the scheduler and the Rim, is answered at once. -/
theorem runCommand_of_alone {s t : State} {op : Nat} {h : CmdHeader} {p : List Byte} {len : Nat} {fine : Bool} {a : Answer}
    {body : Bool → State → Option Answer × State} (H : RunsAlone s op h p len fine) (hb : body false s = (some a, t))
    (hkept : HostsKept s t) (hd : a.data.length ≤ 65536) : runCommand s op h p len fine body = answered t h a := by
  have hring : (ringAt t (h.fn / 2) 1 h.replyRing).en = true := by
    rw [ringAt, hkept.host]; exact H.runs.enabled
  have hcalm : t.rim.transition = none := by rw [hkept.rim]; exact H.runs.calm
  have honce : runAtOnce s op h p len fine (fun _ => (a, t)) = answered t h a :=
    runAtOnce_of_alone H rfl hkept.sched hcalm hring (length_replyOf_le hd)
  rw [runAtOnce, runCommand_of_runs H.runs] at honce
  rw [runCommand_of_runs H.runs, hb]
  exact honce

/-! ### Homes -/

/-- A home that answers, or that no record has, is not down. -/
theorem homeDown_of_answers {s : State} {b : Nat} (h : recordAnswers s b = true) : homeDown s b = false := by
  simp only [recordAnswers, homeTakes, Bool.or_eq_true, Bool.and_eq_true, Bool.not_eq_true'] at h
  unfold homeDown
  rcases h with ⟨hhome, -⟩ | hplaced
  · simp [hhome]
  · simp [hplaced]

/-- With no update outstanding, a command finds the records of a bucket whose home answers as they stand. -/
theorem onBucket_of_answers {s : State} {b : Nat} (bad : List Nat) (f : State → Answer × State) (hb : s.skein.bursts = [])
    (ha : recordAnswers s b = true) : onBucket b false bad f s = (some (f s).1, (f s).2) := by
  have hsettle : onBucket.settleBucket s b = s := by
    unfold onBucket.settleBucket
    refine List.foldlRecOn (motive := fun t => t = s) _ _ rfl (fun t ht w _ => ?_)
    rw [ht]
    exact settleBursts_of_none (by simp [hb])
  rw [onBucket, if_pos ha, hsettle]
  rfl

theorem oneRecord_of_good {s : State} {ue : Bool} {i : Nat} (use : Nat → State → Answer × State)
    (h : recordBad s ue i = false) :
    oneRecord ue (some i) use s = use i s := by
  simp [oneRecord, h]

/-! ### Lookups -/

theorem flowLookupKey_answers {s : State} {h : CmdHeader} {p : List Byte} {ue : Bool} {i : Nat} (hb : s.skein.bursts = [])
    (H : RunsAlone s 0x0601 h p 48 (keyImageOk p)) (ha : recordAnswers s (Key.ofImage p).bucket = true)
    (hi : findRecord s (Key.ofImage p) = some i) (hgood : recordBad s ue i = false) :
    flowLookupKey h p ue false s = answered s h (.ok (flowData s i)) := by
  unfold flowLookupKey
  refine runCommand_of_alone H ?_ (.refl s) (flowData_fits ..)
  rw [onBucket_of_answers _ _ hb ha, hi, oneRecord_of_good _ hgood]

theorem flowLookupHandle_answers {s : State} {h : CmdHeader} {p : List Byte} {ue : Bool} (hb : s.skein.bursts = [])
    (H : RunsAlone s 0x0602 h p 4 true) (hcur : current s (leAt p 0 4) = true)
    (ha : recordAnswers s (handleIdx (leAt p 0 4) / 8) = true) (hgood : recordBad s ue (handleIdx (leAt p 0 4)) = false) :
    flowLookupHandle h p ue false s = answered s h (.ok (flowData s (handleIdx (leAt p 0 4)))) := by
  unfold flowLookupHandle
  refine runCommand_of_alone H ?_ (.refl s) (flowData_fits ..)
  rw [onBucket_of_answers _ _ hb ha, if_pos hcur, oneRecord_of_good _ hgood]

/-! ### Iteration -/

/-- The valid places of a range of cold indices, ascending as the ways are listed. -/
def placesIn (s : State) (lo hi : Nat) : List Nat := ((trange s.skein.ways lo hi).filter (fun e => e.2.valid)).map (·.1)

/-- Every record that the ways list answers and reads well. -/
def AllRead (s : State) : Prop :=
  ∀ e ∈ s.skein.ways, e.2.valid = true → recordAnswers s (e.1 / 8) = true ∧ recordBad s false e.1 = false

theorem AllRead.of_mem {s : State} (h : AllRead s) {lo hi i : Nat} (hi : i ∈ placesIn s lo hi) :
    recordAnswers s (i / 8) = true ∧ recordBad s false i = false := by
  simp only [placesIn, trange, List.mem_map, List.mem_filter] at hi
  obtain ⟨e, ⟨⟨he, -⟩, hvalid⟩, rfl⟩ := hi
  exact h e he hvalid

theorem foldl_settleBursts {s : State} (hb : s.skein.bursts = []) (l : List Nat) : l.foldl settleBursts s = s :=
  List.foldlRecOn (motive := fun t => t = s) l _ rfl (fun t ht i _ => by rw [ht]; exact settleBursts_of_none (by simp [hb]))

theorem tagsRebuilt_nil (s : State) (lo hi : Nat) (ue : List Nat) : tagsRebuilt s lo hi ue [] = s := rfl

/-- The cursor past the last of at most 480 records from a list. -/
def nextCursor (l : List Nat) : Nat := if 480 < l.length then ((l.take 480).getLast?.map (· + 1)).getD (2 ^ 27) else 2 ^ 27

theorem flowIterate_answers {s : State} {h : CmdHeader} {p : List Byte} {l : List Nat} (hb : s.skein.bursts = [])
    (H : RunsAlone s 0x0603 h p 12 (decide (leAt p 0 4 < 2 ^ 27) && decide (leAt p 4 4 < 4))) (hread : AllRead s)
    (hl : l = (placesIn s (leAt p 0 4) (2 ^ 27)).filter (flowMatches s (byteAt p 4 % 4) (leAt p 8 4))) :
    flowIterate h p [] [] s =
      answered s h ⟨stOk, 0, nextCursor l, (l.take 480).flatMap (fun i => (recordInForce s i).image)⟩ := by
  have hdown : (placesIn s (leAt p 0 4) (2 ^ 27)).any (fun i => homeDown s (i / 8)) = false :=
    List.any_eq_false.mpr fun i hi => by simp [homeDown_of_answers (hread.of_mem hi).1]
  have hanswer : (placesIn s (leAt p 0 4) (2 ^ 27)).all (fun i => recordAnswers s (i / 8)) = true :=
    List.all_eq_true.mpr fun i hi => (hread.of_mem hi).1
  have hbad : (placesIn s (leAt p 0 4) (2 ^ 27)).filter (fun i => recordBad s (([] : List Nat).contains i) i) = [] :=
    List.filter_eq_nil_iff.mpr fun i hi => by simp [(hread.of_mem hi).2]
  unfold placesIn at hdown hanswer hbad hl
  have hlen : ((l.take 480).flatMap (fun i => (recordInForce s i).image)).length ≤ 65536 := by
    simp [List.length_flatMap, length_coldImage]
    omega
  unfold flowIterate
  refine runCommand_of_alone H ?_ (.refl s) hlen
  simp only [hdown, hanswer, foldl_settleBursts hb, tagsRebuilt_nil, hbad, ← hl, nextCursor, List.foldl_nil]
  rfl

theorem nextCursor_of_short {l : List Nat} (h : l.length ≤ 480) : nextCursor l = 2 ^ 27 := if_neg (by omega)

theorem nextCursor_of_long {l : List Nat} {i : Nat} (h : 480 < l.length) (hi : l[479]? = some i) : nextCursor l = i + 1 := by
  have hlast : (l.take 480).getLast? = some i := by
    rw [List.getLast?_eq_getElem?, List.length_take, Nat.min_eq_left (by omega), List.getElem?_take_of_lt (by omega)]
    exact hi
  rw [nextCursor, if_pos h, hlast]
  rfl

/-! ### Deletion -/

theorem flowDeleteKey_ends {s : State} {h : CmdHeader} {p : List Byte} {ue : Bool} {i : Nat} (hb : s.skein.bursts = [])
    (H : RunsAlone s 0x0604 h p 48 (keyImageOk p)) (ha : recordAnswers s (Key.ofImage p).bucket = true)
    (hi : findRecord s (Key.ofImage p) = some i) (hgood : recordBad s ue i = false) (hvalid : (wayAt s i).valid = true) :
    flowDeleteKey h p ue false s = answered (endFlow s i 4) h (.ok (flowData s i)) := by
  unfold flowDeleteKey
  refine runCommand_of_alone H ?_ (endFlow_frees 4 hb hvalid).1.toHostsKept (flowData_fits ..)
  rw [onBucket_of_answers _ _ hb ha, hi, oneRecord_of_good _ hgood]

/-- A record found by its key stands in a valid way. -/
theorem valid_of_findRecord {s : State} {k : Key} {i : Nat} (h : findRecord s k = some i) : (wayAt s i).valid = true := by
  have hfound := List.find?_some h
  rw [Bool.and_eq_true] at hfound
  exact hfound.1

/-! ### Flush -/

/-- From one state to another flows ended: every way that changed held a record and holds none. -/
def FlowsEnded (s t : State) : Prop :=
  ∃ P, OthersKept P s t ∧ ∀ j, P j → (wayAt s j).valid = true ∧ (wayAt t j).valid = false

theorem FlowsEnded.refl (s : State) : FlowsEnded s s := ⟨fun _ => False, .refl s, nofun⟩

theorem FlowsEnded.trans {s t u : State} (a : FlowsEnded s t) (b : FlowsEnded t u) : FlowsEnded s u := by
  obtain ⟨P, hst, hP⟩ := a
  obtain ⟨Q, htu, hQ⟩ := b
  refine ⟨fun j => P j ∨ Q j, (hst.mono fun _ => Or.inl).trans (htu.mono fun _ => Or.inr), fun j hj => ⟨?_, ?_⟩⟩
  · by_cases hp : P j
    · exact (hP j hp).1
    · rw [← hst.way j hp]; exact (hQ j (hj.resolve_left hp)).1
  · by_cases hq : Q j
    · exact (hQ j hq).2
    · exact htu.invalid (fun k hk => (hQ k hk).2) (hP j (hj.resolve_right hq)).2

theorem FlowsEnded.way {s t : State} (h : FlowsEnded s t) (j : Nat) :
    wayAt t j = wayAt s j ∨ ((wayAt s j).valid = true ∧ (wayAt t j).valid = false) := by
  obtain ⟨P, hst, hP⟩ := h
  by_cases hp : P j
  · exact .inr (hP j hp)
  · exact .inl (hst.way j hp)

theorem FlowsEnded.invalid {s t : State} (h : FlowsEnded s t) {j : Nat} (hj : (wayAt s j).valid = false) :
    (wayAt t j).valid = false := by
  rcases h.way j with hway | hend
  · rw [hway, hj]
  · exact hend.2

/-- A state in which a flush reads every record: nothing is outstanding, the hot tier is sorted, what stands reads well. -/
structure Flushable (s : State) : Prop where
  bursts : s.skein.bursts = []
  sorted : HotSorted s
  good : ∀ j, (wayAt s j).valid = true → recordBad s false j = false

/-- What is left of a record that no end of a flow took: it reads as before, and meets the same filters. -/
theorem FlowsEnded.survivor {s t : State} (h : FlowsEnded s t) (hs : HotSorted s) {j : Nat} (hj : (wayAt t j).valid = true) :
    wayAt t j = wayAt s j ∧ recordBad t false j = recordBad s false j ∧
      ∀ by_ value, flowMatches t by_ value j = flowMatches s by_ value j := by
  obtain ⟨P, hst, hP⟩ := h
  have hp : ¬ P j := fun hp => by rw [(hP j hp).2] at hj; cases hj
  refine ⟨hst.way j hp, ?_, fun by_ value => ?_⟩
  · rw [recordBad, recordBad, hst.hot hs j hp, hst.bodyOf hs hp]
  · unfold flowMatches
    rw [hst.bodyOf hs hp, hst.cold j hp]

theorem FlowsEnded.flushable {s t : State} (h : FlowsEnded s t) (hs : Flushable s) : Flushable t := by
  refine ⟨?_, ?_, fun j hj => ?_⟩
  · obtain ⟨P, hst, -⟩ := h; exact hst.bursts.trans hs.bursts
  · obtain ⟨P, hst, -⟩ := h; exact hst.sorted hs.sorted
  · obtain ⟨hway, hbad, -⟩ := h.survivor hs.sorted hj
    rw [hbad]
    exact hs.good j (hway ▸ hj)

/-- A flow ends with its twin only while the twin's handle is current. -/
theorem EndsWith.valid {s : State} {i j : Nat} (h : EndsWith s i j) (hi : (wayAt s i).valid = true) :
    (wayAt s j).valid = true := by
  obtain rfl | htwin := h
  · exact hi
  · unfold twinOf at htwin
    extract_lets c at htwin
    split at htwin
    · next hcur =>
      cases htwin
      have hcurrent := hcur.2
      rw [current, Bool.and_eq_true] at hcurrent
      exact hcurrent.1
    · cases htwin

/-- A flush visits a record: flows end, this one's among them when it matches. -/
theorem flushRecord_ends {s : State} (hs : Flushable s) (by_ value n i : Nat) :
    FlowsEnded s (flushRecord by_ value [] (n, s) i).2 ∧
      (flowMatches s by_ value i = true → (wayAt (flushRecord by_ value [] (n, s) i).2 i).valid = false) := by
  have hsettled : settleBursts s i = s := settleBursts_of_none (by simp [hs.bursts])
  unfold flushRecord
  rw [hsettled]
  by_cases hvalid : (wayAt s i).valid = true
  · have hgood : recordBad s (([] : List Nat).contains i) i = false := hs.good i hvalid
    by_cases hmatch : flowMatches s by_ value i = true
    · obtain ⟨hkept, hfree⟩ := endFlow_frees 4 hs.bursts hvalid
      simp only [hvalid, hgood, hmatch, Bool.not_true, Bool.false_eq_true, if_false, if_true]
      exact ⟨⟨_, hkept, fun j hj => ⟨hj.valid hvalid, hfree j hj⟩⟩, fun _ => hfree i (.inl rfl)⟩
    · simp only [hvalid, hgood, hmatch, Bool.not_true, Bool.false_eq_true, if_false]
      exact ⟨.refl s, nofun⟩
  · rw [Bool.not_eq_true] at hvalid
    simp only [hvalid, Bool.not_false, if_true]
    exact ⟨.refl s, fun _ => trivial⟩

/-- A flush of a list of places ends, of the records there, every one that matches. -/
theorem foldl_flushRecord_ends {s : State} (hs : Flushable s) (by_ value n : Nat) (l : List Nat) :
    let t := (l.foldl (flushRecord by_ value []) (n, s)).2
    FlowsEnded s t ∧ ∀ i ∈ l, flowMatches s by_ value i = true → (wayAt t i).valid = false := by
  induction l generalizing n s with
  | nil => exact ⟨.refl s, nofun⟩
  | cons i l ih =>
    obtain ⟨hstep, hfirst⟩ := flushRecord_ends hs by_ value n i
    rw [List.foldl_cons]
    generalize flushRecord by_ value [] (n, s) i = a at hstep hfirst ⊢
    obtain ⟨m, u⟩ := a
    obtain ⟨hrest, hfree⟩ := ih (hstep.flushable hs) m
    refine ⟨hstep.trans hrest, fun j hj hmatch => ?_⟩
    obtain rfl | hj := List.mem_cons.mp hj
    · exact hrest.invalid (hfirst hmatch)
    · by_cases hvalid : (wayAt u j).valid = true
      · obtain ⟨-, -, hmatches⟩ := hstep.survivor hs.sorted hvalid
        exact hfree j hj ((hmatches by_ value).trans hmatch)
      · exact hrest.invalid (Bool.not_eq_true _ ▸ hvalid)

/-- A valid way is listed. -/
theorem mem_ways_of_valid {s : State} {i : Nat} (h : (wayAt s i).valid = true) : (i, wayAt s i) ∈ s.skein.ways := by
  unfold wayAt at h ⊢
  generalize s.skein.ways = t at h ⊢
  induction t with
  | nil => cases h
  | cons e r ih =>
    obtain ⟨k, v⟩ := e
    rw [tget_cons] at h ⊢
    split at h
    · next heq => rw [if_pos heq, heq]; exact List.mem_cons_self
    · next hne => rw [if_neg hne]; exact List.mem_cons_of_mem _ (ih h)

theorem mem_placesIn {s : State} {lo hi i : Nat} (h : (wayAt s i).valid = true) (hlo : lo ≤ i) (hhi : i < hi) :
    i ∈ placesIn s lo hi := by
  simp only [placesIn, trange, List.mem_map, List.mem_filter]
  exact ⟨_, ⟨⟨mem_ways_of_valid h, by simp [hlo, hhi]⟩, h⟩, rfl⟩

/-- A flush of a range of buckets ends every flow that matches in it. -/
theorem flushRange_ends {s : State} (hs : Flushable s) (by_ value lo hi : Nat) :
    FlowsEnded s (flushRange by_ value [] [] lo hi s).2 ∧
      ∀ i, lo * 8 ≤ i → i < hi * 8 → flowMatches s by_ value i = true →
        (wayAt (flushRange by_ value [] [] lo hi s).2 i).valid = false := by
  obtain ⟨hended, hfree⟩ := foldl_flushRecord_ends hs by_ value 0 (placesIn s (lo * 8) (hi * 8))
  refine ⟨hended, fun i hlo hhi hmatch => ?_⟩
  by_cases hvalid : (wayAt s i).valid = true
  · exact hfree i (mem_placesIn hvalid hlo hhi) hmatch
  · exact hended.invalid (Bool.not_eq_true _ ▸ hvalid)

/-- Parts of a flush that all run end, one after the other, every flow that matches in the range of one of them. -/
theorem flushParts_end {s : State} (hs : Flushable s) {h : CmdHeader} {p : List Byte} (by_ value : Nat)
    (es : List (Nat × Nat × Nat)) (hruns : ∀ e ∈ es, fanRuns h p e.1 = true) :
    let t := (flushParts h p by_ value [] [] es s).2
    FlowsEnded s t ∧ ∀ e ∈ es, ∀ i, fanStart h p e.1 * 8 ≤ i → i < e.2.2 * 8 → flowMatches s by_ value i = true →
      (wayAt t i).valid = false := by
  induction es generalizing s with
  | nil => exact ⟨.refl s, nofun⟩
  | cons e es ih =>
    obtain ⟨hpart, hfirst⟩ := flushRange_ends hs by_ value (fanStart h p e.1) e.2.2
    rw [flushParts, if_pos (hruns e List.mem_cons_self)]
    generalize flushRange by_ value [] [] (fanStart h p e.1) e.2.2 s = a at hpart hfirst ⊢
    obtain ⟨n, u⟩ := a
    obtain ⟨hrest, hfree⟩ := ih (hpart.flushable hs) fun e he => hruns e (List.mem_cons_of_mem _ he)
    refine ⟨hpart.trans hrest, fun e' he i hlo hhi hmatch => ?_⟩
    obtain rfl | he := List.mem_cons.mp he
    · exact hrest.invalid (hfirst i hlo hhi hmatch)
    · by_cases hvalid : (wayAt u i).valid = true
      · obtain ⟨-, -, hmatches⟩ := hpart.survivor hs.sorted hvalid
        exact hfree e' he i hlo hhi ((hmatches by_ value).trans hmatch)
      · exact hrest.invalid (Bool.not_eq_true _ ▸ hvalid)

/-- How the eight parts of a flush that nothing stops end (12/R381). -/
def flushEnds : List (Nat × Nat × Nat) := (List.range 8).map (fun k => (k, stOk, (k + 1) * 0x200000))

section
variable {h : CmdHeader} (hop : h.opcode = 0x0605) (hres : h.resume = false)
include hop hres

theorem fanRuns_flush (p : List Byte) {k : Nat} (hk : k < 8) : fanRuns h p k = true := by
  simp [fanRuns, fanParts, hop, hres, hk]

theorem fanStart_flush (p : List Byte) (k : Nat) : fanStart h p k = k * 0x200000 := by
  simp [fanStart, fanRange, hop, hres]

theorem fanEnds_flush (p : List Byte) : fanEnds h p [] false 256 = flushEnds := by
  have hparts : fanParts h = List.range 8 := by simp [fanParts, hop]
  rw [fanEnds, hparts, flushEnds]
  refine List.map_congr_left fun k hk => ?_
  rw [if_pos (fanRuns_flush hop hres p (List.mem_range.mp hk))]
  simp [partEnd, fanRange, hop]

end

/-- No part is cut short where every record's home answers. -/
theorem downEnd_of_read {s : State} (hread : AllRead s) (h : CmdHeader) (p : List Byte) (e : Nat × Nat × Nat) :
    downEnd s h p e = e := by
  have hnone (lo hi : Nat) : firstDown s lo hi = none := by
    simp only [firstDown, List.find?_eq_none, List.mem_map, List.mem_filter, trange]
    rintro b ⟨e, ⟨⟨he, -⟩, hvalid⟩, rfl⟩
    simp [homeDown_of_answers (hread e he hvalid).1]
  unfold downEnd
  rw [hnone]
  split <;> rfl

/-- Every record that the ways list reads well, so every valid way's record does. -/
theorem AllRead.flushable {s : State} (hread : AllRead s) (hb : s.skein.bursts = []) (hsorted : HotSorted s) : Flushable s :=
  ⟨hb, hsorted, fun _ hj => (hread _ (mem_ways_of_valid hj) hj).2⟩

/-- The filter that BY names: 0 is LEARN_PORT. -/
def flushBy (p : List Byte) : Nat := if byteAt p 0 % 4 = 0 then 3 else byteAt p 0 % 4

/-- The state in which a flush that nothing stops leaves the flow store, and how many flows each part ended. -/
def flushed (h : CmdHeader) (p : List Byte) (s : State) : List (Nat × Nat) × State :=
  flushParts h p (flushBy p) (leAt p 4 4) [] [] flushEnds s

/-- The flows that each part of a flush ended, as its reply lists them (03/R103). -/
def flushCounts (ns : List (Nat × Nat)) : List Byte :=
  (List.range 8).flatMap (fun k => le 4 (((ns.find? (fun e => e.1 == k)).map (·.2)).getD 0))

theorem length_flushCounts (ns : List (Nat × Nat)) : (flushCounts ns).length = 32 := by
  simp [flushCounts, List.length_flatMap]

theorem flushed_ends {s : State} {h : CmdHeader} {p : List Byte} (hop : h.opcode = 0x0605) (hres : h.resume = false)
    (hs : Flushable s) : FlowsEnded s (flushed h p s).2 ∧
      ∀ i, i < 2 ^ 27 → flowMatches s (flushBy p) (leAt p 4 4) i = true → (wayAt (flushed h p s).2 i).valid = false := by
  have hmem {k : Nat} (hk : k < 8) : (k, stOk, (k + 1) * 0x200000) ∈ flushEnds :=
    List.mem_map.mpr ⟨k, List.mem_range.mpr hk, rfl⟩
  obtain ⟨hended, hfree⟩ := flushParts_end hs (p := p) (flushBy p) (leAt p 4 4) flushEnds fun e he => by
    obtain ⟨k, hk, rfl⟩ := List.mem_map.mp he
    exact fanRuns_flush hop hres p (List.mem_range.mp hk)
  refine ⟨hended, fun i hi hmatch => hfree _ (hmem (k := i / 2 ^ 24) (by omega)) i ?_ ?_ hmatch⟩
  · rw [fanStart_flush hop hres]; dsimp only; omega
  · dsimp only; omega

theorem flowFlush_answers {s : State} {h : CmdHeader} {p : List Byte} (hb : s.skein.bursts = []) (hsorted : HotSorted s)
    (H : RunsAlone s 0x0605 h p 8 (decide (byteAt p 0 % 4 ≠ 3))) (hres : h.resume = false) (hread : AllRead s) :
    flowFlush h p [] [] [] s =
      answered (flushed h p s).2 h (.fan flushEnds (flushCounts (flushed h p s).1)) := by
  have hop := H.runs.opcode
  obtain ⟨P, hkept, -⟩ := (flushed_ends (p := p) hop hres (hread.flushable hb hsorted)).1
  have hanswer : ((trange s.skein.ways 0 (2 ^ 27)).filter (fun e => e.2.valid)).all
      (fun e => recordAnswers s (e.1 / 8) || homeDown s (e.1 / 8)) = true := by
    rw [List.all_eq_true]
    intro e he
    obtain ⟨he, hvalid⟩ := List.mem_filter.mp he
    rw [(hread e (List.mem_filter.mp he).1 hvalid).1, Bool.true_or]
  have hends : (fanEnds h p [] false 256).map (downEnd s h p) = flushEnds := by
    rw [fanEnds_flush hop hres]
    exact (List.map_congr_left fun e _ => downEnd_of_read hread h p e).trans (List.map_id _)
  unfold flowFlush
  refine runCommand_of_alone H ?_ hkept.toHostsKept ?_
  · simp only [hanswer, hends, Bool.not_true, Bool.false_eq_true, if_false]
    rfl
  · simp [Answer.fan, length_partTable, length_flushCounts]

/-- Settles O52: with no burst outstanding each command reads the store as it stands; a deletion is the end of one flow, and a
flush is the ends of flows one after the other, none of which changes what the others hold. -/
theorem flowCommands : Obligations.FlowCommands := by
  intro s h p hb answers
  refine ⟨fun ue k i hk H ha hi hgood => ?_, fun ue hd i hhd H hcur hi ha hgood => ?_, fun l H hread hl => ?_,
    fun ue k i hk H ha hi hgood => ?_, fun H hres hread _ hhot hmerged _ => ?_⟩
  · subst hk
    exact congrArg Host.Outcome.next (flowLookupKey_answers hb H ha hi hgood)
  · subst hi hhd
    exact congrArg Host.Outcome.next (flowLookupHandle_answers hb H hcur ha hgood)
  · have hiter := flowIterate_answers hb H hread hl
    refine ⟨fun hshort => ?_, fun i hlong hi => ?_⟩
    · rw [nextCursor_of_short hshort] at hiter
      exact congrArg Host.Outcome.next hiter
    · rw [nextCursor_of_long hlong hi] at hiter
      exact congrArg Host.Outcome.next hiter
  · subst hk
    have hvalid := valid_of_findRecord hi
    obtain ⟨hkept, hfree⟩ := endFlow_frees 4 hb hvalid
    refine ⟨_, congrArg Host.Outcome.next (flowDeleteKey_ends hb H ha hi hgood hvalid), ?_, hfree i (.inl rfl),
      fun j hj => hfree j (.inr hj), fun j hne htwin => hkept.way j (not_or.mpr ⟨hne, htwin⟩), hkept.rim⟩
    exact congrArg (fun x => x.replies ++ _) hkept.host
  · have hflush := flowFlush_answers hb ⟨hhot, hmerged⟩ H hres hread
    obtain ⟨hended, hfree⟩ := flushed_ends (p := p) H.runs.opcode hres (AllRead.flushable hread hb ⟨hhot, hmerged⟩)
    obtain ⟨P, hkept, -⟩ := id hended
    refine ⟨_, flushCounts (flushed h p s).1, congrArg Host.Outcome.next hflush, ?_,
      fun i hi _ hmatch => hfree i hi hmatch, hended.way⟩
    exact congrArg (fun x => x.replies ++ _) hkept.host

end Sys2Proof.Machine
end

