-- ==== Sys2Proof/Proofs/RecordsKept.lean ====
section
/-! SUPPORT. What an access of a record, an eviction and a fold leave as it was (02/R45, R51; 03/R78, R86): which ways hold which
records, the keys of the cold homes, the frames in flight and the learn queues. -/

namespace Sys2Proof.Machine

/-- From one state to another the same ways hold records of the same keys, tags and generations, and the frames in flight and
the learn queues stay. -/
structure RecordsKept (s t : State) : Prop where
  frames : t.frames = s.frames
  valid : ∀ i, (wayAt t i).valid = (wayAt s i).valid
  tag : ∀ i, (wayAt t i).tag = (wayAt s i).tag
  gen : ∀ i, (wayAt t i).gen = (wayAt s i).gen
  key : ∀ i, (coldAt t i).body.key = (coldAt s i).body.key
  learnPort : ∀ i, (coldAt t i).learnPort = (coldAt s i).learnPort
  learnQ : t.skein.learnQ = s.skein.learnQ
  lastLearn : t.skein.lastLearn = s.skein.lastLearn

namespace RecordsKept

theorem refl (s : State) : RecordsKept s s :=
  ⟨rfl, fun _ => rfl, fun _ => rfl, fun _ => rfl, fun _ => rfl, fun _ => rfl, rfl, rfl⟩

theorem trans {s t u : State} (a : RecordsKept s t) (b : RecordsKept t u) : RecordsKept s u where
  frames := b.frames.trans a.frames
  valid i := (b.valid i).trans (a.valid i)
  tag i := (b.tag i).trans (a.tag i)
  gen i := (b.gen i).trans (a.gen i)
  key i := (b.key i).trans (a.key i)
  learnPort i := (b.learnPort i).trans (a.learnPort i)
  learnQ := b.learnQ.trans a.learnQ
  lastLearn := b.lastLearn.trans a.lastLearn

/-- A change outside the tables of ways and of cold records. -/
theorem of_tables {s t : State} (hframes : t.frames = s.frames) (hways : t.skein.ways = s.skein.ways)
    (hcold : t.skein.cold = s.skein.cold) (hqueues : t.skein.learnQ = s.skein.learnQ)
    (hlast : t.skein.lastLearn = s.skein.lastLearn) : RecordsKept s t := by
  have hway (i : Nat) : wayAt t i = wayAt s i := by rw [wayAt, wayAt, hways]
  have hrec (i : Nat) : coldAt t i = coldAt s i := by rw [coldAt, coldAt, hcold]
  exact ⟨hframes, fun i => by rw [hway], fun i => by rw [hway], fun i => by rw [hway], fun i => by rw [hrec],
    fun i => by rw [hrec], hqueues, hlast⟩

/-- A change of a list of steps, each of which keeps the records. -/
theorem foldl {α : Type} {f : State → α → State} {l : List α} (h : ∀ s, ∀ a ∈ l, RecordsKept s (f s a)) (s : State) :
    RecordsKept s (l.foldl f s) :=
  List.foldlRecOn (motive := fun t => RecordsKept s t) l f (.refl s) fun t ht a ha => ht.trans (h t a ha)

end RecordsKept

theorem recordsKept_bump (s : State) (part num n : Nat) : RecordsKept s (bump s part num n) := by
  obtain ⟨c, h⟩ := bump_eq s part num n
  rw [h]
  exact .of_tables rfl rfl rfl rfl rfl

theorem coldAt_modCold (s : State) (idx j : Nat) (f : ColdRec → ColdRec) :
    coldAt (modCold s idx f) j = if j = idx then f (coldAt s idx) else coldAt s j := tget_tupd ..

/-- A change of a cold record that leaves its key and its learn port. -/
theorem recordsKept_modCold {s : State} {idx : Nat} {f : ColdRec → ColdRec}
    (hkey : (f (coldAt s idx)).body.key = (coldAt s idx).body.key)
    (hport : (f (coldAt s idx)).learnPort = (coldAt s idx).learnPort) : RecordsKept s (modCold s idx f) := by
  refine ⟨rfl, fun _ => rfl, fun _ => rfl, fun _ => rfl, fun i => ?_, fun i => ?_, rfl, rfl⟩ <;> rw [coldAt_modCold] <;> split
  · next h => rw [hkey, h]
  · rfl
  · next h => rw [hport, h]
  · rfl

@[simp] theorem ColdRec.learnPort_move (bank : Nat) (add sub : Counts) (c : ColdRec) :
    (c.move bank add sub).learnPort = c.learnPort := by
  unfold ColdRec.move; split <;> rfl

theorem recordsKept_bankMove (s : State) (idx bank : Nat) (add sub : Counts) : RecordsKept s (bankMove s idx bank add sub) := by
  obtain ⟨lid, h⟩ := bankMove_eq s idx bank add sub
  rw [h]
  exact (recordsKept_modCold (by simp) (by simp)).trans (.of_tables rfl rfl rfl rfl rfl)

theorem recordsKept_applyBurst (s : State) (o : BurstOp) : RecordsKept s (applyBurst s o) := by
  unfold applyBurst
  extract_lets u
  have hmoved : RecordsKept s u := by
    unfold u
    split
    · exact recordsKept_bankMove ..
    · exact .of_tables rfl rfl rfl rfl rfl
  split
  · exact hmoved
  · exact hmoved.trans (.of_tables rfl rfl rfl rfl rfl)

theorem recordsKept_settleBursts (s : State) (idx : Nat) : RecordsKept s (settleBursts s idx) := by
  unfold settleBursts
  extract_lets mine u
  exact (RecordsKept.of_tables rfl rfl rfl rfl rfl : RecordsKept s u).trans (.foldl (fun t o _ => recordsKept_applyBurst t o) u)

theorem recordsKept_foldHot (s : State) (r : HotRec) : RecordsKept s (foldHot s r).2 := by
  unfold foldHot
  split
  · exact .refl s
  · exact .of_tables rfl rfl rfl rfl rfl

theorem recordsKept_freshBank (s : State) (r : HotRec) : RecordsKept s (freshBank s r).2 := by
  unfold freshBank
  split
  · exact .refl s
  · exact recordsKept_foldHot ..

theorem recordsKept_addHot (s : State) (r : HotRec) (a : Counts) : RecordsKept s (addHot s r a).2 := by
  unfold addHot
  extract_lets p
  unfold p
  split
  · exact .refl s
  · exact recordsKept_foldHot ..

theorem recordsKept_accessHot (s : State) (slot : Nat) (r : HotRec) : RecordsKept s (accessHot s slot r) :=
  .of_tables rfl rfl rfl rfl rfl

theorem recordsKept_putWriteBack (s : State) (idx : Nat) (r : Option HotRec) : RecordsKept s (putWriteBack s idx r) :=
  .of_tables rfl rfl rfl rfl rfl

theorem recordsKept_coldOps (s : State) (b n : Nat) : RecordsKept s (coldOps s b n) := .of_tables rfl rfl rfl rfl rfl

theorem recordsKept_evict (s : State) (e : Nat × HotRec) : RecordsKept s (evict s e) := .of_tables rfl rfl rfl rfl rfl

/-- An access of a record that leaves its key keeps the records, wherever the record is in force. -/
theorem recordsKept_accessRecord {s : State} {idx : Nat} {g : FlowBody → FlowBody} (add : Counts)
    (hkey : ∀ x, (g x).key = (bodyOf s idx).key) : RecordsKept s (accessRecord s idx g add) := by
  unfold accessRecord
  split
  · exact ((recordsKept_freshBank ..).trans (recordsKept_addHot ..)).trans (recordsKept_accessHot ..)
  · next hhot =>
    split
    · exact ((recordsKept_freshBank ..).trans (recordsKept_addHot ..)).trans (recordsKept_putWriteBack ..)
    · next hbuffer =>
      have hsettled := recordsKept_settleBursts s idx
      have hbody : bodyOf s idx = (coldAt s idx).body := by rw [bodyOf, hhot]; dsimp only; rw [hbuffer]
      have hcold : RecordsKept (settleBursts s idx) (modCold (settleBursts s idx) idx fun c => { c with body := g c.body }) :=
        recordsKept_modCold (by rw [hkey, hbody, hsettled.key]) rfl
      exact ((hsettled.trans hcold).trans (recordsKept_bankMove ..)).trans (recordsKept_coldOps ..)

theorem recordsKept_evictSet (s : State) (set : List Nat) : RecordsKept s (evictSet s set) :=
  .foldl (fun t e _ => recordsKept_evict t e) s

/-- A change of a way that leaves its tag, its generation and whether it is valid. -/
theorem recordsKept_modWay {s : State} {idx : Nat} {f : WayEntry → WayEntry} (hvalid : ∀ w, (f w).valid = w.valid)
    (htag : ∀ w, (f w).tag = w.tag) (hgen : ∀ w, (f w).gen = w.gen) : RecordsKept s (modWay s idx f) := by
  refine ⟨rfl, fun i => ?_, fun i => ?_, fun i => ?_, fun _ => rfl, fun _ => rfl, rfl, rfl⟩ <;> rw [wayAt_modWay] <;> split
  · next h => rw [hvalid, h]
  · rfl
  · next h => rw [htag, h]
  · rfl
  · next h => rw [hgen, h]
  · rfl

/-- A record placed hot leaves the cold tier: its way names the slot. -/
theorem recordsKept_placeHot (s : State) (slot : Nat) (r : HotRec) : RecordsKept s (placeHot s slot r) := by
  unfold placeHot
  extract_lets set s1 hb p r1 r2 s2
  have hevicted : RecordsKept s s1 := recordsKept_evictSet ..
  have hplaced : RecordsKept s1 s2 := .of_tables rfl rfl rfl rfl rfl
  exact (hevicted.trans hplaced).trans (recordsKept_modWay (fun _ => rfl) (fun _ => rfl) (fun _ => rfl))

end Sys2Proof.Machine
end

