-- ==== Sys2Proof/Proofs/Learning.lean ====
section
/-! PROOF. A full miss becomes a queued learn, and a learn a record (02/R61, R62, R64; 03/R80; 06/R183). -/

namespace Sys2Proof.Machine

/-! ### What no learn is queued for -/

/-- A full miss in a valid zone with a next hop, no TCP segment, no fragment and not to a public address may be learned. -/
theorem noLearn_none (s : State) (id : Nat) {f : Frame} (hzone : bit f.cls.zoneImage 63 = true) (hdst : f.cls.natDst = none)
    (hproto : f.head.key.proto ≠ 6) (hfrag : f.head.frag = false) (hhop : (learnHop f.cls).isSome = true) :
    noLearn s id f = none := by
  have hpool : toPoolAddr s f = none := by simp [toPoolAddr, hdst]
  have hnone : (learnHop f.cls).isNone = false := by simpa using hhop
  simp [noLearn, hzone, hnone, hproto, hfrag, hpool]

/-! ### A queued learn -/

/-- A learn's token comes off the port's bucket alone. -/
theorem takeToken_frame (s : State) (port : Nat) :
    ∃ tokens ticks, takeToken s port = { s with skein := { s.skein with tokens := tokens, tokensTick := ticks } } := by
  unfold takeToken
  split
  · exact ⟨_, _, rfl⟩
  · exact ⟨s.skein.tokens, s.skein.tokensTick, rfl⟩

/-- One live flow more of a port. -/
theorem live_liveMove_succ (s : State) (port bucket : Nat) :
    tget 0 (liveMove s port bucket (· + 1)).skein.live port = tget 0 s.skein.live port + 1 := by
  simp [liveMove, withSkein, tmod, tput]

/-- A learn that is queued: its token taken, one live flow more of its port, the head at the end of its slice's queue. -/
def learnEntered (s : State) (id : Nat) (f : Frame) : State :=
  withSkein (liveMove (takeToken s f.port) f.port f.head.key.bucket (· + 1)) (fun k => { k with
    learnQ := setAt k.learnQ f.slice (s.skein.learnQ.getD f.slice [] ++ [id]) })

/-- A full miss that may be learned, within its port's limits, with room in its slice's queue, is queued and counted. -/
theorem learnRequest_of_queued {s : State} {id : Nat} {f : Frame} (hf : frameAt s id = some f) (hmiss : f.lookup = .fullMiss)
    (hdone : f.cls.done = true) (hstage : f.stage = .parsed) (hlearn : noLearn (clearPend s f.head.key) id f = none)
    (hlimits : learnRefused s f.port = false) (hroom : (s.skein.learnQ.getD f.slice []).length < 65536) :
    ∃ n, learnRequest id s = modFrame (bump (learnEntered s id f) (f.slice + 1) 0x26E n) id
      (fun g => { g with lookup := .learnQueued }) := by
  rw [learnRequest, onFrame_of_some hf]
  simp only [hmiss, hdone, hstage, hlearn, hlimits, Nat.not_le.mpr hroom, bne_self_eq_false, Bool.not_true, Bool.or_self,
    Bool.false_eq_true, if_false]
  exact ⟨_, rfl⟩

/-- A learn joins the end of its slice's queue, and its port has one live flow more; the frames stand. -/
theorem learnEntered_frame {s : State} (id : Nat) {f : Frame} (hparts : s.skein.learnQ.length = 8) (hslice : f.slice < 8) :
    ∃ skein, learnEntered s id f = { s with skein := skein } ∧
      skein.learnQ.getD f.slice [] = s.skein.learnQ.getD f.slice [] ++ [id] ∧
      tget 0 skein.live f.port = tget 0 s.skein.live f.port + 1 := by
  obtain ⟨tokens, ticks, htoken⟩ := takeToken_frame s f.port
  have hlive := live_liveMove_succ (takeToken s f.port) f.port f.head.key.bucket
  unfold learnEntered
  rw [htoken] at hlive ⊢
  refine ⟨_, rfl, ?_, hlive⟩
  have hlen : f.slice < s.skein.learnQ.length := by rw [hparts]; exact hslice
  exact (getD_setAt ..).trans (if_pos ⟨rfl, hlen⟩)

theorem exec_learnRequest_queues {s : State} {id : Nat} {f : Frame} (hf : frameAt s id = some f) (hmiss : f.lookup = .fullMiss)
    (hdone : f.cls.done = true) (hstage : f.stage = .parsed) (hlearn : noLearn (clearPend s f.head.key) id f = none)
    (hparts : s.skein.learnQ.length = 8) (hslice : f.slice < 8) (hlimits : learnRefused s f.port = false)
    (hroom : (s.skein.learnQ.getD f.slice []).length < 65536) :
    ∃ t counters skein frames, exec (.learnRequest id) s = .next t ∧
      t = { s with counters := counters, skein := skein, frames := frames } ∧ (∀ j, j ≠ id → frameAt t j = frameAt s j) ∧
      frameAt t id = some { f with lookup := .learnQueued } ∧
      t.skein.learnQ.getD f.slice [] = s.skein.learnQ.getD f.slice [] ++ [id] ∧
      tget 0 t.skein.live f.port = tget 0 s.skein.live f.port + 1 := by
  obtain ⟨n, hqueued⟩ := learnRequest_of_queued hf hmiss hdone hstage hlearn hlimits hroom
  obtain ⟨skein, hentered, hqueue, hlive⟩ := learnEntered_frame id hparts hslice
  obtain ⟨counters, hcount⟩ := bump_eq { s with skein := skein } (f.slice + 1) 0x26E n
  rw [hentered, hcount, modFrame_of_some (show frameAt { s with skein := skein, counters := counters } id = some f from hf)]
    at hqueued
  exact ⟨_, counters, skein, _, congrArg Host.Outcome.next hqueued, rfl, fun _ hj => tfind_tins_ne _ _ hj, tfind_tins_same ..,
    hqueue, hlive⟩

/-! ### A learn that its port's limits refuse -/

/-- Two states with the same frames in flight and the same flow store. -/
structure FlightKept (s t : State) : Prop where
  frames : t.frames = s.frames
  skein : t.skein = s.skein

theorem FlightKept.refl (s : State) : FlightKept s s := ⟨rfl, rfl⟩

theorem FlightKept.trans {s t u : State} (a : FlightKept s t) (b : FlightKept t u) : FlightKept s u :=
  ⟨b.frames.trans a.frames, b.skein.trans a.skein⟩

theorem flightKept_bump (s : State) (part num n : Nat) : FlightKept s (bump s part num n) := by
  obtain ⟨c, h⟩ := bump_eq s part num n
  rw [h]
  exact ⟨rfl, rfl⟩

theorem flightKept_postEvent (s : State) (src : Nat) (body : List Byte) : FlightKept s (postEvent s src body) := by
  obtain ⟨host, out, h⟩ := postEvent_eq s src body
  rw [h]
  exact ⟨rfl, rfl⟩

theorem flightKept_modSlice (s : State) (sl : Nat) (f : SliceState → SliceState) : FlightKept s (modSlice s sl f) :=
  ⟨rfl, rfl⟩

theorem flightKept_raiseTask (s : State) (code prio : Nat) (params : List Byte) : FlightKept s (raiseTask s code prio params) :=
  ⟨rfl, rfl⟩

/-- Retiring versions touches no frame and no record. -/
theorem flightKept_retireFrom (n : Nat) (s : State) (sl : Nat) : FlightKept s (retireFrom n s sl) := by
  induction n generalizing s with
  | zero => exact .refl s
  | succ n ih =>
    unfold retireFrom
    extract_lets v s1 s2 s3
    split
    · have hslice : FlightKept s s1 := flightKept_modSlice ..
      have hevent : FlightKept s1 s2 := flightKept_postEvent ..
      have hrules : FlightKept s2 s3 := by
        unfold s3
        split
        · exact ⟨rfl, rfl⟩
        · exact .refl _
      exact (((hslice.trans hevent).trans hrules).trans (flightKept_raiseTask ..)).trans (ih _)
    · exact .refl s

theorem flightKept_headLeave (s : State) (sl version : Nat) : FlightKept s (headLeave s sl version) :=
  (flightKept_modSlice ..).trans (flightKept_retireFrom ..)

/-- Two states with the same flow store and, but for one frame, the same frames in flight. -/
structure OtherFramesKept (id : Nat) (s t : State) : Prop where
  frames : ∀ j, j ≠ id → frameAt t j = frameAt s j
  sorted : tsorted s.frames = true → tsorted t.frames = true
  skein : t.skein = s.skein

namespace OtherFramesKept

variable {id : Nat} {s t u : State}

theorem trans (a : OtherFramesKept id s t) (b : OtherFramesKept id t u) : OtherFramesKept id s u :=
  ⟨fun j hj => (b.frames j hj).trans (a.frames j hj), fun h => b.sorted (a.sorted h), b.skein.trans a.skein⟩

theorem of_flightKept (h : FlightKept s t) : OtherFramesKept id s t :=
  ⟨fun _ _ => by rw [frameAt, frameAt, h.frames], fun hs => by rw [h.frames, hs], h.skein⟩

theorem refl (s : State) : OtherFramesKept id s s := of_flightKept (.refl s)

theorem onFrame {g : Frame → State} (h : ∀ f, OtherFramesKept id s (g f)) :
    OtherFramesKept id s (Machine.onFrame s id g) := by
  unfold Machine.onFrame
  split
  · exact .refl s
  · exact h _

end OtherFramesKept

theorem otherFramesKept_modFrame (s : State) (id : Nat) (g : Frame → Frame) : OtherFramesKept id s (modFrame s id g) := by
  unfold modFrame
  split
  · exact .refl s
  · exact ⟨fun _ hj => tfind_tins_ne _ _ hj, fun hs => tsorted_tins _ _ hs, rfl⟩

theorem otherFramesKept_dropFrame (s : State) (id : Nat) : OtherFramesKept id s (dropFrame s id) :=
  ⟨fun _ hj => tfind_tdel_ne _ hj, fun hs => tsorted_tdel _ hs, rfl⟩

theorem flightKept_offerTrace (s : State) (r : List Byte) : FlightKept s (offerTrace s r) := by
  unfold offerTrace
  extract_lets u
  split
  · exact (flightKept_bump ..).trans ⟨rfl, rfl⟩
  · exact ⟨rfl, rfl⟩

theorem otherFramesKept_tagRecord (s : State) (id outcome owner : Nat) :
    OtherFramesKept id s (tagRecord s id outcome owner) := by
  refine .onFrame fun f => ?_
  split
  · extract_lets s1 s2
    have hcount : FlightKept s s1 := flightKept_bump ..
    have hoffer : FlightKept s1 s2 := by
      unfold s2
      split
      · exact flightKept_offerTrace ..
      · exact .refl _
    exact (OtherFramesKept.of_flightKept (hcount.trans hoffer)).trans (otherFramesKept_modFrame ..)
  · exact .refl s

theorem flightKept_outstandingSub (s : State) (sl bank : Nat) : FlightKept s (outstandingSub s sl bank) := ⟨rfl, rfl⟩

theorem otherFramesKept_verdictBad (s : State) (id : Nat) : OtherFramesKept id s (verdictBad s id) := by
  refine .onFrame fun f => ?_
  extract_lets s1
  have hvoid : OtherFramesKept id s s1 := otherFramesKept_modFrame ..
  refine hvoid.trans (.of_flightKept ?_)
  split
  · split
    · exact ⟨rfl, rfl⟩
    · exact flightKept_outstandingSub ..
  · split
    · exact flightKept_outstandingSub ..
    · exact .refl _

theorem onFrame_of_none {s : State} {id : Nat} (h : frameAt s id = none) (g : Frame → State) : onFrame s id g = s := by
  unfold onFrame; rw [h]

/-- A released frame is gone; the others and the flow store stand. -/
theorem releaseFrame_drops {s : State} (id : Nat) (hs : tsorted s.frames = true) :
    frameAt (releaseFrame s id) id = none ∧ OtherFramesKept id s (releaseFrame s id) := by
  unfold releaseFrame
  cases hf : frameAt s id with
  | none => rw [onFrame_of_none hf]; exact ⟨hf, .refl s⟩
  | some f =>
    rw [onFrame_of_some hf]
    extract_lets s1 egress s2 s3 s4
    have hqueues : FlightKept s s2 := ⟨rfl, rfl⟩
    have hdrop : OtherFramesKept id s2 s3 := otherFramesKept_dropFrame ..
    have hgone : frameAt s3 id = none := tfind_tdel_same hs
    have hsnap : FlightKept s3 s4 := by
      unfold s4
      split
      · exact ⟨rfl, rfl⟩
      · exact .refl _
    have hlast : FlightKept s4 (if f.carries || f.deepQueued then headLeave s4 f.slice f.version else s4) := by
      split
      · exact flightKept_headLeave ..
      · exact .refl _
    have hafter := hsnap.trans hlast
    exact ⟨by rw [frameAt, hafter.frames]; exact hgone,
      ((OtherFramesKept.of_flightKept hqueues).trans hdrop).trans (.of_flightKept hafter)⟩

/-- A discarded head is gone; the other frames and the flow store stand. -/
theorem discardHead_drops {s : State} (id outcome : Nat) (hs : tsorted s.frames = true) :
    frameAt (discardHead s id outcome) id = none ∧ OtherFramesKept id s (discardHead s id outcome) := by
  have hbad := (otherFramesKept_tagRecord s id outcome 0).trans (otherFramesKept_verdictBad _ id)
  obtain ⟨hgone, hkept⟩ := releaseFrame_drops id (hbad.sorted hs)
  exact ⟨hgone, hbad.trans hkept⟩

theorem flightKept_slotDropped (s : State) (sl : Nat) : FlightKept s (slotDropped s sl) :=
  (flightKept_bump ..).trans (flightKept_bump ..)

/-- A dropped head is gone; the other frames and the flow store stand. -/
theorem learnDrop_drops {s : State} (id : Nat) (hs : tsorted s.frames = true) :
    frameAt (learnDrop s id) id = none ∧ OtherFramesKept id s (learnDrop s id) := by
  unfold learnDrop
  cases hf : frameAt s id with
  | none => rw [onFrame_of_none hf]; exact ⟨hf, .refl s⟩
  | some f =>
    rw [onFrame_of_some hf]
    have hslot := flightKept_slotDropped s f.slice
    obtain ⟨hgone, hkept⟩ := discardHead_drops id 3 (hslot.frames ▸ hs)
    exact ⟨hgone, (OtherFramesKept.of_flightKept hslot).trans hkept⟩

/-- Nothing pends for a key once cleared. -/
theorem pendOf_clearPend (s : State) (k : Key) : pendOf (clearPend s k) k = none := by
  simp [pendOf, clearPend, List.find?_filter]

/-- A full miss that may be learned but whose port's limits refuse it, on a port that drops the excess, leaves the device, and
nothing pends for its key. -/
theorem exec_learnRequest_drops {s : State} {id : Nat} {f : Frame} (hs : tsorted s.frames = true) (hf : frameAt s id = some f)
    (hmiss : f.lookup = .fullMiss) (hdone : f.cls.done = true) (hstage : f.stage = .parsed)
    (hlearn : noLearn (clearPend s f.head.key) id f = none) (hlimits : learnRefused s f.port = true)
    (hexcess : fld s .lrnCfg (portIx f.port) 30 30 = 1) :
    ∃ t, exec (.learnRequest id) s = .next t ∧ frameAt t id = none ∧ (∀ j, j ≠ id → frameAt t j = frameAt s j) ∧
      pendOf t f.head.key = none := by
  have hrequest : learnRequest id s = excess (clearPend s f.head.key) f.port id 5 := by
    rw [learnRequest, onFrame_of_some hf]
    simp only [hmiss, hdone, hstage, hlearn, hlimits, bne_self_eq_false, Bool.not_true, Bool.or_self, Bool.false_eq_true,
      if_false, if_true]
  generalize hu : clearPend s f.head.key = u at hrequest
  have hfu : frameAt u id = some f := by rw [← hu]; exact hf
  have hfld : fld u .lrnCfg (portIx f.port) 30 30 = 1 := by rw [← hu]; exact hexcess
  rw [excess, onFrame_of_some hfu, if_pos hfld] at hrequest
  have hcounted : FlightKept u (cntPort u f.port 9) := flightKept_bump ..
  obtain ⟨hgone, hkept⟩ := learnDrop_drops (s := cntPort u f.port 9) id (by rw [hcounted.frames, ← hu]; exact hs)
  have hcleared : pendOf u f.head.key = none := by rw [← hu]; exact pendOf_clearPend ..
  refine ⟨_, congrArg Host.Outcome.next hrequest, hgone, fun j hj => ?_, ?_⟩
  · rw [hkept.frames j hj, frameAt, hcounted.frames, ← hu]; rfl
  · rw [pendOf, bankAt, hkept.skein, hcounted.skein]; exact hcleared

/-! ### A learn that Fitch serves -/

/-- A record written to the cold tier: its way valid with the key's tag, its cold home with nothing counted (03/R80). -/
def coldWritten (s : State) (b : FlowBody) (port idx : Nat) : State :=
  let s1 := modWay s idx (fun w => { w with tag := b.key.tag, valid := true, hot := false, pinned := false, hotSlot := 0 })
  let s2 := modCold s1 idx (fun _ => ⟨true, b, mkHandle (wayAt s idx).gen idx, 0, port, Counts.zero, Counts.zero⟩)
  withSkein (coldOps s2 b.key.bucket 3) (fun k => { k with inFlight := k.inFlight ++ [b.key.bucket] })

/-- Writing a record leaves the frames in flight. -/
theorem frames_coldWritten (s : State) (b : FlowBody) (port idx : Nat) : (coldWritten s b port idx).frames = s.frames := rfl

theorem wayAt_coldWritten (s : State) (b : FlowBody) (port idx : Nat) :
    wayAt (coldWritten s b port idx) idx =
      { wayAt s idx with tag := b.key.tag, valid := true, hot := false, pinned := false, hotSlot := 0 } :=
  tget_tupd_same WayEntry.free s.skein.ways idx
    (fun w => { w with tag := b.key.tag, valid := true, hot := false, pinned := false, hotSlot := 0 })

theorem coldAt_coldWritten (s : State) (b : FlowBody) (port idx : Nat) :
    coldAt (coldWritten s b port idx) idx =
      ⟨true, b, mkHandle (wayAt s idx).gen idx, 0, port, Counts.zero, Counts.zero⟩ :=
  tget_tupd_same ColdRec.none s.skein.cold idx
    (fun _ => ⟨true, b, mkHandle (wayAt s idx).gen idx, 0, port, Counts.zero, Counts.zero⟩)

/-- A record with a free way, and no wait for a write-back buffer, is written there; placing it hot keeps the cold record. -/
theorem writeRecord_of_free {s : State} {b : FlowBody} {port idx : Nat} (hfree : freeWayOf s b.key.bucket = some idx)
    (hchoice : chooseVictim s (hotBucketOf b.key.bucket) b.slots none ≠ .wait) :
    ∃ t, writeRecord s b port = .at_ idx t ∧ RecordsKept (coldWritten s b port idx) t := by
  unfold writeRecord
  rw [hfree]
  cases hv : chooseVictim s (hotBucketOf b.key.bucket) b.slots none with
  | wait => exact absurd hv hchoice
  | none => exact ⟨_, rfl, recordsKept_bump ..⟩
  | slot n => exact ⟨_, rfl, recordsKept_placeHot ..⟩

theorem frameAt_modFrame_same (s : State) (id : Nat) (g : Frame → Frame) :
    frameAt (modFrame s id g) id = (frameAt s id).map g := by
  cases hf : frameAt s id with
  | none => simp only [modFrame, hf, Option.map_none]
  | some f => rw [modFrame_of_some hf]; exact tfind_tins_same ..

/-- Counting a frame, where it is its first pass, changes the frame and the Lid. -/
theorem countFrame_keeps {s : State} {id : Nat} {f : Frame} (first : Prop) [Decidable first] (hf : frameAt s id = some f)
    (handle cls zone : Nat) (bill : Bool) :
    let t := if first then countFrame s id handle cls zone bill else s
    OtherFramesKept id s t ∧ (frameAt t id).isSome = true := by
  obtain ⟨lid, hcount⟩ := countFrame_of_some hf handle cls zone bill
  have hlid : FlightKept s { s with lid := lid } := ⟨rfl, rfl⟩
  extract_lets t
  unfold t
  split
  · rw [hcount, frameAt_modFrame_same, frameAt, hlid.frames, ← frameAt, hf]
    exact ⟨(OtherFramesKept.of_flightKept hlid).trans (otherFramesKept_modFrame ..), rfl⟩
  · rw [hf]
    exact ⟨.refl s, rfl⟩

/-- From one state to another a head's lookup ended so, with this handle; the other frames and the flow store stand. -/
structure LookupEnded (id how handle : Nat) (s t : State) : Prop where
  others : OtherFramesKept id s t
  frame : ∃ f, frameAt t id = some f ∧ f.lookup = .done ∧ f.lookupHow = how ∧ f.handle = handle

theorem lookupDone_marked {s u : State} {id handle : Nat} {g : Frame → Frame} (how : Nat) (h : OtherFramesKept id s u)
    (hf : (frameAt u id).isSome = true) (hhandle : ∀ f, (g f).handle = handle) :
    LookupEnded id how handle s (lookupDone (modFrame u id g) id how) := by
  obtain ⟨f, hf⟩ := Option.isSome_iff_exists.mp hf
  refine ⟨(h.trans (otherFramesKept_modFrame ..)).trans (otherFramesKept_modFrame ..), ?_⟩
  rw [lookupDone, frameAt_modFrame_same, frameAt_modFrame_same, hf]
  exact ⟨_, rfl, rfl, rfl, hhandle f⟩

/-- A head that is no TCP segment and is found by a record: an access of the record, after which its lookup ends. -/
theorem recordHit_of_unsegmented {s : State} {id : Nat} {f : Frame} (idx how : Nat) (learned : Bool) (hf : frameAt s id = some f)
    (hseg : f.segment = none) :
    ∃ u, RecordsKept s u ∧ LookupEnded id how (handleOf s idx) u (recordHit s id idx how learned) := by
  rw [recordHit, onFrame_of_some hf]
  simp only [hseg, Bool.and_false, Bool.false_eq_true, if_false]
  generalize hu : accessRecord s idx _ _ = u
  have hkept : RecordsKept s u := by
    rw [← hu]
    exact recordsKept_accessRecord _ (fun _ => rfl)
  have hfu : frameAt u id = some f := by rw [frameAt, hkept.frames]; exact hf
  obtain ⟨hothers, hsome⟩ := countFrame_keeps (f.pass == 0 && !f.count.posted) hfu (handleOf s idx) (bodyOf s idx).action.cls
    (bodyOf s idx).key.zone (!((bodyOf s idx).action.verdict == 1 || (bodyOf s idx).action.verdict == 3 || false))
  exact ⟨u, hkept, lookupDone_marked how hothers hsome (fun _ => rfl)⟩

/-- Fitch took the learn at the front of a slice's queue (02/R27). -/
def learnTaken (s : State) (sl : Nat) : State :=
  withSkein s (fun k => { k with learnQ := setAt k.learnQ sl ((k.learnQ.getD sl []).drop 1), lastLearn := sl })

theorem frames_learnTaken (s : State) (sl : Nat) : (learnTaken s sl).frames = s.frames := rfl

theorem learnQ_learnTaken {s : State} {sl id : Nat} {rest : List Nat} (hqueue : s.skein.learnQ.getD sl [] = id :: rest)
    (hsl : sl < s.skein.learnQ.length) : (learnTaken s sl).skein.learnQ.getD sl [] = rest := by
  have hset := getD_setAt s.skein.learnQ sl ((s.skein.learnQ.getD sl []).drop 1) [] sl
  rw [if_pos ⟨rfl, hsl⟩] at hset
  exact hset.trans (by rw [hqueue]; rfl)

/-- The record of a flow whose profile neither translates nor balances. -/
def plainBody (s : State) (f : Frame) : FlowBody :=
  newBody s f.head.key (learnAction s f f.head.d ((learnHop f.cls).getD 0))

@[simp] theorem key_plainBody (s : State) (f : Frame) : (plainBody s f).key = f.head.key := rfl

theorem learnPlan_of_plain {s : State} {f : Frame} (ue : List Nat) (hnat : profNat (learnProfile s f) = 0)
    (hlb : profLb (learnProfile s f) = false) : learnPlan ue s f = .ok ([plainBody s f], s) := by
  have htranslates : translates s f (learnProfile s f) = false := by simp [translates, hnat]
  simp [learnPlan, htranslates, plainPlan, hlb, plainBody]

/-- The learn at the front of a slice's queue may be served: its home takes it, or its group has no home (03/R80). -/
def learnReady (s : State) (sl : Nat) : Bool :=
  match learnFront s sl with
  | some (_, f) => !(groupAt s (groupOf f.head.key.bucket)).placed || homeTakes s f.head.key.bucket
  | none => false

/-- Fitch serves the learn of the slice whose turn it is. -/
theorem fitchLearn_of_front {s : State} {sl id : Nat} {f : Frame} {rest : List Nat} (ue : List Nat)
    (hturn : nextRR 8 s.skein.lastLearn (learnReady s) = some sl)
    (hqueue : s.skein.learnQ.getD sl [] = id :: rest) (hf : frameAt s id = some f) :
    fitchLearn ue s = serveLearn ue s (learnTaken s sl) id f := by
  have hfront : learnFront s sl = some (id, f) := by
    rw [learnFront, hqueue]
    simp [hf]
  unfold fitchLearn
  extract_lets ok
  have hok : nextRR 8 s.skein.lastLearn ok = some sl := hturn
  rw [hok]
  simp only [hfront, learnTaken]

/-- A plain learn for a key that has no record, with a free way and no wait, is written and its head found by it. -/
theorem serveLearn_of_plain {s old : State} {id idx : Nat} {f : Frame} (ue : List Nat) (hf : frameAt s id = some f)
    (hseg : f.segment = none) (hnew : findWay s f.head.key = none) (hfree : freeWayOf s f.head.key.bucket = some idx)
    (hnat : profNat (learnProfile s f) = 0) (hlb : profLb (learnProfile s f) = false)
    (hnotice : s.sched.stalled.any (isTask 0xF004) = false)
    (hchoice : ∀ n, chooseVictim s (hotBucketOf f.head.key.bucket) n none ≠ .wait) :
    ∃ u, RecordsKept (coldWritten s (plainBody s f) f.port idx) u ∧
      LookupEnded id 4 (mkHandle (wayAt s idx).gen idx) u (serveLearn ue old s id f) := by
  obtain ⟨t, hwrite, hwritten⟩ := writeRecord_of_free (b := plainBody s f) (port := f.port) hfree (hchoice _)
  have hcleared : RecordsKept t (clearPend t f.head.key) := .of_tables rfl rfl rfl rfl rfl
  have hgen : (wayAt (clearPend t f.head.key) idx).gen = (wayAt s idx).gen := by
    rw [hcleared.gen, hwritten.gen, wayAt_coldWritten]
  have hft : frameAt (clearPend t f.head.key) id = some f := by rw [frameAt, hcleared.frames, hwritten.frames]; exact hf
  have hserve : serveLearn ue old s id f = recordHit (clearPend t f.head.key) id idx 4 true := by
    unfold serveLearn
    simp only [hnew, Option.isSome_none, learnPlan_of_plain ue hnat hlb, hnotice, writeFlow, hwrite, Bool.false_eq_true, if_false]
    rfl
  obtain ⟨u, haccess, hended⟩ := recordHit_of_unsegmented idx 4 true hft hseg
  rw [hserve]
  refine ⟨u, (hwritten.trans hcleared).trans haccess, ?_⟩
  rw [handleOf, hgen] at hended
  exact hended

/-- FITCH_LEARN of a plain learn at the front of the queue whose turn it is. -/
theorem exec_fitchLearn_writes {s : State} {sl id idx : Nat} {f : Frame} {rest : List Nat} (hparts : s.skein.learnQ.length = 8)
    (hf : frameAt s id = some f)
    (hturn : nextRR 8 s.skein.lastLearn (learnReady s) = some sl)
    (hqueue : s.skein.learnQ.getD sl [] = id :: rest) (hsl : sl < 8) (hseg : f.segment = none)
    (hnew : findWay s f.head.key = none) (hfree : freeWayOf s f.head.key.bucket = some idx)
    (hnat : profNat (learnProfile s f) = 0) (hlb : profLb (learnProfile s f) = false)
    (hnotice : s.sched.stalled.any (isTask 0xF004) = false)
    (hchoice : ∀ n, chooseVictim s (hotBucketOf f.head.key.bucket) n none ≠ .wait) :
    ∃ t f', exec (.fitchLearn []) s = .next t ∧ (∀ j, j ≠ id → frameAt t j = frameAt s j) ∧ frameAt t id = some f' ∧
      f'.lookup = .done ∧ f'.lookupHow = 4 ∧ f'.handle = mkHandle (wayAt s idx).gen idx ∧ (wayAt t idx).valid = true ∧
      (wayAt t idx).tag = f.head.key.tag ∧ (wayAt t idx).gen = (wayAt s idx).gen ∧
      (coldAt t idx).body.key = f.head.key ∧ (coldAt t idx).learnPort = f.port ∧
      t.skein.learnQ.getD sl [] = rest ∧ t.skein.lastLearn = sl := by
  have hserved := fitchLearn_of_front [] hturn hqueue hf
  obtain ⟨u, hkept, hothers, f', hf', hdone, hhow, hhandle⟩ := serveLearn_of_plain (s := learnTaken s sl) (old := s) [] hf hseg
    hnew hfree hnat hlb hnotice hchoice
  have hqueues : u.skein.learnQ = (learnTaken s sl).skein.learnQ := hkept.learnQ
  have hway (i : Nat) : wayAt (serveLearn [] s (learnTaken s sl) id f) i = wayAt u i := by rw [wayAt, wayAt, hothers.skein]
  have hcold (i : Nat) : coldAt (serveLearn [] s (learnTaken s sl) id f) i = coldAt u i := by rw [coldAt, coldAt, hothers.skein]
  refine ⟨_, f', congrArg Host.Outcome.next hserved, fun j hj => ?_, hf', hdone, hhow, hhandle, ?_, ?_, ?_, ?_, ?_, ?_, ?_⟩
  · rw [hothers.frames j hj, frameAt, hkept.frames, frames_coldWritten, frames_learnTaken, frameAt]
  · rw [hway, hkept.valid, wayAt_coldWritten]
  · rw [hway, hkept.tag, wayAt_coldWritten, key_plainBody]
  · rw [hway, hkept.gen, wayAt_coldWritten]; rfl
  · rw [hcold, hkept.key, coldAt_coldWritten, key_plainBody]
  · rw [hcold, hkept.learnPort, coldAt_coldWritten]
  · rw [hothers.skein, hqueues]; exact learnQ_learnTaken hqueue (by rw [hparts]; exact hsl)
  · rw [hothers.skein, hkept.lastLearn]; rfl

/-- Settles O43: a learn request is queued, or refused and discarded; Fitch writes the first learn of its turn and the head is
found by the new record. -/
theorem learning : Obligations.Learning := by
  intro s id f ⟨hsorted, _⟩ ⟨_, _, _, _, _, _, _, _, hparts, _⟩ hf k others hstage hdone hzone hdst hproto hfrag hhop
  have hlearn := noLearn_none (clearPend s f.head.key) id hzone hdst hproto hfrag hhop
  refine ⟨fun hmiss hslice => ⟨fun hlimits hroom => ?_, fun hlimits hexcess => ?_⟩, ?_⟩
  · exact exec_learnRequest_queues hf hmiss hdone hstage hlearn hparts hslice hlimits hroom
  · exact exec_learnRequest_drops hsorted hf hmiss hdone hstage hlearn hlimits hexcess
  · intro sl idx rest hturn hqueue hsl hseg hnew hfree hnat hlb hnotice hchoice
    exact exec_fitchLearn_writes hparts hf hturn hqueue hsl hseg hnew hfree hnat hlb hnotice hchoice

end Sys2Proof.Machine
end

