-- ==== Sys2Proof/Proofs/LookupReads.lean ====
section
/-! PROOF. What the tag line and the record of a missing head decide (03/R73, R76, R79, R86, R88). -/

namespace Sys2Proof.Machine

/-! ### What an access leaves of the bucket -/

/-- From one state to another the ways of the tag lines and the pending keys of the banks stay. -/
structure BucketsKept (s t : State) : Prop where
  ways : t.skein.ways = s.skein.ways
  pending : ∀ b, (bankAt t b).pending = (bankAt s b).pending

namespace BucketsKept

/-- A change outside the tables of ways and of banks. -/
theorem of_tables {s t : State} (hways : t.skein.ways = s.skein.ways) (hbanks : t.skein.banks = s.skein.banks) :
    BucketsKept s t :=
  ⟨hways, fun b => by rw [bankAt, bankAt, hbanks]⟩

theorem of_skein {s t : State} (h : t.skein = s.skein) : BucketsKept s t := .of_tables (by rw [h]) (by rw [h])

theorem refl (s : State) : BucketsKept s s := .of_skein rfl

theorem trans {s t u : State} (a : BucketsKept s t) (b : BucketsKept t u) : BucketsKept s u :=
  ⟨b.ways.trans a.ways, fun i => (b.pending i).trans (a.pending i)⟩

theorem wayAt {s t : State} (h : BucketsKept s t) (idx : Nat) : wayAt t idx = wayAt s idx := by
  rw [Machine.wayAt, Machine.wayAt, h.ways]

theorem pendOf {s t : State} (h : BucketsKept s t) (k : Key) : pendOf t k = pendOf s k := by
  rw [Machine.pendOf, Machine.pendOf, h.pending]

end BucketsKept

theorem bucketsKept_modCold (s : State) (idx : Nat) (g : ColdRec → ColdRec) : BucketsKept s (modCold s idx g) :=
  .of_tables rfl rfl

theorem bucketsKept_coldOps (s : State) (b n : Nat) : BucketsKept s (coldOps s b n) := .of_tables rfl rfl

theorem bucketsKept_bankMove (s : State) (idx bank : Nat) (add sub : Counts) : BucketsKept s (bankMove s idx bank add sub) :=
  (bucketsKept_modCold s idx (ColdRec.move bank add sub)).trans (.of_skein (skein_bankMove ..))

theorem bucketsKept_applyBurst (s : State) (o : BurstOp) : BucketsKept s (applyBurst s o) := by
  unfold applyBurst
  extract_lets u
  have hmoved : BucketsKept s u := by
    unfold u
    split
    · exact bucketsKept_bankMove ..
    · exact .of_skein rfl
  split
  · exact hmoved
  · exact hmoved.trans (.of_skein rfl)

theorem bucketsKept_settleBursts (s : State) (idx : Nat) : BucketsKept s (settleBursts s idx) := by
  unfold settleBursts
  extract_lets mine u
  exact List.foldlRecOn (motive := fun t => BucketsKept s t) mine applyBurst (.of_tables rfl rfl)
    fun t ht o _ => ht.trans (bucketsKept_applyBurst t o)

theorem bucketsKept_foldHot (s : State) (r : HotRec) : BucketsKept s (foldHot s r).2 := by
  unfold foldHot
  split
  · exact .refl s
  · exact .of_tables rfl rfl

theorem bucketsKept_freshBank (s : State) (r : HotRec) : BucketsKept s (freshBank s r).2 := by
  unfold freshBank
  split
  · exact .refl s
  · exact bucketsKept_foldHot ..

theorem bucketsKept_addHot (s : State) (r : HotRec) (add : Counts) : BucketsKept s (addHot s r add).2 := by
  unfold addHot
  extract_lets p
  unfold p
  split
  · exact .refl s
  · exact bucketsKept_foldHot ..

/-- A write-back buffer's entries are no pending keys. -/
theorem bucketsKept_putWriteBack (s : State) (idx : Nat) (r : Option HotRec) : BucketsKept s (putWriteBack s idx r) := by
  refine ⟨rfl, fun b => ?_⟩
  rw [putWriteBack, bankAt_modBank]
  split
  · next h => rw [h]
  · rfl

/-- An access of a record changes no way and no pending key, wherever the record is in force. -/
theorem bucketsKept_accessRecord (s : State) (idx : Nat) (g : FlowBody → FlowBody) (add : Counts) :
    BucketsKept s (accessRecord s idx g add) := by
  unfold accessRecord
  split
  · exact ((bucketsKept_freshBank ..).trans (bucketsKept_addHot ..)).trans (.of_tables rfl rfl)
  · split
    · exact ((bucketsKept_freshBank ..).trans (bucketsKept_addHot ..)).trans (bucketsKept_putWriteBack ..)
    · exact (((bucketsKept_settleBursts ..).trans (bucketsKept_modCold ..)).trans (bucketsKept_bankMove ..)).trans
        (bucketsKept_coldOps ..)

/-! ### A head that its record finds -/

section
variable {s : State} {id : Nat} {f : Frame} (idx how : Nat) (hf : frameAt s id = some f) (hseg : f.segment = none)
include hf hseg

theorem bucketsKept_recordHit : BucketsKept s (recordHit s id idx how false) := by
  rw [recordHit, onFrame_of_some hf]
  simp only [hseg, Bool.and_false, Bool.false_eq_true, if_false]
  generalize hu : accessRecord s idx _ _ = u
  have haccess : BucketsKept s u := hu ▸ bucketsKept_accessRecord ..
  have hkept : RecordsKept s u := by
    rw [← hu]
    exact recordsKept_accessRecord _ (fun _ => rfl)
  have hfu : frameAt u id = some f := by rw [frameAt, hkept.frames]; exact hf
  obtain ⟨hcounted, -⟩ := countFrame_keeps (f.pass == 0 && !f.count.posted) hfu (handleOf s idx) (bodyOf s idx).action.cls
    (bodyOf s idx).key.zone (!((bodyOf s idx).action.verdict == 1 || (bodyOf s idx).action.verdict == 3 || false))
  refine haccess.trans (.of_skein ?_)
  exact ((hcounted.trans (otherFramesKept_modFrame ..)).trans (otherFramesKept_modFrame ..)).skein

/-- A head that is no TCP segment is done, found by the record; no other frame changes. -/
theorem recordHit_finds :
    (∀ j, j ≠ id → frameAt (recordHit s id idx how false) j = frameAt s j) ∧
      ∃ f', frameAt (recordHit s id idx how false) id = some f' ∧ f'.lookup = .done ∧ f'.lookupHow = how ∧
        f'.handle = handleOf s idx := by
  obtain ⟨u, hkept, hothers, hended⟩ := recordHit_of_unsegmented idx how false hf hseg
  exact ⟨fun j hj => by rw [hothers.frames j hj, frameAt, hkept.frames, frameAt], hended⟩

end

/-! ### A head that goes on to another stage -/

/-- From one state to another a head goes to a stage of its lookup with its bytes; no other frame changes. -/
def HeadGoes (id : Nat) (f : Frame) (st : LookupStage) (s t : State) : Prop :=
  (∀ j, j ≠ id → frameAt t j = frameAt s j) ∧ ∃ f', frameAt t id = some f' ∧ f'.lookup = st ∧ f'.data = f.data

theorem missAt_goes {s : State} {id : Nat} {f : Frame} (hf : frameAt s id = some f) (st : LookupStage) :
    ∃ frames, missAt s id st = { s with frames := frames } ∧ HeadGoes id f st s { s with frames := frames } :=
  ⟨_, modFrame_of_some hf _, fun _ hj => tfind_tins_ne _ _ hj, _, tfind_tins_same .., rfl, rfl⟩

/-- What pends for a key after a change that leaves the keys. -/
theorem pendOf_modPend {s : State} {k : Key} {p : PendKey} {g : PendKey → PendKey} (hp : pendOf s k = some p)
    (hg : ∀ q, (g q).key = q.key) : pendOf (modPend s k g) k = some (g p) := by
  have hkey : (p.key == k) = true := List.find?_some (p := fun q : PendKey => q.key == k) hp
  have hpred : ((fun q => q.key == k) ∘ fun q => if q.key == k then g q else q) = fun q : PendKey => q.key == k := by
    funext q
    simp only [Function.comp_apply]
    split
    · rw [hg]
    · rfl
  unfold pendOf at hp ⊢
  rw [modPend, bankAt_modBank_same, List.find?_map, hpred, hp, Option.map_some, if_pos hkey]

/-- The candidates of a key are told by the ways alone. -/
theorem candidate_of_recordsKept {s t : State} (h : RecordsKept s t) (k : Key) (w : Nat) : candidate t k w = candidate s k w := by
  simp only [candidate, h.valid, h.tag]

/-- A learn pends for a key in place of what pended for it (03/R79). -/
def learnPended (s : State) (k : Key) (id : Nat) : State := modPend s k (fun _ => learnEntry k id s.time.tick)

/-- A full miss of a key for which something pends: its learn pends instead, the miss is counted, the head waits. -/
theorem fullMiss_goes {s : State} {id : Nat} {f : Frame} {p : PendKey} (hf : frameAt s id = some f)
    (hp : pendOf s f.head.key = some p) :
    ∃ counters skein frames, fullMiss s id = { s with counters := counters, skein := skein, frames := frames } ∧
      HeadGoes id f .fullMiss s (fullMiss s id) := by
  have hmiss : fullMiss s id = missAt (cntSl (learnPended s f.head.key id) f.slice 0x26D) id .fullMiss := by
    rw [fullMiss, onFrame_of_some hf]
    simp only [hp]
    rfl
  obtain ⟨counters, hcount⟩ := bump_eq (learnPended s f.head.key id) (f.slice + 1) 0x26D 1
  rw [cntSl, hcount] at hmiss
  obtain ⟨frames, hframe, hgoes⟩ :=
    missAt_goes (s := { learnPended s f.head.key id with counters := counters }) hf .fullMiss
  rw [hmiss, hframe]
  exact ⟨counters, _, frames, rfl, hgoes⟩

/-- The reserved slots of a pending key, written into the way whose record is read next (03/R76). -/
def slotHinted (s : State) (k : Key) (p : PendKey) (w : Nat) : State :=
  match p.victim with
  | none => s
  | some v => coldOps (modWay s (k.bucket * 8 + w) (fun e => { e with hot := true, hotSlot := v })) k.bucket
      (if ccOf (s.time.tick - p.lineAt) ≤ 32 then 0 else 1)

theorem slotHinted_frame (s : State) (k : Key) (p : PendKey) (w : Nat) :
    ∃ skein, slotHinted s k p w = { s with skein := skein } ∧ skein.banks = s.skein.banks := by
  unfold slotHinted
  split <;> exact ⟨_, rfl, rfl⟩

/-- The record of a candidate way of a pending key is read next. -/
theorem tryWay_goes {s : State} {id : Nat} {f : Frame} {k : Key} {p : PendKey} (hf : frameAt s id = some f)
    (hp : pendOf s k = some p) (w : Nat) :
    ∃ skein frames, tryWay s id k w = { s with skein := skein, frames := frames } ∧
      HeadGoes id f .recordRead s (tryWay s id k w) ∧ pendOf (tryWay s id k w) k = some { p with way := some w } := by
  have htry : tryWay s id k w = missAt
      (coldOps (modPend (slotHinted s k p w) k (fun p => { p with way := some w })) k.bucket 2) id .recordRead := by
    rw [tryWay, hp]
    rfl
  obtain ⟨skein, hhint, hbanks⟩ := slotHinted_frame s k p w
  rw [hhint] at htry
  have hp' : pendOf { s with skein := skein } k = some p := by rw [pendOf, bankAt, hbanks]; exact hp
  have hnext := pendOf_modPend (g := fun p => { p with way := some w }) hp' (fun _ => rfl)
  obtain ⟨frames, hframe, hgoes⟩ := missAt_goes (s := coldOps (modPend { s with skein := skein } k
    (fun p => { p with way := some w })) k.bucket 2) hf .recordRead
  rw [htry, hframe]
  exact ⟨_, frames, rfl, hgoes, hnext⟩

theorem nextWay_of_candidate {s : State} {k : Key} {w i : Nat} (id : Nat) (h : candidate s k w = some i) :
    nextWay s id k w = tryWay s id k i := by
  rw [nextWay, h]

theorem nextWay_of_none {s : State} {k : Key} {w : Nat} (id : Nat) (h : candidate s k w = none) :
    nextWay s id k w = fullMiss s id := by
  rw [nextWay, h]

/-! ### The tag line -/

/-- The time at which a key's tag line came back (03/R76). -/
def lineReturned (s : State) (k : Key) : State := modPend s k (fun p => { p with lineAt := s.time.tick })

theorem candidate_lineReturned (s : State) (k : Key) (w : Nat) : candidate (lineReturned s k) k w = candidate s k w :=
  candidate_of_recordsKept (.of_tables rfl rfl rfl rfl rfl) k w

section
variable {s : State} {id : Nat} {f : Frame} {p : PendKey} (hf : frameAt s id = some f)
  (hhome : homeAnswers s f.head.key.bucket = true) (hstage : f.lookup = .tagRead) (hp : pendOf s f.head.key = some p)
include hf hhome hstage

/-- A tag line that reads clean sends the head on to its first candidate. -/
theorem tagLineRead_clean :
    tagLineRead id .ok [] s = nextWay (lineReturned s f.head.key) id f.head.key 0 := by
  rw [tagLineRead, onFrame_of_some hf]
  simp only [hstage, hhome, homeRead, bne_self_eq_false, Bool.not_true, Bool.or_self, Bool.false_eq_true, if_false, reduceCtorEq]
  rfl

include hp

theorem exec_tagLineRead_tries {w : Nat} (hway : candidate s f.head.key 0 = some w) :
    ∃ t skein frames, exec (.tagLineRead id .ok []) s = .next t ∧ t = { s with skein := skein, frames := frames } ∧
      HeadGoes id f .recordRead s t ∧ pendOf t f.head.key = some { p with way := some w, lineAt := s.time.tick } := by
  have hread := (tagLineRead_clean hf hhome hstage).trans
    (nextWay_of_candidate id ((candidate_lineReturned ..).trans hway))
  have hp' := pendOf_modPend (g := fun p => { p with lineAt := s.time.tick }) hp (fun _ => rfl)
  obtain ⟨skein, frames, hframe, hgoes, hpend⟩ := tryWay_goes (s := lineReturned s f.head.key) hf hp' w
  exact ⟨_, skein, frames, congrArg Host.Outcome.next hread, hframe, hgoes, hpend⟩

theorem exec_tagLineRead_misses (hway : candidate s f.head.key 0 = none) :
    ∃ t counters skein frames, exec (.tagLineRead id .ok []) s = .next t ∧
      t = { s with counters := counters, skein := skein, frames := frames } ∧ HeadGoes id f .fullMiss s t := by
  have hread := (tagLineRead_clean hf hhome hstage).trans (nextWay_of_none id ((candidate_lineReturned ..).trans hway))
  have hp' := pendOf_modPend (g := fun p => { p with lineAt := s.time.tick }) hp (fun _ => rfl)
  obtain ⟨counters, skein, frames, hframe, hgoes⟩ := fullMiss_goes (s := lineReturned s f.head.key) hf hp'
  exact ⟨_, counters, skein, frames, congrArg Host.Outcome.next hread, hframe, hgoes⟩

end

/-! ### The record -/

/-- The way of a record of another key no longer names the slots that its head had reserved (03/R76). -/
def hintWithdrawn (s : State) (k : Key) (p : PendKey) (idx : Nat) : State :=
  if p.victim.isSome then coldOps (modWay s idx (fun e => { e with hot := false })) k.bucket 1 else s

theorem hintWithdrawn_frame (s : State) (k : Key) (p : PendKey) (idx : Nat) :
    ∃ skein, hintWithdrawn s k p idx = { s with skein := skein } ∧ skein.banks = s.skein.banks := by
  unfold hintWithdrawn
  split <;> exact ⟨_, rfl, rfl⟩

theorem recordsKept_hintWithdrawn (s : State) (k : Key) (p : PendKey) (idx : Nat) :
    RecordsKept s (hintWithdrawn s k p idx) := by
  unfold hintWithdrawn
  split
  · refine .trans ?_ (recordsKept_coldOps ..)
    exact recordsKept_modWay (fun _ => rfl) (fun _ => rfl) (fun _ => rfl)
  · exact .refl s

theorem wayAt_placeHot (s : State) (slot : Nat) (r : HotRec) :
    (wayAt (placeHot s slot r) r.idx).hot = true ∧ (wayAt (placeHot s slot r) r.idx).hotSlot = slot := by
  unfold placeHot
  extract_lets set s1 hb p r1 r2 s2
  have hidx : r2.idx = r.idx := rfl
  rw [hidx, wayAt_modWay, if_pos rfl]
  exact ⟨rfl, rfl⟩

/-- A record that becomes hot keeps its place: its key's bucket and its way. -/
theorem idx_toHot {c : ColdRec} {k : Key} {w : Nat} (hkey : c.body.key = k) (hw : w < 8) (gen bank : Nat) :
    (c.toHot (k.bucket * 8 + w) gen bank).idx = k.bucket * 8 + w := by
  change c.body.key.bucket * 8 + (k.bucket * 8 + w) % 8 = _
  rw [hkey]
  omega

section
variable {s : State} {id w : Nat} {f : Frame} {p : PendKey} (hf : frameAt s id = some f)
  (hhome : homeAnswers s f.head.key.bucket = true) (hstage : f.lookup = .recordRead) (hp : pendOf s f.head.key = some p)
  (hway : p.way = some w) (hbursts : ∀ o ∈ s.skein.bursts, o.coldIndex ≠ f.head.key.bucket * 8 + w)
  (hlife : (bodyOf s (f.head.key.bucket * 8 + w)).life < 5)
include hf hhome hstage hp hway hbursts hlife

/-- A record that reads clean is compared with the head's key. -/
theorem recordBurstsRead_clean :
    recordBurstsRead id .ok s =
      if (coldAt s (f.head.key.bucket * 8 + w)).body.key = f.head.key then
        verified s id f.head.key (f.head.key.bucket * 8 + w) p.victim
      else nextWay (hintWithdrawn s f.head.key p (f.head.key.bucket * 8 + w)) id f.head.key (w + 1) := by
  rw [recordBurstsRead, onFrame_of_some hf]
  simp only [hstage, hp, hway, hhome, homeRead, settleBursts_of_none hbursts, Nat.not_le.mpr hlife, reduceCtorEq, decide_false,
    Bool.or_self, Bool.not_true, Bool.false_eq_true, if_false]
  rfl

theorem exec_recordBurstsRead_misses (hkey : (coldAt s (f.head.key.bucket * 8 + w)).body.key ≠ f.head.key)
    (hnext : candidate s f.head.key (w + 1) = none) :
    ∃ t counters skein frames, exec (.recordBurstsRead id .ok) s = .next t ∧
      t = { s with counters := counters, skein := skein, frames := frames } ∧ HeadGoes id f .fullMiss s t := by
  have hread := recordBurstsRead_clean hf hhome hstage hp hway hbursts hlife
  rw [if_neg hkey, nextWay_of_none id ((candidate_of_recordsKept (recordsKept_hintWithdrawn ..) ..).trans hnext)] at hread
  obtain ⟨skein, hhint, hbanks⟩ := hintWithdrawn_frame s f.head.key p (f.head.key.bucket * 8 + w)
  rw [hhint] at hread
  have hp' : pendOf { s with skein := skein } f.head.key = some p := by rw [pendOf, bankAt, hbanks]; exact hp
  obtain ⟨counters, skein', frames, hframe, hgoes⟩ := fullMiss_goes (s := { s with skein := skein }) hf hp'
  exact ⟨_, counters, skein', frames, congrArg Host.Outcome.next hread, hframe, hgoes⟩

variable (hkey : (coldAt s (f.head.key.bucket * 8 + w)).body.key = f.head.key) (hseg : f.segment = none)
include hkey hseg

/-- With no set of slots usable the record serves the head from its cold home (03/R88). -/
theorem exec_recordBurstsRead_serves
    (hslots : promotionSlots s f.head.key p.victim (coldAt s (f.head.key.bucket * 8 + w)).body.slots = .none) :
    ∃ t f', exec (.recordBurstsRead id .ok) s = .next t ∧ (∀ j, j ≠ id → frameAt t j = frameAt s j) ∧
      frameAt t id = some f' ∧ f'.lookup = .done ∧ f'.lookupHow = 3 ∧
      f'.handle = handleOf s (f.head.key.bucket * 8 + w) ∧ pendOf t f.head.key = none := by
  have hread := recordBurstsRead_clean hf hhome hstage hp hway hbursts hlife
  rw [if_pos hkey, verified, onFrame_of_some hf] at hread
  simp only [hslots] at hread
  generalize hu : cntSl (cntDev (clearPend s f.head.key) 1) f.slice 0x26C = u at hread
  have hcounted : FlightKept (clearPend s f.head.key) u := hu ▸ (flightKept_bump ..).trans (flightKept_bump ..)
  have hfu : frameAt u id = some f := by rw [frameAt, hcounted.frames]; exact hf
  obtain ⟨hothers, f', hf', hdone, hhow, hhandle⟩ := recordHit_finds (f.head.key.bucket * 8 + w) 3 hfu hseg
  have hkept := bucketsKept_recordHit (f.head.key.bucket * 8 + w) 3 hfu hseg
  refine ⟨_, f', congrArg Host.Outcome.next hread, fun j hj => ?_, hf', hdone, hhow, ?_, ?_⟩
  · rw [hothers j hj, frameAt, hcounted.frames]; rfl
  · rw [hhandle, handleOf, (BucketsKept.of_skein hcounted.skein).wayAt]; rfl
  · rw [hkept.pendOf, (BucketsKept.of_skein hcounted.skein).pendOf, pendOf_clearPend]

/-- With a set of slots usable the record becomes hot there and serves the head (03/R79, R86). -/
theorem exec_recordBurstsRead_promotes (hw : w < 8) {n : Nat}
    (hslots : promotionSlots s f.head.key p.victim (coldAt s (f.head.key.bucket * 8 + w)).body.slots = .slot n) :
    ∃ t f', exec (.recordBurstsRead id .ok) s = .next t ∧ (∀ j, j ≠ id → frameAt t j = frameAt s j) ∧
      frameAt t id = some f' ∧ f'.lookup = .done ∧ f'.lookupHow = 2 ∧
      f'.handle = handleOf s (f.head.key.bucket * 8 + w) ∧ (wayAt t (f.head.key.bucket * 8 + w)).hot = true ∧
      (wayAt t (f.head.key.bucket * 8 + w)).hotSlot = n := by
  have hread := recordBurstsRead_clean hf hhome hstage hp hway hbursts hlife
  rw [if_pos hkey, verified, onFrame_of_some hf] at hread
  simp only [hslots] at hread
  generalize hr : (coldAt s (f.head.key.bucket * 8 + w)).toHot (f.head.key.bucket * 8 + w) _ _ = r at hread
  have hidx : r.idx = f.head.key.bucket * 8 + w := hr ▸ idx_toHot hkey hw ..
  obtain ⟨hhot, hslot⟩ := wayAt_placeHot (clearPend s f.head.key) n r
  rw [hidx] at hhot hslot
  have hcleared : RecordsKept s (clearPend s f.head.key) := .of_tables rfl rfl rfl rfl rfl
  have hplaced := hcleared.trans (recordsKept_placeHot (clearPend s f.head.key) n r)
  generalize placeHot (clearPend s f.head.key) n r = v at hread hhot hslot hplaced
  generalize hu : cntSl v f.slice 0x26C = u at hread
  have hcounted : FlightKept v u := hu ▸ flightKept_bump ..
  have hwayu : wayAt u (f.head.key.bucket * 8 + w) = wayAt v (f.head.key.bucket * 8 + w) :=
    (BucketsKept.of_skein hcounted.skein).wayAt _
  have hfu : frameAt u id = some f := by rw [frameAt, hcounted.frames, hplaced.frames]; exact hf
  obtain ⟨hothers, f', hf', hdone, hhow, hhandle⟩ := recordHit_finds (f.head.key.bucket * 8 + w) 2 hfu hseg
  have hkept := bucketsKept_recordHit (f.head.key.bucket * 8 + w) 2 hfu hseg
  refine ⟨_, f', congrArg Host.Outcome.next hread, fun j hj => ?_, hf', hdone, hhow, ?_, ?_, ?_⟩
  · rw [hothers j hj, frameAt, hcounted.frames, hplaced.frames, frameAt]
  · rw [hhandle, handleOf, hwayu, hplaced.gen, handleOf]
  · rw [hkept.wayAt, hwayu, hhot]
  · rw [hkept.wayAt, hwayu, hslot]

end

/-- Settles O41: the tag line names the first candidate, and the record read tells whether it is the head's own; what the
candidates are and what pends for the key decide where the head goes. -/
theorem lookupReads : Obligations.LookupReads := by
  intro s id f hf k others goes hhome
  refine ⟨fun hstage p hp => ⟨fun w hway => exec_tagLineRead_tries hf hhome hstage hp hway,
    fun hway => exec_tagLineRead_misses hf hhome hstage hp hway⟩, ?_⟩
  intro hstage p w hp hway hw idx hbursts hlife
  refine ⟨fun hkey hnext => ?_, fun hkey hseg => ⟨fun hslots => ?_, fun n hslots => ?_⟩⟩
  · exact exec_recordBurstsRead_misses hf hhome hstage hp hway hbursts hlife hkey hnext
  · exact exec_recordBurstsRead_serves hf hhome hstage hp hway hbursts hlife hkey hseg hslots
  · exact exec_recordBurstsRead_promotes hf hhome hstage hp hway hbursts hlife hkey hseg hw hslots

end Sys2Proof.Machine
end

