-- ==== Sys2Proof/Proofs/SliceEdits.lean ====
section
/-! SUPPORT. What is read from a slice after a change of it, of another or of each of a list, and from a register's columns. -/

namespace Sys2Proof.Machine

theorem fldV_of_columns {s t : State} (h : t.regs.columns = s.regs.columns) (r : RegName) (ix : List Nat)
    (version hi lo : Nat) : fldV t r ix version hi lo = fldV s r ix version hi lo := by
  rw [fldV, fldV, h]

theorem sliceAt_modSlice (s : State) (sl k : Nat) (g : SliceState → SliceState) :
    sliceAt (modSlice s sl g) k = if k = sl then g (sliceAt s sl) else sliceAt s k := tget_tins ..

@[simp] theorem sliceAt_modSlice_same (s : State) (sl : Nat) (g : SliceState → SliceState) :
    sliceAt (modSlice s sl g) sl = g (sliceAt s sl) := tget_tins_same ..

theorem sliceAt_modFrame (s : State) (id k : Nat) (g : Frame → Frame) : sliceAt (modFrame s id g) k = sliceAt s k := by
  unfold modFrame
  split <;> rfl

/-- From one state to another the listed slices change, each as `g` says, and nothing else. -/
structure SlicesEdited (l : List Nat) (g : Nat → SliceState → SliceState) (s t : State) : Prop where
  only : ∃ slices, t = { s with slices := slices }
  at_ : ∀ k, sliceAt t k = if k ∈ l then g k (sliceAt s k) else sliceAt s k

namespace SlicesEdited

variable {l : List Nat} {g g' : Nat → SliceState → SliceState} {s t u : State}

theorem trans (a : SlicesEdited l g s t) (b : SlicesEdited l g' t u) : SlicesEdited l (fun k x => g' k (g k x)) s u := by
  obtain ⟨slices, hu⟩ := b.only
  obtain ⟨_, ht⟩ := a.only
  refine ⟨⟨slices, by rw [hu, ht]⟩, fun k => ?_⟩
  rw [b.at_ k, a.at_ k]
  by_cases hk : k ∈ l
  · rw [if_pos hk, if_pos hk, if_pos hk]
  · rw [if_neg hk, if_neg hk, if_neg hk]

theorem outside (h : SlicesEdited l g s t) {k : Nat} (hk : k ∉ l) : sliceAt t k = sliceAt s k := by
  rw [h.at_ k, if_neg hk]

theorem inside (h : SlicesEdited l g s t) {k : Nat} (hk : k ∈ l) : sliceAt t k = g k (sliceAt s k) := by
  rw [h.at_ k, if_pos hk]

/-- Steps that each change one slice, taken for each of a list. -/
theorem foldl {step : State → Nat → State}
    (hstep : ∀ u sl, (∃ slices, u = { s with slices := slices }) → SlicesEdited [sl] g u (step u sl)) (hl : l.Nodup) :
    SlicesEdited l g s (l.foldl step s) := by
  suffices hall : ∀ u, (∃ slices, u = { s with slices := slices }) → SlicesEdited l g u (l.foldl step u) from
    hall s ⟨s.slices, rfl⟩
  induction l with
  | nil => exact fun u _ => ⟨⟨u.slices, rfl⟩, fun k => (if_neg List.not_mem_nil).symm⟩
  | cons sl l ih =>
    intro u hu
    obtain ⟨hnot, hl⟩ := List.nodup_cons.mp hl
    obtain ⟨hone, hat⟩ := hstep u sl hu
    obtain ⟨slices, hone⟩ := hone
    have hrest := ih hl (step u sl) (by obtain ⟨_, hu⟩ := hu; exact ⟨slices, by rw [hone, hu]⟩)
    obtain ⟨slices', honly⟩ := hrest.only
    refine ⟨⟨slices', by rw [List.foldl_cons, honly, hone]⟩, fun k => ?_⟩
    rw [List.foldl_cons, hrest.at_ k, hat k]
    by_cases hk : k = sl
    · simp [hk, hnot]
    · simp [hk]

theorem modSlice (s : State) (sl : Nat) (g : Nat → SliceState → SliceState) :
    SlicesEdited [sl] g s (Machine.modSlice s sl (g sl)) := by
  refine ⟨⟨_, rfl⟩, fun k => ?_⟩
  rw [sliceAt_modSlice]
  by_cases hk : k = sl
  · simp [hk]
  · simp [hk]

/-- A change made in each of a list of slices. -/
theorem foldl_modSlice (s : State) (g : Nat → SliceState → SliceState) (hl : l.Nodup) :
    SlicesEdited l g s (l.foldl (fun u sl => Machine.modSlice u sl (g sl)) s) := .foldl (fun u sl _ => .modSlice u sl g) hl

end SlicesEdited

theorem nodup_maskSlices (m : Nat) : (maskSlices m).Nodup := List.nodup_range.filter _

end Sys2Proof.Machine
end

