-- ==== Sys2Proof/Proofs/HeadParsing.lean ====
section
/-! PROOF. A head takes an engine: one pass, and what becomes of a head whose pass fails (04/R104, R113, R121–R123; 11/R362). -/

namespace Sys2Proof.Machine

/-! ### One pass -/

/-- The version that a pass of a head runs under: the current one on its first pass, then the one it carries (04/R138). -/
def passVersion (s : State) (f : Frame) : Nat := if f.stage == .received then s.rules.current else f.version

/-- A head has left its slice's queue for an engine; on its first pass it is entered under its version. -/
def headTaken (s : State) (id : Nat) (f : Frame) : State :=
  modSlice (if f.stage == .received then headEnter s f.slice (passVersion s f) else s) f.slice
    (fun x => { x with recirc := x.recirc.erase id, entered := x.entered + 1 })

/-- What the pass of a head says of it. -/
def passHead (s : State) (id : Nat) (f : Frame) (ue : Option Nat) : HeadInfo :=
  (runPass (headTaken s id f) f.slice f.port (passVersion s f) f.data ue).head (headTaken s id f) f.slice f.port
    (passVersion s f) ue.isSome

/-- A frame after a pass at a tick that says `h` of its head. -/
def Frame.passed (f : Frame) (first : Bool) (version now : Nat) (h : HeadInfo) : Frame :=
  { f with
    stage := .parsed, version := version, head := h, cls := ClassInfo.zero,
    lookup := if h.keyed then .toDo else .none, lookupHow := 0, found := none,
    times := { f.times with
      t0 := if first then now else f.times.t0, parseEnd := now, missSince := none, missTicks := 0,
      engine := min 255 (2 + h.steps) } }

/-- The state after the pass of a head: its engine held, the frame holding what the pass says, and on a first pass perhaps
tagged. -/
def passRun (s : State) (id : Nat) (f : Frame) (ue : Option Nat) : State :=
  let h := passHead s id f ue
  let t := modFrame (holdEngine (headTaken s id f) f.slice (2 + h.steps)) id
    (fun g => g.passed (f.stage == .received) (passVersion s f) s.time.tick h)
  if f.stage == .received then tagHead t f.slice id else t

/-- The state after a pass that failed, counted and recorded (04/R121). -/
def passFailed (s : State) (id : Nat) (f : Frame) (ue : Option Nat) : State :=
  let t := recordFailure (passRun s id f ue) f.slice f.port (passHead s id f ue)
  if (passHead s id f ue).malReason = 13 then logUe t 0x04 f.slice 1 else t

theorem parseHead_of_unlooped {s : State} {id : Nat} {f : Frame} (hf : frameAt s id = some f) (hloop : f.looped = false)
    (ue : Option Nat) :
    parseHead s id ue =
      if (passHead s id f ue).malReason = 0 then passRun s id f ue
      else if f.stage == .received then malformed (passFailed s id f ue) id else deniedPass (passFailed s id f ue) id := by
  have htick : (holdEngine (headTaken s id f) f.slice (2 + (passHead s id f ue).steps)).time.tick = s.time.tick := by
    unfold holdEngine headTaken headEnter
    split <;> rfl
  rw [parseHead, onFrame_of_some hf]
  simp only [hloop, Bool.false_eq_true, if_false]
  unfold passFailed passRun Frame.passed
  rw [← htick]
  rfl

theorem headParse_of_free {s : State} {sl id : Nat} (hwait : waitStageFull s sl = false) (hbusy : enginesBusy s sl = false)
    (hnext : nextHead s sl = some id) (ue : Option Nat) : headParse sl ue s = parseHead s id ue := by
  simp [headParse, hwait, hbusy, hnext]

/-- Head tagging changes counters, slices and the mark of the frame. -/
theorem tagHead_marks {s : State} {id : Nat} {f : Frame} (sl : Nat) (hf : frameAt s id = some f) :
    (∃ counters slices frames, tagHead s sl id = { s with counters := counters, slices := slices, frames := frames }) ∧
      (∃ m, frameAt (tagHead s sl id) id = some { f with tagged := m }) ∧ OtherFramesKept id s (tagHead s sl id) := by
  unfold tagHead
  split
  · extract_lets x n s1
    split
    · obtain ⟨c, hc⟩ := bump_eq s1 (sl + 1) 0x26F 1
      rw [cntSl, hc, modFrame_of_some (show frameAt { s1 with counters := c } id = some f from hf)]
      exact ⟨⟨c, _, _, rfl⟩, ⟨true, tfind_tins_same ..⟩,
        fun _ hj => tfind_tins_ne _ _ hj, fun h => tsorted_tins _ _ h, rfl⟩
    · exact ⟨⟨s.counters, _, s.frames, rfl⟩, ⟨f.tagged, hf⟩, .of_flightKept (flightKept_modSlice ..)⟩
  · exact ⟨⟨s.counters, s.slices, s.frames, rfl⟩, ⟨f.tagged, hf⟩, .refl s⟩

theorem headTaken_slices (s : State) (id : Nat) (f : Frame) : ∃ slices, headTaken s id f = { s with slices := slices } := by
  unfold headTaken headEnter
  split <;> exact ⟨_, rfl⟩

/-- A pass changes counters, slices and the frame, which then holds what the pass says of its head. -/
theorem passRun_holds {s : State} {id : Nat} {f : Frame} (hf : frameAt s id = some f) (ue : Option Nat) :
    (∃ counters slices frames, passRun s id f ue = { s with counters := counters, slices := slices, frames := frames }) ∧
      (∃ m, frameAt (passRun s id f ue) id = some { f.passed (f.stage == .received) (passVersion s f) s.time.tick
        (passHead s id f ue) with tagged := m }) ∧ OtherFramesKept id s (passRun s id f ue) := by
  obtain ⟨slices, htaken⟩ := headTaken_slices s id f
  unfold passRun
  extract_lets h t
  have ht : ∃ slices, t = { s with
      slices := slices, frames := tins s.frames id (f.passed (f.stage == .received) (passVersion s f) s.time.tick h) } := by
    unfold t
    rw [htaken]
    have hheld : frameAt (holdEngine { s with slices := slices } f.slice (2 + h.steps)) id = some f := hf
    exact ⟨_, modFrame_of_some hheld _⟩
  obtain ⟨slices, ht⟩ := ht
  have hft : frameAt t id = some (f.passed (f.stage == .received) (passVersion s f) s.time.tick h) := by
    rw [ht]; exact tfind_tins_same ..
  have hkept : OtherFramesKept id s t := by
    rw [ht]; exact ⟨fun _ hj => tfind_tins_ne _ _ hj, fun h => tsorted_tins _ _ h, rfl⟩
  split
  · obtain ⟨⟨counters, slices, frames, htag⟩, hmark, hothers⟩ := tagHead_marks f.slice hft
    refine ⟨⟨counters, slices, frames, ?_⟩, hmark, hkept.trans hothers⟩
    rw [htag, ht]
  · exact ⟨⟨s.counters, slices, _, ht⟩, ⟨f.tagged, hft⟩, hkept⟩

/-! ### A pass that fails -/

/-- Recording a failure touches no frame, no record and no column of a register. -/
theorem passFailed_keeps (s : State) (id : Nat) (f : Frame) (ue : Option Nat) :
    FlightKept (passRun s id f ue) (passFailed s id f ue) ∧
      (passFailed s id f ue).regs.columns = (passRun s id f ue).regs.columns := by
  have hrecord (t : State) (h : HeadInfo) : FlightKept t (recordFailure t f.slice f.port h) ∧
      (recordFailure t f.slice f.port h).regs.columns = t.regs.columns := by
    unfold recordFailure
    obtain ⟨c, hc⟩ := bump_eq t (f.slice + 1) (0x220 + h.malReason) 1
    rw [cntSl, hc]
    exact ⟨⟨rfl, rfl⟩, rfl⟩
  unfold passFailed
  extract_lets t
  obtain ⟨hflight, hcolumns⟩ := hrecord (passRun s id f ue) (passHead s id f ue)
  split
  · obtain ⟨l, n, hlog⟩ := rimLog_eq t 0x25 false (le 4 0x04 ++ le 4 f.slice ++ le 4 1)
    rw [logUe, hlog]
    exact ⟨hflight.trans ⟨rfl, rfl⟩, hcolumns⟩
  · exact ⟨hflight, hcolumns⟩

/-- MAL_ACT is read from the columns of its registers. -/
theorem malActionOf_of_columns {s t : State} (h : t.regs.columns = s.regs.columns) (sl version r : Nat) :
    malActionOf t sl version r = malActionOf s sl version r := by
  rw [malActionOf, malActionOf, fldV_of_columns h, fldV_of_columns h]

section
variable {s : State} {id : Nat} {f : Frame} (hf : frameAt s id = some f)
include hf

/-- MAL_ACT 0: the head is dropped. -/
theorem malformed_drops (hs : tsorted s.frames = true) (hact : malActionOf s f.slice f.version f.head.malReason = 0) :
    frameAt (malformed s id) id = none ∧ OtherFramesKept id s (malformed s id) := by
  rw [malformed, onFrame_of_some hf]
  simp only [hact]
  have hslot := flightKept_slotDropped s f.slice
  obtain ⟨hgone, hkept⟩ := discardHead_drops id 2 (hslot.frames ▸ hs)
  exact ⟨hgone, (OtherFramesKept.of_flightKept hslot).trans hkept⟩

/-- MAL_ACT 1: the head is punted with its reason. -/
theorem malformed_punts (hact : malActionOf s f.slice f.version f.head.malReason = 1) :
    (∃ f', frameAt (malformed s id) id = some f' ∧ f'.stage = .admitting ∧ f'.punt = some f.head.malReason) ∧
      OtherFramesKept id s (malformed s id) := by
  rw [malformed, onFrame_of_some hf]
  simp only [hact]
  generalize hu : modFrame s id _ = u
  have hleft : FlightKept u (headLeave (slotRetired u f.slice) f.slice f.version) :=
    (flightKept_bump ..).trans (flightKept_headLeave ..)
  have hframe : frameAt (headLeave (slotRetired u f.slice) f.slice f.version) id = frameAt u id := by
    rw [frameAt, hleft.frames, frameAt]
  rw [← hu, frameAt_modFrame_same, hf, hu] at hframe
  exact ⟨⟨_, hframe, rfl, rfl⟩, (hu ▸ otherFramesKept_modFrame ..).trans (.of_flightKept hleft)⟩

/-- MAL_ACT 2: the head goes on flowless, with no lookup to do. -/
theorem malformed_goes_flowless (hact : malActionOf s f.slice f.version f.head.malReason = 2) :
    (∃ f', frameAt (malformed s id) id = some f' ∧ f'.stage = f.stage ∧ f'.flowless = true ∧ f'.lookup = .done) ∧
      OtherFramesKept id s (malformed s id) := by
  rw [malformed, onFrame_of_some hf]
  simp only [hact]
  have hadd : FlightKept s (outstandingAdd s f.slice (parity s)) := ⟨rfl, rfl⟩
  have hfu : frameAt (outstandingAdd s f.slice (parity s)) id = some f := hf
  rw [frameAt_modFrame_same, hfu]
  exact ⟨⟨_, rfl, rfl, rfl, rfl⟩, (OtherFramesKept.of_flightKept hadd).trans (otherFramesKept_modFrame ..)⟩

/-- A later pass that fails takes the frame out of the device. -/
theorem deniedPass_drops (hs : tsorted s.frames = true) :
    frameAt (deniedPass s id) id = none ∧ OtherFramesKept id s (deniedPass s id) := by
  rw [deniedPass, onFrame_of_some hf]
  have hslot : FlightKept s (slotRetired s f.slice) := flightKept_bump ..
  obtain ⟨hgone, hkept⟩ := discardHead_drops id 4 (hslot.frames ▸ hs)
  exact ⟨hgone, (OtherFramesKept.of_flightKept hslot).trans hkept⟩

/-- A looped frame is punted with reason LOOPBACK. -/
theorem puntLooped_punts :
    (∃ f', frameAt (puntLooped s id) id = some f' ∧ f'.stage = .admitting ∧ f'.punt = some 0x23) ∧
      OtherFramesKept id s (puntLooped s id) := by
  rw [puntLooped, onFrame_of_some hf]
  have hcount : FlightKept s (cntPort s f.port 4) := flightKept_bump ..
  have hfu : frameAt (cntPort s f.port 4) id = some f := by rw [frameAt, hcount.frames]; exact hf
  rw [frameAt_modFrame_same, hfu]
  exact ⟨⟨_, rfl, rfl, rfl⟩, (OtherFramesKept.of_flightKept hcount).trans (otherFramesKept_modFrame ..)⟩

/-- After a pass that failed the frame holds the reason, the table of frames is still sorted, and MAL_ACT says what it
said before the pass. -/
theorem passFailed_holds (hs : tsorted s.frames = true) (ue : Option Nat) :
    (∃ g, frameAt (passFailed s id f ue) id = some g ∧ g.slice = f.slice ∧ g.version = passVersion s f ∧
      g.head = passHead s id f ue ∧ g.stage = .parsed) ∧
      OtherFramesKept id s (passFailed s id f ue) ∧ tsorted (passFailed s id f ue).frames = true ∧
      ∀ sl version r, malActionOf (passFailed s id f ue) sl version r = malActionOf (headTaken s id f) sl version r := by
  obtain ⟨⟨counters, slices, frames, hrun⟩, ⟨m, hframe⟩, hothers⟩ := passRun_holds hf ue
  obtain ⟨hflight, hcolumns⟩ := passFailed_keeps s id f ue
  obtain ⟨taken, htaken⟩ := headTaken_slices s id f
  have hkept := hothers.trans (.of_flightKept hflight)
  rw [frameAt, ← hflight.frames] at hframe
  refine ⟨⟨_, hframe, rfl, rfl, rfl, rfl⟩, hkept, hkept.sorted hs, fun sl version r => ?_⟩
  refine malActionOf_of_columns ?_ sl version r
  rw [hcolumns, hrun, htaken]

end

/-! ### The clauses -/

/-- Settles O35: a pass changes its frame and what counts it; a failed one ends as MAL_ACT says, or in a deny. -/
theorem headParsing : Obligations.HeadParsing := by
  intro s sl id ue f hlisted hnext hf hwait hbusy first version u h act others
  have hs := hlisted.1
  have hserves : exec (.headParse sl ue) s = .next (parseHead s id ue) :=
    congrArg Host.Outcome.next (headParse_of_free hwait hbusy hnext ue)
  have hpass (hloop : f.looped = false) (hr : h.malReason = 0) : parseHead s id ue = passRun s id f ue := by
    rw [parseHead_of_unlooped hf hloop]; exact if_pos hr
  have hfirst (hloop : f.looped = false) (hr : h.malReason ≠ 0) (h1 : first = true) :
      parseHead s id ue = malformed (passFailed s id f ue) id := by
    rw [parseHead_of_unlooped hf hloop]; exact (if_neg hr).trans (if_pos h1)
  have hlater (hloop : f.looped = false) (hr : h.malReason ≠ 0) (h1 : first = false) :
      parseHead s id ue = deniedPass (passFailed s id f ue) id := by
    have hstage : (f.stage == .received) = false := h1
    rw [parseHead_of_unlooped hf hloop]
    exact (if_neg hr).trans (if_neg (by simp [hstage]))
  obtain ⟨⟨g, hg, hslice, hversion, hhead, hstage⟩, hkept, hsorted, hmal⟩ := passFailed_holds hf hs ue
  have hact (a : Nat) (ha : act = a) : malActionOf (passFailed s id f ue) g.slice g.version g.head.malReason = a := by
    rw [hmal, hslice, hversion, hhead]; exact ha
  refine ⟨fun hloop => ?_, fun hloop hr => ?_,
    fun hloop hr => ⟨fun h1 ha => ?_, fun h1 ha => ?_, fun h1 ha => ?_, fun h1 => ?_⟩⟩
  · obtain ⟨⟨f', hf', hadmit, hpunt⟩, hothers⟩ := puntLooped_punts hf
    refine ⟨_, f', hserves, ?_⟩
    rw [parseHead, onFrame_of_some hf, if_pos hloop]
    exact ⟨hf', hadmit, hpunt, hothers.frames⟩
  · obtain ⟨⟨counters, slices, frames, hrun⟩, ⟨m, hframe⟩, hothers⟩ := passRun_holds hf ue
    rw [hpass hloop hr] at hserves
    exact ⟨_, counters, slices, frames, _, hserves, hrun, hframe, rfl, rfl, rfl, rfl, rfl, rfl, rfl, hothers.frames⟩
  · obtain ⟨hgone, hothers⟩ := malformed_drops hg hsorted (hact 0 ha)
    rw [hfirst hloop hr h1] at hserves
    exact ⟨_, hserves, hgone, (hkept.trans hothers).frames⟩
  · obtain ⟨⟨f', hf', hadmit, hpunt⟩, hothers⟩ := malformed_punts hg (hact 1 ha)
    rw [hfirst hloop hr h1] at hserves
    exact ⟨_, f', hserves, hf', hadmit, by rw [hpunt, hhead]; rfl, (hkept.trans hothers).frames⟩
  · obtain ⟨⟨f', hf', hstage', hflowless, hdone⟩, hothers⟩ := malformed_goes_flowless hg (hact 2 ha)
    rw [hfirst hloop hr h1] at hserves
    exact ⟨_, f', hserves, hf', hstage'.trans hstage, hflowless, hdone, (hkept.trans hothers).frames⟩
  · obtain ⟨hgone, hothers⟩ := deniedPass_drops hg hsorted
    rw [hlater hloop hr h1] at hserves
    exact ⟨_, hserves, hgone, (hkept.trans hothers).frames⟩

end Sys2Proof.Machine
end

