-- ==== Sys2Proof/Proofs/Classification.lean ====
section
/-! PROOF. Classification of a head: routing, bridging and one ternary lookup (05/R147, R148, R170–R174; 06/R179–R181). -/

namespace Sys2Proof.Machine

/-! ### One pass of classification -/

/-- A classification in which no read meets a soft error. -/
def noFaults : ClassFaults := ⟨[], [], [], false, []⟩

/-- The zone entry that a head's version sees (05/R168). -/
def zoneSeen (s : State) (f : Frame) : Nat := dtFind s f.slice 0 f.head.key.zone f.version

/-- What classification says of an unscanned head before its ternary lookups. -/
def unsearched (s : State) (f : Frame) : ClassInfo :=
  { ClassInfo.zero with done := true, zoneImage := zoneSeen s f, natDst := natAddrOf s f }

/-- A frame as its layer-2 and layer-3 lookups take it: no entry lost to this pass. -/
def unclassified (f : Frame) : Frame := { f with cls := ClassInfo.zero }

/-- What the ternary lookups of an unscanned head's port say of it, and the state after them. -/
def searched (s : State) (f : Frame) : ClassInfo × State :=
  searchAll f.slice f.version { f with cls := unsearched s f }.vector noFaults
    (setBits (fldV s .tcamPort [f.slice, f.port % 32] f.version 15 0) 16) (unsearched s f) s

/-- A frame whose classification ends at a tick. -/
def Frame.classified (f : Frame) (c : ClassInfo) (now : Nat) : Frame :=
  { f with cls := c, times := { f.times with classifyEnd := now } }

/-- The frame holds what its classification says. -/
def setClass (s : State) (id : Nat) (c : ClassInfo) : State := modFrame s id (fun f => f.classified c s.time.tick)

theorem headDt_of_kept {s : State} {f : Frame} (hlost : f.cls.lost = []) (table index : Nat) :
    headDt s f table index = dtFind s f.slice table index f.version := by
  simp [headDt, hlost]

theorem isBridged_of_kept {s : State} {f : Frame} {c : ClassInfo} (hlost : c.lost = []) (zone : Nat) :
    isBridged s { f with cls := c } zone = isBridged s (unclassified f) zone := by
  simp [isBridged, headDt, unclassified, ClassInfo.zero, hlost]

section
variable {s : State} {id : Nat} {f : Frame} (hf : frameAt s id = some f) (hstage : f.stage = .parsed)
  (hdone : f.cls.done = false) (hflow : f.flowless = false)
  (hport : fldV s .prsPortEntry [f.slice, f.port % 32] f.version 31 31 = 0) (hwait : waitStageFull s f.slice = false)
include hf hstage hdone hflow hport hwait

/-- Classification of an unscanned head: its ternary lookups, then bridging or routing. -/
theorem classify_of_unscanned :
    classify id noFaults s =
      if isBridged (searched s f).2 (unclassified f) (zoneSeen s f) then
        bridge (setClass (searched s f).2 id { (searched s f).1 with bridged := true, routed := none }) id
      else setClass (searched s f).2 id
        { (searched s f).1 with
          bridged := false, routed := routedLookup (searched s f).2 (unclassified f) (zoneSeen s f) false } := by
  have hscan : scanned s f = false := by simp [scanned, hport]
  rw [classify, onFrame_of_some hf, if_neg (by simp [hstage, hdone, hscan, hwait])]
  extract_lets sl s1 s2 scan blank c0 f' zone c1 r u bridged found c t1 t2
  have hnone : scan = (0, 0, 0) := if_neg (ne_true_of_eq_false hscan)
  have hc0 : c0 = { ClassInfo.zero with done := true, natDst := natAddrOf s f } := by unfold c0; rw [hnone]; rfl
  have hzone : zone = zoneSeen s f := headDt_of_kept rfl ..
  have hr : r = searched s f := by
    unfold r c1 f' searched unsearched
    rw [hc0, hzone]
    rfl
  have hbridged : bridged = isBridged (searched s f).2 (unclassified f) (zoneSeen s f) := by
    unfold bridged u
    rw [hr, hzone]
    exact isBridged_of_kept rfl ..
  rw [if_neg fun h => ne_true_of_eq_false hflow h.1]
  have hroute : routedLookup (searched s f).2 f' (zoneSeen s f) noFaults.prefixUe =
      routedLookup (searched s f).2 (unclassified f) (zoneSeen s f) false := rfl
  unfold t2 t1 c found u
  rw [hr, hzone, hroute, ← hbridged]
  generalize routedLookup (searched s f).2 (unclassified f) (zoneSeen s f) false = routed
  clear_value bridged
  cases bridged <;> rfl

end

/-- What classification says of a head is put into its frame; nothing else changes. -/
theorem setClass_of_some {s : State} {id : Nat} {f : Frame} (hf : frameAt s id = some f) (c : ClassInfo) :
    setClass s id c = { s with frames := tins s.frames id (f.classified c s.time.tick) } := modFrame_of_some hf _

theorem searched_of_no_lookups {s : State} {f : Frame} (h : fldV s .tcamPort [f.slice, f.port % 32] f.version 15 0 = 0) :
    searched s f = (unsearched s f, s) := by
  rw [searched, h, show setBits 0 16 = [] by decide, searchAll]

/-! ### Bridging -/

theorem headVlan_of_kept {s : State} {f : Frame} {c : ClassInfo} (hlost : c.lost = []) (now : Nat) (frames : Table Frame) :
    headVlan { s with frames := frames } (f.classified c now) = headVlan s (unclassified f) := by
  unfold headVlan
  rw [headDt_of_kept (f := f.classified c now) hlost, headDt_of_kept (f := unclassified f) rfl]
  rfl

/-- A source entry of a slice's MAC table is marked hit (05/R174). -/
def markHit (s : State) (sl pos : Nat) (e : MacEntry) : State :=
  modSlice s sl (fun x => { x with mac := tins x.mac pos { e with hit := true } })

theorem mac_markHit (s : State) (sl pos : Nat) (e : MacEntry) :
    tget e (sliceAt (markHit s sl pos e) sl).mac pos = { e with hit := true } := by
  rw [markHit, sliceAt_modSlice_same]
  exact tget_tins_same ..

theorem markHit_modFrame (s : State) (id sl pos : Nat) (e : MacEntry) (g : Frame → Frame) :
    markHit (modFrame s id g) sl pos e = modFrame (markHit s sl pos e) id g := by
  have hframe : frameAt (markHit s sl pos e) id = frameAt s id := rfl
  unfold modFrame
  rw [hframe]
  split <;> rfl

/-- A source known on its port is marked hit, and may be learned elsewhere. -/
theorem bridgeSource_of_known {s : State} {id vid pos : Nat} {f : Frame} {e : MacEntry}
    (hsrc : macFind (sliceAt s f.slice) vid (srcMac f.data) = some (pos, e)) (hport : e.port = f.port) (vlan : Nat) :
    bridgeSource s id f vid vlan = modFrame (markHit s f.slice pos e) id
      (fun g => { g with cls := { g.cls with l2Src := some ⟨vid, srcMac f.data, f.port⟩, learnable := true } }) := by
  rw [bridgeSource]
  simp only [hsrc]
  rw [if_pos hport]
  rfl

/-- A unicast destination known on another port is where the head goes. -/
theorem bridgeDest_of_known {x : SliceState} {f : Frame} {vid : Nat} {dst : Nat × MacEntry}
    (hcast : dstMac f.data / 2 ^ 40 % 2 = 0) (hdst : macFind x vid (dstMac f.data) = some dst)
    (hother : dst.2.port ≠ f.port) (vlan : Nat) : bridgeDest x f vid vlan = .port dst.2.port := by
  rw [bridgeDest, if_neg (by rw [hcast]; exact Nat.zero_ne_one), hdst]
  exact if_neg hother

/-- A head in a valid VLAN whose source is known on its port goes to the port of its destination; its source is marked hit. -/
theorem bridge_of_known {s : State} {id vid pos : Nat} {f : Frame} {e : MacEntry} {dst : Nat × MacEntry}
    (hf : frameAt s id = some f) (hvlan : headVlan s f = some vid)
    (hvalid : bit (vlanImage s f.slice vid f.version) 511 = true)
    (hsrc : macFind (sliceAt s f.slice) vid (srcMac f.data) = some (pos, e)) (hport : e.port = f.port)
    (hcast : dstMac f.data / 2 ^ 40 % 2 = 0) (hdst : macFind (sliceAt s f.slice) vid (dstMac f.data) = some dst)
    (hother : dst.2.port ≠ f.port) :
    bridge s id = modFrame (markHit s f.slice pos e) id (fun g => { g with cls := { g.cls with
      l2 := .port dst.2.port, l2Src := some ⟨vid, srcMac f.data, f.port⟩, learnable := true } }) := by
  rw [bridge, onFrame_of_some hf]
  simp only [hvlan, hvalid, Bool.not_true, Bool.false_eq_true, if_false, bridgeDest_of_known hcast hdst hother]
  rw [bridgeSource_of_known (by rw [sliceAt_modFrame]; exact hsrc) hport, markHit_modFrame, modFrame_modFrame]

/-! ### One ternary lookup -/

theorem mem_of_mostBy {α : Type} {g : α → Nat} {l : List α} {a : α} (h : mostBy g l = some a) : a ∈ l := by
  induction l generalizing a with
  | nil => simp [mostBy] at h
  | cons b l ih =>
    rw [mostBy] at h
    cases hl : mostBy g l with
    | none =>
      rw [hl] at h
      exact List.mem_cons.mpr (.inl (Option.some.inj h).symm)
    | some c =>
      simp only [hl] at h
      split at h
      · exact List.mem_cons.mpr (.inl (Option.some.inj h).symm)
      · exact List.mem_cons_of_mem _ (Option.some.inj h ▸ ih hl)

/-- Without soft errors the compare of a lookup reports the places that match (05/R147). -/
theorem reported_noFaults (s : State) (sl j version key : Nat) :
    reported s sl j version key noFaults =
      (placesOf s sl j).filter (placeMatches (sliceAt s sl) (lookupDouble s sl j) version key) := by
  simp only [reported, noFaults, List.any_nil, List.contains_nil, Bool.not_false, Bool.and_true, Bool.false_or]
  rfl

/-- A winner whose stored KEY and CARE agree with the key is taken; that another place ties with it is counted (05/R148). -/
theorem resolveTcam_of_agrees {s : State} {sl j key n p : Nat} {ps : List Nat} (hwin : winnerOf (sliceAt s sl) ps = some p)
    (hagrees : placeAgrees (sliceAt s sl) (lookupDouble s sl j) key p = true) :
    ∃ counters, resolveTcam sl j key [] n ps s = (some p, { s with counters := counters }) := by
  obtain ⟨counters, htie⟩ := bump_eq s (sl + 1) (0x240 + j) 1
  unfold resolveTcam
  simp only [hwin, hagrees, List.contains_nil, Bool.not_false, Bool.true_and, if_true]
  split
  · exact ⟨counters, by rw [cntSl, htie]⟩
  · exact ⟨s.counters, rfl⟩

/-- A lookup finds the ACTION of its winning place, and may count that the places tied. -/
theorem searchLookup_of_winner {s : State} {sl j version p : Nat} {v : List Byte}
    (hwin : winnerOf (sliceAt s sl) ((placesOf s sl j).filter
      (placeMatches (sliceAt s sl) (lookupDouble s sl j) version (searchKey s sl j version v))) = some p) :
    ∃ counters, searchLookup s sl j version v noFaults =
      (some (tcamAt (sliceAt s sl) p).action, { s with counters := counters }) := by
  have hagrees : placeAgrees (sliceAt s sl) (lookupDouble s sl j) (searchKey s sl j version v) p = true := by
    have hmatch := (List.mem_filter.mp (mem_of_mostBy hwin)).2
    rw [placeMatches, Bool.and_eq_true] at hmatch
    exact hmatch.2
  rw [← reported_noFaults] at hwin
  obtain ⟨counters, hres⟩ := resolveTcam_of_agrees (n := 3) hwin hagrees
  refine ⟨counters, ?_⟩
  unfold searchLookup
  extract_lets key r
  have hr : r = (some p, { s with counters := counters }) := hres
  rw [hr]
  rfl

theorem setBits_two_pow {j : Nat} (h : j < 16) : setBits (2 ^ j) 16 = [j] := by
  have hall : ∀ j < 16, setBits (2 ^ j) 16 = [j] := by decide
  exact hall j h

/-- A port that searches one ternary lookup: what it finds is merged into what classification says. -/
theorem searched_of_one_lookup {s : State} {f : Frame} {j p : Nat} (hj : j < 16)
    (h : fldV s .tcamPort [f.slice, f.port % 32] f.version 15 0 = 2 ^ j)
    (hwin : winnerOf (sliceAt s f.slice) ((placesOf s f.slice j).filter
      (placeMatches (sliceAt s f.slice) (lookupDouble s f.slice j) f.version
        (searchKey s f.slice j f.version { f with cls := unsearched s f }.vector))) = some p) :
    ∃ counters, searched s f =
      (mergeAction (unsearched s f) (tcamAt (sliceAt s f.slice) p).action, { s with counters := counters }) := by
  obtain ⟨counters, hfound⟩ := searchLookup_of_winner hwin
  refine ⟨counters, ?_⟩
  rw [searched, h, setBits_two_pow hj, searchAll, hfound]
  rfl

/-- Merging the first ACTION found: its fields where the entry enables them, deny-override as a deny that overrides. -/
theorem mergeAction_of_first (c : ClassInfo) (a : Nat) (hv : c.hasVerdict = false) :
    let m := mergeAction c a
    (bit a 63 = true → m.merged.verdict = (if bits a 62 61 = 3 then 1 else bits a 62 61) ∧
      m.merged.denyOverride = (bits a 62 61 == 3)) ∧
    (bit a 60 = true → m.merged.cls = bits a 59 54) ∧ (bit a 53 = true → m.merged.profile = bits a 52 43) ∧
    (bit a 42 = true → m.merged.nextHop = bits a 41 22) ∧ (bit a 21 = true → m.merged.policer = bits a 20 3) := by
  refine ⟨fun h => ?_, fun h => ?_, fun h => ?_, fun h => ?_, fun h => ?_⟩ <;> simp [mergeAction, h, hv]

/-! ### The clauses -/

section
variable {s : State} {id : Nat} {f : Frame} (hf : frameAt s id = some f) (hstage : f.stage = .parsed)
  (hdone : f.cls.done = false) (hflow : f.flowless = false)
  (hport : fldV s .prsPortEntry [f.slice, f.port % 32] f.version 31 31 = 0) (hwait : waitStageFull s f.slice = false)
include hf hstage hdone hflow hport hwait

/-- A head that is not bridged is routed. -/
theorem classify_routes {c : ClassInfo} {counters : CounterState} (hsearch : searched s f = (c, { s with counters := counters }))
    (hrouted : isBridged s (unclassified f) (zoneSeen s f) = false) :
    classify id noFaults s = { s with counters := counters, frames := tins s.frames id (f.classified
      { c with bridged := false, routed := routedLookup s (unclassified f) (zoneSeen s f) false } s.time.tick) } := by
  rw [classify_of_unscanned hf hstage hdone hflow hport hwait, hsearch]
  exact (if_neg (ne_true_of_eq_false hrouted)).trans (setClass_of_some (s := { s with counters := counters }) hf _)

/-- A head that is bridged, on a port that searches no ternary lookup, in a valid VLAN, its source known on its port and its
destination on another: it goes there, and its source is marked hit. -/
theorem classify_bridges {vid pos : Nat} {e : MacEntry} {dst : Nat × MacEntry}
    (hnone : fldV s .tcamPort [f.slice, f.port % 32] f.version 15 0 = 0)
    (hbridged : isBridged s (unclassified f) (zoneSeen s f) = true) (hvlan : headVlan s (unclassified f) = some vid)
    (hvalid : bit (vlanImage s f.slice vid f.version) 511 = true)
    (hsrc : macFind (sliceAt s f.slice) vid (srcMac f.data) = some (pos, e)) (hsrcPort : e.port = f.port)
    (hcast : dstMac f.data / 2 ^ 40 % 2 = 0) (hdst : macFind (sliceAt s f.slice) vid (dstMac f.data) = some dst)
    (hother : dst.2.port ≠ f.port) :
    classify id noFaults s = { markHit s f.slice pos e with frames := tins s.frames id (f.classified
      { unsearched s f with
        bridged := true, l2 := .port dst.2.port, l2Src := some ⟨vid, srcMac f.data, f.port⟩, learnable := true }
      s.time.tick) } := by
  rw [classify_of_unscanned hf hstage hdone hflow hport hwait, searched_of_no_lookups hnone, if_pos hbridged,
    setClass_of_some hf]
  generalize hc : ({ unsearched s f with bridged := true, routed := none } : ClassInfo) = c
  generalize ht : ({ s with frames := tins s.frames id (f.classified c s.time.tick) } : State) = t
  have hslice : sliceAt t f.slice = sliceAt s f.slice := by rw [← ht]; rfl
  have hft : frameAt t id = some (f.classified c s.time.tick) := by rw [← ht]; exact tfind_tins_same ..
  have hvlan' : headVlan t (f.classified c s.time.tick) = some vid := by
    rw [← ht, ← hvlan]
    exact headVlan_of_kept (by rw [← hc]; rfl) ..
  have hvalid' : bit (vlanImage t f.slice vid f.version) 511 = true := by rw [← ht]; exact hvalid
  rw [bridge_of_known hft hvlan' hvalid' (hslice ▸ hsrc) hsrcPort hcast (hslice ▸ hdst) hother,
    modFrame_of_some (s := markHit t _ pos e) hft, ← ht, ← hc]
  exact congrArg (fun fr => ({ markHit s f.slice pos e with frames := fr } : State)) (tins_tins_same ..)

end

/-- Settles O36: an unscanned head's classification is its ternary lookups, then bridging or routing, each of which changes
its frame and what it counts or marks. -/
theorem classification : Obligations.Classification := by
  intro s id f hf hstage hdone hflow hport hwait zone none_ g c0 lookups others
  refine ⟨fun hnone hrouted => ?_, fun hnone hbridged vid pos e dst hvlan hvalid hsrc hsrcPort hcast hdst hother => ?_,
    fun j p hj hone hrouted => ?_⟩
  · have hclass := classify_routes hf hstage hdone hflow hport hwait (searched_of_no_lookups hnone) hrouted
    exact ⟨_, _, _, congrArg Host.Outcome.next hclass, rfl, fun _ hk => tfind_tins_ne _ _ hk, tfind_tins_same .., rfl, rfl⟩
  · have hclass := classify_bridges hf hstage hdone hflow hport hwait hnone hbridged hvlan hvalid hsrc hsrcPort hcast hdst
      hother
    exact ⟨_, _, _, _, congrArg Host.Outcome.next hclass, rfl, fun _ hk => tfind_tins_ne _ _ hk, tfind_tins_same .., hstage,
      rfl, rfl, rfl, rfl, rfl, rfl, mac_markHit ..⟩
  · intro x key hwin a
    obtain ⟨counters, hsearch⟩ := searched_of_one_lookup hj hone hwin
    have hclass := classify_routes hf hstage hdone hflow hport hwait hsearch hrouted
    have hmerge := mergeAction_of_first (unsearched s f) a rfl
    exact ⟨_, counters, _, _, congrArg Host.Outcome.next hclass, rfl, fun _ hk => tfind_tins_ne _ _ hk, tfind_tins_same ..,
      rfl, Bool.false_or _, Bool.false_or _, Bool.false_or _, Bool.false_or _, Bool.false_or _, hmerge⟩

end Sys2Proof.Machine
end

