-- ==== Sys2Proof/Proofs/DeepScanning.lean ====
section
/-! PROOF. A deep scan gives its frame back (04/R127–R129, R132). -/

namespace Sys2Proof.Machine

/-! ### What retirement leaves of deep scanning -/

/-- From one state to another only what leaves the device, host rings, the scheduler, rules and slices change; every slice
keeps its deep contexts and the queue of its deep engine. -/
structure DeepKept (s t : State) : Prop where
  only : ∃ out host sched rules slices,
    t = { s with out := out, host := host, sched := sched, rules := rules, slices := slices }
  deep : ∀ k, (sliceAt t k).deep = (sliceAt s k).deep
  queue : ∀ k, (sliceAt t k).deepQueue = (sliceAt s k).deepQueue

theorem DeepKept.refl (s : State) : DeepKept s s := ⟨⟨_, _, _, _, _, rfl⟩, fun _ => rfl, fun _ => rfl⟩

theorem DeepKept.trans {s t u : State} (a : DeepKept s t) (b : DeepKept t u) : DeepKept s u := by
  obtain ⟨out, host, sched, rules, slices, hu⟩ := b.only
  obtain ⟨_, _, _, _, _, ht⟩ := a.only
  exact ⟨⟨out, host, sched, rules, slices, by rw [hu, ht]⟩, fun k => (b.deep k).trans (a.deep k),
    fun k => (b.queue k).trans (a.queue k)⟩

theorem deepKept_modSlice (s : State) (sl : Nat) {g : SliceState → SliceState} (hdeep : ∀ x, (g x).deep = x.deep)
    (hqueue : ∀ x, (g x).deepQueue = x.deepQueue) : DeepKept s (modSlice s sl g) := by
  refine ⟨⟨s.out, s.host, s.sched, s.rules, _, rfl⟩, fun k => ?_, fun k => ?_⟩ <;> rw [sliceAt_modSlice] <;> split
  · next hk => rw [hk, hdeep]
  · rfl
  · next hk => rw [hk, hqueue]
  · rfl

theorem deepKept_postEvent (s : State) (src : Nat) (body : List Byte) : DeepKept s (postEvent s src body) := by
  obtain ⟨host, out, h⟩ := postEvent_eq s src body
  rw [h]
  exact ⟨⟨out, host, s.sched, s.rules, s.slices, rfl⟩, fun _ => rfl, fun _ => rfl⟩

theorem deepKept_raiseTask (s : State) (code prio : Nat) (params : List Byte) :
    DeepKept s (raiseTask s code prio params) :=
  ⟨⟨s.out, s.host, _, s.rules, s.slices, rfl⟩, fun _ => rfl, fun _ => rfl⟩

@[simp] theorem deep_vmap (m : VisMap) (x : SliceState) : (x.vmap m).deep = x.deep := by rw [SliceState.vmap]

@[simp] theorem deepQueue_vmap (m : VisMap) (x : SliceState) : (x.vmap m).deepQueue = x.deepQueue := by rw [SliceState.vmap]

/-- Retiring versions clears columns of the versioned stores, posts events and raises tasks. -/
theorem deepKept_retireFrom (n : Nat) (s : State) (sl : Nat) : DeepKept s (retireFrom n s sl) := by
  induction n generalizing s with
  | zero => exact .refl s
  | succ n ih =>
    unfold retireFrom
    extract_lets v s1 s2 s3
    split
    · have hslice : DeepKept s s1 :=
        deepKept_modSlice s sl (fun _ => by simp only [deep_vmap]) (fun _ => by simp only [deepQueue_vmap])
      have hrules : DeepKept s2 s3 := by
        unfold s3
        split
        · exact ⟨⟨s2.out, s2.host, s2.sched, _, s2.slices, rfl⟩, fun _ => rfl, fun _ => rfl⟩
        · exact .refl _
      exact (((hslice.trans (deepKept_postEvent ..)).trans hrules).trans (deepKept_raiseTask ..)).trans (ih _)
    · exact .refl s

theorem deepKept_headLeave (s : State) (sl version : Nat) : DeepKept s (headLeave s sl version) := by
  unfold headLeave retire
  exact (deepKept_modSlice s sl (fun _ => by rfl) (fun _ => by rfl)).trans (deepKept_retireFrom 4 _ sl)

/-! ### The end of a scan -/

/-- A reference given up while another holds the frame. -/
theorem dropRef_of_held {s : State} {id : Nat} {f : Frame} (hf : frameAt s id = some f) (hrefs : 2 ≤ f.refs) :
    dropRef s id = modFrame s id (fun f => { f with refs := f.refs - 1 }) := by
  have hg := frameAt_modFrame_same s id (fun f => { f with refs := f.refs - 1 })
  rw [hf] at hg
  rw [dropRef, onFrame_of_some hg]
  exact if_neg (show ¬ f.refs - 1 = 0 by omega)

/-- A slice without the frame that heads its deep queue. -/
def unqueued (s : State) (sl id : Nat) : State :=
  modSlice s sl (fun x => { x with deepQueue := x.deepQueue.erase id })

/-- The end of a scan of a frame that another reference holds. -/
theorem scanOver_of_held {s : State} {id : Nat} {f : Frame} (hf : frameAt s id = some f) (hrefs : 2 ≤ f.refs) :
    scanOver s id = headLeave
      (modFrame (unqueued s f.slice id) id (fun f => { f with refs := f.refs - 1, deepQueued := false }))
      f.slice f.version := by
  have hg : frameAt (modFrame (unqueued s f.slice id) id (fun f => { f with deepQueued := false })) id =
      some { f with deepQueued := false } := by
    rw [frameAt_modFrame_same, show frameAt (unqueued s f.slice id) id = some f from hf]; rfl
  rw [scanOver, onFrame_of_some hf]
  change headLeave (dropRef (modFrame (unqueued s f.slice id) id (fun f => { f with deepQueued := false })) id) _ _ = _
  rw [dropRef_of_held hg hrefs, modFrame_modFrame]

/-! ### The scan -/

/-- A context after a scan of a payload under a limit (04/R128, R129). -/
def DeepCtx.scanned (c : DeepCtx) (limit now groups : Nat) (payload : List Byte) : DeepCtx :=
  let new := payload.take (limit - c.offset)
  { c with
    offset := c.offset + new.length, nextSeq := 0, last := (c.last ++ new).drop ((c.last ++ new).length - 31),
    groups := groups, done := decide (limit ≤ c.offset + new.length), used := now }

/-- A slice whose context of a stream is replaced. -/
def setDeep (s : State) (sl handle : Nat) (dir : Bool) (c : DeepCtx) : State :=
  modSlice s sl (fun x => { x with deep := x.deep.map (fun d => if d.serves handle dir then c else d) })

/-- Every field of a register that reads 0 is 0. -/
theorem fldV_of_zero {s : State} {r : RegName} {ix : List Nat} {version : Nat} (h : fldV s r ix version 31 0 = 0)
    (hi lo : Nat) : fldV s r ix version hi lo = 0 := by
  have hword : ∀ w : Word, bits w.toNat 31 0 = 0 → bits w.toNat hi lo = 0 := by
    intro w hw
    have hzero : w.toNat = 0 := by
      rw [bits, Nat.pow_zero, Nat.div_one, Nat.mod_eq_of_lt w.isLt] at hw
      exact hw
    simp [bits, hzero]
  exact hword _ h

/-- With no action configured for any group a match does nothing. -/
theorem deepAction_of_zero {s : State} {sl version : Nat} (h : fldV s .deepAct [sl] version 31 0 = 0) (groups : Nat) :
    deepAction s sl version groups = 0 := by
  have hzero (l : List Nat) : (l.map (fun g => fldV s .deepAct [sl] version (2 * g + 1) (2 * g))).foldl max 0 = 0 := by
    induction l with
    | nil => rfl
    | cons g l ih => rw [List.map_cons, List.foldl_cons, fldV_of_zero h]; exact ih
  exact hzero _

theorem deepAct_zero (s : State) (handle : Nat) : deepAct s handle 0 = s := by
  unfold deepAct
  split <;> rfl

/-- The job of a stream without sequence numbers whose context is not done is scanned up to the limit. -/
theorem scanJob_of_stream {s : State} {f : Frame} {j : DeepJob} {c : DeepCtx} (hseq : j.seq = none)
    (hctx : (sliceAt s f.slice).deep.find? (fun c => c.serves f.count.handle j.dir) = some c) (hdone : c.done = false)
    (hact : fldV s .deepAct [f.slice] f.version 31 0 = 0) :
    ∃ groups, scanJob s f j = setDeep s f.slice f.count.handle j.dir
      (c.scanned (deepLimit s f.slice f.version) s.time.tick groups j.payload) := by
  unfold scanJob deepContext
  simp only [hctx, hdone, deepBytes, hseq, Bool.false_eq_true, if_false, deepAction_of_zero hact, deepAct_zero]
  exact ⟨_, rfl⟩

/-- A stream finds the context put in place of its own. -/
theorem find_map_serves {l : List DeepCtx} {c c' : DeepCtx} {handle : Nat} {dir : Bool}
    (hc : l.find? (fun d => d.serves handle dir) = some c) (hc' : c'.serves handle dir = true) :
    (l.map (fun d => if d.serves handle dir then c' else d)).find? (fun d => d.serves handle dir) = some c' := by
  induction l with
  | nil => simp at hc
  | cons d l ih =>
    by_cases hd : d.serves handle dir = true
    · simp [hd, hc']
    · rw [List.find?_cons, Bool.eq_false_iff.mpr hd] at hc
      rw [List.map_cons, if_neg hd, List.find?_cons, Bool.eq_false_iff.mpr hd]
      exact ih hc

/-- DEEP_SCAN of a queue whose head has a good tail and a job. -/
theorem deepScan_of_ready {s : State} {sl id : Nat} {rest : List Nat} {f : Frame} {j : DeepJob}
    (hqueue : (sliceAt s sl).deepQueue = id :: rest) (hf : frameAt s id = some f) (htail : f.tail = .good)
    (hvoid : f.void = false) (hjob : f.job = some j) : deepScan sl s = scanOver (scanJob s f j) id := by
  simp [deepScan, hqueue, hf, htail, hvoid, hjob]

/-- Settles O38: the context of the stream is scanned further, and the frame leaves the queue with one reference fewer;
what its version retires then touches neither. -/
theorem deepScanning : Obligations.DeepScanning := by
  intro s sl id f j c rest hqueue hf hsl htail hvoid hjob hseq hrefs hctx hdone hact limit new
  subst hsl
  obtain ⟨groups, hscan⟩ := scanJob_of_stream hseq hctx hdone hact
  generalize hc' : c.scanned (deepLimit s f.slice f.version) s.time.tick groups j.payload = c' at hscan
  generalize hu : setDeep s f.slice f.count.handle j.dir c' = u at hscan
  have hfu : frameAt u id = some f := by rw [← hu]; exact hf
  have hover := scanOver_of_held hfu hrefs
  rw [modFrame_of_some (show frameAt (unqueued u f.slice id) id = some f from hfu)] at hover
  generalize hv : ({ unqueued u f.slice id with frames := _ } : State) = v at hover
  have hkept := deepKept_headLeave v f.slice f.version
  have hstands : FlightKept v (headLeave v f.slice f.version) := flightKept_headLeave ..
  have hslice : sliceAt v f.slice = { sliceAt s f.slice with
      deep := (sliceAt s f.slice).deep.map (fun d => if d.serves f.count.handle j.dir then c' else d),
      deepQueue := (sliceAt s f.slice).deepQueue.erase id } := by
    rw [← hv, ← hu]
    simp only [sliceAt, unqueued, setDeep, modSlice, setSlice, tget_tins_same]
  obtain ⟨out, host, sched, rules, slices, ht⟩ := hkept.only
  have hexec : exec (.deepScan f.slice) s = .next (headLeave v f.slice f.version) := by
    refine congrArg Host.Outcome.next ?_
    rw [deepScan_of_ready hqueue hf htail hvoid hjob, hscan, hover]
  have hserves : c'.serves f.count.handle j.dir = true := by
    rw [← hc']
    have hc := List.find?_some hctx
    exact hc
  refine ⟨_, out, host, sched, rules, slices, v.frames, _, c', hexec, ?_, ?_, rfl, fun k hk => ?_, ?_, ?_, ?_⟩
  · rw [ht, ← hv, ← hu]; rfl
  · rw [frameAt, hstands.frames, ← hv]; exact tfind_tins_same ..
  · rw [frameAt, hstands.frames, ← hv, ← hu]; exact tfind_tins_ne _ _ hk
  · rw [hkept.queue, hslice, hqueue]; exact List.erase_cons_head ..
  · rw [hkept.deep, hslice]; exact find_map_serves hctx hserves
  · rw [← hc']; exact ⟨rfl, rfl, rfl, rfl⟩

end Sys2Proof.Machine
end

