-- ==== Sys2Proof/Proofs/TableEdits.lean ====
section
/-! SUPPORT. What a draft edit and a command on the MAC tables come to where no slice fails a stage (04/R135; 05/R178;
12/R380), and that the work of a learn engine keeps whatever answers commands. -/

namespace Sys2Proof.Machine

/-! ### What answers commands -/

/-- Two states with the same scheduler and Rim, and the same rings enabled. -/
structure RingsKept (s t : State) : Prop where
  sched : t.sched = s.sched
  rim : t.rim = s.rim
  en : ∀ hp cls r, (ringAt t hp cls r).en = (ringAt s hp cls r).en

namespace RingsKept

variable {s t u : State}

theorem refl (s : State) : RingsKept s s := ⟨rfl, rfl, fun _ _ _ => rfl⟩

theorem trans (a : RingsKept s t) (b : RingsKept t u) : RingsKept s u :=
  ⟨b.sched.trans a.sched, b.rim.trans a.rim, fun hp cls r => (b.en hp cls r).trans (a.en hp cls r)⟩

theorem of_host (hhost : t.host = s.host) (hsched : t.sched = s.sched) (hrim : t.rim = s.rim) : RingsKept s t :=
  ⟨hsched, hrim, fun hp cls r => by rw [ringAt, ringAt, hhost]⟩

theorem foldl {α : Type} {f : State → α → State} (hf : ∀ s a, RingsKept s (f s a)) (s : State) (l : List α) :
    RingsKept s (l.foldl f s) := by
  induction l generalizing s with
  | nil => exact .refl s
  | cons a l ih => exact (hf s a).trans (ih _)

end RingsKept

theorem SlicesEdited.ringsKept {l : List Nat} {g : Nat → SliceState → SliceState} {s t : State} (h : SlicesEdited l g s t) :
    RingsKept s t := by
  obtain ⟨slices, rfl⟩ := h.only
  exact .of_host rfl rfl rfl

/-- A command that runs alone, whose body answers and keeps what answers commands, is answered at once. -/
theorem runCommand_of_ringsKept {s t : State} {op : Nat} {h : CmdHeader} {p : List Byte} {len : Nat} {fine : Bool} {a : Answer}
    {body : Bool → State → Option Answer × State} (H : RunsAlone s op h p len fine) (hb : body false s = (some a, t))
    (hkept : RingsKept s t) (hd : a.data.length ≤ 65536) : runCommand s op h p len fine body = answered t h a := by
  have hring : (ringAt t (h.fn / 2) 1 h.replyRing).en = true := by rw [hkept.en]; exact H.runs.enabled
  have hcalm : t.rim.transition = none := by rw [hkept.rim]; exact H.runs.calm
  have honce : runAtOnce s op h p len fine (fun _ => (a, t)) = answered t h a :=
    runAtOnce_of_alone H rfl hkept.sched hcalm hring (length_replyOf_le hd)
  rw [runAtOnce, runCommand_of_runs H.runs] at honce
  rw [runCommand_of_runs H.runs, hb]
  exact honce

theorem runAtOnce_of_ringsKept {s t : State} {op : Nat} {h : CmdHeader} {p : List Byte} {len : Nat} {fine : Bool} {a : Answer}
    {body : State → Answer × State} (H : RunsAlone s op h p len fine) (hb : body s = (a, t))
    (hkept : RingsKept s t) (hd : a.data.length ≤ 65536) : runAtOnce s op h p len fine body = answered t h a :=
  runCommand_of_ringsKept H (by rw [hb]) hkept hd

/-! ### Stages -/

@[simp] theorem stageFails_nil (slices : List Nat) : stageFails slices [] = none := rfl

/-- A stage that no slice fails is passed. -/
theorem stageFails_cons {slices : List Nat} {fails : Nat → Bool} (h : ∀ sl ∈ slices, fails sl = false) (st : Nat)
    (stages : List (Nat × (Nat → Bool))) : stageFails slices ((st, fails) :: stages) = stageFails slices stages := by
  have hany : slices.any fails = false := List.any_eq_false.mpr fun sl hsl => ne_true_of_eq_false (h sl hsl)
  simp [stageFails, hany]

/-! ### Draft edits -/

section
variable {s : State} {op : Nat} {h : CmdHeader} {p : List Byte} {len : Nat} {fine : Bool}

/-- From one state to another a command's draft edit: slices of its mask, and the draft's digest. -/
structure DraftEdited (h : CmdHeader) (p : List Byte) (g : Nat → SliceState → SliceState) (s t : State) : Prop where
  only : ∃ slices, t = { s with slices := slices, rules := (draftEdit s 0 h.slices h.opcode p).rules }
  outside : ∀ k, k ∉ maskSlices h.slices → sliceAt t k = sliceAt s k
  inside : ∀ sl ∈ maskSlices h.slices, sliceAt t sl = g sl (sliceAt s sl)

theorem DraftEdited.ringsKept {g : Nat → SliceState → SliceState} {t : State} (hd : DraftEdited h p g s t) :
    RingsKept s t := by
  obtain ⟨_, rfl⟩ := hd.only
  exact .of_host rfl rfl rfl

/-- Edited slices, entered in the draft's digest. -/
theorem SlicesEdited.draftEdited {g : Nat → SliceState → SliceState} {t : State}
    (he : SlicesEdited (maskSlices h.slices) g s t) : DraftEdited h p g s (draftEdit t 0 h.slices h.opcode p) := by
  have hinside := fun sl (hsl : sl ∈ maskSlices h.slices) => he.inside hsl
  have houtside := fun k (hk : k ∉ maskSlices h.slices) => he.outside hk
  obtain ⟨slices, rfl⟩ := he.only
  exact ⟨⟨slices, rfl⟩, houtside, hinside⟩

/-- A draft edit that no slice fails comes to ST_OK, and edits each slice of its mask. -/
theorem draftCommand_ok {stages : List (Nat × (Nat → Bool))} {g : Nat → SliceState → SliceState} {d : List Byte}
    (hcommit : s.rules.commit = none) (hstages : stageFails (maskSlices h.slices) stages = none) :
    ∃ t, draftCommand h p stages g (fun _ => d) s = (.ok d, t) ∧ DraftEdited h p g s t := by
  refine ⟨_, ?_, (SlicesEdited.foldl_modSlice s g (nodup_maskSlices h.slices)).draftEdited⟩
  rw [draftCommand, hcommit, hstages]
  rfl

/-- A command that is such a draft edit is answered. -/
theorem draftCommand_answers {stages : List (Nat × (Nat → Bool))} {g : Nat → SliceState → SliceState} {d : List Byte}
    (H : RunsAlone s op h p len fine) (hcommit : s.rules.commit = none)
    (hstages : stageFails (maskSlices h.slices) stages = none) (hd : d.length ≤ 65536) {body : State → Answer × State}
    (hbody : body s = draftCommand h p stages g (fun _ => d) s) :
    ∃ t, runAtOnce s op h p len fine body = answered t h (.ok d) ∧ DraftEdited h p g s t := by
  obtain ⟨t, hok, hedited⟩ := draftCommand_ok (p := p) (d := d) hcommit hstages
  exact ⟨t, runAtOnce_of_ringsKept H (hbody.trans hok) hedited.ringsKept hd, hedited⟩

end

/-! ### Learns that wait and reads that lose entries -/

theorem ringsKept_bump (s : State) (part num n : Nat) : RingsKept s (bump s part num n) := by
  obtain ⟨c, h⟩ := bump_eq s part num n
  rw [h]
  exact .of_host rfl rfl rfl

theorem en_setRing {s : State} {hp cls r : Nat} {x : Ring} (hx : x.en = (ringAt s hp cls r).en) (hp' cls' r' : Nat) :
    (ringAt (setRing s hp cls r x) hp' cls' r').en = (ringAt s hp' cls' r').en := by
  by_cases hid : ringId hp' cls' r' = ringId hp cls r
  · simp only [ringAt, setRing, hid, tget_tins_same]
    exact hx
  · simp only [ringAt, setRing, tget_tins_ne _ _ _ hid]

theorem ringsKept_setRing {s : State} {hp cls r : Nat} {x : Ring} (hx : x.en = (ringAt s hp cls r).en) :
    RingsKept s (setRing s hp cls r x) := ⟨rfl, rfl, en_setRing hx⟩

theorem ringsKept_writeRing (s : State) (hp cls r : Nat) (bytes : List Byte) : RingsKept s (writeRing s hp cls r bytes) := by
  unfold writeRing
  extract_lets g n pi cfg s1 s2 s3
  have hout : RingsKept s s3 := by
    unfold s3
    split <;> exact .of_host rfl rfl rfl
  exact hout.trans (ringsKept_setRing (hout.en hp cls r).symm)

theorem ringsKept_postEvent (s : State) (src : Nat) (body : List Byte) : RingsKept s (postEvent s src body) := by
  have hring (hp r dev : Nat) : RingsKept s (eventToRing s hp r src dev body) := by
    unfold eventToRing
    extract_lets g head t
    split
    · exact (ringsKept_writeRing ..).trans (ringsKept_setRing rfl)
    · exact ringsKept_setRing rfl
  simp only [postEvent]
  split
  · split
    · exact hring ..
    · exact .of_host rfl rfl rfl
  · exact .refl s

theorem ringsKept_stationMove (s : State) (sl first : Nat) (l : MacLearn) : RingsKept s (stationMove s sl first l) :=
  RingsKept.trans (t := raiseEv s .l2Event [sl] [1]) (.of_host rfl rfl rfl) (ringsKept_postEvent ..)

theorem ringsKept_noteLearn (s : State) (sl : Nat) (l : MacLearn) : RingsKept s (noteLearn s sl l) := by
  unfold noteLearn
  extract_lets w seen same t
  have ht : RingsKept s t := .of_host rfl rfl rfl
  cases same with
  | none => exact ht
  | some first =>
    dsimp only
    split
    · exact ht
    · exact ht.trans (ringsKept_stationMove ..)

theorem ringsKept_setSlice (s : State) (sl : Nat) (x : SliceState) : RingsKept s (setSlice s sl x) := .of_host rfl rfl rfl

theorem ringsKept_applyLearn (s : State) (sl : Nat) (l : MacLearn) : RingsKept s (applyLearn s sl l) := by
  unfold applyLearn
  extract_lets x
  split
  · split
    · exact .refl s
    · extract_lets x1
      split
      · exact (ringsKept_setSlice ..).trans (ringsKept_noteLearn ..)
      · exact ((ringsKept_setSlice ..).trans (ringsKept_bump ..)).trans (ringsKept_noteLearn ..)
  · split
    · exact ringsKept_bump ..
    · exact (ringsKept_setSlice ..).trans (ringsKept_noteLearn ..)

theorem ringsKept_learnsFirst (s : State) (sl : Nat) : RingsKept s (learnsFirst s sl) :=
  RingsKept.trans (t := modSlice s sl (fun x => { x with macQueue := [] })) (.of_host rfl rfl rfl)
    (.foldl (fun s l => ringsKept_applyLearn s sl l) _ _)

theorem ringsKept_loseMacs (s : State) (ue : List (Nat × Nat)) : RingsKept s (loseMacs s ue) := by
  refine .foldl (fun s e => ?_) s ue
  unfold loseMac
  split
  · exact .of_host rfl rfl rfl
  · exact .refl s

end Sys2Proof.Machine
end

