-- ==== Sys2Proof/Proofs/TableCommands.lean ====
section
/-! PROOF. Draft edits, table reads and station commands (04/R120, R124, R135; 05/R145, R156, R157, R164, R165, R169, R170, R178;
09/R311). -/

namespace Sys2Proof.Machine

/-! ### Parse program -/

/-- The entry that place `k` of a write of indexed images leaves over an old one. -/
def indexedEntry (p : List Byte) (size : Nat) (old : Versioned) (k : Nat) : Versioned :=
  if clears p then { old with draft := false } else ⟨imageAt p size k, 0, true⟩

/-- A write of indexed images leaves its entries in its range, and every other place as it was. -/
theorem tget_indexedEdit (d : Versioned) (p : List Byte) (size : Nat) (get : Nat → Versioned) (t : Table Versioned) :
    (∀ k, k < leAt p 2 2 → tget d (indexedEdit p size get t) (leAt p 0 2 + k) =
      indexedEntry p size (get (leAt p 0 2 + k)) k) ∧
    ∀ i, (i < leAt p 0 2 ∨ leAt p 0 2 + leAt p 2 2 ≤ i) → tget d (indexedEdit p size get t) i = tget d t i := by
  unfold indexedEdit
  generalize leAt p 0 2 = first
  induction leAt p 2 2 with
  | zero => exact ⟨fun k hk => absurd hk (Nat.not_lt_zero k), fun i _ => rfl⟩
  | succ n ih =>
    obtain ⟨hin, hout⟩ := ih
    rw [List.range_succ, List.foldl_concat]
    refine ⟨fun k hk => ?_, fun i hi => ?_⟩
    · rw [tget_tins]
      by_cases hkn : k = n
      · rw [if_pos (by rw [hkn]), hkn, indexedEntry]
      · rw [if_neg (by omega), hin k (by omega)]
    · rw [tget_tins_ne _ _ _ (by omega), hout i (by omega)]

theorem stepEntry_indexedEdit (p : List Byte) (x : SliceState) :
    let y := { x with steps := indexedEdit p 16 (stepEntry x) x.steps }
    (∀ k, k < leAt p 2 2 → stepEntry y (leAt p 0 2 + k) = indexedEntry p 16 (stepEntry x (leAt p 0 2 + k)) k) ∧
      ∀ i, (i < leAt p 0 2 ∨ leAt p 0 2 + leAt p 2 2 ≤ i) → stepEntry y i = stepEntry x i :=
  ⟨fun k hk => (tget_indexedEdit _ p 16 (stepEntry x) x.steps).1 k hk,
    fun i hi => (tget_indexedEdit _ p 16 (stepEntry x) x.steps).2 i hi⟩

theorem transEntry_indexedEdit (p : List Byte) (x : SliceState) :
    let y := { x with trans := indexedEdit p 8 (transEntry x) x.trans }
    (∀ k, k < leAt p 2 2 → transEntry y (leAt p 0 2 + k) = indexedEntry p 8 (transEntry x (leAt p 0 2 + k)) k) ∧
      ∀ i, (i < leAt p 0 2 ∨ leAt p 0 2 + leAt p 2 2 ≤ i) → transEntry y i = transEntry x i :=
  ⟨fun k hk => (tget_indexedEdit _ p 8 (transEntry x) x.trans).1 k hk,
    fun i hi => (tget_indexedEdit _ p 8 (transEntry x) x.trans).2 i hi⟩

theorem length_placeData (slices : List Nat) (place : Nat → Option Nat) : (placeData slices place).length = 16 := by
  simp [placeData, List.length_flatMap]

section
variable {s : State} {h : CmdHeader} {p : List Byte} (hcommit : s.rules.commit = none)
include hcommit

theorem stepWrite_edits (H : RunsAlone s 0x0201 h p (indexedLen p 16) (indexedFine p 16 2048 254 stepFine))
    (hfree : ∀ sl ∈ maskSlices h.slices, indexedLocked p (stepEntry (sliceAt s sl)) = false) :
    ∃ t, stepWrite h p s = answered t h (.ok []) ∧
      DraftEdited h p (fun _ x => { x with steps := indexedEdit p 16 (stepEntry x) x.steps }) s t :=
  draftCommand_answers H hcommit (stageFails_cons hfree ..) (Nat.zero_le _) rfl

theorem transWrite_edits (H : RunsAlone s 0x0202 h p (indexedLen p 8) (indexedFine p 8 4096 511 transFine))
    (hfree : ∀ sl ∈ maskSlices h.slices, indexedLocked p (transEntry (sliceAt s sl)) = false) :
    ∃ t, transWrite h p s = answered t h (.ok []) ∧
      DraftEdited h p (fun _ x => { x with trans := indexedEdit p 8 (transEntry x) x.trans }) s t :=
  draftCommand_answers H hcommit (stageFails_cons hfree ..) (Nat.zero_le _) rfl

/-! ### Access map and patterns -/

theorem accmapAdd_edits (H : RunsAlone s 0x0203 h p 8 (accessFine (leAt p 0 8)))
    (hroom : ∀ sl ∈ maskSlices h.slices,
      accessFind (sliceAt s sl) (leAt p 0 8) = none ∧ firstFree (sliceAt s sl).access 0 < 65536) :
    ∃ t, accmapAdd h p s = answered t h (.ok []) ∧ DraftEdited h p
      (fun _ x => { x with access := tins x.access (firstFree x.access 0) ⟨leAt p 0 8, 0, true⟩ }) s t := by
  refine draftCommand_answers H hcommit ?_ (Nat.zero_le _) rfl
  rw [stageFails_cons fun sl hsl => by rw [(hroom sl hsl).1]; rfl, stageFails_cons fun sl hsl => ?_, stageFails_nil]
  have := (hroom sl hsl).2
  simpa using this

theorem accmapDel_edits (H : RunsAlone s 0x0204 h p 8 (accessFine (leAt p 0 8)))
    (hthere : ∀ sl ∈ maskSlices h.slices, (accessFind (sliceAt s sl) (leAt p 0 8)).isSome) :
    ∃ t, accmapDel h p s = answered t h (.ok []) ∧ DraftEdited h p (fun _ x => { x with
      access := match accessFind x (leAt p 0 8) with | some i => undraft x.access i | none => x.access }) s t :=
  draftCommand_answers H hcommit (stageFails_cons (fun sl hsl => Option.isNone_eq_false_iff.mpr (hthere sl hsl)) ..)
    (Nat.zero_le _) rfl

theorem patternAdd_edits {e : PatternEntry} (he : e = ⟨slice p 0 32, leAt p 32 8, 0, true⟩)
    (H : RunsAlone s 0x0205 h p 40 (patternFine p))
    (hroom : ∀ sl ∈ maskSlices h.slices,
      patternFind (sliceAt s sl) e.id = none ∧ firstFree (sliceAt s sl).patterns 0 < 16384) :
    ∃ t, patternAdd h p s = answered t h (.ok []) ∧
      DraftEdited h p (fun _ x => { x with patterns := tins x.patterns (firstFree x.patterns 0) e }) s t := by
  subst he
  refine draftCommand_answers H hcommit ?_ (Nat.zero_le _) rfl
  rw [stageFails_cons fun sl hsl => by rw [(hroom sl hsl).1]; rfl, stageFails_cons fun sl hsl => ?_, stageFails_nil]
  have := (hroom sl hsl).2
  simpa using this

theorem patternDel_edits (H : RunsAlone s 0x0206 h p 2 (decide (leAt p 0 2 < 16384)))
    (hthere : ∀ sl ∈ maskSlices h.slices, (patternFind (sliceAt s sl) (leAt p 0 2)).isSome) :
    ∃ t, patternDel h p s = answered t h (.ok []) ∧ DraftEdited h p (fun _ x => { x with
      patterns := match patternFind x (leAt p 0 2) with | some i => unpattern x.patterns i | none => x.patterns }) s t :=
  draftCommand_answers H hcommit (stageFails_cons (fun sl hsl => Option.isNone_eq_false_iff.mpr (hthere sl hsl)) ..)
    (Nat.zero_le _) rfl

/-! ### Ternary entries -/

theorem tcamAdd_edits (H : RunsAlone s 0x0301 h p (if p.length = 168 then 168 else 88) (imagesFine (tcamImages p)))
    (hroom : ∀ sl ∈ maskSlices h.slices, widthDiffers s (byteAt p 0 % 16) (tcamImages p) sl = false ∧
      (addPlace s sl (byteAt p 0 % 16)).isSome) :
    ∃ t, tcamAdd h p s =
        answered t h (.ok (placeData (maskSlices h.slices) (fun sl => addPlace s sl (byteAt p 0 % 16)))) ∧
      DraftEdited h p (fun sl x => match addPlace s sl (byteAt p 0 % 16) with
        | some i => putPlace x i ((tcamImages p).map TcamEntry.ofImage)
        | none => x) s t := by
  refine draftCommand_answers H hcommit ?_ (by rw [length_placeData]; decide) rfl
  rw [stageFails_cons fun sl hsl => (hroom sl hsl).1,
    stageFails_cons fun sl hsl => Option.isNone_eq_false_iff.mpr (hroom sl hsl).2, stageFails_nil]

theorem tcamDelete_edits
    (H : RunsAlone s 0x0303 h p (if bit (byteAt p 0) 4 then (if p.length = 168 then 168 else 88) else 8) true)
    (hthere : ∀ sl ∈ maskSlices h.slices,
      (if bit (byteAt p 0) 4 then widthDiffers s (byteAt p 0 % 16) (tcamImages p) sl = false
        else isPlaceOf s sl (byteAt p 0 % 16) (leAt p 2 2 % 32768) = true) ∧
      (deletePlace s sl (byteAt p 0 % 16) p).isSome) :
    ∃ t, tcamDelete h p s = answered t h (.ok []) ∧
      DraftEdited h p (fun sl x => match deletePlace s sl (byteAt p 0 % 16) p with
        | some i => undraftPlace (lookupDouble s sl (byteAt p 0 % 16)) x i
        | none => x) s t := by
  refine draftCommand_answers H hcommit ?_ (Nat.zero_le _) rfl
  rw [stageFails_cons fun sl hsl => ?_,
    stageFails_cons fun sl hsl => Option.isNone_eq_false_iff.mpr (hthere sl hsl).2, stageFails_nil]
  have hnamed := (hthere sl hsl).1
  split at hnamed
  · next hkey => rw [if_pos hkey]; exact hnamed
  · next hkey => rw [if_neg hkey, hnamed]; rfl

end

/-! ### TCAM_INSERT -/

/-- A slice after the moves of an insert's plan (05/R157). -/
def movedBy (double : Bool) (plan : Option (List (Nat × Nat) × Nat)) (x : SliceState) : SliceState :=
  (plan.map (fun pl => pl.1.foldl (movePlace double []) x)).getD x

/-- A slice in which a block move of `m` places starts at a cc (05/R158). -/
def timedBy (now m : Nat) (double : Bool) (x : SliceState) : SliceState :=
  if m = 0 then x else { x with moveEnd := max now x.moveEnd + m * moveCc double, movePer := moveCc double }

/-- A slice with the entry of an insert at the place of its plan. -/
def placedBy (es : List TcamEntry) (plan : Option (List (Nat × Nat) × Nat)) (x : SliceState) : SliceState :=
  (plan.map (fun pl => putPlace x pl.2 es)).getD x

/-- The moves of a plan. -/
def movesOf (plan : Option (List (Nat × Nat) × Nat)) : List (Nat × Nat) := (plan.map (·.1)).getD []

/-- A slice after an insert: moved, its moves timed, the entry placed. -/
def insertedBy (now : Nat) (imgs : List Nat) (plan : Option (List (Nat × Nat) × Nat)) (x : SliceState) : SliceState :=
  placedBy (imgs.map TcamEntry.ofImage) plan
    (timedBy now (movesOf plan).length (imgs.length == 2) (movedBy (imgs.length == 2) plan x))

theorem startMove_edits (s : State) (sl : Nat) (m : Nat → Nat) (double : Bool) :
    SlicesEdited [sl] (fun k x => timedBy (ccOf s.time.tick) (m k) double x) s (startMove s sl (m sl) double) := by
  unfold startMove timedBy
  by_cases hm : m sl = 0
  · rw [if_pos hm]
    refine ⟨⟨s.slices, rfl⟩, fun k => ?_⟩
    by_cases hk : k = sl
    · rw [if_pos (List.mem_singleton.mpr hk), hk, if_pos hm]
    · rw [if_neg (by simpa using hk)]
  · have hmove := SlicesEdited.modSlice s sl
      (fun k x => if m k = 0 then x else
        { x with moveEnd := max (ccOf s.time.tick) x.moveEnd + m k * moveCc double, movePer := moveCc double })
    simp only [if_neg hm] at hmove ⊢
    exact hmove

/-- The plan of a slice for the insert that a command's parameters name. -/
def planFor (s : State) (p : List Byte) (sl : Nat) : Option (List (Nat × Nat) × Nat) :=
  planOf s sl (byteAt p 0 % 16) (leAt p 2 2 % 32768)

/-- An insert that no slice fails, with no uncorrectable read: every slice's moves, their time, and the entry placed. -/
theorem tcamInsert_edits {s : State} {h : CmdHeader} {p : List Byte} (hcommit : s.rules.commit = none)
    (H : RunsAlone s 0x0302 h p (if p.length = 168 then 168 else 88) (imagesFine (tcamImages p)))
    (hroom : ∀ sl ∈ maskSlices h.slices, widthDiffers s (byteAt p 0 % 16) (tcamImages p) sl = false ∧
      isPlaceOf s sl (byteAt p 0 % 16) (leAt p 2 2 % 32768) = true ∧ (planFor s p sl).isSome) :
    ∃ t, tcamInsert h p [] s =
        answered t h (.ok (placeData (maskSlices h.slices) (fun sl => (planFor s p sl).map (·.2)))) ∧
      DraftEdited h p (fun sl x => insertedBy (ccOf s.time.tick) (tcamImages p) (planFor s p sl) x) s t := by
  have hstages : stageFails (maskSlices h.slices)
      [(stBadparam, fun sl => widthDiffers s (byteAt p 0 % 16) (tcamImages p) sl ||
          !isPlaceOf s sl (byteAt p 0 % 16) (leAt p 2 2 % 32768)),
        (stFull, fun sl => (planFor s p sl).isNone)] = none := by
    rw [stageFails_cons fun sl hsl => by rw [(hroom sl hsl).1, (hroom sl hsl).2.1]; rfl,
      stageFails_cons fun sl hsl => Option.isNone_eq_false_iff.mpr (hroom sl hsl).2.2, stageFails_nil]
  have hnodup := nodup_maskSlices h.slices
  have hmoved := SlicesEdited.foldl_modSlice s
    (fun sl x => movedBy ((tcamImages p).length == 2) (planFor s p sl) x) hnodup
  generalize hs1 : (maskSlices h.slices).foldl _ s = s1 at hmoved
  have htimed : SlicesEdited (maskSlices h.slices)
      (fun k x => timedBy (ccOf s.time.tick) (movesOf (planFor s p k)).length ((tcamImages p).length == 2) x) s1
      ((maskSlices h.slices).foldl
        (fun u sl => startMove u sl (movesOf (planFor s p sl)).length ((tcamImages p).length == 2)) s1) := by
    refine .foldl (fun u sl hu => ?_) hnodup
    obtain ⟨_, hu⟩ := hu
    obtain ⟨_, hs1⟩ := hmoved.only
    have htime : u.time = s.time := by rw [hu, hs1]
    rw [← htime]
    exact startMove_edits u sl (fun k => (movesOf (planFor s p k)).length) _
  generalize hs2 : (maskSlices h.slices).foldl _ s1 = s2 at htimed
  have hplaced := SlicesEdited.foldl_modSlice s2
    (fun sl x => placedBy ((tcamImages p).map TcamEntry.ofImage) (planFor s p sl) x) hnodup
  have hdraft := ((hmoved.trans htimed).trans hplaced).draftEdited (p := p)
  refine ⟨_, runAtOnce_of_ringsKept H ?_ hdraft.ringsKept ((length_placeData ..).trans_le (by decide)), hdraft⟩
  refine (if_neg (by rw [hcommit]; exact Bool.false_ne_true)).trans ?_
  unfold planFor at hstages
  rw [hstages]
  refine (if_neg ?_).trans (by rw [← hs2, ← hs1]; rfl)
  simp

/-- Moves change the ternary array of a slice alone. -/
theorem foldl_movePlace_eq (double : Bool) (ue : List Nat) (moves : List (Nat × Nat)) (x : SliceState) :
    ∃ tcam, moves.foldl (movePlace double ue) x = { x with tcam := tcam } := by
  induction moves generalizing x with
  | nil => exact ⟨x.tcam, rfl⟩
  | cons m moves ih =>
    obtain ⟨tcam, hrest⟩ := ih (movePlace double ue x m)
    exact ⟨tcam, hrest⟩

theorem insertedBy_of_plan (now : Nat) (imgs : List Nat) (moves : List (Nat × Nat)) (place : Nat) (x : SliceState) :
    insertedBy now imgs (some (moves, place)) x =
      { putPlace (moves.foldl (movePlace (imgs.length == 2) []) x) place (imgs.map TcamEntry.ofImage) with
        moveEnd := if moves = [] then x.moveEnd else max now x.moveEnd + moves.length * moveCc (imgs.length == 2)
        movePer := if moves = [] then x.movePer else moveCc (imgs.length == 2) } := by
  obtain ⟨tcam, hmoved⟩ := foldl_movePlace_eq (imgs.length == 2) [] moves x
  have hstart : insertedBy now imgs (some (moves, place)) x = putPlace (timedBy now moves.length (imgs.length == 2)
    (moves.foldl (movePlace (imgs.length == 2) []) x)) place (imgs.map TcamEntry.ofImage) := rfl
  rw [hstart, hmoved]
  cases moves <;> rfl

/-! ### VLAN images -/

/-- The lost indexes when a VLAN's entry has been written in slices. -/
def deadAfter (vlan : Nat) (l : List Nat) (dead : List (Nat × Nat)) : List (Nat × Nat) :=
  l.foldl (fun d sl => if d.contains (vlanKey sl vlan) then d.erase (vlanKey sl vlan) else d) dead

/-- A slice when its copy of a VLAN's entry, lost or not, has been written. -/
def revivedSlice (vlan : Nat) (lost : Bool) (x : SliceState) : SliceState :=
  if lost then { x with vlanBase := tdel x.vlanBase vlan } else x

theorem contains_erase_vlanKey {dead : List (Nat × Nat)} {sl k : Nat} (vlan : Nat) (hk : k ≠ sl) :
    (dead.erase (vlanKey sl vlan)).contains (vlanKey k vlan) = dead.contains (vlanKey k vlan) := by
  have hne : vlanKey k vlan ≠ vlanKey sl vlan := by
    simp only [vlanKey, ne_eq, Prod.mk.injEq, true_and]
    omega
  rw [Bool.eq_iff_iff, List.contains_iff_mem, List.contains_iff_mem, List.mem_erase_of_ne hne]

/-- Writing a VLAN's entry in slices: each lost copy is out of the lost indexes, and its base image is gone (05/R167). -/
theorem reviveVlan_revives {l : List Nat} (hl : l.Nodup) (s : State) (vlan : Nat) :
    (∃ slices, reviveVlan s l vlan =
      { s with slices := slices, rules := { s.rules with dead := deadAfter vlan l s.rules.dead } }) ∧
    ∀ k, sliceAt (reviveVlan s l vlan) k =
      if k ∈ l then revivedSlice vlan (s.rules.dead.contains (vlanKey k vlan)) (sliceAt s k) else sliceAt s k := by
  induction l generalizing s with
  | nil => exact ⟨⟨s.slices, rfl⟩, fun k => (if_neg List.not_mem_nil).symm⟩
  | cons sl l ih =>
    obtain ⟨hnot, hl⟩ := List.nodup_cons.mp hl
    by_cases hlost : s.rules.dead.contains (vlanKey sl vlan) = true
    · generalize ht : modSlice { s with rules := { s.rules with dead := s.rules.dead.erase (vlanKey sl vlan) } } sl
        (fun x => { x with vlanBase := tdel x.vlanBase vlan }) = t
      have hcons : reviveVlan s (sl :: l) vlan = reviveVlan t l vlan := by
        rw [reviveVlan, List.foldl_cons, if_pos hlost, ht]; rfl
      obtain ⟨⟨slices, honly⟩, hat⟩ := ih hl t
      rw [hcons]
      refine ⟨⟨slices, ?_⟩, fun k => ?_⟩
      · rw [honly, ← ht, deadAfter, deadAfter, List.foldl_cons, if_pos hlost]; rfl
      · have hdead : t.rules.dead = s.rules.dead.erase (vlanKey sl vlan) := by rw [← ht]; rfl
        have hslice : sliceAt t k = if k = sl then { sliceAt s sl with vlanBase := tdel (sliceAt s sl).vlanBase vlan }
            else sliceAt s k := by rw [← ht, sliceAt_modSlice]; rfl
        rw [hat k, hslice, hdead]
        by_cases hk : k = sl
        · subst hk; rw [if_neg hnot, if_pos rfl, if_pos List.mem_cons_self, hlost]; rfl
        · rw [if_neg hk, contains_erase_vlanKey vlan hk]; simp [hk]
    · have hcons : reviveVlan s (sl :: l) vlan = reviveVlan s l vlan := by
        rw [reviveVlan, List.foldl_cons, if_neg hlost]; rfl
      obtain ⟨⟨slices, honly⟩, hat⟩ := ih hl s
      rw [hcons]
      refine ⟨⟨slices, ?_⟩, fun k => ?_⟩
      · rw [honly, deadAfter, deadAfter, List.foldl_cons, if_neg hlost]
      · rw [hat k]
        by_cases hk : k = sl
        · subst hk; rw [if_neg hnot, if_pos List.mem_cons_self, Bool.eq_false_iff.mpr hlost]; rfl
        · simp [hk]

/-- A VLAN's image written in slices with an override to spare, over a lost copy too. -/
theorem vlanWrite_edits {s : State} {h : CmdHeader} {p : List Byte} (hcommit : s.rules.commit = none)
    (H : RunsAlone s 0x0402 h p 72 (decide (leAt p 4 4 < 4096) && dtFine 4 (leAt p 4 4) (leAt p 8 64)))
    (hroom : ∀ sl ∈ maskSlices h.slices,
      (overrideEdit (sliceAt s sl).vlanOver 1024 4 (leAt p 4 4) (leAt p 8 64)).isSome) :
    let u := reviveVlan s (maskSlices h.slices) (leAt p 4 4)
    ∃ t, vlanWrite h p s = answered t h (.ok []) ∧
      (∃ slices, t = { s with
        slices := slices, rules := { (draftEdit s 0 h.slices h.opcode p).rules with dead := u.rules.dead } }) ∧
      (∀ k, k ∉ maskSlices h.slices → sliceAt t k = sliceAt s k) ∧ ∀ sl ∈ maskSlices h.slices, ∀ os,
      overrideEdit (sliceAt s sl).vlanOver 1024 4 (leAt p 4 4) (leAt p 8 64) = some os →
      sliceAt t sl = { sliceAt u sl with vlanOver := os } := by
  intro u
  obtain ⟨v, hok, hedited⟩ := draftCommand_ok (p := p) (d := [])
    (g := fun _ x => { x with
      vlanOver := (overrideEdit x.vlanOver 1024 4 (leAt p 4 4) (leAt p 8 64)).getD x.vlanOver }) hcommit
    ((stageFails_cons (fun sl hsl => Option.isNone_eq_false_iff.mpr (hroom sl hsl)) stFull []).trans (stageFails_nil _))
  obtain ⟨⟨slices, honly⟩, hat⟩ := reviveVlan_revives (nodup_maskSlices h.slices) v (leAt p 4 4)
  obtain ⟨⟨_, honly'⟩, hat'⟩ := reviveVlan_revives (nodup_maskSlices h.slices) s (leAt p 4 4)
  obtain ⟨_, hv⟩ := hedited.only
  have hdead : v.rules.dead = s.rules.dead := by rw [hv]; rfl
  have hanswer : vlanWrite h p s = answered (reviveVlan v (maskSlices h.slices) (leAt p 4 4)) h (.ok []) := by
    unfold vlanWrite
    refine runAtOnce_of_ringsKept H ?_ ?_ (Nat.zero_le _)
    · dsimp only
      rw [hok]
      rfl
    · rw [honly]
      exact hedited.ringsKept.trans (.of_host rfl rfl rfl)
  refine ⟨_, hanswer, ⟨slices, ?_⟩, fun k hk => ?_, fun sl hsl os hos => ?_⟩
  · rw [honly, hdead, hv, show u = _ from honly']
  · rw [hat k, if_neg hk, hedited.outside k hk]
  · rw [hat sl, if_pos hsl, show sliceAt u sl = _ from hat' sl, if_pos hsl, hedited.inside sl hsl, hdead, hos]
    unfold revivedSlice
    split <;> rfl

/-! ### Tables of the device -/

section
variable {s : State} {h : CmdHeader} {p : List Byte}

theorem revive_rules (s : State) (table index : Nat) : ∃ dead west east,
    revive s table index = { s with rules := { s.rules with dead := dead, baseWest := west, baseEast := east } } := by
  unfold revive
  split
  · exact ⟨_, _, _, rfl⟩
  · exact ⟨_, _, _, rfl⟩

/-- A per-device entry written with an override to spare, over a lost entry too. -/
theorem dtWrite_answers {os : List Override} (hcommit : s.rules.commit = none)
    (H : RunsAlone s 0x0401 h p (8 + dtBytes (byteAt p 0)) ((byteAt p 0 ≤ 3 || byteAt p 0 == 5) &&
      decide (leAt p 4 4 < dtEntries (byteAt p 0)) && dtFine (byteAt p 0) (leAt p 4 4) (leAt p 8 (dtBytes (byteAt p 0)))))
    (hquarantine : byteAt p 0 = 1 → s.rules.quarantine.any (fun q => q.1 == leAt p 4 4) = false)
    (hgoing : deletesHop s (byteAt p 0) (leAt p 4 4) (leAt p 8 (dtBytes (byteAt p 0))) = true → hopsGoing s < 4096)
    (hos : overrideEdit s.rules.overrides 65536 (byteAt p 0) (leAt p 4 4) (leAt p 8 (dtBytes (byteAt p 0))) = some os) :
    dtWrite h p s = answered { s with rules := {
      (draftEdit (revive s (byteAt p 0) (leAt p 4 4)) 0 255 h.opcode p).rules with overrides := os } } h (.ok []) := by
  obtain ⟨dead, west, east, hrevive⟩ := revive_rules s (byteAt p 0) (leAt p 4 4)
  have hfree : ¬ (byteAt p 0 = 1 ∧ s.rules.quarantine.any (fun q => q.1 == leAt p 4 4) = true) :=
    fun hq => ne_true_of_eq_false (hquarantine hq.1) hq.2
  have hroom : ¬ (deletesHop s (byteAt p 0) (leAt p 4 4) (leAt p 8 (dtBytes (byteAt p 0))) = true ∧ 4096 ≤ hopsGoing s) :=
    fun hd => absurd (hgoing hd.1) (Nat.not_lt.mpr hd.2)
  unfold dtWrite
  refine runAtOnce_of_ringsKept H ?_ (.of_host rfl rfl rfl) (Nat.zero_le _)
  dsimp only
  rw [if_neg (Option.not_isSome_iff_eq_none.mpr hcommit), if_neg hfree, if_neg hroom, hos, hrevive]
  rfl

theorem pfxAdd_answers {e : PrefixEntry} (he : e = ⟨pfxZone p, pfxV6 p, pfxLen p, pfxAddr p, leAt p 8 4 % 2 ^ 20, 0, true⟩)
    (hcommit : s.rules.commit = none) (H : RunsAlone s 0x0404 h p 32 (pfxFine p)) (hnew : pfxFind s p = none)
    (hroom : pfxUsed s (pfxV6 p) < pfxCap (pfxV6 p)) :
    pfxAdd h p s = answered { s with rules := {
      (draftEdit s 0 255 h.opcode p).rules with prefixes := s.rules.prefixes ++ [e] } } h (.ok []) := by
  unfold pfxAdd
  refine runAtOnce_of_ringsKept H ?_ (.of_host rfl rfl rfl) (Nat.zero_le _)
  dsimp only
  rw [if_neg (Option.not_isSome_iff_eq_none.mpr hcommit), if_neg (Option.not_isSome_iff_eq_none.mpr hnew),
    if_neg (Nat.not_le.mpr hroom), he]
  rfl

theorem pfxDel_answers {i : Nat} (hcommit : s.rules.commit = none) (H : RunsAlone s 0x0405 h p 32 (pfxFine p))
    (hthere : pfxFind s p = some i) :
    pfxDel h p s = answered { s with rules := { (draftEdit s 0 255 h.opcode p).rules with
      prefixes := (s.rules.prefixes.mapIdx (fun k e => if k = i then { e with draft := false } else e)).filter
        (fun e => e.vis != 0 || e.draft) } } h (.ok []) := by
  unfold pfxDel
  refine runAtOnce_of_ringsKept H ?_ (.of_host rfl rfl rfl) (Nat.zero_le _)
  dsimp only
  rw [if_neg (Option.not_isSome_iff_eq_none.mpr hcommit), hthere]
  rfl

/-! ### Reads -/

theorem tcamRead_answers {sl : Nat} (hmask : maskSlices h.slices = [sl])
    (H : RunsAlone s 0x0304 h p 2 (decide (leAt p 0 2 < 32768) && !((blockMode s sl (leAt p 0 2)).2 && leAt p 0 2 % 2 == 1))) :
    tcamRead h p s = answered s h (.ok (le 80 (tcamAt (sliceAt s sl) (leAt p 0 2)).image ++
      if (blockMode s sl (leAt p 0 2)).2 then le 80 (tcamAt (sliceAt s sl) (leAt p 0 2 + 1)).image else [])) := by
  have hsl : (maskSlices h.slices).headD 0 = sl := by rw [hmask]; rfl
  unfold tcamRead
  rw [hsl]
  refine runAtOnce_of_ringsKept H ?_ (.refl s) ?_
  · unfold placeEntries
    cases (blockMode s sl (leAt p 0 2)).2 <;> simp
  · cases (blockMode s sl (leAt p 0 2)).2 <;> simp [Answer.ok]

theorem dtBytes_le (table : Nat) : dtBytes table ≤ 64 := by
  unfold dtBytes
  split <;> decide

theorem dtRead_answers
    (H : RunsAlone s 0x0403 h p 8 (decide (byteAt p 0 ≤ 5) && decide (leAt p 4 4 < dtEntries (byteAt p 0)) &&
      (bit (byteAt p 1) 0 || (if byteAt p 0 = 4 then isLive s ((maskSlices h.slices).headD 0) (leAt p 2 2)
        else liveAnywhere s (leAt p 2 2))))) :
    dtRead h p s = answered s h (.ok (le (dtBytes (byteAt p 0))
      (if byteAt p 0 = 4 then (if bit (byteAt p 1) 0 then vlanDraft s ((maskSlices h.slices).headD 0) (leAt p 4 4)
          else vlanImage s ((maskSlices h.slices).headD 0) (leAt p 4 4) (leAt p 2 2))
        else if bit (byteAt p 1) 0 then dtDraft s (byteAt p 0) (leAt p 4 4)
        else dtImage s ((maskSlices h.slices).headD 0) (byteAt p 0) (leAt p 4 4) (leAt p 2 2)))) := by
  refine runAtOnce_of_ringsKept H rfl (.refl s) ?_
  rw [Answer.ok, length_le]
  exact (dtBytes_le _).trans (by decide)

theorem pfxLookup_answers {e : PrefixEntry}
    (H : RunsAlone s 0x0406 h p 32 (bit (byteAt p 14) 0 || liveAnywhere s (leAt p 12 2)))
    (he : longest (s.rules.prefixes.filter (fun e => if bit (byteAt p 14) 0 then e.draft else visTo e.vis (leAt p 12 2)))
      (pfxZone p) (pfxV6 p) (pfxAddr p) = some e) :
    pfxLookup h p s = answered s h (.ok (le 1 e.len ++ zeros 3 ++ le 4 e.nextHop)) := by
  unfold pfxLookup
  refine runAtOnce_of_ringsKept H ?_ (.refl s) (by simp [Answer.ok, zeros])
  dsimp only
  rw [he]

/-! ### Stations -/

theorem macSearch_answers {sl i : Nat} {e : MacEntry} {ue : List (Nat × Nat)} (hmask : maskSlices h.slices = [sl])
    (H : RunsAlone s 0x0501 h p 8 (decide (macVlan p < 4096)))
    (hfind : macFind (sliceAt (loseMacs (learnsFirst s sl) ue) sl) (macVlan p) (macStation p) = some (i, e)) :
    macSearch h p ue s = answered (loseMacs (learnsFirst s sl) ue) h (.ok (le 12 e.image)) := by
  have hsl : (maskSlices h.slices).headD 0 = sl := by rw [hmask]; rfl
  unfold macSearch
  rw [hsl]
  refine runAtOnce_of_ringsKept H ?_ ((ringsKept_learnsFirst ..).trans (ringsKept_loseMacs ..)) (by simp [Answer.ok])
  dsimp only
  rw [hfind]

/-- The cursor of MAC_NEXT after the entries of a range. -/
def macCursor (l : Table MacEntry) : Nat :=
  if 1024 < l.length then ((l.take 1024).getLast?.map (fun e => e.1 + 1)).getD 0x40000 else 0x40000

theorem macCursor_of_short {l : Table MacEntry} (h : l.length ≤ 1024) : macCursor l = 0x40000 := if_neg (Nat.not_lt.mpr h)

theorem macCursor_of_long {l : Table MacEntry} {e : Nat × MacEntry} (h : 1024 < l.length) (he : l[1023]? = some e) :
    macCursor l = e.1 + 1 := by
  have hlast : (l.take 1024).getLast? = some e := by
    rw [List.getLast?_eq_getElem?, List.length_take, Nat.min_eq_left h.le, List.getElem?_take_of_lt (by decide), he]
  rw [macCursor, if_pos h, hlast]
  rfl

theorem macNext_answers {sl : Nat} {ue : List (Nat × Nat)} (hmask : maskSlices h.slices = [sl])
    (H : RunsAlone s 0x0502 h p 4 (decide (leAt p 0 4 < 0x40000))) :
    let u := loseMacs (learnsFirst s sl) ue
    let l := trange (sliceAt u sl).mac (leAt p 0 4) 0x40000
    macNext h p ue s = answered u h ⟨stOk, 0, macCursor l, (l.take 1024).flatMap (fun e => le 12 e.2.image)⟩ := by
  have hsl : (maskSlices h.slices).headD 0 = sl := by rw [hmask]; rfl
  unfold macNext
  rw [hsl]
  intro u l
  refine runAtOnce_of_ringsKept H rfl ((ringsKept_learnsFirst ..).trans (ringsKept_loseMacs ..)) ?_
  have hlen : (l.take 1024).length ≤ 1024 := List.length_take_le ..
  simp only [List.length_flatMap, length_le, List.map_const', List.sum_replicate, smul_eq_mul]
  omega

/-- The state in which the waiting learns of a command's slices are applied and what its reads find uncorrectable is lost. -/
def stationsRead (s : State) (h : CmdHeader) (ue : List (Nat × Nat)) : State :=
  loseMacs ((maskSlices h.slices).foldl learnsFirst s) (ue.filter (fun e => (maskSlices h.slices).contains e.1))

theorem ringsKept_stationsRead (s : State) (h : CmdHeader) (ue : List (Nat × Nat)) : RingsKept s (stationsRead s h ue) :=
  RingsKept.trans (.foldl ringsKept_learnsFirst ..) (ringsKept_loseMacs ..)

/-- An all-or-none change of MAC tables that no slice fails is answered ST_OK, and made in each slice of the mask. -/
theorem macCommand_answers {op len : Nat} {fine : Bool} {ue : List (Nat × Nat)} {stages : State → List (Nat × (Nat → Bool))}
    {edit : SliceState → SliceState} (H : RunsAlone s op h p len fine)
    (hstages : stageFails (maskSlices h.slices) (stages (stationsRead s h ue)) = none) {body : State → Answer × State}
    (hbody : body s = macCommand h ue stages edit s) :
    ∃ t, runAtOnce s op h p len fine body = answered t h (.ok []) ∧
      SlicesEdited (maskSlices h.slices) (fun _ x => edit x) (stationsRead s h ue) t := by
  have hedit := SlicesEdited.foldl_modSlice (stationsRead s h ue) (fun _ x => edit x) (nodup_maskSlices h.slices)
  refine ⟨_, runAtOnce_of_ringsKept H (hbody.trans ?_) ((ringsKept_stationsRead ..).trans hedit.ringsKept) (Nat.zero_le _),
    hedit⟩
  unfold macCommand
  extract_lets slices u
  rw [show stageFails slices (stages u) = none from hstages]
  rfl

/-- A slice with a static station at its place. -/
def withStatic (x : SliceState) (vlan mac port : Nat) : SliceState :=
  match staticPlace x vlan mac with
  | some i => { macErase x i with mac := tins (macErase x i).mac i ⟨vlan, mac, port, true, false⟩ }
  | none => x

/-- A slice's entry of a station is static. -/
def stationStatic (x : SliceState) (vlan mac : Nat) : Bool :=
  match macFind x vlan mac with
  | some (_, e) => e.static_
  | none => false

theorem stationStatic_of_none {x : SliceState} {vlan mac : Nat} (h : staticAt x vlan mac = none) :
    stationStatic x vlan mac = false := by
  unfold staticAt at h
  unfold stationStatic
  cases hfind : macFind x vlan mac with
  | none => rfl
  | some found => simpa [hfind] using h

theorem macStaticAdd_answers {ue : List (Nat × Nat)} (H : RunsAlone s 0x0503 h p 9 (decide (macVlan p < 4096)))
    (hroom : ∀ sl ∈ maskSlices h.slices, staticAt (sliceAt (stationsRead s h ue) sl) (macVlan p) (macStation p) = none ∧
      (staticPlace (sliceAt (stationsRead s h ue) sl) (macVlan p) (macStation p)).isSome) :
    ∃ t, macStaticAdd h p ue s = answered t h (.ok []) ∧ SlicesEdited (maskSlices h.slices)
      (fun _ x => withStatic x (macVlan p) (macStation p) (byteAt p 8)) (stationsRead s h ue) t := by
  refine macCommand_answers (ue := ue) (stages := fun u => [
    (stExists, fun sl => stationStatic (sliceAt u sl) (macVlan p) (macStation p)),
    (stFull, fun sl => (staticPlace (sliceAt u sl) (macVlan p) (macStation p)).isNone)]) H ?_ rfl
  rw [stageFails_cons fun sl hsl => stationStatic_of_none (hroom sl hsl).1,
    stageFails_cons fun sl hsl => Option.isNone_eq_false_iff.mpr (hroom sl hsl).2, stageFails_nil]

/-- A static station stands at its place; the entries at other places are as they were. -/
theorem mac_withStatic {x : SliceState} {vlan mac port i : Nat} (hi : staticPlace x vlan mac = some i) :
    tfind (withStatic x vlan mac port).mac i = some ⟨vlan, mac, port, true, false⟩ ∧
      ∀ j, j ≠ i → tfind (withStatic x vlan mac port).mac j = tfind x.mac j := by
  have herase (j : Nat) (hj : j ≠ i) : tfind (macErase x i).mac j = tfind x.mac j := by
    unfold macErase
    split
    · rfl
    · dsimp only
      split <;> exact tfind_tdel_ne _ hj
  simp only [withStatic, hi]
  exact ⟨tfind_tins_same .., fun j hj => (tfind_tins_ne _ _ hj).trans (herase j hj)⟩

theorem macStaticDel_answers {ue : List (Nat × Nat)} (H : RunsAlone s 0x0504 h p 8 (decide (macVlan p < 4096)))
    (hthere : ∀ sl ∈ maskSlices h.slices,
      (staticAt (sliceAt (stationsRead s h ue) sl) (macVlan p) (macStation p)).isSome) :
    ∃ t, macStaticDel h p ue s = answered t h (.ok []) ∧ SlicesEdited (maskSlices h.slices) (fun _ x =>
      match staticAt x (macVlan p) (macStation p) with | some i => macErase x i | none => x) (stationsRead s h ue) t :=
  macCommand_answers (ue := ue)
    (stages := fun u => [(stNoent, fun sl => (staticAt (sliceAt u sl) (macVlan p) (macStation p)).isNone)]) H
    (stageFails_cons (fun sl hsl => Option.isNone_eq_false_iff.mpr (hthere sl hsl)) ..) rfl

/-! ### MAC_FLUSH_PORT -/

/-- The places of a slice's table that a flush deletes. -/
def flushedPlaces (s : State) (p : List Byte) (k : Nat) : List Nat :=
  flushPlaces (sliceAt s k) (byteAt p 0) (bit (byteAt p 1) 0) 0 0x40000

/-- How each part of a flush of a whole range ends. -/
def wholeEnds (l : List Nat) : List (Nat × Nat × Nat) := l.map (fun k => (k, stOk, 0x40000))

theorem find_wholeEnds (l : List Nat) (k : Nat) :
    (wholeEnds l).find? (fun e => e.1 == k) = if k ∈ l then some (k, stOk, 0x40000) else none := by
  induction l with
  | nil => rfl
  | cons a l ih =>
    by_cases hk : a = k
    · simp [wholeEnds, hk]
    · have hk' : ¬ k = a := fun h => hk h.symm
      rw [wholeEnds, List.map_cons, List.find?_cons_of_neg (by simpa using hk), ← wholeEnds, ih]
      simp [hk']

/-- What a flush of a port deletes in a slice: nothing outside its mask. -/
def goneFrom (u : State) (h : CmdHeader) (p : List Byte) (k : Nat) : List Nat :=
  if k ∈ maskSlices h.slices then flushedPlaces u p k else []

theorem length_goneFrom (u : State) (h : CmdHeader) (p : List Byte) (k : Nat) :
    (goneFrom u h p k).length = if k ∈ maskSlices h.slices then (flushedPlaces u p k).length else 0 := by
  unfold goneFrom
  split <;> rfl

section
variable (hop : h.opcode = 0x0505) (hres : h.resume = false)
include hop

theorem fanParts_macFlush : fanParts h = maskSlices h.slices := by simp [fanParts, hop]

include hres

theorem fanRuns_macFlush (p : List Byte) {k : Nat} (hk : k ∈ maskSlices h.slices) : fanRuns h p k = true := by
  simp [fanRuns, fanParts_macFlush hop, hres, hk]

theorem fanStart_macFlush (p : List Byte) (k : Nat) : fanStart h p k = 0 := by
  simp [fanStart, fanRange, hop, hres]

theorem fanEnds_macFlush (p : List Byte) : fanEnds h p [] false 1024 = wholeEnds (maskSlices h.slices) := by
  rw [fanEnds, fanParts_macFlush hop, wholeEnds]
  refine List.map_congr_left fun k hk => ?_
  rw [if_pos (fanRuns_macFlush hop hres p hk)]
  simp [partEnd, fanRange, hop]

end

/-- A flush that nothing stops deletes a port's entries in every slice of its mask, and answers how many. -/
theorem macFlushPort_answers (H : RunsAlone s 0x0505 h p 2 true) (hres : h.resume = false) :
    let u := stationsRead s h []
    ∃ t, macFlushPort h p [] s = answered t h (.fan (wholeEnds (maskSlices h.slices))
        ((List.range 8).flatMap (fun k => le 4 (goneFrom u h p k).length))) ∧
      SlicesEdited (maskSlices h.slices) (fun k x => (goneFrom u h p k).foldl macErase x) u t := by
  intro u
  have hop := H.runs.opcode
  have hedit := SlicesEdited.foldl_modSlice u (fun k x => (goneFrom u h p k).foldl macErase x) (nodup_maskSlices h.slices)
  refine ⟨_, ?_, hedit⟩
  unfold macFlushPort
  refine runCommand_of_ringsKept H ?_ ((ringsKept_stationsRead ..).trans hedit.ringsKept) ?_
  · extract_lets v ends gone t
    have hv : v = u := by unfold v; rw [fanParts_macFlush hop]; rfl
    have hends : ends = wholeEnds (maskSlices h.slices) := fanEnds_macFlush hop hres p
    have hgone : gone = goneFrom u h p := by
      funext k
      unfold gone goneFrom
      rw [hends, hv, find_wholeEnds]
      by_cases hk : k ∈ maskSlices h.slices
      · simp only [if_pos hk, fanRuns_macFlush hop hres p hk, fanStart_macFlush hop hres, if_true]
        rfl
      · simp only [if_neg hk]
    unfold t
    rw [hends, hgone, hv, fanParts_macFlush hop]
  · simp [Answer.fan, length_partTable, List.length_flatMap]

end

/-! ### The clauses -/

/-- Settles O51: a draft edit that no slice fails edits each slice of its mask; tables are read as they stand; a station command
acts on the tables that the waiting learns and the lost entries leave. -/
theorem tableCommands : Obligations.TableCommands := by
  intro s h p mask edited
  refine ⟨fun hc => ⟨fun H hfree => ?_, fun H hfree => ?_, fun H hroom => ?_, fun H hthere => ?_, fun e he H hroom => ?_,
      fun H hthere => ?_, fun j hj imgs himgs H hroom => ?_, fun j hj imgs himgs target htarget H hroom => ?_,
      fun j hj byKey hk H hthere => ?_, fun vlan hv H hroom => ?_, fun table htab index hi img himg os H hq hd hos => ?_,
      fun e he H hnew hroom => congrArg Host.Outcome.next (pfxAdd_answers he hc H hnew hroom),
      fun i H hthere => ⟨_, congrArg Host.Outcome.next (pfxDel_answers hc H hthere), rfl⟩⟩,
    fun sl hmask => ⟨fun i hi H => ?_, fun ue u hu H i e hfind => ?_, fun ue u hu H => ?_⟩,
    fun table htab draft hdraft v hv index hi sl hsl H => ?_, fun v hv draft hdraft e H he => ?_,
    fun ue u hu => ⟨fun H hroom => ?_, fun H hthere => ?_, fun H hres hue => ?_⟩⟩
  -- Draft edits: the command's own lemma, read in each slice of the mask.
  · obtain ⟨t, ht, he⟩ := stepWrite_edits hc H hfree
    refine ⟨t, congrArg Host.Outcome.next ht, ⟨he.only, he.outside⟩, fun sl hsl => ?_⟩
    rw [he.inside sl hsl]
    exact ⟨⟨_, rfl⟩, stepEntry_indexedEdit p (sliceAt s sl)⟩
  · obtain ⟨t, ht, he⟩ := transWrite_edits hc H hfree
    refine ⟨t, congrArg Host.Outcome.next ht, ⟨he.only, he.outside⟩, fun sl hsl => ?_⟩
    rw [he.inside sl hsl]
    exact ⟨⟨_, rfl⟩, transEntry_indexedEdit p (sliceAt s sl)⟩
  · obtain ⟨t, ht, he⟩ := accmapAdd_edits hc H hroom
    exact ⟨t, congrArg Host.Outcome.next ht, ⟨he.only, he.outside⟩, he.inside⟩
  · obtain ⟨t, ht, he⟩ := accmapDel_edits hc H hthere
    refine ⟨t, congrArg Host.Outcome.next ht, ⟨he.only, he.outside⟩, fun sl hsl i hi => ?_⟩
    rw [he.inside sl hsl, hi]
  · obtain ⟨t, ht, hedit⟩ := patternAdd_edits hc he H hroom
    exact ⟨t, congrArg Host.Outcome.next ht, ⟨hedit.only, hedit.outside⟩, hedit.inside⟩
  · obtain ⟨t, ht, he⟩ := patternDel_edits hc H hthere
    refine ⟨t, congrArg Host.Outcome.next ht, ⟨he.only, he.outside⟩, fun sl hsl i hi => ?_⟩
    rw [he.inside sl hsl, hi]
  · subst hj himgs
    obtain ⟨t, ht, he⟩ := tcamAdd_edits hc H hroom
    refine ⟨t, congrArg Host.Outcome.next ht, ⟨he.only, he.outside⟩, fun sl hsl i hi => ?_⟩
    rw [he.inside sl hsl, hi]
  · subst hj himgs htarget
    obtain ⟨t, ht, he⟩ := tcamInsert_edits hc H hroom
    refine ⟨t, congrArg Host.Outcome.next ht, ⟨he.only, he.outside⟩, fun sl hsl moves place hplan => ?_⟩
    rw [he.inside sl hsl, planFor, hplan, insertedBy_of_plan]
  · subst hj hk
    obtain ⟨t, ht, he⟩ := tcamDelete_edits hc H hthere
    refine ⟨t, congrArg Host.Outcome.next ht, ⟨he.only, he.outside⟩, fun sl hsl i hi => ?_⟩
    rw [he.inside sl hsl, hi]
  · subst hv
    obtain ⟨t, ht, hedited⟩ := vlanWrite_edits hc H hroom
    exact ⟨t, congrArg Host.Outcome.next ht, hedited⟩
  · subst htab hi himg
    exact congrArg Host.Outcome.next (dtWrite_answers hc H hq hd hos)
  -- Reads of one slice and of the device's tables.
  · subst hi
    exact congrArg Host.Outcome.next (tcamRead_answers hmask H)
  · subst hu
    exact congrArg Host.Outcome.next (macSearch_answers hmask H hfind)
  · subst hu
    have hanswer := macNext_answers (ue := ue) hmask H
    refine ⟨fun hshort => ?_, fun e hlong he => ?_⟩
    · simp only [macCursor_of_short hshort] at hanswer
      exact congrArg Host.Outcome.next hanswer
    · simp only [macCursor_of_long hlong he] at hanswer
      exact congrArg Host.Outcome.next hanswer
  · subst htab hdraft hv hi hsl
    exact congrArg Host.Outcome.next (dtRead_answers H)
  · subst hv hdraft
    exact congrArg Host.Outcome.next (pfxLookup_answers H he)
  -- Changes of MAC tables, from the state that the waiting learns and the lost entries leave.
  · subst hu
    obtain ⟨t, ht, he⟩ := macStaticAdd_answers H hroom
    refine ⟨t, congrArg Host.Outcome.next ht, ⟨he.only, fun k => he.outside⟩, fun sl hsl i hi => ?_⟩
    rw [he.inside hsl]
    exact mac_withStatic hi
  · subst hu
    obtain ⟨t, ht, he⟩ := macStaticDel_answers H hthere
    refine ⟨t, congrArg Host.Outcome.next ht, ⟨he.only, fun k => he.outside⟩, fun sl hsl i hi => ?_⟩
    rw [he.inside hsl]
    change staticAt (sliceAt (stationsRead s h ue) sl) (macVlan p) (macStation p) = some i at hi
    simp only [hi]
    rfl
  · subst hu hue
    obtain ⟨t, ht, he⟩ := macFlushPort_answers H hres
    refine ⟨t, congrArg Host.Outcome.next ?_, ⟨he.only, fun k => he.outside⟩, fun sl hsl => ?_⟩
    · simp only [length_goneFrom] at ht
      exact ht
    · rw [he.inside hsl, goneFrom, if_pos hsl]
      rfl

end Sys2Proof.Machine
end

