-- ==== Sys2Proof/Proofs/GuardedRegisters.lean ====
section
/-! PROOF. Write-once registers, and registers whose block guards their writes (05/R142; 07/R238, R245; 15/R453, R455, R456). -/

namespace Sys2Proof.Machine

/-- A write that is not refused is made while the power domain of its offset is up. -/
theorem judge_domainUp {s : State} {req : Requester} {off : Nat} {r : RegName} {ix : List Nat}
    (h : judgeWrite s req off = .ok (r, ix)) : domainUp s off = true := by
  cases hup : domainUp s off with
  | true => rfl
  | false => simp [judgeWrite, hup] at h

theorem domainUp_of_kept {s t : State} (hpower : t.power = s.power) (hrim : t.rim = s.rim) (off : Nat) :
    domainUp t off = domainUp s off := by
  rw [domainUp, domainUp, running, running, hpower, hrim]

/-- PF0 of either port and the Rim may use every field. -/
theorem permits_of_privileged (w : Who) {n : Nat} (hn : n = 0 ∨ n = 2 ∨ n = 4) : w.permits n = true := by
  cases w with
  | any => rfl
  | priv => simpa [Who.permits, or_assoc] using hn

/-- A write-once register that has taken its write refuses those who may write it as LOCKED. -/
theorem judgeWrite_of_taken {s : State} {q : Requester} {off : Nat} {r : RegName} {ix : List Nat}
    (hup : domainUp s off = true) (hloc : locate off = some (r, ix))
    (honce : r.desc.fields.any (fun f => f.access == .w1o) = true) (htaken : (regCell s r ix).taken = true)
    (howner : ownerCheck s r ix q.id = true) (hq : q.id = 0 ∨ q.id = 2 ∨ q.id = 4) :
    judgeWrite s q off = .error 5 := by
  obtain ⟨f, hf, hw1o⟩ := List.any_eq_true.mp honce
  have htakes : f ∈ r.desc.fields.filter RField.takesWrite :=
    List.mem_filter.mpr ⟨hf, by simp [RField.takesWrite, RField.writable, hw1o]⟩
  have hsome : (r.desc.fields.filter RField.takesWrite).isEmpty = false :=
    List.isEmpty_eq_false_iff_exists_mem.mpr ⟨f, htakes⟩
  have hmay : (r.desc.fields.filter RField.takesWrite).any (fun f => f.who.permits q.id) = true :=
    List.any_eq_true.mpr ⟨f, htakes, permits_of_privileged f.who hq⟩
  have hlocked : locked s r ix = true := by simp [locked, honce, htaken]
  simp [judgeWrite, hup, hloc, hsome, hmay, howner, hlocked]

@[simp] theorem regCell_writeOnce_same (s : State) (r : RegName) (ix : List Nat) (v : Nat) :
    regCell (writeOnce s r ix v) r ix = shadowed r.desc (regCell s r ix) (BitVec.ofNat 32 v) := by
  simp [writeOnce, shadowed]

theorem shadowed_boardId (c : RegCell) (v : Word) : shadowed (RegName.desc .boardId) c v = ⟨v, v, true⟩ := by
  have hwritable : maskOf (RegName.desc .boardId).fields RField.writable = BitVec.allOnes 32 := by decide +kernel
  have hnow : maskOf (RegName.desc .boardId).fields
      (fun f => f.writable && (f.applies == .now || f.applies == .packet)) = BitVec.allOnes 32 := by decide +kernel
  simp only [shadowed, hwritable, hnow, BitVec.and_allOnes, BitVec.not_allOnes, BitVec.and_zero, BitVec.or_zero]

/-- GLB_LOCK takes its first write, and from then on refuses every one. -/
theorem glbLockWrite_once {s : State} {req : Requester} {v : Nat}
    (h : Reaches s req (RegName.addr .glbLock []) .glbLock []) :
    ∃ t, exec (.glbLockWrite req (RegName.addr .glbLock []) v) s = .next t ∧
      (regCell t .glbLock []).written = (shadowed (RegName.desc .glbLock) (regCell s .glbLock []) (BitVec.ofNat 32 v)).written ∧
      ∀ q : Requester, (q.id = 0 ∨ q.id = 2 ∨ q.id = 4) → judgeWrite t q (RegName.addr .glbLock []) = .error 5 := by
  refine ⟨writeOnce s .glbLock [] v, congrArg Host.Outcome.next (guarded_ok h (by decide)), ?_, fun q hq => ?_⟩
  · rw [regCell_writeOnce_same]
  · refine judgeWrite_of_taken ?_ (judge_locate h) (by decide) (by rw [regCell_writeOnce_same]; rfl) rfl hq
    rw [domainUp_of_kept (writeOnce_power ..) (writeOnce_rim ..), judge_domainUp h]

/-- A half of BOARD_ID takes its first write, which is logged, and from then on refuses every one. -/
theorem boardIdWrite_once {s : State} {req : Requester} {v w : Nat}
    (h : Reaches s req (RegName.addr .boardId [w]) .boardId [w]) :
    ∃ t regs log fresh, exec (.boardIdWrite req (RegName.addr .boardId [w]) v) s = .next t ∧
      t = { s with regs := regs, log := log, fresh := fresh } ∧ lastWritten t .boardId [w] = v % 2 ^ 32 ∧
      ∀ q : Requester, (q.id = 0 ∨ q.id = 2 ∨ q.id = 4) → judgeWrite t q (RegName.addr .boardId [w]) = .error 5 := by
  have heq : guarded s req (RegName.addr .boardId [w]) [.boardId] (fun s _ ix => writeBoardId s req ix v) =
      writeBoardId s req [w] v := guarded_ok h (by decide)
  obtain ⟨l, n, hlog⟩ := rimLog_eq (writeOnce s .boardId [w] v) 0x44 false (le 4 (1 + w) ++ le 4 v ++ le 4 req.id)
  refine ⟨{ writeOnce s .boardId [w] v with log := l, fresh := n }, _, l, n,
    congrArg Host.Outcome.next (heq.trans hlog), rfl, ?_, fun q hq => ?_⟩
  · change (regCell (writeOnce s .boardId [w] v) .boardId [w]).written.toNat = _
    rw [regCell_writeOnce_same, shadowed_boardId, BitVec.toNat_ofNat]
  · have hup := (domainUp_of_kept (s := s) (t := { writeOnce s .boardId [w] v with log := l, fresh := n }) rfl rfl _).trans
      (judge_domainUp h)
    refine judgeWrite_of_taken hup (judge_locate h) (by decide) ?_ rfl hq
    change (regCell (writeOnce s .boardId [w] v) .boardId [w]).taken = true
    rw [regCell_writeOnce_same, shadowed_boardId]

/-- Settles O23: a write that reaches its register has the effect its row gives it, and a write-once register is locked by
its first write. -/
theorem guardedWrites : Obligations.GuardedWrites := by
  intro s req v
  refine ⟨glbLockWrite_once, fun w _ => boardIdWrite_once, fun sl b _ _ h => ?_, fun ix h => ?_, fun ix h => ?_⟩
  · change Host.Outcome.next (guarded ..) = _
    rw [guarded_ok h (by decide)]
    rfl
  · change Host.Outcome.next (guarded ..) = _
    rw [guarded_ok h (by decide)]
    rfl
  · change Host.Outcome.next (guarded ..) = _
    rw [guarded_ok h (by decide)]
    rfl

end Sys2Proof.Machine
end

