-- ==== Sys2Proof/Proofs/WindowReads.lean ====
section
/-! PROOF. A read of an indirect window fills its data registers and ends with RESULT 0 (15/R461–R464; 04/R135; 05/R154;
08/R279, R282; 09/R293; 18/R524). -/

namespace Sys2Proof.Machine

/-! ### Words forced into registers -/

/-- From one state to another only registers change. -/
def RegsOnly (s t : State) : Prop := ∃ regs, t = { s with regs := regs }

theorem RegsOnly.refl (s : State) : RegsOnly s s := ⟨_, rfl⟩

theorem RegsOnly.trans {s t u : State} (a : RegsOnly s t) (b : RegsOnly t u) : RegsOnly s u := by
  obtain ⟨_, rfl⟩ := a
  obtain ⟨regs, rfl⟩ := b
  exact ⟨regs, rfl⟩

theorem RegsOnly.landWrite (s : State) (r : RegName) (ix : List Nat) (v : Nat) : RegsOnly s (landWrite s r ix v) := ⟨_, rfl⟩

theorem RegsOnly.forceReg (s : State) (r : RegName) (ix : List Nat) (v : Nat) : RegsOnly s (forceReg s r ix v) := ⟨_, rfl⟩

theorem RegsOnly.forceFld (s : State) (r : RegName) (ix : List Nat) (hi lo v : Nat) : RegsOnly s (forceFld s r ix hi lo v) :=
  ⟨_, rfl⟩

theorem fld_landWrite_ne (s : State) (r : RegName) (ix : List Nat) (v : Nat) (q : RegName) (jx : List Nat) (hi lo : Nat)
    (h : q.addr jx ≠ r.addr ix) : fld (landWrite s r ix v) q jx hi lo = fld s q jx hi lo := by
  rw [fld, inForce_landWrite_ne s r ix v q jx h, fld]

theorem inForce_forceFld_ne (s : State) (r : RegName) (ix : List Nat) (hi lo v : Nat) (q : RegName) (jx : List Nat)
    (h : q.addr jx ≠ r.addr ix) : inForce (forceFld s r ix hi lo v) q jx = inForce s q jx :=
  inForce_forceReg_ne s r ix _ q jx h

/-- RESULT as just set. -/
theorem fld_result (s : State) (r : RegName) (ix : List Nat) (v : Nat) : fld (forceFld s r ix 23 20 v) r ix 23 20 = v % 16 := by
  rw [fld, forceFld, inForce_forceReg_same]
  exact bits_withBits _ _

/-- A change of bits 9:0 leaves RESULT. -/
theorem fld_result_forceFld_low (s : State) (r : RegName) (ix : List Nat) (v : Nat) :
    fld (forceFld s r ix 9 0 v) r ix 23 20 = fld s r ix 23 20 := by
  have hword : inForce s r ix < 2 ^ 32 := (regCell s r ix).force.isLt
  rw [fld, forceFld, inForce_forceReg_same, fld]
  simp only [bits, withBits, at_]
  omega

section
variable {r : RegName} {ix : Nat → List Nat} {a : Nat} (h : ∀ k, r.addr (ix k) = a + 4 * k)

/-- Words forced one after another into consecutive registers. -/
def forceWords (s : State) (r : RegName) (ix : Nat → List Nat) (w : Nat → Nat) (n : Nat) : State :=
  (List.range n).foldl (fun s k => forceReg s r (ix k) (w k)) s

theorem forceWords_succ (s : State) (w : Nat → Nat) (n : Nat) :
    forceWords s r ix w (n + 1) = forceReg (forceWords s r ix w n) r (ix n) (w n) := by
  simp only [forceWords, List.range_succ, List.foldl_append, List.foldl_cons, List.foldl_nil]

theorem RegsOnly.forceWords (s : State) (r : RegName) (ix : Nat → List Nat) (w : Nat → Nat) (n : Nat) :
    RegsOnly s (forceWords s r ix w n) := by
  induction n with
  | zero => exact .refl s
  | succ n ih => rw [forceWords_succ]; exact ih.trans (.forceReg ..)

include h

theorem inForce_forceWords_same (s : State) (w : Nat → Nat) {n k : Nat} (hk : k < n) :
    inForce (forceWords s r ix w n) r (ix k) = w k % 2 ^ 32 := by
  induction n with
  | zero => exact absurd hk (Nat.not_lt_zero k)
  | succ n ih =>
    rw [forceWords_succ]
    by_cases hkn : k = n
    · rw [hkn, inForce_forceReg_same]
    · rw [inForce_forceReg_ne _ _ _ _ _ _ (by rw [h, h]; omega), ih (by omega)]

end

/-! ### The end of a window's read -/

/-- A window's read ends: RESULT 0, and the address moves on with AUTO_INC. -/
def windowDone (s : State) (ctl adr : RegName) (ix : List Nat) (hi next : Nat) (inc : Bool) : State :=
  if inc then forceFld (forceFld s ctl ix 23 20 0) adr ix hi 0 next else forceFld s ctl ix 23 20 0

theorem RegsOnly.windowDone (s : State) (ctl adr : RegName) (ix : List Nat) (hi next : Nat) (inc : Bool) :
    RegsOnly s (windowDone s ctl adr ix hi next inc) := by
  unfold Machine.windowDone
  split
  · exact (RegsOnly.forceFld ..).trans (.forceFld ..)
  · exact .forceFld ..

theorem fld_windowDone (s : State) {ctl adr : RegName} {ix : List Nat} (hi next : Nat) (inc : Bool)
    (h : ctl.addr ix ≠ adr.addr ix) : fld (windowDone s ctl adr ix hi next inc) ctl ix 23 20 = 0 := by
  unfold windowDone
  split
  · rw [fld, inForce_forceFld_ne _ _ _ _ _ _ _ _ h]
    exact fld_result s ctl ix 0
  · exact fld_result s ctl ix 0

theorem inForce_windowDone (s : State) {ctl adr : RegName} {ix : List Nat} (hi next : Nat) (inc : Bool) {q : RegName}
    {jx : List Nat} (hctl : q.addr jx ≠ ctl.addr ix) (hadr : q.addr jx ≠ adr.addr ix) :
    inForce (windowDone s ctl adr ix hi next inc) q jx = inForce s q jx := by
  unfold windowDone
  split
  · rw [inForce_forceFld_ne _ _ _ _ _ _ _ _ hadr, inForce_forceFld_ne _ _ _ _ _ _ _ _ hctl]
  · rw [inForce_forceFld_ne _ _ _ _ _ _ _ _ hctl]

/-- A command that ends a window's read: only registers changed, RESULT is 0, and the data registers stand as filled. -/
theorem windowDone_answers {s u : State} {c : Instr} {ctl adr : RegName} {ix : List Nat} {hi next : Nat} {inc : Bool}
    (hexec : exec c s = .next (windowDone u ctl adr ix hi next inc)) (hu : RegsOnly s u)
    (hne : ctl.addr ix ≠ adr.addr ix) :
    ∃ t regs, exec c s = .next t ∧ t = { s with regs := regs } ∧ fld t ctl ix 23 20 = 0 ∧
      ∀ (q : RegName) (jx : List Nat), q.addr jx ≠ ctl.addr ix → q.addr jx ≠ adr.addr ix → inForce t q jx = inForce u q jx := by
  obtain ⟨regs, honly⟩ := hu.trans (.windowDone u ctl adr ix hi next inc)
  exact ⟨_, regs, hexec, honly, fld_windowDone _ _ _ _ hne, fun q jx hctl hadr => inForce_windowDone _ _ _ _ hctl hadr⟩

/-- A command whose window's read forced consecutive data registers. -/
theorem windowRead_answers {s : State} {c : Instr} {ctl adr r : RegName} {ix : List Nat} {jx : Nat → List Nat} {a : Nat}
    {w : Nat → Nat} {v n hi next : Nat} {inc : Bool}
    (hexec : exec c s = .next (windowDone (forceWords (landWrite s ctl ix v) r jx w n) ctl adr ix hi next inc))
    (h : ∀ k, r.addr (jx k) = a + 4 * k) (hadr : adr.addr ix < a) (hctl : ctl.addr ix < a)
    (hne : ctl.addr ix ≠ adr.addr ix) :
    ∃ t regs, exec c s = .next t ∧ t = { s with regs := regs } ∧ fld t ctl ix 23 20 = 0 ∧
      ∀ k, k < n → inForce t r (jx k) = w k % 2 ^ 32 := by
  obtain ⟨t, regs, hnext, honly, hresult, hkept⟩ :=
    windowDone_answers hexec ((RegsOnly.landWrite ..).trans (.forceWords ..)) hne
  refine ⟨t, regs, hnext, honly, hresult, fun k hk => ?_⟩
  rw [hkept _ _ (by rw [h]; omega) (by rw [h]; omega), inForce_forceWords_same h _ _ hk]

/-! ### Words of an entry -/

theorem unle_lt (l : List Byte) : unle l < 256 ^ l.length := by
  induction l with
  | nil => exact Nat.one_pos
  | cons b l ih =>
    have hb : b.toNat < 256 := b.isLt
    rw [unle, List.length_cons, Nat.pow_succ]
    omega

theorem length_slice (l : List Byte) (o n : Nat) : (slice l o n).length = n := by
  simp only [slice, List.length_append, List.length_replicate, List.length_take]
  omega

theorem leAt_lt (l : List Byte) (o n : Nat) : leAt l o n < 256 ^ n := by
  have h := unle_lt (slice l o n)
  rwa [length_slice] at h

/-- A word of a byte string fills its data register. -/
theorem getD_wordsOf (l : List Byte) {n k : Nat} (hk : k < n) : (wordsOf l n).getD k 0 % 2 ^ 32 = leAt l (4 * k) 4 := by
  have hword : leAt l (4 * k) 4 < 2 ^ 32 := leAt_lt l (4 * k) 4
  simp only [wordsOf, List.getD_eq_getElem?_getD, List.getElem?_map, List.getElem?_range hk, Option.map_some,
    Option.getD_some, Nat.mod_eq_of_lt hword]

theorem length_wordsOf (l : List Byte) (n : Nat) : (wordsOf l n).length = n := by
  rw [wordsOf, List.length_map, List.length_range]

theorem fillData_wordsOf (s : State) (r : RegName) (pre : List Nat) (l : List Byte) (n : Nat) :
    fillData s r pre (wordsOf l n) = forceWords s r (fun k => pre ++ [k]) (fun k => (wordsOf l n).getD k 0) n := by
  rw [fillData, length_wordsOf, forceWords]

/-! ### Where the windows' registers lie -/

theorem addr_prsIndAddr (sl : Nat) : RegName.addr .prsIndAddr [sl] = 0x1000030 + 0x200000 * sl := rfl
theorem addr_prsIndCtl (sl : Nat) : RegName.addr .prsIndCtl [sl] = 0x1000034 + 0x200000 * sl := rfl
theorem addr_prsIndData (sl k : Nat) : RegName.addr .prsIndData [sl, k] = 0x1000040 + (0x200000 * sl + 4 * k) := rfl
theorem addr_tcamIndAddr (sl : Nat) : RegName.addr .tcamIndAddr [sl] = 0x1020410 + 0x200000 * sl := rfl
theorem addr_tcamIndCtl (sl : Nat) : RegName.addr .tcamIndCtl [sl] = 0x1020414 + 0x200000 * sl := rfl
theorem addr_tcamIndData (sl k : Nat) : RegName.addr .tcamIndData [sl, k] = 0x1020480 + (0x200000 * sl + 4 * k) := rfl
theorem addr_gclIndCtl (a b : Nat) : RegName.addr .gclIndCtl [a, b] = 0x1060020 + (0x200000 * a + 0x40 * b) := rfl
theorem addr_gclIndData0 (a b : Nat) : RegName.addr .gclIndData0 [a, b] = 0x1060024 + (0x200000 * a + 0x40 * b) := rfl
theorem addr_gclIndData1 (a b : Nat) : RegName.addr .gclIndData1 [a, b] = 0x1060028 + (0x200000 * a + 0x40 * b) := rfl
theorem addr_laneIndAddr (l : Nat) : RegName.addr .laneIndAddr [l] = 0x3000040 + 0x1000 * l := rfl
theorem addr_laneIndCtl (l : Nat) : RegName.addr .laneIndCtl [l] = 0x3000044 + 0x1000 * l := rfl
theorem addr_laneIndData (l : Nat) : RegName.addr .laneIndData [l] = 0x3000048 + 0x1000 * l := rfl
theorem addr_totIndAddr : RegName.addr .totIndAddr [] = 0x600200 := rfl
theorem addr_totIndCtl : RegName.addr .totIndCtl [] = 0x600204 := rfl
theorem addr_totIndData (k : Nat) : RegName.addr .totIndData [k] = 0x600240 + 4 * k := rfl
theorem addr_hbmIndAddr : RegName.addr .hbmIndAddr [] = 0x2800040 := rfl
theorem addr_hbmIndCtl : RegName.addr .hbmIndCtl [] = 0x2800044 := rfl
theorem addr_polIndAddr : RegName.addr .polIndAddr [] = 0x9000 := rfl
theorem addr_polIndCtl : RegName.addr .polIndCtl [] = 0x9004 := rfl
theorem addr_polIndData (k : Nat) : RegName.addr .polIndData [k] = 0x9010 + 4 * k := rfl

/-! ### The windows -/

/-- A read of a step entry through the parse window. -/
theorem prsIndGo_reads {s : State} {req : Requester} {sl v : Nat} (hgo : bit v 31 = true) (hread : bit v 30 = false)
    (htarget : bits v 29 28 = 0) (hi : fld s .prsIndAddr [sl] 15 0 < 2048)
    (h : Reaches s req (RegName.addr .prsIndCtl [sl]) .prsIndCtl [sl]) :
    ∃ t regs, exec (.prsIndGo req (RegName.addr .prsIndCtl [sl]) v .ok) s = .next t ∧ t = { s with regs := regs } ∧
      fld t .prsIndCtl [sl] 23 20 = 0 ∧ ∀ k, k < 4 → inForce t .prsIndData [sl, k] =
        leAt (le 16 (stepImage (stepEntry (sliceAt s sl) (fld s .prsIndAddr [sl] 15 0)).image)) (4 * k) 4 := by
  have haddr : fld (landWrite s .prsIndCtl [sl] v) .prsIndAddr [sl] 15 0 = fld s .prsIndAddr [sl] 15 0 :=
    fld_landWrite_ne _ _ _ _ _ _ _ _ (by rw [addr_prsIndAddr, addr_prsIndCtl]; omega)
  generalize fld s .prsIndAddr [sl] 15 0 = i at haddr hi ⊢
  let words := wordsOf (le 16 (stepImage (stepEntry (sliceAt s sl) i).image)) 4
  let flags := at_ (stepEntry (sliceAt s sl) i).vis 3 0 + at_ (b2n (stepEntry (sliceAt s sl) i).draft) 4 4
  let u := forceWords (landWrite s .prsIndCtl [sl] v) .prsIndData (fun k => [sl, k]) (fun k => words.getD k 0) 4
  have hexec : exec (.prsIndGo req (RegName.addr .prsIndCtl [sl]) v .ok) s =
      .next (windowDone (forceReg u .prsIndData [sl, 11] flags) .prsIndCtl .prsIndAddr [sl] 15 (i + 1) (bit v 27)) := by
    change Host.Outcome.next (guarded ..) = _
    rw [guarded_ok h (by decide)]
    simp only [writePrsInd, hgo, hread, htarget, List.getD_cons_zero, haddr, prsRead, prsEntries, Nat.not_le.mpr hi,
      Bool.not_true, Bool.false_eq_true, if_false, reduceCtorEq, prsEntry, fillData_wordsOf, windowDone]
    rfl
  obtain ⟨t, regs, hnext, honly, hresult, hkept⟩ := windowDone_answers hexec
    (((RegsOnly.landWrite ..).trans (.forceWords ..)).trans (.forceReg ..))
    (by rw [addr_prsIndAddr, addr_prsIndCtl]; omega)
  refine ⟨t, regs, hnext, honly, hresult, fun k hk => ?_⟩
  rw [hkept _ _ (by rw [addr_prsIndData, addr_prsIndCtl]; omega) (by rw [addr_prsIndData, addr_prsIndAddr]; omega),
    inForce_forceReg_ne _ _ _ _ _ _ (by rw [addr_prsIndData, addr_prsIndData]; omega),
    inForce_forceWords_same (a := 0x1000040 + 0x200000 * sl) (fun k => by rw [addr_prsIndData]; omega) _ _ hk]
  exact getD_wordsOf _ hk

/-- A read of the ternary window. -/
theorem tcamIndGo_reads {s : State} {req : Requester} {sl v : Nat} (hgo : bit v 31 = true) (hread : bit v 30 = false)
    (h : Reaches s req (RegName.addr .tcamIndCtl [sl]) .tcamIndCtl [sl]) :
    ∃ t regs, exec (.tcamIndGo req (RegName.addr .tcamIndCtl [sl]) v .ok) s = .next t ∧ t = { s with regs := regs } ∧
      fld t .tcamIndCtl [sl] 23 20 = 0 ∧ ∀ k, k < 20 → inForce t .tcamIndData [sl, k] =
        leAt (le 80 (tcamAt (sliceAt s sl) (fld s .tcamIndAddr [sl] 14 0)).image) (4 * k) 4 := by
  have haddr : fld (landWrite s .tcamIndCtl [sl] v) .tcamIndAddr [sl] 14 0 = fld s .tcamIndAddr [sl] 14 0 :=
    fld_landWrite_ne _ _ _ _ _ _ _ _ (by rw [addr_tcamIndAddr, addr_tcamIndCtl]; omega)
  generalize fld s .tcamIndAddr [sl] 14 0 = i at haddr ⊢
  let words := wordsOf (le 80 (tcamAt (sliceAt s sl) i).image) 20
  have hexec : exec (.tcamIndGo req (RegName.addr .tcamIndCtl [sl]) v .ok) s =
      .next (windowDone (forceWords (landWrite s .tcamIndCtl [sl] v) .tcamIndData (fun k => [sl, k])
        (fun k => words.getD k 0) 20) .tcamIndCtl .tcamIndAddr [sl] 14 (i + 1) (bit v 29)) := by
    change Host.Outcome.next (guarded ..) = _
    rw [guarded_ok h (by decide)]
    simp only [writeTcamInd, hgo, hread, List.getD_cons_zero, haddr, tcamWindowRead, fillData_wordsOf, Bool.not_true,
      Bool.false_eq_true, if_false, reduceCtorEq, windowDone]
    rfl
  obtain ⟨t, regs, hnext, honly, hresult, hwords⟩ := windowRead_answers (a := 0x1020480 + 0x200000 * sl) hexec
    (fun k => by rw [addr_tcamIndData]; omega) (by rw [addr_tcamIndAddr]; omega) (by rw [addr_tcamIndCtl]; omega)
    (by rw [addr_tcamIndCtl, addr_tcamIndAddr]; omega)
  exact ⟨t, regs, hnext, honly, hresult, fun k hk => (hwords k hk).trans (getD_wordsOf _ hk)⟩

/-- A read of the totals window that finds its entry. -/
theorem totIndGo_reads {s : State} {req : Requester} {v : Nat} (hgo : bit v 31 = true)
    (h : Reaches s req (RegName.addr .totIndCtl []) .totIndCtl []) :
    let a := inForce s .totIndAddr []
    let r := totalsRead s (bits a 31 28) (bits a 27 26) (bits a 19 0) .ok
    r.1 = 0 → ∃ t regs, exec (.totIndGo req (RegName.addr .totIndCtl []) v .ok) s = .next t ∧ t = { s with regs := regs } ∧
      fld t .totIndCtl [] 23 20 = 0 ∧ ∀ k, k < 16 → inForce t .totIndData [k] = leAt r.2 (4 * k) 4 := by
  intro a r hfound
  have haddr : inForce (landWrite s .totIndCtl [] v) .totIndAddr [] = a :=
    inForce_landWrite_ne _ _ _ _ _ _ (by rw [addr_totIndAddr, addr_totIndCtl]; omega)
  have hread : totalsRead (landWrite s .totIndCtl [] v) (bits a 31 28) (bits a 27 26) (bits a 19 0) .ok = r := rfl
  have hexec : exec (.totIndGo req (RegName.addr .totIndCtl []) v .ok) s =
      .next (windowDone (forceWords (landWrite s .totIndCtl [] v) .totIndData (fun k => [k])
        (fun k => (wordsOf r.2 16).getD k 0) 16) .totIndCtl .totIndAddr [] 19 (bits a 19 0 + 1) (bit v 30)) := by
    change Host.Outcome.next (guarded ..) = _
    rw [guarded_ok h (by decide)]
    simp only [writeTotInd, hgo, haddr, hread, hfound, fillData_wordsOf, Bool.not_true, Bool.false_eq_true, if_false,
      true_or, if_true, windowDone]
    rfl
  obtain ⟨t, regs, hnext, honly, hresult, hwords⟩ := windowRead_answers hexec addr_totIndData
    (by rw [addr_totIndAddr]; omega) (by rw [addr_totIndCtl]; omega) (by rw [addr_totIndCtl, addr_totIndAddr]; omega)
  exact ⟨t, regs, hnext, honly, hresult, fun k hk => (hwords k hk).trans (getD_wordsOf _ hk)⟩

/-- A read of a gate-list entry. -/
theorem gclIndGo_reads {s : State} {req : Requester} {a b v : Nat} (hgo : bit v 31 = true) (hread : bit v 30 = false)
    (h : Reaches s req (RegName.addr .gclIndCtl [a, b]) .gclIndCtl [a, b]) :
    let g := (egAt s (a * 32 + b)).gate
    let w := tget 0 (if (if bit v 29 then g.oper else 1 - g.oper) = 0 then g.bank0 else g.bank1) (bits v 9 0)
    ∃ t regs, exec (.gclIndGo req (RegName.addr .gclIndCtl [a, b]) v .ok) s = .next t ∧ t = { s with regs := regs } ∧
      fld t .gclIndCtl [a, b] 23 20 = 0 ∧ inForce t .gclIndData0 [a, b] = w % 2 ^ 32 ∧
      inForce t .gclIndData1 [a, b] = w / 2 ^ 32 % 2 ^ 32 := by
  intro g w
  let u := forceFld (forceReg (forceReg (landWrite s .gclIndCtl [a, b] v) .gclIndData0 [a, b] (w % 2 ^ 32))
    .gclIndData1 [a, b] (w / 2 ^ 32)) .gclIndCtl [a, b] 23 20 0
  have hu : fld u .gclIndCtl [a, b] 23 20 = 0 ∧ inForce u .gclIndData0 [a, b] = w % 2 ^ 32 ∧
      inForce u .gclIndData1 [a, b] = w / 2 ^ 32 % 2 ^ 32 := by
    refine ⟨fld_result .., ?_, ?_⟩
    · rw [inForce_forceFld_ne _ _ _ _ _ _ _ _ (by rw [addr_gclIndData0, addr_gclIndCtl]; omega),
        inForce_forceReg_ne _ _ _ _ _ _ (by rw [addr_gclIndData0, addr_gclIndData1]; omega), inForce_forceReg_same,
        Nat.mod_mod]
    · rw [inForce_forceFld_ne _ _ _ _ _ _ _ _ (by rw [addr_gclIndData1, addr_gclIndCtl]; omega), inForce_forceReg_same]
  have hexec : exec (.gclIndGo req (RegName.addr .gclIndCtl [a, b]) v .ok) s =
      .next (if bit v 28 then forceFld u .gclIndCtl [a, b] 9 0 (bits v 9 0 + 1) else u) := by
    change Host.Outcome.next (guarded ..) = _
    rw [guarded_ok h (by decide)]
    simp only [writeGclInd, hgo, hread, Bool.false_eq_true, if_false, if_true]
    rfl
  obtain ⟨hresult, hlow, hhigh⟩ := hu
  rw [hexec]
  split
  · refine ⟨_, _, rfl, rfl, ?_, ?_, ?_⟩
    · rw [fld_result_forceFld_low, hresult]
    · rw [inForce_forceFld_ne _ _ _ _ _ _ _ _ (by rw [addr_gclIndData0, addr_gclIndCtl]; omega), hlow]
    · rw [inForce_forceFld_ne _ _ _ _ _ _ _ _ (by rw [addr_gclIndData1, addr_gclIndCtl]; omega), hhigh]
  · exact ⟨u, _, rfl, rfl, hresult, hlow, hhigh⟩

/-- A read of a policer's image. -/
theorem polIndGo_reads {s : State} {req : Requester} {v : Nat} (hgo : bit v 31 = true) (hread : bit v 30 = false)
    (h : Reaches s req (RegName.addr .polIndCtl []) .polIndCtl []) :
    let x := polAt s (fld s .polIndAddr [] 17 0)
    let ws := (if x.on then x.update s.time.tick else x).words
    ∃ t regs, exec (.polIndGo req (RegName.addr .polIndCtl []) v .ok) s = .next t ∧ t = { s with regs := regs } ∧
      fld t .polIndCtl [] 23 20 = 0 ∧ ∀ k, k < 8 → inForce t .polIndData [k] = ws.getD k 0 % 2 ^ 32 := by
  intro x ws
  have haddr : fld (landWrite s .polIndCtl [] v) .polIndAddr [] 17 0 = fld s .polIndAddr [] 17 0 :=
    fld_landWrite_ne _ _ _ _ _ _ _ _ (by rw [addr_polIndAddr, addr_polIndCtl]; omega)
  have hexec : exec (.polIndGo req (RegName.addr .polIndCtl []) v .ok) s =
      .next (windowDone (forceWords (landWrite s .polIndCtl [] v) .polIndData (fun k => [k]) (fun k => ws.getD k 0) 8)
        .polIndCtl .polIndAddr [] 17 (fld s .polIndAddr [] 17 0 + 1) (bit v 29)) := by
    change Host.Outcome.next (guarded ..) = _
    rw [guarded_ok h (by decide)]
    simp only [writePolInd, hgo, hread, haddr, Bool.false_eq_true, if_false, if_true, reduceCtorEq, windowDone]
    rfl
  exact windowRead_answers hexec addr_polIndData (by rw [addr_polIndAddr]; omega) (by rw [addr_polIndCtl]; omega)
    (by rw [addr_polIndCtl, addr_polIndAddr]; omega)

/-- A read of a lane's setting. -/
theorem laneIndGo_reads {s : State} {req : Requester} {l v : Nat} (hgo : bit v 31 = true) (hread : bit v 30 = false)
    (h : Reaches s req (RegName.addr .laneIndCtl [l]) .laneIndCtl [l]) :
    let target := fld s .laneIndAddr [l] 31 28
    let i := fld s .laneIndAddr [l] 7 0
    ((target = 0 ∧ i < 5) ∨ (target = 1 ∧ i = 0) ∨ target = 2 ∨ target = 3) →
    ∃ t regs, exec (.laneIndGo req (RegName.addr .laneIndCtl [l]) v) s = .next t ∧ t = { s with regs := regs } ∧
      fld t .laneIndCtl [l] 23 20 = 0 ∧
      inForce t .laneIndData [l] = tget 0 (laneAt s l).settings (target * 256 + i) % 65536 := by
  intro target i hthere
  have haddr : inForce (landWrite s .laneIndCtl [l] v) .laneIndAddr [l] = inForce s .laneIndAddr [l] :=
    inForce_landWrite_ne _ _ _ _ _ _ (by rw [addr_laneIndAddr, addr_laneIndCtl]; omega)
  have hok : laneIndexOk target i = true ∧ target ≠ 4 := by
    rcases hthere with ⟨h0, hi⟩ | ⟨h1, hi⟩ | h2 | h3
    · simp [laneIndexOk, h0, hi]
    · simp [laneIndexOk, h1, hi]
    · simp [laneIndexOk, h2]
    · simp [laneIndexOk, h3]
  obtain ⟨hindex, hrow⟩ := hok
  let w := tget 0 (laneAt s l).settings (target * 256 + i)
  have hexec : exec (.laneIndGo req (RegName.addr .laneIndCtl [l]) v) s =
      .next (windowDone (forceReg (landWrite s .laneIndCtl [l] v) .laneIndData [l] (w % 65536))
        .laneIndCtl .laneIndAddr [l] 7 (i + 1) (bit v 29)) := by
    change Host.Outcome.next (guarded ..) = _
    rw [guarded_ok h (by decide)]
    simp only [writeLaneInd, hgo, hread, haddr, Bool.not_true, Bool.false_eq_true, if_false, windowDone]
    change laneIndexOk (bits (inForce s .laneIndAddr [l]) 31 28) (bits (inForce s .laneIndAddr [l]) 7 0) = true at hindex
    change bits (inForce s .laneIndAddr [l]) 31 28 ≠ 4 at hrow
    simp only [hindex, hrow, Bool.not_true, Bool.false_eq_true, if_false]
    rfl
  obtain ⟨t, regs, hnext, honly, hresult, hkept⟩ := windowDone_answers hexec
    ((RegsOnly.landWrite ..).trans (.forceReg ..)) (by rw [addr_laneIndAddr, addr_laneIndCtl]; omega)
  refine ⟨t, regs, hnext, honly, hresult, ?_⟩
  rw [hkept _ _ (by rw [addr_laneIndData, addr_laneIndCtl]; omega) (by rw [addr_laneIndData, addr_laneIndAddr]; omega),
    inForce_forceReg_same]
  exact Nat.mod_eq_of_lt (Nat.lt_trans (Nat.mod_lt _ (by omega)) (by omega))

/-- The window shows what a line holds, a free value where it has no contents, and its address moves on with AUTO_INC. -/
def lineRead (s : State) (line : Option (List Byte)) (next : Nat) (inc : Bool) : State :=
  let t := match line with
    | some d => hbmWindow s d 0 false
    | none => hbmWindow (drawFree s).2 (le 64 (drawFree s).1) 0 false
  if inc then forceFld t .hbmIndAddr [] 22 0 next else t

theorem lineRead_facts (s : State) (line : Option (List Byte)) (next : Nat) (inc : Bool) :
    ∃ regs hbm fresh, lineRead s line next inc = { s with regs := regs, hbm := hbm, fresh := fresh } ∧
      (lineRead s line next inc).hbm.result = 0 ∧ (lineRead s line next inc).hbm.corrected = false ∧
      ∀ d, line = some d → (lineRead s line next inc).hbm.window = d := by
  cases line <;> cases inc
  all_goals exact ⟨_, _, _, rfl, rfl, rfl, by simp [lineRead, hbmWindow]⟩

/-- A read of an HBM line that its pseudo-channel serves: the line's bytes where it has contents. -/
theorem hbmIndGo_reads {s : State} {req : Requester} {v : Nat} (hgo : bit v 31 = true)
    (h : Reaches s req (RegName.addr .hbmIndCtl []) .hbmIndCtl []) :
    let a := inForce s .hbmIndAddr []
    bits a 22 0 < 6291456 → pcServes s (bits a 29 23) = true →
    ∃ t regs hbm fresh, exec (.hbmIndGo req (RegName.addr .hbmIndCtl []) v .ok) s = .next t ∧
      t = { s with regs := regs, hbm := hbm, fresh := fresh } ∧ t.hbm.result = 0 ∧ t.hbm.corrected = false ∧
      ∀ d, hbmLine s (bits a 29 23) (bits a 22 0) = some d → t.hbm.window = d := by
  intro a hline hserves
  have haddr : inForce (landWrite s .hbmIndCtl [] v) .hbmIndAddr [] = a :=
    inForce_landWrite_ne _ _ _ _ _ _ (by rw [addr_hbmIndAddr, addr_hbmIndCtl]; omega)
  have hexec : exec (.hbmIndGo req (RegName.addr .hbmIndCtl []) v .ok) s =
      .next (lineRead (landWrite s .hbmIndCtl [] v) (hbmLine s (bits a 29 23) (bits a 22 0)) (bits a 22 0 + 1) (bit v 30)) := by
    have hsame : hbmLine (landWrite s .hbmIndCtl [] v) (bits a 29 23) (bits a 22 0) =
        hbmLine s (bits a 29 23) (bits a 22 0) := rfl
    have hbelow : decide (pcLines ≤ bits a 22 0) = false := decide_eq_false (Nat.not_le.mpr hline)
    change Host.Outcome.next (guarded ..) = _
    rw [guarded_ok h (by decide)]
    simp only [writeHbmInd, hgo, haddr, hbelow, show pcServes (landWrite s .hbmIndCtl [] v) (bits a 29 23) = true from hserves,
      hsame, Bool.not_true, Bool.or_false, Bool.false_eq_true, if_false, reduceCtorEq, lineRead]
    cases hbmLine s (bits a 29 23) (bits a 22 0) with
    | some d => rfl
    | none => rfl
  obtain ⟨regs, hbm, fresh, honly, hresult, hcorrected, hwindow⟩ := lineRead_facts (landWrite s .hbmIndCtl [] v)
    (hbmLine s (bits a 29 23) (bits a 22 0)) (bits a 22 0 + 1) (bit v 30)
  exact ⟨_, regs, hbm, fresh, hexec, honly, hresult, hcorrected, hwindow⟩

/-- Settles O19: each window's read, one after another. -/
theorem windowReads : Obligations.WindowReads := by
  intro s req v hgo
  refine ⟨fun sl _ hread h htarget hi => prsIndGo_reads hgo hread htarget hi h,
    fun sl _ hread h => tcamIndGo_reads hgo hread h, fun h => totIndGo_reads hgo h,
    fun a b _ _ hread h => gclIndGo_reads hgo hread h, fun hread h => polIndGo_reads hgo hread h,
    fun l _ hread h => laneIndGo_reads hgo hread h, fun h => hbmIndGo_reads hgo h⟩

end Sys2Proof.Machine
end

