-- ==== Sys2Proof/Proofs/StationsAndScrub.lean ====
section
/-! PROOF. The learn engine, the aging pass and the scrub of a slice (05/R151, R152, R175–R177). -/

namespace Sys2Proof.Machine

theorem sliceAt_setSlice (s : State) (sl k : Nat) (x : SliceState) :
    sliceAt (setSlice s sl x) k = if k = sl then x else sliceAt s k := tget_tins ..

@[simp] theorem sliceAt_setSlice_same (s : State) (sl : Nat) (x : SliceState) : sliceAt (setSlice s sl x) sl = x :=
  tget_tins_same ..

@[simp] theorem setSlice_setSlice (s : State) (sl : Nat) (x y : SliceState) :
    setSlice (setSlice s sl x) sl y = setSlice s sl y := by
  simp only [setSlice, tins_tins_same]

/-! ### Learns -/

/-- From one state to another a learn is noted: counters, events and the slice's learning window change, not its stations,
nor the learns that wait, nor another slice. -/
structure LearnNoted (sl : Nat) (s t : State) : Prop where
  only : ∃ out regs counters host slices,
    t = { s with out := out, regs := regs, counters := counters, host := host, slices := slices }
  others : ∀ k, k ≠ sl → sliceAt t k = sliceAt s k
  queue : (sliceAt t sl).macQueue = (sliceAt s sl).macQueue
  mac : (sliceAt t sl).mac = (sliceAt s sl).mac

namespace LearnNoted

variable {sl : Nat} {s t u : State}

theorem trans (a : LearnNoted sl s t) (b : LearnNoted sl t u) : LearnNoted sl s u := by
  obtain ⟨out, regs, counters, host, slices, hu⟩ := b.only
  obtain ⟨_, _, _, _, _, ht⟩ := a.only
  exact ⟨⟨out, regs, counters, host, slices, by rw [hu, ht]⟩, fun k hk => (b.others k hk).trans (a.others k hk),
    b.queue.trans a.queue, b.mac.trans a.mac⟩

theorem cntSl (s : State) (sl num : Nat) : LearnNoted sl s (cntSl s sl num) := by
  obtain ⟨c, h⟩ := bump_eq s (sl + 1) num 1
  rw [Machine.cntSl, h]
  exact ⟨⟨_, _, c, _, _, rfl⟩, fun _ _ => rfl, rfl, rfl⟩

theorem stationMove (s : State) (sl first : Nat) (l : MacLearn) : LearnNoted sl s (stationMove s sl first l) := by
  obtain ⟨host, out, h⟩ := postEvent_eq (raiseEv s .l2Event [sl] [1]) 2 (le 1 sl ++ le 1 first ++ le 1 l.port ++ zeros 1
    ++ le 2 l.vlan ++ be 6 l.mac ++ le 4 (macWindowNo s sl))
  rw [Machine.stationMove, h]
  exact ⟨⟨out, _, _, host, _, rfl⟩, fun _ _ => rfl, rfl, rfl⟩

theorem noteLearn (s : State) (sl : Nat) (l : MacLearn) : LearnNoted sl s (noteLearn s sl l) := by
  unfold Machine.noteLearn
  extract_lets w seen same t
  have hwindow : LearnNoted sl s t := by
    refine ⟨⟨_, _, _, _, _, rfl⟩, fun k hk => ?_, ?_, ?_⟩
    · exact (sliceAt_modSlice ..).trans (if_neg hk)
    all_goals simp only [t, sliceAt_modSlice_same]
  cases same with
  | none => exact hwindow
  | some first =>
    dsimp only
    split
    · exact hwindow
    · exact hwindow.trans (stationMove ..)

/-- A learn noted after the slice itself was given its new contents. -/
theorem after_setSlice {x : SliceState} (h : LearnNoted sl (setSlice s sl x) t) :
    (sliceAt t sl).macQueue = x.macQueue ∧
    (∃ out regs counters host slices,
      t = { s with out := out, regs := regs, counters := counters, host := host, slices := slices }) ∧
    (∀ k, k ≠ sl → sliceAt t k = sliceAt s k) ∧ (sliceAt t sl).mac = x.mac := by
  obtain ⟨out, regs, counters, host, slices, ht⟩ := h.only
  refine ⟨?_, ⟨out, regs, counters, host, slices, ht⟩, fun k hk => ?_, ?_⟩
  · rw [h.queue, sliceAt_setSlice_same]
  · rw [h.others k hk, sliceAt_setSlice, if_neg hk]
  · rw [h.mac, sliceAt_setSlice_same]

end LearnNoted

/-- The learn engine, with no entry lost, applies the oldest learn. -/
theorem l2Learn_of_queued {s : State} {sl : Nat} {l : MacLearn} {rest : List MacLearn}
    (h : (sliceAt s sl).macQueue = l :: rest) :
    l2Learn sl [] s = applyLearn (setSlice s sl { sliceAt s sl with macQueue := rest }) sl l := by
  simp only [l2Learn, List.foldl_nil, h, modSlice]

/-- A station that is new takes the free way, dynamic and with HIT. -/
theorem applyLearn_of_new {s : State} {sl pos : Nat} {x : SliceState} {l : MacLearn}
    (hnew : macFind x l.vlan l.mac = none) (hfree : macFreeWay x (macBucket l.vlan l.mac) = some pos) :
    ∃ y, y.macQueue = x.macQueue ∧ y.mac = tins x.mac pos ⟨l.vlan, l.mac, l.port, false, true⟩ ∧
      LearnNoted sl (setSlice s sl y) (applyLearn (setSlice s sl x) sl l) := by
  refine ⟨macCountAdd { x with mac := tins x.mac pos ⟨l.vlan, l.mac, l.port, false, true⟩ } l.port, rfl, rfl, ?_⟩
  simp only [applyLearn, sliceAt_setSlice_same, hnew, hfree, setSlice_setSlice]
  exact .noteLearn ..

/-- A known station keeps its entry when it is static, and gets the learn's port and HIT when it is dynamic. -/
theorem applyLearn_of_known {s : State} {sl pos : Nat} {x : SliceState} {l : MacLearn} {e : MacEntry}
    (hknown : macFind x l.vlan l.mac = some (pos, e)) :
    ∃ y, y.macQueue = x.macQueue ∧
      y.mac = (if e.static_ then x.mac else tins x.mac pos { e with port := l.port, hit := true }) ∧
      LearnNoted sl (setSlice s sl y) (applyLearn (setSlice s sl x) sl l) := by
  simp only [applyLearn, sliceAt_setSlice_same, hknown, setSlice_setSlice]
  split
  · exact ⟨x, rfl, rfl, ⟨_, _, _, _, _, rfl⟩, fun _ _ => rfl, rfl, rfl⟩
  · split
    · exact ⟨{ x with mac := tins x.mac pos { e with port := l.port, hit := true } }, rfl, rfl, .noteLearn ..⟩
    · exact ⟨macCountAdd (macCountSub { x with mac := tins x.mac pos { e with port := l.port, hit := true } } e.port)
        l.port, rfl, rfl, (LearnNoted.cntSl ..).trans (.noteLearn ..)⟩

/-! ### The aging pass -/

/-- What an aging pass keeps of a table: the static entries, and the dynamic ones with HIT, which lose it. -/
def agedMacs (m : Table MacEntry) : Table MacEntry :=
  (m.filter (fun e => e.2.static_ || e.2.hit)).map (fun e => (e.1, if e.2.static_ then e.2 else { e.2 with hit := false }))

theorem mem_agedMacs {m : Table MacEntry} {pos : Nat} {e : MacEntry} :
    (pos, e) ∈ agedMacs m ↔
      ∃ o, (pos, o) ∈ m ∧ (o.static_ = true ∨ o.hit = true) ∧ e = if o.static_ then o else { o with hit := false } := by
  simp only [agedMacs, List.mem_map, List.mem_filter, Bool.or_eq_true, Prod.exists, Prod.mk.injEq]
  constructor
  · rintro ⟨p, o, ⟨hmem, hkept⟩, rfl, rfl⟩
    exact ⟨o, hmem, hkept, rfl⟩
  · rintro ⟨o, hmem, hkept, rfl⟩
    exact ⟨pos, o, ⟨hmem, hkept⟩, rfl, rfl⟩

/-- A pass that is due, with aging on and no entry lost, ages the slice's table. -/
theorem l2AgingPass_of_due {s : State} {sl : Nat} (hon : fld s .l2Cfg [sl] 31 16 ≠ 0) (hdue : due s (3 + sl) = true) :
    l2AgingPass sl [] s = modSlice (acted s (3 + sl)) sl (fun x =>
      { x with mac := agedMacs x.mac, macCount := recountMacs (agedMacs x.mac) }) := by
  have hact : ¬(fld s .l2Cfg [sl] 31 16 = 0 ∨ ¬ due s (3 + sl)) := by simp [hon, hdue]
  simp only [l2AgingPass, List.foldl_nil, if_neg hact, agedMacs]

/-! ### The scrub -/

@[simp] theorem logUe_slices (s : State) (block addr cause : Nat) : (logUe s block addr cause).slices = s.slices := by
  obtain ⟨log, fresh, h⟩ := rimLog_eq s 0x25 false (le 4 block ++ le 4 addr ++ le 4 cause)
  rw [logUe, h]

@[simp] theorem logUe_regs (s : State) (block addr cause : Nat) : (logUe s block addr cause).regs = s.regs := by
  obtain ⟨log, fresh, h⟩ := rimLog_eq s 0x25 false (le 4 block ++ le 4 addr ++ le 4 cause)
  rw [logUe, h]

theorem tcamAt_setFault (x : SliceState) (i p : Nat) :
    tcamAt (setFault x i) p = if p = i then { tcamAt x p with fault := true } else tcamAt x p := by
  have hlisted : ({ tcamAt x i with fault := true } : TcamEntry) ≠ TcamEntry.free :=
    fun h => Bool.noConfusion (congrArg TcamEntry.fault h)
  rw [tcamAt, setFault, tput, if_neg hlisted, tget_tins]
  split
  · next h => rw [h]
  · rfl

/-- Marking both halves of a double place marks every entry of the place. -/
theorem tcamAt_setFault_halves (x : SliceState) (i p : Nat) :
    tcamAt (setFault (setFault x (i / 2 * 2)) (i / 2 * 2 + 1)) p =
      if p / 2 = i / 2 then { tcamAt x p with fault := true } else tcamAt x p := by
  have hhalf : p / 2 = i / 2 ↔ p = i / 2 * 2 + 1 ∨ p = i / 2 * 2 := by omega
  simp only [tcamAt_setFault, hhalf]
  by_cases hodd : p = i / 2 * 2 + 1
  · simp [hodd]
  · simp [hodd]

/-- FAULT set on the place of an entry. -/
def placeFaulted (s : State) (sl i : Nat) (x : SliceState) : SliceState :=
  if placeDouble s sl i then setFault (setFault x (placeHome s sl i)) (placeHome s sl i + 1)
  else setFault x (placeHome s sl i)

theorem tcamAt_placeFaulted (s : State) (sl i : Nat) (x : SliceState) (p : Nat) :
    tcamAt (placeFaulted s sl i x) p =
      if p = i ∨ (placeDouble s sl i = true ∧ p / 2 = i / 2) then { tcamAt x p with fault := true } else tcamAt x p := by
  cases hdouble : placeDouble s sl i with
  | false => simp [placeFaulted, placeHome, hdouble, tcamAt_setFault]
  | true =>
    have hplace : (p = i ∨ p / 2 = i / 2) ↔ p / 2 = i / 2 := by omega
    simp only [placeFaulted, placeHome, hdouble, if_true, tcamAt_setFault_halves, true_and, hplace]

theorem scrub_placeFaulted (s : State) (sl i : Nat) (x : SliceState) : (placeFaulted s sl i x).scrub = x.scrub := by
  unfold placeFaulted
  split <;> rfl

/-- A fault is noted in its slice, sets FAULT on the entry's place and raises TCAM_EVENT. -/
theorem tcamFault_facts (s : State) (sl j i : Nat) :
    sliceAt (tcamFault s sl j i) sl = placeFaulted s sl i
      { sliceAt s sl with tcamLastLookup := j, tcamLastFault := true, tcamLastPlace := placeHome s sl i } ∧
    eventAt (tcamFault s sl j i) (RegName.addr .tcamEvent [sl]) =
      (eventAt s (RegName.addr .tcamEvent [sl])).raise [2] := by
  constructor
  · have hnoted : sliceAt (logUe (tcamNote (raiseEv s .tcamEvent [sl] [2]) sl j (placeHome s sl i) true) 0x05
        (sl * 32768 + placeHome s sl i) 1) sl =
        { sliceAt s sl with tcamLastLookup := j, tcamLastFault := true, tcamLastPlace := placeHome s sl i } :=
      (congrArg (fun t => tget SliceState.reset t sl) (logUe_slices ..)).trans (sliceAt_modSlice_same ..)
    rw [tcamFault, sliceAt_modSlice_same, hnoted, placeFaulted]
  · rw [eventAt, tcamFault, modSlice_regs, logUe_regs]
    exact (eventAt_raiseEv s .tcamEvent [sl] [2] (RegName.addr .tcamEvent [sl])).trans (if_pos rfl)

/-- A scrub read that is uncorrectable moves on, and its place is faulty. -/
theorem tcamScrub_ue (s : State) (sl : Nat) :
    let u := setSlice s sl { sliceAt s sl with scrub := ((sliceAt s sl).scrub + 1) % 32768 }
    tcamScrub sl .ue s =
      tcamFault u sl (fld u .tcamBlk [sl, (sliceAt s sl).scrub / 1024] 3 0) (sliceAt s sl).scrub := rfl

/-- Settles O39: the learn's effect on the slice's table outlasts its noting; the other two are single edits of the slice. -/
theorem stationsAndScrub : Obligations.StationsAndScrub := by
  intro s sl x
  refine ⟨fun l rest hq => ⟨fun pos hnew hfree => ?_, fun pos e hknown => ?_⟩, fun hon hdue => ?_, rfl, ?_⟩
  · obtain ⟨y, hyq, hym, hy⟩ := applyLearn_of_new (s := s) (sl := sl) (x := { x with macQueue := rest }) hnew hfree
    obtain ⟨hqueue, honly, hothers, hmac⟩ := hy.after_setSlice
    exact ⟨_, congrArg Host.Outcome.next (l2Learn_of_queued hq), ⟨hqueue.trans hyq, honly, hothers⟩, hmac.trans hym⟩
  · obtain ⟨y, hyq, hym, hy⟩ := applyLearn_of_known (s := s) (sl := sl) (x := { x with macQueue := rest }) hknown
    obtain ⟨hqueue, honly, hothers, hmac⟩ := hy.after_setSlice
    exact ⟨_, congrArg Host.Outcome.next (l2Learn_of_queued hq), ⟨hqueue.trans hyq, honly, hothers⟩, hmac.trans hym⟩
  · refine ⟨_, _, _, congrArg Host.Outcome.next (l2AgingPass_of_due hon hdue), rfl, fun k hk => ?_, fun pos e => ?_⟩
    · rw [sliceAt_modSlice, if_neg hk]
      rfl
    · rw [sliceAt_modSlice_same]
      exact mem_agedMacs
  · obtain ⟨hslice, hevent⟩ := tcamFault_facts (setSlice s sl { x with scrub := (x.scrub + 1) % 32768 }) sl _ x.scrub
    rw [sliceAt_setSlice_same] at hslice
    refine ⟨_, congrArg Host.Outcome.next (tcamScrub_ue s sl), ?_, fun p => ?_, hevent⟩
    · rw [hslice, scrub_placeFaulted]
    · rw [hslice]
      exact tcamAt_placeFaulted ..

end Sys2Proof.Machine
end

