-- ==== Sys2Proof/Proofs/RedirectedMicrowords.lean ====
section
/-! PROOF. A fetch that a match register redirects goes on in patch RAM (13/R418), so a microword's successor is not always
the one after the address the engine stood at. -/

namespace Sys2Proof.Machine

/-- A branch on condition 1. -/
def branchOnOne : Nat := 0x18 * 2 ^ 27 + 2 ^ 22

/-- Engine 0 runs task 0xF005 from ROM address 0, which a match register redirects to the first word of patch RAM, a branch on
condition 1. -/
def redirectedEngine : State :=
  { State.reset with sched := { State.reset.sched with
      engines := setAt State.reset.sched.engines 0 { Engine.reset with item := some (taskItem State.reset 0xF005 1 []) }
      matches_ := [(0, 2 ^ 31)]
      patch := [(0, branchOnOne)] } }

theorem fixedParts_redirectedEngine : FixedParts redirectedEngine := by
  unfold FixedParts
  decide +kernel

theorem microAt_redirectedEngine :
    microAt redirectedEngine (engineAt redirectedEngine 0).uaddr = some (0x10000, branchOnOne) := by decide +kernel

/-- Where its condition does not hold, the branch goes on in patch RAM, at the word after it. -/
theorem uaddr_after_redirectedBranch :
    (engineAt (commandStepEnd 0 0 [⟨false, .ok⟩] false redirectedEngine) 0).uaddr = 0x10001 := by decide +kernel

/-- Refutes O54: the statement takes an engine past a branch not taken to the address after the one it stood at, also where a
match register redirected the fetch; execution then continues in patch RAM (R418). -/
theorem not_schedulerAndTasks : ¬ Obligations.SchedulerAndTasks := by
  intro h
  obtain ⟨-, -, hmicro, -⟩ := h redirectedEngine fixedParts_redirectedEngine rfl
  obtain ⟨-, hbranch, -⟩ := hmicro 0 0 false _ _ _ (by decide) rfl microAt_redirectedEngine
  obtain ⟨t, ht, -, hengine⟩ := hbranch (by decide)
  have hrun : commandStepEnd 0 0 [⟨false, .ok⟩] false redirectedEngine = t := Host.Outcome.next.inj ht
  have hstated : (engineAt t 0).uaddr = 1 := by rw [hengine]; decide +kernel
  rw [← hrun, uaddr_after_redirectedBranch] at hstated
  exact absurd hstated (by decide)

end Sys2Proof.Machine
end

