-- ==== Sys2Proof/Proofs/UncorrectableLines.lean ====
section
/-! SUPPORT. What an uncorrectable line of the HBM leaves of what answers commands (18/R517, R519; Table 18-7): its notices, and
the retirement of its pseudo-channel, move no ring's enable and nothing of the Rim, and all that they post is a task. -/

namespace Sys2Proof.Machine

/-! ### Notices -/

theorem ringsKept_rimLog (s : State) (type : Nat) (sec : Bool) (body : List Byte) : RingsKept s (rimLog s type sec body) := by
  obtain ⟨log, fresh, h⟩ := rimLog_eq s type sec body
  rw [h]
  exact .of_host rfl rfl rfl

theorem ringsKept_logUe (s : State) (block addr cause : Nat) : RingsKept s (logUe s block addr cause) := ringsKept_rimLog ..

theorem ringsKept_raiseEv (s : State) (r : RegName) (ix fs : List Nat) : RingsKept s (raiseEv s r ix fs) := .of_host rfl rfl rfl

theorem ringsKept_hbmEventPost (s : State) (kind pc arg value : Nat) : RingsKept s (hbmEventPost s kind pc arg value) :=
  RingsKept.trans (t := forceReg s .hbmLast [] (at_ pc 30 24 + at_ kind 23 20)) (.of_host rfl rfl rfl)
    (ringsKept_postEvent ..)

theorem ringsKept_natLostNotice (s : State) (pc : Nat) : RingsKept s (natLostNotice s pc) :=
  (ringsKept_raiseEv ..).trans (ringsKept_postEvent ..)

/-! ### Gaps -/

theorem ringsKept_withLid (s : State) (lid : LidState) : RingsKept s { s with lid := lid } := .of_host rfl rfl rfl

theorem ringsKept_gapNotice (s : State) (seq kind arg n : Nat) : RingsKept s (gapNotice s seq kind arg n) :=
  ((ringsKept_raiseEv ..).trans (ringsKept_rimLog ..)).trans (ringsKept_postEvent ..)

theorem ringsKept_gapOpen (s : State) (kind arg n : Nat) : RingsKept s (gapOpen s kind arg n) := by
  unfold gapOpen
  extract_lets gs
  split
  · exact .refl s
  · exact (ringsKept_withLid ..).trans (ringsKept_gapNotice ..)

theorem ringsKept_gapClosing (s : State) (kind arg n : Nat) : RingsKept s (gapClosing s kind arg n) := by
  unfold gapClosing
  split
  · exact .refl s
  · split
    · exact ringsKept_gapOpen ..
    · exact (ringsKept_withLid ..).trans (ringsKept_gapNotice ..)

/-! ### Pages -/

theorem ringsKept_movePage (s : State) (page : Nat) : RingsKept s (movePage s page) := by
  unfold movePage
  split
  · exact .refl s
  · exact .of_host rfl rfl rfl

theorem ringsKept_loseZonePage (s : State) (page : Nat) : RingsKept s (loseZonePage s page) := by
  unfold loseZonePage
  extract_lets c z wipe
  have hwipe : RingsKept s (wipe s) := .of_host rfl rfl rfl
  split
  · exact hwipe.trans (ringsKept_gapOpen ..)
  · split
    · split
      · exact hwipe.trans (ringsKept_gapClosing ..)
      · exact .of_host rfl rfl rfl
    · exact .of_host rfl rfl rfl

theorem ringsKept_loseTargets (s : State) (lo n : Nat) : RingsKept s (loseTargets s lo n) := .of_host rfl rfl rfl

theorem ringsKept_losePage (s : State) (page : Nat) : RingsKept s (losePage s page) := by
  unfold losePage
  split
  · exact .of_host rfl rfl rfl
  · split
    · exact ringsKept_loseTargets ..
    · split
      · exact ringsKept_loseZonePage ..
      · exact .of_host rfl rfl rfl

/-! ### Retirement and errors -/

/-- From one state to another what answers commands is kept, but for a task that may be posted at the end. -/
def RingsKeptButTask (s t : State) : Prop :=
  RingsKept s t ∨ ∃ u code prio params, RingsKept s u ∧ t = raiseTask u code prio params

theorem RingsKept.butTask {s t u : State} (a : RingsKept s t) (b : RingsKeptButTask t u) : RingsKeptButTask s u := by
  obtain hkept | ⟨v, code, prio, params, hkept, hu⟩ := b
  · exact .inl (a.trans hkept)
  · exact .inr ⟨v, code, prio, params, a.trans hkept, hu⟩

/-- The retirement of a pseudo-channel posts the Skein's task as the last thing it does (R519). -/
theorem ringsKeptButTask_retirePc (s : State) (pc cause : Nat) : RingsKeptButTask s (retirePc s pc cause) := by
  unfold retirePc
  extract_lets lost s1 hbm skein s2 s3 s4 s5 s6
  split
  · exact .inl (.refl s)
  · have hretired : RingsKept s s2 := .of_host rfl rfl rfl
    have hlost : RingsKept s2 s4 := (RingsKept.foldl ringsKept_movePage ..).trans (.foldl ringsKept_losePage ..)
    have hnotice : RingsKept s4 s5 := by
      unfold s5
      split
      · exact ringsKept_natLostNotice ..
      · exact .refl s4
    have hevent : RingsKept s5 s6 := (ringsKept_raiseEv ..).trans (ringsKept_hbmEventPost ..)
    exact .inr ⟨s6, _, _, _, ((hretired.trans hlost).trans hnotice).trans hevent, rfl⟩

theorem ringsKeptButTask_hbmUe (s : State) (pc line port : Nat) : RingsKeptButTask s (hbmUe s pc line port) := by
  unfold hbmUe
  extract_lets now s1 s2 s3 m
  have hcounted : RingsKept s s1 := .of_host rfl rfl rfl
  have hlogged : RingsKept s s3 :=
    ((hcounted.trans (ringsKept_raiseEv ..)).trans (ringsKept_hbmEventPost ..)).trans (ringsKept_logUe ..)
  split
  · exact hlogged.butTask (ringsKeptButTask_retirePc ..)
  · exact .inl hlogged

/-! ### Commands that leave a task behind -/

/-- A state that can answer a command as another could, with nothing waiting for the matching store or in it. -/
structure StillAnswers (s t : State) : Prop where
  rim : t.rim = s.rim
  en : ∀ hp cls r, (ringAt t hp cls r).en = (ringAt s hp cls r).en
  store : t.sched.store = []
  stalled : t.sched.stalled = []

theorem RingsKept.stillAnswers {s t : State} (hkept : RingsKept s t) (hempty : s.sched.items = []) : StillAnswers s t := by
  obtain ⟨hstore, -, -, hstalled⟩ := items_empty hempty
  exact ⟨hkept.rim, hkept.en, by rw [hkept.sched, hstore], by rw [hkept.sched, hstalled]⟩

theorem listed_of_empty {x : SchedState} (h : x.items = []) : x.listed = 0 := by
  obtain ⟨-, hready, -, -⟩ := items_empty h
  rw [SchedState.listed, ← List.sum_eq_foldl, ← List.length_flatten, hready, List.length_nil]

/-- A complete item that alone waits for the empty matching store passes through it to its ready list. -/
theorem settleReady_of_stalled {s : State} {i : Item} (hstore : s.sched.store = []) (hstalled : s.sched.stalled = [i])
    (hlisted : s.sched.listed < 4096) (hi : i.complete = true) :
    (settleReady s).sched.store = [] ∧ (settleReady s).sched.stalled = [] := by
  have hadmits : s.sched.admits i = true := by
    simp only [SchedState.admits, hstore, List.length_nil, decide_eq_true_eq]
    split <;> omega
  have htaken : takeStalled s.sched.stalled.length s.sched = { s.sched with stalled := [], store := [i] } := by
    simp [hstalled, takeStalled, hadmits, hstore]
  have hlisted' : SchedState.listed { s.sched with stalled := [], store := [i] } < 4096 := hlisted
  simp only [settleReady, withSched, htaken]
  simp [readyAll, readyOne, hi, hlisted']

/-- A task posted to a scheduler that holds nothing goes straight to its ready list. -/
theorem stillAnswers_raiseTask {s : State} (hempty : s.sched.items = []) (code prio : Nat) (params : List Byte) :
    StillAnswers s (raiseTask s code prio params) := by
  obtain ⟨hstore, -, -, hstalled⟩ := items_empty hempty
  obtain ⟨hstore', hstalled'⟩ := settleReady_of_stalled (i := taskItem s code prio params)
    (s := withSched s (fun x => { x with stalled := x.stalled ++ [taskItem s code prio params], nextSeq := x.nextSeq + 1 }))
    hstore (by simp [withSched, hstalled])
    (Nat.lt_of_le_of_lt (listed_of_empty hempty).le (by decide)) rfl
  exact ⟨rfl, fun _ _ _ => rfl, hstore', hstalled'⟩

end Sys2Proof.Machine
end

