-- ==== Sys2Proof/Proofs/TranslationCommands.lean ====
section
/-! PROOF. The commands on translation and balancing (06/R197, R198, R210, R213, R214; 12/R388): an address and a pool written, a
subscriber found, a target written, read and removed, a pool's buckets replaced. -/

namespace Sys2Proof.Machine

/-! ### Running a command -/

/-- A command that runs alone, whose body answers and leaves a state that still answers, is answered at once. -/
theorem runAtOnce_of_stillAnswers {s t : State} {op : Nat} {h : CmdHeader} {p : List Byte} {len : Nat} {fine : Bool} {a : Answer}
    {body : State → Answer × State} (H : RunsAlone s op h p len fine) (hb : body s = (a, t)) (ht : StillAnswers s t)
    (hd : a.data.length ≤ 65536) : runAtOnce s op h p len fine body = answered t h a := by
  have hring : (ringAt t (h.fn / 2) 1 h.replyRing).en = true := by rw [ht.en]; exact H.runs.enabled
  have hcalm : (answered t h a).rim.transition = none := by rw [answered_rim, ht.rim]; exact H.runs.calm
  unfold runAtOnce
  rw [runCommand_of_runs H.runs]
  simp only [hb]
  rw [if_pos (answerFits_of_room H.runs.room (length_replyOf_le hd)), answer_host H.runs.host H.runs.ring hring,
    completed_of_empty (s := answered t h a) ht.store ht.stalled hcalm]

theorem stillAnswers_commandUe {s : State} (hempty : s.sched.items = []) (line : Nat) : StillAnswers s (commandUe s line).2 := by
  obtain hkept | ⟨u, code, prio, params, hkept, hu⟩ := ringsKeptButTask_hbmUe s (linePc s line) (sharedLineNo s line) 3
  · exact hkept.stillAnswers hempty
  · have htask := stillAnswers_raiseTask (s := u) (by rw [hkept.sched, hempty]) code prio params
    rw [commandUe, hu]
    exact ⟨htask.rim.trans hkept.rim, fun hp cls r => (htask.en hp cls r).trans (hkept.en hp cls r),
      htask.store, htask.stalled⟩

/-- A command that meets an uncorrectable line is answered ST_UNCORRECTABLE. -/
theorem runAtOnce_of_commandUe {s : State} {op : Nat} {h : CmdHeader} {p : List Byte} {len : Nat} {fine : Bool}
    {body : State → Answer × State} (H : RunsAlone s op h p len fine) {line : Nat} (hb : body s = commandUe s line) :
    runAtOnce s op h p len fine body = answered (commandUe s line).2 h (.of stUncorrectable) :=
  runAtOnce_of_stillAnswers H hb (stillAnswers_commandUe H.empty line) (Nat.zero_le _)

/-- A command that changes the action tables alone, and answers no data, is answered at once. -/
theorem runAtOnce_of_withActions {s : State} {op : Nat} {h : CmdHeader} {p : List Byte} {len : Nat} {fine : Bool}
    {f : ActionState → ActionState} {body : State → Answer × State} (H : RunsAlone s op h p len fine)
    (hb : body s = (.ok [], withActions s f)) :
    runAtOnce s op h p len fine body = answered (withActions s f) h (.ok []) :=
  runAtOnce_of_ringsKept H hb (.of_host rfl rfl rfl) (Nat.zero_le _)

section
variable {s : State} {h : CmdHeader} {p : List Byte}

/-! ### Addresses and pools -/

/-- The word of the address table that NAT_ADDR_WRITE gives. -/
def addrWord (p : List Byte) : Nat := if bit (leAt p 0 4) 31 then 2 ^ 63 + beAt p 4 4 else 0

theorem natAddrWrite_answers (H : RunsAlone s 0x0701 h p 8 (bits (leAt p 0 4) 30 12 == 0))
    (hother : bit (leAt p 0 4) 31 = true → ∀ e ∈ s.actions.natAddr, e.1 ≠ leAt p 0 4 % 4096 → e.2 ≠ addrWord p)
    (hunheld : ∀ e ∈ s.actions.natPools, e.2.owns (leAt p 0 4 % 4096) = true → poolHoldsBlock s e.1 = false) :
    natAddrWrite h p s =
      answered (withActions s (fun a => { a with natAddr := tput 0 a.natAddr (leAt p 0 4 % 4096) (addrWord p) })) h (.ok []) := by
  have hexists : (bit (leAt p 0 4) 31 &&
      s.actions.natAddr.any (fun e => e.1 != leAt p 0 4 % 4096 && e.2 == addrWord p)) = false := by
    simpa using hother
  have hbusy : s.actions.natPools.any (fun e => e.2.owns (leAt p 0 4 % 4096) && poolHoldsBlock s e.1) = false := by
    simpa using hunheld
  unfold natAddrWrite
  refine runAtOnce_of_withActions H ?_
  dsimp only
  rw [← addrWord, hexists, hbusy, Bool.and_false]
  rfl

/-- The pool that NAT_POOL_WRITE gives. -/
def poolGiven (p : List Byte) : NatPool := NatPool.ofImage (leAt p 8 32)

theorem natPoolWrite_answers
    (H : RunsAlone s 0x0702 h p 40 (decide (leAt p 0 2 < 4096) && bits (leAt p 8 32) 159 128 == 0 &&
      bits (leAt p 8 32) 33 0 == 0 && decide ((poolGiven p).addrFirst + (poolGiven p).addrCountM1 < 4096)))
    (hapart : (poolGiven p).valid = true → ∀ e ∈ s.actions.natPools, e.1 ≠ leAt p 0 2 →
      (e.2.valid = true ∨ poolHoldsBlock s e.1 = true) → e.2.overlaps (poolGiven p) = false)
    (hplaced : ∀ o, tfind s.actions.natPools (leAt p 0 2) = some o → poolHoldsBlock s (leAt p 0 2) = true →
      o.addrFirst = (poolGiven p).addrFirst ∧ o.addrCountM1 = (poolGiven p).addrCountM1 ∧
        o.blockLog2 = (poolGiven p).blockLog2 ∧ o.portMin = (poolGiven p).portMin) :
    natPoolWrite h p s =
      answered (withActions s (fun a => { a with natPools := tins a.natPools (leAt p 0 2) (poolGiven p) })) h (.ok []) := by
  have hexists : s.actions.natPools.any (fun e => e.1 != leAt p 0 2 && (e.2.valid || poolHoldsBlock s e.1) &&
      (poolGiven p).valid && e.2.overlaps (poolGiven p)) = false := by
    rw [List.any_eq_false]
    intro e he hall
    simp only [Bool.and_eq_true, Bool.or_eq_true, bne_iff_ne] at hall
    obtain ⟨⟨⟨hne, hused⟩, hvalid⟩, hover⟩ := hall
    exact Bool.noConfusion (hover.symm.trans (hapart hvalid e he hne hused))
  unfold natPoolWrite
  refine runAtOnce_of_withActions H ?_
  dsimp only
  rw [← poolGiven, if_neg (ne_true_of_eq_false hexists)]
  cases hfind : tfind s.actions.natPools (leAt p 0 2) with
  | none => rfl
  | some o =>
    cases hheld : poolHoldsBlock s (leAt p 0 2) with
    | false => rfl
    | true =>
      obtain ⟨hfirst, hcount, hblock, hport⟩ := hplaced o hfind hheld
      simp [hfirst, hcount, hblock, hport]

/-! ### Subscribers -/

theorem length_subscriberImage (x : Subscriber) : x.image.length = 64 := by
  simp [Subscriber.image, List.length_flatMap, zeros]

/-- What NAT_SUB_LOOKUP reads of the subscriber table. -/
def subFound (s : State) (ue : List Nat) (p : List Byte) : Except Nat (Option (Nat × Subscriber)) :=
  subScan s ue (leAt p 0 4) (beAt p 16 16) (subRange (leAt p 0 4) (beAt p 16 16))

theorem natSubLookup_answers {ue : List Nat} {i : Nat} {x : Subscriber}
    (H : RunsAlone s 0x0703 h p 32 (decide (leAt p 0 4 < 2 ^ 20))) (hfound : subFound s ue p = .ok (some (i, x))) :
    natSubLookup h p ue s = answered s h (.ok (x.image ++ le 4 i)) := by
  rw [subFound] at hfound
  refine runAtOnce_of_ringsKept H ?_ (.refl s) (by simp [Answer.ok, length_subscriberImage])
  rw [hfound]

theorem natSubLookup_ue {ue : List Nat} {line : Nat}
    (H : RunsAlone s 0x0703 h p 32 (decide (leAt p 0 4 < 2 ^ 20))) (hfound : subFound s ue p = .error line) :
    natSubLookup h p ue s = answered (commandUe s line).2 h (.of stUncorrectable) := by
  rw [subFound] at hfound
  refine runAtOnce_of_commandUe H ?_
  rw [hfound]

/-! ### Targets -/

/-- The image of the pool that a command on targets names, in the current version. -/
def poolNamed (s : State) (p : List Byte) : Nat := poolImage s (leAt p 0 2)

/-- The index of the target entry that a command names. -/
def entryNamed (s : State) (p : List Byte) : Nat := bits (poolNamed s p) 54 33 + leAt p 2 2

/-- A command names a target within a pool that has a VALID image in the current version. -/
structure TargetNamed (s : State) (p : List Byte) : Prop where
  valid : bit (poolNamed s p) 63 = true
  within : leAt p 2 2 ≤ bits (poolNamed s p) 32 11

theorem onTarget_of_named (hn : TargetNamed s p) (f : Nat → Nat → State → Answer × State) :
    onTarget p f s = f (poolNamed s p) (leAt p 2 2) s := by
  have hvalid := hn.valid
  have hwithin := Nat.not_lt.mpr hn.within
  unfold poolNamed at hvalid hwithin
  simp [onTarget, poolNamed, hvalid, hwithin]

/-- The state that a target write leaves of the entries of its line, where the line reads uncorrectable (Table 18-5). -/
def lineLost (s : State) (ue : Bool) (e : Nat) : State :=
  if ue then loseTargets (commandUe s (targetLine e)).2 (e / 8 * 8) 8 else s

theorem stillAnswers_lineLost (hempty : s.sched.items = []) (ue : Bool) (e : Nat) : StillAnswers s (lineLost s ue e) := by
  cases ue with
  | false => exact (RingsKept.refl s).stillAnswers hempty
  | true =>
    have hue := stillAnswers_commandUe hempty (targetLine e)
    exact ⟨hue.rim, hue.en, hue.store, hue.stalled⟩

theorem StillAnswers.withActions {t : State} (ht : StillAnswers s t) (f : ActionState → ActionState) :
    StillAnswers s (withActions t f) := ⟨ht.rim, ht.en, ht.store, ht.stalled⟩

/-- The targets that LB_TARGET_WRITE leaves. -/
def targetsWritten (p : List Byte) (e : Nat) (t : Table LbTarget) : Table LbTarget :=
  if bit (leAt p 4 4) 31 then tins t e ⟨0, leAt p 4 4 % 2 ^ 20⟩ else tdel t e

theorem lbTargetWrite_answers {ue : Bool} {u : State} (hn : TargetNamed s p) (hu : u = lineLost s ue (entryNamed s p))
    (H : RunsAlone s 0x0704 h p 8 (bits (leAt p 4 4) 30 20 == 0))
    (hfree : ∀ t, tfind u.actions.targets (entryNamed s p) = some t → t.state = 0)
    (hunnamed : bit (leAt p 4 4) 31 = false → bucketsNaming u (poolNamed s p) (leAt p 2 2) = 0) :
    lbTargetWrite h p ue s =
      answered (withActions u (fun a => { a with targets := targetsWritten p (entryNamed s p) a.targets })) h (.ok []) := by
  unfold lbTargetWrite
  refine runAtOnce_of_stillAnswers H ?_ (StillAnswers.withActions (hu ▸ stillAnswers_lineLost H.empty ..) _) (Nat.zero_le _)
  rw [onTarget_of_named hn]
  dsimp only
  rw [← entryNamed, ← lineLost, ← hu]
  rw [if_neg]
  · unfold targetsWritten
    split <;> rfl
  · intro hbusy
    rw [Bool.or_eq_true, Bool.and_eq_true, Bool.not_eq_true', decide_eq_true_eq] at hbusy
    obtain hstate | ⟨hclear, hnamed⟩ := hbusy
    · cases hfind : tfind u.actions.targets (entryNamed s p) with
      | none => simp [hfind] at hstate
      | some t => simp [hfind, hfree t hfind] at hstate
    · rw [hunnamed hclear] at hnamed
      exact Nat.lt_irrefl 0 hnamed

/-- What LB_TARGET_READ answers of an entry; zeros where no target is listed. -/
def entryImage : Option LbTarget → List Byte
  | some t => t.image
  | none => zeros 8

theorem length_entryImage (o : Option LbTarget) : (entryImage o).length = 8 := by
  cases o with
  | none => rfl
  | some t => exact length_le ..

theorem lbTargetRead_answers (hn : TargetNamed s p) (H : RunsAlone s 0x0707 h p 4 true) :
    lbTargetRead h p false s = answered s h (.ok (entryImage (tfind s.actions.targets (entryNamed s p)) ++
      le 4 (bucketsNaming s (poolNamed s p) (leAt p 2 2)))) :=
  runAtOnce_of_ringsKept H (onTarget_of_named hn _) (.refl s) (by simp [Answer.ok, length_entryImage])

theorem lbTargetRead_ue (hn : TargetNamed s p) (H : RunsAlone s 0x0707 h p 4 true) :
    lbTargetRead h p true s = answered (commandUe s (targetLine (entryNamed s p))).2 h (.of stUncorrectable) :=
  runAtOnce_of_commandUe H (onTarget_of_named hn _)

/-- The action tables once a target drains, or is reassigned where the pool's image says so. -/
def targetRemoved (s : State) (p : List Byte) (x : LbTarget) (a : ActionState) : ActionState :=
  { a with
    targets := tins a.targets (entryNamed s p) { x with state := if bit (poolNamed s p) 61 then 2 else 1 },
    reassign := if bit (poolNamed s p) 61 then tput false a.reassign (entryNamed s p) true else a.reassign,
    draining := a.draining ++ [⟨leAt p 0 2, leAt p 2 2, entryNamed s p, 0, false⟩] }

theorem lbTargetRemove_answers {x : LbTarget} (hn : TargetNamed s p) (H : RunsAlone s 0x0706 h p 4 true)
    (hfind : tfind s.actions.targets (entryNamed s p) = some x) (hused : x.state = 0)
    (hunnamed : bucketsNaming s (poolNamed s p) (leAt p 2 2) = 0) (hroom : s.actions.draining.length < 64) :
    lbTargetRemove h p false s = answered (withActions s (targetRemoved s p x)) h (.ok []) := by
  refine runAtOnce_of_withActions H ((onTarget_of_named hn _).trans ?_)
  dsimp only
  rw [← entryNamed, hfind]
  simp only [hused, hunnamed, Nat.not_le.mpr hroom, Bool.false_eq_true, ne_eq, not_true_eq_false, Nat.lt_irrefl,
    or_self, if_false]
  rfl

/-! ### Replacing a pool -/

/-- The shares that LB_POOL_REPLACE gives the targets of a pool. -/
def sharesGiven (s : State) (p : List Byte) : List (Nat × Nat) :=
  shares (bits (poolNamed s p) 32 11 + 1) (weighted (poolRanges p))

/-- Both copies of the buckets filled. -/
def poolFilled (s : State) (p : List Byte) (a : ActionState) : ActionState :=
  { a with
    indWest := fillBuckets (bits (poolNamed s p) 54 33) (sharesGiven s p) a.indWest,
    indEast := fillBuckets (bits (poolNamed s p) 54 33) (sharesGiven s p) a.indEast }

theorem lbPoolReplace_answers {ue : List Nat}
    (H : RunsAlone s 0x0705 h p (8 + 8 * leAt p 2 2) (decide (1 ≤ leAt p 2 2) && decide (leAt p 2 2 ≤ 511)))
    (hvalid : bit (poolNamed s p) 63 = true) (hfine : (poolRanges p).all (rangeFine (bits (poolNamed s p) 32 11)) = true)
    (hapart : rangesApart (poolRanges p) = true)
    (hpresent : ∀ e ∈ weighted (poolRanges p), (tfind s.actions.targets (bits (poolNamed s p) 54 33 + e.1)).isSome)
    (hread : ((weighted (poolRanges p)).map (fun e => targetLine (bits (poolNamed s p) 54 33 + e.1))).find? ue.contains = none) :
    lbPoolReplace h p [] ue s = answered (withActions s (poolFilled s p)) h (.ok []) := by
  have hall : (weighted (poolRanges p)).all
      (fun e => (tfind s.actions.targets (bits (poolNamed s p) 54 33 + e.1)).isSome) = true := List.all_eq_true.mpr hpresent
  refine runAtOnce_of_withActions H ?_
  dsimp only
  rw [← poolNamed, hvalid, hfine, hapart, hread]
  dsimp only
  rw [hall]
  rfl

end

/-! ### The clauses -/

/-- Settles O53: where no check of the command's own fails, its action tables are as the statement says; a line that does not
read leaves a scheduler in which nothing waits, so the answer follows at once. -/
theorem translationCommands : Obligations.TranslationCommands := by
  intro s h p
  refine ⟨fun w i new hw hi hnew H hother hunheld => ?_, fun n img new hn himg hnew H hapart hplaced => ?_,
    fun ue scan hscan H => ⟨fun i x hfound => ?_, fun line hfound => ?_⟩,
    fun img k e himg hk he hvalid hwithin => ?_,
    fun img base rs himg hbase hrs H hvalid hfine hapart hpresent ue hread => ?_⟩
  · subst hw hi hnew
    exact congrArg Host.Outcome.next (natAddrWrite_answers H hother hunheld)
  · subst hn himg hnew
    exact congrArg Host.Outcome.next (natPoolWrite_answers H hapart hplaced)
  · exact congrArg Host.Outcome.next (natSubLookup_answers H (hscan.symm.trans hfound))
  · exact congrArg Host.Outcome.next (natSubLookup_ue H (hscan.symm.trans hfound))
  · subst himg hk he
    have hnamed : TargetNamed s p := ⟨hvalid, hwithin⟩
    refine ⟨fun ue u w hu hw H hfree hunnamed => ?_, fun H => ⟨?_, ?_⟩, fun x H hfind hused hunnamed hroom => ?_⟩
    · subst hw
      exact congrArg Host.Outcome.next (lbTargetWrite_answers hnamed hu H hfree hunnamed)
    · exact congrArg Host.Outcome.next (lbTargetRead_answers hnamed H)
    · exact congrArg Host.Outcome.next (lbTargetRead_ue hnamed H)
    · exact congrArg Host.Outcome.next (lbTargetRemove_answers hnamed H hfind hused hunnamed hroom)
  · subst himg hbase hrs
    exact congrArg Host.Outcome.next (lbPoolReplace_answers H hvalid hfine hapart hpresent hread)

end Sys2Proof.Machine
end

