-- ==== Sys2Proof/Proofs/FabricKept.lean ====
section
/-! SUPPORT. What the records, events, verdicts and completions that go with a frame leave alone: the cell stores, the wires of
the ports, and what has left the device before (17/R497; 12/R375; 02/R67, R70; 14/R430, R437). -/

namespace Sys2Proof.Machine

/-- Two states with the same cell stores and egress ports, where what has left the first has left the second. -/
structure FabricKept (s t : State) : Prop where
  cells : t.cells = s.cells
  ports : t.egress.ports = s.egress.ports
  out : s.out <:+ t.out

/-- Two states that also hold the same frames in flight and the same flow store. -/
structure SideKept (s t : State) : Prop extends FlightKept s t, FabricKept s t

/-- Two states that hold the same frames but for one. -/
structure FrameAlone (id : Nat) (s t : State) : Prop extends OtherFramesKept id s t, FabricKept s t

namespace FabricKept

variable {s t u : State}

theorem refl (s : State) : FabricKept s s := ⟨rfl, rfl, List.suffix_rfl⟩

theorem trans (a : FabricKept s t) (b : FabricKept t u) : FabricKept s u :=
  ⟨b.cells.trans a.cells, b.ports.trans a.ports, a.out.trans b.out⟩

theorem onFrame {id : Nat} {g : Frame → State} (h : ∀ f, FabricKept s (g f)) : FabricKept s (Machine.onFrame s id g) := by
  unfold Machine.onFrame
  split
  · exact .refl s
  · exact h _

theorem storeAt (h : FabricKept s t) (k : Nat) : storeAt t k = Machine.storeAt s k := by
  rw [Machine.storeAt, h.cells]; rfl

end FabricKept

namespace SideKept

variable {s t u : State}

theorem refl (s : State) : SideKept s s := ⟨.refl s, .refl s⟩

theorem trans (a : SideKept s t) (b : SideKept t u) : SideKept s u :=
  ⟨a.toFlightKept.trans b.toFlightKept, a.toFabricKept.trans b.toFabricKept⟩

theorem onFrame {id : Nat} {g : Frame → State} (h : ∀ f, SideKept s (g f)) : SideKept s (Machine.onFrame s id g) := by
  unfold Machine.onFrame
  split
  · exact .refl s
  · exact h _

theorem frameAlone (h : SideKept s t) (id : Nat) : FrameAlone id s t := ⟨.of_flightKept h.toFlightKept, h.toFabricKept⟩

theorem frameAt (h : SideKept s t) (j : Nat) : frameAt t j = Machine.frameAt s j := by
  rw [Machine.frameAt, h.frames]; rfl

/-- From one state to another only the host rings and what leaves the device change. -/
theorem of_posted (h : ∃ host out, t = { s with host := host, out := out }) (hout : s.out <:+ t.out) : SideKept s t := by
  obtain ⟨host, out, rfl⟩ := h
  exact ⟨⟨rfl, rfl⟩, rfl, rfl, hout⟩

end SideKept

theorem FrameAlone.trans {id : Nat} {s t u : State} (a : FrameAlone id s t) (b : FrameAlone id t u) : FrameAlone id s u :=
  ⟨a.toOtherFramesKept.trans b.toOtherFramesKept, a.toFabricKept.trans b.toFabricKept⟩

/-! ### Counts, outputs and events -/

theorem sideKept_bump (s : State) (part num n : Nat) : SideKept s (bump s part num n) := by
  obtain ⟨c, h⟩ := bump_eq s part num n
  rw [h]
  exact ⟨⟨rfl, rfl⟩, rfl, rfl, List.suffix_rfl⟩

theorem sideKept_emit (s : State) (o : Output) : SideKept s (emit s o) := ⟨⟨rfl, rfl⟩, rfl, rfl, List.suffix_cons ..⟩

theorem sideKept_modSlice (s : State) (sl : Nat) (g : SliceState → SliceState) : SideKept s (modSlice s sl g) :=
  ⟨⟨rfl, rfl⟩, rfl, rfl, List.suffix_rfl⟩

theorem sideKept_modChan (s : State) (ch : Nat) (g : DmaChannel → DmaChannel) : SideKept s (modChan s ch g) :=
  ⟨⟨rfl, rfl⟩, rfl, rfl, List.suffix_rfl⟩

theorem sideKept_outstandingSub (s : State) (sl bank : Nat) : SideKept s (outstandingSub s sl bank) :=
  ⟨⟨rfl, rfl⟩, rfl, rfl, List.suffix_rfl⟩

theorem out_writeRing (s : State) (hp cls r : Nat) (bytes : List Byte) : s.out <:+ (writeRing s hp cls r bytes).out := by
  unfold writeRing
  extract_lets g n pi cfg s1 s2 s3
  have hslots : s.out <:+ s1.out := List.suffix_append ..
  have hindex : s1.out <:+ s2.out := List.suffix_cons ..
  have hvector : s2.out <:+ s3.out := by
    unfold s3
    split
    · exact List.suffix_cons ..
    · exact List.suffix_rfl
  exact hslots.trans (hindex.trans hvector)

theorem out_eventToRing (s : State) (hp r src dev : Nat) (body : List Byte) :
    s.out <:+ (eventToRing s hp r src dev body).out := by
  unfold eventToRing
  extract_lets g h u
  split
  · exact out_writeRing ..
  · exact List.suffix_rfl

/-- An event is written into a ring or sent up the chain, or goes nowhere. -/
theorem sideKept_postEvent (s : State) (src : Nat) (body : List Byte) : SideKept s (postEvent s src body) := by
  refine .of_posted (postEvent_eq s src body) ?_
  unfold postEvent
  extract_lets w hp r
  split
  · split
    · exact out_eventToRing ..
    · exact List.suffix_cons ..
  · exact List.suffix_rfl

theorem sideKept_offerTrace (s : State) (r : List Byte) : SideKept s (offerTrace s r) := by
  unfold offerTrace
  extract_lets u
  split
  · exact (sideKept_bump ..).trans ⟨⟨rfl, rfl⟩, rfl, rfl, List.suffix_rfl⟩
  · exact ⟨⟨rfl, rfl⟩, rfl, rfl, List.suffix_rfl⟩

/-- The timestamp of a frame that is lost before it is sent is reported. -/
theorem sideKept_stampLost (s : State) (id : Nat) : SideKept s (stampLost s id) := by
  refine .onFrame fun f => ?_
  split
  · exact sideKept_postEvent ..
  · exact .refl s

/-- A learn joins a queue of its slice or is counted as discarded. -/
theorem sideKept_queueMacLearn (s : State) (sl : Nat) (l : MacLearn) : SideKept s (queueMacLearn s sl l) := by
  unfold queueMacLearn
  split
  · exact sideKept_modSlice ..
  · exact sideKept_bump ..

theorem sideKept_learnAtIngress (s : State) (f : Frame) : SideKept s (learnAtIngress s f) := by
  unfold learnAtIngress
  split
  · exact .refl s
  · split
    · exact sideKept_queueMacLearn ..
    · exact .refl s

theorem sideKept_learnAtEgress (s : State) (f : Frame) (port : Nat) : SideKept s (learnAtEgress s f port) := by
  unfold learnAtEgress
  split
  · exact .refl s
  · split
    · exact sideKept_queueMacLearn ..
    · exact .refl s

/-- A dropped punted frame is counted and reported. -/
theorem sideKept_puntDropped (s : State) (sl reason : Nat) : SideKept s (puntDropped s sl reason) := by
  unfold puntDropped
  extract_lets s1 ch s2 c n due
  have hcount : SideKept s s2 := (sideKept_bump ..).trans ⟨⟨rfl, rfl⟩, rfl, rfl, List.suffix_rfl⟩
  refine hcount.trans ?_
  split
  · exact (sideKept_modChan ..).trans (sideKept_postEvent ..)
  · exact sideKept_modChan ..

/-! ### The completion of a descriptor -/

/-- A completion record is written, its vector sent, and the channel goes on. -/
theorem sideKept_chanRecord (s : State) (ch : Nat) (h : HeldRecord) : SideKept s (chanRecord s ch h) := by
  unfold chanRecord
  extract_lets c pi slot index s1 s2 s3
  have hrecord : SideKept s s1 := by
    unfold s1
    split
    · exact ((sideKept_emit ..).trans (sideKept_emit ..)).trans (sideKept_modChan ..)
    · exact .refl s
  have hvector : SideKept s1 s2 := by
    unfold s2
    split
    · exact sideKept_emit ..
    · exact .refl _
  have hheld : SideKept s2 s3 := sideKept_modChan ..
  refine ((hrecord.trans hvector).trans hheld).trans ?_
  split
  · exact .refl _
  · exact sideKept_modChan ..

theorem sideKept_chanAnswer (s : State) (ch : Nat) (h : HeldRecord) : SideKept s (chanAnswer s ch h) := by
  unfold chanAnswer
  extract_lets c
  split
  · exact sideKept_modChan ..
  · exact sideKept_chanRecord ..

theorem sideKept_descDone (s : State) (ch : Nat) (d : Descriptor) (done status : Nat) :
    SideKept s (descDone s ch d done status) :=
  (((sideKept_emit ..).trans (sideKept_emit ..)).trans (sideKept_modChan ..)).trans (sideKept_chanAnswer ..)

/-- The descriptor of an injected frame completes. -/
theorem sideKept_injectDone (s : State) (id status : Nat) : SideKept s (injectDone s id status) := by
  unfold injectDone
  split
  · exact .refl s
  · split
    · exact .refl s
    · exact sideKept_descDone ..

/-! ### One frame's record, verdict and release -/

theorem fabricKept_modFrame (s : State) (id : Nat) (g : Frame → Frame) : FabricKept s (modFrame s id g) := by
  unfold modFrame
  split
  · exact .refl s
  · exact ⟨rfl, rfl, List.suffix_rfl⟩

theorem frameAlone_modFrame (s : State) (id : Nat) (g : Frame → Frame) : FrameAlone id s (modFrame s id g) :=
  ⟨otherFramesKept_modFrame .., fabricKept_modFrame ..⟩

theorem fabricKept_raiseTask (s : State) (code prio : Nat) (params : List Byte) :
    FabricKept s (raiseTask s code prio params) := ⟨rfl, rfl, List.suffix_rfl⟩

/-- Retiring versions touches neither cells nor ports. -/
theorem fabricKept_retireFrom (n : Nat) (s : State) (sl : Nat) : FabricKept s (retireFrom n s sl) := by
  induction n generalizing s with
  | zero => exact .refl s
  | succ n ih =>
    unfold retireFrom
    extract_lets v s1 s2 s3
    split
    · have hslice : FabricKept s s1 := (sideKept_modSlice ..).toFabricKept
      have hevent : FabricKept s1 s2 := (sideKept_postEvent ..).toFabricKept
      have hrules : FabricKept s2 s3 := by
        unfold s3
        split
        · exact ⟨rfl, rfl, List.suffix_rfl⟩
        · exact .refl _
      exact (((hslice.trans hevent).trans hrules).trans (fabricKept_raiseTask ..)).trans (ih _)
    · exact .refl s

theorem sideKept_headLeave (s : State) (sl version : Nat) : SideKept s (headLeave s sl version) :=
  ⟨flightKept_headLeave .., (sideKept_modSlice ..).toFabricKept.trans (fabricKept_retireFrom ..)⟩

theorem frameAlone_tagRecord (s : State) (id outcome owner : Nat) : FrameAlone id s (tagRecord s id outcome owner) := by
  refine ⟨otherFramesKept_tagRecord .., .onFrame fun f => ?_⟩
  split
  · extract_lets s1 s2
    have hoffer : FabricKept s1 s2 := by
      unfold s2
      split
      · exact (sideKept_offerTrace ..).toFabricKept
      · exact .refl _
    exact ((sideKept_bump ..).toFabricKept.trans hoffer).trans (fabricKept_modFrame ..)
  · exact .refl s

/-- Its record, if it makes one, changes nothing of a frame but its tag. -/
theorem frameAt_tagRecord {s : State} {id : Nat} {f : Frame} (hf : frameAt s id = some f) (outcome owner : Nat) :
    ∃ b, frameAt (tagRecord s id outcome owner) id = some { f with tagged := b } := by
  rw [tagRecord, onFrame_of_some hf]
  split
  · extract_lets s1 s2
    have hcount : SideKept s s1 := sideKept_bump ..
    have hoffer : SideKept s1 s2 := by
      unfold s2
      split
      · exact sideKept_offerTrace ..
      · exact .refl _
    exact ⟨false, by rw [frameAt_modFrame_same, (hcount.trans hoffer).frameAt, hf]; rfl⟩
  · exact ⟨f.tagged, hf⟩

theorem frameAlone_verdictBad (s : State) (id : Nat) : FrameAlone id s (verdictBad s id) := by
  refine ⟨otherFramesKept_verdictBad .., .onFrame fun f => ?_⟩
  extract_lets s1
  have hvoid : FabricKept s s1 := fabricKept_modFrame ..
  refine hvoid.trans ?_
  split
  · split
    · exact ⟨rfl, rfl, List.suffix_rfl⟩
    · exact (sideKept_outstandingSub ..).toFabricKept
  · split
    · exact (sideKept_outstandingSub ..).toFabricKept
    · exact .refl _

/-- A good verdict settles its frame's count, and is kept in it. -/
theorem verdictGood_settles {s : State} {id : Nat} {f : Frame} (hf : frameAt s id = some f) :
    FrameAlone id s (verdictGood s id) ∧ ∃ c, frameAt (verdictGood s id) id = some { f with count := c } := by
  rw [verdictGood, onFrame_of_some hf]
  extract_lets s1 s2
  have hlearn : SideKept s s1 := sideKept_learnAtIngress ..
  split
  · have hsub : SideKept s s2 := hlearn.trans (sideKept_outstandingSub ..)
    exact ⟨(hsub.frameAlone id).trans (frameAlone_modFrame ..), _, by rw [frameAt_modFrame_same, hsub.frameAt, hf]; rfl⟩
  · exact ⟨hlearn.frameAlone id, f.count, (hlearn.frameAt id).trans hf⟩

/-- A released frame is gone; the other frames, the cells and the wires stand. -/
theorem releaseFrame_leaves {s : State} (id : Nat) (hs : tsorted s.frames = true) :
    frameAt (releaseFrame s id) id = none ∧ FrameAlone id s (releaseFrame s id) := by
  obtain ⟨hgone, hothers⟩ := releaseFrame_drops id hs
  refine ⟨hgone, hothers, .onFrame fun f => ?_⟩
  extract_lets s1 egress s2 s3 s4
  have hdrop : FabricKept s s3 := ⟨rfl, rfl, List.suffix_rfl⟩
  have hsnap : FabricKept s3 s4 := by
    unfold s4
    split
    · exact (sideKept_modSlice ..).toFabricKept
    · exact .refl _
  refine (hdrop.trans hsnap).trans ?_
  split
  · exact (sideKept_headLeave ..).toFabricKept
  · exact .refl _

end Sys2Proof.Machine
end

