-- ==== Sys2Proof/Proofs/CellArbiter.lean ====
section
/-! SUPPORT. The allocation arbiter of a slice with one frame to serve: who asks, what the free list gives, and what becomes of
the frame in each case (07/R228, R233–R240). -/

namespace Sys2Proof.Machine

/-! ### Tables, lists and cell stores -/

theorem tget_tmod_of_ne {α : Type} [DecidableEq α] {d : α} {t : Table α} {i : Nat} {g : α → α} (h : g (tget d t i) ≠ d) :
    tget d (tmod d t i g) i = g (tget d t i) := by
  rw [tmod, tput, if_neg h, tget_tins_same]

theorem mem_of_tfind {α : Type} {t : Table α} {i : Nat} {x : α} (h : tfind t i = some x) : (i, x) ∈ t := by
  induction t with
  | nil => cases h
  | cons e r ih =>
    obtain ⟨k, v⟩ := e
    rw [tfind] at h
    split at h
    · next hk => cases h; rw [hk]; exact List.mem_cons_self
    · exact List.mem_cons_of_mem _ (ih h)

theorem tfind_of_mem_from {α : Type} {t : Table α} {b : Option Nat} {i : Nat} {x : α} (hs : tsortedFrom b t = true)
    (h : (i, x) ∈ t) : tfind t i = some x := by
  induction t generalizing b with
  | nil => cases h
  | cons e r ih =>
    obtain ⟨k, v⟩ := e
    rw [tsortedFrom_cons] at hs
    rw [tfind]
    rcases List.mem_cons.mp h with heq | hmem
    · cases heq; exact if_pos rfl
    · have hrest := ih hs.2 hmem
      have hne : i ≠ k := by
        rintro rfl
        rw [tfind_below hs.2 (Nat.le_refl i)] at hrest
        cases hrest
      rw [if_neg hne, hrest]

theorem tfind_of_mem {α : Type} {t : Table α} {i : Nat} {x : α} (hs : tsorted t = true) (h : (i, x) ∈ t) :
    tfind t i = some x := tfind_of_mem_from hs h

theorem foldl_of_fixed {α β : Type} {g : α → β → α} {a : α} {l : List β} (h : ∀ b ∈ l, g a b = a) : l.foldl g a = a := by
  induction l with
  | nil => rfl
  | cons b l ih =>
    rw [List.foldl_cons, h b List.mem_cons_self]
    exact ih fun c hc => h c (List.mem_cons_of_mem _ hc)

theorem storeAt_setStore (s : State) (sl k : Nat) (c : CellStore) :
    storeAt (setStore s sl c) k = if k = sl then c else storeAt s k := tget_tins ..

theorem storeAt_modStore (s : State) (sl k : Nat) (g : CellStore → CellStore) :
    storeAt (modStore s sl g) k = if k = sl then g (storeAt s sl) else storeAt s k := tget_tins ..

theorem flightKept_modStore (s : State) (sl : Nat) (g : CellStore → CellStore) : FlightKept s (modStore s sl g) := ⟨rfl, rfl⟩

/-! ### Frames that need no further cell -/

theorem growFrame_of_held {s : State} {id : Nat} {f : Frame} (flips : List (Nat × Nat)) (hf : frameAt s id = some f)
    (h : cellsNeeded s f ≤ f.cellList.length) : growFrame flips s id = s := by
  rw [growFrame, onFrame_of_some hf]
  simp [Nat.not_lt.mpr h]

theorem growFrames_of_held {s : State} {sl : Nat} (flips : List (Nat × Nat)) (hs : tsorted s.frames = true)
    (h : ∀ e ∈ s.frames, e.2.slice = sl → e.2.cellList ≠ [] → cellsNeeded s e.2 ≤ e.2.cellList.length) :
    growFrames s flips (· == sl) = s := by
  refine foldl_of_fixed fun e he => ?_
  obtain ⟨hmem, hpick⟩ := List.mem_filter.mp he
  simp only [Bool.and_eq_true, beq_iff_eq, Bool.not_eq_true', List.isEmpty_eq_false_iff] at hpick
  exact growFrame_of_held flips (tfind_of_mem hs hmem) (h e hmem hpick.1 hpick.2)

/-- A frame of at most 256 bytes as sent needs one cell. -/
theorem cellsNeeded_of_short {s : State} {f : Frame} (h : f.txLen ≤ 256) : cellsNeeded s f = 1 := by
  have hstored : storedBytes s f ≤ 256 := (Nat.sub_le ..).trans h
  unfold cellsNeeded cdiv
  omega

/-! ### Who asks -/

/-- A frame overtakes no fewer where every frame at the earlier point is still in flight. -/
theorem overtakes_of_kept {s t : State} {j : Nat} {g : Frame} {p : Frame → Bool}
    (hkept : ∀ e ∈ s.frames, p e.2 = true → e ∈ t.frames) (h : overtakes s j g p = true) : overtakes t j g p = true := by
  obtain ⟨e, hmem, he⟩ := List.any_eq_true.mp h
  have hat : p e.2 = true := by simp only [Bool.and_eq_true] at he; exact he.2
  exact List.any_eq_true.mpr ⟨e, hkept e hmem hat, he⟩

/-- The end of one frame's wait for its first cell makes no other frame ask for one. -/
theorem requestOf_none_after {s t : State} {id sl r : Nat} {f : Frame} (hs : tsorted s.frames = true)
    (hother : OtherFramesKept id s t) (hf : frameAt s id = some f) (hstage : f.stage = .admitting)
    (hgone : ∀ g, frameAt t id = some g → g.stage ≠ .admitting) (h : requestOf s sl r = none) : requestOf t sl r = none := by
  unfold requestOf at h ⊢
  rw [Option.map_eq_none_iff, List.find?_eq_none] at h ⊢
  rintro ⟨j, g⟩ hmem hasks
  have hj : frameAt t j = some g := tfind_of_mem (hother.sorted hs) hmem
  simp only [Bool.and_eq_true, beq_iff_eq, Bool.not_eq_true'] at hasks
  obtain ⟨⟨⟨hadmitting, hslice⟩, hrequester⟩, hclear⟩ := hasks
  have hne : j ≠ id := by rintro rfl; exact hgone g hj hadmitting
  refine h (j, g) (mem_of_tfind ((hother.frames j hne).symm.trans hj)) ?_
  simp only [Bool.and_eq_true, beq_iff_eq, Bool.not_eq_true']
  refine ⟨⟨⟨hadmitting, hslice⟩, hrequester⟩, Bool.eq_false_iff.mpr fun hover => ?_⟩
  refine Bool.eq_false_iff.mp hclear (overtakes_of_kept (fun e he hpolicing => ?_) hover)
  simp only [Bool.and_eq_true, beq_iff_eq] at hpolicing
  have hthere : frameAt s e.1 = some e.2 := tfind_of_mem hs he
  have hearlier : e.1 ≠ id := by
    intro heq
    rw [heq, hf] at hthere
    cases hthere
    rw [hstage] at hpolicing
    cases hpolicing.1.1
  exact mem_of_tfind ((hother.frames e.1 hearlier).trans hthere)

theorem arbitrate_of_none {s : State} {sl : Nat} (flips : List (Nat × Nat)) {l : List Nat} (n : Nat)
    (h : ∀ r ∈ l, requestOf s sl r = none) : arbitrate sl flips l n s = s := by
  induction l with
  | nil => rfl
  | cons r l ih =>
    rw [arbitrate, h r List.mem_cons_self]
    split
    · rfl
    · exact ih fun k hk => h k (List.mem_cons_of_mem _ hk)

/-- The slice after the arbiter has served a requester. -/
def served (given : Bool) (u : State) (sl r : Nat) : State :=
  if given then modStore u sl (fun c => { c with arb := (r + 1) % 6 }) else u

theorem arbitrate_of_only {s u : State} {sl r id : Nat} {flips : List (Nat × Nat)} {given : Bool} {l : List Nat}
    (hnodup : l.Nodup) (hmem : r ∈ l) (hreq : requestOf s sl r = some id) (honly : ∀ k, k ≠ r → requestOf s sl k = none)
    (hadmit : admitOne s id flips = (given, u)) (hafter : ∀ k, k ≠ r → requestOf u sl k = none) :
    arbitrate sl flips l 0 s = served given u sl r := by
  induction l with
  | nil => cases hmem
  | cons k l ih =>
    obtain ⟨hk, hrest⟩ := List.nodup_cons.mp hnodup
    rw [arbitrate, if_neg (by decide)]
    by_cases hkr : k = r
    · subst hkr
      have hnone : ∀ m ∈ l, requestOf u sl m = none := fun m hm => hafter m fun heq => hk (heq ▸ hm)
      rw [hreq]
      dsimp only
      rw [hadmit]
      cases given with
      | true => exact arbitrate_of_none flips 1 hnone
      | false => exact arbitrate_of_none flips 0 hnone
    · rw [honly k hkr]
      exact ih hrest ((List.mem_cons.mp hmem).resolve_left fun heq => hkr heq.symm)

/-- The arbiter goes once through the six requesters, from wherever it stands. -/
theorem requesters_turn (a : Nat) :
    ((List.range 6).map (fun k => (a + k) % 6)).Nodup ∧ ∀ r, r < 6 → r ∈ (List.range 6).map (fun k => (a + k) % 6) := by
  refine ⟨List.Nodup.map_on (fun i hi j hj heq => ?_) List.nodup_range, fun r hr => ?_⟩
  · rw [List.mem_range] at hi hj
    omega
  · exact List.mem_map.mpr ⟨(r + 6 - a % 6) % 6, List.mem_range.mpr (Nat.mod_lt _ (by decide)), by omega⟩

/-! ### The free list -/

/-- A taken cell leaves only the free list changed. -/
theorem take_eq {c c1 : CellStore} {cell : Nat} (h : c.take = some (cell, c1)) :
    ∃ fresh freed, c1 = { c with freshCell := fresh, freed := freed } := by
  unfold CellStore.take at h
  split at h
  · cases h; exact ⟨_, c.freed, rfl⟩
  · split at h
    · cases h
    · cases h; exact ⟨c.freshCell, _, rfl⟩

/-- A list whose link names its own next cell goes on from there. -/
theorem skipTo_head (c : CellStore) : c.skipTo (c.head.getD 0) = c := by
  unfold CellStore.skipTo CellStore.head CellStore.take
  by_cases hfresh : c.freshCell < 49152
  · obtain ⟨n, hn⟩ : ∃ n, 49152 - c.freshCell = n + 1 := ⟨49152 - c.freshCell - 1, by omega⟩
    simp [hfresh, hn, List.range_succ_eq_map]
  · have hn : 49152 - c.freshCell = 0 := by omega
    cases hfreed : c.freed with
    | nil => simp [hfresh, hn]
    | cons n r => simp [hfresh, hn]

/-- allocate() takes the head of a free list that is not being rebuilt, where its link word passes or it is the last cell. -/
theorem allocate_of_head {s : State} {sl cell : Nat} {c1 : CellStore} (hbuilt : (storeAt s sl).rebuilding = false)
    (htake : (storeAt s sl).take = some (cell, c1))
    (hlink : (storeAt s sl).free ≤ 1 ∨ c1.linkHolds (linkWord (c1.head.getD 0)) = true)
    (hnext : ∀ n, c1.head = some n → n < 65536) : allocate s sl [] = (some cell, setStore s sl c1) := by
  have hword : Nat.xor (linkWord (c1.head.getD 0)) (alook 0 ([] : List (Nat × Nat)) cell) = linkWord (c1.head.getD 0) :=
    Nat.xor_zero _
  have hlow : linkWord (c1.head.getD 0) % 65536 = c1.head.getD 0 := by
    have hlt : c1.head.getD 0 < 65536 := by
      cases hh : c1.head with
      | none => decide
      | some n => exact hnext n hh
    unfold linkWord
    omega
  unfold allocate
  dsimp only
  rw [hbuilt, htake]
  dsimp only
  rw [hword, hlow, skipTo_head]
  by_cases hlast : (storeAt s sl).free ≤ 1
  · rw [if_pos hlast]; rfl
  · rw [if_neg hlast, if_pos (hlink.resolve_left hlast)]; rfl

/-- Below Q_MAX, an owner below MIN or within its dynamic share is given what allocate() gives. -/
theorem admitFirst_of_share {s : State} {sl q : Nat} (flips : List (Nat × Nat))
    (hmax : ownMax s sl q = 0 ∨ ownUse s sl q < ownMax s sl q)
    (hshare : ownUse s sl q < ownMin s sl q ∨
      (1 ≤ admitFree s sl ∧ (ownUse s sl q - ownMin s sl q) * 64 < admitFree s sl * 2 ^ ownAlpha s sl q)) :
    admitFirst s sl q flips = allocate s sl flips := by
  have hbelow : ¬ (ownMax s sl q ≠ 0 ∧ ownMax s sl q ≤ ownUse s sl q) := by omega
  unfold admitFirst
  dsimp only
  rw [if_neg hbelow]
  split
  · rfl
  · next hmin => exact if_pos (hshare.resolve_left hmin)

theorem admitFirst_of_full {s : State} {sl q : Nat} (flips : List (Nat × Nat)) (hmax : ownMax s sl q ≠ 0)
    (hfull : ownMax s sl q ≤ ownUse s sl q) : admitFirst s sl q flips = (none, s) := if_pos ⟨hmax, hfull⟩

/-! ### Frames that take no cell -/

/-- A discarded frame's lost timestamp, record and verdict change no other frame. -/
theorem frameAlone_voided (s : State) (id outcome owner : Nat) :
    FrameAlone id s (verdictBad (tagRecord (stampLost s id) id outcome owner) id) :=
  (((sideKept_stampLost s id).frameAlone id).trans (frameAlone_tagRecord ..)).trans (frameAlone_verdictBad ..)

/-- A released frame is gone, whatever descriptor completes with it. -/
theorem injectDone_released {s : State} (id status : Nat) (hs : tsorted s.frames = true) :
    frameAt (injectDone (releaseFrame s id) id status) id = none ∧
      FrameAlone id s (injectDone (releaseFrame s id) id status) := by
  obtain ⟨hgone, hkept⟩ := releaseFrame_leaves id hs
  have hdone := sideKept_injectDone (releaseFrame s id) id status
  exact ⟨(hdone.frameAt id).trans hgone, hkept.trans (hdone.frameAlone id)⟩

/-- At a closed port a frame leaves the device. -/
theorem refuseClosed_leaves {s : State} {id : Nat} {f : Frame} (hs : tsorted s.frames = true)
    (hf : frameAt s id = some f) : frameAt (refuseClosed s id) id = none ∧ FrameAlone id s (refuseClosed s id) := by
  rw [refuseClosed, onFrame_of_some hf]
  have hvoid := ((sideKept_bump s _ _ 1).frameAlone id).trans
    (frameAlone_voided (cntPort s (f.egress.headD 0) 11) id 7 f.owner)
  obtain ⟨hgone, hkept⟩ := injectDone_released id stDomainDown (hvoid.sorted hs)
  exact ⟨hgone, hvoid.trans hkept⟩

/-- An overflow notice touches no frame, and of the slice's store only when its owners were noticed. -/
theorem overflowNotice_keeps (s : State) (sl q handle : Nat) :
    FlightKept s (overflowNotice s sl q handle) ∧
      ∃ noticed, storeAt (overflowNotice s sl q handle) sl = { storeAt s sl with noticed := noticed } := by
  have hnotice : ∀ (noticed : CellStore → Table Nat) (src : Nat) (body : List Byte),
      let t := postEvent (modStore s sl (fun c => { c with noticed := noticed c })) src body
      FlightKept s t ∧ ∃ noticed, storeAt t sl = { storeAt s sl with noticed := noticed } := by
    intro noticed src body
    have hpost := sideKept_postEvent (modStore s sl (fun c => { c with noticed := noticed c })) src body
    exact ⟨(flightKept_modStore ..).trans hpost.toFlightKept, _,
      (hpost.storeAt sl).trans ((storeAt_modStore ..).trans (if_pos rfl))⟩
  unfold overflowNotice
  split
  · dsimp only
    split
    · split
      · exact hnotice (fun c => tins c.noticed q s.time.tick) _ _
      · exact ⟨.refl s, _, rfl⟩
    · exact hnotice (fun c => tins c.noticed q s.time.tick) _ _
  · exact ⟨.refl s, _, rfl⟩

/-- A drop is counted to its owner, and takes no cell. -/
theorem ownDrop_counts (s : State) (sl q handle : Nat) :
    let t := ownDrop s sl q handle
    FlightKept s t ∧ tget 0 (storeAt t sl).drops q = min (tget 0 (storeAt s sl).drops q + 1) (2 ^ 32 - 1) ∧
      (storeAt t sl).freshCell = (storeAt s sl).freshCell ∧ (storeAt t sl).freed = (storeAt s sl).freed := by
  intro t
  obtain ⟨hflight, noticed, hstore⟩ := overflowNotice_keeps
    (modStore s sl (fun c => { c with drops := tmod 0 c.drops q (fun n => sat 32 (n + 1)) })) sl q handle
  rw [storeAt_modStore, if_pos rfl] at hstore
  have ht : storeAt t sl = { storeAt s sl with
      drops := tmod 0 (storeAt s sl).drops q (fun n => sat 32 (n + 1)), noticed := noticed } := hstore
  refine ⟨(flightKept_modStore ..).trans hflight, ?_, by rw [ht], by rw [ht]⟩
  rw [ht]
  exact tget_tmod_of_ne (g := fun n => sat 32 (n + 1)) (by unfold sat; omega)

/-- On no-cell a frame leaves the device, its owner's drop is counted, and no cell is taken. -/
theorem noCell_leaves {s : State} {id : Nat} {f : Frame} (q : Nat) (hs : tsorted s.frames = true)
    (hf : frameAt s id = some f) :
    let t := noCell s id q
    frameAt t id = none ∧ OtherFramesKept id s t ∧
      tget 0 (storeAt t f.slice).drops q = min (tget 0 (storeAt s f.slice).drops q + 1) (2 ^ 32 - 1) ∧
      (storeAt t f.slice).freshCell = (storeAt s f.slice).freshCell ∧
      (storeAt t f.slice).freed = (storeAt s f.slice).freed := by
  rw [noCell, onFrame_of_some hf]
  extract_lets s1 s2 s3
  obtain ⟨hflight, hdrops, hfresh, hfreed⟩ := ownDrop_counts s f.slice q (if f.flowless then 0 else f.handle)
  have hpunt : SideKept s2 s3 := by
    unfold s3
    split
    · exact sideKept_puntDropped ..
    · exact .refl _
  have hvoid : FrameAlone id s1 s3 := (frameAlone_voided s1 id 6 q).trans (hpunt.frameAlone id)
  have hother : OtherFramesKept id s s3 := (OtherFramesKept.of_flightKept hflight).trans hvoid.toOtherFramesKept
  obtain ⟨hgone, hkept⟩ := injectDone_released id stFull (hother.sorted hs)
  have hstore := (hvoid.trans hkept).storeAt f.slice
  exact ⟨hgone, hother.trans hkept.toOtherFramesKept, by rw [hstore, hdrops], by rw [hstore, hfresh],
    by rw [hstore, hfreed]⟩

/-! ### A frame that takes its first cell -/

/-- A cell store whose owner is charged one cell, one more frame admitted. -/
def CellStore.charged (c : CellStore) (q : Nat) : CellStore :=
  { c with used := tmod 0 c.used q (· + 1), admits := c.admits + 1 }

/-- A cell store with a frame at the end of its owner's queue. -/
def CellStore.queued (c : CellStore) (f : Frame) (id q : Nat) : CellStore :=
  if f.punt.isSome then { c with punt := c.punt ++ [id] }
  else if f.mc then { c with repl := c.repl ++ [(id, f.egress)] }
  else { c with voq := tmod [] c.voq q (fun l => l ++ [id]) }

theorem modStore_queued (s : State) (f : Frame) (id q : Nat) : modStore s f.slice (fun c => c.queued f id q) =
    if f.punt.isSome then modStore s f.slice (fun c => { c with punt := c.punt ++ [id] })
    else if f.mc then modStore s f.slice (fun c => { c with repl := c.repl ++ [(id, f.egress)] })
    else voqPush s f.slice q id := by
  unfold CellStore.queued
  split
  · rfl
  · split <;> rfl

/-- Joining a queue takes and charges no cell. -/
theorem queued_keeps (c : CellStore) (f : Frame) (id q : Nat) :
    (c.queued f id q).used = c.used ∧ (c.queued f id q).freshCell = c.freshCell ∧ (c.queued f id q).freed = c.freed := by
  unfold CellStore.queued
  split
  · exact ⟨rfl, rfl, rfl⟩
  · split <;> exact ⟨rfl, rfl, rfl⟩

/-- The frame stands at the end of the punt queue, of the replication queue, or of its owner's output queue. -/
theorem queued_joins (c : CellStore) (f : Frame) (id q : Nat) :
    (f.punt.isSome = true → (c.queued f id q).punt = c.punt ++ [id]) ∧
    (f.punt = none → f.mc = true → (c.queued f id q).repl = c.repl ++ [(id, f.egress)]) ∧
    (f.punt = none → f.mc = false → tget [] (c.queued f id q).voq q = tget [] c.voq q ++ [id]) := by
  unfold CellStore.queued
  refine ⟨fun hpunt => ?_, fun hpunt hmc => ?_, fun hpunt hmc => ?_⟩
  · rw [if_pos hpunt]
  · rw [hpunt, if_neg (by decide), if_pos hmc]
  · rw [hpunt, hmc, if_neg (by decide), if_neg (by decide)]
    exact tget_tmod_of_ne (g := fun l => l ++ [id]) (by simp)

theorem used_charged (c : CellStore) (q : Nat) : tget 0 (c.charged q).used q = tget 0 c.used q + 1 :=
  tget_tmod_of_ne (g := (· + 1)) (Nat.succ_ne_zero _)

/-- What a frame is once it has its first cell. -/
structure FirstCell (s : State) (q cell : Nat) (f f' : Frame) : Prop where
  stage : f'.stage = if f.punt.isSome then .punted else .queued
  cells : f'.cellList = [cell]
  refs : f'.refs = 1
  cut : f'.cut = cutThrough s f q
  data : f'.data = f.data

theorem FirstCell.not_admitting {s : State} {q cell : Nat} {f f' : Frame} (h : FirstCell s q cell f f') :
    f'.stage ≠ .admitting := by
  rw [h.stage]
  split <;> decide

/-- Cut-through depends on the registers, the ports and the slice's output queues alone. -/
theorem cutThrough_of_kept {s t : State} {f : Frame} {q : Nat} (hregs : t.regs = s.regs)
    (hports : t.egress.ports = s.egress.ports) (hvoq : (storeAt t f.slice).voq = (storeAt s f.slice).voq) :
    cutThrough t f q = cutThrough s f q := by
  have hfld : ∀ r ix hi lo, fld t r ix hi lo = fld s r ix hi lo := fun r ix hi lo => by
    rw [fld, inForce_of_cells (congrArg RegState.cells hregs)]; rfl
  have hrate : ∀ p, portRate t p = portRate s p := fun p => congrArg modeRate (hfld ..)
  unfold cutThrough
  dsimp only
  rw [hfld, hrate, hrate, hvoq, hports]

theorem queueDeep_of_unasked {s : State} {id : Nat} {f : Frame} (hf : frameAt s id = some f) (h : f.deepQueued = false) :
    queueDeep s id = s := by
  rw [queueDeep, onFrame_of_some hf, h]; rfl

/-- The mark for Congestion Experienced that a frame gets as its owner is charged (07/R258). -/
def ceMarked (s : State) (f : Frame) (q : Nat) : Bool :=
  f.punt.isNone && ecnMarks (charge s f.slice q 1) f q (ownUse s f.slice q)

/-- The state with a frame's owner charged one cell, and the mark counted. -/
def chargedFor (s : State) (f : Frame) (q : Nat) : State :=
  if ceMarked s f q then cntPort (charge s f.slice q 1) (f.egress.headD 0) 13 else charge s f.slice q 1

/-- A frame that holds its first cell. -/
def withFirstCell (s : State) (f : Frame) (q cell : Nat) (g : Frame) : Frame :=
  { g with
    stage := if g.punt.isSome then .punted else .queued, cellList := [cell], refs := 1,
    cut := cutThrough (chargedFor s f q) f q, ecn := ceMarked s f q,
    admitNo := (storeAt (chargedFor s f q) f.slice).admits }

/-- The state in which a frame holds its first cell and has not joined its queue. -/
def cellHeld (s : State) (id : Nat) (f : Frame) (q cell : Nat) : State :=
  modStore (modFrame (chargedFor s f q) id (withFirstCell s f q cell)) f.slice (fun c => { c with admits := c.admits + 1 })

/-- The state after a frame's record and the completion of the descriptor that injected it. -/
def recordDone (s : State) (id q : Nat) (f : Frame) : State :=
  injectDone (queueDeep (tagRecord s id (if f.punt.isSome then 1 else 0) q) id) id stOk

theorem chargedFor_eq (s : State) (f : Frame) (q : Nat) :
    ∃ counters, chargedFor s f q = { charge s f.slice q 1 with counters := counters } := by
  unfold chargedFor
  split
  · exact bump_eq ..
  · exact ⟨s.counters, rfl⟩

theorem storeAt_chargedFor (s : State) (f : Frame) (q k : Nat) : storeAt (chargedFor s f q) k =
    if k = f.slice then { storeAt s f.slice with used := tmod 0 (storeAt s f.slice).used q (· + 1) } else storeAt s k := by
  obtain ⟨counters, h⟩ := chargedFor_eq s f q
  rw [h]
  exact storeAt_modStore s f.slice k (fun c => { c with used := tmod 0 c.used q (· + 1) })

theorem frameAt_chargedFor (s : State) (f : Frame) (q j : Nat) : frameAt (chargedFor s f q) j = frameAt s j := by
  obtain ⟨counters, h⟩ := chargedFor_eq s f q
  rw [h]; rfl

theorem cutThrough_chargedFor (s : State) (f : Frame) (q : Nat) : cutThrough (chargedFor s f q) f q = cutThrough s f q := by
  obtain ⟨counters, h⟩ := chargedFor_eq s f q
  exact cutThrough_of_kept (by rw [h]; rfl) (by rw [h]; rfl) (by rw [storeAt_chargedFor, if_pos rfl])

/-- The frame holds its first cell and its owner is charged; other frames and slices stand. -/
theorem cellHeld_holds {s : State} {id : Nat} {f : Frame} (q cell : Nat) (hf : frameAt s id = some f) :
    let t := cellHeld s id f q cell
    OtherFramesKept id s t ∧ frameAt t id = some (withFirstCell s f q cell f) ∧
      ∀ k, storeAt t k = if k = f.slice then (storeAt s f.slice).charged q else storeAt s k := by
  have hcharged : FlightKept s (chargedFor s f q) := by
    obtain ⟨counters, h⟩ := chargedFor_eq s f q
    rw [h]
    exact ⟨rfl, rfl⟩
  have hheld := frameAlone_modFrame (chargedFor s f q) id (withFirstCell s f q cell)
  refine ⟨((OtherFramesKept.of_flightKept hcharged).trans hheld.toOtherFramesKept).trans
    (.of_flightKept (flightKept_modStore ..)), ?_, fun k => ?_⟩
  · change frameAt (modFrame (chargedFor s f q) id (withFirstCell s f q cell)) id = _
    rw [frameAt_modFrame_same, frameAt_chargedFor, hf]; rfl
  · rw [cellHeld, storeAt_modStore, hheld.storeAt, hheld.storeAt, storeAt_chargedFor, storeAt_chargedFor, if_pos rfl]
    split <;> rfl

theorem firstCell_withFirstCell (s : State) (f : Frame) (q cell : Nat) :
    FirstCell s q cell f (withFirstCell s f q cell f) := ⟨rfl, rfl, rfl, cutThrough_chargedFor s f q, rfl⟩

/-- Without a deep scan asked for, record and completion change nothing of the frame but its tag. -/
theorem recordDone_holds {s : State} {id : Nat} {f g : Frame} (q : Nat) (hg : frameAt s id = some g)
    (hdeep : g.deepQueued = false) :
    FrameAlone id s (recordDone s id q f) ∧ ∃ b, frameAt (recordDone s id q f) id = some { g with tagged := b } := by
  obtain ⟨b, htagged⟩ := frameAt_tagRecord hg (if f.punt.isSome then 1 else 0) q
  rw [recordDone, queueDeep_of_unasked htagged hdeep]
  have hdone := sideKept_injectDone (tagRecord s id (if f.punt.isSome then 1 else 0) q) id stOk
  exact ⟨(frameAlone_tagRecord ..).trans (hdone.frameAlone id), b, (hdone.frameAt id).trans htagged⟩

/-- A short frame whose tail is not bad needs no second cell, and joins its queue. -/
theorem admitted_of_short {s : State} {id : Nat} {f : Frame} (q cell : Nat) (hf : frameAt s id = some f)
    (hshort : f.txLen ≤ 256) (htail : f.tail ≠ .bad) :
    admitted s id q cell [] =
      modStore (recordDone (cellHeld s id f q cell) id q f) f.slice (fun c => c.queued f id q) := by
  have hgrown : growFrame [] (modFrame (chargedFor s f q) id (withFirstCell s f q cell)) id =
      modFrame (chargedFor s f q) id (withFirstCell s f q cell) := by
    refine growFrame_of_held (f := withFirstCell s f q cell f) [] ?_ (Nat.le_of_eq (cellsNeeded_of_short hshort))
    rw [frameAt_modFrame_same, frameAt_chargedFor, hf]; rfl
  rw [admitted, onFrame_of_some hf, if_neg (by simpa using htail), modStore_queued, cellHeld, ← hgrown]
  rfl

/-- A short frame without a deep scan takes its first cell: it is charged, and stands at the end of its queue. -/
theorem admitted_holds {s : State} {id : Nat} {f : Frame} (q cell : Nat) (hf : frameAt s id = some f)
    (hshort : f.txLen ≤ 256) (hdeep : f.deepQueued = false) (htail : f.tail ≠ .bad) :
    let t := admitted s id q cell []
    OtherFramesKept id s t ∧ (∃ f', frameAt t id = some f' ∧ FirstCell s q cell f f') ∧
      ∀ k, storeAt t k = if k = f.slice then ((storeAt s f.slice).charged q).queued f id q else storeAt s k := by
  rw [admitted_of_short q cell hf hshort htail]
  obtain ⟨hother, hheld, hstore⟩ := cellHeld_holds q cell hf
  obtain ⟨hkept, b, hthere⟩ := recordDone_holds (f := f) q hheld hdeep
  obtain ⟨hstage, hcells, hrefs, hcut, hdata⟩ := firstCell_withFirstCell s f q cell
  refine ⟨(hother.trans hkept.toOtherFramesKept).trans (.of_flightKept (flightKept_modStore ..)),
    ⟨_, hthere, hstage, hcells, hrefs, hcut, hdata⟩, fun k => ?_⟩
  rw [storeAt_modStore, hkept.storeAt, hkept.storeAt, hstore, hstore, if_pos rfl]
  split <;> rfl

end Sys2Proof.Machine
end

