-- ==== Sys2Proof/Proofs/CellAdmission.lean ====
section
/-! PROOF. One first-cell request of a slice is served, and a multicast frame is queued for its ports (07/R228, R233–R240,
R250). -/

namespace Sys2Proof.Machine

/-! ### One request -/

/-- A frame that the arbiter does not turn away before it asks the free list. -/
def FrameTaken (s : State) (f : Frame) : Prop :=
  if f.punt.isSome = true then puntTarget s (f.punt.getD 0) = true ∧ (storeAt s f.slice).punt.length < 1024
  else ptrUsed (storeAt s f.slice) < 65536 ∧
    (if f.mc = true then (storeAt s f.slice).repl.length < 256 else portClosed s (f.egress.headD 0) = false)

theorem admitOne_of_closed {s : State} {id : Nat} {f : Frame} (flips : List (Nat × Nat)) (hf : frameAt s id = some f)
    (hpunt : f.punt = none) (hmc : f.mc = false) (hclosed : portClosed s (f.egress.headD 0) = true) :
    admitOne s id flips = (false, refuseClosed s id) := by
  unfold admitOne
  rw [hf]
  dsimp only
  rw [hpunt, hmc, hclosed]
  rfl

/-- None of the arbiter's five tests turns away a frame that is taken. -/
theorem tests_of_taken {s : State} {f : Frame} (h : FrameTaken s f) :
    (f.punt.isSome && !puntTarget s (f.punt.getD 0)) = false ∧
    (f.punt.isSome && decide (1024 ≤ (storeAt s f.slice).punt.length)) = false ∧
    (f.punt.isNone && !f.mc && portClosed s (f.egress.headD 0)) = false ∧
    (f.punt.isNone && f.mc && decide (256 ≤ (storeAt s f.slice).repl.length)) = false ∧
    (f.punt.isNone && decide (65536 ≤ ptrUsed (storeAt s f.slice))) = false := by
  unfold FrameTaken at h
  cases hpunt : f.punt with
  | some r =>
    rw [hpunt] at h
    obtain ⟨htarget, hroom⟩ := h
    exact ⟨by rw [htarget]; rfl, decide_eq_false (Nat.not_le.mpr hroom), rfl, rfl, rfl⟩
  | none =>
    rw [hpunt] at h
    obtain ⟨hpointers, hroute⟩ := h
    refine ⟨rfl, rfl, ?_, ?_, decide_eq_false (Nat.not_le.mpr hpointers)⟩ <;> cases hmc : f.mc <;> rw [hmc] at hroute
    · exact hroute
    · rfl
    · rfl
    · exact decide_eq_false (Nat.not_le.mpr hroute)

theorem admitOne_of_cell {s u : State} {id cell : Nat} {f : Frame} {flips : List (Nat × Nat)} (hf : frameAt s id = some f)
    (htaken : FrameTaken s f) (hfirst : admitFirst s f.slice f.owner flips = (some cell, u)) :
    admitOne s id flips = (true, admitted u id f.owner cell flips) := by
  obtain ⟨htarget, hroom, hopen, hcopies, hpointers⟩ := tests_of_taken htaken
  unfold admitOne
  rw [hf]
  dsimp only
  rw [htarget, hroom, hopen, hcopies, hpointers, hfirst]
  rfl

theorem admitOne_of_no_cell {s u : State} {id : Nat} {f : Frame} {flips : List (Nat × Nat)} (hf : frameAt s id = some f)
    (htaken : FrameTaken s f) (hfirst : admitFirst s f.slice f.owner flips = (none, u)) :
    admitOne s id flips = (false, noCell u id f.owner) := by
  obtain ⟨htarget, hroom, hopen, hcopies, hpointers⟩ := tests_of_taken htaken
  unfold admitOne
  rw [hf]
  dsimp only
  rw [htarget, hroom, hopen, hcopies, hpointers, hfirst]
  rfl

/-- One frame waits for its first cell in its slice, where no stored frame needs a further one. -/
structure WaitsAlone (s : State) (id : Nat) (f : Frame) : Prop where
  sorted : tsorted s.frames = true
  there : frameAt s id = some f
  stage : f.stage = .admitting
  requester : f.requester < 6
  asks : requestOf s f.slice f.requester = some id
  only : ∀ r, r ≠ f.requester → requestOf s f.slice r = none
  held : ∀ e ∈ s.frames, e.2.slice = f.slice → e.2.cellList ≠ [] → cellsNeeded s e.2 ≤ e.2.cellList.length

/-- The slice's turn is then what becomes of that frame. -/
theorem cellAdmit_of_alone {s u : State} {id : Nat} {f : Frame} {flips : List (Nat × Nat)} {given : Bool}
    (h : WaitsAlone s id f) (hadmit : admitOne s id flips = (given, u)) (hother : OtherFramesKept id s u)
    (hgone : ∀ g, frameAt u id = some g → g.stage ≠ .admitting) :
    cellAdmit f.slice flips s = served given u f.slice f.requester := by
  obtain ⟨hnodup, hall⟩ := requesters_turn (storeAt s f.slice).arb
  unfold cellAdmit
  dsimp only
  rw [growFrames_of_held flips h.sorted h.held]
  exact arbitrate_of_only hnodup (hall _ h.requester) h.asks h.only hadmit fun k hk =>
    requestOf_none_after h.sorted hother h.there h.stage hgone (h.only k hk)

/-- At a closed port the frame leaves the device and takes no cell. -/
theorem cellAdmit_closed {s : State} {id : Nat} {f : Frame} (h : WaitsAlone s id f) (hpunt : f.punt = none)
    (hmc : f.mc = false) (hclosed : portClosed s (f.egress.headD 0) = true) :
    frameAt (cellAdmit f.slice [] s) id = none ∧ FrameAlone id s (cellAdmit f.slice [] s) := by
  obtain ⟨hgone, hkept⟩ := refuseClosed_leaves h.sorted h.there
  rw [cellAdmit_of_alone h (admitOne_of_closed [] h.there hpunt hmc hclosed) hkept.toOtherFramesKept
    (fun g hg => by rw [hgone] at hg; cases hg)]
  exact ⟨hgone, hkept⟩

/-- At Q_MAX the frame is dropped. -/
theorem cellAdmit_full {s : State} {id : Nat} {f : Frame} (h : WaitsAlone s id f) (htaken : FrameTaken s f)
    (hmax : ownMax s f.slice f.owner ≠ 0) (hfull : ownMax s f.slice f.owner ≤ ownUse s f.slice f.owner) :
    cellAdmit f.slice [] s = noCell s id f.owner := by
  obtain ⟨hgone, hother, -⟩ := noCell_leaves f.owner h.sorted h.there
  exact cellAdmit_of_alone h (admitOne_of_no_cell h.there htaken (admitFirst_of_full [] hmax hfull)) hother
    (fun g hg => by rw [hgone] at hg; cases hg)

/-- With a cell the frame is stored, and the next turn of the arbiter begins behind its requester. -/
theorem cellAdmit_given {s : State} {id cell : Nat} {f : Frame} {c1 : CellStore} (h : WaitsAlone s id f)
    (htaken : FrameTaken s f) (hshort : f.txLen ≤ 256) (hdeep : f.deepQueued = false) (htail : f.tail ≠ .bad)
    (htake : (storeAt s f.slice).take = some (cell, c1))
    (hfirst : admitFirst s f.slice f.owner [] = (some cell, setStore s f.slice c1)) :
    let t := cellAdmit f.slice [] s
    OtherFramesKept id s t ∧ (∃ f', frameAt t id = some f' ∧ FirstCell s f.owner cell f f') ∧
      ∀ k, storeAt t k = if k = f.slice then
        { (c1.charged f.owner).queued f id f.owner with arb := (f.requester + 1) % 6 } else storeAt s k := by
  intro t
  obtain ⟨hother, ⟨f', hf', hcell⟩, hstore⟩ :=
    admitted_holds (s := setStore s f.slice c1) f.owner cell h.there hshort hdeep htail
  have hlist : FlightKept s (setStore s f.slice c1) := ⟨rfl, rfl⟩
  have hkept := (OtherFramesKept.of_flightKept hlist).trans hother
  have ht : t = served true (admitted (setStore s f.slice c1) id f.owner cell []) f.slice f.requester :=
    cellAdmit_of_alone h (admitOne_of_cell h.there htaken hfirst) hkept fun g hg => by
      rw [hf'] at hg; cases hg; exact hcell.not_admitting
  have hcut : cutThrough (setStore s f.slice c1) f f.owner = cutThrough s f f.owner := by
    obtain ⟨fresh, freed, hc1⟩ := take_eq htake
    exact cutThrough_of_kept rfl rfl (by rw [storeAt_setStore, if_pos rfl, hc1])
  obtain ⟨hstage, hcells, hrefs, hcutThrough, hdata⟩ := hcell
  rw [ht, served, if_pos rfl]
  refine ⟨hkept.trans (.of_flightKept (flightKept_modStore ..)), ⟨f', hf', hstage, hcells, hrefs,
    hcutThrough.trans hcut, hdata⟩, fun k => ?_⟩
  rw [storeAt_modStore, hstore, hstore, if_pos rfl, storeAt_setStore, storeAt_setStore, if_pos rfl]
  split <;> rfl

/-! ### Copies -/

/-- What the copies of a frame to some ports make of a state. -/
structure Copied (sl id : Nat) (f : Frame) (ports : List Nat) (s t : State) : Prop where
  whole : ∃ frames cells, t = { s with frames := frames, cells := cells }
  others : ∀ j, j ≠ id → frameAt t j = frameAt s j
  frame : frameAt t id = some { f with refs := f.refs + ports.length }
  repl : (storeAt t sl).repl = (storeAt s sl).repl
  queued : ∀ p ∈ ports, tget [] (storeAt t sl).voq (ownerQ p f.tc) = tget [] (storeAt s sl).voq (ownerQ p f.tc) ++ [id]
  unqueued : ∀ q, (∀ p ∈ ports, q ≠ ownerQ p f.tc) → tget [] (storeAt t sl).voq q = tget [] (storeAt s sl).voq q

/-- A copy to an open port is one more reference, at the end of the port's queue. -/
theorem copyTo_of_open {s : State} {sl id port : Nat} {f : Frame} (hf : frameAt s id = some f)
    (hopen : portClosed s port = false) : Copied sl id f [port] s (copyTo s sl id port) := by
  have hcopy : copyTo s sl id port =
      voqPush { s with frames := tins s.frames id { f with refs := f.refs + 1 } } sl (ownerQ port f.tc) id := by
    rw [copyTo, onFrame_of_some hf, hopen, modFrame_of_some hf]
    rfl
  have hstore : storeAt (copyTo s sl id port) sl =
      { storeAt s sl with voq := tmod [] (storeAt s sl).voq (ownerQ port f.tc) (fun l => l ++ [id]) } := by
    rw [hcopy]
    exact (storeAt_modStore ..).trans (if_pos rfl)
  refine ⟨⟨_, _, hcopy⟩, fun j hj => ?_, ?_, by rw [hstore], fun p hp => ?_, fun q hq => ?_⟩
  · rw [hcopy]; exact tfind_tins_ne _ _ hj
  · rw [hcopy]; exact tfind_tins_same ..
  · rw [List.mem_singleton.mp hp, hstore]
    exact tget_tmod_of_ne (g := fun l => l ++ [id]) (by simp)
  · rw [hstore]
    exact tget_tput_ne _ _ _ (hq port List.mem_cons_self)

theorem foldl_copyTo_copies {sl id : Nat} {ports : List Nat} {s : State} {f : Frame} (hf : frameAt s id = some f)
    (hopen : ∀ p ∈ ports, portClosed s p = false) (hnodup : ports.Nodup) :
    Copied sl id f ports s (ports.foldl (fun s p => copyTo s sl id p) s) := by
  induction ports generalizing s f with
  | nil => exact ⟨⟨_, _, rfl⟩, fun _ _ => rfl, hf, rfl, fun _ hp => absurd hp List.not_mem_nil, fun _ _ => rfl⟩
  | cons p ports ih =>
    obtain ⟨hp, hrest⟩ := List.nodup_cons.mp hnodup
    have hfirst := copyTo_of_open (sl := sl) hf (hopen p List.mem_cons_self)
    generalize hu : copyTo s sl id p = u at hfirst
    obtain ⟨frames, cells, hwhole⟩ := hfirst.whole
    have hopen' : ∀ r ∈ ports, portClosed u r = false := fun r hr => by
      rw [hwhole]; exact hopen r (List.mem_cons_of_mem _ hr)
    have hlater := ih hfirst.frame hopen' hrest
    rw [List.foldl_cons, hu]
    have hapart : ∀ r ∈ ports, ownerQ r f.tc ≠ ownerQ p f.tc := fun r hr heq => by
      have hrp : r = p := by unfold ownerQ at heq; omega
      exact hp (hrp ▸ hr)
    refine ⟨?_, fun j hj => (hlater.others j hj).trans (hfirst.others j hj), ?_, hlater.repl.trans hfirst.repl,
      fun r hr => ?_, fun q hq => ?_⟩
    · obtain ⟨frames', cells', hwhole'⟩ := hlater.whole
      exact ⟨frames', cells', by rw [hwhole', hwhole]⟩
    · have hcount : f.refs + [p].length + ports.length = f.refs + (p :: ports).length := by
        simp only [List.length_cons, List.length_nil]
        omega
      exact hlater.frame.trans (congrArg (fun n => some { f with refs := n }) hcount)
    · rcases List.mem_cons.mp hr with rfl | hmem
      · exact (hlater.unqueued _ fun k hk => (hapart k hk).symm).trans (hfirst.queued r List.mem_cons_self)
      · rw [hlater.queued r hmem, hfirst.unqueued _ fun k hk => by rw [List.mem_singleton.mp hk]; exact hapart r hmem]
    · rw [hlater.unqueued q fun k hk => hq k (List.mem_cons_of_mem _ hk),
        hfirst.unqueued q fun k hk => by rw [List.mem_singleton.mp hk]; exact hq p List.mem_cons_self]

/-- The oldest frame of the replication queue, with at most eight open ports to serve and room for its copies, is served in one
turn: the engine's own reference goes as the last copy is made. -/
theorem multicastReplicate_of_open {s : State} {sl id : Nat} {f : Frame} {ports : List Nat} {rest : List (Nat × List Nat)}
    (hf : frameAt s id = some f) (hrepl : (storeAt s sl).repl = (id, ports) :: rest) (hlen : ports.length ≤ 8)
    (hnodup : ports.Nodup) (hports : ports ≠ []) (hopen : ∀ p ∈ ports, portClosed s p = false)
    (hroom : ptrUsed (storeAt s sl) + 8 ≤ 65536) (hrefs : 1 ≤ f.refs) :
    ∃ u, Copied sl id f ports s u ∧
      multicastReplicate sl s =
        modFrame (modStore u sl (fun c => { c with repl := rest })) id (fun f => { f with refs := f.refs - 1 }) := by
  have hcopies := foldl_copyTo_copies (sl := sl) hf hopen hnodup
  refine ⟨_, hcopies, ?_⟩
  have hturn : min 8 (65536 - ptrUsed (storeAt s sl)) = 8 := by omega
  have hserved : 2 ≤ f.refs + ports.length := by
    have := List.length_pos_iff.mpr hports
    omega
  unfold multicastReplicate
  rw [hrepl]
  dsimp only
  rw [hturn, List.take_of_length_le hlen, List.drop_of_length_le hlen]
  exact dropRef_of_held (s := modStore _ sl _) hcopies.frame hserved

/-! ### The clauses -/

/-- Settles O45: the one request of the slice is served or turned away, and no other frame then asks; the replication engine's
turn is a fold of copies, each at the end of a queue of its own. -/
theorem cellAdmission : Obligations.CellAdmission := by
  intro s sl id f hlisted hf hslice
  subst hslice
  refine ⟨fun hstage hrequester hasks honly hshort hdeep htail hheld => ?_,
    fun ports rest hrepl hlen hnodup hports hopen hroom hrefs => ?_, rfl⟩
  · have halone : WaitsAlone s id f := ⟨hlisted.1, hf, hstage, hrequester, hasks, honly, hheld⟩
    refine ⟨fun hpunt hmc hclosed => ?_, fun htaken hmax hfull => ?_,
      fun htaken cell c1 hbuilt htake hlink hnext hmax hshare => ?_⟩
    · obtain ⟨hgone, hkept⟩ := cellAdmit_closed halone hpunt hmc hclosed
      have hstore := hkept.storeAt f.slice
      exact ⟨_, rfl, hgone, hkept.frames, congrArg CellStore.freshCell hstore, congrArg CellStore.freed hstore⟩
    · obtain ⟨hgone, hother, hdrops, hfresh, hfreed⟩ := noCell_leaves f.owner halone.sorted hf
      exact ⟨_, congrArg Host.Outcome.next (cellAdmit_full halone htaken hmax hfull), hgone, hother.frames, hdrops, hfresh,
        hfreed⟩
    · have hfirst := (admitFirst_of_share [] hmax hshare).trans (allocate_of_head hbuilt htake hlink hnext)
      obtain ⟨hother, ⟨f', hf', hcell⟩, hstore⟩ := cellAdmit_given halone htaken hshort hdeep htail htake hfirst
      obtain ⟨fresh, freed, hc1⟩ := take_eq htake
      obtain ⟨hused, hqfresh, hqfreed⟩ := queued_keeps (c1.charged f.owner) f id f.owner
      obtain ⟨hpunted, hcopied, hqueued⟩ := queued_joins (c1.charged f.owner) f id f.owner
      have hown := (hstore f.slice).trans (if_pos rfl)
      refine ⟨_, f', rfl, hother.frames, hf', hcell.stage, hcell.cells, hcell.refs, hcell.cut, hcell.data, fun hpunt => ?_,
        fun hpunt hmc => ?_, fun hpunt hmc => ?_, ?_, ?_, ?_, fun k hk => (hstore k).trans (if_neg hk)⟩
      · rw [hown]; exact (hpunted hpunt).trans (by rw [hc1]; rfl)
      · rw [hown]; exact (hcopied hpunt hmc).trans (by rw [hc1]; rfl)
      · rw [hown]; exact (hqueued hpunt hmc).trans (by rw [hc1]; rfl)
      · rw [ownUse, hown]; exact (congrArg (tget 0 · f.owner) hused).trans ((used_charged ..).trans (by rw [hc1]; rfl))
      · rw [hown]; exact hqfresh
      · rw [hown]; exact hqfreed
  · obtain ⟨u, hcopied, hturn⟩ := multicastReplicate_of_open hf hrepl hlen hnodup hports hopen hroom hrefs
    obtain ⟨frames, cells, hwhole⟩ := hcopied.whole
    have hheld : frameAt (modStore u f.slice (fun c => { c with repl := rest })) id =
      some { f with refs := f.refs + ports.length } := hcopied.frame
    rw [modFrame_of_some hheld] at hturn
    have hstore := (storeAt_modStore u f.slice f.slice (fun c => { c with repl := rest })).trans (if_pos rfl)
    refine ⟨_, _, _, congrArg Host.Outcome.next hturn, by rw [hwhole]; rfl, fun j hj => ?_, tfind_tins_same .., ?_,
      fun p hp => ?_⟩
    · exact (tfind_tins_ne _ _ hj).trans (hcopied.others j hj)
    · exact congrArg CellStore.repl hstore
    · exact (congrArg (fun c => tget [] (CellStore.voq c) (ownerQ p f.tc)) hstore).trans (hcopied.queued p hp)

end Sys2Proof.Machine
end

