-- ==== Sys2Proof/Proofs/CrossbarTime.lean ====
section
/-! PROOF. Where the last unit of a frame that has been sent or discarded takes the frame's last reference, the frame leaves the
device and the queues that name it (07/R249, R252), the policers' among them, which the model keeps with egress. -/

namespace Sys2Proof.Machine

/-- A unicast frame to port 0 that has been discarded, with one reference left to its cells. -/
def leavingFrame : Frame :=
  { Frame.fresh 0 0 0 [] 0 0 with stage := .left, tail := .good, egress := [0], refs := 1 }

/-- The device after reset with port 0 UP, and with that frame in the virtual output queue of slice 0 for class 0 of the
port and among the frames that wait for a policer. -/
def leavingCrosses : State :=
  { State.reset with
    frames := [(0, leavingFrame)], nextFrame := 1
    cells := [(0, { CellStore.reset with voq := [(0, [0])] })]
    egress := { State.reset.egress with polWait := [0] }
    line := { State.reset.line with ports := [(0, { PortState.reset with state := 2 })] }
    power := { State.reset.power with macros := 1, chiplets := 1 } }

/-- The frame crosses, and no longer waits for a policer. -/
theorem polWait_after_leavingCrosses : (waleMatch none leavingCrosses).egress.polWait = [] := by decide +kernel

/-- Refutes O46: the statement leaves egress as it is in every state, but a frame that the crossbar's unit takes out of the
device leaves the policers' queue, which is part of egress. The statement has no premise that keeps a frame which has left out
of the virtual output queues or out of the policers' queue. -/
theorem not_crossbarTime : ¬ Obligations.CrossbarTime := by
  intro h
  obtain ⟨⟨t, new, hexec, -, -, -, -, hegress, -⟩, -⟩ := h leavingCrosses
  have hrun : waleMatch none leavingCrosses = t := Host.Outcome.next.inj hexec
  have hstated : (waleMatch none leavingCrosses).egress.polWait = [0] := by rw [hrun, hegress]; rfl
  rw [polWait_after_leavingCrosses] at hstated
  cases hstated

end Sys2Proof.Machine
end

