-- ==== Sys2Proof/Proofs/PickAndSend.lean ====
section
/-! PROOF. A port without a gate list and without a port shaper picks its highest strict class, and a frame that has been sent
whole leaves the device (08/R266, R270, R272; 07/R252, R255). -/

namespace Sys2Proof.Machine

/-! ### Ports and queues -/

theorem egAt_modEg (s : State) (p k : Nat) (g : EgressPort → EgressPort) :
    egAt (modEg s p g) k = if k = p then g (egAt s p) else egAt s k := tget_tupd ..

theorem eqAt_modEq (s : State) (q k : Nat) (g : EgressQueue → EgressQueue) :
    eqAt (modEq s q g) k = if k = q then g (eqAt s q) else eqAt s k := tget_tupd ..

/-- No window limits a class while no gate list runs, so no head is too long for one. -/
theorem oversizeHead_of_ungated {s : State} {port : Nat} (c : Nat) (h : (egAt s port).gate.running = false) :
    oversizeHead s port c = none := by
  have hwindow : maxWindow (egAt s port).gate c = none := by simp [maxWindow, h]
  unfold oversizeHead
  rw [hwindow]
  split
  · rfl
  · split
    · next hw => cases hw
    · rfl

theorem judgeHeads_of_ungated {s : State} {port : Nat} (c : Nat) (h : (egAt s port).gate.running = false) :
    judgeHeads s port c = s := by
  unfold judgeHeads
  cases (eqAt s (eqNum port c)).parts.length with
  | zero => rfl
  | succ n => rw [dropOversize, oversizeHead_of_ungated c h]

/-! ### The pick -/

/-- The highest strict class with an eligible head is picked. -/
theorem pickStrict_of_highest {s : State} {port c : Nat} (hc : c < 8) (hstrict : strictClass s port c = true)
    (hhead : (eligibleHead s port c).isSome = true)
    (hhigher : ∀ k, c < k → k < 8 → strictClass s port k = true → eligibleHead s port k = none) :
    pickStrict s port = some c := by
  have hplace : ∀ j (hj : j < 8), ([7, 6, 5, 4, 3, 2, 1, 0] : List Nat)[j] = 7 - j := by decide
  refine List.find?_eq_some_iff_getElem.mpr ⟨by simp [hstrict, hhead], 7 - c, show 7 - c < 8 by omega, ?_, fun j hj => ?_⟩
  · rw [hplace _ (by omega)]
    omega
  · rw [hplace j (by omega)]
    cases hk : strictClass s port (7 - j) with
    | false => rfl
    | true => rw [hhigher (7 - j) (by omega) (by omega) hk]; rfl

theorem chargeShapers_of_no_port_shaper {s : State} {port : Nat} (c len : Nat) (h : shpOn s port = false) :
    chargeShapers s port c len =
      if shqOn s (eqNum port c) then setShq s (eqNum port c)
        ((shqBucket s (eqNum port c)).spend (chargedLen len (fld s .shqCfg (shqIx (eqNum port c)) 27 20)))
      else s := by
  have hnone : ¬ shpOn s port = true := by simp [h]
  unfold chargeShapers
  dsimp only
  split
  · exact if_neg hnone
  · rfl

/-- The head of a class on its port's wire: its shapers charged, its place in the queue given up. -/
def onWire (s : State) (port c : Nat) (p : EqPart) (f : Frame) : State :=
  modEg (modEq (chargeShapers s port c f.txLen) (eqNum port c) (fun e => { e with parts := e.parts.drop 1 })) port
    (fun e => { e with sending := some ⟨c, p, s.time.tick, portTime s port true, stampDomain s port⟩ })

/-- An eligible head starts; where its port runs no gate list, its timestamp event is all that can come of it besides. -/
theorem startFrame_of_eligible {s : State} {port c : Nat} {p : EqPart} {f : Frame}
    (hgate : (egAt s port).gate.running = false) (hshaper : shpOn s port = false)
    (hhead : eligibleHead s port c = some (p, f)) :
    (startFrame s port c).egress = (onWire s port c p f).egress ∧
      (f.tsKind ≠ 1 → startFrame s port c = onWire s port c p f) := by
  have hungated : (egAt (onWire s port c p f) port).gate.running = false := by
    rw [onWire, egAt_modEg, if_pos rfl, chargeShapers_of_no_port_shaper c f.txLen hshaper]
    split <;> exact hgate
  unfold startFrame
  rw [hhead]
  dsimp only
  rw [← onWire]
  split
  · next hstamp =>
    obtain ⟨host, out, hevent⟩ := postEvent_eq (onWire s port c p f) 5
      (le 1 1 ++ le 1 port ++ le 2 f.tsId ++ zeros 4 ++ stampRecord s.time.tick (portTime s port true) (stampDomain s port))
    have hposted : ∀ g : Frame → Frame, (modFrame (timeEventPost (onWire s port c p f) 1 port f.tsId
        (stampRecord s.time.tick (portTime s port true) (stampDomain s port))) p.frame g).egress
          = (onWire s port c p f).egress := by
      intro g
      rw [timeEventPost, hevent]
      unfold modFrame
      split <;> rfl
    refine ⟨?_, fun hne => absurd hstamp hne⟩
    rw [judgeHeads_of_ungated c (by rw [egAt, hposted]; exact hungated), hposted]
  · rw [judgeHeads_of_ungated c hungated]
    exact ⟨rfl, fun _ => rfl⟩

/-- A port that can start, with no gate list and no port shaper, starts the head of its highest eligible strict class. -/
theorem egressPick_of_strict {s : State} {port c : Nat} {p : EqPart} {f : Frame} (hstart : canStart s port = true)
    (hgate : (egAt s port).gate.running = false) (hshaper : shpOn s port = false) (hc : c < 8)
    (hstrict : strictClass s port c = true) (hhead : eligibleHead s port c = some (p, f))
    (hhigher : ∀ k, c < k → k < 8 → strictClass s port k = true → eligibleHead s port k = none) :
    egressPick port none s = startFrame s port c := by
  have hpick : pickClass s port = (some c, s) := by
    rw [pickClass, pickStrict_of_highest hc hstrict (by rw [hhead]; rfl) hhigher]
  unfold egressPick
  dsimp only
  rw [if_pos hstart, List.foldl_fixed' (fun c => judgeHeads_of_ungated c hgate), hshaper, hpick]
  rfl

/-- What the start of a frame makes of egress. -/
theorem onWire_holds {s : State} {port c : Nat} {p : EqPart} {f : Frame} (hshaper : shpOn s port = false) :
    let q := eqNum port c
    let t := onWire s port c p f
    t = { s with egress := t.egress } ∧
    (egAt t port).sending = some ⟨c, p, s.time.tick, portTime s port true, stampDomain s port⟩ ∧
    (eqAt t q).parts = (eqAt s q).parts.drop 1 ∧ (∀ k, k ≠ q → eqAt t k = eqAt s k) ∧
    (∀ k, k ≠ port → egAt t k = egAt s k) ∧
    (shqOn s q = false → t.egress.shapers = s.egress.shapers) ∧
    (shqOn s q = true → tget Bucket.reset t.egress.shapers q =
      (shqBucket s q).spend (chargedLen f.txLen (fld s .shqCfg (shqIx q) 27 20))) := by
  intro q t
  have hcharge := chargeShapers_of_no_port_shaper c f.txLen hshaper
  generalize hu : chargeShapers s port c f.txLen = u at hcharge
  have ht : t = modEg (modEq u q (fun e => { e with parts := e.parts.drop 1 })) port
      (fun e => { e with sending := some ⟨c, p, s.time.tick, portTime s port true, stampDomain s port⟩ }) := by
    rw [← hu]; rfl
  have hqueues : u.egress.queues = s.egress.queues := by rw [hcharge]; split <;> rfl
  have hports : u.egress.ports = s.egress.ports := by rw [hcharge]; split <;> rfl
  have hqueue : ∀ k, eqAt t k = if k = q then { eqAt s q with parts := (eqAt s q).parts.drop 1 } else eqAt s k := by
    intro k
    have h := eqAt_modEq u q k (fun e => { e with parts := e.parts.drop 1 })
    rw [eqAt, eqAt, eqAt, hqueues] at h
    rw [ht]
    exact h
  refine ⟨?_, ?_, ?_, fun k hk => ?_, fun k hk => ?_, fun hoff => ?_, fun hon => ?_⟩
  · rw [ht, hcharge]; split <;> rfl
  · rw [ht, egAt_modEg, if_pos rfl]
  · rw [hqueue, if_pos rfl]
  · rw [hqueue, if_neg hk]
  · rw [ht, egAt_modEg, if_neg hk]
    change tget _ u.egress.ports k = _
    rw [hports]; rfl
  · rw [ht, hcharge, hoff]; rfl
  · rw [ht, hcharge, if_pos hon]
    exact tget_tins_same ..

/-! ### The end of a frame -/

/-- A frame whose cells nothing holds leaves at once. -/
theorem frameLeft_of_unheld {s : State} {id : Nat} {f : Frame} (hf : frameAt s id = some f) (hrefs : f.refs = 0) :
    frameLeft s id = releaseFrame s id := by
  rw [frameLeft, onFrame_of_some hf, if_pos hrefs]

/-- A port whose wire has become free: what it sent has left, and the room of the frame's units is given back. -/
def wireFreed (s : State) (port : Nat) (x : Sending) (sent : List Byte) : State :=
  creditBack (modEg (emit s (.frame port sent)) port (fun e => { e with sending := none })) (eqNum port x.cls) x.part.frame

theorem egAt_wireFreed (s : State) (port : Nat) (x : Sending) (sent : List Byte) (k : Nat) :
    egAt (wireFreed s port x sent) k = if k = port then { egAt s port with sending := none } else egAt s k :=
  egAt_modEg (emit s (.frame port sent)) port k (fun e => { e with sending := none })

/-- A whole unicast frame with a good tail, sent at a port in no near loop, ends with a good verdict. -/
theorem frameSent_of_good {s : State} {port : Nat} {x : Sending} {f : Frame} (hx : (egAt s port).sending = some x)
    (hf : frameAt s x.part.frame = some f) (hgot : x.part.got = f.txLen) (htail : f.tail = .good) (hmc : f.mc = false)
    (hloop : nearLoop s port = false) :
    frameSent port s = frameLeft (verdictGood (learnAtEgress
      (wireFreed s port x (f.wire x.startTime ++ le 4 (f.wireFcs (f.wire x.startTime)))) f port) x.part.frame) x.part.frame := by
  have hback : ∀ sent, loopedBack port x sent (wireFreed s port x sent) = wireFreed s port x sent := by
    intro sent
    have hnear : nearLoop (wireFreed s port x sent) port = false := hloop
    simp [loopedBack, hnear]
  unfold frameSent
  rw [hx]
  dsimp only
  rw [hf]
  dsimp only
  rw [if_neg (not_not.mpr hgot), htail, hmc]
  exact congrArg (fun u => frameLeft (verdictGood (learnAtEgress u f port) x.part.frame) x.part.frame) (hback _)

/-- Such a frame is gone, and the other frames and ports stand. -/
theorem frameSent_leaves {s : State} {port : Nat} {x : Sending} {f : Frame} (hsorted : tsorted s.frames = true)
    (hx : (egAt s port).sending = some x) (hf : frameAt s x.part.frame = some f) (hgot : x.part.got = f.txLen)
    (htail : f.tail = .good) (hmc : f.mc = false) (hrefs : f.refs = 0) (hloop : nearLoop s port = false) :
    frameAt (frameSent port s) x.part.frame = none ∧
      FrameAlone x.part.frame (wireFreed s port x (f.wire x.startTime ++ le 4 (f.wireFcs (f.wire x.startTime))))
        (frameSent port s) := by
  rw [frameSent_of_good hx hf hgot htail hmc hloop]
  generalize hu : wireFreed s port x _ = u
  have hframes : u.frames = s.frames := by rw [← hu]; rfl
  have hlearn := sideKept_learnAtEgress u f port
  have hthere : frameAt (learnAtEgress u f port) x.part.frame = some f := by
    rw [hlearn.frameAt, frameAt, hframes]; exact hf
  obtain ⟨hgood, count, hsettled⟩ := verdictGood_settles hthere
  have hkept := (hlearn.frameAlone x.part.frame).trans hgood
  rw [frameLeft_of_unheld hsettled hrefs]
  obtain ⟨hgone, hleft⟩ := releaseFrame_leaves x.part.frame (hkept.sorted (hframes ▸ hsorted))
  exact ⟨hgone, hkept.trans hleft⟩

/-- Settles O47: without a running gate list no head is too long, so the pick is the highest strict class's and its start; a
frame sent whole and held by nothing is released after its verdict, which touches neither the other ports nor what has left. -/
theorem pickAndSend : Obligations.PickAndSend := by
  intro s port
  refine ⟨fun c p f hstart hgate hshaper hc hstrict hhead hhigher _ => ?_,
    fun x f hlisted hx hf hgot htail hmc hrefs hloop => ?_⟩
  · obtain ⟨hegress, hwhole⟩ := startFrame_of_eligible hgate hshaper hhead
    obtain ⟨honly, hsending, hparts, hqueues, hports, hoff, hon⟩ := onWire_holds (c := c) (p := p) (f := f) hshaper
    have hpick := egressPick_of_strict hstart hgate hshaper hc hstrict hhead hhigher
    have hport : ∀ k, egAt (startFrame s port c) k = egAt (onWire s port c p f) k := fun k => by
      rw [egAt, hegress]; rfl
    have hqueue : ∀ k, eqAt (startFrame s port c) k = eqAt (onWire s port c p f) k := fun k => by
      rw [eqAt, hegress]; rfl
    exact ⟨_, _, congrArg Host.Outcome.next hpick, hegress, fun hstamp => (hwhole hstamp).trans honly,
      (congrArg EgressPort.sending (hport port)).trans hsending, (congrArg EgressQueue.parts (hqueue _)).trans hparts,
      fun k hk => (hqueue k).trans (hqueues k hk), fun k hk => (hport k).trans (hports k hk), hoff, hon⟩
  · obtain ⟨hgone, hkept⟩ := frameSent_leaves hlisted.1 hx hf hgot htail hmc hrefs hloop
    obtain ⟨pre, hpre⟩ := hkept.out
    have hport : ∀ k, egAt (frameSent port s) k = if k = port then { egAt s port with sending := none } else egAt s k := by
      intro k
      rw [egAt, hkept.ports]
      exact egAt_wireFreed ..
    refine ⟨_, pre, rfl, ?_, hgone, hkept.frames, fun k hk => ?_, hpre.symm⟩
    · rw [hport, if_pos rfl]
    · rw [hport, if_neg hk]

end Sys2Proof.Machine
end

