-- ==== Sys2Proof/Proofs/ShaperWrites.lean ====
section
/-! PROOF. A queue's shaper starts full, stops empty, and keeps its tokens across a change of its rate (08/R273, R274). -/

namespace Sys2Proof.Machine

/-! ### What a write puts in force -/

/-- A writable bit that takes effect at once is in force as it was written. -/
theorem getLsbD_force_shadowed {d : RegDesc} {i : Nat} (c : RegCell) (v : Word)
    (hwritable : (maskOf d.fields RField.writable).getLsbD i = true)
    (hnow : (maskOf d.fields (fun f => f.writable && (f.applies == .now || f.applies == .packet))).getLsbD i = true) :
    (shadowed d c v).force.getLsbD i = v.getLsbD i := by
  simp [shadowed, hwritable, hnow]

/-- A one-bit field is that bit of the value in force. -/
theorem fld_bit (s : State) (r : RegName) (ix : List Nat) (i : Nat) :
    fld s r ix i i = b2n ((regCell s r ix).force.getLsbD i) := by
  have hpow : 2 ^ (i + 1 - i) = 2 := by simp
  rw [BitVec.getLsbD, Nat.testBit_eq_decide_div_mod_eq, fld, inForce, bits, hpow]
  rcases Nat.mod_two_eq_zero_or_one ((regCell s r ix).force.toNat / 2 ^ i) with h | h <;> simp [h, b2n]

/-- EN of a queue's shaper takes effect as it is written. -/
theorem fld_shqCfg_landWrite (s : State) (ix : List Nat) (v : Nat) :
    fld (landWrite s .shqCfg ix v) .shqCfg ix 31 31 = b2n (bit v 31) := by
  rw [fld_bit, regCell_landWrite_same, getLsbD_force_shadowed _ _ (by decide +kernel) (by decide +kernel),
    BitVec.getLsbD_ofNat, Nat.testBit_eq_decide_div_mod_eq, bit]
  rfl

/-- RATE takes effect whole. -/
theorem inForce_shqRate_landWrite (s : State) (ix : List Nat) {v : Nat} (hv : v < 2 ^ 32) :
    inForce (landWrite s .shqRate ix v) .shqRate ix = v := by
  have hwritable : maskOf (RegName.desc .shqRate).fields RField.writable = BitVec.allOnes 32 := by decide +kernel
  have hnow : maskOf (RegName.desc .shqRate).fields
      (fun f => f.writable && (f.applies == .now || f.applies == .packet)) = BitVec.allOnes 32 := by decide +kernel
  rw [inForce, regCell_landWrite_same]
  simp only [shadowed, hwritable, hnow, BitVec.and_allOnes, BitVec.not_allOnes, BitVec.and_zero, BitVec.or_zero,
    BitVec.toNat_ofNat, Nat.mod_eq_of_lt hv]

/-- BURST stays in force across a write of another register of the queue. -/
theorem fld_shqBurst_landWrite (s : State) {r : RegName} (sl k v : Nat) (h : r = .shqCfg ∨ r = .shqRate) :
    fld (landWrite s r [sl, k] v) .shqBurst [sl, k] 23 0 = fld s .shqBurst [sl, k] 23 0 := by
  have hne : RegName.addr .shqBurst [sl, k] ≠ r.addr [sl, k] := by
    rcases h with rfl | rfl <;> simp [RegName.addr, RegName.desc, dimOffset]
  rw [fld, fld, inForce_landWrite_ne s r _ v _ _ hne]

/-! ### Buckets -/

theorem shapers_setShq (s : State) (q : Nat) (b : Bucket) (j : Nat) :
    tget Bucket.reset (setShq s q b).egress.shapers j = if j = q then b else tget Bucket.reset s.egress.shapers j :=
  tget_tins ..

theorem shqIx_of_place {sl k : Nat} (hk : k < 256) : shqIx (sl * 256 + k) = [sl, k] := by
  rw [shqIx, show (sl * 256 + k) / 256 = sl by omega, show (sl * 256 + k) % 256 = k by omega]

/-- The bucket that a write of EN leaves behind: full where the shaper starts, without state where it stops. -/
def switchedBucket (s : State) (ix : List Nat) (on : Bool) : Bucket :=
  if on then Bucket.full (fld s .shqBurst ix 23 0) s.time.tick else Bucket.reset

/-- A write of SHQ_CFG replaces the queue's bucket exactly when it changes EN. -/
theorem writeShaperCfg_shqCfg (s : State) (sl k v : Nat) :
    writeShaperCfg s .shqCfg [sl, k] v =
      if (fld s .shqCfg [sl, k] 31 31 = 1 ↔ bit v 31 = true) then landWrite s .shqCfg [sl, k] v
      else setShq (landWrite s .shqCfg [sl, k] v) (sl * 256 + k) (switchedBucket s [sl, k] (bit v 31)) := by
  have hon : (b2n (bit v 31) == 1) = bit v 31 := by cases bit v 31 <;> rfl
  have hsame : ((fld s .shqCfg [sl, k] 31 31 == 1) == bit v 31) = true ↔
      (fld s .shqCfg [sl, k] 31 31 = 1 ↔ bit v 31 = true) := by
    rw [beq_iff_eq, Bool.eq_iff_iff, beq_iff_eq]
  unfold writeShaperCfg
  simp only [fld_shqCfg_landWrite, fld_shqBurst_landWrite s sl k v (.inl rfl), landWrite_time, hon, hsame]
  rfl

/-- A write of SHQ_RATE brings an enabled shaper's bucket up to date at the old rate and caps it at the depth in force. -/
theorem writeShaperRate_shqRate (s : State) (sl v : Nat) {k : Nat} (hk : k < 256) :
    writeShaperRate s .shqRate [sl, k] v =
      if fld s .shqCfg [sl, k] 31 31 = 1 then setShq (landWrite s .shqRate [sl, k] v) (sl * 256 + k)
        ((shqBucket s (sl * 256 + k)).cap (fld s .shqBurst [sl, k] 23 0))
      else landWrite s .shqRate [sl, k] v := by
  have hon : shqOn s (sl * 256 + k) = true ↔ fld s .shqCfg [sl, k] 31 31 = 1 := by
    rw [shqOn, shqIx_of_place hk, beq_iff_eq]
  unfold writeShaperRate
  simp only [shqOf, List.getD_cons_zero, List.getD_cons_succ, fld_shqBurst_landWrite s sl k v (.inr rfl), hon]

/-- Settles O24: EN and RATE take effect as written while BURST stays, so the write is the landed value and at most one new
bucket, that of the queue. -/
theorem shaperWrites : Obligations.ShaperWrites := by
  intro s req v sl k hv _ hk q ix bucket
  refine ⟨fun h => ⟨writeShaperCfg s .shqCfg ix v, congrArg Host.Outcome.next (guarded_ok h (by decide)), ?_⟩,
    fun h => ⟨writeShaperRate s .shqRate ix v, congrArg Host.Outcome.next (guarded_ok h (by decide)), ?_⟩⟩
  · rw [writeShaperCfg_shqCfg]
    split
    · next hsame =>
      refine ⟨fun hoff hon => ?_, fun hon hoff => ?_, fun _ => landWrite_egress .., fun j _ => rfl⟩
      · rw [hsame.mpr hon] at hoff; cases hoff
      · rw [hsame.mp hon] at hoff; cases hoff
    · next hdiffers =>
      have hbucket := shapers_setShq (landWrite s .shqCfg ix v) q (switchedBucket s ix (bit v 31))
      refine ⟨fun _ hon => ?_, fun _ hoff => ?_, fun hsame => absurd hsame hdiffers, fun j hj => ?_⟩
      · exact (hbucket q).trans (by rw [if_pos rfl, hon]; rfl)
      · exact (hbucket q).trans (by rw [if_pos rfl, hoff]; rfl)
      · exact (hbucket j).trans (if_neg hj)
  · rw [writeShaperRate_shqRate s sl v hk]
    split
    · next hon =>
      have hbucket := shapers_setShq (landWrite s .shqRate ix v) q ((shqBucket s q).cap (fld s .shqBurst ix 23 0))
      refine ⟨inForce_shqRate_landWrite s ix hv, fun _ => ?_, fun hoff => ?_, fun j hj => (hbucket j).trans (if_neg hj)⟩
      · exact (hbucket q).trans (by rw [if_pos rfl, shqBucket, shqIx_of_place hk]; rfl)
      · rw [hon] at hoff; cases hoff
    · next hoff =>
      exact ⟨inForce_shqRate_landWrite s ix hv, fun hon => absurd hon hoff, fun _ => landWrite_egress .., fun j _ => rfl⟩

end Sys2Proof.Machine
end

