-- ==== Sys2Proof/Proofs/GateLists.lean ====
section
/-! PROOF. A gate list is armed and withdrawn by writes of GCL_ADMIN, takes over at its takeover time, and its spans give the
gates (08/R283, R286, R287). -/

namespace Sys2Proof.Machine

/-! ### Gates of ports -/

theorem egAt_of_ports {s t : State} (h : t.egress.ports = s.egress.ports) (k : Nat) : egAt t k = egAt s k := by
  rw [egAt, h]; rfl

theorem gate_modGate_same (s : State) (p : Nat) (f : GateState → GateState) :
    (egAt (modGate s p f) p).gate = f (egAt s p).gate := by
  rw [modGate, egAt_modEg, if_pos rfl]

theorem egAt_modGate_ne (s : State) {p k : Nat} (f : GateState → GateState) (h : k ≠ p) :
    egAt (modGate s p f) k = egAt s k := by
  rw [modGate, egAt_modEg, if_neg h]

theorem applyReg_ports (s : State) (r : RegName) (ix : List Nat) (b : Applies) :
    (applyReg s r ix b).egress.ports = s.egress.ports := by
  unfold applyReg
  split <;> rfl

theorem egrRaise_ports (s : State) (p flag : Nat) : (egrRaise s p flag).egress.ports = s.egress.ports := rfl

/-- The place of served time in the cycle decides the entry and the gates in force, and nothing else of the lists. -/
theorem follow_eq (g : GateState) (now : Nat) :
    ∃ entry gates, g.follow now = { g with entry := entry, gates := gates } := by
  unfold GateState.follow
  split <;> exact ⟨_, _, rfl⟩

/-! ### Arming -/

/-- Rounding a time up adds less than a nanosecond, so a base time in a later whole nanosecond has not passed. -/
theorem timeNsUp_le_succ (t : Int) : timeNsUp t ≤ timeNs t + 1 := by
  simp only [timeNsUp, timeNs, nsUnit]
  omega

/-- A write of GCL_ADMIN leaves the base time and the cycle written before. -/
theorem gclAdmin_landWrite_keeps (s : State) (a b v : Nat) :
    gclBase (landWrite s .gclAdmin [a, b] v) [a, b] = gclBase s [a, b] ∧
      lastWritten (landWrite s .gclAdmin [a, b] v) .gclCycle [a, b] = lastWritten s .gclCycle [a, b] := by
  have hkept : ∀ q : RegName, q.addr [a, b] ≠ RegName.addr .gclAdmin [a, b] →
      regCell (landWrite s .gclAdmin [a, b] v) q [a, b] = regCell s q [a, b] := fun q => regCell_landWrite_ne s _ _ v q _
  have hslo := hkept .gclBaseSlo (by simp [RegName.addr, RegName.desc, dimOffset])
  have hshi := hkept .gclBaseShi (by simp [RegName.addr, RegName.desc, dimOffset])
  have hns := hkept .gclBaseNs (by simp [RegName.addr, RegName.desc, dimOffset])
  have hcycle := hkept .gclCycle (by simp [RegName.addr, RegName.desc, dimOffset])
  simp only [gclBase, inForce, lastWritten, hslo, hshi, hns, hcycle, and_self]

/-- The change that a write of GCL_ADMIN arms for a base time ahead. -/
def changeAhead (s : State) (ix : List Nat) (v : Nat) : GatePending :=
  ⟨bit v 30, bits v 25 16 + 1, max 1000 (min 1000000000 (bits (lastWritten s .gclCycle ix) 29 0)), gclBase s ix, false⟩

/-- ARM 1 with a base time ahead makes the change pending, and no more. -/
theorem writeGclAdmin_of_ahead {s : State} {a b v : Nat} (harm : bit v 31 = true) (hahead : servedNow s < gclBase s [a, b]) :
    writeGclAdmin s [a, b] v = modGate (landWrite s .gclAdmin [a, b] v) (a * 32 + b)
      (fun g => { g with pending := some (changeAhead s [a, b] v) }) := by
  obtain ⟨hbase, hcycle⟩ := gclAdmin_landWrite_keeps s a b v
  have hup : timeNsUp s.time.served ≤ servedNow s + 1 := timeNsUp_le_succ ..
  have hnotlate : ¬ gclBase s [a, b] < timeNsUp s.time.served := by omega
  unfold writeGclAdmin
  simp [harm, hbase, hcycle, hnotlate, portOf, changeAhead]

/-- ARM 0 leaves no change pending. -/
theorem writeGclAdmin_of_withdrawn (s : State) (a b : Nat) {v : Nat} (hoff : bit v 31 = false) :
    writeGclAdmin s [a, b] v = applyReg (modGate (landWrite s .gclAdmin [a, b] v) (a * 32 + b)
      (fun g => { g with pending := none })) .gclAdmin [a, b] .atTime := by
  unfold writeGclAdmin
  rw [hoff]
  rfl

/-! ### Discards leave the ports' gates alone -/

section
variable (s : State) (id : Nat)

/-- Steps that each leave the ports alone leave them alone in turn. -/
theorem foldl_ports {g : State → Nat → State} (h : ∀ s k, (g s k).egress.ports = s.egress.ports) (l : List Nat)
    (s : State) : (l.foldl g s).egress.ports = s.egress.ports :=
  List.foldlRecOn l g rfl (motive := fun t => t.egress.ports = s.egress.ports) (fun u hu k _ => (h u k).trans hu)

/-- Where nothing that is done with a frame changes the ports, they stand with the frame and without it. -/
theorem onFrame_ports {s u : State} {id : Nat} {g : Frame → State} (hu : u.egress.ports = s.egress.ports)
    (hg : ∀ f, (g f).egress.ports = s.egress.ports) : (onFrame u id g).egress.ports = s.egress.ports := by
  unfold onFrame
  split
  · exact hu
  · exact hg _

theorem modFrame_ports (g : Frame → Frame) : (modFrame s id g).egress.ports = s.egress.ports :=
  (fabricKept_modFrame s id g).ports

theorem freeCell_ports (sl cell : Nat) : (freeCell s sl cell).egress.ports = s.egress.ports := by
  unfold freeCell
  extract_lets c
  split
  · rw [logUe]
    obtain ⟨log, fresh, hlog⟩ := rimLog_eq (crlLast (raiseEv (cntSl s sl 0x281) .crlEvent [sl] [0]) sl 0 cell) 0x25 false
      (le 4 0x07 ++ le 4 cell ++ le 4 0)
    rw [hlog]
    exact (sideKept_bump s (sl + 1) 0x281 1).ports
  · rfl

theorem freeCells_ports (sl q : Nat) (cells : List Nat) : (freeCells s sl q cells).egress.ports = s.egress.ports :=
  foldl_ports (fun u cell => freeCell_ports u sl cell) cells s

theorem releaseFrame_ports : (releaseFrame s id).egress.ports = s.egress.ports := by
  refine onFrame_ports rfl fun f => ?_
  extract_lets s1 egress s2 s3 s4
  have hsnap : s4.egress.ports = s.egress.ports := by
    unfold s4
    split <;> rfl
  split
  · exact (sideKept_headLeave ..).ports.trans hsnap
  · exact hsnap

theorem verdictGood_ports : (verdictGood s id).egress.ports = s.egress.ports := by
  refine onFrame_ports rfl fun f => ?_
  extract_lets s1 s2
  have hlearn : s1.egress.ports = s.egress.ports := (sideKept_learnAtIngress s f).ports
  split
  · exact (modFrame_ports ..).trans ((sideKept_outstandingSub ..).ports.trans hlearn)
  · exact hlearn

theorem refsGone_ports : (refsGone s id).egress.ports = s.egress.ports := by
  refine onFrame_ports rfl fun f => ?_
  extract_lets s1
  have hfreed : s1.egress.ports = s.egress.ports :=
    onFrame_ports rfl fun g => (modFrame_ports ..).trans (freeCells_ports ..)
  split
  · split
    · exact (releaseFrame_ports ..).trans ((verdictGood_ports ..).trans hfreed)
    · exact (releaseFrame_ports ..).trans ((frameAlone_verdictBad ..).ports.trans hfreed)
  · split
    · exact (releaseFrame_ports ..).trans hfreed
    · exact hfreed

theorem dropRef_ports : (dropRef s id).egress.ports = s.egress.ports := by
  have hfewer : (modFrame s id (fun f => { f with refs := f.refs - 1 })).egress.ports = s.egress.ports := modFrame_ports ..
  refine onFrame_ports hfewer fun f => ?_
  split
  · exact (refsGone_ports ..).trans hfewer
  · exact hfewer

theorem frameLeft_ports : (frameLeft s id).egress.ports = s.egress.ports := by
  refine onFrame_ports rfl fun f => ?_
  split
  · exact releaseFrame_ports ..
  · extract_lets s1
    have hsnap : s1.egress.ports = s.egress.ports := by
      unfold s1
      split <;> rfl
    exact (modFrame_ports ..).trans hsnap

theorem discardCrossed_ports : (discardCrossed s id).egress.ports = s.egress.ports := by
  refine onFrame_ports rfl fun f => ?_
  split
  · exact dropRef_ports ..
  · exact (frameLeft_ports ..).trans ((frameAlone_verdictBad ..).ports.trans (sideKept_stampLost ..).ports)

/-- Gate-oversize heads that are discarded leave every port as it was. -/
theorem dropOversize_ports (port c n : Nat) : (dropOversize port c n s).egress.ports = s.egress.ports := by
  induction n generalizing s with
  | zero => rfl
  | succ n ih =>
    unfold dropOversize
    split
    · rfl
    · exact (ih _).trans ((discardCrossed_ports ..).trans (sideKept_bump ..).ports)

theorem judgeHeads_ports (port c : Nat) : (judgeHeads s port c).egress.ports = s.egress.ports := dropOversize_ports ..

end

/-! ### Takeover -/

/-- The admin bank runs as an armed change has it, from the change's takeover time on. -/
def GateState.takenOver (g : GateState) (c : GatePending) : GateState :=
  { g with pending := none, running := true, oper := 1 - g.oper, len := c.len, cycle := c.cycle, start := takeoverAt g c }

/-- The event of a takeover, and the heads judged by the new list, leave the port's gates as the takeover set them. -/
theorem gate_gclTakeover {s : State} {p : Nat} {c : GatePending} (hpending : (egAt s p).gate.pending = some c)
    (hreached : c.reached = true) (henable : c.enable = true) (hdue : takeoverAt (egAt s p).gate c ≤ servedNow s) :
    (egAt (gclTakeover p s) p).gate = ((egAt s p).gate.takenOver c).follow (servedNow s) := by
  have hheads := foldl_ports (fun u k => judgeHeads_ports u p k) (List.range 8)
  unfold gclTakeover
  rw [hpending]
  dsimp only
  rw [if_pos (by simp [hreached, hdue]), if_neg (by simp [henable]), egAt_of_ports (hheads _),
    egAt_of_ports (egrRaise_ports ..), gate_modGate_same, if_pos henable]
  rfl

/-- Settles O25: each step changes the gates of its port alone; a takeover sets them first, and the discards after it leave
the ports as they are. -/
theorem gateLists : Obligations.GateLists := by
  intro s req v a b _ _ p g
  refine ⟨fun h harm hahead => ?_, fun h hoff => ?_, fun c hpending hreached henable hdue => ?_, ?_⟩
  · have hexec : exec (.gclArm req (RegName.addr .gclAdmin [a, b]) v) s = .next (writeGclAdmin s [a, b] v) :=
      congrArg Host.Outcome.next ((guarded_ok h (by decide)).trans (if_pos harm))
    rw [writeGclAdmin_of_ahead harm hahead] at hexec
    exact ⟨_, changeAhead s [a, b] v, hexec, gate_modGate_same .., rfl, rfl, rfl, rfl, Nat.le_max_left ..,
      Nat.max_le.mpr ⟨by decide, Nat.min_le_left ..⟩, fun q hq => egAt_modGate_ne _ _ hq⟩
  · have hexec : exec (.gclWithdraw req (RegName.addr .gclAdmin [a, b]) v) s = .next (writeGclAdmin s [a, b] v) :=
      congrArg Host.Outcome.next ((guarded_ok h (by decide)).trans (if_neg (by simp [hoff])))
    rw [writeGclAdmin_of_withdrawn s a b hoff] at hexec
    refine ⟨_, hexec, ?_, fun q hq => ?_⟩ <;> rw [egAt_of_ports (applyReg_ports ..)]
    · exact gate_modGate_same ..
    · exact egAt_modGate_ne _ _ hq
  · have hgate := gate_gclTakeover hpending hreached henable hdue
    obtain ⟨entry, gates, hfollow⟩ := follow_eq (g.takenOver c) (servedNow s)
    have hset := hgate.trans hfollow
    refine ⟨gclTakeover p s, rfl, ?_⟩
    rw [hset]
    exact ⟨rfl, rfl, rfl, rfl, rfl, rfl⟩
  · exact ⟨modGate s p (fun g => g.follow (servedNow s)), rfl, gate_modGate_same .., fun q hq => egAt_modGate_ne _ _ hq⟩

end Sys2Proof.Machine
end

