-- ==== Sys2Proof/Proofs/FailedTraining.lean ====
section
/-! PROOF. A second turn of a start with more than 8 training failures sends events to the host before it resets the device
(18/R511, Table 18-8; 19/R530): a statement that keeps what has been sent fails. -/

namespace Sys2Proof.Machine

/-- A device whose Rim has started, with the events of the HBM controllers routed to an enabled event ring. -/
def startedWithEventRing : State :=
  { State.reset with
    regs := { State.reset.regs with cells := [(RegName.addr .evtRoute [12], ⟨0x80000000#32, 0x80000000#32, false⟩)] }
    host := { State.reset.host with rings := [(ringId 0 2 0, { Ring.reset with en := true })] }
    rim := { State.reset.rim with started := true }
    power := { State.reset.power with stackPwr := 15 } }

/-- What training finds where five channels, ten pseudo-channels, have no wide command and address window. -/
def fiveChannelsFail : StartInfo := ⟨false, false, true, [], [0, 1, 2, 3, 4], [], []⟩

/-- Ten failures are more than the 8 that a start gets over (19/R530). -/
theorem trainFailures_fiveChannelsFail : 8 < (trainFailures fiveChannelsFail).length := by decide +kernel

/-- The retirements are posted as events, and the events leave for the host. -/
theorem out_after_failedTraining : (deviceStart fiveChannelsFail startedWithEventRing).out ≠ [] := by decide +kernel

/-- Refutes O59: a second turn with more than 8 failures is to reset the device with nothing sent before, but each retirement at
training is posted as an HBM event, which an enabled event ring of the host takes. -/
theorem not_startsAndResets : ¬ Obligations.StartsAndResets := by
  intro h
  obtain ⟨-, hsecond, -⟩ := h startedWithEventRing
  obtain ⟨hfails, -⟩ := hsecond fiveChannelsFail rfl rfl rfl rfl rfl rfl
  obtain ⟨t, log, fresh, hexec, -, -, rim, ht, -⟩ := hfails trainFailures_fiveChannelsFail
  have hrun : deviceStart fiveChannelsFail startedWithEventRing = t := Host.Outcome.next.inj hexec
  have hstated : (deviceStart fiveChannelsFail startedWithEventRing).out = [] := by rw [hrun, ht]; rfl
  exact out_after_failedTraining hstated

end Sys2Proof.Machine
end

