-- ==== Sys2Proof/Proofs/EpochSwitch.lean ====
section
/-! SUPPORT. What log entries and posted events leave alone, and the switch of the banks: the open epoch closes, the settings and a
pending lifecycle take effect, the next epoch opens (09/R295, R298; 16/R476). -/

namespace Sys2Proof.Machine

/-! ### The log and the events -/

/-- Entries in the log and events posted are all that tell two states apart, and no log entry is taken back. -/
structure Recorded (s t : State) : Prop where
  footprint : ∃ fresh out log host, t = { s with fresh := fresh, out := out, log := log, host := host }
  next : s.log.next ≤ t.log.next

namespace Recorded

variable {s t u : State}

theorem refl (s : State) : Recorded s s := ⟨⟨_, _, _, _, rfl⟩, le_rfl⟩

theorem trans (a : Recorded s t) (b : Recorded t u) : Recorded s u := by
  obtain ⟨fresh, out, log, host, rfl⟩ := a.footprint
  obtain ⟨fresh', out', log', host', hu⟩ := b.footprint
  exact ⟨⟨fresh', out', log', host', hu⟩, a.next.trans b.next⟩

theorem lid (h : Recorded s t) : t.lid = s.lid := by obtain ⟨_, _, _, _, rfl⟩ := h.footprint; rfl
theorem regs (h : Recorded s t) : t.regs = s.regs := by obtain ⟨_, _, _, _, rfl⟩ := h.footprint; rfl
theorem rim (h : Recorded s t) : t.rim = s.rim := by obtain ⟨_, _, _, _, rfl⟩ := h.footprint; rfl
theorem time (h : Recorded s t) : t.time = s.time := by obtain ⟨_, _, _, _, rfl⟩ := h.footprint; rfl
theorem skein (h : Recorded s t) : t.skein = s.skein := by obtain ⟨_, _, _, _, rfl⟩ := h.footprint; rfl
theorem frames (h : Recorded s t) : t.frames = s.frames := by obtain ⟨_, _, _, _, rfl⟩ := h.footprint; rfl

end Recorded

theorem next_trim (n : Nat) (l : LogState) : (l.trim n).next = l.next := by
  induction n generalizing l with
  | zero => rfl
  | succ n ih =>
    unfold LogState.trim
    split
    · rfl
    · split
      · rfl
      · exact ih _

theorem next_pushLog (s : State) (type : Nat) (sec : Bool) (body : List Byte) :
    (pushLog s type sec body).log.next = s.log.next + 1 := next_trim ..

theorem next_checkpoint (s : State) : (checkpoint s).log.next = s.log.next + 1 := by
  obtain ⟨b, n, h⟩ := signature_eq s s.rim.otp.lifecycle
  simp only [checkpoint, h]
  exact next_pushLog ..

/-- Every entry takes a sequence number of its own. -/
theorem next_rimLog (s : State) (type : Nat) (sec : Bool) (body : List Byte) :
    s.log.next < (rimLog s type sec body).log.next := by
  unfold rimLog
  extract_lets s1 s2
  have hpush : s1.log.next = s.log.next + 1 := next_pushLog ..
  have hone : s.log.next < s2.log.next := by
    unfold s2
    split
    · have := next_checkpoint s1
      omega
    · omega
  split
  · have := next_checkpoint s2
    omega
  · exact hone

theorem recorded_rimLog (s : State) (type : Nat) (sec : Bool) (body : List Byte) : Recorded s (rimLog s type sec body) := by
  obtain ⟨log, fresh, h⟩ := rimLog_eq s type sec body
  exact ⟨⟨fresh, s.out, log, s.host, h⟩, (next_rimLog ..).le⟩

theorem recorded_postEvent (s : State) (src : Nat) (body : List Byte) : Recorded s (postEvent s src body) := by
  obtain ⟨host, out, h⟩ := postEvent_eq s src body
  rw [h]
  exact ⟨⟨s.fresh, out, s.log, host, rfl⟩, le_rfl⟩

theorem recorded_lidEvent (s : State) (kind arg seq : Nat) : Recorded s (lidEvent s kind arg seq) := recorded_postEvent ..

theorem recorded_rimEventPost (s : State) (kind arg value : Nat) : Recorded s (rimEventPost s kind arg value) :=
  recorded_postEvent ..

theorem recorded_logLifecycle (s : State) (src dst step : Nat) : Recorded s (logLifecycle s src dst step) := recorded_rimLog ..

/-- A gap is flagged in LID_EVENT, logged and posted. -/
theorem recorded_gapNotice (s : State) (seq kind arg n : Nat) :
    Recorded (raiseEv s .lidEvent [] [3]) (gapNotice s seq kind arg n) := (recorded_rimLog ..).trans (recorded_lidEvent ..)

/-- A burn that verifies, or that changes nothing, starts no transition (16/R469). -/
theorem burnChecked_of_verified {s t : State} {fails : Bool} (h : fails = false ∨ t.rim.otp = s.rim.otp) :
    burnChecked s t fails = t := by
  unfold burnChecked
  rw [if_neg]
  rintro ⟨hfails, hotp⟩
  rcases h with h | h
  · simp [h] at hfails
  · exact hotp h

/-! ### The banks switch -/

/-- The open epoch as it closes: its tamper gap says whether an assertion is in progress. -/
def closeBegun (s : State) (how : Nat) (offset : Int) (life : Nat) : Closing :=
  ⟨{ s.lid.epoch with gaps := s.lid.epoch.gaps.map (fun g => if g.kind = 4 then { g with arg := b2n s.rim.tamper } else g) },
    .drain, servedSec s, servedNs s, s.time.tick, how, offset, 0, life, []⟩

/-- The open epoch begins to close: the Lid says so, and the task of the close is posted. -/
theorem closeOpen_eq (s : State) (how : Nat) (offset : Int) (life : Nat) :
    ∃ sched, closeOpen s how offset life = { s with
      lid := { s.lid with
        opened := false, deferred := false, closing := some (closeBegun s how offset life)
        epoch := { Epoch.zero with seq := s.lid.epoch.seq + 1 } }
      sched := sched } := ⟨_, rfl⟩

/-- Token buckets of the learn limits are all that tell two states apart. -/
def TokensOnly (s t : State) : Prop :=
  ∃ tokens ticks, t = { s with skein := { s.skein with tokens := tokens, tokensTick := ticks } }

theorem TokensOnly.refl (s : State) : TokensOnly s s := ⟨_, _, rfl⟩

theorem TokensOnly.trans {s t u : State} (a : TokensOnly s t) (b : TokensOnly t u) : TokensOnly s u := by
  obtain ⟨_, _, rfl⟩ := a
  obtain ⟨tokens, ticks, rfl⟩ := b
  exact ⟨tokens, ticks, rfl⟩

theorem TokensOnly.foldl {α : Type} {g : State → α → State} (hg : ∀ s a, TokensOnly s (g s a)) (l : List α) (s : State) :
    TokensOnly s (l.foldl g s) := by
  induction l generalizing s with
  | nil => exact .refl s
  | cons a l ih => exact (hg s a).trans (ih _)

theorem tokensOnly_setTokens (s : State) (port v : Nat) : TokensOnly s (setTokens s port v) := ⟨_, _, rfl⟩

/-- The settings of an epoch change registers and token buckets. -/
theorem settingsApply_eq (s : State) : ∃ regs tokens ticks, settingsApply s =
    { s with regs := regs, skein := { s.skein with tokens := tokens, tokensTick := ticks } } := by
  unfold settingsApply
  extract_lets on ports was s1 s2
  have hwas : TokensOnly s s1 := .foldl (fun _ _ => tokensOnly_setTokens ..) _ _
  have hports (u : State) : TokensOnly u (ports.foldl (fun s p => if on s p then
      let full := max 1 (fld s .lrnBurst (portIx p) 15 0) * tokenUnit
      setTokens s p (if was.contains p then min full (tget 0 s.skein.tokens p) else full) else s) u) := by
    refine .foldl (fun u p => ?_) _ _
    split
    · exact tokensOnly_setTokens ..
    · exact .refl u
  obtain ⟨_, _, hs1⟩ := hwas
  obtain ⟨tokens, ticks, hs2⟩ := hports s2
  refine ⟨s2.regs, tokens, ticks, hs2.trans ?_⟩
  unfold s2
  rw [hs1]
  rfl

/-- The Rim once a pending transition of the lifecycle has taken effect. -/
def RimState.lifecycleTaken (r : RimState) : RimState :=
  if r.pendingLc = 0 then r
  else { r with
    lifecycle := r.pendingLc, pendingLc := 0, otp := { r.otp with lifecycle := max r.otp.lifecycle r.pendingLc }
    tap := tapUnder r.pendingLc r.tap }

theorem lifecycle_lifecycleTaken (r : RimState) :
    r.lifecycleTaken.lifecycle = if r.pendingLc = 0 then r.lifecycle else r.pendingLc := by
  unfold RimState.lifecycleTaken
  split <;> rfl

theorem pendingLc_lifecycleTaken (r : RimState) : r.lifecycleTaken.pendingLc = 0 := by
  unfold RimState.lifecycleTaken
  split
  · assumption
  · rfl

theorem transition_lifecycleTaken (r : RimState) : r.lifecycleTaken.transition = r.transition := by
  unfold RimState.lifecycleTaken
  split <;> rfl

/-- A transition that takes effect changes the Rim, and is logged and posted. -/
theorem lifecycleApply_eq (s : State) : ∃ fresh out regs log host, lifecycleApply s =
    { s with fresh := fresh, out := out, regs := regs, log := log, host := host, rim := s.rim.lifecycleTaken } := by
  by_cases hnone : s.rim.pendingLc = 0
  · rw [lifecycleApply, RimState.lifecycleTaken, if_pos hnone, if_pos hnone]
    exact ⟨_, _, _, _, _, rfl⟩
  · have hlogs := (recorded_logLifecycle s s.rim.lifecycle s.rim.pendingLc 1).trans
      (recorded_logLifecycle _ s.rim.lifecycle s.rim.pendingLc 2)
    obtain ⟨fresh, out, log, host, hu⟩ := hlogs.footprint
    rw [lifecycleApply, RimState.lifecycleTaken, if_neg hnone, if_neg hnone]
    dsimp only
    rw [hu]
    obtain ⟨_, _, _, _, hpost⟩ := (recorded_rimEventPost _ 7 s.rim.pendingLc s.rim.fwLevel).footprint
    exact ⟨_, _, _, _, _, hpost⟩

/-- The epoch that opens now under a sequence. -/
def epochOpened (s : State) (seq how : Nat) (first : Bool) : Epoch :=
  ⟨seq, servedSec s, servedNs s, s.time.tick, how, [], epochSettings s, [(s.rules.current, versionDigest s s.rules.current)],
    false, first⟩

theorem recorded_openEpoch (s : State) (seq how : Nat) (first : Bool) :
    Recorded { s with lid := { s.lid with opened := true, epoch := epochOpened s seq how first } } (openEpoch s seq how first) :=
  recorded_rimLog ..

/-- The banks have switched (09/R295, R298): the open epoch drains, closed this way and at this offset, the next one is open,
and a pending transition of the lifecycle is in force; counts, images, frames and outstanding frames stand. -/
structure BanksSwitched (s : State) (how : Nat) (offset : Int) (t : State) : Prop where
  footprint : ∃ fresh out regs log host skein rim lid sched, t = { s with
    fresh := fresh, out := out, regs := regs, log := log, host := host, sched := sched
    skein := skein, rim := rim, lid := lid }
  opened : t.lid.opened = true
  deferred : t.lid.deferred = false
  seq : t.lid.epoch.seq = s.lid.epoch.seq + 1
  openHow : t.lid.epoch.openHow = how
  openTick : t.lid.epoch.openTick = s.time.tick
  gaps : t.lid.epoch.gaps = []
  closing : t.lid.closing = some (closeBegun s how offset s.rim.lifecycle)
  rim : t.rim = s.rim.lifecycleTaken
  zones : t.lid.zones = s.lid.zones
  ports : t.lid.ports = s.lid.ports
  classes : t.lid.classes = s.lid.classes
  outstanding : t.lid.outstanding = s.lid.outstanding
  ways : t.skein.ways = s.skein.ways
  hot : t.skein.hot = s.skein.hot
  cold : t.skein.cold = s.skein.cold

/-- The Lid's next nominal boundary after a switch. -/
def boundaryAfter (s : State) (how : Nat) (t : State) : Nat :=
  if lenOf t.lid.epoch.cfg == lenOf s.lid.epoch.cfg && how != 4 then t.lid.nextBoundary + secNs (lenOf t.lid.epoch.cfg)
  else nominalAfter (lenOf t.lid.epoch.cfg) (timeNs s.time.served)

/-- The open epoch drains, and the settings and the lifecycle of the next one are in force, which is yet to open. -/
def epochTurned (s : State) (how : Nat) (offset : Int) : State :=
  lifecycleApply (settingsApply (closeOpen s how offset s.rim.lifecycle))

theorem epochTurned_eq (s : State) (how : Nat) (offset : Int) :
    ∃ fresh out regs log host tokens ticks sched, epochTurned s how offset = { s with
      fresh := fresh, out := out, regs := regs, log := log, host := host, sched := sched
      skein := { s.skein with tokens := tokens, tokensTick := ticks }
      rim := s.rim.lifecycleTaken
      lid := { s.lid with
        opened := false, deferred := false, closing := some (closeBegun s how offset s.rim.lifecycle)
        epoch := { Epoch.zero with seq := s.lid.epoch.seq + 1 } } } := by
  obtain ⟨sched, hclose⟩ := closeOpen_eq s how offset s.rim.lifecycle
  rw [epochTurned, hclose]
  obtain ⟨regs, tokens, ticks, hset⟩ := settingsApply_eq { s with
    lid := { s.lid with
      opened := false, deferred := false, closing := some (closeBegun s how offset s.rim.lifecycle)
      epoch := { Epoch.zero with seq := s.lid.epoch.seq + 1 } }
    sched := sched }
  rw [hset]
  obtain ⟨fresh, out, regs', log, host, hlife⟩ := lifecycleApply_eq _
  exact ⟨fresh, out, regs', log, host, tokens, ticks, sched, hlife⟩

/-- The epoch opens in the device so turned, which sets the next nominal boundary. -/
theorem switchBanks_of_turned {s u : State} {how : Nat} {offset : Int} (h : epochTurned s how offset = u) :
    switchBanks s how offset = { openEpoch u u.lid.epoch.seq how false with
      lid := { (openEpoch u u.lid.epoch.seq how false).lid with
        nextBoundary := boundaryAfter s how (openEpoch u u.lid.epoch.seq how false) } } := by
  subst h
  unfold switchBanks epochTurned boundaryAfter
  dsimp only

theorem switchBanks_switches (s : State) (how : Nat) (offset : Int) : BanksSwitched s how offset (switchBanks s how offset) := by
  obtain ⟨_, _, _, _, _, _, _, _, hturned⟩ := epochTurned_eq s how offset
  rw [switchBanks_of_turned rfl]
  generalize epochTurned s how offset = u at hturned ⊢
  obtain ⟨_, _, _, _, hopen⟩ := (recorded_openEpoch u u.lid.epoch.seq how false).footprint
  rw [hopen]
  subst hturned
  exact ⟨⟨_, _, _, _, _, _, _, _, _, rfl⟩, rfl, rfl, rfl, rfl, rfl, rfl, rfl, rfl, rfl, rfl, rfl, rfl, rfl, rfl, rfl⟩

/-- A switch with no transition of the lifecycle pending burns nothing. -/
theorem BanksSwitched.verified {s t : State} {how : Nat} {offset : Int} {fails : Bool} (h : BanksSwitched s how offset t)
    (hburn : fails = false ∨ s.rim.pendingLc = 0) : fails = false ∨ t.rim.otp = s.rim.otp :=
  hburn.imp_right fun hnone => by rw [h.rim, RimState.lifecycleTaken, if_pos hnone]

end Sys2Proof.Machine
end

