-- ==== Sys2Proof/Proofs/EpochBoundaries.lean ====
section
/-! PROOF. The boundary, the sync pulse and its timeout switch the banks or are noted (09/R299, R300, R306), and standby ends for a
close (19/R538). -/

namespace Sys2Proof.Machine

section
variable {s : State}

/-- The nominal boundary without SYNC_EN. -/
theorem epochBoundary_of_due (hawaits : awaitsBoundary s = true) (hsync : syncEn s = false)
    (hdue : s.lid.nextBoundary ≤ timeNs s.time.served) : epochBoundary s = boundary s 0 0 := by
  simp [epochBoundary, hawaits, hsync, hdue]

theorem syncTimeout_of_due (hawaits : awaitsBoundary s = true) (hsync : syncEn s = true)
    (hdue : s.lid.nextBoundary + syncWindow s ≤ timeNs s.time.served) :
    syncTimeout s = boundary s 2 (syncWindow s : Nat) := by
  simp [syncTimeout, hawaits, hsync, hdue]

theorem boundary_of_idle (hclosing : s.lid.closing = none) (how : Nat) (offset : Int) :
    boundary s how offset = switchBanks s how offset := by
  simp [boundary, hclosing]

/-- While a close runs a boundary is noted in the Lid and raises BOUNDARY_DEFERRED. -/
theorem boundary_of_closing (hclosing : s.lid.closing.isSome = true) (how : Nat) (offset : Int) :
    (boundary s how offset).rim = s.rim ∧
      (boundary s how offset).lid = { s.lid with deferred := true, epoch := { s.lid.epoch with deferred := true } } ∧
      eventAt (boundary s how offset) (RegName.addr .lidEvent []) = (eventAt s (RegName.addr .lidEvent [])).raise [2] := by
  have hnoted : Recorded { raiseEv s .lidEvent [] [2] with
      lid := { s.lid with deferred := true, epoch := { s.lid.epoch with deferred := true } } } (boundary s how offset) := by
    rw [boundary, if_pos hclosing]
    exact recorded_lidEvent ..
  refine ⟨hnoted.rim, hnoted.lid, ?_⟩
  rw [eventAt, hnoted.regs]
  exact (eventAt_raiseEv s .lidEvent [] [2] _).trans (if_pos rfl)

/-- What a pulse notes before it is judged: its offset, and the window it lies in. -/
def pulseNoted (s : State) : State :=
  { forceReg s .lidSyncLast [] (ofInt 32 (pulseOffset s)) with
    lid := { s.lid with pulseWindow := if (windowNow s).isSome then windowNow s else s.lid.pulseWindow } }

/-- A pulse switches the banks when it is the first of its window, lies in that of the next boundary, and no close runs. -/
def pulseTaken (s : State) : Bool :=
  awaitsBoundary s && syncEn s && s.lid.closing.isNone && !((windowNow s).isSome && s.lid.pulseWindow == windowNow s) &&
    decide (-(syncWindow s : Int) ≤ boundaryOffset s) && decide (boundaryOffset s ≤ (syncWindow s : Int))

/-- A pulse that is not taken raises SYNC_IGNORED and is logged and posted. -/
def pulseIgnored (s : State) : State :=
  let u := raiseEv (pulseNoted s) .lidEvent [] [1]
  lidEvent (rimLog u 0x21 false (le 1 6 ++ zeros 3 ++ le 8 u.time.tick ++ le 4 (ofInt 32 (pulseOffset s)))) 2
    (ofInt 32 (pulseOffset s)) s.lid.epoch.seq

theorem epochSyncPulse_eq (s : State) : epochSyncPulse s =
    if pulseTaken s then switchBanks (pulseNoted s) 1 (boundaryOffset s) else pulseIgnored s := by
  let u := forceReg s .lidSyncLast [] (ofInt 32 (pulseOffset s))
  have hnoted : (if (windowNow s).isSome then { u with lid := { u.lid with pulseWindow := windowNow s } } else u) =
      pulseNoted s := by
    unfold pulseNoted
    split <;> rfl
  have hlid (body : List Byte) : (rimLog (raiseEv (pulseNoted s) .lidEvent [] [1]) 0x21 false body).lid.epoch = s.lid.epoch := by
    rw [(recorded_rimLog ..).lid]
    rfl
  unfold epochSyncPulse
  dsimp only
  rw [hnoted, hlid]
  rfl

theorem pulseTaken_iff : pulseTaken s = true ↔
    awaitsBoundary s = true ∧ syncEn s = true ∧ s.lid.closing = none ∧
      ¬ ((windowNow s).isSome = true ∧ s.lid.pulseWindow = windowNow s) ∧
      -(syncWindow s : Int) ≤ boundaryOffset s ∧ boundaryOffset s ≤ (syncWindow s : Int) := by
  simp only [pulseTaken, Bool.and_eq_true, Bool.not_eq_true', Bool.and_eq_false_iff, Option.isNone_iff_eq_none,
    decide_eq_true_eq, and_assoc, not_and_or, beq_eq_false_iff_ne, Bool.not_eq_true, ne_eq]

theorem not_pulseTaken (h : awaitsBoundary s = false ∨ syncEn s = false ∨ s.lid.closing.isSome = true ∨
    boundaryOffset s < -(syncWindow s : Int) ∨ (syncWindow s : Int) < boundaryOffset s ∨
      ((windowNow s).isSome = true ∧ s.lid.pulseWindow = windowNow s)) : ¬ pulseTaken s = true := by
  intro htaken
  obtain ⟨hawaits, hsync, hidle, hfirst, hlow, hhigh⟩ := pulseTaken_iff.mp htaken
  rcases h with h | h | h | h | h | h
  · simp [h] at hawaits
  · simp [h] at hsync
  · simp [hidle] at h
  · exact absurd hlow (not_le.mpr h)
  · exact absurd hhigh (not_le.mpr h)
  · exact hfirst h

/-- A pulse that is taken finds the banks as they were. -/
theorem epochSyncPulse_of_taken (h : pulseTaken s = true) : BanksSwitched s 1 (boundaryOffset s) (epochSyncPulse s) := by
  rw [epochSyncPulse_eq, if_pos h]
  have h := switchBanks_switches (pulseNoted s) 1 (boundaryOffset s)
  exact ⟨h.footprint, h.opened, h.deferred, h.seq, h.openHow, h.openTick, h.gaps, h.closing, h.rim, h.zones, h.ports, h.classes,
    h.outstanding, h.ways, h.hot, h.cold⟩

theorem recorded_pulseIgnored (s : State) : Recorded (raiseEv (pulseNoted s) .lidEvent [] [1]) (pulseIgnored s) :=
  (recorded_rimLog ..).trans (recorded_lidEvent ..)

theorem ofInt_lt (w : Nat) (x : Int) : ofInt w x < 2 ^ w := by
  unfold ofInt
  have := Int.emod_lt_of_pos x (b := ((2 ^ w : Nat) : Int)) (by positivity)
  have := Int.emod_nonneg x (b := ((2 ^ w : Nat) : Int)) (by positivity)
  omega

/-- A pulse that is not taken leaves the epochs, shows its offset and raises SYNC_IGNORED. -/
theorem pulseIgnored_holds (s : State) :
    (pulseIgnored s).rim = s.rim ∧ (pulseIgnored s).skein = s.skein ∧ (pulseIgnored s).lid = (pulseNoted s).lid ∧
      inForce (pulseIgnored s) .lidSyncLast [] = ofInt 32 (pulseOffset s) ∧ s.log.next < (pulseIgnored s).log.next ∧
      eventAt (pulseIgnored s) (RegName.addr .lidEvent []) = (eventAt s (RegName.addr .lidEvent [])).raise [1] := by
  have hrec := recorded_pulseIgnored s
  have hevent : eventAt (pulseIgnored s) (RegName.addr .lidEvent []) = (eventAt s (RegName.addr .lidEvent [])).raise [1] := by
    rw [eventAt, hrec.regs]
    exact (eventAt_raiseEv (pulseNoted s) .lidEvent [] [1] _).trans (if_pos rfl)
  have hoffset : inForce (pulseIgnored s) .lidSyncLast [] = ofInt 32 (pulseOffset s) := by
    rw [inForce_of_cells (congrArg RegState.cells hrec.regs)]
    exact (inForce_forceReg_same ..).trans (Nat.mod_eq_of_lt (ofInt_lt ..))
  refine ⟨hrec.rim, hrec.skein, hrec.lid, hoffset, ?_, hevent⟩
  exact (next_rimLog (raiseEv (pulseNoted s) .lidEvent [] [1]) ..).trans_le (recorded_lidEvent ..).next

end

/-- Leaving self-refresh changes stacks alone. -/
theorem selfRefresh_eq (s : State) (b : Bool) :
    ∃ stks, selfRefresh s b = { s with hbm := { s.hbm with stks := stks } } := by
  unfold selfRefresh
  generalize setBits s.power.stackPwr 4 = l
  induction l generalizing s with
  | nil => exact ⟨_, rfl⟩
  | cons k l ih => exact ih (modStk s k _)

/-- Settles O48: a boundary without a close, a pulse that is taken and the end of a window without a pulse are the one switch
of the banks; the others are noted. -/
theorem epochBoundaries : Obligations.EpochBoundaries := by
  intro s now w switched
  have hswitched {t : State} {how : Nat} {offset : Int} (h : BanksSwitched s how offset t) : switched t how offset :=
    ⟨h.footprint, h.opened, h.deferred, h.seq, h.openHow, h.openTick, h.gaps,
      ⟨_, h.closing, rfl, rfl, rfl, rfl, rfl, rfl⟩, by rw [h.rim, lifecycle_lifecycleTaken],
      by rw [h.rim, pendingLc_lifecycleTaken], h.zones, h.ports, h.classes, h.outstanding, h.ways, h.hot, h.cold⟩
  have hchecked {t : State} {how : Nat} {offset : Int} {b : Bool} (hburn : b = false ∨ s.rim.pendingLc = 0)
      (h : BanksSwitched s how offset t) : switched (burnChecked s t b) how offset := by
    rw [burnChecked_of_verified (h.verified hburn)]
    exact hswitched h
  refine ⟨fun hawaits hsync hdue => ⟨fun b hidle hburn => ?_, fun b hclosing => ?_⟩,
    fun b hawaits hsync hidle hburn => ⟨fun hlow hhigh hfirst => ?_, fun hdue => ?_⟩, fun b huntaken => ?_,
    fun hstandby hopen hnear => ?_⟩
  · refine ⟨_, rfl, hchecked hburn ?_⟩
    rw [epochBoundary_of_due hawaits hsync hdue, boundary_of_idle hidle]
    exact switchBanks_switches ..
  · obtain ⟨hrim, hdeferred⟩ := boundary_of_closing hclosing 0 0
    refine ⟨_, rfl, ?_⟩
    rw [epochBoundary_of_due hawaits hsync hdue, burnChecked_of_verified (.inr (congrArg RimState.otp hrim))]
    exact hdeferred
  · refine ⟨_, rfl, hchecked hburn (epochSyncPulse_of_taken (pulseTaken_iff.mpr ⟨hawaits, hsync, hidle, ?_, hlow, hhigh⟩))⟩
    rintro ⟨hsome, hsame⟩
    rcases hfirst with hnone | hother
    · simp [hnone] at hsome
    · exact hother hsame
  · refine ⟨_, rfl, hchecked hburn ?_⟩
    rw [syncTimeout_of_due hawaits hsync hdue, boundary_of_idle hidle]
    exact switchBanks_switches ..
  · have hpulse : epochSyncPulse s = pulseIgnored s := by rw [epochSyncPulse_eq, if_neg (not_pulseTaken huntaken)]
    obtain ⟨hrim, hheld⟩ := pulseIgnored_holds s
    refine ⟨_, rfl, ?_⟩
    rw [hpulse, burnChecked_of_verified (.inr (congrArg RimState.otp hrim))]
    exact ⟨hrim, hheld⟩
  · obtain ⟨stks, hleft⟩ := selfRefresh_eq { s with power := { s.power with state := 4 } } false
    refine ⟨_, _, congrArg Host.Outcome.next ((if_pos ?_).trans hleft), rfl, rfl⟩
    simp only [Bool.and_eq_true, beq_iff_eq, decide_eq_true_eq]
    exact ⟨⟨hstandby, hopen⟩, by omega⟩

end Sys2Proof.Machine
end

