-- ==== Sys2Proof/Proofs/CloseSweep.lean ====
section
/-! SUPPORT. The close of an epoch up to its sweep: the drain and its limit, and what one bucket of the sweep leaves (09/R302,
R303, R307, R315). -/

namespace Sys2Proof.Machine

/-! ### A close that runs -/

/-- A close whose task no longer waits for an engine runs in its phase. -/
theorem closingIn_of_phase {s : State} {c : Closing} {p : Phase} (hclosing : s.lid.closing = some c)
    (htask : itemWaits s (isTask 0xF001) = false) (hphase : c.phase = p) : closingIn s p = some c := by
  simp [closingIn, htask, hclosing, hphase]

/-- The closing epoch with a gap reported now (09/R315). -/
def Closing.withGap (c : Closing) (s : State) (kind arg n : Nat) : Closing :=
  { c with epoch := { c.epoch with gaps := gapInto c.epoch.gaps kind arg n (servedSec s) (servedNs s) } }

/-- While the seal body is not yet made, a gap of the closing epoch enters its list, flagged, logged and posted. -/
theorem recorded_gapClosing {s : State} {c : Closing} (hclosing : s.lid.closing = some c) (hopen : c.hashed = false)
    (kind arg n : Nat) :
    Recorded (raiseEv (setClosing s (c.withGap s kind arg n)) .lidEvent [] [3]) (gapClosing s kind arg n) := by
  rw [gapClosing, hclosing]
  dsimp only
  rw [if_neg (by simp [hopen])]
  exact recorded_gapNotice ..

/-! ### The drain -/

/-- Two states with the same close under way, at the same time. -/
structure CloseKept (s t : State) : Prop where
  closing : t.lid.closing = s.lid.closing
  time : t.time = s.time

namespace CloseKept

variable {s t u : State}

theorem refl (s : State) : CloseKept s s := ⟨rfl, rfl⟩

theorem trans (a : CloseKept s t) (b : CloseKept t u) : CloseKept s u :=
  ⟨b.closing.trans a.closing, b.time.trans a.time⟩

theorem of_recorded (h : Recorded s t) : CloseKept s t := ⟨congrArg LidState.closing h.lid, h.time⟩

theorem onFrame {id : Nat} {g : Frame → State} (h : ∀ f, CloseKept s (g f)) : CloseKept s (Machine.onFrame s id g) := by
  unfold Machine.onFrame
  split
  · exact .refl s
  · exact h _

end CloseKept

theorem closeKept_bump (s : State) (part num n : Nat) : CloseKept s (bump s part num n) := by
  obtain ⟨c, h⟩ := bump_eq s part num n
  rw [h]
  exact ⟨rfl, rfl⟩

theorem closeKept_offerTrace (s : State) (r : List Byte) : CloseKept s (offerTrace s r) := by
  unfold offerTrace
  extract_lets u
  split
  · exact (closeKept_bump ..).trans ⟨rfl, rfl⟩
  · exact ⟨rfl, rfl⟩

theorem closeKept_modFrame (s : State) (id : Nat) (g : Frame → Frame) : CloseKept s (modFrame s id g) := by
  unfold modFrame
  split
  · exact .refl s
  · exact ⟨rfl, rfl⟩

theorem closeKept_tagRecord (s : State) (id outcome owner : Nat) : CloseKept s (tagRecord s id outcome owner) := by
  refine .onFrame fun f => ?_
  split
  · extract_lets s1 s2
    have hcount : CloseKept s s1 := closeKept_bump ..
    have hoffer : CloseKept s1 s2 := by
      unfold s2
      split
      · exact closeKept_offerTrace ..
      · exact .refl _
    exact (hcount.trans hoffer).trans (closeKept_modFrame ..)
  · exact .refl s

/-- A bad verdict notes a correction, or takes an outstanding frame off. -/
theorem closeKept_verdictBad (s : State) (id : Nat) : CloseKept s (verdictBad s id) := by
  refine .onFrame fun f => ?_
  extract_lets s1
  refine (closeKept_modFrame s id _ : CloseKept s s1).trans ?_
  split
  · split
    · exact ⟨rfl, rfl⟩
    · exact ⟨rfl, rfl⟩
  · split
    · exact ⟨rfl, rfl⟩
    · exact .refl _

theorem closeKept_modSlice (s : State) (sl : Nat) (g : SliceState → SliceState) : CloseKept s (modSlice s sl g) := ⟨rfl, rfl⟩

theorem closeKept_raiseTask (s : State) (code prio : Nat) (params : List Byte) :
    CloseKept s (raiseTask s code prio params) := ⟨rfl, rfl⟩

theorem closeKept_retireFrom (n : Nat) (s : State) (sl : Nat) : CloseKept s (retireFrom n s sl) := by
  induction n generalizing s with
  | zero => exact .refl s
  | succ n ih =>
    unfold retireFrom
    extract_lets v s1 s2 s3
    split
    · have hslice : CloseKept s s1 := closeKept_modSlice ..
      have hevent : CloseKept s1 s2 := .of_recorded (recorded_postEvent ..)
      have hrules : CloseKept s2 s3 := by
        unfold s3
        split
        · exact ⟨rfl, rfl⟩
        · exact .refl _
      exact (((hslice.trans hevent).trans hrules).trans (closeKept_raiseTask ..)).trans (ih _)
    · exact .refl s

theorem closeKept_headLeave (s : State) (sl version : Nat) : CloseKept s (headLeave s sl version) :=
  (closeKept_modSlice ..).trans (closeKept_retireFrom ..)

theorem closeKept_releaseFrame (s : State) (id : Nat) : CloseKept s (releaseFrame s id) := by
  refine .onFrame fun f => ?_
  extract_lets s1 egress s2 s3 s4
  have hgone : CloseKept s s3 := ⟨rfl, rfl⟩
  have hsnap : CloseKept s3 s4 := by
    unfold s4
    split
    · exact ⟨rfl, rfl⟩
    · exact .refl _
  refine (hgone.trans hsnap).trans ?_
  split
  · exact closeKept_headLeave ..
  · exact .refl _

theorem closeKept_discardHead (s : State) (id outcome : Nat) : CloseKept s (discardHead s id outcome) :=
  ((closeKept_tagRecord ..).trans (closeKept_verdictBad ..)).trans (closeKept_releaseFrame ..)

/-- A frame that is not stored is discarded as a head. -/
theorem drainDiscard_of_head {s : State} {id : Nat} {f : Frame} (hf : frameAt s id = some f) (hqueued : f.stage ≠ .queued)
    (hpunted : f.stage ≠ .punted) (hleft : f.stage ≠ .left) : drainDiscard s id = discardHead s id 3 := by
  rw [drainDiscard, onFrame_of_some hf]
  cases hstage : f.stage
  case queued => exact absurd hstage hqueued
  case punted => exact absurd hstage hpunted
  case left => exact absurd hstage hleft
  all_goals rfl

section
variable {s : State} {c : Closing} (hclosing : s.lid.closing = some c) (htask : itemWaits s (isTask 0xF001) = false)
include hclosing htask

theorem drainComplete_of_drain (hphase : c.phase = .drain) :
    drainComplete s = if drained s c then setClosing s { c with phase := .sweep, sweepNext := 0 } else s := by
  rw [drainComplete, closingIn_of_phase hclosing htask hphase]

/-- At the drain limit the one frame that still waits before its final Rewrite is discarded, with a gap of kind 11. -/
theorem drainLimit_discards {id : Nat} {f : Frame} (hphase : c.phase = .drain) (hsorted : tsorted s.frames = true)
    (hlimit : c.closeTick + drainTicks c.epoch ≤ s.time.tick) (hwaits : drainWaits s (c.epoch.seq % 2) = [id])
    (hf : frameAt s id = some f) (hqueued : f.stage ≠ .queued) (hpunted : f.stage ≠ .punted) (hleft : f.stage ≠ .left) :
    frameAt (drainLimit s) id = none ∧ (∀ j, j ≠ id → frameAt (drainLimit s) j = frameAt s j) ∧
      (drainLimit s).lid.closing = some (c.withGap s 11 0 1) := by
  have hrun : drainLimit s = gapClosing (discardHead s id 3) 11 0 1 := by
    rw [drainLimit, closingIn_of_phase hclosing htask hphase]
    dsimp only
    rw [if_neg (Nat.not_lt.mpr hlimit), hwaits]
    exact congrArg (gapClosing · 11 0 1) (drainDiscard_of_head hf hqueued hpunted hleft)
  have hkept := closeKept_discardHead s id 3
  obtain ⟨hgone, hothers⟩ := discardHead_drops id 3 hsorted
  have hgap := recorded_gapClosing (hkept.closing.trans hclosing) (by simp [Closing.hashed, hphase]) 11 0 1
  rw [hrun, frameAt, hgap.frames]
  refine ⟨hgone, fun j hj => ?_, ?_⟩
  · rw [frameAt, hgap.frames]
    exact hothers.frames j hj
  · rw [hgap.lid]
    exact congrArg some (by rw [Closing.withGap, servedSec, servedNs, hkept.time]; rfl)

end

/-! ### The sweep -/

/-- The close once the sweep has left its bucket. -/
def Closing.sweptOn (c : Closing) : Closing :=
  if c.sweepNext + 1 = 16777216 then { c with phase := .hash, sweepNext := c.sweepNext + 1 }
  else { c with sweepNext := c.sweepNext + 1 }

/-- The zone cache's lines then: after the last bucket every line of the closed image has been written back. -/
def Closing.cacheLeft (c : Closing) (l : List Nat) : List Nat :=
  if c.sweepNext + 1 = 16777216 then l.filter (fun k => k / 2 ^ 19 != c.epoch.seq % 3) else l

/-- The sweep has left its bucket. -/
def sweepLeft (s : State) (c : Closing) : State :=
  { s with lid := { s.lid with closing := some c.sweptOn, zoneCache := c.cacheLeft s.lid.zoneCache } }

/-- The sweep leaves bucket `b`, in the close that still runs. -/
def bucketLeft (b : Nat) (u : State) : State :=
  match u.lid.closing with
  | none => u
  | some c =>
    if b + 1 = 16777216 then
      setClosing { u with lid := { u.lid with
        zoneCache := u.lid.zoneCache.filter (fun k => k / 2 ^ 19 != c.epoch.seq % 3) } }
        { c with phase := .hash, sweepNext := b + 1 }
    else setClosing u { c with sweepNext := b + 1 }

theorem bucketLeft_of_closing {u : State} {c : Closing} (h : u.lid.closing = some c) :
    bucketLeft c.sweepNext u = sweepLeft u c := by
  rw [bucketLeft, h]
  dsimp only
  unfold sweepLeft Closing.sweptOn Closing.cacheLeft
  split <;> rfl

/-- The records of a bucket that the sweep visits. -/
def sweptWays (s : State) (b : Nat) : List Nat :=
  if homeAnswers s b then ((List.range 8).map (fun w => b * 8 + w)).filter (fun i => (wayAt s i).valid) else []

theorem sweptWays_of_unplaced {s : State} {b : Nat} (h : (groupAt s (groupOf b)).placed = false) : sweptWays s b = [] := by
  simp [sweptWays, homeAnswers, h]

theorem sweptWays_of_empty {s : State} {b : Nat} (h : ∀ v, v < 8 → (wayAt s (b * 8 + v)).valid = false) :
    sweptWays s b = [] := by
  unfold sweptWays
  split
  · simpa [List.filter_eq_nil_iff] using h
  · rfl

theorem filter_range_of_only {p : Nat → Bool} {v n : Nat} (hv : v < n) (hp : p v = true)
    (hother : ∀ u, u < n → u ≠ v → p u = false) :
    (List.range n).filter p = [v] := by
  have hcongr : (List.range n).filter p = (List.range n).filter (· == v) := by
    refine List.filter_congr fun u hu => ?_
    by_cases huv : u = v
    · simp [huv, hp]
    · simp [huv, hother u (List.mem_range.mp hu) huv]
  rw [hcongr, List.filter_beq, List.count_eq_one_of_mem List.nodup_range (List.mem_range.mpr hv), List.replicate_one]

theorem sweptWays_of_one {s : State} {b v : Nat} (hhome : homeAnswers s b = true) (hv : v < 8)
    (hvalid : (wayAt s (b * 8 + v)).valid = true) (hother : ∀ u, u < 8 → u ≠ v → (wayAt s (b * 8 + u)).valid = false) :
    sweptWays s b = [b * 8 + v] := by
  rw [sweptWays, if_pos hhome, List.filter_map]
  exact congrArg _ (filter_range_of_only (p := (fun i => (wayAt s i).valid) ∘ fun w => b * 8 + w) hv hvalid hother)

/-- What the sweep does with a record. -/
def sweptRecord (ue zones : List Nat) (bank : Nat) (s : State) (i : Nat) : State :=
  if ue.contains i then loseRecord s i true else sweepClosed zones s i bank

section
variable {s : State} {c : Closing} (hclosing : s.lid.closing = some c) (htask : itemWaits s (isTask 0xF001) = false)
  (hphase : c.phase = .sweep)
include hclosing htask hphase

/-- The sweep waits for what is in flight to its bucket's home. -/
theorem closeSweepBucket_waits (ue zones : List Nat) (tag : Bool) (hplaced : (groupAt s (groupOf c.sweepNext)).placed = true)
    (hbusy : homeTakes s c.sweepNext = false ∨ bucketBusy s c.sweepNext = true) : closeSweepBucket ue tag zones s = s := by
  rw [closeSweepBucket, closingIn_of_phase hclosing htask hphase]
  exact if_pos (by rcases hbusy with h | h <;> simp [hplaced, h])

/-- Else it visits the bucket's records and leaves the bucket. -/
theorem closeSweepBucket_visits {ue zones : List Nat} {tag : Bool} {u : State}
    (hfree : (groupAt s (groupOf c.sweepNext)).placed = false ∨
      (homeTakes s c.sweepNext = true ∧ bucketBusy s c.sweepNext = false))
    (htag : (tag && homeAnswers s c.sweepNext) = false)
    (hvisit : (sweptWays s c.sweepNext).foldl (sweptRecord ue zones (c.epoch.seq % 2)) s = u) (hu : u.lid.closing = some c) :
    closeSweepBucket ue tag zones s = sweepLeft u c := by
  rw [closeSweepBucket, closingIn_of_phase hclosing htask hphase]
  dsimp only
  rw [if_neg (by rcases hfree with h | ⟨hhome, hidle⟩ <;> simp [*]), htag]
  refine Eq.trans (b := bucketLeft c.sweepNext
    ((sweptWays s c.sweepNext).foldl (sweptRecord ue zones (c.epoch.seq % 2)) s)) rfl ?_
  rw [hvisit, bucketLeft_of_closing hu]

/-- A bucket without a record changes the Lid alone. -/
theorem closeSweepBucket_passes (ue zones : List Nat) {tag : Bool}
    (hfree : (groupAt s (groupOf c.sweepNext)).placed = false ∨ (tag = false ∧ homeTakes s c.sweepNext = true ∧
      bucketBusy s c.sweepNext = false ∧ ∀ v, v < 8 → (wayAt s (c.sweepNext * 8 + v)).valid = false)) :
    closeSweepBucket ue tag zones s = sweepLeft s c := by
  rcases hfree with hunplaced | ⟨rfl, hhome, hidle, hempty⟩
  · exact closeSweepBucket_visits hclosing htask hphase (.inl hunplaced) (by simp [homeAnswers, hunplaced])
      (by rw [sweptWays_of_unplaced hunplaced]; rfl) hclosing
  · exact closeSweepBucket_visits hclosing htask hphase (.inr ⟨hhome, hidle⟩) rfl
      (by rw [sweptWays_of_empty hempty]; rfl) hclosing

end

/-- The counts of a cold record in a bank, once they have gone to its zone's totals. -/
def ColdRec.bankClosed (r : ColdRec) (bank : Nat) : ColdRec :=
  if bank = 0 then { r with bank0 := Counts.zero } else { r with bank1 := Counts.zero }

theorem Counts.add_zero (a : Counts) : a.add Counts.zero = a := rfl

/-- A record that is cold only has the closed counts of its cold home. -/
theorem closedTotal_of_cold {s : State} {idx : Nat} (hhot : hotOf s idx = none) (hwb : writeBackOf s idx = none) (bank : Nat) :
    closedTotal s idx bank = if bank = 0 then (coldAt s idx).bank0 else (coldAt s idx).bank1 := by
  unfold closedTotal hotCounts
  rw [hhot, hwb]
  dsimp only
  rw [Counts.add_zero]
  exact ite_self _

theorem hotOf_of_skein {s t : State} (h : t.skein = s.skein) (idx : Nat) : hotOf t idx = hotOf s idx := by
  unfold hotOf wayAt hotAt
  rw [h]

theorem writeBackOf_of_skein {s t : State} (h : t.skein = s.skein) (idx : Nat) : writeBackOf t idx = writeBackOf s idx := by
  simp only [writeBackOf, bankAt, h]

@[simp] theorem skein_zoneMove (s : State) (zone bank : Nat) (add sub : Counts) :
    (zoneMove s zone bank add sub).skein = s.skein := by
  unfold zoneMove
  rfl

@[simp] theorem closing_zoneMove (s : State) (zone bank : Nat) (add sub : Counts) :
    (zoneMove s zone bank add sub).lid.closing = s.lid.closing := by
  unfold zoneMove
  rfl

@[simp] theorem lid_modCold (s : State) (idx : Nat) (g : ColdRec → ColdRec) : (modCold s idx g).lid = s.lid := rfl

/-- The counts of a cold record go to its zone's totals, and the bank is left zero. -/
theorem sweepClosed_of_cold {s : State} {idx bank : Nat} {zones : List Nat} {n : Counts}
    (hbursts : ∀ o ∈ s.skein.bursts, o.coldIndex ≠ idx) (hzone : zones.contains (coldAt s idx).body.key.zone = false)
    (hhot : hotOf s idx = none) (hwb : writeBackOf s idx = none)
    (hn : n = if bank = 0 then (coldAt s idx).bank0 else (coldAt s idx).bank1) (hsome : n ≠ Counts.zero) :
    sweepClosed zones s idx bank =
      modCold (zoneMove s (coldAt s idx).body.key.zone bank n Counts.zero) idx (fun r => r.bankClosed bank) := by
  have htotal : closedTotal s idx bank = n := (closedTotal_of_cold hhot hwb bank).trans hn.symm
  have hhot' : hotOf (zoneMove s (coldAt s idx).body.key.zone bank n Counts.zero) idx = none :=
    (hotOf_of_skein (skein_zoneMove ..) idx).trans hhot
  have hwb' : writeBackOf (zoneMove s (coldAt s idx).body.key.zone bank n Counts.zero) idx = none :=
    (writeBackOf_of_skein (skein_zoneMove ..) idx).trans hwb
  unfold sweepClosed
  rw [settleBursts_of_none hbursts]
  dsimp only
  rw [htotal, hzone, if_neg hsome, if_neg hsome]
  have hread : zoneRead false s (coldAt s idx).body.key.zone bank = s := rfl
  rw [hread, hhot', hwb']
  rfl

section
variable {s : State} {c : Closing} (hclosing : s.lid.closing = some c) (htask : itemWaits s (isTask 0xF001) = false)
  (hphase : c.phase = .sweep)
include hclosing htask hphase

/-- The one record of a bucket, cold only and with counts in the closed bank, is swept. -/
theorem closeSweepBucket_sweeps {ue zones : List Nat} {v : Nat} {n : Counts} (hv : v < 8)
    (hhome : homeTakes s c.sweepNext = true) (hidle : bucketBusy s c.sweepNext = false)
    (hvalid : (wayAt s (c.sweepNext * 8 + v)).valid = true)
    (hother : ∀ u, u < 8 → u ≠ v → (wayAt s (c.sweepNext * 8 + u)).valid = false)
    (hread : ue.contains (c.sweepNext * 8 + v) = false)
    (hswept : sweepClosed zones s (c.sweepNext * 8 + v) (c.epoch.seq % 2) =
      modCold (zoneMove s (coldAt s (c.sweepNext * 8 + v)).body.key.zone (c.epoch.seq % 2) n Counts.zero) (c.sweepNext * 8 + v)
        (fun r => r.bankClosed (c.epoch.seq % 2))) :
    closeSweepBucket ue false zones s = sweepLeft
      (modCold (zoneMove s (coldAt s (c.sweepNext * 8 + v)).body.key.zone (c.epoch.seq % 2) n Counts.zero) (c.sweepNext * 8 + v)
        (fun r => r.bankClosed (c.epoch.seq % 2))) c := by
  have hanswers : homeAnswers s c.sweepNext = true := by
    simp only [homeTakes, Bool.and_eq_true] at hhome
    exact hhome.1
  refine closeSweepBucket_visits hclosing htask hphase (.inr ⟨hhome, hidle⟩) rfl ?_
    (by rw [lid_modCold, closing_zoneMove, hclosing])
  rw [sweptWays_of_one hanswers hv hvalid hother, List.foldl_cons, List.foldl_nil, sweptRecord,
    if_neg (ne_true_of_eq_false hread), hswept]

end

theorem tget_tmod_same {α : Type} [DecidableEq α] {d : α} {t : Table α} (i : Nat) (g : α → α) (h : tsorted t = true) :
    tget d (tmod d t i g) i = g (tget d t i) := tget_tput_same h

theorem tget_tmod_ne {α : Type} [DecidableEq α] (d : α) (t : Table α) {i j : Nat} (g : α → α) (h : j ≠ i) :
    tget d (tmod d t i g) j = tget d t j := tget_tput_ne _ _ _ h

theorem zones_zoneMove (s : State) (zone bank : Nat) (add sub : Counts) : (zoneMove s zone bank add sub).lid.zones =
    tmod Counts.zero s.lid.zones (seqOfBank s bank % 3 * 2 ^ 20 + zone) (fun t => t.move add sub) := by
  rw [zoneMove]

theorem zoneCache_zoneMove (s : State) (zone bank : Nat) (add sub : Counts) :
    (zoneMove s zone bank add sub).lid.zoneCache = cacheLine s.lid.zoneCache (zoneLine s zone bank) := by
  rw [zoneMove]

theorem zoneMove_frame (s : State) (zone bank : Nat) (add sub : Counts) :
    zoneMove s zone bank add sub = { s with lid := (zoneMove s zone bank add sub).lid } := by
  rw [zoneMove]

/-- What the sweep of one record changes beside the Lid: its cold home. -/
theorem sweepLeft_modCold (s : State) (l : LidState) (c : Closing) (idx : Nat) (g : ColdRec → ColdRec) :
    sweepLeft (modCold { s with lid := l } idx g) c = { s with
      skein := { s.skein with cold := tupd ColdRec.none s.skein.cold idx g }
      lid := { l with closing := some c.sweptOn, zoneCache := c.cacheLeft l.zoneCache } } := rfl

/-- A swept record's counts stand in its zone's totals, its bank is zero, and the zone's line is in the cache. -/
theorem sweepLeft_holds {s : State} (himages : ImagesKept s.lid) (c : Closing) (zone bank idx : Nat) (n : Counts) :
    ∃ skein lid, sweepLeft (modCold (zoneMove s zone bank n Counts.zero) idx (fun r => r.bankClosed bank)) c =
        { s with skein := skein, lid := lid } ∧
      lid.closing = some c.sweptOn ∧ lid.zoneCache = c.cacheLeft (cacheLine s.lid.zoneCache (zoneLine s zone bank)) ∧
      tget ColdRec.none skein.cold idx = (coldAt s idx).bankClosed bank ∧
      tget Counts.zero lid.zones (seqOfBank s bank % 3 * 2 ^ 20 + zone) =
        (zoneTotals s (seqOfBank s bank % 3) zone).move n Counts.zero ∧
      ∀ z, z ≠ seqOfBank s bank % 3 * 2 ^ 20 + zone → tget Counts.zero lid.zones z = tget Counts.zero s.lid.zones z := by
  rw [zoneMove_frame, sweepLeft_modCold]
  refine ⟨_, _, rfl, rfl, congrArg c.cacheLeft (zoneCache_zoneMove ..),
    coldAt_modCold_same s idx (fun r => r.bankClosed bank), ?_, fun z hz => ?_⟩
  · dsimp only
    rw [zones_zoneMove, tget_tmod_same _ _ (tsorted_of_twf himages.1), zoneTotals]
  · dsimp only
    rw [zones_zoneMove, tget_tmod_ne _ _ _ hz]

end Sys2Proof.Machine
end

