-- ==== Sys2Proof/Proofs/EpochClose.lean ====
section
/-! PROOF. The close of an epoch, phase by phase: its digests, its seal, and the image left zero for the epoch after next (09/R293,
R306, R309, R313, R314, R320). -/

namespace Sys2Proof.Machine

/-! ### The digests -/

/-- Where an entry of the port and class image has read uncorrectable: it reads as zero. -/
def entryDropped (l : LidState) (k i : Nat) : LidState :=
  if i < 256 then { l with ports := tdel l.ports (k * 256 + i) } else { l with classes := tdel l.classes (k * 64 + (i - 256)) }

theorem closing_entryDropped (l : LidState) (k i : Nat) : (entryDropped l k i).closing = l.closing := by
  unfold entryDropped
  split <;> rfl

theorem zones_entryDropped (l : LidState) (k i : Nat) : (entryDropped l k i).zones = l.zones := by
  unfold entryDropped
  split <;> rfl

theorem portEntry_of_images {s t : State} (hports : t.lid.ports = s.lid.ports) (hclasses : t.lid.classes = s.lid.classes)
    (k i : Nat) : portEntry t k i = portEntry s k i := by
  simp only [portEntry, portTotals, classTotals, hports, hclasses]

/-- The dropped entry is zero, the others of its copy stand. -/
theorem portEntry_entryDropped {s : State} (himages : ImagesKept s.lid) (k : Nat) {i : Nat} (hi : i < 320) :
    portEntry { s with lid := entryDropped s.lid k i } k i = zeros (if i < 256 then 64 else 32) ∧
      ∀ j, j < 320 → j ≠ i → portEntry { s with lid := entryDropped s.lid k i } k j = portEntry s k j := by
  obtain ⟨-, hports, hclasses⟩ := himages
  by_cases hport : i < 256
  · have hdrop : entryDropped s.lid k i = { s.lid with ports := tdel s.lid.ports (k * 256 + i) } := if_pos hport
    rw [hdrop]
    refine ⟨?_, fun j hj hne => ?_⟩
    · simp only [portEntry, portTotals, hport, if_true, tget_tdel_same (tsorted_of_twf hports)]
      rfl
    · simp only [portEntry, portTotals, classTotals]
      split
      · rw [tget_tdel_ne _ _ (by omega)]
      · rfl
  · have hdrop : entryDropped s.lid k i = { s.lid with classes := tdel s.lid.classes (k * 64 + (i - 256)) } := if_neg hport
    rw [hdrop]
    refine ⟨?_, fun j hj hne => ?_⟩
    · simp only [portEntry, classTotals, hport, if_false, tget_tdel_same (tsorted_of_twf hclasses)]
      rfl
    · simp only [portEntry, portTotals, classTotals]
      split
      · rfl
      · rw [tget_tdel_ne _ _ (by omega)]

/-- The close with its seal body made from the images as they stand. -/
def Closing.hashedIn (c : Closing) (s : State) : Closing := { c with phase := .sign, body := closingBody s c }

theorem closingBody_setClosing (s : State) (c d : Closing) : closingBody (setClosing s d) c = closingBody s c := rfl

theorem closingBody_hashedIn (s : State) (c : Closing) : closingBody s (c.hashedIn s) = closingBody s c := rfl

/-- An entry that reads uncorrectable while the images are hashed is dropped, with a gap of kind 8. -/
theorem recorded_totalsUe {s : State} {c : Closing} (hclosing : s.lid.closing = some c) (hopen : c.hashed = false) (i : Nat) :
    Recorded (raiseEv (setClosing { s with lid := entryDropped s.lid (c.epoch.seq % 3) i } (c.withGap s 8 i 1)) .lidEvent [] [3])
      (totalsUe s i) := by
  have hue : totalsUe s i = gapClosing { s with lid := entryDropped s.lid (c.epoch.seq % 3) i } 8 i 1 := by
    rw [totalsUe, hclosing]
    rfl
  rw [hue]
  exact recorded_gapClosing ((closing_entryDropped ..).trans hclosing) hopen 8 i 1

section
variable {s : State} {c : Closing} (hclosing : s.lid.closing = some c) (htask : itemWaits s (isTask 0xF001) = false)
  (hphase : c.phase = .hash)
include hclosing htask hphase

theorem hashComplete_of_read {ue : List Nat} {u : State} {d : Closing}
    (hread : (ue.eraseDups.filter (fun i => decide (i < 320))).foldl totalsUe s = u) (hu : u.lid.closing = some d) :
    hashComplete ue s = setClosing u (d.hashedIn u) := by
  rw [hashComplete, closingIn_of_phase hclosing htask hphase]
  dsimp only
  rw [hread, hu]
  rfl

/-- With one entry uncorrectable the seal body is made from the images without it. -/
theorem hashComplete_of_ue (himages : ImagesKept s.lid) {i : Nat} (hi : i < 320) :
    ∃ d, (hashComplete [i] s).lid.closing = some d ∧ d.phase = .sign ∧
      d.epoch.gaps = gapInto c.epoch.gaps 8 i 1 (servedSec s) (servedNs s) ∧ d.body = closingBody (hashComplete [i] s) d ∧
      portEntry (hashComplete [i] s) (c.epoch.seq % 3) i = zeros (if i < 256 then 64 else 32) ∧
      (∀ j, j < 320 → j ≠ i → portEntry (hashComplete [i] s) (c.epoch.seq % 3) j = portEntry s (c.epoch.seq % 3) j) ∧
      (hashComplete [i] s).lid.zones = s.lid.zones := by
  have hue := recorded_totalsUe hclosing (by simp [Closing.hashed, hphase]) i
  have hclosing' : (totalsUe s i).lid.closing = some (c.withGap s 8 i 1) := by
    rw [hue.lid]
    rfl
  have hread : ([i].eraseDups.filter (fun i => decide (i < 320))).foldl totalsUe s = totalsUe s i := by
    simp only [List.eraseDups_cons, List.filter_nil, List.eraseDups_nil, List.filter_cons, hi, decide_true, if_true,
      List.foldl_cons, List.foldl_nil]
  have hentry (j : Nat) : portEntry (setClosing (totalsUe s i) ((c.withGap s 8 i 1).hashedIn (totalsUe s i)))
      (c.epoch.seq % 3) j =
      portEntry { s with lid := entryDropped s.lid (c.epoch.seq % 3) i } (c.epoch.seq % 3) j :=
    portEntry_of_images (congrArg LidState.ports hue.lid) (congrArg LidState.classes hue.lid) _ _
  obtain ⟨hzero, hothers⟩ := portEntry_entryDropped himages (c.epoch.seq % 3) hi
  rw [hashComplete_of_read hclosing htask hphase hread hclosing']
  refine ⟨_, rfl, rfl, rfl, ?_, (hentry i).trans hzero, fun j hj hne => (hentry j).trans (hothers j hj hne), ?_⟩
  · rw [closingBody_setClosing, closingBody_hashedIn]
    rfl
  · exact (congrArg LidState.zones hue.lid).trans (zones_entryDropped ..)

end

/-! ### The seal -/

/-- A signature has 96 bytes, zero in BLANK (09/R314). -/
theorem signature_holds (s : State) (life : Nat) :
    ∃ sig fresh, signature s life = (sig, { s with fresh := fresh }) ∧ sig.length = 96 ∧ (life = 0 → sig = zeros 96) := by
  unfold signature
  split
  · exact ⟨_, s.fresh, rfl, List.length_replicate .., fun _ => rfl⟩
  · next hlife => exact ⟨_, _, rfl, length_le .., fun h => absurd h hlife⟩

/-- A seal that is published is the newest of the ring, is chained from and logged, and raises SEAL_READY. -/
theorem publishSeal_publishes (s : State) (life seq : Nat) (body : List Byte) :
    ∃ sig hidden, sig.length = 96 ∧ (life = 0 → sig = zeros 96) ∧
      (publishSeal s life seq body).lid = { s.lid with
        seals := ((seq, body ++ sig) :: s.lid.seals).take (17 + s.lid.hidden), hidden := hidden
        prevRoot := sealRoot body, chainRestart := false } ∧
      (publishSeal s life seq body).rim = s.rim ∧ s.log.next < (publishSeal s life seq body).log.next ∧
      eventAt (publishSeal s life seq body) (RegName.addr .lidEvent []) = (eventAt s (RegName.addr .lidEvent [])).raise [0] := by
  obtain ⟨sig, fresh, hsig, hlength, hblank⟩ := signature_holds s life
  let u : State := { s with
    fresh := fresh
    lid := { s.lid with
      seals := ((seq, body ++ sig) :: s.lid.seals).take (17 + s.lid.hidden)
      hidden := if s.lid.reading then s.lid.hidden + 1 else s.lid.hidden
      prevRoot := sealRoot body, chainRestart := false } }
  have hpublish : publishSeal s life seq body =
      lidEvent (raiseEv (rimLog u 0x11 false (body ++ sig)) .lidEvent [] [0]) 1 0 seq := by
    rw [publishSeal, hsig]
  have hlog := recorded_rimLog u 0x11 false (body ++ sig)
  have hpost := recorded_lidEvent (raiseEv (rimLog u 0x11 false (body ++ sig)) .lidEvent [] [0]) 1 0 seq
  rw [hpublish]
  refine ⟨sig, _, hlength, hblank, hpost.lid.trans hlog.lid, hpost.rim.trans hlog.rim,
    (next_rimLog u 0x11 false (body ++ sig)).trans_le hpost.next, ?_⟩
  rw [eventAt, hpost.regs]
  refine (eventAt_raiseEv (rimLog u 0x11 false (body ++ sig)) .lidEvent [] [0] _).trans ((if_pos rfl).trans ?_)
  rw [eventAt, hlog.regs]
  rfl

/-! ### The end of a close -/

theorem tget_tclear {α : Type} (d : α) (t : Table α) (lo hi i : Nat) :
    tget d (tclear t lo hi) i = if lo ≤ i ∧ i < hi then d else tget d t i := by
  induction t with
  | nil => simp [tclear, tget_nil]
  | cons e r ih =>
    obtain ⟨k, v⟩ := e
    rw [tclear] at ih ⊢
    by_cases hin : lo ≤ k ∧ k < hi
    · rw [List.filter_cons_of_neg (by simpa using hin), ih, tget_cons]
      by_cases hik : i = k
      · rw [if_pos (hik ▸ hin), if_pos (hik ▸ hin)]
      · rw [if_neg hik]
    · rw [List.filter_cons_of_pos (by simp; omega), tget_cons, tget_cons, ih]
      by_cases hik : i = k
      · rw [if_pos hik, if_pos hik, if_neg (hik ▸ hin)]
      · rw [if_neg hik, if_neg hik]

/-- In images of three copies of `m` entries, clearing one copy leaves the two others. -/
theorem tget_tclear_copy {α : Type} (d : α) (t : Table α) {m i : Nat} (k j : Nat) (hi : i < m) :
    tget d (tclear t (k * m) ((k + 1) * m)) (j * m + i) = if j = k then d else tget d t (j * m + i) := by
  rw [tget_tclear]
  refine if_congr ⟨fun ⟨hlo, hhi⟩ => ?_, fun h => ?_⟩ rfl rfl
  · have h1 : k < j + 1 := by
      by_contra hlt
      have := Nat.mul_le_mul_right m (not_lt.mp hlt)
      rw [Nat.add_mul, Nat.one_mul] at this
      omega
    have h2 : j < k + 1 := by
      by_contra hlt
      have := Nat.mul_le_mul_right m (not_lt.mp hlt)
      omega
    omega
  · subst h
    rw [Nat.add_mul, Nat.one_mul]
    omega

/-- Trace records and counters are all that tell two states apart. -/
def TracedOnly (s t : State) : Prop := ∃ trace counters, t = { s with trace := trace, counters := counters }

theorem tracedOnly_offerTrace (s : State) (r : List Byte) : TracedOnly s (offerTrace s r) := by
  unfold offerTrace
  obtain ⟨counters, hcount⟩ : ∃ counters, cntDev s 0xA2 = { s with counters := counters } := bump_eq ..
  rw [hcount]
  split
  · exact ⟨_, counters, rfl⟩
  · exact ⟨_, s.counters, rfl⟩

theorem tracedOnly_engineTrace (s : State) (kind engine uaddr mcyc arg : Nat) (i : Item) :
    TracedOnly s (engineTrace s kind engine uaddr mcyc arg i) := by
  unfold engineTrace
  split
  · exact tracedOnly_offerTrace ..
  · exact ⟨_, _, rfl⟩

/-- An item's end changes the scheduler, and the trace and the counters with it. -/
theorem engineEnd_eq (s : State) (e status : Nat) :
    ∃ sched trace counters, engineEnd s e status = { s with sched := sched, trace := trace, counters := counters } := by
  unfold engineEnd
  split
  · exact ⟨_, _, _, rfl⟩
  · next i _ =>
    obtain ⟨trace, counters, h⟩ := tracedOnly_engineTrace s 5 e (engineAt s e).uaddr 0 status i
    rw [h]
    exact ⟨_, trace, counters, rfl⟩

theorem takeItem_eq (s : State) (p : Item → Bool) :
    ∃ sched trace counters, (takeItem s p).getD s = { s with sched := sched, trace := trace, counters := counters } := by
  unfold takeItem
  split
  · exact engineEnd_eq ..
  · split <;> exact ⟨_, _, _, rfl⟩

/-- The close is over: the copy that the epoch after next uses is zero, and its task's engine goes idle. -/
def closeEnded (s : State) (c : Closing) : State :=
  let u := zeroCopy s ((c.epoch.seq + 2) % 3)
  let u := { u with lid := { u.lid with closing := none } }
  (takeItem u (isTask 0xF001)).getD u

theorem closeEnded_eq (s : State) (c : Closing) : ∃ sched trace counters, closeEnded s c =
    { s with
      sched := sched, trace := trace, counters := counters
      lid := { (zeroCopy s ((c.epoch.seq + 2) % 3)).lid with closing := none }
      hbm := (zeroCopy s ((c.epoch.seq + 2) % 3)).hbm } := by
  obtain ⟨sched, trace, counters, h⟩ := takeItem_eq { s with
    lid := { (zeroCopy s ((c.epoch.seq + 2) % 3)).lid with closing := none }
    hbm := (zeroCopy s ((c.epoch.seq + 2) % 3)).hbm } (isTask 0xF001)
  exact ⟨sched, trace, counters, h⟩

theorem zoneTotals_closeEnded (s : State) (c : Closing) (j : Nat) {z : Nat} (hz : z < 2 ^ 20) :
    zoneTotals (closeEnded s c) j z = if j = (c.epoch.seq + 2) % 3 then Counts.zero else zoneTotals s j z := by
  obtain ⟨_, _, _, hended⟩ := closeEnded_eq s c
  rw [zoneTotals, hended]
  exact tget_tclear_copy Counts.zero s.lid.zones _ j hz

theorem portTotals_closeEnded (s : State) (c : Closing) (j : Nat) {p : Nat} (hp : p < 256) :
    portTotals (closeEnded s c) j p = if j = (c.epoch.seq + 2) % 3 then ⟨Counts.zero, Counts.zero⟩ else portTotals s j p := by
  obtain ⟨_, _, _, hended⟩ := closeEnded_eq s c
  rw [portTotals, hended]
  exact tget_tclear_copy _ s.lid.ports _ j hp

theorem classTotals_closeEnded (s : State) (c : Closing) (j : Nat) {x : Nat} (hx : x < 64) :
    classTotals (closeEnded s c) j x = if j = (c.epoch.seq + 2) % 3 then Counts.zero else classTotals s j x := by
  obtain ⟨_, _, _, hended⟩ := closeEnded_eq s c
  rw [classTotals, hended]
  exact tget_tclear_copy Counts.zero s.lid.classes _ j hx

theorem rim_closeEnded (s : State) (c : Closing) : (closeEnded s c).rim = s.rim := by
  obtain ⟨_, _, _, hended⟩ := closeEnded_eq s c
  rw [hended]

theorem epoch_closeEnded (s : State) (c : Closing) : (closeEnded s c).lid.epoch = s.lid.epoch := by
  obtain ⟨_, _, _, hended⟩ := closeEnded_eq s c
  rw [hended]
  rfl

/-- Outside a close in standby, and with no transition under way, the end of a close moves nothing more. -/
theorem afterClose_of_calm {s : State} (hpower : s.power.state ≠ 4) (hcalm : s.rim.transition = none) :
    attentionDone (standbyCloseDone s) = s := by
  rw [standbyCloseDone, if_pos (.inl hpower), attentionDone_of_none hcalm]

section
variable {s : State} {c : Closing} (hclosing : s.lid.closing = some c) (htask : itemWaits s (isTask 0xF001) = false)
include hclosing htask

/-- The seal is published, and nothing waits for it. -/
theorem sealSigned_of_calm (hphase : c.phase = .sign) (hcalm : s.rim.transition = none) :
    sealSigned s = { publishSeal s c.lifecycle c.epoch.seq c.body with lid :=
      { (publishSeal s c.lifecycle c.epoch.seq c.body).lid with
        closing := some { c with phase := .publish }, lastSealed := some c.epoch } } := by
  obtain ⟨_, _, -, -, -, hrim, -⟩ := publishSeal_publishes s c.lifecycle c.epoch.seq c.body
  rw [sealSigned, closingIn_of_phase hclosing htask hphase]
  dsimp only [setClosing]
  rw [hrim, hcalm]

/-- The seal published is the newest of the ring, and the epoch it seals is the one whose images stay readable. -/
theorem sealSigned_publishes (hphase : c.phase = .sign) (hcalm : s.rim.transition = none) :
    ∃ sig, sig.length = 96 ∧ (c.lifecycle = 0 → sig = zeros 96) ∧
      (sealSigned s).lid.seals.head? = some (c.epoch.seq, c.body ++ sig) ∧ (sealSigned s).lid.prevRoot = sealRoot c.body ∧
      (sealSigned s).lid.chainRestart = false ∧ (sealSigned s).lid.closing = some { c with phase := .publish } ∧
      (sealSigned s).lid.lastSealed = some c.epoch ∧ (sealSigned s).lid.zones = s.lid.zones ∧
      s.log.next < (sealSigned s).log.next ∧
      eventAt (sealSigned s) (RegName.addr .lidEvent []) = (eventAt s (RegName.addr .lidEvent [])).raise [0] := by
  obtain ⟨sig, hidden, hlength, hblank, hlid, -, hnext, hevent⟩ := publishSeal_publishes s c.lifecycle c.epoch.seq c.body
  have hhead (n : Nat) : (((c.epoch.seq, c.body ++ sig) :: s.lid.seals).take (17 + n)).head? =
      some (c.epoch.seq, c.body ++ sig) := by
    rw [Nat.add_comm]
    rfl
  rw [sealSigned_of_calm hclosing htask hphase hcalm, hlid]
  exact ⟨sig, hlength, hblank, hhead _, rfl, rfl, rfl, rfl, rfl, hnext, hevent⟩

/-- The close is complete; a deferred boundary is made up for at once, with cause 4. -/
theorem imageZeroed_of_calm (hphase : c.phase = .publish) (hinterrupt : s.lid.interrupt = false)
    (hpower : s.power.state ≠ 4) (hcalm : s.rim.transition = none) :
    imageZeroed s = if s.lid.deferred then switchBanks (closeEnded s c) 4 0 else closeEnded s c := by
  obtain ⟨sched, trace, counters, hended⟩ := closeEnded_eq s c
  have hrun : imageZeroed s = attentionDone (standbyCloseDone
      (if (closeEnded s c).lid.interrupt then
        match (closeEnded s c).rim.transition with
        | some t => beginClose { closeEnded s c with lid := { (closeEnded s c).lid with interrupt := false } } t
        | none => { closeEnded s c with lid := { (closeEnded s c).lid with interrupt := false } }
      else if (closeEnded s c).lid.deferred then switchBanks (closeEnded s c) 4 0 else closeEnded s c)) := by
    rw [imageZeroed, closingIn_of_phase hclosing htask hphase]
    rfl
  have hgone : (closeEnded s c).lid.interrupt = false := by rw [hended]; exact hinterrupt
  have hdeferred : (closeEnded s c).lid.deferred = s.lid.deferred := by rw [hended]; rfl
  have hendpower : (closeEnded s c).power.state ≠ 4 := by rw [hended]; exact hpower
  have hendcalm : (closeEnded s c).rim.transition = none := by rw [rim_closeEnded]; exact hcalm
  rw [hrun, hgone, if_neg Bool.false_ne_true, hdeferred]
  split
  · have hswitched := switchBanks_switches (closeEnded s c) 4 0
    refine afterClose_of_calm ?_ (by rw [hswitched.rim, transition_lifecycleTaken, hendcalm])
    obtain ⟨_, _, _, _, _, _, _, _, _, h⟩ := hswitched.footprint
    rw [h]
    exact hendpower
  · exact afterClose_of_calm hendpower hendcalm

/-- The end of a close that leaves no boundary to be made up for. -/
theorem imageZeroed_ends (hphase : c.phase = .publish) (hinterrupt : s.lid.interrupt = false) (hpower : s.power.state ≠ 4)
    (hcalm : s.rim.transition = none) (hdeferred : s.lid.deferred = false) : imageZeroed s = closeEnded s c := by
  rw [imageZeroed_of_calm hclosing htask hphase hinterrupt hpower hcalm, hdeferred, if_neg Bool.false_ne_true]

/-- The end of a close that a boundary has waited for. -/
theorem imageZeroed_switches (hphase : c.phase = .publish) (hinterrupt : s.lid.interrupt = false) (hpower : s.power.state ≠ 4)
    (hcalm : s.rim.transition = none) (hdeferred : s.lid.deferred = true) :
    BanksSwitched (closeEnded s c) 4 0 (imageZeroed s) := by
  rw [imageZeroed_of_calm hclosing htask hphase hinterrupt hpower hcalm, if_pos hdeferred]
  exact switchBanks_switches ..

end

/-- Settles O49: each phase of a close is one step of its own, which the close's task and the phase admit. -/
theorem epochClose : Obligations.EpochClose := by
  intro s c hclosing himages htask hcalm bank
  refine ⟨fun hphase => ⟨?_, ?_⟩, fun hphase ue zones => ?_, fun hphase => ⟨?_, ?_⟩, fun hphase => ?_,
    fun hphase hinterrupt hpower => ?_⟩
  · exact congrArg Host.Outcome.next (drainComplete_of_drain hclosing htask hphase)
  · intro id f hlisted hlimit hwaits hf hqueued hpunted hleft
    exact ⟨_, rfl, drainLimit_discards hclosing htask hphase hlisted.1 hlimit hwaits hf hqueued hpunted hleft⟩
  · intro b placed c' cache
    refine ⟨fun tag hplaced hbusy => ?_, fun tag hfree => ?_, ?_⟩
    · exact congrArg Host.Outcome.next (closeSweepBucket_waits hclosing htask hphase ue zones tag hplaced hbusy)
    · exact congrArg Host.Outcome.next (closeSweepBucket_passes hclosing htask hphase ue zones hfree)
    · intro v hv hhome hidle hvalid hother hbursts idx r n k hread hzone hhot hwb hsome
      have hswept := sweepClosed_of_cold hbursts hzone hhot hwb (n := n) rfl hsome
      have hrun := closeSweepBucket_sweeps hclosing htask hphase hv hhome hidle hvalid hother hread hswept
      obtain ⟨skein, lid, hleft, hheld⟩ := sweepLeft_holds himages c r.body.key.zone bank idx n
      exact ⟨_, skein, lid, congrArg Host.Outcome.next (hrun.trans hleft), rfl, hheld⟩
  · exact congrArg Host.Outcome.next (hashComplete_of_read hclosing htask hphase rfl hclosing)
  · intro i hi
    obtain ⟨d, hhashed⟩ := hashComplete_of_ue hclosing htask hphase himages hi
    exact ⟨_, d, rfl, hhashed⟩
  · obtain ⟨sig, hlength, hblank, hsealed⟩ := sealSigned_publishes hclosing htask hphase hcalm
    exact ⟨_, sig, rfl, hlength, hblank, hsealed⟩
  · intro k
    refine ⟨fun b hdeferred => ?_, fun b hdeferred hburn => ?_⟩
    · have hrun := imageZeroed_ends hclosing htask hphase hinterrupt hpower hcalm hdeferred
      have hchecked : burnChecked s (imageZeroed s) b = closeEnded s c := by
        rw [hrun, burnChecked_of_verified (.inr (congrArg RimState.otp (rim_closeEnded s c)))]
      obtain ⟨sched, trace, counters, hended⟩ := closeEnded_eq s c
      refine ⟨closeEnded s c, _, _, sched, trace, counters, congrArg Host.Outcome.next hchecked, hended, rfl,
        fun z hz => ⟨?_, fun j _ hj => ?_⟩, fun p hp => ?_, fun x hx => ?_⟩
      · rw [zoneTotals_closeEnded s c k hz, if_pos rfl]
      · rw [zoneTotals_closeEnded s c j hz, if_neg hj]
      · rw [portTotals_closeEnded s c k hp, if_pos rfl]
      · rw [classTotals_closeEnded s c k hx, if_pos rfl]
    · have hswitched := imageZeroed_switches hclosing htask hphase hinterrupt hpower hcalm hdeferred
      have hotp := hswitched.verified ((rim_closeEnded s c).symm ▸ hburn)
      rw [rim_closeEnded] at hotp
      refine ⟨imageZeroed s, _, congrArg Host.Outcome.next (burnChecked_of_verified hotp), hswitched.closing, rfl, rfl,
        ?_, ?_, hswitched.opened⟩
      · exact (congrArg Epoch.seq (epoch_closeEnded s c) :)
      · rw [hswitched.seq, epoch_closeEnded]

end Sys2Proof.Machine
end

