-- ==== Sys2Proof/Proofs/ConvergenceAnnounced.lean ====
section
/-! PROOF. A residual that reaches zero is announced to the host (10/R331): two statements that leave the host rings and what has left
the device as they were fail. -/

namespace Sys2Proof.Machine

/-- A device whose served time is SET and 5 units behind domain A, with domain B at served time, and whose time events are
routed to an enabled event ring. -/
def servedBehindA : State :=
  { State.reset with
    regs := { State.reset.regs with cells := [(RegName.addr .evtRoute [5], ⟨0x80000000#32, 0x80000000#32, false⟩)] }
    host := { State.reset.host with rings := [(ringId 0 2 0, { Ring.reset with en := true })] }
    time := { State.reset.time with set := true, domains := [⟨5, 0, 0xCCCCCCCD⟩, Domain.reset] }
    rim := { State.reset.rim with started := true } }

/-- The Rim writes registers itself. -/
def rimWriter : Requester := ⟨4, false⟩

theorem reaches_tdCtl_servedBehindA : Reaches servedBehindA rimWriter (RegName.addr .tdCtl [0]) .tdCtl [0] := by
  unfold Reaches
  decide +kernel

theorem reaches_timeCtl_servedBehindA : Reaches servedBehindA rimWriter (RegName.addr .timeCtl []) .timeCtl [] := by
  unfold Reaches
  decide +kernel

/-- A SET of domain A to zero at tick 0 makes the residual zero, which is announced to the host. -/
theorem out_after_tdSet : (tdOp 1 rimWriter (RegName.addr .tdCtl [0]) 0x90000000 servedBehindA).out ≠ [] := by decide +kernel

/-- A change of SEL to domain B makes the residual zero, which is announced to the host. -/
theorem out_after_selWrite : (writeTimeCtl servedBehindA rimWriter 0x80000000).out ≠ [] := by decide +kernel

/-- Refutes O11: a SET that makes the residual zero posts the time event of KIND 3 (10/R331), and so changes a host ring and what
has left the device, which the statement leaves unchanged. -/
theorem not_domainOperations : ¬ Obligations.DomainOperations := by
  intro h
  obtain ⟨hset, -⟩ := h servedBehindA rimWriter 0 0x90000000 rfl (by decide) rfl reaches_tdCtl_servedBehindA
  obtain ⟨t, hexec, ⟨⟨regs, time, log, fresh, ht⟩, -⟩, -⟩ := hset rfl (by decide +kernel)
  have hrun : tdOp 1 rimWriter (RegName.addr .tdCtl [0]) 0x90000000 servedBehindA = t := Host.Outcome.next.inj hexec
  exact out_after_tdSet (by rw [hrun, ht]; rfl)

/-- Refutes O13: a change of SEL that makes the residual zero posts the time event of KIND 3 (10/R331), and so changes a host ring
and what has left the device, which the statement leaves unchanged. -/
theorem not_sourcesMoveNoTime : ¬ Obligations.SourcesMoveNoTime := by
  rintro ⟨hsel, -⟩
  obtain ⟨t, hexec, -, -, ⟨regs, log, fresh, ht⟩, -⟩ :=
    hsel servedBehindA rimWriter 0x80000000 rfl (by decide) reaches_timeCtl_servedBehindA
  have hwrite : writeTimeCtl servedBehindA rimWriter 0x80000000 = t :=
    Host.Outcome.next.inj ((congrArg Host.Outcome.next
      ((guarded_ok reaches_timeCtl_servedBehindA (by decide)).trans (if_neg (by decide)))).symm.trans hexec)
  exact out_after_selWrite (by rw [hwrite, ht]; rfl)

end Sys2Proof.Machine
end

