-- ==== Sys2Proof/Proofs/NetworkTime.lean ====
section
/-! PROOF. Refused rates, the set of served time, its advance in a tick, pulses, captures and the snapshot (10/R327, R329–R331, R340,
R342, R343). -/

namespace Sys2Proof.Machine

/-! ### Domain operations -/

/-- A write of TD_CTL with GO 1 that names RATE is the operation on the landed register. -/
theorem exec_tdRate {s : State} {req : Requester} {d v : Nat} (hgo : bit v 31 = true) (hop : bits v 30 28 = 3)
    (h : Reaches s req (RegName.addr .tdCtl [d]) .tdCtl [d]) :
    exec (.tdRate req (RegName.addr .tdCtl [d]) v) s = .next (tdRate (landWrite s .tdCtl [d] v) req d) := by
  have hwrite : writeTdCtl s req [d] v = tdRate (landWrite s .tdCtl [d] v) req d := by
    unfold writeTdCtl
    simp only [hgo, hop, if_true, List.getD_cons_zero]
  have hcond : (bit v 31 && bits v 30 28 == 3) = true := by simp [hgo, hop]
  exact congrArg Host.Outcome.next ((guarded_ok h (by decide)).trans ((if_pos hcond).trans hwrite))

/-- The operands of a rate stand while TD_CTL is written. -/
theorem rateOperand_landWrite (s : State) (d v : Nat) :
    inForce (landWrite s .tdCtl [d] v) .tdRateFrac [d] = inForce s .tdRateFrac [d] ∧
      inForce (landWrite s .tdCtl [d] v) .tdRateInt [d] = inForce s .tdRateInt [d] := by
  constructor <;> refine inForce_landWrite_ne _ _ _ _ _ _ ?_ <;> simp [RegName.addr, RegName.desc, dimOffset]

/-- A rate outside the limits changes no domain: RATE_REFUSED is raised and RESULT is 1. -/
theorem tdRate_of_refused {s : State} (req : Requester) {d : Nat}
    (hfar : inForce s .tdRateFrac [d] + inForce s .tdRateInt [d] * 2 ^ 32 < rateLow ∨
      rateHigh < inForce s .tdRateFrac [d] + inForce s .tdRateInt [d] * 2 ^ 32) :
    tdRate s req d = tdResult (raiseEv s .timeEvent [] [2]) d 1 := if_pos hfar

/-- Settles O12: the operand is judged before anything is changed, and a refusal writes RESULT and raises its flag alone. -/
theorem rateLimits : Obligations.RateLimits := by
  intro s req d v hd hgo hop off rate hreaches hfar
  obtain ⟨hfrac, hint⟩ := rateOperand_landWrite s d v
  refine ⟨_, exec_tdRate hgo hop hreaches, ?_⟩
  rw [tdRate_of_refused req (by rw [hfrac, hint]; exact hfar)]
  refine ⟨rfl, rfl, fld_tdResult .., ?_⟩
  rw [tdResult, forceFld, eventAt_forceReg, eventAt_raiseEv, if_pos rfl]
  rfl

/-! ### What moves served time and what does not -/

/-- Two states with the same tick, the same domains and the same served time. -/
structure ClockKept (s t : State) : Prop where
  tick : t.time.tick = s.time.tick
  domains : t.time.domains = s.time.domains
  served : t.time.served = s.time.served
  set : t.time.set = s.time.set

namespace ClockKept

variable {s t u : State}

theorem of_time (h : t.time = s.time) : ClockKept s t := by
  constructor <;> rw [h]

theorem refl (s : State) : ClockKept s s := of_time rfl

theorem trans (a : ClockKept s t) (b : ClockKept t u) : ClockKept s u :=
  ⟨b.tick.trans a.tick, b.domains.trans a.domains, b.served.trans a.served, b.set.trans a.set⟩

/-- Steps that each keep the clock keep it in turn. -/
theorem foldl {α : Type} {f : State → α → State} (h : ∀ s a, ClockKept s (f s a)) (l : List α) (s : State) :
    ClockKept s (l.foldl f s) :=
  List.foldlRecOn (motive := fun t => ClockKept s t) l f (.refl s) fun t ht a _ => ht.trans (h t a)

end ClockKept

theorem time_applyReg (s : State) (r : RegName) (ix : List Nat) (b : Applies) : (applyReg s r ix b).time = s.time := by
  unfold applyReg
  split <;> rfl

theorem time_converged (before : Int) (s : State) : (converged before s).time = s.time := by
  unfold converged
  split
  · exact (recorded_postEvent ..).time
  · rfl

theorem clockKept_modPin (s : State) (p : Nat) (f : TimeOutPin → TimeOutPin) : ClockKept s (modPin s p f) :=
  ⟨rfl, rfl, rfl, rfl⟩

theorem clockKept_drivePin (s : State) (p : Nat) (high : Bool) : ClockKept s (drivePin s p high) := by
  unfold drivePin
  split
  · exact .refl s
  · exact ⟨rfl, rfl, rfl, rfl⟩

/-- A schedule that takes effect moves its pin and its registers. -/
theorem clockKept_pulseApply (s : State) (p : Nat) (c : Pulse) (late : Bool) : ClockKept s (pulseApply s p c late) := by
  unfold pulseApply
  extract_lets s1 first s2
  have happlied : ClockKept s s1 := .of_time (by simp only [s1, time_applyReg])
  split
  · have hpin : ClockKept s s2 := happlied.trans (clockKept_modPin ..)
    split
    · exact hpin.trans (clockKept_drivePin ..)
    · exact hpin
  · exact (happlied.trans (clockKept_modPin ..)).trans (clockKept_drivePin ..)

theorem clockKept_gclBaseReached (s : State) (ix : List Nat) : ClockKept s (gclBaseReached s ix) := by
  refine .of_time ?_
  unfold gclBaseReached
  extract_lets p
  split
  · rfl
  · split
    · exact (time_applyReg ..).trans (time_applyReg ..)
    · rfl

/-- The step of the first SERVED_SET moves boundaries, pins and gate lists, and not the clock it follows. -/
theorem clockKept_servedStepped (s : State) : ClockKept s (servedStepped s) := by
  unfold servedStepped
  extract_lets now up lid s1 s2
  have hboundary : ClockKept s s1 := .of_time (by unfold s1; split <;> rfl)
  have hpins : ClockKept s1 s2 := .foldl (fun u p => ?_) ..
  · refine (hboundary.trans hpins).trans (.foldl (fun u p => ?_) ..)
    split
    · split
      · exact (ClockKept.of_time rfl : ClockKept u (modGate u p _)).trans (clockKept_gclBaseReached ..)
      · exact .refl u
    · exact .refl u
  · extract_lets u1
    have hgrid : ClockKept u u1 := by
      unfold u1
      split
      · split
        · exact clockKept_modPin ..
        · exact .refl u
      · exact .refl u
    split
    · split
      · exact hgrid.trans (clockKept_pulseApply ..)
      · exact hgrid
    · exact hgrid

/-! ### The set of served time -/

theorem exec_servedSet {s : State} {req : Requester} {v : Nat} (hset : bit v 30 = true)
    (h : Reaches s req (RegName.addr .timeCtl []) .timeCtl []) :
    exec (.servedSet req (RegName.addr .timeCtl []) v) s = .next (writeTimeCtl s req v) :=
  congrArg Host.Outcome.next ((guarded_ok h (by decide)).trans (if_pos hset))

/-- The set of R330, whatever pins and gate lists then do. -/
theorem clock_servedSet (s : State) (req : Requester) : (servedSet s req).time.set = true ∧
    (servedSet s req).time.served = selTime s ∧ (servedSet s req).time.tick = s.time.tick ∧
    (servedSet s req).time.domains = s.time.domains := by
  unfold servedSet
  extract_lets s1 s2
  have hlogged : s2.time = { s.time with served := selTime s } := (recorded_rimLog ..).time
  have hset : (servedBecomesSet s2).time = { s.time with served := selTime s, set := true } := by
    unfold servedBecomesSet
    extract_lets s3
    exact (recorded_postEvent ..).time.trans (congrArg (fun x : TimeState => { x with set := true }) hlogged)
  obtain ⟨htick, hdomains, hserved, hisSet⟩ := clockKept_servedStepped (servedBecomesSet s2)
  rw [hset] at htick hdomains hserved hisSet
  exact ⟨hisSet, hserved, htick, hdomains⟩

theorem selDomain_of_cells {s t : State} (h : t.regs.cells = s.regs.cells) : selDomain t = selDomain s := by
  simp only [selDomain, fld, inForce_of_cells h]

/-- A change of SEL is logged, and may be announced as a convergence: neither changes the registers or the time. -/
theorem selChange_kept (before : Int) (s : State) (d : Nat) (req : Requester) :
    (converged before (logTimeOp s 4 d req (zeros 4))).time = s.time ∧
      (converged before (logTimeOp s 4 d req (zeros 4))).regs.cells = s.regs.cells := by
  have hlog : Recorded s (logTimeOp s 4 d req (zeros 4)) := recorded_rimLog ..
  refine ⟨(time_converged ..).trans hlog.time, ?_⟩
  unfold converged
  split
  · exact (congrArg RegState.cells (recorded_postEvent ..).regs).trans ((cells_raiseEv ..).trans (congrArg _ hlog.regs))
  · exact congrArg _ hlog.regs

end Sys2Proof.Machine

namespace Sys2Proof

open Machine

/-- Settles O14: a set that is refused raises its flag before the register is written; one that is not takes the time of the
domain that SEL names once it has landed, and what follows the step keeps the clock. -/
theorem servedSet : Obligations.ServedSet := by
  intro s req v hbit _ off target hreaches
  refine ⟨fun hunset hlater hskein => ?_, fun hrefused => ?_⟩
  · have haccepted : setRefused s (bits v 31 31) = false := by
      simp only [setRefused, hunset, Bool.false_or, Bool.or_eq_false_iff, decide_eq_false_iff_not, not_lt, List.any_eq_false]
      exact ⟨hlater, fun w hw => by simp [hskein w hw]⟩
    refine ⟨_, exec_servedSet hbit hreaches, ?_⟩
    unfold writeTimeCtl
    rw [if_neg (by simp [haccepted])]
    extract_lets t t2
    rw [if_pos hbit]
    have hkept : t2.time = s.time ∧ t2.regs.cells = t.regs.cells := by
      unfold t2
      split
      · exact ⟨rfl, rfl⟩
      · exact selChange_kept ..
    obtain ⟨htime, hcells⟩ := hkept
    have hsel : selTime t2 = target := by
      rw [selTime, selDomain_of_cells hcells, selDomain, fld_timeCtl, domainAt, htime]
      rfl
    obtain ⟨hset, hserved, htick, hdomains⟩ := clock_servedSet t2 req
    exact ⟨hset, hserved.trans hsel, by rw [htick, htime], by rw [hdomains, htime]⟩
  · have hset : setRefused s (bits v 31 31) = true := by
      simpa [setRefused, or_assoc] using hrefused
    refine ⟨_, exec_servedSet hbit hreaches, ?_⟩
    rw [writeTimeCtl, if_pos (by simp [hbit, hset])]
    exact ⟨rfl, (eventAt_raiseEv ..).trans (if_pos rfl)⟩

end Sys2Proof

namespace Sys2Proof.Machine

/-! ### What else happens in a tick -/

theorem time_bump (s : State) (part num n : Nat) : (bump s part num n).time = s.time := by
  obtain ⟨c, h⟩ := bump_eq s part num n
  rw [h]

theorem time_modFrame (s : State) (id : Nat) (g : Frame → Frame) : (modFrame s id g).time = s.time := by
  unfold modFrame
  split <;> rfl

/-- Steps that each leave the time block leave it in turn. -/
theorem time_foldl {α : Type} {f : State → α → State} (h : ∀ s a, (f s a).time = s.time) (l : List α) (s : State) :
    (l.foldl f s).time = s.time :=
  List.foldlRecOn (motive := fun t => t.time = s.time) l f rfl fun t ht a _ => (h t a).trans ht

theorem time_allocate (s : State) (sl : Nat) (flips : List (Nat × Nat)) : (allocate s sl flips).2.time = s.time := by
  unfold allocate
  extract_lets c
  split
  · rfl
  · split
    · rfl
    · extract_lets w s1
      split
      · rfl
      · split
        · rfl
        · exact (recorded_rimLog ..).time

theorem time_allocateMany (sl : Nat) (flips : List (Nat × Nat)) (n : Nat) (s : State) :
    (allocateMany sl flips n s).2.time = s.time := by
  induction n generalizing s with
  | zero => rfl
  | succ n ih =>
    have hone := time_allocate s sl flips
    unfold allocateMany
    split
    · next h => rw [h] at hone; exact hone
    · next h => rw [h] at hone; exact (ih _).trans hone

theorem time_growFrame (flips : List (Nat × Nat)) (s : State) (id : Nat) : (growFrame flips s id).time = s.time := by
  unfold growFrame onFrame
  split
  · rfl
  · dsimp only
    split
    · exact (time_modFrame ..).trans (time_allocateMany ..)
    · rfl

theorem time_slotTick (s : State) (sl cc : Nat) : (slotTick s sl cc).time = s.time := by
  unfold slotTick
  extract_lets n rest s1
  have hcounted : s1.time = s.time := time_bump ..
  split
  · exact (time_bump ..).trans hcounted
  · split
    · exact (time_bump ..).trans ((time_bump ..).trans hcounted)
    · split
      · exact (time_bump ..).trans ((time_bump ..).trans hcounted)
      · exact (time_bump ..).trans hcounted

theorem time_schedTickLoad (s : State) (cc : Nat) : (schedTickLoad s cc).time = s.time := by
  unfold schedTickLoad
  extract_lets s1 s2
  have hfetch : s2.time = s.time := by
    unfold s2
    split
    · exact time_bump ..
    · rfl
  split
  · exact (time_bump ..).trans hfetch
  · exact hfetch

theorem time_lpiTick (s : State) (p : Nat) : (lpiTick s p).time = s.time := by
  unfold lpiTick
  split
  · rfl
  · extract_lets busy s1
    have hidle : s1.time = s.time := by unfold s1; split <;> rfl
    split
    · exact (time_foldl (f := fun u l => modLane u l _) (fun _ _ => rfl) (lanesOf s1 p) s1).trans hidle
    · exact hidle

theorem time_flushAccess (s : State) : (flushAccess s).time = s.time :=
  time_foldl (fun u _ => (recorded_rimLog u ..).time) ..

/-- A tick does to the time block what serving it does. -/
theorem time_serveTick {s : State} (hup : s.rim.hold = 0) : (serveTick s).time = (serveStep s).time := by
  unfold serveTick
  rw [if_neg (by simp [hup])]
  extract_lets cc s1 s2 s3
  have hgrown : s2.time = s1.time := time_foldl (fun u _ => time_growFrame ..) ..
  have hloaded : s3.time = s1.time := by
    unfold s3
    split
    · exact (time_foldl time_lpiTick ..).trans ((time_schedTickLoad ..).trans ((time_foldl (time_slotTick · · cc) ..).trans hgrown))
    · rfl
  exact (time_flushAccess ..).trans hloaded

/-! ### The slew -/

/-- Served time while it is SET: on by the selected rate, less the residual clamped to the slew limit. -/
theorem served_serveStep {s : State} (hset : s.time.set = true) :
    (serveStep s).time = { s.time with
      tick := s.time.tick + 1,
      served := s.time.served + (domainAt s (selDomain s)).rate -
        clampTo ((domainAt s (selDomain s)).rate * slewPpm s / 1000000)
          (s.time.served + (domainAt s (selDomain s)).rate - (domainAt s (selDomain s)).timeAt (s.time.tick + 1)) } := by
  unfold serveStep
  extract_lets before s1 step e s2
  have hset1 : s1.time.set = true := hset
  rw [if_pos hset1]
  exact time_converged ..

/-- Served time while it is UNSET: on by 0.8 ns. -/
theorem unserved_serveStep {s : State} (hunset : s.time.set = false) :
    (serveStep s).time = { s.time with tick := s.time.tick + 1, served := s.time.served + (0xCCCCCCCD : Nat) } := by
  unfold serveStep
  extract_lets before s1 step e s2
  have hunset1 : ¬ s1.time.set = true := by simp [s1, withTime, hunset]
  rw [if_neg hunset1]
  rfl

/-- A clamped value lies within its limit. -/
theorem clampTo_bounds {lim : Int} (h : 0 ≤ lim) (e : Int) : -lim ≤ clampTo lim e ∧ clampTo lim e ≤ lim := by
  unfold clampTo
  omega

/-- At 1 to 100 ppm, the slew of a tick is less than the tick itself. -/
theorem slew_bounds (s : State) (rate : Nat) : 0 ≤ (rate : Int) * slewPpm s / 1000000 ∧
    (0 < rate → (rate : Int) * slewPpm s / 1000000 < rate) := by
  have hlow : 0 ≤ slewPpm s := by unfold slewPpm; omega
  have hhigh : slewPpm s ≤ 100 := by unfold slewPpm; omega
  have hprod : 0 ≤ (rate : Int) * slewPpm s := Int.mul_nonneg (by omega) hlow
  have hbound : (rate : Int) * slewPpm s ≤ rate * 100 := Int.mul_le_mul_of_nonneg_left hhigh (by omega)
  omega

/-- Settles O15: what a tick does besides serving it leaves the time block, and the slew of a tick is a part of the tick. -/
theorem tickMovesTime : Obligations.TickMovesTime := by
  intro s hup
  refine ⟨serveTick s, rfl, ?_⟩
  rw [time_serveTick hup]
  cases hset : s.time.set with
  | false =>
    rw [unserved_serveStep hset]
    exact ⟨rfl, rfl, hset, fun _ => rfl, fun h => by cases h⟩
  | true =>
    rw [served_serveStep hset]
    refine ⟨rfl, rfl, hset, fun h => (by cases h), fun _ => ?_⟩
    intro d step lim e
    obtain ⟨hlim, hslow⟩ := slew_bounds s d.rate
    obtain ⟨hfar, hnear⟩ := clampTo_bounds hlim e
    have hserved : s.time.served + step - clampTo lim e = s.time.served + step - max (-lim) (min lim e) := rfl
    refine ⟨rfl, ?_, ?_, fun hrate => ?_⟩
    · show _ ≤ s.time.served + step - clampTo lim e
      exact Int.sub_le_sub_left hnear _
    · show s.time.served + step - clampTo lim e ≤ _
      have : -lim ≤ clampTo lim e := hfar
      omega
    · show s.time.served < s.time.served + step - clampTo lim e
      have hless : lim < step := hslow hrate
      have : clampTo lim e ≤ lim := hnear
      omega


/-! ### Pulse edges, captures, pops and the snapshot -/

/-- A pulse begins: its schedule moves on, and the pin goes to the active level. -/
theorem timeOutEdge_of_due {s : State} {p : Nat} {c : Pulse} (hp : p < s.time.outs.length)
    (hrunning : (pinAt s p).running = some c) (hdue : (pinAt s p).next ≤ servedNow s) (hidle : (pinAt s p).ends = none) :
    (∃ time out, timeOutEdge p s = { s with time := time, out := out }) ∧
      pinAt (timeOutEdge p s) p = { pinAt s p with
        high := !c.low, ends := some ((pinAt s p).next + c.width), running := if c.mode = 2 then some c else none,
        next := (pinAt s p).next + c.period } := by
  have hrun : timeOutEdge p s = drivePin (modPin s p (fun y => { y with
      ends := some ((pinAt s p).next + c.width), running := if c.mode = 2 then some c else none,
      next := y.next + c.period })) p (!c.low) := by
    unfold timeOutEdge
    simp [hrunning, hdue, hidle]
  have hplace : p < (modPin s p (fun y => { y with
      ends := some ((pinAt s p).next + c.width), running := if c.mode = 2 then some c else none,
      next := y.next + c.period })).time.outs.length := by simpa [modPin, withTime] using hp
  obtain ⟨hpin, time, out, hdrive⟩ := drivePin_facts _ p (!c.low) hplace
  rw [hrun]
  refine ⟨⟨time, out, hdrive⟩, ?_⟩
  rw [hpin, pinAt_modPin _ _ _ _ hp, if_pos rfl]

/-- The capture of an edge now. -/
def captureNow (s : State) (rising : Bool) : Capture :=
  ⟨s.time.tick, servedSec s, servedNs s, (s.time.served % nsUnit).toNat / 65536, if rising then 1 else 2⟩

/-- An edge that a pin selects, posts nowhere and has room for joins the pin's queue. -/
theorem timeInEdge_of_queued {s : State} {p : Nat} {rising : Bool} (hselects : inSelects s p rising = true)
    (hqueues : fld s .tinCtl [p] 28 28 = 0) (hroom : (inAt s p).queue.length < 16) :
    timeInEdge p rising s = modIn s p (fun x => { x with queue := x.queue ++ [captureNow s rising] }) := by
  unfold timeInEdge
  simp [hselects, hqueues, hroom, captureNow]

/-- Settles O17: each is one change of one pin's record, or of the snapshot. -/
theorem pulsesCapturesAndSnapshot : Obligations.PulsesCapturesAndSnapshot := by
  intro s req p v houts hins hp
  refine ⟨fun c hrunning hdue hidle => ?_, fun rising hselects hqueues hroom => ?_, fun h hpop => ?_, fun h hgo => ?_⟩
  · obtain ⟨⟨time, out, hedge⟩, hpin⟩ := timeOutEdge_of_due (houts ▸ hp) hrunning hdue hidle
    refine ⟨_, time, out, rfl, hedge, ?_⟩
    rw [hpin]
    exact ⟨rfl, rfl, rfl, rfl⟩
  · have hedge := timeInEdge_of_queued hselects hqueues hroom
    refine ⟨_, _, captureNow s rising, congrArg Host.Outcome.next hedge, rfl, ?_, rfl, rfl, rfl, rfl, fun q hq => ?_⟩
    · rw [inAt_modIn _ _ _ _ (hins ▸ hp), if_pos rfl]
    · rw [inAt_modIn _ _ _ _ (hins ▸ hp), if_neg hq]
  · refine ⟨_, _, congrArg Host.Outcome.next ((guarded_ok h (by decide)).trans (if_pos hpop)), rfl, ?_⟩
    rw [show [p].getD 0 0 = p from rfl, inAt_modIn _ _ _ _ (hins ▸ hp), if_pos rfl]
    exact ⟨rfl, rfl⟩
  · exact congrArg Host.Outcome.next ((guarded_ok h (by decide)).trans (if_pos hgo))

end Sys2Proof.Machine
end

