-- ==== Sys2Proof/Proofs/ClosedPortLine.lean ====
section
/-! SUPPORT. What the discards of a port that closes leave alone: the lanes and ports of the line (07/R261). -/

namespace Sys2Proof.Machine

/-! ### What discards leave of the line

A closed port loses its frames (07/R261); none of it touches lanes or ports. -/

section
variable (s : State) (id : Nat)

theorem line_bump (part num n : Nat) : (bump s part num n).line = s.line := by
  obtain ⟨c, h⟩ := bump_eq s part num n
  rw [h]

theorem line_modFrame (g : Frame → Frame) : (modFrame s id g).line = s.line := by
  unfold modFrame
  split <;> rfl

theorem line_rimLog (type : Nat) (sec : Bool) (body : List Byte) : (rimLog s type sec body).line = s.line := by
  obtain ⟨l, n, h⟩ := rimLog_eq s type sec body
  rw [h]

theorem line_postEvent (src : Nat) (body : List Byte) : (postEvent s src body).line = s.line := by
  obtain ⟨host, out, h⟩ := postEvent_eq s src body
  rw [h]

/-- What is done with a frame leaves the line where each of its steps does. -/
theorem line_onFrame {s u : State} {id : Nat} {g : Frame → State} (hu : u.line = s.line)
    (hg : ∀ f, (g f).line = s.line) : (onFrame u id g).line = s.line := by
  unfold onFrame
  split
  · exact hu
  · exact hg _

theorem line_foldl {α : Type} {f : State → α → State} (h : ∀ s a, (f s a).line = s.line) (l : List α) (s : State) :
    (l.foldl f s).line = s.line :=
  List.foldlRecOn (motive := fun t => t.line = s.line) l f rfl fun t ht a _ => (h t a).trans ht

theorem line_raiseTask (code prio : Nat) (params : List Byte) : (raiseTask s code prio params).line = s.line := rfl

theorem line_retireFrom (n : Nat) (s : State) (sl : Nat) : (retireFrom n s sl).line = s.line := by
  induction n generalizing s with
  | zero => rfl
  | succ n ih =>
    unfold retireFrom
    extract_lets v s1 s2 s3
    split
    · have hslice : s1.line = s.line := modSlice_line ..
      have hevent : s2.line = s1.line := line_postEvent ..
      have hrules : s3.line = s2.line := by unfold s3; split <;> rfl
      exact (ih _).trans ((line_raiseTask ..).trans (hrules.trans (hevent.trans hslice)))
    · rfl

theorem line_releaseFrame : (releaseFrame s id).line = s.line := by
  refine line_onFrame rfl fun f => ?_
  extract_lets s1 egress s2 s3 s4
  have hsnap : s4.line = s.line := by unfold s4; split <;> rfl
  split
  · exact (line_retireFrom ..).trans hsnap
  · exact hsnap

theorem line_verdictGood : (verdictGood s id).line = s.line := by
  refine line_onFrame rfl fun f => ?_
  extract_lets s1 s2
  have hlearn : s1.line = s.line := by
    unfold s1 learnAtIngress
    split
    · rfl
    · split
      · unfold queueMacLearn
        split
        · rfl
        · exact line_bump ..
      · rfl
  split
  · exact (line_modFrame ..).trans hlearn
  · exact hlearn

theorem line_verdictBad : (verdictBad s id).line = s.line := by
  refine line_onFrame rfl fun f => ?_
  extract_lets s1
  have hvoid : s1.line = s.line := line_modFrame ..
  split
  · split <;> exact hvoid
  · split <;> exact hvoid

theorem line_freeCells (sl q : Nat) (cells : List Nat) : (freeCells s sl q cells).line = s.line := by
  refine line_foldl (f := fun u cell => freeCell u sl cell) (fun u cell => ?_) cells s
  unfold freeCell
  extract_lets c
  split
  · exact (line_rimLog ..).trans (line_bump ..)
  · rfl

theorem line_refsGone : (refsGone s id).line = s.line := by
  refine line_onFrame rfl fun f => ?_
  extract_lets s1
  have hfreed : s1.line = s.line := line_onFrame rfl fun g => (line_modFrame ..).trans (line_freeCells ..)
  split
  · split
    · exact (line_releaseFrame ..).trans ((line_verdictGood ..).trans hfreed)
    · exact (line_releaseFrame ..).trans ((line_verdictBad ..).trans hfreed)
  · split
    · exact (line_releaseFrame ..).trans hfreed
    · exact hfreed

theorem line_dropRef : (dropRef s id).line = s.line := by
  have hfewer : (modFrame s id (fun f => { f with refs := f.refs - 1 })).line = s.line := line_modFrame ..
  refine line_onFrame hfewer fun f => ?_
  split
  · exact (line_refsGone ..).trans hfewer
  · exact hfewer

theorem line_frameLeft : (frameLeft s id).line = s.line := by
  refine line_onFrame rfl fun f => ?_
  split
  · exact line_releaseFrame ..
  · extract_lets s1
    have hsnap : s1.line = s.line := by unfold s1; split <;> rfl
    exact (line_modFrame ..).trans hsnap

theorem line_stampLost : (stampLost s id).line = s.line := by
  refine line_onFrame rfl fun f => ?_
  split
  · exact line_postEvent ..
  · rfl

theorem line_discardStored : (discardStored s id).line = s.line := by
  refine line_onFrame rfl fun f => ?_
  split
  · exact line_dropRef ..
  · exact (line_frameLeft ..).trans ((line_dropRef ..).trans ((line_verdictBad ..).trans (line_stampLost ..)))

theorem line_discardCrossed : (discardCrossed s id).line = s.line := by
  refine line_onFrame rfl fun f => ?_
  split
  · exact line_dropRef ..
  · exact (line_frameLeft ..).trans ((line_verdictBad ..).trans (line_stampLost ..))

theorem line_cutSending (p : Nat) (pcs : Bool) : (cutSending s p pcs).line = s.line := by
  unfold cutSending
  split
  · rfl
  · extract_lets id n s1 s2
    have hcut : s2.line = s.line := line_bump ..
    refine line_onFrame hcut fun f => ?_
    extract_lets s3
    have hended : s3.line = s.line := by unfold s3; split <;> exact hcut
    split
    · exact (line_discardStored ..).trans hended
    · exact (line_discardCrossed ..).trans hended

theorem line_flushQueue (p c : Nat) : (flushQueue s p c).line = s.line := by
  unfold flushQueue
  extract_lets q over_ s1 wale s2 waiting s3 s4
  have hqueues : s3.line = s.line := line_foldl (f := fun u sl => modStore u sl _) (fun _ _ => rfl) _ s2
  have hstored : s4.line = s.line :=
    (line_foldl (fun u w => (line_discardStored ..).trans (line_bump ..)) waiting s3).trans hqueues
  refine (line_foldl (fun u id => ?_) over_ s4).trans hstored
  split
  · rfl
  · exact (line_discardCrossed ..).trans (line_bump ..)

/-- A port that closes loses its frames and keeps its line. -/
theorem line_closeDiscard (p : Nat) (pcs : Bool) : (closeDiscard s p pcs).line = s.line := by
  unfold closeDiscard
  extract_lets s1 s2
  have hflushed : s2.line = s.line := (line_foldl (fun u c => line_flushQueue u p c) _ s1).trans (line_cutSending ..)
  exact (line_foldl (f := fun u c => modEq u (eqNum p c) _) (fun _ _ => rfl) _ s2).trans hflushed

end

end Sys2Proof.Machine
end

