-- ==== Sys2Proof/Proofs/Attempts.lean ====
section
/-! PROOF. How an attempt to bring a port up starts and ends (11/R352–R358; 10/R329). -/

namespace Sys2Proof.Machine

/-! ### Ports and lanes -/

theorem portAt_modPort (s : State) (p q : Nat) (f : PortState → PortState) :
    portAt (modPort s p f) q = if q = p then f (portAt s p) else portAt s q := tget_tupd ..

theorem laneAt_modLane (s : State) (l k : Nat) (f : LaneState → LaneState) :
    laneAt (modLane s l f) k = if k = l then f (laneAt s l) else laneAt s k := tget_tupd ..

theorem portAt_of_line {s t : State} (h : t.line = s.line) (q : Nat) : portAt t q = portAt s q := by
  rw [portAt, h]; rfl

theorem laneAt_of_line {s t : State} (h : t.line = s.line) (l : Nat) : laneAt t l = laneAt s l := by
  rw [laneAt, h]; rfl

theorem mem_lanesOf {s : State} {p l : Nat} : l ∈ lanesOf s p ↔ ∃ i < portLanes s p, l = p + i := by
  simp [lanesOf, eq_comm]

theorem nodup_lanesOf (s : State) (p : Nat) : (lanesOf s p).Nodup :=
  List.nodup_range.map fun _ _ h => Nat.add_left_cancel h

/-- The same change of each of several lanes, one after another. -/
theorem laneAt_foldl_modLane {f : LaneState → LaneState} {ls : List Nat} (hnodup : ls.Nodup) (s : State) (k : Nat) :
    laneAt (ls.foldl (fun u l => modLane u l f) s) k = if k ∈ ls then f (laneAt s k) else laneAt s k := by
  induction ls generalizing s with
  | nil => rfl
  | cons l ls ih =>
    obtain ⟨hfresh, hrest⟩ := List.nodup_cons.mp hnodup
    rw [List.foldl_cons, ih hrest, laneAt_modLane]
    by_cases hk : k = l
    · subst hk
      simp [hfresh]
    · simp [hk]

/-- Two states that hold the same ports, whose lanes, outputs, registers and free values may differ. -/
structure PortsKept (s t : State) : Prop where
  footprint : ∃ regs line out fresh, t = { s with regs := regs, line := line, out := out, fresh := fresh }
  ports : t.line.ports = s.line.ports

namespace PortsKept

variable {s t u : State}

theorem refl (s : State) : PortsKept s s := ⟨⟨_, _, _, _, rfl⟩, rfl⟩

theorem trans (a : PortsKept s t) (b : PortsKept t u) : PortsKept s u := by
  obtain ⟨regs, line, out, fresh, rfl⟩ := a.footprint
  obtain ⟨regs', line', out', fresh', hu⟩ := b.footprint
  exact ⟨⟨regs', line', out', fresh', hu⟩, b.ports.trans a.ports⟩

theorem foldl {α : Type} {f : State → α → State} (h : ∀ s a, PortsKept s (f s a)) (l : List α) (s : State) :
    PortsKept s (l.foldl f s) :=
  List.foldlRecOn (motive := fun t => PortsKept s t) l f (.refl s) fun t ht a _ => ht.trans (h t a)

theorem portAt (h : PortsKept s t) (q : Nat) : portAt t q = Machine.portAt s q := by
  rw [Machine.portAt, h.ports]; rfl

end PortsKept

/-! ### An attempt starts -/

theorem portsKept_modLane (s : State) (l : Nat) (f : LaneState → LaneState) : PortsKept s (modLane s l f) :=
  ⟨⟨s.regs, _, s.out, s.fresh, rfl⟩, rfl⟩

theorem portsKept_emit (s : State) (o : Output) : PortsKept s (emit s o) := ⟨⟨s.regs, s.line, _, s.fresh, rfl⟩, rfl⟩

theorem portsKept_applyReg (s : State) (r : RegName) (ix : List Nat) (b : Applies) : PortsKept s (applyReg s r ix b) := by
  unfold applyReg
  split
  · exact .refl s
  · exact ⟨⟨_, s.line, s.out, s.fresh, rfl⟩, rfl⟩

theorem portsKept_laneRetrain (s : State) (l : Nat) : PortsKept s (laneRetrain s l) := by
  unfold laneRetrain
  extract_lets old s1
  have happlied : PortsKept s s1 := ((portsKept_applyReg ..).trans (portsKept_applyReg ..)).trans (portsKept_applyReg ..)
  split
  · exact happlied
  · exact happlied.trans (portsKept_modLane ..)

theorem portsKept_laneStart (s : State) (attempt : Nat) (train : Bool) (l : Nat) :
    PortsKept s (laneStart s attempt train l) := by
  unfold laneStart
  extract_lets s1 x row base set s2 s3 s4
  have hset : PortsKept s s2 := (portsKept_laneRetrain ..).trans (portsKept_modLane ..)
  have hdrawn : PortsKept s s3 := hset.trans ⟨⟨s2.regs, s2.line, s2.out, _, rfl⟩, rfl⟩
  split
  · exact hdrawn
  · have hpreset : PortsKept s s4 := by
      unfold s4
      split
      · exact hdrawn
      · exact hdrawn.trans (portsKept_emit ..)
    exact hpreset.trans (portsKept_emit ..)

/-- The port of an attempt as it starts. -/
def PortState.attemptStarted (x : PortState) (now : Nat) : PortState :=
  { x with attempts := x.attempts + 1, attempting := true, since := now }

/-- An attempt that starts counts on its port, and leaves the other ports. -/
theorem attemptStart_facts (s : State) (p : Nat) :
    (∃ regs line out fresh, attemptStart s p = { s with regs := regs, line := line, out := out, fresh := fresh }) ∧
      ∀ q, portAt (attemptStart s p) q = if q = p then (portAt s p).attemptStarted s.time.tick else portAt s q := by
  unfold attemptStart
  extract_lets s1 s2 s3
  have happlied : PortsKept s s1 := (portsKept_applyReg ..).trans (portsKept_applyReg ..)
  have hstarted : PortsKept s2 s3 := by
    unfold s3
    split
    · exact portsKept_emit ..
    · exact .refl _
  have hlanes : PortsKept s2 ((lanesOf s3 p).foldl (fun s l =>
      laneStart s (portAt s p).attempts (fld s .portCtl [p] 27 27 == 1) l) s3) :=
    hstarted.trans (.foldl (fun u l => portsKept_laneStart ..) ..)
  have htick : s1.time.tick = s.time.tick := by
    obtain ⟨regs, line, out, fresh, h⟩ := happlied.footprint
    rw [h]
  refine ⟨?_, fun q => ?_⟩
  · obtain ⟨regs, line, out, fresh, h⟩ := happlied.footprint
    obtain ⟨regs', line', out', fresh', h'⟩ := hlanes.footprint
    exact ⟨regs', line', out', fresh', by rw [h']; simp only [s2, modPort, h]⟩
  · rw [hlanes.portAt, portAt_modPort, happlied.portAt, happlied.portAt, htick]
    rfl

/-! ### What an attempt measures -/

/-- Two states that differ in what has left the device and in their lanes. -/
structure LanesAlone (s t : State) : Prop where
  footprint : ∃ out lanes, t = { s with out := out, line := { s.line with lanes := lanes } }

namespace LanesAlone

variable {s t u : State}

theorem refl (s : State) : LanesAlone s s := ⟨_, _, rfl⟩

theorem trans (a : LanesAlone s t) (b : LanesAlone t u) : LanesAlone s u := by
  obtain ⟨out, lanes, rfl⟩ := a
  obtain ⟨out', lanes', hu⟩ := b
  exact ⟨out', lanes', hu⟩

theorem foldl {α : Type} {f : State → α → State} (h : ∀ s a, LanesAlone s (f s a)) (l : List α) (s : State) :
    LanesAlone s (l.foldl f s) :=
  List.foldlRecOn (motive := fun t => LanesAlone s t) l f (.refl s) fun t ht a _ => ht.trans (h t a)

theorem regs (h : LanesAlone s t) : t.regs = s.regs := by obtain ⟨out, lanes, rfl⟩ := h; rfl
theorem time (h : LanesAlone s t) : t.time = s.time := by obtain ⟨out, lanes, rfl⟩ := h; rfl
theorem portAt (h : LanesAlone s t) (q : Nat) : portAt t q = Machine.portAt s q := by obtain ⟨out, lanes, rfl⟩ := h; rfl

theorem fld (h : LanesAlone s t) (r : RegName) (ix : List Nat) (hi lo : Nat) : fld t r ix hi lo = Machine.fld s r ix hi lo := by
  obtain ⟨out, lanes, rfl⟩ := h; rfl

theorem lanesOf (h : LanesAlone s t) (p : Nat) : lanesOf t p = Machine.lanesOf s p := by obtain ⟨out, lanes, rfl⟩ := h; rfl

theorem anDone (h : LanesAlone s t) (p : Nat) (an : List (Nat × Nat)) : anDone t p an = Machine.anDone s p an := by
  obtain ⟨out, lanes, rfl⟩ := h; rfl

end LanesAlone

theorem lanesAlone_modLane (s : State) (l : Nat) (f : LaneState → LaneState) : LanesAlone s (modLane s l f) := ⟨s.out, _, rfl⟩

/-- Training requests leave every lane but their own. -/
theorem answerRequests_facts (s : State) (l : Nat) (rs : List TrainRequest) :
    LanesAlone s (answerRequests s l rs) ∧ ∀ k, k ≠ l → laneAt (answerRequests s l rs) k = laneAt s k := by
  refine List.foldlRecOn (motive := fun t => LanesAlone s t ∧ ∀ k, k ≠ l → laneAt t k = laneAt s k) rs _
    ⟨.refl s, fun _ _ => rfl⟩ fun t ht r _ => ?_
  obtain ⟨halone, hothers⟩ := ht
  have hanswer : LanesAlone s (emit t (.trainAnswer l r (trainSupported r))) := halone.trans ⟨_, _, rfl⟩
  dsimp only
  split
  · split
    · exact ⟨hanswer.trans (lanesAlone_modLane ..), fun k hk => by rw [laneAt_modLane, if_neg hk]; exact hothers k hk⟩
    · exact ⟨hanswer, hothers⟩
  · exact ⟨hanswer, hothers⟩

/-- An attempt leaves one lane with its result, and the other lanes as they were. -/
theorem measureLane_facts (s : State) (l attempt : Nat) (train : Bool) (r : LaneResult) :
    LanesAlone s (measureLane s l attempt train r) ∧
      (∀ k, k ≠ l → laneAt (measureLane s l attempt train r) k = laneAt s k) ∧
      (laneAt (measureLane s l attempt train r) l).settings = r.settings ∧
      (laneAt (measureLane s l attempt train r) l).fom = fomOf r.snr := by
  unfold measureLane
  extract_lets s1
  have hanswered : LanesAlone s s1 ∧ ∀ k, k ≠ l → laneAt s1 k = laneAt s k := by
    unfold s1
    split
    · exact answerRequests_facts ..
    · exact ⟨.refl s, fun _ _ => rfl⟩
  obtain ⟨halone, hothers⟩ := hanswered
  refine ⟨halone.trans (lanesAlone_modLane ..), fun k hk => ?_, ?_⟩
  · rw [laneAt_modLane, if_neg hk]
    exact hothers k hk
  · rw [laneAt_modLane, if_pos rfl]
    exact ⟨rfl, rfl⟩

/-- One step of `measure`. -/
def measureStep (p : Nat) (s : State) (e : Nat × LaneResult) : State :=
  measureLane s e.1 (portAt s p).attempts (fld s .portCtl [p] 27 27 == 1) e.2

theorem lanesAlone_measure (s : State) (p : Nat) (rs : List LaneResult) : LanesAlone s (measure s p rs) :=
  .foldl (fun u _ => (measureLane_facts u ..).1) ..

/-- Lanes that are not measured stay; measured ones hold their results. -/
theorem laneAt_foldl_measureStep (p : Nat) {es : List (Nat × LaneResult)} (hnodup : (es.map Prod.fst).Nodup) (s : State) :
    (∀ k, k ∉ es.map Prod.fst → laneAt (es.foldl (measureStep p) s) k = laneAt s k) ∧
      ∀ e ∈ es, (laneAt (es.foldl (measureStep p) s) e.1).settings = e.2.settings ∧
        (laneAt (es.foldl (measureStep p) s) e.1).fom = fomOf e.2.snr := by
  induction es generalizing s with
  | nil => exact ⟨fun _ _ => rfl, fun e he => by cases he⟩
  | cons x es ih =>
    obtain ⟨hfresh, hrest⟩ := List.nodup_cons.mp (List.map_cons (f := Prod.fst) ▸ hnodup)
    obtain ⟨hothers, hmeasured⟩ := ih hrest (measureStep p s x)
    obtain ⟨-, hkept, hown⟩ := measureLane_facts s x.1 (portAt s p).attempts (fld s .portCtl [p] 27 27 == 1) x.2
    refine ⟨fun k hk => ?_, fun e he => ?_⟩
    · rw [List.map_cons, List.mem_cons, not_or] at hk
      exact (hothers k hk.2).trans (hkept k hk.1)
    · rcases List.mem_cons.mp he with rfl | he
      · rw [List.foldl_cons, hothers _ hfresh]
        exact hown
      · exact hmeasured e he

/-- What an attempt leaves of each lane of its port. -/
theorem laneAt_measure {s : State} {p i : Nat} {rs : List LaneResult} {r : LaneResult} (hlen : rs.length = portLanes s p)
    (hr : rs[i]? = some r) : (laneAt (measure s p rs) (p + i)).settings = r.settings ∧
      (laneAt (measure s p rs) (p + i)).fom = fomOf r.snr := by
  have hlanes : (lanesOf s p).length = rs.length := by simp [lanesOf, hlen]
  have hfst : ((lanesOf s p).zip rs).map Prod.fst = lanesOf s p := List.map_fst_zip hlanes.le
  have hnodup : (((lanesOf s p).zip rs).map Prod.fst).Nodup := by
    rw [hfst]
    exact nodup_lanesOf s p
  obtain ⟨-, hmeasured⟩ := laneAt_foldl_measureStep p hnodup s
  obtain ⟨hi, -⟩ := List.getElem?_eq_some_iff.mp hr
  have hlane : (lanesOf s p)[i]? = some (p + i) := by
    simp [lanesOf, ← hlen, hi]
  have hpair : ((lanesOf s p).zip rs)[i]? = some (p + i, r) := List.getElem?_zip_eq_some.mpr ⟨hlane, hr⟩
  exact hmeasured (p + i, r) (List.mem_of_getElem? hpair)

/-- The floor is met by the lanes exactly when it is met by what was measured of them. -/
theorem floor_measure {s : State} {p : Nat} {rs : List LaneResult} (hlen : rs.length = portLanes s p) (floor : Nat) :
    (lanesOf (measure s p rs) p).all (fun l => decide (floor ≤ (laneAt (measure s p rs) l).fom)) = true ↔
      ∀ r ∈ rs, floor ≤ fomOf r.snr := by
  rw [(lanesAlone_measure s p rs).lanesOf]
  simp only [List.all_eq_true, decide_eq_true_eq, mem_lanesOf]
  constructor
  · intro h r hr
    obtain ⟨i, hi⟩ := List.getElem?_of_mem hr
    obtain ⟨hlt, -⟩ := List.getElem?_eq_some_iff.mp hi
    rw [← (laneAt_measure hlen hi).2]
    exact h _ ⟨i, hlen ▸ hlt, rfl⟩
  · rintro h l ⟨i, hi, rfl⟩
    have hget : rs[i]? = some rs[i] := List.getElem?_eq_getElem _
    rw [(laneAt_measure hlen hget).2]
    exact h _ (List.getElem_mem _)

/-! ### An attempt succeeds -/

/-- A port as it enters UP. -/
def PortState.cameUp (x : PortState) (now : Nat) : PortState :=
  { x with state := 2, attempting := false, since := now, idleSince := now, uncorr := 0, readySince := none }

/-- A lane whose settings are those that it converged on. -/
def LaneState.settled (x : LaneState) : LaneState := { x with converged := true, storedSettings := x.settings }

/-- The line of a port that enters UP. -/
def upLine (s : State) (p : Nat) : State :=
  (lanesOf s p).foldl (fun u l => modLane u l LaneState.settled) (modPort s p (fun x => x.cameUp s.time.tick))

theorem portAt_upLine (s : State) (p q : Nat) :
    portAt (upLine s p) q = if q = p then (portAt s p).cameUp s.time.tick else portAt s q := by
  have hlanes : LanesAlone (modPort s p (fun x => x.cameUp s.time.tick)) (upLine s p) :=
    .foldl (fun u l => lanesAlone_modLane ..) ..
  rw [hlanes.portAt, portAt_modPort]

theorem laneAt_upLine {s : State} {p l : Nat} (h : l ∈ lanesOf s p) : laneAt (upLine s p) l = (laneAt s l).settled := by
  rw [upLine, laneAt_foldl_modLane (nodup_lanesOf s p), if_pos h]
  rfl

theorem setByLink_facts (s : State) : (∃ time host out, setByLink s = { s with time := time, host := host, out := out }) ∧
    (setByLink s).time.set = true ∧ (s.time.set = true → (setByLink s).time = s.time) := by
  unfold setByLink
  split
  · next h => exact ⟨⟨_, _, _, rfl⟩, h, fun _ => rfl⟩
  · next h =>
    obtain ⟨host, out, hpost⟩ := postEvent_eq (withTime s (fun t => { t with set := true })) 5
      (le 1 4 ++ le 1 0 ++ le 2 0 ++ zeros 4 ++ servedRecord (withTime s (fun t => { t with set := true })))
    have heq : servedBecomesSet s = { withTime s (fun t => { t with set := true }) with host := host, out := out } := hpost
    rw [heq]
    exact ⟨⟨_, _, _, rfl⟩, rfl, fun hset => absurd hset h⟩

/-- A port that comes up has the line of one that is up, and served time is SET. -/
theorem portComesUp_facts (s : State) (p : Nat) :
    (∃ out regs time host line, portComesUp s p =
      { s with out := out, regs := regs, time := time, host := host, line := line }) ∧
    (portComesUp s p).line = (upLine s p).line ∧ (portComesUp s p).time.set = true ∧
    (s.time.set = true → (portComesUp s p).time = s.time) := by
  have hlanes : LanesAlone (modPort s p (fun x => x.cameUp s.time.tick)) (upLine s p) :=
    .foldl (fun u l => lanesAlone_modLane ..) ..
  obtain ⟨out, lanes, hup⟩ := hlanes
  have hrun : portComesUp s p =
      setByLink (linkEvent (lineRaise (upLine s p) p 0) 1 p (portAt (lineRaise (upLine s p) p 0) p).dropCause) := rfl
  generalize (portAt (lineRaise (upLine s p) p 0) p).dropCause = cause at hrun
  obtain ⟨host, out', hevent⟩ : ∃ host out, linkEvent (lineRaise (upLine s p) p 0) 1 p cause =
      { lineRaise (upLine s p) p 0 with host := host, out := out } := postEvent_eq ..
  obtain ⟨⟨time, host', out'', hset⟩, hisSet, hkept⟩ :=
    setByLink_facts (linkEvent (lineRaise (upLine s p) p 0) 1 p cause)
  rw [hrun]
  rw [hevent] at hset hisSet hkept ⊢
  refine ⟨⟨out'', (lineRaise (upLine s p) p 0).regs, time, host', (upLine s p).line, ?_⟩, ?_, hisSet, fun h => ?_⟩
  · rw [hset]
    simp only [lineRaise, forceReg, setCell, raiseEv, hup, modPort]
  · rw [hset]
    rfl
  · have htime : (upLine s p).time = s.time := by rw [hup]; rfl
    exact (hkept ((congrArg TimeState.set htime).trans h)).trans htime

/-! ### An attempt fails -/

/-- The reason shown where negotiation did not complete. -/
def PortState.failShown (x : PortState) (anFail : Bool) : PortState := if anFail then { x with dropCause := 9 } else x

/-- A port that has failed, out of low-power idle. -/
def PortState.failed (x : PortState) (cause : Nat) : PortState :=
  { x with state := 0, cause := cause, attempting := false, readySince := none }

/-- A port that waits for its next attempt. -/
def PortState.waiting (x : PortState) (now : Nat) : PortState := { x with attempting := false, since := now }

/-- The port of an attempt that fails. -/
def PortState.attemptFailed (x : PortState) (anFail : Bool) (last now : Nat) : PortState :=
  if last ≤ x.attempts then (x.failShown anFail).failed 1 else (x.failShown anFail).waiting now

theorem attempts_failShown (x : PortState) (anFail : Bool) : (x.failShown anFail).attempts = x.attempts := by
  cases anFail <;> rfl

theorem state_failShown (x : PortState) (anFail : Bool) : (x.failShown anFail).state = x.state := by
  cases anFail <;> rfl

theorem portAt_leaveLpi (s : State) (p q : Nat) :
    portAt (leaveLpi s p) q = if q = p then { portAt s p with readySince := none } else portAt s q := by
  have hlanes : LanesAlone s ((lanesOf s p).foldl (fun s l => modLane s l (fun x => { x with txLpi := false, rxLpi := false })) s) :=
    .foldl (fun u l => lanesAlone_modLane ..) ..
  unfold leaveLpi
  rw [portAt_modPort, hlanes.portAt, hlanes.portAt]

/-- A port that trains and fails loses its frames; the other ports stay. -/
theorem portAt_failPort {s : State} {p : Nat} (htraining : (portAt s p).state = 1) (cause q : Nat) :
    portAt (failPort s p cause) q = if q = p then (portAt s p).failed cause else portAt s q := by
  unfold failPort
  extract_lets pcs s1 s2
  have hreceives : s1 = s := if_neg (by simp [htraining])
  rw [portAt_of_line (line_closeDiscard ..), portAt_leaveLpi, portAt_modPort, portAt_modPort, hreceives, if_pos rfl]
  by_cases hq : q = p
  · rw [if_pos hq, if_pos hq]
    rfl
  · rw [if_neg hq, if_neg hq, if_neg hq]

/-- An attempt that fails leaves the other ports. -/
theorem portAt_attemptFails {s : State} {p : Nat} (htraining : (portAt s p).state = 1) (anFail : Bool) (q : Nat) :
    portAt (attemptFails s p anFail) q =
      if q = p then (portAt s p).attemptFailed anFail (max 1 (fld s .portTrain [p] 31 28)) s.time.tick else portAt s q := by
  unfold attemptFails
  extract_lets s1
  have hshown (k : Nat) : portAt s1 k = if k = p then (portAt s p).failShown anFail else portAt s k := by
    unfold s1
    cases anFail with
    | true => exact portAt_modPort ..
    | false => by_cases hk : k = p <;> simp [hk, PortState.failShown]
  have hown : portAt s1 p = (portAt s p).failShown anFail := (hshown p).trans (if_pos rfl)
  have hregs : fld s1 .portTrain [p] 31 28 = fld s .portTrain [p] 31 28 := by unfold s1; split <;> rfl
  have htick : s1.time.tick = s.time.tick := by unfold s1; split <;> rfl
  have hstate : (portAt s1 p).state = 1 := by rw [hown, state_failShown, htraining]
  have hevent (u : State) : (linkEvent (lineRaise u p 2) 3 p 1).line = u.line := line_postEvent ..
  rw [hregs, hown, attempts_failShown, PortState.attemptFailed]
  split
  · rw [portAt_of_line (hevent _), portAt_failPort hstate, hown, hshown]
    split <;> rfl
  · rw [portAt_modPort, hown, hshown, htick]
    split <;> rfl

/-! ### Attempts of a port -/

theorem attemptRuns_of {s : State} {p : Nat} (hport : isPort s p = true) (htraining : (portAt s p).state = 1)
    (hattempting : (portAt s p).attempting = true) (hloop : loopOf s p ≠ 3) : attemptRuns s p = true := by
  simp [attemptRuns, hport, htraining, hattempting, hloop]

/-- The tick at which ATTEMPT_MS has passed. -/
theorem attemptOver_iff (s : State) (p : Nat) : attemptOver s p = true ↔
    (portAt s p).since + max 100 (fld s .portTrain [p] 15 0) * 1250000 ≤ s.time.tick := by
  have hticks : ticksOfNs (max 100 (fld s .portTrain [p] 15 0) * 1000000) = max 100 (fld s .portTrain [p] 15 0) * 1250000 := by
    unfold ticksOfNs
    omega
  rw [attemptOver, hticks, decide_eq_true_iff]

/-- What was asked for and came: negotiation, training, the floor on every lane, and lock. -/
def attemptSucceeds (s : State) (p : Nat) (an : List (Nat × Nat)) (lt locked : Bool) (rs : List LaneResult) : Prop :=
  anDone s p an = true ∧ (fld s .portCtl [p] 27 27 = 0 ∨ lt = true) ∧
    (∀ r ∈ rs, fld s .portTrain [p] 23 16 ≤ fomOf r.snr) ∧ locked = true

/-- An attempt that ends in time is measured, and judged by what it was asked for. -/
theorem attemptEnd_cases {s : State} {p : Nat} (hruns : attemptRuns s p = true) (hintime : attemptOver s p = false)
    {rs : List LaneResult} (hlen : rs.length = portLanes s p) (an : List (Nat × Nat)) (lt locked : Bool) :
    (attemptSucceeds s p an lt locked rs → attemptEnd p an lt locked rs s = portComesUp (measure s p rs) p) ∧
    (¬ attemptSucceeds s p an lt locked rs →
      attemptEnd p an lt locked rs s = attemptFails (measure s p rs) p (!anDone s p an)) := by
  have hmeasured := lanesAlone_measure s p rs
  unfold attemptEnd
  rw [if_neg (by simp [hruns, hintime])]
  extract_lets u anOk ok floor
  have hok : (ok && (lanesOf u p).all (fun l => decide (floor ≤ (laneAt u l).fom)) && locked) = true ↔
      attemptSucceeds s p an lt locked rs := by
    rw [Bool.and_eq_true, Bool.and_eq_true, floor_measure hlen, attemptSucceeds]
    simp only [ok, anOk, floor, u, hmeasured.anDone, hmeasured.fld, Bool.and_eq_true, Bool.or_eq_true, beq_iff_eq, and_assoc]
  have hanOk : anOk = anDone s p an := hmeasured.anDone ..
  rw [hanOk]
  exact ⟨fun h => if_pos (hok.mpr h), fun h => if_neg fun hc => h (hok.mp hc)⟩

/-- Settles O28: what an attempt leaves of the line is the footprint of its measurement, and of the port's coming up or its
failure, which a port at its last attempt pays for with the frames queued to it. -/
theorem attempts : Obligations.Attempts := by
  intro s p an rs x floor last alone deadline fails hport htraining
  have hfails {u : State} (hu : LanesAlone s u) : fails (attemptFails u p (!anDone s p an)) := by
    have hstate : (portAt u p).state = 1 := by rw [hu.portAt, htraining]
    have hports (q : Nat) := portAt_attemptFails hstate (!anDone s p an) q
    simp only [hu.portAt, hu.fld, hu.time] at hports
    have hown : portAt (attemptFails u p (!anDone s p an)) p = x.attemptFailed (!anDone s p an) last s.time.tick :=
      (hports p).trans (if_pos rfl)
    refine ⟨fun q hq => (hports q).trans (if_neg hq), ?_⟩
    rw [hown, PortState.attemptFailed]
    by_cases hlast : last ≤ x.attempts
    · rw [if_pos hlast]
      refine ⟨rfl, fun h => ?_, fun _ => ⟨rfl, rfl⟩, fun h => absurd hlast (by omega)⟩
      rw [h]; rfl
    · rw [if_neg hlast]
      refine ⟨rfl, fun h => ?_, fun h => absurd h hlast, fun _ => ⟨?_, attempts_failShown .., rfl⟩⟩
      · rw [h]; rfl
      · exact (state_failShown ..).trans htraining
  have hmeasured := lanesAlone_measure s p rs
  refine ⟨fun hidle hwait => ?_, fun hattempting hloop hlen => ?_⟩
  · obtain ⟨⟨regs, line, out, fresh, hrun⟩, hports⟩ := attemptStart_facts s p
    have hnext : nextAttempt p s = attemptStart s p := 
      if_pos (by simp [hport, htraining, hidle, ticksOfNs, x, hwait])
    refine ⟨_, regs, line, out, fresh, congrArg Host.Outcome.next hnext, hrun, ?_⟩
    rw [hports p, if_pos rfl]
    exact ⟨rfl, rfl, htraining, rfl, fun q hq => (hports q).trans (if_neg hq)⟩
  · have hruns := attemptRuns_of hport htraining hattempting hloop
    refine ⟨fun lt hintime han hlt hfloor => ?_, fun lt locked hintime hmissing => ?_, fun hover => ?_⟩
    · have hnotover : attemptOver s p = false := by
        rw [Bool.eq_false_iff, Ne, attemptOver_iff]
        exact not_le.mpr hintime
      have hup := (attemptEnd_cases hruns hnotover hlen an lt true).1 ⟨han, hlt, hfloor, rfl⟩
      obtain ⟨⟨out, regs, time, host, line, hfoot⟩, hline, hset, hkept⟩ := portComesUp_facts (measure s p rs) p
      obtain ⟨out', lanes', hm⟩ := id hmeasured
      refine ⟨_, congrArg Host.Outcome.next hup, ⟨out, regs, time, host, line, by rw [hfoot, hm]⟩, ?_⟩
      have hports (q : Nat) := (portAt_of_line hline q).trans (portAt_upLine ..)
      simp only [hmeasured.portAt, hmeasured.time] at hports hkept
      rw [hports p, if_pos rfl]
      refine ⟨rfl, rfl, fun q hq => (hports q).trans (if_neg hq), hset, hkept, fun i r hr => ?_⟩
      obtain ⟨hi, -⟩ := List.getElem?_eq_some_iff.mp hr
      have hlane : p + i ∈ lanesOf (measure s p rs) p := by
        rw [hmeasured.lanesOf, mem_lanesOf]
        exact ⟨i, hlen ▸ hi, rfl⟩
      obtain ⟨hsettings, hfom⟩ := laneAt_measure hlen hr
      rw [laneAt_of_line hline, laneAt_upLine hlane]
      exact ⟨hsettings, hsettings, rfl, hfom⟩
    · have hnotover : attemptOver s p = false := by
        rw [Bool.eq_false_iff, Ne, attemptOver_iff]
        exact not_le.mpr hintime
      have hnot : ¬ attemptSucceeds s p an lt locked rs := by
        rintro ⟨han, hlt, hfloor, hlocked⟩
        rcases hmissing with h | h | ⟨h, hasked⟩ | ⟨r, hr, hlow⟩
        · simp [h] at hlocked
        · simp [h] at han
        · exact hlt.elim hasked (by simp [h])
        · exact absurd (hfloor r hr) (not_le.mpr hlow)
      exact ⟨_, congrArg Host.Outcome.next ((attemptEnd_cases hruns hnotover hlen an lt locked).2 hnot), hfails hmeasured⟩
    · have hisover : attemptOver s p = true := (attemptOver_iff s p).mpr hover
      exact ⟨_, congrArg Host.Outcome.next (if_pos (by simp [hruns, hisover])), hfails hmeasured⟩

end Sys2Proof.Machine
end

