-- ==== Sys2Proof/Proofs/InvariantParts.lean ====
section
/-! SUPPORT. What the invariant speaks of, and its rules for the parts of a state: a change of anything else keeps it, and so does each
lawful change of the counters, the images, the frames and the tables. -/

namespace Sys2Proof.Machine

/-! ### What the invariant speaks of -/

/-- What of each part of a state the invariant speaks of: the counts of secure OTP and the lifecycle that pends, the sizes of what
the device has a fixed number of, the counter banks, the images of the epochs' totals. -/
def RimState.vitals (x : RimState) :=
  (x.otp.lifecycle, x.otp.rollback, x.otp.sessions, x.pendingLc, x.boxes.length, x.slots.length)
@[inherit_doc RimState.vitals] def CounterState.vitals (x : CounterState) := (x.counts, x.chained)
@[inherit_doc RimState.vitals] def TimeState.vitals (x : TimeState) := (x.domains.length, x.outs.length, x.ins.length)
@[inherit_doc RimState.vitals] def SchedState.vitals (x : SchedState) := (x.ready.length, x.engines.length)
@[inherit_doc RimState.vitals] def ChainState.vitals (x : ChainState) := (x.up.length, x.credits.length)
@[inherit_doc RimState.vitals] def LidState.vitals (x : LidState) := (x.zones, x.ports, x.classes)

/-- What of a state the invariant speaks of. -/
def vitals (s : State) :=
  (s.rim.vitals, s.counters.vitals, s.time.vitals, s.host.ports.length, s.sched.vitals, s.chain.vitals,
    s.skein.learnQ.length, (s.frames, s.nextFrame), s.lid.vitals)

section
variable {s t : State}

/-- A change of what the invariant does not speak of keeps it. -/
theorem inv_of_vitals (h : Inv s) (e : vitals t = vitals s) : Inv t := by
  simp only [vitals, RimState.vitals, CounterState.vitals, TimeState.vitals, SchedState.vitals, ChainState.vitals,
    LidState.vitals, Prod.mk.injEq] at e
  obtain ⟨⟨hlife, hroll, hsess, hpend, hboxes, hslots⟩, ⟨hcounts, hchained⟩, htime, hhost, hsched, hchain, hskein,
    ⟨hframes, hnext⟩, hzones, hports, hclasses⟩ := e
  obtain ⟨otp, counters, parts, frames, images⟩ := h
  refine ⟨?_, ?_, ?_, ?_, ?_⟩
  · rw [OtpBounds, hlife, hroll, hsess, hpend]
    exact otp
  · rw [CountersFit, hcounts, hchained]
    exact counters
  · simp only [FixedParts, hboxes, hslots, htime, hhost, hsched, hchain, hskein]
    exact parts
  · rw [FramesListed, hframes, hnext]
    exact frames
  · rw [ImagesKept, hzones, hports, hclasses]
    exact images

theorem inv_withRim {f : RimState → RimState} (h : Inv s) (hf : ∀ x, (f x).vitals = x.vitals) : Inv (withRim s f) :=
  inv_of_vitals h (by simp only [vitals, withRim, hf])

theorem inv_withTime {f : TimeState → TimeState} (h : Inv s) (hf : ∀ x, (f x).vitals = x.vitals) :
    Inv (withTime s f) :=
  inv_of_vitals h (by simp only [vitals, withTime, hf])

theorem inv_withSched {f : SchedState → SchedState} (h : Inv s) (hf : ∀ x, (f x).vitals = x.vitals) :
    Inv (withSched s f) :=
  inv_of_vitals h (by simp only [vitals, withSched, hf])

theorem inv_withChain {f : ChainState → ChainState} (h : Inv s) (hf : ∀ x, (f x).vitals = x.vitals) :
    Inv (withChain s f) :=
  inv_of_vitals h (by simp only [vitals, withChain, hf])

theorem inv_withSkein {f : SkeinState → SkeinState} (h : Inv s) (hf : ∀ x, (f x).learnQ.length = x.learnQ.length) :
    Inv (withSkein s f) :=
  inv_of_vitals h (by simp only [vitals, withSkein, hf])

/-! ### What a step does in turn -/

theorem inv_ite {c : Prop} [Decidable c] (hs : Inv s) (ht : Inv t) : Inv (if c then s else t) := by
  split
  · exact hs
  · exact ht

theorem inv_ite_snd {α : Type} {c : Prop} [Decidable c] {p q : α × State} (hp : Inv p.2) (hq : Inv q.2) :
    Inv (if c then p else q).2 := by
  split
  · exact hp
  · exact hq

theorem inv_foldl {α : Type} {f : State → α → State} {l : List α} (h : Inv s) (hf : ∀ u a, Inv u → Inv (f u a)) :
    Inv (l.foldl f s) :=
  List.foldlRecOn (motive := Inv) l f h fun u hu a _ => hf u a hu

/-- The state of a pair that a step answers. -/
theorem inv_of_pair {α : Type} {p : α × State} {a : α} (e : p = (a, t)) (h : Inv p.2) : Inv t := by
  rw [e] at h
  exact h

/-! ### Counters, images and frames -/

theorem inv_withCounters {f : CounterState → CounterState} (h : Inv s) (hf : CountersFit (f s.counters)) :
    Inv (withCounters s f) :=
  ⟨h.otp, hf, h.parts, h.frames, h.images⟩

/-- A change of the Lid that keeps the form of its images. -/
theorem inv_of_images {l : LidState} (h : Inv s) (hl : ImagesKept l) : Inv { s with lid := l } :=
  ⟨h.otp, h.counters, h.parts, h.frames, hl⟩

end

/-! ### Tables in canonical form -/

section
variable {α : Type} {t : Table α} {i : Nat} {x : α} {e : Nat × α}

theorem mem_tins (h : e ∈ tins t i x) : e = (i, x) ∨ e ∈ t := by
  induction t with
  | nil => exact .inl (List.mem_singleton.mp h)
  | cons a r ih =>
    unfold tins at h
    split at h
    · exact List.mem_cons.mp h
    · split at h
      · exact (List.mem_cons.mp h).imp_right (List.mem_cons_of_mem _)
      · rcases List.mem_cons.mp h with rfl | h
        · exact .inr List.mem_cons_self
        · exact (ih h).imp_right (List.mem_cons_of_mem _)

theorem mem_tdel (h : e ∈ tdel t i) : e ∈ t := by
  induction t with
  | nil => exact h
  | cons a r ih =>
    unfold tdel at h
    split at h
    · exact List.mem_cons_of_mem _ h
    · split at h
      · exact h
      · rcases List.mem_cons.mp h with rfl | h
        · exact List.mem_cons_self
        · exact List.mem_cons_of_mem _ (ih h)

theorem mem_tput [DecidableEq α] {d : α} (h : e ∈ tput d t i x) : e = (i, x) ∨ e ∈ t := by
  unfold tput at h
  split at h
  · exact .inr (mem_tdel h)
  · exact mem_tins h

theorem tsortedFrom_filter {b : Option Nat} (p : Nat × α → Bool) (h : tsortedFrom b t = true) :
    tsortedFrom b (t.filter p) = true := by
  induction t generalizing b with
  | nil => exact h
  | cons a r ih =>
    obtain ⟨hfirst, hrest⟩ := (tsortedFrom_cons b a.1 a.2 r).mp h
    rw [List.filter_cons]
    split
    · exact (tsortedFrom_cons b a.1 a.2 _).mpr ⟨hfirst, ih hrest⟩
    · exact ih (tsortedFrom_weaken hrest fun k hk => (hfirst k hk).le)

/-- Taking entries out keeps the canonical form. -/
theorem twf_filter [DecidableEq α] {d : α} (p : Nat × α → Bool) (h : twf d t = true) : twf d (t.filter p) = true := by
  simp only [twf, Bool.and_eq_true, List.all_eq_true] at h ⊢
  exact ⟨tsortedFrom_filter p h.1, fun a ha => h.2 a (List.mem_of_mem_filter ha)⟩

theorem twf_tdel [DecidableEq α] {d : α} (h : twf d t = true) : twf d (tdel t i) = true := by
  simp only [twf, Bool.and_eq_true] at h ⊢
  exact ⟨tsorted_tdel i h.1, all_tdel i h.2⟩

theorem twf_tclear [DecidableEq α] {d : α} {lo hi : Nat} (h : twf d t = true) : twf d (tclear t lo hi) = true :=
  twf_filter _ h

end

/-! ### Counters -/

/-- A count that is put in its bank wrapped keeps the banks' form. -/
theorem countersFit_tput {c : CounterState} {k n : Nat} (h : CountersFit c) (hn : n < 2 ^ 48) :
    CountersFit { c with counts := tput 0 c.counts k n } := by
  obtain ⟨hcounts, hchained, hfit⟩ := h
  refine ⟨twf_tput k n hcounts, hchained, fun e he => ?_⟩
  rcases mem_tput he with rfl | he
  · exact hn
  · exact hfit e he

theorem wrap_lt (w x : Nat) : wrap w x < 2 ^ w := Nat.mod_lt _ (Nat.two_pow_pos w)

theorem countersFit_bumpRaw {c : CounterState} {part num n : Nat} (h : CountersFit c) :
    CountersFit (bumpRaw c part num n) := by
  unfold bumpRaw
  extract_lets pair k v c1
  split
  · split
    · exact h
    · exact countersFit_tput (countersFit_tput h (wrap_lt ..)) (wrap_lt ..)
  · exact countersFit_tput h (wrap_lt ..)

theorem inv_bump {s : State} {part num n : Nat} (h : Inv s) : Inv (bump s part num n) := by
  unfold bump
  split
  · exact ⟨h.otp, countersFit_bumpRaw h.counters, h.parts, h.frames, h.images⟩
  · exact h

end Sys2Proof.Machine
end

