-- ==== Sys2Proof/Proofs/InvariantRegisters.lean ====
section
/-! SUPPORT. The invariant under register access, host rings, tables and the images of the epochs' totals. -/

namespace Sys2Proof.Machine

section
variable {s : State}

/-! ### Registers -/

theorem inv_setCell {off : Nat} {c : RegCell} (h : Inv s) : Inv (setCell s off c) := inv_of_vitals h rfl

theorem inv_landWrite {r : RegName} {ix : List Nat} {v : Nat} (h : Inv s) : Inv (landWrite s r ix v) := inv_of_vitals h rfl

theorem inv_applyReg {r : RegName} {ix : List Nat} {b : Applies} (h : Inv s) : Inv (applyReg s r ix b) := by
  unfold applyReg
  split
  · exact h
  · exact inv_setCell h

theorem inv_applyAll {b : Applies} (h : Inv s) : Inv (applyAll s b) := inv_of_vitals h rfl

theorem inv_latchColumns {version : Nat} (h : Inv s) : Inv (latchColumns s version) := inv_of_vitals h rfl

theorem inv_forceReg {r : RegName} {ix : List Nat} {v : Nat} (h : Inv s) : Inv (forceReg s r ix v) := inv_of_vitals h rfl

theorem inv_forceFld {r : RegName} {ix : List Nat} {hi lo v : Nat} (h : Inv s) : Inv (forceFld s r ix hi lo v) :=
  inv_of_vitals h rfl

theorem inv_raiseEv {r : RegName} {ix fs : List Nat} (h : Inv s) : Inv (raiseEv s r ix fs) := inv_of_vitals h rfl

theorem inv_cntDev {num : Nat} (h : Inv s) : Inv (cntDev s num) := inv_bump h

theorem inv_cntSl {sl num : Nat} (h : Inv s) : Inv (cntSl s sl num) := inv_bump h

theorem inv_cntPort {port k : Nat} (h : Inv s) : Inv (cntPort s port k) := inv_bump h

theorem inv_pushLog {type : Nat} {sec : Bool} {body : List Byte} (h : Inv s) : Inv (pushLog s type sec body) :=
  inv_of_vitals h rfl

theorem inv_signature {life : Nat} (h : Inv s) : Inv (signature s life).2 := inv_ite_snd h (inv_of_vitals h rfl)

theorem inv_checkpoint (h : Inv s) : Inv (checkpoint s) := by
  unfold checkpoint
  split
  next t e =>
    have ht : Inv t := inv_of_pair e (inv_signature h)
    exact inv_pushLog ht

theorem inv_rimLog {type : Nat} {sec : Bool} {body : List Byte} (h : Inv s) : Inv (rimLog s type sec body) := by
  unfold rimLog
  extract_lets s1 s2
  have hs1 : Inv s1 := inv_pushLog h
  have hs2 : Inv s2 := inv_ite (inv_checkpoint hs1) hs1
  exact inv_ite (inv_checkpoint hs2) hs2

theorem inv_logUe {block addr cause : Nat} (h : Inv s) : Inv (logUe s block addr cause) := inv_rimLog h

theorem inv_emit {o : Output} (h : Inv s) : Inv (emit s o) := inv_of_vitals h rfl

theorem inv_drawFree (h : Inv s) : Inv (drawFree s).2 := inv_of_vitals h rfl

theorem inv_accessError {req : Requester} {kind off width : Nat} {write : Bool} (h : Inv s) :
    Inv (accessError s req kind off width write) := by
  obtain ⟨r, l, n, hfoot⟩ := accessError_eq s req kind off width write
  rw [hfoot]
  exact inv_of_vitals h rfl

theorem inv_flushAccess (h : Inv s) : Inv (flushAccess s) := by
  unfold flushAccess
  extract_lets _ s1
  have hs1 : Inv s1 := inv_foldl h (fun _ _ hu => inv_rimLog hu)
  exact inv_of_vitals hs1 rfl

theorem inv_setSlice {sl : Nat} {x : SliceState} (h : Inv s) : Inv (setSlice s sl x) := inv_of_vitals h rfl

theorem inv_modSlice {sl : Nat} {f : SliceState → SliceState} (h : Inv s) : Inv (modSlice s sl f) := inv_of_vitals h rfl

/-! ### Host rings -/

theorem inv_setRing {hp cls r : Nat} {x : Ring} (h : Inv s) : Inv (setRing s hp cls r x) := inv_of_vitals h rfl

theorem inv_writeRing {hp cls r : Nat} {bytes : List Byte} (h : Inv s) : Inv (writeRing s hp cls r bytes) := by
  unfold writeRing
  extract_lets _ _ _ _ s1 s2 s3
  have hs1 : Inv s1 := inv_of_vitals h rfl
  have hs2 : Inv s2 := inv_emit hs1
  have hs3 : Inv s3 := inv_ite (inv_emit hs2) hs2
  exact inv_setRing hs3

theorem inv_pumpUp (h : Inv s) : Inv (pumpUp s) := inv_ite (inv_of_vitals h rfl) h

theorem inv_eventToRing {hp r src dev : Nat} {body : List Byte} (h : Inv s) :
    Inv (eventToRing s hp r src dev body) := by
  unfold eventToRing
  extract_lets _ _ s1
  have hs1 : Inv s1 := inv_writeRing h
  exact inv_ite (inv_setRing hs1) (inv_setRing h)

theorem inv_postEvent {src : Nat} {body : List Byte} (h : Inv s) : Inv (postEvent s src body) := by
  unfold postEvent
  extract_lets
  exact inv_ite (inv_ite (inv_eventToRing h) (inv_emit h)) h

theorem inv_placeReply {r : Reply} (h : Inv s) : Inv (placeReply s r) := inv_of_vitals h rfl

theorem inv_ackWrite {req : Requester} {off v : Nat} (h : Inv s) : Inv (ackWrite s req off v) := by
  unfold ackWrite
  extract_lets
  exact inv_ite (inv_of_vitals h rfl) (inv_accessError h)

theorem inv_guarded {req : Requester} {off : Nat} {names : List RegName} {effect : State → RegName → List Nat → State}
    (h : Inv s) (heffect : ∀ u1 a2 a3, Inv u1 → Inv (effect u1 a2 a3)) :
    Inv (guarded s req off names effect) := by
  unfold guarded
  split
  · exact inv_accessError h
  · exact inv_ite (heffect _ _ _ h) h

/-! ### Operands and guarded writes -/

theorem inv_actionEvent {kind a0 a1 : Nat} (h : Inv s) : Inv (actionEvent s kind a0 a1) := inv_postEvent h

/-! ### The Lid's totals -/

theorem inv_zoneMove {zone bank : Nat} {add sub : Counts} (h : Inv s) : Inv (zoneMove s zone bank add sub) := by
  obtain ⟨hzones, hports, hclasses⟩ := h.images
  exact inv_of_images h ⟨twf_tmod _ (fun c => c.move add sub) hzones, hports, hclasses⟩

theorem inv_portMove {port cls bank : Nat} {flowless : Bool} {add sub : Counts} (h : Inv s) :
    Inv (portMove s port cls bank flowless add sub) := by
  obtain ⟨hzones, hports, hclasses⟩ := h.images
  exact inv_of_images h ⟨hzones, twf_tput _ _ hports, twf_tmod _ (fun t => t.move add sub) hclasses⟩

theorem inv_outstandingAdd {sl bank : Nat} (h : Inv s) : Inv (outstandingAdd s sl bank) := inv_of_vitals h rfl

theorem inv_outstandingSub {sl bank : Nat} (h : Inv s) : Inv (outstandingSub s sl bank) := inv_of_vitals h rfl

theorem inv_lidEvent {kind arg seq : Nat} (h : Inv s) : Inv (lidEvent s kind arg seq) := inv_postEvent h

theorem inv_gapLog {seq kind arg n : Nat} (h : Inv s) : Inv (gapLog s seq kind arg n) := inv_rimLog h

theorem inv_gapNotice {seq kind arg n : Nat} (h : Inv s) : Inv (gapNotice s seq kind arg n) :=
  inv_lidEvent (inv_gapLog (inv_raiseEv h))

theorem inv_gapOpen {kind arg n : Nat} (h : Inv s) : Inv (gapOpen s kind arg n) := by
  unfold gapOpen
  split
  · exact h
  · extract_lets
    exact inv_gapNotice (inv_of_vitals h rfl)

theorem inv_gapClosing {kind arg n : Nat} (h : Inv s) : Inv (gapClosing s kind arg n) := by
  unfold gapClosing
  split
  · exact h
  · split
    · exact inv_gapOpen h
    · extract_lets
      exact inv_gapNotice (inv_of_vitals h rfl)

end

end Sys2Proof.Machine
end

