-- ==== Sys2Proof/Proofs/InvariantScheduling.lean ====
section
/-! SUPPORT. The invariant under tasks and events, rule versions and the frames in flight. -/

namespace Sys2Proof.Machine

section
variable {s : State}

/-! ### Tasks and events -/

theorem vitals_readyOne (x : SchedState) (tick : Nat) : (readyOne x tick).vitals = x.vitals := by
  unfold readyOne
  split
  · rfl
  · split
    · simp [SchedState.vitals]
    · rfl

theorem vitals_readyAll (n : Nat) (x : SchedState) (tick : Nat) : (readyAll n x tick).vitals = x.vitals := by
  induction n generalizing x with
  | zero => rfl
  | succ n ih => exact (ih _).trans (vitals_readyOne ..)

theorem vitals_takeStalled (n : Nat) (x : SchedState) : (takeStalled n x).vitals = x.vitals := by
  induction n generalizing x with
  | zero => rfl
  | succ n ih =>
    unfold takeStalled
    split
    · rfl
    · exact ih _

theorem inv_settleReady (h : Inv s) : Inv (settleReady s) :=
  inv_withSched h fun _ => (vitals_readyAll ..).trans (vitals_takeStalled ..)

theorem inv_raiseTask {code prio : Nat} {params : List Byte} (h : Inv s) : Inv (raiseTask s code prio params) :=
  inv_settleReady (inv_withSched h (fun _ => rfl))

theorem inv_offerTrace {r : List Byte} (h : Inv s) : Inv (offerTrace s r) := by
  unfold offerTrace
  split
  · extract_lets s1
    have hs1 : Inv s1 := inv_cntDev h
    exact inv_of_vitals hs1 rfl
  · exact inv_of_vitals h rfl

theorem inv_engineTrace {kind engine uaddr mcyc arg : Nat} {i : Item} (h : Inv s) :
    Inv (engineTrace s kind engine uaddr mcyc arg i) := inv_ite (inv_offerTrace h) h

theorem inv_modEngine {e : Nat} {f : Engine → Engine} (h : Inv s) : Inv (modEngine s e f) :=
  inv_withSched h (by simp [SchedState.vitals])

theorem inv_engineEnd {e status : Nat} (h : Inv s) : Inv (engineEnd s e status) := by
  unfold engineEnd
  split
  · exact h
  · exact inv_modEngine (inv_engineTrace h)

theorem inv_takeItem {t : State} {p : Item → Bool} (h : Inv s) (e : takeItem s p = some t) : Inv t := by
  unfold takeItem at e
  split at e
  · cases e
    exact inv_engineEnd h
  · split at e
    · cases e
    · cases e
      exact h

theorem inv_runTask {code : Nat} {work : State → State} (h : Inv s) (hwork : ∀ u1, Inv u1 → Inv (work u1)) :
    Inv (runTask s code work) := by
  unfold runTask
  split
  · next e =>
      exact h
  · next t e =>
      have ht : Inv t := inv_takeItem h e
      exact hwork _ ht

theorem inv_acted {f : Nat} (h : Inv s) : Inv (acted s f) := inv_of_vitals h rfl

/-! ### Rule versions -/

theorem inv_allSlices {f : SliceState → SliceState} (h : Inv s) : Inv (allSlices s f) :=
  inv_foldl h (fun _ _ hu => inv_modSlice hu)

theorem inv_headEnter {sl version : Nat} (h : Inv s) : Inv (headEnter s sl version) := inv_of_vitals h rfl

theorem inv_retireFrom {n sl : Nat} (h : Inv s) : Inv (retireFrom n s sl) := by
  induction n generalizing s with
  | zero => exact h
  | succ n ih =>
    unfold retireFrom
    extract_lets v s1 s2 s3
    split
    · have hs1 : Inv s1 := inv_modSlice h
      have hs2 : Inv s2 := inv_postEvent hs1
      have hs3 : Inv s3 := inv_ite (inv_of_vitals hs2 rfl) hs2
      exact ih (inv_raiseTask hs3)
    · exact h

theorem inv_retire {sl : Nat} (h : Inv s) : Inv (retire s sl) := inv_retireFrom h

theorem inv_headLeave {sl version : Nat} (h : Inv s) : Inv (headLeave s sl version) := inv_retire (inv_modSlice h)

theorem inv_snapAdd {sl version : Nat} (h : Inv s) : Inv (snapAdd s sl version) := inv_of_vitals h rfl

theorem inv_snapSub {sl version : Nat} (h : Inv s) : Inv (snapSub s sl version) := inv_of_vitals h rfl

theorem inv_draftEdit {source slices what : Nat} {data : List Byte} (h : Inv s) :
    Inv (draftEdit s source slices what data) := inv_of_vitals h rfl

theorem inv_abandonDraft (h : Inv s) : Inv (abandonDraft s) := by
  unfold abandonDraft
  extract_lets _ s1
  have hs1 : Inv s1 := inv_allSlices h
  exact inv_of_vitals hs1 rfl

theorem inv_foldOverride {o : Override} (h : Inv s) : Inv (foldOverride s o) := by
  unfold foldOverride
  split
  · extract_lets
    exact inv_of_vitals h rfl
  · exact h

theorem inv_foldVlan {sl : Nat} {o : Override} (h : Inv s) : Inv (foldVlan s sl o) := inv_ite (inv_modSlice h) h

theorem inv_withyFold (h : Inv s) : Inv (withyFold s) := by
  unfold withyFold
  extract_lets s1
  have hs1 : Inv s1 := inv_foldl h (fun _ _ hu => inv_foldOverride hu)
  exact inv_foldl hs1 (fun _ _ hu => inv_foldl hu (fun _ _ hu1 => inv_foldVlan hu1))

/-! ### Frames in flight -/

/-- A frame keeps its number, which lies below the next one to be given. -/
theorem inv_modFrame {id : Nat} {g : Frame → Frame} (h : Inv s) : Inv (modFrame s id g) := by
  unfold modFrame
  split
  · exact h
  · next f hf =>
    obtain ⟨hsorted, hbelow⟩ := h.frames
    refine ⟨h.otp, h.counters, h.parts, ⟨tsorted_tins _ _ hsorted, fun e he => ?_⟩, h.images⟩
    rcases mem_tins he with rfl | he
    · exact hbelow (id, f) (mem_of_tfind hf)
    · exact hbelow e he

theorem inv_dropFrame {id : Nat} (h : Inv s) : Inv (dropFrame s id) := by
  obtain ⟨hsorted, hbelow⟩ := h.frames
  exact ⟨h.otp, h.counters, h.parts, ⟨tsorted_tdel _ hsorted, fun e he => hbelow e (mem_tdel he)⟩, h.images⟩

/-- A new frame takes the next number. -/
theorem inv_addFrame {f : Frame} (h : Inv s) : Inv (addFrame s f) := by
  obtain ⟨hsorted, hbelow⟩ := h.frames
  refine ⟨h.otp, h.counters, h.parts, ⟨tsorted_tins _ _ hsorted, fun e he => ?_⟩, h.images⟩
  rcases mem_tins he with rfl | he
  · exact Nat.lt_succ_self _
  · exact (hbelow e he).trans (Nat.lt_succ_self _)

theorem inv_onFrame {id : Nat} {g : Frame → State} (h : Inv s) (hg : ∀ a1, Inv (g a1)) : Inv (onFrame s id g) := by
  unfold onFrame
  split
  · exact h
  · exact hg _

theorem inv_tagRecord {id outcome owner : Nat} (h : Inv s) : Inv (tagRecord s id outcome owner) := by
  unfold tagRecord
  refine inv_onFrame h (fun a => ?_)
  split
  · extract_lets s1 s2
    have hs1 : Inv s1 := inv_cntDev h
    have hs2 : Inv s2 := inv_ite (inv_offerTrace hs1) hs1
    exact inv_modFrame hs2
  · exact h

theorem inv_queueMacLearn {sl : Nat} {l : MacLearn} (h : Inv s) : Inv (queueMacLearn s sl l) :=
  inv_ite (inv_modSlice h) (inv_cntSl h)

theorem inv_learnAtIngress {f : Frame} (h : Inv s) : Inv (learnAtIngress s f) := by
  unfold learnAtIngress
  split
  · exact h
  · exact inv_ite (inv_queueMacLearn h) h

theorem inv_learnAtEgress {f : Frame} {port : Nat} (h : Inv s) : Inv (learnAtEgress s f port) := by
  unfold learnAtEgress
  split
  · exact h
  · exact inv_ite (inv_queueMacLearn h) h

theorem inv_verdictGood {id : Nat} (h : Inv s) : Inv (verdictGood s id) := by
  unfold verdictGood
  refine inv_onFrame h (fun a => ?_)
  extract_lets s1 s2
  have hs1 : Inv s1 := inv_learnAtIngress h
  have hs2 : Inv s2 := inv_outstandingSub hs1
  exact inv_ite (inv_modFrame hs2) hs1

theorem inv_verdictBad {id : Nat} (h : Inv s) : Inv (verdictBad s id) := by
  unfold verdictBad
  refine inv_onFrame h (fun a => ?_)
  extract_lets s1
  have hs1 : Inv s1 := inv_modFrame h
  exact inv_ite (inv_ite (inv_of_vitals hs1 rfl) (inv_outstandingSub hs1)) (inv_ite (inv_outstandingSub hs1) hs1)

theorem inv_releaseFrame {id : Nat} (h : Inv s) : Inv (releaseFrame s id) := by
  unfold releaseFrame
  refine inv_onFrame h (fun a => ?_)
  extract_lets s1 _ s2 s3 s4
  have hs1 : Inv s1 := inv_modSlice h
  have hs2 : Inv s2 := inv_of_vitals hs1 rfl
  have hs3 : Inv s3 := inv_dropFrame hs2
  have hs4 : Inv s4 := inv_ite (inv_snapSub hs3) hs3
  exact inv_ite (inv_headLeave hs4) hs4

theorem inv_discardHead {id outcome : Nat} (h : Inv s) : Inv (discardHead s id outcome) :=
  inv_releaseFrame (inv_verdictBad (inv_tagRecord h))

end

end Sys2Proof.Machine
end

