-- ==== Sys2Proof/Proofs/InvariantStores.lean ====
section
/-! SUPPORT. The invariant under the stamps of frames, the cell store, HBM, channels and Creel. -/

namespace Sys2Proof.Machine

section
variable {s : State}

/-! ### Stamps -/

theorem inv_writeStampSet {r : RegName} {ix : List Nat} {v : Nat} (h : Inv s) : Inv (writeStampSet s r ix v) :=
  inv_of_vitals h rfl

theorem inv_timeEventPost {kind src id : Nat} {rec_ : List Byte} (h : Inv s) :
    Inv (timeEventPost s kind src id rec_) := inv_postEvent h

theorem inv_modPort {p : Nat} {f : PortState → PortState} (h : Inv s) : Inv (modPort s p f) := inv_of_vitals h rfl

theorem inv_modLane {l : Nat} {f : LaneState → LaneState} (h : Inv s) : Inv (modLane s l f) := inv_of_vitals h rfl

/-! ### The cell store -/

theorem inv_setStore {sl : Nat} {c : CellStore} (h : Inv s) : Inv (setStore s sl c) := inv_of_vitals h rfl

theorem inv_modStore {sl : Nat} {f : CellStore → CellStore} (h : Inv s) : Inv (modStore s sl f) := inv_of_vitals h rfl

theorem inv_crlLast {sl kind cell : Nat} (h : Inv s) : Inv (crlLast s sl kind cell) := inv_of_vitals h rfl

theorem inv_allocate {sl : Nat} {flips : List (Nat × Nat)} (h : Inv s) : Inv (allocate s sl flips).2 := by
  unfold allocate
  extract_lets _ s1
  have hs1 : Inv s1 := inv_setStore h
  split
  · exact h
  · split
    · exact h
    · extract_lets _ s2
      have hs2 : Inv s2 := inv_logUe (inv_crlLast (inv_raiseEv hs1))
      exact inv_ite_snd (inv_setStore h) (inv_ite_snd (inv_setStore h) hs2)

theorem inv_allocateMany {sl n : Nat} {flips : List (Nat × Nat)} (h : Inv s) : Inv (allocateMany sl flips n s).2 := by
  induction n generalizing s with
  | zero => exact h
  | succ n ih =>
    unfold allocateMany
    split
    · next t e => exact inv_of_pair e (inv_allocate h)
    · next t e => exact ih (inv_of_pair e (inv_allocate h))

theorem inv_freeCell {sl cell : Nat} (h : Inv s) : Inv (freeCell s sl cell) := by
  unfold freeCell
  extract_lets
  exact inv_ite (inv_logUe (inv_crlLast (inv_raiseEv (inv_cntSl h)))) (inv_setStore h)

theorem inv_charge {sl q n : Nat} (h : Inv s) : Inv (charge s sl q n) := inv_of_vitals h rfl

theorem inv_uncharge {sl q n : Nat} (h : Inv s) : Inv (uncharge s sl q n) := inv_of_vitals h rfl

theorem inv_admitFirst {sl q : Nat} {flips : List (Nat × Nat)} (h : Inv s) : Inv (admitFirst s sl q flips).2 := by
  unfold admitFirst
  extract_lets
  exact inv_ite_snd h (inv_ite_snd (inv_allocate h) (inv_ite_snd (inv_allocate h) h))

theorem inv_freeCells {sl q : Nat} {cells : List Nat} (h : Inv s) : Inv (freeCells s sl q cells) :=
  inv_uncharge (inv_foldl h (fun _ _ hu => inv_freeCell hu))

theorem inv_growFrame {flips : List (Nat × Nat)} {id : Nat} (h : Inv s) : Inv (growFrame flips s id) := by
  unfold growFrame
  refine inv_onFrame h (fun a => ?_)
  split
  · extract_lets s1
    have hs1 : Inv s1.2 := inv_allocateMany h
    exact inv_modFrame (inv_charge hs1)
  · exact h

theorem inv_growFrames {flips : List (Nat × Nat)} {p : Nat → Bool} (h : Inv s) : Inv (growFrames s flips p) :=
  inv_foldl h (fun _ _ hu => inv_growFrame hu)

theorem inv_freeFrame {id : Nat} (h : Inv s) : Inv (freeFrame s id) := inv_onFrame h (fun _ => inv_modFrame (inv_freeCells h))

theorem inv_refsGone {id : Nat} (h : Inv s) : Inv (refsGone s id) := by
  unfold refsGone
  refine inv_onFrame h (fun a => ?_)
  extract_lets s1
  have hs1 : Inv s1 := inv_freeFrame h
  exact inv_ite (inv_releaseFrame (inv_ite (inv_verdictGood hs1) (inv_verdictBad hs1))) (inv_ite (inv_releaseFrame hs1) hs1)

theorem inv_dropRef {id : Nat} (h : Inv s) : Inv (dropRef s id) := by
  unfold dropRef
  extract_lets s1
  have hs1 : Inv s1 := inv_modFrame h
  exact inv_onFrame hs1 (fun _ => inv_ite (inv_refsGone hs1) hs1)

theorem inv_frameLeft {id : Nat} (h : Inv s) : Inv (frameLeft s id) := by
  unfold frameLeft
  refine inv_onFrame h (fun a => ?_)
  split
  · exact inv_releaseFrame h
  · extract_lets s1
    have hs1 : Inv s1 := inv_ite (inv_snapSub h) h
    exact inv_modFrame hs1

theorem inv_stampLost {id : Nat} (h : Inv s) : Inv (stampLost s id) := inv_onFrame h (fun _ => inv_ite (inv_timeEventPost h) h)

theorem inv_discardStored {id : Nat} (h : Inv s) : Inv (discardStored s id) :=
  inv_onFrame h (fun _ => inv_ite (inv_dropRef h) (inv_frameLeft (inv_dropRef (inv_verdictBad (inv_stampLost h)))))

theorem inv_discardCrossed {id : Nat} (h : Inv s) : Inv (discardCrossed s id) :=
  inv_onFrame h (fun _ => inv_ite (inv_dropRef h) (inv_frameLeft (inv_verdictBad (inv_stampLost h))))

theorem inv_overflowNotice {sl q handle : Nat} (h : Inv s) : Inv (overflowNotice s sl q handle) := by
  unfold overflowNotice
  split
  · extract_lets _ s1
    have hs1 : Inv s1 := inv_modStore h
    split
    · exact inv_ite (inv_postEvent hs1) h
    · exact inv_postEvent hs1
  · exact h

theorem inv_ownDrop {sl q handle : Nat} (h : Inv s) : Inv (ownDrop s sl q handle) := by
  unfold ownDrop
  extract_lets s1
  have hs1 : Inv s1 := inv_modStore h
  exact inv_overflowNotice hs1

theorem inv_voqPush {sl q id : Nat} (h : Inv s) : Inv (voqPush s sl q id) := inv_of_vitals h rfl

theorem inv_voqRemove {sl q id : Nat} (h : Inv s) : Inv (voqRemove s sl q id) := inv_of_vitals h rfl

theorem inv_modChan {ch : Nat} {f : DmaChannel → DmaChannel} (h : Inv s) : Inv (modChan s ch f) := inv_of_vitals h rfl

theorem inv_dmaEventPost {kind ch status count desc : Nat} (h : Inv s) :
    Inv (dmaEventPost s kind ch status count desc) := inv_postEvent h

theorem inv_puntDropped {sl reason : Nat} (h : Inv s) : Inv (puntDropped s sl reason) := by
  unfold puntDropped
  extract_lets s1 _ s2
  have hs1 : Inv s1 := inv_raiseEv (inv_cntSl h)
  have hs2 : Inv s2 := inv_forceReg hs1
  exact inv_ite (inv_dmaEventPost (inv_modChan hs2)) (inv_modChan hs2)

/-! ### HBM -/

theorem inv_modPc {n : Nat} {f : PcState → PcState} (h : Inv s) : Inv (modPc s n f) := inv_of_vitals h rfl

theorem inv_modStk {k : Nat} {f : StackState → StackState} (h : Inv s) : Inv (modStk s k f) := inv_of_vitals h rfl

theorem inv_hbmEventPost {kind pc arg value : Nat} (h : Inv s) : Inv (hbmEventPost s kind pc arg value) :=
  inv_postEvent (inv_forceReg h)

/-- Zones of an image that start again at zero. -/
theorem inv_clearZones {lo hi : Nat} (h : Inv s) :
    Inv { s with lid := { s.lid with zones := tclear s.lid.zones lo hi } } := by
  obtain ⟨hzones, hports, hclasses⟩ := h.images
  exact inv_of_images h ⟨twf_tclear hzones, hports, hclasses⟩

theorem inv_loseZonePage {p : Nat} (h : Inv s) : Inv (loseZonePage s p) := by
  unfold loseZonePage
  extract_lets c z wipe
  have hwipe : Inv (wipe s) := inv_clearZones h
  split
  · exact inv_gapOpen hwipe
  · split
    · exact inv_ite (inv_gapClosing hwipe) (inv_of_vitals h rfl)
    · exact inv_of_vitals h rfl

theorem inv_loseTargets {lo n : Nat} (h : Inv s) : Inv (loseTargets s lo n) := inv_of_vitals h rfl

theorem inv_losePage {p : Nat} (h : Inv s) : Inv (losePage s p) :=
  inv_ite (inv_of_vitals h rfl) (inv_ite (inv_loseTargets h) (inv_ite (inv_loseZonePage h) (inv_of_vitals h rfl)))

theorem inv_movePage {p : Nat} (h : Inv s) : Inv (movePage s p) := by
  unfold movePage
  split
  · exact h
  · exact inv_of_vitals h rfl

theorem inv_natLostNotice {pc : Nat} (h : Inv s) : Inv (natLostNotice s pc) := inv_actionEvent (inv_raiseEv h)

theorem inv_retirePc {pc cause : Nat} (h : Inv s) : Inv (retirePc s pc cause) := by
  unfold retirePc
  split
  · exact h
  · extract_lets _ s1 _ _ s2 s3 s4 s5 s6
    have hs1 : Inv s1 := inv_modPc h
    have hs2 : Inv s2 := inv_of_vitals hs1 rfl
    have hs3 : Inv s3 := inv_foldl hs2 (fun _ _ hu => inv_movePage hu)
    have hs4 : Inv s4 := inv_foldl hs3 (fun _ _ hu => inv_losePage hu)
    have hs5 : Inv s5 := inv_ite (inv_natLostNotice hs4) hs4
    have hs6 : Inv s6 := inv_hbmEventPost (inv_raiseEv hs5)
    exact inv_raiseTask hs6

theorem inv_hbmCe {pc : Nat} (h : Inv s) : Inv (hbmCe s pc) := inv_cntDev h

theorem inv_hbmUe {pc line port : Nat} (h : Inv s) : Inv (hbmUe s pc line port) := by
  unfold hbmUe
  extract_lets _ s1 s2 s3
  have hs1 : Inv s1 := inv_modPc h
  have hs2 : Inv s2 := inv_hbmEventPost (inv_raiseEv hs1)
  have hs3 : Inv s3 := inv_logUe hs2
  exact inv_ite (inv_retirePc hs3) hs3

theorem inv_zoneRead {ue : Bool} {zone bank : Nat} (h : Inv s) : Inv (zoneRead ue s zone bank) := by
  unfold zoneRead
  extract_lets k line s1 lid s2 z
  have hs1 : Inv s1 := inv_hbmUe h
  have hs2 : Inv s2 := inv_clearZones hs1
  exact inv_ite h (inv_ite (inv_gapOpen hs2) (inv_gapClosing hs2))

/-! ### Channels -/

theorem inv_chanNext {ch next : Nat} (h : Inv s) : Inv (chanNext s ch next) := inv_of_vitals h rfl

theorem inv_chanRecord {ch : Nat} {h : HeldRecord} (hs : Inv s) : Inv (chanRecord s ch h) := by
  unfold chanRecord
  extract_lets _ _ s1 s2 s3 s4 s5
  have hs1 : Inv s1 := inv_emit hs
  have hs2 : Inv s2 := inv_emit hs1
  have hs3 : Inv s3 := inv_ite (inv_modChan hs2) hs
  have hs4 : Inv s4 := inv_ite (inv_emit hs3) hs3
  have hs5 : Inv s5 := inv_modChan hs4
  exact inv_ite hs5 (inv_chanNext hs5)

theorem inv_chanAnswer {ch : Nat} {h : HeldRecord} (hs : Inv s) : Inv (chanAnswer s ch h) := by
  unfold chanAnswer
  extract_lets
  exact inv_ite (inv_modChan hs) (inv_chanRecord hs)

theorem inv_chanRelease {ch : Nat} (h : Inv s) : Inv (chanRelease s ch) := by
  unfold chanRelease
  split
  · exact h
  · exact inv_chanAnswer h

theorem inv_writeBack {ch : Nat} {d : Descriptor} {done status : Nat} (h : Inv s) :
    Inv (writeBack s ch d done status) := inv_of_vitals h rfl

theorem inv_descDone {ch : Nat} {d : Descriptor} {done status : Nat} (h : Inv s) :
    Inv (descDone s ch d done status) := by
  unfold descDone
  extract_lets s1
  have hs1 : Inv s1 := inv_writeBack h
  exact inv_chanAnswer (inv_modChan hs1)

theorem inv_chanHalt {ch status : Nat} {int : Bool} {wb : Option (Descriptor × Nat)} (h : Inv s) :
    Inv (chanHalt s ch status int wb) := by
  unfold chanHalt
  extract_lets s1 s2 s3 _ s4
  have hs1 : Inv s1 := by
    unfold s1
    split
    · exact inv_writeBack h
    · exact h
  have hs2 : Inv s2 := inv_modChan hs1
  have hs3 : Inv s3 := inv_forceReg (inv_raiseEv hs2)
  have hs4 : Inv s4 := inv_dmaEventPost hs3
  exact inv_ite (inv_chanAnswer hs4) (inv_ite (inv_emit hs4) hs4)

theorem inv_injectDone {id status : Nat} (h : Inv s) : Inv (injectDone s id status) := by
  unfold injectDone
  split
  · exact h
  · split
    · exact h
    · exact inv_descDone h

theorem inv_stopChannel {ch : Nat} (h : Inv s) : Inv (stopChannel s ch) := by
  unfold stopChannel
  extract_lets _ s1
  have hs1 : Inv s1 := by
    unfold s1
    split
    · exact inv_releaseFrame (inv_stampLost h)
    · exact h
  exact inv_of_vitals hs1 rfl

theorem inv_dropUntaken {sl : Nat} (h : Inv s) : Inv (dropUntaken s sl) := by
  unfold dropUntaken
  refine inv_foldl h (fun u1 a1 hu => ?_)
  refine inv_onFrame hu (fun a => ?_)
  extract_lets _ s1
  have hs1 : Inv s1 := inv_modStore hu
  exact inv_ite hu (inv_discardStored (inv_puntDropped hs1))

theorem inv_stackOff {k : Nat} (h : Inv s) : Inv (stackOff s k) := by
  unfold stackOff
  extract_lets _ s1
  have hs1 : Inv s1 := inv_of_vitals h rfl
  exact inv_foldl hs1 (fun _ _ hu => inv_modPc hu)

theorem inv_stacksLeave (h : Inv s) : Inv (stacksLeave s) := inv_foldl h (fun _ _ hu => inv_stackOff hu)

theorem inv_disableChannel {ch : Nat} (h : Inv s) : Inv (disableChannel s ch) := by
  unfold disableChannel
  extract_lets s1
  have hs1 : Inv s1 := inv_stopChannel (inv_forceFld h)
  exact inv_stacksLeave (inv_foldl hs1 (fun _ _ hu => inv_dropUntaken hu))

/-! ### Creel -/

theorem inv_noCell {id q : Nat} (h : Inv s) : Inv (noCell s id q) := by
  unfold noCell
  refine inv_onFrame h (fun a => ?_)
  extract_lets s1 s2 s3
  have hs1 : Inv s1 := inv_ownDrop h
  have hs2 : Inv s2 := inv_verdictBad (inv_tagRecord (inv_stampLost hs1))
  have hs3 : Inv s3 := by
    unfold s3
    split
    · exact inv_puntDropped hs2
    · exact hs2
  exact inv_injectDone (inv_releaseFrame hs3)

theorem inv_queueDeep {id : Nat} (h : Inv s) : Inv (queueDeep s id) := by
  unfold queueDeep
  refine inv_onFrame h (fun a => ?_)
  split
  · split
    · extract_lets s1
      have hs1 : Inv s1 := inv_modSlice h
      exact inv_modFrame hs1
    · extract_lets s1 s2
      have hs1 : Inv s1 := inv_cntSl h
      have hs2 : Inv s2 := inv_modSlice hs1
      exact inv_headLeave (inv_modFrame hs2)
  · exact h

theorem inv_admitted {id q cell : Nat} {flips : List (Nat × Nat)} (h : Inv s) :
    Inv (admitted s id q cell flips) := by
  unfold admitted
  refine inv_onFrame h (fun a => ?_)
  extract_lets _ _ s1 _ s2 _ s3 s4 s5 s6
  have hs1 : Inv s1 := inv_charge h
  have hs2 : Inv s2 := inv_ite (inv_cntPort hs1) hs1
  have hs3 : Inv s3 := inv_modFrame hs2
  have hs4 : Inv s4 := inv_growFrame hs3
  have hs5 : Inv s5 := inv_modStore hs4
  have hs6 : Inv s6 := inv_injectDone (inv_queueDeep (inv_tagRecord hs5))
  split
  · refine inv_discardStored ?_
    split
    · exact inv_puntDropped hs6
    · exact hs6
  · exact inv_ite (inv_modStore hs6) (inv_ite (inv_modStore hs6) (inv_voqPush hs6))

theorem inv_refuseClosed {id : Nat} (h : Inv s) : Inv (refuseClosed s id) := by
  unfold refuseClosed
  refine inv_onFrame h (fun a => ?_)
  extract_lets s1
  have hs1 : Inv s1 := inv_cntPort h
  exact inv_injectDone (inv_releaseFrame (inv_verdictBad (inv_tagRecord (inv_stampLost hs1))))

theorem inv_puntRefused {id : Nat} (h : Inv s) : Inv (puntRefused s id) := by
  unfold puntRefused
  refine inv_onFrame h (fun a => ?_)
  extract_lets s1
  have hs1 : Inv s1 := inv_puntDropped h
  exact inv_releaseFrame (inv_verdictBad (inv_tagRecord hs1))

theorem inv_admitOne {id : Nat} {flips : List (Nat × Nat)} (h : Inv s) : Inv (admitOne s id flips).2 := by
  unfold admitOne
  split
  · exact h
  · extract_lets
    split
    · exact inv_puntRefused h
    · split
      · exact inv_puntRefused h
      · split
        · exact inv_refuseClosed h
        · split
          · exact inv_noCell (inv_cntSl h)
          · split
            · exact inv_noCell (inv_cntSl h)
            · split
              · next t e =>
                  have ht : Inv t := inv_of_pair e (inv_admitFirst h)
                  exact inv_admitted ht
              · next t e =>
                  have ht : Inv t := inv_of_pair e (inv_admitFirst h)
                  exact inv_noCell ht

theorem inv_arbitrate {sl n : Nat} {flips : List (Nat × Nat)} {rs : List Nat} (h : Inv s) :
    Inv (arbitrate sl flips rs n s) := by
  induction rs generalizing s n with
  | nil => exact h
  | cons r rs ih =>
    unfold arbitrate
    split
    · exact h
    · split
      · exact ih h
      · split
        next t e =>
          have ht : Inv t := inv_of_pair e (inv_admitOne h)
          exact inv_ite (ih (inv_modStore ht)) (ih ht)

theorem inv_cellAdmit {sl : Nat} {flips : List (Nat × Nat)} (h : Inv s) : Inv (cellAdmit sl flips s) := by
  unfold cellAdmit
  extract_lets s1
  have hs1 : Inv s1 := inv_growFrames h
  exact inv_arbitrate hs1

theorem inv_copyTo {sl id port : Nat} (h : Inv s) : Inv (copyTo s sl id port) :=
  inv_onFrame h (fun _ => inv_ite (inv_cntPort h) (inv_voqPush (inv_modFrame h)))

theorem inv_multicastReplicate {sl : Nat} (h : Inv s) : Inv (multicastReplicate sl s) := by
  unfold multicastReplicate
  split
  · exact h
  · extract_lets _ s1
    have hs1 : Inv s1 := inv_foldl h (fun _ _ hu => inv_copyTo hu)
    exact inv_ite (inv_dropRef (inv_modStore hs1)) (inv_modStore hs1)

theorem inv_listRebuildDone {sl : Nat} (h : Inv s) : Inv (listRebuildDone sl s) := inv_of_vitals h rfl

end

end Sys2Proof.Machine
end

