-- ==== Sys2Proof/Proofs/InvariantReceive.lean ====
section
/-! SUPPORT. The invariant under the egress queues and the arrival of frames. -/

namespace Sys2Proof.Machine

section
variable {s : State}

/-! ### Egress queues -/

theorem inv_modEq {q : Nat} {f : EgressQueue → EgressQueue} (h : Inv s) : Inv (modEq s q f) := inv_of_vitals h rfl

theorem inv_modEg {p : Nat} {f : EgressPort → EgressPort} (h : Inv s) : Inv (modEg s p f) := inv_of_vitals h rfl

theorem inv_segArrives {slice q : Nat} {g : Seg} (h : Inv s) : Inv (segArrives s slice q g) := by
  unfold segArrives
  split
  · exact h
  · extract_lets
    exact inv_ite (inv_modEg h) (inv_modEq h)

theorem inv_unitHeld {u : CrossUnit} (h : Inv s) : Inv (unitHeld s u) := inv_ite h (inv_modEq h)

theorem inv_creditBack {q frame : Nat} (h : Inv s) : Inv (creditBack s q frame) := inv_of_vitals h rfl

theorem inv_setShq {q : Nat} {b : Bucket} (h : Inv s) : Inv (setShq s q b) := inv_of_vitals h rfl

theorem inv_setShp {p : Nat} {b : Bucket} (h : Inv s) : Inv (setShp s p b) := inv_of_vitals h rfl

theorem inv_fillShapers {p : Nat} (h : Inv s) : Inv (fillShapers s p) := by
  unfold fillShapers
  extract_lets s1
  have hs1 : Inv s1 := inv_foldl h (fun _ _ hu => inv_setShq hu)
  exact inv_setShp hs1

theorem inv_purgeFrame {id : Nat} (h : Inv s) : Inv (purgeFrame s id) := by
  unfold purgeFrame
  refine inv_onFrame h (fun a => ?_)
  extract_lets s1
  have hs1 : Inv s1 := inv_modStore h
  exact inv_of_vitals hs1 rfl

theorem inv_descUe {id reach : Nat} (h : Inv s) : Inv (descUe s id reach) := by
  unfold descUe
  refine inv_onFrame h (fun a => ?_)
  extract_lets s1 _ s2 s3 s4 s5
  have hs1 : Inv s1 := inv_logUe (inv_crlLast (inv_raiseEv (inv_cntSl h)))
  have hs2 : Inv s2 := inv_purgeFrame hs1
  have hs3 : Inv s3 := inv_freeCells hs2
  have hs4 : Inv s4 := inv_uncharge hs3
  have hs5 : Inv s5 := inv_modStore hs4
  exact inv_releaseFrame (inv_verdictBad (inv_stampLost (inv_modFrame hs5)))

theorem inv_dropSegs {q id : Nat} (h : Inv s) : Inv (dropSegs s q id) := inv_of_vitals h rfl

theorem inv_cutSending {p : Nat} {pcs : Bool} (h : Inv s) : Inv (cutSending s p pcs) := by
  unfold cutSending
  split
  · exact h
  · extract_lets _ _ s1 s2
    have hs1 : Inv s1 := inv_modEg h
    have hs2 : Inv s2 := inv_dropSegs (inv_creditBack (inv_cntPort hs1))
    refine inv_onFrame hs2 (fun a => ?_)
    extract_lets s3
    have hs3 : Inv s3 := inv_ite (inv_emit hs2) hs2
    exact inv_ite (inv_discardStored (inv_voqRemove hs3)) (inv_discardCrossed hs3)

theorem inv_flushQueue {p c : Nat} (h : Inv s) : Inv (flushQueue s p c) := by
  unfold flushQueue
  extract_lets _ _ s1 _ s2 _ s3 s4
  have hs1 : Inv s1 := inv_modEq h
  have hs2 : Inv s2 := inv_of_vitals hs1 rfl
  have hs3 : Inv s3 := inv_foldl hs2 (fun _ _ hu => inv_modStore hu)
  have hs4 : Inv s4 := inv_foldl hs3 (fun _ _ hu => inv_discardStored (inv_cntPort hu))
  exact inv_foldl hs4 (fun _ _ hu => inv_ite hu (inv_discardCrossed (inv_cntPort hu)))

theorem inv_closeDiscard {p : Nat} {pcs : Bool} (h : Inv s) : Inv (closeDiscard s p pcs) := by
  unfold closeDiscard
  extract_lets s1 s2
  have hs1 : Inv s1 := inv_cutSending h
  have hs2 : Inv s2 := inv_foldl hs1 (fun _ _ hu => inv_flushQueue hu)
  exact inv_foldl hs2 (fun _ _ hu => inv_modEq hu)

theorem inv_dropOversize {port c n : Nat} (h : Inv s) : Inv (dropOversize port c n s) := by
  induction n generalizing s with
  | zero => exact h
  | succ n ih =>
    unfold dropOversize
    split
    · exact h
    · exact ih (inv_discardCrossed (inv_creditBack (inv_modEq (inv_cntPort h))))

theorem inv_judgeHeads {port c : Nat} (h : Inv s) : Inv (judgeHeads s port c) := inv_dropOversize h

/-! ### Arrival of frames -/

theorem inv_slotRetired {sl : Nat} (h : Inv s) : Inv (slotRetired s sl) := inv_cntSl h

theorem inv_slotDropped {sl : Nat} (h : Inv s) : Inv (slotDropped s sl) := inv_cntSl (inv_cntSl h)

theorem inv_slotRecirc {sl : Nat} (h : Inv s) : Inv (slotRecirc s sl) := inv_cntSl (inv_cntSl h)

theorem inv_receiveChecks {port : Nat} {bytes : List Byte} {errored : Bool} (h : Inv s) :
    Inv (receiveChecks port bytes errored s) := by
  unfold receiveChecks
  extract_lets _ s1
  have hs1 : Inv s1 := inv_ite (inv_modPort (inv_cntPort h)) h
  exact inv_ite (inv_cntPort h) (inv_ite (inv_cntPort h) (inv_ite (inv_addFrame (inv_cntPort hs1)) (inv_ite (inv_addFrame
    (inv_cntPort hs1)) (inv_addFrame hs1))))

theorem inv_frameReceive {port : Nat} {bytes : List Byte} {errored : Bool} (h : Inv s) :
    Inv (frameReceive port bytes errored s) := inv_ite (inv_receiveChecks h) h

theorem inv_voidStored {id : Nat} (h : Inv s) : Inv (voidStored s id) :=
  inv_releaseFrame (inv_verdictBad (inv_freeFrame (inv_purgeFrame h)))

theorem inv_tailBad {id : Nat} (h : Inv s) : Inv (tailBad s id) := by
  unfold tailBad
  extract_lets s1
  have hs1 : Inv s1 := inv_growFrame (inv_modFrame h)
  refine inv_onFrame hs1 (fun a => ?_)
  split
  · exact inv_ite (inv_verdictBad hs1) (inv_voidStored hs1)
  · exact inv_voidStored (inv_puntDropped hs1)
  · exact hs1

theorem inv_tailGood {id : Nat} (h : Inv s) : Inv (tailGood s id) := inv_growFrame (inv_modFrame h)

theorem inv_frameTail {id : Nat} (h : Inv s) : Inv (frameTail id s) := by
  unfold frameTail
  refine inv_onFrame h (fun a => ?_)
  split
  · exact h
  · extract_lets _ s1
    have hs1 : Inv s1 := inv_ite (inv_cntPort h) h
    exact inv_ite (inv_tailGood hs1) (inv_tailBad hs1)

theorem inv_loopedBack {port : Nat} {x : Sending} {bytes : List Byte} (h : Inv s) :
    Inv (loopedBack port x bytes s) := by
  unfold loopedBack
  split
  · extract_lets _ _ _ s1
    have hs1 : Inv s1 := inv_modFrame (inv_receiveChecks h)
    exact inv_frameTail hs1
  · exact h

theorem inv_cutShort {id : Nat} (h : Inv s) : Inv (cutShort s id) := by
  unfold cutShort
  refine inv_onFrame h (fun a => ?_)
  extract_lets
  exact inv_modFrame h

theorem inv_abortReceive {id : Nat} (h : Inv s) : Inv (abortReceive s id) := by
  unfold abortReceive
  refine inv_onFrame h (fun a => ?_)
  extract_lets s1
  have hs1 : Inv s1 := inv_cntPort h
  split
  · exact inv_dropFrame hs1
  · exact inv_tailBad (inv_cutShort hs1)

end

end Sys2Proof.Machine
end

