-- ==== Sys2Proof/Proofs/InvariantClassify.lean ====
section
/-! SUPPORT. The invariant under parsing, classification and flow exports. -/

namespace Sys2Proof.Machine

section
variable {s : State}

/-! ### Parsing -/

theorem inv_recordFailure {sl port : Nat} {h : HeadInfo} (hs : Inv s) : Inv (recordFailure s sl port h) := by
  unfold recordFailure
  extract_lets s1
  have hs1 : Inv s1 := inv_raiseEv (inv_cntSl hs)
  exact inv_modSlice hs1

theorem inv_tagHead {sl id : Nat} (h : Inv s) : Inv (tagHead s sl id) := by
  unfold tagHead
  split
  · extract_lets _ _ s1
    have hs1 : Inv s1 := inv_modSlice h
    exact inv_ite (inv_modFrame (inv_cntSl hs1)) hs1
  · exact h

theorem inv_puntLooped {id : Nat} (h : Inv s) : Inv (puntLooped s id) := by
  unfold puntLooped
  refine inv_onFrame h (fun a => ?_)
  extract_lets
  exact inv_modFrame (inv_cntPort h)

theorem inv_malformed {id : Nat} (h : Inv s) : Inv (malformed s id) := by
  unfold malformed
  refine inv_onFrame h (fun a => ?_)
  extract_lets _ s1
  have hs1 : Inv s1 := inv_modFrame h
  split
  · exact inv_headLeave (inv_slotRetired hs1)
  · exact inv_modFrame (inv_outstandingAdd h)
  · exact inv_discardHead (inv_slotDropped h)

theorem inv_deniedPass {id : Nat} (h : Inv s) : Inv (deniedPass s id) :=
  inv_onFrame h (fun _ => inv_discardHead (inv_slotRetired h))

theorem inv_holdEngine {sl cc : Nat} (h : Inv s) : Inv (holdEngine s sl cc) := inv_of_vitals h rfl

theorem inv_parseHead {id : Nat} {ue : Option Nat} (h : Inv s) : Inv (parseHead s id ue) := by
  unfold parseHead
  refine inv_onFrame h (fun a => ?_)
  split
  · exact inv_puntLooped h
  · extract_lets _ _ _ s1 s2 _ _ s3 _ s4 s5 s6 s7
    have hs1 : Inv s1 := inv_ite (inv_headEnter h) h
    have hs2 : Inv s2 := inv_modSlice hs1
    have hs3 : Inv s3 := inv_holdEngine hs2
    have hs4 : Inv s4 := inv_modFrame hs3
    have hs5 : Inv s5 := inv_ite (inv_tagHead hs4) hs4
    have hs6 : Inv s6 := inv_recordFailure hs5
    have hs7 : Inv s7 := inv_ite (inv_logUe hs6) hs6
    exact inv_ite hs5 (inv_ite (inv_malformed hs7) (inv_deniedPass hs7))

theorem inv_headParse {sl : Nat} {ue : Option Nat} (h : Inv s) : Inv (headParse sl ue s) := by
  unfold headParse
  split
  · exact h
  · split
    · exact h
    · exact inv_parseHead h

/-! ### Classification -/

theorem inv_tcamNote {sl j place : Nat} {fault : Bool} (h : Inv s) : Inv (tcamNote s sl j place fault) := inv_of_vitals h rfl

theorem inv_tcamFault {sl j i : Nat} (h : Inv s) : Inv (tcamFault s sl j i) := by
  unfold tcamFault
  extract_lets _ _ s1
  have hs1 : Inv s1 := inv_logUe (inv_tcamNote (inv_raiseEv h))
  exact inv_modSlice hs1

theorem inv_tcamFalseHit {sl j place : Nat} (h : Inv s) : Inv (tcamFalseHit s sl j place) :=
  inv_tcamNote (inv_cntSl (inv_raiseEv h))

theorem inv_resolveTcam {sl j key n : Nat} {hits : List (Nat × Bool)} {ps : List Nat} (h : Inv s) :
    Inv (resolveTcam sl j key hits n ps s).2 := by
  induction n generalizing ps s with
  | zero =>
    unfold resolveTcam
    split
    · exact h
    · extract_lets x bad tie s1
      split
      · exact inv_ite (inv_cntSl h) h
      · exact inv_cntSl (inv_raiseEv (inv_ite (inv_tcamFault h) (inv_tcamFalseHit h)))
  | succ n ih =>
    unfold resolveTcam
    split
    · exact h
    · extract_lets x bad tie s1
      split
      · exact inv_ite (inv_cntSl h) h
      · exact ih (inv_ite (inv_tcamFault h) (inv_tcamFalseHit h))

theorem inv_searchLookup {sl j version : Nat} {v : List Byte} {faults : ClassFaults} (h : Inv s) :
    Inv (searchLookup s sl j version v faults).2 := by
  unfold searchLookup
  extract_lets _ s1
  have hs1 : Inv s1.2 := inv_resolveTcam h
  exact hs1

theorem inv_searchAll {sl version : Nat} {v : List Byte} {faults : ClassFaults} {js : List Nat} {c : ClassInfo} (h : Inv s) :
    Inv (searchAll sl version v faults js c s).2 := by
  induction js generalizing c s with
  | nil => exact h
  | cons j js ih => exact ih (inv_searchLookup h)

theorem inv_killEntry {k : Nat × Nat} (h : Inv s) : Inv (killEntry s k) := inv_of_vitals h rfl

theorem inv_entryUe {sl : Nat} {e : Nat × Nat × Bool} (h : Inv s) : Inv (entryUe sl s e) :=
  inv_ite (inv_killEntry h) (inv_ite (inv_killEntry (inv_logUe (inv_raiseEv h))) (inv_raiseEv h))

theorem inv_loseMac {sl pos : Nat} (h : Inv s) : Inv (loseMac sl s pos) := inv_ite (inv_modSlice (inv_raiseEv h)) h

theorem inv_learnNeeded {id vlan : Nat} {f : Frame} {me : MacLearn} (h : Inv s) :
    Inv (bridgeSource.learnNeeded id f vlan s me) := by
  unfold bridgeSource.learnNeeded
  extract_lets limit fwd
  split
  · exact inv_modFrame (inv_cntSl h)
  · exact inv_modFrame h

theorem inv_bridgeSource {id vid vlan : Nat} {f : Frame} (h : Inv s) : Inv (bridgeSource s id f vid vlan) := by
  unfold bridgeSource
  extract_lets x me
  split
  · split
    · exact inv_modFrame (inv_modSlice h)
    · exact inv_ite (inv_cntSl h) (inv_learnNeeded h)
  · exact inv_learnNeeded h

theorem inv_bridge {id : Nat} (h : Inv s) : Inv (bridge s id) := by
  unfold bridge
  refine inv_onFrame h (fun a => ?_)
  extract_lets s1
  have hs1 : Inv s1 := inv_modFrame h
  split
  · exact hs1
  · extract_lets _ s2
    have hs2 : Inv s2 := inv_modFrame h
    exact inv_ite hs1 (inv_bridgeSource hs2)

theorem inv_unposted {id : Nat} (h : Inv s) : Inv (unposted s id) :=
  inv_onFrame h (fun _ => inv_ite (inv_modFrame (inv_outstandingSub h)) h)

theorem inv_judgeFlowless {id b : Nat} (h : Inv s) : Inv (judgeFlowless s id b) := by
  unfold judgeFlowless
  refine inv_onFrame h fun f => ?_
  extract_lets c gone noHop s1 cls bill s2
  have hgone (u : State) (hu : Inv u) : Inv (gone u) := inv_discardHead (inv_slotDropped (inv_unposted hu))
  have hs1 : Inv s1 := by
    unfold s1
    split
    · exact inv_ite h (inv_cntSl h)
    · exact h
  split
  · exact hgone _ (inv_cntSl h)
  · split
    · exact hgone _ (inv_cntDev hs1)
    · exact inv_modFrame (inv_portMove h)

theorem inv_classify {id : Nat} {faults : ClassFaults} (h : Inv s) : Inv (classify id faults s) := by
  unfold classify
  refine inv_onFrame h (fun a => ?_)
  split
  · split
    · exact h
    · extract_lets _ s1 s2 _ _ _ _ _ _ s3 s4 _ _ _ s5 s6
      have hs1 : Inv s1 := inv_foldl (inv_foldl h (fun _ _ hu => inv_entryUe hu)) (fun _ _ hu => inv_loseMac hu)
      have hs2 : Inv s2 := inv_ite (inv_raiseEv hs1) hs1
      have hs3 : Inv s3.2 := inv_searchAll hs2
      have hs4 : Inv s4 := hs3
      have hs5 : Inv s5 := inv_modFrame hs4
      have hs6 : Inv s6 := inv_ite (inv_bridge hs5) hs5
      exact inv_ite (inv_judgeFlowless hs6) hs6
  · split
    · exact h
    · extract_lets _ s1 s2 _ _ _ _ _ _ s3 s4 _ _ _ s5 s6
      have hs1 : Inv s1 := inv_foldl (inv_foldl h (fun _ _ hu => inv_entryUe hu)) (fun _ _ hu => inv_loseMac hu)
      have hs2 : Inv s2 := inv_ite (inv_raiseEv hs1) hs1
      have hs3 : Inv s3.2 := inv_searchAll hs2
      have hs4 : Inv s4 := hs3
      have hs5 : Inv s5 := inv_modFrame hs4
      have hs6 : Inv s6 := inv_ite (inv_bridge hs5) hs5
      exact inv_ite (inv_judgeFlowless hs6) hs6

/-! ### Flow exports -/

theorem inv_modCollector {c : Nat} {f : Collector → Collector} (h : Inv s) : Inv (modCollector s c f) := inv_of_vitals h rfl

theorem inv_exportLost {c n : Nat} (h : Inv s) : Inv (exportLost s c n) := by
  unfold exportLost
  split
  · exact h
  · extract_lets s1
    have hs1 : Inv s1 := inv_raiseEv (inv_bump h)
    exact inv_modCollector hs1

theorem inv_sendToPort {c n : Nat} {msg : List Byte} (h : Inv s) : Inv (sendToPort s c n msg) := by
  unfold sendToPort
  extract_lets _ _ s1 s2 _ _ _ _ _ _ s3
  have hs1 : Inv s1.2 := inv_drawFree h
  have hs2 : Inv s2 := hs1
  have hs3 : Inv s3 := inv_modCollector hs2
  exact inv_ite (inv_exportLost h) (inv_addFrame (inv_cntDev hs3))

theorem inv_sendToHost {c n : Nat} {msg : List Byte} (h : Inv s) : Inv (sendToHost s c n msg) :=
  inv_ite (inv_modCollector h) (inv_exportLost h)

theorem inv_sendMessage {c n : Nat} {sets : List Byte} (h : Inv s) : Inv (sendMessage s c n sets) :=
  inv_ite (inv_exportLost h) (inv_ite (inv_sendToHost h) (inv_sendToPort h))

theorem inv_flushCollector {c : Nat} (h : Inv s) : Inv (flushCollector s c) := by
  unfold flushCollector
  extract_lets
  exact inv_ite h (inv_sendMessage (inv_modCollector h))

theorem inv_queueExport {r : ExportRec} (h : Inv s) : Inv (queueExport s r) := by
  unfold queueExport
  extract_lets _ _ s1
  have hs1 : Inv s1 := inv_ite (inv_flushCollector h) h
  exact inv_ite (inv_exportLost h) (inv_modCollector hs1)

theorem inv_ipfixTemplate {c : Nat} (h : Inv s) : Inv (ipfixTemplate c s) := by
  unfold ipfixTemplate
  split
  · next e =>
      exact h
  · next t e =>
      have ht : Inv t := inv_takeItem h e
      exact inv_sendMessage ht

theorem inv_ipfixFlush {c : Nat} (h : Inv s) : Inv (ipfixFlush c s) := inv_ite (inv_flushCollector h) h

end

end Sys2Proof.Machine
end

