-- ==== Sys2Proof/Proofs/InvariantFlows.lean ====
section
/-! SUPPORT. The invariant under the Skein, stream tracking and the flow lookup. -/

namespace Sys2Proof.Machine

section
variable {s : State}

/-! ### The Skein -/

theorem inv_coldOps {b n : Nat} (h : Inv s) : Inv (coldOps s b n) := inv_of_vitals h rfl

theorem inv_modWay {idx : Nat} {f : WayEntry → WayEntry} (h : Inv s) : Inv (modWay s idx f) := inv_of_vitals h rfl

theorem inv_modCold {idx : Nat} {f : ColdRec → ColdRec} (h : Inv s) : Inv (modCold s idx f) := inv_of_vitals h rfl

theorem inv_putHot {slot : Nat} {r : HotRec} (h : Inv s) : Inv (putHot s slot r) := by
  refine inv_withSkein h fun x => ?_
  split
  · rfl
  · rfl

theorem inv_accessHot {slot : Nat} {r : HotRec} (h : Inv s) : Inv (accessHot s slot r) := inv_of_vitals h rfl

theorem inv_delHot {slot : Nat} (h : Inv s) : Inv (delHot s slot) := by
  unfold delHot
  split
  · exact h
  · exact inv_withSkein h (fun _ => rfl)

theorem inv_modBank {b : Nat} {f : BankState → BankState} (h : Inv s) : Inv (modBank s b f) := inv_of_vitals h rfl

theorem inv_putWriteBack {idx : Nat} {r : Option HotRec} (h : Inv s) : Inv (putWriteBack s idx r) := inv_of_vitals h rfl

theorem inv_modBody {idx : Nat} {f : FlowBody → FlowBody} (h : Inv s) : Inv (modBody s idx f) := by
  unfold modBody
  split
  · exact inv_putHot h
  · split
    · exact inv_putWriteBack h
    · exact inv_modCold h

theorem inv_bankMove {idx bank : Nat} {add sub : Counts} (h : Inv s) : Inv (bankMove s idx bank add sub) := by
  unfold bankMove
  extract_lets _ _ _ _ _ _ _ s1
  have hs1 : Inv s1 := inv_modCold h
  exact inv_ite hs1 (inv_zoneMove hs1)

theorem inv_applyBurst {o : BurstOp} (h : Inv s) : Inv (applyBurst s o) := by
  unfold applyBurst
  extract_lets s1
  have hs1 : Inv s1 := inv_ite (inv_bankMove h) (inv_zoneMove h)
  split
  · exact hs1
  · exact inv_outstandingSub hs1

theorem inv_issueBurst {o : BurstOp} (h : Inv s) : Inv (issueBurst s o) := inv_of_vitals h rfl

theorem inv_settleBursts {idx : Nat} (h : Inv s) : Inv (settleBursts s idx) := by
  unfold settleBursts
  extract_lets _ s1
  have hs1 : Inv s1 := inv_withSkein h (fun _ => rfl)
  exact inv_foldl hs1 (fun _ _ hu => inv_applyBurst hu)

theorem inv_foldHot {r : HotRec} (h : Inv s) : Inv (foldHot s r).2 := inv_ite_snd h (inv_issueBurst h)

theorem inv_freshBank {r : HotRec} (h : Inv s) : Inv (freshBank s r).2 := by
  unfold freshBank
  split
  · exact h
  · extract_lets s1
    have hs1 : Inv s1.2 := inv_foldHot h
    exact hs1

theorem inv_addHot {r : HotRec} {a : Counts} (h : Inv s) : Inv (addHot s r a).2 := by
  unfold addHot
  extract_lets s1
  have hs1 : Inv s1.2 := inv_ite_snd h (inv_foldHot h)
  exact hs1

theorem inv_evict {e : Nat × HotRec} (h : Inv s) : Inv (evict s e) := inv_of_vitals h rfl

theorem inv_evictSet {set : List Nat} (h : Inv s) : Inv (evictSet s set) := inv_foldl h (fun _ _ hu => inv_evict hu)

theorem inv_placeHot {slot : Nat} {r : HotRec} (h : Inv s) : Inv (placeHot s slot r) := by
  unfold placeHot
  extract_lets _ s1 _ _ _ _ s2
  have hs1 : Inv s1 := inv_evictSet h
  have hs2 : Inv s2 := inv_withSkein hs1 (fun _ => rfl)
  exact inv_modWay hs2

theorem inv_clearPend {k : Key} (h : Inv s) : Inv (clearPend s k) := inv_of_vitals h rfl

theorem inv_modPend {k : Key} {f : PendKey → PendKey} (h : Inv s) : Inv (modPend s k f) := inv_of_vitals h rfl

theorem inv_liveMove {port bucket : Nat} {f : Nat → Nat} (h : Inv s) : Inv (liveMove s port bucket f) := inv_of_vitals h rfl

theorem inv_freeWay {idx : Nat} (h : Inv s) : Inv (freeWay s idx) := inv_of_vitals h rfl

theorem inv_makeCold {idx : Nat} (h : Inv s) : Inv (makeCold s idx) := by
  unfold makeCold
  extract_lets _ _ s1 s2
  have hs1 : Inv s1 := inv_settleBursts h
  have hs2 : Inv s2 := by
    unfold s2
    split
    · exact inv_delHot hs1
    · exact inv_putWriteBack hs1
  exact inv_bankMove (inv_modCold hs2)

theorem inv_retireRecord {idx : Nat} (h : Inv s) : Inv (retireRecord s idx).2 := by
  unfold retireRecord
  extract_lets s1 _ s2
  have hs1 : Inv s1 := inv_makeCold h
  have hs2 : Inv s2 := inv_zoneMove (inv_zoneMove hs1)
  exact inv_freeWay hs2

theorem inv_natRelease {b : FlowBody} (h : Inv s) : Inv (natRelease s b) := by
  unfold natRelease
  split
  · exact h
  · split
    · exact h
    · exact inv_of_vitals h rfl

theorem inv_endFlow {idx reason : Nat} (h : Inv s) : Inv (endFlow s idx reason) := by
  unfold endFlow
  split
  · exact h
  · extract_lets other s1 s2 s3 primary twin sum s4 s5
    have hs1 : Inv s1.2 := inv_retireRecord h
    have hs3 : Inv s3 := by
      rcases hother : other with _ | t
      · simp only [s3, s2, hother]
        exact hs1
      · simp only [s3, s2, hother]
        exact inv_retireRecord hs1
    have hs4 : Inv s4 := inv_ite (inv_queueExport hs3) hs3
    have hs5 : Inv s5 := inv_ite (inv_natRelease hs4) hs4
    exact inv_liveMove hs5

theorem inv_loseRecord {idx : Nat} {closing : Bool} (h : Inv s) : Inv (loseRecord s idx closing) := by
  unfold loseRecord
  extract_lets twin mine s1 s2 s3 s4 s5
  have hs1 : Inv s1 := inv_withSkein h fun _ => rfl
  have hs2 : Inv s2 := by
    unfold s2
    split
    · exact inv_delHot hs1
    · exact inv_putWriteBack hs1
  have hs3 : Inv s3 := inv_foldl (inv_freeWay hs2) fun u a hu => inv_applyBurst hu
  have hs4 : Inv s4 := inv_raiseEv hs3
  have hs5 : Inv s5 := inv_ite (inv_gapClosing hs4) (inv_gapOpen hs4)
  clear_value s5 twin
  cases twin with
  | none => exact hs5
  | some t => exact inv_endFlow hs5

theorem inv_discardHot {slot : Nat} (h : Inv s) : Inv (discardHot s slot) := by
  unfold discardHot
  split
  · exact h
  · exact inv_gapOpen (inv_logUe (inv_raiseEv (inv_delHot h)))

theorem inv_rebuildTags {b : Nat} {bad : List Nat} {closing : Bool} (h : Inv s) :
    Inv (rebuildTags s b bad closing) := by
  unfold rebuildTags
  extract_lets s1 _ s2
  have hs1 : Inv s1 := inv_raiseEv h
  have hs2 : Inv s2 := inv_foldl hs1 (fun _ _ hu => inv_loseRecord hu)
  exact inv_withSkein hs2 (fun _ => rfl)

theorem inv_tagLineUe {b port : Nat} {ue : List Nat} {closing : Bool} (h : Inv s) :
    Inv (tagLineUe s b port ue closing) := by
  unfold tagLineUe
  extract_lets s1
  have hs1 : Inv s1 := inv_hbmUe h
  exact inv_ite (inv_rebuildTags hs1) hs1

theorem tsortedFrom_map {α β : Type} {t : Table α} {b : Option Nat} {g : Nat × α → β} (h : tsortedFrom b t = true) :
    tsortedFrom b (t.map fun e => (e.1, g e)) = true := by
  induction t generalizing b with
  | nil => exact h
  | cons a r ih =>
    obtain ⟨hfirst, hrest⟩ := (tsortedFrom_cons b a.1 a.2 r).mp h
    exact (tsortedFrom_cons b a.1 _ _).mpr ⟨hfirst, ih hrest⟩

/-- A change of the frames where they are keeps their numbers. -/
theorem inv_mapFrames {g : Nat × Frame → Frame} (h : Inv s) :
    Inv { s with frames := s.frames.map fun e => (e.1, g e) } := by
  obtain ⟨hsorted, hbelow⟩ := h.frames
  refine ⟨h.otp, h.counters, h.parts, ⟨tsortedFrom_map hsorted, fun e he => ?_⟩, h.images⟩
  obtain ⟨d, hd, rfl⟩ := List.mem_map.mp he
  exact hbelow d hd

theorem inv_dropGroup {g : Nat} (h : Inv s) : Inv (dropGroup s g) := by
  unfold dropGroup
  extract_lets idxs mine s1 s2 s3 s4
  have hs1 : Inv s1 := inv_withSkein h fun _ => rfl
  have hs2 : Inv s2 := by
    refine inv_foldl hs1 fun u i hu => ?_
    split
    · exact inv_delHot hu
    · exact inv_putWriteBack hu
  have hs3 : Inv s3 := inv_withSkein hs2 (by simp)
  have hs4 : Inv s4 := inv_foldl hs3 fun u a hu => inv_applyBurst hu
  exact inv_mapFrames hs4

theorem inv_placeGroup {g : Nat} (h : Inv s) : Inv (placeGroup s g) := inv_of_vitals h rfl

theorem inv_loseGroups {gs : List Nat} {r : Retiring} (h : Inv s) : Inv (loseGroups s gs r) := by
  unfold loseGroups
  extract_lets _ _ _ s1 s2 s3 s4 s5 s6
  have hs1 : Inv s1 := inv_foldl h (fun _ _ hu => inv_dropGroup hu)
  have hs2 : Inv s2 := inv_foldl hs1 (fun _ _ hu => inv_endFlow hu)
  have hs3 : Inv s3 := inv_foldl (inv_withSkein hs2 (fun _ => rfl)) (fun _ _ hu => inv_placeGroup hu)
  have hs4 : Inv s4 := inv_raiseEv hs3
  have hs5 : Inv s5 := inv_postEvent hs4
  have hs6 : Inv s6 := by
    unfold s6
    split
    · exact inv_ite hs5 (inv_gapClosing hs5)
    · exact hs5
  exact inv_gapOpen hs6

/-! ### Stream tracking -/

theorem inv_noticeTwin {b : FlowBody} {d : Bool} {g : Segment} {twin version : Nat} (h : Inv s) :
    Inv (noticeTwin s b d g twin version) := inv_ite (inv_withSkein h (fun _ => rfl)) h

theorem inv_twinNotice {n : Nat} (h : Inv s) : Inv (twinNotice n s) := by
  unfold twinNotice
  split
  · exact h
  · extract_lets s1
    have hs1 : Inv s1 := inv_withSkein h (fun _ => rfl)
    exact inv_ite (inv_modBody hs1) hs1

/-! ### The flow lookup -/

theorem inv_missAt {id : Nat} {st : LookupStage} (h : Inv s) : Inv (missAt s id st) := inv_modFrame h

theorem inv_lookupDone {id how : Nat} (h : Inv s) : Inv (lookupDone s id how) := inv_modFrame h

theorem inv_accessRecord {idx : Nat} {g : FlowBody → FlowBody} {add : Counts} (h : Inv s) :
    Inv (accessRecord s idx g add) := by
  unfold accessRecord
  split
  · extract_lets s1 s2
    have hs1 : Inv s1.2 := inv_freshBank h
    have hs2 : Inv s2.2 := inv_addHot hs1
    exact inv_accessHot hs2
  · split
    · extract_lets s1 s2
      have hs1 : Inv s1.2 := inv_freshBank h
      have hs2 : Inv s2.2 := inv_addHot hs1
      exact inv_putWriteBack hs2
    · extract_lets s1
      have hs1 : Inv s1 := inv_modCold (inv_settleBursts h)
      exact inv_coldOps (inv_bankMove hs1)

theorem inv_countFrame {id handle cls zone : Nat} {bill : Bool} (h : Inv s) :
    Inv (countFrame s id handle cls zone bill) := by
  unfold countFrame
  refine inv_onFrame h (fun a => ?_)
  extract_lets _ s1
  have hs1 : Inv s1 := inv_portMove h
  exact inv_modFrame (inv_outstandingAdd hs1)

theorem inv_recordHit {id idx how : Nat} {learned : Bool} (h : Inv s) : Inv (recordHit s id idx how learned) := by
  unfold recordHit
  refine inv_onFrame h fun f => ?_
  extract_lets b first d seg prof tr deny handle twin s1 o body s2 s3 s4
  have hs1 : Inv s1 := by
    unfold s1
    split
    · exact inv_cntDev h
    · exact h
  have hs2 : Inv s2 := inv_accessRecord hs1
  have hs3 : Inv s3 := by
    rcases hseg : seg with _ | g
    · simp only [s3, hseg]
      exact hs2
    · simp only [s3, hseg]
      exact inv_ite (inv_noticeTwin hs2) hs2
  have hs4 : Inv s4 := inv_ite (inv_countFrame hs3) hs3
  exact inv_ite (inv_missAt (inv_endFlow h)) (inv_lookupDone (inv_modFrame hs4))

theorem inv_hotHit {id idx : Nat} (h : Inv s) : Inv (hotHit s id idx) := inv_onFrame h (fun _ => inv_recordHit (inv_cntSl h))

theorem inv_writeBackHit {id : Nat} {r : HotRec} (h : Inv s) : Inv (writeBackHit s id r) := by
  unfold writeBackHit
  extract_lets s1
  have hs1 : Inv s1 := inv_putWriteBack h
  split
  · exact inv_hotHit (inv_coldOps (inv_placeHot hs1))
  · exact inv_missAt h
  · exact inv_hotHit (inv_cntDev h)

theorem inv_fullMiss {id : Nat} (h : Inv s) : Inv (fullMiss s id) := by
  unfold fullMiss
  refine inv_onFrame h (fun a => ?_)
  extract_lets _ _ s1
  have hs1 : Inv s1 := by
    unfold s1
    split
    · exact inv_modPend h
    · exact inv_modBank h
  exact inv_missAt (inv_cntSl hs1)

theorem inv_tryWay {id : Nat} {k : Key} {w : Nat} (h : Inv s) : Inv (tryWay s id k w) := by
  unfold tryWay
  extract_lets s1
  have hs1 : Inv s1 := by
    unfold s1
    split
    · exact h
    · split
      · exact h
      · exact inv_coldOps (inv_modWay h)
  exact inv_missAt (inv_coldOps (inv_modPend hs1))

theorem inv_nextWay {id : Nat} {k : Key} {w : Nat} (h : Inv s) : Inv (nextWay s id k w) := by
  unfold nextWay
  split
  · exact inv_tryWay h
  · exact inv_fullMiss h

theorem inv_missHot {id : Nat} {k : Key} (h : Inv s) : Inv (missHot s id k) := by
  unfold missHot
  extract_lets bank go
  have hgo (v : Option Nat) : Inv (go v) := inv_missAt (inv_coldOps (inv_modBank h))
  refine inv_ite (inv_missAt h) (inv_ite (inv_fullMiss h) (inv_ite (inv_missAt h) ?_))
  split
  · exact inv_missAt h
  · exact hgo none
  · exact hgo _

theorem inv_losePend {bank n : Nat} (h : Inv s) : Inv (losePend s bank n) := by
  unfold losePend
  split
  · exact h
  · extract_lets s1
    have hs1 : Inv s1 := inv_gapOpen (inv_raiseEv h)
    exact inv_onFrame hs1 (fun _ => inv_ite (inv_fullMiss hs1) hs1)

theorem inv_bankFaults {k : Key} {x : BankFaults} (h : Inv s) : Inv (bankFaults s k x) := by
  unfold bankFaults
  extract_lets _ s1 s2 s3 _ s4 s5
  have hs1 : Inv s1 := inv_ite (inv_cntDev h) h
  have hs2 : Inv s2 := inv_ite (inv_cntDev hs1) hs1
  have hs3 : Inv s3 := inv_foldl hs2 (fun _ _ hu => inv_discardHot hu)
  have hs4 : Inv s4 := inv_foldl hs3 (fun _ _ hu => inv_loseRecord hu)
  have hs5 : Inv s5 := inv_foldl hs4 (fun _ _ hu => inv_losePend hu)
  exact inv_ite (inv_loseGroups hs5) hs5

theorem inv_serveLookup {id : Nat} (h : Inv s) : Inv (serveLookup s id) := by
  unfold serveLookup
  refine inv_onFrame h fun f => inv_ite (inv_missAt h) ?_
  split
  · split
    · exact inv_hotHit h
    · exact h
  · exact inv_writeBackHit h
  · refine inv_ite (inv_missAt h) ?_
    cases findHot s f.head.key with
    | none => exact inv_missHot h
    | some n =>
      dsimp only
      split
      · exact inv_hotHit h
      · exact h

theorem inv_flowLookup {id : Nat} {x : BankFaults} (h : Inv s) : Inv (flowLookup id x s) := by
  unfold flowLookup
  refine inv_onFrame h (fun a => ?_)
  split
  · exact h
  · split
    · exact inv_serveLookup (inv_bankFaults h)
    · split
      · extract_lets s1
        have hs1 : Inv s1 := inv_modBank h
        exact inv_serveLookup (inv_bankFaults hs1)
      · exact h

theorem inv_homeRead {b line ce : Nat} {ecc : Ecc} (h : Inv s) : Inv (homeRead s b line ce ecc) := by
  unfold homeRead
  split
  · exact h
  · exact inv_hbmCe (inv_cntDev h)
  · exact inv_hbmUe h

theorem inv_tagLineRead {id : Nat} {ecc : Ecc} {bad : List Nat} (h : Inv s) : Inv (tagLineRead id ecc bad s) := by
  unfold tagLineRead
  refine inv_onFrame h (fun a => ?_)
  extract_lets _ s1 s2
  have hs1 : Inv s1 := inv_homeRead h
  have hs2 : Inv s2 := inv_modPend hs1
  exact inv_ite h (inv_ite hs1 (inv_nextWay (inv_ite (inv_rebuildTags hs2) hs2)))

theorem inv_verified {id : Nat} {k : Key} {idx : Nat} {victim : Option Nat} (h : Inv s) :
    Inv (verified s id k idx victim) := by
  unfold verified
  refine inv_onFrame h (fun a => ?_)
  extract_lets
  split
  · exact h
  · extract_lets s1
    have hs1 : Inv s1 := inv_placeHot (inv_clearPend h)
    exact inv_recordHit (inv_cntSl hs1)
  · exact inv_recordHit (inv_cntSl (inv_cntDev (inv_clearPend h)))

theorem inv_recordBurstsRead {id : Nat} {ecc : Ecc} (h : Inv s) : Inv (recordBurstsRead id ecc s) := by
  unfold recordBurstsRead
  refine inv_onFrame h (fun a => ?_)
  extract_lets
  split
  · split
    · exact h
    · extract_lets _ s1 s2
      have hs1 : Inv s1 := inv_homeRead (inv_settleBursts h)
      have hs2 : Inv s2 := inv_ite (inv_coldOps (inv_modWay hs1)) hs1
      exact inv_ite h (inv_ite hs1 (inv_ite (inv_fullMiss (inv_loseRecord hs1)) (inv_ite (inv_verified hs1) (inv_nextWay hs2))))
  · exact h

theorem inv_writeBackDone {bank n : Nat} (h : Inv s) : Inv (writeBackDone bank n s) := by
  unfold writeBackDone
  split
  · exact h
  · extract_lets _ s1
    have hs1 : Inv s1 := inv_modBank (inv_settleBursts h)
    exact inv_ite h (inv_bankMove (inv_modCold hs1))

theorem inv_mergeRelease {slot : Nat} (h : Inv s) : Inv (mergeRelease slot s) := by
  unfold mergeRelease
  split
  · exact h
  · exact inv_ite h (inv_withSkein h (fun _ => rfl))

theorem inv_coldHomeWritten {bucket : Nat} (h : Inv s) : Inv (coldHomeWritten bucket s) := inv_of_vitals h rfl

theorem inv_secondBurstRead {idx : Nat} {ecc : Ecc} (h : Inv s) : Inv (secondBurstRead idx ecc s) := by
  unfold secondBurstRead
  split
  · exact h
  · split
    · exact h
    · extract_lets s1
      have hs1 : Inv s1 := inv_homeRead h
      split
      · exact hs1
      · split
        · exact inv_loseRecord hs1
        · split
          · exact hs1
          · exact inv_applyBurst (inv_withSkein hs1 (fun _ => rfl))

theorem inv_correctRecord {c : Correction} (h : Inv s) : Inv (correctRecord s c) := by
  unfold correctRecord
  extract_lets idx cold
  have hcold (u : State) (hu : Inv u) : Inv (cold u) := inv_issueBurst hu
  split
  · exact hcold s h
  · split
    · extract_lets p
      exact inv_ite (inv_outstandingSub (inv_putHot h)) (hcold _ (inv_putHot (inv_foldHot h)))
    · exact hcold s h

theorem inv_correction {n : Nat} {zoneUe : Bool} (h : Inv s) : Inv (correction n zoneUe s) := by
  unfold correction
  split
  · exact h
  · extract_lets _ s1 s2
    have hs1 : Inv s1 := inv_of_vitals h rfl
    have hs2 : Inv s2 := inv_portMove hs1
    exact inv_ite (inv_outstandingSub hs2) (inv_ite (inv_correctRecord hs2) (inv_outstandingSub (inv_zoneMove
      (inv_zoneRead hs2))))

end

end Sys2Proof.Machine
end

