-- ==== Sys2Proof/Proofs/InvariantLearning.lean ====
section
/-! SUPPORT. The invariant under translation, balancing and learning; a step that may fail keeps it either way. -/

namespace Sys2Proof.Machine

section
variable {s : State}

/-! ### Translation and balancing -/

/-- A step that may fail answers a state that meets the invariant, whichever way it goes; `p` finds the state of an answer. -/
def TryInv {α : Type} (p : α → State) : Try α → Prop
  | .ok a => Inv (p a)
  | .error e => Inv e.2

theorem tryInv_bind {α β : Type} {p : α → State} {q : β → State} {x : Try α} {k : α → Try β} (hx : TryInv p x)
    (hk : ∀ a, Inv (p a) → TryInv q (k a)) : TryInv q (x >>= k) := by
  cases x with
  | error e => exact hx
  | ok a => exact hk a hx

theorem tryInv_natRead {ue lines : List Nat} (h : Inv s) : TryInv id (natRead ue lines s) := by
  unfold natRead
  split
  · exact h
  · split
    · exact h
    · exact inv_natLostNotice (inv_of_vitals (inv_hbmUe h) rfl)

theorem inv_withActions {f : ActionState → ActionState} (h : Inv s) : Inv (withActions s f) := inv_of_vitals h rfl

theorem inv_logBlock {pool : NatPool} {sub : Subscriber} {addr block event : Nat} (h : Inv s) :
    Inv (logBlock s pool sub addr block event) := inv_ite (inv_queueExport h) h

theorem inv_blockTask {pool : NatPool} {sub : Subscriber} {addr block : Nat} (h : Inv s) :
    Inv (blockTask s pool sub addr block) := by
  unfold blockTask
  extract_lets
  exact inv_raiseTask h

theorem inv_blockEvent {p : List Byte} (h : Inv s) : Inv (blockEvent s p) := inv_ite h (inv_queueExport h)

theorem tryInv_allocBlock {ue : List Nat} {pool : NatPool} {i : Nat} {sub : Subscriber} (h : Inv s) :
    TryInv Prod.snd (allocBlock ue s pool i sub) := by
  unfold allocBlock
  split
  · exact h
  · exact tryInv_bind (tryInv_natRead h) fun u hu => inv_blockTask (inv_withActions hu)

theorem inv_useMapping {m proto port block : Nat} (h : Inv s) : Inv (useMapping s m proto port block) := inv_of_vitals h rfl

theorem tryInv_mapHeld {ue : List Nat} {pool : NatPool} {addr proto port : Nat} {first : Bool} {js : List Nat} (h : Inv s) :
    TryInv Prod.snd (mapHeld ue pool addr proto port first js s) := by
  induction js generalizing first s with
  | nil => exact h
  | cons j js ih =>
    unfold mapHeld
    refine tryInv_bind (tryInv_natRead h) fun u hu => ?_
    have hcnt : Inv (if first then u else cntDev u 0x54) := inv_ite hu (inv_cntDev hu)
    dsimp only
    split
    · exact inv_useMapping hcnt
    · exact ih hcnt

theorem tryInv_mapPort {ue : List Nat} {pool : NatPool} {i : Nat} {sub : Subscriber} {proto port : Nat} (h : Inv s) :
    TryInv Prod.snd (mapPort ue s pool i sub proto port) := by
  unfold mapPort
  refine tryInv_bind (tryInv_mapHeld h) fun r hr => ?_
  split
  · exact hr
  · split
    · exact tryInv_bind (tryInv_allocBlock hr) fun r hr => tryInv_bind (tryInv_natRead hr) fun u hu => inv_useMapping hu
    · exact hr

theorem tryInv_publicEnd {ue : List Nat} {pool : NatPool} {poolNo : Nat} {v6 : Bool} {addr proto port : Nat} (h : Inv s) :
    TryInv Prod.snd (publicEnd ue s pool poolNo v6 addr proto port) := by
  unfold publicEnd
  extract_lets inside range
  split
  · refine tryInv_bind (tryInv_natRead h) fun u hu => ?_
    split
    · exact hu
    · exact tryInv_bind (tryInv_mapPort hu) fun r hr => hr
  · refine tryInv_bind (tryInv_natRead h) fun u hu => ?_
    split
    · exact hu
    · split
      · exact hu
      · exact tryInv_bind (tryInv_mapPort hu) fun r hr => hr

theorem tryInv_hairpinEnd {ue : List Nat} {addr proto port : Nat} (h : Inv s) :
    TryInv Prod.snd (hairpinEnd ue s addr proto port) := by
  unfold hairpinEnd
  refine tryInv_bind (tryInv_natRead h) fun u hu => ?_
  split
  · exact hu
  · extract_lets owner
    split
    · exact hu
    · rcases howner : owner with _ | b
      · exact hu
      · refine tryInv_bind (tryInv_natRead hu) fun v hv => ?_
        split
        · exact hv
        · exact inv_useMapping hv

theorem inv_poolFailed {pool : Nat} (h : Inv s) : Inv (poolFailed s pool) := by
  unfold poolFailed
  extract_lets s1 _ s2
  have hs1 : Inv s1 := inv_ite h (inv_withActions h)
  have hs2 : Inv s2 := inv_withActions hs1
  exact inv_ite (inv_actionEvent (inv_raiseEv hs2)) hs2

theorem tryInv_lbSelect {ue : List Nat} {pool version sl : Nat} {k : Key} {d : Bool} (h : Inv s) :
    TryInv Prod.snd (lbSelect ue s pool version sl k d) := by
  unfold lbSelect
  extract_lets img bucket e line s1
  split
  · exact h
  · split
    · exact inv_loseTargets (inv_hbmUe h)
    · split
      · split
        · exact h
        · exact h
      · exact h

/-! ### Learning -/

theorem inv_learnDrop {id : Nat} (h : Inv s) : Inv (learnDrop s id) :=
  inv_onFrame h (fun _ => inv_discardHead (inv_slotDropped h))

theorem inv_goFlowless {id how : Nat} (h : Inv s) : Inv (goFlowless s id how) := by
  unfold goFlowless
  refine inv_onFrame h (fun a => ?_)
  split
  · exact inv_lookupDone (inv_modFrame h)
  · extract_lets _ s1 s2
    have hs1 : Inv s1 := inv_modFrame (inv_outstandingAdd h)
    have hs2 : Inv s2 := inv_lookupDone hs1
    exact inv_ite (inv_judgeFlowless hs2) hs2

theorem inv_excess {learnPort id how : Nat} (h : Inv s) : Inv (excess s learnPort id how) :=
  inv_onFrame h (fun _ => inv_ite (inv_learnDrop (inv_cntPort h)) (inv_goFlowless (inv_cntPort h)))

theorem inv_setTokens {port v : Nat} (h : Inv s) : Inv (setTokens s port v) := inv_of_vitals h rfl

theorem inv_takeToken {port : Nat} (h : Inv s) : Inv (takeToken s port) := inv_ite (inv_setTokens h) h

theorem inv_noLearn {t : State} {id : Nat} {f : Frame} (h : Inv s) (e : noLearn s id f = some t) : Inv t := by
  unfold noLearn at e
  extract_lets prof tcp opens s1 s2 s3 at e
  have hs3 : Inv s3 := inv_modFrame (inv_lookupDone (inv_cntDev h))
  split at e
  · cases e
    exact inv_learnDrop (inv_cntSl h)
  · split at e
    · cases e
      exact inv_learnDrop (inv_cntDev h)
    · split at e
      · cases e
        exact inv_learnDrop (inv_cntDev h)
      · split at e
        · split at e
          · cases e
            exact inv_headLeave (inv_snapAdd (inv_slotRetired hs3))
          · cases e
            exact inv_learnDrop (inv_cntDev h)
        · split at e
          · cases e
            exact inv_learnDrop (inv_cntDev h)
          · cases e

theorem inv_learnRequest {id : Nat} (h : Inv s) : Inv (learnRequest id s) := by
  unfold learnRequest
  refine inv_onFrame h fun f => inv_ite h ?_
  split
  · next u e => exact inv_noLearn (inv_clearPend h) e
  · extract_lets q s1 s2 s3
    have hs2 : Inv s2 := inv_withSkein (inv_liveMove (inv_takeToken h)) (by simp)
    exact inv_ite (inv_excess (inv_clearPend h)) (inv_ite h (inv_modFrame (inv_bump hs2)))

theorem tryInv_plainPlan {ue : List Nat} {f : Frame} (h : Inv s) : TryInv Prod.snd (plainPlan ue s f) := by
  unfold plainPlan
  extract_lets k d prof
  split
  · exact tryInv_bind (tryInv_lbSelect h) fun r hr => hr
  · exact h

theorem inv_pairPlan {f : Frame} {pub : MappedEnd} {hairpin : Bool} {twinRw : Nat × Nat} (h : Inv s) :
    Inv (pairPlan s f pub hairpin twinRw).2 := inv_of_vitals h rfl

theorem inv_mapProto {proto : Nat} (h : Inv s) : Inv (mapProto s proto).2 := by
  unfold mapProto
  split
  · exact h
  · extract_lets s1
    have hs1 : Inv s1.2 := inv_drawFree h
    exact hs1

theorem tryInv_natPlan {ue : List Nat} {f : Frame} (h : Inv s) : TryInv Prod.snd (natPlan ue s f) := by
  unfold natPlan
  extract_lets k n src dst q
  split
  · exact h
  · split
    · exact h
    · split
      · exact tryInv_bind (tryInv_hairpinEnd (inv_mapProto h)) fun r hr => inv_pairPlan hr
      · exact tryInv_bind (tryInv_publicEnd (inv_mapProto h)) fun r hr => inv_pairPlan hr

theorem tryInv_learnPlan {ue : List Nat} {f : Frame} (h : Inv s) : TryInv Prod.snd (learnPlan ue s f) := by
  unfold learnPlan
  split
  · exact tryInv_natPlan h
  · exact tryInv_plainPlan h

theorem inv_of_written {b : FlowBody} {port i : Nat} {t : State} (h : Inv s)
    (e : writeRecord s b port = .at_ i t) : Inv t := by
  unfold writeRecord at e
  split at e
  · cases e
  · extract_lets gen put at e
    have hput (u : State) (hu : Inv u) : Inv (put u) := inv_withSkein (inv_coldOps (inv_modCold (inv_modWay hu))) fun _ => rfl
    split at e
    · cases e
    · cases e
      exact inv_cntDev (hput s h)
    · cases e
      exact inv_placeHot (hput s h)

theorem inv_of_flowWritten {bs : List FlowBody} {port i : Nat} {t : State} (h : Inv s)
    (e : writeFlow s bs port = .at_ i t) : Inv t := by
  unfold writeFlow at e
  split at e
  · cases e
  · split at e
    · next j u hw =>
      have hu : Inv u := inv_of_written h hw
      split at e
      · cases e
        exact hu
      · split at e
        · next hw' =>
          cases e
          exact inv_modCold (inv_modCold (inv_of_written hu hw'))
        · next hno => exact absurd e (hno _ _)
    · next hno => exact absurd e (hno _ _)

theorem inv_learnFailed {id code : Nat} (h : Inv s) : Inv (learnFailed s id code) := by
  unfold learnFailed
  refine inv_onFrame h (fun a => ?_)
  extract_lets _ s1 s2 s3
  have hs1 : Inv s1 := inv_cntDev h
  have hs2 : Inv s2 := inv_ite (inv_poolFailed hs1) hs1
  have hs3 : Inv s3 := inv_liveMove (inv_clearPend (inv_cntPort hs2))
  exact inv_foldl hs3 (fun _ _ hu => inv_ite (inv_onFrame hu (fun _ => inv_learnDrop (inv_cntPort hu))) (inv_excess hu))

theorem inv_learnJoins {id : Nat} {f : Frame} (h : Inv s) : Inv (learnJoins s id f) :=
  inv_missAt (inv_liveMove (inv_clearPend h))

theorem inv_serveLearn {ue : List Nat} {old : State} {id : Nat} {f : Frame} (hold : Inv old) (h : Inv s) :
    Inv (serveLearn ue old s id f) := by
  unfold serveLearn
  refine inv_ite (inv_learnJoins h) ?_
  have hplan : TryInv Prod.snd (learnPlan ue s f) := tryInv_learnPlan h
  split
  · next hp =>
    rw [hp] at hplan
    exact inv_ite hold (inv_learnFailed hplan)
  · next hp =>
    rw [hp] at hplan
    refine inv_ite hold ?_
    split
    · exact hold
    · exact inv_learnFailed h
    · next hw =>
      have hu := inv_of_flowWritten hplan hw
      exact inv_recordHit (inv_clearPend (inv_ite (inv_cntDev hu) hu))

theorem inv_fitchLearn {ue : List Nat} (h : Inv s) : Inv (fitchLearn ue s) := by
  unfold fitchLearn
  extract_lets
  split
  · exact h
  · split
    · exact h
    · extract_lets s1
      have hs1 : Inv s1 := inv_withSkein h (by simp)
      exact inv_serveLearn h hs1

end

end Sys2Proof.Machine
end

