-- ==== Sys2Proof/Proofs/InvariantEpochs.lean ====
section
/-! SUPPORT. The invariant under the epochs of the Lid, the start of a reset and the wake. -/

namespace Sys2Proof.Machine

section
variable {s : State}

/-! ### Epochs -/

theorem inv_settingsApply (h : Inv s) : Inv (settingsApply s) := by
  unfold settingsApply
  extract_lets _ _ _ s1 s2
  have hs1 : Inv s1 := inv_foldl h (fun _ _ hu => inv_setTokens hu)
  have hs2 : Inv s2 := inv_applyAll hs1
  refine inv_foldl hs2 (fun u1 a1 hu => ?_)
  split
  · extract_lets
    exact inv_setTokens hu
  · exact hu

theorem inv_rimEventPost {kind arg value : Nat} (h : Inv s) : Inv (rimEventPost s kind arg value) := inv_postEvent h

theorem inv_logLifecycle {src dst step : Nat} (h : Inv s) : Inv (logLifecycle s src dst step) := inv_rimLog h

/-- What pends is PROVISION or SEAL, so the lifecycle stays among the four. -/
theorem inv_lifecycleApply (h : Inv s) : Inv (lifecycleApply s) := by
  unfold lifecycleApply
  extract_lets n s1 rim otp s2
  split
  · exact h
  · have hs1 : Inv s1 := inv_logLifecycle (inv_logLifecycle h)
    obtain ⟨hlife, hroll, hsess, -⟩ := hs1.otp
    obtain ⟨-, -, -, hpend⟩ := h.otp
    have hn : n ≤ 3 := hpend.trans (by decide)
    clear_value s1 n
    have hs2 : Inv s2 :=
      ⟨⟨Nat.max_le.mpr ⟨hlife, hn⟩, hroll, hsess, Nat.zero_le 2⟩, hs1.counters, hs1.parts, hs1.frames, hs1.images⟩
    exact inv_rimEventPost (inv_raiseEv hs2)

theorem inv_openEpoch {seq how : Nat} {first : Bool} (h : Inv s) : Inv (openEpoch s seq how first) := by
  unfold openEpoch
  extract_lets _ _ _ s1
  have hs1 : Inv s1 := inv_of_vitals h rfl
  exact inv_rimLog hs1

theorem inv_epochVersion {v : Nat} (h : Inv s) : Inv (epochVersion s v) := inv_ite (inv_of_vitals h rfl) h

theorem inv_closeOpen {how : Nat} {offset : Int} {life : Nat} (h : Inv s) : Inv (closeOpen s how offset life) := by
  unfold closeOpen
  extract_lets
  exact inv_raiseTask (inv_of_vitals h rfl)

theorem inv_setNextBoundary {n : Nat} (h : Inv s) : Inv { s with lid := { s.lid with nextBoundary := n } } :=
  inv_of_vitals h rfl

theorem inv_switchBanks {how : Nat} {offset : Int} (h : Inv s) : Inv (switchBanks s how offset) := by
  unfold switchBanks
  extract_lets now old s1 s2 s3
  have hs3 : Inv s3 := inv_openEpoch (inv_lifecycleApply (inv_settingsApply (inv_closeOpen h)))
  exact inv_setNextBoundary hs3

theorem inv_boundary {how : Nat} {offset : Int} (h : Inv s) : Inv (boundary s how offset) := by
  unfold boundary
  split
  · extract_lets s1 _ _ s2
    have hs1 : Inv s1 := inv_raiseEv h
    have hs2 : Inv s2 := inv_of_vitals hs1 rfl
    exact inv_lidEvent hs2
  · exact inv_switchBanks h

theorem inv_publishSeal {life seq : Nat} {body : List Byte} (h : Inv s) : Inv (publishSeal s life seq body) := by
  unfold publishSeal
  split
  next t e =>
    have ht : Inv t := inv_of_pair e (inv_signature h)
    extract_lets _ s1 s2
    have hs1 : Inv s1 := inv_of_vitals ht rfl
    have hs2 : Inv s2 := inv_rimLog hs1
    exact inv_lidEvent (inv_raiseEv hs2)

theorem inv_sealReadEnd (h : Inv s) : Inv (sealReadEnd s) := inv_of_vitals h rfl

theorem inv_sealLostEpoch {entry : LogEntry} (h : Inv s) : Inv (sealLostEpoch s entry) := by
  unfold sealLostEpoch
  extract_lets _ _ _ _ s1
  have hs1 : Inv s1 := inv_foldl h (fun _ _ hu => inv_gapLog hu)
  exact inv_publishSeal hs1

theorem inv_sealLost (h : Inv s) : Inv (sealLost s) := by
  unfold sealLost
  extract_lets _ s1
  have hs1 : Inv s1 := inv_foldl h (fun _ _ hu => inv_sealLostEpoch hu)
  exact inv_of_vitals hs1 rfl

theorem inv_openFirst (h : Inv s) : Inv (openFirst s) := by
  unfold openFirst
  extract_lets seq s1 lid s2 s3 m
  have hs1 : Inv s1 := inv_openEpoch (inv_settingsApply h)
  have hs2 : Inv s2 := inv_setNextBoundary hs1
  have hs3 : Inv s3 := inv_ite (inv_gapOpen hs2) hs2
  exact inv_ite hs3 (inv_gapOpen hs3)

theorem inv_dropFlight {id : Nat} {p : Nat → Bool} (h : Inv s) : Inv (dropFlight s id p) := inv_of_vitals h rfl

theorem inv_dropRefs {id n : Nat} (h : Inv s) : Inv (dropRefs id n s) := by
  induction n generalizing s with
  | zero => exact h
  | succ n ih => exact ih (inv_dropRef h)

theorem inv_discardCopies {id : Nat} {f : Frame} (h : Inv s) : Inv (discardCopies s id f) := by
  unfold discardCopies
  extract_lets _ _ s1 s2 _ _ s3
  have hs1 : Inv s1 := inv_dropFlight h
  have hs2 : Inv s2 := inv_modStore hs1
  have hs3 : Inv s3 := inv_of_vitals hs2 rfl
  exact inv_dropRefs hs3

theorem inv_drainDiscard {id : Nat} (h : Inv s) : Inv (drainDiscard s id) := by
  unfold drainDiscard
  refine inv_onFrame h (fun a => ?_)
  split
  · split
    · exact inv_discardCopies h
    · extract_lets s1 s2
      have hs1 : Inv s1 := by
        unfold s1
        split
        · exact inv_puntDropped h
        · exact h
      have hs2 : Inv s2 := inv_purgeFrame (inv_dropFlight hs1)
      exact inv_ite (inv_discardCrossed hs2) (inv_discardStored hs2)
  · split
    · exact inv_discardCopies h
    · extract_lets s1 s2
      have hs1 : Inv s1 := by
        unfold s1
        split
        · exact inv_puntDropped h
        · exact h
      have hs2 : Inv s2 := inv_purgeFrame (inv_dropFlight hs1)
      exact inv_ite (inv_discardCrossed hs2) (inv_discardStored hs2)
  · exact h
  · exact inv_discardHead h

theorem inv_flushLog (h : Inv s) : Inv (flushLog s) := inv_of_vitals h rfl

theorem inv_reset : Inv State.reset :=
  ⟨⟨by decide, by decide, by decide, by decide⟩, ⟨by decide, by decide, by decide⟩, by unfold FixedParts; decide,
    ⟨by decide, by decide⟩, ⟨by decide, by decide, by decide⟩⟩

/-- Secure OTP and the image slots outlive the reset of the rest. -/
theorem inv_deviceReset {kind minimal : Nat} (h : Inv s) : Inv (deviceReset s kind minimal) := by
  obtain ⟨-, counters, parts, frames, images⟩ := inv_reset
  obtain ⟨hlife, hroll, hsess, -⟩ := h.otp
  obtain ⟨-, -, -, -, -, -, -, -, -, -, hslots⟩ := h.parts
  obtain ⟨hdom, houts, hins, hhost, hready, hengines, hup, hcredits, hlearn, hboxes, -⟩ := parts
  exact ⟨⟨hlife, hroll, hsess, Nat.zero_le 2⟩, counters,
    ⟨hdom, houts, hins, hhost, hready, hengines, hup, hcredits, hlearn, hboxes, hslots⟩, frames, images⟩

theorem inv_finishTransition {t : Transition} (h : Inv s) : Inv (finishTransition s t) := inv_deviceReset (inv_flushLog h)

theorem inv_selfRefresh {b : Bool} (h : Inv s) : Inv (selfRefresh s b) := inv_foldl h (fun _ _ hu => inv_modStk hu)

theorem inv_retain {flag : Nat} (h : Inv s) : Inv (retain s flag) := by
  unfold retain
  extract_lets s1
  have hs1 : Inv s1 := inv_selfRefresh h
  exact inv_raiseEv (inv_of_vitals hs1 rfl)

theorem inv_wakeUp (h : Inv s) : Inv (wakeUp s) := by
  unfold wakeUp
  extract_lets s1 gens late power counters s2
  have hs1 : Inv s1 := inv_selfRefresh h
  clear_value s1 gens
  have hs2 : Inv s2 := inv_of_vitals hs1 rfl
  exact inv_ite hs2 (inv_bump (inv_raiseEv hs2))

theorem inv_standbyCloseDone (h : Inv s) : Inv (standbyCloseDone s) :=
  inv_ite h (inv_ite (inv_wakeUp (inv_raiseEv h)) (inv_retain h))

theorem inv_beginClose {t : Transition} (h : Inv s) : Inv (beginClose s t) := by
  unfold beginClose
  extract_lets _ s1
  have hs1 : Inv s1 := inv_of_vitals h rfl
  exact inv_ite (inv_of_vitals hs1 rfl) (inv_ite (inv_closeOpen hs1) (inv_finishTransition hs1))

theorem inv_attentionDone (h : Inv s) : Inv (attentionDone s) := by
  unfold attentionDone
  split
  · exact inv_ite (inv_beginClose h) h
  · exact h

end

end Sys2Proof.Machine
end

