-- ==== Sys2Proof/Proofs/InvariantCommands.lean ====
section
/-! SUPPORT. The invariant under commands, the scheduler and its engines, and the chain. -/

namespace Sys2Proof.Machine

section
variable {s : State}

/-! ### Commands -/

theorem inv_replyLost {hp : Nat} (h : Inv s) : Inv (replyLost s hp) := inv_cntDev h

theorem inv_hostReply {r : Reply} (h : Inv s) : Inv (hostReply s r) := inv_ite (inv_placeReply h) (inv_replyLost h)

theorem inv_answer {h : CmdHeader} {sent : Bool} {a : Answer} (hs : Inv s) : Inv (answer s h sent a) := by
  unfold answer
  extract_lets
  split
  · exact inv_emit hs
  · exact inv_hostReply hs

theorem inv_pumpRelay {n : Nat} (h : Inv s) : Inv (pumpRelay n s) := by
  induction n generalizing s with
  | zero => exact h
  | succ n ih =>
    unfold pumpRelay
    split
    · exact h
    · split
      · exact h
      · exact ih (inv_withChain (inv_emit h) (by simp [ChainState.vitals]))

theorem inv_pump (h : Inv s) : Inv (pump s) := inv_pumpRelay h

theorem inv_relayCommand {h : CmdHeader} {p : List Byte} (hs : Inv s) : Inv (relayCommand s h p) := by
  unfold relayCommand
  split
  · exact inv_answer hs
  · split
    · exact inv_answer hs
    · split
      · exact inv_answer hs
      · split
        · exact inv_answer hs
        · exact inv_pump (inv_withChain hs (fun _ => rfl))

theorem inv_passGroup {order : Nat} (h : Inv s) : Inv (passGroup s order) := by
  unfold passGroup
  split
  · exact h
  · split
    · exact h
    · exact inv_withSched h (fun _ => rfl)

theorem inv_handOver {n : Nat} (h : Inv s) : Inv (handOver n s) := by
  induction n generalizing s with
  | zero => exact h
  | succ n ih =>
    unfold handOver
    split
    · exact h
    · exact inv_ite (ih (inv_passGroup (inv_relayCommand (inv_withSched h fun _ => rfl)))) h

theorem inv_settle (h : Inv s) : Inv (settle s) := inv_settleReady (inv_handOver h)

theorem inv_completed {h : CmdHeader} {code : Nat} (hs : Inv s) : Inv (completed s h code) :=
  inv_attentionDone (inv_settle (inv_ite hs (inv_passGroup hs)))

theorem inv_runCommand {op : Nat} {hd : CmdHeader} {p : List Byte} {len : Nat} {fine : Bool}
    {body : Bool → State → Option Answer × State} (h : Inv s) (hbody : ∀ a u, Inv u → Inv (body a u).2) :
    Inv (runCommand s op hd p len fine body) := by
  unfold runCommand
  extract_lets on item aborted hd'
  refine inv_ite h (inv_ite h (inv_ite h (inv_ite (inv_ite (inv_relayCommand h) h) (inv_ite h ?_))))
  split
  next a t e =>
    have ht : Inv t := by
      refine inv_of_pair e ?_
      split
      · exact h
      · split
        · exact h
        · exact hbody _ s h
    split
    · exact ht
    · refine inv_ite (inv_completed (inv_answer ?_)) h
      rcases on with _ | e
      · exact ht
      · exact inv_engineEnd ht

theorem inv_runAtOnce {op : Nat} {h : CmdHeader} {p : List Byte} {len : Nat} {fine : Bool} {body : State → Answer × State}
    (hs : Inv s) (hbody : ∀ u1, Inv u1 → Inv (body u1).2) :
    Inv (runAtOnce s op h p len fine body) := inv_runCommand hs (fun _ _ hu => hbody _ hu)

/-! ### The scheduler -/

theorem inv_removeWaiting {i : Item} (h : Inv s) : Inv (removeWaiting s i) := inv_withSched h (by simp [SchedState.vitals])

theorem inv_abortWaiting {i : Item} (h : Inv s) : Inv (abortWaiting s i) := inv_completed (inv_answer (inv_removeWaiting h))

theorem inv_endRunning {e : Nat} {a : Answer} (h : Inv s) : Inv (endRunning s e a) := by
  unfold endRunning
  split
  · exact h
  · extract_lets s1
    have hs1 : Inv s1 := inv_engineEnd h
    exact inv_ite (inv_completed (inv_answer hs1)) (inv_attentionDone (inv_settle hs1))

theorem inv_markStopped {e : Nat} (h : Inv s) : Inv (markStopped s e) := inv_modEngine h

theorem inv_failItem {e cursor : Nat} (h : Inv s) : Inv (failItem s e cursor) := by
  unfold failItem
  split
  · exact h
  · exact inv_endRunning h

theorem inv_raiseAttention (h : Inv s) : Inv (raiseAttention s) := by
  unfold raiseAttention
  extract_lets waiting s1 s2 s3 s4
  have hs1 : Inv s1 := inv_raiseTask (inv_withSched h fun _ => rfl)
  have hs2 : Inv s2 := inv_foldl hs1 fun u i hu => inv_abortWaiting hu
  have hs3 : Inv s3 := inv_foldl hs2 fun u i hu => inv_ite (inv_cntDev (inv_removeWaiting hu)) (inv_removeWaiting hu)
  have hs4 : Inv s4 := by
    refine inv_foldl hs3 fun u e hu => ?_
    split
    · exact inv_ite (inv_markStopped hu) hu
    · exact hu
  exact inv_attentionDone hs4

theorem inv_startTransition {kind minimal : Nat} (h : Inv s) : Inv (startTransition s kind minimal) := by
  unfold startTransition
  split
  · exact h
  · extract_lets _ s1
    have hs1 : Inv s1 := inv_ite (inv_selfRefresh (inv_of_vitals h rfl)) h
    exact inv_raiseAttention (inv_of_vitals hs1 rfl)

theorem inv_burnChecked {t : State} {fails : Bool} (ht : Inv t) : Inv (burnChecked s t fails) :=
  inv_ite (inv_startTransition (inv_of_vitals ht rfl)) ht

theorem inv_receiveCommand {h : CmdHeader} {p : List Byte} (hs : Inv s) : Inv (receiveCommand s h p) := by
  unfold receiveCommand
  extract_lets
  exact inv_settle (inv_withSched hs (fun _ => rfl))

theorem inv_haltRing {hp ring cause : Nat} (h : Inv s) : Inv (haltRing s hp ring cause) := by
  unfold haltRing
  extract_lets g s1 s2 p q host s3
  have hs2 : Inv s2 := inv_raiseEv (inv_setRing h)
  have hs3 : Inv s3 := inv_of_vitals hs2 (by simp [s3, vitals])
  exact inv_postEvent hs3

theorem inv_passOver {src : Nat} (h : Inv s) : Inv (passOver s src) := inv_of_vitals h rfl

theorem inv_fetchRing {src : Nat} {bytes : List Byte} (h : Inv s) : Inv (fetchRing s src bytes) := by
  unfold fetchRing
  extract_lets _ _ _ _ _ _ _ _ _ s1
  have hs1 : Inv s1 := inv_emit (inv_setRing h)
  exact inv_ite (inv_haltRing h) (inv_ite (inv_haltRing h) (inv_ite h (inv_ite (inv_haltRing h) (inv_ite (inv_haltRing h)
    (inv_ite (inv_receiveCommand hs1) (inv_passOver h))))))

theorem inv_fetchChain (h : Inv s) : Inv (fetchChain s) := by
  unfold fetchChain
  split
  · exact h
  · split
    · extract_lets s1
      have hs1 : Inv s1 := inv_emit (inv_withChain h (fun _ => rfl))
      exact inv_receiveCommand hs1
    · exact inv_passOver h

theorem inv_commandFetch {bytes : List Byte} (h : Inv s) : Inv (commandFetch bytes s) := by
  unfold commandFetch
  split
  · exact h
  · split
    · exact h
    · extract_lets s1
      have hs1 : Inv s1 := inv_withSched h (fun _ => rfl)
      exact inv_ite (inv_fetchChain hs1) (inv_fetchRing hs1)

theorem vitals_noteWait (x : SchedState) (i : Item) (wait : Nat) : (noteWait x i wait).vitals = x.vitals := by
  unfold noteWait
  split
  · rfl
  · rfl

theorem inv_endsAtOnce {e : Nat} {i : Item} (h : Inv s) : Inv (endsAtOnce s e i) :=
  inv_ite (inv_endRunning h) (inv_ite (inv_attentionDone (inv_engineEnd h)) (inv_ite (inv_attentionDone (inv_engineEnd
    (inv_blockEvent h))) h))

theorem inv_itemDispatch (h : Inv s) : Inv (itemDispatch s) := by
  unfold itemDispatch
  refine inv_ite h ?_
  split
  · extract_lets moved s1 s2 s3
    have hs1 : Inv s1 := inv_withSched h (fun x => by rw [vitals_noteWait]; simp [SchedState.vitals])
    have hs2 : Inv s2 := inv_modEngine hs1
    have hs3 : Inv s3 := inv_ite (inv_cntDev (inv_engineTrace hs2)) hs2
    exact inv_endsAtOnce (inv_settle (inv_engineTrace hs3))
  · exact h

theorem inv_yieldItem {e cursor : Nat} {i : Item} (h : Inv s) : Inv (yieldItem s e cursor i) := by
  unfold yieldItem
  extract_lets s1
  have hs1 : Inv s1 := inv_cntDev (inv_engineTrace h)
  exact inv_modEngine (inv_withSched hs1 (by simp [SchedState.vitals]))

theorem inv_microFails {e cursor uaddr : Nat} (h : Inv s) : Inv (microFails s e cursor uaddr) :=
  inv_failItem (inv_logUe (inv_raiseEv h))

theorem inv_microGo {e uaddr cycles : Nat} (h : Inv s) : Inv (microGo s e uaddr cycles) := inv_modEngine h

theorem inv_microJump {e a target : Nat} {i : Item} (h : Inv s) : Inv (microJump s e a target i) :=
  inv_microGo (inv_engineTrace h)

theorem inv_microDo {e a w : Nat} {holds : Bool} {i : Item} (h : Inv s) : Inv (microDo s e a w holds i).1 := by
  unfold microDo
  extract_lets stack x
  split
  · split
    · exact inv_microJump h
    · exact inv_microGo h
  · split
    · exact h
    · exact inv_microJump (inv_modEngine h)
  · rcases hstack : stack with _ | ⟨r, rest⟩
    · exact inv_microJump (inv_drawFree h)
    · exact inv_microJump (inv_modEngine h)
  · exact inv_microGo h
  · exact inv_microGo h
  · exact h
  · exact h
  · exact h
  · exact inv_microGo h

theorem inv_microStep {e : Nat} {x : MicroWord} {i : Item} (h : Inv s) : Inv (microStep s e x i).1 := by
  unfold microStep
  extract_lets
  split
  · exact h
  · extract_lets s1 s2
    have hs1 : Inv s1 := inv_ite h (inv_engineTrace h)
    have hs2 : Inv s2 := inv_ite hs1 (inv_logUe hs1)
    split
    · exact hs2
    · exact inv_microDo hs2

theorem inv_microRun {e : Nat} {i : Item} {words : List MicroWord} (h : Inv s) : Inv (microRun s e i words).1 := by
  induction words generalizing s with
  | nil => exact h
  | cons x r ih =>
    have hx : Inv (microStep s e x i).1 := inv_microStep h
    unfold microRun
    split
    · next heq =>
      rw [heq] at hx
      exact ih hx
    · exact hx

theorem inv_boundaryChecks {e cursor : Nat} {error : Bool} {i : Item} (h : Inv s) :
    Inv (boundaryChecks s e cursor error i) := by
  unfold boundaryChecks
  extract_lets
  exact inv_ite (inv_ite (inv_markStopped h) (inv_endRunning h)) (inv_ite (inv_attentionDone (inv_engineEnd h)) (inv_ite
    (inv_markStopped h) (inv_ite (inv_endRunning h) (inv_ite (inv_failItem h) (inv_ite (inv_endRunning h) (inv_ite
    (inv_yieldItem h) h))))))

theorem inv_commandStepEnd {e cursor : Nat} {words : List MicroWord} {error : Bool} (h : Inv s) :
    Inv (commandStepEnd e cursor words error s) := by
  unfold commandStepEnd
  split
  · exact h
  · next i _ =>
    have hrun : Inv (microRun s e i words).1 := inv_microRun h
    split
    · next heq =>
      rw [heq] at hrun
      exact hrun
    · next heq =>
      rw [heq] at hrun
      exact inv_microFails hrun
    · next heq =>
      rw [heq] at hrun
      exact inv_boundaryChecks (inv_engineTrace (inv_modEngine hrun))

theorem inv_stepOverrun {e uaddr : Nat} (h : Inv s) : Inv (stepOverrun e uaddr s) := by
  unfold stepOverrun
  split
  · exact h
  · extract_lets s1
    have hs1 : Inv s1 := inv_modEngine h
    exact inv_logUe (inv_cntDev (inv_raiseEv hs1))

theorem inv_engHang {e uaddr cursor : Nat} (h : Inv s) : Inv (engHang e uaddr cursor s) := by
  unfold engHang
  split
  · exact h
  · extract_lets s1
    have hs1 : Inv s1 := inv_modEngine h
    exact inv_failItem (inv_logUe (inv_raiseEv hs1))

theorem inv_ageList {l : Nat} (h : Inv s) : Inv (ageList s l) := by
  unfold ageList
  extract_lets age
  split
  · extract_lets up
    exact inv_ite (inv_withSched h (by simp [up, SchedState.vitals])) h
  · exact h

theorem inv_armTimers (h : Inv s) : Inv (armTimers s) := by
  unfold armTimers
  refine inv_foldl h (fun u1 a1 hu => ?_)
  split
  · exact hu
  · exact inv_ite hu (inv_withSched hu (fun _ => rfl))

theorem inv_releaseTimer {t : Timer} (h : Inv s) : Inv (releaseTimer s t) :=
  inv_ite (inv_raiseTask h) (inv_ite (inv_raiseTask h) (inv_withSched h (fun _ => rfl)))

theorem inv_releaseTimers (h : Inv s) : Inv (releaseTimers s) := by
  unfold releaseTimers
  extract_lets _ _ _ s1 s2
  have hs1 : Inv s1 := inv_withSched h (fun _ => rfl)
  have hs2 : Inv s2 := inv_foldl hs1 (fun _ _ hu => inv_releaseTimer hu)
  exact inv_ite hs2 (inv_bump (inv_raiseEv hs2))

theorem inv_schedulerTick (h : Inv s) : Inv (schedulerTick s) := by
  unfold schedulerTick
  split
  · exact h
  · extract_lets s1 s2 s3 s4
    have hs1 : Inv s1 := inv_applyAll h
    have hs2 : Inv s2 := inv_withSched hs1 (fun _ => rfl)
    have hs3 : Inv s3 := inv_foldl hs2 (fun _ _ hu => inv_ageList hu)
    have hs4 : Inv s4 := inv_ite hs3 (inv_releaseTimers hs3)
    exact inv_attentionDone (inv_settle (inv_ite (inv_armTimers hs4) hs4))

theorem inv_statisticsWindowEnd (h : Inv s) : Inv (statisticsWindowEnd s) := by
  unfold statisticsWindowEnd
  extract_lets
  exact inv_ite h (inv_withSched h (by simp [SchedState.vitals]))

theorem inv_nop {h : CmdHeader} {p : List Byte} (hs : Inv s) : Inv (nop h p s) := inv_runAtOnce hs (fun _ hu => hu)

theorem inv_abortAll {h : CmdHeader} {p : List Byte} (hs : Inv s) : Inv (abortAll h p s).2 := by
  unfold abortAll
  extract_lets
  exact inv_foldl (inv_foldl hs (fun _ _ hu => inv_abortWaiting hu)) (fun _ _ hu => inv_markStopped hu)

theorem inv_abort {h : CmdHeader} {p : List Byte} (hs : Inv s) : Inv (abort h p s) := by
  unfold abort
  refine inv_runAtOnce hs (fun u hu => ?_)
  split
  next t e =>
    have ht : Inv t := inv_of_pair e (inv_abortAll hu)
    exact inv_ite_snd ht ht

theorem inv_devInfo {h : CmdHeader} {p : List Byte} (hs : Inv s) : Inv (devInfo h p s) := inv_runAtOnce hs (fun _ hu => hu)

/-! ### The chain -/

theorem inv_chainEvent {kind port peer tag : Nat} (h : Inv s) : Inv (chainEvent s kind port peer tag) := inv_postEvent h

theorem inv_chainEnum {h : CmdHeader} {p : List Byte} (hs : Inv s) : Inv (chainEnum h p s) := by
  unfold chainEnum
  refine inv_runCommand hs (fun a1 u1 hu => ?_)
  split
  · exact hu
  · split
    · exact hu
    · split
      · exact hu
      · split
        · dsimp only
          exact inv_withChain hu (fun _ => rfl)
        · extract_lets s1
          have hs1 : Inv s1 := inv_withChain hu (fun _ => rfl)
          exact inv_ite (inv_emit hs1) hs1

theorem inv_passToken {addr : Nat} (h : Inv s) : Inv (passToken s addr) := inv_ite (inv_emit h) h

theorem inv_chainToken {port value : Nat} (h : Inv s) : Inv (chainToken port value s) := by
  unfold chainToken
  split
  · exact h
  · split
    · exact inv_withChain h (fun _ => rfl)
    · split
      · exact inv_passToken h
      · exact inv_passToken (inv_withChain h (fun _ => rfl))

theorem inv_enumerationComplete {devices : Nat} {overflow : Bool} (h : Inv s) :
    Inv (enumerationComplete devices overflow s) := by
  unfold enumerationComplete
  split
  · exact h
  · extract_lets _ _ s1
    have hs1 : Inv s1 := inv_withChain h (fun _ => rfl)
    split
    · split
      · exact inv_endRunning hs1
      · exact inv_completed (inv_answer hs1)
    · exact h

theorem inv_forwardTo {r : Relayed} (h : Inv s) : Inv (forwardTo s r) := by
  unfold forwardTo
  extract_lets _ s1 s2
  have hs1 : Inv s1 := inv_emit h
  have hs2 : Inv s2 := inv_withChain hs1 (by simp [ChainState.vitals])
  exact inv_emit hs2

theorem inv_chainCommandRelay {port : Nat} {h : CmdHeader} {p : List Byte} (hs : Inv s) :
    Inv (chainCommandRelay port h p s) := by
  unfold chainCommandRelay
  split
  · exact hs
  · extract_lets
    exact inv_ite (inv_ite (inv_emit (inv_withChain hs (fun _ => rfl))) hs) (inv_ite (inv_forwardTo hs) (inv_ite
      (inv_withChain hs (fun _ => rfl)) hs))

theorem inv_chainCredit {port : Nat} (h : Inv s) : Inv (chainCredit port s) := by
  unfold chainCredit
  split
  · exact h
  · extract_lets s1
    have hs1 : Inv s1 := inv_withChain h (by simp [ChainState.vitals])
    split
    · exact inv_settle (inv_pump hs1)
    · split
      · exact hs1
      · exact inv_forwardTo (inv_withChain hs1 (fun _ => rfl))

theorem inv_answerRelayed {k : Nat} {a : Answer} {late : Bool} (h : Inv s) : Inv (answerRelayed s k a late) := by
  unfold answerRelayed
  split
  · exact h
  · split
    · extract_lets s1
      have hs1 : Inv s1 := inv_withChain h (fun _ => rfl)
      exact inv_settle (inv_pump (inv_answer hs1))
    · exact h

theorem inv_replyAtRoot {port dev fn tag opcode : Nat} {a : Answer} (h : Inv s) :
    Inv (replyAtRoot s port dev fn tag opcode a) := by
  unfold replyAtRoot
  split
  · exact inv_answerRelayed h
  · split
    · extract_lets s1
      have hs1 : Inv s1 := inv_withChain h (fun _ => rfl)
      exact inv_chainEvent (inv_raiseEv hs1)
    · exact h

theorem inv_chainReply {port dev fn tag opcode status partMask cursor : Nat} {data : List Byte} (h : Inv s) :
    Inv (chainReply port dev fn tag opcode status partMask cursor data s) :=
  inv_ite h (inv_ite (inv_replyAtRoot h) (inv_ite h (inv_emit h)))

theorem inv_chainAck {dev tag : Nat} (h : Inv s) : Inv (chainAck dev tag s) := by
  unfold chainAck
  split
  · exact h
  · split
    · exact h
    · exact inv_withChain h (fun _ => rfl)

theorem inv_chainAckTimeout {dev tag : Nat} (h : Inv s) : Inv (chainAckTimeout dev tag s) := by
  unfold chainAckTimeout
  split
  · exact h
  · exact inv_answerRelayed h

theorem inv_failPath {port n : Nat} (h : Inv s) : Inv (failPath port n s) := by
  induction n generalizing s with
  | zero => exact h
  | succ n ih =>
    unfold failPath
    split
    · exact h
    · exact inv_ite (ih (inv_chainEvent (inv_answerRelayed h))) (inv_answerRelayed h)

theorem inv_repath {n : Nat} (h : Inv s) : Inv (repath n s) := by
  induction n generalizing s with
  | zero => exact h
  | succ n ih =>
    unfold repath
    split
    · exact h
    · split
      · exact h
      · split
        · exact ih (inv_withChain h fun _ => rfl)
        · exact inv_ite (ih (inv_answerRelayed h)) (inv_answerRelayed h)

theorem inv_rootLinks {port : Nat} {up : Bool} {before : List (Option Nat)} (h : Inv s) :
    Inv (rootLinks s port up before) := by
  unfold rootLinks
  extract_lets _ s1 s2
  have hs1 : Inv s1 := inv_ite h (inv_raiseEv h)
  have hs2 : Inv s2 := inv_ite hs1 (inv_failPath hs1)
  exact inv_settle (inv_pump (inv_repath hs2))

theorem inv_setChainLink {port : Nat} {up : Bool} {peer : Nat} {lost : Bool} (h : Inv s) :
    Inv (setChainLink s port up peer lost) := by
  unfold setChainLink
  extract_lets _ s1 s2 _ s3 s4
  have hs1 : Inv s1 := inv_withChain h (by cases up <;> simp [ChainState.vitals])
  have hs2 : Inv s2 := inv_ite hs1 (inv_raiseEv hs1)
  have hs3 : Inv s3 := inv_ite (inv_chainEvent hs2) hs2
  have hs4 : Inv s4 := inv_ite (inv_chainEvent hs3) hs3
  exact inv_ite (inv_rootLinks hs4) (inv_pumpUp hs4)

theorem inv_chainLinkChange {port : Nat} {up : Bool} {peer : Nat} {lost : Bool} (h : Inv s) :
    Inv (chainLinkChange port up peer lost s) := inv_ite h (inv_setChainLink h)

theorem inv_writeChainCfg {ix : List Nat} {v : Nat} (h : Inv s) : Inv (writeChainCfg s ix v) := by
  unfold writeChainCfg
  extract_lets s1
  have hs1 : Inv s1 := inv_landWrite h
  exact inv_ite hs1 (inv_foldl hs1 (fun _ _ hu => inv_ite (inv_setChainLink hu) hu))

end

end Sys2Proof.Machine
end

