-- ==== Sys2Proof/Proofs/InvariantTimeAndLine.lean ====
section
/-! SUPPORT. The invariant under egress, the time block, the line, the policers and the clockwork. -/

namespace Sys2Proof.Machine

section
variable {s : State}

/-! ### Egress -/

theorem inv_pickDwrr {port n : Nat} (h : Inv s) : Inv (pickDwrr port n s).2 := by
  induction n generalizing s with
  | zero => exact h
  | succ n ih =>
    unfold pickDwrr
    extract_lets c q skip s1
    have hskip (u : State) (hu : Inv u) : Inv (skip u).2 := ih (inv_modEg (inv_modEq hu))
    split
    · exact hskip _ h
    · split
      · exact hskip _ (inv_modEq h)
      · split
        · exact hskip _ h
        · have hs1 : Inv s1 := inv_ite h (inv_modEq h)
          split
          · exact inv_modEq hs1
          · exact hskip _ hs1

theorem inv_pickClass {port : Nat} (h : Inv s) : Inv (pickClass s port).2 := by
  unfold pickClass
  split
  · exact h
  · exact inv_pickDwrr h

theorem inv_chargeShapers {port c len : Nat} (h : Inv s) : Inv (chargeShapers s port c len) := by
  unfold chargeShapers
  extract_lets _ s1
  have hs1 : Inv s1 := inv_ite (inv_setShq h) h
  exact inv_ite (inv_setShp hs1) hs1

theorem inv_startFrame {port c : Nat} (h : Inv s) : Inv (startFrame s port c) := by
  unfold startFrame
  split
  · exact h
  · extract_lets _ _ s1 s2 s3
    have hs1 : Inv s1 := inv_modEq (inv_chargeShapers h)
    have hs2 : Inv s2 := inv_modEg hs1
    have hs3 : Inv s3 := inv_ite (inv_modFrame (inv_timeEventPost hs2)) hs2
    exact inv_judgeHeads hs3

theorem inv_shaperUe {port k : Nat} (h : Inv s) : Inv (shaperUe s port k) := by
  unfold shaperUe
  extract_lets s1
  have hs1 : Inv s1 := inv_forceReg (inv_raiseEv h)
  exact inv_ite (inv_setShq hs1) (inv_setShp hs1)

theorem inv_egressPick {port : Nat} {ue : Option Nat} (h : Inv s) : Inv (egressPick port ue s) := by
  unfold egressPick
  extract_lets s1 s2
  have hs1 : Inv s1 := by
    unfold s1
    split
    · exact inv_shaperUe h
    · exact h
  have hs2 : Inv s2 := inv_foldl hs1 (fun _ _ hu => inv_judgeHeads hu)
  split
  · split
    · exact hs2
    · split
      · next t e =>
          have ht : Inv t := inv_of_pair e (inv_pickClass hs2)
          exact ht
      · next t e =>
          have ht : Inv t := inv_of_pair e (inv_pickClass hs2)
          exact inv_startFrame ht
  · exact hs1

theorem inv_frameSent {port : Nat} (h : Inv s) : Inv (frameSent port s) := by
  unfold frameSent
  split
  · exact h
  · extract_lets
    split
    · exact inv_modEg h
    · split
      · exact h
      · extract_lets _ _ _ s1 s2 s3
        have hs1 : Inv s1 := inv_modEg (inv_emit h)
        have hs2 : Inv s2 := inv_loopedBack (inv_creditBack hs1)
        have hs3 : Inv s3 := inv_learnAtEgress hs2
        exact inv_ite (inv_frameLeft (inv_cntPort hs2)) (inv_ite (inv_dropRef (inv_modFrame hs3)) (inv_frameLeft
          (inv_verdictGood hs3)))

/-! ### Egress registers -/

theorem inv_writeShaperCfg {r : RegName} {ix : List Nat} {v : Nat} (h : Inv s) : Inv (writeShaperCfg s r ix v) := by
  unfold writeShaperCfg
  extract_lets _ s1
  have hs1 : Inv s1 := inv_landWrite h
  exact inv_ite hs1 (inv_ite (inv_setShq hs1) (inv_setShp hs1))

theorem inv_writeShaperRate {r : RegName} {ix : List Nat} {v : Nat} (h : Inv s) :
    Inv (writeShaperRate s r ix v) := by
  unfold writeShaperRate
  split
  · extract_lets _ _ _ s1
    have hs1 : Inv s1 := inv_landWrite h
    exact inv_ite (inv_setShq hs1) hs1
  · extract_lets _ _ _ s1
    have hs1 : Inv s1 := inv_landWrite h
    exact inv_ite (inv_setShq hs1) hs1
  · extract_lets _ _ _ s1
    have hs1 : Inv s1 := inv_landWrite h
    exact inv_ite (inv_setShp hs1) hs1

theorem inv_writeOwnCfg {r : RegName} {ix : List Nat} {v : Nat} (h : Inv s) : Inv (writeOwnCfg s r ix v) := by
  unfold writeOwnCfg
  split
  · extract_lets
    exact inv_ite (inv_landWrite h) (inv_raiseEv h)
  · exact inv_landWrite h

theorem inv_writeCredit {r : RegName} {ix : List Nat} {v : Nat} (h : Inv s) : Inv (writeCredit s r ix v) := by
  unfold writeCredit
  extract_lets s1
  have hs1 : Inv s1 := inv_landWrite h
  exact inv_ite hs1 (inv_raiseEv h)

theorem inv_modGate {p : Nat} {f : GateState → GateState} (h : Inv s) : Inv (modGate s p f) := inv_of_vitals h rfl

theorem inv_egrRaise {p flag : Nat} (h : Inv s) : Inv (egrRaise s p flag) := inv_of_vitals h rfl

theorem inv_gateLost {p bank k : Nat} (h : Inv s) : Inv (gateLost s p bank k) := by
  unfold gateLost
  extract_lets s1
  have hs1 : Inv s1 := inv_modGate h
  exact inv_logUe (inv_egrRaise hs1)

theorem inv_gateEntryChange {p : Nat} {ue : Bool} (h : Inv s) : Inv (gateEntryChange p ue s) := by
  unfold gateEntryChange
  extract_lets s1
  have hs1 : Inv s1 := inv_modGate h
  exact inv_ite (inv_gateLost hs1) hs1

theorem inv_writeGclInd {ix : List Nat} {v : Nat} {ecc : Ecc} (h : Inv s) : Inv (writeGclInd s ix v ecc) := by
  unfold writeGclInd
  extract_lets s1 _ _ _ _ _ s2 _ s3 _ s4 s5
  have hs1 : Inv s1 := inv_landWrite h
  have hs2 : Inv s2 := inv_modGate hs1
  have hs3 : Inv s3 := inv_ite (inv_gateLost hs1) hs1
  have hs4 : Inv s4 := inv_forceReg (inv_forceReg hs3)
  have hs5 : Inv s5 := inv_ite (inv_ite (inv_forceFld hs1) (inv_forceFld hs2)) (inv_forceFld hs4)
  exact inv_ite (inv_ite (inv_forceFld hs5) hs5) hs1

theorem inv_writeGclAdmin {ix : List Nat} {v : Nat} (h : Inv s) : Inv (writeGclAdmin s ix v) := by
  unfold writeGclAdmin
  extract_lets _ s1 _ _ _ s2
  have hs1 : Inv s1 := inv_landWrite h
  have hs2 : Inv s2 := inv_modGate hs1
  exact inv_ite (inv_ite (inv_egrRaise (inv_applyReg (inv_applyReg hs2))) hs2) (inv_applyReg (inv_modGate hs1))

theorem inv_gclBaseReached {ix : List Nat} (h : Inv s) : Inv (gclBaseReached s ix) := by
  unfold gclBaseReached
  extract_lets
  split
  · exact h
  · split
    · extract_lets s1
      have hs1 : Inv s1 := inv_modGate h
      exact inv_applyReg (inv_applyReg hs1)
    · exact h

theorem inv_gclTakeover {p : Nat} (h : Inv s) : Inv (gclTakeover p s) := by
  unfold gclTakeover
  split
  · exact h
  · extract_lets _ _ s1 s2
    have hs1 : Inv s1 := inv_modGate h
    have hs2 : Inv s2 := inv_egrRaise hs1
    exact inv_ite (inv_ite (inv_modGate h) (inv_foldl hs2 (fun _ _ hu => inv_judgeHeads hu))) h

/-! ### The time block -/

theorem inv_modDomain {d : Nat} {f : Domain → Domain} (h : Inv s) : Inv (modDomain s d f) :=
  inv_withTime h (by simp [TimeState.vitals])

theorem inv_logTimeOp {op d : Nat} {req : Requester} {operands : List Byte} (h : Inv s) :
    Inv (logTimeOp s op d req operands) := inv_rimLog h

theorem inv_converged {before : Int} (h : Inv s) : Inv (converged before s) := inv_ite (inv_timeEventPost (inv_raiseEv h)) h

theorem inv_tdResult {d r : Nat} (h : Inv s) : Inv (tdResult s d r) := inv_of_vitals h rfl

theorem inv_tdSet {req : Requester} {d : Nat} (h : Inv s) : Inv (tdSet s req d) := by
  unfold tdSet
  extract_lets _ _ _ _ _ s1
  have hs1 : Inv s1 := inv_converged (inv_modDomain h)
  exact inv_ite (inv_tdResult h) (inv_tdResult (inv_logTimeOp hs1))

theorem inv_tdAdjust {req : Requester} {d : Nat} (h : Inv s) : Inv (tdAdjust s req d) := by
  unfold tdAdjust
  extract_lets _ _ s1
  have hs1 : Inv s1 := inv_converged (inv_modDomain h)
  exact inv_tdResult (inv_logTimeOp hs1)

theorem inv_tdRate {req : Requester} {d : Nat} (h : Inv s) : Inv (tdRate s req d) := by
  unfold tdRate
  extract_lets _ _ s1
  have hs1 : Inv s1 := inv_modDomain h
  exact inv_ite (inv_tdResult (inv_raiseEv h)) (inv_tdResult (inv_logTimeOp hs1))

theorem inv_writeTdCtl {req : Requester} {ix : List Nat} {v : Nat} (h : Inv s) : Inv (writeTdCtl s req ix v) := by
  unfold writeTdCtl
  extract_lets _ s1
  have hs1 : Inv s1 := inv_landWrite h
  split
  · split
    · exact inv_tdSet hs1
    · exact inv_tdAdjust hs1
    · exact inv_tdRate hs1
    · exact inv_tdResult hs1
  · exact hs1

theorem inv_tdOp {op : Nat} {req : Requester} {off v : Nat} (h : Inv s) : Inv (tdOp op req off v s) :=
  inv_guarded h (fun _ _ _ hu => inv_ite (inv_writeTdCtl hu) hu)

theorem inv_servedBecomesSet (h : Inv s) : Inv (servedBecomesSet s) := by
  unfold servedBecomesSet
  extract_lets s1
  have hs1 : Inv s1 := inv_withTime h (fun _ => rfl)
  exact inv_timeEventPost hs1

theorem inv_setByLink (h : Inv s) : Inv (setByLink s) := inv_ite h (inv_servedBecomesSet h)

theorem inv_modPin {p : Nat} {f : TimeOutPin → TimeOutPin} (h : Inv s) : Inv (modPin s p f) :=
  inv_withTime h (by simp [TimeState.vitals])

theorem inv_drivePin {p : Nat} {high : Bool} (h : Inv s) : Inv (drivePin s p high) := inv_ite h (inv_emit (inv_modPin h))

theorem inv_pulseApply {p : Nat} {c : Pulse} {late : Bool} (h : Inv s) : Inv (pulseApply s p c late) := by
  unfold pulseApply
  extract_lets s1 _ s2
  have hs1 : Inv s1 := inv_applyReg (inv_applyReg (inv_applyReg h))
  have hs2 : Inv s2 := inv_modPin hs1
  exact inv_ite (inv_ite (inv_drivePin hs2) hs2) (inv_drivePin (inv_modPin hs1))

theorem inv_servedStepped (h : Inv s) : Inv (servedStepped s) := by
  unfold servedStepped
  extract_lets now up lid s1 s2
  have hs1 : Inv s1 := inv_ite (inv_setNextBoundary h) h
  have hs2 : Inv s2 := by
    refine inv_foldl hs1 fun u p hu => ?_
    extract_lets u1
    have hu1 : Inv u1 := by
      unfold u1
      split
      · exact inv_ite (inv_modPin hu) hu
      · exact hu
    split
    · exact inv_ite (inv_pulseApply hu1) hu1
    · exact hu1
  refine inv_foldl hs2 fun u p hu => ?_
  split
  · exact inv_ite (inv_gclBaseReached (inv_modGate hu)) hu
  · exact hu

theorem inv_servedSet {req : Requester} (h : Inv s) : Inv (servedSet s req) := by
  unfold servedSet
  extract_lets s1 s2
  have hs1 : Inv s1 := inv_withTime h (fun _ => rfl)
  have hs2 : Inv s2 := inv_logTimeOp hs1
  exact inv_servedStepped (inv_servedBecomesSet hs2)

theorem inv_writeTimeCtl {req : Requester} {v : Nat} (h : Inv s) : Inv (writeTimeCtl s req v) := by
  unfold writeTimeCtl
  split
  · exact inv_raiseEv h
  · extract_lets s1 s2
    have hs1 : Inv s1 := inv_landWrite h
    have hs2 : Inv s2 := inv_ite hs1 (inv_converged (inv_logTimeOp hs1))
    exact inv_ite (inv_servedSet hs2) hs2

theorem inv_serveStep (h : Inv s) : Inv (serveStep s) := by
  unfold serveStep
  extract_lets _ s1 _ _ s2
  have hs1 : Inv s1 := inv_withTime h (fun _ => rfl)
  have hs2 : Inv s2 := inv_withTime hs1 (fun _ => rfl)
  exact inv_ite (inv_converged hs2) (inv_withTime hs1 (fun _ => rfl))

theorem inv_writeToutCtl {ix : List Nat} {v : Nat} (h : Inv s) : Inv (writeToutCtl s ix v) := by
  unfold writeToutCtl
  extract_lets _ s1
  have hs1 : Inv s1 := inv_landWrite h
  exact inv_ite (inv_ite (inv_pulseApply (inv_raiseEv hs1)) (inv_modPin hs1)) (inv_modPin hs1)

theorem inv_timeOutEdge {p : Nat} (h : Inv s) : Inv (timeOutEdge p s) := by
  unfold timeOutEdge
  extract_lets
  split
  · exact inv_drivePin (inv_modPin h)
  · split
    · exact h
    · split
      · extract_lets _ s1
        have hs1 : Inv s1 := inv_modPin h
        exact inv_drivePin hs1
      · exact h

theorem inv_atTimeApply {off : Nat} (h : Inv s) : Inv (atTimeApply off s) := by
  unfold atTimeApply
  split
  · split
    · exact inv_ite (inv_pulseApply h) h
    · exact h
  · exact inv_gclBaseReached h
  · exact h

theorem inv_modIn {p : Nat} {f : TimeInPin → TimeInPin} (h : Inv s) : Inv (modIn s p f) :=
  inv_withTime h (by simp [TimeState.vitals])

theorem inv_timeInEdge {p : Nat} {rising : Bool} (h : Inv s) : Inv (timeInEdge p rising s) := by
  unfold timeInEdge
  split
  · exact h
  · extract_lets
    exact inv_ite (inv_timeEventPost h) (inv_ite (inv_modIn h) (inv_raiseEv (inv_modIn h)))

theorem inv_writeTinPop {ix : List Nat} {v : Nat} (h : Inv s) : Inv (writeTinPop s ix v) := inv_ite (inv_modIn h) h

theorem inv_writeSnapCtl {v : Nat} (h : Inv s) : Inv (writeSnapCtl s v) := by
  unfold writeSnapCtl
  split
  · extract_lets
    exact inv_withTime h (fun _ => rfl)
  · exact h

/-! ### Lanes and ports -/

theorem inv_lineRaise {p flag : Nat} (h : Inv s) : Inv (lineRaise s p flag) := inv_of_vitals h rfl

theorem inv_linkEvent {kind p cause : Nat} (h : Inv s) : Inv (linkEvent s kind p cause) := by
  unfold linkEvent
  extract_lets
  exact inv_postEvent h

theorem inv_laneRetrain {l : Nat} (h : Inv s) : Inv (laneRetrain s l) := by
  unfold laneRetrain
  extract_lets _ s1
  have hs1 : Inv s1 := inv_applyReg (inv_applyReg (inv_applyReg h))
  exact inv_ite hs1 (inv_modLane hs1)

theorem inv_laneStart {attempt : Nat} {train : Bool} {l : Nat} (h : Inv s) : Inv (laneStart s attempt train l) := by
  unfold laneStart
  extract_lets s1 _ _ _ _ s2 s3 s4
  have hs1 : Inv s1 := inv_laneRetrain h
  have hs2 : Inv s2 := inv_modLane hs1
  have hs3 : Inv s3 := inv_of_vitals hs2 rfl
  have hs4 : Inv s4 := inv_ite hs3 (inv_emit hs3)
  exact inv_ite hs3 (inv_emit hs4)

theorem inv_attemptStart {p : Nat} (h : Inv s) : Inv (attemptStart s p) := by
  unfold attemptStart
  extract_lets s1 s2 s3
  have hs1 : Inv s1 := inv_applyReg (inv_applyReg h)
  have hs2 : Inv s2 := inv_modPort hs1
  have hs3 : Inv s3 := inv_ite (inv_emit hs2) hs2
  exact inv_foldl hs3 (fun _ _ hu => inv_laneStart hu)

theorem inv_runStart {p : Nat} (h : Inv s) : Inv (runStart s p) := by
  unfold runStart
  extract_lets s1 s2 s3
  have hs1 : Inv s1 := inv_ite (inv_fillShapers h) h
  have hs2 : Inv s2 := inv_modPort hs1
  have hs3 : Inv s3 := inv_foldl hs2 (fun _ _ hu => inv_modLane hu)
  exact inv_attemptStart hs3

theorem inv_receiveStops {p : Nat} (h : Inv s) : Inv (receiveStops s p) := inv_foldl h (fun _ _ hu => inv_abortReceive hu)

theorem inv_leaveLpi {p : Nat} (h : Inv s) : Inv (leaveLpi s p) := by
  unfold leaveLpi
  extract_lets s1
  have hs1 : Inv s1 := inv_foldl h (fun _ _ hu => inv_modLane hu)
  exact inv_modPort hs1

theorem inv_failPort {p cause : Nat} (h : Inv s) : Inv (failPort s p cause) := by
  unfold failPort
  extract_lets _ s1 s2
  have hs1 : Inv s1 := inv_ite (inv_receiveStops h) h
  have hs2 : Inv s2 := inv_leaveLpi (inv_modPort hs1)
  exact inv_closeDiscard hs2

theorem inv_dropPort {p cause : Nat} (h : Inv s) : Inv (dropPort s p cause) := by
  unfold dropPort
  split
  · exact h
  · extract_lets s1 s2 s3
    have hs1 : Inv s1 := inv_leaveLpi (inv_cutSending (inv_receiveStops h))
    have hs2 : Inv s2 := inv_modPort hs1
    have hs3 : Inv s3 := inv_linkEvent (inv_lineRaise hs2)
    exact inv_runStart hs3

theorem inv_enablePort {p : Nat} (h : Inv s) : Inv (enablePort s p) := inv_ite (inv_modPort h) (inv_ite (inv_runStart h) h)

theorem inv_writePortCtl {ix : List Nat} {v : Nat} (h : Inv s) : Inv (writePortCtl s ix v) := by
  unfold writePortCtl
  extract_lets _ _ s1 s2 s3 s4
  have hs1 : Inv s1 := inv_landWrite h
  have hs2 : Inv s2 := inv_modPort hs1
  have hs3 : Inv s3 := inv_ite (inv_enablePort hs1) (inv_ite (inv_ite (inv_modPort hs2) (inv_failPort hs2)) hs1)
  have hs4 : Inv s4 := inv_ite (inv_runStart hs3) hs3
  exact inv_ite hs1 (inv_ite (inv_dropPort hs4) hs4)

theorem inv_nextAttempt {p : Nat} (h : Inv s) : Inv (nextAttempt p s) := by
  unfold nextAttempt
  extract_lets
  exact inv_ite (inv_attemptStart h) h

theorem inv_answerRequests {l : Nat} {rs : List TrainRequest} (h : Inv s) : Inv (answerRequests s l rs) := by
  unfold answerRequests
  refine inv_foldl h (fun u1 a1 hu => ?_)
  extract_lets s1
  have hs1 : Inv s1 := inv_emit hu
  split
  · exact inv_ite (inv_modLane hs1) hs1
  · exact hs1

theorem inv_measureLane {l attempt : Nat} {train : Bool} {r : LaneResult} (h : Inv s) :
    Inv (measureLane s l attempt train r) := by
  unfold measureLane
  extract_lets s1
  have hs1 : Inv s1 := inv_ite (inv_answerRequests h) h
  exact inv_modLane hs1

theorem inv_measure {p : Nat} {rs : List LaneResult} (h : Inv s) : Inv (measure s p rs) :=
  inv_foldl h (fun _ _ hu => inv_measureLane hu)

theorem inv_attemptFails {p : Nat} {anFail : Bool} (h : Inv s) : Inv (attemptFails s p anFail) := by
  unfold attemptFails
  extract_lets s1
  have hs1 : Inv s1 := inv_ite (inv_modPort h) h
  exact inv_ite (inv_linkEvent (inv_lineRaise (inv_failPort hs1))) (inv_modPort hs1)

theorem inv_portComesUp {p : Nat} (h : Inv s) : Inv (portComesUp s p) := by
  unfold portComesUp
  extract_lets s1 s2
  have hs1 : Inv s1 := inv_modPort h
  have hs2 : Inv s2 := inv_foldl hs1 (fun _ _ hu => inv_modLane hu)
  exact inv_setByLink (inv_linkEvent (inv_lineRaise hs2))

theorem inv_attemptEnd {p : Nat} {an : List (Nat × Nat)} {lt locked : Bool} {rs : List LaneResult} (h : Inv s) :
    Inv (attemptEnd p an lt locked rs s) := by
  unfold attemptEnd
  split
  · exact h
  · extract_lets s1
    have hs1 : Inv s1 := inv_measure h
    exact inv_ite (inv_portComesUp hs1) (inv_attemptFails hs1)

theorem inv_attemptTimeout {p : Nat} {an : List (Nat × Nat)} {rs : List LaneResult} (h : Inv s) :
    Inv (attemptTimeout p an rs s) := inv_ite (inv_attemptFails (inv_measure h)) h

theorem inv_linkDrop {p cause : Nat} (h : Inv s) : Inv (linkDrop p cause s) := by
  unfold linkDrop
  split
  · extract_lets s1
    have hs1 : Inv s1 := inv_ite (inv_foldl h (fun _ _ hu => inv_modLane hu)) h
    exact inv_dropPort hs1
  · exact h

theorem inv_fecIntervalEnd {p corr uncorr : Nat} {sym : List Nat} (h : Inv s) :
    Inv (fecIntervalEnd p corr uncorr sym s) := by
  unfold fecIntervalEnd
  split
  · exact h
  · extract_lets s1 s2 _ s3
    have hs1 : Inv s1 := inv_bump (inv_bump h)
    have hs2 : Inv s2 := inv_foldl hs1 (fun _ _ hu => inv_bump hu)
    have hs3 : Inv s3 := inv_modPort hs2
    exact inv_ite (inv_dropPort hs3) hs3

theorem inv_fomMeasure {l : Nat} {snr : Int} {taps : Table Nat} (h : Inv s) : Inv (fomMeasure l snr taps s) :=
  inv_ite (inv_modLane h) h

theorem inv_setTxLpi {p : Nat} {b : Bool} (h : Inv s) : Inv (setTxLpi s p b) := inv_foldl h (fun _ _ hu => inv_modLane hu)

theorem inv_lpiTick {p : Nat} (h : Inv s) : Inv (lpiTick s p) := by
  unfold lpiTick
  split
  · exact h
  · extract_lets _ s1
    have hs1 : Inv s1 := inv_ite (inv_modPort h) h
    exact inv_ite (inv_modPort (inv_setTxLpi hs1)) hs1

theorem inv_lpiEnter {p : Nat} (h : Inv s) : Inv (lpiEnter p s) := by
  unfold lpiEnter
  extract_lets
  exact inv_ite (inv_setTxLpi h) h

theorem inv_lpiWake {p : Nat} (h : Inv s) : Inv (lpiWake p s) := by
  unfold lpiWake
  extract_lets
  split
  · exact inv_ite (inv_modPort h) h
  · exact h

theorem inv_rxLpi {p : Nat} {b : Bool} (h : Inv s) : Inv (rxLpi p b s) := inv_ite (inv_foldl h (fun _ _ hu => inv_modLane hu)) h

theorem inv_takeMode {m mode : Nat} (h : Inv s) : Inv (takeMode s m mode) := by
  unfold takeMode
  extract_lets _ s1 s2 s3 s4
  have hs1 : Inv s1 := inv_landWrite h
  have hs2 : Inv s2 := by
    unfold s2
    refine inv_foldl hs1 (fun u1 a1 hu => ?_)
    extract_lets s5
    have hs5 : Inv s5 := inv_modPort hu
    exact inv_ite (inv_modLane hs5) hs5
  have hs3 : Inv s3 := inv_foldl hs2 (fun _ _ hu => inv_ite (inv_lineRaise hu) hu)
  have hs4 : Inv s4 := inv_linkEvent hs3
  exact inv_foldl hs4 (fun _ _ hu => inv_ite (inv_enablePort hu) hu)

theorem inv_writeMacroMode {ix : List Nat} {v : Nat} (h : Inv s) : Inv (writeMacroMode s ix v) := by
  unfold writeMacroMode
  extract_lets _ _ _ s1
  have hs1 : Inv s1 := inv_setCell h
  exact inv_ite (inv_lineRaise h) (inv_ite (inv_takeMode h) (inv_of_vitals hs1 rfl))

theorem inv_writeLaneCfg {req : Requester} {ix : List Nat} {v : Nat} (h : Inv s) :
    Inv (writeLaneCfg s req ix v) := by
  unfold writeLaneCfg
  extract_lets _ _ _ _ s1 s2 s3
  have hs1 : Inv s1 := inv_landWrite h
  have hs2 : Inv s2 := inv_rimLog hs1
  have hs3 : Inv s3 := inv_ite (inv_lineRaise hs2) hs2
  exact inv_ite hs1 (inv_ite hs3 (inv_dropPort hs3))

theorem inv_settlePrbs {l : Nat} (h : Inv s) : Inv (settlePrbs s l) := inv_of_vitals h rfl

theorem inv_leaveTest {l : Nat} (h : Inv s) : Inv (leaveTest s l) := by
  unfold leaveTest
  extract_lets s1 _ _ s2
  have hs1 : Inv s1 := inv_modLane (inv_settlePrbs h)
  have hs2 : Inv s2 := inv_modPort hs1
  exact inv_ite hs1 (inv_ite (inv_enablePort hs2) hs2)

theorem inv_injectBit {l : Nat} (h : Inv s) : Inv (injectBit s l) := inv_of_vitals h rfl

theorem inv_checkerStops {l : Nat} (h : Inv s) : Inv (checkerStops s l) := inv_ite (inv_modLane (inv_settlePrbs h)) h

theorem inv_writeLaneTest {ix : List Nat} {v : Nat} (h : Inv s) : Inv (writeLaneTest s ix v) := by
  unfold writeLaneTest
  extract_lets _ _ _ _ _ s1 s2 s3 s4 s5
  have hs1 : Inv s1 := inv_landWrite h
  have hs2 : Inv s2 := inv_ite (inv_lineRaise hs1) (inv_ite (inv_modPort (inv_modLane hs1)) (inv_ite (inv_leaveTest hs1) hs1))
  have hs3 : Inv s3 := inv_ite (inv_modLane hs2) hs2
  have hs4 : Inv s4 := inv_ite hs3 (inv_checkerStops hs3)
  have hs5 : Inv s5 := inv_ite hs4 (inv_modLane hs4)
  exact inv_ite (inv_injectBit hs5) hs5

theorem inv_prbsLock {l : Nat} {symbols : List Nat} (h : Inv s) : Inv (prbsLock l symbols s) := by
  unfold prbsLock
  extract_lets
  exact inv_ite (inv_modLane h) h

theorem inv_prbsLostLock {l errors : Nat} (h : Inv s) : Inv (prbsLostLock l errors s) := by
  unfold prbsLostLock
  split
  · extract_lets s1
    have hs1 : Inv s1 := inv_modLane h
    exact inv_ite hs1 (inv_modLane (inv_settlePrbs hs1))
  · exact h

theorem inv_periodicInjection {l : Nat} (h : Inv s) : Inv (periodicInjection l s) := inv_ite (inv_modLane (inv_injectBit h)) h

theorem inv_writeLaneInd {ix : List Nat} {v : Nat} (h : Inv s) : Inv (writeLaneInd s ix v) := by
  unfold writeLaneInd
  extract_lets l s1 a target i trains w s2
  have hs1 : Inv s1 := inv_landWrite h
  have hs2 : Inv s2 := by
    refine inv_ite (inv_forceFld hs1) (inv_ite (inv_ite (inv_forceFld hs1) (inv_ite (inv_forceFld hs1)
      (inv_forceFld (inv_modLane hs1)))) ?_)
    split
    next row u e =>
      have hu : Inv u := by
        refine inv_of_pair e ?_
        split
        · exact inv_drawFree hs1
        · exact hs1
      exact inv_forceFld (inv_forceReg hu)
  exact inv_ite hs1 (inv_ite (inv_forceFld hs2) hs2)

/-! ### Policers -/

theorem inv_setPol {p : Nat} {x : Policer} (h : Inv s) : Inv (setPol s p x) := inv_of_vitals h rfl

theorem inv_policerPass {id : Nat} {dscp : Option Nat} (h : Inv s) : Inv (policerPass s id dscp) := inv_modFrame h

theorem inv_policerDrop {id : Nat} (h : Inv s) : Inv (policerDrop s id) := inv_discardHead (inv_cntDev h)

theorem inv_colourAct {id p : Nat} {x : Policer} {c : Colour} (h : Inv s) : Inv (colourAct s id p x c) := by
  unfold colourAct
  split
  · exact inv_policerPass (inv_cntDev (inv_setPol h))
  · extract_lets s1
    have hs1 : Inv s1 := inv_cntDev (inv_setPol h)
    split
    · exact inv_policerPass hs1
    · exact inv_policerPass hs1
    · exact inv_policerDrop hs1
  · extract_lets s1
    have hs1 : Inv s1 := inv_cntDev (inv_setPol h)
    split
    · exact inv_policerPass hs1
    · exact inv_policerPass hs1
    · exact inv_policerDrop hs1

theorem inv_policerLost {p : Nat} (h : Inv s) : Inv (policerLost s p) := by
  unfold policerLost
  extract_lets _ s1 s2
  have hs1 : Inv s1 := inv_setPol h
  have hs2 : Inv s2 := inv_forceReg (inv_raiseEv hs1)
  exact inv_logUe hs2

theorem inv_polTake {id : Nat} {f : Frame} (h : Inv s) : Inv (polTake s id f) := inv_of_vitals h rfl

theorem inv_policerMeter {id : Nat} {ue : Bool} (h : Inv s) : Inv (policerMeter id ue s) := by
  unfold policerMeter
  refine inv_onFrame h (fun a => ?_)
  split
  · extract_lets _ s1 s2
    have hs1 : Inv s1 := inv_polTake h
    have hs2 : Inv s2 := inv_ite (inv_policerLost hs1) hs1
    exact inv_ite (inv_colourAct hs2) (inv_policerPass (inv_cntDev hs2))
  · exact h

theorem inv_writePolInd {v : Nat} {ecc : Ecc} (h : Inv s) : Inv (writePolInd s v ecc) := by
  unfold writePolInd
  extract_lets s1 _ _ s2 _ _ _ s3 s4
  have hs1 : Inv s1 := inv_landWrite h
  have hs2 : Inv s2 := inv_ite (inv_policerLost hs1) hs1
  have hs3 : Inv s3 := inv_foldl hs2 (fun _ _ hu => inv_forceReg hu)
  have hs4 : Inv s4 := inv_ite (inv_ite (inv_forceFld hs1) (inv_forceFld (inv_setPol hs1))) (inv_forceFld hs3)
  exact inv_ite (inv_ite (inv_forceFld hs4) hs4) hs1

/-! ### The clockwork -/

theorem inv_slotTick {sl cc : Nat} (h : Inv s) : Inv (slotTick s sl cc) := by
  unfold slotTick
  extract_lets _ _ s1
  have hs1 : Inv s1 := inv_bump (inv_modSlice h)
  split
  · exact inv_bump hs1
  · split
    · exact inv_bump (inv_bump hs1)
    · exact inv_ite (inv_bump (inv_bump hs1)) (inv_bump hs1)

theorem inv_schedTickLoad {cc : Nat} (h : Inv s) : Inv (schedTickLoad s cc) := by
  unfold schedTickLoad
  extract_lets s1 s2
  have hs1 : Inv s1 := inv_withSched h (by simp [SchedState.vitals])
  have hs2 : Inv s2 := inv_ite (inv_bump hs1) hs1
  exact inv_ite (inv_bump hs2) hs2

theorem inv_serveTick (h : Inv s) : Inv (serveTick s) := by
  unfold serveTick
  split
  · exact h
  · extract_lets _ s1 s2 s3
    have hs1 : Inv s1 := inv_serveStep h
    have hs2 : Inv s2 := inv_growFrames hs1
    have hs3 : Inv s3 := inv_ite (inv_foldl (inv_schedTickLoad (inv_foldl hs2 (fun _ _ hu => inv_slotTick hu)))
      (fun _ _ hu => inv_lpiTick hu)) hs1
    exact inv_flushAccess hs3

end

end Sys2Proof.Machine
end

