-- ==== Sys2Proof/Proofs/InvariantRules.lean ====
section
/-! SUPPORT. The invariant under the close of an epoch and the commands on rules, stations and tables. -/

namespace Sys2Proof.Machine

section
variable {s : State}

/-! ### The close of an epoch -/

theorem inv_epochBoundary (h : Inv s) : Inv (epochBoundary s) := inv_ite (inv_boundary h) h

theorem inv_epochSyncPulse (h : Inv s) : Inv (epochSyncPulse s) := by
  unfold epochSyncPulse
  extract_lets _ _ _ _ s1 _ s2 s3 s4
  have hs1 : Inv s1 := inv_forceReg h
  have hs2 : Inv s2 := inv_ite (inv_of_vitals hs1 rfl) hs1
  have hs3 : Inv s3 := inv_raiseEv hs2
  have hs4 : Inv s4 := inv_rimLog hs3
  exact inv_ite (inv_switchBanks hs2) (inv_lidEvent hs4)

theorem inv_syncTimeout (h : Inv s) : Inv (syncTimeout s) := by
  unfold syncTimeout
  extract_lets
  exact inv_ite (inv_boundary h) h

theorem inv_setClosing {c : Closing} (h : Inv s) : Inv (setClosing s c) := inv_of_vitals h rfl

theorem inv_drainComplete (h : Inv s) : Inv (drainComplete s) := by
  unfold drainComplete
  split
  · exact h
  · exact inv_ite (inv_setClosing h) h

theorem inv_drainLimit (h : Inv s) : Inv (drainLimit s) := by
  unfold drainLimit
  split
  · exact h
  · split
    · exact h
    · extract_lets
      exact inv_ite h (inv_gapClosing (inv_foldl h (fun _ _ hu => inv_drainDiscard hu)))

theorem inv_sweepClosed {zones : List Nat} {idx bank : Nat} (h : Inv s) : Inv (sweepClosed zones s idx bank) := by
  unfold sweepClosed
  extract_lets s1 _ _ s2 s3
  have hs1 : Inv s1 := inv_settleBursts h
  have hs2 : Inv s2 := inv_ite hs1 (inv_zoneMove (inv_zoneRead hs1))
  have hs3 : Inv s3 := by
    unfold s3
    split
    · exact inv_putHot hs2
    · split
      · exact inv_putWriteBack hs2
      · exact hs2
  exact inv_ite hs3 (inv_modCold hs3)

theorem inv_closeSweepBucket {ue : List Nat} {tag : Bool} {zones : List Nat} (h : Inv s) :
    Inv (closeSweepBucket ue tag zones s) := by
  unfold closeSweepBucket
  split
  · exact h
  · extract_lets _ s1 _ s2
    have hs1 : Inv s1 := inv_ite (inv_tagLineUe h) h
    have hs2 : Inv s2 := inv_foldl hs1 (fun _ _ hu => inv_ite (inv_loseRecord hu) (inv_sweepClosed hu))
    split
    · exact h
    · split
      · exact hs2
      · split
        · extract_lets s3
          have hs3 : Inv s3 := inv_of_vitals hs2 rfl
          exact inv_setClosing hs3
        · exact inv_setClosing hs2

theorem inv_totalsUe {i : Nat} (h : Inv s) : Inv (totalsUe s i) := by
  unfold totalsUe
  split
  · exact h
  · obtain ⟨hzones, hports, hclasses⟩ := h.images
    refine inv_gapClosing (inv_of_images h ?_)
    split
    · exact ⟨hzones, twf_tdel hports, hclasses⟩
    · exact ⟨hzones, hports, twf_tdel hclasses⟩

theorem inv_hashComplete {ue : List Nat} (h : Inv s) : Inv (hashComplete ue s) := by
  unfold hashComplete
  split
  · exact h
  · extract_lets s1
    have hs1 : Inv s1 := inv_foldl h (fun _ _ hu => inv_totalsUe hu)
    split
    · exact hs1
    · exact inv_setClosing hs1

theorem inv_sealSigned (h : Inv s) : Inv (sealSigned s) := by
  unfold sealSigned
  split
  · exact h
  · extract_lets s1 s2 _ s3
    have hs1 : Inv s1 := inv_publishSeal h
    have hs2 : Inv s2 := inv_setClosing hs1
    have hs3 : Inv s3 := inv_of_vitals hs2 rfl
    split
    · exact inv_ite (inv_finishTransition hs3) hs3
    · exact hs3

theorem inv_zeroCopy {k : Nat} (h : Inv s) : Inv (zeroCopy s k) := by
  obtain ⟨hzones, hports, hclasses⟩ := h.images
  exact ⟨h.otp, h.counters, h.parts, h.frames, twf_tclear hzones, twf_tclear hports, twf_tclear hclasses⟩

theorem inv_takeItem_getD {p : Item → Bool} (h : Inv s) : Inv ((takeItem s p).getD s) := by
  cases e : takeItem s p with
  | none => exact h
  | some t => exact inv_takeItem h e

theorem inv_imageZeroed (h : Inv s) : Inv (imageZeroed s) := by
  unfold imageZeroed
  split
  · exact h
  · extract_lets s1 lid s2 s3 lid' s4 s5
    have hs2 : Inv s2 := inv_of_vitals (inv_zeroCopy h) rfl
    have hs3 : Inv s3 := inv_takeItem_getD hs2
    have hs4 : Inv s4 := inv_of_vitals hs3 rfl
    have hs5 : Inv s5 := by
      refine inv_ite ?_ (inv_ite (inv_switchBanks hs3) hs3)
      split
      · exact inv_beginClose hs4
      · exact hs4
    exact inv_attentionDone (inv_standbyCloseDone hs5)

theorem inv_refreshExit {failed : List Nat} (h : Inv s) : Inv (refreshExit s failed) :=
  inv_foldl h (fun _ _ hu => inv_retirePc hu)

theorem inv_standbyCloseWake {failed : List Nat} (h : Inv s) : Inv (standbyCloseWake failed s) := by
  unfold standbyCloseWake
  extract_lets
  exact inv_ite (inv_refreshExit (inv_selfRefresh (inv_of_vitals h rfl))) h

/-! ### Commands on rules -/

theorem inv_draftCommand {h : CmdHeader} {p : List Byte} {stages : List (Nat ×
  (Nat → Bool))} {edit : Nat → SliceState → SliceState} {data : State → List Byte}
    (hs : Inv s) :
    Inv (draftCommand h p stages edit data s).2 := by
  unfold draftCommand
  extract_lets _ s1
  have hs1 : Inv s1 := inv_foldl hs (fun _ _ hu => inv_modSlice hu)
  split
  · exact hs
  · split
    · exact hs
    · exact inv_draftEdit hs1

theorem inv_startMove {sl m : Nat} {double : Bool} (h : Inv s) : Inv (startMove s sl m double) := by
  unfold startMove
  split
  · exact h
  · extract_lets
    exact inv_modSlice h

theorem inv_copyDraft {v : Nat} (h : Inv s) : Inv (copyDraft s v) := by
  unfold copyDraft
  extract_lets s1
  have hs1 : Inv s1 := inv_allSlices h
  exact inv_latchColumns (inv_of_vitals hs1 rfl)

theorem inv_commit {h : CmdHeader} {p : List Byte} {ue : List Nat} (hs : Inv s) : Inv (commit h p ue s) := by
  unfold commit
  refine inv_runCommand hs (fun a1 u1 hu => ?_)
  extract_lets _ _ s1
  have hs1 : Inv s1 := inv_copyDraft hu
  split
  · exact inv_ite_snd hu (inv_ite_snd hu hu)
  · exact inv_ite_snd hu (inv_ite_snd hu (inv_ite_snd hu (inv_ite_snd hu (inv_of_vitals hs1 rfl))))

theorem inv_setRules {r : RuleState} (h : Inv s) : Inv { s with rules := r } := inv_of_vitals h rfl

theorem inv_versionSwitch (h : Inv s) : Inv (versionSwitch s) := by
  unfold versionSwitch
  split
  · exact h
  · extract_lets gone rules s1 s2 s3 data on hd s4
    have hs3 : Inv s3 := inv_foldl (inv_raiseTask (inv_epochVersion (inv_setRules h))) fun u sl hu => inv_retire hu
    have hs4 : Inv s4 := by
      rcases hon : on with _ | e
      · simp only [s4, hon]
        exact hs3
      · simp only [s4, hon]
        exact inv_engineEnd hs3
    exact inv_completed (inv_answer hs4)

theorem inv_abandon {h : CmdHeader} {p : List Byte} (hs : Inv s) : Inv (abandon h p s) :=
  inv_runAtOnce hs (fun _ hu => inv_ite_snd hu (inv_abandonDraft hu))

theorem inv_versionInfo {h : CmdHeader} {p : List Byte} (hs : Inv s) : Inv (versionInfo h p s) :=
  inv_runAtOnce hs (fun _ hu => hu)

theorem inv_stepWrite {h : CmdHeader} {p : List Byte} (hs : Inv s) : Inv (stepWrite h p s) :=
  inv_runAtOnce hs (fun _ hu => inv_draftCommand hu)

theorem inv_transWrite {h : CmdHeader} {p : List Byte} (hs : Inv s) : Inv (transWrite h p s) :=
  inv_runAtOnce hs (fun _ hu => inv_draftCommand hu)

theorem inv_accmapAdd {h : CmdHeader} {p : List Byte} (hs : Inv s) : Inv (accmapAdd h p s) := by
  unfold accmapAdd
  extract_lets
  exact inv_runAtOnce hs (fun _ hu => inv_draftCommand hu)

theorem inv_accmapDel {h : CmdHeader} {p : List Byte} (hs : Inv s) : Inv (accmapDel h p s) := by
  unfold accmapDel
  extract_lets
  exact inv_runAtOnce hs (fun _ hu => inv_draftCommand hu)

theorem inv_patternAdd {h : CmdHeader} {p : List Byte} (hs : Inv s) : Inv (patternAdd h p s) := by
  unfold patternAdd
  extract_lets
  exact inv_runAtOnce hs (fun _ hu => inv_draftCommand hu)

theorem inv_patternDel {h : CmdHeader} {p : List Byte} (hs : Inv s) : Inv (patternDel h p s) := by
  unfold patternDel
  extract_lets
  exact inv_runAtOnce hs (fun _ hu => inv_draftCommand hu)

theorem inv_tcamAdd {h : CmdHeader} {p : List Byte} (hs : Inv s) : Inv (tcamAdd h p s) := by
  unfold tcamAdd
  extract_lets
  exact inv_runAtOnce hs (fun _ hu => inv_draftCommand hu)

theorem inv_tcamInsert {h : CmdHeader} {p : List Byte} {ue : List (Nat × Nat)} (hs : Inv s) :
    Inv (tcamInsert h p ue s) := by
  unfold tcamInsert
  extract_lets
  refine inv_runAtOnce hs (fun u hu => ?_)
  split
  · exact hu
  · split
    · exact hu
    · extract_lets s1 s2 s3 s4
      have hs1 : Inv s1 := inv_foldl hu (fun _ _ hu1 => inv_modSlice hu1)
      have hs2 : Inv s2 := inv_foldl hs1 (fun _ _ hu1 => inv_startMove hu1)
      have hs3 : Inv s3 := inv_foldl hs2 (fun _ _ hu1 => inv_foldl hu1 (fun _ _ hu2 => inv_tcamFault hu2))
      have hs4 : Inv s4 := inv_foldl hs2 (fun _ _ hu1 => inv_modSlice hu1)
      exact inv_ite_snd hs3 (inv_draftEdit hs4)

theorem inv_tcamDelete {h : CmdHeader} {p : List Byte} (hs : Inv s) : Inv (tcamDelete h p s) := by
  unfold tcamDelete
  extract_lets
  exact inv_runAtOnce hs (fun _ hu => inv_draftCommand hu)

theorem inv_tcamRead {h : CmdHeader} {p : List Byte} (hs : Inv s) : Inv (tcamRead h p s) := by
  unfold tcamRead
  extract_lets
  refine inv_runAtOnce hs (fun u hu => ?_)
  extract_lets
  exact hu

/-! ### Stations -/

theorem inv_stationMove {sl first : Nat} {l : MacLearn} (h : Inv s) : Inv (stationMove s sl first l) :=
  inv_postEvent (inv_raiseEv h)

theorem inv_noteLearn {sl : Nat} {l : MacLearn} (h : Inv s) : Inv (noteLearn s sl l) := by
  unfold noteLearn
  extract_lets w seen same s1
  have hs1 : Inv s1 := inv_modSlice h
  rcases same with _ | p
  · exact hs1
  · exact inv_ite hs1 (inv_stationMove hs1)

theorem inv_applyLearn {sl : Nat} {l : MacLearn} (h : Inv s) : Inv (applyLearn s sl l) := by
  unfold applyLearn
  extract_lets
  split
  · split
    · exact h
    · extract_lets
      exact inv_ite (inv_noteLearn (inv_setSlice h)) (inv_noteLearn (inv_cntSl (inv_setSlice h)))
  · split
    · exact inv_cntSl h
    · exact inv_noteLearn (inv_setSlice h)

theorem inv_l2Learn {sl : Nat} {ue : List Nat} (h : Inv s) : Inv (l2Learn sl ue s) := by
  unfold l2Learn
  extract_lets s1
  have hs1 : Inv s1 := inv_foldl h (fun _ _ hu => inv_loseMac hu)
  split
  · exact hs1
  · exact inv_applyLearn (inv_modSlice hs1)

theorem inv_l2AgingPass {sl : Nat} {ue : List Nat} (h : Inv s) : Inv (l2AgingPass sl ue s) := by
  unfold l2AgingPass
  extract_lets s1 s2
  have hs1 : Inv s1 := inv_foldl h (fun _ _ hu => inv_loseMac hu)
  have hs2 : Inv s2 := inv_acted hs1
  exact inv_ite hs1 (inv_modSlice hs2)

theorem inv_tcamScrub {sl : Nat} {ecc : Ecc} (h : Inv s) : Inv (tcamScrub sl ecc s) := by
  unfold tcamScrub
  extract_lets _ s1
  have hs1 : Inv s1 := inv_modSlice h
  split
  · exact hs1
  · exact inv_cntSl hs1
  · exact inv_tcamFault hs1

/-! ### Commands on tables -/

theorem inv_revive {table index : Nat} (h : Inv s) : Inv (revive s table index) := inv_ite (inv_of_vitals h rfl) h

theorem inv_dtWrite {h : CmdHeader} {p : List Byte} (hs : Inv s) : Inv (dtWrite h p s) := by
  unfold dtWrite
  extract_lets
  refine inv_runAtOnce hs (fun u hu => ?_)
  split
  · exact hu
  · split
    · exact hu
    · split
      · exact hu
      · split
        · exact hu
        · extract_lets s1
          have hs1 : Inv s1 := inv_revive hu
          exact inv_draftEdit (inv_of_vitals hs1 rfl)

theorem inv_reviveVlan {slices : List Nat} {vlan : Nat} (h : Inv s) : Inv (reviveVlan s slices vlan) :=
  inv_foldl h (fun _ _ hu => inv_ite (inv_modSlice (inv_of_vitals hu rfl)) hu)

theorem inv_vlanWrite {h : CmdHeader} {p : List Byte} (hs : Inv s) : Inv (vlanWrite h p s) := by
  unfold vlanWrite
  extract_lets
  refine inv_runAtOnce hs (fun u hu => ?_)
  extract_lets s1
  have hs1 : Inv s1.2 := inv_draftCommand hu
  exact inv_ite (inv_reviveVlan hs1) hs1

theorem inv_dtRead {h : CmdHeader} {p : List Byte} (hs : Inv s) : Inv (dtRead h p s) := by
  unfold dtRead
  extract_lets
  refine inv_runAtOnce hs (fun u hu => ?_)
  extract_lets
  exact hu

theorem inv_pfxAdd {h : CmdHeader} {p : List Byte} (hs : Inv s) : Inv (pfxAdd h p s) := by
  unfold pfxAdd
  refine inv_runAtOnce hs (fun u hu => ?_)
  split
  · exact hu
  · split
    · exact hu
    · split
      · exact hu
      · extract_lets
        exact inv_draftEdit (inv_of_vitals hu rfl)

theorem inv_pfxDel {h : CmdHeader} {p : List Byte} (hs : Inv s) : Inv (pfxDel h p s) := by
  unfold pfxDel
  refine inv_runAtOnce hs (fun u hu => ?_)
  split
  · exact hu
  · split
    · exact hu
    · extract_lets
      exact inv_draftEdit (inv_of_vitals hu rfl)

theorem inv_pfxLookup {h : CmdHeader} {p : List Byte} (hs : Inv s) : Inv (pfxLookup h p s) := by
  unfold pfxLookup
  extract_lets
  refine inv_runAtOnce hs (fun u hu => ?_)
  extract_lets
  split <;> exact hu

theorem inv_loseMacs {ue : List (Nat × Nat)} (h : Inv s) : Inv (loseMacs s ue) := inv_foldl h (fun _ _ hu => inv_loseMac hu)

theorem inv_learnsFirst {sl : Nat} (h : Inv s) : Inv (learnsFirst s sl) := by
  unfold learnsFirst
  extract_lets
  exact inv_foldl (inv_modSlice h) (fun _ _ hu => inv_applyLearn hu)

theorem inv_macSearch {h : CmdHeader} {p : List Byte} {ue : List (Nat × Nat)} (hs : Inv s) :
    Inv (macSearch h p ue s) := by
  unfold macSearch
  extract_lets
  refine inv_runAtOnce hs (fun u hu => ?_)
  extract_lets s1
  have hs1 : Inv s1 := inv_loseMacs (inv_learnsFirst hu)
  split <;> exact hs1

theorem inv_macNext {h : CmdHeader} {p : List Byte} {ue : List (Nat × Nat)} (hs : Inv s) :
    Inv (macNext h p ue s) := by
  unfold macNext
  extract_lets
  refine inv_runAtOnce hs (fun u hu => ?_)
  extract_lets s1
  have hs1 : Inv s1 := inv_loseMacs (inv_learnsFirst hu)
  exact hs1

theorem inv_macCommand {h : CmdHeader} {ue : List (Nat × Nat)} {stages : State → List (Nat ×
  (Nat → Bool))} {edit : SliceState → SliceState}
    (hs : Inv s) :
    Inv (macCommand h ue stages edit s).2 := by
  unfold macCommand
  extract_lets _ s1
  have hs1 : Inv s1 := inv_loseMacs (inv_foldl hs (fun _ _ hu => inv_learnsFirst hu))
  split
  · exact hs1
  · exact inv_foldl hs1 (fun _ _ hu => inv_modSlice hu)

theorem inv_macStaticAdd {h : CmdHeader} {p : List Byte} {ue : List (Nat × Nat)} (hs : Inv s) :
    Inv (macStaticAdd h p ue s) := by
  unfold macStaticAdd
  extract_lets
  exact inv_runAtOnce hs (fun _ hu => inv_macCommand hu)

theorem inv_macStaticDel {h : CmdHeader} {p : List Byte} {ue : List (Nat × Nat)} (hs : Inv s) :
    Inv (macStaticDel h p ue s) := by
  unfold macStaticDel
  extract_lets
  exact inv_runAtOnce hs (fun _ hu => inv_macCommand hu)

theorem inv_macFlushPort {h : CmdHeader} {p : List Byte} {stops : List (Nat × Nat × Bool)} (hs : Inv s) :
    Inv (macFlushPort h p stops s) := by
  unfold macFlushPort
  extract_lets
  refine inv_runCommand hs (fun a1 u1 hu => ?_)
  extract_lets s1 _ _ s2
  have hs1 : Inv s1 := inv_foldl hu (fun _ _ hu1 => inv_learnsFirst hu1)
  have hs2 : Inv s2 := inv_foldl hs1 (fun _ _ hu1 => inv_modSlice hu1)
  exact hs2

end

end Sys2Proof.Machine
end

