-- ==== Sys2Proof/Proofs/InvariantSweeps.lean ====
section
/-! SUPPORT. The invariant under rewriting, the aging sweep, the commands on flows and translation, and the deep scan. -/

namespace Sys2Proof.Machine

section
variable {s : State}

/-! ### Rewriting -/

theorem inv_writeHop {f : Frame} {nh : Nat} {target : Option Nat} (h : Inv s) : Inv (writeHop s f nh target) :=
  inv_ite (inv_modBody h) h

theorem inv_renewHop {ue : List Nat} {f : Frame} {b : FlowBody} (h : Inv s) : Inv (renewHop ue s f b).2 := by
  unfold renewHop
  extract_lets prof
  split
  · have hsel : TryInv Prod.snd (lbSelect ue s (profLbPool prof) f.version f.slice f.head.key f.head.d) := tryInv_lbSelect h
    split
    · next e =>
      rw [e] at hsel
      split
      · exact inv_writeHop hsel
      · exact hsel
    · next e =>
      rw [e] at hsel
      exact hsel
  · split
    · exact h
    · exact inv_writeHop h
    · split
      · exact inv_writeHop h
      · exact h

theorem inv_recordHop {ue : List Nat} {f : Frame} {b : FlowBody} (h : Inv s) : Inv (recordHop ue s f b).2 := by
  unfold recordHop
  extract_lets use
  have huse (nh : Nat) (u : State) (hu : Inv u) : Inv (use nh u).2 := by
    unfold use
    split
    · exact hu
    · split
      · exact hu
      · exact inv_renewHop hu
  split
  · exact huse _ s h
  · next pool _ =>
    have hsel : TryInv Prod.snd (lbSelect ue s pool f.version f.slice f.head.key f.head.d) := tryInv_lbSelect h
    split
    · next e =>
      rw [e] at hsel
      exact huse _ _ (inv_cntDev (inv_writeHop hsel))
    · next e =>
      rw [e] at hsel
      exact huse _ _ (inv_cntDev hsel)

theorem inv_passHop {ue : List Nat} {f : Frame} (h : Inv s) : Inv (passHop ue s f).2 := by
  unfold passHop
  split
  · exact inv_recordHop h
  · exact h

theorem inv_denyFrame {id : Nat} (h : Inv s) : Inv (denyFrame s id) :=
  inv_onFrame h (fun _ => inv_discardHead (inv_slotRetired h))

theorem inv_rewriteDone {id : Nat} {hop : Hop} {punt : Option Nat} (h : Inv s) :
    Inv (rewriteDone s id hop punt) := by
  unfold rewriteDone
  refine inv_onFrame h (fun a => ?_)
  extract_lets _ s1 _ s2 s3
  have hs1 : Inv s1 := inv_modFrame h
  have hs2 : Inv s2 := inv_ite (inv_of_vitals hs1 rfl) hs1
  have hs3 : Inv s3 := inv_snapAdd (inv_slotRetired hs2)
  exact inv_ite hs3 (inv_headLeave hs3)

theorem inv_recirculate {id : Nat} (h : Inv s) : Inv (recirculate s id) := by
  unfold recirculate
  refine inv_onFrame h (fun a => ?_)
  extract_lets s1
  have hs1 : Inv s1 := inv_modFrame h
  exact inv_modSlice (inv_slotRecirc hs1)

theorem inv_applyResult {id : Nat} {f : Frame} {r : Result} {hop : Hop} (h : Inv s) :
    Inv (applyResult s id f r hop) := by
  unfold applyResult
  extract_lets
  split
  · exact inv_denyFrame (inv_cntDev h)
  · extract_lets s1
    have hs1 : Inv s1 := inv_modFrame h
    split
    · exact inv_recirculate hs1
    · split
      · exact inv_ite (inv_rewriteDone hs1) (inv_rewriteDone hs1)
      · exact inv_rewriteDone hs1

theorem inv_fragOut {id : Nat} {f : Frame} (h : Inv s) : Inv (fragOut s id f) := by
  unfold fragOut
  extract_lets s1
  have hs1 : Inv s1 := inv_cntDev h
  split
  · exact inv_ite (inv_rewriteDone hs1) (inv_denyFrame hs1)
  · exact hs1

theorem inv_rewrite {id : Nat} {ue : List Nat} {s0 : State} (hs0 : Inv s0) : Inv (rewrite id ue s0) := by
  unfold rewrite
  refine inv_onFrame hs0 (fun a => ?_)
  extract_lets _ s1 s2
  have hs1 : Inv s1 := inv_ite (inv_modFrame hs0) hs0
  have hs2 : Inv s2.2 := inv_passHop hs1
  split
  · exact hs0
  · split
    · exact hs0
    · split
      · exact inv_denyFrame hs1
      · split
        · exact inv_fragOut hs1
        · split
          · exact inv_denyFrame (inv_cntSl hs1)
          · split
            · exact inv_denyFrame (inv_cntDev hs2)
            · exact inv_denyFrame (inv_ite hs2 (inv_cntSl hs2))
            · exact inv_ite (inv_denyFrame (inv_cntDev hs2)) (inv_applyResult hs2)
            · exact inv_applyResult hs2

/-! ### The aging sweep -/

theorem inv_activityTick (h : Inv s) : Inv (activityTick s) := inv_ite h (inv_withSkein (inv_acted h) (fun _ => rfl))

theorem inv_exportFlow {idx reason : Nat} (h : Inv s) : Inv (exportFlow s idx reason) := by
  unfold exportFlow
  extract_lets p twin s1 s2 sum
  have hs1 : Inv s1 := inv_settleBursts h
  have hs2 : Inv s2 := by
    rcases htwin : twin with _ | n
    · simp only [s2, htwin]
      exact hs1
    · simp only [s2, htwin]
      exact inv_settleBursts hs1
  exact inv_queueExport hs2

theorem inv_exportVisit {idx : Nat} (h : Inv s) : Inv (exportVisit s idx) := by
  unfold exportVisit
  extract_lets
  exact inv_ite (inv_exportFlow h) h

theorem inv_sweepBegin (h : Inv s) : Inv (sweepBegin s) := inv_of_vitals h rfl

theorem inv_sweepRecord {idx : Nat} (h : Inv s) : Inv (sweepRecord s idx) := by
  unfold sweepRecord
  extract_lets _ s1 s2 s3 s4
  have hs1 : Inv s1 := inv_ite (inv_modBody h) h
  have hs2 : Inv s2 := inv_withActions hs1
  have hs3 : Inv s3 := inv_ite (inv_withSkein hs2 (fun _ => rfl)) hs2
  have hs4 : Inv s4 := inv_exportVisit hs3
  exact inv_ite (inv_endFlow hs4) (inv_ite (inv_withSkein hs4 (fun _ => rfl)) hs4)

theorem inv_sweepBucket {b : Nat} {bad tags : List Nat} (h : Inv s) : Inv (sweepBucket s b bad tags) := by
  unfold sweepBucket
  extract_lets s1 _ s2
  have hs1 : Inv s1 := inv_ite (inv_tagLineUe h) h
  have hs2 : Inv s2 := inv_foldl hs1 (fun _ _ hu => inv_ite hu (inv_ite (inv_loseRecord (inv_ite (inv_hbmUe hu) hu))
    (inv_sweepRecord hu)))
  exact inv_withSkein hs2 (fun _ => rfl)

theorem inv_freeHop {id : Nat} (h : Inv s) : Inv (freeHop s id) := inv_actionEvent (inv_raiseEv h)

theorem inv_freeTarget {d : Draining} (h : Inv s) : Inv (freeTarget s d) := by
  unfold freeTarget
  extract_lets s1
  have hs1 : Inv s1 := inv_withActions h
  exact inv_actionEvent (inv_raiseEv hs1)

theorem inv_sweepEnd (h : Inv s) : Inv (sweepEnd s) := by
  unfold sweepEnd
  extract_lets s1 s2 freed rules s3 s4
  have hs1 : Inv s1 := inv_ite (inv_raiseEv h) h
  have hs2 : Inv s2 := inv_ite (inv_withSkein hs1 fun _ => rfl) hs1
  have hs3 : Inv s3 := inv_foldl (inv_setRules hs2) fun u n hu => inv_freeHop hu
  have hs4 : Inv s4 := inv_foldl hs3 fun u d hu => inv_freeTarget hu
  exact inv_withActions (inv_withSkein hs4 fun _ => rfl)

theorem inv_sweepSome {bad tags : List Nat} {n : Nat} (h : Inv s) : Inv (sweepSome bad tags n s) := by
  induction n generalizing s with
  | zero => exact h
  | succ n ih =>
    unfold sweepSome
    extract_lets b s1 s2
    have hs2 : Inv s2 := inv_withSkein (inv_sweepBucket (inv_ite (inv_sweepBegin h) h)) fun _ => rfl
    exact inv_ite h (ih (inv_ite (inv_sweepEnd hs2) hs2))

theorem inv_agingSweepBatch {n : Nat} {bad tags : List Nat} (h : Inv s) : Inv (agingSweepBatch n bad tags s) := by
  unfold agingSweepBatch
  split
  · exact h
  · extract_lets s1
    have hs1 : Inv s1 := inv_sweepSome h
    exact inv_ite (inv_acted hs1) hs1

theorem inv_endRequest (h : Inv s) : Inv (endRequest s) := by
  unfold endRequest
  split
  · exact h
  · extract_lets s1
    have hs1 : Inv s1 := inv_withSkein h (fun _ => rfl)
    exact inv_ite (inv_endFlow hs1) hs1

theorem inv_migrationDecision (h : Inv s) : Inv (migrationDecision s) := by
  unfold migrationDecision
  split
  · exact h
  · extract_lets s1
    have hs1 : Inv s1 := inv_acted h
    exact inv_withSkein hs1 (fun _ => rfl)

theorem inv_groupMoveBucket (h : Inv s) : Inv (groupMoveBucket s) := by
  unfold groupMoveBucket
  split
  · exact h
  · extract_lets
    exact inv_ite (inv_withSkein h (fun _ => rfl)) (inv_ite (inv_withSkein h (fun _ => rfl)) (inv_withSkein h (fun _ => rfl)))

theorem inv_skeinPcRetire (h : Inv s) : Inv (skeinPcRetire s) := by
  unfold skeinPcRetire
  split
  · exact h
  · split
    · next e =>
        exact h
    · next t e =>
        have ht : Inv t := inv_takeItem h e
        exact inv_loseGroups (inv_of_vitals ht rfl)

theorem inv_freeBlock {pool : NatPool} {k : Nat} {b : NatBlock} (h : Inv s) : Inv (freeBlock s pool k b) := by
  unfold freeBlock
  extract_lets s1
  have hs1 : Inv s1 := inv_withActions h
  split
  · exact hs1
  · extract_lets _ s2
    have hs2 : Inv s2 := inv_withActions hs1
    exact inv_logBlock hs2

theorem inv_sweepBlock {e : Nat × NatBlock} (h : Inv s) : Inv (sweepBlock s e) := by
  unfold sweepBlock
  split
  · exact h
  · extract_lets
    exact inv_ite h (inv_ite (inv_withActions h) (inv_ite (inv_freeBlock h) h))

theorem inv_natBlockSweep (h : Inv s) : Inv (natBlockSweep s) := by
  unfold natBlockSweep
  split
  · exact h
  · extract_lets _ s1
    have hs1 : Inv s1 := inv_foldl h (fun _ _ hu => inv_sweepBlock hu)
    split
    · exact inv_withActions hs1
    · exact inv_runTask (inv_withActions hs1) (fun _ hu => inv_of_vitals hu rfl)

/-! ### Commands on flows -/

theorem inv_loseRead {ue : Bool} {idx : Nat} (h : Inv s) : Inv (loseRead s ue idx) := inv_loseRecord (inv_ite (inv_hbmUe h) h)

theorem inv_oneRecord {ue : Bool} {idx : Option Nat} {use : Nat → State → Answer × State}
    (huse : ∀ a1 u2, Inv u2 → Inv (use a1 u2).2) (h : Inv s) :
    Inv (oneRecord ue idx use s).2 := by
  unfold oneRecord
  split
  · exact h
  · exact inv_ite_snd (inv_loseRead h) (huse _ _ h)

theorem inv_settleBucket {b : Nat} (h : Inv s) : Inv (onBucket.settleBucket s b) :=
  inv_foldl h fun _ _ hu => inv_settleBursts hu

theorem inv_onBucket {bucket : Nat} {tag : Bool} {bad : List Nat} {f : State → Answer × State} (h : Inv s)
    (hf : ∀ u, Inv u → Inv (f u).2) : Inv (onBucket bucket tag bad f s).2 := by
  unfold onBucket
  extract_lets s1
  have hs1 : Inv s1 := inv_settleBucket h
  split
  · exact hf _ (inv_ite (inv_tagLineUe hs1) hs1)
  · split
    · exact h
    · exact h

theorem inv_flowLookupKey {h : CmdHeader} {p : List Byte} {ue tag : Bool} (hs : Inv s) :
    Inv (flowLookupKey h p ue tag s) := by
  unfold flowLookupKey
  extract_lets
  exact inv_runCommand hs (fun _ _ hu => inv_onBucket hu (fun _ hu1 => inv_oneRecord (fun _ _ hu2 => hu2) hu1))

theorem inv_flowLookupHandle {h : CmdHeader} {p : List Byte} {ue tag : Bool} (hs : Inv s) :
    Inv (flowLookupHandle h p ue tag s) := by
  unfold flowLookupHandle
  extract_lets
  exact inv_runCommand hs (fun _ _ hu => inv_onBucket hu (fun _ hu1 => inv_oneRecord (fun _ _ hu2 => hu2) hu1))

theorem inv_tagsRebuilt {lo hi : Nat} {ue tags : List Nat} (h : Inv s) : Inv (tagsRebuilt s lo hi ue tags) :=
  inv_foldl h (fun _ _ hu => inv_tagLineUe hu)

theorem inv_flowIterate {h : CmdHeader} {p : List Byte} {ue tags : List Nat} (hs : Inv s) :
    Inv (flowIterate h p ue tags s) := by
  unfold flowIterate
  extract_lets
  refine inv_runCommand hs (fun a1 u1 hu => ?_)
  split
  · exact hu
  · split
    · exact hu
    · extract_lets s1 s2
      have hs1 : Inv s1 := inv_tagsRebuilt (inv_foldl hu (fun _ _ hu1 => inv_settleBursts hu1))
      have hs2 : Inv s2 := inv_foldl hs1 (fun _ _ hu1 => inv_loseRead hu1)
      exact hs2

theorem inv_flowDeleteKey {h : CmdHeader} {p : List Byte} {ue tag : Bool} (hs : Inv s) :
    Inv (flowDeleteKey h p ue tag s) := by
  unfold flowDeleteKey
  extract_lets
  exact inv_runCommand hs (fun _ _ hu => inv_onBucket hu (fun _ hu1 => inv_oneRecord (fun _ _ hu2 => inv_endFlow hu2) hu1))

theorem inv_flushRecord {by_ value : Nat} {ue : List Nat} {a : Nat × State} {idx : Nat} (h : Inv a.2) :
    Inv (flushRecord by_ value ue a idx).2 := by
  unfold flushRecord
  extract_lets s1
  have hs1 : Inv s1 := inv_settleBursts h
  split
  · exact hs1
  · split
    · exact inv_loseRead hs1
    · split
      · exact inv_endFlow hs1
      · exact hs1

theorem inv_flushRange {by_ value : Nat} {ue tags : List Nat} {lo hi : Nat} (h : Inv s) :
    Inv (flushRange by_ value ue tags lo hi s).2 := by
  unfold flushRange
  exact List.foldlRecOn (motive := fun a : Nat × State => Inv a.2) _ _ (inv_tagsRebuilt h)
    fun a ha idx _ => inv_flushRecord ha

theorem inv_flushParts {hd : CmdHeader} {p : List Byte} {by_ value : Nat} {ue tags : List Nat} {l : List (Nat × Nat × Nat)}
    (h : Inv s) : Inv (flushParts hd p by_ value ue tags l s).2 := by
  induction l generalizing s with
  | nil => exact h
  | cons e r ih =>
    unfold flushParts
    refine ih ?_
    split
    · exact inv_flushRange h
    · exact h

theorem inv_flowFlush {h : CmdHeader} {p : List Byte} {stops : List (Nat × Nat × Bool)} {ue tags : List Nat} (hs : Inv s) :
    Inv (flowFlush h p stops ue tags s) := by
  unfold flowFlush
  extract_lets
  refine inv_runCommand hs (fun a1 u1 hu => ?_)
  split
  · exact hu
  · extract_lets
    split
    next t e =>
      have ht : Inv t := inv_of_pair e (inv_flushParts hu)
      extract_lets
      exact ht

/-! ### Commands on translation -/

theorem inv_natAddrWrite {h : CmdHeader} {p : List Byte} (hs : Inv s) : Inv (natAddrWrite h p s) := by
  unfold natAddrWrite
  extract_lets
  refine inv_runAtOnce hs (fun u hu => ?_)
  extract_lets
  split
  · exact hu
  · split
    · exact hu
    · dsimp only
      exact inv_withActions hu

theorem inv_natPoolWrite {h : CmdHeader} {p : List Byte} (hs : Inv s) : Inv (natPoolWrite h p s) := by
  unfold natPoolWrite
  extract_lets
  refine inv_runAtOnce hs (fun u hu => ?_)
  extract_lets
  split
  · exact hu
  · split
    · exact hu
    · dsimp only
      exact inv_withActions hu

theorem inv_commandUe {line : Nat} (h : Inv s) : Inv (commandUe s line).2 := inv_hbmUe h

theorem inv_natSubLookup {h : CmdHeader} {p : List Byte} {ue : List Nat} (hs : Inv s) :
    Inv (natSubLookup h p ue s) := by
  unfold natSubLookup
  refine inv_runAtOnce hs (fun u hu => ?_)
  split
  · exact inv_commandUe hu
  · exact hu
  · exact hu

theorem inv_onTarget {p : List Byte} {f : Nat → Nat → State → Answer × State}
    (hf : ∀ a1 a2 u3, Inv u3 → Inv (f a1 a2 u3).2) (h : Inv s) :
    Inv (onTarget p f s).2 := by
  unfold onTarget
  extract_lets
  exact inv_ite_snd h (inv_ite_snd h (hf _ _ _ h))

theorem inv_lbTargetWrite {h : CmdHeader} {p : List Byte} {ue : Bool} (hs : Inv s) :
    Inv (lbTargetWrite h p ue s) := by
  unfold lbTargetWrite
  extract_lets
  refine inv_runAtOnce hs (fun u hu => ?_)
  refine inv_onTarget (fun a a1 u1 hu1 => ?_) hu
  extract_lets _ s1
  have hs1 : Inv s1 := inv_ite (inv_loseTargets (inv_commandUe hu1)) hu1
  split
  · exact hs1
  · split
    · dsimp only
      exact inv_withActions hs1
    · dsimp only
      exact inv_withActions hs1

theorem inv_lbTargetRead {h : CmdHeader} {p : List Byte} {ue : Bool} (hs : Inv s) :
    Inv (lbTargetRead h p ue s) := by
  unfold lbTargetRead
  refine inv_runAtOnce hs (fun u hu => ?_)
  refine inv_onTarget (fun a a1 u1 hu1 => ?_) hu
  split
  · exact inv_commandUe hu1
  · extract_lets
    exact hu1

theorem inv_lbTargetRemove {h : CmdHeader} {p : List Byte} {ue : Bool} (hs : Inv s) :
    Inv (lbTargetRemove h p ue s) := by
  unfold lbTargetRemove
  refine inv_runAtOnce hs (fun u hu => ?_)
  refine inv_onTarget (fun a a1 u1 hu1 => ?_) hu
  extract_lets
  split
  · exact inv_commandUe hu1
  · split
    · exact hu1
    · split
      · exact hu1
      · split
        · exact hu1
        · dsimp only
          exact inv_withActions hu1

theorem inv_lbPoolReplace {h : CmdHeader} {p : List Byte} {bad ue : List Nat} (hs : Inv s) :
    Inv (lbPoolReplace h p bad ue s) := by
  unfold lbPoolReplace
  extract_lets
  refine inv_runAtOnce hs (fun u hu => ?_)
  extract_lets
  split
  · exact hu
  · split
    · exact hu
    · split
      · exact inv_commandUe hu
      · split
        · exact hu
        · split
          · exact hu
          · dsimp only
            exact inv_withActions hu

/-! ### The deep scan -/

theorem inv_deepContext {sl handle : Nat} {dir : Bool} (h : Inv s) : Inv (deepContext s sl handle dir).2 := by
  unfold deepContext
  extract_lets fresh live s1 add
  have hadd (l : List DeepCtx) (gone : List (Nat × Bool)) : Inv (add l gone) := inv_modSlice (inv_ite (inv_cntSl h) h)
  split
  · exact h
  · split
    · exact hadd _ _
    · split
      · exact hadd _ _
      · exact h

theorem inv_deepAct {handle action : Nat} (h : Inv s) : Inv (deepAct s handle action) := by
  unfold deepAct
  dsimp only
  refine inv_ite h ?_
  split
  · exact inv_exportFlow h
  · split
    · exact inv_modBody (inv_modBody h)
    · exact inv_modBody h
  · split
    · exact inv_modBody (inv_modBody h)
    · exact inv_modBody h
  · exact h

theorem inv_scanJob {f : Frame} {j : DeepJob} (h : Inv s) : Inv (scanJob s f j) := by
  unfold scanJob
  dsimp only
  split
  · next e => exact inv_deepAct (inv_cntSl (inv_of_pair e (inv_deepContext h)))
  · next c t e =>
    have ht : Inv t := inv_of_pair e (inv_deepContext h)
    exact inv_ite (inv_modSlice ht) (inv_ite (inv_cntSl (inv_modSlice ht)) (inv_deepAct (inv_modSlice ht)))

theorem inv_scanOver {id : Nat} (h : Inv s) : Inv (scanOver s id) := by
  unfold scanOver
  refine inv_onFrame h (fun a => ?_)
  extract_lets s1 s2
  have hs1 : Inv s1 := inv_modSlice h
  have hs2 : Inv s2 := inv_modFrame hs1
  exact inv_headLeave (inv_dropRef hs2)

theorem inv_deepScan {sl : Nat} (h : Inv s) : Inv (deepScan sl s) := by
  unfold deepScan
  split
  · exact h
  · split
    · exact inv_modSlice h
    · split
      · exact h
      · split
        · exact inv_scanOver (inv_ite (inv_scanJob h) h)
        · exact inv_scanOver h

end

end Sys2Proof.Machine
end

