-- ==== Sys2Proof/Proofs/InvariantHost.lean ====
section
/-! SUPPORT. The invariant under the channels, HBM upkeep, the host ports, observation and power. -/

namespace Sys2Proof.Machine

section
variable {s : State}

/-! ### Descriptors -/

theorem inv_takeQueue {ch : Nat} (h : Inv s) : Inv (takeQueue s ch) := inv_of_vitals h rfl

theorem inv_chanStart {ch : Nat} (h : Inv s) : Inv (chanStart s ch) := by
  unfold chanStart
  extract_lets
  exact inv_ite (inv_modChan h) h

theorem inv_chanResume {ch : Nat} (h : Inv s) : Inv (chanResume s ch) := inv_ite (inv_modChan h) h

theorem inv_chanKick {ch : Nat} (h : Inv s) : Inv (chanKick s ch) := inv_ite (inv_modChan h) h

theorem inv_writeDmaCtl {req : Requester} {off : Nat} {ix : List Nat} {v : Nat} (h : Inv s) :
    Inv (writeDmaCtl s req off ix v) := by
  unfold writeDmaCtl
  extract_lets _ _ _ _ s1 s2 s3 s4 s5 s6 s7
  have hs1 : Inv s1 := inv_landWrite h
  have hs2 : Inv s2 := inv_ite (inv_accessError hs1) hs1
  have hs3 : Inv s3 := inv_ite (inv_modChan hs2) (inv_ite (inv_disableChannel hs2) hs2)
  have hs4 : Inv s4 := inv_ite (inv_takeQueue hs3) hs3
  have hs5 : Inv s5 := inv_chanRelease hs4
  have hs6 : Inv s6 := inv_ite (inv_chanStart hs5) hs5
  have hs7 : Inv s7 := inv_ite (inv_chanResume hs6) hs6
  exact inv_ite (inv_chanKick hs7) hs7

theorem inv_writeCqCi {ix : List Nat} {v : Nat} (h : Inv s) : Inv (writeCqCi s ix v) := by
  unfold writeCqCi
  extract_lets
  exact inv_chanRelease (inv_modChan h)

theorem inv_writeDmaOwn {ix : List Nat} {v : Nat} (h : Inv s) : Inv (writeDmaOwn s ix v) := inv_of_vitals h rfl

theorem inv_tracePage {p : Nat} (h : Inv s) : Inv (tracePage s p).2 := by
  unfold tracePage
  split
  · exact h
  · exact h
  · split
    next t e =>
      have ht : Inv t := inv_of_pair e (inv_drawFree h)
      exact ht

theorem inv_traceBytes {l : List Nat} (h : Inv s) : Inv (traceBytes s l).2 := by
  induction l generalizing s with
  | nil => exact h
  | cons p ps ih =>
    unfold traceBytes
    split
    · next e => exact inv_of_pair e (inv_tracePage h)
    · next b t e =>
      have ht : Inv t := inv_of_pair e (inv_tracePage h)
      split
      · next e => exact inv_of_pair e (ih ht)
      · next e => exact inv_of_pair e (ih ht)

theorem inv_copyTurn {ch : Nat} {d : Descriptor} {data : List Byte} {read : ReadEnd} (h : Inv s) :
    Inv (copyTurn s ch d data read) := by
  unfold copyTurn
  extract_lets moved n off line
  split
  next got t e =>
    have ht : Inv t := by
      refine inv_of_pair e ?_
      split
      · split
        · exact inv_hbmUe h
        · exact inv_traceBytes h
      · exact h
    split
    · exact inv_chanHalt ht
    · extract_lets s1 s2
      have hs2 : Inv s2 := inv_modChan (inv_emit ht)
      exact inv_ite (inv_descDone hs2) hs2

theorem inv_injectFrame {ch : Nat} {d : Descriptor} {data : List Byte} (h : Inv s) :
    Inv (injectFrame s ch d data) := by
  unfold injectFrame
  extract_lets _ _ s1
  have hs1 : Inv s1 := inv_modChan (inv_cntPort h)
  exact inv_addFrame hs1

theorem inv_injectTurn {ch : Nat} {d : Descriptor} {data : List Byte} {read : ReadEnd} {remote : Option Nat} (h : Inv s) :
    Inv (injectTurn s ch d data read remote) := by
  unfold injectTurn
  split
  · exact inv_chanHalt h
  · split
    · exact inv_injectFrame h
    · extract_lets s1
      have hs1 : Inv s1 := inv_modChan h
      split
      · extract_lets s2
        have hs2 : Inv s2 := inv_emit hs1
        exact inv_descDone hs2
      · exact inv_descDone hs1

theorem inv_descTurn {ch : Nat} {d : Descriptor} {data : List Byte} {read : ReadEnd} {remote : Option Nat} (h : Inv s) :
    Inv (descTurn s ch d data read remote) := by
  unfold descTurn
  split
  · exact inv_ite h (inv_injectTurn h)
  · exact h
  · exact inv_copyTurn h

theorem inv_descBegin {ch : Nat} {d : Descriptor} {data : List Byte} {read : ReadEnd} {remote : Option Nat} (h : Inv s) :
    Inv (descBegin s ch d data read remote) := by
  unfold descBegin
  extract_lets s1
  have hs1 : Inv s1 := inv_modChan h
  exact inv_ite (inv_chanHalt hs1) (inv_ite (inv_chanHalt hs1) (inv_ite (inv_chanHalt hs1) (inv_descTurn (inv_modChan hs1))))

theorem inv_dmaDescriptor {ch : Nat} {bytes : List Byte} {fetch : ReadEnd} {data : List Byte} {read : ReadEnd} {remote :
  Option Nat}
    (h : Inv s) :
    Inv (dmaDescriptor ch bytes fetch data read remote s) := by
  unfold dmaDescriptor
  extract_lets
  split
  · exact h
  · split
    · exact inv_descTurn h
    · exact inv_ite (inv_chanHalt h) (inv_ite (inv_chanHalt h) (inv_ite (inv_modChan h) (inv_descBegin h)))

theorem inv_deliver {ch : Nat} {d : Descriptor} {header payload : List Byte} (h : Inv s) :
    Inv (deliver s ch d header payload) := by
  unfold deliver
  extract_lets _ s1 s2
  have hs1 : Inv s1 := inv_emit h
  have hs2 : Inv s2 := inv_modChan hs1
  exact inv_descDone hs2

theorem inv_deliverFrame {ch sl : Nat} {d : Descriptor} (h : Inv s) : Inv (deliverFrame s ch sl d) := by
  unfold deliverFrame
  split
  · exact h
  · refine inv_onFrame h (fun a => ?_)
    split
    · exact h
    · split
      · exact inv_chanHalt h
      · extract_lets _ _ _ s1 s2
        have hs1 : Inv s1 := inv_deliver h
        have hs2 : Inv s2 := inv_modStore hs1
        exact inv_frameLeft (inv_dropRef (inv_ite (inv_verdictBad hs2) (inv_verdictGood hs2)))

theorem inv_dropMessages {c : Nat} (h : Inv s) : Inv (dropMessages s c) := by
  unfold dropMessages
  extract_lets
  exact inv_ite h (inv_modCollector (inv_raiseEv (inv_bump h)))

theorem inv_deliverMessage {ch c : Nat} {d : Descriptor} (h : Inv s) : Inv (deliverMessage s ch c d) := by
  unfold deliverMessage
  split
  · exact h
  · split
    · exact h
    · extract_lets _ s1
      have hs1 : Inv s1 := inv_deliver h
      exact inv_modCollector hs1

theorem inv_holdUp {b : List Byte} (h : Inv s) : Inv (holdUp s b) := inv_of_vitals h rfl

theorem inv_puntUp {sl : Nat} (h : Inv s) : Inv (puntUp s sl) := by
  unfold puntUp
  split
  · exact h
  · refine inv_onFrame h (fun a => ?_)
    split
    · exact h
    · extract_lets _ _ _ s1
      have hs1 : Inv s1 := inv_modStore h
      exact inv_ite (inv_pumpUp (inv_frameLeft (inv_dropRef (inv_verdictGood (inv_holdUp hs1))))) (inv_discardStored
        (inv_puntDropped hs1))

theorem inv_exportUp {c : Nat} (h : Inv s) : Inv (exportUp s c) := by
  unfold exportUp
  split
  · exact h
  · split
    · extract_lets
      exact inv_pumpUp (inv_modCollector (inv_holdUp h))
    · exact h

theorem inv_puntDeliver {ch source : Nat} (h : Inv s) : Inv (puntDeliver ch source s) := by
  unfold puntDeliver
  split
  · exact h
  · extract_lets s1
    have hs1 : Inv s1 := inv_ite (inv_dropUntaken h) (inv_dropMessages h)
    split
    · exact inv_ite (inv_puntUp hs1) (inv_exportUp hs1)
    · split
      · exact hs1
      · exact inv_ite hs1 (inv_ite (inv_deliverFrame hs1) (inv_deliverMessage hs1))

theorem inv_dmaGraceExpire {ch : Nat} (h : Inv s) : Inv (dmaGraceExpire ch s) := by
  unfold dmaGraceExpire
  extract_lets _ s1
  have hs1 : Inv s1 := by
    unfold s1
    split
    · exact inv_releaseFrame (inv_stampLost h)
    · exact h
  split
  · exact h
  · exact inv_ite (inv_chanHalt hs1) h

/-! ### HBM upkeep -/

theorem inv_setWindows {pc r w : Nat} (h : Inv s) : Inv (setWindows s pc r w) := inv_of_vitals h rfl

theorem inv_hbmRecal {pc r w : Nat} {sweep : Nat × Nat} (h : Inv s) : Inv (hbmRecal pc r w sweep s) := by
  unfold hbmRecal
  split
  · exact h
  · split
    · exact inv_setWindows h
    · extract_lets s1
      have hs1 : Inv s1 := inv_setWindows h
      exact inv_ite (inv_retirePc hs1) hs1

theorem inv_hbmCaParity {channel : Nat} {inRow window : Bool} (h : Inv s) :
    Inv (hbmCaParity channel inRow window s) := by
  unfold hbmCaParity
  extract_lets _ _ _ _ s1 s2 s3
  have hs1 : Inv s1 := inv_of_vitals h rfl
  have hs2 : Inv s2 := inv_modStk hs1
  have hs3 : Inv s3 := inv_hbmEventPost (inv_raiseEv hs2)
  exact inv_ite h (inv_ite (inv_retirePc (inv_retirePc hs3)) hs3)

theorem inv_refreshRate {k : Nat} (h : Inv s) : Inv (refreshRate s k) := by
  unfold refreshRate
  split
  · exact h
  · extract_lets _ _ _ s1
    have hs1 : Inv s1 := inv_modStk h
    exact inv_ite h (inv_hbmEventPost (inv_raiseEv hs1))

theorem inv_hbmRefresh {pc : Nat} (h : Inv s) : Inv (hbmRefresh pc s) := inv_ite (inv_refreshRate h) h

theorem inv_patrolScrub {pc : Nat} {ecc : Ecc} (h : Inv s) : Inv (patrolScrub pc ecc s) := by
  unfold patrolScrub
  split
  · exact h
  · extract_lets _ _ s1
    have hs1 : Inv s1 := inv_of_vitals h rfl
    split
    · exact hs1
    · exact inv_hbmCe hs1
    · split
      next t e =>
        have ht : Inv t := inv_of_pair e (inv_drawFree hs1)
        exact inv_hbmUe ht

theorem inv_writeHbmRetire {req : Requester} {off v : Nat} (h : Inv s) : Inv (writeHbmRetire s req off v) := by
  unfold writeHbmRetire
  extract_lets _ s1
  have hs1 : Inv s1 := inv_rimLog h
  exact inv_ite (inv_accessError h) (inv_ite (inv_accessError h) (inv_retirePc hs1))

theorem inv_hbmWindow {data : List Byte} {result : Nat} {corrected : Bool} (h : Inv s) :
    Inv (hbmWindow s data result corrected) := inv_of_vitals h rfl

theorem inv_writeHbmInd {ix : List Nat} {v : Nat} {ecc : Ecc} (h : Inv s) : Inv (writeHbmInd s ix v ecc) := by
  unfold writeHbmInd
  extract_lets s1 a pc line s2
  have hs1 : Inv s1 := inv_landWrite h
  have hs2 : Inv s2 := by
    refine inv_ite (inv_hbmWindow hs1) ?_
    split
    · exact inv_hbmWindow (inv_hbmUe hs1)
    · split
      next data u e =>
        have hu : Inv u := by
          refine inv_of_pair e ?_
          split
          · exact hs1
          · exact inv_drawFree hs1
        exact inv_ite (inv_hbmWindow (inv_hbmCe hu)) (inv_hbmWindow hu)
  exact inv_ite hs1 (inv_ite (inv_forceFld hs2) hs2)

/-! ### Host ports -/

theorem inv_loseReplies {p : CmdHeader → Bool} (h : Inv s) : Inv (loseReplies s p) := by
  unfold loseReplies
  extract_lets _ _ s1 s2
  have hs1 : Inv s1 := inv_withSched h (by simp [SchedState.vitals])
  have hs2 : Inv s2 := inv_withChain hs1 (fun _ => rfl)
  exact inv_of_vitals hs2 rfl

theorem inv_dropWaiting {hp : Nat} (h : Inv s) : Inv (dropWaiting s hp) := by
  unfold dropWaiting
  extract_lets _ _ _ s1
  have hs1 : Inv s1 := inv_of_vitals h rfl
  exact inv_bump hs1

theorem inv_enableRing {cls : Nat} {ix : List Nat} (h : Inv s) : Inv (enableRing s cls ix) := by
  unfold enableRing
  extract_lets
  split
  extract_lets s1
  have hs1 : Inv s1 := inv_ite h (inv_emit h)
  exact inv_setRing hs1

theorem inv_disableRing {cls : Nat} {ix : List Nat} (h : Inv s) : Inv (disableRing s cls ix) := by
  unfold disableRing
  extract_lets _ _ _ s1
  have hs1 : Inv s1 := inv_setRing h
  exact inv_ite (inv_dropWaiting (inv_loseReplies hs1)) hs1

theorem inv_writeRingCfg {req : Requester} {off : Nat} {r : RegName} {ix : List Nat} {v : Nat} (h : Inv s) :
    Inv (writeRingCfg s req off r ix v) := by
  unfold writeRingCfg
  extract_lets _ _ _ _ _ s1 s2 s3
  have hs1 : Inv s1 := inv_landWrite h
  have hs2 : Inv s2 := inv_ite (inv_accessError hs1) hs1
  have hs3 : Inv s3 := inv_ite (inv_enableRing hs2) (inv_ite (inv_disableRing hs2) hs2)
  exact inv_ite (inv_setRing hs3) hs3

theorem inv_writeCrPi {ix : List Nat} {v : Nat} (h : Inv s) : Inv (writeCrPi s ix v) := inv_of_vitals h rfl

theorem inv_writeRingCi {cls : Nat} {ix : List Nat} {v : Nat} (h : Inv s) : Inv (writeRingCi s cls ix v) := inv_of_vitals h rfl

theorem inv_writeRingOwn {ix : List Nat} {v : Nat} (h : Inv s) : Inv (writeRingOwn s ix v) := inv_of_vitals h rfl

theorem inv_dropReply {k : Nat} (h : Inv s) : Inv (dropReply s k) := inv_of_vitals h rfl

theorem inv_replyWrite {hp ring : Nat} (h : Inv s) : Inv (replyWrite hp ring s) := by
  unfold replyWrite
  split
  · exact h
  · split
    · exact h
    · extract_lets
      exact inv_ite (inv_replyLost (inv_dropReply h)) (inv_ite (inv_writeRing (inv_dropReply h)) h)

theorem inv_readSem {req : Requester} {n : Nat} (h : Inv s) : Inv (readSem s req n).2 := by
  unfold readSem
  extract_lets
  exact inv_ite_snd (inv_of_vitals h rfl) (inv_of_vitals h rfl)

theorem inv_freeSem {n : Nat} (h : Inv s) : Inv (freeSem s n) := inv_of_vitals h rfl

theorem inv_logSem {n owner req : Nat} (h : Inv s) : Inv (logSem s n owner req) := inv_rimLog h

theorem inv_writeSem {req : Requester} {off : Nat} {ix : List Nat} {v : Nat} (h : Inv s) :
    Inv (writeSem s req off ix v) := by
  unfold writeSem
  extract_lets _ _ _ s1
  have hs1 : Inv s1 := inv_of_vitals h rfl
  exact inv_ite (inv_freeSem hs1) (inv_ite (inv_logSem (inv_freeSem hs1)) (inv_accessError hs1))

theorem inv_semAnswer {req : Requester} {n : Nat} (h : Inv s) : Inv (semAnswer s req n) := by
  unfold semAnswer
  split
  next t e =>
    have ht : Inv t := inv_of_pair e (inv_readSem h)
    exact inv_emit ht

theorem inv_semaphoreAcquire {req : Requester} {off : Nat} {wide : Bool} (h : Inv s) :
    Inv (semaphoreAcquire req off wide s) := by
  unfold semaphoreAcquire
  split
  · exact inv_emit h
  · split
    · exact inv_ite (inv_semAnswer h) (inv_ite (inv_semAnswer (inv_semAnswer h)) (inv_emit (inv_accessError h)))
    · exact h

theorem inv_modHost {hp : Nat} {f : HostPort → HostPort} (h : Inv s) : Inv (modHost s hp f) :=
  inv_of_vitals h (by simp [modHost, vitals])

theorem inv_stopRings {fn : Nat} (h : Inv s) : Inv (stopRings s fn) := by
  unfold stopRings
  extract_lets
  exact inv_foldl h (fun _ _ hu => inv_disableRing (inv_forceFld hu))

theorem inv_stopSems {fn : Nat} (h : Inv s) : Inv (stopSems s fn) := inv_foldl h (fun _ _ hu => inv_logSem (inv_freeSem hu))

theorem inv_stopChannels {fn : Nat} (h : Inv s) : Inv (stopChannels s fn) := inv_foldl h (fun _ _ hu => inv_disableChannel hu)

theorem inv_functionStops {fn : Nat} (h : Inv s) : Inv (functionStops s fn) :=
  inv_stopChannels (inv_stopSems (inv_loseReplies (inv_stopRings h)))

theorem inv_hostEvent {kind hp fn : Nat} (h : Inv s) : Inv (hostEvent s kind hp fn) := inv_ite h (inv_postEvent h)

theorem inv_hostLinkUp {hp gen width : Nat} (h : Inv s) : Inv (hostLinkUp hp gen width s) := by
  unfold hostLinkUp
  split
  · exact h
  · extract_lets s1
    have hs1 : Inv s1 := inv_modHost h
    exact inv_withChain hs1 (fun _ => rfl)

theorem inv_linkLost {hp : Nat} (h : Inv s) : Inv (linkLost hp s) := by
  unfold linkLost
  split
  · exact h
  · extract_lets s1 s2
    have hs1 : Inv s1 := inv_modHost h
    have hs2 : Inv s2 := inv_functionStops (inv_functionStops hs1)
    exact inv_hostEvent (inv_raiseEv hs2)

theorem inv_hostLinkDown {hp : Nat} (h : Inv s) : Inv (hostLinkDown hp s) := inv_ite (inv_linkLost h) h

theorem inv_setRim {r : RimState} (h : Inv s) (e : r.vitals = s.rim.vitals) : Inv { s with rim := r } :=
  inv_of_vitals h (by simp only [vitals, e])

theorem inv_mailboxReset {requester : Nat} (h : Inv s) : Inv (mailboxReset s requester) := by
  unfold mailboxReset
  extract_lets rim box s1 rim1
  have hs1 : Inv s1 := inv_setRim h (by simp [RimState.vitals, rim])
  split
  · exact inv_ite (inv_setRim hs1 (by simp [RimState.vitals, rim1])) hs1
  · exact hs1

theorem inv_functionLevelReset {fn : Nat} (h : Inv s) : Inv (functionLevelReset fn s) := by
  unfold functionLevelReset
  split
  · exact h
  · extract_lets s1
    have hs1 : Inv s1 := inv_mailboxReset (inv_functionStops h)
    exact inv_hostEvent (inv_raiseEv hs1)

/-! ### Observation -/

theorem inv_sampleCounter (h : Inv s) : Inv (sampleCounter s) := by
  unfold sampleCounter
  extract_lets
  exact inv_ite (inv_of_vitals h rfl) (inv_of_vitals h rfl)

theorem inv_writeCntAddr {ix : List Nat} {v : Nat} (h : Inv s) : Inv (writeCntAddr s ix v) :=
  inv_sampleCounter (inv_landWrite h)

theorem inv_readCntHi (h : Inv s) : Inv (readCntHi s) := inv_ite (inv_sampleCounter (inv_forceFld h)) h

theorem inv_cntDataHiRead {req : Requester} {wide : Bool} (h : Inv s) : Inv (cntDataHiRead req wide s) := by
  unfold cntDataHiRead
  extract_lets _ s1
  have hs1 : Inv s1 := inv_ite (inv_emit h) h
  exact inv_ite (inv_emit h) (inv_readCntHi (inv_emit hs1))

theorem inv_setChained {part pair : Nat} {on : Bool} (h : Inv s) : Inv (setChained s part pair on) := by
  refine inv_withCounters h ?_
  split
  · exact h.counters
  · obtain ⟨hcounts, hchained, hfit⟩ := h.counters
    have hzeroed : CountersFit { s.counters with counts := tput 0 s.counters.counts (part * 1024 + 2 * pair + 1) 0 } :=
      countersFit_tput ⟨hcounts, hchained, hfit⟩ (by decide)
    exact ⟨hzeroed.1, twf_tput _ _ hchained, hzeroed.2.2⟩

theorem inv_writeCntChain {r : RegName} {ix : List Nat} {v : Nat} (h : Inv s) : Inv (writeCntChain s r ix v) := by
  unfold writeCntChain
  extract_lets
  exact inv_foldl (inv_landWrite h) (fun _ _ hu => inv_setChained hu)

theorem inv_cntSnapshot {h : CmdHeader} {p : List Byte} (hs : Inv s) : Inv (cntSnapshot h p s) := by
  unfold cntSnapshot
  extract_lets
  refine inv_runCommand hs (fun a1 u1 hu => ?_)
  extract_lets
  exact hu

theorem inv_writeTagSeed {ix : List Nat} {v : Nat} (h : Inv s) : Inv (writeTagSeed s ix v) := inv_of_vitals h rfl

theorem inv_withTrace {f : TraceState → TraceState} (h : Inv s) : Inv (withTrace s f) := inv_of_vitals h rfl

theorem inv_traceSettle (h : Inv s) : Inv (traceSettle s) := inv_of_vitals h rfl

theorem inv_resetWp (h : Inv s) : Inv (resetWp s) := inv_of_vitals h rfl

theorem inv_writeTrcCfg {ix : List Nat} {v : Nat} (h : Inv s) : Inv (writeTrcCfg s ix v) := by
  unfold writeTrcCfg
  extract_lets s1 s2
  have hs1 : Inv s1 := inv_landWrite h
  have hs2 : Inv s2 := inv_ite (inv_resetWp hs1) hs1
  exact inv_ite (inv_traceSettle hs2) hs2

theorem inv_storeBlock {block : List Byte} (h : Inv s) : Inv (storeBlock s block) := by
  unfold storeBlock
  extract_lets
  exact inv_ite h (inv_withTrace h)

theorem inv_traceBlockClose (h : Inv s) : Inv (traceBlockClose s) := by
  unfold traceBlockClose
  split
  · exact h
  · extract_lets _ _ _ s1 s2 s3
    have hs1 : Inv s1 := inv_withTrace h
    have hs2 : Inv s2 := inv_bump (inv_bump hs1)
    have hs3 : Inv s3 := inv_ite (inv_emit hs2) (inv_ite (inv_storeBlock hs2) hs2)
    exact inv_traceSettle hs3

/-! ### Power -/

theorem inv_withPower {f : PowerState → PowerState} (h : Inv s) : Inv (withPower s f) := inv_of_vitals h rfl

theorem inv_powerChanged (h : Inv s) : Inv (powerChanged s) := inv_of_vitals h rfl

theorem inv_portLosesMacro {p : Nat} (h : Inv s) : Inv (portLosesMacro s p) := by
  unfold portLosesMacro
  extract_lets _ s1
  have hs1 : Inv s1 := inv_failPort h
  exact inv_ite hs1 (inv_linkEvent hs1)

theorem inv_stopTest {l : Nat} (h : Inv s) : Inv (stopTest s l) := inv_ite (inv_modLane (inv_settlePrbs h)) h

theorem inv_powerDownMacro {m : Nat} (h : Inv s) : Inv (powerDownMacro s m) := by
  unfold powerDownMacro
  extract_lets s1 s2 s3
  have hs1 : Inv s1 := inv_foldl h (fun _ _ hu => inv_portLosesMacro hu)
  have hs2 : Inv s2 := inv_foldl hs1 (fun _ _ hu => inv_stopTest hu)
  have hs3 : Inv s3 := inv_foldl hs2 (fun _ _ hu => inv_abortReceive hu)
  exact inv_powerChanged (inv_withPower hs3)

theorem inv_powerUpMacro {m : Nat} (h : Inv s) : Inv (powerUpMacro s m) := by
  unfold powerUpMacro
  extract_lets s1 _ s2 s3
  have hs1 : Inv s1 := inv_withPower h
  have hs2 : Inv s2 := inv_foldl hs1 (fun _ _ hu => inv_modPort hu)
  have hs3 : Inv s3 := by
    unfold s3
    split
    · exact inv_takeMode (inv_of_vitals hs1 rfl)
    · exact inv_foldl hs2 (fun _ _ hu => inv_ite (inv_enablePort hu) hu)
  exact inv_powerChanged hs3

theorem inv_writePwrMacro {req : Requester} {off v : Nat} (h : Inv s) : Inv (writePwrMacro s req off v) := by
  unfold writePwrMacro
  extract_lets _ _ s1 s2
  have hs1 : Inv s1 := inv_landWrite h
  have hs2 : Inv s2 := inv_foldl hs1 (fun _ _ hu => inv_powerDownMacro hu)
  exact inv_ite (inv_accessError h) (inv_ite (inv_foldl hs2 (fun _ _ hu => inv_powerUpMacro hu)) hs2)

theorem inv_loadLoss {c : Nat} (h : Inv s) : Inv (loadLoss s c) := inv_foldl h (fun _ _ hu => inv_forceFld hu)

theorem inv_chipletCleared {c : Nat} (h : Inv s) : Inv (chipletCleared s c) := inv_of_vitals h rfl

theorem inv_powerDownChiplet {c : Nat} (h : Inv s) : Inv (powerDownChiplet s c) := by
  unfold powerDownChiplet
  extract_lets _ s1 s2
  have hs1 : Inv s1 := inv_foldl h (fun _ _ hu => inv_powerDownMacro hu)
  have hs2 : Inv s2 := inv_foldl hs1 (fun _ _ hu => inv_forceFld hu)
  exact inv_powerChanged (inv_chipletCleared (inv_withPower hs2))

theorem inv_powerUpChiplet {c : Nat} (h : Inv s) : Inv (powerUpChiplet s c) := by
  unfold powerUpChiplet
  extract_lets s1
  have hs1 : Inv s1 := inv_withPower h
  exact inv_powerChanged (inv_loadLoss (inv_chipletCleared hs1))

theorem inv_writePwrChiplet {v : Nat} (h : Inv s) : Inv (writePwrChiplet s v) := by
  unfold writePwrChiplet
  extract_lets _ s1 s2
  have hs1 : Inv s1 := inv_landWrite h
  have hs2 : Inv s2 := inv_foldl hs1 (fun _ _ hu => inv_powerDownChiplet hu)
  exact inv_ite (inv_foldl hs2 (fun _ _ hu => inv_powerUpChiplet hu)) hs2

theorem inv_powerDownStack {k : Nat} (h : Inv s) : Inv (powerDownStack s k) := by
  unfold powerDownStack
  extract_lets _ s1
  have hs1 : Inv s1 := inv_ite (inv_foldl h (fun _ _ hu => inv_retirePc hu)) h
  exact inv_stacksLeave (inv_withPower hs1)

theorem inv_writePwrStack {req : Requester} {off v : Nat} (h : Inv s) : Inv (writePwrStack s req off v) := by
  unfold writePwrStack
  extract_lets
  exact inv_ite (inv_accessError h) (inv_foldl (inv_landWrite h) (fun _ _ hu => inv_powerDownStack hu))

theorem inv_standbyRequest {req : Requester} {off : Nat} (h : Inv s) : Inv (standbyRequest s req off) :=
  inv_ite (inv_accessError h) (inv_withPower h)

theorem inv_wake {failed : List Nat} (h : Inv s) : Inv (wake s failed) :=
  inv_ite (inv_refreshExit (inv_wakeUp h)) (inv_ite (inv_withPower h) h)

theorem inv_writePwrCtl {req : Requester} {off v : Nat} {failed : List Nat} (h : Inv s) :
    Inv (writePwrCtl s req off v failed) := by
  unfold writePwrCtl
  split
  · exact inv_accessError h
  · split
    · exact inv_standbyRequest h
    · exact inv_wake h
    · exact h

theorem inv_standbyIdle (h : Inv s) : Inv (standbyIdle s) :=
  inv_ite (inv_ite (inv_withPower h) (inv_retain (inv_withPower h))) h

theorem inv_standbyAbandoned (h : Inv s) : Inv (standbyAbandoned s) := inv_ite (inv_raiseEv (inv_withPower h)) h

end

end Sys2Proof.Machine
end

