-- ==== Sys2Proof/Proofs/InvariantRim.lean ====
section
/-! SUPPORT. The invariant under the start of the device and the Rim: the counts of secure OTP stay within their steps. -/

namespace Sys2Proof.Machine

section
variable {s : State}

/-! ### The start -/

theorem inv_setSlot {k st : Nat} (h : Inv s) : Inv (setSlot s k st) := inv_withRim h (by simp [RimState.vitals])

theorem inv_logImage {k old new req : Nat} (h : Inv s) : Inv (logImage s k old new req) := by
  unfold logImage
  extract_lets
  exact inv_rimLog h

theorem inv_selectImage (h : Inv s) : Inv (selectImage s) := by
  unfold selectImage
  extract_lets s1 _ s2
  have hs1 : Inv s1 := inv_foldl h (fun _ _ hu => inv_ite (inv_logImage (inv_setSlot hu)) hu)
  have hs2 : Inv s2 := inv_foldl hs1 (fun _ _ hu => inv_setSlot hu)
  split
  · extract_lets
    exact inv_withRim hs2 (by simp [RimState.vitals])
  · exact inv_withRim hs2 (fun _ => rfl)

theorem inv_loadPatch (h : Inv s) : Inv (loadPatch s) := by
  unfold loadPatch
  split
  · exact h
  · extract_lets
    exact inv_of_vitals h rfl

/-- A change of the Rim that keeps secure OTP within its bounds. -/
theorem inv_withOtp {f : RimState → RimState} (h : Inv s) (hotp : OtpBounds (withRim s f))
    (hparts : ∀ x, (f x).boxes.length = x.boxes.length ∧ (f x).slots.length = x.slots.length) : Inv (withRim s f) := by
  obtain ⟨hdom, houts, hins, hhost, hready, hengines, hup, hcredits, hlearn, hboxes, hslots⟩ := h.parts
  exact ⟨hotp, h.counters, ⟨hdom, houts, hins, hhost, hready, hengines, hup, hcredits, hlearn,
    (hparts _).1.trans hboxes, (hparts _).2.trans hslots⟩, h.frames, h.images⟩

theorem inv_sessionStep (h : Inv s) : Inv (sessionStep s) := by
  unfold sessionStep
  extract_lets n s1
  split
  · exact inv_withRim h fun _ => rfl
  · next hleft =>
    obtain ⟨hlife, hroll, -, hpend⟩ := h.otp
    have hs1 : Inv s1 := inv_withOtp h ⟨hlife, hroll, Nat.lt_of_not_le hleft, hpend⟩ fun _ => ⟨rfl, rfl⟩
    exact inv_rimLog hs1

theorem inv_applyBoard (h : Inv s) : Inv (applyBoard s) :=
  inv_ite (inv_withRim h (fun _ => rfl)) (inv_rimLog (inv_withRim h (fun _ => rfl)))

theorem inv_sealedLocks (h : Inv s) : Inv (sealedLocks s) := by
  unfold sealedLocks
  split
  · exact h
  · extract_lets s1
    have hs1 : Inv s1 := inv_forceReg h
    exact inv_setCell (inv_forceReg hs1)

theorem inv_logTamper (h : Inv s) : Inv (logTamper s) := inv_rimLog h

theorem inv_logRetired (h : Inv s) : Inv (logRetired s) := by
  unfold logRetired
  split
  · exact inv_ite (inv_logLifecycle h) h
  · exact h

theorem inv_logSession {attempts cause : Nat} (h : Inv s) : Inv (logSession s attempts cause) := by
  unfold logSession
  extract_lets s1 s2
  have hs1 : Inv s1 := inv_rimLog h
  have hs2 : Inv s2 := by
    unfold s2
    split
    · exact inv_rimLog (inv_withRim hs1 (fun _ => rfl))
    · exact hs1
  exact inv_ite hs2 (inv_rimLog hs2)

theorem inv_startChain {root : List Byte} {restart : Bool} (h : Inv s) :
    Inv { s with lid := { s.lid with prevRoot := root, chainRestart := restart } } := inv_of_vitals h rfl

theorem inv_startTimePower {holdover : Bool} {p : PowerState} (h : Inv s) :
    Inv { s with time := { s.time with holdover := holdover }, power := p } := inv_of_vitals h rfl

theorem inv_rimStart {i : StartInfo} (h : Inv s) : Inv (rimStart s i) := by
  unfold rimStart
  extract_lets exhausted s1 s2 attempts cause s3 s4 s5 root lid s6 time power s7
  have hs1 : Inv s1 := inv_withRim h fun _ => rfl
  have hs2 : Inv s2 := inv_sessionStep (inv_selectImage hs1)
  have hs3 : Inv s3 := inv_logRetired (inv_logSession hs2)
  clear_value attempts cause
  have hs4 : Inv s4 := inv_withRim hs3 fun _ => rfl
  have hs5 : Inv s5 := inv_sealedLocks (inv_applyBoard (inv_loadPatch hs4))
  have hs6 : Inv s6 := inv_sealLost (inv_startChain hs5)
  have hs7 : Inv s7 := inv_startTimePower hs6
  exact inv_ite (inv_logTamper (inv_withRim hs7 fun _ => rfl)) (inv_withRim hs7 fun _ => rfl)

theorem inv_retireAtStart {f : Nat × Nat} (h : Inv s) : Inv (retireAtStart s f) := by
  unfold retireAtStart
  extract_lets s1 s2
  have hs1 : Inv s1 := inv_modPc h
  have hs2 : Inv s2 := inv_logUe hs1
  exact inv_hbmEventPost (inv_raiseEv hs2)

theorem inv_trained {i : StartInfo} {fs : List (Nat × Nat)} (h : Inv s) : Inv (trained s i fs) := by
  unfold trained
  extract_lets _ s1 s2
  have hs1 : Inv s1 := inv_foldl h (fun _ _ hu => inv_setWindows hu)
  have hs2 : Inv s2 := inv_foldl hs1 (fun _ _ hu => inv_retireAtStart hu)
  exact inv_of_vitals hs2 rfl

theorem inv_flowCoreInit (h : Inv s) : Inv (flowCoreInit s) := inv_of_vitals h rfl

theorem inv_powerLine (h : Inv s) : Inv (powerLine s) := by
  unfold powerLine
  extract_lets _ s1 s2
  have hs1 : Inv s1 := inv_withPower h
  have hs2 : Inv s2 := inv_foldl hs1 (fun _ _ hu => inv_loadLoss hu)
  exact inv_withPower hs2

theorem inv_startCompletes (h : Inv s) : Inv (startCompletes s) := by
  unfold startCompletes
  extract_lets s1 s2
  have hs1 : Inv s1 := inv_withRim h (fun _ => rfl)
  have hs2 : Inv s2 := inv_rimLog hs1
  exact inv_settle (inv_withSched hs2 (fun _ => rfl))

theorem inv_normalStart {i : StartInfo} (h : Inv s) : Inv (normalStart s i) := by
  unfold normalStart
  extract_lets _ s1 s2
  have hs1 : Inv s1 := inv_openFirst (inv_flowCoreInit (inv_trained h))
  have hs2 : Inv s2 := inv_ite (inv_gapOpen hs1) hs1
  exact inv_ite (inv_deviceReset (inv_flushLog (inv_trained h))) (inv_startCompletes (inv_armTimers (inv_powerLine hs2)))

theorem inv_deviceStart {i : StartInfo} (h : Inv s) : Inv (deviceStart i s) :=
  inv_ite h (inv_ite (inv_rimStart h) (inv_ite h (inv_normalStart h)))

theorem inv_startFailTimeout (h : Inv s) : Inv (startFailTimeout s) := inv_ite (inv_deviceReset (inv_flushLog h)) h

theorem inv_powerLost (h : Inv s) : Inv (powerLost s) := inv_withRim (inv_deviceReset (inv_of_vitals h rfl)) (fun _ => rfl)

theorem inv_powerOnReset (h : Inv s) : Inv (powerOnReset s) := inv_powerLost h

theorem inv_suppliesRemoved (h : Inv s) : Inv (suppliesRemoved s) := inv_powerLost h

theorem inv_watchdogExpire (h : Inv s) : Inv (watchdogExpire s) := inv_ite h (inv_deviceReset (inv_of_vitals h rfl))

theorem inv_supplyFault {rail value : Nat} (h : Inv s) : Inv (supplyFault rail value s) := by
  unfold supplyFault
  extract_lets _ s1
  have hs1 : Inv s1 := inv_rimLog h
  exact inv_deviceReset (inv_withRim hs1 (fun _ => rfl))

theorem inv_crystalLoss (h : Inv s) : Inv (crystalLoss s) := inv_ite (inv_withRim (inv_deviceReset h) (fun _ => rfl)) h

theorem inv_crystalReturn (h : Inv s) : Inv (crystalReturn s) := inv_ite (inv_withRim h (fun _ => rfl)) h

theorem inv_writeGlbReset {req : Requester} {off v : Nat} (h : Inv s) : Inv (writeGlbReset s req off v) :=
  inv_ite (inv_accessError h) (inv_startTransition h)

theorem inv_attentionWaitLimit (h : Inv s) : Inv (attentionWaitLimit s) := by
  unfold attentionWaitLimit
  split
  · exact inv_ite (inv_beginClose h) h
  · exact h

theorem inv_closeWaitLimit (h : Inv s) : Inv (closeWaitLimit s) := by
  unfold closeWaitLimit
  split
  · exact inv_ite (inv_finishTransition h) h
  · exact h

/-! ### The Rim -/

theorem inv_sensorWarning {k t : Nat} (h : Inv s) : Inv (sensorWarning s k t) := by
  unfold sensorWarning
  extract_lets _ s1 s2 s3
  have hs1 : Inv s1 := inv_withRim h (fun _ => rfl)
  have hs2 : Inv s2 := inv_rimLog hs1
  have hs3 : Inv s3 := inv_withRim h (fun _ => rfl)
  exact inv_ite (inv_rimEventPost (inv_raiseEv hs2)) (inv_ite (inv_rimEventPost (inv_raiseEv hs3)) h)

theorem inv_shutDown (h : Inv s) : Inv (shutDown s) := inv_withRim (inv_deviceReset h) (fun _ => rfl)

theorem inv_sensorPoll {temps : List (Option Nat)} {volts : List Nat} (h : Inv s) :
    Inv (sensorPoll temps volts s) := by
  unfold sensorPoll
  split
  · exact h
  · extract_lets _ s1 s2 s3
    have hs1 : Inv s1 := inv_withRim h (fun _ => rfl)
    have hs2 : Inv s2 := inv_foldl hs1 (fun _ _ hu => inv_sensorWarning hu)
    have hs3 : Inv s3 := inv_foldl hs2 (fun _ _ hu => inv_refreshRate hu)
    exact inv_ite hs1 (inv_ite (inv_shutDown hs1) (inv_ite (inv_startTransition hs3) hs3))

theorem inv_pmbusPoll {status : List Nat} (h : Inv s) : Inv (pmbusPoll status s) := by
  unfold pmbusPoll
  split
  · exact h
  · refine inv_foldl h (fun u1 a1 hu => ?_)
    extract_lets _ s1
    have hs1 : Inv s1 := inv_rimLog hu
    exact inv_rimEventPost (inv_raiseEv hs1)

theorem inv_tamperAssert (h : Inv s) : Inv (tamperAssert s) := by
  unfold tamperAssert
  split
  · exact h
  · extract_lets s1
    have hs1 : Inv s1 := inv_logTamper (inv_withRim h (fun _ => rfl))
    exact inv_gapOpen (inv_rimEventPost (inv_raiseEv hs1))

theorem inv_tamperRelease (h : Inv s) : Inv (tamperRelease s) :=
  inv_ite (inv_rimEventPost (inv_raiseEv (inv_withRim h (fun _ => rfl)))) h

theorem inv_tapInstruction {op : TapOp} (h : Inv s) : Inv (tapInstruction op s) := by
  unfold tapInstruction
  extract_lets _ s1
  have hs1 : Inv s1 := inv_withRim h (fun _ => rfl)
  exact inv_ite (inv_emit hs1) hs1

theorem inv_setBox {m : Nat} {b : Mailbox} (h : Inv s) : Inv (setBox s m b) := inv_withRim h (by simp [RimState.vitals])

theorem inv_respond {m status : Nat} {data : List Byte} (h : Inv s) : Inv (respond s m status data) := by
  unfold respond
  extract_lets _ _ s1 s2
  have hs1 : Inv s1 := inv_foldl h (fun _ _ hu => inv_forceReg hu)
  have hs2 : Inv s2 := inv_setBox hs1
  exact inv_ite (inv_emit hs2) hs2

theorem inv_serve {op m : Nat} {priv min : Bool} {need : Nat} {work : State → List Byte → Nat × List Byte × State}
    (h : Inv s) (hwork : ∀ u1 a2, Inv u1 → Inv (work u1 a2).2.2) :
    Inv (serve s op m priv min need work) := by
  unfold serve
  split
  · exact h
  · extract_lets s1 s2
    have hs1 : Inv s1 := inv_withRim h (fun _ => rfl)
    have hs2 : Inv s2.2.2 := hwork _ _ hs1
    exact inv_ite (inv_respond hs1) (inv_ite (inv_respond hs1) (inv_ite (inv_respond hs1) (inv_respond hs2)))

theorem inv_mbxInfo {m : Nat} (h : Inv s) : Inv (mbxInfo m s) := inv_serve h (fun _ _ hu => hu)

theorem inv_mbxLogRead {m : Nat} (h : Inv s) : Inv (mbxLogRead m s) := by
  unfold mbxLogRead
  refine inv_serve h (fun u a hu => ?_)
  extract_lets
  split <;> exact hu

theorem inv_mbxCertRead {m : Nat} (h : Inv s) : Inv (mbxCertRead m s) := inv_serve h (fun _ _ hu => hu)

theorem inv_mbxAttest {m : Nat} (h : Inv s) : Inv (mbxAttest m s) := by
  unfold mbxAttest
  refine inv_serve h (fun u a hu => ?_)
  split
  next t e =>
    have ht : Inv t := inv_of_pair e (inv_drawFree hu)
    exact ht

theorem inv_mbxSensorRead {m : Nat} (h : Inv s) : Inv (mbxSensorRead m s) := inv_serve h (fun _ _ hu => hu)

theorem inv_imageChanged {k old new req : Nat} (h : Inv s) : Inv (imageChanged s k old new req) := by
  unfold imageChanged
  extract_lets s1
  have hs1 : Inv s1 := inv_logImage h
  exact inv_rimEventPost (inv_raiseEv hs1)

theorem inv_mbxImgBegin {m : Nat} (h : Inv s) : Inv (mbxImgBegin m s) := by
  unfold mbxImgBegin
  refine inv_serve h (fun u a hu => ?_)
  extract_lets
  split
  · split
    · exact hu
    · split
      · exact hu
      · split
        · exact hu
        · dsimp only
          exact inv_withRim hu (by simp [RimState.vitals])
  · split
    · exact hu
    · split
      · exact hu
      · split
        · exact hu
        · dsimp only
          exact inv_withRim hu (by simp [RimState.vitals])

theorem inv_mbxImgData {m : Nat} (h : Inv s) : Inv (mbxImgData m s) := by
  unfold mbxImgData
  refine inv_serve h (fun u a hu => ?_)
  split
  · exact hu
  · extract_lets
    split
    · exact hu
    · dsimp only
      exact inv_withRim hu (by simp [RimState.vitals])

theorem inv_mbxImgEnd {m : Nat} (h : Inv s) : Inv (mbxImgEnd m s) := by
  unfold mbxImgEnd
  refine inv_serve h (fun u a hu => ?_)
  split
  · exact hu
  · extract_lets
    split
    · exact hu
    · split
      · exact hu
      · exact inv_imageChanged (inv_withRim (inv_setSlot hu) (fun _ => rfl))

theorem inv_confirmImage {m k : Nat} (h : Inv s) : Inv (confirmImage s m k) := by
  unfold confirmImage
  extract_lets old new s1 s2 former s3
  have hnew : new ≤ 1024 := Nat.max_le.mpr ⟨h.otp.2.1, Nat.min_le_left ..⟩
  have hs1 : Inv s1 := inv_ite h (inv_rimLog h)
  clear_value s1 new
  obtain ⟨hlife, -, hsess, hpend⟩ := hs1.otp
  have hs2 : Inv s2 := inv_withOtp hs1 ⟨hlife, hnew, hsess, hpend⟩ fun _ => ⟨rfl, rfl⟩
  exact inv_foldl (inv_imageChanged (inv_setSlot hs2)) fun u j hu => inv_imageChanged (inv_setSlot hu)

theorem inv_mbxImgConfirm {m : Nat} (h : Inv s) : Inv (mbxImgConfirm m s) := by
  unfold mbxImgConfirm
  refine inv_serve h (fun u a hu => ?_)
  split
  · exact hu
  · split
    · split
      · extract_lets s1
        have hs1 : Inv s1 := inv_confirmImage hu
        exact hs1
      · exact hu
    · exact hu

theorem inv_burnKey (h : Inv s) : Inv (burnKey s) := inv_ite h (inv_of_vitals h rfl)

/-- A request to RETIRED burns its fuses; the others pend. -/
theorem inv_requestLifecycle {target : Nat} (h : Inv s) (htarget : target ≤ 3) : Inv (requestLifecycle s target) := by
  unfold requestLifecycle
  extract_lets from_ s1 s2 s3
  have hs1 : Inv s1 := inv_logLifecycle h
  split
  · obtain ⟨-, hroll, hsess, hpend⟩ := hs1.otp
    exact inv_rimEventPost (inv_raiseEv (inv_logLifecycle (inv_withOtp hs1 ⟨le_rfl, hroll, hsess, hpend⟩ fun _ => ⟨rfl, rfl⟩)))
  · next hne =>
    have hs3 : Inv s3 := inv_ite (inv_burnKey hs1) hs1
    obtain ⟨hlife, hroll, hsess, -⟩ := hs3.otp
    exact inv_withOtp hs3 ⟨hlife, hroll, hsess, by change target ≤ 2; omega⟩ fun _ => ⟨rfl, rfl⟩

theorem inv_mbxLifecycle {m : Nat} {burnFails : Bool} (h : Inv s) : Inv (mbxLifecycle m burnFails s) := by
  unfold mbxLifecycle
  extract_lets s1 s2
  have hs1 : Inv s1 := by
    refine inv_serve h fun u p hu => ?_
    extract_lets target l
    have htarget : target ≤ 3 := Nat.le_of_lt_succ (Nat.mod_lt _ (by decide))
    split
    · exact hu
    · split
      · exact hu
      · exact inv_requestLifecycle hu htarget
  have hs2 : Inv s2 := inv_burnChecked hs1
  exact inv_ite (inv_startTransition hs2) hs2

theorem inv_mbxReset {m : Nat} (h : Inv s) : Inv (mbxReset m s) := by
  unfold mbxReset
  extract_lets _ s1
  have hs1 : Inv s1 := inv_serve h (fun _ _ hu => inv_ite hu (inv_rimLog hu))
  exact inv_ite (inv_startTransition hs1) hs1

theorem inv_mbxBoardWrite {m : Nat} (h : Inv s) : Inv (mbxBoardWrite m s) := by
  unfold mbxBoardWrite
  refine inv_serve h (fun u a hu => ?_)
  split
  · dsimp only
    exact inv_withRim hu (fun _ => rfl)
  · exact hu

theorem inv_writeMbxCtl {req : Requester} {off : Nat} {ix : List Nat} {v : Nat} (h : Inv s) :
    Inv (writeMbxCtl s req off ix v) := by
  unfold writeMbxCtl
  extract_lets _ s1
  have hs1 : Inv s1 := inv_landWrite h
  exact inv_ite hs1 (inv_ite (inv_accessError hs1) (inv_ite (inv_setBox hs1) (inv_respond hs1)))

end

end Sys2Proof.Machine
end

