-- ==== Sys2Proof/Proofs/InvariantWindows.lean ====
section
/-! SUPPORT. The invariant under the windows, every register access, and the crossbar. -/

namespace Sys2Proof.Machine

section
variable {s : State}

/-! ### Windows -/

theorem inv_fillData {r : RegName} {pre ws : List Nat} (h : Inv s) : Inv (fillData s r pre ws) :=
  inv_foldl h (fun _ _ hu => inv_forceReg hu)

theorem inv_windowEdit {r : RegName} {sl index : Nat} {ws : List Nat} (h : Inv s) :
    Inv (windowEdit s r sl index ws) := inv_of_vitals h rfl

theorem inv_prsWrite {sl target i : Nat} (h : Inv s) : Inv (prsWrite s sl target i).2 := by
  unfold prsWrite
  extract_lets _ _ _ s1
  have hs1 : Inv s1 := inv_modSlice h
  exact inv_ite_snd h (inv_ite_snd h (inv_ite_snd h (inv_ite_snd h (inv_windowEdit hs1))))

theorem inv_prsRead {sl target i : Nat} {ecc : Ecc} (h : Inv s) : Inv (prsRead s sl target i ecc).2 := by
  unfold prsRead
  split
  · exact h
  · split
    · exact inv_fillData h
    · extract_lets
      exact inv_forceReg (inv_fillData h)

theorem inv_writePrsInd {ix : List Nat} {v : Nat} {ecc : Ecc} (h : Inv s) : Inv (writePrsInd s ix v ecc) := by
  unfold writePrsInd
  extract_lets sl s1 i
  have hs1 : Inv s1 := inv_landWrite h
  refine inv_ite hs1 ?_
  split
  next res t e =>
    have ht : Inv t := by
      refine inv_of_pair e ?_
      split
      · exact inv_prsWrite hs1
      · exact inv_prsRead hs1
    exact inv_ite (inv_forceFld (inv_forceFld ht)) (inv_forceFld ht)

theorem inv_tcamWindowWrite {sl i : Nat} (h : Inv s) : Inv (tcamWindowWrite s sl i).2 := by
  unfold tcamWindowWrite
  extract_lets _ _ _ _ _ _ s1
  have hs1 : Inv s1 := inv_modSlice h
  exact inv_ite_snd h (inv_ite_snd h (inv_ite_snd h (inv_ite_snd h (inv_ite_snd h (inv_windowEdit hs1)))))

theorem inv_tcamWindowRead {sl i : Nat} {ecc : Ecc} (h : Inv s) : Inv (tcamWindowRead s sl i ecc).2 :=
  inv_ite_snd (inv_fillData h) (inv_fillData h)

theorem inv_writeTcamInd {ix : List Nat} {v : Nat} {ecc : Ecc} (h : Inv s) : Inv (writeTcamInd s ix v ecc) := by
  unfold writeTcamInd
  extract_lets sl s1 i
  have hs1 : Inv s1 := inv_landWrite h
  refine inv_ite hs1 ?_
  split
  next res t e =>
    have ht : Inv t := by
      refine inv_of_pair e ?_
      split
      · exact inv_tcamWindowWrite hs1
      · exact inv_tcamWindowRead hs1
    exact inv_ite (inv_forceFld (inv_forceFld ht)) (inv_forceFld ht)

theorem inv_writeTotInd {v : Nat} {ecc : Ecc} (h : Inv s) : Inv (writeTotInd s v ecc) := by
  unfold writeTotInd
  extract_lets s1 _ _ s2 s3
  have hs1 : Inv s1 := inv_landWrite h
  have hs2 : Inv s2 := inv_ite (inv_fillData hs1) hs1
  have hs3 : Inv s3 := inv_forceFld hs2
  exact inv_ite hs1 (inv_ite (inv_forceFld hs3) hs3)

theorem inv_writeTcamBlk {ix : List Nat} {v : Nat} (h : Inv s) : Inv (writeTcamBlk s ix v) :=
  inv_ite (inv_landWrite h) (inv_raiseEv h)

theorem inv_writeOnce {r : RegName} {ix : List Nat} {v : Nat} (h : Inv s) : Inv (writeOnce s r ix v) := inv_of_vitals h rfl

theorem inv_writeBoardId {req : Requester} {ix : List Nat} {v : Nat} (h : Inv s) :
    Inv (writeBoardId s req ix v) := inv_rimLog (inv_writeOnce h)

/-! ### Register reads -/

theorem inv_sealAdvance (h : Inv s) : Inv (sealAdvance s) := by
  unfold sealAdvance
  extract_lets _ _ s1
  have hs1 : Inv s1 := inv_forceFld (inv_of_vitals h rfl)
  exact inv_ite (inv_sealReadEnd hs1) hs1

theorem inv_afterRead {r : RegName} {full wide : Bool} (h : Inv s) : Inv (afterRead s r full wide) := by
  unfold afterRead
  split
  · exact inv_forceFld h
  · exact inv_sealAdvance h
  · exact inv_ite (inv_forceFld h) h
  · exact inv_readCntHi h
  · exact inv_ite (inv_withTime h (fun _ => rfl)) h
  · exact inv_ite h (inv_withTime h (fun _ => rfl))
  · exact inv_of_vitals h rfl
  · exact h

theorem inv_readReg {req : Requester} {off : Nat} {w : Width} (h : Inv s) : Inv (readReg s req off w).2 := by
  unfold readReg
  split
  · exact h
  · split
    · exact h
    · split
      · dsimp only
        exact inv_accessError h
      · split
        · exact inv_readSem h
        · extract_lets
          exact inv_afterRead h

theorem inv_answerRead {req : Requester} {off : Nat} {w : Width} (h : Inv s) : Inv (answerRead s req off w) := by
  unfold answerRead
  split
  next t e =>
    have ht : Inv t := inv_of_pair e (inv_readReg h)
    exact inv_emit ht

theorem inv_dataRead {req : Requester} {r : RegName} {wide : Bool} (h : Inv s) : Inv (dataRead s req r wide) := by
  unfold dataRead
  extract_lets
  exact inv_ite (inv_answerRead (inv_answerRead h)) (inv_answerRead h)

/-! ### Register writes -/

theorem inv_setSample {data info : Nat} (h : Inv s) : Inv (setSample s data info) := inv_of_vitals h rfl

theorem inv_sampleReg {req : Requester} {off : Nat} (h : Inv s) : Inv (sampleReg s req off) := by
  unfold sampleReg
  split
  · exact inv_setSample h
  · extract_lets
    exact inv_ite (inv_setSample h) (inv_ite (inv_accessError (inv_setSample h)) (inv_setSample h))

theorem inv_writeIfrAddr {req : Requester} {v : Nat} (h : Inv s) : Inv (writeIfrAddr s req v) := inv_sampleReg (inv_landWrite h)

theorem inv_writeTimed {t : State} {req : Requester} {off : Nat} {r : RegName} {ix : List Nat} {v : Nat} (h : Inv s)
    (e : writeTimed s req off r ix v = some t) : Inv t := by
  unfold writeTimed at e
  split at e
  · cases e
    exact inv_writeTdCtl h
  · cases e
    exact inv_writeTimeCtl h
  · cases e
    exact inv_writeToutCtl h
  · cases e
    exact inv_writeTinPop h
  · cases e
    exact inv_writeSnapCtl h
  · cases e
    exact inv_writeStampSet h
  · cases e
    exact inv_writeStampSet h
  · cases e
    exact inv_writeStampSet h
  · cases e
    exact inv_writePortCtl h
  · cases e
    exact inv_writeMacroMode h
  · cases e
    exact inv_writeLaneCfg h
  · cases e
    exact inv_writeLaneTest h
  · cases e
    exact inv_writeLaneInd h
  · cases e
    exact inv_writePwrMacro h
  · cases e
    exact inv_writePwrChiplet h
  · cases e
    exact inv_writePwrStack h
  · cases e
    exact inv_writePwrCtl h
  · cases e
    exact inv_writeGlbReset h
  · cases e

theorem inv_writeQueued {t : State} {r : RegName} {ix : List Nat} {v : Nat} (h : Inv s)
    (e : writeQueued s r ix v = some t) : Inv t := by
  unfold writeQueued at e
  split at e
  · cases e
    exact inv_writeShaperCfg h
  · cases e
    exact inv_writeShaperCfg h
  · cases e
    exact inv_writeShaperRate h
  · cases e
    exact inv_writeShaperRate h
  · cases e
    exact inv_writeShaperRate h
  · cases e
    exact inv_writeShaperRate h
  · cases e
    exact inv_writeOwnCfg h
  · cases e
    exact inv_writeOwnCfg h
  · cases e
    exact inv_writeCredit h
  · cases e
    exact inv_writeGclInd h
  · cases e
    exact inv_writeGclAdmin h
  · cases e
    exact inv_writePolInd h
  · cases e

theorem inv_writeHosted {t : State} {req : Requester} {off : Nat} {r : RegName} {ix : List Nat} {v : Nat} (h : Inv s)
    (e : writeHosted s req off r ix v = some t) : Inv t := by
  unfold writeHosted at e
  split at e
  · cases e
    exact inv_writeRingCfg h
  · cases e
    exact inv_writeRingCfg h
  · cases e
    exact inv_writeRingCfg h
  · cases e
    exact inv_writeCrPi h
  · cases e
    exact inv_writeRingCi h
  · cases e
    exact inv_writeRingCi h
  · cases e
    exact inv_writeRingOwn h
  · cases e
    exact inv_writeSem h
  · cases e
    exact inv_writeDmaCtl h
  · cases e
    exact inv_writeCqCi h
  · cases e
    exact inv_writeDmaOwn h
  · rw [← Option.some.inj e]
    exact inv_foldl (inv_landWrite h) fun _ _ hu => inv_dropUntaken hu
  · cases e
    exact inv_writeChainCfg h
  · cases e
    exact inv_writeMbxCtl h
  · cases e

theorem inv_writeWindowed {t : State} {req : Requester} {off : Nat} {r : RegName} {ix : List Nat} {v : Nat} (h : Inv s)
    (e : writeWindowed s req off r ix v = some t) : Inv t := by
  unfold writeWindowed at e
  split at e
  · cases e
    exact inv_writePrsInd h
  · cases e
    exact inv_writeTcamInd h
  · cases e
    exact inv_writeTotInd h
  · cases e
    exact inv_sealReadEnd (inv_landWrite h)
  · cases e
    exact inv_writeTcamBlk h
  · cases e
    exact inv_writeOnce h
  · cases e
    exact inv_writeBoardId h
  · cases e
    exact inv_writeIfrAddr h
  · cases e
    exact inv_writeCntAddr h
  · cases e
    exact inv_writeCntChain h
  · cases e
    exact inv_writeCntChain h
  · cases e
    exact inv_writeTagSeed h
  · cases e
    exact inv_writeTrcCfg h
  · cases e
    exact inv_writeHbmRetire h
  · cases e
    exact inv_writeHbmInd h
  · cases e

theorem inv_writeCollector {ix : List Nat} {v : Nat} (h : Inv s) : Inv (writeCollector s ix v) := by
  unfold writeCollector
  extract_lets _ s1 _ s2 s3
  have hs1 : Inv s1 := inv_landWrite h
  have hs2 : Inv s2 := inv_ite hs1 (inv_withSched hs1 (fun _ => rfl))
  have hs3 : Inv s3 := inv_raiseTask hs2
  exact inv_ite (inv_withSched hs3 (fun _ => rfl)) hs2

theorem inv_writeCommitted {off : Nat} {r : RegName} {ix : List Nat} {v : Nat} (h : Inv s) :
    Inv (writeCommitted s off r ix v) := inv_of_vitals h rfl

theorem inv_writeAccepted {req : Requester} {off : Nat} {r : RegName} {ix : List Nat} {v : Nat} (h : Inv s) :
    Inv (writeAccepted s req off r ix v) := by
  unfold writeAccepted
  split
  · next t e =>
    simp only [Option.or_eq_some_iff] at e
    rcases e with e | ⟨-, e | ⟨-, e | ⟨-, e⟩⟩⟩
    · exact inv_writeTimed h e
    · exact inv_writeQueued h e
    · exact inv_writeHosted h e
    · exact inv_writeWindowed h e
  · exact inv_ite (inv_writeCollector h) (inv_ite h (inv_ite (inv_ackWrite h) (inv_ite (inv_writeCommitted h) (inv_landWrite h))))

theorem inv_writeReg {req : Requester} {off v : Nat} (h : Inv s) : Inv (writeReg s req off v) := by
  unfold writeReg
  split
  · exact h
  · split
    · exact inv_accessError h
    · exact inv_writeAccepted h

theorem inv_accessWrite {req : Requester} {w : Width} {off v : Nat} (h : Inv s) :
    Inv (accessWrite s req w off v) := by
  unfold accessWrite
  split
  · exact h
  · exact inv_accessError h
  · exact inv_accessError h
  · exact inv_ite (inv_writeReg h) (inv_accessError h)
  · exact inv_ite (inv_writeReg (inv_writeReg h)) (inv_accessError h)
  · exact inv_accessError h
  · exact inv_accessError h

theorem inv_accessRead {req : Requester} {w : Width} {off : Nat} (h : Inv s) : Inv (accessRead s req w off) := by
  unfold accessRead
  extract_lets zero
  have hzero (u : State) (hu : Inv u) : Inv (zero u) := inv_emit hu
  split
  · exact hzero s h
  · exact inv_emit (inv_readReg h)
  · exact inv_emit (inv_readReg h)
  · exact inv_ite (inv_answerRead h) (hzero _ (inv_accessError h))
  · exact inv_ite (inv_answerRead (inv_answerRead h)) (hzero _ (inv_accessError h))
  · exact hzero _ (inv_accessError h)
  · exact inv_accessError h

theorem inv_eventAck {req : Requester} {off v : Nat} (h : Inv s) : Inv (eventAck req off v s) := by
  unfold eventAck
  split
  · exact inv_accessError h
  · exact inv_ite (inv_ackWrite h) h

theorem inv_readMany {req : Requester} {n off : Nat} {a : List Nat × State} (h : Inv a.2) : Inv (readMany req n off a).2 := by
  induction n generalizing off a with
  | zero => exact h
  | succ n ih => exact ih (inv_readReg h)

theorem inv_regRead {h : CmdHeader} {p : List Byte} (hs : Inv s) : Inv (regRead h p s) := by
  unfold regRead
  extract_lets
  refine inv_runAtOnce hs (fun u hu => ?_)
  extract_lets s1
  have hs1 : Inv s1.2 := inv_readMany hu
  exact hs1

theorem inv_writeMany {req : Requester} {ws : List (Nat × Nat)} {a : Nat × State} (h : Inv a.2) :
    Inv (writeMany req ws a).2 := by
  induction ws generalizing a with
  | nil => exact h
  | cons w ws ih => exact ih (inv_writeReg h)

theorem inv_regWrite {h : CmdHeader} {p : List Byte} (hs : Inv s) : Inv (regWrite h p s) := by
  unfold regWrite
  extract_lets
  refine inv_runAtOnce hs (fun u hu => ?_)
  extract_lets s1
  have hs1 : Inv s1.2 := inv_writeMany hu
  exact hs1

/-! ### The crossbar -/

theorem inv_crossedWhole {id : Nat} (h : Inv s) : Inv (crossedWhole s id) := inv_onFrame h (fun _ => inv_ite h (inv_dropRef h))

theorem inv_sendUnit {i e : Nat} (h : Inv s) : Inv (sendUnit s i e) := by
  unfold sendUnit
  split
  · exact h
  · extract_lets _ _ _ s1 s2 _ s3
    have hs1 : Inv s1 := inv_modStore h
    have hs2 : Inv s2 := inv_bump (inv_cntSl hs1)
    have hs3 : Inv s3 := inv_of_vitals hs2 rfl
    exact inv_foldl hs3 (fun _ _ hu => inv_crossedWhole hu)

theorem inv_sendMatched {x : Matching} (h : Inv s) : Inv (sendMatched s x) := by
  unfold sendMatched
  refine inv_foldl h (fun u1 a1 hu => ?_)
  split
  · exact hu
  · exact inv_sendUnit hu

theorem inv_setWale {w : WaleState} (h : Inv s) : Inv { s with wale := w } := inv_of_vitals h rfl

theorem inv_waleMatch {ue : Option (Nat × Nat)} (h : Inv s) : Inv (waleMatch ue s) := by
  unfold waleMatch
  extract_lets s1 x w
  have hs1 : Inv s1 := by
    unfold s1
    split
    · exact inv_descUe h
    · exact h
  exact inv_sendMatched (inv_setWale hs1)

theorem inv_unitArrive {sl port cls : Nat} (h : Inv s) : Inv (unitArrive sl port cls s) := by
  unfold unitArrive
  split
  · exact h
  · extract_lets _ s1
    have hs1 : Inv s1 := inv_of_vitals h rfl
    exact inv_judgeHeads (inv_unitHeld (inv_foldl hs1 (fun _ _ hu => inv_segArrives hu)))

end

end Sys2Proof.Machine
end

