-- ==== Sys2Proof/Proofs/StepsKeepTheInvariant.lean ====
section
/-! PROOF. Every step keeps the invariant (10/R322, R340, R342; 12/R366; 13/R395; 16/R469, R471, R476, R479, R487; 17/R488). -/

namespace Sys2Proof.Machine

/-- What an outcome says of the invariant: a state that it goes on with meets it. -/
def OutcomeInv (o : Host.Outcome State Fault Refusal) : Prop := ∀ t, o = .next t → Inv t

theorem outcomeInv_next {t : State} (h : Inv t) : OutcomeInv (.next t) := by
  rintro _ ⟨⟩
  exact h

/-- Every command keeps the invariant. -/
theorem outcomeInv_exec {s : State} (i : Instr) (h : Inv s) : OutcomeInv (exec i s) := by
  cases i with
  | frameReceive => exact outcomeInv_next (inv_frameReceive h)
  | frameTail => exact outcomeInv_next (inv_frameTail h)
  | headParse => exact outcomeInv_next (inv_headParse h)
  | classify => exact outcomeInv_next (inv_classify h)
  | flowLookup => exact outcomeInv_next (inv_flowLookup h)
  | tagLineRead => exact outcomeInv_next (inv_tagLineRead h)
  | recordBurstsRead => exact outcomeInv_next (inv_recordBurstsRead h)
  | writeBackDone => exact outcomeInv_next (inv_writeBackDone h)
  | learnRequest => exact outcomeInv_next (inv_learnRequest h)
  | fitchLearn => exact outcomeInv_next (inv_fitchLearn h)
  | rewrite => exact outcomeInv_next (inv_rewrite h)
  | policerMeter => exact outcomeInv_next (inv_policerMeter h)
  | cellAdmit => exact outcomeInv_next (inv_cellAdmit h)
  | waleMatch => exact outcomeInv_next (inv_waleMatch h)
  | unitArrive => exact outcomeInv_next (inv_unitArrive h)
  | egressPick => exact outcomeInv_next (inv_egressPick h)
  | frameSent => exact outcomeInv_next (inv_frameSent h)
  | correction => exact outcomeInv_next (inv_correction h)
  | twinNotice => exact outcomeInv_next (inv_twinNotice h)
  | multicastReplicate => exact outcomeInv_next (inv_multicastReplicate h)
  | deepScan => exact outcomeInv_next (inv_deepScan h)
  | puntDeliver => exact outcomeInv_next (inv_puntDeliver h)
  | l2Learn => exact outcomeInv_next (inv_l2Learn h)
  | l2AgingPass => exact outcomeInv_next (inv_l2AgingPass h)
  | tcamScrub => exact outcomeInv_next (inv_tcamScrub h)
  | activityTick => exact outcomeInv_next (inv_activityTick h)
  | agingSweepBatch => exact outcomeInv_next (inv_agingSweepBatch h)
  | endRequest => exact outcomeInv_next (inv_endRequest h)
  | migrationDecision => exact outcomeInv_next (inv_migrationDecision h)
  | groupMoveBucket => exact outcomeInv_next (inv_groupMoveBucket h)
  | skeinPcRetire => exact outcomeInv_next (inv_skeinPcRetire h)
  | epochBoundary => exact outcomeInv_next (inv_burnChecked (inv_epochBoundary h))
  | epochSyncPulse => exact outcomeInv_next (inv_burnChecked (inv_epochSyncPulse h))
  | syncTimeout => exact outcomeInv_next (inv_burnChecked (inv_syncTimeout h))
  | drainComplete => exact outcomeInv_next (inv_drainComplete h)
  | drainLimit => exact outcomeInv_next (inv_drainLimit h)
  | closeSweepBucket => exact outcomeInv_next (inv_closeSweepBucket h)
  | hashComplete => exact outcomeInv_next (inv_hashComplete h)
  | sealSigned => exact outcomeInv_next (inv_sealSigned h)
  | imageZeroed => exact outcomeInv_next (inv_burnChecked (inv_imageZeroed h))
  | standbyCloseWake => exact outcomeInv_next (inv_standbyCloseWake h)
  | nop => exact outcomeInv_next (inv_nop h)
  | abort => exact outcomeInv_next (inv_abort h)
  | devInfo => exact outcomeInv_next (inv_devInfo h)
  | chainEnum => exact outcomeInv_next (inv_chainEnum h)
  | regRead => exact outcomeInv_next (inv_regRead h)
  | regWrite => exact outcomeInv_next (inv_regWrite h)
  | commit => exact outcomeInv_next (inv_commit h)
  | versionSwitch => exact outcomeInv_next (inv_versionSwitch h)
  | abandon => exact outcomeInv_next (inv_abandon h)
  | versionInfo => exact outcomeInv_next (inv_versionInfo h)
  | stepWrite => exact outcomeInv_next (inv_stepWrite h)
  | transWrite => exact outcomeInv_next (inv_transWrite h)
  | accmapAdd => exact outcomeInv_next (inv_accmapAdd h)
  | accmapDel => exact outcomeInv_next (inv_accmapDel h)
  | patternAdd => exact outcomeInv_next (inv_patternAdd h)
  | patternDel => exact outcomeInv_next (inv_patternDel h)
  | tcamAdd => exact outcomeInv_next (inv_tcamAdd h)
  | tcamInsert => exact outcomeInv_next (inv_tcamInsert h)
  | tcamDelete => exact outcomeInv_next (inv_tcamDelete h)
  | tcamRead => exact outcomeInv_next (inv_tcamRead h)
  | dtWrite => exact outcomeInv_next (inv_dtWrite h)
  | vlanWrite => exact outcomeInv_next (inv_vlanWrite h)
  | dtRead => exact outcomeInv_next (inv_dtRead h)
  | pfxAdd => exact outcomeInv_next (inv_pfxAdd h)
  | pfxDel => exact outcomeInv_next (inv_pfxDel h)
  | pfxLookup => exact outcomeInv_next (inv_pfxLookup h)
  | macSearch => exact outcomeInv_next (inv_macSearch h)
  | macNext => exact outcomeInv_next (inv_macNext h)
  | macStaticAdd => exact outcomeInv_next (inv_macStaticAdd h)
  | macStaticDel => exact outcomeInv_next (inv_macStaticDel h)
  | macFlushPort => exact outcomeInv_next (inv_macFlushPort h)
  | flowLookupKey => exact outcomeInv_next (inv_flowLookupKey h)
  | flowLookupHandle => exact outcomeInv_next (inv_flowLookupHandle h)
  | flowIterate => exact outcomeInv_next (inv_flowIterate h)
  | flowDeleteKey => exact outcomeInv_next (inv_flowDeleteKey h)
  | flowFlush => exact outcomeInv_next (inv_flowFlush h)
  | natAddrWrite => exact outcomeInv_next (inv_natAddrWrite h)
  | natPoolWrite => exact outcomeInv_next (inv_natPoolWrite h)
  | natSubLookup => exact outcomeInv_next (inv_natSubLookup h)
  | lbTargetWrite => exact outcomeInv_next (inv_lbTargetWrite h)
  | lbPoolReplace => exact outcomeInv_next (inv_lbPoolReplace h)
  | lbTargetRemove => exact outcomeInv_next (inv_lbTargetRemove h)
  | lbTargetRead => exact outcomeInv_next (inv_lbTargetRead h)
  | cntSnapshot => exact outcomeInv_next (inv_cntSnapshot h)
  | commandFetch => exact outcomeInv_next (inv_commandFetch h)
  | itemDispatch => exact outcomeInv_next (inv_itemDispatch h)
  | commandStepEnd => exact outcomeInv_next (inv_commandStepEnd h)
  | stepOverrun => exact outcomeInv_next (inv_stepOverrun h)
  | engHang => exact outcomeInv_next (inv_engHang h)
  | schedulerTick => exact outcomeInv_next (inv_schedulerTick h)
  | replyWrite => exact outcomeInv_next (inv_replyWrite h)
  | natBlockSweep => exact outcomeInv_next (inv_natBlockSweep h)
  | withyFold => exact outcomeInv_next (inv_runTask h (fun _ hu => inv_withyFold hu))
  | ipfixTemplate => exact outcomeInv_next (inv_ipfixTemplate h)
  | ipfixFlush => exact outcomeInv_next (inv_ipfixFlush h)
  | chainToken => exact outcomeInv_next (inv_chainToken h)
  | chainCommandRelay => exact outcomeInv_next (inv_chainCommandRelay h)
  | chainReply => exact outcomeInv_next (inv_chainReply h)
  | chainAckTimeout => exact outcomeInv_next (inv_chainAckTimeout h)
  | chainLinkChange => exact outcomeInv_next (inv_chainLinkChange h)
  | hostLinkUp => exact outcomeInv_next (inv_hostLinkUp h)
  | hostLinkDown => exact outcomeInv_next (inv_hostLinkDown h)
  | functionLevelReset => exact outcomeInv_next (inv_functionLevelReset h)
  | perst => exact outcomeInv_next (inv_linkLost h)
  | semaphoreAcquire => exact outcomeInv_next (inv_semaphoreAcquire h)
  | semaphoreRelease => exact outcomeInv_next (inv_guarded h (fun _ _ _ hu => inv_ite hu (inv_writeSem hu)))
  | semaphoreForceRelease => exact outcomeInv_next (inv_guarded h (fun _ _ _ hu => inv_ite (inv_writeSem hu) hu))
  | crPiWrite => exact outcomeInv_next (inv_guarded h (fun _ _ _ hu => inv_writeCrPi hu))
  | ringCiWrite => exact outcomeInv_next (inv_guarded h (fun _ _ _ hu => inv_writeRingCi hu))
  | ringEnable => exact outcomeInv_next (inv_guarded h (fun _ _ _ hu => inv_ite (inv_writeRingCfg hu) hu))
  | ringDisable => exact outcomeInv_next (inv_guarded h (fun _ _ _ hu => inv_ite hu (inv_writeRingCfg hu)))
  | ringRestart => exact outcomeInv_next (inv_guarded h (fun _ _ _ hu => inv_ite (inv_writeRingCfg hu) hu))
  | dmaEnable => exact outcomeInv_next (inv_guarded h (fun _ _ _ hu => inv_ite (inv_writeDmaCtl hu) hu))
  | dmaDisable => exact outcomeInv_next (inv_guarded h (fun _ _ _ hu => inv_ite hu (inv_writeDmaCtl hu)))
  | dmaStart => exact outcomeInv_next (inv_guarded h (fun _ _ _ hu => inv_ite (inv_writeDmaCtl hu) hu))
  | dmaResume => exact outcomeInv_next (inv_guarded h (fun _ _ _ hu => inv_ite (inv_writeDmaCtl hu) hu))
  | dmaKick => exact outcomeInv_next (inv_guarded h (fun _ _ _ hu => inv_ite (inv_writeDmaCtl hu) hu))
  | dmaDescriptor => exact outcomeInv_next (inv_stacksLeave (inv_dmaDescriptor h))
  | cqCiWrite => exact outcomeInv_next (inv_guarded h (fun _ _ _ hu => inv_writeCqCi hu))
  | cqEnable => exact outcomeInv_next (inv_guarded h (fun _ _ _ hu => inv_ite (inv_writeDmaCtl hu) hu))
  | dmaGraceExpire => exact outcomeInv_next (inv_stacksLeave (inv_dmaGraceExpire h))
  | tdSet => exact outcomeInv_next (inv_tdOp h)
  | tdAdjust => exact outcomeInv_next (inv_tdOp h)
  | tdRate => exact outcomeInv_next (inv_tdOp h)
  | servedSet => exact outcomeInv_next (inv_guarded h (fun _ _ _ hu => inv_ite (inv_writeTimeCtl hu) hu))
  | selWrite => exact outcomeInv_next (inv_guarded h (fun _ _ _ hu => inv_ite hu (inv_writeTimeCtl hu)))
  | serveTick => exact outcomeInv_next (inv_serveTick h)
  | timeRefLoss => exact outcomeInv_next (inv_ite h (inv_rimLog (inv_withTime h (fun _ => rfl))))
  | timeRefRestore => exact outcomeInv_next (inv_ite (inv_rimLog (inv_withTime h (fun _ => rfl))) h)
  | toutArm => exact outcomeInv_next (inv_guarded h (fun _ _ _ hu => inv_ite (inv_writeToutCtl hu) hu))
  | toutWithdraw => exact outcomeInv_next (inv_guarded h (fun _ _ _ hu => inv_ite hu (inv_writeToutCtl hu)))
  | timeOutEdge => exact outcomeInv_next (inv_timeOutEdge h)
  | timeInEdge => exact outcomeInv_next (inv_timeInEdge h)
  | tinPop => exact outcomeInv_next (inv_guarded h (fun _ _ _ hu => inv_writeTinPop hu))
  | snapshot => exact outcomeInv_next (inv_guarded h (fun _ _ _ hu => inv_writeSnapCtl hu))
  | atTimeApply => exact outcomeInv_next (inv_atTimeApply h)
  | portEnable => exact outcomeInv_next (inv_guarded h (fun _ _ _ hu => inv_ite (inv_writePortCtl hu) hu))
  | portDisable => exact outcomeInv_next (inv_guarded h (fun _ _ _ hu => inv_ite (inv_writePortCtl hu) hu))
  | retry => exact outcomeInv_next (inv_guarded h (fun _ _ _ hu => inv_ite (inv_writePortCtl hu) hu))
  | retrain => exact outcomeInv_next (inv_guarded h (fun _ _ _ hu => inv_ite (inv_writePortCtl hu) hu))
  | attemptStart => exact outcomeInv_next (inv_nextAttempt h)
  | portAttemptEnd => exact outcomeInv_next (inv_attemptEnd h)
  | attemptTimeout => exact outcomeInv_next (inv_attemptTimeout h)
  | linkDrop => exact outcomeInv_next (inv_linkDrop h)
  | fecIntervalEnd => exact outcomeInv_next (inv_fecIntervalEnd h)
  | fomMeasure => exact outcomeInv_next (inv_fomMeasure h)
  | lpiEnter => exact outcomeInv_next (inv_lpiEnter h)
  | lpiWake => exact outcomeInv_next (inv_lpiWake h)
  | lpiRx => exact outcomeInv_next (inv_rxLpi h)
  | macroModeWrite => exact outcomeInv_next (inv_guarded h (fun _ _ _ hu => inv_writeMacroMode hu))
  | loopWrite => exact outcomeInv_next (inv_guarded h (fun _ _ _ hu => inv_writeLaneCfg hu))
  | testEnWrite => exact outcomeInv_next (inv_guarded h (fun _ _ _ hu => inv_ite hu (inv_writeLaneTest hu)))
  | prbsClr => exact outcomeInv_next (inv_guarded h (fun _ _ _ hu => inv_ite (inv_writeLaneTest hu) hu))
  | injOne => exact outcomeInv_next (inv_guarded h (fun _ _ _ hu => inv_ite (inv_writeLaneTest hu) hu))
  | prsIndGo => exact outcomeInv_next (inv_guarded h (fun _ _ _ hu => inv_writePrsInd hu))
  | tcamIndGo => exact outcomeInv_next (inv_guarded h (fun _ _ _ hu => inv_writeTcamInd hu))
  | gclIndGo => exact outcomeInv_next (inv_guarded h (fun _ _ _ hu => inv_writeGclInd hu))
  | polIndGo => exact outcomeInv_next (inv_guarded h (fun _ _ _ hu => inv_writePolInd hu))
  | laneIndGo => exact outcomeInv_next (inv_guarded h (fun _ _ _ hu => inv_writeLaneInd hu))
  | totIndGo => exact outcomeInv_next (inv_guarded h (fun _ _ _ hu => inv_writeTotInd hu))
  | hbmIndGo => exact outcomeInv_next (inv_guarded h (fun _ _ _ hu => inv_writeHbmInd hu))
  | gmapDataRead => exact outcomeInv_next (inv_dataRead h)
  | sealIndDataRead => exact outcomeInv_next (inv_dataRead h)
  | mcIndDataRead => exact outcomeInv_next (inv_dataRead h)
  | ifrAddrWrite => exact outcomeInv_next (inv_guarded h (fun _ _ _ hu => inv_writeIfrAddr hu))
  | cntAddrWrite => exact outcomeInv_next (inv_guarded h (fun _ _ _ hu => inv_writeCntAddr hu))
  | cntDataHiRead => exact outcomeInv_next (inv_cntDataHiRead h)
  | cntChainWrite => exact outcomeInv_next (inv_guarded h (fun _ _ _ hu => inv_writeCntChain hu))
  | eventAck => exact outcomeInv_next (inv_eventAck h)
  | tcamBlkWrite => exact outcomeInv_next (inv_guarded h (fun _ _ _ hu => inv_writeTcamBlk hu))
  | ownCfgWrite => exact outcomeInv_next (inv_guarded h (fun _ _ _ hu => inv_writeOwnCfg hu))
  | eqCreditWrite => exact outcomeInv_next (inv_guarded h (fun _ _ _ hu => inv_writeCredit hu))
  | shaperEnable => exact outcomeInv_next (inv_guarded h (fun _ _ _ hu => inv_writeShaperCfg hu))
  | shaperRateWrite => exact outcomeInv_next (inv_guarded h (fun _ _ _ hu => inv_writeShaperRate hu))
  | gclArm => exact outcomeInv_next (inv_guarded h (fun _ _ _ hu => inv_ite (inv_writeGclAdmin hu) hu))
  | gclWithdraw => exact outcomeInv_next (inv_guarded h (fun _ _ _ hu => inv_ite hu (inv_writeGclAdmin hu)))
  | gclTakeover => exact outcomeInv_next (inv_gclTakeover h)
  | gateEntryChange => exact outcomeInv_next (inv_gateEntryChange h)
  | glbLockWrite => exact outcomeInv_next (inv_guarded h (fun _ _ _ hu => inv_writeOnce hu))
  | boardIdWrite => exact outcomeInv_next (inv_guarded h (fun _ _ _ hu => inv_writeBoardId hu))
  | tagSeedWrite => exact outcomeInv_next (inv_guarded h (fun _ _ _ hu => inv_writeTagSeed hu))
  | resetWp => exact outcomeInv_next (inv_guarded h (fun _ _ _ hu => inv_ite (inv_writeTrcCfg hu) hu))
  | trcCfgWrite => exact outcomeInv_next (inv_guarded h (fun _ _ _ hu => inv_ite hu (inv_writeTrcCfg hu)))
  | traceBlockClose => exact outcomeInv_next (inv_traceBlockClose h)
  | registerWrite => exact outcomeInv_next (inv_ite (inv_accessWrite h) (inv_accessRead h))
  | glbResetReq => exact outcomeInv_next (inv_ite h (inv_guarded h (fun _ _ _ hu => inv_writeGlbReset hu)))
  | hbmRetireWrite => exact outcomeInv_next (inv_guarded h (fun _ _ _ hu => inv_writeHbmRetire hu))
  | standbyRequest => exact outcomeInv_next (inv_guarded h (fun _ _ _ hu => inv_ite hu (inv_writePwrCtl hu)))
  | standbyIdle => exact outcomeInv_next (inv_standbyIdle h)
  | standbyAbandoned => exact outcomeInv_next (inv_standbyAbandoned h)
  | wake => exact outcomeInv_next (inv_guarded h (fun _ _ _ hu => inv_ite (inv_writePwrCtl hu) hu))
  | macroPowerDown => exact outcomeInv_next (inv_guarded h (fun _ _ _ hu => inv_ite hu (inv_writePwrMacro hu)))
  | macroPowerUp => exact outcomeInv_next (inv_guarded h (fun _ _ _ hu => inv_ite (inv_writePwrMacro hu) hu))
  | chipletPowerDown => exact outcomeInv_next (inv_guarded h (fun _ _ _ hu => inv_ite hu (inv_writePwrChiplet hu)))
  | chipletPowerUp => exact outcomeInv_next (inv_guarded h (fun _ _ _ hu => inv_ite (inv_writePwrChiplet hu) hu))
  | stackPowerDown => exact outcomeInv_next (inv_guarded h (fun _ _ _ hu => inv_writePwrStack hu))
  | deviceStart => exact outcomeInv_next (inv_deviceStart h)
  | startFailTimeout => exact outcomeInv_next (inv_startFailTimeout h)
  | powerOnReset => exact outcomeInv_next (inv_powerOnReset h)
  | watchdogExpire => exact outcomeInv_next (inv_watchdogExpire h)
  | supplyFault => exact outcomeInv_next (inv_supplyFault h)
  | sensorPoll => exact outcomeInv_next (inv_sensorPoll h)
  | pmbusPoll => exact outcomeInv_next (inv_pmbusPoll h)
  | tamperAssert => exact outcomeInv_next (inv_tamperAssert h)
  | tamperRelease => exact outcomeInv_next (inv_tamperRelease h)
  | info => exact outcomeInv_next (inv_mbxInfo h)
  | logRead => exact outcomeInv_next (inv_mbxLogRead h)
  | certRead => exact outcomeInv_next (inv_mbxCertRead h)
  | attest => exact outcomeInv_next (inv_mbxAttest h)
  | sensorRead => exact outcomeInv_next (inv_mbxSensorRead h)
  | imgBegin => exact outcomeInv_next (inv_mbxImgBegin h)
  | imgData => exact outcomeInv_next (inv_mbxImgData h)
  | imgEnd => exact outcomeInv_next (inv_mbxImgEnd h)
  | imgConfirm => exact outcomeInv_next (inv_burnChecked (inv_mbxImgConfirm h))
  | lifecycle => exact outcomeInv_next (inv_mbxLifecycle h)
  | reset => exact outcomeInv_next (inv_mbxReset h)
  | boardWrite => exact outcomeInv_next (inv_mbxBoardWrite h)
  | logFlush => exact outcomeInv_next (inv_flushLog h)
  | hbmRecal => exact outcomeInv_next (inv_hbmRecal h)
  | hbmCaParity => exact outcomeInv_next (inv_hbmCaParity h)
  | hbmRefresh => exact outcomeInv_next (inv_hbmRefresh h)
  | patrolScrub => exact outcomeInv_next (inv_patrolScrub h)
  | mergeRegisterRelease => exact outcomeInv_next (inv_mergeRelease h)
  | coldHomeWritten => exact outcomeInv_next (inv_coldHomeWritten h)
  | secondBurstRead => exact outcomeInv_next (inv_secondBurstRead h)
  | listRebuildDone => exact outcomeInv_next (inv_listRebuildDone h)
  | statisticsWindowEnd => exact outcomeInv_next (inv_statisticsWindowEnd h)
  | chainAck => exact outcomeInv_next (inv_chainAck h)
  | chainCredit => exact outcomeInv_next (inv_chainCredit h)
  | enumerationComplete => exact outcomeInv_next (inv_enumerationComplete h)
  | prbsLock => exact outcomeInv_next (inv_prbsLock h)
  | prbsLostLock => exact outcomeInv_next (inv_prbsLostLock h)
  | periodicInjection => exact outcomeInv_next (inv_periodicInjection h)
  | rxLpiExit => exact outcomeInv_next (inv_rxLpi h)
  | crystalLoss => exact outcomeInv_next (inv_crystalLoss h)
  | crystalReturn => exact outcomeInv_next (inv_crystalReturn h)
  | attentionWaitLimit => exact outcomeInv_next (inv_attentionWaitLimit h)
  | closeWaitLimit => exact outcomeInv_next (inv_closeWaitLimit h)
  | tapInstruction => exact outcomeInv_next (inv_tapInstruction h)
  | suppliesRemoved => exact outcomeInv_next (inv_suppliesRemoved h)

/-- Settles O4: what each function of the model does to a state keeps the invariant, from the rules for the state's parts up
to the commands; taking a command from the queue changes nothing that the invariant speaks of. -/
theorem everyStepKeepsTheInvariant : Obligations.EveryStepKeepsTheInvariant := by
  unfold Obligations.EveryStepKeepsTheInvariant
  intro s t h e
  unfold step at e
  split at e
  · exact outcomeInv_next h t e
  · next c rest _ =>
    have htaken : Inv { s with pending := rest } := inv_of_vitals h rfl
    exact outcomeInv_exec c htaken t e

end Sys2Proof.Machine
end

