-- ==== Sys2Proof/Proofs/CommandSteps.lean ====
section
/-! PROOF. What a step is, and the state that it starts from (00_scope; 16/R469, R476; 17/R488). -/

namespace Sys2Proof.Machine

/-- No command is refused and none ends in a fault: each row of the table is one call of its meaning, which answers a state. -/
theorem exec_completes (c : Instr) (s : State) : ∃ t, exec c s = .next t := by
  cases c <;> exact ⟨_, rfl⟩

/-- Settles O1: a step takes the command in front of the queue, and the queue put in front of a state's own is that queue. -/
theorem stepRunsTheFrontCommand : Obligations.StepRunsTheFrontCommand := by
  refine ⟨fun s c => rfl, fun s hidle => ?_, exec_completes⟩
  unfold step
  rw [hidle]

/-- Settles O3, by the lemma that the invariant of the steps starts from. -/
theorem resetSatisfiesTheInvariant : Obligations.ResetSatisfiesTheInvariant := inv_reset

end Sys2Proof.Machine
end

