-- ==== Sys2Proof/Proofs/RegisterWindow.lean ====
section
/-! PROOF. Refused accesses, acknowledgements of event registers and the in-force window (15/R442–R458). -/

namespace Sys2Proof.Machine

/-! ### Refused accesses -/

/-- No write is judged unaligned: an offset that is judged is a multiple of 4. -/
theorem judgeWrite_ne_unaligned {s : State} {req : Requester} {off k : Nat} (h : judgeWrite s req off = .error k) : k ≠ 2 := by
  rintro rfl
  unfold judgeWrite at h
  split at h
  · cases h
  · split at h
    · cases h
    · dsimp only at h
      split at h
      · have hkind := Except.error.inj h
        split at hkind <;> omega
      · split at h
        · cases h
        · split at h
          · cases h
          · split at h <;> cases h

/-- What O7 says of the state after a refused access, its answer to the requester aside. -/
def AccessRefused (s t : State) (req : Requester) (off kind width : Nat) (write : Bool) : Prop :=
  ∃ regs log fresh, { t with out := s.out } = { s with regs := regs, log := log, fresh := fresh } ∧
    t.regs.cells = s.regs.cells ∧ t.regs.columns = s.regs.columns ∧
    t.regs.accLast = ⟨off % 2 ^ 26, kind, req.id, req.viaCmd, width, write⟩ ∧
    t.regs.accCount = min (s.regs.accCount + 1) (2 ^ 32 - 1) ∧
    eventAt t (RegName.addr .accEvent []) = (eventAt s (RegName.addr .accEvent [])).raise [kind - 1] ∧
    ∀ o, o ≠ RegName.addr .accEvent [] → eventAt t o = eventAt s o

theorem accessRefused_accessError (s : State) (req : Requester) (kind off width : Nat) (write : Bool) :
    AccessRefused s (accessError s req kind off width write) req off kind width write := by
  obtain ⟨regs, log, fresh, h⟩ := accessError_eq s req kind off width write
  exact ⟨regs, log, fresh, by rw [h], acc_facts ..⟩

/-- An access of no width reads zero and is no access at all; one that is not aligned, or is of another kind, is refused as
kind 2, whatever it would have done. -/
theorem registerAccess_unaligned {s : State} {w : Width} {off : Nat} (req : Requester) (v : Nat)
    (h : w = .unaligned ∨ w = .unsupported ∨ (w = .w32 ∧ off % 4 ≠ 0) ∨ (w = .w64 ∧ off % 8 ≠ 0)) :
    accessWrite s req w off v = accessError s req 2 off 3 true ∧
      accessRead s req w off = if w = .unsupported then accessError s req 2 off 3 false
        else emit (accessError s req 2 off 3 false) (.readData req.id off 0) := by
  rcases h with rfl | rfl | ⟨rfl, h⟩ | ⟨rfl, h⟩
  · exact ⟨rfl, rfl⟩
  · exact ⟨rfl, rfl⟩
  · exact ⟨if_neg h, if_neg h⟩
  · exact ⟨if_neg h, if_neg h⟩

theorem AccessRefused.emit {s t : State} {req : Requester} {off kind width : Nat} {write : Bool}
    (h : AccessRefused s t req off kind width write) (o : Output) : AccessRefused s (emit t o) req off kind width write := h

theorem out_accessError (s : State) (req : Requester) (kind off width : Nat) (write : Bool) :
    (accessError s req kind off width write).out = s.out := by
  obtain ⟨regs, log, fresh, h⟩ := accessError_eq s req kind off width write
  rw [h]

/-- A write that chapter 15 refuses, of a register other than GLB_RESET_REQ, is refused with its kind. -/
theorem writeReg_of_refused {s : State} {req : Requester} {off kind : Nat} (v : Nat)
    (hoff : off ≠ RegName.addr .glbResetReq []) (h : judgeWrite s req off = .error kind) :
    writeReg s req off v = accessError s req kind off 2 true := by
  simp [writeReg, hoff, h]

/-- Whatever refuses an access, its kind is raised; zero answers a read that is answered. -/
theorem registerAccess_of_refused {s : State} {req : Requester} {w : Width} {write : Bool} {off kind : Nat} (v : Nat)
    (hrefused : (write = true ∧ (w = .w8 ∨ w = .w16) ∧ kind = 1) ∨
      ((w = .unaligned ∨ w = .unsupported ∨ (w = .w32 ∧ off % 4 ≠ 0) ∨ (w = .w64 ∧ off % 8 ≠ 0)) ∧ kind = 2) ∨
      (write = true ∧ w = .w32 ∧ off % 4 = 0 ∧ off ≠ RegName.addr .glbResetReq [] ∧ judgeWrite s req off = .error kind)) :
    ∃ t, exec (.registerWrite req write w off v) s = .next t ∧
      (t.out = if write = true ∨ w = .unsupported then s.out else .readData req.id off 0 :: s.out) ∧
      AccessRefused s t req off kind (if kind = 2 then 3 else Width.code w) write := by
  rcases hrefused with ⟨rfl, hnarrow, rfl⟩ | ⟨hform, rfl⟩ | ⟨rfl, rfl, halign, hoff, hjudge⟩
  · have hrun : accessWrite s req w off v = accessError s req 1 off (Width.code w) true := by
      rcases hnarrow with rfl | rfl <;> rfl
    exact ⟨_, congrArg Host.Outcome.next hrun, out_accessError .., accessRefused_accessError ..⟩
  · obtain ⟨hwritten, hread⟩ := registerAccess_unaligned (s := s) req v hform
    cases write with
    | true => exact ⟨_, congrArg Host.Outcome.next hwritten, out_accessError .., accessRefused_accessError ..⟩
    | false =>
      by_cases hw : w = .unsupported
      · rw [if_pos hw] at hread
        exact ⟨_, congrArg Host.Outcome.next hread, (out_accessError ..).trans (if_pos (.inr hw)).symm,
          accessRefused_accessError ..⟩
      · rw [if_neg hw] at hread
        refine ⟨_, congrArg Host.Outcome.next hread, ?_, (accessRefused_accessError ..).emit _⟩
        rw [if_neg (by simp [hw])]
        exact congrArg _ (out_accessError ..)
  · have hrun : accessWrite s req .w32 off v = accessError s req kind off 2 true :=
      (if_pos halign).trans (writeReg_of_refused _ hoff hjudge)
    rw [if_neg (judgeWrite_ne_unaligned hjudge)]
    exact ⟨_, congrArg Host.Outcome.next hrun, out_accessError .., accessRefused_accessError ..⟩

/-- Settles O7: the access-error event of its kind is all that follows a refused access. -/
theorem refusedAccessesRaiseTheirKind : Obligations.RefusedAccessesRaiseTheirKind := by
  intro s req w write off v kind hrefused
  obtain ⟨t, hrun, hout, regs, log, fresh, hfoot, hrest⟩ := registerAccess_of_refused v hrefused
  exact ⟨t, regs, log, fresh, hrun, hfoot, hout, hrest⟩

/-! ### Acknowledgements -/

/-- A write of SEQ that reaches an event register is an acknowledgement. -/
theorem exec_eventAck {s : State} {req : Requester} {off : Nat} {r : RegName} {ix : List Nat} (v : Nat)
    (h : Reaches s req off r ix) (hseq : hasSeq r = true) : exec (.eventAck req off v) s = .next (ackWrite s req off v) := by
  have hj : judgeWrite s req off = .ok (r, ix) := h
  have hrun : eventAck req off v s = ackWrite s req off v := by simp [eventAck, hj, hseq]
  exact congrArg Host.Outcome.next hrun

/-- An acknowledgement in the range clears the flags that were raised no later, and those alone. -/
theorem ack_of_inRange {e : EventReg} {w : Nat} (h : e.inRange w = true) :
    (e.ack w).seq = e.seq ∧ ∀ f l, (f, l) ∈ (e.ack w).raised ↔ (f, l) ∈ e.raised ∧ ¬ (e.behind l ≤ 32767 ∧ e.behind w ≤ e.behind l) := by
  rw [EventReg.ack, if_pos h]
  refine ⟨rfl, fun f l => ?_⟩
  rw [List.mem_filter]
  simp only [EventReg.inRange, Bool.not_eq_true', Bool.and_eq_false_iff, decide_eq_false_iff_not, not_and_or]

/-- Settles O8: within the range an acknowledgement replaces the one event register. -/
theorem acknowledgingClearsWhatWasSeen : Obligations.AcknowledgingClearsWhatWasSeen := by
  intro s req off v r ix hreach hseq e behind hrange
  have hin : e.inRange (v / 65536) = true := decide_eq_true hrange
  have hrun : ackWrite s req off v = { s with regs := { s.regs with events := tins s.regs.events off (e.ack (v / 65536)) } } :=
    if_pos hin
  obtain ⟨hkept, hcleared⟩ := ack_of_inRange hin
  refine ⟨_, _, (exec_eventAck v hreach hseq).trans (congrArg Host.Outcome.next hrun), rfl, ?_, ?_, fun o ho => ?_⟩
  · rw [eventAt, tget_tins_same]
    exact hkept
  · rw [eventAt, tget_tins_same]
    exact hcleared
  · exact tget_tins_ne _ _ _ ho

/-- Settles O9: outside the range the write is refused as kind 9, whose event is raised in ACC_EVENT alone. -/
theorem acknowledgementOutOfRange : Obligations.AcknowledgementOutOfRange := by
  intro s req off v r ix hreach hseq hoff hrange
  have hout : ¬ (eventAt s off).inRange (v / 65536) = true := by
    rw [EventReg.inRange, decide_eq_true_eq, EventReg.behind]
    exact not_le.mpr hrange
  have hrun : ackWrite s req off v = accessError s req 9 off 2 true := if_neg hout
  obtain ⟨hcells, -, hlast, -, -, hothers⟩ := acc_facts s req 9 off 2 true
  exact ⟨_, (exec_eventAck v hreach hseq).trans (congrArg Host.Outcome.next hrun), hothers off hoff, hcells, hlast⟩

/-! ### The in-force window -/

/-- Whether a requester owns a register is told by HP_RING_OWN and DMA_OWN, which a write of IFR_ADDR leaves. -/
theorem ownerCheck_ifrAddr (s : State) (v : Nat) (r : RegName) (ix : List Nat) (req : Nat) :
    ownerCheck (landWrite s .ifrAddr [] v) r ix req = ownerCheck s r ix req := by
  have hring (h : Nat) : inForce (landWrite s .ifrAddr [] v) .hpRingOwn [h] = inForce s .hpRingOwn [h] :=
    inForce_landWrite_ne _ _ _ _ _ _ (by simp [RegName.addr, RegName.desc, dimOffset]; omega)
  have hdma (h : Nat) : inForce (landWrite s .ifrAddr [] v) .dmaOwn [h] = inForce s .dmaOwn [h] :=
    inForce_landWrite_ne _ _ _ _ _ _ (by simp [RegName.addr, RegName.desc, dimOffset]; omega)
  unfold ownerCheck
  simp only [ringOwner, hring, hdma]

/-- The sample of a register that the requester may read (15/R454). -/
theorem sampleReg_of_readable {s : State} {req : Requester} {off : Nat} {r : RegName} {ix : List Nat}
    (hloc : locate off = some (r, ix)) (hup : domainUp s off = true) (hread : mayRead s r ix req.id = true) :
    sampleReg s req off = setSample s (Nat.land (actingWord s req.id r ix) (readMask r req.id))
      (at_ (appliesCode r) 29 26 + flagAt (pendingOf s r ix) 31) := by
  simp [sampleReg, hloc, hup, hread]

theorem flagAt_eq_at (b : Bool) : flagAt b 31 = at_ (b2n b) 31 31 := by cases b <;> rfl

/-- Settles O10: the write lands in IFR_ADDR, which neither powers a domain nor gives a register away, and the register at the
offset is sampled. -/
theorem ifrAddrSamples : Obligations.IfrAddrSamples := by
  intro s req v r ix hreach target u hloc hup hread
  have hup' : domainUp u target = true := (domainUp_of_kept rfl rfl target).trans hup
  have hread' : mayRead u r ix req.id = true := by
    rw [← hread, mayRead, ownerCheck_ifrAddr]
  have hrun : writeIfrAddr s req v = _ := sampleReg_of_readable hloc hup' hread'
  refine ⟨_, congrArg Host.Outcome.next ((guarded_ok hreach (by decide)).trans hrun), rfl, rfl, ?_⟩
  rw [← flagAt_eq_at]
  rfl

end Sys2Proof.Machine
end

