-- ==== Sys2Proof/Proofs/Observation.lean ====
section
/-! PROOF. Counter samples, chained pairs, tagging seeds and the trace stream (17/R490, R493, R496–R502). -/

namespace Sys2Proof.Machine

/-! ### What a write puts in force -/

/-- A field whose bits a write changes and which take effect at once is in force as it was written. -/
theorem fld_landWrite_same (s : State) {r : RegName} (ix : List Nat) (v : Nat) {hi lo : Nat} (hhi : hi < 32)
    (hwritable : ∀ i ≤ hi, lo ≤ i → (maskOf r.desc.fields RField.writable).getLsbD i = true)
    (hnow : ∀ i ≤ hi, lo ≤ i →
      (maskOf r.desc.fields (fun f => f.writable && (f.applies == .now || f.applies == .packet))).getLsbD i = true) :
    fld (landWrite s r ix v) r ix hi lo = bits v hi lo := by
  have hbit (i : Nat) (hi' : i ≤ hi) (hlo : lo ≤ i) :
      (inForce (landWrite s r ix v) r ix).testBit i = v.testBit i := by
    have hforce := getLsbD_force_shadowed (regCell s r ix) (BitVec.ofNat 32 v) (hwritable i hi' hlo) (hnow i hi' hlo)
    rw [BitVec.getLsbD_ofNat] at hforce
    rw [inForce, regCell_landWrite_same, BitVec.testBit_toNat, hforce]
    simp [show i < 32 by omega]
  refine Nat.eq_of_testBit_eq fun k => ?_
  rw [fld, bits, bits, Nat.testBit_mod_two_pow, Nat.testBit_mod_two_pow, Nat.testBit_div_two_pow, Nat.testBit_div_two_pow]
  by_cases hk : k < hi + 1 - lo
  · rw [hbit (k + lo) (by omega) (by omega)]
  · simp [hk]

/-! ### Counter samples -/

/-- Settles O21: the fields that choose the counter are in force as they are written, and a sample is all that is taken. -/
theorem counterSample : Obligations.CounterSample := by
  intro s req v hv hrun hreach part num
  have hpart : fld (landWrite s .cntAddr [] v) .cntAddr [] 27 24 = part :=
    fld_landWrite_same s [] v (by decide) (by decide +kernel) (by decide +kernel)
  have hnum : fld (landWrite s .cntAddr [] v) .cntAddr [] 9 0 = num :=
    fld_landWrite_same s [] v (by decide) (by decide +kernel) (by decide +kernel)
  have hrunning : running (landWrite s .cntAddr [] v) = true := hrun
  refine ⟨_, congrArg Host.Outcome.next (guarded_ok hreach (by decide)), ?_⟩
  unfold writeCntAddr sampleCounter
  rw [hpart, hnum, hrunning]
  by_cases h : part ≤ 8
  · rw [if_pos ⟨h, rfl⟩, if_pos h, decide_eq_true h]
    rfl
  · rw [if_neg (fun hc => h hc.1), if_neg h, decide_eq_false h]
    rfl

/-! ### Chained pairs -/

/-- The chain bit of a pair of a part. -/
def CounterState.chainBit (c : CounterState) (part pair : Nat) : Bool := tget false c.chained (part * 512 + pair)

/-- What the write of one chain bit does to the counters. -/
def CounterState.chain (c : CounterState) (part pair : Nat) (on : Bool) : CounterState :=
  if c.chainBit part pair = on then c
  else { c with
    chained := tput false c.chained (part * 512 + pair) on, counts := tput 0 c.counts (part * 1024 + 2 * pair + 1) 0 }

theorem setChained_eq (s : State) (part pair : Nat) (on : Bool) :
    setChained s part pair on = withCounters s (fun c => c.chain part pair on) := rfl

/-- A word's chain bits are written one after another. -/
def CounterState.chainWord (c : CounterState) (part word v n : Nat) : CounterState :=
  (List.range n).foldl (fun c b => c.chain part (32 * word + b) (bit v b)) c

theorem foldl_setChained (s : State) (part word v : Nat) (l : List Nat) :
    l.foldl (fun u b => setChained u part (32 * word + b) (bit v b)) s =
      withCounters s (fun c => l.foldl (fun c b => c.chain part (32 * word + b) (bit v b)) c) := by
  induction l generalizing s with
  | nil => rfl
  | cons b l ih => rw [List.foldl_cons, ih, setChained_eq]; rfl

theorem tsorted_tput {α : Type} [DecidableEq α] {d : α} {t : Table α} (i : Nat) (x : α) (h : tsorted t = true) :
    tsorted (tput d t i x) = true := by
  unfold tput
  split
  · exact tsorted_tdel i h
  · exact tsorted_tins i x h

/-- What the first `n` bits of a word of chain bits leave: each bit is the one written, and of the counts those of the odd
counters whose pair changed are zero and no other has moved. -/
structure ChainWritten (part word v n : Nat) (c d : CounterState) : Prop where
  chained : tsorted d.chained = true
  counts : tsorted d.counts = true
  written : ∀ b < n, d.chainBit part (32 * word + b) = bit v b
  others : ∀ pair, (∀ b < n, pair ≠ 32 * word + b) → d.chainBit part pair = c.chainBit part pair
  zeroed : ∀ b < n, c.chainBit part (32 * word + b) ≠ bit v b → tget 0 d.counts (part * 1024 + 2 * (32 * word + b) + 1) = 0
  kept : ∀ k, (∀ b < n, c.chainBit part (32 * word + b) ≠ bit v b → k ≠ part * 1024 + 2 * (32 * word + b) + 1) →
    tget 0 d.counts k = tget 0 c.counts k

/-- One more bit of the word, which those before it have left. -/
theorem ChainWritten.succ {part word v n : Nat} {c d : CounterState} (h : ChainWritten part word v n c d) :
    ChainWritten part word v (n + 1) c (d.chain part (32 * word + n) (bit v n)) := by
  have hbefore : d.chainBit part (32 * word + n) = c.chainBit part (32 * word + n) := h.others _ fun b hb => by omega
  by_cases hsame : d.chainBit part (32 * word + n) = bit v n
  · have hnone : ¬ c.chainBit part (32 * word + n) ≠ bit v n := not_not.mpr (hbefore ▸ hsame)
    rw [CounterState.chain, if_pos hsame]
    refine ⟨h.chained, h.counts, fun b hb => ?_, fun pair hpair => h.others pair fun b hb => hpair b (by omega),
      fun b hb hchange => ?_, fun k hk => h.kept k fun b hb => hk b (by omega)⟩
    · rcases Nat.lt_succ_iff_lt_or_eq.mp hb with hb | rfl
      · exact h.written b hb
      · exact hsame
    · rcases Nat.lt_succ_iff_lt_or_eq.mp hb with hb | rfl
      · exact h.zeroed b hb hchange
      · exact absurd hchange hnone
  · have hchange : c.chainBit part (32 * word + n) ≠ bit v n := hbefore ▸ hsame
    have hbit (pair : Nat) : tget false (tput false d.chained (part * 512 + (32 * word + n)) (bit v n))
        (part * 512 + pair) = if pair = 32 * word + n then bit v n else d.chainBit part pair := by
      rw [tget_tput _ _ h.chained]
      simp [CounterState.chainBit]
    have hcount (k : Nat) : tget 0 (tput 0 d.counts (part * 1024 + 2 * (32 * word + n) + 1) 0) k =
        if k = part * 1024 + 2 * (32 * word + n) + 1 then 0 else tget 0 d.counts k := tget_tput _ _ h.counts
    have hcounts : tsorted (tput 0 d.counts (part * 1024 + 2 * (32 * word + n) + 1) 0) = true := tsorted_tput _ _ h.counts
    rw [CounterState.chain, if_neg hsame]
    refine ⟨tsorted_tput _ _ h.chained, hcounts, fun b hb => (hbit _).trans ?_,
      fun pair hpair => (hbit _).trans ?_, fun b hb hchanged => (hcount _).trans ?_, fun k hk => (hcount _).trans ?_⟩
    · rcases Nat.lt_succ_iff_lt_or_eq.mp hb with hb | rfl
      · rw [if_neg (by omega)]
        exact h.written b hb
      · rw [if_pos rfl]
    · rw [if_neg (hpair n (by omega))]
      exact h.others pair fun b hb => hpair b (by omega)
    · rcases Nat.lt_succ_iff_lt_or_eq.mp hb with hb | rfl
      · rw [if_neg (by omega)]
        exact h.zeroed b hb hchanged
      · rw [if_pos rfl]
    · rw [if_neg (hk n (by omega) hchange)]
      exact h.kept k fun b hb => hk b (by omega)

theorem chainWritten_chainWord {c : CounterState} (hchained : tsorted c.chained = true) (hcounts : tsorted c.counts = true)
    (part word v n : Nat) : ChainWritten part word v n c (c.chainWord part word v n) := by
  induction n with
  | zero => exact ⟨hchained, hcounts, nofun, fun _ _ => rfl, nofun, fun _ _ => rfl⟩
  | succ n ih =>
    rw [CounterState.chainWord, List.range_succ, List.foldl_append]
    exact ih.succ

/-- The part and the word of chain bits that a register of the two holds. -/
def chainPart (r : RegName) (ix : List Nat) : Nat := if r = .cntChainDev then 0 else ix.getD 0 0 + 1

def chainWordOf (r : RegName) (ix : List Nat) : Nat := if r = .cntChainDev then ix.getD 0 0 else ix.getD 1 0

theorem writeCntChain_eq (s : State) (r : RegName) (ix : List Nat) (v : Nat) : writeCntChain s r ix v =
    { landWrite s r ix v with counters := s.counters.chainWord (chainPart r ix) (chainWordOf r ix) v 32 } :=
  foldl_setChained ..

/-- Settles O22: the bits of the word are written one after another, each of a pair of its own. -/
theorem chainChange : Obligations.ChainChange := by
  intro s req v r ix hr hreach hfit part word chainBit
  obtain ⟨hcounts, hchained, -⟩ := hfit
  have hregister : [RegName.cntChainDev, .cntChainSl].contains r = true ∧ part < 9 ∧ word < 11 := by
    rcases hr with ⟨w, hw, rfl, rfl⟩ | ⟨sl, w, hsl, hw, rfl, rfl⟩
    · exact ⟨rfl, Nat.succ_pos _, by change w < 11; omega⟩
    · exact ⟨rfl, by change sl + 1 < 9; omega, hw⟩
  obtain ⟨hname, hpart, hword⟩ := hregister
  obtain ⟨-, -, hwritten, hothers, hzeroed, hkept⟩ :=
    chainWritten_chainWord (tsorted_of_twf hchained) (tsorted_of_twf hcounts) part word v 32
  have hrun := (guarded_ok (effect := fun s r ix => writeCntChain s r ix v) hreach hname).trans (writeCntChain_eq ..)
  refine ⟨_, _, _, congrArg Host.Outcome.next hrun, rfl, hwritten, fun pair hpair => hothers pair fun b hb => by omega,
    fun q num hsame hq hnum => hkept _ fun b hb hchange heq => ?_, fun b hb hchange => ?_⟩
  · have hpair : q = part ∧ num = 2 * (32 * word + b) + 1 := by omega
    obtain ⟨rfl, rfl⟩ := hpair
    rcases hsame rfl with heven | hbit
    · omega
    · rw [show (2 * (32 * word + b) + 1) / 2 = 32 * word + b by omega] at hbit
      exact hchange (hbit.symm.trans (hwritten b hb))
  · rw [counterAt, ← Nat.add_assoc]
    exact hzeroed b hb hchange

/-! ### Tagging and the trace stream -/

/-- The trace block is due only while a record waits, and the device runs. -/
theorem traceBlockClose_facts {s : State} (hrun : running s = true) (hdue : blockDue s = true) :
    (traceBlockClose s).trace.queue = s.trace.queue.drop (recordsThatFit 4064 s.trace.queue) ∧
      (traceBlockClose s).trace.seq = s.trace.seq + 1 ∧ (traceBlockClose s).trace.dropped = 0 ∧
      (traceBlockClose s).trace.cfg = inForce s .trcCfg [] := by
  unfold traceBlockClose
  rw [if_neg (by simp [hrun, hdue])]
  extract_lets n rs block s1 s2 s3
  obtain ⟨c, hone⟩ := bump_eq s1 0 0xA1 n
  obtain ⟨d, htwo⟩ := bump_eq (bump s1 0 0xA1 n) 0 0xA3 block.length
  have hcounted : s2 = { s1 with counters := d } := htwo.trans (by rw [hone])
  have hsent : s3.trace.queue = s1.trace.queue ∧ s3.trace.seq = s1.trace.seq ∧ s3.trace.dropped = s1.trace.dropped ∧
      s3.regs = s.regs := by
    have hregs : s2.regs = s.regs := by rw [hcounted]; rfl
    have htrace : s2.trace = s1.trace := by rw [hcounted]
    rw [← hregs, ← htrace]
    unfold s3
    split
    · exact ⟨rfl, rfl, rfl, rfl⟩
    · split
      · unfold storeBlock
        dsimp only
        split <;> exact ⟨rfl, rfl, rfl, rfl⟩
      · exact ⟨rfl, rfl, rfl, rfl⟩
  obtain ⟨hqueue, hseq, hdropped, hregs⟩ := hsent
  exact ⟨hqueue, hseq, hdropped, inForce_of_cells (congrArg RegState.cells hregs) ..⟩

/-- Settles O26: each write lands in its register and changes the one part that its row names. -/
theorem taggingAndTrace : Obligations.TaggingAndTrace := by
  intro s req v
  refine ⟨fun sl _ h => ?_, fun h hkeep => ?_, fun h hreset => ?_, fun hrun hdue => ?_⟩
  · refine ⟨_, congrArg Host.Outcome.next (guarded_ok h (by decide)), ?_, fun k hk => ?_⟩
    · exact (sliceAt_setSlice_same ..).trans rfl
    · exact tget_tins_ne _ _ _ hk
  · refine ⟨_, congrArg Host.Outcome.next ((guarded_ok h (by decide)).trans (if_neg (by simp [hkeep]))), ?_⟩
    unfold writeTrcCfg
    extract_lets s1 s2
    have hland : s2 = s1 := if_neg (by simp [hkeep])
    rw [hland, show s1.trace.queue = s.trace.queue from rfl]
    by_cases hidle : s.trace.queue = []
    · rw [if_pos (List.isEmpty_iff.mpr hidle), if_pos hidle]
      exact ⟨rfl, rfl⟩
    · rw [if_neg (fun hc => hidle (List.isEmpty_iff.mp hc)), if_neg hidle]
      exact ⟨rfl, rfl⟩
  · refine ⟨_, congrArg Host.Outcome.next ((guarded_ok h (by decide)).trans (if_pos hreset)), ?_⟩
    unfold writeTrcCfg
    extract_lets s1 s2
    have hland : s2 = resetWp s1 := if_pos hreset
    rw [hland]
    split <;> exact ⟨rfl, rfl, rfl, rfl⟩
  · exact ⟨_, rfl, traceBlockClose_facts hrun hdue⟩

end Sys2Proof.Machine
end

