-- ==== Sys2Proof/Proofs/ReceiveChecks.lean ====
section
/-! PROOF. The receive checks of an UP port (11/R347, R348). -/

namespace Sys2Proof.Machine

/-- A frame that the partner sends to an UP port outside every loop comes to the receive checks. -/
theorem frameReceive_of_up {s : State} {port : Nat} (hup : portUp s port = true) (hloop : loopOf s port = 0)
    (bytes : List Byte) (errored : Bool) : frameReceive port bytes errored s = receiveChecks port bytes errored s :=
  if_pos (by simp [hup, hloop])

/-- What the receive checks store of a frame: so many bytes, the last four of them its FCS. -/
theorem storedFrame_holds {s u : State} (htime : u.time = s.time) (port : Nat) (bytes : List Byte) (len : Nat) (bad : Bool) :
    let f := storedFrame u port bytes len bad
    f.port = port ∧ f.slice = port / 32 ∧ f.stage = .received ∧ f.tail = .pending ∧ f.errored = bad ∧ f.rxLen = len ∧
      f.rxTick = s.time.tick ∧ f.data = bytes.take (len - 4) ∧ f.rx = f.data ∧
      f.fcs = unle ((bytes.take len).drop (len - 4)) := by
  refine ⟨rfl, rfl, rfl, rfl, rfl, rfl, congrArg TimeState.tick htime, ?_, rfl, rfl⟩
  show (bytes.take len).take (len - 4) = _
  rw [List.take_take, Nat.min_eq_left (Nat.sub_le len 4)]

/-- A frame that is counted as it enters joins the frames in flight under the next number. -/
theorem addFrame_cntPort (s : State) (port k : Nat) (f : Frame) : addFrame (cntPort s port k) f =
    { cntPort s port k with frames := tins s.frames s.nextFrame f, nextFrame := s.nextFrame + 1 } := by
  obtain ⟨c, h⟩ : ∃ c, cntPort s port k = { s with counters := c } := bump_eq ..
  rw [addFrame, h]

section
variable {s : State} {port : Nat} {bytes : List Byte}

/-- A frame of at least 64 bytes that finds room to begin with, without an uncorrectable codeword. -/
theorem receiveChecks_of_room (hlen : 64 ≤ bytes.length) (hroom : 512 ≤ rxFree s (port / 8)) :
    receiveChecks port bytes false s =
      if rxFree s (port / 8) < bytes.length ∧ rxFree s (port / 8) < maxFrame s port then
        addFrame (cntPort s port 1) (storedFrame s port bytes (rxFree s (port / 8)) true)
      else if maxFrame s port < bytes.length then
        addFrame (cntPort s port 2) (storedFrame s port bytes (maxFrame s port) true)
      else addFrame s (storedFrame s port bytes bytes.length false) := by
  unfold receiveChecks
  rw [if_neg (by omega), if_neg (by omega)]
  rfl

/-- A state in which a codeword of a frame's port has been counted as uncorrectable. -/
def codewordCounted (s : State) (port : Nat) : State :=
  modPort (cntPort s port 7) port (fun p => { p with uncorr := p.uncorr + 1 })

theorem codewordCounted_eq (s : State) (port : Nat) :
    (∃ counters line, codewordCounted s port = { s with counters := counters, line := line }) ∧
      (portAt (codewordCounted s port) port).uncorr = (portAt s port).uncorr + 1 := by
  obtain ⟨c, h⟩ : ∃ c, cntPort s port 7 = { s with counters := c } := bump_eq ..
  refine ⟨⟨c, (codewordCounted s port).line, ?_⟩, ?_⟩
  · rw [codewordCounted, modPort, h]
  · rw [codewordCounted, portAt_modPort, if_pos rfl, cntPort, portAt_of_line (line_bump ..)]

/-- A whole frame with an uncorrectable codeword is stored errored. -/
theorem receiveChecks_errored (hlen : 64 ≤ bytes.length) (hroom : 512 ≤ rxFree s (port / 8))
    (hfits : bytes.length ≤ rxFree s (port / 8)) (hshort : bytes.length ≤ maxFrame s port) :
    receiveChecks port bytes true s =
      addFrame (codewordCounted s port) (storedFrame (codewordCounted s port) port bytes bytes.length true) := by
  obtain ⟨⟨c, line, hcounted⟩, -⟩ := codewordCounted_eq s port
  have hfree : rxFree (codewordCounted s port) (port / 8) = rxFree s (port / 8) := by rw [hcounted]; rfl
  have hmax : maxFrame (codewordCounted s port) port = maxFrame s port := by rw [hcounted]; rfl
  unfold receiveChecks
  rw [if_neg (by omega), if_neg (by omega)]
  extract_lets s1 free
  have hs1 : s1 = codewordCounted s port := if_pos rfl
  have hrest : free = rxFree s (port / 8) ∧ maxFrame s1 port = maxFrame s port := by
    rw [← hfree, ← hmax, ← hs1]
    exact ⟨rfl, rfl⟩
  rw [if_neg (by omega), if_neg (by omega), hs1]

end

end Sys2Proof.Machine

namespace Sys2Proof

open Machine

/-- Settles O33: the checks are made in their order, and what is stored is what they leave of the frame. -/
theorem receiveChecks : Obligations.ReceiveChecks := by
  intro s port bytes hup hloop n free enters
  have hreceive (errored : Bool) {t : State} (h : Machine.receiveChecks port bytes errored s = t) :
      exec (.frameReceive port bytes errored) s = .next t :=
    congrArg Host.Outcome.next ((frameReceive_of_up hup hloop bytes errored).trans h)
  refine ⟨fun hshort e => hreceive e (if_pos hshort), fun hlong hfull e => hreceive e ?_, fun hlong hroom => ?_⟩
  · rw [Machine.receiveChecks, if_neg (by omega), if_pos hfull]
  · have hchecks := receiveChecks_of_room (s := s) (port := port) hlong hroom
    refine ⟨fun hfits hmax => ?_, fun hfits hmax => ?_, fun hmax hfits => ?_, fun hfull hmax => ?_⟩
    · rw [if_neg (by omega), if_neg (by omega)] at hchecks
      exact ⟨_, hreceive false hchecks, _, rfl, storedFrame_holds rfl ..⟩
    · have herrored := receiveChecks_errored hlong hroom hfits hmax
      obtain ⟨⟨c, line, hcounted⟩, huncorr⟩ := codewordCounted_eq s port
      refine ⟨_, c, line, hreceive true herrored,
        ⟨storedFrame (codewordCounted s port) port bytes n true, ?_, storedFrame_holds ?_ ..⟩, huncorr⟩
      · rw [addFrame, hcounted]
      · rw [hcounted]
    · rw [if_neg (by omega), if_pos hmax] at hchecks
      exact ⟨_, hreceive false hchecks, _, addFrame_cntPort .., storedFrame_holds rfl ..⟩
    · rw [if_pos ⟨hfull, hmax⟩] at hchecks
      exact ⟨_, hreceive false hchecks, _, addFrame_cntPort .., storedFrame_holds rfl ..⟩

end Sys2Proof
end

