-- ==== Sys2Proof/Proofs/LinkDrops.lean ====
section
/-! PROOF. A port that drops starts a run of attempts, and the FEC interval of an UP port (11/R355, R357). -/

namespace Sys2Proof.Machine

/-! ### Receive stops

A frame that arrives at a port that stops delivering ends (11/R347): none of it touches lanes or ports. -/

section
variable (s : State) (id : Nat)

theorem line_puntDropped (sl reason : Nat) : (puntDropped s sl reason).line = s.line := by
  unfold puntDropped
  extract_lets s1 ch s2 c n due
  have hnoted : s2.line = s.line := line_bump ..
  split
  · exact (line_postEvent ..).trans hnoted
  · exact hnoted

theorem line_purgeFrame : (purgeFrame s id).line = s.line := line_onFrame rfl fun _ => rfl

theorem line_freeFrame : (freeFrame s id).line = s.line :=
  line_onFrame rfl fun _ => (line_modFrame ..).trans (line_freeCells ..)

theorem line_voidStored : (voidStored s id).line = s.line :=
  (line_releaseFrame ..).trans ((line_verdictBad ..).trans ((line_freeFrame ..).trans (line_purgeFrame ..)))

theorem line_allocate (sl : Nat) (flips : List (Nat × Nat)) : (allocate s sl flips).2.line = s.line := by
  unfold allocate
  extract_lets c
  split
  · rfl
  · split
    · rfl
    · extract_lets w s1
      split
      · rfl
      · split
        · rfl
        · exact line_rimLog ..

theorem line_allocateMany (sl : Nat) (flips : List (Nat × Nat)) (n : Nat) (s : State) :
    (allocateMany sl flips n s).2.line = s.line := by
  induction n generalizing s with
  | zero => rfl
  | succ n ih =>
    have hone := line_allocate s sl flips
    unfold allocateMany
    split
    · next h => rw [h] at hone; exact hone
    · next h => rw [h] at hone; exact (ih _).trans hone

theorem line_growFrame (flips : List (Nat × Nat)) : (growFrame flips s id).line = s.line := by
  refine line_onFrame rfl fun f => ?_
  dsimp only
  split
  · exact (line_modFrame ..).trans (line_allocateMany ..)
  · rfl

theorem line_tailBad : (tailBad s id).line = s.line := by
  unfold tailBad
  extract_lets s1
  have htail : s1.line = s.line := (line_growFrame ..).trans (line_modFrame ..)
  refine line_onFrame htail fun f => ?_
  split
  · split
    · exact (line_verdictBad ..).trans htail
    · exact (line_voidStored ..).trans htail
  · exact (line_voidStored ..).trans ((line_puntDropped ..).trans htail)
  · exact htail

theorem line_abortReceive : (abortReceive s id).line = s.line := by
  refine line_onFrame rfl fun f => ?_
  extract_lets s1
  have hcounted : s1.line = s.line := line_bump ..
  split
  · exact hcounted
  · exact (line_tailBad ..).trans ((line_onFrame (u := s1) rfl fun _ => line_modFrame ..).trans hcounted)

theorem line_receiveStops (p : Nat) : (receiveStops s p).line = s.line := line_foldl line_abortReceive ..

end

/-! ### A run of attempts starts -/

theorem fillShapers_eq (s : State) (p : Nat) : ∃ egress, fillShapers s p = { s with egress := egress } := by
  have hqueues : ∃ egress, (List.range 8).foldl (fun s c => setShq s (eqNum p c)
      (if shqOn s (eqNum p c) then Bucket.full (fld s .shqBurst (shqIx (eqNum p c)) 23 0) s.time.tick else Bucket.reset)) s =
        { s with egress := egress } := by
    refine List.foldlRecOn (motive := fun t => ∃ egress, t = { s with egress := egress }) _ _ ⟨s.egress, rfl⟩ fun t ht c _ => ?_
    obtain ⟨egress, rfl⟩ := ht
    exact ⟨_, rfl⟩
  obtain ⟨egress, h⟩ := hqueues
  unfold fillShapers
  rw [h]
  exact ⟨_, rfl⟩

/-- The port of a run of attempts as it starts: its first attempt is in progress. -/
def PortState.runStarted (x : PortState) (now : Nat) : PortState := { x with state := 1, attempts := 0 }.attemptStarted now

/-- A run that starts leaves the other ports. -/
theorem runStart_facts (s : State) (p : Nat) :
    (∃ regs line out fresh egress, runStart s p =
      { s with regs := regs, line := line, out := out, fresh := fresh, egress := egress }) ∧
      ∀ q, portAt (runStart s p) q = if q = p then (portAt s p).runStarted s.time.tick else portAt s q := by
  unfold runStart
  extract_lets s1 s2 s3
  have hfilled : ∃ egress, s1 = { s with egress := egress } := by
    unfold s1
    split
    · exact fillShapers_eq s p
    · exact ⟨s.egress, rfl⟩
  have hlanes : LanesAlone s2 s3 := .foldl (fun u l => lanesAlone_modLane ..) ..
  obtain ⟨egress, hs1⟩ := hfilled
  have hline : s1.line = s.line := by rw [hs1]
  obtain ⟨⟨regs, line, out, fresh, hrun⟩, hports⟩ := attemptStart_facts s3 p
  have htick : s3.time.tick = s.time.tick := by rw [hlanes.time]; show s1.time.tick = _; rw [hs1]
  refine ⟨?_, fun q => ?_⟩
  · obtain ⟨out', lanes', hs3⟩ := hlanes
    refine ⟨regs, line, out, fresh, egress, ?_⟩
    rw [hrun, hs3]
    simp only [s2, modPort, hs1]
  · have hown (k : Nat) : portAt s3 k = if k = p then { portAt s p with state := 1, attempts := 0 } else portAt s k := by
      rw [hlanes.portAt, portAt_modPort, portAt_of_line hline, portAt_of_line hline]
    rw [hports, hown, hown, htick, if_pos rfl]
    split <;> rfl

/-! ### A port drops -/

/-- A port that has dropped is training, shows the cause, has counted the drop and has begun a fresh run; the others stand. -/
structure PortDropped (p cause : Nat) (s t : State) : Prop where
  state : (portAt t p).state = 1
  shows : (portAt t p).dropCause = cause
  first : (portAt t p).attempts = 1
  attempting : (portAt t p).attempting = true
  counted : (portAt t p).drops = min 4095 ((portAt s p).drops + 1)
  others : ∀ q, q ≠ p → portAt t q = portAt s q

theorem portDropped_dropPort {s : State} {p : Nat} (hup : (portAt s p).state = 2) (cause : Nat) :
    PortDropped p cause s (dropPort s p cause) := by
  unfold dropPort
  rw [if_neg (not_not.mpr hup)]
  extract_lets s1 s2 s3
  have hstopped : (cutSending (receiveStops s p) p false).line = s.line := (line_cutSending ..).trans (line_receiveStops ..)
  have hline : s3.line = s2.line := line_postEvent ..
  have hs1 (q : Nat) : portAt s1 q = if q = p then { portAt s p with readySince := none } else portAt s q := by
    rw [portAt_leaveLpi, portAt_of_line hstopped, portAt_of_line hstopped]
  have hs3 (q : Nat) : portAt s3 q = if q = p then
      { portAt s p with readySince := none, dropCause := cause, drops := min 4095 ((portAt s p).drops + 1) } else portAt s q := by
    rw [portAt_of_line hline, portAt_modPort, hs1, hs1, if_pos rfl]
    by_cases hq : q = p
    · rw [if_pos hq, if_pos hq]
    · rw [if_neg hq, if_neg hq, if_neg hq]
  obtain ⟨-, hports⟩ := runStart_facts s3 p
  have hown := (hports p).trans (if_pos rfl)
  rw [hs3 p, if_pos rfl] at hown
  refine ⟨congrArg (·.state) hown, congrArg (·.dropCause) hown, congrArg (·.attempts) hown, congrArg (·.attempting) hown,
    congrArg (·.drops) hown, fun q hq => ?_⟩
  rw [hports, if_neg hq, hs3, if_neg hq]

/-- A drop of a port is one of the port as it was before other parts of the state changed. -/
theorem PortDropped.of_ports {p cause : Nat} {s t u : State} (h : PortDropped p cause t u)
    (hown : (portAt t p).drops = (portAt s p).drops) (hothers : ∀ q, q ≠ p → portAt t q = portAt s q) :
    PortDropped p cause s u :=
  ⟨h.state, h.shows, h.first, h.attempting, hown ▸ h.counted, fun q hq => (h.others q hq).trans (hothers q hq)⟩

theorem state_of_portUp {s : State} {p : Nat} (h : portUp s p = true) : (portAt s p).state = 2 := by
  simp only [portUp, Bool.and_eq_true, beq_iff_eq] at h
  exact h.2

/-- Loss of signal or of alignment, or a remote fault, of an UP port that hears its partner. -/
theorem portDropped_linkDrop {s : State} {p cause : Nat} (hup : portUp s p = true) (hfar : nearLoop s p = false)
    (hcause : cause = 4 ∨ cause = 5 ∨ cause = 7) : PortDropped p cause s (linkDrop p cause s) := by
  unfold linkDrop
  rw [if_pos (by rcases hcause with rfl | rfl | rfl <;> simp [hup, hfar])]
  extract_lets s1
  have hlanes : LanesAlone s s1 := by
    unfold s1
    split
    · exact .foldl (fun u l => lanesAlone_modLane ..) ..
    · exact .refl s
  have hstate : (portAt s1 p).state = 2 := by rw [hlanes.portAt, state_of_portUp hup]
  exact (portDropped_dropPort hstate cause).of_ports (by rw [hlanes.portAt]) fun q _ => hlanes.portAt q

/-! ### The FEC interval -/

/-- A count reaches the counter it names, and of a chained pair the odd one too. -/
theorem counterAt_bump_ne (s : State) {part num q m : Nat} (n : Nat) (h : q * 1024 + m ≠ part * 1024 + num)
    (hnext : q * 1024 + m ≠ part * 1024 + num + 1) : counterAt (bump s part num n) q m = counterAt s q m := by
  unfold bump
  split
  · unfold bumpRaw
    extract_lets pair k v c1
    split
    · split
      · rfl
      · exact (tget_tput_ne _ _ _ hnext).trans (tget_tput_ne _ _ _ h)
    · exact tget_tput_ne _ _ _ h
  · rfl

/-- A pair that is not chained counts each of its counters alone. -/
theorem counterAt_bump_plain {s : State} {part num : Nat} (n : Nat) (hrun : running s = true) (hfit : CountersFit s.counters)
    (hplain : tget false s.counters.chained (part * 512 + num / 2) = false) (q m : Nat) :
    counterAt (bump s part num n) q m =
      if q * 1024 + m = part * 1024 + num then (counterAt s part num + n) % 2 ^ 48 else counterAt s q m := by
  rw [bump_plain s part num n hrun hplain]
  exact tget_tput _ _ (tsorted_of_twf hfit.1)

theorem countersFit_bump {s : State} (hfit : CountersFit s.counters) (part num n : Nat) :
    CountersFit (bump s part num n).counters := by
  unfold bump
  split
  · exact countersFit_bumpRaw hfit
  · exact hfit

/-- The codewords of an interval are counted. -/
def codewordsCounted (s : State) (p corr uncorr : Nat) : State :=
  bump (bump s (p / 32 + 1) (p % 32 * 16 + 6) corr) (p / 32 + 1) (p % 32 * 16 + 7) uncorr

theorem codewordsCounted_eq (s : State) (p corr uncorr : Nat) :
    ∃ counters, codewordsCounted s p corr uncorr = { s with counters := counters } := by
  obtain ⟨c, hone⟩ := bump_eq s (p / 32 + 1) (p % 32 * 16 + 6) corr
  obtain ⟨d, htwo⟩ := bump_eq (bump s (p / 32 + 1) (p % 32 * 16 + 6) corr) (p / 32 + 1) (p % 32 * 16 + 7) uncorr
  exact ⟨d, htwo.trans (by rw [hone])⟩

/-- The codewords of an interval are counted, then the symbol errors of each lane. -/
def fecCounted (s : State) (p corr uncorr : Nat) (sym : List Nat) : State :=
  ((lanesOf s p).zip sym).foldl (fun s e => bump s (e.1 / 32 + 1) (0x200 + e.1 % 32) e.2) (codewordsCounted s p corr uncorr)

/-- Symbol errors are counted beside the counters of the ports. -/
theorem fecCounted_facts (s : State) (p corr uncorr : Nat) (sym : List Nat) :
    (∃ counters, fecCounted s p corr uncorr sym = { s with counters := counters }) ∧
      ∀ q m, m < 512 → counterAt (fecCounted s p corr uncorr sym) q m =
        counterAt (codewordsCounted s p corr uncorr) q m := by
  refine List.foldlRecOn (motive := fun t => (∃ counters, t = { s with counters := counters }) ∧ ∀ q m, m < 512 →
    counterAt t q m = counterAt (codewordsCounted s p corr uncorr) q m)
    _ _ ⟨codewordsCounted_eq .., fun _ _ _ => rfl⟩ fun t ht e _ => ?_
  obtain ⟨⟨counters, rfl⟩, hkept⟩ := ht
  obtain ⟨c', hcounted⟩ := bump_eq { s with counters := counters } (e.1 / 32 + 1) (0x200 + e.1 % 32) e.2
  exact ⟨⟨c', hcounted⟩, fun q m hm => (counterAt_bump_ne _ _ (by omega) (by omega)).trans (hkept q m hm)⟩

/-- Both codeword counters of a port whose pair is not chained. -/
theorem codewords_fecCounted {s : State} {p : Nat} (hrun : running s = true) (hfit : CountersFit s.counters)
    (hplain : tget false s.counters.chained ((p / 32 + 1) * 512 + (p % 32 * 16 + 6) / 2) = false) (corr uncorr : Nat)
    (sym : List Nat) :
    counterAt (fecCounted s p corr uncorr sym) (p / 32 + 1) (p % 32 * 16 + 6) =
        (counterAt s (p / 32 + 1) (p % 32 * 16 + 6) + corr) % 2 ^ 48 ∧
      counterAt (fecCounted s p corr uncorr sym) (p / 32 + 1) (p % 32 * 16 + 7) =
        (counterAt s (p / 32 + 1) (p % 32 * 16 + 7) + uncorr) % 2 ^ 48 := by
  obtain ⟨-, hkept⟩ := fecCounted_facts s p corr uncorr sym
  have hone := counterAt_bump_plain corr hrun hfit hplain
  have hplain' : tget false (bump s (p / 32 + 1) (p % 32 * 16 + 6) corr).counters.chained
      ((p / 32 + 1) * 512 + (p % 32 * 16 + 7) / 2) = false := by
    rw [bump_plain s _ _ corr hrun hplain, show (p % 32 * 16 + 7) / 2 = (p % 32 * 16 + 6) / 2 by omega]
    exact hplain
  have hrun' : running (bump s (p / 32 + 1) (p % 32 * 16 + 6) corr) = true := by
    rw [bump_plain s _ _ corr hrun hplain]
    exact hrun
  have htwo := counterAt_bump_plain uncorr hrun' (countersFit_bump hfit ..) hplain'
  constructor
  · rw [hkept _ _ (by omega), codewordsCounted, htwo, if_neg (by omega), hone, if_pos rfl]
  · rw [hkept _ _ (by omega), codewordsCounted, htwo, if_pos rfl, hone, if_neg (by omega)]

/-- A port at the start of its next FEC interval. -/
def PortState.fecRestarted (x : PortState) : PortState := { x with uncorr := 0, since := x.since + 1250000 }

/-- An UP port's interval that is over: what it brought is counted, the next one begins, and more uncorrectable codewords than
the limit drop the port. -/
theorem fecIntervalEnd_of_over {s : State} {p : Nat} (hup : portUp s p = true) (hover : (portAt s p).since + 1250000 ≤ s.time.tick)
    (corr uncorr : Nat) (sym : List Nat) :
    fecIntervalEnd p corr uncorr sym s =
      if fld s .portFec [p] 15 0 ≠ 0 ∧ fld s .portFec [p] 15 0 < (portAt s p).uncorr + uncorr then
        dropPort (modPort (fecCounted s p corr uncorr sym) p PortState.fecRestarted) p 6
      else modPort (fecCounted s p corr uncorr sym) p PortState.fecRestarted := by
  obtain ⟨⟨c, hcounted⟩, -⟩ := fecCounted_facts s p corr uncorr sym
  have hfec : fld (fecCounted s p corr uncorr sym) .portFec [p] 15 0 = fld s .portFec [p] 15 0 := by rw [hcounted]; rfl
  have hport : (portAt (fecCounted s p corr uncorr sym) p).uncorr = (portAt s p).uncorr := by rw [hcounted]; rfl
  obtain ⟨d, hcodewords⟩ := codewordsCounted_eq s p corr uncorr
  have hnot : decide (s.time.tick < (portAt s p).since + ticksOfNs 1000000) = false :=
    decide_eq_false (by unfold ticksOfNs; omega)
  unfold fecIntervalEnd
  rw [if_neg (by simp [hup, hnot])]
  extract_lets s1 s2 n s3 limit
  have hs2 : s2 = fecCounted s p corr uncorr sym := by
    have hlanes : lanesOf s1 p = lanesOf s p := by
      show lanesOf (codewordsCounted s p corr uncorr) p = _
      rw [hcodewords]
      rfl
    unfold s2 fecCounted
    rw [hlanes]
    rfl
  have hlimit : limit = fld s .portFec [p] 15 0 := (congrArg (fld · .portFec [p] 15 0) hs2).trans hfec
  have hn : n = (portAt s p).uncorr + uncorr := by unfold n; rw [hs2, hport]
  have hs3 : s3 = modPort (fecCounted s p corr uncorr sym) p PortState.fecRestarted := by unfold s3; rw [hs2]; rfl
  rw [hlimit, hn, hs3]

/-- Settles O29: whatever makes an UP port drop, the port is left as its drop leaves it. -/
theorem linkDrops : Obligations.LinkDrops := by
  intro s p hfit hup x drops
  have hdrops {t : State} {cause : Nat} (h : PortDropped p cause s t) : drops t cause :=
    ⟨h.state, h.shows, h.first, h.attempting, h.counted, h.others⟩
  refine ⟨fun cause hfar hcause => ⟨_, rfl, hdrops (portDropped_linkDrop hup hfar hcause)⟩, fun corr uncorr sym hover hrun => ?_⟩
  intro limit c plain
  have hend := fecIntervalEnd_of_over hup hover corr uncorr sym
  obtain ⟨⟨counters, hcounted⟩, -⟩ := fecCounted_facts s p corr uncorr sym
  have hports (q : Nat) : portAt (modPort (fecCounted s p corr uncorr sym) p PortState.fecRestarted) q =
      if q = p then (portAt s p).fecRestarted else portAt s q := by
    rw [portAt_modPort, hcounted]
    rfl
  refine ⟨fun hfew => ?_, fun hlimit hmany => ?_⟩
  · have hstays : ¬ (limit ≠ 0 ∧ limit < x.uncorr + uncorr) := by omega
    rw [if_neg hstays] at hend
    refine ⟨_, counters, (modPort (fecCounted s p corr uncorr sym) p PortState.fecRestarted).line,
      congrArg Host.Outcome.next hend, ?_, (hports p).trans (if_pos rfl), fun q hq => (hports q).trans (if_neg hq),
      fun hplain => codewords_fecCounted hrun hfit hplain corr uncorr sym⟩
    rw [modPort, hcounted]
  · rw [if_pos ⟨hlimit, hmany⟩] at hend
    have hstate : (portAt (modPort (fecCounted s p corr uncorr sym) p PortState.fecRestarted) p).state = 2 := by
      rw [hports, if_pos rfl]
      exact state_of_portUp hup
    refine ⟨_, congrArg Host.Outcome.next hend, hdrops ((portDropped_dropPort hstate 6).of_ports ?_ fun q hq => ?_)⟩
    · rw [hports, if_pos rfl]
      rfl
    · rw [hports, if_neg hq]

end Sys2Proof.Machine
end

