-- ==== Sys2Proof/Proofs/LowPowerIdle.lean ====
section
/-! PROOF. The figure of merit and low-power idle of an UP port (11/R351, R352, R360). -/

namespace Sys2Proof.Machine

theorem nearLoop_of_lanesAlone {s t : State} (h : LanesAlone s t) (p : Nat) : nearLoop t p = nearLoop s p := by
  simp only [nearLoop, loopOf, h.fld]

/-- One change of every lane of a port, which leaves the other lanes. -/
theorem laneAt_everyLane (s : State) (p l : Nat) (f : LaneState → LaneState) :
    laneAt ((lanesOf s p).foldl (fun u l => modLane u l f) s) l =
      if p ≤ l ∧ l < p + portLanes s p then f (laneAt s l) else laneAt s l := by
  have hmem : l ∈ lanesOf s p ↔ p ≤ l ∧ l < p + portLanes s p := by
    rw [mem_lanesOf]
    exact ⟨fun ⟨i, hi, h⟩ => by omega, fun h => ⟨l - p, by omega, by omega⟩⟩
  rw [laneAt_foldl_modLane (nodup_lanesOf s p)]
  exact if_congr hmem rfl rfl

/-- One change of every lane of a port is a change of the line, of which the ports stand. -/
theorem everyLane_eq (s : State) (p : Nat) (f : LaneState → LaneState) :
    (∃ line, (lanesOf s p).foldl (fun u l => modLane u l f) s = { s with line := line }) ∧
      ∀ q, portAt ((lanesOf s p).foldl (fun u l => modLane u l f) s) q = portAt s q := by
  have hline (ls : List Nat) : ∃ line, ls.foldl (fun u l => modLane u l f) s = { s with line := line } :=
    List.foldlRecOn (motive := fun t => ∃ line, t = { s with line := line }) ls _ ⟨s.line, rfl⟩ fun t ht l _ => by
      obtain ⟨line, rfl⟩ := ht
      exact ⟨_, rfl⟩
  have hlanes : LanesAlone s ((lanesOf s p).foldl (fun u l => modLane u l f) s) := .foldl (fun u l => lanesAlone_modLane ..) ..
  exact ⟨hline _, hlanes.portAt⟩

/-- A lane whose transmitter enters or leaves LPI; in a near loop its receiver hears it. -/
def LaneState.sends (x : LaneState) (near b : Bool) : LaneState := { x with txLpi := b, rxLpi := if near then b else x.rxLpi }

/-- A lane whose receiver hears LPI, or its end. -/
def LaneState.hears (x : LaneState) (b : Bool) : LaneState := { x with rxLpi := b }

/-- Whether the port is in a near loop does not depend on its lanes. -/
theorem setTxLpi_eq (s : State) (p : Nat) (b : Bool) :
    setTxLpi s p b = (lanesOf s p).foldl (fun u l => modLane u l (·.sends (nearLoop s p) b)) s := by
  have hsame (ls : List Nat) (u : State) (h : nearLoop u p = nearLoop s p) :
      ls.foldl (fun s l => modLane s l (fun x => { x with txLpi := b, rxLpi := if nearLoop s p then b else x.rxLpi })) u =
        ls.foldl (fun u l => modLane u l (·.sends (nearLoop s p) b)) u := by
    induction ls generalizing u with
    | nil => rfl
    | cons l ls ih =>
      rw [List.foldl_cons, List.foldl_cons, ih _ ((nearLoop_of_lanesAlone (lanesAlone_modLane ..) p).trans h)]
      simp only [LaneState.sends, h]
  exact hsame _ s rfl

theorem lpiEnter_of_idle {s : State} {p : Nat} (hup : portUp s p = true) (hon : fld s .portCtl [p] 25 25 = 1)
    (hquiet : portBusy s p = false) (hgates : (egAt s p).gate.running = false)
    (hidle : (portAt s p).idleSince + max 1 (fld s .portLpi [p] 31 16) * 1250 ≤ s.time.tick) :
    lpiEnter p s = setTxLpi s p true := by
  have hpassed : (portAt s p).idleSince + ticksOfNs (max 1 (fld s .portLpi [p] 31 16) * 1000) ≤ s.time.tick := by
    unfold ticksOfNs
    omega
  exact if_pos (by simp [hup, hon, hquiet, hgates, hpassed])

theorem lpiWake_of_ready {s : State} {p since : Nat} (hready : (portAt s p).readySince = some since)
    (hpassed : since + max (fld s .portLpi [p] 15 0) (Config.pcsWakeUs (modeOf s p)) * 1250 ≤ s.time.tick) :
    lpiWake p s = modPort s p (fun x => { x with readySince := none }) := by
  have hticks : since + ticksOfNs (max (fld s .portLpi [p] 15 0) (Config.pcsWakeUs (modeOf s p)) * 1000) ≤ s.time.tick := by
    unfold ticksOfNs
    omega
  unfold lpiWake
  rw [hready]
  exact if_pos hticks

/-- Settles O30: each is one change of the lanes of the port, or of the port's own record. -/
theorem lowPowerIdle : Obligations.LowPowerIdle := by
  intro s p alone
  have halone (f : LaneState → LaneState) : alone ((lanesOf s p).foldl (fun u l => modLane u l f) s) := by
    obtain ⟨hline, hports⟩ := everyLane_eq s p f
    exact ⟨hline, fun l hl => (laneAt_everyLane ..).trans (if_neg hl), congrArg PortState.state (hports p)⟩
  have hlane (f : LaneState → LaneState) {i : Nat} (hi : i < portLanes s p) :
      laneAt ((lanesOf s p).foldl (fun u l => modLane u l f) s) (p + i) = f (laneAt s (p + i)) :=
    (laneAt_everyLane ..).trans (if_pos (by omega))
  refine ⟨fun l snr taps hl hup hthawed => ?_, fun hup => ⟨fun hon hquiet hgates hidle => ?_, fun hfar => ?_, fun hfar => ?_⟩,
    fun since hready hpassed => ?_⟩
  · have hrun : fomMeasure l snr taps s = modLane s l (fun x => { takeFom x snr with settings := adapt x.settings taps }) :=
      if_pos ⟨hl, hup, by simp [hthawed]⟩
    have hlanes (k : Nat) := laneAt_modLane s l k (fun x => { takeFom x snr with settings := adapt x.settings taps })
    refine ⟨_, congrArg Host.Outcome.next hrun, ?_, ?_, fun k hk => (hlanes k).trans (if_neg hk), _, rfl⟩
    · rw [hlanes, if_pos rfl]
      rfl
    · rw [hlanes, if_pos rfl]
      rfl
  · refine ⟨_, congrArg Host.Outcome.next ((lpiEnter_of_idle hup hon hquiet hgates hidle).trans (setTxLpi_eq ..)), halone _,
      fun i hi => ?_⟩
    rw [hlane _ hi]
    rfl
  · have hrun : rxLpi p true s = (lanesOf s p).foldl (fun u l => modLane u l (·.hears true)) s := if_pos (by simp [hup, hfar])
    exact ⟨_, congrArg Host.Outcome.next hrun, halone _, fun i hi => congrArg LaneState.rxLpi (hlane _ hi)⟩
  · have hrun : rxLpi p false s = (lanesOf s p).foldl (fun u l => modLane u l (·.hears false)) s := if_pos (by simp [hup, hfar])
    exact ⟨_, congrArg Host.Outcome.next hrun, halone _, fun i hi => congrArg LaneState.rxLpi (hlane _ hi)⟩
  · have hport : portAt (modPort s p (fun x => { x with readySince := none })) p = { portAt s p with readySince := none } :=
      (portAt_modPort ..).trans (if_pos rfl)
    exact ⟨_, congrArg Host.Outcome.next (lpiWake_of_ready hready hpassed), hport, ⟨_, rfl⟩, fun _ _ => rfl,
      by rw [hport]⟩

end Sys2Proof.Machine
end

