-- ==== Sys2Proof/Proofs/MacroModes.lean ====
section
/-! PROOF. Modes of a macro and loops of a lane are taken only when they may be (11/R345, R354, R361, R362). -/

namespace Sys2Proof.Machine

/-! ### What an attempt keeps of lanes and registers -/

/-- A lane keeps its test, and takes no converged settings. -/
structure LaneState.Kept (x y : LaneState) : Prop where
  inTest : y.inTest = x.inTest
  lock : y.lock = x.lock
  converged : x.converged = false → y.converged = false

/-- What the attempts of a port keep: every lane's test, each macro's mode, and the other ports' controls. -/
structure AttemptKept (p : Nat) (s t : State) : Prop where
  lanes : ∀ l, (laneAt s l).Kept (laneAt t l)
  mode : ∀ m, regCell t .macroMode [m] = regCell s .macroMode [m]
  ctl : ∀ q, q ≠ p → regCell t .portCtl [q] = regCell s .portCtl [q]

namespace AttemptKept

variable {p : Nat} {s t u : State}

theorem trans (a : AttemptKept p s t) (b : AttemptKept p t u) : AttemptKept p s u :=
  ⟨fun l => ⟨(b.lanes l).inTest.trans (a.lanes l).inTest, (b.lanes l).lock.trans (a.lanes l).lock,
      fun h => (b.lanes l).converged ((a.lanes l).converged h)⟩,
    fun m => (b.mode m).trans (a.mode m), fun q hq => (b.ctl q hq).trans (a.ctl q hq)⟩

theorem of_lanes (hregs : t.regs = s.regs) (hlanes : ∀ l, (laneAt s l).Kept (laneAt t l)) : AttemptKept p s t :=
  ⟨hlanes, fun m => regCell_of_cells (by rw [hregs]) .., fun q _ => regCell_of_cells (by rw [hregs]) ..⟩

theorem of_eq (hregs : t.regs = s.regs) (hlanes : t.line.lanes = s.line.lanes) : AttemptKept p s t :=
  of_lanes hregs fun l => by
    have h : laneAt t l = laneAt s l := by rw [laneAt, hlanes]; rfl
    rw [h]
    exact ⟨rfl, rfl, id⟩

theorem refl (s : State) : AttemptKept p s s := of_eq rfl rfl

theorem foldl {α : Type} {f : State → α → State} (h : ∀ s a, AttemptKept p s (f s a)) (l : List α) (s : State) :
    AttemptKept p s (l.foldl f s) :=
  List.foldlRecOn (motive := fun t => AttemptKept p s t) l f (.refl s) fun t ht a _ => ht.trans (h t a)

theorem modLane {l : Nat} {f : LaneState → LaneState} (h : ∀ x : LaneState, x.Kept (f x)) (s : State) :
    AttemptKept p s (modLane s l f) :=
  of_lanes rfl fun k => by
    rw [laneAt_modLane]
    split
    · next hk => exact hk ▸ h _
    · exact ⟨rfl, rfl, id⟩

end AttemptKept

theorem regCell_applyReg_ne (s : State) (r : RegName) (ix : List Nat) (b : Applies) (q : RegName) (jx : List Nat)
    (h : q.addr jx ≠ r.addr ix) : regCell (applyReg s r ix b) q jx = regCell s q jx := by
  unfold applyReg
  split
  · rfl
  · exact regCell_setCell_ne _ _ _ _ h

/-- RETRAIN values that come into force elsewhere. -/
theorem attemptKept_applyReg {p : Nat} {s : State} {r : RegName} {ix : List Nat} {b : Applies}
    (hmode : ∀ m, RegName.addr .macroMode [m] ≠ r.addr ix) (hctl : ∀ q, q ≠ p → RegName.addr .portCtl [q] ≠ r.addr ix) :
    AttemptKept p s (applyReg s r ix b) := by
  have hlane (l : Nat) : laneAt (applyReg s r ix b) l = laneAt s l := by
    unfold applyReg
    split <;> rfl
  exact ⟨fun l => by rw [hlane]; exact ⟨rfl, rfl, id⟩, fun m => regCell_applyReg_ne _ _ _ _ _ _ (hmode m),
    fun q hq => regCell_applyReg_ne _ _ _ _ _ _ (hctl q hq)⟩

theorem addr_laneCfg (l : Nat) : RegName.addr .laneCfg [l] = 0x3000000 + 0x1000 * l := rfl
theorem addr_laneLoss (l : Nat) : RegName.addr .laneLoss [l] = 0x3000004 + 0x1000 * l := rfl
theorem addr_portCtl (p : Nat) : RegName.addr .portCtl [p] = 0x3000400 + 0x1000 * p := rfl
theorem addr_portTrain (p : Nat) : RegName.addr .portTrain [p] = 0x3000404 + 0x1000 * p := rfl
theorem addr_macroMode (m : Nat) : RegName.addr .macroMode [m] = 0x3000800 + 0x8000 * m := rfl
theorem addr_lineEvent (m : Nat) : RegName.addr .lineEvent [m] = 0x3000804 + 0x8000 * m := rfl
theorem addr_lineLast (m : Nat) : RegName.addr .lineLast [m] = 0x3000808 + 0x8000 * m := rfl

theorem attemptKept_laneRetrain (p : Nat) (s : State) (l : Nat) : AttemptKept p s (laneRetrain s l) := by
  unfold laneRetrain
  extract_lets old s1
  have hlane {u : State} {r : RegName} (h : RegName.addr r [l] % 4096 < 0x400) : AttemptKept p u (applyReg u r [l] .retrain) :=
    attemptKept_applyReg (fun m => by rw [addr_macroMode]; omega) fun q _ => by rw [addr_portCtl]; omega
  have happlied : AttemptKept p s s1 :=
    ((hlane (by rw [addr_laneCfg]; omega)).trans (hlane (by rw [addr_laneLoss]; omega))).trans
      (hlane (by rw [addr_laneIndData]; omega))
  split
  · exact happlied
  · exact happlied.trans (.modLane (fun x => by exact ⟨rfl, rfl, fun _ => rfl⟩) s1)

theorem attemptKept_laneStart (p : Nat) (s : State) (attempt : Nat) (train : Bool) (l : Nat) :
    AttemptKept p s (laneStart s attempt train l) := by
  unfold laneStart
  extract_lets s1 x row base set s2 s3 s4
  have hset : AttemptKept p s s2 := (attemptKept_laneRetrain ..).trans (.modLane (fun x => by exact ⟨rfl, rfl, id⟩) s1)
  have hdrawn : AttemptKept p s s3 := hset.trans (.of_eq rfl rfl)
  split
  · exact hdrawn
  · have hpreset : AttemptKept p s s4 := by
      unfold s4
      split
      · exact hdrawn
      · exact hdrawn.trans (.of_eq rfl rfl)
    exact hpreset.trans (.of_eq rfl rfl)

theorem attemptKept_attemptStart (s : State) (p : Nat) : AttemptKept p s (attemptStart s p) := by
  unfold attemptStart
  extract_lets s1 s2 s3
  have happlied : AttemptKept p s s1 :=
    (attemptKept_applyReg (fun m => by rw [addr_macroMode, addr_portCtl]; omega)
      fun q hq => by rw [addr_portCtl, addr_portCtl]; omega).trans
    (attemptKept_applyReg (fun m => by rw [addr_macroMode, addr_portTrain]; omega)
      fun q _ => by rw [addr_portCtl, addr_portTrain]; omega)
  have hstarted : AttemptKept p s s3 := by
    have hcounted : AttemptKept p s s2 := happlied.trans (.of_eq rfl rfl)
    unfold s3
    split
    · exact hcounted.trans (.of_eq rfl rfl)
    · exact hcounted
  exact hstarted.trans (.foldl (fun u l => attemptKept_laneStart ..) _ _)

theorem attemptKept_runStart (s : State) (p : Nat) : AttemptKept p s (runStart s p) := by
  unfold runStart
  extract_lets s1 s2 s3
  have hfilled : AttemptKept p s s1 := by
    unfold s1
    split
    · obtain ⟨egress, h⟩ := fillShapers_eq s p
      rw [h]
      exact .of_eq rfl rfl
    · exact .refl s
  have hrun : AttemptKept p s s2 := hfilled.trans (.of_eq rfl rfl)
  have hmeasured : AttemptKept p s2 s3 := .foldl (fun u l => .modLane (fun x => by exact ⟨rfl, rfl, id⟩) u) _ _
  exact (hrun.trans hmeasured).trans (attemptKept_attemptStart s3 p)

/-! ### A port is enabled -/

/-- EN 1 touches the port alone. -/
theorem enablePort_facts (s : State) (p : Nat) :
    (∃ regs line out fresh egress, enablePort s p =
      { s with regs := regs, line := line, out := out, fresh := fresh, egress := egress }) ∧
      AttemptKept p s (enablePort s p) ∧ ∀ q, q ≠ p → portAt (enablePort s p) q = portAt s q := by
  obtain ⟨hrun, hports⟩ := runStart_facts s p
  unfold enablePort
  split
  · exact ⟨⟨s.regs, _, s.out, s.fresh, s.egress, rfl⟩, .of_eq rfl rfl, fun q hq => by rw [portAt_modPort, if_neg hq]⟩
  · split
    · exact ⟨hrun, attemptKept_runStart s p, fun q hq => (hports q).trans (if_neg hq)⟩
    · exact ⟨⟨s.regs, s.line, s.out, s.fresh, s.egress, rfl⟩, .refl s, fun _ _ => rfl⟩

/-! ### A mode takes effect -/

/-- What each element establishes, and no element takes away, holds of every element at the end. -/
theorem foldl_establishes {σ α : Type} {f : σ → α → σ} {P : α → σ → Prop} (hset : ∀ s a, P a (f s a))
    (hkeep : ∀ s a b, P b s → P b (f s a)) {l : List α} {a : α} (ha : a ∈ l) (s : σ) : P a (l.foldl f s) := by
  induction l generalizing s with
  | nil => cases ha
  | cons b l ih =>
    by_cases hl : a ∈ l
    · exact ih hl _
    · obtain rfl : a = b := (List.mem_cons.mp ha).resolve_right hl
      exact List.foldlRecOn (motive := fun t => P a t) l f (hset s a) fun t ht c _ => hkeep t c a ht

/-- Port and lane `n` as a new mode leaves them. -/
def ModeReset (changed : Bool) (n : Nat) (t : State) : Prop :=
  (portAt t n).state = 0 ∧ (portAt t n).cause = 0 ∧ (changed = true → (laneAt t n).converged = false)

/-- A new mode resets one port of its macro, and its lane when the mode changed. -/
def modeResetPort (changed : Bool) (s : State) (n : Nat) : State :=
  let s := modPort s n (fun x => { x with state := 0, cause := 0, attempting := false, enWaits := false })
  if changed then modLane s n (fun x => { x with converged := false, storedSettings := [] }) else s

theorem modeResetPort_facts (changed : Bool) (s : State) (n : Nat) :
    (∃ line, modeResetPort changed s n = { s with line := line }) ∧ ModeReset changed n (modeResetPort changed s n) ∧
      (∀ q, q ≠ n → portAt (modeResetPort changed s n) q = portAt s q) ∧
      ∀ q, q ≠ n → laneAt (modeResetPort changed s n) q = laneAt s q := by
  have hport (q : Nat) := portAt_modPort s n q (fun x => { x with state := 0, cause := 0, attempting := false, enWaits := false })
  unfold modeResetPort
  extract_lets s1
  cases changed with
  | false =>
    refine ⟨⟨_, rfl⟩, ⟨?_, ?_, by simp⟩, fun q hq => (hport q).trans (if_neg hq), fun q _ => rfl⟩
    · exact congrArg PortState.state ((hport n).trans (if_pos rfl))
    · exact congrArg PortState.cause ((hport n).trans (if_pos rfl))
  | true =>
    have hlane (q : Nat) := laneAt_modLane s1 n q (fun x => { x with converged := false, storedSettings := [] })
    refine ⟨⟨_, rfl⟩, ⟨?_, ?_, fun _ => ?_⟩, fun q hq => (hport q).trans (if_neg hq), fun q hq => (hlane q).trans (if_neg hq)⟩
    · exact congrArg PortState.state ((hport n).trans (if_pos rfl))
    · exact congrArg PortState.cause ((hport n).trans (if_pos rfl))
    · exact congrArg LaneState.converged ((hlane n).trans (if_pos rfl))

/-- A new mode resets the eight ports of its macro, and no other port. -/
def modeReset (m : Nat) (changed : Bool) (s : State) : State :=
  (List.range 8).foldl (fun s i => modeResetPort changed s (m * 8 + i)) s

theorem modeReset_facts (m : Nat) (changed : Bool) (s : State) :
    (∃ line, modeReset m changed s = { s with line := line }) ∧
      (∀ i, i < 8 → ModeReset changed (m * 8 + i) (modeReset m changed s)) ∧
      ∀ q, q / 8 ≠ m → portAt (modeReset m changed s) q = portAt s q := by
  have hrest : (∃ line, modeReset m changed s = { s with line := line }) ∧
      ∀ q, q / 8 ≠ m → portAt (modeReset m changed s) q = portAt s q := by
    refine List.foldlRecOn (motive := fun t => (∃ line, t = { s with line := line }) ∧ ∀ q, q / 8 ≠ m → portAt t q = portAt s q)
      _ _ ⟨⟨s.line, rfl⟩, fun _ _ => rfl⟩ fun t ht i hi => ?_
    obtain ⟨⟨line, ht⟩, hothers⟩ := ht
    obtain ⟨⟨line', h⟩, -, hkept, -⟩ := modeResetPort_facts changed t (m * 8 + i)
    refine ⟨⟨line', h.trans (by rw [ht])⟩, fun q hq => (hkept q ?_).trans (hothers q hq)⟩
    rw [List.mem_range] at hi
    omega
  refine ⟨hrest.1, fun i hi => ?_, hrest.2⟩
  refine foldl_establishes (P := fun i t => ModeReset changed (m * 8 + i) t) (fun t i => ?_) (fun t i j hj => ?_)
    (List.mem_range.mpr hi) s
  · exact (modeResetPort_facts changed t (m * 8 + i)).2.1
  · obtain ⟨-, hreset, hports, hlanes⟩ := modeResetPort_facts changed t (m * 8 + i)
    by_cases h : m * 8 + j = m * 8 + i
    · exact h ▸ hreset
    · rw [ModeReset, hports _ h, hlanes _ h]
      exact hj

/-- What follows the reset of a macro's ports: ports elsewhere and ports whose EN is 0 stand. -/
structure ModeFollows (m : Nat) (s t : State) : Prop where
  footprint : ∃ fresh out regs host line egress,
    t = { s with fresh := fresh, out := out, regs := regs, host := host, line := line, egress := egress }
  ports : ∀ q, q / 8 ≠ m ∨ fld s .portCtl [q] 31 31 ≠ 1 → portAt t q = portAt s q
  ctl : ∀ q, fld s .portCtl [q] 31 31 ≠ 1 → regCell t .portCtl [q] = regCell s .portCtl [q]
  mode : regCell t .macroMode [m] = regCell s .macroMode [m]
  lanes : ∀ l, (laneAt s l).Kept (laneAt t l)

theorem fld_of_regCell {s t : State} {r : RegName} {ix : List Nat} (h : regCell t r ix = regCell s r ix) (hi lo : Nat) :
    fld t r ix hi lo = fld s r ix hi lo := by rw [fld, inForce, h]; rfl

namespace ModeFollows

variable {m : Nat} {s t u : State}

theorem refl (s : State) : ModeFollows m s s :=
  ⟨⟨_, _, _, _, _, _, rfl⟩, fun _ _ => rfl, fun _ _ => rfl, rfl, fun _ => ⟨rfl, rfl, id⟩⟩

theorem trans (a : ModeFollows m s t) (b : ModeFollows m t u) : ModeFollows m s u := by
  have hen (q : Nat) (hq : fld s .portCtl [q] 31 31 ≠ 1) : fld t .portCtl [q] 31 31 ≠ 1 := by
    rwa [fld_of_regCell (a.ctl q hq)]
  refine ⟨?_, fun q hq => (b.ports q (hq.imp_right (hen q))).trans (a.ports q hq),
    fun q hq => (b.ctl q (hen q hq)).trans (a.ctl q hq), b.mode.trans a.mode, fun l => ?_⟩
  · obtain ⟨fresh, out, regs, host, line, egress, rfl⟩ := a.footprint
    obtain ⟨fresh', out', regs', host', line', egress', h⟩ := b.footprint
    exact ⟨fresh', out', regs', host', line', egress', h⟩
  · obtain ⟨hin, hlock, hconverged⟩ := a.lanes l
    obtain ⟨hin', hlock', hconverged'⟩ := b.lanes l
    exact ⟨hin'.trans hin, hlock'.trans hlock, hconverged' ∘ hconverged⟩

theorem foldl {f : State → Nat → State} {l : List Nat} (h : ∀ s, ∀ a ∈ l, ModeFollows m s (f s a)) (s : State) :
    ModeFollows m s (l.foldl f s) :=
  List.foldlRecOn (motive := fun t => ModeFollows m s t) l f (.refl s) fun t ht a ha => ht.trans (h t a ha)

end ModeFollows

theorem regCell_lineRaise_ne (s : State) (p flag : Nat) (r : RegName) (ix : List Nat)
    (h : r.addr ix ≠ RegName.addr .lineLast [p / 8]) : regCell (lineRaise s p flag) r ix = regCell s r ix :=
  regCell_forceReg_ne _ _ _ _ _ _ h

theorem modeFollows_lineRaise (m : Nat) (s : State) (p flag : Nat) : ModeFollows m s (lineRaise s p flag) :=
  ⟨⟨_, _, _, _, _, _, rfl⟩, fun _ _ => rfl,
    fun q _ => regCell_lineRaise_ne _ _ _ _ _ (by rw [addr_portCtl, addr_lineLast]; omega),
    regCell_lineRaise_ne _ _ _ _ _ (by rw [addr_macroMode, addr_lineLast]; omega), fun _ => ⟨rfl, rfl, id⟩⟩

theorem modeFollows_linkEvent (m : Nat) (s : State) (kind p cause : Nat) : ModeFollows m s (linkEvent s kind p cause) := by
  obtain ⟨host, out, h⟩ : ∃ host out, linkEvent s kind p cause = { s with host := host, out := out } := postEvent_eq ..
  rw [h]
  exact ⟨⟨s.fresh, out, s.regs, host, s.line, s.egress, rfl⟩, fun _ _ => rfl, fun _ _ => rfl, rfl, fun _ => ⟨rfl, rfl, id⟩⟩

theorem modeFollows_enablePort {m p : Nat} {s : State} (hp : p / 8 = m) (hen : fld s .portCtl [p] 31 31 = 1) :
    ModeFollows m s (enablePort s p) := by
  obtain ⟨⟨regs, line, out, fresh, egress, hrun⟩, hkept, hothers⟩ := enablePort_facts s p
  have hne {q : Nat} (hq : q / 8 ≠ m ∨ fld s .portCtl [q] 31 31 ≠ 1) : q ≠ p := by
    rintro rfl
    exact hq.elim (· hp) (· hen)
  exact ⟨⟨fresh, out, regs, s.host, line, egress, hrun⟩, fun q hq => hothers q (hne hq),
    fun q hq => hkept.ctl q (hne (.inr hq)), hkept.mode m, hkept.lanes⟩

theorem div_of_mem_macroPorts {s : State} {m p : Nat} (h : p ∈ macroPorts s m) : p / 8 = m := by
  simp only [macroPorts, List.mem_filter, List.mem_map, List.mem_range] at h
  obtain ⟨⟨i, hi, rfl⟩, -⟩ := h
  omega

/-- A mode that takes effect: it lands, the macro's ports are reset, and what follows leaves those whose EN is 0. -/
theorem takeMode_follows (s : State) (m mode : Nat) :
    ModeFollows m (modeReset m (fld s .macroMode [m] 3 0 != mode) (landWrite s .macroMode [m] mode)) (takeMode s m mode) := by
  unfold takeMode
  extract_lets changed s1 s2 s3 s4
  have hdiffer : ModeFollows m s2 s3 := .foldl (fun u p _ => by
    split
    · exact modeFollows_lineRaise ..
    · exact .refl u) s2
  exact (hdiffer.trans (modeFollows_linkEvent ..)).trans (.foldl (fun u p hp => by
    split
    · next hen => exact modeFollows_enablePort (div_of_mem_macroPorts hp) hen
    · exact .refl u) s4)

theorem fld_macroMode_landWrite (s : State) (m v : Nat) : fld (landWrite s .macroMode [m] v) .macroMode [m] 3 0 = bits v 3 0 :=
  fld_landWrite_same s [m] v (by decide) (by decide +kernel) (by decide +kernel)

theorem fld_laneCfg_landWrite (s : State) (l v : Nat) : fld (landWrite s .laneCfg [l] v) .laneCfg [l] 28 27 = bits v 28 27 :=
  fld_landWrite_same s [l] v (by decide) (by decide +kernel) (by decide +kernel)

theorem bits_bits (v : Nat) : bits (bits v 3 0) 3 0 = bits v 3 0 := by
  unfold bits
  omega

/-! ### A loop changes -/

/-- A write that changes LOOP is logged before it drops its port. -/
theorem writeLaneCfg_of_changed {s : State} {l v : Nat} (req : Requester) (hnew : bits v 28 27 ≠ fld s .laneCfg [l] 28 27) :
    ∃ t regs log fresh, t = { s with regs := regs, log := log, fresh := fresh } ∧ s.log.next < log.next ∧
      fld t .laneCfg [l] 28 27 = bits v 28 27 ∧
      writeLaneCfg s req [l] v = if loopOf t (portOfLane s l) = loopOf s (portOfLane s l) then t else dropPort t (portOfLane s l) 8 := by
  unfold writeLaneCfg
  extract_lets j p old was s1 s2 s3
  have hchanged : ¬ bits v 28 27 = was := hnew
  rw [if_neg hchanged]
  obtain ⟨log, fresh, hlog⟩ : ∃ log fresh, s2 = { s1 with log := log, fresh := fresh } := rimLog_eq ..
  have hnext : s.log.next < log.next := by
    have hentered : s1.log.next < s2.log.next := next_rimLog ..
    rwa [hlog] at hentered
  have hs3 : ∃ regs, s3 = { s with regs := regs, log := log, fresh := fresh } := by
    unfold s3
    rw [hlog]
    split <;> exact ⟨_, rfl⟩
  have hcell : regCell s3 .laneCfg [l] = regCell s1 .laneCfg [l] := by
    have hs2 : regCell s2 .laneCfg [l] = regCell s1 .laneCfg [l] := by
      rw [hlog]
      rfl
    unfold s3
    split
    · exact (regCell_lineRaise_ne _ _ _ _ _ (by rw [addr_laneCfg, addr_lineLast]; omega)).trans hs2
    · exact hs2
  obtain ⟨regs, hs3⟩ := hs3
  exact ⟨s3, regs, log, fresh, hs3, hnext, (fld_of_regCell hcell 28 27).trans (fld_laneCfg_landWrite s l v), rfl⟩

/-- Settles O31: a mode resets its macro's ports before any of them is enabled, and a loop drops only the port that hears it. -/
theorem modesAndLoops : Obligations.ModesAndLoops := by
  intro s req v
  constructor
  · intro m _ off hreach
    refine ⟨fun hmode hfailed hup => ?_, fun hrefused => ?_⟩
    · have hrun : writeMacroMode s [m] v = takeMode s m (bits v 3 0) :=
        (if_neg (not_or.mpr ⟨by omega, not_not.mpr hfailed⟩)).trans (if_pos hup)
      have hfollows := takeMode_follows s m (bits v 3 0)
      obtain ⟨⟨line, hreset⟩, hports, hothers⟩ := modeReset_facts m (fld s .macroMode [m] 3 0 != bits v 3 0)
        (landWrite s .macroMode [m] (bits v 3 0))
      have hcells {r : RegName} {ix : List Nat} : regCell (modeReset m (fld s .macroMode [m] 3 0 != bits v 3 0)
          (landWrite s .macroMode [m] (bits v 3 0))) r ix = regCell (landWrite s .macroMode [m] (bits v 3 0)) r ix :=
        regCell_of_cells (by rw [hreset]) ..
      obtain ⟨⟨fresh, out, regs, host, line', egress, htaken⟩, hkept, -, hmodeKept, hlanes⟩ := hfollows
      refine ⟨takeMode s m (bits v 3 0), congrArg Host.Outcome.next ((guarded_ok hreach (by decide)).trans hrun), ?_,
        ⟨fresh, out, regs, host, line', egress, htaken.trans (by rw [hreset]; rfl)⟩, fun i hi hen => ?_, fun q hq => ?_,
        fun hchanged i hi => ?_⟩
      · rw [fld_of_regCell hmodeKept, fld_of_regCell hcells, fld_macroMode_landWrite, bits_bits]
      · obtain ⟨hstate, hcause, -⟩ := hports i hi
        rw [hkept (m * 8 + i) (.inr ?_)]
        · exact ⟨hstate, hcause⟩
        · rw [fld_of_regCell hcells,
            fld_landWrite_ne s .macroMode [m] _ .portCtl _ _ _ (by rw [addr_portCtl, addr_macroMode]; omega), hen]
          exact Nat.zero_ne_one
      · exact (hkept q (.inl hq)).trans (hothers q hq)
      · exact (hlanes _).converged ((hports i hi).2.2 (bne_iff_ne.mpr hchanged.symm))
    · have hrun : writeMacroMode s [m] v = lineRaise s (m * 8) 3 :=
        if_pos (hrefused.imp_right fun h => by simp [h])
      have hmacro : m * 8 / 8 = m := by omega
      refine ⟨_, _, congrArg Host.Outcome.next ((guarded_ok hreach (by decide)).trans hrun), rfl, ?_, ?_⟩
      · exact fld_of_regCell (regCell_lineRaise_ne _ _ _ _ _ (by rw [addr_macroMode, addr_lineLast]; omega)) ..
      · rw [lineRaise, eventAt_forceReg, hmacro, eventAt_raiseEv, if_pos rfl]
  · intro l _ off p hreach hnew
    obtain ⟨u, regs, log, fresh, hu, hnext, hloop, hrun⟩ := writeLaneCfg_of_changed req hnew
    have hports (q : Nat) : portAt u q = portAt s q := portAt_of_line (by rw [hu]) q
    refine ⟨fun hdown => ?_, fun hup hown => ?_⟩
    · have hstays : writeLaneCfg s req [l] v = u := by
        rw [hrun]
        split
        · rfl
        · exact if_pos (by rw [hports]; exact hdown)
      exact ⟨u, regs, log, fresh, congrArg Host.Outcome.next ((guarded_ok hreach (by decide)).trans hstays), hu, hloop,
        by rw [hu]; exact hnext⟩
    · have hdrop : writeLaneCfg s req [l] v = dropPort u p 8 := by
        rw [hrun, if_neg]
        rw [← show l = portOfLane s l from hown, loopOf, hloop]
        exact hnew
      have hstate : (portAt u p).state = 2 := by rw [hports]; exact hup
      have hdropped := portDropped_dropPort hstate 8
      exact ⟨_, congrArg Host.Outcome.next ((guarded_ok hreach (by decide)).trans hdrop), hdropped.state, hdropped.shows,
        hdropped.first, fun q hq => (hdropped.others q hq).trans (hports q)⟩

end Sys2Proof.Machine
end

