-- ==== Sys2Proof/Proofs/PrbsTest.lean ====
section
/-! PROOF. The PRBS test of a lane: entering, counting, clearing, injecting (11/R363–R365). -/

namespace Sys2Proof.Machine

/-! ### One lane -/

/-- Nothing but one lane differs. -/
structure LaneAlone (l : Nat) (s t : State) : Prop where
  footprint : ∃ lanes, t = { s with line := { s.line with lanes := lanes } }
  others : ∀ k, k ≠ l → laneAt t k = laneAt s k

namespace LaneAlone

variable {l : Nat} {s t u : State}

theorem refl (s : State) : LaneAlone l s s := ⟨⟨_, rfl⟩, fun _ _ => rfl⟩

theorem trans (a : LaneAlone l s t) (b : LaneAlone l t u) : LaneAlone l s u := by
  obtain ⟨lanes, rfl⟩ := a.footprint
  obtain ⟨lanes', h⟩ := b.footprint
  exact ⟨⟨lanes', h⟩, fun k hk => (b.others k hk).trans (a.others k hk)⟩

theorem modLane (s : State) (l : Nat) (f : LaneState → LaneState) : LaneAlone l s (modLane s l f) :=
  ⟨⟨_, rfl⟩, fun k hk => (laneAt_modLane s l k f).trans (if_neg hk)⟩

theorem regs (h : LaneAlone l s t) : t.regs = s.regs := by obtain ⟨lanes, rfl⟩ := h.footprint; rfl
theorem time (h : LaneAlone l s t) : t.time = s.time := by obtain ⟨lanes, rfl⟩ := h.footprint; rfl
theorem portAt (h : LaneAlone l s t) (q : Nat) : portAt t q = Machine.portAt s q := by
  obtain ⟨lanes, rfl⟩ := h.footprint; rfl

theorem fld (h : LaneAlone l s t) (r : RegName) (ix : List Nat) (hi lo : Nat) :
    fld t r ix hi lo = Machine.fld s r ix hi lo := fld_of_regCell (regCell_of_cells (by rw [h.regs]) ..) ..

end LaneAlone

/-- The changed lane itself. -/
theorem laneAt_modLane_same (s : State) (l : Nat) (f : LaneState → LaneState) : laneAt (modLane s l f) l = f (laneAt s l) :=
  (laneAt_modLane s l l f).trans (if_pos rfl)

/-! ### The counts of a lane -/

/-- A lane whose checker stops at a tick with `n` bits compared. -/
def LaneState.stopped (x : LaneState) (n now : Nat) : LaneState :=
  if x.lock then { x with prbsBits := wrap 64 n, lockTick := now, lock := false } else x

/-- A checker that stops keeps the test, the errors and the injections of its lane. -/
theorem LaneState.stopped_facts (x : LaneState) (n now : Nat) :
    (x.stopped n now).inTest = x.inTest ∧ (x.stopped n now).lock = false ∧ (x.stopped n now).injCount = x.injCount ∧
      (x.stopped n now).prbsErr = x.prbsErr ∧ (x.stopped n now).lostLock = x.lostLock := by
  unfold LaneState.stopped
  split
  · exact ⟨rfl, rfl, rfl, rfl, rfl⟩
  · next h => exact ⟨rfl, Bool.eq_false_iff.mpr h, rfl, rfl, rfl⟩

/-- A lane with its counts cleared. -/
def LaneState.cleared (x : LaneState) (now : Nat) : LaneState :=
  { x with prbsErr := 0, prbsBits := 0, lockTick := now, lostLock := false }

/-- A lane whose generator's bits are counted from now. -/
def LaneState.paced (x : LaneState) (now : Nat) : LaneState := { x with genTick := now, injDone := 0 }

/-- A lane with one more injected error, which its own checker sees or not. -/
def LaneState.injected (x : LaneState) (seen : Bool) : LaneState :=
  { x with injCount := sat 32 (x.injCount + 1), prbsErr := if seen then sat 32 (x.prbsErr + 1) else x.prbsErr }

theorem LaneState.injected_prbsErr (x : LaneState) (lock : Bool) (loop : Nat) :
    (x.injected (lock && loop == 2)).prbsErr = if lock = true ∧ loop = 2 then sat 32 (x.prbsErr + 1) else x.prbsErr := by
  simp only [LaneState.injected, Bool.and_eq_true, beq_iff_eq]

theorem settlePrbs_stops (s : State) (l : Nat) (f : LaneState → LaneState) :
    LaneAlone l s (modLane (settlePrbs s l) l f) ∧ laneAt (modLane (settlePrbs s l) l f) l =
      f { laneAt s l with prbsBits := wrap 64 (prbsBitsNow s l), lockTick := s.time.tick } :=
  ⟨(LaneAlone.modLane ..).trans (.modLane ..), (laneAt_modLane_same ..).trans (congrArg f (laneAt_modLane_same ..))⟩

theorem checkerStops_facts (s : State) (l : Nat) :
    LaneAlone l s (checkerStops s l) ∧
      laneAt (checkerStops s l) l = (laneAt s l).stopped (prbsBitsNow s l) s.time.tick := by
  unfold checkerStops LaneState.stopped
  split
  · exact settlePrbs_stops s l _
  · exact ⟨.refl s, rfl⟩

theorem injectBit_facts (s : State) (l : Nat) :
    LaneAlone l s (injectBit s l) ∧
      laneAt (injectBit s l) l = (laneAt s l).injected ((laneAt s l).lock && loopOf s (portOfLane s l) == 2) :=
  ⟨.modLane .., laneAt_modLane_same ..⟩

/-! ### What follows a lane's turn in or out of test -/

/-- CLR of a write of LANE_TEST. -/
def testClears (s : State) (l v : Nat) : State :=
  if bit v 28 then
    modLane s l (fun x => { x with prbsErr := 0, prbsBits := 0, lockTick := s.time.tick, lostLock := false }) else s

/-- CHK_EN of a write of LANE_TEST. -/
def testChecks (s : State) (l v : Nat) : State := if bit v 29 then s else checkerStops s l

/-- The generator's pace starts again where a write has changed it. -/
def testPaces (old : Bool × Nat × Nat × Nat) (s : State) (l : Nat) : State :=
  if old = genOf s l then s else modLane s l (fun x => { x with genTick := s.time.tick, injDone := 0 })

theorem testClears_facts (s : State) (l v : Nat) :
    LaneAlone l s (testClears s l v) ∧
      laneAt (testClears s l v) l = if bit v 28 then (laneAt s l).cleared s.time.tick else laneAt s l := by
  unfold testClears
  split
  · exact ⟨.modLane .., laneAt_modLane_same ..⟩
  · exact ⟨.refl s, rfl⟩

theorem testChecks_facts (s : State) (l v : Nat) :
    LaneAlone l s (testChecks s l v) ∧ (laneAt (testChecks s l v) l).inTest = (laneAt s l).inTest ∧
      (laneAt (testChecks s l v) l).lock = ((laneAt s l).lock && bit v 29) ∧
      (laneAt (testChecks s l v) l).injCount = (laneAt s l).injCount ∧
      (laneAt (testChecks s l v) l).prbsErr = (laneAt s l).prbsErr ∧
      (laneAt (testChecks s l v) l).lostLock = (laneAt s l).lostLock := by
  unfold testChecks
  split
  · next h => exact ⟨.refl s, rfl, by simp [h], rfl, rfl, rfl⟩
  · next h =>
    obtain ⟨halone, hlane⟩ := checkerStops_facts s l
    obtain ⟨hin, hlock, hinj, herr, hlost⟩ := (laneAt s l).stopped_facts (prbsBitsNow s l) s.time.tick
    rw [hlane]
    exact ⟨halone, hin, by simp [hlock, h], hinj, herr, hlost⟩

theorem testPaces_eq (old : Bool × Nat × Nat × Nat) (s : State) (l : Nat) :
    LaneAlone l s (testPaces old s l) ∧
      ∃ gen done, laneAt (testPaces old s l) l = { laneAt s l with genTick := gen, injDone := done } := by
  unfold testPaces
  split
  · exact ⟨.refl s, _, _, rfl⟩
  · exact ⟨.modLane .., _, _, laneAt_modLane_same ..⟩

/-- All that follows, but for an injection. -/
def testFollows (old : Bool × Nat × Nat × Nat) (s : State) (l v : Nat) : State :=
  testPaces old (testChecks (testClears s l v) l v) l

/-- What follows leaves a lane in test or out of it, its checker locked only where it was and stays on, and its injections. -/
theorem testFollows_facts (old : Bool × Nat × Nat × Nat) (s : State) (l v : Nat) :
    LaneAlone l s (testFollows old s l v) ∧ (laneAt (testFollows old s l v) l).inTest = (laneAt s l).inTest ∧
      (laneAt (testFollows old s l v) l).lock = ((laneAt s l).lock && bit v 29) ∧
      (laneAt (testFollows old s l v) l).injCount = (laneAt s l).injCount ∧
      (laneAt (testFollows old s l v) l).prbsErr = if bit v 28 then 0 else (laneAt s l).prbsErr := by
  obtain ⟨hone, hcleared⟩ := testClears_facts s l v
  obtain ⟨htwo, hin, hlock, hinj, herr, -⟩ := testChecks_facts (testClears s l v) l v
  obtain ⟨hthree, gen, done, hpaced⟩ := testPaces_eq old (testChecks (testClears s l v) l v) l
  refine ⟨(hone.trans htwo).trans hthree, ?_⟩
  rw [testFollows, hpaced]
  dsimp only
  rw [hin, hlock, hinj, herr, hcleared]
  split <;> exact ⟨rfl, rfl, rfl, rfl⟩

/-- CLR leaves both counts and LOST_LOCK clear. -/
theorem testFollows_cleared (old : Bool × Nat × Nat × Nat) (s : State) {l v : Nat} (hclr : bit v 28 = true) :
    (laneAt (testFollows old s l v) l).prbsBits = 0 ∧ (laneAt (testFollows old s l v) l).lostLock = false := by
  obtain ⟨hone, hcleared⟩ := testClears_facts s l v
  obtain ⟨-, -, -, -, -, hlost⟩ := testChecks_facts (testClears s l v) l v
  obtain ⟨-, gen, done, hpaced⟩ := testPaces_eq old (testChecks (testClears s l v) l v) l
  rw [if_pos hclr] at hcleared
  have hnow : prbsBitsNow (testClears s l v) l = 0 := by
    rw [prbsBitsNow, hcleared, hone.time]
    simp [LaneState.cleared]
  rw [testFollows, hpaced]
  dsimp only
  refine ⟨?_, hlost.trans (congrArg LaneState.lostLock hcleared)⟩
  unfold testChecks
  split
  · exact congrArg LaneState.prbsBits hcleared
  · obtain ⟨-, hstopped⟩ := checkerStops_facts (testClears s l v) l
    rw [hstopped, hcleared, hnow, LaneState.stopped]
    split <;> rfl

/-- A lane whose checker is not locked, and whose generator has changed. -/
theorem testFollows_of_unlocked {old : Bool × Nat × Nat × Nat} {s : State} {l v : Nat} (hclr : bit v 28 = false)
    (hlock : (laneAt s l).lock = false) (hgen : old ≠ genOf s l) :
    testFollows old s l v = modLane s l (·.paced s.time.tick) := by
  have hclears : testClears s l v = s := if_neg (Bool.not_eq_true _ ▸ hclr)
  have hchecks : testChecks s l v = s := by
    unfold testChecks checkerStops
    rw [hlock]
    exact ite_self s
  rw [testFollows, hclears, hchecks]
  exact if_neg hgen

/-! ### A write of LANE_TEST -/

/-- What TEST_EN of a write does: it lands, and is refused, puts the lane in test or takes it out. -/
def testTurn (s : State) (l v : Nat) : State :=
  let p := portOfLane s l
  let was := (laneAt s l).inTest
  let refused := bit v 31 && !was && (portAt s p).state != 0
  let s := landWrite s .laneTest [l] (if refused then withBit v 31 false else v)
  if refused then lineRaise s p 4
  else if bit v 31 && !was then
    modPort (modLane s l (fun x => { x with inTest := true })) p (fun x => { x with
      cause := 2, testCause := if x.cause = 2 then x.testCause else x.cause })
  else if !bit v 31 && was then leaveTest s l else s

theorem writeLaneTest_eq (s : State) (l v : Nat) : writeLaneTest s [l] v =
    if bit v 27 && injects (testFollows (genOf s l) (testTurn s l v) l v) l 1 then
      injectBit (testFollows (genOf s l) (testTurn s l v) l v) l
    else testFollows (genOf s l) (testTurn s l v) l v := rfl

theorem writeLaneTest_of_no_injection (s : State) (l : Nat) {v : Nat} (hone : bit v 27 = false) :
    writeLaneTest s [l] v = testFollows (genOf s l) (testTurn s l v) l v := by
  rw [writeLaneTest_eq, hone]
  rfl

theorem testTurn_of_stays {s : State} {l v : Nat} (h : bit v 31 = (laneAt s l).inTest) :
    testTurn s l v = landWrite s .laneTest [l] v := by
  unfold testTurn
  rw [← h]
  cases bit v 31 <;> rfl

theorem testTurn_of_leaves {s : State} {l v : Nat} (hen : bit v 31 = false) (hin : (laneAt s l).inTest = true) :
    testTurn s l v = leaveTest (landWrite s .laneTest [l] v) l := by
  unfold testTurn
  rw [hen, hin]
  rfl

/-- A lane enters test, and its port shows it. -/
def laneEnters (s : State) (l p : Nat) : State :=
  modPort (modLane s l (fun x => { x with inTest := true })) p (fun x => { x with
    cause := 2, testCause := if x.cause = 2 then x.testCause else x.cause })

theorem laneEnters_facts (s : State) (l p : Nat) :
    (∃ line, laneEnters s l p = { s with line := line }) ∧ laneAt (laneEnters s l p) l = { laneAt s l with inTest := true } ∧
      (∀ k, k ≠ l → laneAt (laneEnters s l p) k = laneAt s k) ∧
      (portAt (laneEnters s l p) p).cause = 2 ∧ (portAt (laneEnters s l p) p).state = (portAt s p).state := by
  have hport : portAt (laneEnters s l p) p = { portAt s p with
      cause := 2, testCause := if (portAt s p).cause = 2 then (portAt s p).testCause else (portAt s p).cause } :=
    (portAt_modPort ..).trans (if_pos rfl)
  exact ⟨⟨_, rfl⟩, laneAt_modLane_same s l (fun x => { x with inTest := true }),
    (LaneAlone.modLane s l (fun x => { x with inTest := true })).others, by rw [hport], by rw [hport]⟩

theorem testTurn_of_enters {s : State} {l v : Nat} (hen : bit v 31 = true) (hin : (laneAt s l).inTest = false)
    (hstate : (portAt s (portOfLane s l)).state = 0) :
    testTurn s l v = laneEnters (landWrite s .laneTest [l] v) l (portOfLane s l) := by
  unfold testTurn
  dsimp only
  rw [hen, hin, hstate]
  rfl

theorem testTurn_of_refused {s : State} {l v : Nat} (hen : bit v 31 = true) (hin : (laneAt s l).inTest = false)
    (hstate : (portAt s (portOfLane s l)).state ≠ 0) :
    testTurn s l v = lineRaise (landWrite s .laneTest [l] (withBit v 31 false)) (portOfLane s l) 4 := by
  have hbusy : ((portAt s (portOfLane s l)).state != 0) = true := bne_iff_ne.mpr hstate
  unfold testTurn
  dsimp only
  rw [hen, hin, hbusy]
  rfl

/-- A lane that leaves test: its port may be enabled, which keeps it out of test. -/
theorem leaveTest_facts (s : State) (l : Nat) :
    (laneAt (leaveTest s l) l).inTest = false ∧ (laneAt (leaveTest s l) l).lock = false := by
  obtain ⟨-, hlane⟩ := settlePrbs_stops s l (fun x => { x with inTest := false, lock := false })
  unfold leaveTest
  extract_lets s1 p waits s2
  have hs1 : (laneAt s1 l).inTest = false ∧ (laneAt s1 l).lock = false :=
    ⟨congrArg LaneState.inTest hlane, congrArg LaneState.lock hlane⟩
  split
  · exact hs1
  · split
    · obtain ⟨-, hkept, -⟩ := enablePort_facts s2 p
      obtain ⟨hin, hlock, -⟩ := hkept.lanes l
      exact ⟨hin.trans hs1.1, hlock.trans hs1.2⟩
    · exact hs1

theorem bits_of_bit {v i : Nat} (h : bit v i = true) : bits v i i = 1 := by
  rw [bits, show i + 1 - i = 1 by omega]
  exact beq_iff_eq.mp h

theorem bits_withBit_false (v : Nat) : bits (withBit v 31 false) 31 31 = 0 := by
  simp only [bits, withBit, withBits, b2n, at_, Bool.false_eq_true, if_false]
  omega

theorem fld_laneTest_landWrite (s : State) (l v : Nat) :
    fld (landWrite s .laneTest [l] v) .laneTest [l] 31 31 = bits v 31 31 ∧
      fld (landWrite s .laneTest [l] v) .laneTest [l] 30 30 = bits v 30 30 ∧
      fld (landWrite s .laneTest [l] v) .laneTest [l] 18 17 = bits v 18 17 :=
  ⟨fld_landWrite_same s [l] v (by decide) (by decide +kernel) (by decide +kernel),
    fld_landWrite_same s [l] v (by decide) (by decide +kernel) (by decide +kernel),
    fld_landWrite_same s [l] v (by decide) (by decide +kernel) (by decide +kernel)⟩

theorem addr_laneTest (l : Nat) : RegName.addr .laneTest [l] = 0x3000010 + 0x1000 * l := rfl

/-- A write of LANE_TEST changes no port's lanes, nor a lane's loop. -/
theorem portOfLane_landWrite (s : State) (l v : Nat) : portOfLane (landWrite s .laneTest [l] v) l = portOfLane s l := by
  have hmode : modeOf (landWrite s .laneTest [l] v) l = modeOf s l :=
    fld_landWrite_ne s .laneTest [l] v .macroMode _ _ _ (by rw [addr_laneTest, addr_macroMode]; omega)
  rw [portOfLane, portLanes, hmode]
  rfl

theorem loopOf_landWrite (s : State) (l v p : Nat) : loopOf (landWrite s .laneTest [l] v) p = loopOf s p :=
  fld_landWrite_ne s .laneTest [l] v .laneCfg _ _ _ (by rw [addr_laneTest, addr_laneCfg]; omega)

/-- INJ_ONE on a lane in test whose generator runs: one bit is inverted. -/
theorem writeLaneTest_of_injection {s : State} {l v : Nat} (hclr : bit v 28 = false) (hone : bit v 27 = true)
    (hen : bit v 31 = true) (hgen : bit v 30 = true) (hinj : bits v 18 17 = 1) (hin : (laneAt s l).inTest = true) :
    (∀ k, k ≠ l → laneAt (writeLaneTest s [l] v) k = laneAt s k) ∧
      (laneAt (writeLaneTest s [l] v) l).injCount = sat 32 ((laneAt s l).injCount + 1) ∧
      (laneAt (writeLaneTest s [l] v) l).prbsErr =
        if ((laneAt s l).lock && bit v 29) = true ∧ loopOf s (portOfLane s l) = 2 then sat 32 ((laneAt s l).prbsErr + 1)
        else (laneAt s l).prbsErr := by
  obtain ⟨hfollows, hinTest, hlocked, hcount, herr⟩ := testFollows_facts (genOf s l) (landWrite s .laneTest [l] v) l v
  rw [writeLaneTest_eq, testTurn_of_stays (hen.trans hin.symm)]
  generalize testFollows (genOf s l) (landWrite s .laneTest [l] v) l v = u at *
  obtain ⟨-, hgenOn, hmode⟩ := fld_laneTest_landWrite s l v
  have hland : laneAt (landWrite s .laneTest [l] v) l = laneAt s l := rfl
  have hinjects : injects u l 1 = true := by
    rw [injects, hinTest, hfollows.fld, hfollows.fld, hgenOn, hmode, bits_of_bit hgen, hinj, hland, hin]
    rfl
  have hport : portOfLane u l = portOfLane s l := by
    have hmode : modeOf u l = modeOf (landWrite s .laneTest [l] v) l := hfollows.fld ..
    rw [← portOfLane_landWrite s l v, portOfLane, portLanes, hmode]
    rfl
  have hloop : loopOf u (portOfLane s l) = loopOf s (portOfLane s l) := (hfollows.fld ..).trans (loopOf_landWrite ..)
  obtain ⟨hinjected, hlane⟩ := injectBit_facts u l
  have hkept : (laneAt u l).prbsErr = (laneAt s l).prbsErr := herr.trans (if_neg (by simp [hclr]))
  rw [if_pos (by rw [hone, hinjects]; rfl), hlane, hport, hloop, hlocked, hland, LaneState.injected_prbsErr, hkept]
  exact ⟨fun k hk => (hinjected.others k hk).trans (hfollows.others k hk), congrArg (fun n => sat 32 (n + 1)) hcount, rfl⟩

theorem sat32 (n : Nat) : sat 32 n = min n (2 ^ 32 - 1) := rfl

/-- Settles O32: every command is a turn of the lane in or out of test, then changes of that lane alone. -/
theorem prbsTest : Obligations.PrbsTest := by
  intro s req l v _ off p x alone injected
  have henWrite (hreach : Reaches s req off .laneTest [l]) (hclr : bit v 28 = false) (hone : bit v 27 = false) :
      exec (.testEnWrite req off v) s = .next (testFollows (genOf s l) (testTurn s l v) l v) :=
    congrArg Host.Outcome.next ((guarded_ok hreach (by decide)).trans
      ((if_neg (by simp [hclr, hone])).trans (writeLaneTest_of_no_injection s l hone)))
  have halone {u : State} (hu : ∀ k, laneAt u k = laneAt s k) : alone (testFollows (genOf s l) u l v) :=
    fun k hk => ((testFollows_facts (genOf s l) u l v).1.others k hk).trans (hu k)
  refine ⟨fun hreach => ⟨fun hclr hone hen hin hlock => ⟨fun hstate => ?_, fun hstate => ?_⟩, fun hclr hone hen hin => ?_,
    fun hclr hone hsame => ?_, fun hclr hone hen hgen hinj hin => ?_⟩, fun hin hgen hinj hdue => ?_,
    fun symbols hin hchk hlock hsees => ?_, fun errors hlock => ?_⟩
  · obtain ⟨⟨line, hentered⟩, hown, hothers, hcause, hport⟩ := laneEnters_facts (landWrite s .laneTest [l] v) l p
    have hturn := testTurn_of_enters (v := v) hen hin hstate
    have hexec := henWrite hreach hclr hone
    rw [hturn, testFollows_of_unlocked hclr (by rw [hown]; exact hlock)
      (by rw [genOf, genOf, hown, show (laneAt s l).inTest = false from hin]; simp)] at hexec
    refine ⟨_, (landWrite s .laneTest [l] v).regs, _, hexec, by rw [hentered]; rfl, ?_, hcause, hport.trans hstate,
      fun k hk => ((LaneAlone.modLane ..).others k hk).trans (hothers k hk)⟩
    rw [laneAt_modLane_same, hown, hentered]
    rfl
  · have hturn := testTurn_of_refused (v := v) hen hin hstate
    obtain ⟨hfollows, hinTest, -⟩ := testFollows_facts (genOf s l) (testTurn s l v) l v
    have hexec := henWrite hreach hclr hone
    rw [hturn] at hexec hfollows hinTest
    obtain ⟨lanes, hrun⟩ := hfollows.footprint
    refine ⟨_, _, _, hexec, hrun, hinTest.trans hin, hfollows.portAt p, halone fun _ => rfl, ?_, ?_⟩
    · rw [hfollows.fld, fld_of_regCell (regCell_lineRaise_ne _ _ _ _ _ (by rw [addr_laneTest, addr_lineLast]; omega)),
        (fld_laneTest_landWrite s l _).1, bits_withBit_false]
    · rw [eventAt, hfollows.regs, ← eventAt, lineRaise, eventAt_forceReg, eventAt_raiseEv, if_pos rfl, eventAt_landWrite]
  · obtain ⟨-, hinTest, hunlocked, -⟩ := testFollows_facts (genOf s l) (testTurn s l v) l v
    have hexec := henWrite hreach hclr hone
    obtain ⟨hout, hstopped⟩ := leaveTest_facts (landWrite s .laneTest [l] v) l
    rw [testTurn_of_leaves hen hin] at hexec hinTest hunlocked
    exact ⟨_, hexec, hinTest.trans hout, by rw [hunlocked, hstopped]; rfl⟩
  · obtain ⟨hfollows, hinTest, -, hinj, herr⟩ := testFollows_facts (genOf s l) (landWrite s .laneTest [l] v) l v
    obtain ⟨hbits, hlost⟩ := testFollows_cleared (genOf s l) (landWrite s .laneTest [l] v) (l := l) hclr
    obtain ⟨lanes, hrun⟩ := hfollows.footprint
    have hwrite : writeLaneTest s [l] v = testFollows (genOf s l) (landWrite s .laneTest [l] v) l v := by
      rw [writeLaneTest_of_no_injection s l hone, testTurn_of_stays hsame]
    exact ⟨_, _, _, congrArg Host.Outcome.next ((guarded_ok hreach (by decide)).trans ((if_pos hclr).trans hwrite)), hrun,
      halone fun _ => rfl, herr.trans (if_pos hclr), hbits, hlost, hinTest, hinj⟩
  · obtain ⟨hothers, hcount, herr⟩ := writeLaneTest_of_injection hclr hone hen hgen hinj hin
    refine ⟨_, congrArg Host.Outcome.next ((guarded_ok hreach (by decide)).trans (if_pos (by simp [hone, hclr]))), hothers,
      hcount.trans (sat32 _), ?_⟩
    rw [← sat32]
    exact herr
  · have hrun : periodicInjection l s = modLane (injectBit s l) l (fun x => { x with injDone := x.injDone + 1 }) :=
      if_pos (by simp [injects, hgen, hinj, show (laneAt s l).injDone < injectionsDue s l from hdue, show (laneAt s l).inTest = true from hin])
    obtain ⟨hinjected, hlane⟩ := injectBit_facts s l
    have hlane' := (laneAt_modLane_same (injectBit s l) l (fun x => { x with injDone := x.injDone + 1 })).trans
      (congrArg (fun x : LaneState => { x with injDone := x.injDone + 1 }) hlane)
    obtain ⟨lanes, hfoot⟩ := (hinjected.trans (.modLane (injectBit s l) l (fun x => { x with injDone := x.injDone + 1 }))).footprint
    refine ⟨_, _, congrArg Host.Outcome.next hrun, hfoot, ⟨(hinjected.trans (.modLane ..)).others, by rw [hlane', ← sat32]; rfl, ?_⟩, by rw [hlane']; rfl⟩
    rw [hlane', ← sat32]
    exact LaneState.injected_prbsErr ..
  · have hrun : prbsLock l symbols s = modLane s l (fun x => { x with lock := true, lockTick := s.time.tick }) :=
      if_pos (by simp [hchk, hsees, show (laneAt s l).inTest = true from hin, show (laneAt s l).lock = false from hlock])
    exact ⟨_, _, congrArg Host.Outcome.next hrun, rfl, (LaneAlone.modLane ..).others, laneAt_modLane_same ..⟩
  · obtain ⟨hsettled, hlane⟩ := settlePrbs_stops (modLane s l (fun x => { x with prbsErr := sat 32 (x.prbsErr + errors) })) l
      (fun x => { x with lock := false, lostLock := true })
    have hcounted := laneAt_modLane_same s l (fun x => { x with prbsErr := sat 32 (x.prbsErr + errors) })
    have halone' := LaneAlone.modLane s l (fun x => { x with prbsErr := sat 32 (x.prbsErr + errors) })
    have hrun : prbsLostLock l errors s = _ := if_pos hlock
    by_cases hfew : errors < 64
    · rw [if_pos hfew] at hrun
      refine ⟨_, _, congrArg Host.Outcome.next hrun, rfl, halone'.others, ?_, ?_, fun _ => ⟨?_, ?_⟩, fun h => absurd hfew (by omega)⟩
        <;> rw [hcounted]
      · exact sat32 _
      · exact hlock
    · rw [if_neg hfew] at hrun
      obtain ⟨lanes, hfoot⟩ := (halone'.trans hsettled).footprint
      refine ⟨_, _, congrArg Host.Outcome.next hrun, hfoot, (halone'.trans hsettled).others, ?_, ?_, fun h => absurd h hfew,
        fun _ => ⟨?_, ?_⟩⟩ <;> rw [hlane, hcounted]
      exact sat32 _

end Sys2Proof.Machine
end

