-- ==== Sys2Proof/Proofs/ChainDevices.lean ====
section
/-! PROOF. The device chain: tokens, relayed commands, replies, acknowledgements, credits and links (12/R379, R390–R393; 13/R401). -/

namespace Sys2Proof.Machine

/-- An answer to a host whose reply ring is enabled goes to its reply buffer, however its command travelled. -/
theorem answer_placed {t : State} {h : CmdHeader} (hvia : h.viaChain = none) (hring : h.replyRing < lostRing)
    (hen : (ringAt t (h.fn / 2) 1 h.replyRing).en = true) (sent : Bool) (a : Answer) :
    answer t h sent a = placeReply t (replyOf h sent a) := by
  unfold answer hostReply
  rw [hvia]
  exact if_pos ⟨hring, hen⟩

/-! ### Tokens -/

theorem passToken_of_last {s : State} {v : Nat} (h : v = 63 ∨ chainUp s 1 = false) : passToken s v = s :=
  if_neg fun ⟨hv, hup⟩ => h.elim (by omega) (by simp [hup])

/-- A token that arrives is the root's mark of a ring, or an address. -/
theorem chainToken_of_up {s : State} {v : Nat} (hv : 1 ≤ v) (hlt : v < 64) (hup : chainUp s 0 = true) :
    chainToken 0 v s = if s.chain.root then withChain s (fun c => { c with ring := true })
      else match s.chain.addr with
      | some a => passToken s a
      | none => passToken (withChain s (fun c => { c with addr := some v })) v :=
  if_neg fun h => by
    rcases h with h | h | h | h
    · exact h rfl
    · simp [hup] at h
    · omega
    · omega

/-! ### On the way -/

/-- A command that arrives at a device with an address, at a port that is up. -/
theorem chainCommandRelay_of_up {s : State} {port a : Nat} {h : CmdHeader} {p : List Byte} (hport : port < 2)
    (hup : chainUp s port = true) (hroot : s.chain.root = false) (haddr : s.chain.addr = some a) :
    chainCommandRelay port h p s =
      let r : Relayed := ⟨{ h with viaChain := some port }, h.opcode, p, false, false, port, 0⟩
      if ownDevice s h then
        if s.chain.rxBuf.length < 64 then
          emit (withChain s (fun c => { c with rxBuf := c.rxBuf ++ [r] })) (.chain port 2 (le 1 h.dev ++ le 4 h.tag))
        else s
      else if mayForward s (1 - port) && !(s.chain.rxBuf.any (fun q => q.port == port && !ownDevice s q.header)) then forwardTo s r
      else if s.chain.rxBuf.length < 64 then withChain s (fun c => { c with rxBuf := c.rxBuf ++ [r] })
      else s :=
  if_neg (by simp [hport, hup, hroot, haddr])

/-! ### At the root -/

/-- The one command of a relay buffer, sent to a device, is found by its tag. -/
theorem sentTo_of_only {s : State} {r : Relayed} {p : Relayed → Bool} (hrelayed : s.chain.relayed = [r]) (hsent : r.sent = true)
    (hp : p r = true) : sentTo s r.header.dev r.header.tag p = some 0 := by
  unfold sentTo
  rw [hrelayed]
  simp [List.findIdx?_cons, hsent, hp]

/-- The one command of a relay buffer leaves it. -/
def relayEnds (s : State) (r : Relayed) (late : Bool) : State :=
  { s with chain := { s.chain with
    relayed := [], timedOut := if late then s.chain.timedOut ++ [(r.header.dev, r.header.tag)] else s.chain.timedOut } }

/-- Its answer leaves the relay buffer empty, and nothing else moves while the scheduler holds nothing. -/
theorem answerRelayed_of_only {s : State} {r : Relayed} {a : Answer} (hrelayed : s.chain.relayed = [r]) (hsent : r.sent = true)
    (hidle : s.sched.items = []) (hvia : r.header.viaChain = none) (hring : r.header.replyRing < lostRing)
    (hen : (ringAt s (r.header.fn / 2) 1 r.header.replyRing).en = true) (hfits : answerFits s r.header a = true) (late : Bool) :
    answerRelayed s 0 a late = placeReply (relayEnds s r late) (replyOf r.header true a) := by
  obtain ⟨hstore, -, -, hstalled⟩ := items_empty hidle
  have hfirst : s.chain.relayed[0]? = some r := by rw [hrelayed]; rfl
  have hplaced := answer_placed (t := relayEnds s r late) hvia hring hen true a
  have hempty : (withChain s (fun c => { c with
      relayed := c.relayed.eraseIdx 0,
      timedOut := if late then c.timedOut ++ [(r.header.dev, r.header.tag)] else c.timedOut })) = relayEnds s r late := by
    simp only [withChain, hrelayed]
    rfl
  unfold answerRelayed
  rw [hfirst]
  dsimp only
  rw [if_pos hfits, hsent, hempty, hplaced]
  exact settle_of_empty hstore hstalled

/-! ### Links -/

/-- A change of links leaves the chain's links, address, credits and relay buffer. -/
structure LinksKept (s t : State) : Prop where
  up : t.chain.up = s.chain.up
  addr : t.chain.addr = s.chain.addr
  relayed : t.chain.relayed = s.chain.relayed
  credits : t.chain.credits = s.chain.credits
  root : t.chain.root = s.chain.root
  sched : t.sched = s.sched

namespace LinksKept

variable {s t u : State}

theorem trans (a : LinksKept s t) (b : LinksKept t u) : LinksKept s u :=
  ⟨b.up.trans a.up, b.addr.trans a.addr, b.relayed.trans a.relayed, b.credits.trans a.credits, b.root.trans a.root,
    b.sched.trans a.sched⟩

theorem of_eq (hchain : t.chain = s.chain) (hsched : t.sched = s.sched) : LinksKept s t := by
  refine ⟨?_, ?_, ?_, ?_, ?_, hsched⟩ <;> rw [hchain]

theorem refl (s : State) : LinksKept s s := of_eq rfl rfl

end LinksKept

theorem chainEvent_eq (s : State) (kind port peer tag : Nat) :
    ∃ host out, chainEvent s kind port peer tag = { s with host := host, out := out } := postEvent_eq ..

theorem linksKept_chainEvent (s : State) (kind port peer tag : Nat) : LinksKept s (chainEvent s kind port peer tag) := by
  obtain ⟨host, out, h⟩ := chainEvent_eq s kind port peer tag
  rw [h]
  exact .of_eq rfl rfl

theorem linksKept_pumpUp (s : State) : LinksKept s (pumpUp s) := by
  unfold pumpUp
  split
  · exact ⟨rfl, rfl, rfl, rfl, rfl, rfl⟩
  · exact .refl s

theorem pump_of_empty {s : State} (h : s.chain.relayed = []) : pump s = s := by
  unfold pump
  rw [h]
  rfl

/-- With nothing to relay the root only notes that a device is reached otherwise. -/
theorem linksKept_rootLinks {s : State} (hrelayed : s.chain.relayed = []) (hidle : s.sched.items = []) (port : Nat) (up : Bool)
    (before : List (Option Nat)) : LinksKept s (rootLinks s port up before) := by
  obtain ⟨hstore, -, -, hstalled⟩ := items_empty hidle
  unfold rootLinks
  extract_lets now s1 s2
  have hnoted : LinksKept s s1 := by
    unfold s1
    split
    · exact .refl s
    · exact .of_eq rfl rfl
  have hfailed : s2 = s1 := by
    unfold s2
    split
    · rfl
    · rw [hnoted.relayed, hrelayed]
      rfl
  rw [hfailed, hnoted.relayed, hrelayed]
  show LinksKept s (settle (pump s1))
  rw [pump_of_empty (hnoted.relayed.trans hrelayed),
    settle_of_empty (by rw [hnoted.sched]; exact hstore) (by rw [hnoted.sched]; exact hstalled)]
  exact hnoted

/-- A link that changes, before the chain takes note. -/
def linkChanged (s : State) (port : Nat) (up : Bool) : State :=
  withChain s (fun c => { c with
    up := setAt c.up port up, credits := if up then setAt c.credits port 64 else c.credits })

/-- The chain takes note of a link that changed. -/
theorem linksKept_setChainLink {s : State} (hrelayed : s.chain.relayed = []) (hidle : s.sched.items = []) (port : Nat) (up : Bool)
    (peer : Nat) (lost : Bool) : LinksKept (linkChanged s port up) (setChainLink s port up peer lost) ∧
      (up = false → s.chain.root = false → (setChainLink s port up peer lost).regs = (raiseEv s .chainEvent [] [port]).regs) := by
  unfold setChainLink
  extract_lets before s1 s2 reach s3 s4
  have hraised : LinksKept s1 s2 := by
    unfold s2
    split
    · exact .refl _
    · exact .of_eq rfl rfl
  have hevent (u : State) (b : Bool) (kind : Nat) : LinksKept u (if b then chainEvent u kind port peer 0 else u) ∧
      (if b then chainEvent u kind port peer 0 else u).regs = u.regs := by
    split
    · obtain ⟨host, out, h⟩ := chainEvent_eq u kind port peer 0
      exact ⟨linksKept_chainEvent .., by rw [h]⟩
    · exact ⟨.refl u, rfl⟩
  obtain ⟨hthree, hregs⟩ := hevent s2 reach (if up then 1 else 2)
  obtain ⟨hfour, hregs'⟩ := hevent s3 (reach && up && lost) 3
  have hposted : LinksKept s1 s4 := hraised.trans (hthree.trans hfour)
  refine ⟨?_, fun hdown hroot => ?_⟩
  · split
    · exact hposted.trans (linksKept_rootLinks (hposted.relayed.trans hrelayed) (by rw [hposted.sched]; exact hidle) ..)
    · exact hposted.trans (linksKept_pumpUp ..)
  · have hnot : ¬ s4.chain.root = true := by rw [hposted.root]; exact Bool.eq_false_iff.mp hroot
    rw [if_neg hnot]
    have hpumped : (pumpUp s4).regs = s4.regs := by
      unfold pumpUp
      split <;> rfl
    have hs2 : s2 = raiseEv s1 .chainEvent [] [port] := if_neg (Bool.eq_false_iff.mp hdown)
    rw [hpumped, hregs', hregs, hs2]
    rfl

/-! ### Enumeration -/

theorem engineOf_of_empty {s : State} (h : s.sched.items = []) (p : Item → Bool) : engineOf s p = none := by
  obtain ⟨-, -, hengines, -⟩ := items_empty h
  refine List.findIdx?_eq_none_iff.mpr fun e he => ?_
  have hnone : e.item = none := List.filterMap_eq_nil_iff.mp hengines e he
  rw [hnone]

/-- What an enumeration has found is kept. -/
def enumerated (s : State) (devices : Nat) (overflow : Bool) : State :=
  withChain s (fun c => { c with enumerating := none, devices := min 64 (max 1 devices), overflow := overflow })

theorem enumerationComplete_of_free {s : State} {h : CmdHeader} {devices : Nat} {overflow : Bool}
    (henum : s.chain.enumerating = some h)
    (hfits : answerFits s h (.ok (enumData (min 64 (max 1 devices)) s.chain.ring overflow)) = true)
    (hfree : engineOf (enumerated s devices overflow) (fun i => i.kind == .command && i.code == 0x0003) = none) :
    enumerationComplete devices overflow s = completed (answer (enumerated s devices overflow) h false
      (.ok (enumData (min 64 (max 1 devices)) s.chain.ring overflow))) h 0x0003 := by
  unfold enumerationComplete
  rw [henum]
  dsimp only
  rw [if_pos hfits]
  unfold enumerated at *
  rw [hfree]

/-- A credit for which nothing waits is kept. -/
theorem chainCredit_of_idle {s : State} {port : Nat} (hport : port < 2) (hup : chainUp s port = true)
    (hrelayed : s.chain.relayed = []) (hrx : s.chain.rxBuf = []) (hidle : s.sched.items = []) :
    chainCredit port s =
      withChain s (fun c => { c with credits := setAt c.credits port (min 64 (c.credits.getD port 0 + 1)) }) := by
  obtain ⟨hstore, -, -, hstalled⟩ := items_empty hidle
  unfold chainCredit
  rw [if_neg (by simp [hport, hup])]
  extract_lets s1
  split
  · have hpumped : pump s1 = s1 := pump_of_empty hrelayed
    rw [hpumped]
    exact settle_of_empty hstore hstalled
  · rw [show s1.chain.rxBuf = [] from hrx]
    rfl

/-- Settles O55: each command changes the chain as its case says, and with an idle scheduler nothing else follows. -/
theorem chainCommands : Obligations.ChainCommands := by
  intro s hparts htransition hidle toHost
  obtain ⟨-, -, -, -, -, -, hup2, hcredits2, -⟩ := hparts
  obtain ⟨hstore, -, -, hstalled⟩ := items_empty hidle
  refine ⟨fun v hv hlt hup => ?_, fun port a h p hport hup hroot haddr => ?_, ?_, fun r hrelayed hsent hacked => ?_,
    fun port hport hup hrelayed hrx => ?_, fun port up peer lost hport hstarted hchanged hen hrelayed => ?_, ?_⟩
  · have hrun := chainToken_of_up hv hlt hup
    refine ⟨fun hroot => congrArg Host.Outcome.next (hrun.trans (if_pos hroot)), fun hroot haddr => ?_⟩
    rw [if_neg (Bool.eq_false_iff.mp hroot), haddr] at hrun
    exact ⟨fun hlow hnext => congrArg Host.Outcome.next (hrun.trans (if_pos ⟨hlow, hnext⟩)),
      fun hlast => congrArg Host.Outcome.next (hrun.trans (passToken_of_last hlast))⟩
  · have hrun (h : CmdHeader) := chainCommandRelay_of_up (h := h) (p := p) hport hup hroot haddr
    refine ⟨fun hown hroom => congrArg Host.Outcome.next ((hrun h).trans ?_),
      fun hother hrx hgo => congrArg Host.Outcome.next ((hrun h).trans ?_)⟩
    · exact (if_pos (by rw [ownDevice, haddr, hown]; exact beq_self_eq_true _)).trans (if_pos hroom)
    · refine (if_neg ?_).trans (if_pos ?_)
      · rw [ownDevice, haddr]
        simpa using fun heq => hother heq.symm
      · rw [hgo, hrx]
        rfl
  · intro port dev fn tag opcode status mask cursor data hport hup
    have hrun : chainReply port dev fn tag opcode status mask cursor data s = _ := if_neg (by simp [hport, hup])
    refine ⟨fun hroot haddr hnext => congrArg Host.Outcome.next (hrun.trans ?_), ?_⟩
    · rw [if_neg (Bool.eq_false_iff.mp hroot)]
      exact if_neg (by simp [hnext, Option.isSome_iff_ne_none.mp haddr])
    · rintro r hroot hrelayed hsent rfl rfl rfl rfl ⟨hvia, hring, hringEn, hfits⟩
      have hfound := sentTo_of_only (p := fun q => q.header.fn == r.header.fn && q.opcode == r.opcode) hrelayed hsent (by simp)
      refine congrArg Host.Outcome.next (hrun.trans ((if_pos hroot).trans ?_))
      unfold replyAtRoot
      rw [hfound]
      exact answerRelayed_of_only hrelayed hsent hidle hvia hring hringEn hfits false
  · refine ⟨?_, fun hlate ⟨hvia, hring, hringEn, hfits⟩ => ?_⟩
    · have hfound := sentTo_of_only (p := fun q => !q.acked) hrelayed hsent (by simp [hacked])
      have hfirst : s.chain.relayed[0]? = some r := by rw [hrelayed]; rfl
      refine congrArg Host.Outcome.next ?_
      unfold chainAck
      rw [hfound]
      dsimp only
      rw [hfirst]
      simp only [withChain, hrelayed]
      rfl
    · have hfound := sentTo_of_only (p := fun q => !q.acked && decide (q.deadline ≤ s.sched.ticked)) hrelayed hsent
        (by simp [hacked, hlate])
      refine congrArg Host.Outcome.next ?_
      unfold chainAckTimeout
      rw [hfound]
      exact answerRelayed_of_only hrelayed hsent hidle hvia hring hringEn hfits true
  · exact congrArg Host.Outcome.next (chainCredit_of_idle hport hup hrelayed hrx hidle)
  · have hrun : chainLinkChange port up peer lost s = setChainLink s port up peer lost :=
      if_neg (by rcases up with _ | _ <;> simp_all)
    obtain ⟨hkept, hregs⟩ := linksKept_setChainLink hrelayed hidle port up peer lost
    refine ⟨_, congrArg Host.Outcome.next hrun, ?_, ?_, hkept.addr, hkept.relayed.trans hrelayed, fun hisUp => ?_, fun hdown hroot => ?_⟩
    · rw [chainUp, hkept.up]
      exact (getD_setAt ..).trans (if_pos ⟨rfl, by omega⟩)
    · rw [chainUp, hkept.up]
      exact (getD_setAt ..).trans (if_neg (by omega))
    · rw [hkept.credits]
      subst hisUp
      exact (getD_setAt ..).trans (if_pos ⟨rfl, by omega⟩)
    · rw [eventAt, hregs hdown hroot]
      exact (eventAt_raiseEv ..).trans (if_pos rfl)
  · intro h devices overflow henum a ⟨hvia, hring, hringEn, hfits⟩
    refine congrArg Host.Outcome.next ?_
    have hfree : engineOf (enumerated s devices overflow) (fun i => i.kind == .command && i.code == 0x0003) = none :=
      engineOf_of_empty hidle _
    have hplaced : answer (enumerated s devices overflow) h false a = answered (enumerated s devices overflow) h a :=
      answer_placed (t := enumerated s devices overflow) hvia hring hringEn false a
    rw [enumerationComplete_of_free henum hfits hfree, hplaced,
      completed_of_empty (s := answered (enumerated s devices overflow) h a) hstore hstalled htransition]
    rfl

end Sys2Proof.Machine
end

