-- ==== Sys2Proof/Proofs/DroppedFrames.lean ====
section
/-! SUPPORT. What dropping frames keeps of the host ports, the Rim, the registers and the channels (14/R433, R437; 12/R368). -/

namespace Sys2Proof.Machine

/-- A frame that is dropped leaves the host ports, the semaphores and the Rim, enables and disables no ring, writes no register
but DMA_LAST, raises at most DMA_EVENT and a CRL_EVENT, joins no punt queue, takes back nothing that has left the device, and of
the channels touches only their drop counts. -/
structure DropsKept (s t : State) : Prop where
  ports : t.host.ports = s.host.ports
  sems : t.host.sems = s.host.sems
  rings : ∀ hp cls r, (ringAt t hp cls r).en = (ringAt s hp cls r).en
  rim : t.rim = s.rim
  power : t.power = s.power
  cells : ∀ r ix, r.addr ix ≠ RegName.addr .dmaLast [] → regCell t r ix = regCell s r ix
  events : ∀ off, off ≠ RegName.addr .dmaEvent [] → (∀ sl, off ≠ RegName.addr .crlEvent [sl]) → eventAt t off = eventAt s off
  chans : ∀ k, ∃ drops tick, chanAt t k = { chanAt s k with drops := drops, dropTick := tick }
  punts : ∀ k, ∀ i ∈ (storeAt t k).punt, i ∈ (storeAt s k).punt
  out : s.out <:+ t.out

namespace DropsKept

variable {s t u : State}

theorem trans (a : DropsKept s t) (b : DropsKept t u) : DropsKept s u := by
  refine ⟨b.ports.trans a.ports, b.sems.trans a.sems, fun hp cls r => (b.rings hp cls r).trans (a.rings hp cls r),
    b.rim.trans a.rim, b.power.trans a.power, fun r ix h => (b.cells r ix h).trans (a.cells r ix h),
    fun off h h' => (b.events off h h').trans (a.events off h h'), fun k => ?_,
    fun k i hi => a.punts k i (b.punts k i hi), a.out.trans b.out⟩
  obtain ⟨drops, tick, h⟩ := a.chans k
  obtain ⟨drops', tick', h'⟩ := b.chans k
  exact ⟨drops', tick', by rw [h', h]⟩

theorem of_chans (hhost : t.host = s.host) (hrim : t.rim = s.rim) (hpower : t.power = s.power) (hregs : t.regs = s.regs)
    (hcells : t.cells = s.cells) (hout : t.out = s.out)
    (hchans : ∀ k, ∃ drops tick, chanAt t k = { chanAt s k with drops := drops, dropTick := tick }) : DropsKept s t :=
  ⟨by rw [hhost], by rw [hhost], fun hp cls r => by rw [ringAt, ringAt, hhost], hrim, hpower,
    fun r ix _ => regCell_of_cells (by rw [hregs]) r ix, fun off _ _ => by rw [eventAt, eventAt, hregs], hchans,
    fun k i hi => by rw [storeAt, hcells] at hi; exact hi, by rw [hout]⟩

theorem of_eq (hhost : t.host = s.host) (hrim : t.rim = s.rim) (hpower : t.power = s.power) (hregs : t.regs = s.regs)
    (hcells : t.cells = s.cells) (hout : t.out = s.out) (hdma : t.dma = s.dma) : DropsKept s t :=
  of_chans hhost hrim hpower hregs hcells hout fun k => ⟨(chanAt s k).drops, (chanAt s k).dropTick, by rw [chanAt, hdma]; rfl⟩

theorem refl (s : State) : DropsKept s s := of_eq rfl rfl rfl rfl rfl rfl rfl

theorem onFrame {id : Nat} {g : Frame → State} (hu : DropsKept s u) (hg : ∀ f, DropsKept s (g f)) :
    DropsKept s (Machine.onFrame u id g) := by
  unfold Machine.onFrame
  split
  · exact hu
  · exact hg _

theorem foldl {α : Type} {f : State → α → State} (h : ∀ s a, DropsKept s (f s a)) (l : List α) (s : State) :
    DropsKept s (l.foldl f s) :=
  List.foldlRecOn (motive := fun t => DropsKept s t) l f (.refl s) fun t ht a _ => ht.trans (h t a)

end DropsKept

/-! ### Events, counters and frames -/

/-- An event goes to a ring, and leaves ports, semaphores and waiting replies. -/
theorem postEvent_host (s : State) (src : Nat) (body : List Byte) :
    (postEvent s src body).host.ports = s.host.ports ∧ (postEvent s src body).host.sems = s.host.sems ∧
      (postEvent s src body).host.replies = s.host.replies := by
  have hwrite (t : State) (hp cls r : Nat) (bytes : List Byte) : (writeRing t hp cls r bytes).host.ports = t.host.ports ∧
      (writeRing t hp cls r bytes).host.sems = t.host.sems ∧ (writeRing t hp cls r bytes).host.replies = t.host.replies := by
    unfold writeRing
    extract_lets g n pi cfg s1 s2 s3
    have hout : s3.host = t.host := by unfold s3; split <;> rfl
    refine ⟨?_, ?_, ?_⟩ <;> simp only [setRing, hout]
  simp only [postEvent]
  split
  · split
    · unfold eventToRing
      extract_lets g head t
      split
      · exact hwrite ..
      · exact ⟨rfl, rfl, rfl⟩
    · exact ⟨rfl, rfl, rfl⟩
  · exact ⟨rfl, rfl, rfl⟩

section
variable (s : State) (id : Nat)

theorem dropsKept_postEvent (src : Nat) (body : List Byte) : DropsKept s (postEvent s src body) := by
  obtain ⟨hports, hsems, -⟩ := postEvent_host s src body
  have hrings := (ringsKept_postEvent s src body).en
  have hout := (sideKept_postEvent s src body).out
  obtain ⟨host, out, h⟩ := postEvent_eq s src body
  rw [h] at hports hsems hrings hout ⊢
  exact ⟨hports, hsems, hrings, rfl, rfl, fun _ _ _ => rfl, fun _ _ _ => rfl, fun _ => ⟨_, _, rfl⟩, fun _ _ hi => hi, hout⟩

theorem dropsKept_bump (part num n : Nat) : DropsKept s (bump s part num n) := by
  obtain ⟨c, h⟩ := bump_eq s part num n
  rw [h]
  exact .of_eq rfl rfl rfl rfl rfl rfl rfl

theorem dropsKept_rimLog (type : Nat) (sec : Bool) (body : List Byte) : DropsKept s (rimLog s type sec body) := by
  obtain ⟨l, n, h⟩ := rimLog_eq s type sec body
  rw [h]
  exact .of_eq rfl rfl rfl rfl rfl rfl rfl

theorem dropsKept_modFrame (g : Frame → Frame) : DropsKept s (modFrame s id g) := by
  unfold modFrame
  split
  · exact .refl s
  · exact .of_eq rfl rfl rfl rfl rfl rfl rfl

theorem dropsKept_raiseTask (code prio : Nat) (params : List Byte) : DropsKept s (raiseTask s code prio params) := by
  obtain ⟨sched, h⟩ : ∃ sched, raiseTask s code prio params = { s with sched := sched } := ⟨_, rfl⟩
  rw [h]
  exact .of_eq rfl rfl rfl rfl rfl rfl rfl

theorem dropsKept_modSlice (sl : Nat) (f : SliceState → SliceState) : DropsKept s (modSlice s sl f) :=
  .of_eq rfl rfl rfl rfl rfl rfl rfl

/-- A change of a slice's cell store by which no frame joins its punt queue. -/
theorem dropsKept_modStore {s : State} {sl : Nat} {f : CellStore → CellStore}
    (hf : ∀ i ∈ (f (storeAt s sl)).punt, i ∈ (storeAt s sl).punt) : DropsKept s (modStore s sl f) := by
  refine ⟨rfl, rfl, fun _ _ _ => rfl, rfl, rfl, fun _ _ _ => rfl, fun _ _ _ => rfl, fun _ => ⟨_, _, rfl⟩, fun k i hi => ?_,
    List.suffix_rfl⟩
  rw [storeAt_modStore] at hi
  split at hi
  · next hk => exact hk ▸ hf i hi
  · exact hi

theorem dropsKept_outstandingSub (sl bank : Nat) : DropsKept s (outstandingSub s sl bank) := .of_eq rfl rfl rfl rfl rfl rfl rfl

theorem dropsKept_retireFrom (n : Nat) (s : State) (sl : Nat) : DropsKept s (retireFrom n s sl) := by
  induction n generalizing s with
  | zero => exact .refl s
  | succ n ih =>
    unfold retireFrom
    extract_lets v s1 s2 s3
    split
    · have hslice : DropsKept s s1 := dropsKept_modSlice ..
      have hrules : DropsKept s2 s3 := by
        unfold s3
        split
        · exact .of_eq rfl rfl rfl rfl rfl rfl rfl
        · exact .refl _
      exact (((hslice.trans (dropsKept_postEvent ..)).trans hrules).trans (dropsKept_raiseTask ..)).trans (ih _)
    · exact .refl s

theorem dropsKept_releaseFrame : DropsKept s (releaseFrame s id) := by
  refine .onFrame (.refl s) fun f => ?_
  extract_lets s1 egress s2 s3 s4
  have hsnap : DropsKept s s4 := by unfold s4; split <;> exact .of_eq rfl rfl rfl rfl rfl rfl rfl
  split
  · exact (hsnap.trans (dropsKept_modSlice ..)).trans (dropsKept_retireFrom ..)
  · exact hsnap

theorem dropsKept_learnAtIngress (f : Frame) : DropsKept s (learnAtIngress s f) := by
  unfold learnAtIngress queueMacLearn
  split
  · exact .refl s
  · split
    · split
      · exact .of_eq rfl rfl rfl rfl rfl rfl rfl
      · exact dropsKept_bump ..
    · exact .refl s

theorem dropsKept_verdictGood : DropsKept s (verdictGood s id) := by
  refine .onFrame (.refl s) fun f => ?_
  extract_lets s1 s2
  have hlearn : DropsKept s s1 := dropsKept_learnAtIngress ..
  split
  · exact (hlearn.trans (dropsKept_outstandingSub ..)).trans (dropsKept_modFrame ..)
  · exact hlearn

theorem dropsKept_verdictBad : DropsKept s (verdictBad s id) := by
  refine .onFrame (.refl s) fun f => ?_
  extract_lets s1
  have hvoid : DropsKept s s1 := dropsKept_modFrame ..
  split
  · split <;> exact hvoid.trans (.of_eq rfl rfl rfl rfl rfl rfl rfl)
  · split
    · exact hvoid.trans (.of_eq rfl rfl rfl rfl rfl rfl rfl)
    · exact hvoid

theorem dropsKept_freeCell (sl cell : Nat) : DropsKept s (freeCell s sl cell) := by
  unfold freeCell
  extract_lets c
  split
  · have hcount : DropsKept s (cntSl s sl 0x281) := dropsKept_bump ..
    have hraise : DropsKept (cntSl s sl 0x281) (raiseEv (cntSl s sl 0x281) .crlEvent [sl] [0]) :=
      ⟨rfl, rfl, fun _ _ _ => rfl, rfl, rfl, fun _ _ _ => rfl,
        fun off _ hcrl => (eventAt_raiseEv ..).trans (if_neg (hcrl sl)), fun _ => ⟨_, _, rfl⟩, fun _ _ hi => hi, List.suffix_rfl⟩
    exact ((hcount.trans hraise).trans (dropsKept_modStore fun _ hi => hi)).trans (dropsKept_rimLog ..)
  · exact dropsKept_modStore (f := fun c => { c with freed := c.freed ++ [cell] }) fun _ hi => hi

theorem dropsKept_freeFrame : DropsKept s (freeFrame s id) := by
  refine .onFrame (.refl s) fun f => ?_
  have hcells : DropsKept s (f.cellList.foldl (fun s c => freeCell s f.slice c) s) :=
    .foldl (fun u c => dropsKept_freeCell u f.slice c) _ _
  exact (hcells.trans (dropsKept_modStore fun _ hi => hi)).trans (dropsKept_modFrame ..)

theorem dropsKept_refsGone : DropsKept s (refsGone s id) := by
  refine .onFrame (.refl s) fun f => ?_
  extract_lets s1
  have hfreed : DropsKept s s1 := dropsKept_freeFrame ..
  split
  · split
    · exact (hfreed.trans (dropsKept_verdictGood ..)).trans (dropsKept_releaseFrame ..)
    · exact (hfreed.trans (dropsKept_verdictBad ..)).trans (dropsKept_releaseFrame ..)
  · split
    · exact hfreed.trans (dropsKept_releaseFrame ..)
    · exact hfreed

theorem dropsKept_dropRef : DropsKept s (dropRef s id) := by
  have hfewer : DropsKept s (modFrame s id (fun f => { f with refs := f.refs - 1 })) := dropsKept_modFrame ..
  refine .onFrame hfewer fun f => ?_
  split
  · exact hfewer.trans (dropsKept_refsGone ..)
  · exact hfewer

theorem dropsKept_frameLeft : DropsKept s (frameLeft s id) := by
  refine .onFrame (.refl s) fun f => ?_
  split
  · exact dropsKept_releaseFrame ..
  · extract_lets s1
    have hsnap : DropsKept s s1 := by unfold s1; split <;> exact .of_eq rfl rfl rfl rfl rfl rfl rfl
    exact hsnap.trans (dropsKept_modFrame ..)

theorem dropsKept_stampLost : DropsKept s (stampLost s id) := by
  refine .onFrame (.refl s) fun f => ?_
  split
  · exact dropsKept_postEvent ..
  · exact .refl s

theorem dropsKept_discardStored : DropsKept s (discardStored s id) := by
  refine .onFrame (.refl s) fun f => ?_
  split
  · exact dropsKept_dropRef ..
  · exact (((dropsKept_stampLost ..).trans (dropsKept_verdictBad ..)).trans (dropsKept_dropRef ..)).trans (dropsKept_frameLeft ..)

/-! ### Channels -/

theorem chanAt_modChan (ch k : Nat) (f : DmaChannel → DmaChannel) :
    chanAt (modChan s ch f) k = if k = ch then f (chanAt s ch) else chanAt s k := tget_tupd ..

/-- The drop count of a channel. -/
theorem dropsKept_modChan (ch drops : Nat) (tick : Option Nat) :
    DropsKept s (modChan s ch (fun c => { c with drops := drops, dropTick := tick })) :=
  .of_chans rfl rfl rfl rfl rfl rfl fun k => by
    rw [chanAt_modChan]
    split
    · next h => exact ⟨drops, tick, by rw [h]⟩
    · exact ⟨_, _, rfl⟩

theorem dropsKept_puntDropped (sl reason : Nat) : DropsKept s (puntDropped s sl reason) := by
  unfold puntDropped
  extract_lets s1 ch s2 c n due
  have hcount : DropsKept s (cntSl s sl 0x285) := dropsKept_bump ..
  have hraise : DropsKept (cntSl s sl 0x285) s1 :=
    ⟨rfl, rfl, fun _ _ _ => rfl, rfl, rfl, fun _ _ _ => rfl, fun off hdma _ => (eventAt_raiseEv ..).trans (if_neg hdma),
      fun _ => ⟨_, _, rfl⟩, fun _ _ hi => hi, List.suffix_rfl⟩
  have hlast : DropsKept s1 s2 :=
    ⟨rfl, rfl, fun _ _ _ => rfl, rfl, rfl, fun r ix h => regCell_forceReg_ne _ _ _ _ _ _ h, fun _ _ _ => rfl,
      fun _ => ⟨_, _, rfl⟩, fun _ _ hi => hi, List.suffix_rfl⟩
  have hnoted : DropsKept s s2 := (hcount.trans hraise).trans hlast
  split
  · exact (hnoted.trans (dropsKept_modChan ..)).trans (dropsKept_postEvent ..)
  · exact hnoted.trans (dropsKept_modChan s2 ch n (chanAt s2 ch).dropTick)

theorem dropsKept_dropUntaken (sl : Nat) : DropsKept s (dropUntaken s sl) := by
  refine .foldl (fun u id => .onFrame (.refl u) fun f => ?_) _ _
  extract_lets r s1
  split
  · exact .refl u
  · have hqueue : DropsKept u s1 := dropsKept_modStore fun _ hi => List.mem_of_mem_filter hi
    exact (hqueue.trans (dropsKept_puntDropped ..)).trans (dropsKept_discardStored ..)

/-- With no punted frame nothing is dropped. -/
theorem dropUntaken_of_empty {s : State} {sl : Nat} (h : (storeAt s sl).punt = []) : dropUntaken s sl = s := by
  unfold dropUntaken
  rw [h]
  rfl

end

end Sys2Proof.Machine
end

