-- ==== Sys2Proof/Proofs/ChannelDisable.lean ====
section
/-! SUPPORT. A DMA channel that is disabled: what it drops, and what it leaves alone (14/R433). -/

namespace Sys2Proof.Machine

theorem fld_forceFld_zero (s : State) (r : RegName) (ix : List Nat) : fld (forceFld s r ix 31 31 0) r ix 31 31 = 0 := by
  rw [fld, forceFld, inForce_forceReg_same]
  simp only [bits, withBits, at_]
  omega

theorem regCell_forceFld_ne (s : State) (r : RegName) (ix : List Nat) (hi lo v : Nat) (q : RegName) (jx : List Nat)
    (h : q.addr jx ≠ r.addr ix) : regCell (forceFld s r ix hi lo v) q jx = regCell s q jx := regCell_forceReg_ne _ _ _ _ _ _ h

/-! ### Stacks that leave -/

theorem stackOff_eq (s : State) (k : Nat) : ∃ power hbm, stackOff s k = { s with power := power, hbm := hbm } := by
  unfold stackOff
  extract_lets power s1
  have hpcs : ∃ hbm, ((List.range 32).map (fun i => k * 32 + i)).foldl (fun s pc => modPc s pc (fun p => { p with state := 3 })) s1 =
      { s1 with hbm := hbm } := by
    refine List.foldlRecOn (motive := fun t => ∃ hbm, t = { s1 with hbm := hbm }) _ _ ⟨s1.hbm, rfl⟩ fun t ht pc _ => ?_
    obtain ⟨hbm, rfl⟩ := ht
    exact ⟨_, rfl⟩
  obtain ⟨hbm, h⟩ := hpcs
  rw [h]
  exact ⟨_, _, rfl⟩

theorem stacksLeave_eq (s : State) : ∃ power hbm, stacksLeave s = { s with power := power, hbm := hbm } := by
  refine List.foldlRecOn (motive := fun t => ∃ power hbm, t = { s with power := power, hbm := hbm }) _ _
    ⟨s.power, s.hbm, rfl⟩ fun t ht k _ => ?_
  obtain ⟨power, hbm, rfl⟩ := ht
  obtain ⟨power', hbm', h⟩ := stackOff_eq { s with power := power, hbm := hbm } k
  exact ⟨power', hbm', h⟩

theorem stacksLeave_of_none {s : State} (h : s.power.leaving = []) : stacksLeave s = s := by
  unfold stacksLeave
  rw [h]
  rfl

/-! ### A channel stops -/

/-- A channel whose work is dropped, its counts left undefined. -/
def DmaChannel.stopped (x : DmaChannel) (n : Nat) : DmaChannel :=
  { x with
    state := 0, doing := none, moved := 0, inject := none, held := none, count := wrap 32 (Config.freeValue n),
    bytes := wrap 64 (Config.freeValue (n + 1)), cqPi := wrap 32 (Config.freeValue (n + 2)) }

/-- The injected frame of a channel that stops is released first. -/
def injectReleased (s : State) (ch : Nat) : State :=
  match (chanAt s ch).inject with
  | some id => releaseFrame (stampLost s id) id
  | none => s

theorem dropsKept_injectReleased (s : State) (ch : Nat) : DropsKept s (injectReleased s ch) := by
  unfold injectReleased
  split
  · exact (dropsKept_stampLost ..).trans (dropsKept_releaseFrame ..)
  · exact .refl s

theorem stopChannel_eq (s : State) (ch : Nat) : stopChannel s ch =
    modChan { injectReleased s ch with fresh := (injectReleased s ch).fresh + 3 } ch (·.stopped (injectReleased s ch).fresh) := rfl

/-- A channel of which nothing is in progress any more. -/
structure DmaChannel.Idle (x : DmaChannel) : Prop where
  state : x.state = 0
  doing : x.doing = none
  inject : x.inject = none
  held : x.held = none

/-- A channel is disabled: but for drop counts the other channels stand, and so do the host ports and the Rim. -/
structure ChannelDisabled (ch : Nat) (s t : State) : Prop where
  off : chanOn t ch = false
  idle : (chanAt t ch).Idle
  others : ∀ k, k ≠ ch → ∃ drops tick, chanAt t k = { chanAt s k with drops := drops, dropTick := tick }
  ports : t.host.ports = s.host.ports
  sems : t.host.sems = s.host.sems
  rings : ∀ hp cls r, (ringAt t hp cls r).en = (ringAt s hp cls r).en
  rim : t.rim = s.rim
  cells : ∀ r ix, r.addr ix ≠ RegName.addr .dmaLast [] → r.addr ix ≠ RegName.addr .dmaCtl [ch] → regCell t r ix = regCell s r ix
  events : ∀ off, off ≠ RegName.addr .dmaEvent [] → (∀ sl, off ≠ RegName.addr .crlEvent [sl]) → eventAt t off = eventAt s off

theorem addr_dmaCtl (ch : Nat) : RegName.addr .dmaCtl [ch] = 0x108000 + 0x100 * ch := rfl
theorem addr_dmaLast : RegName.addr .dmaLast [] = 0x10C018 := rfl

theorem channelDisabled_disableChannel (s : State) (ch : Nat) : ChannelDisabled ch s (disableChannel s ch) := by
  have hfreed := dropsKept_injectReleased (forceFld s .dmaCtl [ch] 31 31 0) ch
  generalize hw : injectReleased (forceFld s .dmaCtl [ch] 31 31 0) ch = w at hfreed
  have hchans (k : Nat) : chanAt (stopChannel (forceFld s .dmaCtl [ch] 31 31 0) ch) k =
      if k = ch then (chanAt w ch).stopped w.fresh else chanAt w k := by
    rw [stopChannel_eq, hw]
    exact chanAt_modChan ..
  have hfoot : ∃ fresh dma, stopChannel (forceFld s .dmaCtl [ch] 31 31 0) ch = { w with fresh := fresh, dma := dma } := by
    rw [stopChannel_eq, hw]
    exact ⟨_, _, rfl⟩
  have hdrops : DropsKept (stopChannel (forceFld s .dmaCtl [ch] 31 31 0) ch)
      ((List.range 8).foldl dropUntaken (stopChannel (forceFld s .dmaCtl [ch] 31 31 0) ch)) :=
    .foldl (fun u sl => dropsKept_dropUntaken u sl) ..
  obtain ⟨power, hbm, hleft⟩ := stacksLeave_eq
    ((List.range 8).foldl dropUntaken (stopChannel (forceFld s .dmaCtl [ch] 31 31 0) ch))
  unfold disableChannel
  rw [hleft]
  obtain ⟨fresh, dma, hfoot⟩ := hfoot
  rw [hfoot] at hchans hdrops ⊢
  generalize (List.range 8).foldl dropUntaken { w with fresh := fresh, dma := dma } = v at *
  have hctl (r : RegName) (ix : List Nat) (h : r.addr ix ≠ RegName.addr .dmaLast []) :
      regCell v r ix = regCell (forceFld s .dmaCtl [ch] 31 31 0) r ix :=
    (hdrops.cells r ix h).trans (hfreed.cells r ix h)
  refine ⟨?_, ?_, fun k hk => ?_, hdrops.ports.trans hfreed.ports, hdrops.sems.trans hfreed.sems,
    fun hp cls r => (hdrops.rings hp cls r).trans (hfreed.rings hp cls r), hdrops.rim.trans hfreed.rim,
    fun r ix hlast hne => (hctl r ix hlast).trans (regCell_forceFld_ne _ _ _ _ _ _ _ _ hne),
    fun off hdma hcrl => (hdrops.events off hdma hcrl).trans (hfreed.events off hdma hcrl)⟩
  · have hoff : fld v .dmaCtl [ch] 31 31 = 0 :=
      (fld_of_regCell (hctl _ _ (by rw [addr_dmaCtl, addr_dmaLast]; omega)) ..).trans (fld_forceFld_zero ..)
    exact beq_eq_false_iff_ne.mpr (ne_of_eq_of_ne hoff Nat.zero_ne_one)
  · obtain ⟨drops, tick, h⟩ := hdrops.chans ch
    have hown : chanAt v ch = { (chanAt w ch).stopped w.fresh with drops := drops, dropTick := tick } := by
      rw [h, hchans, if_pos rfl]
    show (chanAt v ch).Idle
    rw [hown]
    exact ⟨rfl, rfl, rfl, rfl⟩
  · obtain ⟨drops, tick, h⟩ := hfreed.chans k
    obtain ⟨drops', tick', h'⟩ := hdrops.chans k
    refine ⟨drops', tick', ?_⟩
    show chanAt v k = _
    rw [h', hchans, if_neg hk, h]
    rfl

/-- With nothing injected, no punted frame waiting and no stack leaving, nothing is dropped. -/
theorem disableChannel_of_calm {s : State} {ch : Nat} (hinject : (chanAt s ch).inject = none)
    (hpunt : ∀ sl, sl < 8 → (storeAt s sl).punt = []) (hleaving : s.power.leaving = []) :
    disableChannel s ch = modChan { forceFld s .dmaCtl [ch] 31 31 0 with fresh := s.fresh + 3 } ch (·.stopped s.fresh) := by
  have hreleased : injectReleased (forceFld s .dmaCtl [ch] 31 31 0) ch = forceFld s .dmaCtl [ch] 31 31 0 := by
    unfold injectReleased
    rw [show (chanAt (forceFld s .dmaCtl [ch] 31 31 0) ch).inject = none from hinject]
  have hstopped := stopChannel_eq (forceFld s .dmaCtl [ch] 31 31 0) ch
  rw [hreleased] at hstopped
  have hdropped (u : State) (hu : ∀ sl, sl < 8 → (storeAt u sl).punt = []) (hnone : u.power.leaving = []) :
      stacksLeave ((List.range 8).foldl dropUntaken u) = u := by
    rw [foldl_of_fixed fun sl hsl => dropUntaken_of_empty (hu sl (List.mem_range.mp hsl))]
    exact stacksLeave_of_none hnone
  have hleft : disableChannel s ch = stacksLeave
      ((List.range 8).foldl dropUntaken (stopChannel (forceFld s .dmaCtl [ch] 31 31 0) ch)) := rfl
  rw [hleft, hstopped]
  exact hdropped _ hpunt hleaving

end Sys2Proof.Machine
end

