-- ==== Sys2Proof/Proofs/FunctionStops.lean ====
section
/-! PROOF. What a host function loses with its reset or its link: rings, semaphores and channels (12/R367–R370, R373; 19/R527). -/

namespace Sys2Proof.Machine

/-! ### Rings -/

theorem ringAt_setRing (s : State) (hp cls r : Nat) (x : Ring) (hp' cls' r' : Nat) :
    ringAt (setRing s hp cls r x) hp' cls' r' = if ringId hp' cls' r' = ringId hp cls r then x else ringAt s hp' cls' r' :=
  tget_tins ..

/-- A ring that is disabled keeps the rest of its state, and every other ring its own; only the replies of a reply ring go. -/
theorem disableRing_facts (s : State) (cls hp r : Nat) :
    ∃ sched chain rules counters replies, disableRing s cls [hp, r] =
      { s with
        sched := sched, chain := chain, rules := rules, counters := counters
        host := { (setRing s hp cls r { ringAt s hp cls r with en := false }).host with replies := replies } } ∧
      (cls ≠ 1 → replies = s.host.replies) ∧ (cls = 1 → ∀ x ∈ replies, x.hp = hp → x.ring ≠ r) := by
  unfold disableRing
  extract_lets hp' r' ring s1
  split
  · next hcls =>
    subst hcls
    obtain ⟨counters, hdropped⟩ : ∃ counters, dropWaiting (loseReplies s1 (fun h => h.fn / 2 == hp' && h.replyRing == r')) hp' =
        { loseReplies s1 (fun h => h.fn / 2 == hp' && h.replyRing == r') with
          counters := counters
          host := { s1.host with replies := s1.host.replies.filter (fun x => !(x.hp == hp && !(ringAt s1 hp 1 x.ring).en)) } } := by
      obtain ⟨c, hc⟩ := bump_eq { loseReplies s1 (fun h => h.fn / 2 == hp' && h.replyRing == r') with
          host := { s1.host with replies := s1.host.replies.filter (fun x => !(x.hp == hp && !(ringAt s1 hp 1 x.ring).en)) } }
        0 (0x96 + hp') (s1.host.replies.filter (fun x => x.hp == hp && !(ringAt s1 hp 1 x.ring).en)).length
      exact ⟨c, hc⟩
    refine ⟨_, _, _, counters, _, hdropped, fun h => absurd rfl h, fun _ x hx hport hring => ?_⟩
    have hgone := (List.mem_filter.mp hx).2
    have hoff : (ringAt s1 hp 1 r).en = false := by
      show (ringAt (setRing s hp 1 r _) hp 1 r).en = false
      rw [ringAt_setRing, if_pos rfl]
    rw [hport, hring, hoff] at hgone
    simp at hgone
  · next hcls => exact ⟨_, _, _, _, _, rfl, fun _ => rfl, fun h => absurd h hcls⟩

/-! ### What the stages of a stop keep -/

/-- What a function that stops keeps: a semaphore keeps its value or is freed where `P` says, no ring and no channel is enabled,
and only channels of `Q` are disabled. -/
structure StopKept (P Q : Nat → Prop) (s t : State) : Prop where
  ports : t.host.ports = s.host.ports
  rim : t.rim = s.rim
  events : ∀ k, k < 2 → eventAt t (RegName.addr .hpEvent [k]) = eventAt s (RegName.addr .hpEvent [k])
  ringOwn : ∀ k, k < 2 → regCell t .hpRingOwn [k] = regCell s .hpRingOwn [k]
  dmaOwn : ∀ k, k < 2 → regCell t .dmaOwn [k] = regCell s .dmaOwn [k]
  rings : ∀ hp cls r, (ringAt t hp cls r).en = true → (ringAt s hp cls r).en = true
  ctl : ∀ ch, ch < 32 → ¬ Q ch → chanOn t ch = chanOn s ch
  chans : ∀ ch, ch < 32 → chanOn s ch = false → chanOn t ch = false
  idle : ∀ ch, (chanAt s ch).state = 0 → (chanAt t ch).state = 0
  sems : ∀ n, tget 0 t.host.sems n = tget 0 s.host.sems n ∨ (tget 0 t.host.sems n = 0 ∧ P (tget 0 s.host.sems n))
  sorted : tsorted s.host.sems = true → tsorted t.host.sems = true

namespace StopKept

variable {P Q : Nat → Prop} {s t u : State}

theorem trans (a : StopKept P Q s t) (b : StopKept P Q t u) : StopKept P Q s u := by
  refine ⟨b.ports.trans a.ports, b.rim.trans a.rim, fun k hk => (b.events k hk).trans (a.events k hk),
    fun k hk => (b.ringOwn k hk).trans (a.ringOwn k hk), fun k hk => (b.dmaOwn k hk).trans (a.dmaOwn k hk),
    fun hp cls r h => a.rings hp cls r (b.rings hp cls r h), fun ch hch hq => (b.ctl ch hch hq).trans (a.ctl ch hch hq),
    fun ch hch h => b.chans ch hch (a.chans ch hch h), fun ch h => b.idle ch (a.idle ch h), fun n => ?_, b.sorted ∘ a.sorted⟩
  rcases a.sems n with hsame | ⟨hfree, hp⟩
  · rw [← hsame]
    exact b.sems n
  · rcases b.sems n with hsame | ⟨hfree', -⟩
    · exact .inr ⟨hsame.trans hfree, hp⟩
    · exact .inr ⟨hfree', hp⟩

theorem of_parts (hports : t.host.ports = s.host.ports) (hsems : t.host.sems = s.host.sems) (hrim : t.rim = s.rim)
    (hregs : t.regs = s.regs) (hdma : t.dma = s.dma)
    (hrings : ∀ hp cls r, (ringAt t hp cls r).en = true → (ringAt s hp cls r).en = true) : StopKept P Q s t := by
  have hcells (r : RegName) (ix : List Nat) : regCell t r ix = regCell s r ix := regCell_of_cells (by rw [hregs]) r ix
  have hon (ch : Nat) : chanOn t ch = chanOn s ch := by rw [chanOn, fld_of_regCell (hcells ..)]; rfl
  exact ⟨hports, hrim, fun k _ => by rw [eventAt, hregs]; rfl, fun _ _ => hcells .., fun _ _ => hcells .., hrings,
    fun ch _ _ => hon ch, fun ch _ h => (hon ch).trans h, fun ch h => by rw [chanAt, hdma]; exact h,
    fun n => .inl (by rw [hsems]), fun h => by rw [hsems]; exact h⟩

theorem refl (s : State) : StopKept P Q s s := of_parts rfl rfl rfl rfl rfl fun _ _ _ h => h

theorem mono {P' Q' : Nat → Prop} (h : StopKept P Q s t) (hp : ∀ o, P o → P' o) (hq : ∀ ch, ch < 32 → Q ch → Q' ch) :
    StopKept P' Q' s t :=
  ⟨h.ports, h.rim, h.events, h.ringOwn, h.dmaOwn, h.rings, fun ch hch hn => h.ctl ch hch fun hc => hn (hq ch hch hc), h.chans, h.idle,
    fun n => (h.sems n).imp_right (And.imp_right (hp _)), h.sorted⟩

theorem foldl {α : Type} {f : State → α → State} {l : List α} (h : ∀ s, ∀ a ∈ l, StopKept P Q s (f s a)) (s : State) :
    StopKept P Q s (l.foldl f s) :=
  List.foldlRecOn (motive := fun t => StopKept P Q s t) l f (.refl s) fun t ht a ha => ht.trans (h t a ha)

theorem ringOwner (h : StopKept P Q s t) {hp : Nat} (hlt : hp < 2) (cls r : Nat) :
    ringOwner t hp cls r = Machine.ringOwner s hp cls r := by
  have hcell := h.ringOwn hp hlt
  unfold Machine.ringOwner inForce
  rw [hcell]

theorem chanOwner (h : StopKept P Q s t) {ch : Nat} (hch : ch < 32) : chanOwner t ch = Machine.chanOwner s ch := by
  rw [Machine.chanOwner, fld_of_regCell (h.dmaOwn (ch / 16) (by omega))]
  rfl

end StopKept

/-! ### Rings stop -/

theorem addr_ringCfg_ge (cls hp r : Nat) : 0x200010 ≤ RegName.addr (ringCfg cls) [hp, r] := by
  match cls with
  | 0 => exact Nat.le_add_right 0x200010 (0x4000 * hp + (0x40 * r + 0))
  | 1 =>
    show 0x200010 ≤ 0x201010 + (0x4000 * hp + (0x40 * r + 0))
    omega
  | _ + 2 =>
    show 0x200010 ≤ 0x202010 + (0x4000 * hp + (0x40 * r + 0))
    omega

theorem addr_hpRingOwn (k : Nat) : RegName.addr .hpRingOwn [k] = 0x100004 + 0x1000 * k := rfl
theorem addr_hpEvent (k : Nat) : RegName.addr .hpEvent [k] = 0x100008 + 0x1000 * k := rfl
theorem addr_dmaOwn (k : Nat) : RegName.addr .dmaOwn [k] = 0x10C000 + 4 * k := rfl
theorem addr_dmaEvent : RegName.addr .dmaEvent [] = 0x10C014 := rfl
theorem addr_crlEvent (sl : Nat) : RegName.addr .crlEvent [sl] = 0x1040008 + 0x200000 * sl := rfl

/-- The enable bit of one ring is cleared, and the ring stops. -/
def stopRing (hp : Nat) (s : State) (k : Nat × Nat) : State :=
  disableRing (forceFld s (ringCfg k.1) [hp, k.2] 31 31 0) k.1 [hp, k.2]

theorem stopRing_facts (P Q : Nat → Prop) (hp : Nat) (s : State) (k : Nat × Nat) :
    StopKept P Q s (stopRing hp s k) ∧ (ringAt (stopRing hp s k) hp k.1 k.2).en = false := by
  obtain ⟨sched, chain, rules, counters, replies, h, -, -⟩ :=
    disableRing_facts (forceFld s (ringCfg k.1) [hp, k.2] 31 31 0) k.1 hp k.2
  have hcfg := addr_ringCfg_ge k.1 hp k.2
  have hring (hp' cls' r' : Nat) : ringAt (stopRing hp s k) hp' cls' r' =
      if ringId hp' cls' r' = ringId hp k.1 k.2 then { ringAt s hp k.1 k.2 with en := false } else ringAt s hp' cls' r' := by
    rw [stopRing, h]
    exact ringAt_setRing ..
  have hcell (r : RegName) (ix : List Nat) (hr : r.addr ix < 0x200010) : regCell (stopRing hp s k) r ix = regCell s r ix := by
    rw [stopRing, h]
    exact regCell_forceFld_ne _ _ _ _ _ _ _ _ (by omega)
  have hon (ch : Nat) (hch : ch < 32) : chanOn (stopRing hp s k) ch = chanOn s ch := by
    rw [chanOn, fld_of_regCell (hcell _ _ (by rw [addr_dmaCtl]; omega))]
    rfl
  have hown : (ringAt (stopRing hp s k) hp k.1 k.2).en = false := by rw [hring, if_pos rfl]
  refine ⟨⟨by rw [stopRing, h]; rfl, by rw [stopRing, h]; rfl, fun _ _ => by rw [stopRing, h]; rfl,
    fun j hj => hcell _ _ (by rw [addr_hpRingOwn]; omega), fun j hj => hcell _ _ (by rw [addr_dmaOwn]; omega),
    fun hp' cls' r' hen => ?_, fun ch hch _ => hon ch hch, fun ch hch hoff => (hon ch hch).trans hoff,
    fun ch hidle => by rw [stopRing, h]; exact hidle, fun n => .inl (by rw [stopRing, h]; rfl),
    fun hsorted => by rw [stopRing, h]; exact hsorted⟩, hown⟩
  rw [hring] at hen
  split at hen
  · cases hen
  · exact hen

/-- Every ring that the function owns is disabled. -/
theorem stopRings_facts (P Q : Nat → Prop) (s : State) (fn : Nat) :
    StopKept P Q s (stopRings s fn) ∧ ∀ cls r, cls < 3 → r < (if cls = 2 then 4 else 16) →
      ringOwner s (fn / 2) cls r = fn → (ringAt (stopRings s fn) (fn / 2) cls r).en = false := by
  have hkept : StopKept P Q s (stopRings s fn) :=
    .foldl (f := stopRing (fn / 2)) (fun u k _ => (stopRing_facts P Q (fn / 2) u k).1) s
  refine ⟨hkept, fun cls r hcls hr hown => ?_⟩
  cases hen : (ringAt s (fn / 2) cls r).en with
  | false => exact Bool.eq_false_iff.mpr fun h => Bool.eq_false_iff.mp hen (hkept.rings _ _ _ h)
  | true =>
    refine foldl_establishes (f := stopRing (fn / 2)) (P := fun k t => (ringAt t (fn / 2) k.1 k.2).en = false)
      (fun u k => (stopRing_facts P Q (fn / 2) u k).2) (fun u k j hj => ?_) (a := (cls, r)) ?_ s
    · exact Bool.eq_false_iff.mpr fun h => Bool.eq_false_iff.mp hj ((stopRing_facts P Q (fn / 2) u k).1.rings _ _ _ h)
    · refine List.mem_filter.mpr ⟨List.mem_flatMap.mpr ⟨(cls, if cls = 2 then 4 else 16), ?_, ?_⟩, ?_⟩
      · rcases (by omega : cls = 0 ∨ cls = 1 ∨ cls = 2) with rfl | rfl | rfl <;> simp
      · exact List.mem_map.mpr ⟨r, List.mem_range.mpr hr, rfl⟩
      · simp [hown, hen]

/-! ### Semaphores are freed -/

/-- What each element establishes under an invariant, and no element takes away, holds of every element at the end. -/
theorem foldl_establishes_of {σ α : Type} {f : σ → α → σ} {I : σ → Prop} {P : α → σ → Prop} {l : List α} {s : σ} (hs : I s)
    (hstep : ∀ u, I u → ∀ a ∈ l, I (f u a) ∧ P a (f u a)) (hkeep : ∀ u, I u → ∀ a ∈ l, ∀ b, P b u → P b (f u a)) {a : α}
    (ha : a ∈ l) : P a (l.foldl f s) := by
  induction l generalizing s with
  | nil => cases ha
  | cons b l ih =>
    have hb : b ∈ b :: l := List.mem_cons_self
    by_cases hl : a ∈ l
    · exact ih (hstep s hs b hb).1 (fun u hu c hc => hstep u hu c (List.mem_cons_of_mem b hc))
        (fun u hu c hc => hkeep u hu c (List.mem_cons_of_mem b hc)) hl
    · obtain rfl : a = b := (List.mem_cons.mp ha).resolve_right hl
      refine (List.foldlRecOn (motive := fun t => I t ∧ P a t) l f (hstep s hs a hb) fun t ht c hc => ?_).2
      exact ⟨(hstep t ht.1 c (List.mem_cons_of_mem a hc)).1, hkeep t ht.1 c (List.mem_cons_of_mem a hc) a ht.2⟩

theorem tget_eq_getD_tfind {α : Type} (d : α) (t : Table α) (i : Nat) : tget d t i = (tfind t i).getD d := by
  induction t with
  | nil => rfl
  | cons e r ih =>
    obtain ⟨k, v⟩ := e
    rw [tget, tfind]
    split
    · rfl
    · exact ih

/-- A semaphore that is freed. -/
theorem stopKept_logSem {P Q : Nat → Prop} {s : State} {n : Nat} (hsorted : tsorted s.host.sems = true)
    (hp : tget 0 s.host.sems n = 0 ∨ P (tget 0 s.host.sems n)) (owner req : Nat) :
    StopKept P Q s (logSem (freeSem s n) n owner req) ∧ tget 0 (logSem (freeSem s n) n owner req).host.sems n = 0 := by
  obtain ⟨log, fresh, h⟩ := rimLog_eq (freeSem s n) 0x23 true (le 1 n ++ le 1 owner ++ le 1 req)
  have hget (m : Nat) : tget 0 (freeSem s n).host.sems m = if m = n then 0 else tget 0 s.host.sems m :=
    tget_tput (d := 0) (x := 0) n m hsorted
  have hfree : tsorted (freeSem s n).host.sems = true := tsorted_tput (d := 0) n 0 hsorted
  rw [logSem, h]
  refine ⟨⟨rfl, rfl, fun _ _ => rfl, fun _ _ => rfl, fun _ _ => rfl, fun _ _ _ h => h, fun _ _ _ => rfl, fun _ _ h => h,
    fun _ h => h, fun m => ?_, fun _ => hfree⟩, (hget n).trans (if_pos rfl)⟩
  show tget 0 (freeSem s n).host.sems m = _ ∨ tget 0 (freeSem s n).host.sems m = 0 ∧ _
  rw [hget]
  by_cases hm : m = n
  · subst hm
    rw [if_pos rfl]
    exact hp.imp Eq.symm fun h => ⟨rfl, h⟩
  · exact .inl (if_neg hm)

/-- Every semaphore of the function is freed, and no other. -/
theorem stopSems_facts (Q : Nat → Prop) {s : State} (hsorted : tsorted s.host.sems = true) (fn : Nat) :
    StopKept (· = fn + 1) Q s (stopSems s fn) ∧ ∀ n, tget 0 s.host.sems n = fn + 1 → tget 0 (stopSems s fn).host.sems n = 0 := by
  have hstep (u : State) (hu : StopKept (· = fn + 1) Q s u)
      (n : Nat) (hn : n ∈ (s.host.sems.filter (fun e => e.2 == fn + 1)).map (·.1)) :
      StopKept (· = fn + 1) Q u (logSem (freeSem u n) n fn fn) ∧ tget 0 (logSem (freeSem u n) n fn fn).host.sems n = 0 := by
    obtain ⟨e, he, rfl⟩ := List.mem_map.mp hn
    obtain ⟨hmem, hown⟩ := List.mem_filter.mp he
    have hvalue : tget 0 s.host.sems e.1 = fn + 1 := by
      rw [tget_eq_getD_tfind, tfind_of_mem hsorted hmem]
      exact beq_iff_eq.mp hown
    refine stopKept_logSem (hu.sorted hsorted) ?_ fn fn
    rcases hu.sems e.1 with h | ⟨h, -⟩
    · exact .inr (h.trans hvalue)
    · exact .inl h
  have hall : StopKept (· = fn + 1) Q s (stopSems s fn) :=
    List.foldlRecOn (motive := fun t => StopKept (· = fn + 1) Q s t) _ _ (.refl s) fun u hu n hn => hu.trans (hstep u hu n hn).1
  refine ⟨hall, fun n hn => ?_⟩
  have hlisted : n ∈ (s.host.sems.filter (fun e => e.2 == fn + 1)).map (·.1) := by
    cases hfound : tfind s.host.sems n with
    | none => rw [tget_eq_getD_tfind, hfound] at hn; cases hn
    | some x =>
      rw [tget_eq_getD_tfind, hfound] at hn
      exact List.mem_map.mpr ⟨(n, x), List.mem_filter.mpr ⟨mem_of_tfind hfound, beq_iff_eq.mpr hn⟩, rfl⟩
  refine foldl_establishes_of (I := StopKept (· = fn + 1) Q s) (P := fun n t => tget 0 t.host.sems n = 0) (.refl s)
    (fun u hu a ha => ⟨hu.trans (hstep u hu a ha).1, (hstep u hu a ha).2⟩) (fun u hu a ha b hb => ?_) hlisted
  rcases (hstep u hu a ha).1.sems b with h | ⟨h, -⟩
  · exact h.trans hb
  · exact h

/-! ### Channels are disabled -/

theorem ChannelDisabled.stopKept {P Q : Nat → Prop} {s t : State} {ch : Nat} (h : ChannelDisabled ch s t) (hch : ch < 32) (hq : Q ch) :
    StopKept P Q s t := by
  have hcell (k : Nat) (hk : k ≠ ch) : chanOn t k = chanOn s k := by
    rw [chanOn, fld_of_regCell (h.cells _ _ (by rw [addr_dmaCtl, addr_dmaLast]; omega)
      (by rw [addr_dmaCtl, addr_dmaCtl]; omega))]
    rfl
  refine ⟨h.ports, h.rim, fun k hk => h.events _ (by rw [addr_hpEvent, addr_dmaEvent]; omega)
      (fun sl => by rw [addr_hpEvent, addr_crlEvent]; omega),
    fun k hk => h.cells _ _ (by rw [addr_hpRingOwn, addr_dmaLast]; omega) (by rw [addr_hpRingOwn, addr_dmaCtl]; omega),
    fun k hk => h.cells _ _ (by rw [addr_dmaOwn, addr_dmaLast]; omega) (by rw [addr_dmaOwn, addr_dmaCtl]; omega),
    fun hp cls r hen => (h.rings hp cls r).symm.trans hen, fun k _ hn => hcell k fun he => hn (he ▸ hq),
    fun k _ hoff => ?_, fun k hidle => ?_, fun n => .inl (by rw [h.sems]), fun hsorted => by rw [h.sems]; exact hsorted⟩
  · by_cases hk : k = ch
    · subst hk
      exact h.off
    · exact (hcell k hk).trans hoff
  · by_cases hk : k = ch
    · subst hk
      exact h.idle.state
    · obtain ⟨drops, tick, hother⟩ := h.others k hk
      rw [hother]
      exact hidle

/-- Every enabled channel of the function is disabled. -/
theorem stopChannels_facts (P : Nat → Prop) (s : State) {fn : Nat} (hfn : fn < 4) :
    StopKept P (fun ch => chanOwner s ch = fn) s (stopChannels s fn) ∧ ∀ ch, ch / 16 = fn / 2 → chanOwner s ch = fn →
      chanOn s ch = true → chanOn (stopChannels s fn) ch = false ∧ (chanAt (stopChannels s fn) ch).state = 0 := by
  have hmem {ch : Nat} (h : ch ∈ ((List.range 16).map (fun i => fn / 2 * 16 + i)).filter
      (fun ch => chanOwner s ch == fn && chanOn s ch)) : ch < 32 ∧ chanOwner s ch = fn := by
    obtain ⟨hrange, hown⟩ := List.mem_filter.mp h
    obtain ⟨i, hi, rfl⟩ := List.mem_map.mp hrange
    have hlt := List.mem_range.mp hi
    rw [Bool.and_eq_true, beq_iff_eq] at hown
    exact ⟨by omega, hown.1⟩
  have hstep (u : State) {ch : Nat} (h : ch ∈ ((List.range 16).map (fun i => fn / 2 * 16 + i)).filter
      (fun ch => chanOwner s ch == fn && chanOn s ch)) :
      StopKept P (fun ch => chanOwner s ch = fn) u (disableChannel u ch) :=
    (channelDisabled_disableChannel u ch).stopKept (hmem h).1 (hmem h).2
  refine ⟨.foldl (fun u ch h => hstep u h) s, fun ch hport hown hon => ?_⟩
  refine foldl_establishes_of (I := fun _ => True) (P := fun ch t => ch < 32 → chanOn t ch = false ∧ (chanAt t ch).state = 0) trivial
    (fun u _ a _ => ⟨trivial, fun _ => ⟨(channelDisabled_disableChannel u a).off, (channelDisabled_disableChannel u a).idle.state⟩⟩)
    (fun u _ a ha b hb hlt => ?_) ?_ (by omega)
  · obtain ⟨hoff, hidle⟩ := hb hlt
    exact ⟨(hstep u ha).chans b hlt hoff, (hstep u ha).idle b hidle⟩
  · refine List.mem_filter.mpr ⟨List.mem_map.mpr ⟨ch % 16, List.mem_range.mpr (by omega), by omega⟩, ?_⟩
    simp [hown, hon]

/-! ### A function stops -/

/-- What a function owned is gone. -/
structure FunctionStopped (fn : Nat) (s t : State) : Prop where
  rings : ∀ cls r, cls < 3 → r < (if cls = 2 then 4 else 16) → ringOwner s (fn / 2) cls r = fn → (ringAt t (fn / 2) cls r).en = false
  sems : ∀ n, tget 0 s.host.sems n = fn + 1 → tget 0 t.host.sems n = 0
  chans : ∀ ch, ch / 16 = fn / 2 → chanOwner s ch = fn → chanOn s ch = true → chanOn t ch = false ∧ (chanAt t ch).state = 0

namespace FunctionStopped

variable {fn : Nat} {P Q : Nat → Prop} {s t u : State}

/-- What has stopped stays stopped. -/
theorem later (h : FunctionStopped fn s t) (hfn : fn < 4) (hkept : StopKept P Q t u) : FunctionStopped fn s u := by
  refine ⟨fun cls r hcls hr hown => ?_, fun n hn => ?_, fun ch hport hown hon => ?_⟩
  · exact Bool.eq_false_iff.mpr fun hen => Bool.eq_false_iff.mp (h.rings cls r hcls hr hown) (hkept.rings _ _ _ hen)
  · rcases hkept.sems n with hsame | ⟨hfree, -⟩
    · exact hsame.trans (h.sems n hn)
    · exact hfree
  · obtain ⟨hoff, hidle⟩ := h.chans ch hport hown hon
    exact ⟨hkept.chans ch (by omega) hoff, hkept.idle ch hidle⟩

/-- A function stops as well after what is not its own has stopped. -/
theorem earlier (hkept : StopKept P Q s t) (h : FunctionStopped fn t u) (hfn : fn < 4) (hP : ¬ P (fn + 1))
    (hQ : ∀ ch, chanOwner s ch = fn → ¬ Q ch) : FunctionStopped fn s u := by
  refine ⟨fun cls r hcls hr hown => ?_, fun n hn => ?_, fun ch hport hown hon => ?_⟩
  · exact h.rings cls r hcls hr ((hkept.ringOwner (by omega) cls r).trans hown)
  · rcases hkept.sems n with hsame | ⟨-, hp⟩
    · exact h.sems n (hsame.trans hn)
    · exact absurd (hn ▸ hp) hP
  · exact h.chans ch hport ((hkept.chanOwner (by omega)).trans hown) ((hkept.ctl ch (by omega) (hQ ch hown)).trans hon)

end FunctionStopped

theorem stopKept_loseReplies (P Q : Nat → Prop) (s : State) (p : CmdHeader → Bool) : StopKept P Q s (loseReplies s p) :=
  .of_parts rfl rfl rfl rfl rfl fun _ _ _ h => h

/-- What a function owned is gone, and nothing of another function. -/
theorem functionStops_facts {s : State} (hsorted : tsorted s.host.sems = true) {fn : Nat} (hfn : fn < 4) :
    StopKept (· = fn + 1) (fun ch => chanOwner s ch = fn) s (functionStops s fn) ∧ FunctionStopped fn s (functionStops s fn) := by
  obtain ⟨hone, hrings⟩ := stopRings_facts (· = fn + 1) (fun _ => False) s fn
  have htwo := stopKept_loseReplies (· = fn + 1) (fun _ => False) (stopRings s fn) (fun h => h.fn == fn)
  have hlost := hone.trans htwo
  obtain ⟨hthree, hsems⟩ := stopSems_facts (fun _ => False) (hlost.sorted hsorted) fn
  have hfreed := hlost.trans hthree
  obtain ⟨hfour, hchans⟩ := stopChannels_facts (· = fn + 1)
    (stopSems (loseReplies (stopRings s fn) (fun h => h.fn == fn)) fn) hfn
  have hrest : StopKept (· = fn + 1) (fun ch => chanOwner s ch = fn) _ (functionStops s fn) :=
    hfour.mono (fun _ h => h) fun ch hch h => (hfreed.chanOwner hch).symm.trans h
  refine ⟨(hfreed.mono (fun _ h => h) fun _ _ h => h.elim).trans hrest, fun cls r hcls hr hown => ?_, fun n hn => ?_,
    fun ch hport hown hon => ?_⟩
  · refine Bool.eq_false_iff.mpr fun hen => Bool.eq_false_iff.mp (hrings cls r hcls hr hown) ?_
    exact htwo.rings _ _ _ (hthree.rings _ _ _ (hrest.rings _ _ _ hen))
  · have hfree : tget 0 (stopSems (loseReplies (stopRings s fn) (fun h => h.fn == fn)) fn).host.sems n = 0 := by
      rcases hlost.sems n with hsame | ⟨hfree, -⟩
      · exact hsems n (hsame.trans hn)
      · rcases hthree.sems n with h | ⟨h, -⟩
        · exact h.trans hfree
        · exact h
    rcases hrest.sems n with h | ⟨h, -⟩
    · exact h.trans hfree
    · exact h
  · exact hchans ch hport ((hfreed.chanOwner (by omega)).trans hown) ((hfreed.ctl ch (by omega) id).trans hon)

end Sys2Proof.Machine
end

