-- ==== Sys2Proof/Proofs/HostPorts.lean ====
section
/-! PROOF. Host ports, semaphores and rings (12/R366–R373, R390; 16/R487; 19/R527). -/

namespace Sys2Proof.Machine

/-! ### Links and resets -/

/-- Parts of the state beside hosts, channels and cells do not matter to what has stopped. -/
theorem FunctionStopped.of_parts {fn : Nat} {s t u : State} (h : FunctionStopped fn s t) (hhost : u.host = t.host)
    (hdma : u.dma = t.dma) (hcells : u.regs.cells = t.regs.cells) : FunctionStopped fn s u := by
  have hring (hp cls r : Nat) : ringAt u hp cls r = ringAt t hp cls r := by rw [ringAt, hhost]; rfl
  have hon (ch : Nat) : chanOn u ch = chanOn t ch := by rw [chanOn, fld_of_regCell (regCell_of_cells hcells ..)]; rfl
  have hchan (ch : Nat) : chanAt u ch = chanAt t ch := by rw [chanAt, hdma]; rfl
  refine ⟨fun cls r hcls hr hown => ?_, fun n hn => ?_, fun ch hport hown hon' => ?_⟩
  · rw [hring]
    exact h.rings cls r hcls hr hown
  · rw [hhost]
    exact h.sems n hn
  · rw [hon, hchan]
    exact h.chans ch hport hown hon'

/-- The event of a function's host is posted. -/
theorem hostEvent_facts (s : State) (kind hp fn : Nat) :
    StopKept (fun _ => False) (fun _ => False) s (hostEvent s kind hp fn) ∧ (hostEvent s kind hp fn).regs = s.regs := by
  unfold hostEvent
  split
  · exact ⟨.refl s, rfl⟩
  · obtain ⟨hports, hsems, -⟩ := postEvent_host s 9 (le 1 kind ++ le 1 fn ++ zeros 2)
    have hrings := (ringsKept_postEvent s 9 (le 1 kind ++ le 1 fn ++ zeros 2)).en
    obtain ⟨host, out, h⟩ := postEvent_eq s 9 (le 1 kind ++ le 1 fn ++ zeros 2)
    rw [h] at hports hsems hrings ⊢
    exact ⟨.of_parts hports hsems rfl rfl rfl fun hp' cls r hen => (hrings hp' cls r).symm.trans hen, rfl⟩

/-- A requester's pending request is discarded, and an update that it began. -/
theorem mailboxReset_facts (s : State) (fn : Nat) :
    ∃ rim, mailboxReset s fn = { s with rim := rim } ∧ (rim.boxes.getD fn ⟨false, false, 0⟩).busy = false ∧
      ∀ u, s.rim.update = some u → u.owner = fn → rim.update = none := by
  have hbox : ((setAt s.rim.boxes fn { s.rim.boxes.getD fn ⟨false, false, 0⟩ with busy := false }).getD fn
      ⟨false, false, 0⟩).busy = false := by
    rw [getD_setAt]
    split
    · rfl
    · next h => rw [List.getD_eq_getElem?_getD, List.getElem?_eq_none (by omega)]; rfl
  unfold mailboxReset
  extract_lets s1
  split
  · next u hu =>
    split
    · exact ⟨_, rfl, hbox, fun _ _ _ => rfl⟩
    · next hother => exact ⟨_, rfl, hbox, fun u' hu' how => absurd (Option.some.inj (hu'.symm.trans hu) ▸ how) hother⟩
  · next hnone => exact ⟨_, rfl, hbox, fun u' hu' _ => hu'.symm.trans hnone ▸ hnone⟩

/-- A function-level reset stops the function, discards its request and raises its flag. -/
theorem functionLevelReset_facts {s : State} (hsorted : tsorted s.host.sems = true) {fn : Nat} (hfn : fn < 4) :
    FunctionStopped fn s (functionLevelReset fn s) ∧
      (∀ n, tget 0 s.host.sems n ≠ fn + 1 → tget 0 (functionLevelReset fn s).host.sems n = tget 0 s.host.sems n) ∧
      ((functionLevelReset fn s).rim.boxes.getD fn ⟨false, false, 0⟩).busy = false ∧
      (∀ u, s.rim.update = some u → u.owner = fn → (functionLevelReset fn s).rim.update = none) ∧
      (functionLevelReset fn s).host.ports = s.host.ports ∧
      eventAt (functionLevelReset fn s) (RegName.addr .hpEvent [fn / 2]) =
        (eventAt s (RegName.addr .hpEvent [fn / 2])).raise [1 + fn % 2] := by
  obtain ⟨hkept, hstopped⟩ := functionStops_facts hsorted hfn
  obtain ⟨rim, hreset, hbox, hupdate⟩ := mailboxReset_facts (functionStops s fn) fn
  have hrun : functionLevelReset fn s = hostEvent (raiseEv { functionStops s fn with rim := rim } .hpEvent [fn / 2] [1 + fn % 2])
      1 (fn / 2) fn := by
    rw [← hreset]
    exact if_neg (by omega)
  obtain ⟨hposted, hregs⟩ := hostEvent_facts (raiseEv { functionStops s fn with rim := rim } .hpEvent [fn / 2] [1 + fn % 2])
    1 (fn / 2) fn
  rw [hrun]
  generalize functionStops s fn = u at *
  have hsems (n : Nat) : tget 0 (hostEvent (raiseEv { u with rim := rim } .hpEvent [fn / 2] [1 + fn % 2]) 1 (fn / 2) fn).host.sems n =
      tget 0 u.host.sems n := (hposted.sems n).resolve_right fun h => h.2
  refine ⟨?_, fun n hn => ?_, ?_, fun x hx how => ?_, hposted.ports.trans hkept.ports, ?_⟩
  · exact (hstopped.of_parts (u := raiseEv { u with rim := rim } .hpEvent [fn / 2] [1 + fn % 2]) rfl rfl rfl).later hfn hposted
  · rw [hsems]
    exact (hkept.sems n).resolve_right fun h => hn h.2
  · rw [hposted.rim]
    exact hbox
  · rw [hposted.rim]
    exact hupdate x (by rw [hkept.rim]; exact hx) how
  · rw [eventAt, hregs, ← hkept.events (fn / 2) (by omega)]
    exact (eventAt_raiseEv ..).trans (if_pos rfl)

/-- A lost link stops both functions of its port. -/
theorem linkLost_facts {s : State} (hports : s.host.ports.length = 2) (hsorted : tsorted s.host.sems = true) {hp : Nat} (hlt : hp < 2) :
    FunctionStopped (2 * hp) s (linkLost hp s) ∧ FunctionStopped (2 * hp + 1) s (linkLost hp s) ∧
      (∀ n, tget 0 s.host.sems n ≠ 2 * hp + 1 → tget 0 s.host.sems n ≠ 2 * hp + 2 →
        tget 0 (linkLost hp s).host.sems n = tget 0 s.host.sems n) ∧
      ((linkLost hp s).host.ports.getD hp HostPort.reset).up = false ∧ (linkLost hp s).rim = s.rim ∧
      eventAt (linkLost hp s) (RegName.addr .hpEvent [hp]) = (eventAt s (RegName.addr .hpEvent [hp])).raise [0] := by
  have hrun : linkLost hp s = hostEvent (raiseEv (functionStops (functionStops (modHost s hp (fun p => { p with up := false }))
      (hp * 2)) (hp * 2 + 1)) .hpEvent [hp] [0]) 2 hp (hp * 2) := if_neg (by omega)
  have hown : ((modHost s hp (fun p => { p with up := false })).host.ports.getD hp HostPort.reset).up = false := by
    show ((setAt s.host.ports hp { s.host.ports.getD hp HostPort.reset with up := false }).getD hp HostPort.reset).up = false
    rw [getD_setAt, if_pos ⟨rfl, by omega⟩]
  have hstart {fn : Nat} {t : State} (h : FunctionStopped fn (modHost s hp (fun p => { p with up := false })) t) :
      FunctionStopped fn s t := ⟨h.rings, h.sems, h.chans⟩
  rw [hrun, Nat.mul_comm hp 2]
  obtain ⟨hone, hfirst⟩ := functionStops_facts (s := modHost s hp (fun p => { p with up := false })) hsorted
    (fn := 2 * hp) (by omega)
  have hrim : (modHost s hp (fun p => { p with up := false })).rim = s.rim := rfl
  have hevents (off : Nat) : eventAt (modHost s hp (fun p => { p with up := false })) off = eventAt s off := rfl
  have hsems : (modHost s hp (fun p => { p with up := false })).host.sems = s.host.sems := rfl
  generalize modHost s hp (fun p => { p with up := false }) = s1 at *
  obtain ⟨htwo, hsecond⟩ := functionStops_facts (hone.sorted (by rw [hsems]; exact hsorted)) (fn := 2 * hp + 1) (by omega)
  generalize functionStops s1 (2 * hp) = s2 at *
  generalize functionStops s2 (2 * hp + 1) = s3 at *
  obtain ⟨hposted, hregs⟩ := hostEvent_facts (raiseEv s3 .hpEvent [hp] [0]) 2 hp (2 * hp)
  generalize hostEvent (raiseEv s3 .hpEvent [hp] [0]) 2 hp (2 * hp) = t at *
  have hlater {fn : Nat} (hfn : fn < 4) (h : FunctionStopped fn s1 s3) : FunctionStopped fn s t :=
    hstart ((h.of_parts (u := raiseEv s3 .hpEvent [hp] [0]) rfl rfl rfl).later hfn hposted)
  refine ⟨hlater (by omega) (hfirst.later (by omega) htwo), hlater (by omega) (.earlier hone hsecond (by omega) (by omega) ?_),
    fun n hn hn' => ?_, ?_, ?_, ?_⟩
  · intro ch h h'
    omega
  · rw [← hsems] at hn hn' ⊢
    have hlast : tget 0 t.host.sems n = tget 0 s3.host.sems n := (hposted.sems n).resolve_right fun h => h.2
    have hmid : tget 0 s2.host.sems n = tget 0 s1.host.sems n := (hone.sems n).resolve_right fun h => hn h.2
    rw [hlast, ← hmid]
    exact (htwo.sems n).resolve_right fun h => hn' (hmid ▸ h.2)
  · rw [hposted.ports]
    show (s3.host.ports.getD hp HostPort.reset).up = false
    rw [htwo.ports, hone.ports]
    exact hown
  · exact hposted.rim.trans (htwo.rim.trans (hone.rim.trans hrim))
  · rw [eventAt, hregs, ← hevents, ← hone.events hp hlt, ← htwo.events hp hlt]
    exact (eventAt_raiseEv ..).trans (if_pos rfl)

/-! ### Semaphores -/

/-- A read of one semaphore. -/
theorem semAnswer_facts {s : State} (hsorted : tsorted s.host.sems = true) (req : Requester) (n : Nat) :
    (∃ host, semAnswer s req n = { s with host := host, out := .readData req.id (0x102000 + 4 * n) (tget 0 s.host.sems n) :: s.out }) ∧
      (semAnswer s req n).host.lastSemOwner = req.id ∧
      (tget 0 s.host.sems n = 0 → tget 0 (semAnswer s req n).host.sems n = req.id + 1 ∧
        ∀ m, m ≠ n → tget 0 (semAnswer s req n).host.sems m = tget 0 s.host.sems m) ∧
      (tget 0 s.host.sems n ≠ 0 → (semAnswer s req n).host.sems = s.host.sems) := by
  by_cases hfree : tget 0 s.host.sems n = 0
  · have hread : readSem s req n = (0, { s with host := { s.host with
        sems := tput 0 s.host.sems n (req.id + 1), lastSemOwner := req.id } }) := if_pos hfree
    rw [semAnswer, hread]
    dsimp only [emit]
    refine ⟨⟨_, by rw [hfree]⟩, rfl, fun _ => ⟨?_, fun m hm => ?_⟩, fun h => absurd hfree h⟩
    · exact tget_tput_same (d := 0) hsorted
    · exact tget_tput_ne 0 s.host.sems (req.id + 1) hm
  · have hread : readSem s req n = (tget 0 s.host.sems n, { s with host := { s.host with lastSemOwner := req.id } }) := if_neg hfree
    rw [semAnswer, hread]
    exact ⟨⟨_, rfl⟩, rfl, fun h => absurd h hfree, fun _ => rfl⟩

theorem bit_of_lt {v : Nat} (h : v < 256) : bit v 8 = false := by
  rw [bit, show v / 2 ^ 8 = 0 by omega]
  rfl

theorem bit_of_forced {o : Nat} (h : o < 256) : bit (256 + o) 8 = true := by
  rw [bit, show (256 + o) / 2 ^ 8 = 1 by omega]
  rfl

/-- The owner's write frees a semaphore. -/
theorem writeSem_of_owner {s : State} {req : Requester} {n : Nat} (hown : tget 0 s.host.sems n = req.id + 1) (off : Nat) :
    writeSem s req off [n] req.id = freeSem { s with host := { s.host with lastSemOwner := req.id } } n :=
  if_pos ⟨by rw [show [n].getD 0 0 = n from rfl, hown]; omega, hown, rfl⟩

/-- A privileged FORCE that names the owner frees it, and is logged. -/
theorem writeSem_of_force {s : State} {req : Requester} {n o : Nat} (hown : tget 0 s.host.sems n = o + 1)
    (hpriv : Who.priv.permits req.id = true) (off : Nat) :
    writeSem s req off [n] (256 + o) =
      logSem (freeSem { s with host := { s.host with lastSemOwner := req.id } } n) n o req.id := by
  have hnum : [n].getD 0 0 = n := rfl
  unfold writeSem
  dsimp only
  rw [hnum, hown, if_neg (by omega), if_pos ⟨by omega, by omega, hpriv⟩]
  rfl

/-! ### Rings -/

/-- Rings of other places are other rings. -/
theorem ringId_inj {hp cls r hp' cls' r' : Nat} (hcls : cls < 3) (hr : r < 16) (hcls' : cls' < 3) (hr' : r' < 16)
    (h : ringId hp' cls' r' = ringId hp cls r) : (hp', cls', r') = (hp, cls, r) := by
  unfold ringId at h
  obtain ⟨rfl, rfl, rfl⟩ : hp' = hp ∧ cls' = cls ∧ r' = r := by omega
  rfl

/-- A ring that is set is the one ring that changes. -/
theorem ringAt_setRing_places (s : State) {hp cls r : Nat} (hcls : cls < 3) (hr : r < 16) (x : Ring) :
    ringAt (setRing s hp cls r x) hp cls r = x ∧ ∀ h c m, c < 3 → m < 16 → (h, c, m) ≠ (hp, cls, r) →
      ringAt (setRing s hp cls r x) h c m = ringAt s h c m :=
  ⟨(ringAt_setRing ..).trans (if_pos rfl), fun _ _ _ hc hm hne =>
    (ringAt_setRing ..).trans (if_neg fun hid => hne (ringId_inj hcls hr hc hm hid))⟩

theorem ringAt_of_rings {s t : State} (h : t.host.rings = s.host.rings) (hp cls r : Nat) : ringAt t hp cls r = ringAt s hp cls r := by
  rw [ringAt, h]
  rfl

/-- Classes of ring registers. -/
theorem ringClass_ringCfg {cls : Nat} (h : cls < 3) : ringClass (ringCfg cls) = cls := by
  rcases (by omega : cls = 0 ∨ cls = 1 ∨ cls = 2) with rfl | rfl | rfl <;> rfl

theorem ringCfg_mem (cls : Nat) : [RegName.crCfg, .rrCfg, .erCfg].contains (ringCfg cls) = true := by
  match cls with
  | 0 => rfl
  | 1 => rfl
  | _ + 2 => rfl

/-- A write of RING_CFG leaves a ring's setup registers. -/
theorem ringSetup_landWrite (s : State) {cls : Nat} (hcls : cls < 3) (hp n v : Nat) :
    ringSetup (landWrite s (ringCfg cls) [hp, n] v) cls [hp, n] = ringSetup s cls [hp, n] := by
  have hkept (r : RegName) (h : r.addr [hp, n] ≠ (ringCfg cls).addr [hp, n]) :
      inForce (landWrite s (ringCfg cls) [hp, n] v) r [hp, n] = inForce s r [hp, n] := inForce_landWrite_ne _ _ _ _ _ _ h
  rcases (by omega : cls = 0 ∨ cls = 1 ∨ cls = 2) with rfl | rfl | rfl
  · simp only [ringSetup]
    rw [hkept _ (by simp [RegName.addr, RegName.desc, ringCfg]), hkept _ (by simp [RegName.addr, RegName.desc, ringCfg]),
      hkept _ (by simp [RegName.addr, RegName.desc, ringCfg]), hkept _ (by simp [RegName.addr, RegName.desc, ringCfg])]
  · simp only [ringSetup]
    rw [hkept _ (by simp [RegName.addr, RegName.desc, ringCfg]), hkept _ (by simp [RegName.addr, RegName.desc, ringCfg]),
      hkept _ (by simp [RegName.addr, RegName.desc, ringCfg]), hkept _ (by simp [RegName.addr, RegName.desc, ringCfg])]
  · simp only [ringSetup]
    rw [hkept _ (by simp [RegName.addr, RegName.desc, ringCfg]), hkept _ (by simp [RegName.addr, RegName.desc, ringCfg]),
      hkept _ (by simp [RegName.addr, RegName.desc, ringCfg]), hkept _ (by simp [RegName.addr, RegName.desc, ringCfg])]

/-- What EN of a write of RING_CFG does. -/
def ringTurn (s : State) (cls hp n v : Nat) : State :=
  let was := (ringAt s hp cls n).en
  let t := landWrite s (ringCfg cls) [hp, n] v
  if !was && bit v 31 then enableRing t cls [hp, n] else if was && !bit v 31 then disableRing t cls [hp, n] else t

/-- What RESTART of a write of RING_CFG does. -/
def ringRestarts (s : State) (cls hp n v : Nat) : State :=
  let g := ringAt s hp cls n
  if cls = 0 ∧ bit v 30 ∧ g.en ∧ g.halted then setRing s hp cls n { g with halted := false, cause := 0 } else s

/-- A write of RING_CFG whose size stands where the ring stays enabled. -/
theorem writeRingCfg_eq {s : State} {cls hp n v : Nat} (hcls : cls < 3)
    (hsize : (ringAt s hp cls n).en = true → bit v 31 = true → bits v 24 20 = fld s (ringCfg cls) [hp, n] 24 20)
    (req : Requester) (off : Nat) :
    writeRingCfg s req off (ringCfg cls) [hp, n] v = ringRestarts (ringTurn s cls hp n v) cls hp n v := by
  unfold writeRingCfg
  extract_lets c hp' n' was keep s1 s2 s3 g
  have hc : c = cls := ringClass_ringCfg hcls
  have hwas : was = (ringAt s hp cls n).en := by unfold was; rw [hc]; rfl
  have hkeep : keep = false := by
    unfold keep
    rw [hwas]
    cases hon : (ringAt s hp cls n).en <;> cases hen : bit v 31 <;> simp_all
  have hs1 : s1 = landWrite s (ringCfg cls) [hp, n] v := by unfold s1; rw [hkeep]; rfl
  have hs2 : s2 = landWrite s (ringCfg cls) [hp, n] v := by unfold s2; rw [hkeep]; exact hs1
  have hs3 : s3 = ringTurn s cls hp n v := by unfold s3; rw [hwas, hs2, hc]; rfl
  unfold g
  rw [hs3, hc]
  rfl

theorem ringRestarts_of_stays {s : State} {cls hp n v : Nat} (h : bit v 30 = false ∨ (ringAt s hp cls n).en = false) :
    ringRestarts s cls hp n v = s :=
  if_neg fun ⟨_, hrestart, hen, _⟩ => h.elim (Bool.eq_false_iff.mp · hrestart) (Bool.eq_false_iff.mp · hen)

/-- The device's own index of a ring is written back where zeroing changes it. -/
def indexWritten (s : State) (cls hp n : Nat) : State :=
  if (if cls = 0 then (ringAt s hp cls n).ci else (ringAt s hp cls n).pi) = 0 then s
  else emit s (.hostWrite hp (ringSetup s cls [hp, n]).2 (le 4 0))

theorem indexWritten_facts (s : State) (cls hp n : Nat) :
    ∃ out, indexWritten s cls hp n = { s with out := out } ∧
      out = if (if cls = 0 then (ringAt s hp cls n).ci else (ringAt s hp cls n).pi) = 0 then s.out
        else .hostWrite hp (ringSetup s cls [hp, n]).2 (le 4 0) :: s.out := by
  unfold indexWritten
  by_cases h : (if cls = 0 then (ringAt s hp cls n).ci else (ringAt s hp cls n).pi) = 0
  · rw [if_pos h, if_pos h]
    exact ⟨_, rfl, rfl⟩
  · rw [if_neg h, if_neg h]
    exact ⟨_, rfl, rfl⟩

/-- A ring that is enabled takes its setup, its indices zero. -/
theorem enableRing_facts {s : State} {cls hp n : Nat} (hcls : cls < 3) (hn : n < 16) :
    (∃ host out, enableRing s cls [hp, n] = { s with host := host, out := out }) ∧
      (enableRing s cls [hp, n]).out = (if (if cls = 0 then (ringAt s hp cls n).ci else (ringAt s hp cls n).pi) = 0 then s.out
        else .hostWrite hp (ringSetup s cls [hp, n]).2 (le 4 0) :: s.out) ∧
      ringAt (enableRing s cls [hp, n]) hp cls n = ⟨true, (ringSetup s cls [hp, n]).1, (ringSetup s cls [hp, n]).2,
        min 16 (max (ringLow cls) (fld s (ringCfg cls) [hp, n] 24 20)), 0, 0, false, 0, 0, 0, (ringAt s hp cls n).drops⟩ ∧
      ∀ h c m, c < 3 → m < 16 → (h, c, m) ≠ (hp, cls, n) → ringAt (enableRing s cls [hp, n]) h c m = ringAt s h c m := by
  have hrun : enableRing s cls [hp, n] = setRing (indexWritten s cls hp n) hp cls n ⟨true, (ringSetup s cls [hp, n]).1,
      (ringSetup s cls [hp, n]).2, min 16 (max (ringLow cls) (fld s (ringCfg cls) [hp, n] 24 20)), 0, 0, false, 0, 0, 0,
      (ringAt s hp cls n).drops⟩ := rfl
  obtain ⟨out, hwritten, hout⟩ := indexWritten_facts s cls hp n
  obtain ⟨hown, hothers⟩ := ringAt_setRing_places (indexWritten s cls hp n) (hp := hp) hcls hn ⟨true, (ringSetup s cls [hp, n]).1,
    (ringSetup s cls [hp, n]).2, min 16 (max (ringLow cls) (fld s (ringCfg cls) [hp, n] 24 20)), 0, 0, false, 0, 0, 0,
    (ringAt s hp cls n).drops⟩
  rw [hrun]
  refine ⟨⟨_, _, by rw [hwritten]; rfl⟩, by rw [hwritten, ← hout]; rfl, hown, fun h c m hc hm hne => ?_⟩
  rw [hothers h c m hc hm hne, hwritten]
  rfl

theorem regs_enableRing (s : State) (cls hp n : Nat) : (enableRing s cls [hp, n]).regs = s.regs := by
  obtain ⟨out, hwritten, -⟩ := indexWritten_facts s cls hp n
  show (indexWritten s cls hp n).regs = s.regs
  rw [hwritten]

/-- Settles O56: functions stop in stages of which each keeps what the others have stopped; a register write changes one ring. -/
theorem hostCommands : Obligations.HostCommands := by
  intro s hparts hsorted owns stopped
  obtain ⟨-, -, -, hports, -⟩ := hparts
  have hstopped {fn : Nat} {t : State} (h : FunctionStopped fn s t) : stopped t fn :=
    ⟨fun cls r ⟨hcls, hr, hown⟩ => h.rings cls r hcls hr hown, h.sems, h.chans⟩
  refine ⟨fun hp gen width hlt hstarted => ?_, fun fn hfn => ?_, fun hp hlt => ?_, fun req off n hup hlocate => ?_,
    fun req n o hreach hown hlt => ⟨?_, fun hpriv => ?_⟩, ?_⟩
  · exact congrArg Host.Outcome.next (if_neg (by simp [hstarted, hlt]))
  · obtain ⟨hfn', hothers, hbox, hupdate, hkept, hevent⟩ := functionLevelReset_facts hsorted hfn
    exact ⟨_, rfl, hstopped hfn', hothers, hbox, hupdate, hkept, hevent⟩
  · obtain ⟨hone, htwo, hothers, hdown, hrim, hevent⟩ := linkLost_facts hports hsorted hlt
    exact ⟨⟨_, rfl, hstopped hone, hstopped htwo, hothers, hdown, hrim, hevent⟩,
      fun hup => ⟨_, congrArg Host.Outcome.next (if_pos hup), hstopped hone, hstopped htwo, hothers, hdown, hrim, hevent⟩⟩
  · obtain ⟨⟨host, hread⟩, hlast, hfree, hheld⟩ := semAnswer_facts hsorted req n
    have hrun : semaphoreAcquire req off false s = semAnswer s req n := by
      unfold semaphoreAcquire
      rw [hup, hlocate]
      rfl
    exact ⟨_, congrArg Host.Outcome.next hrun, ⟨host, by rw [hread]⟩, by rw [hread], hlast, hfree, hheld⟩
  · rintro rfl
    have hrun := writeSem_of_owner hown (RegName.addr .sem [n])
    refine ⟨_, congrArg Host.Outcome.next ((guarded_ok hreach (by decide)).trans
      ((if_neg (by simp [bit_of_lt hlt])).trans hrun)), ⟨_, rfl⟩, ?_, fun m hm => ?_⟩
    · exact tget_tput_same (d := 0) (i := n) (x := 0) hsorted
    · exact tget_tput_ne 0 s.host.sems 0 hm
  · have hrun := writeSem_of_force hown hpriv (RegName.addr .sem [n])
    have hnext := next_rimLog (freeSem { s with host := { s.host with lastSemOwner := req.id } } n) 0x23 true
      (le 1 n ++ le 1 o ++ le 1 req.id)
    obtain ⟨log, fresh, hlog⟩ := rimLog_eq (freeSem { s with host := { s.host with lastSemOwner := req.id } } n) 0x23 true
      (le 1 n ++ le 1 o ++ le 1 req.id)
    rw [hlog] at hnext
    refine ⟨_, tput 0 s.host.sems n 0, fresh, log, congrArg Host.Outcome.next ((guarded_ok hreach (by decide)).trans
      ((if_pos (bit_of_forced hlt)).trans (hrun.trans hlog))), rfl, hnext, ?_, fun m hm => ?_⟩
    · exact tget_tput_same (d := 0) hsorted
    · exact tget_tput_ne 0 s.host.sems 0 hm
  · intro req v hp n cls hv hcls hn ring others cfg ix
    refine ⟨?_, fun r hr hreach => ?_, fun hreach => ⟨fun hoff hen hrestart => ?_, fun hon hen => ?_, ?_⟩⟩
    · rintro rfl hreach
      obtain ⟨hown, hothers⟩ := ringAt_setRing_places s (hp := hp) hcls hn { ringAt s hp 0 n with pi := v }
      have hrun : writeCrPi s [hp, n] v = setRing s hp 0 n { ringAt s hp 0 n with pi := v } := by
        rw [writeCrPi, wrap, Nat.mod_eq_of_lt hv]
        rfl
      exact ⟨_, congrArg Host.Outcome.next ((guarded_ok hreach (by decide)).trans hrun), ⟨_, rfl⟩, hown, hothers⟩
    · obtain ⟨hown, hothers⟩ := ringAt_setRing_places s (hp := hp) hcls hn { ringAt s hp cls n with ci := v }
      have hrun : writeRingCi s cls [hp, n] v = setRing s hp cls n { ringAt s hp cls n with ci := v } := by
        rw [writeRingCi, wrap, Nat.mod_eq_of_lt hv]
        rfl
      have hclass : ringClass r = cls ∧ [RegName.rrCi, .erCi].contains r = true := by
        rcases hr with ⟨rfl, rfl⟩ | ⟨rfl, rfl⟩ <;> exact ⟨rfl, rfl⟩
      exact ⟨_, congrArg Host.Outcome.next ((guarded_ok hreach hclass.2).trans (by rw [hclass.1]; exact hrun)), ⟨_, rfl⟩, hown, hothers⟩
    · have hturn : ringTurn s cls hp n v = enableRing (landWrite s (ringCfg cls) [hp, n] v) cls [hp, n] := by
        rw [ringTurn, hoff, hen]
        rfl
      have hrun := writeRingCfg_eq (s := s) (hp := hp) (n := n) (v := v) hcls (fun h => absurd h (Bool.eq_false_iff.mp hoff)) req cfg
      rw [hturn, ringRestarts_of_stays (.inl hrestart)] at hrun
      obtain ⟨⟨host, out, hset⟩, hout, hown, hothers⟩ := enableRing_facts (s := landWrite s (ringCfg cls) [hp, n] v) (hp := hp) hcls hn
      rw [ringSetup_landWrite s hcls] at hout hown
      refine ⟨_, congrArg Host.Outcome.next ((guarded_ok hreach (ringCfg_mem cls)).trans
        ((if_pos (by rw [hen, hrestart]; rfl)).trans hrun)), ⟨_, host, out, by rw [hset]; rfl⟩, hout, ?_, hothers⟩
      have hlog2 : fld (enableRing (landWrite s (ringCfg cls) [hp, n] v) cls [hp, n]) (ringCfg cls) [hp, n] 24 20 =
          fld (landWrite s (ringCfg cls) [hp, n] v) (ringCfg cls) [hp, n] 24 20 :=
        fld_of_regCell (regCell_of_cells (by rw [regs_enableRing]) ..) ..
      rw [show ix = [hp, n] from rfl, hlog2]
      exact hown
    · have hturn : ringTurn s cls hp n v = disableRing (landWrite s (ringCfg cls) [hp, n] v) cls [hp, n] := by
        rw [ringTurn, show (ringAt s hp cls n).en = true from hon, hen]
        rfl
      obtain ⟨sched, chain, rules, counters, replies, hset, hkept, hlost⟩ :=
        disableRing_facts (landWrite s (ringCfg cls) [hp, n] v) cls hp n
      obtain ⟨hown, hothers⟩ := ringAt_setRing_places (landWrite s (ringCfg cls) [hp, n] v) (hp := hp) hcls hn
        { ringAt s hp cls n with en := false }
      have hring (h c m : Nat) : ringAt (disableRing (landWrite s (ringCfg cls) [hp, n] v) cls [hp, n]) h c m =
          ringAt (setRing (landWrite s (ringCfg cls) [hp, n] v) hp cls n { ringAt s hp cls n with en := false }) h c m :=
        ringAt_of_rings (by rw [hset]; rfl) h c m
      have hrun := writeRingCfg_eq (s := s) (hp := hp) (n := n) (v := v) hcls (fun _ h => absurd h (Bool.eq_false_iff.mp hen)) req cfg
      rw [hturn, ringRestarts_of_stays (.inr (by rw [hring, hown]))] at hrun
      refine ⟨_, congrArg Host.Outcome.next ((guarded_ok hreach (ringCfg_mem cls)).trans
        ((if_neg (Bool.eq_false_iff.mp hen)).trans hrun)), (hring ..).trans hown,
        fun h c m hc hm hne => (hring ..).trans (hothers h c m hc hm hne), fun hcls' => ?_, fun hcls' r hr => ?_⟩
      · rw [hset]
        exact hkept hcls'
      · rw [hset] at hr
        exact hlost hcls' r hr
    · rintro rfl hon hhalted hen hrestart hsize
      have hturn : ringTurn s 0 hp n v = landWrite s .crCfg [hp, n] v := by
        rw [ringTurn, show (ringAt s hp 0 n).en = true from hon, hen]
        rfl
      have hrun := writeRingCfg_eq (s := s) (hp := hp) (n := n) (v := v) hcls (fun _ _ => hsize) req cfg
      have hgo : ringRestarts (landWrite s .crCfg [hp, n] v) 0 hp n v =
          setRing (landWrite s .crCfg [hp, n] v) hp 0 n { ringAt s hp 0 n with halted := false, cause := 0 } :=
        if_pos ⟨rfl, hrestart, hon, hhalted⟩
      rw [hturn, hgo] at hrun
      obtain ⟨hown, hothers⟩ := ringAt_setRing_places (landWrite s .crCfg [hp, n] v) (hp := hp) hcls hn
        { ringAt s hp 0 n with halted := false, cause := 0 }
      exact ⟨_, congrArg Host.Outcome.next ((guarded_ok hreach (ringCfg_mem 0)).trans ((if_pos hrestart).trans hrun)),
        ⟨_, _, rfl⟩, hown, hothers⟩

end Sys2Proof.Machine
end

