-- ==== Sys2Proof/Proofs/ChannelWrites.lean ====
section
/-! PROOF. Writes of DMA_CTL: enabling, starting, resuming, kicking and disabling a channel (14/R428–R433). -/

namespace Sys2Proof.Machine

/-! ### Orders of a write -/

/-- What EN of a write of DMA_CTL does. -/
def dmaTurn (s : State) (ch v : Nat) : State :=
  let t := landWrite s .dmaCtl [ch] v
  if !chanOn s ch && bit v 31 then modChan t ch (fun c => { c with state := 1 })
  else if chanOn s ch && !bit v 31 then disableChannel t ch else t

/-- What CQ_EN of a write does, where it was `cq`. -/
def queueTurn (s : State) (ch v cq : Nat) : State := if cq = 0 ∧ bit v 25 then takeQueue s ch else s

/-- What START, RESUME and KICK of a write do. -/
def dmaOrders (s : State) (ch v : Nat) : State :=
  let s := if bit v 31 && bit v 30 then chanStart s ch else s
  let s := if bit v 31 && bit v 29 then chanResume s ch else s
  if bit v 31 && bit v 28 then chanKick s ch else s

/-- A write of DMA_CTL whose mode stands where the channel stays enabled. -/
theorem writeDmaCtl_eq {s : State} {ch v : Nat} (hmode : chanOn s ch = true → bits v 27 26 = fld s .dmaCtl [ch] 27 26)
    (req : Requester) (off : Nat) : writeDmaCtl s req off [ch] v =
      dmaOrders (chanRelease (queueTurn (dmaTurn s ch v) ch v (fld s .dmaCtl [ch] 25 25)) ch) ch v := by
  unfold writeDmaCtl
  extract_lets k was cq keep s1 s2 s3 s4 s5 s6 s7
  have hkeep : keep = false := by
    unfold keep
    cases hon : was with
    | false => rfl
    | true => simp [hmode hon, k]
  have hs1 : s1 = landWrite s .dmaCtl [ch] v := by unfold s1; rw [hkeep]; rfl
  have hs2 : s2 = landWrite s .dmaCtl [ch] v := by unfold s2; rw [hkeep]; exact hs1
  have hs3 : s3 = dmaTurn s ch v := by unfold s3; rw [hs2]; rfl
  unfold s7 s6 s5 s4
  rw [hs3]
  rfl

theorem bit_of_orders {v : Nat} : (bits v 30 28 = 0 → bit v 30 = false ∧ bit v 29 = false ∧ bit v 28 = false) ∧
    (bits v 30 28 = 4 → bit v 30 = true ∧ bit v 29 = false ∧ bit v 28 = false) ∧
    (bits v 30 28 = 2 → bit v 30 = false ∧ bit v 29 = true ∧ bit v 28 = false) ∧
    (bits v 30 28 = 1 → bit v 30 = false ∧ bit v 29 = false ∧ bit v 28 = true) := by
  simp only [bits, bit, beq_iff_eq, beq_eq_false_iff_ne]
  omega

theorem dmaOrders_of_none {s : State} {ch v : Nat} (h : bits v 30 28 = 0 ∨ bit v 31 = false) : dmaOrders s ch v = s := by
  unfold dmaOrders
  rcases h with h | h
  · obtain ⟨h30, h29, h28⟩ := bit_of_orders.1 h
    simp [h30, h29, h28]
  · simp [h]

theorem chanRelease_of_none {s : State} {ch : Nat} (h : (chanAt s ch).held = none) : chanRelease s ch = s := by
  unfold chanRelease
  rw [h]

theorem queueTurn_of_stays {s : State} {ch v cq : Nat} (h : bit v 25 = true → cq = 1) : queueTurn s ch v cq = s :=
  if_neg fun ⟨hcq, hbit⟩ => absurd ((h hbit).symm.trans hcq) Nat.one_ne_zero

theorem fld_dmaCtl_landWrite (s : State) (ch v : Nat) : fld (landWrite s .dmaCtl [ch] v) .dmaCtl [ch] 31 31 = bits v 31 31 :=
  fld_landWrite_same s [ch] v (by decide) (by decide +kernel) (by decide +kernel)

theorem chanOn_landWrite {s : State} {ch v : Nat} (h : bit v 31 = true) : chanOn (landWrite s .dmaCtl [ch] v) ch = true := by
  rw [chanOn, fld_dmaCtl_landWrite, bits_of_bit h]
  rfl

/-- The other registers of a channel keep their values in a write of DMA_CTL. -/
theorem inForce_dmaCtl_landWrite (s : State) (ch v : Nat) {r : RegName} (hdims : r.desc.dims = RegName.dmaCtl.desc.dims)
    (hbase : r.desc.base ≠ RegName.dmaCtl.desc.base) : inForce (landWrite s .dmaCtl [ch] v) r [ch] = inForce s r [ch] :=
  inForce_landWrite_ne _ _ _ _ _ _ fun h => hbase (Nat.add_right_cancel (by rwa [RegName.addr, RegName.addr, hdims] at h))

/-- A write that gives an enabled channel only orders, or the queue's setup. -/
theorem writeDmaCtl_of_on {s : State} {ch v : Nat} (hmode : bits v 27 26 = fld s .dmaCtl [ch] 27 26) (hon : chanOn s ch = true)
    (hen : bit v 31 = true) (hqueue : bit v 25 = true → fld s .dmaCtl [ch] 25 25 = 1) (hheld : (chanAt s ch).held = none)
    (req : Requester) (off : Nat) : writeDmaCtl s req off [ch] v = dmaOrders (landWrite s .dmaCtl [ch] v) ch v := by
  have hturn : dmaTurn s ch v = landWrite s .dmaCtl [ch] v := by
    rw [dmaTurn, hon, hen]
    rfl
  have hnone : chanRelease (landWrite s .dmaCtl [ch] v) ch = landWrite s .dmaCtl [ch] v := chanRelease_of_none hheld
  rw [writeDmaCtl_eq (fun _ => hmode), hturn, queueTurn_of_stays hqueue, hnone]

theorem dmaOrders_start {s : State} {ch v : Nat} (hen : bit v 31 = true) (h : bits v 30 28 = 4) :
    dmaOrders s ch v = chanStart s ch := by
  obtain ⟨h30, h29, h28⟩ := bit_of_orders.2.1 h
  rw [dmaOrders, hen, h30, h29, h28]
  rfl

theorem dmaOrders_resume {s : State} {ch v : Nat} (hen : bit v 31 = true) (h : bits v 30 28 = 2) :
    dmaOrders s ch v = chanResume s ch := by
  obtain ⟨h30, h29, h28⟩ := bit_of_orders.2.2.1 h
  rw [dmaOrders, hen, h30, h29, h28]
  rfl

theorem dmaOrders_kick {s : State} {ch v : Nat} (hen : bit v 31 = true) (h : bits v 30 28 = 1) :
    dmaOrders s ch v = chanKick s ch := by
  obtain ⟨h30, h29, h28⟩ := bit_of_orders.2.2.2 h
  rw [dmaOrders, hen, h30, h29, h28]
  rfl

/-! ### One channel -/

/-- Only one channel changes, and what leaves the device is added to. -/
structure ChanAlone (ch : Nat) (s t : State) : Prop where
  footprint : ∃ out dma, t = { s with out := out, dma := dma }
  others : ∀ k, k ≠ ch → chanAt t k = chanAt s k
  out : s.out <:+ t.out

namespace ChanAlone

variable {ch : Nat} {s t u : State}

theorem refl (s : State) : ChanAlone ch s s := ⟨⟨_, _, rfl⟩, fun _ _ => rfl, List.suffix_rfl⟩

theorem trans (a : ChanAlone ch s t) (b : ChanAlone ch t u) : ChanAlone ch s u := by
  obtain ⟨out, dma, rfl⟩ := a.footprint
  obtain ⟨out', dma', h⟩ := b.footprint
  exact ⟨⟨out', dma', h⟩, fun k hk => (b.others k hk).trans (a.others k hk), a.out.trans b.out⟩

theorem modChan (s : State) (ch : Nat) (f : DmaChannel → DmaChannel) : ChanAlone ch s (modChan s ch f) :=
  ⟨⟨s.out, _, rfl⟩, fun k hk => (chanAt_modChan s ch k f).trans (if_neg hk), List.suffix_rfl⟩

theorem emit (s : State) (o : Output) : ChanAlone ch s (emit s o) := ⟨⟨_, s.dma, rfl⟩, fun _ _ => rfl, List.suffix_cons ..⟩

theorem regs (h : ChanAlone ch s t) : t.regs = s.regs := by obtain ⟨out, dma, rfl⟩ := h.footprint; rfl

theorem power (h : ChanAlone ch s t) : t.power = s.power := by obtain ⟨out, dma, rfl⟩ := h.footprint; rfl

end ChanAlone

theorem chanAt_modChan_same (s : State) (ch : Nat) (f : DmaChannel → DmaChannel) : chanAt (modChan s ch f) ch = f (chanAt s ch) :=
  (chanAt_modChan s ch ch f).trans (if_pos rfl)

theorem chanAlone_chanRecord (s : State) (ch : Nat) (h : HeldRecord) : ChanAlone ch s (chanRecord s ch h) := by
  unfold chanRecord
  extract_lets c pi slot index s1 s2 s3
  have hrecord : ChanAlone ch s s1 := by
    unfold s1
    split
    · exact ((ChanAlone.emit ..).trans (.emit ..)).trans (.modChan ..)
    · exact .refl s
  have hvector : ChanAlone ch s1 s2 := by
    unfold s2
    split
    · exact .emit ..
    · exact .refl _
  have hfreed : ChanAlone ch s s3 := (hrecord.trans hvector).trans (.modChan ..)
  split
  · exact hfreed
  · exact hfreed.trans (.modChan ..)

theorem chanAlone_chanAnswer (s : State) (ch : Nat) (h : HeldRecord) : ChanAlone ch s (chanAnswer s ch h) := by
  unfold chanAnswer
  extract_lets c
  split
  · exact .modChan ..
  · exact chanAlone_chanRecord ..

theorem chanAlone_writeBack (s : State) (ch : Nat) (d : Descriptor) (done status : Nat) :
    ChanAlone ch s (writeBack s ch d done status) := (ChanAlone.emit ..).trans (.emit ..)

theorem chanAlone_descDone (s : State) (ch : Nat) (d : Descriptor) (done status : Nat) :
    ChanAlone ch s (descDone s ch d done status) :=
  ((chanAlone_writeBack ..).trans (.modChan ..)).trans (chanAlone_chanAnswer ..)

/-- The record of a halt leaves the channel's state, status and descriptor. -/
theorem chanAt_chanRecord_of_halt (s : State) (ch : Nat) {h : HeldRecord} (hhalt : h.halt = true) :
    ∃ pi, chanAt (chanRecord s ch h) ch = { chanAt s ch with cqPi := pi, held := none } := by
  unfold chanRecord
  extract_lets c pi slot index s1 s2 s3
  have hrecord : ∃ pi, chanAt s1 ch = { chanAt s ch with cqPi := pi } := by
    unfold s1
    split
    · exact ⟨_, chanAt_modChan_same ..⟩
    · exact ⟨_, rfl⟩
  have hvector : chanAt s2 ch = chanAt s1 ch := by unfold s2; split <;> rfl
  obtain ⟨n, hrecord⟩ := hrecord
  rw [if_pos hhalt]
  refine ⟨n, (chanAt_modChan_same ..).trans ?_⟩
  rw [hvector, hrecord]

/-- The same with its record held back. -/
theorem chanAt_chanAnswer_of_halt (s : State) (ch : Nat) {h : HeldRecord} (hhalt : h.halt = true) :
    ∃ pi held, chanAt (chanAnswer s ch h) ch = { chanAt s ch with cqPi := pi, held := held } := by
  unfold chanAnswer
  extract_lets c
  split
  · exact ⟨_, _, chanAt_modChan_same ..⟩
  · obtain ⟨pi, h⟩ := chanAt_chanRecord_of_halt s ch hhalt
    exact ⟨pi, none, h⟩

/-- A channel halts: its state and status, no descriptor in progress, its event flag. -/
theorem chanHalt_facts (s : State) (ch status : Nat) (int : Bool) (wb : Option (Descriptor × Nat)) :
    (chanAt (chanHalt s ch status int wb) ch).state = 4 ∧ (chanAt (chanHalt s ch status int wb) ch).status = status ∧
      (chanAt (chanHalt s ch status int wb) ch).doing = none ∧
      (∀ k, k ≠ ch → chanAt (chanHalt s ch status int wb) k = chanAt s k) ∧
      eventAt (chanHalt s ch status int wb) (RegName.addr .dmaEvent []) = (eventAt s (RegName.addr .dmaEvent [])).raise [0] ∧
      (chanHalt s ch status int wb).power = s.power := by
  unfold chanHalt
  extract_lets s1 s2 s3 c s4
  have hback : ChanAlone ch s s2 := by
    have hone : ChanAlone ch s s1 := by
      unfold s1
      split
      · exact chanAlone_writeBack ..
      · exact .refl s
    exact hone.trans (.modChan ..)
  have hhalted : (chanAt s2 ch).state = 4 ∧ (chanAt s2 ch).status = status ∧ (chanAt s2 ch).doing = none := by
    unfold s2
    rw [chanAt_modChan_same]
    exact ⟨rfl, rfl, rfl⟩
  have hposted : s4.dma = s2.dma ∧ s4.power = s2.power ∧
      eventAt s4 (RegName.addr .dmaEvent []) = (eventAt s2 (RegName.addr .dmaEvent [])).raise [0] := by
    obtain ⟨host, out, h⟩ := postEvent_eq s3 11 (le 1 1 ++ le 1 (ch % 32) ++ le 2 status ++ le 4 c.count ++ le 8 c.cur)
    have h4 : s4 = { s3 with host := host, out := out } := h
    rw [h4]
    exact ⟨rfl, rfl, (eventAt_raiseEv ..).trans (if_pos rfl)⟩
  obtain ⟨hdma, hpower, hevent⟩ := hposted
  have hsame (k : Nat) : chanAt s4 k = chanAt s2 k := by rw [chanAt, hdma, chanAt]
  have hdone (t : State) (halone : ChanAlone ch s4 t)
      (hrecord : ∃ pi held, chanAt t ch = { chanAt s4 ch with cqPi := pi, held := held }) :
      (chanAt t ch).state = 4 ∧ (chanAt t ch).status = status ∧ (chanAt t ch).doing = none ∧
        (∀ k, k ≠ ch → chanAt t k = chanAt s k) ∧
        eventAt t (RegName.addr .dmaEvent []) = (eventAt s (RegName.addr .dmaEvent [])).raise [0] ∧ t.power = s.power := by
    obtain ⟨pi, held, hrecord⟩ := hrecord
    obtain ⟨hstate, hstatus, hdoing⟩ := hhalted
    rw [hrecord, hsame]
    refine ⟨hstate, hstatus, hdoing, fun k hk => ?_, ?_, ?_⟩
    · rw [halone.others k hk, hsame, hback.others k hk]
    · rw [eventAt, halone.regs, ← eventAt, hevent, eventAt, hback.regs, ← eventAt]
    · rw [halone.power, hpower, hback.power]
  split
  · exact hdone _ (chanAlone_chanAnswer ..) (chanAt_chanAnswer_of_halt _ _ rfl)
  · split
    · exact hdone _ (.emit ..) ⟨_, _, rfl⟩
    · exact hdone _ (.refl _) ⟨_, _, rfl⟩

/-! ### The writes, one by one -/

/-- A write that changes one channel alone. -/
theorem quiet_modChan_landWrite (s : State) (r : RegName) (ix : List Nat) (v ch : Nat) (f : DmaChannel → DmaChannel) :
    (chanAt (modChan (landWrite s r ix v) ch f) ch = f (chanAt s ch) ∧
      ∀ k, k ≠ ch → chanAt (modChan (landWrite s r ix v) ch f) k = chanAt s k) ∧
      ∃ regs dma, modChan (landWrite s r ix v) ch f = { s with regs := regs, dma := dma } :=
  ⟨⟨chanAt_modChan_same .., fun k hk => (chanAt_modChan _ ch k f).trans (if_neg hk)⟩, _, _, rfl⟩

theorem writeDmaCtl_of_off {s : State} {ch v : Nat} (hoff : chanOn s ch = false) (hen : bit v 31 = true)
    (horder : bits v 30 28 = 0) (hqueue : bit v 25 = true → fld s .dmaCtl [ch] 25 25 = 1) (hheld : (chanAt s ch).held = none)
    (req : Requester) (off : Nat) : writeDmaCtl s req off [ch] v =
      modChan (landWrite s .dmaCtl [ch] v) ch (fun c => { c with state := 1 }) := by
  have hturn : dmaTurn s ch v = modChan (landWrite s .dmaCtl [ch] v) ch (fun c => { c with state := 1 }) := by
    rw [dmaTurn, hoff, hen]
    rfl
  have hnone : chanRelease (modChan (landWrite s .dmaCtl [ch] v) ch (fun c => { c with state := 1 })) ch =
      modChan (landWrite s .dmaCtl [ch] v) ch (fun c => { c with state := 1 }) :=
    chanRelease_of_none (by rw [chanAt_modChan_same]; exact hheld)
  rw [writeDmaCtl_eq (fun h => absurd (hoff.symm.trans h) Bool.false_ne_true), hturn, queueTurn_of_stays hqueue, hnone,
    dmaOrders_of_none (.inl horder)]

theorem chanStart_landWrite {s : State} {ch v : Nat} (h : (chanAt s ch).state = 1 ∨ (chanAt s ch).state = 3 ∨ (chanAt s ch).state = 4) :
    chanStart (landWrite s .dmaCtl [ch] v) ch = modChan (landWrite s .dmaCtl [ch] v) ch (fun c => { c with
      state := 2, count := 0, cur := inForce s .dmaHeadHi [ch] * 2 ^ 32 + inForce s .dmaHeadLo [ch] }) := by
  have hhi : inForce (landWrite s .dmaCtl [ch] v) .dmaHeadHi [ch] = inForce s .dmaHeadHi [ch] :=
    inForce_dmaCtl_landWrite _ _ _ rfl (by decide)
  have hlo : inForce (landWrite s .dmaCtl [ch] v) .dmaHeadLo [ch] = inForce s .dmaHeadLo [ch] :=
    inForce_dmaCtl_landWrite _ _ _ rfl (by decide)
  rw [← hhi, ← hlo]
  exact if_pos h

theorem writeDmaCtl_disables {s : State} {ch v : Nat} (hmode : bits v 27 26 = fld s .dmaCtl [ch] 27 26) (hon : chanOn s ch = true)
    (hen : bit v 31 = false) (hqueue : bit v 25 = true → fld s .dmaCtl [ch] 25 25 = 1) (req : Requester) (off : Nat) :
    writeDmaCtl s req off [ch] v = disableChannel (landWrite s .dmaCtl [ch] v) ch := by
  have hturn : dmaTurn s ch v = disableChannel (landWrite s .dmaCtl [ch] v) ch := by
    rw [dmaTurn, hon, hen]
    rfl
  rw [writeDmaCtl_eq (fun _ => hmode), hturn, queueTurn_of_stays hqueue,
    chanRelease_of_none (channelDisabled_disableChannel ..).idle.held, dmaOrders_of_none (.inr hen)]

theorem takeQueue_landWrite (s : State) (ch v : Nat) : takeQueue (landWrite s .dmaCtl [ch] v) ch =
    modChan (landWrite s .dmaCtl [ch] v) ch (fun c => { c with
      cqBase := inForce s .cqBaseHi [ch] * 2 ^ 32 + inForce s .cqBaseLo [ch],
      cqWb := inForce s .cqWbHi [ch] * 2 ^ 32 + inForce s .cqWbLo [ch],
      cqLog2 := min 16 (max 6 (fld s .cqCfg [ch] 4 0)), cqPi := 0, cqCi := 0 }) := by
  have hreg {r : RegName} (hdims : r.desc.dims = RegName.dmaCtl.desc.dims) (hbase : r.desc.base ≠ RegName.dmaCtl.desc.base) :
      inForce (landWrite s .dmaCtl [ch] v) r [ch] = inForce s r [ch] := inForce_dmaCtl_landWrite _ _ _ hdims hbase
  rw [takeQueue, hreg (r := .cqBaseHi) rfl (by decide), hreg (r := .cqBaseLo) rfl (by decide), hreg (r := .cqWbHi) rfl (by decide),
    hreg (r := .cqWbLo) rfl (by decide), fld, hreg (r := .cqCfg) rfl (by decide)]
  rfl

theorem writeDmaCtl_takes {s : State} {ch v : Nat} (hmode : bits v 27 26 = fld s .dmaCtl [ch] 27 26) (hon : chanOn s ch = true)
    (hen : bit v 31 = true) (horder : bits v 30 28 = 0) (hqueue : bit v 25 = true) (hcq : fld s .dmaCtl [ch] 25 25 = 0)
    (hheld : (chanAt s ch).held = none) (req : Requester) (off : Nat) :
    writeDmaCtl s req off [ch] v = takeQueue (landWrite s .dmaCtl [ch] v) ch := by
  have hturn : dmaTurn s ch v = landWrite s .dmaCtl [ch] v := by
    rw [dmaTurn, hon, hen]
    rfl
  have hnone : chanRelease (takeQueue (landWrite s .dmaCtl [ch] v) ch) ch = takeQueue (landWrite s .dmaCtl [ch] v) ch :=
    chanRelease_of_none (by rw [takeQueue, chanAt_modChan_same]; exact hheld)
  rw [writeDmaCtl_eq (fun _ => hmode), hturn, queueTurn, if_pos ⟨hcq, hqueue⟩, hnone, dmaOrders_of_none (.inl horder)]

end Sys2Proof.Machine
end

