-- ==== Sys2Proof/Proofs/DmaChannels.lean ====
section
/-! PROOF. DMA channels: a turn of a channel, the end of grace, deliveries, and O57 (14/R425–R440). -/

namespace Sys2Proof.Machine

/-! ### A descriptor -/

/-- The channel with its descriptor completed, no completion queue to answer. -/
def DmaChannel.wentOn (c : DmaChannel) (next : Nat) : DmaChannel :=
  { c with doing := none, moved := 0, inject := none, held := none, state := if next = 0 then 1 else 2,
           cur := if next = 0 then c.cur else next }

theorem chanRecord_of_no_queue {s : State} {ch : Nat} {h : HeldRecord} (hcq : fld s .dmaCtl [ch] 25 25 = 0)
    (hint : h.int = false) (hhalt : h.halt = false) :
    chanRecord s ch h = chanNext (modChan s ch (fun c => { c with held := none })) ch h.next := by
  simp [chanRecord, hcq, hint, hhalt]

theorem chanAt_emit (s : State) (o : Output) (k : Nat) : chanAt (emit s o) k = chanAt s k := rfl

/-- What is written back of a descriptor that moved less than 16 MiB and asks for no interrupt. -/
theorem writeBack_of_plain (s : State) (ch : Nat) {d : Descriptor} (htrace : d.trace = false) (hint : d.int = false) {done : Nat}
    (hdone : done < 2 ^ 24) : writeBack s ch d done stOk = { s with
      out := .hostWrite (ch / 16) (d.addr + 28) (le 4 0) :: .hostWrite (ch / 16) (d.addr + 24) (le 4 done) :: s.out } := by
  have hcount : at_ done 23 0 + at_ (b2n d.trace) 24 24 = done := by
    have hfits : done % 16777216 = done := Nat.mod_eq_of_lt hdone
    simp [htrace, at_, b2n, hfits]
  have hstatus : at_ stOk 15 0 + at_ (b2n d.int) 30 30 = 0 := by
    rw [hint]
    decide
  rw [writeBack, hcount, hstatus]
  rfl

/-- A channel with no completion queue and no vector: its descriptor is written back and it goes on. -/
theorem descDone_of_no_queue {s : State} {ch : Nat} {d : Descriptor} (hcq : fld s .dmaCtl [ch] 25 25 = 0) (hint : d.int = false)
    (done status : Nat) : (∃ dma, descDone s ch d done status = { writeBack s ch d done status with dma := dma }) ∧
      chanAt (descDone s ch d done status) ch = (chanAt s ch).wentOn d.next := by
  have heq : descDone s ch d done status = chanNext (modChan (modChan (writeBack s ch d done status) ch
      (fun c => { c with doing := none, moved := 0, inject := none })) ch (fun c => { c with held := none })) ch d.next := by
    have hqueue : fld (modChan (writeBack s ch d done status) ch
        (fun c => { c with doing := none, moved := 0, inject := none })) .dmaCtl [ch] 25 25 = 0 := hcq
    rw [descDone, chanAnswer, if_neg fun h => Nat.zero_ne_one (hqueue.symm.trans h.1)]
    exact chanRecord_of_no_queue hqueue hint rfl
  rw [heq]
  refine ⟨⟨_, rfl⟩, ?_⟩
  rw [chanNext, chanAt_modChan_same, chanAt_modChan_same, chanAt_modChan_same]
  rfl

/-- A segment that is the whole of a copy. -/
theorem copyTurn_whole {s : State} {ch : Nat} {d : Descriptor} (htrace : d.trace = false) (hmoved : (chanAt s ch).moved = 0)
    (hlen : d.len ≤ 4096) (data : List Byte) : copyTurn s ch d data .ok =
      descDone (modChan (emit s (.hostWrite (chanPort ch) d.arg (padTo d.len data))) ch
        (fun c => { c with moved := d.len, bytes := wrap 64 (c.bytes + d.len) })) ch d d.len stOk := by
  rw [copyTurn, hmoved, htrace, Nat.sub_zero, Nat.min_eq_right hlen]
  simp

/-- An owned copy descriptor is counted and moved. -/
theorem descBegin_copy {s : State} {ch : Nat} {d : Descriptor} (hlimit : fld s .dmaLimit [ch] 23 0 = 0) (hmode : chanMode s ch = 0)
    (hvalid : d.valid s 0 = true) (htrace : d.trace = false) (hstacks : d.onStacks = []) (data : List Byte)
    (remote : Option Nat) : descBegin s ch d data .ok remote =
      copyTurn (modChan (modChan s ch (fun c => { c with count := wrap 32 (c.count + 1) })) ch (fun c => { c with doing := some d }))
        ch d data .ok := by
  unfold descBegin
  extract_lets s1 limit own
  have hmode1 : chanMode s1 ch = 0 := hmode
  have hown : own = d := by
    have htouched : d.touched s1 = [] := by rw [Descriptor.touched, htrace]; rfl
    unfold own
    rw [if_pos hmode1, htouched, ← hstacks]
  have hstays : d.domainLeaves s1 (chanMode s1 ch) = false := by
    rw [hmode1]
    show (d.trace && _) = false
    rw [htrace, Bool.false_and]
  have hturn : chanMode (modChan s1 ch (fun c => { c with doing := some d })) ch = 0 := hmode
  have hsound : d.valid s1 (chanMode s1 ch) = true := by
    rw [hmode1]
    exact hvalid
  rw [if_neg fun h => h.1 hlimit, hsound, hown, hstays, if_neg (by decide), if_neg (by decide), descTurn, hturn]
  rfl

/-- The turn of a channel whose next descriptor is a copy that it owns. -/
theorem dmaDescriptor_copy {s : State} {ch : Nat} {bytes : List Byte} {d : Descriptor} (hon : chanOn s ch = true)
    (hstate : (chanAt s ch).state = 2) (hheld : (chanAt s ch).held = none) (hpower : s.power.state ≠ 2)
    (hdoing : (chanAt s ch).doing = none) (hcur : (chanAt s ch).cur % 32 = 0)
    (hd : d = Descriptor.ofBytes (chanAt s ch).cur bytes) (hown : bit (leAt bytes 28 4) 31 = true)
    (data : List Byte) : dmaDescriptor ch bytes .ok data .ok none s = descBegin s ch d data .ok none := by
  unfold dmaDescriptor
  simp [hon, hstate, hheld, hpower, hdoing, hcur, hown, hd]

/-- The same, where host software has not handed it over. -/
theorem dmaDescriptor_waits {s : State} {ch : Nat} {bytes : List Byte} (hon : chanOn s ch = true)
    (hstate : (chanAt s ch).state = 2) (hheld : (chanAt s ch).held = none) (hpower : s.power.state ≠ 2)
    (hdoing : (chanAt s ch).doing = none) (hcur : (chanAt s ch).cur % 32 = 0) (hown : bit (leAt bytes 28 4) 31 = false)
    (data : List Byte) : dmaDescriptor ch bytes .ok data .ok none s = modChan s ch (fun c => { c with state := 3 }) := by
  unfold dmaDescriptor
  simp [hon, hstate, hheld, hpower, hdoing, hcur, hown]

/-- A whole copy: its bytes, the write-back, and the channel that goes on. -/
theorem descBegin_copies {s : State} {ch : Nat} {d : Descriptor} (hlimit : fld s .dmaLimit [ch] 23 0 = 0) (hmode : chanMode s ch = 0)
    (hvalid : d.valid s 0 = true) (htrace : d.trace = false) (hstacks : d.onStacks = []) (hmoved : (chanAt s ch).moved = 0)
    (hlen : d.len ≤ 4096) (hint : d.int = false) (hcq : fld s .dmaCtl [ch] 25 25 = 0) (data : List Byte) :
    (∃ dma, descBegin s ch d data .ok none = { s with
      dma := dma, out := .hostWrite (ch / 16) (d.addr + 28) (le 4 0) :: .hostWrite (ch / 16) (d.addr + 24) (le 4 d.len) ::
        .hostWrite (ch / 16) d.arg (padTo d.len data) :: s.out }) ∧
      (chanAt (descBegin s ch d data .ok none) ch = { (chanAt s ch).wentOn d.next with
        count := wrap 32 ((chanAt s ch).count + 1), bytes := wrap 64 ((chanAt s ch).bytes + d.len) }) ∧
      ∀ k, k ≠ ch → chanAt (descBegin s ch d data .ok none) k = chanAt s k := by
  rw [descBegin_copy hlimit hmode hvalid htrace hstacks]
  generalize hu : modChan (modChan s ch (fun c => { c with count := wrap 32 (c.count + 1) })) ch
    (fun c => { c with doing := some d }) = u
  have hcounted : chanAt u ch = { chanAt s ch with count := wrap 32 ((chanAt s ch).count + 1), doing := some d } := by
    rw [← hu, chanAt_modChan_same, chanAt_modChan_same]
  have halone : ChanAlone ch s u := hu ▸ (ChanAlone.modChan ..).trans (.modChan ..)
  have hfoot : ∃ dma, u = { s with dma := dma } := ⟨_, hu.symm⟩
  rw [copyTurn_whole htrace (by rw [hcounted]; exact hmoved) hlen]
  obtain ⟨dma, rfl⟩ := hfoot
  generalize hw : modChan (emit { s with dma := dma } (.hostWrite (chanPort ch) d.arg (padTo d.len data))) ch
    (fun c => { c with moved := d.len, bytes := wrap 64 (c.bytes + d.len) }) = w
  have hmovedTo : chanAt w ch = { chanAt s ch with
      count := wrap 32 ((chanAt s ch).count + 1), doing := some d, moved := d.len, bytes := wrap 64 ((chanAt s ch).bytes + d.len) } := by
    rw [← hw, chanAt_modChan_same, chanAt_emit, hcounted]
  have hdone : ChanAlone ch s w := halone.trans (hw ▸ (ChanAlone.emit ..).trans (.modChan ..))
  have hcqw : fld w .dmaCtl [ch] 25 25 = 0 := by rw [← hw]; exact hcq
  obtain ⟨⟨dma', hset⟩, hchan⟩ := descDone_of_no_queue hcqw hint d.len stOk
  refine ⟨⟨dma', ?_⟩, ?_, (hdone.trans (chanAlone_descDone ..)).others⟩
  · rw [hset, writeBack_of_plain w ch htrace hint (by omega), ← hw]
    rfl
  · rw [hchan, hmovedTo]
    rfl

/-! ### Deliveries -/

/-- A delivery changes the channel alone and writes metadata and payload, as much as fits. -/
theorem deliver_facts (s : State) (ch : Nat) (d : Descriptor) (header payload : List Byte) :
    ChanAlone ch s (deliver s ch d header payload) ∧
      .hostWrite (ch / 16) d.src (header ++ payload.take (min payload.length (d.len - 64))) ∈ (deliver s ch d header payload).out := by
  unfold deliver
  extract_lets n s1 s2
  have hwrite : ChanAlone ch s s2 := (ChanAlone.emit ..).trans (.modChan ..)
  have hdone : ChanAlone ch s2 (descDone s2 ch d (64 + n) stOk) := chanAlone_descDone ..
  exact ⟨hwrite.trans hdone, hdone.out.subset List.mem_cons_self⟩

/-- Frames that a channel can take wait on. -/
theorem dropUntaken_of_taken {s : State} {sl : Nat}
    (h : ∀ i ∈ (storeAt s sl).punt, ∀ f, frameAt s i = some f → puntTarget s (f.punt.getD 0) = true) : dropUntaken s sl = s := by
  refine foldl_of_fixed fun i hi => ?_
  cases hf : frameAt s i with
  | none => exact onFrame_of_none hf _
  | some f =>
    rw [onFrame_of_some hf]
    exact if_pos (h i hi f hf)

theorem dropMessages_of_taken {s : State} {c : Nat} (h : puntTarget s (0x40 + c) = true) : dropMessages s c = s := by
  rw [dropMessages, h]
  rfl

/-- A collector as the source of a delivery. -/
theorem dropMessages_of_source {s : State} {k : Nat} (h : puntTarget s (0x40 + k) = true) :
    (if 8 + k < 8 then dropUntaken s (8 + k) else dropMessages s (8 + k - 8)) = s := by
  rw [if_neg (by omega), Nat.add_sub_cancel_left]
  exact dropMessages_of_taken h

/-- A delivery to a receive channel of this device, nothing dropped. -/
theorem puntDeliver_local {s : State} {ch source : Nat} {d : Descriptor} (hpower : s.power.state ≠ 2) (hsource : source < 16)
    (hkept : (if source < 8 then dropUntaken s source else dropMessages s (source - 8)) = s) (haddr : s.chain.addr.getD 0 = 0)
    (hdoing : (chanAt s ch).doing = some d) (hmode : chanMode s ch = 2) (hstate : (chanAt s ch).state = 2) :
    puntDeliver ch source s = if source < 8 then deliverFrame s ch source d else deliverMessage s ch (source - 8) d := by
  unfold puntDeliver
  rw [if_neg (by omega), hkept, if_neg (not_not_intro haddr)]
  simp only [hdoing]
  exact if_neg (by omega)

/-- On a chained device what waits joins what travels to the root. -/
theorem puntDeliver_chained {s : State} {ch source : Nat} (hpower : s.power.state ≠ 2) (hsource : source < 16)
    (hkept : (if source < 8 then dropUntaken s source else dropMessages s (source - 8)) = s) (haddr : s.chain.addr.getD 0 ≠ 0) :
    puntDeliver ch source s = if source < 8 then puntUp s source else exportUp s (source - 8) := by
  unfold puntDeliver
  rw [if_neg (by omega), hkept]
  exact if_pos haddr

/-- The oldest frame that waits for a channel is delivered, and waits no more. -/
theorem deliverFrame_facts {s : State} {ch sl id : Nat} {f : Frame} (hhead : puntHead s sl ch = some id) (hf : frameAt s id = some f)
    (htail : f.tail = .good) (hstays : diesLeave s = false) (d : Descriptor) :
    id ∉ (storeAt (deliverFrame s ch sl d) sl).punt ∧
      (let b := puntBytes f (f.punt.getD 0)
       .hostWrite (ch / 16) d.src (puntMeta s f (f.punt.getD 0) b.length (decide (d.len - 64 < b.length)) ++
         b.take (min b.length (d.len - 64))) ∈ (deliverFrame s ch sl d).out) := by
  rw [deliverFrame, hhead]
  show _ ∉ (storeAt (onFrame s id _) sl).punt ∧ _ ∈ (onFrame s id _).out
  rw [onFrame_of_some hf, if_neg (not_not_intro htail), if_neg (by rw [hstays]; exact Bool.false_ne_true)]
  extract_lets r b trunc s1 s2
  obtain ⟨-, hwrite⟩ := deliver_facts s ch d (puntMeta s f r b.length trunc) b
  have hgone : id ∉ (storeAt s2 sl).punt := by
    unfold s2
    rw [storeAt_modStore, if_pos rfl]
    simp
  have hverdict : DropsKept s2 (if trunc = true then verdictBad s2 id else verdictGood s2 id) := by
    split
    · exact dropsKept_verdictBad ..
    · exact dropsKept_verdictGood ..
  have hleft := (hverdict.trans (dropsKept_dropRef _ id)).trans (dropsKept_frameLeft _ id)
  exact ⟨fun h => hgone (hleft.punts _ _ h), hleft.out.subset hwrite⟩

theorem collectorAt_modCollector_same (s : State) (k : Nat) (g : Collector → Collector) :
    collectorAt (modCollector s k g) k = g (collectorAt s k) := (tget_tupd ..).trans (if_pos rfl)

/-- The oldest message of a collector is delivered, and waits no more. -/
theorem deliverMessage_facts {s : State} {ch k n : Nat} {m : List Byte} {rest : List (Nat × List Byte)}
    (hwaits : (collectorAt s k).waiting = (n, m) :: rest) (hmap : fld s .puntMap [0x40 + k] 28 24 = ch) (d : Descriptor) :
    collectorAt (deliverMessage s ch k d) k = { collectorAt s k with waiting := rest } ∧
      .hostWrite (ch / 16) d.src (exportMeta s k (m.drop 24).length (decide (d.len - 64 < (m.drop 24).length)) (m.take 24) ++
        (m.drop 24).take (min (m.drop 24).length (d.len - 64))) ∈ (deliverMessage s ch k d).out := by
  rw [deliverMessage, hwaits]
  simp only [if_neg (not_not_intro hmap)]
  obtain ⟨halone, hwrite⟩ := deliver_facts s ch d
    (exportMeta s k (m.drop 24).length (decide (d.len - 64 < (m.drop 24).length)) (m.take 24)) (m.drop 24)
  refine ⟨?_, hwrite⟩
  obtain ⟨out, dma, hset⟩ := halone.footprint
  rw [collectorAt_modCollector_same, hset]
  rfl

/-- Where no link leads to the root, a message waits with what travels there. -/
theorem exportUp_facts {s : State} {k n : Nat} {m : List Byte} {rest : List (Nat × List Byte)}
    (hwaits : (collectorAt s k).waiting = (n, m) :: rest) (hroom : s.chain.upward.length < upCapacity)
    (hdown : chainUp s (upPort s) = false) :
    collectorAt (exportUp s k) k = { collectorAt s k with waiting := rest } ∧
      (exportUp s k).chain = { s.chain with
        upward := s.chain.upward ++ [exportMeta s k (m.drop 24).length false (m.take 24) ++ m.drop 24] } := by
  have hstays (t : State) (ht : chainUp t (upPort t) = false) : pumpUp t = t := by
    rw [pumpUp, ht]
    rfl
  rw [exportUp, hwaits]
  simp only [if_pos hroom]
  rw [hstays (modCollector (holdUp s _) k _) hdown]
  exact ⟨collectorAt_modCollector_same .., rfl⟩

/-! ### The obligation -/

/-- Settles O57. -/
theorem dmaCommands : Obligations.DmaCommands := by
  unfold Obligations.DmaCommands
  intro s req v ch hv hch hheld hleaving c becomes quiet
  have hwrite {u : State} {f : State → RegName → List Nat → State} (hreach : Reaches s req (RegName.addr .dmaCtl [ch]) .dmaCtl [ch])
      (hrun : f s .dmaCtl [ch] = u) : (Host.Outcome.next (guarded s req (RegName.addr .dmaCtl [ch]) [.dmaCtl] f) : Host.Outcome State Fault Refusal) = .next u :=
    congrArg Host.Outcome.next ((guarded_ok hreach (by decide)).trans hrun)
  refine ⟨fun hreach hqueue hmode => ⟨?_, ?_, ?_, ?_, ?_⟩, ?_, ?_, ?_, ?_, ?_, ?_⟩
  · intro hen horder hoff
    refine ⟨_, hwrite hreach ((if_pos (by rw [hen, horder]; rfl)).trans (writeDmaCtl_of_off hoff hen horder hqueue hheld req _)),
      quiet_modChan_landWrite .., chanOn_landWrite hen⟩
  · intro hen horder hon hstate
    refine ⟨_, hwrite hreach ((if_pos (bit_of_orders.2.1 horder).1).trans
      ((writeDmaCtl_of_on (hmode hon) hon hen hqueue hheld req _).trans ((dmaOrders_start hen horder).trans
        (chanStart_landWrite hstate)))), quiet_modChan_landWrite ..⟩
  · intro hen horder hon hstate
    refine ⟨_, hwrite hreach ((if_pos (bit_of_orders.2.2.1 horder).2.1).trans
      ((writeDmaCtl_of_on (hmode hon) hon hen hqueue hheld req _).trans ((dmaOrders_resume hen horder).trans
        (if_pos hstate)))), quiet_modChan_landWrite ..⟩
  · intro hen horder hon hstate
    refine ⟨_, hwrite hreach ((if_pos (bit_of_orders.2.2.2 horder).2.2).trans
      ((writeDmaCtl_of_on (hmode hon) hon hen hqueue hheld req _).trans ((dmaOrders_kick hen horder).trans
        (if_pos hstate)))), quiet_modChan_landWrite ..⟩
  · intro hen hon
    have hstopped := channelDisabled_disableChannel (landWrite s .dmaCtl [ch] v) ch
    refine ⟨_, hwrite hreach ((if_neg (by rw [hen]; exact Bool.false_ne_true)).trans
      (writeDmaCtl_disables (hmode hon) hon hen hqueue req _)), hstopped.off, hstopped.idle.state, hstopped.idle.doing,
      hstopped.idle.inject, hstopped.idle.held, fun hinject hpunt => ?_⟩
    rw [disableChannel_of_calm (s := landWrite s .dmaCtl [ch] v) hinject hpunt hleaving]
    exact ⟨fun k hk => (chanAt_modChan _ ch k _).trans (if_neg hk), _, _, _, rfl⟩
  · intro hreach hen horder hqueue hon hmode hcq
    exact ⟨_, hwrite hreach ((if_pos hqueue).trans ((writeDmaCtl_takes hmode hon hen horder hqueue hcq hheld req _).trans
      (takeQueue_landWrite ..))), quiet_modChan_landWrite ..⟩
  · intro hreach
    have hrun : writeCqCi s [ch] v = modChan s ch (fun c => { c with cqCi := v }) := by
      rw [writeCqCi, wrap, Nat.mod_eq_of_lt hv]
      exact chanRelease_of_none ((congrArg DmaChannel.held (chanAt_modChan_same ..)).trans hheld)
    exact ⟨_, congrArg Host.Outcome.next ((guarded_ok hreach (by decide)).trans hrun),
      ⟨chanAt_modChan_same .., fun k hk => (chanAt_modChan _ ch k _).trans (if_neg hk)⟩, _, _, rfl⟩
  · intro bytes data d hon hstate hpower hdoing hcur hd
    refine ⟨fun hown => ?_, fun hown hlimit hmode hmoved hvalid htrace hint hlen hcq => ?_⟩
    · have hrun := dmaDescriptor_waits hon hstate hheld hpower hdoing hcur hown data
      have hleft : stacksLeave (dmaDescriptor ch bytes .ok data .ok none s) = modChan s ch (fun c => { c with state := 3 }) := by
        rw [hrun]
        exact stacksLeave_of_none hleaving
      exact ⟨_, congrArg Host.Outcome.next hleft,
        ⟨chanAt_modChan_same .., fun k hk => (chanAt_modChan _ ch k _).trans (if_neg hk)⟩, _, _, rfl⟩
    · have hstacks : d.onStacks = [] := by rw [hd]; rfl
      have haddr : d.addr = c.cur := by rw [hd]; rfl
      obtain ⟨⟨dma, hset⟩, hchan, hothers⟩ := descBegin_copies hlimit hmode hvalid htrace hstacks hmoved hlen hint hcq data
      have hrun : dmaDescriptor ch bytes .ok data .ok none s = descBegin s ch d data .ok none :=
        dmaDescriptor_copy hon hstate hheld hpower hdoing hcur hd hown data
      have hleft : stacksLeave (dmaDescriptor ch bytes .ok data .ok none s) = descBegin s ch d data .ok none := by
        rw [hrun]
        exact stacksLeave_of_none (by rw [hset]; exact hleaving)
      refine ⟨_, _, congrArg Host.Outcome.next hleft, ⟨dma, hset⟩, by rw [haddr], ?_, hothers⟩
      rw [hchan]
      have hnone : c.doing = none ∧ c.moved = 0 ∧ c.held = none := ⟨hdoing, hmoved, hheld⟩
      show { c.wentOn d.next with count := wrap 32 (c.count + 1), bytes := wrap 64 (c.bytes + d.len) } = _
      generalize c = x at hnone ⊢
      cases x
      obtain ⟨rfl, rfl, rfl⟩ := hnone
      rfl
  · intro d hdoing hstate hdomain hover hinject
    obtain ⟨hstate', hstatus, hdoing', hothers, hevent, hpower⟩ := chanHalt_facts s ch stDomainDown d.int (some (d, c.moved))
    have hrun : dmaGraceExpire ch s = chanHalt s ch stDomainDown d.int (some (d, c.moved)) := by
      unfold dmaGraceExpire
      simp [hdoing, hstate, hdomain, hover, hinject, c]
    have hleft : stacksLeave (dmaGraceExpire ch s) = chanHalt s ch stDomainDown d.int (some (d, c.moved)) := by
      rw [hrun]
      exact stacksLeave_of_none (by rw [hpower]; exact hleaving)
    exact ⟨_, congrArg Host.Outcome.next hleft, hstate', hstatus, hdoing', hothers, hevent⟩
  · intro d hpower haddr hdoing hstate hmode
    have hlocal {source : Nat} (hsource : source < 16)
        (hkept : (if source < 8 then dropUntaken s source else dropMessages s (source - 8)) = s) : puntDeliver ch source s =
          if source < 8 then deliverFrame s ch source d else deliverMessage s ch (source - 8) d :=
      puntDeliver_local hpower hsource hkept haddr hdoing hmode hstate
    refine ⟨fun sl id f b hsl hhead hf htail hstays htaken hb => ?_, fun k n m rest hk hwaits hmap htaken => ?_⟩
    · have hrun := (hlocal (by omega) ((if_pos hsl).trans (dropUntaken_of_taken htaken))).trans (if_pos hsl)
      obtain ⟨hgone, hdelivered⟩ := deliverFrame_facts hhead hf htail hstays d
      exact ⟨_, congrArg Host.Outcome.next hrun, hgone, by rw [hb]; exact hdelivered⟩
    · have hrun := (hlocal (source := 8 + k) (by omega) (dropMessages_of_source htaken)).trans (if_neg (by omega))
      rw [Nat.add_sub_cancel_left] at hrun
      exact ⟨_, congrArg Host.Outcome.next hrun, deliverMessage_facts hwaits hmap d⟩
  · intro k n m rest hk hpower haddr hwaits htaken hroom hdown
    have hrun := (puntDeliver_chained (ch := ch) hpower (by omega) (dropMessages_of_source htaken) haddr).trans (if_neg (by omega))
    rw [Nat.add_sub_cancel_left] at hrun
    exact ⟨_, congrArg Host.Outcome.next hrun, exportUp_facts hwaits hroom hdown⟩

end Sys2Proof.Machine
end

