-- ==== Sys2Proof/Proofs/RetiredChannels.lean ====
section
/-! SUPPORT. What the retirement of a pseudo-channel in service changes and keeps (18/R519–R522). -/

namespace Sys2Proof.Machine

/-! ### Losing pages -/

/-- What losing pages keeps: the pseudo-channels and the stacks, the pages that are not lost, the power domains, the DMA
channels, the time and the HBM flags; entries of the Rim's log are only added. -/
structure PagesLost (lost : List Nat) (s t : State) : Prop where
  hbm : ∃ pages images, t.hbm = { s.hbm with pages := pages, lostImages := images }
  pages : ∀ q, q ∉ lost → tfind t.hbm.pages q = tfind s.hbm.pages q
  survivors : t.skein.survivors = s.skein.survivors
  power : t.power = s.power
  dma : t.dma = s.dma
  time : t.time = s.time
  log : s.log.next ≤ t.log.next
  event : eventAt t (RegName.addr .hbmEvent []) = eventAt s (RegName.addr .hbmEvent [])

namespace PagesLost

variable {lost : List Nat} {s t u : State}

theorem of_eq (hhbm : t.hbm = s.hbm) (hskein : t.skein = s.skein) (hpower : t.power = s.power) (hdma : t.dma = s.dma)
    (htime : t.time = s.time) (hlog : s.log.next ≤ t.log.next)
    (hevent : eventAt t (RegName.addr .hbmEvent []) = eventAt s (RegName.addr .hbmEvent [])) : PagesLost lost s t :=
  ⟨⟨_, _, hhbm⟩, fun _ _ => by rw [hhbm], by rw [hskein], hpower, hdma, htime, hlog, hevent⟩

theorem refl (s : State) : PagesLost lost s s := .of_eq rfl rfl rfl rfl rfl (Nat.le_refl _) rfl

theorem trans (a : PagesLost lost s t) (b : PagesLost lost t u) : PagesLost lost s u := by
  refine ⟨?_, fun q hq => (b.pages q hq).trans (a.pages q hq), b.survivors.trans a.survivors, b.power.trans a.power,
    b.dma.trans a.dma, b.time.trans a.time, a.log.trans b.log, b.event.trans a.event⟩
  obtain ⟨pages, images, h⟩ := a.hbm
  obtain ⟨pages', images', h'⟩ := b.hbm
  exact ⟨pages', images', by rw [h', h]⟩

theorem foldl {f : State → Nat → State} {l : List Nat} (h : ∀ s, ∀ p ∈ l, PagesLost lost s (f s p)) (s : State) :
    PagesLost lost s (l.foldl f s) :=
  List.foldlRecOn (motive := fun t => PagesLost lost s t) l f (.refl s) fun t ht p hp => ht.trans (h t p hp)

theorem pcAt_eq (h : PagesLost lost s t) (q : Nat) : pcAt t q = pcAt s q := by
  obtain ⟨pages, images, h⟩ := h.hbm
  rw [pcAt, h]
  rfl

end PagesLost

section
variable (lost : List Nat) (s : State)

theorem pagesLost_raiseEv {r : RegName} {ix : List Nat} (fs : List Nat) (h : RegName.addr .hbmEvent [] ≠ r.addr ix) :
    PagesLost lost s (raiseEv s r ix fs) :=
  .of_eq rfl rfl rfl rfl rfl (Nat.le_refl _) ((eventAt_raiseEv ..).trans (if_neg h))

theorem pagesLost_postEvent (src : Nat) (body : List Byte) : PagesLost lost s (postEvent s src body) := by
  obtain ⟨host, out, h⟩ := postEvent_eq s src body
  rw [h]
  exact .of_eq rfl rfl rfl rfl rfl (Nat.le_refl _) rfl

theorem pagesLost_gapNotice (seq kind arg n : Nat) : PagesLost lost s (gapNotice s seq kind arg n) := by
  have hlogged (u : State) : PagesLost lost u (gapLog u seq kind arg n) := by
    have hnext := next_rimLog u 0x12 false (le 8 seq ++ le 1 kind ++ le 3 arg ++ le 4 n ++ le 8 (servedSec u))
    obtain ⟨log, fresh, h⟩ := rimLog_eq u 0x12 false (le 8 seq ++ le 1 kind ++ le 3 arg ++ le 4 n ++ le 8 (servedSec u))
    rw [gapLog]
    rw [h] at hnext ⊢
    exact .of_eq rfl rfl rfl rfl rfl hnext.le rfl
  exact ((pagesLost_raiseEv lost s [3] (by decide)).trans (hlogged _)).trans (pagesLost_postEvent ..)

theorem pagesLost_withLid (lid : LidState) : PagesLost lost s { s with lid := lid } :=
  .of_eq rfl rfl rfl rfl rfl (Nat.le_refl _) rfl

theorem pagesLost_gapOpen (kind arg n : Nat) : PagesLost lost s (gapOpen s kind arg n) := by
  unfold gapOpen
  extract_lets gs
  split
  · exact .refl s
  · exact (pagesLost_withLid ..).trans (pagesLost_gapNotice ..)

theorem pagesLost_gapClosing (kind arg n : Nat) : PagesLost lost s (gapClosing s kind arg n) := by
  unfold gapClosing
  split
  · exact .refl s
  · split
    · exact pagesLost_gapOpen ..
    · exact (pagesLost_withLid ..).trans (pagesLost_gapNotice ..)

theorem pagesLost_lostImages (images : List Nat) : PagesLost lost s { s with hbm := { s.hbm with lostImages := images } } :=
  ⟨⟨_, _, rfl⟩, fun _ _ => rfl, rfl, rfl, rfl, rfl, Nat.le_refl _, rfl⟩

theorem pagesLost_losePage (p : Nat) : PagesLost lost s (losePage s p) := by
  unfold losePage
  split
  · exact .of_eq rfl rfl rfl rfl rfl (Nat.le_refl _) rfl
  · split
    · exact .of_eq rfl rfl rfl rfl rfl (Nat.le_refl _) rfl
    · split
      · unfold loseZonePage
        extract_lets c z wipe
        have hwipe : PagesLost lost s (wipe s) := pagesLost_withLid ..
        split
        · exact hwipe.trans (pagesLost_gapOpen ..)
        · split
          · split
            · exact hwipe.trans (pagesLost_gapClosing ..)
            · exact pagesLost_lostImages ..
          · exact pagesLost_lostImages ..
      · exact .of_eq rfl rfl rfl rfl rfl (Nat.le_refl _) rfl

theorem pagesLost_movePage {p : Nat} (hp : p ∈ lost) : PagesLost lost s (movePage s p) := by
  unfold movePage
  split
  · exact .refl s
  · exact ⟨⟨_, _, rfl⟩, fun q hq => tfind_tins_ne _ _ fun h => hq (h ▸ hp), rfl, rfl, rfl, rfl, Nat.le_refl _, rfl⟩

end

/-! ### Retirement -/

/-- A pseudo-channel is retired in service. -/
structure PcRetired (pc cause : Nat) (s t : State) : Prop where
  own : pcAt t pc = { pcAt s pc with state := 2, cause := cause }
  others : ∀ q, q ≠ pc → pcAt t q = pcAt s q
  hbm : ∃ pcs retiring pages images,
    t.hbm = { s.hbm with pcs := pcs, retiring := retiring, pages := pages, lostImages := images }
  homes : ∀ p, (pageHome s p).1 ≠ pc → pageHome t p = pageHome s p
  power : t.power = s.power
  dma : t.dma = s.dma
  time : t.time = s.time
  log : s.log.next ≤ t.log.next
  event : eventAt t (RegName.addr .hbmEvent []) = (eventAt s (RegName.addr .hbmEvent [])).raise [3]

theorem pcAt_modPc (s : State) (n k : Nat) (f : PcState → PcState) :
    pcAt (modPc s n f) k = if k = n then f (pcAt s n) else pcAt s k := tget_tupd ..

/-- An HBM event with its flags raised. -/
theorem hbmEventPost_raise (s : State) (fs : List Nat) (kind pc arg value : Nat) :
    ∃ regs host out, hbmEventPost (raiseEv s .hbmEvent [] fs) kind pc arg value = { s with regs := regs, host := host, out := out } ∧
      eventAt { s with regs := regs, host := host, out := out } (RegName.addr .hbmEvent []) =
        (eventAt s (RegName.addr .hbmEvent [])).raise fs := by
  obtain ⟨host, out, h⟩ := postEvent_eq (forceReg (raiseEv s .hbmEvent [] fs) .hbmLast [] (at_ pc 30 24 + at_ kind 23 20)) 12
    (le 1 kind ++ le 1 (pc % 128) ++ le 1 arg ++ zeros 1 ++ le 4 value ++
      le 8 (servedSec (forceReg (raiseEv s .hbmEvent [] fs) .hbmLast [] (at_ pc 30 24 + at_ kind 23 20))))
  exact ⟨_, host, out, h, (eventAt_raiseEv s .hbmEvent [] fs _).trans (if_pos rfl)⟩

/-- A pseudo-channel answers nothing any more, and a move to or from it is abandoned. -/
def retireMarked (s : State) (pc cause : Nat) : State :=
  let s := modPc s pc (fun p => { p with state := 2, cause := cause })
  { s with
    hbm := { s.hbm with retiring := s.hbm.retiring ++ [⟨pc, cause, servedSec s, servedNs s⟩] },
    skein := { s.skein with move := match s.skein.move with
      | some m =>
        if m.dstPc = pc || (match tfind s.skein.groups m.group with
          | some e => e.pc == pc
          | none => s.skein.survivors.getD (m.group % s.skein.survivors.length) 0 == pc) then none else some m
      | none => none } }

theorem retireMarked_eq (s : State) (pc cause : Nat) : ∃ pcs retiring move, retireMarked s pc cause =
    { s with hbm := { s.hbm with pcs := pcs, retiring := retiring }, skein := { s.skein with move := move } } ∧
      pcs = tupd PcState.reset s.hbm.pcs pc (fun p => { p with state := 2, cause := cause }) := ⟨_, _, _, rfl, rfl⟩

/-- Its pages move and lose their contents. -/
def retireLost (s : State) (pc : Nat) (lost : List Nat) : State :=
  let s := lost.foldl losePage (lost.foldl movePage s)
  if lost.any (fun p => decide (p < pgTarget)) then natLostNotice s pc else s

theorem retirePc_eq {s : State} {pc : Nat} (hlive : pcLive s pc = true) (cause : Nat) : retirePc s pc cause =
    raiseTask (hbmEventPost (raiseEv (retireLost (retireMarked s pc cause) pc (pagesOn s pc)) .hbmEvent [] [3]) 2 pc cause
      (pagesOn s pc).length) 0xF003 3 [byte pc] := by
  rw [retirePc, hlive]
  rfl

theorem pagesLost_retireLost (s : State) (pc : Nat) (lost : List Nat) : PagesLost lost s (retireLost s pc lost) := by
  have hmoved : PagesLost lost s (lost.foldl movePage s) := .foldl (fun u p hp => pagesLost_movePage lost u hp) s
  have hgone : PagesLost lost (lost.foldl movePage s) (lost.foldl losePage (lost.foldl movePage s)) :=
    .foldl (fun u p _ => pagesLost_losePage lost u p) _
  refine (hmoved.trans hgone).trans ?_
  unfold retireLost
  split
  · exact (pagesLost_raiseEv lost _ [4] (by decide)).trans (pagesLost_postEvent ..)
  · exact .refl _

theorem pageHome_congr {s t : State} {p : Nat} (hpages : tfind t.hbm.pages p = tfind s.hbm.pages p)
    (hsurvivors : t.skein.survivors = s.skein.survivors) : pageHome t p = pageHome s p := by
  rw [pageHome, hpages, hsurvivors]
  rfl

/-- What the scheduler holds is no part of it. -/
theorem PcRetired.withSched {pc cause : Nat} {s t : State} (h : PcRetired pc cause s t) (sched : SchedState) :
    PcRetired pc cause s { t with sched := sched } :=
  ⟨h.own, h.others, h.hbm, h.homes, h.power, h.dma, h.time, h.log, h.event⟩

theorem raiseTask_eq (s : State) (code prio : Nat) (params : List Byte) :
    ∃ sched, raiseTask s code prio params = { s with sched := sched } := ⟨_, rfl⟩

/-- Its retirement is reported once its pages are lost. -/
theorem PagesLost.reported {s u : State} {pc cause : Nat} {pcs : Table PcState} {retiring : List Retiring} {move : Option Move}
    (hlost : PagesLost (pagesOn s pc)
      { s with hbm := { s.hbm with pcs := pcs, retiring := retiring }, skein := { s.skein with move := move } } u)
    (hown : ∀ q, tget PcState.reset pcs q = if q = pc then { pcAt s pc with state := 2, cause := cause } else pcAt s q) (n : Nat) :
    PcRetired pc cause s (raiseTask (hbmEventPost (raiseEv u .hbmEvent [] [3]) 2 pc cause n) 0xF003 3 [byte pc]) := by
  obtain ⟨regs, host, out, hpost, hraised⟩ := hbmEventPost_raise u [3] 2 pc cause n
  obtain ⟨sched, htask⟩ := raiseTask_eq { u with regs := regs, host := host, out := out } 0xF003 3 [byte pc]
  rw [hpost, htask]
  have hpcs (q : Nat) : pcAt u q = if q = pc then { pcAt s pc with state := 2, cause := cause } else pcAt s q :=
    (hlost.pcAt_eq q).trans (hown q)
  refine PcRetired.withSched (t := { u with regs := regs, host := host, out := out }) ⟨(hpcs pc).trans (if_pos rfl),
    fun q hq => (hpcs q).trans (if_neg hq), ?_, fun p hhome => ?_, hlost.power, hlost.dma, hlost.time, hlost.log,
    hraised.trans (congrArg (EventReg.raise · [3]) hlost.event)⟩ sched
  · obtain ⟨pages, images, h⟩ := hlost.hbm
    exact ⟨_, _, pages, images, h⟩
  · have hkept : p ∉ pagesOn s pc := fun h => by
      simp only [pagesOn, List.mem_filter, beq_iff_eq] at h
      exact hhome h.2
    exact pageHome_congr (hlost.pages p hkept) hlost.survivors

theorem pcRetired_retirePc {s : State} {pc : Nat} (hlive : pcLive s pc = true) (cause : Nat) :
    PcRetired pc cause s (retirePc s pc cause) := by
  have hlost := pagesLost_retireLost (retireMarked s pc cause) pc (pagesOn s pc)
  obtain ⟨pcs, retiring, move, hmarked, hown⟩ := retireMarked_eq s pc cause
  rw [hmarked] at hlost
  rw [retirePc_eq hlive, hmarked]
  exact hlost.reported (fun q => hown ▸ tget_tupd ..) _

end Sys2Proof.Machine
end

