-- ==== Sys2Proof/Proofs/HbmControllers.lean ====
section
/-! PROOF. The HBM controllers at work: recalibration, parity, refresh, scrub, retirement by the host (18/R513–R521). -/

namespace Sys2Proof.Machine

theorem pcLive_of_serves {s : State} {pc : Nat} (h : pcServes s pc = true) : pcLive s pc = true := by
  simp only [pcServes, Bool.and_eq_true] at h
  exact h.2

theorem trainDone_of_serves {s : State} {pc : Nat} (h : pcServes s pc = true) : s.hbm.trainDone = true := by
  simp only [pcServes, Bool.and_eq_true] at h
  exact h.1.1.2

theorem pcLive_of_pcAt {s t : State} {pc : Nat} (h : (pcAt t pc).state = (pcAt s pc).state) : pcLive t pc = pcLive s pc := by
  rw [pcLive, h]
  rfl

/-! ### Windows (R513) -/

theorem hbmRecal_wide {s : State} {pc r w : Nat} (hserves : pcServes s pc = true) (hr : narrow r = false) (hw : narrow w = false)
    (sweep : Nat × Nat) : hbmRecal pc r w sweep s = setWindows s pc r w := by
  simp [hbmRecal, hserves, hr, hw]

theorem hbmRecal_narrow {s : State} {pc r w : Nat} {sweep : Nat × Nat} (hserves : pcServes s pc = true) (hr : narrow r = true)
    (hsweep : narrow sweep.1 = true ∨ narrow sweep.2 = true) :
    hbmRecal pc r w sweep s = retirePc (setWindows s pc sweep.1 sweep.2) pc 4 := by
  have hfails : (narrow sweep.1 || narrow sweep.2) = true := by simpa using hsweep
  simp [hbmRecal, hserves, hr, hfails]

theorem pcRetired_setWindows {s : State} {pc : Nat} (hlive : pcLive s pc = true) (r w cause : Nat) :
    (pcAt (retirePc (setWindows s pc r w) pc cause) pc).state = 2 ∧ (pcAt (retirePc (setWindows s pc r w) pc cause) pc).cause = cause ∧
      ∀ q, q ≠ pc → pcAt (retirePc (setWindows s pc r w) pc cause) q = pcAt s q := by
  have hset (q : Nat) := pcAt_modPc s pc q (fun p => { p with rwin := wrap 32 r, wwin := wrap 32 w })
  have hlive' : pcLive (setWindows s pc r w) pc = true :=
    (pcLive_of_pcAt (by rw [setWindows, hset, if_pos rfl])).trans hlive
  have hretired := pcRetired_retirePc hlive' cause
  exact ⟨congrArg PcState.state hretired.own, congrArg PcState.cause hretired.own,
    fun q hq => (hretired.others q hq).trans ((hset q).trans (if_neg hq))⟩

/-! ### Parity (R514) -/

/-- A parity error as it is counted and reported. -/
def parityReported (s : State) (channel n : Nat) : State :=
  let total := sat 32 (tget 0 s.hbm.replays channel + 1)
  let s := { s with hbm := { s.hbm with
    parity := tput 0 s.hbm.parity channel (if n = 3 then 0 else n), replays := tput 0 s.hbm.replays channel total } }
  let s := modStk s (channel / 16) (fun x => { x with caRetries := sat 16 (x.caRetries + 1) })
  hbmEventPost (raiseEv s .hbmEvent [] [1]) 5 (channel * 2) 0 total

/-- How many parity errors a channel has had in a row, with this one. -/
def parityRun (s : State) (channel : Nat) (inRow : Bool) : Nat := if inRow then tget 0 s.hbm.parity channel + 1 else 1

theorem hbmCaParity_eq {s : State} {c : Nat} (h : pcServes s (c * 2) = true) (inRow window : Bool) :
    hbmCaParity c inRow window s =
      if parityRun s c inRow = 3 ∧ ¬ window then
        retirePc (retirePc (parityReported s c (parityRun s c inRow)) (c * 2) 5) (c * 2 + 1) 5
      else parityReported s c (parityRun s c inRow) := by
  simp only [hbmCaParity, h]
  rfl

theorem tget_tput_of_ne_zero (t : Table Nat) (i : Nat) {x : Nat} (h : x ≠ 0) : tget 0 (tput 0 t i x) i = x := by
  rw [tput, if_neg h, tget_tins, if_pos rfl]

theorem sat32_succ_ne_zero (n : Nat) : sat 32 (n + 1) ≠ 0 := by
  rw [sat32]
  omega

theorem parityReported_facts (s : State) (c n : Nat) :
    tget 0 (parityReported s c n).hbm.replays c = min (tget 0 s.hbm.replays c + 1) (2 ^ 32 - 1) ∧
      (parityReported s c n).hbm.pcs = s.hbm.pcs ∧
      eventAt (parityReported s c n) (RegName.addr .hbmEvent []) = (eventAt s (RegName.addr .hbmEvent [])).raise [1] := by
  unfold parityReported
  extract_lets total hbm s1 s2
  obtain ⟨regs, host, out, h, hraised⟩ := hbmEventPost_raise s2 [1] 5 (c * 2) 0 total
  rw [h]
  exact ⟨(tget_tput_of_ne_zero _ _ (sat32_succ_ne_zero _)).trans (sat32 _), rfl, hraised⟩

theorem replays_retirePc (s : State) (pc cause : Nat) : (retirePc s pc cause).hbm.replays = s.hbm.replays := by
  cases hlive : pcLive s pc with
  | false =>
    rw [retirePc, hlive]
    rfl
  | true =>
    obtain ⟨pcs, retiring, pages, images, h⟩ := (pcRetired_retirePc hlive cause).hbm
    rw [h]

theorem replays_hbmCaParity {s : State} {c : Nat} (h : pcServes s (c * 2) = true) (inRow window : Bool) :
    tget 0 (hbmCaParity c inRow window s).hbm.replays c = min (tget 0 s.hbm.replays c + 1) (2 ^ 32 - 1) := by
  rw [hbmCaParity_eq h]
  obtain ⟨hcount, -, -⟩ := parityReported_facts s c (parityRun s c inRow)
  split
  · rw [replays_retirePc, replays_retirePc, hcount]
  · exact hcount

/-- A sweep that finds no window retires both pseudo-channels of a channel. -/
theorem retirePc_both {s : State} {a b : Nat} (hab : a ≠ b) (ha : pcLive s a = true) (hb : pcLive s b = true) (cause : Nat) :
    (pcAt (retirePc (retirePc s a cause) b cause) a).state = 2 ∧ (pcAt (retirePc (retirePc s a cause) b cause) b).state = 2 := by
  have hfirst := pcRetired_retirePc ha cause
  have hlive : pcLive (retirePc s a cause) b = true := by rw [pcLive, hfirst.others b hab.symm]; exact hb
  have hsecond := pcRetired_retirePc hlive cause
  exact ⟨by rw [hsecond.others a hab, hfirst.own], by rw [hsecond.own]⟩

/-! ### Refresh (R515) -/

theorem stkAt_modStk (s : State) (k j : Nat) (f : StackState → StackState) :
    stkAt (modStk s k f) j = if j = k then f (stkAt s k) else stkAt s j := tget_tupd ..

theorem refreshRate_facts {s : State} {k x : Nat} (htrained : s.hbm.trainDone = true) (htemp : tfind s.rim.temps (24 + k) = some x)
    (hpower : bit s.power.stackPwr k = true) :
    (stkAt (refreshRate s k) k).refresh2x =
        (if 340 ≤ sint 16 x then true else if sint 16 x < 320 then false else (stkAt s k).refresh2x) ∧
      (∀ j, j ≠ k → stkAt (refreshRate s k) j = stkAt s j) ∧ (refreshRate s k).hbm.pcs = s.hbm.pcs := by
  unfold refreshRate
  rw [htemp]
  dsimp only
  generalize (if 340 ≤ sint 16 x then true else if sint 16 x < 320 then false else (stkAt s k).refresh2x) = now
  split
  · next h => exact ⟨h.resolve_right fun hn => hn ⟨htrained, hpower⟩, fun _ _ => rfl, rfl⟩
  · obtain ⟨regs, host, out, h, -⟩ := hbmEventPost_raise (modStk s k (fun x => { x with refresh2x := now })) [0] 4 (32 * k) (b2n now) 0
    rw [h]
    have hstk (j : Nat) := stkAt_modStk s k j (fun x => { x with refresh2x := now })
    exact ⟨congrArg StackState.refresh2x ((hstk k).trans (if_pos rfl)), fun j hj => (hstk j).trans (if_neg hj), rfl⟩

/-! ### Scrub and retirement (R518, R521) -/

theorem patrolScrub_ok {s : State} {pc : Nat} (hserves : pcServes s pc = true) (hrate : fld s .hbmCfg [] 23 16 ≠ 0) :
    patrolScrub pc .ok s =
      { s with hbm := { s.hbm with scrub := tput 0 s.hbm.scrub pc ((tget 0 s.hbm.scrub pc + 1) % pcLines) } } := by
  simp [patrolScrub, hserves, hrate]

theorem writeHbmRetire_live {s : State} {v : Nat} (hkey : bits v 31 16 = 0x5245) (htrained : s.hbm.trainDone = true)
    (hlive : pcLive s (bits v 6 0) = true) (req : Requester) (off : Nat) : writeHbmRetire s req off v =
      retirePc (rimLog s 0x20 true (le 1 req.id ++ le 1 0 ++ le 1 2 ++ le 1 0 ++ le 4 off ++ le 4 1)) (bits v 6 0) 7 := by
  simp [writeHbmRetire, hkey, htrained, hlive]

/-- A retirement that is logged first. -/
theorem retirePc_logged {s : State} {pc : Nat} (hlive : pcLive s pc = true) (cause type : Nat) (sec : Bool) (body : List Byte) :
    PcRetired pc cause s (retirePc (rimLog s type sec body) pc cause) ∧
      s.log.next < (retirePc (rimLog s type sec body) pc cause).log.next := by
  have hnext := next_rimLog s type sec body
  obtain ⟨log, fresh, h⟩ := rimLog_eq s type sec body
  rw [h] at hnext ⊢
  have hretired := pcRetired_retirePc (s := { s with log := log, fresh := fresh }) hlive cause
  exact ⟨⟨hretired.own, hretired.others, hretired.hbm, hretired.homes, hretired.power, hretired.dma, hretired.time,
    hnext.le.trans hretired.log, hretired.event⟩, hnext.trans_le hretired.log⟩

end Sys2Proof.Machine
end

