-- ==== Sys2Proof/Proofs/PowerDomains.lean ====
section
/-! SUPPORT. What lies outside the power domains' own words: frames that are lost, ports that fail and start again (19/R531, R532). -/

namespace Sys2Proof.Machine

/-- The power domains, PWR_MACRO and PWR_EVENT stand. -/
structure DomainsKept (s t : State) : Prop where
  power : t.power = s.power
  cell : regCell t .pwrMacro [] = regCell s .pwrMacro []
  event : eventAt t (RegName.addr .pwrEvent []) = eventAt s (RegName.addr .pwrEvent [])

theorem addr_pwrMacro : RegName.addr .pwrMacro [] = 0x210 := rfl
theorem addr_pwrEvent : RegName.addr .pwrEvent [] = 0x230 := rfl

namespace DomainsKept

variable {s t u : State}

theorem of_regs (hpower : t.power = s.power) (hregs : t.regs = s.regs) : DomainsKept s t :=
  ⟨hpower, regCell_of_cells (by rw [hregs]) .., by rw [eventAt, hregs]; rfl⟩

theorem of_drops (h : DropsKept s t) : DomainsKept s t :=
  ⟨h.power, h.cells _ _ (by decide), h.events _ (by decide) fun sl => by rw [addr_pwrEvent, addr_crlEvent]; omega⟩

theorem refl (s : State) : DomainsKept s s := of_regs rfl rfl

theorem trans (a : DomainsKept s t) (b : DomainsKept t u) : DomainsKept s u :=
  ⟨b.power.trans a.power, b.cell.trans a.cell, b.event.trans a.event⟩

theorem onFrame {id : Nat} {g : Frame → State} (hu : DomainsKept s u) (hg : ∀ f, DomainsKept s (g f)) :
    DomainsKept s (Machine.onFrame u id g) := by
  unfold Machine.onFrame
  split
  · exact hu
  · exact hg _

theorem foldl {α : Type} {f : State → α → State} (h : ∀ s a, DomainsKept s (f s a)) (l : List α) (s : State) :
    DomainsKept s (l.foldl f s) :=
  List.foldlRecOn (motive := fun t => DomainsKept s t) l f (.refl s) fun t ht a _ => ht.trans (h t a)

end DomainsKept

section
variable (s : State) (id : Nat)

/-! ### Frames -/

theorem domainsKept_postEvent (src : Nat) (body : List Byte) : DomainsKept s (postEvent s src body) :=
  .of_drops (dropsKept_postEvent ..)

theorem domainsKept_bump (part num n : Nat) : DomainsKept s (bump s part num n) := .of_drops (dropsKept_bump ..)

theorem domainsKept_modFrame (g : Frame → Frame) : DomainsKept s (modFrame s id g) := .of_drops (dropsKept_modFrame ..)

theorem domainsKept_discardStored : DomainsKept s (discardStored s id) := .of_drops (dropsKept_discardStored ..)

theorem domainsKept_modStore (sl : Nat) (f : CellStore → CellStore) : DomainsKept s (modStore s sl f) := .of_regs rfl rfl

theorem domainsKept_purgeFrame : DomainsKept s (purgeFrame s id) := .onFrame (.refl s) fun _ => .of_regs rfl rfl

theorem domainsKept_voidStored : DomainsKept s (voidStored s id) :=
  (domainsKept_purgeFrame s id).trans
    (.of_drops (((dropsKept_freeFrame _ id).trans (dropsKept_verdictBad _ id)).trans (dropsKept_releaseFrame _ id)))

theorem domainsKept_allocate (sl : Nat) (flips : List (Nat × Nat)) : DomainsKept s (allocate s sl flips).2 := by
  unfold allocate
  extract_lets c
  split
  · exact .refl s
  · split
    · exact .refl s
    · extract_lets w
      split
      · exact .of_regs rfl rfl
      · split
        · exact .of_regs rfl rfl
        · have hstored : DomainsKept s (setStore s sl c.rebuilt) := .of_regs rfl rfl
          have hraised : DomainsKept (setStore s sl c.rebuilt) (raiseEv (setStore s sl c.rebuilt) .crlEvent [sl] [1]) :=
            ⟨rfl, rfl, (eventAt_raiseEv ..).trans (if_neg (by rw [addr_pwrEvent, addr_crlEvent]; omega))⟩
          exact ((hstored.trans hraised).trans (domainsKept_modStore ..)).trans (.of_drops (dropsKept_rimLog ..))

theorem domainsKept_allocateMany (sl : Nat) (flips : List (Nat × Nat)) (n : Nat) (s : State) :
    DomainsKept s (allocateMany sl flips n s).2 := by
  induction n generalizing s with
  | zero => exact .refl s
  | succ n ih =>
    have hone := domainsKept_allocate s sl flips
    unfold allocateMany
    split
    · next h => rw [h] at hone; exact hone
    · next h => rw [h] at hone; exact hone.trans (ih _)

theorem domainsKept_growFrame (flips : List (Nat × Nat)) : DomainsKept s (growFrame flips s id) := by
  refine .onFrame (.refl s) fun f => ?_
  dsimp only
  split
  · exact ((domainsKept_allocateMany f.slice flips _ s).trans (domainsKept_modStore ..)).trans (domainsKept_modFrame ..)
  · exact .refl s

theorem domainsKept_tailBad : DomainsKept s (tailBad s id) := by
  unfold tailBad
  extract_lets s1
  have htail : DomainsKept s s1 := (domainsKept_modFrame ..).trans (domainsKept_growFrame ..)
  refine .onFrame htail fun f => ?_
  split
  · split
    · exact htail.trans (.of_drops (dropsKept_verdictBad ..))
    · exact htail.trans (domainsKept_voidStored ..)
  · exact (htail.trans (.of_drops (dropsKept_puntDropped ..))).trans (domainsKept_voidStored ..)
  · exact htail

theorem domainsKept_abortReceive : DomainsKept s (abortReceive s id) := by
  refine .onFrame (.refl s) fun f => ?_
  extract_lets s1
  have hcounted : DomainsKept s s1 := domainsKept_bump ..
  split
  · exact hcounted.trans (.of_regs rfl rfl)
  · exact (hcounted.trans (.onFrame (.refl s1) fun _ => domainsKept_modFrame ..)).trans (domainsKept_tailBad ..)

/-! ### A port closes -/

theorem domainsKept_discardCrossed : DomainsKept s (discardCrossed s id) := by
  refine .onFrame (.refl s) fun f => ?_
  split
  · exact .of_drops (dropsKept_dropRef ..)
  · exact .of_drops (((dropsKept_stampLost s id).trans (dropsKept_verdictBad _ id)).trans (dropsKept_frameLeft _ id))

theorem domainsKept_cutSending (p : Nat) (pcs : Bool) : DomainsKept s (cutSending s p pcs) := by
  unfold cutSending
  split
  · exact .refl s
  · extract_lets id n s1 s2
    have hended : DomainsKept s s1 := .of_regs rfl rfl
    have hcounted : DomainsKept s1 (cntPort s1 p 11) := domainsKept_bump ..
    have hcut : DomainsKept s s2 := (hended.trans hcounted).trans (.of_regs rfl rfl)
    refine .onFrame hcut fun f => ?_
    extract_lets s3
    have hended : DomainsKept s s3 := by
      unfold s3
      split
      · exact hcut.trans (.of_regs rfl rfl)
      · exact hcut
    split
    · exact (hended.trans (domainsKept_modStore ..)).trans (domainsKept_discardStored ..)
    · exact hended.trans (domainsKept_discardCrossed ..)

theorem domainsKept_flushQueue (p c : Nat) : DomainsKept s (flushQueue s p c) := by
  unfold flushQueue
  extract_lets q over_ s1 wale s2 waiting s3 s4
  have hqueues : DomainsKept s2 s3 := .foldl (f := fun u sl => modStore u sl _) (fun u sl => domainsKept_modStore ..) _ s2
  have hstored : DomainsKept s3 s4 := .foldl (fun u w => (domainsKept_bump u ..).trans (domainsKept_discardStored ..)) waiting s3
  have hemptied : DomainsKept s s2 := .of_regs rfl rfl
  refine ((hemptied.trans hqueues).trans hstored).trans (.foldl (fun u id => ?_) over_ s4)
  split
  · exact .refl u
  · exact (domainsKept_bump u ..).trans (domainsKept_discardCrossed ..)

theorem domainsKept_closeDiscard (p : Nat) (pcs : Bool) : DomainsKept s (closeDiscard s p pcs) := by
  unfold closeDiscard
  extract_lets s1 s2
  have hflushed : DomainsKept s s2 := (domainsKept_cutSending s p pcs).trans (.foldl (fun u c => domainsKept_flushQueue u p c) _ s1)
  exact hflushed.trans (.foldl (f := fun u c => modEq u (eqNum p c) _) (fun _ _ => .of_regs rfl rfl) _ s2)

theorem domainsKept_leaveLpi (p : Nat) : DomainsKept s (leaveLpi s p) :=
  (DomainsKept.foldl (f := fun s l => modLane s l _) (fun _ _ => .of_regs rfl rfl) (lanesOf s p) s).trans (.of_regs rfl rfl)

theorem domainsKept_failPort (p cause : Nat) : DomainsKept s (failPort s p cause) := by
  unfold failPort
  extract_lets pcs s1 s2
  have hstopped : DomainsKept s s1 := by
    unfold s1
    split
    · exact .foldl domainsKept_abortReceive ..
    · exact .refl s
  have hfailed : DomainsKept s1 s2 := DomainsKept.trans (t := modPort s1 p _) (.of_regs rfl rfl) (domainsKept_leaveLpi ..)
  exact (hstopped.trans hfailed).trans (domainsKept_closeDiscard ..)

/-- The ports of a state after one has failed. -/
theorem portAt_failPort_own (p cause q : Nat) :
    portAt (failPort s p cause) q = if q = p then (portAt s p).failed cause else portAt s q := by
  unfold failPort
  extract_lets pcs s1 s2
  have hstopped : s1.line = s.line := by
    unfold s1
    split
    · exact line_receiveStops ..
    · rfl
  rw [portAt_of_line (line_closeDiscard ..)]
  unfold s2
  rw [portAt_leaveLpi, portAt_modPort, portAt_modPort, if_pos rfl, portAt_of_line hstopped, portAt_of_line hstopped]
  by_cases hq : q = p
  · rw [if_pos hq, if_pos hq]
    rfl
  · rw [if_neg hq, if_neg hq, if_neg hq]

/-! ### A port's run of attempts -/

theorem domainsKept_applyReg {r : RegName} {ix : List Nat} (h : RegName.addr .pwrMacro [] ≠ r.addr ix) (b : Applies) :
    DomainsKept s (applyReg s r ix b) := by
  refine ⟨?_, regCell_applyReg_ne _ _ _ _ _ _ h, ?_⟩
  · unfold applyReg
    split <;> rfl
  · unfold applyReg
    split <;> rfl

theorem domainsKept_laneRetrain (l : Nat) : DomainsKept s (laneRetrain s l) := by
  unfold laneRetrain
  extract_lets old s1
  have happlied : DomainsKept s s1 :=
    ((domainsKept_applyReg s (by rw [addr_pwrMacro, addr_laneCfg]; omega) _).trans
      (domainsKept_applyReg _ (by rw [addr_pwrMacro, addr_laneLoss]; omega) _)).trans
      (domainsKept_applyReg _ (by rw [addr_pwrMacro, addr_laneIndData]; omega) _)
  split
  · exact happlied
  · exact happlied.trans (.of_regs rfl rfl)

theorem domainsKept_laneStart (attempt : Nat) (train : Bool) (l : Nat) : DomainsKept s (laneStart s attempt train l) := by
  unfold laneStart
  extract_lets s1 x row base set s2 s3 s4
  have hset : DomainsKept s s3 :=
    ((domainsKept_laneRetrain s l).trans (.of_regs rfl rfl : DomainsKept s1 s2)).trans (.of_regs rfl rfl)
  split
  · exact hset
  · have hpreset : DomainsKept s s4 := by
      unfold s4
      split
      · exact hset
      · exact hset.trans (.of_regs rfl rfl)
    exact hpreset.trans (.of_regs rfl rfl)

theorem domainsKept_attemptStart (p : Nat) : DomainsKept s (attemptStart s p) := by
  unfold attemptStart
  extract_lets s1 s2 s3
  have happlied : DomainsKept s s1 :=
    (domainsKept_applyReg s (by rw [addr_pwrMacro, addr_portCtl]; omega) _).trans
      (domainsKept_applyReg _ (by rw [addr_pwrMacro, addr_portTrain]; omega) _)
  have hcounted : DomainsKept s1 s2 := .of_regs rfl rfl
  have hstarted : DomainsKept s2 s3 := by
    unfold s3
    split
    · exact .of_regs rfl rfl
    · exact .refl s2
  exact ((happlied.trans hcounted).trans hstarted).trans (.foldl (fun u l => domainsKept_laneStart ..) _ _)

theorem domainsKept_enablePort (p : Nat) : DomainsKept s (enablePort s p) := by
  have hrun : DomainsKept s (runStart s p) := by
    unfold runStart
    extract_lets s1 s2 s3
    have hfilled : DomainsKept s s1 := by
      unfold s1
      split
      · obtain ⟨egress, h⟩ := fillShapers_eq s p
        rw [h]
        exact .of_regs rfl rfl
      · exact .refl s
    have hmeasured : DomainsKept s2 s3 := .foldl (f := fun s l => modLane s l _) (fun _ _ => .of_regs rfl rfl) _ _
    exact (hfilled.trans (.of_regs rfl rfl : DomainsKept s1 s2)).trans (hmeasured.trans (domainsKept_attemptStart ..))
  unfold enablePort
  split
  · exact .of_regs rfl rfl
  · split
    · exact hrun
    · exact .refl s

/-! ### A mode takes effect -/

theorem domainsKept_lineRaise (p flag : Nat) : DomainsKept s (lineRaise s p flag) :=
  ⟨rfl, regCell_lineRaise_ne _ _ _ _ _ (by rw [addr_pwrMacro, addr_lineLast]; omega),
    (eventAt_raiseEv ..).trans (if_neg (by rw [addr_pwrEvent, addr_lineEvent]; omega))⟩

theorem domainsKept_takeMode (m mode : Nat) : DomainsKept s (takeMode s m mode) := by
  unfold takeMode
  extract_lets changed s1 s2 s3 s4
  have hlanded : DomainsKept s s1 := ⟨rfl, regCell_landWrite_ne _ _ _ _ _ _ (by rw [addr_pwrMacro, addr_macroMode]; omega), rfl⟩
  have hreset : DomainsKept s1 s2 := .foldl (fun u i => by
    dsimp only
    split <;> exact .of_regs rfl rfl) _ s1
  have hdiffer : DomainsKept s2 s3 := .foldl (fun u p => by
    split
    · exact domainsKept_lineRaise ..
    · exact .refl u) _ s2
  refine (((hlanded.trans hreset).trans hdiffer).trans (domainsKept_postEvent s3 ..)).trans (.foldl (fun u p => ?_) _ s4)
  split
  · exact domainsKept_enablePort ..
  · exact .refl u

end

end Sys2Proof.Machine
end

