-- ==== Sys2Proof/Proofs/PowerWrites.lean ====
section
/-! PROOF. Writes of PWR_MACRO, PWR_CHIPLET and PWR_STACK (19/R531–R535). -/

namespace Sys2Proof.Machine

/-! ### Bits and tables -/

theorem bits_single (x j : Nat) : bits x j j = x / 2 ^ j % 2 := by rw [bits, Nat.add_sub_cancel_left, Nat.pow_one]

/-- A bit that is cleared, and the others. -/
theorem bits_withBits_zero (x m j : Nat) : bits (withBits x m m 0) j j = if j = m then 0 else bits x j j := by
  have hclear : withBits x m m 0 = x - 2 ^ m * (x / 2 ^ m % 2) := by
    rw [withBits, bits_single, at_, Nat.zero_mod, Nat.zero_mul, Nat.add_zero, Nat.mul_comm]
  have hle : 2 ^ m * (x / 2 ^ m % 2) ≤ x :=
    (Nat.mul_le_mul_left _ (Nat.mod_le ..)).trans (Nat.mul_div_le ..)
  have hhigh : (x - 2 ^ m * (x / 2 ^ m % 2)) / 2 ^ m = x / 2 ^ m - x / 2 ^ m % 2 := Nat.sub_mul_div _ _ _
  rw [hclear, bits_single, bits_single]
  generalize hy : x - 2 ^ m * (x / 2 ^ m % 2) = y at hhigh
  split
  · next h =>
    subst h
    omega
  · next h =>
    rcases Nat.lt_or_gt_of_ne h with hj | hj
    · obtain ⟨k, rfl⟩ := Nat.exists_eq_add_of_lt hj
      have hx : x = y + 2 ^ (j + k + 1) * (x / 2 ^ (j + k + 1) % 2) := by omega
      have hmod : x % 2 ^ (j + 1) = y % 2 ^ (j + 1) := by
        conv_lhs => rw [hx]
        have hpow : 2 ^ (j + k + 1) = 2 ^ (j + 1) * 2 ^ k := by rw [← Nat.pow_add]; congr 1; omega
        rw [hpow, Nat.mul_assoc, Nat.add_mul_mod_self_left]
      rw [← Nat.mod_mul_right_div_self, ← Nat.mod_mul_right_div_self, ← Nat.pow_succ, hmod]
    · obtain ⟨k, rfl⟩ := Nat.exists_eq_add_of_lt hj
      have hpow : 2 ^ (m + k + 1) = 2 ^ m * 2 * 2 ^ k := by ring
      rw [hpow, ← Nat.div_div_eq_div_mul, ← Nat.div_div_eq_div_mul, ← Nat.div_div_eq_div_mul, ← Nat.div_div_eq_div_mul, hhigh]
      generalize x / 2 ^ m = q
      congr 2
      omega

theorem tfind_filter {α : Type} (t : Table α) {keep : Nat → Bool} (i : Nat) :
    tfind (t.filter (fun e => keep e.1)) i = if keep i then tfind t i else none := by
  induction t with
  | nil => simp [tfind]
  | cons e r ih =>
    obtain ⟨k, v⟩ := e
    by_cases hi : k = i
    · subst hi
      by_cases hk : keep k = true
      · simp [tfind, hk]
      · simp [hk, ih]
    · by_cases hk : keep k = true
      · simp [tfind, hk, Ne.symm hi, ih]
      · simp [tfind, hk, Ne.symm hi, ih]

theorem tfind_tclear {α : Type} (t : Table α) (lo hi i : Nat) :
    tfind (tclear t lo hi) i = if i < lo ∨ hi ≤ i then tfind t i else none := by
  refine (tfind_filter t (keep := fun k => decide (k < lo) || decide (hi ≤ k)) i).trans ?_
  simp

/-! ### Port macros (R531, R532) -/

theorem inForce_pwrMacro_landWrite (s : State) {v : Nat} (hv : v < 2 ^ 32) : inForce (landWrite s .pwrMacro [] v) .pwrMacro [] = v := by
  have hfld : fld (landWrite s .pwrMacro [] v) .pwrMacro [] 31 0 = bits v 31 0 :=
    fld_landWrite_same s [] v (by decide) (by decide +kernel) (by decide +kernel)
  have hbound : inForce (landWrite s .pwrMacro [] v) .pwrMacro [] < 2 ^ 32 := (regCell _ _ _).force.isLt
  simp only [fld, bits] at hfld
  omega

theorem macroPorts_landWrite (s : State) (m v : Nat) : macroPorts (landWrite s .pwrMacro [] v) m = macroPorts s m := by
  have hmode (p : Nat) : isPort (landWrite s .pwrMacro [] v) p = isPort s p := by
    rw [isPort, portLanes, modeOf, fld_landWrite_ne _ _ _ _ _ _ _ _ (by rw [addr_macroMode, addr_pwrMacro]; omega)]
    rfl
  rw [macroPorts, macroPorts, funext hmode]

/-- A port of a macro that powers down. -/
def MacroLost (p : Nat) (t : State) : Prop := (portAt t p).state = 0 ∧ (portAt t p).cause = 3

theorem MacroLost.of_line {p : Nat} {s t : State} (h : MacroLost p s) (hline : t.line = s.line) : MacroLost p t := by
  rw [MacroLost, portAt_of_line hline]
  exact h

theorem portAt_portLosesMacro (s : State) (p q : Nat) :
    portAt (portLosesMacro s p) q = if q = p then (portAt s p).failed 3 else portAt s q := by
  rw [← portAt_failPort_own]
  unfold portLosesMacro
  extract_lets was s1
  split
  · rfl
  · exact portAt_of_line (line_postEvent ..) _

theorem domainsKept_portLosesMacro (s : State) (p : Nat) : DomainsKept s (portLosesMacro s p) := by
  unfold portLosesMacro
  extract_lets was s1
  split
  · exact domainsKept_failPort ..
  · exact (domainsKept_failPort s p 3).trans (domainsKept_postEvent ..)

theorem domainsKept_stopTest (s : State) (l : Nat) : DomainsKept s (stopTest s l) := by
  unfold stopTest
  split
  · exact .of_regs rfl rfl
  · exact .refl s

theorem portAt_stopTest (s : State) (l q : Nat) : portAt (stopTest s l) q = portAt s q := by
  unfold stopTest
  split <;> rfl

/-- A macro whose ports, tests and frames have ended, before its power goes. -/
def macroEnded (s : State) (m : Nat) : State :=
  let s := (macroPorts s m).foldl portLosesMacro s
  let s := ((List.range 8).map (fun i => m * 8 + i)).foldl stopTest s
  (macroFrames s m).foldl abortReceive s

theorem powerDownMacro_eq (s : State) (m : Nat) : powerDownMacro s m =
    powerChanged (withPower (macroEnded s m) (fun p => { p with macros := withBit p.macros m false })) := rfl

theorem macroEnded_facts (s : State) (m : Nat) :
    DomainsKept s (macroEnded s m) ∧ ∀ p ∈ macroPorts s m, MacroLost p (macroEnded s m) := by
  unfold macroEnded
  extract_lets s1 s2
  refine ⟨((DomainsKept.foldl domainsKept_portLosesMacro ..).trans (.foldl domainsKept_stopTest ..)).trans
    (.foldl domainsKept_abortReceive ..), fun p hp => ?_⟩
  have hlost : MacroLost p s1 := by
    refine foldl_establishes (P := MacroLost) (fun u a => ?_) (fun u a b hb => ?_) hp s
    · rw [MacroLost, portAt_portLosesMacro, if_pos rfl]
      exact ⟨rfl, rfl⟩
    · rw [MacroLost, portAt_portLosesMacro]
      split
      · exact ⟨rfl, rfl⟩
      · exact hb
  have htests : portAt s2 p = portAt s1 p :=
    List.foldlRecOn (motive := fun t => portAt t p = portAt s1 p) _ stopTest rfl fun t ht l _ => (portAt_stopTest t l p).trans ht
  have hframes : portAt ((macroFrames s2 m).foldl abortReceive s2) p = portAt s2 p :=
    portAt_of_line (line_foldl line_abortReceive ..) _
  rw [MacroLost, hframes, htests]
  exact hlost

/-- The power of a domain changes, and PWR_EVENT tells. -/
theorem powerChanged_facts {s u : State} (hkept : DomainsKept s u) (f : PowerState → PowerState) :
    (powerChanged (withPower u f)).power = f s.power ∧ regCell (powerChanged (withPower u f)) .pwrMacro [] = regCell s .pwrMacro [] ∧
      eventAt (powerChanged (withPower u f)) (RegName.addr .pwrEvent []) = (eventAt s (RegName.addr .pwrEvent [])).raise [0] := by
  refine ⟨congrArg f hkept.power, hkept.cell, ?_⟩
  have hevent : eventAt (withPower u f) (RegName.addr .pwrEvent []) = eventAt s (RegName.addr .pwrEvent []) := hkept.event
  rw [powerChanged, eventAt_raiseEv, if_pos rfl, hevent]

theorem line_powerChanged (u : State) (f : PowerState → PowerState) : (powerChanged (withPower u f)).line = u.line := rfl

theorem powerDownMacro_facts (s : State) (m : Nat) :
    (powerDownMacro s m).power = { s.power with macros := withBit s.power.macros m false } ∧
      regCell (powerDownMacro s m) .pwrMacro [] = regCell s .pwrMacro [] ∧
      eventAt (powerDownMacro s m) (RegName.addr .pwrEvent []) = (eventAt s (RegName.addr .pwrEvent [])).raise [0] ∧
      ∀ p ∈ macroPorts s m, MacroLost p (powerDownMacro s m) := by
  obtain ⟨hkept, hlost⟩ := macroEnded_facts s m
  rw [powerDownMacro_eq]
  obtain ⟨hpower, hcell, hevent⟩ := powerChanged_facts hkept (fun p => { p with macros := withBit p.macros m false })
  exact ⟨hpower, hcell, hevent, fun p hp => (hlost p hp).of_line (line_powerChanged ..)⟩

/-- The ports of a macro that gets power are disabled. -/
def portsReset (s : State) (m : Nat) : State :=
  (List.range 8).foldl (fun s i => modPort s (m * 8 + i) (fun x => { x with state := 0, cause := 0, attempting := false })) s

/-- The ports of a macro whose EN is 1 start. -/
def portsStart (s : State) (m : Nat) : State :=
  (macroPorts s m).foldl (fun s p => if fld s .portCtl [p] 31 31 = 1 then enablePort s p else s) s

/-- A macro with power: the mode written meanwhile takes effect, or its ports start. -/
def macroStarted (s : State) (m : Nat) : State :=
  match tfind s.line.heldModes m with
  | some mode => takeMode { s with line := { s.line with heldModes := tdel s.line.heldModes m } } m mode
  | none => portsStart (portsReset s m) m

theorem powerUpMacro_eq (s : State) (m : Nat) : powerUpMacro s m =
    powerChanged (macroStarted (withPower s (fun p => { p with macros := withBit p.macros m true })) m) := rfl

theorem domainsKept_macroStarted (s : State) (m : Nat) : DomainsKept s (macroStarted s m) := by
  unfold macroStarted
  split
  · exact DomainsKept.trans (t := { s with line := { s.line with heldModes := tdel s.line.heldModes m } }) (.of_regs rfl rfl)
      (domainsKept_takeMode ..)
  · have hreset : DomainsKept s (portsReset s m) := .foldl (f := fun s i => modPort s (m * 8 + i) _) (fun _ _ => .of_regs rfl rfl) _ s
    refine hreset.trans (.foldl (fun u p => ?_) ..)
    split
    · exact domainsKept_enablePort ..
    · exact .refl u

/-- A port that is disabled as its macro starts. -/
theorem macroStarted_disabled {s : State} {m p : Nat} (hheld : tfind s.line.heldModes m = none) (hp : p ∈ macroPorts s m)
    (hen : fld s .portCtl [p] 31 31 = 0) : (portAt (macroStarted s m) p).state = 0 ∧ (portAt (macroStarted s m) p).cause = 0 := by
  have hregs : (portsReset s m).regs = s.regs :=
    List.foldlRecOn (motive := fun t : State => t.regs = s.regs) _ (fun s i => modPort s (m * 8 + i) _) rfl fun t ht _ _ => ht
  have hen' : fld (portsReset s m) .portCtl [p] 31 31 = 0 := (fld_of_regCell (regCell_of_cells (by rw [hregs]) ..) ..).trans hen
  have hreset : (portAt (portsReset s m) p).state = 0 ∧ (portAt (portsReset s m) p).cause = 0 := by
    simp only [macroPorts, List.mem_filter, List.mem_map] at hp
    obtain ⟨⟨i, hi, rfl⟩, -⟩ := hp
    refine foldl_establishes (P := fun i t => (portAt t (m * 8 + i)).state = 0 ∧ (portAt t (m * 8 + i)).cause = 0)
      (fun u a => ?_) (fun u a b hb => ?_) hi s
    · rw [portAt_modPort, if_pos rfl]
      exact ⟨rfl, rfl⟩
    · rw [portAt_modPort]
      split
      · exact ⟨rfl, rfl⟩
      · exact hb
  have hfollows : ModeFollows m (portsReset s m) (portsStart (portsReset s m) m) := .foldl (fun u q hq => by
    split
    · next hen => exact modeFollows_enablePort (div_of_mem_macroPorts hq) hen
    · exact .refl u) _
  have hstays := hfollows.ports p (.inr (by rw [hen']; exact Nat.zero_ne_one))
  have hstarted : macroStarted s m = portsStart (portsReset s m) m := by
    rw [macroStarted, hheld]
  rw [hstarted, hstays]
  exact hreset

theorem powerUpMacro_facts (s : State) (m : Nat) :
    (powerUpMacro s m).power = { s.power with macros := withBit s.power.macros m true } ∧
      regCell (powerUpMacro s m) .pwrMacro [] = regCell s .pwrMacro [] ∧
      eventAt (powerUpMacro s m) (RegName.addr .pwrEvent []) = (eventAt s (RegName.addr .pwrEvent [])).raise [0] := by
  have hkept := domainsKept_macroStarted (withPower s (fun p => { p with macros := withBit p.macros m true })) m
  rw [powerUpMacro_eq, powerChanged]
  exact ⟨hkept.power, hkept.cell, (eventAt_raiseEv ..).trans ((if_pos rfl).trans (congrArg (EventReg.raise · [0]) hkept.event))⟩

theorem powerUpMacro_disabled {s : State} {m p : Nat} (hheld : tfind s.line.heldModes m = none) (hp : p ∈ macroPorts s m)
    (hen : fld s .portCtl [p] 31 31 = 0) : (portAt (powerUpMacro s m) p).state = 0 ∧ (portAt (powerUpMacro s m) p).cause = 0 :=
  macroStarted_disabled (s := withPower s (fun p => { p with macros := withBit p.macros m true })) hheld hp hen

/-- A write of PWR_MACRO that takes the power of one macro. -/
theorem writePwrMacro_down {s : State} {v m : Nat} (hdown : macrosIn (inForce s .pwrMacro []) v = [m])
    (hup : macrosIn v (inForce s .pwrMacro []) = []) (hpower : bit s.power.macros m = true) (req : Requester) (off : Nat) :
    writePwrMacro s req off v = powerDownMacro (landWrite s .pwrMacro [] v) m := by
  have hfilter : [m].filter (fun m => bit (landWrite s .pwrMacro [] v).power.macros m) = [m] := List.filter_eq_self.mpr (by simpa using hpower)
  simp only [writePwrMacro, hdown, hup, List.any_nil, Bool.false_eq_true, if_false, hfilter, List.foldl_cons, List.foldl_nil, ite_self]

/-- A write that gives one macro power. -/
theorem writePwrMacro_up {s : State} {v m : Nat} (hdown : macrosIn (inForce s .pwrMacro []) v = [])
    (hup : macrosIn v (inForce s .pwrMacro []) = [m]) (hchiplet : bit s.power.chiplets (m / 4) = true) (hstart : s.rim.startDone = true)
    (req : Requester) (off : Nat) : writePwrMacro s req off v = powerUpMacro (landWrite s .pwrMacro [] v) m := by
  simp [writePwrMacro, hdown, hup, hchiplet, hstart]

/-! ### Line chiplets (R533) -/

/-- The macros of a chiplet lose their power, and their bits in PWR_MACRO. -/
def chipletEnded (s : State) (c : Nat) : State :=
  let ms := (List.range 4).map (fun i => c * 4 + i)
  let s := (ms.filter (fun m => bit s.power.macros m)).foldl powerDownMacro s
  ms.foldl (fun s m => forceFld s .pwrMacro [] m m 0) s

theorem powerDownChiplet_eq (s : State) (c : Nat) : powerDownChiplet s c =
    powerChanged (chipletCleared (withPower (chipletEnded s c) (fun p => { p with chiplets := withBit p.chiplets c false })) c) := rfl

theorem fld_forceFld_bit (s : State) (m j : Nat) :
    fld (forceFld s .pwrMacro [] m m 0) .pwrMacro [] j j = if j = m then 0 else fld s .pwrMacro [] j j := by
  have hbound : inForce s .pwrMacro [] < 2 ^ 32 := (regCell _ _ _).force.isLt
  have hless : withBits (inForce s .pwrMacro []) m m 0 ≤ inForce s .pwrMacro [] := by
    rw [withBits, at_, Nat.zero_mod, Nat.zero_mul, Nat.add_zero]
    exact Nat.sub_le ..
  rw [fld, forceFld, inForce_forceReg_same, Nat.mod_eq_of_lt (by omega), bits_withBits_zero]
  rfl

theorem chipletEnded_facts (s : State) (c : Nat) : (chipletEnded s c).power.chiplets = s.power.chiplets ∧
    ∀ i, i < 4 → fld (chipletEnded s c) .pwrMacro [] (c * 4 + i) (c * 4 + i) = 0 := by
  unfold chipletEnded
  extract_lets ms s1
  have hdown : s1.power.chiplets = s.power.chiplets :=
    List.foldlRecOn (motive := fun t : State => t.power.chiplets = s.power.chiplets) _ powerDownMacro rfl fun t ht m _ => by
      rw [(powerDownMacro_facts t m).1]
      exact ht
  refine ⟨List.foldlRecOn (motive := fun t : State => t.power.chiplets = s.power.chiplets) _
    (fun s m => forceFld s .pwrMacro [] m m 0) hdown fun t ht _ _ => ht, fun i hi => ?_⟩
  have hmem : c * 4 + i ∈ ms := List.mem_map_of_mem (List.mem_range.mpr hi)
  refine foldl_establishes (P := fun j t => fld t .pwrMacro [] j j = 0) (fun u a => ?_) (fun u a b hb => ?_) hmem s1
  · rw [fld_forceFld_bit, if_pos rfl]
  · rw [fld_forceFld_bit]
    split
    · rfl
    · exact hb

/-- Nothing of a chiplet's registers is left. -/
def ChipletForgotten (c : Nat) (t : State) : Prop :=
  ∀ off, 0x3000000 + c * 0x20000 ≤ off → off < 0x3000000 + (c + 1) * 0x20000 →
    tfind t.regs.cells off = none ∧ tfind t.regs.events off = none

theorem chipletForgotten_powerChanged (s : State) (c : Nat) : ChipletForgotten c (powerChanged (chipletCleared s c)) := by
  unfold ChipletForgotten
  intro off hlo hhi
  have hout : ¬ (off < 0x3000000 + c * 0x20000 ∨ 0x3000000 + c * 0x20000 + 0x20000 ≤ off) := by omega
  refine ⟨(tfind_tclear ..).trans (if_neg hout), ?_⟩
  exact (tfind_tins_ne _ _ (by rw [addr_pwrEvent]; omega)).trans ((tfind_tclear ..).trans (if_neg hout))

/-- Registers elsewhere stand. -/
theorem regCell_chipletCleared (s : State) (c : Nat) {r : RegName} {ix : List Nat} (h : r.addr ix < 0x3000000) :
    regCell (chipletCleared s c) r ix = regCell s r ix := by
  have hkept : tfind (chipletCleared s c).regs.cells (r.addr ix) = tfind s.regs.cells (r.addr ix) :=
    (tfind_tclear ..).trans (if_pos (by omega))
  rw [regCell, tget_eq_getD_tfind, hkept, ← tget_eq_getD_tfind]
  rfl

theorem eventAt_chipletCleared (s : State) (c : Nat) {off : Nat} (h : off < 0x3000000) :
    eventAt (chipletCleared s c) off = eventAt s off := by
  have hkept : tfind (chipletCleared s c).regs.events off = tfind s.regs.events off := (tfind_tclear ..).trans (if_pos (by omega))
  rw [eventAt, tget_eq_getD_tfind, hkept, ← tget_eq_getD_tfind]
  rfl

theorem fld_powerChanged (s : State) (c : Nat) (f : PowerState → PowerState) (hi lo : Nat) :
    fld (powerChanged (chipletCleared (withPower s f) c)) .pwrMacro [] hi lo = fld s .pwrMacro [] hi lo :=
  fld_of_regCell (regCell_chipletCleared (withPower s f) c (r := .pwrMacro) (ix := []) (by rw [addr_pwrMacro]; omega)) hi lo

theorem powerDownChiplet_facts (s : State) (c : Nat) : ChipletForgotten c (powerDownChiplet s c) ∧
    (powerDownChiplet s c).power.chiplets = withBit s.power.chiplets c false ∧
    ∀ i, i < 4 → fld (powerDownChiplet s c) .pwrMacro [] (c * 4 + i) (c * 4 + i) = 0 := by
  obtain ⟨hpower, hmacros⟩ := chipletEnded_facts s c
  rw [powerDownChiplet_eq]
  refine ⟨chipletForgotten_powerChanged _ c, congrArg (withBit · c false) hpower, fun i hi => ?_⟩
  exact (fld_powerChanged ..).trans (hmacros i hi)

theorem powerUpChiplet_facts (s : State) (c : Nat) :
    (powerUpChiplet s c).power = { s.power with chiplets := withBit s.power.chiplets c true } ∧
      (powerUpChiplet s c).frames = s.frames ∧
      eventAt (powerUpChiplet s c) (RegName.addr .pwrEvent []) = (eventAt s (RegName.addr .pwrEvent [])).raise [0] := by
  unfold powerUpChiplet
  extract_lets s1
  have hloaded : ∃ cells, loadLoss (chipletCleared s1 c) c =
      { chipletCleared s1 c with regs := { (chipletCleared s1 c).regs with cells := cells } } :=
    List.foldlRecOn (motive := fun t => ∃ cells, t =
      { chipletCleared s1 c with regs := { (chipletCleared s1 c).regs with cells := cells } }) _ _ ⟨_, rfl⟩ fun t ht i _ => by
        obtain ⟨cells, rfl⟩ := ht
        exact ⟨_, rfl⟩
  obtain ⟨cells, hloaded⟩ := hloaded
  rw [hloaded, powerChanged]
  refine ⟨rfl, rfl, (eventAt_raiseEv ..).trans ((if_pos rfl).trans (congrArg (EventReg.raise · [0]) ?_))⟩
  exact eventAt_chipletCleared s1 c (by rw [addr_pwrEvent]; omega)

/-- A write of PWR_CHIPLET that takes the power of one chiplet. -/
theorem writePwrChiplet_down {s : State} {v c : Nat} (hdown : chipletsIn (inForce s .pwrChiplet []) v = [c])
    (hup : chipletsIn v (inForce s .pwrChiplet []) = []) (hpower : bit s.power.chiplets c = true) :
    writePwrChiplet s v = powerDownChiplet (landWrite s .pwrChiplet [] v) c := by
  have hfilter : [c].filter (fun c => bit (landWrite s .pwrChiplet [] v).power.chiplets c) = [c] :=
    List.filter_eq_self.mpr (by simpa using hpower)
  simp only [writePwrChiplet, hdown, hup, hfilter, List.foldl_cons, List.foldl_nil, ite_self]

/-- A write that gives one chiplet power. -/
theorem writePwrChiplet_up {s : State} {v c : Nat} (hdown : chipletsIn (inForce s .pwrChiplet []) v = [])
    (hup : chipletsIn v (inForce s .pwrChiplet []) = [c]) (hstart : s.rim.startDone = true) :
    writePwrChiplet s v = powerUpChiplet (landWrite s .pwrChiplet [] v) c := by
  simp [writePwrChiplet, hdown, hup, hstart]

/-! ### HBM stacks (R535) -/

theorem retirePc_kept (s : State) (pc cause : Nat) :
    ((retirePc s pc cause).power = s.power ∧ (retirePc s pc cause).dma = s.dma ∧ (retirePc s pc cause).time = s.time) ∧
      (∀ q, q ≠ pc → pcAt (retirePc s pc cause) q = pcAt s q) ∧ pcLive (retirePc s pc cause) pc = false := by
  cases hlive : pcLive s pc with
  | false =>
    have hstays : retirePc s pc cause = s := by
      rw [retirePc, hlive]
      rfl
    rw [hstays]
    exact ⟨⟨rfl, rfl, rfl⟩, fun _ _ => rfl, hlive⟩
  | true =>
    have hretired := pcRetired_retirePc hlive cause
    exact ⟨⟨hretired.power, hretired.dma, hretired.time⟩, hretired.others, by rw [pcLive, hretired.own]; rfl⟩

/-- The pseudo-channels of a stack. -/
def stackPcs (k : Nat) : List Nat := (List.range 32).map (fun i => k * 32 + i)

theorem mem_stackPcs {k pc : Nat} : pc ∈ stackPcs k ↔ pc / 32 = k := by
  simp only [stackPcs, List.mem_map, List.mem_range]
  exact ⟨fun ⟨i, hi, h⟩ => by omega, fun h => ⟨pc % 32, by omega, by omega⟩⟩

/-- The live pseudo-channels of a stack that powers down are retired. -/
def stackRetired (s : State) (k : Nat) : State :=
  if s.hbm.trainDone then (stackPcs k).foldl (fun s pc => retirePc s pc 7) s else s

theorem powerDownStack_eq (s : State) (k : Nat) : powerDownStack s k =
    stacksLeave (withPower (stackRetired s k) (fun p => { p with leaving := (k, (stackRetired s k).time.tick) :: p.leaving })) := rfl

theorem stackRetired_facts (s : State) (k : Nat) :
    ((stackRetired s k).power = s.power ∧ (stackRetired s k).dma = s.dma ∧ (stackRetired s k).time = s.time) ∧
      (∀ pc, pc / 32 ≠ k → pcAt (stackRetired s k) pc = pcAt s pc) ∧
      (s.hbm.trainDone = true → ∀ pc, pc / 32 = k → pcLive (stackRetired s k) pc = false) := by
  unfold stackRetired
  split
  · refine ⟨?_, fun q hq => ?_, fun _ pc hpc => ?_⟩
    · exact List.foldlRecOn (motive := fun t : State => t.power = s.power ∧ t.dma = s.dma ∧ t.time = s.time) _ _ ⟨rfl, rfl, rfl⟩
        fun t ⟨hpower, hdma, htime⟩ pc _ => by
          obtain ⟨⟨hpower', hdma', htime'⟩, -, -⟩ := retirePc_kept t pc 7
          exact ⟨hpower'.trans hpower, hdma'.trans hdma, htime'.trans htime⟩
    · exact List.foldlRecOn (motive := fun t : State => pcAt t q = pcAt s q) _ _ rfl fun t ht pc hpc =>
        ((retirePc_kept t pc 7).2.1 q (fun h => hq (h ▸ mem_stackPcs.mp hpc))).trans ht
    · refine foldl_establishes (f := fun s pc => retirePc s pc 7) (P := fun pc t => pcLive t pc = false) (fun u a => ?_)
        (fun u a b hb => ?_) (mem_stackPcs.mpr hpc) s
      · exact (retirePc_kept u a 7).2.2
      · by_cases hab : b = a
        · rw [hab]
          exact (retirePc_kept u a 7).2.2
        · rw [pcLive, (retirePc_kept u a 7).2.1 b hab]
          exact hb
  · next h => exact ⟨⟨rfl, rfl, rfl⟩, fun _ _ => rfl, fun htrained => absurd htrained h⟩

theorem stackOff_facts (s : State) (k : Nat) : (stackOff s k).power = { s.power with
      stackPwr := withBit s.power.stackPwr k false, leaving := s.power.leaving.filter (fun e => e.1 != k) } ∧
    (∀ pc, pc / 32 ≠ k → pcAt (stackOff s k) pc = pcAt s pc) ∧ ∀ pc, pc / 32 = k → (pcAt (stackOff s k) pc).state = 3 := by
  unfold stackOff
  extract_lets power s1
  have hoff (t : State) (n q : Nat) := pcAt_modPc t n q (fun p => { p with state := 3 })
  refine ⟨?_, fun q hq => ?_, fun pc hpc => ?_⟩
  · exact List.foldlRecOn (motive := fun t : State => t.power = s1.power) _ (fun s pc => modPc s pc _) rfl fun t ht _ _ => ht
  · refine List.foldlRecOn (motive := fun t : State => pcAt t q = pcAt s q) _ _ rfl fun t ht n hn => ?_
    exact (hoff t n q).trans ((if_neg fun h : q = n => hq (h ▸ mem_stackPcs.mp hn)).trans ht)
  · refine foldl_establishes (P := fun n t => (pcAt t n).state = 3) (fun u n => ?_) (fun u n m hm => ?_) (mem_stackPcs.mpr hpc) s1
    · rw [hoff, if_pos rfl]
    · rw [hoff]
      split
      · rfl
      · exact hm

theorem stackTouched_of_dma {s t : State} (h : t.dma = s.dma) (k : Nat) : stackTouched t k = stackTouched s k := by
  rw [stackTouched, h]
  rfl

/-- With no other stack waiting, a stack that powers down leaves at once or waits for the channels that touch it. -/
theorem stacksLeave_one {s : State} {k n : Nat} (h : s.power.leaving = [(k, n)]) :
    stacksLeave s = if stackTouched s k then s else stackOff s k := by
  rw [stacksLeave, h]
  cases hk : stackTouched s k <;> simp [hk]

/-- A stack waits to leave, or leaves. -/
theorem stacksLeave_facts {s u : State} (k n : Nat) (hpower : u.power = s.power) (hdma : u.dma = s.dma)
    (hleaving : s.power.leaving = []) {t : State}
    (ht : t = stacksLeave (withPower u (fun p => { p with leaving := (k, n) :: p.leaving }))) :
    (∀ pc, pc / 32 ≠ k → pcAt t pc = pcAt u pc) ∧
      (stackTouched s k = false → t.power = { s.power with stackPwr := withBit s.power.stackPwr k false } ∧
        ∀ pc, pc / 32 = k → (pcAt t pc).state = 3) ∧
      (stackTouched s k = true → t.power = { s.power with leaving := [(k, n)] } ∧ ∀ pc, pcAt t pc = pcAt u pc) := by
  have hwaits : (withPower u (fun p => { p with leaving := (k, n) :: p.leaving })).power = { s.power with leaving := [(k, n)] } := by
    show { u.power with leaving := (k, n) :: u.power.leaving } = _
    rw [hpower, hleaving]
  have hpcs (pc : Nat) : pcAt (withPower u (fun p => { p with leaving := (k, n) :: p.leaving })) pc = pcAt u pc := rfl
  have htouched : stackTouched (withPower u (fun p => { p with leaving := (k, n) :: p.leaving })) k = stackTouched s k :=
    stackTouched_of_dma hdma k
  rw [stacksLeave_one (congrArg PowerState.leaving hwaits), htouched] at ht
  generalize withPower u (fun p => { p with leaving := (k, n) :: p.leaving }) = w at *
  obtain ⟨hoff, hothers, hdown⟩ := stackOff_facts w k
  cases hk : stackTouched s k with
  | false =>
    rw [hk, if_neg Bool.false_ne_true] at ht
    subst ht
    refine ⟨fun pc hpc => (hothers pc hpc).trans (hpcs pc), fun _ => ⟨?_, hdown⟩, fun h => absurd h Bool.false_ne_true⟩
    rw [hoff, hwaits]
    simp [hleaving]
  | true =>
    rw [hk, if_pos rfl] at ht
    subst ht
    exact ⟨fun pc _ => hpcs pc, fun h => absurd h.symm Bool.false_ne_true, fun _ => ⟨hwaits, hpcs⟩⟩

theorem powerDownStack_facts {s : State} (k : Nat) (hleaving : s.power.leaving = []) :
    (∀ pc, pc / 32 ≠ k → pcAt (powerDownStack s k) pc = pcAt s pc) ∧
      (stackTouched s k = false → (powerDownStack s k).power = { s.power with stackPwr := withBit s.power.stackPwr k false } ∧
        ∀ pc, pc / 32 = k → (pcAt (powerDownStack s k) pc).state = 3) ∧
      (stackTouched s k = true → (powerDownStack s k).power = { s.power with leaving := [(k, s.time.tick)] } ∧
        (s.hbm.trainDone = true → ∀ pc, pc / 32 = k → pcLive (powerDownStack s k) pc = false)) := by
  obtain ⟨⟨hpower, hdma, htime⟩, hothers, hgone⟩ := stackRetired_facts s k
  obtain ⟨hkept, hoff, hwaits⟩ := stacksLeave_facts k s.time.tick hpower hdma hleaving rfl
  rw [powerDownStack_eq, htime]
  refine ⟨fun pc hpc => (hkept pc hpc).trans (hothers pc hpc), hoff, fun htouched => ⟨(hwaits htouched).1, fun htrained pc hpc => ?_⟩⟩
  rw [pcLive, (hwaits htouched).2 pc]
  exact hgone htrained pc hpc

/-- A write of PWR_STACK with its key that clears one bit. -/
theorem writePwrStack_down {s : State} {v k : Nat} (hdown : stacksIn (inForce s .pwrStack []) v = [k])
    (hup : stacksIn v (inForce s .pwrStack []) = []) (hkey : bits v 31 16 = 0x5350) (req : Requester) (off : Nat) :
    writePwrStack s req off v = powerDownStack (landWrite s .pwrStack [] v) k := by
  simp [writePwrStack, hdown, hup, hkey]

end Sys2Proof.Machine
end

