-- ==== Sys2Proof/Proofs/MemoryPower.lean ====
section
/-! PROOF. Standby and wake, and O58 (18/R513–R521; 19/R531–R539). -/

namespace Sys2Proof.Machine

/-! ### Standby and wake (R536, R539) -/

theorem mem_setBits {x n i : Nat} : i ∈ setBits x n ↔ i < n ∧ bit x i = true := by
  rw [setBits, List.mem_filter, List.mem_range]

/-- The powered stacks enter or leave self-refresh, and nothing else changes. -/
theorem selfRefresh_facts (s : State) (b : Bool) :
    (∃ stks, selfRefresh s b = { s with hbm := { s.hbm with stks := stks } }) ∧
      ∀ k, k < 4 → bit s.power.stackPwr k = true → (stkAt (selfRefresh s b) k).selfRefresh = b := by
  have hstk (t : State) (k j : Nat) := stkAt_modStk t k j (fun x => { x with selfRefresh := b })
  refine ⟨?_, fun k hk hbit => ?_⟩
  · exact List.foldlRecOn (motive := fun t : State => ∃ stks, t = { s with hbm := { s.hbm with stks := stks } }) _
      (fun s k => modStk s k (fun x => { x with selfRefresh := b })) ⟨s.hbm.stks, rfl⟩ fun t ht k _ => by
        obtain ⟨stks, rfl⟩ := ht
        exact ⟨_, rfl⟩
  · refine foldl_establishes (P := fun k t => (stkAt t k).selfRefresh = b) (fun u k => ?_) (fun u k j hj => ?_)
      (mem_setBits.mpr ⟨hk, hbit⟩) s
    · rw [hstk, if_pos rfl]
    · rw [hstk]
      split
      · rfl
      · exact hj

/-- One wake more in the first banks. -/
theorem gens_wake {t : Table Nat} (h : tsorted t = true) (n : Nat) :
    tsorted ((List.range n).foldl (fun t p => tput 0 t p (wrap 16 (tget 0 t p + 1))) t) = true ∧
      ∀ p, tget 0 ((List.range n).foldl (fun t p => tput 0 t p (wrap 16 (tget 0 t p + 1))) t) p =
        if p < n then (tget 0 t p + 1) % 65536 else tget 0 t p := by
  induction n with
  | zero => exact ⟨h, fun p => rfl⟩
  | succ n ih =>
    obtain ⟨hsorted, hgens⟩ := ih
    rw [List.range_succ, List.foldl_append, List.foldl_cons, List.foldl_nil]
    refine ⟨tsorted_tput _ _ hsorted, fun p => ?_⟩
    rw [tget_tput n p hsorted]
    by_cases hp : p = n
    · rw [if_pos hp, if_pos (by omega), hgens, if_neg (by omega), hp]
      rfl
    · rw [if_neg hp, hgens]
      split
      · rw [if_pos (by omega)]
      · rw [if_neg (by omega)]

theorem gens_bump (s : State) (part num n : Nat) : (bump s part num n).counters.gens = s.counters.gens := by
  unfold bump bumpRaw
  extract_lets pair k v c1
  split
  · show (ite _ _ _ : CounterState).gens = _
    split
    · split <;> rfl
    · rfl
  · rfl

theorem bump_gens (s : State) (part num n : Nat) :
    ∃ c, bump s part num n = { s with counters := c } ∧ c.gens = s.counters.gens := by
  have hgens := gens_bump s part num n
  obtain ⟨c, h⟩ := bump_eq s part num n
  rw [h] at hgens
  exact ⟨c, h, hgens⟩

/-- The wakes of the banks, one more each. -/
def wokenGens (gens : Table Nat) : Table Nat := (List.range 9).foldl (fun t p => tput 0 t p (wrap 16 (tget 0 t p + 1))) gens

theorem tget_wokenGens {t : Table Nat} (h : tsorted t = true) {p : Nat} (hp : p < 9) :
    tget 0 (wokenGens t) p = (tget 0 t p + 1) % 65536 := ((gens_wake h 9).2 p).trans (if_pos hp)

/-- The device runs again, and every counter bank has one wake more. -/
def banksWoken (s : State) : State :=
  { s with
    power := { s.power with state := 0, wakeAsked := false },
    counters := { s.counters with gens := wokenGens s.counters.gens } }

theorem banksWoken_facts {s t : State} (ht : t = banksWoken s) (h : tsorted s.counters.gens = true) :
    t.power = { s.power with state := 0, wakeAsked := false } ∧ t.hbm = s.hbm ∧
      ∀ p, p < 9 → tget 0 t.counters.gens p = (tget 0 s.counters.gens p + 1) % 65536 := by
  simp only [banksWoken] at ht
  subst ht
  refine ⟨rfl, rfl, fun p hp => ?_⟩
  dsimp only
  exact tget_wokenGens (t := s.counters.gens) h hp

/-- Timers that fell due in standby. -/
def timersLate (s : State) : Nat := (s.sched.timers.filter (fun t => decide (t.due ≤ s.time.tick))).length

theorem wakeUp_eq (s : State) : wakeUp s = if timersLate (selfRefresh s false) = 0 then banksWoken (selfRefresh s false)
    else bump (raiseEv (banksWoken (selfRefresh s false)) .schEvent [] [3]) 0 0x92 (timersLate (selfRefresh s false)) := rfl

/-- Late timers are counted. -/
theorem wokenLate {s u : State} {pcs : Table PcState} {power : PowerState} (hpower : u.power = power) (hpcs : u.hbm.pcs = pcs)
    (hself : ∀ k, k < 4 → bit s.power.stackPwr k = true → (stkAt u k).selfRefresh = false)
    (hgens : ∀ p, p < 9 → tget 0 u.counters.gens p = (tget 0 s.counters.gens p + 1) % 65536) (late : Nat) {t : State}
    (ht : t = if late = 0 then u else bump (raiseEv u .schEvent [] [3]) 0 0x92 late) :
    t.power = power ∧ t.hbm.pcs = pcs ∧ (∀ k, k < 4 → bit s.power.stackPwr k = true → (stkAt t k).selfRefresh = false) ∧
      ∀ p, p < 9 → tget 0 t.counters.gens p = (tget 0 s.counters.gens p + 1) % 65536 := by
  split at ht
  · subst ht
    exact ⟨hpower, hpcs, hself, hgens⟩
  · obtain ⟨c, hbump, hcount⟩ := bump_gens (raiseEv u .schEvent [] [3]) 0 0x92 late
    subst ht
    rw [hbump]
    exact ⟨hpower, hpcs, hself, fun p hp => by rw [show c.gens = u.counters.gens from hcount]; exact hgens p hp⟩

theorem wakeUp_facts {s : State} (h : tsorted s.counters.gens = true) :
    (wakeUp s).power = { s.power with state := 0, wakeAsked := false } ∧ (wakeUp s).hbm.pcs = s.hbm.pcs ∧
      (∀ k, k < 4 → bit s.power.stackPwr k = true → (stkAt (wakeUp s) k).selfRefresh = false) ∧
      ∀ p, p < 9 → tget 0 (wakeUp s).counters.gens p = (tget 0 s.counters.gens p + 1) % 65536 := by
  obtain ⟨⟨stks, hset⟩, hstks⟩ := selfRefresh_facts s false
  rw [wakeUp_eq]
  rw [hset] at hstks ⊢
  obtain ⟨hpower, hhbm, hgens⟩ := banksWoken_facts (s := { s with hbm := { s.hbm with stks := stks } }) rfl h
  have hself (k : Nat) (hk : k < 4) (hbit : bit s.power.stackPwr k = true) :
      (stkAt (banksWoken { s with hbm := { s.hbm with stks := stks } }) k).selfRefresh = false := by
    rw [stkAt, hhbm]
    exact hstks k hk hbit
  exact wokenLate hpower (congrArg HbmState.pcs hhbm) hself hgens _ rfl

/-- The device enters retention: the stacks are in self-refresh, and PWR_EVENT tells. -/
theorem retain_facts (s : State) (flag : Nat) : ∃ regs hbm,
    retain s flag = { s with regs := regs, hbm := hbm, power := { s.power with state := 2 } } ∧ hbm.pcs = s.hbm.pcs ∧
      (∀ k, k < 4 → bit s.power.stackPwr k = true → (stkAt (retain s flag) k).selfRefresh = true) ∧
      eventAt (retain s flag) (RegName.addr .pwrEvent []) = (eventAt s (RegName.addr .pwrEvent [])).raise [flag] := by
  obtain ⟨⟨stks, hset⟩, hstks⟩ := selfRefresh_facts s true
  unfold retain
  rw [hset] at hstks ⊢
  exact ⟨_, _, rfl, rfl, hstks, (eventAt_raiseEv ..).trans (if_pos rfl)⟩

/-! ### The obligation -/

/-- Settles O58. -/
theorem memoryAndPower : Obligations.MemoryAndPower := by
  unfold Obligations.MemoryAndPower
  intro s
  refine ⟨fun pc r w sweep hserves => ⟨fun hr hw => ?_, fun hr hsweep => ?_⟩, fun c inRow window hc ha hb => ?_,
    fun pc x hserves htemp hpower => ?_, fun pc hserves hrate => ?_, fun req v pc hpc hreach hkey htrained hlive => ?_,
    fun req v m hv hm hreach => ⟨fun hdown hup hpower => ?_, fun hdown hup hchiplet hstart => ?_⟩, ?_, ?_, ?_, ?_, ?_, ?_⟩
  · exact ⟨_, _, congrArg Host.Outcome.next (hbmRecal_wide hserves hr hw sweep), rfl, (pcAt_modPc ..).trans (if_pos rfl),
      fun q hq => (pcAt_modPc s pc q _).trans (if_neg hq)⟩
  · exact ⟨_, congrArg Host.Outcome.next (hbmRecal_narrow hserves hr hsweep), pcRetired_setWindows (pcLive_of_serves hserves) ..⟩
  · refine ⟨_, rfl, replays_hbmCaParity ha inRow window, fun hkept => ?_, fun hrow hthird hwindow => ?_⟩
    · have hrun : hbmCaParity c inRow window s = parityReported s c (parityRun s c inRow) := by
        rw [hbmCaParity_eq ha]
        refine if_neg fun ⟨hthree, hnone⟩ => ?_
        rcases hkept with hrow | hother | hfound
        · rw [parityRun, hrow] at hthree
          exact absurd (show 1 = 3 from hthree) (by decide)
        · unfold parityRun at hthree
          split at hthree <;> omega
        · exact hnone hfound
      obtain ⟨-, hpcs, hevent⟩ := parityReported_facts s c (parityRun s c inRow)
      rw [hrun]
      exact ⟨hpcs, hevent⟩
    · have hrun : hbmCaParity c inRow window s =
          retirePc (retirePc (parityReported s c (parityRun s c inRow)) (c * 2) 5) (c * 2 + 1) 5 := by
        rw [hbmCaParity_eq ha]
        refine if_pos ⟨by rw [parityRun, hrow, hthird]; rfl, by rw [hwindow]; exact Bool.false_ne_true⟩
      obtain ⟨-, hpcs, -⟩ := parityReported_facts s c (parityRun s c inRow)
      have hlive {n : Nat} (h : pcServes s n = true) : pcLive (parityReported s c (parityRun s c inRow)) n = true := by
        rw [pcLive, pcAt, hpcs]
        exact pcLive_of_serves h
      rw [hrun]
      exact retirePc_both (by omega) (hlive ha) (hlive hb) 5
  · exact ⟨_, congrArg Host.Outcome.next (if_pos hserves), refreshRate_facts (trainDone_of_serves hserves) htemp hpower⟩
  · exact congrArg Host.Outcome.next (patrolScrub_ok hserves hrate)
  · subst hpc
    obtain ⟨hretired, hlog⟩ := retirePc_logged hlive 7 0x20 true
      (le 1 req.id ++ le 1 0 ++ le 1 2 ++ le 1 0 ++ le 4 (RegName.addr .hbmRetire []) ++ le 4 1)
    exact ⟨_, congrArg Host.Outcome.next ((guarded_ok hreach (by decide)).trans (writeHbmRetire_live hkey htrained hlive req _)),
      congrArg PcState.state hretired.own, congrArg PcState.cause hretired.own, hretired.others, hlog,
      fun p _ hhome => hretired.homes p hhome, hretired.event⟩
  · have hrun := writePwrMacro_down hdown hup hpower req (RegName.addr .pwrMacro [])
    obtain ⟨hpower', hcell, hevent, hlost⟩ := powerDownMacro_facts (landWrite s .pwrMacro [] v) m
    rw [macroPorts_landWrite] at hlost
    refine ⟨_, congrArg Host.Outcome.next ((guarded_ok hreach (by decide)).trans ((if_neg (by rw [hdown]; exact Bool.false_ne_true)).trans hrun)),
      ?_, hpower', hlost, hevent⟩
    rw [inForce, hcell, ← inForce]
    exact inForce_pwrMacro_landWrite s hv
  · have hrun := writePwrMacro_up hdown hup hchiplet hstart req (RegName.addr .pwrMacro [])
    obtain ⟨hpower', hcell, hevent⟩ := powerUpMacro_facts (landWrite s .pwrMacro [] v) m
    refine ⟨_, congrArg Host.Outcome.next ((guarded_ok hreach (by decide)).trans ((if_pos (by rw [hdown]; rfl)).trans hrun)),
      ?_, hpower', fun hheld p hp hen => ?_, hevent⟩
    · rw [inForce, hcell, ← inForce]
      exact inForce_pwrMacro_landWrite s hv
    · rw [← macroPorts_landWrite s m v] at hp
      exact powerUpMacro_disabled hheld hp ((fld_landWrite_ne _ _ _ _ _ _ _ _ (by rw [addr_portCtl, addr_pwrMacro]; omega)).trans hen)
  · intro req v c hv hc hreach cleared
    refine ⟨fun hdown hup hpower => ?_, fun hdown hup hstart => ?_⟩
    · exact ⟨_, congrArg Host.Outcome.next ((guarded_ok hreach (by decide)).trans ((if_neg (by rw [hdown]; exact Bool.false_ne_true)).trans
        (writePwrChiplet_down hdown hup hpower))), powerDownChiplet_facts (landWrite s .pwrChiplet [] v) c⟩
    · exact ⟨_, congrArg Host.Outcome.next ((guarded_ok hreach (by decide)).trans ((if_pos (by rw [hdown]; rfl)).trans
        (writePwrChiplet_up hdown hup hstart))), powerUpChiplet_facts (landWrite s .pwrChiplet [] v) c⟩
  · intro req v k hk hreach hdown hup hkey hleaving
    exact ⟨_, congrArg Host.Outcome.next ((guarded_ok hreach (by decide)).trans (writePwrStack_down hdown hup hkey req _)),
      powerDownStack_facts (s := landWrite s .pwrStack [] v) k hleaving⟩
  · intro req v hreach hkey
    refine ⟨fun hop hmacros hminimal hstate => ?_, fun hop hstate hsorted => ?_, fun hop hstate => ?_⟩
    · have hrun : writePwrCtl s req (RegName.addr .pwrCtl []) v [] = { s with power := { s.power with state := 1, since := s.time.tick } } := by
        simp [writePwrCtl, hkey, hop, standbyRequest, hmacros, hminimal, hstate, withPower]
      exact congrArg Host.Outcome.next ((guarded_ok hreach (by decide)).trans ((if_neg (by rw [hop]; decide)).trans hrun))
    · have hrun : writePwrCtl s req (RegName.addr .pwrCtl []) v [] = wakeUp s := by
        simp [writePwrCtl, hkey, hop, wake, hstate, refreshExit]
      exact ⟨_, congrArg Host.Outcome.next ((guarded_ok hreach (by decide)).trans ((if_pos hop).trans hrun)), wakeUp_facts hsorted⟩
    · have hrun : writePwrCtl s req (RegName.addr .pwrCtl []) v [] = { s with power := { s.power with wakeAsked := true } } := by
        simp [writePwrCtl, hkey, hop, wake, hstate, withPower]
      exact congrArg Host.Outcome.next ((guarded_ok hreach (by decide)).trans ((if_pos hop).trans hrun))
  · intro hstate hquiet htouches
    refine congrArg Host.Outcome.next ?_
    simp [standbyIdle, hstate, hquiet, htouches, withPower]
  · intro hstate hquiet htouches
    have hrun : standbyIdle s = retain (withPower s (fun p => { p with graceFrom := none })) 1 := by
      simp [standbyIdle, hstate, hquiet, htouches]
    obtain ⟨regs, hbm, hset, hpcs, hself, hevent⟩ := retain_facts (withPower s (fun p => { p with graceFrom := none })) 1
    exact ⟨_, regs, hbm, congrArg Host.Outcome.next hrun, hset, hpcs, hself, hevent⟩
  · intro hstate hquiet hlate
    have hrun : standbyAbandoned s = raiseEv (withPower s (fun p => { p with state := 0 })) .pwrEvent [] [2] := by
      simp [standbyAbandoned, hstate, hquiet, hlate]
    exact ⟨_, _, congrArg Host.Outcome.next hrun, rfl, (eventAt_raiseEv ..).trans (if_pos rfl)⟩

end Sys2Proof.Machine
end

