-- ==== Sys2Proof/Proofs/MailboxAnswers.lean ====
section
/-! PROOF. A mailbox request served (16/R487): what the response carries, what serving changes, and the operations that
change nothing else of the Rim. -/

namespace Sys2Proof.Machine

section
variable {s t u : State} {m : Nat}

/-! ### The response -/

/-- The words of a response: its header, and the data. -/
def respWords (s : State) (m status : Nat) (data : List Byte) : List Nat :=
  [reqTag s m, status, (data.take 4080).length, 0] ++
    (List.range (cdiv (data.take 4080).length 4)).map (fun i => leAt (data.take 4080) (4 * i) 4)

/-- The response area holds a response's words, and the mailbox shows DONE. -/
def responded (s : State) (m status : Nat) (data : List Byte) : State :=
  setBox (forceWords (r := .mbxResp) (ix := fun k => [m, k]) s (fun k => (respWords s m status data).getD k 0)
    (respWords s m status data).length) m ⟨false, true, status⟩

theorem zip_range_eq_map (l : List Nat) : (List.range l.length).zip l = (List.range l.length).map (fun k => (k, l.getD k 0)) := by
  refine List.ext_getElem (by simp) fun k hk _ => ?_
  have hlt : k < l.length := by simpa using hk
  simp [List.getElem?_eq_getElem hlt]

/-- A response changes the response area, the mailbox, and what leaves the device. -/
theorem respond_eq (s : State) (m status : Nat) (data : List Byte) :
    ∃ out, respond s m status data = { responded s m status data with out := out } := by
  have hwords : ((List.range (respWords s m status data).length).zip (respWords s m status data)).foldl
      (fun s e => forceReg s .mbxResp [m, e.1] e.2) s = forceWords (r := .mbxResp) (ix := fun k => [m, k]) s
        (fun k => (respWords s m status data).getD k 0) (respWords s m status data).length := by
    rw [zip_range_eq_map, List.foldl_map]
    rfl
  have hrespond : respond s m status data =
      if fld (responded s m status data) .mbxCtl [m] 30 30 = 1 then
        emit (responded s m status data) (.msix m (fld (responded s m status data) .mbxCtl [m] 5 0))
      else responded s m status data := by
    rw [responded, ← hwords]
    rfl
  rw [hrespond]
  split
  · exact ⟨_, rfl⟩
  · exact ⟨_, rfl⟩

theorem addr_mbxResp (m k : Nat) : RegName.addr .mbxResp [m, k] = (0x3E12000 + 0x4000 * m) + 4 * k := by
  simp only [RegName.addr, RegName.desc, dimOffset]
  omega

theorem inForce_lt (s : State) (r : RegName) (ix : List Nat) : inForce s r ix < 2 ^ 32 := (regCell s r ix).force.isLt

theorem inForce_responded (s : State) (m status : Nat) (data : List Byte) {k : Nat} (hk : k < (respWords s m status data).length) :
    inForce (responded s m status data) .mbxResp [m, k] = (respWords s m status data).getD k 0 % 2 ^ 32 :=
  inForce_forceWords_same (r := .mbxResp) (ix := fun k => [m, k]) (addr_mbxResp m) s _ hk

/-- What serving a mailbox answers. -/
structure Answers (s t : State) (m : Nat) (data : List Byte) : Prop where
  box : boxAt t m = ⟨false, true, stOk⟩
  last : t.rim.boxLast = m
  tag : inForce t .mbxResp [m, 0] = reqTag s m
  status : inForce t .mbxResp [m, 1] = stOk
  length : inForce t .mbxResp [m, 2] = (data.take 4080).length
  data : ∀ i, i < cdiv (data.take 4080).length 4 → inForce t .mbxResp [m, 4 + i] = leAt (data.take 4080) (4 * i) 4

/-- A response of ST_OK in full. -/
theorem answers_respond (hm : m < u.rim.boxes.length) (hlast : u.rim.boxLast = m) (htag : reqTag u m = reqTag s m)
    (data : List Byte) : Answers s (respond u m stOk data) m data := by
  obtain ⟨out, h⟩ := respond_eq u m stOk data
  have hword {k : Nat} (hk : k < (respWords u m stOk data).length) :
      inForce (respond u m stOk data) .mbxResp [m, k] = (respWords u m stOk data).getD k 0 % 2 ^ 32 := by
    rw [h]
    exact inForce_responded u m stOk data hk
  have hlength : (respWords u m stOk data).length = 4 + cdiv (data.take 4080).length 4 := by
    simp [respWords]
    omega
  have hshort : (data.take 4080).length ≤ 4080 := List.length_take_le ..
  have htagfits : reqTag u m < 2 ^ 32 := inForce_lt ..
  obtain ⟨regs, hforced⟩ := RegsOnly.forceWords (r := .mbxResp) (ix := fun k => [m, k]) u
    (fun k => (respWords u m stOk data).getD k 0) (respWords u m stOk data).length
  have hrim : (respond u m stOk data).rim = { u.rim with boxes := setAt u.rim.boxes m ⟨false, true, stOk⟩ } := by
    rw [h, responded, hforced]
    rfl
  refine ⟨?_, by rw [hrim, hlast], ?_, ?_, ?_, fun i hi => ?_⟩
  · rw [boxAt, hrim, getD_setAt, if_pos ⟨rfl, hm⟩]
  · rw [hword (by omega), ← htag]
    exact Nat.mod_eq_of_lt htagfits
  · rw [hword (by omega)]
    rfl
  · rw [hword (by omega)]
    exact Nat.mod_eq_of_lt (show (data.take 4080).length < 2 ^ 32 by omega)
  · rw [hword (by omega)]
    have hget : (respWords u m stOk data).getD (4 + i) 0 = leAt (data.take 4080) (4 * i) 4 := by
      rw [respWords, List.getD_append_right _ _ _ _ (Nat.le_add_right 4 i), List.getD_eq_getElem?_getD, List.getElem?_map,
        List.getElem?_range (by simpa using hi)]
      simp
    rw [hget]
    exact Nat.mod_eq_of_lt (leAt_lt ..)

/-- A response changes registers that raise no event, its mailbox, and what leaves the device. -/
theorem respond_footprint (u : State) (m status : Nat) (data : List Byte) :
    (∃ regs out boxes, respond u m status data = { u with regs := regs, out := out, rim := { u.rim with boxes := boxes } }) ∧
      (respond u m status data).regs.events = u.regs.events := by
  obtain ⟨out, h⟩ := respond_eq u m status data
  obtain ⟨regs, hforced⟩ := RegsOnly.forceWords (r := .mbxResp) (ix := fun k => [m, k]) u
    (fun k => (respWords u m status data).getD k 0) (respWords u m status data).length
  have hevents : (forceWords (r := .mbxResp) (ix := fun k => [m, k]) u
      (fun k => (respWords u m status data).getD k 0) (respWords u m status data).length).regs.events = u.regs.events :=
    List.foldlRecOn (motive := fun t : State => t.regs.events = u.regs.events) _ _ rfl fun _ ht _ _ => ht
  rw [hforced] at hevents
  rw [h, responded, hforced]
  exact ⟨⟨regs, out, _, rfl⟩, hevents⟩

/-! ### Serving -/

/-- A request in turn, for an operation, and long enough. -/
def Ready (s : State) (m op need : Nat) : Prop := asks s op m = true ∧ reqLen s m ≤ 4080 ∧ need ≤ reqLen s m

/-- The mailbox served last is this one. -/
def inTurn (s : State) (m : Nat) : State := withRim s (fun r => { r with boxLast := m })

/-- A request that is ready, for an operation its requester and the mode of the device allow, is worked on and answered. -/
theorem serve_of_ready {op need : Nat} {priv min : Bool} {work : State → List Byte → Nat × List Byte × State} {status : Nat}
    {data : List Byte} (h : Ready s m op need) (hpriv : priv = true → m % 2 = 0) (hmin : min = false → s.rim.minimal = false)
    (hwork : work (inTurn s m) (reqBytes s m) = (status, data, u)) : serve s op m priv min need work = respond u m status data := by
  obtain ⟨hasks, hlong, hneed⟩ := h
  have hdenied : (priv && m % 2 == 1) = false := by
    cases priv
    · rfl
    · simp [hpriv rfl]
  have hmode : (s.rim.minimal && !min) = false := by
    cases min
    · simp [hmin rfl]
    · simp
  have hbounds : (decide (4080 < reqLen s m) || decide (reqLen s m < need)) = false := by simp; omega
  have hrun : serve s op m priv min need work =
      if !asks s op m then s
      else if priv && m % 2 == 1 then respond (inTurn s m) m stDenied []
      else if s.rim.minimal && !min then respond (inTurn s m) m stMinimal []
      else if decide (4080 < reqLen s m) || decide (reqLen s m < need) then respond (inTurn s m) m stBadparam []
      else respond (work (inTurn s m) (reqBytes s m)).2.2 m (work (inTurn s m) (reqBytes s m)).1
        (work (inTurn s m) (reqBytes s m)).2.1 := rfl
  rw [hrun, hasks, hdenied, hmode, hbounds, hwork]
  rfl

/-- Serving changes nothing of the Rim but the mailboxes. -/
def OnlyAnswered (s t : State) (m : Nat) : Prop :=
  t.rim = { s.rim with boxes := t.rim.boxes, boxLast := m } ∧
    t = { s with regs := t.regs, out := t.out, rim := t.rim, fresh := t.fresh }

theorem onlyAnswered_respond (hu : ∃ fresh, u = { inTurn s m with fresh := fresh }) (status : Nat) (data : List Byte) :
    OnlyAnswered s (respond u m status data) m := by
  obtain ⟨fresh, rfl⟩ := hu
  obtain ⟨⟨regs, out, boxes, h⟩, -⟩ := respond_footprint { inTurn s m with fresh := fresh } m status data
  rw [h]
  exact ⟨rfl, rfl⟩

/-- An operation that reads, and at most draws a free value, answers and changes nothing else. -/
theorem serve_of_reads {op need : Nat} {work : State → List Byte → Nat × List Byte × State} {data : List Byte}
    (hm : m < s.rim.boxes.length) (h : Ready s m op need) (hu : ∃ fresh, u = { inTurn s m with fresh := fresh })
    (hwork : work (inTurn s m) (reqBytes s m) = (stOk, data, u)) :
    OnlyAnswered s (serve s op m false true need work) m ∧ Answers s (serve s op m false true need work) m data := by
  rw [serve_of_ready h (fun hpriv => absurd hpriv Bool.false_ne_true) (fun hmin => absurd hmin.symm Bool.false_ne_true) hwork]
  refine ⟨onlyAnswered_respond hu stOk data, ?_⟩
  obtain ⟨fresh, rfl⟩ := hu
  exact answers_respond (s := s) (u := { inTurn s m with fresh := fresh }) hm rfl rfl data

/-! ### Operations that read -/

theorem mbxInfo_answers (hm : m < s.rim.boxes.length) (h : Ready s m 0x01 0) : OnlyAnswered s (mbxInfo m s) m ∧
    Answers s (mbxInfo m s) m (le 4 (rimStatusWord s) ++ le 4 (rimOtpWord s) ++ [0, 1].flatMap (fun k =>
      le 4 (slotAt s k).state ++ le 4 (imgLevel (slotAt s k).bytes) ++ le 4 (imgVersion (slotAt s k).bytes))) :=
  serve_of_reads hm h ⟨_, rfl⟩ rfl

theorem mbxLogRead_answers (hm : m < s.rim.boxes.length) (h : Ready s m 0x02 10) (hkept : logOldest s ≤ leAt (reqBytes s m) 0 8) :
    OnlyAnswered s (mbxLogRead m s) m ∧ Answers s (mbxLogRead m s) m
      (entriesThatFit (min 4080 (leAt (reqBytes s m) 8 2)) (((logBytes s.log.entries.reverse s.log.chain0).filter
        (fun e => decide (leAt (reqBytes s m) 0 8 ≤ e.1))).map (·.2))) :=
  serve_of_reads hm h ⟨_, rfl⟩ (if_neg (Nat.not_lt.mpr hkept))

theorem mbxCertRead_answers (hm : m < s.rim.boxes.length) (h : Ready s m 0x03 4) : OnlyAnswered s (mbxCertRead m s) m ∧
    Answers s (mbxCertRead m s) m ((s.rim.cert.drop (leAt (reqBytes s m) 0 4)).take 4064) :=
  serve_of_reads hm h ⟨_, rfl⟩ rfl

theorem mbxAttest_answers (hm : m < s.rim.boxes.length) (h : Ready s m 0x04 48) : OnlyAnswered s (mbxAttest m s) m ∧
    Answers s (mbxAttest m s) m (attestBody s ((reqBytes s m).take 48) ++ le 96 (Config.freeValue s.fresh)) :=
  serve_of_reads hm h ⟨_, rfl⟩ rfl

theorem mbxSensorRead_answers (hm : m < s.rim.boxes.length) (h : Ready s m 0x05 0) : OnlyAnswered s (mbxSensorRead m s) m ∧
    Answers s (mbxSensorRead m s) m ((List.range 32).flatMap (fun k => le 4 (thermWord s k)) ++ s.rim.volts.flatMap (le 2)) :=
  serve_of_reads hm h ⟨_, rfl⟩ rfl

end

end Sys2Proof.Machine
end

