-- ==== Sys2Proof/Proofs/FusesKept.lean ====
section
/-! SUPPORT. What a transition of the device leaves: the one-time memory and the image slots stand through raised attention,
the commands that it ends, and the reset that may follow at once (13/R416; 16/R475). -/

namespace Sys2Proof.Machine

/-- From one state to another the one-time memory and the image slots stand. -/
structure FusesKept (s t : State) : Prop where
  otp : t.rim.otp = s.rim.otp
  slots : t.rim.slots = s.rim.slots

namespace FusesKept

variable {s t u : State}

theorem refl (s : State) : FusesKept s s := ⟨rfl, rfl⟩

theorem trans (a : FusesKept s t) (b : FusesKept t u) : FusesKept s u := ⟨b.otp.trans a.otp, b.slots.trans a.slots⟩

theorem of_rim (h : t.rim = s.rim) : FusesKept s t := ⟨by rw [h], by rw [h]⟩

/-- What comes after a change that leaves the Rim. -/
theorem after (b : FusesKept t u) (h : t.rim = s.rim) : FusesKept s u := (of_rim h).trans b

theorem of_ite {c : Prop} [Decidable c] (ht : FusesKept s t) (hu : FusesKept s u) : FusesKept s (if c then t else u) := by
  split
  · exact ht
  · exact hu

theorem foldl {α : Type} {g : State → α → State} (hg : ∀ s a, FusesKept s (g s a)) (l : List α) (s : State) :
    FusesKept s (l.foldl g s) :=
  List.foldlRecOn (motive := fun t => FusesKept s t) l g (refl s) fun _ ht a _ => ht.trans (hg _ a)

end FusesKept

variable {s : State}

/-! ### Commands that end -/

theorem fusesKept_cntDev (s : State) (k : Nat) : FusesKept s (cntDev s k) := by
  obtain ⟨c, h⟩ := bump_eq s 0 k 1
  exact .of_rim (by rw [cntDev, h])

theorem fusesKept_hostReply (s : State) (r : Reply) : FusesKept s (hostReply s r) :=
  .of_ite (.of_rim rfl) (fusesKept_cntDev ..)

theorem fusesKept_answer (s : State) (h : CmdHeader) (sent : Bool) (a : Answer) : FusesKept s (answer s h sent a) := by
  unfold answer
  extract_lets r
  split
  · exact .of_rim rfl
  · exact fusesKept_hostReply ..

theorem fusesKept_pumpRelay (n : Nat) (s : State) : FusesKept s (pumpRelay n s) := by
  induction n generalizing s with
  | zero => exact .refl s
  | succ n ih =>
    unfold pumpRelay
    split
    · exact .refl s
    · split
      · exact .refl s
      · exact (ih _).after rfl

theorem fusesKept_relayCommand (s : State) (h : CmdHeader) (p : List Byte) : FusesKept s (relayCommand s h p) := by
  unfold relayCommand
  split
  · exact fusesKept_answer ..
  · refine .of_ite (fusesKept_answer ..) (.of_ite (fusesKept_answer ..) ?_)
    split
    · exact fusesKept_answer ..
    · exact (fusesKept_pumpRelay ..).after rfl

theorem fusesKept_passGroup (s : State) (order : Nat) : FusesKept s (passGroup s order) := by
  unfold passGroup
  refine .of_ite (.refl s) ?_
  split
  · exact .refl s
  · exact .of_rim rfl

theorem fusesKept_handOver (n : Nat) (s : State) : FusesKept s (handOver n s) := by
  induction n generalizing s with
  | zero => exact .refl s
  | succ n ih =>
    unfold handOver
    split
    · exact .refl s
    · next i _ =>
      have htaken : FusesKept s (withSched s (fun x => { x with store := x.store.erase i })) := .of_rim rfl
      exact .of_ite (((htaken.trans (fusesKept_relayCommand ..)).trans (fusesKept_passGroup ..)).trans (ih _)) (.refl s)

theorem fusesKept_settleReady (s : State) : FusesKept s (settleReady s) := .of_rim rfl

theorem fusesKept_settle (s : State) : FusesKept s (settle s) := (fusesKept_handOver ..).trans (fusesKept_settleReady _)

/-! ### Closing and resetting -/

theorem fusesKept_beginClose (s : State) (t : Transition) : FusesKept s (beginClose s t) := by
  unfold beginClose
  extract_lets _ s1
  have hnoted : FusesKept s s1 := ⟨rfl, rfl⟩
  exact .of_ite (hnoted.trans (.of_rim rfl)) (.of_ite (hnoted.trans (.of_rim rfl)) (hnoted.trans ⟨rfl, rfl⟩))

theorem fusesKept_attentionDone (s : State) : FusesKept s (attentionDone s) := by
  unfold attentionDone
  split
  · exact .of_ite (fusesKept_beginClose ..) (.refl s)
  · exact .refl s

theorem fusesKept_completed (s : State) (h : CmdHeader) (code : Nat) : FusesKept s (completed s h code) :=
  ((FusesKept.of_ite (.refl s) (fusesKept_passGroup ..)).trans (fusesKept_settle _)).trans (fusesKept_attentionDone _)

theorem fusesKept_removeWaiting (s : State) (i : Item) : FusesKept s (removeWaiting s i) := .of_rim rfl

theorem fusesKept_abortWaiting (s : State) (i : Item) : FusesKept s (abortWaiting s i) :=
  ((fusesKept_removeWaiting s i).trans (fusesKept_answer ..)).trans (fusesKept_completed ..)

/-- Raised attention, and what follows at once when the engines are idle. -/
theorem fusesKept_raiseAttention (s : State) : FusesKept s (raiseAttention s) := by
  unfold raiseAttention
  extract_lets waiting s1 s2 s3 s4
  have hraised : FusesKept s s1 := .of_rim rfl
  have haborted : FusesKept s1 s2 := .foldl fusesKept_abortWaiting ..
  have hdiscarded : FusesKept s2 s3 := .foldl (fun u i =>
    .of_ite ((fusesKept_removeWaiting u i).trans (fusesKept_cntDev ..)) (fusesKept_removeWaiting u i)) ..
  have hstopped : FusesKept s3 s4 := .foldl (fun u e => by
    split
    · exact .of_ite (.of_rim rfl) (.refl u)
    · exact .refl u) ..
  exact (((hraised.trans haborted).trans hdiscarded).trans hstopped).trans (fusesKept_attentionDone s4)

theorem fusesKept_selfRefresh (s : State) (b : Bool) : FusesKept s (selfRefresh s b) := by
  obtain ⟨⟨stks, h⟩, -⟩ := selfRefresh_facts s b
  exact .of_rim (by rw [h])

/-- A transition of the device burns nothing and writes no image slot. -/
theorem fusesKept_startTransition (s : State) (kind minimal : Nat) : FusesKept s (startTransition s kind minimal) := by
  unfold startTransition
  refine .of_ite (.refl s) ?_
  extract_lets _ s1
  have hwoken : FusesKept s s1 := .of_ite ((fusesKept_selfRefresh ..).after rfl) (.refl s)
  have hnoted (tr : Option Transition) : FusesKept s1 { s1 with rim := { s1.rim with transition := tr } } := ⟨rfl, rfl⟩
  exact (hwoken.trans (hnoted _)).trans (fusesKept_raiseAttention _)

/-- A burn that does not verify leaves the one-time memory as burned, and faulty. -/
theorem burnChecked_facts {s t : State} (fails : Bool) :
    (burnChecked s t fails).rim.otp =
      { t.rim.otp with faulty := t.rim.otp.faulty || (fails && decide (t.rim.otp ≠ s.rim.otp)) } ∧
      (burnChecked s t fails).rim.slots = t.rim.slots := by
  by_cases hfails : fails ∧ t.rim.otp ≠ s.rim.otp
  · obtain ⟨hotp, hslots⟩ := fusesKept_startTransition
      { t with rim := { t.rim with otp := { t.rim.otp with faulty := true } } } 1 9
    rw [burnChecked, if_pos hfails, hotp, hslots]
    simp [hfails]
  · rw [burnChecked, if_neg hfails]
    have hquiet : (fails && decide (t.rim.otp ≠ s.rim.otp)) = false := by
      simpa [Classical.not_and_iff_not_or_not] using hfails
    rw [hquiet, Bool.or_false]
    exact ⟨rfl, rfl⟩

end Sys2Proof.Machine
end

