-- ==== Sys2Proof/Proofs/ImageUpdates.lean ====
section
/-! PROOF. The mailbox operations that write firmware and the board record (16/R468, R479). -/

namespace Sys2Proof.Machine

/-- A response leaves the Rim but for the mailboxes, the event registers and the log. -/
structure Responded (u t : State) : Prop where
  rim : ∃ boxes, t.rim = { u.rim with boxes := boxes }
  events : t.regs.events = u.regs.events
  log : t.log = u.log

theorem responded_respond (u : State) (m status : Nat) (data : List Byte) : Responded u (respond u m status data) := by
  obtain ⟨⟨regs, out, boxes, h⟩, hevents⟩ := respond_footprint u m status data
  exact ⟨⟨boxes, by rw [h]⟩, hevents, by rw [h]⟩

namespace Responded

variable {u t : State} (h : Responded u t)
include h

theorem slotAt (k : Nat) : slotAt t k = Machine.slotAt u k := by
  obtain ⟨boxes, hrim⟩ := h.rim
  rw [Machine.slotAt, hrim, Machine.slotAt]

theorem update : t.rim.update = u.rim.update := by obtain ⟨boxes, hrim⟩ := h.rim; rw [hrim]
theorem otp : t.rim.otp = u.rim.otp := by obtain ⟨boxes, hrim⟩ := h.rim; rw [hrim]
theorem slots : t.rim.slots = u.rim.slots := by obtain ⟨boxes, hrim⟩ := h.rim; rw [hrim]
theorem pendingLc : t.rim.pendingLc = u.rim.pendingLc := by obtain ⟨boxes, hrim⟩ := h.rim; rw [hrim]
theorem lifecycle : t.rim.lifecycle = u.rim.lifecycle := by obtain ⟨boxes, hrim⟩ := h.rim; rw [hrim]

theorem eventAt (off : Nat) : eventAt t off = Machine.eventAt u off := by rw [Machine.eventAt, h.events, Machine.eventAt]

end Responded

section
variable {s t u : State} {m : Nat}

/-- What a work state that has the mailboxes and the registers' cells as they were answers. -/
theorem answers_of_kept (hm : m < s.rim.boxes.length) (hboxes : u.rim.boxes = s.rim.boxes) (hlast : u.rim.boxLast = m)
    (hcells : u.regs.cells = s.regs.cells) (data : List Byte) : Answers s (respond u m stOk data) m data :=
  answers_respond (hboxes ▸ hm) hlast (inForce_of_cells hcells ..) data

/-! ### Erasing and writing a slot -/

/-- A slot written, and the other slot as it stands. -/
theorem slotAt_setAt {k : Nat} {x : ImageSlot} (hk : k < s.rim.slots.length) (hslots : u.rim.slots = setAt s.rim.slots k x)
    (j : Nat) : slotAt u j = if j = k then x else slotAt s j := by
  rw [slotAt, hslots, getD_setAt, slotAt]
  simp [hk]

/-- A slot erased for an image of a length, which a requester is to write. -/
def slotErased (s : State) (m k n : Nat) : State := withRim s (fun r => { r with
  slots := setAt r.slots k ⟨1, List.replicate n 0xFF⟩, bootWrites := r.bootWrites + 1, update := some ⟨m, k, n⟩ })

theorem mbxImgBegin_eq (hpf0 : m % 2 = 0) {k : Nat} (h : Ready s m 0x10 4) (htrial : onTrial s = false)
    (howner : ∀ u, s.rim.update = some u → u.owner = m) (hmin : 512 ≤ leAt (reqBytes s m) 0 4)
    (hmax : leAt (reqBytes s m) 0 4 ≤ 4194304)
    (hfree : [0, 1].find? (fun k => (slotAt s k).state != 5 && (slotAt s k).state != 4) = some k) :
    mbxImgBegin m s = respond (slotErased (inTurn s m) m k (leAt (reqBytes s m) 0 4)) m stOk (le 4 k) := by
  have hown : ∀ x : Option Update, (∀ u, x = some u → u.owner = m) →
      (match x with | some u => u.owner != m | none => false) = false := by
    intro x hx
    cases x with
    | none => rfl
    | some u => simp [hx u rfl]
  refine serve_of_ready h (fun _ => hpf0) (fun hmin => absurd hmin.symm Bool.false_ne_true) ?_
  dsimp only
  rw [if_neg, if_neg (by omega)]
  · split
    · next hnone => exact absurd (hfree.symm.trans hnone) (Option.some_ne_none k)
    · next j hj => rw [Option.some.inj (hj.symm.trans hfree)]; rfl
  · rw [Bool.not_eq_true]
    exact (congrArg₂ or htrial (hown s.rim.update howner)).trans rfl

/-- IMG_BEGIN erases the slot that is neither ACTIVE nor TRYING, for an image of the length asked for. -/
theorem mbxImgBegin_answers (hm : m < s.rim.boxes.length) (hpf0 : m % 2 = 0) (hslots : s.rim.slots.length = 2) {n k : Nat}
    (h : Ready s m 0x10 4) (hn : n = leAt (reqBytes s m) 0 4) (htrial : onTrial s = false)
    (howner : ∀ u, s.rim.update = some u → u.owner = m) (hmin : 512 ≤ n) (hmax : n ≤ 4194304)
    (hfree : [0, 1].find? (fun k => (slotAt s k).state != 5 && (slotAt s k).state != 4) = some k) :
    Answers s (mbxImgBegin m s) m (le 4 k) ∧ slotAt (mbxImgBegin m s) k = ⟨1, List.replicate n 0xFF⟩ ∧
      slotAt (mbxImgBegin m s) (1 - k) = slotAt s (1 - k) ∧ (mbxImgBegin m s).rim.update = some ⟨m, k, n⟩ ∧
      (mbxImgBegin m s).rim.otp = s.rim.otp := by
  subst hn
  have hk : k < 2 := by
    have := List.mem_of_find?_eq_some hfree
    simp only [List.mem_cons, List.not_mem_nil, or_false] at this
    omega
  rw [mbxImgBegin_eq hpf0 h htrial howner hmin hmax hfree]
  have hkept := responded_respond (slotErased (inTurn s m) m k (leAt (reqBytes s m) 0 4)) m stOk (le 4 k)
  have hslot := slotAt_setAt (s := s) (u := slotErased (inTurn s m) m k (leAt (reqBytes s m) 0 4))
    (x := ⟨1, List.replicate (leAt (reqBytes s m) 0 4) 0xFF⟩) (hslots ▸ hk) rfl
  refine ⟨answers_of_kept (u := slotErased (inTurn s m) m k (leAt (reqBytes s m) 0 4))
    hm rfl rfl rfl _, ?_, ?_, hkept.update, hkept.otp⟩
  · rw [hkept.slotAt, hslot, if_pos rfl]
  · rw [hkept.slotAt, hslot, if_neg (by omega)]

/-- Bytes of an image written to its slot. -/
def slotWritten (s : State) (k o : Nat) (d : List Byte) : State :=
  withRim s (fun r => { r with slots := setAt r.slots k ⟨1, patch (r.slots.getD k ImageSlot.reset).bytes o d⟩ })

theorem ownUpdate_eq {x : Update} (hx : s.rim.update = some x) (howner : x.owner = m) : ownUpdate s m = .ok x := by
  rw [ownUpdate, hx]
  exact if_pos howner

/-- IMG_DATA writes bytes of the slot under update. -/
theorem mbxImgData_answers (hm : m < s.rim.boxes.length) (hpf0 : m % 2 = 0) (hslots : s.rim.slots.length = 2) {x : Update}
    (h : Ready s m 0x11 5) (hx : s.rim.update = some x) (howner : x.owner = m) (hslot : x.slot < 2)
    (hfits : leAt (reqBytes s m) 0 4 + ((reqBytes s m).drop 4).length ≤ x.length)
    (hshort : ((reqBytes s m).drop 4).length ≤ 4064) :
    Answers s (mbxImgData m s) m [] ∧ slotAt (mbxImgData m s) (1 - x.slot) = slotAt s (1 - x.slot) ∧
      slotAt (mbxImgData m s) x.slot =
        ⟨1, patch (slotAt s x.slot).bytes (leAt (reqBytes s m) 0 4) ((reqBytes s m).drop 4)⟩ ∧
      (mbxImgData m s).rim.update = s.rim.update := by
  have hrun : mbxImgData m s =
      respond (slotWritten (inTurn s m) x.slot (leAt (reqBytes s m) 0 4) ((reqBytes s m).drop 4)) m stOk [] := by
    refine serve_of_ready h (fun _ => hpf0) (fun hmin => absurd hmin.symm Bool.false_ne_true) ?_
    rw [ownUpdate_eq (s := inTurn s m) hx howner]
    exact if_neg (by omega)
  rw [hrun]
  have hkept := responded_respond
    (slotWritten (inTurn s m) x.slot (leAt (reqBytes s m) 0 4) ((reqBytes s m).drop 4)) m stOk []
  have hwritten := slotAt_setAt (s := s) (hslots ▸ hslot)
    (u := slotWritten (inTurn s m) x.slot (leAt (reqBytes s m) 0 4) ((reqBytes s m).drop 4)) rfl
  refine ⟨answers_of_kept (u := slotWritten (inTurn s m) x.slot (leAt (reqBytes s m) 0 4) ((reqBytes s m).drop 4))
    hm rfl rfl rfl _, ?_, ?_, hkept.update⟩
  · rw [hkept.slotAt, hwritten, if_neg (by omega)]
  · rw [hkept.slotAt, hwritten, if_pos rfl]
    rfl

/-! ### A slot's change of state -/

/-- What a change that is logged and posted leaves: the Rim, and the registers' cells. -/
structure Noted (s t : State) : Prop where
  rim : t.rim = s.rim
  cells : t.regs.cells = s.regs.cells
  next : s.log.next ≤ t.log.next

theorem Noted.trans (a : Noted s t) (b : Noted t u) : Noted s u :=
  ⟨b.rim.trans a.rim, b.cells.trans a.cells, a.next.trans b.next⟩

theorem Recorded.noted (h : Recorded s t) : Noted s t := ⟨h.rim, by rw [h.regs], h.next⟩

theorem noted_raiseEv (s : State) (r : RegName) (ix fs : List Nat) : Noted s (raiseEv s r ix fs) := ⟨rfl, rfl, le_rfl⟩

/-- An entry of the log, a flag of the Rim's event register and an event posted. -/
theorem noted_flagged {kind arg value f : Nat} (h : Recorded s t) (hnext : s.log.next < t.log.next) :
    Noted s (rimEventPost (raiseEv t .rimEvent [] [f]) kind arg value) ∧
      s.log.next < (rimEventPost (raiseEv t .rimEvent [] [f]) kind arg value).log.next ∧
      eventAt (rimEventPost (raiseEv t .rimEvent [] [f]) kind arg value) (RegName.addr .rimEvent []) =
        (eventAt s (RegName.addr .rimEvent [])).raise [f] := by
  have hpost := recorded_rimEventPost (raiseEv t .rimEvent [] [f]) kind arg value
  refine ⟨(h.noted.trans (noted_raiseEv t .rimEvent [] [f])).trans hpost.noted, hnext.trans_le hpost.next, ?_⟩
  rw [eventAt, hpost.regs, ← eventAt, eventAt_raiseEv, if_pos rfl, eventAt, h.regs, ← eventAt]

/-- A slot's change of state is logged, flagged and posted. -/
theorem imageChanged_facts (s : State) (k old new req : Nat) : Noted s (imageChanged s k old new req) ∧
    s.log.next < (imageChanged s k old new req).log.next ∧
    eventAt (imageChanged s k old new req) (RegName.addr .rimEvent []) =
      (eventAt s (RegName.addr .rimEvent [])).raise [3] :=
  noted_flagged (recorded_rimLog ..) (next_rimLog ..)

/-- The slot under update is marked TRIAL, and the update is over. -/
def trialMarked (s : State) (k : Nat) : State := withRim (setSlot s k 3) (fun r => { r with update := none })

/-- IMG_END marks a sound image TRIAL. -/
theorem mbxImgEnd_answers (hm : m < s.rim.boxes.length) (hpf0 : m % 2 = 0) (hslots : s.rim.slots.length = 2) {x : Update}
    (h : Ready s m 0x12 0) (hx : s.rim.update = some x) (howner : x.owner = m) (hslot : x.slot < 2)
    (hsound : imageOk s (slotAt s x.slot).bytes = true) :
    Answers s (mbxImgEnd m s) m [] ∧ slotAt (mbxImgEnd m s) x.slot = { slotAt s x.slot with state := 3 } ∧
      slotAt (mbxImgEnd m s) (1 - x.slot) = slotAt s (1 - x.slot) ∧ (mbxImgEnd m s).rim.update = none ∧
      s.log.next < (mbxImgEnd m s).log.next ∧
      eventAt (mbxImgEnd m s) (RegName.addr .rimEvent []) = (eventAt s (RegName.addr .rimEvent [])).raise [3] := by
  obtain ⟨hform, hlevel⟩ := Bool.and_eq_true_iff.mp hsound
  have hrun : mbxImgEnd m s = respond (imageChanged (trialMarked (inTurn s m) x.slot) x.slot 1 3 m) m stOk [] := by
    refine serve_of_ready h (fun _ => hpf0) (fun hmin => absurd hmin.symm Bool.false_ne_true) ?_
    rw [ownUpdate_eq (s := inTurn s m) hx howner]
    have hform' : imageFormOk (inTurn s m) (slotAt (inTurn s m) x.slot).bytes = true := hform
    have hlevel' : imageLevelOk (inTurn s m) (slotAt (inTurn s m) x.slot).bytes = true := hlevel
    simp only [hform', hlevel', Bool.not_true, Bool.false_eq_true, if_false]
    rfl
  obtain ⟨hnoted, hnext, hevent⟩ := imageChanged_facts (trialMarked (inTurn s m) x.slot) x.slot 1 3 m
  have hkept := responded_respond (imageChanged (trialMarked (inTurn s m) x.slot) x.slot 1 3 m) m stOk []
  have hmarked := slotAt_setAt (s := s) (u := imageChanged (trialMarked (inTurn s m) x.slot) x.slot 1 3 m)
    (x := { slotAt s x.slot with state := 3 }) (hslots ▸ hslot) (by rw [hnoted.rim]; rfl)
  rw [hrun]
  refine ⟨answers_of_kept hm ?_ ?_ hnoted.cells _, ?_, ?_, ?_, ?_, ?_⟩
  · rw [hnoted.rim]; rfl
  · rw [hnoted.rim]; rfl
  · rw [hkept.slotAt, hmarked, if_pos rfl]
  · rw [hkept.slotAt, hmarked, if_neg (by omega)]
  · rw [hkept.update, hnoted.rim]; rfl
  · rw [hkept.log]; exact hnext
  · rw [hkept.eventAt]; exact hevent

/-! ### Confirming a trial -/

/-- Anti-rollback steps burned, whether or not they are logged. -/
def rollbackBurned (s : State) (level : Nat) : State :=
  withRim (if level = s.rim.otp.rollback then s
    else rimLog s 0x32 true (le 1 0 ++ le 4 s.rim.otp.rollback ++ le 4 level))
    (fun r => { r with otp := { r.otp with rollback := level } })

/-- The level that a confirmed image asks to be burned. -/
def confirmedLevel (s : State) (k : Nat) : Nat := max s.rim.otp.rollback (min 1024 (imgLevel (slotAt s k).bytes))

theorem rollbackBurned_facts (s : State) (level : Nat) :
    (rollbackBurned s level).rim = { s.rim with otp := { s.rim.otp with rollback := level } } ∧
      (rollbackBurned s level).regs.cells = s.regs.cells := by
  unfold rollbackBurned
  split
  · exact ⟨rfl, rfl⟩
  · obtain ⟨log, fresh, h⟩ := rimLog_eq s 0x32 true (le 1 0 ++ le 4 s.rim.otp.rollback ++ le 4 level)
    rw [h]
    exact ⟨rfl, rfl⟩

/-- Once a slot is ACTIVE, each former ACTIVE one is VALID. -/
def formerDemoted (s : State) (former : List Nat) (m : Nat) : State :=
  former.foldl (fun s j => imageChanged (setSlot s j 2) j 5 2 m) s

theorem confirmImage_eq (s : State) (m k : Nat) : confirmImage s m k =
    formerDemoted (imageChanged (setSlot (rollbackBurned s (confirmedLevel s k)) k 5) k 4 5 m)
      ([0, 1].filter (fun j => (slotAt (rollbackBurned s (confirmedLevel s k)) j).state == 5)) m := rfl

/-- Of two slots of which one is TRYING, the other is the only one that may be ACTIVE. -/
theorem former_eq {k : Nat} (hk : k < 2) (htrying : (slotAt s k).state = 4) :
    [0, 1].filter (fun j => (slotAt s j).state == 5) = if (slotAt s (1 - k)).state = 5 then [1 - k] else [] := by
  obtain rfl | rfl : k = 0 ∨ k = 1 := by omega
  · by_cases hother : (slotAt s 1).state = 5 <;> simp [htrying, hother]
  · by_cases hother : (slotAt s 0).state = 5 <;> simp [htrying, hother]

/-- Confirming a trial burns its level, makes its slot ACTIVE and the former ACTIVE one VALID. -/
structure Confirmed (s t : State) (k : Nat) : Prop where
  otp : t.rim.otp = { s.rim.otp with rollback := confirmedLevel s k }
  slot : slotAt t k = { slotAt s k with state := 5 }
  other : slotAt t (1 - k) =
    if (slotAt s (1 - k)).state = 5 then { slotAt s (1 - k) with state := 2 } else slotAt s (1 - k)
  boxes : t.rim.boxes = s.rim.boxes
  boxLast : t.rim.boxLast = s.rim.boxLast
  cells : t.regs.cells = s.regs.cells

theorem slotAt_setSlot {k : Nat} (hk : k < s.rim.slots.length) (st j : Nat) :
    slotAt (setSlot s k st) j = if j = k then { slotAt s k with state := st } else slotAt s j := slotAt_setAt hk rfl j

theorem slotAt_of_rim (h : t.rim = s.rim) (j : Nat) : slotAt t j = slotAt s j := by rw [slotAt, h, slotAt]

theorem confirmImage_facts {k : Nat} (hk : k < 2) (hslots : s.rim.slots.length = 2) (htrying : (slotAt s k).state = 4) :
    Confirmed s (confirmImage s m k) k := by
  obtain ⟨hburned, hcells⟩ := rollbackBurned_facts s (confirmedLevel s k)
  have hslot (j : Nat) : slotAt (rollbackBurned s (confirmedLevel s k)) j = slotAt s j := by rw [slotAt, hburned, slotAt]
  rw [confirmImage_eq, former_eq hk (by rw [hslot, htrying])]
  simp only [hslot]
  generalize rollbackBurned s (confirmedLevel s k) = u at *
  have hlength : u.rim.slots.length = 2 := by rw [hburned]; exact hslots
  obtain ⟨hactive, -⟩ := imageChanged_facts (setSlot u k 5) k 4 5 m
  have hset (j : Nat) : slotAt (imageChanged (setSlot u k 5) k 4 5 m) j =
      if j = k then { slotAt s k with state := 5 } else slotAt s j := by
    rw [slotAt_of_rim hactive.rim, slotAt_setSlot (hlength ▸ hk), hslot, hslot]
  have hrim : (imageChanged (setSlot u k 5) k 4 5 m).rim.otp = u.rim.otp ∧
      (imageChanged (setSlot u k 5) k 4 5 m).rim.boxes = u.rim.boxes ∧
      (imageChanged (setSlot u k 5) k 4 5 m).rim.boxLast = u.rim.boxLast ∧
      (imageChanged (setSlot u k 5) k 4 5 m).rim.slots.length = 2 := by
    rw [hactive.rim]
    exact ⟨rfl, rfl, rfl, (length_setAt ..).trans hlength⟩
  have hcells' : (imageChanged (setSlot u k 5) k 4 5 m).regs.cells = s.regs.cells := hactive.cells.trans hcells
  generalize imageChanged (setSlot u k 5) k 4 5 m = v at *
  obtain ⟨hotp, hboxes, hlast, hvlength⟩ := hrim
  rw [hburned] at hotp hboxes hlast
  split
  · next hother =>
    obtain ⟨hdemoted, -⟩ := imageChanged_facts (setSlot v (1 - k) 2) (1 - k) 5 2 m
    have hset' (j : Nat) : slotAt (imageChanged (setSlot v (1 - k) 2) (1 - k) 5 2 m) j =
        if j = 1 - k then { slotAt v (1 - k) with state := 2 } else slotAt v j := by
      rw [slotAt_of_rim hdemoted.rim, slotAt_setSlot (by omega)]
    refine ⟨?_, ?_, ?_, ?_, ?_, hdemoted.cells.trans hcells'⟩
    · exact (congrArg RimState.otp hdemoted.rim).trans hotp
    · exact (hset' k).trans (by rw [if_neg (by omega), hset, if_pos rfl])
    · exact (hset' (1 - k)).trans (by rw [if_pos rfl, hset, if_neg (by omega), if_pos hother])
    · exact (congrArg RimState.boxes hdemoted.rim).trans hboxes
    · exact (congrArg RimState.boxLast hdemoted.rim).trans hlast
  · next hother =>
    exact ⟨hotp, (hset k).trans (if_pos rfl), (hset (1 - k)).trans (by rw [if_neg (by omega), if_neg hother]),
      hboxes, hlast, hcells'⟩

/-- IMG_CONFIRM makes the running trial ACTIVE and burns the anti-rollback level up to its own. -/
theorem imgConfirm_answers (hm : m < s.rim.boxes.length) (hpf0 : m % 2 = 0) (hslots : s.rim.slots.length = 2) {k : Nat}
    (fails : Bool) (h : Ready s m 0x13 0) (hfull : s.rim.minimal = false) (hstarted : s.rim.startDone = true)
    (hrunning : s.rim.running = some k) (hk : k < 2) (htrying : (slotAt s k).state = 4) :
    (burnChecked s (mbxImgConfirm m s) fails).rim.otp = { s.rim.otp with
        rollback := confirmedLevel s k
        faulty := s.rim.otp.faulty || (fails && confirmedLevel s k != s.rim.otp.rollback) } ∧
      (fails = false ∨ confirmedLevel s k = s.rim.otp.rollback →
        Answers s (burnChecked s (mbxImgConfirm m s) fails) m (le 4 (confirmedLevel s k))) ∧
      slotAt (burnChecked s (mbxImgConfirm m s) fails) k = { slotAt s k with state := 5 } ∧
      slotAt (burnChecked s (mbxImgConfirm m s) fails) (1 - k) =
        if (slotAt s (1 - k)).state = 5 then { slotAt s (1 - k) with state := 2 } else slotAt s (1 - k) := by
  have hdone : Confirmed (inTurn s m) (confirmImage (inTurn s m) m k) k := confirmImage_facts hk hslots htrying
  have hrun : mbxImgConfirm m s = respond (confirmImage (inTurn s m) m k) m stOk (le 4 (confirmedLevel s k)) := by
    have htrial : onTrial (inTurn s m) = true := by
      have hrunning' : (inTurn s m).rim.running = some k := hrunning
      rw [onTrial, hrunning']
      exact beq_iff_eq.mpr htrying
    have hstarted' : (inTurn s m).rim.startDone = true := hstarted
    have hrunning' : (inTurn s m).rim.running = some k := hrunning
    refine serve_of_ready h (fun _ => hpf0) (fun _ => hfull) ?_
    simp only [hstarted', hrunning', htrial, Bool.not_true, Bool.false_eq_true, if_false, if_true, hdone.otp]
    rfl
  have hkept := responded_respond (confirmImage (inTurn s m) m k) m stOk (le 4 (confirmedLevel s k))
  have hanswers : Answers s (mbxImgConfirm m s) m (le 4 (confirmedLevel s k)) := by
    rw [hrun]
    exact answers_of_kept hm hdone.boxes hdone.boxLast hdone.cells _
  have hotp : (mbxImgConfirm m s).rim.otp = { s.rim.otp with rollback := confirmedLevel s k } := by
    rw [hrun, hkept.otp, hdone.otp]
    rfl
  obtain ⟨hburned, hstay⟩ := burnChecked_facts (s := s) (t := mbxImgConfirm m s) fails
  have hslot (j : Nat) : slotAt (burnChecked s (mbxImgConfirm m s) fails) j = slotAt (confirmImage (inTurn s m) m k) j := by
    rw [slotAt, hstay, ← slotAt, hrun, hkept.slotAt]
  have hsame : (mbxImgConfirm m s).rim.otp = s.rim.otp ↔ confirmedLevel s k = s.rim.otp.rollback := by
    rw [hotp]
    exact ⟨fun heq => congrArg Otp.rollback heq, fun heq => by rw [heq]⟩
  have hdiff : decide ((mbxImgConfirm m s).rim.otp ≠ s.rim.otp) = (confirmedLevel s k != s.rim.otp.rollback) := by
    rw [Bool.eq_iff_iff, decide_eq_true_iff, bne_iff_ne, ne_eq, ne_eq, hsame]
  refine ⟨?_, fun hverified => ?_, ?_, ?_⟩
  · rw [hburned, hdiff, hotp]
  · rw [burnChecked_of_verified (hverified.imp_right hsame.mpr)]
    exact hanswers
  · rw [hslot, hdone.slot]
    rfl
  · rw [hslot, hdone.other]
    rfl

/-! ### The board record -/

/-- BOARD_WRITE writes a valid record. -/
theorem mbxBoardWrite_answers (hm : m < s.rim.boxes.length) (hpf0 : m % 2 = 0) (h : Ready s m 0x22 0)
    (hvalid : boardOk (reqBytes s m) = true) :
    Answers s (mbxBoardWrite m s) m [] ∧
      (mbxBoardWrite m s).rim = { s.rim with
        board := (reqBytes s m).take (leAt (reqBytes s m) 4 2), boxes := (mbxBoardWrite m s).rim.boxes, boxLast := m } ∧
      mbxBoardWrite m s = { s with
        regs := (mbxBoardWrite m s).regs, out := (mbxBoardWrite m s).out, rim := (mbxBoardWrite m s).rim } := by
  have hrun : mbxBoardWrite m s = respond (withRim (inTurn s m) (fun r => { r with
      board := (reqBytes s m).take (leAt (reqBytes s m) 4 2) })) m stOk [] :=
    serve_of_ready h (fun _ => hpf0) (fun hmin => absurd hmin.symm Bool.false_ne_true) (if_pos hvalid)
  rw [hrun]
  refine ⟨answers_of_kept (u := withRim (inTurn s m) (fun r => { r with board := (reqBytes s m).take (leAt (reqBytes s m) 4 2) }))
    hm rfl rfl rfl _, ?_⟩
  obtain ⟨⟨regs, out, boxes, hresp⟩, -⟩ := respond_footprint (withRim (inTurn s m) (fun r => { r with
      board := (reqBytes s m).take (leAt (reqBytes s m) 4 2) })) m stOk []
  rw [hresp]
  exact ⟨rfl, rfl⟩

end

end Sys2Proof.Machine
end

