-- ==== Sys2Proof/Proofs/LifecycleRequests.lean ====
section
/-! PROOF. LIFECYCLE (16/R476): a transition that pends, one whose key does not verify, and one to RETIRED. -/

namespace Sys2Proof.Machine

section
variable {s t u : State} {m : Nat}

/-- Once an attestation key is burned if none was, a key stands, and one that stood is the same. -/
theorem burnKey_facts (s : State) : ∃ fresh dak,
    burnKey s = { s with fresh := fresh, rim := { s.rim with otp := { s.rim.otp with dak := dak } } } ∧
      dak.isSome = true ∧ (s.rim.otp.dak.isSome = true → dak = s.rim.otp.dak) := by
  unfold burnKey
  split
  · next h => exact ⟨s.fresh, s.rim.otp.dak, rfl, h, fun _ => rfl⟩
  · next h => exact ⟨_, _, rfl, rfl, fun hsome => absurd hsome h⟩

/-- A transition that pends: its target, and a key where the target is PROVISIONED. -/
structure Pends (s t : State) (target : Nat) : Prop where
  rim : ∃ dak, t.rim = { s.rim with otp := { s.rim.otp with dak := dak }, pendingLc := target } ∧
    (target = 1 → dak.isSome = true) ∧ (target ≠ 1 ∨ s.rim.otp.dak.isSome = true → dak = s.rim.otp.dak)
  cells : t.regs.cells = s.regs.cells
  next : s.log.next < t.log.next

theorem requestLifecycle_pends (s : State) {target : Nat} (h : target ≠ 3) : Pends s (requestLifecycle s target) target := by
  obtain ⟨log, fresh, hlog⟩ := rimLog_eq s 0x31 true (le 1 s.rim.lifecycle ++ le 1 target ++ le 2 0)
  have hnext : s.log.next < log.next := by
    have := next_rimLog s 0x31 true (le 1 s.rim.lifecycle ++ le 1 target ++ le 2 0)
    rwa [hlog] at this
  have hrun : requestLifecycle s target =
      withRim (if target = 1 then burnKey (logLifecycle s s.rim.lifecycle target 0)
        else logLifecycle s s.rim.lifecycle target 0) (fun r => { r with pendingLc := target }) := if_neg h
  rw [hrun, logLifecycle, hlog]
  split
  · obtain ⟨fresh', dak, hkey, hsome, hkept⟩ := burnKey_facts { s with log := log, fresh := fresh }
    rw [hkey]
    exact ⟨⟨dak, rfl, fun _ => hsome, fun hor => hkept (hor.resolve_left fun hne => hne ‹_›)⟩, rfl, hnext⟩
  · next hne => exact ⟨⟨s.rim.otp.dak, rfl, fun heq => absurd heq hne, fun _ => rfl⟩, rfl, hnext⟩

/-- Once the lifecycle's last fuses are burned. -/
def retired (s : State) : State := withRim s (fun r => { r with otp := { r.otp with lifecycle := 3 } })

/-- A transition to RETIRED burns its fuses. -/
theorem requestLifecycle_retires (s : State) : (requestLifecycle s 3).rim = (retired s).rim := by
  have hasked := recorded_logLifecycle s s.rim.lifecycle 3 0
  have hburned := recorded_logLifecycle (retired (logLifecycle s s.rim.lifecycle 3 0)) s.rim.lifecycle 3 1
  have hretired : (retired (logLifecycle s s.rim.lifecycle 3 0)).rim = (retired s).rim := by
    rw [retired, withRim, hasked.rim]
    rfl
  unfold requestLifecycle
  dsimp only
  rw [if_pos rfl, (recorded_rimEventPost ..).rim, raiseEv_rim, ← retired]
  exact hburned.rim.trans hretired

/-! ### The request served -/

/-- A request for a transition of Table 16-8, answered. -/
def lifecycleAnswered (s : State) (m target : Nat) : State := respond (requestLifecycle (inTurn s m) target) m stOk []

/-- What LIFECYCLE does with a request for a transition of the table: a burn that does not verify is found, and a verified
one to RETIRED starts the reset. -/
theorem mbxLifecycle_eq (hpf0 : m % 2 = 0) {target : Nat} (fails : Bool) (h : Ready s m 0x20 8)
    (htarget : target = byteAt (reqBytes s m) 0 % 4) (hkey : leAt (reqBytes s m) 4 4 = 0x4C435943)
    (hrow : (s.rim.lifecycle = 0 ∧ target = 1) ∨ (s.rim.lifecycle = 1 ∧ target = 2) ∨ (s.rim.lifecycle < 3 ∧ target = 3))
    (hmode : s.rim.minimal = false ∨ target = 3) :
    mbxLifecycle m fails s =
      if s.rim.otp.lifecycle ≠ 3 ∧ (burnChecked s (lifecycleAnswered s m target) fails).rim.otp.lifecycle = 3 ∧ fails = false then
        startTransition (burnChecked s (lifecycleAnswered s m target) fails) 1 0
      else burnChecked s (lifecycleAnswered s m target) fails := by
  subst htarget
  unfold mbxLifecycle
  rw [serve_of_ready (u := requestLifecycle (inTurn s m) (byteAt (reqBytes s m) 0 % 4)) (status := stOk) (data := []) h
    (fun _ => hpf0) (fun hmin => absurd hmin.symm Bool.false_ne_true)]
  · rfl
  · have hrow' : ¬ (leAt (reqBytes s m) 4 4 ≠ 0x4C435943 ∨ ¬ (((inTurn s m).rim.lifecycle = 0 ∧ byteAt (reqBytes s m) 0 % 4 = 1) ∨
        ((inTurn s m).rim.lifecycle = 1 ∧ byteAt (reqBytes s m) 0 % 4 = 2) ∨
        ((inTurn s m).rim.lifecycle < 3 ∧ byteAt (reqBytes s m) 0 % 4 = 3))) :=
      not_or.mpr ⟨not_not.mpr hkey, not_not.mpr hrow⟩
    have hmode' : ¬ ((inTurn s m).rim.minimal ∧ byteAt (reqBytes s m) 0 % 4 ≠ 3) := fun ⟨hmin, hne⟩ =>
      hne (hmode.resolve_left fun hfull => Bool.false_ne_true (hfull.symm.trans hmin))
    dsimp only
    rw [if_neg hrow', if_neg hmode']

/-- A transition to PROVISIONED or SEALED pends, where its key, if one is burned, verifies. -/
theorem mbxLifecycle_pends (hm : m < s.rim.boxes.length) (hpf0 : m % 2 = 0) {target : Nat} (fails : Bool) (h : Ready s m 0x20 8)
    (htarget : target = byteAt (reqBytes s m) 0 % 4) (hkey : leAt (reqBytes s m) 4 4 = 0x4C435943)
    (hlife : s.rim.otp.lifecycle ≠ 3) (hnext : s.rim.lifecycle + 1 = target) (hlow : target < 3) (hfull : s.rim.minimal = false) :
    (fails = false ∨ target = 2 ∨ s.rim.otp.dak.isSome = true →
      Answers s (mbxLifecycle m fails s) m [] ∧ (mbxLifecycle m fails s).rim.pendingLc = target ∧
      (mbxLifecycle m fails s).rim.lifecycle = s.rim.lifecycle ∧
      (mbxLifecycle m fails s).rim.otp.lifecycle = s.rim.otp.lifecycle ∧
      (target = 1 → (mbxLifecycle m fails s).rim.otp.dak.isSome = true) ∧
      (s.rim.otp.dak.isSome = true → (mbxLifecycle m fails s).rim.otp = s.rim.otp) ∧
      s.log.next < (mbxLifecycle m fails s).log.next) ∧
    (target = 1 → fails = true → s.rim.otp.dak = none →
      (mbxLifecycle m fails s).rim.otp.dak.isSome = true ∧ (mbxLifecycle m fails s).rim.otp.faulty = true) := by
  have hasked := requestLifecycle_pends (inTurn s m) (target := target) (by omega)
  obtain ⟨⟨dak, hrim, hone, hsame⟩, hcells, hlogged⟩ := hasked
  have hkept := responded_respond (requestLifecycle (inTurn s m) target) m stOk []
  have hotp : (lifecycleAnswered s m target).rim.otp = { s.rim.otp with dak := dak } := by
    rw [lifecycleAnswered, hkept.otp, hrim]
    rfl
  obtain ⟨hburned, -⟩ := burnChecked_facts (s := s) (t := lifecycleAnswered s m target) fails
  have hrun : mbxLifecycle m fails s = burnChecked s (lifecycleAnswered s m target) fails := by
    rw [mbxLifecycle_eq hpf0 fails h htarget hkey (by omega) (.inl hfull), if_neg]
    rintro ⟨-, hthree, -⟩
    rw [hburned, hotp] at hthree
    exact hlife hthree
  refine ⟨fun hverified => ?_, fun htarget1 hfails hnone => ?_⟩
  · have hverified' : fails = false ∨ (lifecycleAnswered s m target).rim.otp = s.rim.otp := by
      refine hverified.imp_right fun hor => ?_
      rw [hotp, hsame (hor.imp_left fun h2 => by omega)]
      rfl
    rw [hrun, burnChecked_of_verified hverified', hotp]
    refine ⟨answers_of_kept hm ?_ ?_ hcells _, ?_, ?_, rfl, hone, fun hsome => ?_, ?_⟩
    · rw [hrim]; rfl
    · rw [hrim]; rfl
    · rw [lifecycleAnswered, hkept.pendingLc, hrim]
    · rw [lifecycleAnswered, hkept.lifecycle, hrim]; rfl
    · rw [hsame (.inr hsome)]; rfl
    · rw [lifecycleAnswered, hkept.log]; exact hlogged
  · have hdak := hone htarget1
    have hchanged : (lifecycleAnswered s m target).rim.otp ≠ s.rim.otp := by
      intro heq
      rw [← heq, hotp] at hnone
      exact Bool.false_ne_true ((congrArg Option.isSome hnone).symm.trans hdak)
    rw [hrun, hburned, hotp, ← hotp, hfails]
    exact ⟨by rw [hotp]; exact hdak, by simp [hchanged]⟩

/-- A transition to RETIRED burns its fuses, whether or not they verify. -/
theorem mbxLifecycle_retires (hpf0 : m % 2 = 0) {target : Nat} (fails : Bool) (h : Ready s m 0x20 8)
    (htarget : target = byteAt (reqBytes s m) 0 % 4) (hkey : leAt (reqBytes s m) 4 4 = 0x4C435943)
    (hlife : s.rim.otp.lifecycle ≠ 3) (hlow : s.rim.lifecycle < 3) (hthree : target = 3) :
    (mbxLifecycle m fails s).rim.otp = { s.rim.otp with lifecycle := 3, faulty := s.rim.otp.faulty || fails } ∧
      (mbxLifecycle m fails s).rim.slots = s.rim.slots := by
  have hkept := responded_respond (requestLifecycle (inTurn s m) 3) m stOk []
  have hotp : (lifecycleAnswered s m 3).rim.otp = { s.rim.otp with lifecycle := 3 } := by
    rw [lifecycleAnswered, hkept.otp, requestLifecycle_retires]
    rfl
  have hslots : (lifecycleAnswered s m 3).rim.slots = s.rim.slots := by
    rw [lifecycleAnswered, hkept.slots, requestLifecycle_retires]
    rfl
  have hchanged : (lifecycleAnswered s m 3).rim.otp ≠ s.rim.otp := by
    intro heq
    rw [← heq, hotp] at hlife
    exact hlife rfl
  obtain ⟨hburned, hstay⟩ := burnChecked_facts (s := s) (t := lifecycleAnswered s m 3) fails
  have hends : FusesKept (burnChecked s (lifecycleAnswered s m 3) fails) (mbxLifecycle m fails s) := by
    rw [mbxLifecycle_eq hpf0 fails h htarget hkey (by omega) (.inr hthree), hthree]
    exact .of_ite (fusesKept_startTransition ..) (.refl _)
  rw [hends.otp, hends.slots, hburned, hstay, hotp, ← hotp, decide_eq_true hchanged, hslots, hotp, Bool.and_true]
  exact ⟨rfl, rfl⟩

end

end Sys2Proof.Machine
end

