-- ==== Sys2Proof/Proofs/OrderlyResets.lean ====
section
/-! PROOF. An orderly reset begins (16/R475): attention is raised on a device whose scheduler holds nothing, and the open
epoch begins to close. -/

namespace Sys2Proof.Machine

section
variable {s t : State}

/-- A scheduler whose matching store is empty, whose waiting items all are tasks of a code, and whose engines are idle. -/
structure HoldsOnly (s : State) (code : Nat) : Prop where
  waiting : ∀ i ∈ s.sched.stalled ++ s.sched.store ++ s.sched.ready.flatten, i.kind = .task ∧ i.code = code
  engines : ∀ e, (engineAt s e).item = none
  idle : enginesIdle s = true

theorem mem_flatten_setAt {α : Type} {l : List (List α)} {n : Nat} {x : List α} {a : α} (h : a ∈ (setAt l n x).flatten) :
    a ∈ x ∨ a ∈ l.flatten := by
  induction l generalizing n with
  | nil => exact .inr h
  | cons b l ih =>
    cases n with
    | zero =>
      rw [setAt, List.flatten_cons, List.mem_append] at h
      exact h.imp_right fun hl => by rw [List.flatten_cons]; exact List.mem_append_right _ hl
    | succ n =>
      rw [setAt, List.flatten_cons, List.mem_append] at h
      rw [List.flatten_cons, List.mem_append]
      obtain hb | hl := h
      · exact .inr (.inl hb)
      · exact (ih hl).imp_right .inr

theorem getD_eq_nil_of_flatten {α : Type} {l : List (List α)} (h : l.flatten = []) (n : Nat) : l.getD n [] = [] := by
  rw [List.flatten_eq_nil_iff] at h
  rw [List.getD_eq_getElem?_getD]
  cases hl : l[n]? with
  | none => rfl
  | some x => exact h x (List.mem_of_getElem? hl)

/-- A complete item that alone waits for the empty matching store joins the tail of its ready list. -/
theorem settleReady_sched {i : Item} (hstore : s.sched.store = []) (hstalled : s.sched.stalled = [i])
    (hlisted : s.sched.listed < 4096) (hi : i.complete = true) :
    (settleReady s).sched = { s.sched with
      stalled := [], store := []
      ready := setAt s.sched.ready i.prio (s.sched.ready.getD i.prio [] ++ [{ i with listed := s.time.tick }]) } := by
  have hadmits : s.sched.admits i = true := by
    simp only [SchedState.admits, hstore, List.length_nil, decide_eq_true_eq]
    split <;> omega
  have htaken : takeStalled s.sched.stalled.length s.sched = { s.sched with stalled := [], store := [i] } := by
    simp [hstalled, takeStalled, hadmits, hstore]
  have hlisted' : SchedState.listed { s.sched with stalled := [], store := [i] } < 4096 := hlisted
  simp only [settleReady, withSched, htaken]
  simp [readyAll, readyOne, hi, hlisted']

/-- A task that waits for the matching store. -/
def taskWaits (s : State) (code prio : Nat) (params : List Byte) : State :=
  withSched s (fun x => { x with stalled := x.stalled ++ [taskItem s code prio params], nextSeq := x.nextSeq + 1 })

/-- A task posted to a scheduler that holds nothing is all that it holds. -/
theorem holdsOnly_raiseTask (hempty : s.sched.items = []) (code prio : Nat) (params : List Byte) :
    HoldsOnly (raiseTask s code prio params) code := by
  obtain ⟨hstore, hready, hengines, hstalled⟩ := items_empty hempty
  obtain ⟨-, -, hstore', hstalled'⟩ := stillAnswers_raiseTask hempty code prio params
  have hnone : ∀ e ∈ s.sched.engines, e.item = none := List.filterMap_eq_nil_iff.mp hengines
  have hsched : (raiseTask s code prio params).sched.engines = s.sched.engines ∧
      (raiseTask s code prio params).sched.ready =
        setAt s.sched.ready prio (s.sched.ready.getD prio [] ++ [taskItem s code prio params]) := by
    have hwaits : (taskWaits s code prio params).sched.stalled = [taskItem s code prio params] := by
      simp [taskWaits, withSched, hstalled]
    have hlisted : (taskWaits s code prio params).sched.listed < 4096 :=
      Nat.lt_of_le_of_lt (listed_of_empty hempty).le (by decide)
    have hrun : raiseTask s code prio params = settleReady (taskWaits s code prio params) := rfl
    rw [hrun, settleReady_sched (s := taskWaits s code prio params) hstore hwaits hlisted rfl]
    exact ⟨rfl, rfl⟩
  obtain ⟨hsame, hlists⟩ := hsched
  refine ⟨fun i hi => ?_, fun e => ?_, ?_⟩
  · rw [hstore', hstalled', hlists] at hi
    obtain hi | hi := mem_flatten_setAt hi
    · rw [getD_eq_nil_of_flatten hready] at hi
      rw [List.mem_singleton.mp hi]
      exact ⟨rfl, rfl⟩
    · rw [hready] at hi
      exact absurd hi List.not_mem_nil
  · rw [engineAt, hsame, List.getD_eq_getElem?_getD]
    cases he : s.sched.engines[e]? with
    | none => rfl
    | some x => exact hnone x (List.mem_of_getElem? he)
  · rw [enginesIdle, hsame, List.all_eq_true]
    exact fun e he => Option.isNone_iff_eq_none.mpr (hnone e he)

/-- Attention raised on a device whose scheduler holds nothing has its effect at once. -/
theorem raiseAttention_of_empty (hempty : s.sched.items = []) :
    raiseAttention s = attentionDone (raiseTask (withSched s (fun x => { x with attention := true })) 0xF002 3 []) := by
  have hholds := holdsOnly_raiseTask (s := withSched s (fun x => { x with attention := true })) hempty 0xF002 3 []
  unfold raiseAttention
  extract_lets waiting s1 s2 s3 s4
  obtain ⟨hwaiting, hengines, -⟩ : HoldsOnly s1 0xF002 := hholds
  have hcommands : (waiting s1.sched).filter (fun i => i.kind == .command) = [] := by
    refine List.filter_eq_nil_iff.mpr fun i hi => ?_
    rw [(hwaiting i hi).1]
    decide
  have hlate : (waiting s1.sched).filter (fun i => i.kind == .task && decide (0xF004 ≤ i.code)) = [] := by
    refine List.filter_eq_nil_iff.mpr fun i hi => ?_
    rw [(hwaiting i hi).1, (hwaiting i hi).2]
    decide
  have h2 : s2 = s1 := by unfold s2; rw [hcommands]; rfl
  have h3 : s3 = s1 := by unfold s3; rw [h2, hlate]; rfl
  have h4 : s4 = s1 := by
    unfold s4
    rw [h3]
    refine List.foldl_fixed' (fun e => ?_) _
    rw [hengines e]
  rw [h4]

/-- The open epoch begins to close for a transition, when no close runs (R308). -/
theorem beginClose_of_opened {tr : Transition} (hclosing : s.lid.closing = none) (hopened : s.lid.opened = true) :
    (beginClose s tr).rim = { s.rim with transition := some { tr with closing := true, since := s.time.tick } } ∧
      (beginClose s tr).lid.closing = some (closeBegun s 5 0 (closingLife s)) := by
  have hrun : beginClose s tr = closeOpen
      { s with rim := { s.rim with transition := some { tr with closing := true, since := s.time.tick } } } 5 0
      (closingLife s) := by
    unfold beginClose
    dsimp only
    rw [hclosing, hopened]
    rfl
  obtain ⟨sched, hclose⟩ := closeOpen_eq
    { s with rim := { s.rim with transition := some { tr with closing := true, since := s.time.tick } } } 5 0 (closingLife s)
  rw [hrun, hclose]
  exact ⟨rfl, rfl⟩

/-- A transition under way is noted in the Rim. -/
def transitionNoted (s : State) (tr : Transition) : State := { s with rim := { s.rim with transition := some tr } }

/-- Attention that a transition raises has its effect when the engines are idle. -/
theorem attentionDone_of_idle {tr : Transition} (htr : s.rim.transition = some tr) (hbegins : tr.closing = false)
    (hidle : enginesIdle s = true) : attentionDone s = beginClose s tr := by
  rw [attentionDone, htr]
  dsimp only
  rw [hbegins, hidle]
  rfl

/-- A task posted leaves the Rim, the Lid and time as they are. -/
theorem raiseTask_kept (s : State) (code prio : Nat) (params : List Byte) : (raiseTask s code prio params).rim = s.rim ∧
    (raiseTask s code prio params).lid = s.lid ∧ (raiseTask s code prio params).time = s.time := ⟨rfl, rfl, rfl⟩

/-- Attention raised for a transition, with an idle scheduler and an open epoch, closes that epoch at once. -/
theorem raiseAttention_closes {tr : Transition} (htr : s.rim.transition = some tr) (hbegins : tr.closing = false)
    (hempty : s.sched.items = []) (hclosing : s.lid.closing = none) (hopened : s.lid.opened = true) :
    (raiseAttention s).rim = { s.rim with transition := some { tr with closing := true, since := s.time.tick } } ∧
      ∃ c, (raiseAttention s).lid.closing = some c ∧ c.closeHow = 5 ∧ c.epoch.seq = s.lid.epoch.seq := by
  obtain ⟨-, -, hidle⟩ := holdsOnly_raiseTask (s := withSched s (fun x => { x with attention := true })) hempty 0xF002 3 []
  obtain ⟨hrim, hlid, htime⟩ := raiseTask_kept (withSched s (fun x => { x with attention := true })) 0xF002 3 []
  rw [raiseAttention_of_empty hempty]
  generalize raiseTask (withSched s (fun x => { x with attention := true })) 0xF002 3 [] = w at *
  have hrim' : w.rim = s.rim := hrim
  have hlid' : w.lid = s.lid := hlid
  have htime' : w.time = s.time := htime
  obtain ⟨hdone, hclose⟩ := beginClose_of_opened (s := w) (tr := tr) (by rw [hlid', hclosing]) (by rw [hlid', hopened])
  rw [attentionDone_of_idle (by rw [hrim', htr]) hbegins hidle, hdone, hclose, hrim', htime', ← hlid']
  exact ⟨rfl, _, rfl, rfl, rfl⟩

/-- A transition that begins with an idle scheduler and an open epoch closes that epoch at once. -/
theorem startTransition_of_empty {kind mode : Nat} (hcalm : s.rim.transition = none) (hempty : s.sched.items = [])
    (hpower : s.power.state ≠ 2) (hclosing : s.lid.closing = none) (hopened : s.lid.opened = true) :
    (startTransition s kind mode).rim = { s.rim with transition := some ⟨kind, mode, true, s.time.tick⟩ } ∧
      ∃ c, (startTransition s kind mode).lid.closing = some c ∧ c.closeHow = 5 ∧ c.epoch.seq = s.lid.epoch.seq := by
  have hcalm' : s.rim.transition.isSome = false := by rw [hcalm]; rfl
  have hrun : startTransition s kind mode = raiseAttention (transitionNoted s ⟨kind, mode, false, s.time.tick⟩) := by
    unfold startTransition
    dsimp only
    rw [hcalm', if_neg Bool.false_ne_true, if_neg hpower, transitionNoted]
  rw [hrun]
  exact raiseAttention_closes (s := transitionNoted s ⟨kind, mode, false, s.time.tick⟩) rfl rfl hempty hclosing hopened

/-! ### RESET -/

variable {m : Nat}

/-- A normal reset is logged; one to minimal mode is not. -/
def resetLogged (s : State) (m : Nat) : State :=
  if bit (byteAt (reqBytes s m) 0) 0 then inTurn s m else rimLog (inTurn s m) 6 true (le 1 m)

theorem resetLogged_eq (s : State) (m : Nat) : ∃ log fresh, resetLogged s m = { inTurn s m with log := log, fresh := fresh } := by
  unfold resetLogged
  split
  · exact ⟨_, _, rfl⟩
  · exact rimLog_eq ..

/-- The mode of the start that follows a reset of the mailbox. -/
def resetMode (s : State) (m : Nat) : Nat := if bit (byteAt (reqBytes s m) 0) 0 then 8 else if stillHot s then 6 else 0

/-- What the answer to RESET leaves as it was. -/
theorem resetAnswered_kept (s : State) (m : Nat) :
    (∃ boxes, (respond (resetLogged s m) m stOk []).rim = { s.rim with boxes := boxes, boxLast := m }) ∧
      (respond (resetLogged s m) m stOk []).sched = s.sched ∧ (respond (resetLogged s m) m stOk []).power = s.power ∧
      (respond (resetLogged s m) m stOk []).lid = s.lid ∧ (respond (resetLogged s m) m stOk []).time = s.time := by
  obtain ⟨⟨regs, out, boxes, h⟩, -⟩ := respond_footprint (resetLogged s m) m stOk []
  obtain ⟨log, fresh, hlogged⟩ := resetLogged_eq s m
  rw [h, hlogged]
  exact ⟨⟨boxes, rfl⟩, rfl, rfl, rfl, rfl⟩

theorem resetAnswered_box (hm : m < s.rim.boxes.length) :
    boxAt (respond (resetLogged s m) m stOk []) m = ⟨false, true, stOk⟩ := by
  obtain ⟨log, fresh, hlogged⟩ := resetLogged_eq s m
  rw [hlogged]
  exact (answers_of_kept (s := s) (u := { inTurn s m with log := log, fresh := fresh }) hm rfl rfl rfl []).box

theorem mbxReset_eq (hm : m < s.rim.boxes.length) (hpf0 : m % 2 = 0) (h : Ready s m 0x21 1) :
    mbxReset m s = startTransition (respond (resetLogged s m) m stOk []) 0 (resetMode s m) := by
  unfold mbxReset
  dsimp only
  rw [serve_of_ready (u := resetLogged s m) (status := stOk) (data := []) h (fun _ => hpf0)
    (fun hmin => absurd hmin.symm Bool.false_ne_true) rfl]
  rw [h.1, resetAnswered_box hm, if_pos (by decide), resetMode]

/-- RESET is answered, and an orderly reset begins. -/
theorem mbxReset_closes (hm : m < s.rim.boxes.length) (hpf0 : m % 2 = 0) (h : Ready s m 0x21 1)
    (hcalm : s.rim.transition = none) (hempty : s.sched.items = []) (hpower : s.power.state ≠ 2)
    (hclosing : s.lid.closing = none) (hopened : s.lid.opened = true) :
    ∃ c, boxAt (mbxReset m s) m = ⟨false, true, stOk⟩ ∧
      (mbxReset m s).rim.transition = some ⟨0, resetMode s m, true, s.time.tick⟩ ∧
      (mbxReset m s).lid.closing = some c ∧ c.closeHow = 5 ∧ c.epoch.seq = s.lid.epoch.seq ∧
      (mbxReset m s).rim.otp = s.rim.otp := by
  have hbox := resetAnswered_box (s := s) hm
  obtain ⟨⟨boxes, hrim⟩, hsched, hpow, hlid, htime⟩ := resetAnswered_kept s m
  rw [mbxReset_eq hm hpf0 h]
  generalize respond (resetLogged s m) m stOk [] = t at *
  obtain ⟨hclosed, c, hc, hhow, hseq⟩ := startTransition_of_empty (s := t) (kind := 0) (mode := resetMode s m)
    (by rw [hrim]; exact hcalm) (by rw [hsched]; exact hempty) (by rw [hpow]; exact hpower) (by rw [hlid]; exact hclosing)
    (by rw [hlid]; exact hopened)
  refine ⟨c, ?_, ?_, hc, hhow, by rw [hseq, hlid], ?_⟩
  · rw [boxAt, hclosed]
    exact hbox
  · rw [hclosed, htime]
  · rw [hclosed, hrim]

end

end Sys2Proof.Machine
end

