-- ==== Sys2Proof/Proofs/MailboxCommands.lean ====
section
/-! PROOF. O60, assembled from the operations of the mailboxes (16/R468, R475, R476, R478–R480, R485, R487). -/

namespace Sys2Proof.Machine

/-- Settles O60: each operation is worked on and answered as its own lemma says. -/
theorem mailboxCommands : Obligations.MailboxCommands := by
  intro s m hm hparts p ready answers only
  obtain ⟨-, -, -, -, -, -, -, -, -, hboxes, hslots⟩ := hparts
  have hbox : m < s.rim.boxes.length := by omega
  have answered {t : State} {data : List Byte} (h : Answers s t m data) : answers t data :=
    ⟨h.box, h.last, h.tag, h.status, h.length, h.data⟩
  refine ⟨fun h => ?_, fun h hkept => ?_, fun h => ?_, fun h => ?_, fun h => ?_, fun hpf0 => ⟨?_, ?_, ?_, ?_, ?_, ?_⟩⟩
  · obtain ⟨honly, h⟩ := mbxInfo_answers hbox h
    exact ⟨_, rfl, honly, answered h⟩
  · obtain ⟨honly, h⟩ := mbxLogRead_answers hbox h hkept
    exact ⟨_, rfl, honly, answered h⟩
  · obtain ⟨honly, h⟩ := mbxCertRead_answers hbox h
    exact ⟨_, rfl, honly, answered h⟩
  · obtain ⟨honly, h⟩ := mbxAttest_answers hbox h
    exact ⟨_, _, rfl, honly, length_le .., answered h⟩
  · obtain ⟨honly, h⟩ := mbxSensorRead_answers hbox h
    exact ⟨_, rfl, honly, answered h⟩
  · intro n k h hn htrial howner hmin hmax hfree
    obtain ⟨h, hrest⟩ := mbxImgBegin_answers hbox hpf0 hslots h hn htrial howner hmin hmax hfree
    exact ⟨_, rfl, answered h, hrest⟩
  · intro u hu howner hslot
    refine ⟨fun h hfits hshort => ?_, fun h hsound => ?_⟩
    · obtain ⟨h, hrest⟩ := mbxImgData_answers hbox hpf0 hslots h hu howner hslot hfits hshort
      exact ⟨_, rfl, answered h, hrest⟩
    · obtain ⟨h, hrest⟩ := mbxImgEnd_answers hbox hpf0 hslots h hu howner hslot hsound
      exact ⟨_, rfl, answered h, hrest⟩
  · intro k b h hfull hstarted hrunning hk htrying level
    obtain ⟨hotp, h, hrest⟩ := imgConfirm_answers hbox hpf0 hslots b h hfull hstarted hrunning hk htrying
    exact ⟨_, rfl, hotp, fun hverified => answered (h hverified), hrest⟩
  · intro dst b h hdst hkey hlife
    refine ⟨fun hnext hlow hfull hverified => ?_, fun hnext hone hfull hfails hnone => ?_, fun hlow hthree => ?_⟩
    · obtain ⟨h, hrest⟩ := (mbxLifecycle_pends hbox hpf0 b h hdst hkey hlife hnext hlow hfull).1 hverified
      exact ⟨_, rfl, answered h, hrest⟩
    · exact ⟨_, rfl, (mbxLifecycle_pends hbox hpf0 b h hdst hkey hlife hnext (by omega) hfull).2 hone hfails hnone⟩
    · exact ⟨_, rfl, mbxLifecycle_retires hpf0 b h hdst hkey hlife hlow hthree⟩
  · intro h hcalm hempty hpower hclosing hopened
    obtain ⟨c, hclosed⟩ := mbxReset_closes hbox hpf0 h hcalm hempty hpower hclosing hopened
    exact ⟨_, c, rfl, hclosed⟩
  · intro h hvalid
    obtain ⟨h, hrest⟩ := mbxBoardWrite_answers hbox hpf0 h hvalid
    exact ⟨_, rfl, answered h, hrest⟩

end Sys2Proof.Machine
end
